-- ==== Sys2Proof/Word.lean ====
section
/-! DEFINITION. The words of the VXD-880 and their plainest arithmetic (spec R6, R8: little-endian, bits numbered from 0). -/

namespace Sys2Proof

/-- One byte. -/
abbrev Byte := BitVec 8
/-- A 64-bit scalar, instruction or register word (R18, R61). -/
abbrev Word := BitVec 64
/-- A 64-byte beat, vector register or window record (R2, R18). -/
abbrev Beat := BitVec 512

/-- Field `[hi:lo]` of a number, as a number (R6). -/
def field (x hi lo : Nat) : Nat := x / 2 ^ lo % 2 ^ (hi + 1 - lo)

/-- Bit `i` of a number (R6). -/
def bitOf (x i : Nat) : Bool := x / 2 ^ i % 2 == 1

/-- `n` bytes of a number, least significant first (R6). -/
def bytesLE : Nat → Nat → List Byte
  | 0, _ => []
  | n + 1, x => BitVec.ofNat 8 x :: bytesLE n (x / 256)

/-- The number whose bytes, least significant first, are given (R6). -/
def ofBytesLE : List Byte → Nat
  | [] => 0
  | b :: bs => b.toNat + 256 * ofBytesLE bs

/-- The number whose bytes, most significant first, are given (R92). -/
def ofBytesBE (bs : List Byte) : Nat := bs.foldl (fun a b => 256 * a + b.toNat) 0

/-- Two's complement reading of the low `w` bits. -/
def toSigned (w x : Nat) : Int :=
  let m := x % 2 ^ w
  if w ≠ 0 ∧ 2 ^ (w - 1) ≤ m then (m : Int) - 2 ^ w else m

/-- The low `w` bits of an integer, as a number. -/
def wrapNat (w : Nat) (x : Int) : Nat := (x % (2 ^ w : Int)).toNat

/-- Ceiling of a division of naturals. -/
def ceilDiv (a b : Nat) : Nat := (a + b - 1) / b

/-- Number of ones among the low `n` bits. -/
def popBits : Nat → Nat → Nat
  | 0, _ => 0
  | n + 1, x => x % 2 + popBits n (x / 2)

end Sys2Proof
end

