-- ==== Sys2Proof/Syntax.lean ====
section
/-! DEFINITION. The steps of the VXD-880: the words of the Tabrad set, one constructor per row of the opcode table with the operands R61 to R68 and chapters 05 to 09 give it, and the device steps of the same table (spec file 95: each whole and indivisible), which the spec gives no encoding and whose arguments name the agent that acts. -/

namespace Sys2Proof

/-- s0-s31 (R18). -/
abbrev SReg := Fin 32
/-- v0-v31 (R18). -/
abbrev VReg := Fin 32
/-- k0-k7 (R18). -/
abbrev KReg := Fin 8
/-- c0-c15 (R18). -/
abbrev CReg := Fin 16

/-- Rounding modes (R40). -/
inductive RM where
  | rne | rtz | rdn | rup | rna | sa | sb | rod
deriving DecidableEq, Repr

/-- Type codes 0x00-0x14 (R34, R35, R37, R50, R54). -/
inductive Ty where
  | i8 | n8 | i16 | n16 | i32 | n32 | i64 | n64
  | f16 | bf16 | f32 | f64 | e4m3 | e5m2 | e3m2 | e2m3 | e2m1
  | i4 | e8m0 | sd | cap
deriving DecidableEq, Repr

/-- The guard GN, GK (R61, R62). -/
structure Guard where
  neg : Bool
  k : KReg
deriving DecidableEq, Repr

/-- Completion scopes (R196, R244). -/
inductive Scope where
  | region | device | system
deriving DecidableEq, Repr

/-- An s or v register. -/
inductive SV where
  | s (r : SReg)
  | v (r : VReg)
deriving DecidableEq, Repr

/-- An s, v or c register (R177). -/
inductive SVC where
  | s (r : SReg)
  | v (r : VReg)
  | c (r : CReg)
deriving DecidableEq, Repr

/-- A c or s register (R203). -/
inductive CS where
  | c (r : CReg)
  | s (r : SReg)
deriving DecidableEq, Repr

/-- The class pairs of mov (R115). -/
inductive MovOp where
  | ss (d a : SReg)
  | sl (d : SReg) (a : Fin 2)
  | ls (d : Fin 2) (a : SReg)
  | vv (d a : VReg)
  | cc (d a : CReg)
deriving DecidableEq, Repr

/-- Context `ctx` of the tile that is logical element `elem` of residency `rid` (R18, R82). -/
structure CtxRef where
  rid : Nat
  elem : Nat
  ctx : Nat
deriving DecidableEq, Repr

/-- A logical element of a residency (R82). -/
structure ElemRef where
  rid : Nat
  elem : Nat
deriving DecidableEq, Repr

/-- A window of an element (R24). -/
structure WinRef where
  rid : Nat
  elem : Nat
  win : Nat
deriving DecidableEq, Repr

/-- An input channel of an element (R23). -/
structure ChanRef where
  rid : Nat
  elem : Nat
  vc : Nat
deriving DecidableEq, Repr

/-- An accumulator bank of a tile (R22). -/
structure BankRef where
  rid : Nat
  elem : Nat
  bank : Nat
deriving DecidableEq, Repr

/-- A barrier of a tile (R27). -/
structure BarRef where
  rid : Nat
  elem : Nat
  bar : Nat
deriving DecidableEq, Repr

/-- An address generator of an element (R89). -/
structure GenRef where
  rid : Nat
  elem : Nat
  gen : Nat
deriving DecidableEq, Repr

/-- An edge port of a fabric die, and so its island (R14). -/
structure PortRef where
  die : Nat
  port : Nat
deriving DecidableEq, Repr

/-- A posting-list query context (R211). -/
structure QueryRef where
  die : Nat
  q : Nat
deriving DecidableEq, Repr

/-- A configured pool object, by its device slot (R298). -/
structure PoolRef where
  slot : Nat
deriving DecidableEq, Repr

/-- One shard of a pool object (R298). -/
structure ShardRef where
  slot : Nat
  die : Nat
deriving DecidableEq, Repr

/-- A 64 KiB page of a table half (R281, R282); `vpage` is VA bits [56:16]. -/
structure PageRef where
  asid : Nat
  bulk : Bool
  vpage : Nat
deriving DecidableEq, Repr

/-- A link of a die: a port or bridge (R344). -/
structure LinkRef where
  die : Nat
  port : Nat
deriving DecidableEq, Repr

/-- What a window-transport beat carries (R220-R222, R373). -/
inductive PeerBody where
  | fill (tag elem win : Nat) (beat : Beat) (last : Bool)
  | segment (coll step : Nat) (bytes : List Byte) (last : Bool)
  | arrive (barrier : Nat) (member : Nat)
  /-- an access of a member's space 4 to this device's shared half of main: its offset, and the bytes of a store (R279) -/
  | access (offset : Nat) (store : Option (List Byte))
deriving DecidableEq, Repr

/-- A beat of the window transport, numbered within its flow (R373). -/
structure PeerBeat where
  flow : Nat
  seq : Nat
  body : PeerBody
deriving DecidableEq, Repr

/-- Register form of format A over s registers (R108). -/
structure SSSOps where
  g : Guard
  (d a b : SReg)
deriving DecidableEq, Repr

/-- Immediate form of format I (R108). -/
structure SSIOps where
  g : Guard
  (d a : SReg)
  imm : BitVec 32
deriving DecidableEq, Repr

/-- cmp, register form (R110). -/
structure KSSOps where
  g : Guard
  d : KReg
  (a b : SReg)
deriving DecidableEq, Repr

/-- cmp, immediate form (R110). -/
structure KSIOps where
  g : Guard
  d : KReg
  a : SReg
  imm : BitVec 32
deriving DecidableEq, Repr

/-- sel (R111). -/
structure SSSKOps where
  g : Guard
  (d a b : SReg)
  k : KReg
deriving DecidableEq, Repr

/-- One source, one destination (R112). -/
structure SSOps where
  g : Guard
  (d a : SReg)
deriving DecidableEq, Repr

/-- bfi (R113). -/
structure SSSSOps where
  g : Guard
  (d a b c : SReg)
deriving DecidableEq, Repr

/-- li and lih (R114). -/
structure SIOps where
  g : Guard
  d : SReg
  imm : BitVec 32
deriving DecidableEq, Repr

/-- mov (R115). -/
structure MovOps where
  g : Guard
  op : MovOp
deriving DecidableEq, Repr

/-- Predicate logic (R116). -/
structure KKKOps where
  g : Guard
  (d a b : KReg)
deriving DecidableEq, Repr

/-- knot (R116). -/
structure KKOps where
  g : Guard
  (d a : KReg)
deriving DecidableEq, Repr

/-- kmov, kpopc, kfirst to s (R117). -/
structure SKOps where
  g : Guard
  d : SReg
  a : KReg
deriving DecidableEq, Repr

/-- kmov to k (R117). -/
structure KSOps where
  g : Guard
  d : KReg
  a : SReg
deriving DecidableEq, Repr

/-- cnarrow (R119). -/
structure CCSSOps where
  g : Guard
  (d a : CReg)
  (b c : SReg)
deriving DecidableEq, Repr

/-- cperm (R120). -/
structure CCSOps where
  g : Guard
  (d a : CReg)
  b : SReg
deriving DecidableEq, Repr

/-- cget (R121). -/
structure CGetOps where
  g : Guard
  d : SReg
  a : CReg
  sel : Fin 8
deriving DecidableEq, Repr

/-- cld (R122). -/
structure CLdOps where
  g : Guard
  (d a : CReg)
  b : SReg
  col : Fin 8
  acq : Bool
deriving DecidableEq, Repr

/-- cst (R123). -/
structure CStOps where
  g : Guard
  a : CReg
  b : SReg
  c : CReg
  col : Fin 8
  rel : Bool
deriving DecidableEq, Repr

/-- loop (R124); `d` = s0 selects the count in the word. -/
structure LoopOps where
  lc : Fin 2
  d : SReg
  stop : BitVec 12
  count : BitVec 20
deriving DecidableEq, Repr

/-- lmask (R126). -/
structure LMaskOps where
  d : KReg
  m : SReg
  lc : Fin 2
  sticky : Bool
deriving DecidableEq, Repr

/-- trap (R129). -/
structure TrapOps where
  g : Guard
  d : SReg
  imm : BitVec 32
deriving DecidableEq, Repr

/-- smov (R131). -/
structure SmovOps where
  g : Guard
  d : SReg
  reg : BitVec 12
deriving DecidableEq, Repr

/-- ctxctl (R132). -/
structure CtxCtlOps where
  g : Guard
  (d x : SReg)
deriving DecidableEq, Repr

/-- mark (R134). -/
structure MarkOps where
  g : Guard
  d : SReg
deriving DecidableEq, Repr

/-- tsamp (R135). -/
structure TsampOps where
  g : Guard
  oc : Fin 32
deriving DecidableEq, Repr

/-- brkpt, immediate form (R136). -/
structure BrkOps where
  g : Guard
  imm : BitVec 32
deriving DecidableEq, Repr

/-- brkpt, armed form (R136). -/
structure BrkArmedOps where
  g : Guard
  oc : Fin 32
  n : BitVec 32
deriving DecidableEq, Repr

/-- tlbinv (R137). -/
structure TlbinvOps where
  g : Guard
  (d x : SReg)
  all : Bool
deriving DecidableEq, Repr

/-- post (R138). -/
structure PostOps where
  g : Guard
  d : VReg
  block : BitVec 16
deriving DecidableEq, Repr

/-- vadd, vsub, vmul (R143). MOD bit 3 negates a C that they do not have (R140; log 17). -/
structure VBinOps where
  g : Guard
  rm : RM
  ty : Ty
  (sat negA negC : Bool)
  (d a : VReg)
  b : SV
deriving DecidableEq, Repr

/-- vfma (R143). -/
structure VFmaOps where
  g : Guard
  rm : RM
  ty : Ty
  (sat negA negC : Bool)
  (d a : VReg)
  b : SV
  c : VReg
deriving DecidableEq, Repr

/-- vmin, vmax (R143). -/
structure VMinMaxOps where
  g : Guard
  rm : RM
  ty : Ty
  sat : Bool
  (d a : VReg)
  b : SV
deriving DecidableEq, Repr

/-- vabs, vneg (R143). -/
structure VUnSOps where
  g : Guard
  rm : RM
  ty : Ty
  sat : Bool
  (d a : VReg)
deriving DecidableEq, Repr

/-- vdiv (R144). -/
structure VDivOps where
  g : Guard
  rm : RM
  ty : Ty
  (d a : VReg)
  b : SV
deriving DecidableEq, Repr

/-- vsqrt, vexp2, vlog2 (R144). -/
structure VUnOps where
  g : Guard
  rm : RM
  ty : Ty
  (d a : VReg)
deriving DecidableEq, Repr

/-- vcmp (R145). -/
structure VCmpOps where
  g : Guard
  ty : Ty
  d : KReg
  a : VReg
  b : SV
deriving DecidableEq, Repr

/-- vsel (R146). -/
structure VSelOps where
  g : Guard
  ty : Ty
  (d a : VReg)
  b : SV
  k : KReg
deriving DecidableEq, Repr

/-- vector logic, shifts and vperm (R146, R153). -/
structure VBitsOps where
  g : Guard
  ty : Ty
  (d a : VReg)
  b : SV
deriving DecidableEq, Repr

/-- vcvt and vrnd (R147). -/
structure VCvtOps where
  g : Guard
  rm : RM
  (ty sty : Ty)
  sat : Bool
  part : Fin 16
  (d a : VReg)
deriving DecidableEq, Repr

/-- vcvt, channel form (R142, R147). -/
structure VCvtChOps where
  g : Guard
  rm : RM
  (ty sty : Ty)
  sat : Bool
  part : Fin 16
  d : VReg
  a : Fin 32
deriving DecidableEq, Repr

/-- vscale (R147). -/
structure VScaleOps where
  g : Guard
  rm : RM
  (ty sty : Ty)
  sat : Bool
  part : Fin 16
  (d a : VReg)
  b : SReg
deriving DecidableEq, Repr

/-- vpack (R148); `b` is v0 for the 6-bit types. -/
structure VPackOps where
  g : Guard
  ty : Ty
  (d a : VReg)
  b : Option SV
deriving DecidableEq, Repr

/-- vunpack (R148). -/
structure VUnpackOps where
  g : Guard
  ty : Ty
  half : Bool
  (d a : VReg)
deriving DecidableEq, Repr

/-- vbsc (R149). -/
structure VBscOps where
  g : Guard
  rm : RM
  ty : Ty
  (sat src32 half : Bool)
  (d a : VReg)
  c : SReg
deriving DecidableEq, Repr

/-- vbsx (R150). -/
structure VBsxOps where
  g : Guard
  rm : RM
  (ty dst : Ty)
  sat : Bool
  part : Fin 16
  (d a : VReg)
  b : SReg
deriving DecidableEq, Repr

/-- vhad (R151). -/
structure VHadOps where
  g : Guard
  rm : RM
  ty : Ty
  size : Fin 4
  (d a : VReg)
deriving DecidableEq, Repr

/-- vred (R152). -/
structure VRedOps where
  g : Guard
  rm : RM
  ty : Ty
  sat : Bool
  d : SReg
  a : VReg
deriving DecidableEq, Repr

/-- vbcst (R153). -/
structure VFromSOps where
  g : Guard
  ty : Ty
  d : VReg
  a : SReg
deriving DecidableEq, Repr

/-- vins (R153). -/
structure VInsOps where
  g : Guard
  ty : Ty
  d : VReg
  (a b : SReg)
deriving DecidableEq, Repr

/-- vext (R153). -/
structure VExtOps where
  g : Guard
  ty : Ty
  d : SReg
  a : VReg
  b : SReg
deriving DecidableEq, Repr

/-- vsort (R154). -/
structure VSortOps where
  g : Guard
  ty : Ty
  desc : Bool
  (d a : VReg)
deriving DecidableEq, Repr

/-- vhist (R155). -/
structure VHistOps where
  g : Guard
  ty : Ty
  a : VReg
  b : SReg
  win : Fin 16
deriving DecidableEq, Repr

/-- vsdc (R156). -/
structure VSdcOps where
  g : Guard
  ty : Ty
  half : Bool
  (d a : VReg)
deriving DecidableEq, Repr

/-- vsdc, channel form (R142, R156). -/
structure VSdcChOps where
  g : Guard
  ty : Ty
  half : Bool
  d : VReg
  a : Fin 32
deriving DecidableEq, Repr

/-- vsdadd (R157). -/
structure VSdAddOps where
  g : Guard
  (d a : VReg)
  b : SV
deriving DecidableEq, Repr

/-- vsdcmp (R158). -/
structure VSdCmpOps where
  g : Guard
  d : KReg
  a : VReg
  b : SV
  c : SReg
deriving DecidableEq, Repr

/-- vclass (R159). -/
structure VClassOps where
  g : Guard
  ty : Ty
  (d a : VReg)
deriving DecidableEq, Repr

/-- vdot (R160). -/
structure VDotOps where
  g : Guard
  ty : Ty
  sat : Bool
  sign : Fin 4
  (d a : VReg)
  b : SV
  c : VReg
deriving DecidableEq, Repr

/-- mbld, mbld.diag, mbsp (R165). -/
structure MBOps where
  g : Guard
  acc : Fin 4
  slot : Fin 64
  wb : Fin 16
  bty : Ty
  mask : BitVec 16
deriving DecidableEq, Repr

/-- mrow (R169). -/
structure MRowOps where
  g : Guard
  rm : RM
  acc : Fin 4
  zf : Bool
  row : Fin 64
  vca : Fin 32
  sch : Option (Fin 32)
  bty : Ty
  n : Fin 128
deriving DecidableEq, Repr

/-- mroww, mroww.sp (R170). -/
structure MRowWOps where
  g : Guard
  rm : RM
  acc : Fin 4
  zf : Bool
  row : Fin 64
  aty : Ty
  sch : Option (Fin 32)
  wb : Fin 16
  bty : Ty
  n : Fin 128
  off : Fin 512
deriving DecidableEq, Repr

/-- mzero (R171). -/
structure MNOps where
  g : Guard
  acc : Fin 4
  row : Fin 64
  n : Fin 128
deriving DecidableEq, Repr

/-- mout (R172). -/
structure MOutOps where
  g : Guard
  rm : RM
  acc : Fin 4
  zf : Bool
  row : Fin 64
  oc : Fin 32
  sat : Bool
  oty : Ty
  n : Fin 128
deriving DecidableEq, Repr

/-- mscale, SIDE 0 (R166). -/
structure MScaleWOps where
  g : Guard
  acc : Fin 4
  wb : Fin 16
  off : BitVec 16
deriving DecidableEq, Repr

/-- mscale, SIDE 1 (R166). -/
structure MScaleCOps where
  g : Guard
  acc : Fin 4
  code : Byte
deriving DecidableEq, Repr

/-- mbias (R173). -/
structure MBiasOps where
  g : Guard
  rm : RM
  acc : Fin 4
  row : Fin 64
  wb : Fin 16
  n : Fin 128
  off : Fin 512
deriving DecidableEq, Repr

/-- mrd (R174). -/
structure MRdOps where
  g : Guard
  acc : Fin 4
  row : Fin 64
  wb : Fin 16
  n : Fin 128
deriving DecidableEq, Repr

/-- mwr (R174). -/
structure MWrOps where
  g : Guard
  acc : Fin 4
  row : Fin 64
  wb : Fin 16
  n : Fin 128
  off : Fin 512
deriving DecidableEq, Repr

/-- mslot (R175). -/
structure MSlotOps where
  g : Guard
  slot : Fin 16
  entry : Fin 16
deriving DecidableEq, Repr

/-- wfill (R180). -/
structure WFillOps where
  g : Guard
  win : Fin 16
  sz : Fin 6
  d : SVC
deriving DecidableEq, Repr

/-- wread and wupd (R180). -/
structure WOffOps where
  g : Guard
  win : Fin 16
  sz : Fin 6
  d : SVC
  a : SReg
  imm : BitVec 16
deriving DecidableEq, Repr

/-- wshrink (R180). -/
structure WShrinkOps where
  g : Guard
  win : Fin 16
  a : SReg
  imm : BitVec 16
deriving DecidableEq, Repr

/-- wstat (R181). -/
structure WStatOps where
  g : Guard
  win : Fin 16
  d : SReg
  high : Bool
deriving DecidableEq, Repr

/-- wsave (R183). -/
structure WSaveOps where
  g : Guard
  win : Fin 16
  col : Fin 8
  d : CReg
  a : SReg
  keep : Bool
deriving DecidableEq, Repr

/-- wrest (R184). -/
structure WRestOps where
  g : Guard
  win : Fin 16
  col : Fin 8
  d : CReg
  a : SReg
  cap : BitVec 16
deriving DecidableEq, Repr

/-- recv (R185). -/
structure RecvOps where
  g : Guard
  vc : Fin 32
  d : SV
deriving DecidableEq, Repr

/-- peek (R185). -/
structure PeekOps where
  g : Guard
  vc : Fin 32
  d : SV
  a : SReg
  imm : BitVec 16
deriving DecidableEq, Repr

/-- send (R186). -/
structure SendOps where
  g : Guard
  oc : Fin 32
  d : SV
deriving DecidableEq, Repr

/-- vcset (R187). -/
structure VcSetOps where
  g : Guard
  vc : Fin 32
  d : SReg
deriving DecidableEq, Repr

/-- bar.init (R189). -/
structure BarInitOps where
  g : Guard
  d : SReg
  bar : Fin 96
deriving DecidableEq, Repr

/-- bar.arrive, bar.wait, bar.aw (R189); `ar` is .rel or .acq. -/
structure BarOps where
  g : Guard
  ar : Bool
  d : SReg
  bar : Fin 96
deriving DecidableEq, Repr

/-- bar.remote (R190). -/
structure BarRemoteOps where
  g : Guard
  rel : Bool
  d : SReg
  target : BitVec 16
deriving DecidableEq, Repr

/-- mld and mst (R192); `ar` is .acq or .rel. -/
structure MemOps where
  g : Guard
  cap : CReg
  col : Fin 8
  ar : Bool
  sz : Fin 6
  d : SV
  a : SReg
  imm : BitVec 16
deriving DecidableEq, Repr

/-- mwrt (R194). -/
structure MWrtOps where
  g : Guard
  cap : CReg
  vc : Fin 32
  col : Fin 8
  d : SReg
  a : SReg
  imm : BitVec 16
deriving DecidableEq, Repr

/-- mreq (R195). -/
structure MReqOps where
  g : Guard
  isl : Byte
  a : CReg
  (b c : SReg)
  col : Fin 8
  m : Fin 16
deriving DecidableEq, Repr

/-- wreq (R195). -/
structure WReqOps where
  g : Guard
  (a b c : SReg)
  col : Fin 8
  m : Fin 16
deriving DecidableEq, Repr

/-- fence (R196). -/
structure FenceOps where
  g : Guard
  mask : Byte
deriving DecidableEq, Repr

/-- ctok (R197). -/
structure CtokOps where
  g : Guard
  mask : Byte
  oc : Fin 32
  scope : Scope
deriving DecidableEq, Repr

/-- cpy (R203); a c register in B is WDST 0, an s register WDST 1. -/
structure CpyOps where
  g : Guard
  isl : Byte
  d : SReg
  a : CReg
  b : CS
  c : SReg
  col : Fin 8
  rel : Bool
deriving DecidableEq, Repr

/-- cpyq, gth, sct (R204, R206). -/
structure Cpy3Ops where
  g : Guard
  isl : Byte
  d : SReg
  (a b : CReg)
  c : SReg
  col : Fin 8
  rel : Bool
deriving DecidableEq, Repr

/-- Non-fetching atomic (R207). -/
structure AtOps where
  g : Guard
  isl : Byte
  a : CReg
  (b c : SReg)
  col : Fin 8
  rel : Bool
  typ : Fin 8
deriving DecidableEq, Repr

/-- Fetching atomic (R207, R208). -/
structure AtFOps where
  g : Guard
  isl : Byte
  d : SReg
  a : CReg
  (b c : SReg)
  col : Fin 8
  rel : Bool
  typ : Fin 8
deriving DecidableEq, Repr

/-- acas (R207). -/
structure ACasOps where
  g : Guard
  isl : Byte
  d : SReg
  a : CReg
  (b c : SReg)
  col : Fin 8
  rel : Bool
deriving DecidableEq, Repr

/-- acas.q (R207). -/
structure ACasQOps where
  g : Guard
  isl : Byte
  d : SReg
  a : CReg
  b : SReg
  c : VReg
  col : Fin 8
  rel : Bool
deriving DecidableEq, Repr

/-- Engine word with D, A and B (R212, R213, R218). -/
structure PSSOps where
  g : Guard
  isl : Byte
  (d a b : SReg)
deriving DecidableEq, Repr

/-- plterm (R213). -/
structure PSCOps where
  g : Guard
  isl : Byte
  (d a : SReg)
  b : CReg
deriving DecidableEq, Repr

/-- plrun (R214). -/
structure PRunOps where
  g : Guard
  isl : Byte
  (d a b : SReg)
  col : Fin 8
  rel : Bool
deriving DecidableEq, Repr

/-- plabort (R216). -/
structure PSOps where
  g : Guard
  isl : Byte
  (d a : SReg)
deriving DecidableEq, Repr

/-- plresume (R216). -/
structure PResumeOps where
  g : Guard
  isl : Byte
  (d a : SReg)
  col : Fin 8
  rel : Bool
deriving DecidableEq, Repr

/-- pins (R218). -/
structure PinsOps where
  g : Guard
  isl : Byte
  (d a b : SReg)
  rel : Bool
deriving DecidableEq, Repr

/-- ptake, ptry (R218). -/
structure PTakeOps where
  g : Guard
  isl : Byte
  (d a b : SReg)
  k : KReg
  acq : Bool
deriving DecidableEq, Repr

/-- xfill, xred (R220, R221). -/
structure XFillROps where
  g : Guard
  isl : Byte
  d : SReg
  a : CReg
  (b c : SReg)
  col : Fin 8
  rel : Bool
deriving DecidableEq, Repr

/-- xbar (R222). -/
structure XBarOps where
  g : Guard
  isl : Byte
  (d a : SReg)
  ar : Bool
deriving DecidableEq, Repr

/-- The steps of the machine, one constructor per row of spec/opcode_table.json. -/
inductive Instr where
  | add (o : SSSOps)
  | addImm (o : SSIOps)
  | sub (o : SSSOps)
  | subImm (o : SSIOps)
  | mul (o : SSSOps)
  | mulImm (o : SSIOps)
  | mulh (o : SSSOps)
  | mulhImm (o : SSIOps)
  | mulhN (o : SSSOps)
  | mulhNImm (o : SSIOps)
  | mulhSn (o : SSSOps)
  | mulhSnImm (o : SSIOps)
  | div (o : SSSOps)
  | divImm (o : SSIOps)
  | divN (o : SSSOps)
  | divNImm (o : SSIOps)
  | rem (o : SSSOps)
  | remImm (o : SSIOps)
  | remN (o : SSSOps)
  | remNImm (o : SSIOps)
  | and_ (o : SSSOps)
  | andImm (o : SSIOps)
  | or_ (o : SSSOps)
  | orImm (o : SSIOps)
  | xor (o : SSSOps)
  | xorImm (o : SSIOps)
  | andn (o : SSSOps)
  | andnImm (o : SSIOps)
  | shl (o : SSSOps)
  | shlImm (o : SSIOps)
  | shr (o : SSSOps)
  | shrImm (o : SSIOps)
  | sra (o : SSSOps)
  | sraImm (o : SSIOps)
  | rot (o : SSSOps)
  | rotImm (o : SSIOps)
  | min (o : SSSOps)
  | minImm (o : SSIOps)
  | minN (o : SSSOps)
  | minNImm (o : SSIOps)
  | max (o : SSSOps)
  | maxImm (o : SSIOps)
  | maxN (o : SSSOps)
  | maxNImm (o : SSIOps)
  | cmpEq (o : KSSOps)
  | cmpEqImm (o : KSIOps)
  | cmpNe (o : KSSOps)
  | cmpNeImm (o : KSIOps)
  | cmpLt (o : KSSOps)
  | cmpLtImm (o : KSIOps)
  | cmpLe (o : KSSOps)
  | cmpLeImm (o : KSIOps)
  | cmpLtN (o : KSSOps)
  | cmpLtNImm (o : KSIOps)
  | cmpLeN (o : KSSOps)
  | cmpLeNImm (o : KSIOps)
  | sel (o : SSSKOps)
  | clz (o : SSOps)
  | ctz (o : SSOps)
  | popc (o : SSOps)
  | extI8 (o : SSOps)
  | extN8 (o : SSOps)
  | extI16 (o : SSOps)
  | extN16 (o : SSOps)
  | extI32 (o : SSOps)
  | extN32 (o : SSOps)
  | bfx (o : SSSOps)
  | bfxI (o : SSSOps)
  | bfi (o : SSSSOps)
  | li (o : SIOps)
  | lih (o : SIOps)
  | mov (o : MovOps)
  | kand (o : KKKOps)
  | kor (o : KKKOps)
  | kxor (o : KKKOps)
  | kandn (o : KKKOps)
  | knot (o : KKOps)
  | kmovKToS (o : SKOps)
  | kmovSToK (o : KSOps)
  | kpopc (o : SKOps)
  | kfirst (o : SKOps)
  | cnarrow (o : CCSSOps)
  | cperm (o : CCSOps)
  | cget (o : CGetOps)
  | cld (o : CLdOps)
  | cst (o : CStOps)
  | loop (o : LoopOps)
  | lmask (o : LMaskOps)
  | end_
  | nop
  | trap (o : TrapOps)
  | smovRead (o : SmovOps)
  | smovWrite (o : SmovOps)
  | ctxctlFreeze (o : CtxCtlOps)
  | ctxctlResume (o : CtxCtlOps)
  | ctxctlKill (o : CtxCtlOps)
  | ctxctlRestart (o : CtxCtlOps)
  | markRound (o : MarkOps)
  | markCheckpoint (o : MarkOps)
  | markCut (o : MarkOps)
  | tsamp (o : TsampOps)
  | brkpt (o : BrkOps)
  | brkptArmed (o : BrkArmedOps)
  | tlbinv (o : TlbinvOps)
  | post (o : PostOps)
  | vadd (o : VBinOps)
  | vsub (o : VBinOps)
  | vmul (o : VBinOps)
  | vfma (o : VFmaOps)
  | vmin (o : VMinMaxOps)
  | vmax (o : VMinMaxOps)
  | vabs (o : VUnSOps)
  | vneg (o : VUnSOps)
  | vdiv (o : VDivOps)
  | vsqrt (o : VUnOps)
  | vexp2 (o : VUnOps)
  | vlog2 (o : VUnOps)
  | vcmpEq (o : VCmpOps)
  | vcmpNe (o : VCmpOps)
  | vcmpLt (o : VCmpOps)
  | vcmpLe (o : VCmpOps)
  | vcmpUn (o : VCmpOps)
  | vsel (o : VSelOps)
  | vand (o : VBitsOps)
  | vor (o : VBitsOps)
  | vxor (o : VBitsOps)
  | vandn (o : VBitsOps)
  | vshl (o : VBitsOps)
  | vshr (o : VBitsOps)
  | vsra (o : VBitsOps)
  | vcvt (o : VCvtOps)
  | vcvtChannel (o : VCvtChOps)
  | vrnd (o : VCvtOps)
  | vscale (o : VScaleOps)
  | vpack (o : VPackOps)
  | vunpack (o : VUnpackOps)
  | vbsc (o : VBscOps)
  | vbsx (o : VBsxOps)
  | vhad (o : VHadOps)
  | vredAdd (o : VRedOps)
  | vredMin (o : VRedOps)
  | vredMax (o : VRedOps)
  | vperm (o : VBitsOps)
  | vbcst (o : VFromSOps)
  | vins (o : VInsOps)
  | vext (o : VExtOps)
  | vsort (o : VSortOps)
  | vhist (o : VHistOps)
  | vsdc (o : VSdcOps)
  | vsdcChannel (o : VSdcChOps)
  | vsdadd (o : VSdAddOps)
  | vsdcmp (o : VSdCmpOps)
  | vclass (o : VClassOps)
  | vdot (o : VDotOps)
  | mbld (o : MBOps)
  | mbldDiag (o : MBOps)
  | mbsp (o : MBOps)
  | mrow (o : MRowOps)
  | mroww (o : MRowWOps)
  | mrowwSp (o : MRowWOps)
  | mzero (o : MNOps)
  | mout (o : MOutOps)
  | mscaleWindow (o : MScaleWOps)
  | mscaleCode (o : MScaleCOps)
  | mbias (o : MBiasOps)
  | mrd (o : MRdOps)
  | mwr (o : MWrOps)
  | mslot (o : MSlotOps)
  | wfill (o : WFillOps)
  | wread (o : WOffOps)
  | wupd (o : WOffOps)
  | wshrink (o : WShrinkOps)
  | wstat (o : WStatOps)
  | wsave (o : WSaveOps)
  | wrest (o : WRestOps)
  | recv (o : RecvOps)
  | peek (o : PeekOps)
  | send (o : SendOps)
  | vcset (o : VcSetOps)
  | barInit (o : BarInitOps)
  | barArrive (o : BarOps)
  | barWait (o : BarOps)
  | barAw (o : BarOps)
  | barRemote (o : BarRemoteOps)
  | mld (o : MemOps)
  | mst (o : MemOps)
  | mwrt (o : MWrtOps)
  | mreq (o : MReqOps)
  | wreq (o : WReqOps)
  | fenceRegion (o : FenceOps)
  | fenceDevice (o : FenceOps)
  | fenceSystem (o : FenceOps)
  | ctok (o : CtokOps)
  | cpy (o : CpyOps)
  | cpyq (o : Cpy3Ops)
  | gth (o : Cpy3Ops)
  | sct (o : Cpy3Ops)
  | aadd (o : AtOps)
  | aaddF (o : AtFOps)
  | amin (o : AtOps)
  | aminF (o : AtFOps)
  | amax (o : AtOps)
  | amaxF (o : AtFOps)
  | aand (o : AtOps)
  | aandF (o : AtFOps)
  | aor (o : AtOps)
  | aorF (o : AtFOps)
  | axor (o : AtOps)
  | axorF (o : AtFOps)
  | axchg (o : AtOps)
  | axchgF (o : AtFOps)
  | acas (o : ACasOps)
  | acasQ (o : ACasQOps)
  | plq (o : PSSOps)
  | plterm (o : PSCOps)
  | plvec (o : PSSOps)
  | plfuseLin (o : PSSOps)
  | plfuseRrf (o : PSSOps)
  | plrunOr (o : PRunOps)
  | plrunAnd (o : PRunOps)
  | plrunWand (o : PRunOps)
  | plabort (o : PSOps)
  | plresume (o : PResumeOps)
  | pins (o : PinsOps)
  | ptake (o : PTakeOps)
  | ptry (o : PTakeOps)
  | pstat (o : PSSOps)
  | pcfg (o : PSSOps)
  | xfill (o : XFillROps)
  | xred (o : XFillROps)
  | xbar (o : XBarOps)
  | bSwap
  | matrixRowFiring
  | windowWaiterRelease
  | remoteArrival
  | copyCompletion
  | sparseUpdateApply
  | chunkDecode
  | chunkCommit
  | queryRunEnd
  | pcfgApply
  | poolInsertAccept
  | poolTakeTest
  | migrationAnswer
  | migrationArrival
  | topNotesSend
  | topNotesArrival
  | remoteTake
  | agreementWave
  | emptyClearing
  | peerBeatArrival
  | peerRetransmit
  | engineAccept
  | engineReply
  | issueGrant
  | arbWeightStep
  | taskInputsEnded
  | fillAccept
  | arrivalToken
  | controlTokenPass
  | controlBeat
  | addressGeneratorBeat
  | pass
  | fork
  | steer
  | merge
  | amerge
  | carry
  | join
  | gate
  | const
  | sink
  | count
  | select
  | sequentialController
  | pipelinedController
  | streamingController
  | contextSwitch
  | contextFetchDone
  | contextStoreAdd
  | launchPortWrite
  | launch
  | token
  | cancel
  | close
  | release
  | badKind
  | blockScheduler
  | ageStepExpiry
  | residencyEnd
  | tokenForward
  | launchDrained
  | eventRecordFill
  | eventShrink
  | roundMarker
  | checkpointMarker
  | drainComplete
  | saveComplete
  | lateData
  | restore
  | stallWatchDeclare
  | trapLetterDelivery
  | pageWalkDone
  | deadLetterResolve
  | spillWriteRetry
  | migration
  | faultHead
  | faultAnswer
  | invalGo
  | linkRetry
  | linkDown
  | regionKill
  | regionStop
  | stopRelease
  | linkBrk
  | captureStart
  | captureStop
  | devReset
  | powerOn
  | conventionalReset
  | bootStageComplete
  | fwLoad
  | powerRun
  | powerIdle
  | powerPark
  | powerTransitionDone
  | thermalTrip
  | lcAdvance
  | revokeGo
  | attestGo
  | bar0RegisterWrite
  | idcode
  | devid
  | debugFreeze
  | freezePin
  | thaw
  | debugSelect
  | debugRead
  | debugToken
  | bypass
  | accessComplete
  | threadTokenAccepted
  | cumulativeAcknowledgement
  | ethernetLinkChange
  | powerRemoval
  | launchErrClear
deriving DecidableEq, Repr

/-- Which agent a device step acts on and what arrives with it, where the step is not the hub's own: the value that a step of spec file 95 names in its description.  The machine holds it beside the step (State.arg). -/
inductive StepArg where
  | none
  | elem (e : ElemRef)
  | ctx (r : CtxRef)
  | win (w : WinRef)
  | chan (c : ChanRef)
  | reply (c : ChanRef)
  | bank (b : BankRef)
  | gen (g : GenRef)
  | port (p : PortRef)
  | query (q : QueryRef) (lane : Nat)
  | shard (p : ShardRef)
  | pool (p : PoolRef)
  | page (p : PageRef)
  | link (l : LinkRef)
  | id (n : Nat)
  | reg (off : Nat) (w : Word)
  | data (off : Nat) (bytes : List Byte)
  | bool (b : Bool)
  | beat (m : PeerBeat)
  | access (id : Nat) (scope : Scope)
  | kill (e : ElemRef) (who : Nat)
  | temp (die : Nat) (t : BitVec 8)
  | eth (port : Nat) (up : Bool)
  | ack (flow upTo : Nat)
deriving DecidableEq, Repr

end Sys2Proof
end

