-- ==== Sys2Proof/WellFormed.lean ====
section
/-! DEFINITION. Which operand combinations are instructions: the checks of R62, R66, R69 and of the entries that the operand types do not already enforce. -/

namespace Sys2Proof

/-- Integer lane types i8-n64 (R66). -/
def Ty.isInt : Ty → Bool
  | .i8 | .n8 | .i16 | .n16 | .i32 | .n32 | .i64 | .n64 => true
  | _ => false

/-- f16, bf16, f32, f64 (R66). -/
def Ty.isFloat : Ty → Bool
  | .f16 | .bf16 | .f32 | .f64 => true
  | _ => false

/-- The five small floating-point formats of R35. -/
def Ty.isSmall : Ty → Bool
  | .e4m3 | .e5m2 | .e3m2 | .e2m3 | .e2m1 => true
  | _ => false

/-- Codes 0x00-0x12: what vcvt, vrnd and vscale take on either side (R66, R147). -/
def Ty.isConv : Ty → Bool
  | .sd | .cap => false
  | _ => true

/-- Signed integer types (R34). -/
def Ty.isSigned : Ty → Bool
  | .i8 | .i16 | .i32 | .i64 | .i4 => true
  | _ => false

/-- Register width of a lane (R139); 6-bit types in byte form. -/
def Ty.width : Ty → Nat
  | .i64 | .n64 | .f64 | .sd => 64
  | .i32 | .n32 | .f32 => 32
  | .i16 | .n16 | .f16 | .bf16 => 16
  | .i8 | .n8 | .e4m3 | .e5m2 | .e8m0 | .e3m2 | .e2m3 => 8
  | .e2m1 | .i4 => 4
  | .cap => 128

/-- Lanes of a v register (R139). -/
def Ty.lanes (t : Ty) : Nat := 512 / t.width

/-- GK = 0 with GN = 1 is reserved (R62). -/
def Guard.ok (g : Guard) : Bool := !(g.neg && g.k == 0)

/-- RM and TY of an arithmetic word: any mode with a float, rne with an integer (R66). -/
def rmTyOk (rm : RM) (t : Ty) : Bool := t.isFloat || (t.isInt && rm == .rne)

/-- Types of B operands the array implements (R162, R163). -/
def Ty.isMatB : Ty → Bool
  | .bf16 | .f16 | .e4m3 | .e5m2 | .e3m2 | .e2m3 | .e2m1 | .i8 | .i4 => true
  | _ => false

/-- Output types of mout (R172); which of them a bank admits depends on its profile. -/
def Ty.isMout : Ty → Bool
  | .f32 | .bf16 | .f16 | .e4m3 | .e5m2 | .i32 | .i16 | .i8 => true
  | _ => false

/-- Registers a Hadamard group of `size` code `s` spans (R151). -/
def hadSpan (t : Ty) (s : Nat) : Nat := max 1 (8 * 2 ^ s * t.width / 512)

/-- Two ranges of registers are identical or disjoint (R151). -/
def sameOrApart (d a k : Nat) : Bool := d == a || d + k ≤ a || a + k ≤ d

/-- Access classes of the registers of R28. -/
inductive SysAccess where
  | ro | rw | roSW | s
deriving DecidableEq, Repr

/-- The register table of R28: the access of a number, if it is assigned. -/
def sysAccess (n : Nat) : Option SysAccess :=
  if n == 0x000 || n == 0x001 || n == 0x007 || (0x00A ≤ n && n ≤ 0x00C) || n == 0x010 then some .ro
  else if 0x002 ≤ n && n ≤ 0x006 then some .rw
  else if n == 0x008 || n == 0x009 then some .roSW
  else if 0x020 ≤ n && n ≤ 0x03F then some .rw
  else if 0x100 ≤ n && n ≤ 0x10F then some .roSW
  else if n == 0x110 || n == 0x111 || n == 0x120 || n == 0x130 then some .ro
  else if 0x140 ≤ n && n ≤ 0x15F then some .ro
  else if 0x180 ≤ n && n ≤ 0x1DF then some .rw
  else if n == 0x200 || n == 0x203 || n == 0x210 || n == 0x211 then some .s
  else if n == 0x201 || n == 0x202 || n == 0x360 then some .ro
  else if 0x300 ≤ n && n ≤ 0x35F then some .roSW
  else none

/-- The first of `n` consecutive s registers is one of s1 to s(32 - n) (R198). -/
def seqOk (r : SReg) (n : Nat) : Bool := 1 ≤ r.val && r.val ≤ 32 - n

/-- Rows n of 1-64 with ROW + n at most 64 (R162). -/
def rowsOk (row : Fin 64) (n : Fin 128) : Bool := 1 ≤ n.val && row.val + n.val ≤ 64

/-- SZ 0-3 take s or v, SZ 4-5 take v only (R192). -/
def memSzOk (sz : Fin 6) : SV → Bool
  | .s _ => sz.val ≤ 3
  | .v _ => true

/-- z within the register: 8 bytes for s, 64 for v, 16 exactly for c (R178). -/
def winSzOk (sz : Fin 6) : SVC → Bool
  | .s _ => sz.val ≤ 3
  | .v _ => true
  | .c _ => sz.val == 4

/-- loop: a count register leaves the count field 0 (R124). -/
def LoopOps.ok (o : LoopOps) : Bool := o.d == 0 || o.count == 0

/-- tlbinv: ALL takes no registers (R137). -/
def TlbinvOps.ok (o : TlbinvOps) : Bool := !o.all || (o.d == 0 && o.x == 0)

/-- vcvt, vrnd, vscale: types and PART (R147). -/
def cvtOk (ty sty : Ty) (part : Nat) : Bool :=
  ty.isConv && sty.isConv && part < max ty.width sty.width / min ty.width sty.width

/-- vpack (R148). -/
def VPackOps.ok (o : VPackOps) : Bool :=
  match o.ty with
  | .e2m1 | .i4 => o.b.isSome
  | .e3m2 | .e2m3 => o.b.isNone
  | _ => false

/-- vunpack (R148). -/
def VUnpackOps.ok (o : VUnpackOps) : Bool :=
  match o.ty with
  | .e2m1 | .i4 => true
  | .e3m2 | .e2m3 => !o.half
  | _ => false

/-- vbsc (R149). -/
def VBscOps.ok (o : VBscOps) : Bool :=
  (o.ty.isSmall || o.ty == .i8) && (!o.half || o.ty == .e2m1) && o.a.val + (if o.src32 then 3 else 1) ≤ 31

/-- vbsx (R150). -/
def VBsxOps.ok (o : VBsxOps) : Bool :=
  (o.ty.isSmall || o.ty == .i8 || o.ty == .i4)
    && ((o.dst == .bf16 && 32 * o.part.val < o.ty.lanes) || (o.dst == .f32 && 16 * o.part.val < o.ty.lanes))

/-- vhad (R151). -/
def VHadOps.ok (o : VHadOps) : Bool :=
  (o.ty == .bf16 || o.ty == .f32) && o.size != 0
    && o.a.val + hadSpan o.ty o.size ≤ 32 && o.d.val + hadSpan o.ty o.size ≤ 32
    && sameOrApart o.d o.a (hadSpan o.ty o.size)

/-- A term's scale channel is any channel; A types of R163. -/
def Ty.isMatA (t : Ty) : Bool := t.isMatB

/-- Which terms of `Instr` are instructions. -/
def wf : Instr → Bool
  | .add o => o.g.ok
  | .addImm o => o.g.ok
  | .sub o => o.g.ok
  | .subImm o => o.g.ok
  | .mul o => o.g.ok
  | .mulImm o => o.g.ok
  | .mulh o => o.g.ok
  | .mulhImm o => o.g.ok
  | .mulhN o => o.g.ok
  | .mulhNImm o => o.g.ok
  | .mulhSn o => o.g.ok
  | .mulhSnImm o => o.g.ok
  | .div o => o.g.ok
  | .divImm o => o.g.ok
  | .divN o => o.g.ok
  | .divNImm o => o.g.ok
  | .rem o => o.g.ok
  | .remImm o => o.g.ok
  | .remN o => o.g.ok
  | .remNImm o => o.g.ok
  | .and_ o => o.g.ok
  | .andImm o => o.g.ok
  | .or_ o => o.g.ok
  | .orImm o => o.g.ok
  | .xor o => o.g.ok
  | .xorImm o => o.g.ok
  | .andn o => o.g.ok
  | .andnImm o => o.g.ok
  | .shl o => o.g.ok
  | .shlImm o => o.g.ok
  | .shr o => o.g.ok
  | .shrImm o => o.g.ok
  | .sra o => o.g.ok
  | .sraImm o => o.g.ok
  | .rot o => o.g.ok
  | .rotImm o => o.g.ok
  | .min o => o.g.ok
  | .minImm o => o.g.ok
  | .minN o => o.g.ok
  | .minNImm o => o.g.ok
  | .max o => o.g.ok
  | .maxImm o => o.g.ok
  | .maxN o => o.g.ok
  | .maxNImm o => o.g.ok
  | .cmpEq o => o.g.ok
  | .cmpEqImm o => o.g.ok
  | .cmpNe o => o.g.ok
  | .cmpNeImm o => o.g.ok
  | .cmpLt o => o.g.ok
  | .cmpLtImm o => o.g.ok
  | .cmpLe o => o.g.ok
  | .cmpLeImm o => o.g.ok
  | .cmpLtN o => o.g.ok
  | .cmpLtNImm o => o.g.ok
  | .cmpLeN o => o.g.ok
  | .cmpLeNImm o => o.g.ok
  | .sel o => o.g.ok
  | .clz o => o.g.ok
  | .ctz o => o.g.ok
  | .popc o => o.g.ok
  | .extI8 o => o.g.ok
  | .extN8 o => o.g.ok
  | .extI16 o => o.g.ok
  | .extN16 o => o.g.ok
  | .extI32 o => o.g.ok
  | .extN32 o => o.g.ok
  | .bfx o => o.g.ok
  | .bfxI o => o.g.ok
  | .bfi o => o.g.ok
  | .li o => o.g.ok
  | .lih o => o.g.ok
  | .mov o => o.g.ok
  | .kand o => o.g.ok
  | .kor o => o.g.ok
  | .kxor o => o.g.ok
  | .kandn o => o.g.ok
  | .knot o => o.g.ok
  | .kmovKToS o => o.g.ok
  | .kmovSToK o => o.g.ok
  | .kpopc o => o.g.ok
  | .kfirst o => o.g.ok
  | .cnarrow o => o.g.ok
  | .cperm o => o.g.ok
  | .cget o => o.g.ok
  | .cld o => o.g.ok
  | .cst o => o.g.ok
  | .loop o => o.ok
  | .lmask _ => true
  | .end_ => true
  | .nop => true
  | .trap o => o.g.ok
  | .smovRead o => o.g.ok && (sysAccess o.reg.toNat).isSome
  | .smovWrite o => o.g.ok && (match sysAccess o.reg.toNat with | some .ro => false | some _ => true | none => false)
  | .ctxctlFreeze o => o.g.ok
  | .ctxctlResume o => o.g.ok
  | .ctxctlKill o => o.g.ok
  | .ctxctlRestart o => o.g.ok
  | .markRound o => o.g.ok
  | .markCheckpoint o => o.g.ok
  | .markCut o => o.g.ok
  | .tsamp o => o.g.ok
  | .brkpt o => o.g.ok
  | .brkptArmed o => o.g.ok
  | .tlbinv o => o.g.ok && o.ok
  | .post o => o.g.ok
  | .vadd o => o.g.ok && rmTyOk o.rm o.ty && (!(o.negA || o.negC) || o.ty.isFloat)
  | .vsub o => o.g.ok && rmTyOk o.rm o.ty && (!(o.negA || o.negC) || o.ty.isFloat)
  | .vmul o => o.g.ok && rmTyOk o.rm o.ty && (!(o.negA || o.negC) || o.ty.isFloat)
  | .vfma o => o.g.ok && o.ty.isFloat
  | .vmin o => o.g.ok && rmTyOk o.rm o.ty
  | .vmax o => o.g.ok && rmTyOk o.rm o.ty
  | .vabs o => o.g.ok && rmTyOk o.rm o.ty
  | .vneg o => o.g.ok && rmTyOk o.rm o.ty
  | .vdiv o => o.g.ok && o.ty.isFloat
  | .vsqrt o => o.g.ok && o.ty.isFloat
  | .vexp2 o => o.g.ok && o.ty.isFloat
  | .vlog2 o => o.g.ok && o.ty.isFloat
  | .vcmpEq o => o.g.ok && (o.ty.isInt || o.ty.isFloat)
  | .vcmpNe o => o.g.ok && (o.ty.isInt || o.ty.isFloat)
  | .vcmpLt o => o.g.ok && (o.ty.isInt || o.ty.isFloat)
  | .vcmpLe o => o.g.ok && (o.ty.isInt || o.ty.isFloat)
  | .vcmpUn o => o.g.ok && (o.ty.isInt || o.ty.isFloat)
  | .vsel o => o.g.ok && o.ty.isInt
  | .vand o => o.g.ok && o.ty.isInt
  | .vor o => o.g.ok && o.ty.isInt
  | .vxor o => o.g.ok && o.ty.isInt
  | .vandn o => o.g.ok && o.ty.isInt
  | .vshl o => o.g.ok && o.ty.isInt
  | .vshr o => o.g.ok && o.ty.isInt
  | .vsra o => o.g.ok && o.ty.isInt
  | .vcvt o => o.g.ok && cvtOk o.ty o.sty o.part
  | .vcvtChannel o => o.g.ok && cvtOk o.ty o.sty o.part
  | .vrnd o => o.g.ok && cvtOk o.ty o.sty o.part
  | .vscale o => o.g.ok && cvtOk o.ty o.sty o.part
  | .vpack o => o.g.ok && o.ok
  | .vunpack o => o.g.ok && o.ok
  | .vbsc o => o.g.ok && o.ok
  | .vbsx o => o.g.ok && o.ok
  | .vhad o => o.g.ok && o.ok
  | .vredAdd o => o.g.ok && rmTyOk o.rm o.ty && (!o.sat || o.ty.isInt)
  | .vredMin o => o.g.ok && rmTyOk o.rm o.ty && !o.sat
  | .vredMax o => o.g.ok && rmTyOk o.rm o.ty && !o.sat
  | .vperm o => o.g.ok && o.ty.isInt
  | .vbcst o => o.g.ok && o.ty.isInt
  | .vins o => o.g.ok && o.ty.isInt
  | .vext o => o.g.ok && o.ty.isInt
  | .vsort o => o.g.ok && (o.ty.isInt || o.ty.isFloat)
  | .vhist o => o.g.ok && (o.ty.isFloat || o.ty.isSmall || o.ty == .e8m0)
  | .vsdc o => o.g.ok && (o.ty == .n32 || o.ty == .i32 || o.ty == .f32)
  | .vsdcChannel o => o.g.ok && (o.ty == .n32 || o.ty == .i32 || o.ty == .f32)
  | .vsdadd o => o.g.ok
  | .vsdcmp o => o.g.ok && 1 ≤ o.d.val && o.d.val ≤ 6
  | .vclass o => o.g.ok && o.ty.isFloat
  | .vdot o => o.g.ok && (o.ty == .i32 || o.ty == .n32) && o.sign != 3
  | .mbld o => o.g.ok && o.bty.isMatB
  | .mbldDiag o => o.g.ok && o.bty.isMatB
  | .mbsp o => o.g.ok && o.bty.isMatB
  | .bSwap => true
  | .mrow o => o.g.ok && o.bty.isMatB && rowsOk o.row o.n
  | .mroww o => o.g.ok && o.aty.isMatA && o.bty.isMatB && rowsOk o.row o.n
  | .mrowwSp o => o.g.ok && o.aty.isMatA && o.bty.isMatB && rowsOk o.row o.n
  | .matrixRowFiring => true
  | .mzero o => o.g.ok && rowsOk o.row o.n
  | .mout o => o.g.ok && o.oty.isMout && rowsOk o.row o.n
  | .mscaleWindow o => o.g.ok
  | .mscaleCode o => o.g.ok
  | .mbias o => o.g.ok && rowsOk o.row o.n
  | .mrd o => o.g.ok && rowsOk o.row o.n
  | .mwr o => o.g.ok && rowsOk o.row o.n
  | .mslot o => o.g.ok
  | .wfill o => o.g.ok && winSzOk o.sz o.d
  | .wread o => o.g.ok && winSzOk o.sz o.d
  | .wupd o => o.g.ok && winSzOk o.sz o.d
  | .wshrink o => o.g.ok
  | .wstat o => o.g.ok
  | .wsave o => o.g.ok
  | .wrest o => o.g.ok
  | .windowWaiterRelease => true
  | .recv o => o.g.ok
  | .peek o => o.g.ok
  | .send o => o.g.ok
  | .vcset o => o.g.ok
  | .barInit o => o.g.ok
  | .barArrive o => o.g.ok
  | .barWait o => o.g.ok
  | .barAw o => o.g.ok
  | .barRemote o => o.g.ok
  | .remoteArrival => true
  | .mld o => o.g.ok && memSzOk o.sz o.d
  | .mst o => o.g.ok && memSzOk o.sz o.d
  | .mwrt o => o.g.ok
  | .mreq o => o.g.ok
  | .wreq o => o.g.ok
  | .fenceRegion o => o.g.ok
  | .fenceDevice o => o.g.ok
  | .fenceSystem o => o.g.ok
  | .ctok o => o.g.ok
  | .cpy o => o.g.ok && seqOk o.c 4
  | .cpyq o => o.g.ok && seqOk o.c 5
  | .gth o => o.g.ok && seqOk o.c 4
  | .sct o => o.g.ok && seqOk o.c 4
  | .copyCompletion => true
  | .aadd o => o.g.ok
  | .aaddF o => o.g.ok
  | .amin o => o.g.ok
  | .aminF o => o.g.ok
  | .amax o => o.g.ok
  | .amaxF o => o.g.ok
  | .aand o => o.g.ok && 4 ≤ o.typ.val
  | .aandF o => o.g.ok && 4 ≤ o.typ.val
  | .aor o => o.g.ok && 4 ≤ o.typ.val
  | .aorF o => o.g.ok && 4 ≤ o.typ.val
  | .axor o => o.g.ok && 4 ≤ o.typ.val
  | .axorF o => o.g.ok && 4 ≤ o.typ.val
  | .axchg o => o.g.ok && 4 ≤ o.typ.val
  | .axchgF o => o.g.ok && 4 ≤ o.typ.val
  | .acas o => o.g.ok && seqOk o.c 2
  | .acasQ o => o.g.ok
  | .sparseUpdateApply => true
  | .plq o => o.g.ok
  | .plterm o => o.g.ok
  | .plvec o => o.g.ok
  | .plfuseLin o => o.g.ok
  | .plfuseRrf o => o.g.ok
  | .plrunOr o => o.g.ok
  | .plrunAnd o => o.g.ok
  | .plrunWand o => o.g.ok
  | .plabort o => o.g.ok
  | .plresume o => o.g.ok
  | .chunkDecode => true
  | .chunkCommit => true
  | .queryRunEnd => true
  | .pins o => o.g.ok
  | .ptake o => o.g.ok
  | .ptry o => o.g.ok
  | .pstat o => o.g.ok
  | .pcfg o => o.g.ok
  | .pcfgApply => true
  | .poolInsertAccept => true
  | .poolTakeTest => true
  | .migrationAnswer => true
  | .migrationArrival => true
  | .topNotesSend => true
  | .topNotesArrival => true
  | .remoteTake => true
  | .agreementWave => true
  | .emptyClearing => true
  | .xfill o => o.g.ok && seqOk o.c 2
  | .xred o => o.g.ok && seqOk o.c 2
  | .xbar o => o.g.ok
  | .peerBeatArrival => true
  | .peerRetransmit => true
  | .engineAccept => true
  | .engineReply => true
  | .issueGrant => true
  | .arbWeightStep => true
  | .taskInputsEnded => true
  | .fillAccept => true
  | .arrivalToken => true
  | .controlTokenPass => true
  | .controlBeat => true
  | .addressGeneratorBeat => true
  | .pass => true
  | .fork => true
  | .steer => true
  | .merge => true
  | .amerge => true
  | .carry => true
  | .join => true
  | .gate => true
  | .const => true
  | .sink => true
  | .count => true
  | .select => true
  | .sequentialController => true
  | .pipelinedController => true
  | .streamingController => true
  | .contextSwitch => true
  | .contextFetchDone => true
  | .contextStoreAdd => true
  | .launchPortWrite => true
  | .launch => true
  | .token => true
  | .cancel => true
  | .close => true
  | .release => true
  | .badKind => true
  | .blockScheduler => true
  | .ageStepExpiry => true
  | .residencyEnd => true
  | .tokenForward => true
  | .launchDrained => true
  | .eventRecordFill => true
  | .eventShrink => true
  | .roundMarker => true
  | .checkpointMarker => true
  | .drainComplete => true
  | .saveComplete => true
  | .lateData => true
  | .restore => true
  | .stallWatchDeclare => true
  | .trapLetterDelivery => true
  | .pageWalkDone => true
  | .deadLetterResolve => true
  | .spillWriteRetry => true
  | .migration => true
  | .faultHead => true
  | .faultAnswer => true
  | .invalGo => true
  | .linkRetry => true
  | .linkDown => true
  | .regionKill => true
  | .regionStop => true
  | .stopRelease => true
  | .linkBrk => true
  | .captureStart => true
  | .captureStop => true
  | .devReset => true
  | .powerOn => true
  | .conventionalReset => true
  | .bootStageComplete => true
  | .fwLoad => true
  | .powerRun => true
  | .powerIdle => true
  | .powerPark => true
  | .powerTransitionDone => true
  | .thermalTrip => true
  | .lcAdvance => true
  | .revokeGo => true
  | .attestGo => true
  | .bar0RegisterWrite => true
  | .idcode => true
  | .devid => true
  | .debugFreeze => true
  | .freezePin => true
  | .thaw => true
  | .debugSelect => true
  | .debugRead => true
  | .debugToken => true
  | .bypass => true
  | .accessComplete => true
  | .threadTokenAccepted => true
  | .cumulativeAcknowledgement => true
  | .ethernetLinkChange => true
  | .powerRemoval => true
  | .launchErrClear => true

end Sys2Proof
end

