-- ==== Sys2Proof/Machine/Num.lean ====
section
/-! DEFINITION. Numbers (spec file 02): formats, the one rounding step, conversions, arithmetic, signed digits, the stochastic draw, CRC-32C. -/

namespace Sys2Proof

/-! Bits -/

/-- Bits needed to write a number. -/
def bitLen (x : Nat) : Nat := if x = 0 then 0 else Nat.log2 x + 1

/-- Integer square root by bits: `n` steps from the top. -/
def isqrtGo : Nat → Nat → Nat → Nat
  | 0, _, r => r
  | n + 1, x, r =>
    let c := r + 2 ^ n
    isqrtGo n x (if c * c ≤ x then c else r)

def isqrt (x : Nat) : Nat := isqrtGo (bitLen x / 2 + 1) x 0

/-! Flags (R30): NV 0, DZ 1, OF 2, UF 3, NX 4 -/

abbrev Flags := BitVec 5
def fNV : Flags := 0x01
def fDZ : Flags := 0x02
def fOF : Flags := 0x04
def fUF : Flags := 0x08
def fNX : Flags := 0x10

/-! Formats (R35, R36) -/

/-- Exponent bits, mantissa bits, bias; infinity and NaN codes exist as R36 lists. -/
structure FFmt where
  eb : Nat
  mb : Nat
  bias : Nat
  ieee : Bool
deriving DecidableEq, Repr

def Ty.ffmt : Ty → FFmt
  | .f16 => ⟨5, 10, 15, true⟩
  | .bf16 => ⟨8, 7, 127, true⟩
  | .f32 => ⟨8, 23, 127, true⟩
  | .f64 => ⟨11, 52, 1023, true⟩
  | .e5m2 => ⟨5, 2, 15, true⟩
  | .e4m3 => ⟨4, 3, 7, false⟩
  | .e3m2 => ⟨3, 2, 3, false⟩
  | .e2m3 => ⟨2, 3, 1, false⟩
  | _ => ⟨2, 1, 1, false⟩

/-- Bits of an element as packed in a beat (R38): 6 for e3m2 and e2m3. -/
def Ty.bits : Ty → Nat
  | .e3m2 | .e2m3 => 6
  | t => t.width

def FFmt.width (f : FFmt) : Nat := 1 + f.eb + f.mb
/-- Exponent of the smallest normal. -/
def FFmt.emin (f : FFmt) : Int := 1 - (f.bias : Int)
/-- Quantum of the subnormals. -/
def FFmt.qmin (f : FFmt) : Int := f.emin - (f.mb : Int)

/-- The largest finite code without its sign (R35). -/
def Ty.maxCode (t : Ty) : Nat :=
  let f := t.ffmt
  match t with
  | .e4m3 => 0x7E
  | _ => if f.ieee then (2 ^ f.eb - 1) * 2 ^ f.mb - 1 else 2 ^ (f.eb + f.mb) - 1

/-- The canonical NaN; +0 where the format has none (R36, R45). -/
def Ty.nan (t : Ty) : Nat :=
  let f := t.ffmt
  match t with
  | .e4m3 => 0x7F
  | .e5m2 => 0x7E
  | _ => if f.ieee then (2 ^ f.eb - 1) * 2 ^ f.mb + 2 ^ (f.mb - 1) else 0

/-- A float operand read as a value (R35, R36). -/
inductive FV where
  | nan (sig : Bool)
  | inf (neg : Bool)
  | fin (neg : Bool) (mant : Nat) (exp : Int)
deriving DecidableEq, Repr

def FV.isNan : FV → Bool
  | .nan _ => true
  | _ => false
def FV.isSig : FV → Bool
  | .nan b => b
  | _ => false
def FV.isZero : FV → Bool
  | .fin _ m _ => m == 0
  | _ => false
def FV.sign : FV → Bool
  | .nan _ => false
  | .inf n => n
  | .fin n _ _ => n
def FV.negate : FV → FV
  | .nan b => .nan b
  | .inf n => .inf (!n)
  | .fin n m e => .fin (!n) m e

/-- Decode a code of a float type (R35-R37). -/
def unpackF (t : Ty) (x : Nat) : FV :=
  let f := t.ffmt
  let e := x / 2 ^ f.mb % 2 ^ f.eb
  let m := x % 2 ^ f.mb
  let n := bitOf x (f.eb + f.mb)
  match t with
  | .e8m0 => if x % 256 == 255 then .nan false else .fin false 1 (((x % 256 : Nat) : Int) - 127)
  | _ =>
    if t == .e4m3 && e == 15 && m == 7 then .nan false
    else if f.ieee && e == 2 ^ f.eb - 1 then
      if m == 0 then .inf n else .nan (!bitOf m (f.mb - 1))
    else if e == 0 then .fin n m f.qmin
    else .fin n (2 ^ f.mb + m) ((e : Int) - f.bias - f.mb)

/-! The draw of R41 -/

def draw (seed ctr : Word) (lane : Nat) : Nat :=
  let z := seed ^^^ (ctr * 256 + BitVec.ofNat 64 lane)
  let z := z * 0xD1B54A32D192ED03
  let z := z ^^^ (z >>> 32)
  let z := z * 0xAEF17502108EF2D9
  let z := z ^^^ (z >>> 29)
  (z >>> 40).toNat

/-! The rounding step (R40-R44) -/

/-- A magnitude: `mant × 2^exp`, plus something above 0 and below `2^exp` when `sticky`. -/
structure Ex where
  neg : Bool
  mant : Nat
  exp : Int
  sticky : Bool := false
deriving DecidableEq, Repr

/-- Round a magnitude to a multiple of `2^q`: the multiple and whether it is inexact (R40, R41). -/
def Ex.roundAt (x : Ex) (q : Int) (rm : RM) (u : Nat) : Nat × Bool :=
  let sh := (q - x.exp).toNat
  let m := if q ≤ x.exp then x.mant * 2 ^ (x.exp - q).toNat else x.mant
  let lo := m / 2 ^ sh
  let rem := m % 2 ^ sh
  let inexact := rem != 0 || x.sticky
  let half := 2 * rem
  let one := 2 ^ sh
  let above := half > one || (half == one && x.sticky)
  let tie := half == one && !x.sticky
  let up := match rm with
    | .rne => above || (tie && lo % 2 == 1)
    | .rtz => false
    | .rdn => x.neg
    | .rup => !x.neg
    | .rna => above || tie
    | .rod => lo % 2 == 0
    | .sa | .sb =>
      let g := rem * 2 ^ 24 / one
      let gexact := (rem * 2 ^ 24) % one == 0 && !x.sticky
      if x.neg then
        let f := 2 ^ 24 - g - (if gexact then 0 else 1)
        !(f + u ≥ 2 ^ 24)
      else g + u ≥ 2 ^ 24
  if inexact then (if up then lo + 1 else lo, true) else (lo, false)

/-- Whether an overflow under this mode gives infinity rather than the largest finite value (R43). -/
def overflowInf (rm : RM) (neg : Bool) : Bool :=
  match rm with
  | .rne | .rna | .sa | .sb => true
  | .rtz | .rod => false
  | .rdn => neg
  | .rup => !neg

/-- The overflowed result of a type (R43), without flags. -/
def overflowCode (t : Ty) (rm : RM) (sat neg : Bool) : Nat :=
  let f := t.ffmt
  let s := if neg then 2 ^ (f.eb + f.mb) else 0
  let inf := s + (2 ^ f.eb - 1) * 2 ^ f.mb
  if sat then s + t.maxCode
  else match t with
    | .e5m2 => inf
    | .e4m3 => 0x7F
    | .e3m2 | .e2m3 | .e2m1 => s + t.maxCode
    | _ => if overflowInf rm neg then inf else s + t.maxCode

/-- The code of `n × 2^q` for a `q` at least the subnormal quantum, and a value in range. -/
def encodeF (t : Ty) (neg : Bool) (n : Nat) (q : Int) : Nat :=
  let f := t.ffmt
  let s := if neg then 2 ^ (f.eb + f.mb) else 0
  if n < 2 ^ f.mb then s + n
  else
    let up := bitLen n - (f.mb + 1)
    let n := n / 2 ^ up
    s + (q + up + f.mb + f.bias).toNat * 2 ^ f.mb + (n - 2 ^ f.mb)

/-- round(x, type, rm) with overflow, tininess and flags (R40, R43, R44). -/
def roundF (t : Ty) (rm : RM) (u : Nat) (sat : Bool) (x : Ex) : Nat × Flags :=
  let f := t.ffmt
  let s := if x.neg then 2 ^ (f.eb + f.mb) else 0
  if x.mant == 0 && !x.sticky then (s, 0)
  else
    let top := x.exp + (bitLen x.mant : Int) - 1
    let qu := top - f.mb
    let q := max qu f.qmin
    let (nu, _) := x.roundAt qu rm u
    let (n, inexact) := x.roundAt q rm u
    let mx := t.maxCode
    let mxN := 2 ^ f.mb + mx % 2 ^ f.mb
    let mxQ : Int := ((mx / 2 ^ f.mb : Nat) : Int) - f.bias - f.mb
    let ovf := if q ≤ mxQ then n > mxN * 2 ^ (mxQ - q).toNat else n * 2 ^ (q - mxQ).toNat > mxN
    if ovf then (overflowCode t rm sat x.neg, fOF ||| fNX)
    else
      let tiny := qu + (bitLen nu : Int) - 1 < f.emin
      let fl := (if inexact then fNX else 0) ||| (if tiny && inexact then fUF else 0)
      (encodeF t x.neg n q, fl)

/-! Exact arithmetic -/

/-- A signed exact value. -/
def exOfInt (i : Int) (e : Int) : Ex := { neg := i < 0, mant := i.natAbs, exp := e }

/-- The exact sum of signed magnitudes at a common exponent: value and exponent. -/
def sumExact (ts : List (Bool × Nat × Int)) : Int × Int :=
  let e := ts.foldl (fun a t => if t.2.1 == 0 then a else min a t.2.2) (match ts.find? (fun t => t.2.1 != 0) with | some t => t.2.2 | none => 0)
  (ts.foldl (fun a t =>
    let m : Int := if t.2.1 == 0 then 0 else (t.2.1 * 2 ^ (t.2.2 - e).toNat : Nat)
    if t.1 then a - m else a + m) 0, e)

/-- The sign of an exact zero sum: −0 when every term is −0, or under rdn (R55). -/
def zeroSign (rm : RM) (allNeg : Bool) : Bool := allNeg || rm == .rdn

/-- How a rounding is done: mode, draw of the lane, saturation. -/
structure Rnd where
  rm : RM := .rne
  u : Nat := 0
  sat : Bool := false
deriving DecidableEq, Repr

def Rnd.to (r : Rnd) (t : Ty) (x : Ex) : Nat × Flags := roundF t r.rm r.u r.sat x

/-- A code of infinity; a format without one overflows (R43). -/
def infCode (t : Ty) (r : Rnd) (neg : Bool) : Nat × Flags :=
  let f := t.ffmt
  match t with
  | .e4m3 | .e3m2 | .e2m3 | .e2m1 => (overflowCode t r.rm r.sat neg, fOF ||| fNX)
  | _ => ((if neg then 2 ^ (f.eb + f.mb) else 0) + (2 ^ f.eb - 1) * 2 ^ f.mb, 0)

/-- NV when an operand is a signalling NaN (R45). -/
def sigFlag (xs : List FV) : Flags := if xs.any FV.isSig then fNV else 0

/-- x × y + z, one rounding (R45, R143); for a product alone `z` is none. A product and an addend that are zeros of one sign have the sign that `addF` gives two such zeros (DEDUCED, log 52). -/
def fmaF (t : Ty) (r : Rnd) (x y : FV) (z : Option FV) : Nat × Flags :=
  let zs := match z with | some v => [v] | none => []
  let sig := sigFlag ([x, y] ++ zs)
  let zeroInf := match x, y with
    | .inf _, .fin _ 0 _ => true
    | .fin _ 0 _, .inf _ => true
    | _, _ => false
  if zeroInf then (t.nan, fNV)
  else if x.isNan || y.isNan || zs.any FV.isNan then (t.nan, sig)
  else
    let pn := x.sign != y.sign
    match x, y with
    | .fin _ a ea, .fin _ b eb =>
      match z with
      | none => r.to t { neg := pn, mant := a * b, exp := ea + eb }
      | some (.inf n) => infCode t r n
      | some (.fin n c ec) =>
        let (i, e) := sumExact [(pn, a * b, ea + eb), (n, c, ec)]
        if i == 0 then
          r.to t { neg := zeroSign r.rm (a * b == 0 && c == 0 && pn && n), mant := 0, exp := 0 }
        else r.to t (exOfInt i e)
      | some (.nan _) => (t.nan, sig)
    | _, _ =>
      match z with
      | some (.inf n) => if n == pn then infCode t r pn else (t.nan, fNV)
      | _ => infCode t r pn

/-- x + y (R143). R143 gives the sign of an exact zero sum for operands of opposite sign alone; two zeros of one sign, here and in `fmaF`, follow the rule of R55 (DEDUCED, log 52): −0 when both are −0 or under rdn, else +0. -/
def addF (t : Ty) (r : Rnd) (x y : FV) : Nat × Flags :=
  if x.isNan || y.isNan then (t.nan, sigFlag [x, y])
  else match x, y with
    | .inf a, .inf b => if a == b then infCode t r a else (t.nan, fNV)
    | .inf a, _ => infCode t r a
    | _, .inf b => infCode t r b
    | .fin n a ea, .fin m b eb =>
      let (i, e) := sumExact [(n, a, ea), (m, b, eb)]
      if i == 0 then r.to t { neg := zeroSign r.rm (a == 0 && b == 0 && n && m), mant := 0, exp := 0 }
      else r.to t (exOfInt i e)
    | _, _ => (t.nan, 0)

/-- x ÷ y (R45, R144). -/
def divF (t : Ty) (r : Rnd) (x y : FV) : Nat × Flags :=
  let n := x.sign != y.sign
  if x.isNan || y.isNan then (t.nan, sigFlag [x, y])
  else match x, y with
    | .inf _, .inf _ => (t.nan, fNV)
    | .inf _, _ => infCode t r n
    | .fin _ _ _, .inf _ => r.to t { neg := n, mant := 0, exp := 0 }
    | .fin _ a ea, .fin _ b eb =>
      if b == 0 then
        if a == 0 then (t.nan, fNV) else ((infCode t r n).1, (infCode t r n).2 ||| fDZ)
      else
        let k := 128 + bitLen b
        let q := a * 2 ^ k / b
        r.to t { neg := n, mant := q, exp := ea - eb - k, sticky := a * 2 ^ k % b != 0 }
    | _, _ => (t.nan, 0)

/-- √x (R45, R144); √−0 = −0. -/
def sqrtF (t : Ty) (r : Rnd) (x : FV) : Nat × Flags :=
  match x with
  | .nan b => (t.nan, if b then fNV else 0)
  | .inf n => if n then (t.nan, fNV) else infCode t r false
  | .fin n a ea =>
    if a == 0 then r.to t { neg := n, mant := 0, exp := 0 }
    else if n then (t.nan, fNV)
    else
      let odd := ea % 2 != 0
      let a := if odd then 2 * a else a
      let ea := if odd then ea - 1 else ea
      let q := isqrt (a * 2 ^ 256)
      r.to t { neg := false, mant := q, exp := ea / 2 - 128, sticky := q * q != a * 2 ^ 256 }

/-- ln 2 in 320 fraction bits: Σ 1/(k 2^k). -/
def ln2Go : Nat → Nat → Nat
  | 0, a => a
  | k + 1, a => ln2Go k (a + 2 ^ 384 / ((k + 1) * 2 ^ (k + 1)))
def ln2Fix : Nat := ln2Go 390 0 / 2 ^ 64

/-- e^y for a fixed-point y below 1, by its series. -/
def expGo : Nat → Nat → Nat → Nat → Nat → Nat
  | 0, _, _, _, a => a
  | n + 1, k, y, term, a =>
    let term := term * y / 2 ^ 320 / k
    expGo n (k + 1) y term (a + term)
def exp2Fix (f : Nat) : Nat := expGo 90 1 (f * ln2Fix / 2 ^ 320) (2 ^ 320) (2 ^ 320)

/-- 2^x (R144). -/
def exp2F (t : Ty) (r : Rnd) (x : FV) : Nat × Flags :=
  match x with
  | .nan b => (t.nan, if b then fNV else 0)
  | .inf n => if n then r.to t { neg := false, mant := 0, exp := 0 } else infCode t r false
  | .fin n a ea =>
    if a == 0 then r.to t { neg := false, mant := 1, exp := 0 }
    else if (bitLen a : Int) + ea > 16 then
      r.to t { neg := false, mant := 1, exp := if n then -100000 else 100000, sticky := true }
    else
      let i : Int := if n then -(a : Int) else a
      let whole : Int := if ea ≥ 0 then i * 2 ^ ea.toNat else i / 2 ^ (-ea).toNat
      let frac : Int := if ea ≥ 0 then 0 else i % 2 ^ (-ea).toNat
      if frac == 0 then r.to t { neg := false, mant := 1, exp := whole }
      else
        let f := frac.toNat * 2 ^ 320 / 2 ^ (-ea).toNat
        r.to t { neg := false, mant := exp2Fix f, exp := whole - 320, sticky := true }

/-- Bits of log2 of a fixed-point y in [1, 2), most significant first. -/
def log2Go : Nat → Nat → Nat → Nat
  | 0, _, a => a
  | n + 1, y, a =>
    let y := y * y / 2 ^ 640
    if y ≥ 2 ^ 641 then log2Go n (y / 2) (2 * a + 1) else log2Go n y (2 * a)

/-- log2 x (R45, R144). -/
def log2F (t : Ty) (r : Rnd) (x : FV) : Nat × Flags :=
  match x with
  | .nan b => (t.nan, if b then fNV else 0)
  | .inf n => if n then (t.nan, fNV) else infCode t r false
  | .fin n a ea =>
    if a == 0 then ((infCode t r true).1, (infCode t r true).2 ||| fDZ)
    else if n then (t.nan, fNV)
    else
      let l := bitLen a - 1
      let e := ea + l
      if a == 2 ^ l then
        if e == 0 then r.to t { neg := false, mant := 0, exp := 0 } else r.to t (exOfInt e 0)
      else
        let y := a * 2 ^ 640 / 2 ^ l
        let f := log2Go 240 y 0
        let v : Int := e * 2 ^ 240 + f
        if v < 0 then r.to t { neg := true, mant := (-v).toNat - 1, exp := -240, sticky := true }
        else r.to t { neg := false, mant := v.toNat, exp := -240, sticky := true }

/-- Order of two numbers that are no NaN, −0 below +0 when `zeros`. -/
def cmpF (zeros : Bool) (x y : FV) : Ordering :=
  let key (v : FV) : Int × Int :=
    match v with
    | .inf n => (if n then -1 else 1, 0)
    | _ => (0, 0)
  match x, y with
  | .fin n a ea, .fin m b eb =>
    let (i, _) := sumExact [(n, a, ea), (!m, b, eb)]
    if i != 0 then (if i < 0 then .lt else .gt)
    else if zeros && a == 0 && b == 0 && n != m then (if n then .lt else .gt) else .eq
  | _, _ => compare (key x).1 (key y).1

/-! Conversions (R46-R48) -/

/-- Range of an integer type. -/
def Ty.imin (t : Ty) : Int := if t.isSigned then -(2 ^ (t.width - 1)) else 0
def Ty.imax (t : Ty) : Int := if t.isSigned then 2 ^ (t.width - 1) - 1 else 2 ^ t.width - 1
/-- An integer code read by its type's signedness. -/
def Ty.ival (t : Ty) (x : Nat) : Int := if t.isSigned then toSigned t.width x else (x % 2 ^ t.width : Nat)
/-- The code of an integer modulo the width. -/
def Ty.icode (t : Ty) (i : Int) : Nat := wrapNat t.width i

/-- A clamped or wrapped integer (R47, R57, R143). -/
def Ty.isat (t : Ty) (sat : Bool) (i : Int) : Nat :=
  if sat then t.icode (max t.imin (min t.imax i)) else t.icode i

/-- A float value rounded to an integer type (R47). -/
def toInt (t : Ty) (r : Rnd) (v : FV) : Nat × Flags :=
  match v with
  | .nan _ => (0, fNV)
  | .inf n => (t.icode (if n then t.imin else t.imax), fNV)
  | .fin n m e =>
    let (k, inexact) := ({ neg := n, mant := m, exp := e } : Ex).roundAt 0 r.rm r.u
    let i : Int := if n then -(k : Int) else k
    if i < t.imin then (t.icode t.imin, fNV)
    else if i > t.imax then (t.icode t.imax, fNV)
    else (t.icode i, if inexact then fNX else 0)

/-- A value rounded to e8m0 (R48). -/
def toE8m0 (r : Rnd) (v : FV) : Nat × Flags :=
  match v with
  | .nan _ => (0xFF, fNV)
  | .inf n => (if r.sat then 0xFE else 0xFF, fOF ||| fNX ||| (if n then fNV else 0))
  | .fin n m e =>
    if m == 0 then (0, fUF ||| fNX)
    else
      let l := bitLen m - 1
      let k : Int := e + l
      let rem := m - 2 ^ l
      let one := 2 ^ l
      let up := match r.rm with
        | .rne => 2 * rem > one || (2 * rem == one && (k + 127) % 2 != 0)
        | .rtz | .rdn => false
        | .rup => true
        | .rna => 2 * rem ≥ one
        | .rod => (k + 127) % 2 == 0
        | .sa | .sb => rem * 2 ^ 24 / one + r.u ≥ 2 ^ 24
      let k' := if rem != 0 && up then k + 1 else k
      let nv := if n then fNV else 0
      if k' < -127 then (0, nv ||| fUF ||| fNX)
      else if k' > 127 then (if r.sat then 0xFE else 0xFF, nv ||| fOF ||| fNX)
      else ((k' + 127).toNat, nv ||| (if rem != 0 then fNX else 0))

/-- The value of a code as a float value: floats, e8m0 and integers alike. -/
def valueOf (t : Ty) (x : Nat) : FV :=
  if t.isInt || t == .i4 then
    let i := t.ival x
    .fin (i < 0) i.natAbs 0
  else unpackF t x

/-- Conversion of a code between any two of the types 0x00-0x12 (R45-R48). -/
def convert (dst src : Ty) (r : Rnd) (x : Nat) : Nat × Flags :=
  let dInt := dst.isInt || dst == .i4
  let sInt := src.isInt || src == .i4
  if dInt && sInt then
    (dst.isat r.sat (src.ival x), 0)
  else if dInt then toInt dst r (valueOf src x)
  else if dst == .e8m0 then toE8m0 r (valueOf src x)
  else match valueOf src x with
    | .nan _ => (dst.nan, fNV)
    | .inf n => infCode dst r n
    | .fin n m e => r.to dst { neg := n, mant := m, exp := e }

/-- An exact value scaled by a power of two and converted (R147 vscale, R149). -/
def convertScaled (dst : Ty) (r : Rnd) (v : FV) (k : Int) : Nat × Flags :=
  let v := match v with
    | .fin n m e => FV.fin n m (e + k)
    | w => w
  let dInt := dst.isInt || dst == .i4
  if dInt then toInt dst r v
  else if dst == .e8m0 then toE8m0 r v
  else match v with
    | .nan _ => (dst.nan, fNV)
    | .inf n => infCode dst r n
    | .fin n m e => r.to dst { neg := n, mant := m, exp := e }

/-! Signed digits (R50-R53) -/

/-- Digits d1 to d32; none is the bad code. -/
def sdDigits (x : Word) : List (Option Int) :=
  (List.range 32).map fun i =>
    match (x >>> (62 - 2 * i)).toNat % 4 with
    | 0 => some 0
    | 1 => some 1
    | 3 => some (-1)
    | _ => none

def sdBad : Word := 0xAAAAAAAAAAAAAAAA

def sdPack (ds : List Int) : Word :=
  ds.foldl (fun a d => a * 4 + (if d = 1 then 1 else if d = -1 then 3 else 0)) 0

/-- The non-redundant form of a value with a sign (R51). -/
def sdOfNat (neg : Bool) (x : Nat) : Word :=
  sdPack ((List.range 32).map fun i => if bitOf x (31 - i) then (if neg then -1 else 1) else 0)

/-- The order key of an f32 (R51). -/
def orderKey (b : Nat) : Nat :=
  if bitOf b 31 then b ^^^ 0xFFFFFFFF else b ^^^ 0x80000000

def sdOf (t : Ty) (x : Nat) : Word :=
  match t with
  | .i32 => let i := toSigned 32 x; sdOfNat (i < 0) i.natAbs
  | .f32 => sdOfNat false (orderKey (x % 2 ^ 32))
  | _ => sdOfNat false (x % 2 ^ 32)

/-- Transfer and interim digit of position i from its sum and the next (R52). -/
def sdStep (p q : Int) : Int × Int :=
  if p = 2 then (1, 0) else if p = -2 then (-1, 0)
  else if p = 1 then (if q ≥ 0 then (1, -1) else (0, 1))
  else if p = -1 then (if q ≥ 0 then (0, -1) else (-1, 1))
  else (0, 0)

/-- Sum digits with their successors. -/
def sdSums : List Int → List (Int × Int)
  | [] => []
  | [p] => [sdStep p 0]
  | p :: q :: r => sdStep p q :: sdSums (q :: r)

/-- vsdadd on one element (R50, R52). -/
def sdAdd (x y : Word) : Word × Flags :=
  let dx := sdDigits x
  let dy := sdDigits y
  if dx.contains none || dy.contains none then (sdBad, fNV)
  else
    let tw := sdSums ((dx.zip dy).map fun d => d.1.getD 0 + d.2.getD 0)
    let ts := tw.map Prod.fst
    let ws := 0 :: tw.map Prod.snd
    (sdPack ((ws.zip ts).map fun d => d.1 + d.2), 0)

/-- The comparison of R53 on the first j digits: gt, lt, or .eq for undecided; and NV on a bad digit. -/
def sdCmp (j : Nat) (x y : Word) : Ordering × Flags :=
  let dx := (sdDigits x).take j
  let dy := (sdDigits y).take j
  if dx.contains none || dy.contains none then (.eq, fNV)
  else
    let val (ds : List (Option Int)) : Int := ds.foldl (fun a d => 2 * a + d.getD 0) 0
    let d := val dx - val dy
    let bar : Int := if j == 32 then 1 else 2
    (if d ≥ bar then .gt else if d ≤ -bar then .lt else .eq, 0)

/-- Comparison raising j from 1 to 32 (R53, R324). -/
def sdRankGo : Nat → Nat → Word → Word → Ordering
  | 0, _, _, _ => .eq
  | n + 1, j, x, y =>
    match (sdCmp j x y).1 with
    | .eq => sdRankGo n (j + 1) x y
    | o => o
def sdRank (x y : Word) : Ordering := sdRankGo 32 1 x y

/-! Block operations -/

/-- (−1)^popcount(i and j) as a sign (R60). -/
def hadNeg (i j : Nat) : Bool := popBits 8 (i &&& j) % 2 == 1

/-- One output of the block Hadamard transform, rounded once (R60). The sign of an exact zero sum is that which R55 gives for the array; R60 and R151 give none (DEDUCED, log 52). -/
def hadOut (t : Ty) (r : Rnd) (xs : List FV) (i : Nat) : Nat × Flags :=
  let ts := (xs.zip (List.range xs.length)).map fun p => if hadNeg i p.2 then p.1.negate else p.1
  let pos := ts.any fun v => match v with | .inf false => true | _ => false
  let neg := ts.any fun v => match v with | .inf true => true | _ => false
  -- a quiet NaN hides no invalid sum of the other terms (R45)
  if pos && neg then (t.nan, fNV)
  else if ts.any FV.isNan then (t.nan, sigFlag ts)
  else
    if pos || neg then infCode t r neg
    else
      let fs := ts.filterMap fun v => match v with | .fin n m e => some (n, m, e) | _ => none
      let (s, e) := sumExact fs
      if s == 0 then r.to t { neg := zeroSign r.rm (fs.all fun f => f.2.1 == 0 && f.1), mant := 0, exp := 0 }
      else r.to t (exOfInt s e)

/-! CRC-32C (R79): reflected Castagnoli, initial value and final xor all ones -/

def crcBit (c : Nat) : Nat := if c % 2 == 1 then (c / 2) ^^^ 0x82F63B78 else c / 2
def crcByte (c : Nat) (b : Byte) : Nat :=
  crcBit (crcBit (crcBit (crcBit (crcBit (crcBit (crcBit (crcBit (c ^^^ b.toNat))))))))
def crc32c (bs : List Byte) : Nat := (bs.foldl crcByte 0xFFFFFFFF) ^^^ 0xFFFFFFFF

end Sys2Proof
end

