-- ==== Sys2Proof/Config.lean ====
section
/-! DEFINITION. What one VXD-880 fixes and the spec leaves open: free values, each an opaque constant that no proof can evaluate.  Each is named in the assumption log. -/

namespace Sys2Proof.Config

/-- Cycles that the n-th transit, access, walk, decoding or other work of unstated length takes beyond its least time (R179, R233, R244, R284, R301, R319): a free value. Log 5. -/
opaque latency : Nat → Nat

/-- A byte whose value the spec leaves open at its n-th use: an abandoned wsave record (R183), the memory of a peer (R279). Log 5. -/
opaque freeByte : Nat → BitVec 8

/-- A choice among alternatives that the spec leaves to the device at its n-th use (TLB replacement R286, sites of tiles R295, Ethernet links R373). Log 5. -/
opaque choice : Nat → Nat

/-- Contents that the spec does not lay out, at the n-th use: debug classes 11, 12 and 14 (R361). Log 5. -/
opaque freeWord : Nat → BitVec 512

/-- The rounding mode of a generator's quantise stage, by its three bits (R40): its frame gives R149 none (R89). Log 5. -/
opaque quantRm : Nat

/-- The overflow mode of a generator's quantise stage, in bit 0 (R43): its frame gives R149 none (R89). Log 5. -/
opaque quantSat : Nat

/-- The gap, in 64 KiB pages, before the n-th virtual allocation of the loader (R96 gives no address). Log 7. -/
opaque allocGap : Nat → Nat

/-- Where the loader starts its search for the n-th free frame (R96, R297 give no frame). Log 7. -/
opaque frameHint : Nat → Nat

/-- Dead letters that a port's share of a spill area of 1 MiB holds (R287 gives the bytes of the area and not of an entry). Log 5. -/
opaque spillEntries : Nat

/-- SHA-384 of a byte string (R92, R364-R368): not defined in the spec, uninterpreted here. Log 8. -/
opaque sha384 : List Byte → BitVec 384

/-- Whether an ECDSA P-384 signature r‖s verifies over a digest with a public key x‖y (R92, R364, R366): uninterpreted. Log 8. -/
opaque ecdsaOk : BitVec 384 → List Byte → List Byte → Bool

/-- The identity key's signature over a digest (R368): uninterpreted. Log 8. -/
opaque identitySign : BitVec 384 → BitVec 768

/-- The identity public key x‖y (R363, R364). Log 4. -/
opaque identityKey : BitVec 768

/-- DEVID (R361, R364). Log 4. -/
opaque devid : BitVec 128

/-- The reset nonce drawn at the n-th reset (R364). Log 4. -/
opaque nonce : Nat → BitVec 256

/-- The SHA-384 held by image key slot i, none where the slot is empty (R92). Log 4. -/
opaque keySlot : Nat → Option (BitVec 384)

/-- The DBGKEY fuse (R365). Log 4. -/
opaque dbgKey : BitVec 384

/-- The FWKEY fuse (R366). Log 4. -/
opaque fwKey : BitVec 384

/-- The fused minimum security version of firmware (R366). Log 4. -/
opaque fwMinVersion : Nat

/-- The public key for image slot i held by an accepted firmware of this measurement (R92). Log 8. -/
opaque fwImageKey : BitVec 384 → Nat → List Byte

/-- Signature, signer key and security version inside a firmware file: the spec gives no layout (R366). Log 8. -/
opaque fwParse : List Byte → List Byte × List Byte × Nat

/-- Signature, signer key and named revoke bit inside a revocation record, slot 0-7 or 8 for DBGKEY: the spec gives no layout (R367). Log 8. -/
opaque revokeParse : List Byte → List Byte × List Byte × Option Nat

/-- A registered step of a collective (R221): send partner, send segment, receive partner, receive segment, reduce flag, type code 0 f32, 1 bf16, 2 i32.  The table's layout is not in the spec. Log 9. -/
opaque collStep : Word → Nat → Nat → Option (Nat × Nat × Nat × Nat × Bool × Nat)

/-- Whether a group barrier is registered (R222). Log 9. -/
opaque groupBarrier : Word → Nat → Bool

end Sys2Proof.Config
end

