-- ==== Sys2Proof/Decode.lean ====
section
/-! DEFINITION. Decoding of the 64-bit word (R61-R69), rejecting by name, and the encoder from the same tables. -/

namespace Sys2Proof

/-- Why a word is not an instruction (R69, by its clauses). -/
inductive Reject where
  /-- clause 1: an OP the map marks as not an instruction -/
  | opcode
  /-- clause 2: an FN not listed for its OP -/
  | function
  /-- clause 3: a reserved operand index or a class the position does not accept -/
  | operand
  /-- clause 4: an RM or TY code that is not valid -/
  | typeCode
  /-- clause 5: a nonzero reserved field -/
  | reserved
  /-- clauses 4-6 and the entries: a combination the entry does not admit -/
  | illFormed
deriving DecidableEq, Repr

/-- Type codes (R34, R35, R37, R50, R54). -/
def Ty.code : Ty → BitVec 5
  | .i8 => 0x00 | .n8 => 0x01 | .i16 => 0x02 | .n16 => 0x03 | .i32 => 0x04 | .n32 => 0x05
  | .i64 => 0x06 | .n64 => 0x07 | .f16 => 0x08 | .bf16 => 0x09 | .f32 => 0x0A | .f64 => 0x0B
  | .e4m3 => 0x0C | .e5m2 => 0x0D | .e3m2 => 0x0E | .e2m3 => 0x0F | .e2m1 => 0x10
  | .i4 => 0x11 | .e8m0 => 0x12 | .sd => 0x13 | .cap => 0x14

/-- The type of a code, if it is assigned. -/
def Ty.ofCode (c : BitVec 5) : Option Ty :=
  match c.toNat with
  | 0x00 => some .i8 | 0x01 => some .n8 | 0x02 => some .i16 | 0x03 => some .n16 | 0x04 => some .i32
  | 0x05 => some .n32 | 0x06 => some .i64 | 0x07 => some .n64 | 0x08 => some .f16 | 0x09 => some .bf16
  | 0x0A => some .f32 | 0x0B => some .f64 | 0x0C => some .e4m3 | 0x0D => some .e5m2 | 0x0E => some .e3m2
  | 0x0F => some .e2m3 | 0x10 => some .e2m1 | 0x11 => some .i4 | 0x12 => some .e8m0 | 0x13 => some .sd
  | 0x14 => some .cap | _ => none

/-- Rounding-mode codes (R40). -/
def RM.code : RM → BitVec 3
  | .rne => 0 | .rtz => 1 | .rdn => 2 | .rup => 3 | .rna => 4 | .sa => 5 | .sb => 6 | .rod => 7

/-- The mode of a code; all eight are assigned (R40). -/
def RM.ofCode (c : BitVec 3) : RM :=
  match c.toNat with
  | 0 => .rne | 1 => .rtz | 2 => .rdn | 3 => .rup | 4 => .rna | 5 => .sa | 6 => .sb | _ => .rod

/-- Scope codes (R196, R197). -/
def Scope.code : Scope → Nat
  | .region => 0 | .device => 1 | .system => 2

/-- Bits [63:48], common to every word (R61, R63). -/
structure Head where
  op : BitVec 8
  gn : BitVec 1
  gk : BitVec 3
  fn : BitVec 4
deriving DecidableEq, Repr

/-- Bits [47:0] of format A (R63). -/
structure FmtA where
  rm : BitVec 3
  ty : BitVec 5
  d : BitVec 8
  a : BitVec 8
  b : BitVec 8
  c : BitVec 8
  mh : BitVec 4
  m3 : BitVec 1
  m2 : BitVec 1
  m1 : BitVec 1
  m0 : BitVec 1
deriving DecidableEq, Repr

/-- Bits [47:0] of format I (R63). -/
structure FmtI where
  d : BitVec 8
  a : BitVec 8
  imm : BitVec 32
deriving DecidableEq, Repr

/-- Bits [47:0] of format W (R63). -/
structure FmtW where
  win : BitVec 4
  vc : BitVec 5
  col : BitVec 3
  ar : BitVec 1
  sz : BitVec 3
  d : BitVec 8
  a : BitVec 8
  imm : BitVec 16
deriving DecidableEq, Repr

/-- Bits [47:0] of format M (R63), with IMM16 as offset and count (R162). -/
structure FmtM where
  rm : BitVec 3
  acc : BitVec 2
  zf : BitVec 1
  row : BitVec 6
  vca : BitVec 5
  vco : BitVec 5
  wb : BitVec 4
  fl : BitVec 1
  fty : BitVec 5
  off : BitVec 9
  n : BitVec 7
deriving DecidableEq, Repr

/-- Bits [47:0] of format E (R63). -/
structure FmtE where
  isl : BitVec 8
  d : BitVec 8
  a : BitVec 8
  b : BitVec 8
  c : BitVec 8
  xh : BitVec 4
  ar : BitVec 1
  col : BitVec 3
deriving DecidableEq, Repr

/-- Bits [47:0] of format F (R63). -/
structure FmtF where
  x : BitVec 8
  d : BitVec 8
  imm : BitVec 32
deriving DecidableEq, Repr

def Head.of (w : Word) : Head :=
  { op := w.extractLsb' 56 8, gn := w.extractLsb' 55 1, gk := w.extractLsb' 52 3, fn := w.extractLsb' 48 4 }

def FmtA.of (w : Word) : FmtA :=
  { rm := w.extractLsb' 45 3, ty := w.extractLsb' 40 5, d := w.extractLsb' 32 8, a := w.extractLsb' 24 8,
    b := w.extractLsb' 16 8, c := w.extractLsb' 8 8, mh := w.extractLsb' 4 4, m3 := w.extractLsb' 3 1,
    m2 := w.extractLsb' 2 1, m1 := w.extractLsb' 1 1, m0 := w.extractLsb' 0 1 }

def FmtI.of (w : Word) : FmtI :=
  { d := w.extractLsb' 40 8, a := w.extractLsb' 32 8, imm := w.extractLsb' 0 32 }

def FmtW.of (w : Word) : FmtW :=
  { win := w.extractLsb' 44 4, vc := w.extractLsb' 39 5, col := w.extractLsb' 36 3, ar := w.extractLsb' 35 1,
    sz := w.extractLsb' 32 3, d := w.extractLsb' 24 8, a := w.extractLsb' 16 8, imm := w.extractLsb' 0 16 }

def FmtM.of (w : Word) : FmtM :=
  { rm := w.extractLsb' 45 3, acc := w.extractLsb' 43 2, zf := w.extractLsb' 42 1, row := w.extractLsb' 36 6,
    vca := w.extractLsb' 31 5, vco := w.extractLsb' 26 5, wb := w.extractLsb' 22 4, fl := w.extractLsb' 21 1,
    fty := w.extractLsb' 16 5, off := w.extractLsb' 7 9, n := w.extractLsb' 0 7 }

def FmtE.of (w : Word) : FmtE :=
  { isl := w.extractLsb' 40 8, d := w.extractLsb' 32 8, a := w.extractLsb' 24 8, b := w.extractLsb' 16 8,
    c := w.extractLsb' 8 8, xh := w.extractLsb' 4 4, ar := w.extractLsb' 3 1, col := w.extractLsb' 0 3 }

def FmtF.of (w : Word) : FmtF :=
  { x := w.extractLsb' 40 8, d := w.extractLsb' 32 8, imm := w.extractLsb' 0 32 }

def Head.pack (h : Head) (body : BitVec 48) : Word := h.op ++ (h.gn ++ (h.gk ++ (h.fn ++ body)))

def FmtA.pack (f : FmtA) : BitVec 48 :=
  f.rm ++ (f.ty ++ (f.d ++ (f.a ++ (f.b ++ (f.c ++ (f.mh ++ (f.m3 ++ (f.m2 ++ (f.m1 ++ f.m0)))))))))

def FmtI.pack (f : FmtI) : BitVec 48 := f.d ++ (f.a ++ f.imm)

def FmtW.pack (f : FmtW) : BitVec 48 :=
  f.win ++ (f.vc ++ (f.col ++ (f.ar ++ (f.sz ++ (f.d ++ (f.a ++ f.imm))))))

def FmtM.pack (f : FmtM) : BitVec 48 :=
  f.rm ++ (f.acc ++ (f.zf ++ (f.row ++ (f.vca ++ (f.vco ++ (f.wb ++ (f.fl ++ (f.fty ++ (f.off ++ f.n)))))))))

def FmtE.pack (f : FmtE) : BitVec 48 :=
  f.isl ++ (f.d ++ (f.a ++ (f.b ++ (f.c ++ (f.xh ++ (f.ar ++ f.col))))))

def FmtF.pack (f : FmtF) : BitVec 48 := f.x ++ (f.d ++ f.imm)

/-! Operand bytes (R64). -/

def pS (b : BitVec 8) : Except Reject SReg :=
  if h : b.toNat < 32 then .ok ⟨b.toNat, h⟩ else .error .operand
def pV (b : BitVec 8) : Except Reject VReg :=
  if h : 0x40 ≤ b.toNat ∧ b.toNat < 0x60 then .ok ⟨b.toNat - 0x40, by omega⟩ else .error .operand
def pC (b : BitVec 8) : Except Reject CReg :=
  if h : 0x80 ≤ b.toNat ∧ b.toNat < 0x90 then .ok ⟨b.toNat - 0x80, by omega⟩ else .error .operand
def pK (b : BitVec 8) : Except Reject KReg :=
  if h : 0xC0 ≤ b.toNat ∧ b.toNat < 0xC8 then .ok ⟨b.toNat - 0xC0, by omega⟩ else .error .operand
def pLc (b : BitVec 8) : Except Reject (Fin 2) :=
  if h : 0xCC ≤ b.toNat ∧ b.toNat < 0xCE then .ok ⟨b.toNat - 0xCC, by omega⟩ else .error .operand

def eS (r : SReg) : BitVec 8 := BitVec.ofNat 8 r.val
def eV (r : VReg) : BitVec 8 := BitVec.ofNat 8 (0x40 + r.val)
def eC (r : CReg) : BitVec 8 := BitVec.ofNat 8 (0x80 + r.val)
def eK (r : KReg) : BitVec 8 := BitVec.ofNat 8 (0xC0 + r.val)
def eLc (r : Fin 2) : BitVec 8 := BitVec.ofNat 8 (0xCC + r.val)

/-- An s or v register by its class bits. -/
def pSV (b : BitVec 8) : Except Reject SV :=
  if b.toNat < 0x40 then do let r ← pS b; .ok (.s r) else do let r ← pV b; .ok (.v r)
def eSV : SV → BitVec 8
  | .s r => eS r
  | .v r => eV r
def pSVC (b : BitVec 8) : Except Reject SVC :=
  if b.toNat < 0x40 then do let r ← pS b; .ok (.s r)
  else if b.toNat < 0x80 then do let r ← pV b; .ok (.v r)
  else do let r ← pC b; .ok (.c r)
def eSVC : SVC → BitVec 8
  | .s r => eS r
  | .v r => eV r
  | .c r => eC r

/-- B of a vector word: v with MOD bit 1 clear, s with it set (R65). -/
def pB (m1 : BitVec 1) (b : BitVec 8) : Except Reject SV :=
  if m1 == 1 then do let r ← pS b; .ok (.s r) else do let r ← pV b; .ok (.v r)
def eBit : SV → BitVec 1
  | .s _ => 1
  | .v _ => 0

/-- A field that the entry does not use must be 0 (R69). -/
def need0 {n : Nat} (b : BitVec n) : Except Reject Unit := if b == 0 then .ok () else .error .reserved
/-- A field must hold this value. -/
def needEq {n : Nat} (b c : BitVec n) : Except Reject Unit := if b == c then .ok () else .error .reserved
def pTy (c : BitVec 5) : Except Reject Ty :=
  match Ty.ofCode c with
  | some t => .ok t
  | none => .error .typeCode
/-- RM must be rne (R66). -/
def rm0 (c : BitVec 3) : Except Reject Unit := if c == 0 then .ok () else .error .typeCode
def pSz (b : BitVec 3) : Except Reject (Fin 6) :=
  if h : b.toNat < 6 then .ok ⟨b.toNat, h⟩ else .error .reserved
def bool1 (b : BitVec 1) : Bool := b == 1
def bit1 (b : Bool) : BitVec 1 := if b then 1 else 0
def pBar (b : BitVec 16) : Except Reject (Fin 96) :=
  if h : b.toNat < 96 then .ok ⟨b.toNat, h⟩ else .error .reserved
/-- A field as an index of its full range. -/
def fin {n : Nat} (b : BitVec n) : Fin (2 ^ n) := b.toFin
def unfin {n : Nat} (i : Fin (2 ^ n)) : BitVec n := BitVec.ofFin i

def Head.guard (h : Head) : Guard := { neg := bool1 h.gn, k := fin h.gk }
def mkHead (op fn : Nat) (g : Guard) : Head :=
  { op := BitVec.ofNat 8 op, gn := bit1 g.neg, gk := unfin g.k, fn := BitVec.ofNat 4 fn }
def noGuard : Guard := { neg := false, k := 0 }

/-- A body whose every field is 0, to be overridden. -/
def a0 : FmtA := { rm := 0, ty := 0, d := 0, a := 0, b := 0, c := 0, mh := 0, m3 := 0, m2 := 0, m1 := 0, m0 := 0 }
def w0 : FmtW := { win := 0, vc := 0, col := 0, ar := 0, sz := 0, d := 0, a := 0, imm := 0 }
def m0 : FmtM := { rm := 0, acc := 0, zf := 0, row := 0, vca := 0, vco := 0, wb := 0, fl := 0, fty := 0, off := 0, n := 0 }
def e0 : FmtE := { isl := 0, d := 0, a := 0, b := 0, c := 0, xh := 0, ar := 0, col := 0 }
def f0 : FmtF := { x := 0, d := 0, imm := 0 }

def pMov (d a : BitVec 8) : Except Reject MovOp :=
  if d.toNat < 0x40 then
    if a.toNat < 0x40 then do let x ← pS d; let y ← pS a; .ok (.ss x y)
    else do let x ← pS d; let y ← pLc a; .ok (.sl x y)
  else if d.toNat < 0x80 then do let x ← pV d; let y ← pV a; .ok (.vv x y)
  else if d.toNat < 0xC0 then do let x ← pC d; let y ← pC a; .ok (.cc x y)
  else do let x ← pLc d; let y ← pS a; .ok (.ls x y)
def eMov : MovOp → BitVec 8 × BitVec 8
  | .ss d a => (eS d, eS a)
  | .sl d a => (eS d, eLc a)
  | .ls d a => (eLc d, eS a)
  | .vv d a => (eV d, eV a)
  | .cc d a => (eC d, eC a)
/-- cget fields 0-7; 8-15 are reserved (R121). -/
def pSel (b : BitVec 4) : Except Reject (Fin 8) :=
  if h : b.toNat < 8 then .ok ⟨b.toNat, h⟩ else .error .reserved
/-- loop: X[0] is the counter, X[7:1] reserved (R124). -/
def pLoopX (b : BitVec 8) : Except Reject (Fin 2) :=
  if h : b.toNat < 2 then .ok ⟨b.toNat, h⟩ else .error .reserved
/-- ctok scope; 3 is reserved (R197). -/
def pScope (b : BitVec 2) : Except Reject Scope :=
  match b.toNat with
  | 0 => .ok .region
  | 1 => .ok .device
  | 2 => .ok .system
  | _ => .error .reserved
/-- vpack: B only for the 4-bit types (R148). -/
def pPackB (t : Ty) (m1 : BitVec 1) (b : BitVec 8) : Except Reject (Option SV) :=
  if t.width == 4 then do let x ← pB m1 b; .ok (some x)
  else do let _ ← need0 m1; let _ ← need0 b; .ok none
def ePackB : Option SV → BitVec 8 × BitVec 1
  | some b => (eSV b, eBit b)
  | none => (0, 0)
def needTy (c : BitVec 5) (t : Ty) : Except Reject Unit := if c == t.code then .ok () else .error .typeCode
/-- SCH and the scale channel, reserved without SCH (R162). -/
def pSch (fl : BitVec 1) (vco : BitVec 5) : Except Reject (Option (Fin 32)) :=
  if fl == 1 then .ok (some (fin vco)) else do let _ ← need0 vco; .ok none
def eSch : Option (Fin 32) → BitVec 1 × BitVec 5
  | some c => (1, unfin (n := 5) c)
  | none => (0, 0)
/-- SZ 5 with v, SZ 3 with s (R185, R186). -/
def pBeat (sz : BitVec 3) (b : BitVec 8) : Except Reject SV :=
  if sz == 5 then do let r ← pV b; .ok (.v r)
  else if sz == 3 then do let r ← pS b; .ok (.s r)
  else .error .operand
def eBeatSz : SV → BitVec 3
  | .s _ => 3
  | .v _ => 5
/-- cpy: WDST selects the class of B (R203). -/
def pCS (wdst : BitVec 1) (b : BitVec 8) : Except Reject CS :=
  if wdst == 1 then do let r ← pS b; .ok (.s r) else do let r ← pC b; .ok (.c r)
def eCS : CS → BitVec 1 × BitVec 8
  | .c r => (0, eC r)
  | .s r => (1, eS r)

/-! One parser and one body encoder per operand shape. -/

def parseSSS (h : Head) (f : FmtA) : Except Reject SSSOps := do
  let _ ← need0 f.rm
  let _ ← need0 f.ty
  let _ ← need0 f.c
  let _ ← need0 f.mh
  let _ ← need0 f.m3
  let _ ← need0 f.m2
  let _ ← need0 f.m1
  let _ ← need0 f.m0
  let d ← pS f.d
  let a ← pS f.a
  let b ← pS f.b
  .ok { g := h.guard, d, a, b }
def bodySSS (o : SSSOps) : BitVec 48 := FmtA.pack { a0 with d := eS o.d, a := eS o.a, b := eS o.b }
def parseSSI (h : Head) (f : FmtI) : Except Reject SSIOps := do
  let d ← pS f.d
  let a ← pS f.a
  .ok { g := h.guard, d, a, imm := f.imm }
def bodySSI (o : SSIOps) : BitVec 48 := FmtI.pack { d := eS o.d, a := eS o.a, imm := o.imm }
def parseKSS (h : Head) (f : FmtA) : Except Reject KSSOps := do
  let _ ← need0 f.rm
  let _ ← need0 f.ty
  let _ ← need0 f.c
  let _ ← need0 f.mh
  let _ ← need0 f.m3
  let _ ← need0 f.m2
  let _ ← need0 f.m1
  let _ ← need0 f.m0
  let d ← pK f.d
  let a ← pS f.a
  let b ← pS f.b
  .ok { g := h.guard, d, a, b }
def bodyKSS (o : KSSOps) : BitVec 48 := FmtA.pack { a0 with d := eK o.d, a := eS o.a, b := eS o.b }
def parseKSI (h : Head) (f : FmtI) : Except Reject KSIOps := do
  let d ← pK f.d
  let a ← pS f.a
  .ok { g := h.guard, d, a, imm := f.imm }
def bodyKSI (o : KSIOps) : BitVec 48 := FmtI.pack { d := eK o.d, a := eS o.a, imm := o.imm }
def parseSSSK (h : Head) (f : FmtA) : Except Reject SSSKOps := do
  let _ ← need0 f.rm
  let _ ← need0 f.ty
  let _ ← need0 f.mh
  let _ ← need0 f.m3
  let _ ← need0 f.m2
  let _ ← need0 f.m1
  let _ ← need0 f.m0
  let d ← pS f.d
  let a ← pS f.a
  let b ← pS f.b
  let k ← pK f.c
  .ok { g := h.guard, d, a, b, k }
def bodySSSK (o : SSSKOps) : BitVec 48 := FmtA.pack { a0 with d := eS o.d, a := eS o.a, b := eS o.b, c := eK o.k }
def parseSS (h : Head) (f : FmtA) : Except Reject SSOps := do
  let _ ← need0 f.rm
  let _ ← need0 f.ty
  let _ ← need0 f.b
  let _ ← need0 f.c
  let _ ← need0 f.mh
  let _ ← need0 f.m3
  let _ ← need0 f.m2
  let _ ← need0 f.m1
  let _ ← need0 f.m0
  let d ← pS f.d
  let a ← pS f.a
  .ok { g := h.guard, d, a }
def bodySS (o : SSOps) : BitVec 48 := FmtA.pack { a0 with d := eS o.d, a := eS o.a }
def parseSSSS (h : Head) (f : FmtA) : Except Reject SSSSOps := do
  let _ ← need0 f.rm
  let _ ← need0 f.ty
  let _ ← need0 f.mh
  let _ ← need0 f.m3
  let _ ← need0 f.m2
  let _ ← need0 f.m1
  let _ ← need0 f.m0
  let d ← pS f.d
  let a ← pS f.a
  let b ← pS f.b
  let c ← pS f.c
  .ok { g := h.guard, d, a, b, c }
def bodySSSS (o : SSSSOps) : BitVec 48 := FmtA.pack { a0 with d := eS o.d, a := eS o.a, b := eS o.b, c := eS o.c }
def parseSI (h : Head) (f : FmtI) : Except Reject SIOps := do
  let _ ← need0 f.a
  let d ← pS f.d
  .ok { g := h.guard, d, imm := f.imm }
def bodySI (o : SIOps) : BitVec 48 := FmtI.pack { d := eS o.d, a := 0, imm := o.imm }
def parseMov (h : Head) (f : FmtA) : Except Reject MovOps := do
  let _ ← need0 f.rm
  let _ ← need0 f.ty
  let _ ← need0 f.b
  let _ ← need0 f.c
  let _ ← need0 f.mh
  let _ ← need0 f.m3
  let _ ← need0 f.m2
  let _ ← need0 f.m1
  let _ ← need0 f.m0
  let op ← pMov f.d f.a
  .ok { g := h.guard, op }
def bodyMov (o : MovOps) : BitVec 48 := FmtA.pack { a0 with d := (eMov o.op).1, a := (eMov o.op).2 }
def parseKKK (h : Head) (f : FmtA) : Except Reject KKKOps := do
  let _ ← need0 f.rm
  let _ ← need0 f.ty
  let _ ← need0 f.c
  let _ ← need0 f.mh
  let _ ← need0 f.m3
  let _ ← need0 f.m2
  let _ ← need0 f.m1
  let _ ← need0 f.m0
  let d ← pK f.d
  let a ← pK f.a
  let b ← pK f.b
  .ok { g := h.guard, d, a, b }
def bodyKKK (o : KKKOps) : BitVec 48 := FmtA.pack { a0 with d := eK o.d, a := eK o.a, b := eK o.b }
def parseKK (h : Head) (f : FmtA) : Except Reject KKOps := do
  let _ ← need0 f.rm
  let _ ← need0 f.ty
  let _ ← need0 f.b
  let _ ← need0 f.c
  let _ ← need0 f.mh
  let _ ← need0 f.m3
  let _ ← need0 f.m2
  let _ ← need0 f.m1
  let _ ← need0 f.m0
  let d ← pK f.d
  let a ← pK f.a
  .ok { g := h.guard, d, a }
def bodyKK (o : KKOps) : BitVec 48 := FmtA.pack { a0 with d := eK o.d, a := eK o.a }
def parseSK (h : Head) (f : FmtA) : Except Reject SKOps := do
  let _ ← need0 f.rm
  let _ ← need0 f.ty
  let _ ← need0 f.b
  let _ ← need0 f.c
  let _ ← need0 f.mh
  let _ ← need0 f.m3
  let _ ← need0 f.m2
  let _ ← need0 f.m1
  let _ ← need0 f.m0
  let d ← pS f.d
  let a ← pK f.a
  .ok { g := h.guard, d, a }
def bodySK (o : SKOps) : BitVec 48 := FmtA.pack { a0 with d := eS o.d, a := eK o.a }
def parseKS (h : Head) (f : FmtA) : Except Reject KSOps := do
  let _ ← need0 f.rm
  let _ ← need0 f.ty
  let _ ← need0 f.b
  let _ ← need0 f.c
  let _ ← need0 f.mh
  let _ ← need0 f.m3
  let _ ← need0 f.m2
  let _ ← need0 f.m1
  let _ ← need0 f.m0
  let d ← pK f.d
  let a ← pS f.a
  .ok { g := h.guard, d, a }
def bodyKS (o : KSOps) : BitVec 48 := FmtA.pack { a0 with d := eK o.d, a := eS o.a }
def parseCCSS (h : Head) (f : FmtA) : Except Reject CCSSOps := do
  let _ ← need0 f.rm
  let _ ← need0 f.ty
  let _ ← need0 f.mh
  let _ ← need0 f.m3
  let _ ← need0 f.m2
  let _ ← need0 f.m1
  let _ ← need0 f.m0
  let d ← pC f.d
  let a ← pC f.a
  let b ← pS f.b
  let c ← pS f.c
  .ok { g := h.guard, d, a, b, c }
def bodyCCSS (o : CCSSOps) : BitVec 48 := FmtA.pack { a0 with d := eC o.d, a := eC o.a, b := eS o.b, c := eS o.c }
def parseCCS (h : Head) (f : FmtA) : Except Reject CCSOps := do
  let _ ← need0 f.rm
  let _ ← need0 f.ty
  let _ ← need0 f.c
  let _ ← need0 f.mh
  let _ ← need0 f.m3
  let _ ← need0 f.m2
  let _ ← need0 f.m1
  let _ ← need0 f.m0
  let d ← pC f.d
  let a ← pC f.a
  let b ← pS f.b
  .ok { g := h.guard, d, a, b }
def bodyCCS (o : CCSOps) : BitVec 48 := FmtA.pack { a0 with d := eC o.d, a := eC o.a, b := eS o.b }
def parseCGet (h : Head) (f : FmtA) : Except Reject CGetOps := do
  let _ ← need0 f.rm
  let _ ← need0 f.ty
  let _ ← need0 f.b
  let _ ← need0 f.c
  let _ ← need0 f.m3
  let _ ← need0 f.m2
  let _ ← need0 f.m1
  let _ ← need0 f.m0
  let d ← pS f.d
  let a ← pC f.a
  let sel ← pSel f.mh
  .ok { g := h.guard, d, a, sel }
def bodyCGet (o : CGetOps) : BitVec 48 := FmtA.pack { a0 with d := eS o.d, a := eC o.a, mh := BitVec.ofNat 4 o.sel.val }
def parseCLd (h : Head) (f : FmtA) : Except Reject CLdOps := do
  let _ ← need0 f.rm
  let _ ← need0 f.ty
  let _ ← need0 f.c
  let _ ← need0 f.m3
  let _ ← need0 f.m2
  let _ ← need0 f.m1
  let _ ← need0 f.m0
  let d ← pC f.d
  let a ← pC f.a
  let b ← pS f.b
  .ok { g := h.guard, d, a, b, col := fin (f.mh.extractLsb' 0 3), acq := bool1 (f.mh.extractLsb' 3 1) }
def bodyCLd (o : CLdOps) : BitVec 48 := FmtA.pack { a0 with d := eC o.d, a := eC o.a, b := eS o.b, mh := bit1 o.acq ++ (unfin o.col : BitVec 3) }
def parseCSt (h : Head) (f : FmtA) : Except Reject CStOps := do
  let _ ← need0 f.rm
  let _ ← need0 f.ty
  let _ ← need0 f.d
  let _ ← need0 f.m3
  let _ ← need0 f.m2
  let _ ← need0 f.m1
  let _ ← need0 f.m0
  let a ← pC f.a
  let b ← pS f.b
  let c ← pC f.c
  .ok { g := h.guard, a, b, c, col := fin (f.mh.extractLsb' 0 3), rel := bool1 (f.mh.extractLsb' 3 1) }
def bodyCSt (o : CStOps) : BitVec 48 := FmtA.pack { a0 with a := eC o.a, b := eS o.b, c := eC o.c, mh := bit1 o.rel ++ (unfin o.col : BitVec 3) }
def parseLoop (h : Head) (f : FmtF) : Except Reject LoopOps := do
  let _ ← need0 h.gn; let _ ← need0 h.gk
  let lc ← pLoopX f.x
  let d ← pS f.d
  .ok { lc, d, stop := f.imm.extractLsb' 0 12, count := f.imm.extractLsb' 12 20 }
def bodyLoop (o : LoopOps) : BitVec 48 := FmtF.pack { x := BitVec.ofNat 8 o.lc.val, d := eS o.d, imm := o.count ++ o.stop }
def parseLMask (h : Head) (f : FmtF) : Except Reject LMaskOps := do
  let _ ← need0 h.gn; let _ ← need0 h.gk
  let d ← pK f.d
  let m ← pS f.x
  let _ ← need0 (f.imm.extractLsb' 2 30)
  .ok { d, m, lc := fin (f.imm.extractLsb' 0 1), sticky := bool1 (f.imm.extractLsb' 1 1) }
def bodyLMask (o : LMaskOps) : BitVec 48 := FmtF.pack { x := eS o.m, d := eK o.d, imm := (0 : BitVec 30) ++ (bit1 o.sticky ++ (unfin o.lc : BitVec 1)) }
def parseTrap (h : Head) (f : FmtF) : Except Reject TrapOps := do
  let _ ← need0 f.x
  let d ← pS f.d
  .ok { g := h.guard, d, imm := f.imm }
def bodyTrap (o : TrapOps) : BitVec 48 := FmtF.pack { x := 0, d := eS o.d, imm := o.imm }
def parseSmov (h : Head) (f : FmtF) : Except Reject SmovOps := do
  let _ ← need0 f.x
  let d ← pS f.d
  let _ ← need0 (f.imm.extractLsb' 12 20)
  .ok { g := h.guard, d, reg := f.imm.extractLsb' 0 12 }
def bodySmov (o : SmovOps) : BitVec 48 := FmtF.pack { x := 0, d := eS o.d, imm := (0 : BitVec 20) ++ o.reg }
def parseCtxCtl (h : Head) (f : FmtF) : Except Reject CtxCtlOps := do
  let _ ← need0 f.imm
  let d ← pS f.d
  let x ← pS f.x
  .ok { g := h.guard, d, x }
def bodyCtxCtl (o : CtxCtlOps) : BitVec 48 := FmtF.pack { x := eS o.x, d := eS o.d, imm := 0 }
def parseMark0 (h : Head) (f : FmtF) : Except Reject MarkOps := do
  let _ ← need0 f.imm
  let _ ← needEq f.x 0
  let d ← pS f.d
  .ok { g := h.guard, d }
def bodyMark0 (o : MarkOps) : BitVec 48 := FmtF.pack { x := 0, d := eS o.d, imm := 0 }
def parseMark1 (h : Head) (f : FmtF) : Except Reject MarkOps := do
  let _ ← need0 f.imm
  let _ ← needEq f.x 1
  let d ← pS f.d
  .ok { g := h.guard, d }
def bodyMark1 (o : MarkOps) : BitVec 48 := FmtF.pack { x := 1, d := eS o.d, imm := 0 }
def parseMark2 (h : Head) (f : FmtF) : Except Reject MarkOps := do
  let _ ← need0 f.imm
  let _ ← needEq f.x 2
  let d ← pS f.d
  .ok { g := h.guard, d }
def bodyMark2 (o : MarkOps) : BitVec 48 := FmtF.pack { x := 2, d := eS o.d, imm := 0 }
def parseTsamp (h : Head) (f : FmtF) : Except Reject TsampOps := do
  let _ ← need0 f.d
  let _ ← need0 f.imm
  let _ ← need0 (f.x.extractLsb' 5 3)
  .ok { g := h.guard, oc := fin (f.x.extractLsb' 0 5) }
def bodyTsamp (o : TsampOps) : BitVec 48 := FmtF.pack { x := (0 : BitVec 3) ++ (unfin o.oc : BitVec 5), d := 0, imm := 0 }
def parseBrk (h : Head) (f : FmtF) : Except Reject BrkOps := do
  let _ ← need0 f.x
  let _ ← need0 f.d
  .ok { g := h.guard, imm := f.imm }
def bodyBrk (o : BrkOps) : BitVec 48 := FmtF.pack { x := 0, d := 0, imm := o.imm }
def parseBrkArmed (h : Head) (f : FmtF) : Except Reject BrkArmedOps := do
  let _ ← need0 f.d
  let _ ← needEq (f.x.extractLsb' 5 3) 4
  .ok { g := h.guard, oc := fin (f.x.extractLsb' 0 5), n := f.imm }
def bodyBrkArmed (o : BrkArmedOps) : BitVec 48 := FmtF.pack { x := (4 : BitVec 3) ++ (unfin o.oc : BitVec 5), d := 0, imm := o.n }
def parseTlbinv (h : Head) (f : FmtF) : Except Reject TlbinvOps := do
  let d ← pS f.d
  let x ← pS f.x
  let _ ← need0 (f.imm.extractLsb' 1 31)
  .ok { g := h.guard, d, x, all := bool1 (f.imm.extractLsb' 0 1) }
def bodyTlbinv (o : TlbinvOps) : BitVec 48 := FmtF.pack { x := eS o.x, d := eS o.d, imm := (0 : BitVec 31) ++ bit1 o.all }
def parsePost (h : Head) (f : FmtF) : Except Reject PostOps := do
  let _ ← need0 f.x
  let d ← pV f.d
  let _ ← need0 (f.imm.extractLsb' 16 16)
  .ok { g := h.guard, d, block := f.imm.extractLsb' 0 16 }
def bodyPost (o : PostOps) : BitVec 48 := FmtF.pack { x := 0, d := eV o.d, imm := (0 : BitVec 16) ++ o.block }
def parseFence (h : Head) (f : FmtF) : Except Reject FenceOps := do
  let _ ← need0 f.d
  let _ ← need0 f.imm
  .ok { g := h.guard, mask := f.x }
def bodyFence (o : FenceOps) : BitVec 48 := FmtF.pack { x := o.mask, d := 0, imm := 0 }
def parseCtok (h : Head) (f : FmtF) : Except Reject CtokOps := do
  let _ ← need0 f.d
  let _ ← need0 (f.imm.extractLsb' 10 22)
  let _ ← need0 (f.imm.extractLsb' 5 3)
  let scope ← pScope (f.imm.extractLsb' 8 2)
  .ok { g := h.guard, mask := f.x, oc := fin (f.imm.extractLsb' 0 5), scope }
def bodyCtok (o : CtokOps) : BitVec 48 := FmtF.pack { x := o.mask, d := 0, imm := (0 : BitVec 22) ++ (BitVec.ofNat 2 o.scope.code ++ ((0 : BitVec 3) ++ (unfin o.oc : BitVec 5))) }
def parseVBin (h : Head) (f : FmtA) : Except Reject VBinOps := do
  let _ ← need0 f.c
  let _ ← need0 f.mh
  let ty ← pTy f.ty
  let d ← pV f.d
  let a ← pV f.a
  let b ← pB f.m1 f.b
  .ok { g := h.guard, rm := RM.ofCode f.rm, ty, sat := bool1 f.m0, negA := bool1 f.m2, negC := bool1 f.m3, d, a, b }
def bodyVBin (o : VBinOps) : BitVec 48 := FmtA.pack { a0 with rm := o.rm.code, ty := o.ty.code, d := eV o.d, a := eV o.a, b := eSV o.b, m1 := eBit o.b, m3 := bit1 o.negC, m2 := bit1 o.negA, m0 := bit1 o.sat }
def parseVFma (h : Head) (f : FmtA) : Except Reject VFmaOps := do
  let _ ← need0 f.mh
  let ty ← pTy f.ty
  let d ← pV f.d
  let a ← pV f.a
  let b ← pB f.m1 f.b
  let c ← pV f.c
  .ok { g := h.guard, rm := RM.ofCode f.rm, ty, sat := bool1 f.m0, negA := bool1 f.m2, negC := bool1 f.m3, d, a, b, c }
def bodyVFma (o : VFmaOps) : BitVec 48 := FmtA.pack { a0 with rm := o.rm.code, ty := o.ty.code, d := eV o.d, a := eV o.a, b := eSV o.b, m1 := eBit o.b, c := eV o.c, m3 := bit1 o.negC, m2 := bit1 o.negA, m0 := bit1 o.sat }
def parseVMinMax (h : Head) (f : FmtA) : Except Reject VMinMaxOps := do
  let _ ← need0 f.c
  let _ ← need0 f.mh
  let _ ← need0 f.m3
  let _ ← need0 f.m2
  let ty ← pTy f.ty
  let d ← pV f.d
  let a ← pV f.a
  let b ← pB f.m1 f.b
  .ok { g := h.guard, rm := RM.ofCode f.rm, ty, sat := bool1 f.m0, d, a, b }
def bodyVMinMax (o : VMinMaxOps) : BitVec 48 := FmtA.pack { a0 with rm := o.rm.code, ty := o.ty.code, d := eV o.d, a := eV o.a, b := eSV o.b, m1 := eBit o.b, m0 := bit1 o.sat }
def parseVUnS (h : Head) (f : FmtA) : Except Reject VUnSOps := do
  let _ ← need0 f.b
  let _ ← need0 f.c
  let _ ← need0 f.mh
  let _ ← need0 f.m3
  let _ ← need0 f.m2
  let _ ← need0 f.m1
  let ty ← pTy f.ty
  let d ← pV f.d
  let a ← pV f.a
  .ok { g := h.guard, rm := RM.ofCode f.rm, ty, sat := bool1 f.m0, d, a }
def bodyVUnS (o : VUnSOps) : BitVec 48 := FmtA.pack { a0 with rm := o.rm.code, ty := o.ty.code, d := eV o.d, a := eV o.a, m0 := bit1 o.sat }
def parseVDiv (h : Head) (f : FmtA) : Except Reject VDivOps := do
  let _ ← need0 f.c
  let _ ← need0 f.mh
  let _ ← need0 f.m3
  let _ ← need0 f.m2
  let _ ← need0 f.m0
  let ty ← pTy f.ty
  let d ← pV f.d
  let a ← pV f.a
  let b ← pB f.m1 f.b
  .ok { g := h.guard, rm := RM.ofCode f.rm, ty, d, a, b }
def bodyVDiv (o : VDivOps) : BitVec 48 := FmtA.pack { a0 with rm := o.rm.code, ty := o.ty.code, d := eV o.d, a := eV o.a, b := eSV o.b, m1 := eBit o.b }
def parseVUn (h : Head) (f : FmtA) : Except Reject VUnOps := do
  let _ ← need0 f.b
  let _ ← need0 f.c
  let _ ← need0 f.mh
  let _ ← need0 f.m3
  let _ ← need0 f.m2
  let _ ← need0 f.m1
  let _ ← need0 f.m0
  let ty ← pTy f.ty
  let d ← pV f.d
  let a ← pV f.a
  .ok { g := h.guard, rm := RM.ofCode f.rm, ty, d, a }
def bodyVUn (o : VUnOps) : BitVec 48 := FmtA.pack { a0 with rm := o.rm.code, ty := o.ty.code, d := eV o.d, a := eV o.a }
def parseVCmp (h : Head) (f : FmtA) : Except Reject VCmpOps := do
  let _ ← need0 f.c
  let _ ← need0 f.mh
  let _ ← need0 f.m3
  let _ ← need0 f.m2
  let _ ← need0 f.m0
  let _ ← rm0 f.rm
  let ty ← pTy f.ty
  let d ← pK f.d
  let a ← pV f.a
  let b ← pB f.m1 f.b
  .ok { g := h.guard, ty, d, a, b }
def bodyVCmp (o : VCmpOps) : BitVec 48 := FmtA.pack { a0 with ty := o.ty.code, d := eK o.d, a := eV o.a, b := eSV o.b, m1 := eBit o.b }
def parseVSel (h : Head) (f : FmtA) : Except Reject VSelOps := do
  let _ ← need0 f.mh
  let _ ← need0 f.m3
  let _ ← need0 f.m2
  let _ ← need0 f.m0
  let _ ← rm0 f.rm
  let ty ← pTy f.ty
  let d ← pV f.d
  let a ← pV f.a
  let b ← pB f.m1 f.b
  let k ← pK f.c
  .ok { g := h.guard, ty, d, a, b, k }
def bodyVSel (o : VSelOps) : BitVec 48 := FmtA.pack { a0 with ty := o.ty.code, d := eV o.d, a := eV o.a, b := eSV o.b, m1 := eBit o.b, c := eK o.k }
def parseVBits (h : Head) (f : FmtA) : Except Reject VBitsOps := do
  let _ ← need0 f.c
  let _ ← need0 f.mh
  let _ ← need0 f.m3
  let _ ← need0 f.m2
  let _ ← need0 f.m0
  let _ ← rm0 f.rm
  let ty ← pTy f.ty
  let d ← pV f.d
  let a ← pV f.a
  let b ← pB f.m1 f.b
  .ok { g := h.guard, ty, d, a, b }
def bodyVBits (o : VBitsOps) : BitVec 48 := FmtA.pack { a0 with ty := o.ty.code, d := eV o.d, a := eV o.a, b := eSV o.b, m1 := eBit o.b }
def parseVCvt (h : Head) (f : FmtA) : Except Reject VCvtOps := do
  let _ ← need0 f.b
  let _ ← need0 f.m3
  let _ ← need0 f.m2
  let _ ← need0 f.m1
  let ty ← pTy f.ty
  let sty ← pTy (f.c.extractLsb' 0 5)
  let _ ← need0 (f.c.extractLsb' 5 3)
  let d ← pV f.d
  let a ← pV f.a
  .ok { g := h.guard, rm := RM.ofCode f.rm, ty, sty, sat := bool1 f.m0, part := fin f.mh, d, a }
def bodyVCvt (o : VCvtOps) : BitVec 48 := FmtA.pack { a0 with rm := o.rm.code, ty := o.ty.code, d := eV o.d, a := eV o.a, c := (0 : BitVec 3) ++ o.sty.code, mh := unfin o.part, m0 := bit1 o.sat }
def parseVCvtCh (h : Head) (f : FmtA) : Except Reject VCvtChOps := do
  let _ ← need0 f.b
  let _ ← need0 f.m3
  let _ ← need0 f.m2
  let _ ← need0 f.m1
  let ty ← pTy f.ty
  let sty ← pTy (f.c.extractLsb' 0 5)
  let _ ← needEq (f.c.extractLsb' 5 3) 4
  let d ← pV f.d
  let a ← pS f.a
  .ok { g := h.guard, rm := RM.ofCode f.rm, ty, sty, sat := bool1 f.m0, part := fin f.mh, d, a }
def bodyVCvtCh (o : VCvtChOps) : BitVec 48 := FmtA.pack { a0 with rm := o.rm.code, ty := o.ty.code, d := eV o.d, a := eS o.a, c := (4 : BitVec 3) ++ o.sty.code, mh := unfin o.part, m0 := bit1 o.sat }
def parseVScale (h : Head) (f : FmtA) : Except Reject VScaleOps := do
  let _ ← need0 f.m3
  let _ ← need0 f.m2
  let _ ← need0 f.m1
  let ty ← pTy f.ty
  let sty ← pTy (f.c.extractLsb' 0 5)
  let _ ← need0 (f.c.extractLsb' 5 3)
  let d ← pV f.d
  let a ← pV f.a
  let b ← pS f.b
  .ok { g := h.guard, rm := RM.ofCode f.rm, ty, sty, sat := bool1 f.m0, part := fin f.mh, d, a, b }
def bodyVScale (o : VScaleOps) : BitVec 48 := FmtA.pack { a0 with rm := o.rm.code, ty := o.ty.code, d := eV o.d, a := eV o.a, b := eS o.b, c := (0 : BitVec 3) ++ o.sty.code, mh := unfin o.part, m0 := bit1 o.sat }
def parseVPack (h : Head) (f : FmtA) : Except Reject VPackOps := do
  let _ ← need0 f.c
  let _ ← need0 f.mh
  let _ ← need0 f.m3
  let _ ← need0 f.m2
  let _ ← need0 f.m0
  let _ ← rm0 f.rm
  let ty ← pTy f.ty
  let d ← pV f.d
  let a ← pV f.a
  let b ← pPackB ty f.m1 f.b
  .ok { g := h.guard, ty, d, a, b }
def bodyVPack (o : VPackOps) : BitVec 48 := FmtA.pack { a0 with ty := o.ty.code, d := eV o.d, a := eV o.a, b := (ePackB o.b).1, m1 := (ePackB o.b).2 }
def parseVUnpack (h : Head) (f : FmtA) : Except Reject VUnpackOps := do
  let _ ← need0 f.b
  let _ ← need0 f.c
  let _ ← need0 f.m3
  let _ ← need0 f.m2
  let _ ← need0 f.m1
  let _ ← need0 f.m0
  let _ ← rm0 f.rm
  let ty ← pTy f.ty
  let _ ← need0 (f.mh.extractLsb' 1 3)
  let d ← pV f.d
  let a ← pV f.a
  .ok { g := h.guard, ty, half := bool1 (f.mh.extractLsb' 0 1), d, a }
def bodyVUnpack (o : VUnpackOps) : BitVec 48 := FmtA.pack { a0 with ty := o.ty.code, d := eV o.d, a := eV o.a, mh := (0 : BitVec 3) ++ bit1 o.half }
def parseVBsc (h : Head) (f : FmtA) : Except Reject VBscOps := do
  let _ ← need0 f.b
  let _ ← need0 f.m3
  let _ ← need0 f.m2
  let _ ← need0 f.m1
  let ty ← pTy f.ty
  let _ ← need0 (f.mh.extractLsb' 2 2)
  let d ← pV f.d
  let a ← pV f.a
  let c ← pS f.c
  .ok { g := h.guard, rm := RM.ofCode f.rm, ty, sat := bool1 f.m0, src32 := bool1 (f.mh.extractLsb' 1 1), half := bool1 (f.mh.extractLsb' 0 1), d, a, c }
def bodyVBsc (o : VBscOps) : BitVec 48 := FmtA.pack { a0 with rm := o.rm.code, ty := o.ty.code, d := eV o.d, a := eV o.a, c := eS o.c, mh := (0 : BitVec 2) ++ (bit1 o.src32 ++ bit1 o.half), m0 := bit1 o.sat }
def parseVBsx (h : Head) (f : FmtA) : Except Reject VBsxOps := do
  let _ ← need0 f.m3
  let _ ← need0 f.m2
  let _ ← need0 f.m1
  let ty ← pTy f.ty
  let _ ← need0 (f.c.extractLsb' 5 3)
  let dst ← pTy (f.c.extractLsb' 0 5)
  let d ← pV f.d
  let a ← pV f.a
  let b ← pS f.b
  .ok { g := h.guard, rm := RM.ofCode f.rm, ty, dst, sat := bool1 f.m0, part := fin f.mh, d, a, b }
def bodyVBsx (o : VBsxOps) : BitVec 48 := FmtA.pack { a0 with rm := o.rm.code, ty := o.ty.code, d := eV o.d, a := eV o.a, b := eS o.b, c := (0 : BitVec 3) ++ o.dst.code, mh := unfin o.part, m0 := bit1 o.sat }
def parseVHad (h : Head) (f : FmtA) : Except Reject VHadOps := do
  let _ ← need0 f.b
  let _ ← need0 f.c
  let _ ← need0 f.m3
  let _ ← need0 f.m2
  let _ ← need0 f.m1
  let _ ← need0 f.m0
  let ty ← pTy f.ty
  let _ ← need0 (f.mh.extractLsb' 2 2)
  let d ← pV f.d
  let a ← pV f.a
  .ok { g := h.guard, rm := RM.ofCode f.rm, ty, size := fin (f.mh.extractLsb' 0 2), d, a }
def bodyVHad (o : VHadOps) : BitVec 48 := FmtA.pack { a0 with rm := o.rm.code, ty := o.ty.code, d := eV o.d, a := eV o.a, mh := (0 : BitVec 2) ++ (unfin o.size : BitVec 2) }
def parseVRed (h : Head) (f : FmtA) : Except Reject VRedOps := do
  let _ ← need0 f.b
  let _ ← need0 f.c
  let _ ← need0 f.mh
  let _ ← need0 f.m3
  let _ ← need0 f.m2
  let _ ← need0 f.m1
  let ty ← pTy f.ty
  let d ← pS f.d
  let a ← pV f.a
  .ok { g := h.guard, rm := RM.ofCode f.rm, ty, sat := bool1 f.m0, d, a }
def bodyVRed (o : VRedOps) : BitVec 48 := FmtA.pack { a0 with rm := o.rm.code, ty := o.ty.code, d := eS o.d, a := eV o.a, m0 := bit1 o.sat }
def parseVFromS (h : Head) (f : FmtA) : Except Reject VFromSOps := do
  let _ ← need0 f.b
  let _ ← need0 f.c
  let _ ← need0 f.mh
  let _ ← need0 f.m3
  let _ ← need0 f.m2
  let _ ← need0 f.m1
  let _ ← need0 f.m0
  let _ ← rm0 f.rm
  let ty ← pTy f.ty
  let d ← pV f.d
  let a ← pS f.a
  .ok { g := h.guard, ty, d, a }
def bodyVFromS (o : VFromSOps) : BitVec 48 := FmtA.pack { a0 with ty := o.ty.code, d := eV o.d, a := eS o.a }
def parseVIns (h : Head) (f : FmtA) : Except Reject VInsOps := do
  let _ ← need0 f.c
  let _ ← need0 f.mh
  let _ ← need0 f.m3
  let _ ← need0 f.m2
  let _ ← need0 f.m1
  let _ ← need0 f.m0
  let _ ← rm0 f.rm
  let ty ← pTy f.ty
  let d ← pV f.d
  let a ← pS f.a
  let b ← pS f.b
  .ok { g := h.guard, ty, d, a, b }
def bodyVIns (o : VInsOps) : BitVec 48 := FmtA.pack { a0 with ty := o.ty.code, d := eV o.d, a := eS o.a, b := eS o.b }
def parseVExt (h : Head) (f : FmtA) : Except Reject VExtOps := do
  let _ ← need0 f.c
  let _ ← need0 f.mh
  let _ ← need0 f.m3
  let _ ← need0 f.m2
  let _ ← need0 f.m1
  let _ ← need0 f.m0
  let _ ← rm0 f.rm
  let ty ← pTy f.ty
  let d ← pS f.d
  let a ← pV f.a
  let b ← pS f.b
  .ok { g := h.guard, ty, d, a, b }
def bodyVExt (o : VExtOps) : BitVec 48 := FmtA.pack { a0 with ty := o.ty.code, d := eS o.d, a := eV o.a, b := eS o.b }
def parseVSort (h : Head) (f : FmtA) : Except Reject VSortOps := do
  let _ ← need0 f.b
  let _ ← need0 f.c
  let _ ← need0 f.m3
  let _ ← need0 f.m2
  let _ ← need0 f.m1
  let _ ← need0 f.m0
  let _ ← rm0 f.rm
  let ty ← pTy f.ty
  let _ ← need0 (f.mh.extractLsb' 1 3)
  let d ← pV f.d
  let a ← pV f.a
  .ok { g := h.guard, ty, desc := bool1 (f.mh.extractLsb' 0 1), d, a }
def bodyVSort (o : VSortOps) : BitVec 48 := FmtA.pack { a0 with ty := o.ty.code, d := eV o.d, a := eV o.a, mh := (0 : BitVec 3) ++ bit1 o.desc }
def parseVHist (h : Head) (f : FmtA) : Except Reject VHistOps := do
  let _ ← need0 f.d
  let _ ← need0 f.c
  let _ ← need0 f.m3
  let _ ← need0 f.m2
  let _ ← need0 f.m1
  let _ ← need0 f.m0
  let _ ← rm0 f.rm
  let ty ← pTy f.ty
  let a ← pV f.a
  let b ← pS f.b
  .ok { g := h.guard, ty, a, b, win := fin f.mh }
def bodyVHist (o : VHistOps) : BitVec 48 := FmtA.pack { a0 with ty := o.ty.code, a := eV o.a, b := eS o.b, mh := unfin o.win }
def parseVSdc (h : Head) (f : FmtA) : Except Reject VSdcOps := do
  let _ ← need0 f.b
  let _ ← need0 f.m3
  let _ ← need0 f.m2
  let _ ← need0 f.m1
  let _ ← need0 f.m0
  let _ ← rm0 f.rm
  let ty ← pTy f.ty
  let _ ← need0 (f.mh.extractLsb' 1 3)
  let _ ← need0 f.c
  let d ← pV f.d
  let a ← pV f.a
  .ok { g := h.guard, ty, half := bool1 (f.mh.extractLsb' 0 1), d, a }
def bodyVSdc (o : VSdcOps) : BitVec 48 := FmtA.pack { a0 with ty := o.ty.code, d := eV o.d, a := eV o.a, mh := (0 : BitVec 3) ++ bit1 o.half }
def parseVSdcCh (h : Head) (f : FmtA) : Except Reject VSdcChOps := do
  let _ ← need0 f.b
  let _ ← need0 f.m3
  let _ ← need0 f.m2
  let _ ← need0 f.m1
  let _ ← need0 f.m0
  let _ ← rm0 f.rm
  let ty ← pTy f.ty
  let _ ← need0 (f.mh.extractLsb' 1 3)
  let _ ← needEq f.c 0x80
  let d ← pV f.d
  let a ← pS f.a
  .ok { g := h.guard, ty, half := bool1 (f.mh.extractLsb' 0 1), d, a }
def bodyVSdcCh (o : VSdcChOps) : BitVec 48 := FmtA.pack { a0 with ty := o.ty.code, d := eV o.d, a := eS o.a, c := 0x80, mh := (0 : BitVec 3) ++ bit1 o.half }
def parseVSdAdd (h : Head) (f : FmtA) : Except Reject VSdAddOps := do
  let _ ← need0 f.c
  let _ ← need0 f.mh
  let _ ← need0 f.m3
  let _ ← need0 f.m2
  let _ ← need0 f.m0
  let _ ← rm0 f.rm
  let _ ← needTy f.ty .sd
  let d ← pV f.d
  let a ← pV f.a
  let b ← pB f.m1 f.b
  .ok { g := h.guard, d, a, b }
def bodyVSdAdd (o : VSdAddOps) : BitVec 48 := FmtA.pack { a0 with ty := Ty.sd.code, d := eV o.d, a := eV o.a, b := eSV o.b, m1 := eBit o.b }
def parseVSdCmp (h : Head) (f : FmtA) : Except Reject VSdCmpOps := do
  let _ ← need0 f.mh
  let _ ← need0 f.m3
  let _ ← need0 f.m2
  let _ ← need0 f.m0
  let _ ← rm0 f.rm
  let _ ← needTy f.ty .sd
  let d ← pK f.d
  let a ← pV f.a
  let b ← pB f.m1 f.b
  let c ← pS f.c
  .ok { g := h.guard, d, a, b, c }
def bodyVSdCmp (o : VSdCmpOps) : BitVec 48 := FmtA.pack { a0 with ty := Ty.sd.code, d := eK o.d, a := eV o.a, b := eSV o.b, m1 := eBit o.b, c := eS o.c }
def parseVClass (h : Head) (f : FmtA) : Except Reject VClassOps := do
  let _ ← need0 f.b
  let _ ← need0 f.c
  let _ ← need0 f.mh
  let _ ← need0 f.m3
  let _ ← need0 f.m2
  let _ ← need0 f.m1
  let _ ← need0 f.m0
  let _ ← rm0 f.rm
  let ty ← pTy f.ty
  let d ← pV f.d
  let a ← pV f.a
  .ok { g := h.guard, ty, d, a }
def bodyVClass (o : VClassOps) : BitVec 48 := FmtA.pack { a0 with ty := o.ty.code, d := eV o.d, a := eV o.a }
def parseVDot (h : Head) (f : FmtA) : Except Reject VDotOps := do
  let _ ← need0 f.m3
  let _ ← need0 f.m2
  let _ ← rm0 f.rm
  let ty ← pTy f.ty
  let _ ← need0 (f.mh.extractLsb' 2 2)
  let d ← pV f.d
  let a ← pV f.a
  let b ← pB f.m1 f.b
  let c ← pV f.c
  .ok { g := h.guard, ty, sat := bool1 f.m0, sign := fin (f.mh.extractLsb' 0 2), d, a, b, c }
def bodyVDot (o : VDotOps) : BitVec 48 := FmtA.pack { a0 with ty := o.ty.code, d := eV o.d, a := eV o.a, b := eSV o.b, m1 := eBit o.b, c := eV o.c, mh := (0 : BitVec 2) ++ (unfin o.sign : BitVec 2), m0 := bit1 o.sat }
def parseMB (h : Head) (f : FmtM) : Except Reject MBOps := do
  let _ ← need0 f.zf
  let _ ← need0 f.vca
  let _ ← need0 f.vco
  let _ ← need0 f.fl
  let _ ← rm0 f.rm
  let bty ← pTy f.fty
  .ok { g := h.guard, acc := fin f.acc, slot := fin f.row, wb := fin f.wb, bty, mask := f.off ++ f.n }
def bodyMB (o : MBOps) : BitVec 48 := FmtM.pack { m0 with acc := unfin o.acc, row := unfin o.slot, wb := unfin o.wb, fty := o.bty.code, off := o.mask.extractLsb' 7 9, n := o.mask.extractLsb' 0 7 }
def parseMRow (h : Head) (f : FmtM) : Except Reject MRowOps := do
  let _ ← need0 f.wb
  let _ ← need0 f.off
  let bty ← pTy f.fty
  let sch ← pSch f.fl f.vco
  .ok { g := h.guard, rm := RM.ofCode f.rm, acc := fin f.acc, zf := bool1 f.zf, row := fin f.row, vca := fin f.vca, sch, bty, n := fin f.n }
def bodyMRow (o : MRowOps) : BitVec 48 := FmtM.pack { m0 with rm := o.rm.code, acc := unfin o.acc, zf := bit1 o.zf, row := unfin o.row, vca := unfin o.vca, vco := (eSch o.sch).2, fl := (eSch o.sch).1, fty := o.bty.code, n := unfin o.n }
def parseMRowW (h : Head) (f : FmtM) : Except Reject MRowWOps := do
  let bty ← pTy f.fty
  let aty ← pTy f.vca
  let sch ← pSch f.fl f.vco
  .ok { g := h.guard, rm := RM.ofCode f.rm, acc := fin f.acc, zf := bool1 f.zf, row := fin f.row, aty, sch, wb := fin f.wb, bty, n := fin f.n, off := fin f.off }
def bodyMRowW (o : MRowWOps) : BitVec 48 := FmtM.pack { m0 with rm := o.rm.code, acc := unfin o.acc, zf := bit1 o.zf, row := unfin o.row, vca := o.aty.code, vco := (eSch o.sch).2, fl := (eSch o.sch).1, wb := unfin o.wb, fty := o.bty.code, off := unfin o.off, n := unfin o.n }
def parseMN (h : Head) (f : FmtM) : Except Reject MNOps := do
  let _ ← need0 f.zf
  let _ ← need0 f.vca
  let _ ← need0 f.vco
  let _ ← need0 f.wb
  let _ ← need0 f.fl
  let _ ← need0 f.fty
  let _ ← need0 f.off
  let _ ← rm0 f.rm
  .ok { g := h.guard, acc := fin f.acc, row := fin f.row, n := fin f.n }
def bodyMN (o : MNOps) : BitVec 48 := FmtM.pack { m0 with acc := unfin o.acc, row := unfin o.row, n := unfin o.n }
def parseMOut (h : Head) (f : FmtM) : Except Reject MOutOps := do
  let _ ← need0 f.vca
  let _ ← need0 f.wb
  let _ ← need0 f.off
  let oty ← pTy f.fty
  .ok { g := h.guard, rm := RM.ofCode f.rm, acc := fin f.acc, zf := bool1 f.zf, row := fin f.row, oc := fin f.vco, sat := bool1 f.fl, oty, n := fin f.n }
def bodyMOut (o : MOutOps) : BitVec 48 := FmtM.pack { m0 with rm := o.rm.code, acc := unfin o.acc, zf := bit1 o.zf, row := unfin o.row, vco := unfin o.oc, fl := bit1 o.sat, fty := o.oty.code, n := unfin o.n }
def parseMScaleW (h : Head) (f : FmtM) : Except Reject MScaleWOps := do
  let _ ← need0 f.zf
  let _ ← need0 f.row
  let _ ← need0 f.vca
  let _ ← need0 f.vco
  let _ ← need0 f.fl
  let _ ← need0 f.fty
  let _ ← rm0 f.rm
  .ok { g := h.guard, acc := fin f.acc, wb := fin f.wb, off := f.off ++ f.n }
def bodyMScaleW (o : MScaleWOps) : BitVec 48 := FmtM.pack { m0 with acc := unfin o.acc, wb := unfin o.wb, off := o.off.extractLsb' 7 9, n := o.off.extractLsb' 0 7 }
def parseMScaleC (h : Head) (f : FmtM) : Except Reject MScaleCOps := do
  let _ ← need0 f.zf
  let _ ← need0 f.row
  let _ ← need0 f.vca
  let _ ← need0 f.vco
  let _ ← need0 f.wb
  let _ ← need0 f.fl
  let _ ← rm0 f.rm
  let _ ← needEq f.fty 1
  let _ ← need0 (f.off.extractLsb' 1 8)
  .ok { g := h.guard, acc := fin f.acc, code := f.off.extractLsb' 0 1 ++ f.n }
def bodyMScaleC (o : MScaleCOps) : BitVec 48 := FmtM.pack { m0 with acc := unfin o.acc, fty := 1, off := (0 : BitVec 8) ++ o.code.extractLsb' 7 1, n := o.code.extractLsb' 0 7 }
def parseMBias (h : Head) (f : FmtM) : Except Reject MBiasOps := do
  let _ ← need0 f.zf
  let _ ← need0 f.vca
  let _ ← need0 f.vco
  let _ ← need0 f.fl
  let _ ← need0 f.fty
  .ok { g := h.guard, rm := RM.ofCode f.rm, acc := fin f.acc, row := fin f.row, wb := fin f.wb, n := fin f.n, off := fin f.off }
def bodyMBias (o : MBiasOps) : BitVec 48 := FmtM.pack { m0 with rm := o.rm.code, acc := unfin o.acc, row := unfin o.row, wb := unfin o.wb, off := unfin o.off, n := unfin o.n }
def parseMRd (h : Head) (f : FmtM) : Except Reject MRdOps := do
  let _ ← need0 f.zf
  let _ ← need0 f.vca
  let _ ← need0 f.vco
  let _ ← need0 f.fl
  let _ ← need0 f.fty
  let _ ← need0 f.off
  let _ ← rm0 f.rm
  .ok { g := h.guard, acc := fin f.acc, row := fin f.row, wb := fin f.wb, n := fin f.n }
def bodyMRd (o : MRdOps) : BitVec 48 := FmtM.pack { m0 with acc := unfin o.acc, row := unfin o.row, wb := unfin o.wb, n := unfin o.n }
def parseMWr (h : Head) (f : FmtM) : Except Reject MWrOps := do
  let _ ← need0 f.zf
  let _ ← need0 f.vca
  let _ ← need0 f.vco
  let _ ← need0 f.fl
  let _ ← need0 f.fty
  let _ ← rm0 f.rm
  .ok { g := h.guard, acc := fin f.acc, row := fin f.row, wb := fin f.wb, n := fin f.n, off := fin f.off }
def bodyMWr (o : MWrOps) : BitVec 48 := FmtM.pack { m0 with acc := unfin o.acc, row := unfin o.row, wb := unfin o.wb, off := unfin o.off, n := unfin o.n }
def parseMSlot (h : Head) (f : FmtM) : Except Reject MSlotOps := do
  let _ ← need0 f.acc
  let _ ← need0 f.zf
  let _ ← need0 f.row
  let _ ← need0 f.vca
  let _ ← need0 f.vco
  let _ ← need0 f.wb
  let _ ← need0 f.fl
  let _ ← need0 f.off
  let _ ← rm0 f.rm
  let _ ← need0 (f.fty.extractLsb' 4 1)
  let _ ← need0 (f.n.extractLsb' 4 3)
  .ok { g := h.guard, slot := fin (f.fty.extractLsb' 0 4), entry := fin (f.n.extractLsb' 0 4) }
def bodyMSlot (o : MSlotOps) : BitVec 48 := FmtM.pack { m0 with fty := (0 : BitVec 1) ++ (unfin o.slot : BitVec 4), n := (0 : BitVec 3) ++ (unfin o.entry : BitVec 4) }
def parseWFill (h : Head) (f : FmtW) : Except Reject WFillOps := do
  let _ ← need0 f.vc
  let _ ← need0 f.col
  let _ ← need0 f.ar
  let _ ← need0 f.a
  let _ ← need0 f.imm
  let sz ← pSz f.sz
  let d ← pSVC f.d
  .ok { g := h.guard, win := fin f.win, sz, d }
def bodyWFill (o : WFillOps) : BitVec 48 := FmtW.pack { w0 with win := unfin o.win, sz := BitVec.ofNat 3 o.sz.val, d := eSVC o.d }
def parseWOff (h : Head) (f : FmtW) : Except Reject WOffOps := do
  let _ ← need0 f.vc
  let _ ← need0 f.col
  let _ ← need0 f.ar
  let sz ← pSz f.sz
  let d ← pSVC f.d
  let a ← pS f.a
  .ok { g := h.guard, win := fin f.win, sz, d, a, imm := f.imm }
def bodyWOff (o : WOffOps) : BitVec 48 := FmtW.pack { w0 with win := unfin o.win, sz := BitVec.ofNat 3 o.sz.val, d := eSVC o.d, a := eS o.a, imm := o.imm }
def parseWShrink (h : Head) (f : FmtW) : Except Reject WShrinkOps := do
  let _ ← need0 f.vc
  let _ ← need0 f.col
  let _ ← need0 f.ar
  let _ ← need0 f.sz
  let _ ← need0 f.d
  let a ← pS f.a
  .ok { g := h.guard, win := fin f.win, a, imm := f.imm }
def bodyWShrink (o : WShrinkOps) : BitVec 48 := FmtW.pack { w0 with win := unfin o.win, a := eS o.a, imm := o.imm }
def parseWStat (h : Head) (f : FmtW) : Except Reject WStatOps := do
  let _ ← need0 f.vc
  let _ ← need0 f.col
  let _ ← need0 f.ar
  let _ ← need0 f.sz
  let _ ← need0 f.a
  let d ← pS f.d
  let _ ← need0 (f.imm.extractLsb' 1 15)
  .ok { g := h.guard, win := fin f.win, d, high := bool1 (f.imm.extractLsb' 0 1) }
def bodyWStat (o : WStatOps) : BitVec 48 := FmtW.pack { w0 with win := unfin o.win, d := eS o.d, imm := (0 : BitVec 15) ++ bit1 o.high }
def parseWSave (h : Head) (f : FmtW) : Except Reject WSaveOps := do
  let _ ← need0 f.vc
  let _ ← need0 f.ar
  let _ ← need0 f.sz
  let d ← pC f.d
  let a ← pS f.a
  let _ ← need0 (f.imm.extractLsb' 1 15)
  .ok { g := h.guard, win := fin f.win, col := fin f.col, d, a, keep := bool1 (f.imm.extractLsb' 0 1) }
def bodyWSave (o : WSaveOps) : BitVec 48 := FmtW.pack { w0 with win := unfin o.win, col := unfin o.col, d := eC o.d, a := eS o.a, imm := (0 : BitVec 15) ++ bit1 o.keep }
def parseWRest (h : Head) (f : FmtW) : Except Reject WRestOps := do
  let _ ← need0 f.vc
  let _ ← need0 f.ar
  let _ ← need0 f.sz
  let d ← pC f.d
  let a ← pS f.a
  .ok { g := h.guard, win := fin f.win, col := fin f.col, d, a, cap := f.imm }
def bodyWRest (o : WRestOps) : BitVec 48 := FmtW.pack { w0 with win := unfin o.win, col := unfin o.col, d := eC o.d, a := eS o.a, imm := o.cap }
def parseRecv (h : Head) (f : FmtW) : Except Reject RecvOps := do
  let _ ← need0 f.win
  let _ ← need0 f.col
  let _ ← need0 f.ar
  let _ ← need0 f.a
  let _ ← need0 f.imm
  let d ← pBeat f.sz f.d
  .ok { g := h.guard, vc := fin f.vc, d }
def bodyRecv (o : RecvOps) : BitVec 48 := FmtW.pack { w0 with vc := unfin o.vc, sz := eBeatSz o.d, d := eSV o.d }
def parsePeek (h : Head) (f : FmtW) : Except Reject PeekOps := do
  let _ ← need0 f.win
  let _ ← need0 f.col
  let _ ← need0 f.ar
  let d ← pBeat f.sz f.d
  let a ← pS f.a
  .ok { g := h.guard, vc := fin f.vc, d, a, imm := f.imm }
def bodyPeek (o : PeekOps) : BitVec 48 := FmtW.pack { w0 with vc := unfin o.vc, sz := eBeatSz o.d, d := eSV o.d, a := eS o.a, imm := o.imm }
def parseSend (h : Head) (f : FmtW) : Except Reject SendOps := do
  let _ ← need0 f.win
  let _ ← need0 f.col
  let _ ← need0 f.ar
  let _ ← need0 f.a
  let _ ← need0 f.imm
  let d ← pBeat f.sz f.d
  .ok { g := h.guard, oc := fin f.vc, d }
def bodySend (o : SendOps) : BitVec 48 := FmtW.pack { w0 with vc := unfin o.oc, sz := eBeatSz o.d, d := eSV o.d }
def parseVcSet (h : Head) (f : FmtW) : Except Reject VcSetOps := do
  let _ ← need0 f.win
  let _ ← need0 f.col
  let _ ← need0 f.ar
  let _ ← need0 f.sz
  let _ ← need0 f.a
  let _ ← need0 f.imm
  let d ← pS f.d
  .ok { g := h.guard, vc := fin f.vc, d }
def bodyVcSet (o : VcSetOps) : BitVec 48 := FmtW.pack { w0 with vc := unfin o.vc, d := eS o.d }
def parseBarInit (h : Head) (f : FmtW) : Except Reject BarInitOps := do
  let _ ← need0 f.win
  let _ ← need0 f.vc
  let _ ← need0 f.col
  let _ ← need0 f.ar
  let _ ← need0 f.sz
  let _ ← need0 f.a
  let d ← pS f.d
  let bar ← pBar f.imm
  .ok { g := h.guard, d, bar }
def bodyBarInit (o : BarInitOps) : BitVec 48 := FmtW.pack { w0 with d := eS o.d, imm := BitVec.ofNat 16 o.bar.val }
def parseBar (h : Head) (f : FmtW) : Except Reject BarOps := do
  let _ ← need0 f.win
  let _ ← need0 f.vc
  let _ ← need0 f.col
  let _ ← need0 f.sz
  let _ ← need0 f.a
  let d ← pS f.d
  let bar ← pBar f.imm
  .ok { g := h.guard, ar := bool1 f.ar, d, bar }
def bodyBar (o : BarOps) : BitVec 48 := FmtW.pack { w0 with ar := bit1 o.ar, d := eS o.d, imm := BitVec.ofNat 16 o.bar.val }
def parseBarRemote (h : Head) (f : FmtW) : Except Reject BarRemoteOps := do
  let _ ← need0 f.win
  let _ ← need0 f.vc
  let _ ← need0 f.col
  let _ ← need0 f.sz
  let _ ← need0 f.a
  let d ← pS f.d
  .ok { g := h.guard, rel := bool1 f.ar, d, target := f.imm }
def bodyBarRemote (o : BarRemoteOps) : BitVec 48 := FmtW.pack { w0 with ar := bit1 o.rel, d := eS o.d, imm := o.target }
def parseMem (h : Head) (f : FmtW) : Except Reject MemOps := do
  let _ ← need0 f.vc
  let sz ← pSz f.sz
  let d ← pSV f.d
  let a ← pS f.a
  .ok { g := h.guard, cap := fin f.win, col := fin f.col, ar := bool1 f.ar, sz, d, a, imm := f.imm }
def bodyMem (o : MemOps) : BitVec 48 := FmtW.pack { w0 with win := unfin o.cap, col := unfin o.col, ar := bit1 o.ar, sz := BitVec.ofNat 3 o.sz.val, d := eSV o.d, a := eS o.a, imm := o.imm }
def parseMWrt (h : Head) (f : FmtW) : Except Reject MWrtOps := do
  let _ ← need0 f.ar
  let _ ← needEq f.sz 5
  let d ← pS f.d
  let a ← pS f.a
  .ok { g := h.guard, cap := fin f.win, vc := fin f.vc, col := fin f.col, d, a, imm := f.imm }
def bodyMWrt (o : MWrtOps) : BitVec 48 := FmtW.pack { w0 with win := unfin o.cap, vc := unfin o.vc, col := unfin o.col, sz := 5, d := eS o.d, a := eS o.a, imm := o.imm }
def parseMReq (h : Head) (f : FmtE) : Except Reject MReqOps := do
  let _ ← need0 f.d
  let _ ← need0 f.ar
  let a ← pC f.a
  let b ← pS f.b
  let c ← pS f.c
  .ok { g := h.guard, isl := f.isl, a, b, c, col := fin f.col, m := fin f.xh }
def bodyMReq (o : MReqOps) : BitVec 48 := FmtE.pack { e0 with isl := o.isl, a := eC o.a, b := eS o.b, c := eS o.c, col := unfin o.col, xh := unfin o.m }
def parseWReq (h : Head) (f : FmtE) : Except Reject WReqOps := do
  let _ ← need0 f.isl
  let _ ← need0 f.d
  let _ ← need0 f.ar
  let a ← pS f.a
  let b ← pS f.b
  let c ← pS f.c
  .ok { g := h.guard, a, b, c, col := fin f.col, m := fin f.xh }
def bodyWReq (o : WReqOps) : BitVec 48 := FmtE.pack { e0 with a := eS o.a, b := eS o.b, c := eS o.c, col := unfin o.col, xh := unfin o.m }
def parseCpy (h : Head) (f : FmtE) : Except Reject CpyOps := do
  let d ← pS f.d
  let a ← pC f.a
  let _ ← need0 (f.xh.extractLsb' 0 3)
  let b ← pCS (f.xh.extractLsb' 3 1) f.b
  let c ← pS f.c
  .ok { g := h.guard, isl := f.isl, d, a, b, c, col := fin f.col, rel := bool1 f.ar }
def bodyCpy (o : CpyOps) : BitVec 48 := FmtE.pack { e0 with isl := o.isl, d := eS o.d, a := eC o.a, b := (eCS o.b).2, c := eS o.c, xh := (eCS o.b).1 ++ (0 : BitVec 3), col := unfin o.col, ar := bit1 o.rel }
def parseCpy3 (h : Head) (f : FmtE) : Except Reject Cpy3Ops := do
  let _ ← need0 f.xh
  let d ← pS f.d
  let a ← pC f.a
  let b ← pC f.b
  let c ← pS f.c
  .ok { g := h.guard, isl := f.isl, d, a, b, c, col := fin f.col, rel := bool1 f.ar }
def bodyCpy3 (o : Cpy3Ops) : BitVec 48 := FmtE.pack { e0 with isl := o.isl, d := eS o.d, a := eC o.a, b := eC o.b, c := eS o.c, col := unfin o.col, ar := bit1 o.rel }
def parseAt (h : Head) (f : FmtE) : Except Reject AtOps := do
  let _ ← need0 f.d
  let a ← pC f.a
  let b ← pS f.b
  let c ← pS f.c
  let _ ← need0 (f.xh.extractLsb' 3 1)
  .ok { g := h.guard, isl := f.isl, a, b, c, col := fin f.col, rel := bool1 f.ar, typ := fin (f.xh.extractLsb' 0 3) }
def bodyAt (o : AtOps) : BitVec 48 := FmtE.pack { e0 with isl := o.isl, a := eC o.a, b := eS o.b, c := eS o.c, col := unfin o.col, ar := bit1 o.rel, xh := (0 : BitVec 1) ++ (unfin o.typ : BitVec 3) }
def parseAtF (h : Head) (f : FmtE) : Except Reject AtFOps := do
  let d ← pS f.d
  let a ← pC f.a
  let b ← pS f.b
  let c ← pS f.c
  let _ ← need0 (f.xh.extractLsb' 3 1)
  .ok { g := h.guard, isl := f.isl, d, a, b, c, col := fin f.col, rel := bool1 f.ar, typ := fin (f.xh.extractLsb' 0 3) }
def bodyAtF (o : AtFOps) : BitVec 48 := FmtE.pack { e0 with isl := o.isl, d := eS o.d, a := eC o.a, b := eS o.b, c := eS o.c, col := unfin o.col, ar := bit1 o.rel, xh := (0 : BitVec 1) ++ (unfin o.typ : BitVec 3) }
def parseACas (h : Head) (f : FmtE) : Except Reject ACasOps := do
  let _ ← need0 f.xh
  let d ← pS f.d
  let a ← pC f.a
  let b ← pS f.b
  let c ← pS f.c
  .ok { g := h.guard, isl := f.isl, d, a, b, c, col := fin f.col, rel := bool1 f.ar }
def bodyACas (o : ACasOps) : BitVec 48 := FmtE.pack { e0 with isl := o.isl, d := eS o.d, a := eC o.a, b := eS o.b, c := eS o.c, col := unfin o.col, ar := bit1 o.rel }
def parseACasQ (h : Head) (f : FmtE) : Except Reject ACasQOps := do
  let _ ← need0 f.xh
  let d ← pS f.d
  let a ← pC f.a
  let b ← pS f.b
  let c ← pV f.c
  .ok { g := h.guard, isl := f.isl, d, a, b, c, col := fin f.col, rel := bool1 f.ar }
def bodyACasQ (o : ACasQOps) : BitVec 48 := FmtE.pack { e0 with isl := o.isl, d := eS o.d, a := eC o.a, b := eS o.b, c := eV o.c, col := unfin o.col, ar := bit1 o.rel }
def parsePSS (h : Head) (f : FmtE) : Except Reject PSSOps := do
  let _ ← need0 f.c
  let _ ← need0 f.xh
  let _ ← need0 f.ar
  let _ ← need0 f.col
  let d ← pS f.d
  let a ← pS f.a
  let b ← pS f.b
  .ok { g := h.guard, isl := f.isl, d, a, b }
def bodyPSS (o : PSSOps) : BitVec 48 := FmtE.pack { e0 with isl := o.isl, d := eS o.d, a := eS o.a, b := eS o.b }
def parsePSC (h : Head) (f : FmtE) : Except Reject PSCOps := do
  let _ ← need0 f.c
  let _ ← need0 f.xh
  let _ ← need0 f.ar
  let _ ← need0 f.col
  let d ← pS f.d
  let a ← pS f.a
  let b ← pC f.b
  .ok { g := h.guard, isl := f.isl, d, a, b }
def bodyPSC (o : PSCOps) : BitVec 48 := FmtE.pack { e0 with isl := o.isl, d := eS o.d, a := eS o.a, b := eC o.b }
def parsePRun (h : Head) (f : FmtE) : Except Reject PRunOps := do
  let _ ← need0 f.c
  let _ ← need0 f.xh
  let d ← pS f.d
  let a ← pS f.a
  let b ← pS f.b
  .ok { g := h.guard, isl := f.isl, d, a, b, col := fin f.col, rel := bool1 f.ar }
def bodyPRun (o : PRunOps) : BitVec 48 := FmtE.pack { e0 with isl := o.isl, d := eS o.d, a := eS o.a, b := eS o.b, col := unfin o.col, ar := bit1 o.rel }
def parsePS (h : Head) (f : FmtE) : Except Reject PSOps := do
  let _ ← need0 f.b
  let _ ← need0 f.c
  let _ ← need0 f.xh
  let _ ← need0 f.ar
  let _ ← need0 f.col
  let d ← pS f.d
  let a ← pS f.a
  .ok { g := h.guard, isl := f.isl, d, a }
def bodyPS (o : PSOps) : BitVec 48 := FmtE.pack { e0 with isl := o.isl, d := eS o.d, a := eS o.a }
def parsePResume (h : Head) (f : FmtE) : Except Reject PResumeOps := do
  let _ ← need0 f.b
  let _ ← need0 f.c
  let _ ← need0 f.xh
  let d ← pS f.d
  let a ← pS f.a
  .ok { g := h.guard, isl := f.isl, d, a, col := fin f.col, rel := bool1 f.ar }
def bodyPResume (o : PResumeOps) : BitVec 48 := FmtE.pack { e0 with isl := o.isl, d := eS o.d, a := eS o.a, col := unfin o.col, ar := bit1 o.rel }
def parsePins (h : Head) (f : FmtE) : Except Reject PinsOps := do
  let _ ← need0 f.c
  let _ ← need0 f.xh
  let _ ← need0 f.col
  let d ← pS f.d
  let a ← pS f.a
  let b ← pS f.b
  .ok { g := h.guard, isl := f.isl, d, a, b, rel := bool1 f.ar }
def bodyPins (o : PinsOps) : BitVec 48 := FmtE.pack { e0 with isl := o.isl, d := eS o.d, a := eS o.a, b := eS o.b, ar := bit1 o.rel }
def parsePTake (h : Head) (f : FmtE) : Except Reject PTakeOps := do
  let _ ← need0 f.xh
  let _ ← need0 f.col
  let d ← pS f.d
  let a ← pS f.a
  let b ← pS f.b
  let k ← pK f.c
  .ok { g := h.guard, isl := f.isl, d, a, b, k, acq := bool1 f.ar }
def bodyPTake (o : PTakeOps) : BitVec 48 := FmtE.pack { e0 with isl := o.isl, d := eS o.d, a := eS o.a, b := eS o.b, c := eK o.k, ar := bit1 o.acq }
def parseXFillR (h : Head) (f : FmtE) : Except Reject XFillROps := do
  let _ ← need0 f.xh
  let d ← pS f.d
  let a ← pC f.a
  let b ← pS f.b
  let c ← pS f.c
  .ok { g := h.guard, isl := f.isl, d, a, b, c, col := fin f.col, rel := bool1 f.ar }
def bodyXFillR (o : XFillROps) : BitVec 48 := FmtE.pack { e0 with isl := o.isl, d := eS o.d, a := eC o.a, b := eS o.b, c := eS o.c, col := unfin o.col, ar := bit1 o.rel }
def parseXBar (h : Head) (f : FmtE) : Except Reject XBarOps := do
  let _ ← need0 f.b
  let _ ← need0 f.c
  let _ ← need0 f.xh
  let _ ← need0 f.col
  let d ← pS f.d
  let a ← pS f.a
  .ok { g := h.guard, isl := f.isl, d, a, ar := bool1 f.ar }
def bodyXBar (o : XBarOps) : BitVec 48 := FmtE.pack { e0 with isl := o.isl, d := eS o.d, a := eS o.a, ar := bit1 o.ar }

/-- end and nop: every field below OP is 0 (R127, R128). -/
def parseUnit0 (w : Word) (i : Instr) : Except Reject Instr := do
  let _ ← need0 (w.extractLsb' 0 56)
  .ok i

/-- The operands of a word by its OP and FN (R67); device steps have no encoding. -/
def parse (w : Word) : Except Reject Instr :=
  let h := Head.of w
  match h.op.toNat, h.fn.toNat with
  | 0x01, 0 => (parseSSS h (FmtA.of w)).map .add
  | 0x01, 8 => (parseSSI h (FmtI.of w)).map .addImm
  | 0x02, 0 => (parseSSS h (FmtA.of w)).map .sub
  | 0x02, 8 => (parseSSI h (FmtI.of w)).map .subImm
  | 0x03, 0 => (parseSSS h (FmtA.of w)).map .mul
  | 0x03, 8 => (parseSSI h (FmtI.of w)).map .mulImm
  | 0x04, 0 => (parseSSS h (FmtA.of w)).map .mulh
  | 0x04, 1 => (parseSSS h (FmtA.of w)).map .mulhN
  | 0x04, 2 => (parseSSS h (FmtA.of w)).map .mulhSn
  | 0x04, 8 => (parseSSI h (FmtI.of w)).map .mulhImm
  | 0x04, 9 => (parseSSI h (FmtI.of w)).map .mulhNImm
  | 0x04, 10 => (parseSSI h (FmtI.of w)).map .mulhSnImm
  | 0x05, 0 => (parseSSS h (FmtA.of w)).map .div
  | 0x05, 1 => (parseSSS h (FmtA.of w)).map .divN
  | 0x05, 8 => (parseSSI h (FmtI.of w)).map .divImm
  | 0x05, 9 => (parseSSI h (FmtI.of w)).map .divNImm
  | 0x06, 0 => (parseSSS h (FmtA.of w)).map .rem
  | 0x06, 1 => (parseSSS h (FmtA.of w)).map .remN
  | 0x06, 8 => (parseSSI h (FmtI.of w)).map .remImm
  | 0x06, 9 => (parseSSI h (FmtI.of w)).map .remNImm
  | 0x07, 0 => (parseSSS h (FmtA.of w)).map .and_
  | 0x07, 8 => (parseSSI h (FmtI.of w)).map .andImm
  | 0x08, 0 => (parseSSS h (FmtA.of w)).map .or_
  | 0x08, 8 => (parseSSI h (FmtI.of w)).map .orImm
  | 0x09, 0 => (parseSSS h (FmtA.of w)).map .xor
  | 0x09, 8 => (parseSSI h (FmtI.of w)).map .xorImm
  | 0x0A, 0 => (parseSSS h (FmtA.of w)).map .andn
  | 0x0A, 8 => (parseSSI h (FmtI.of w)).map .andnImm
  | 0x0B, 0 => (parseSSS h (FmtA.of w)).map .shl
  | 0x0B, 8 => (parseSSI h (FmtI.of w)).map .shlImm
  | 0x0C, 0 => (parseSSS h (FmtA.of w)).map .shr
  | 0x0C, 8 => (parseSSI h (FmtI.of w)).map .shrImm
  | 0x0D, 0 => (parseSSS h (FmtA.of w)).map .sra
  | 0x0D, 8 => (parseSSI h (FmtI.of w)).map .sraImm
  | 0x0E, 0 => (parseSSS h (FmtA.of w)).map .rot
  | 0x0E, 8 => (parseSSI h (FmtI.of w)).map .rotImm
  | 0x0F, 0 => (parseSSS h (FmtA.of w)).map .min
  | 0x0F, 1 => (parseSSS h (FmtA.of w)).map .minN
  | 0x0F, 8 => (parseSSI h (FmtI.of w)).map .minImm
  | 0x0F, 9 => (parseSSI h (FmtI.of w)).map .minNImm
  | 0x10, 0 => (parseSSS h (FmtA.of w)).map .max
  | 0x10, 1 => (parseSSS h (FmtA.of w)).map .maxN
  | 0x10, 8 => (parseSSI h (FmtI.of w)).map .maxImm
  | 0x10, 9 => (parseSSI h (FmtI.of w)).map .maxNImm
  | 0x11, 0 => (parseKSS h (FmtA.of w)).map .cmpEq
  | 0x11, 1 => (parseKSS h (FmtA.of w)).map .cmpNe
  | 0x11, 2 => (parseKSS h (FmtA.of w)).map .cmpLt
  | 0x11, 3 => (parseKSS h (FmtA.of w)).map .cmpLe
  | 0x11, 4 => (parseKSS h (FmtA.of w)).map .cmpLtN
  | 0x11, 5 => (parseKSS h (FmtA.of w)).map .cmpLeN
  | 0x11, 8 => (parseKSI h (FmtI.of w)).map .cmpEqImm
  | 0x11, 9 => (parseKSI h (FmtI.of w)).map .cmpNeImm
  | 0x11, 10 => (parseKSI h (FmtI.of w)).map .cmpLtImm
  | 0x11, 11 => (parseKSI h (FmtI.of w)).map .cmpLeImm
  | 0x11, 12 => (parseKSI h (FmtI.of w)).map .cmpLtNImm
  | 0x11, 13 => (parseKSI h (FmtI.of w)).map .cmpLeNImm
  | 0x12, 0 => (parseSSSK h (FmtA.of w)).map .sel
  | 0x13, 0 => (parseSS h (FmtA.of w)).map .clz
  | 0x13, 1 => (parseSS h (FmtA.of w)).map .ctz
  | 0x13, 2 => (parseSS h (FmtA.of w)).map .popc
  | 0x14, 0 => (parseSS h (FmtA.of w)).map .extI8
  | 0x14, 1 => (parseSS h (FmtA.of w)).map .extN8
  | 0x14, 2 => (parseSS h (FmtA.of w)).map .extI16
  | 0x14, 3 => (parseSS h (FmtA.of w)).map .extN16
  | 0x14, 4 => (parseSS h (FmtA.of w)).map .extI32
  | 0x14, 5 => (parseSS h (FmtA.of w)).map .extN32
  | 0x15, 0 => (parseSSS h (FmtA.of w)).map .bfx
  | 0x15, 1 => (parseSSS h (FmtA.of w)).map .bfxI
  | 0x16, 0 => (parseSSSS h (FmtA.of w)).map .bfi
  | 0x17, 0 => (parseSI h (FmtI.of w)).map .li
  | 0x17, 1 => (parseSI h (FmtI.of w)).map .lih
  | 0x18, 0 => (parseMov h (FmtA.of w)).map .mov
  | 0x1A, 0 => (parseKKK h (FmtA.of w)).map .kand
  | 0x1A, 1 => (parseKKK h (FmtA.of w)).map .kor
  | 0x1A, 2 => (parseKKK h (FmtA.of w)).map .kxor
  | 0x1A, 3 => (parseKKK h (FmtA.of w)).map .kandn
  | 0x1A, 4 => (parseKK h (FmtA.of w)).map .knot
  | 0x1B, 0 => (parseSK h (FmtA.of w)).map .kmovKToS
  | 0x1B, 1 => (parseKS h (FmtA.of w)).map .kmovSToK
  | 0x1B, 2 => (parseSK h (FmtA.of w)).map .kpopc
  | 0x1B, 3 => (parseSK h (FmtA.of w)).map .kfirst
  | 0x20, 0 => (parseCCSS h (FmtA.of w)).map .cnarrow
  | 0x21, 0 => (parseCCS h (FmtA.of w)).map .cperm
  | 0x22, 0 => (parseCGet h (FmtA.of w)).map .cget
  | 0x23, 0 => (parseCLd h (FmtA.of w)).map .cld
  | 0x24, 0 => (parseCSt h (FmtA.of w)).map .cst
  | 0x30, 0 => (parseLoop h (FmtF.of w)).map .loop
  | 0x31, 0 => (parseLMask h (FmtF.of w)).map .lmask
  | 0x32, 0 => parseUnit0 w .end_
  | 0x33, 0 => parseUnit0 w .nop
  | 0x34, 0 => (parseTrap h (FmtF.of w)).map .trap
  | 0x38, 0 => (parseMem h (FmtW.of w)).map .mld
  | 0x39, 0 => (parseMem h (FmtW.of w)).map .mst
  | 0x3A, 0 => (parseMReq h (FmtE.of w)).map .mreq
  | 0x3B, 0 => (parseMWrt h (FmtW.of w)).map .mwrt
  | 0x3C, 0 => (parseFence h (FmtF.of w)).map .fenceRegion
  | 0x3C, 1 => (parseFence h (FmtF.of w)).map .fenceDevice
  | 0x3C, 2 => (parseFence h (FmtF.of w)).map .fenceSystem
  | 0x3D, 0 => (parseCtok h (FmtF.of w)).map .ctok
  | 0x3E, 0 => (parseWReq h (FmtE.of w)).map .wreq
  | 0x40, 0 => (parseVBin h (FmtA.of w)).map .vadd
  | 0x41, 0 => (parseVBin h (FmtA.of w)).map .vsub
  | 0x42, 0 => (parseVBin h (FmtA.of w)).map .vmul
  | 0x43, 0 => (parseVFma h (FmtA.of w)).map .vfma
  | 0x44, 0 => (parseVMinMax h (FmtA.of w)).map .vmin
  | 0x44, 1 => (parseVMinMax h (FmtA.of w)).map .vmax
  | 0x45, 0 => (parseVUnS h (FmtA.of w)).map .vabs
  | 0x45, 1 => (parseVUnS h (FmtA.of w)).map .vneg
  | 0x46, 0 => (parseVDiv h (FmtA.of w)).map .vdiv
  | 0x47, 0 => (parseVUn h (FmtA.of w)).map .vsqrt
  | 0x48, 0 => (parseVUn h (FmtA.of w)).map .vexp2
  | 0x49, 0 => (parseVUn h (FmtA.of w)).map .vlog2
  | 0x4A, 0 => (parseVCmp h (FmtA.of w)).map .vcmpEq
  | 0x4A, 1 => (parseVCmp h (FmtA.of w)).map .vcmpNe
  | 0x4A, 2 => (parseVCmp h (FmtA.of w)).map .vcmpLt
  | 0x4A, 3 => (parseVCmp h (FmtA.of w)).map .vcmpLe
  | 0x4A, 4 => (parseVCmp h (FmtA.of w)).map .vcmpUn
  | 0x4B, 0 => (parseVSel h (FmtA.of w)).map .vsel
  | 0x4C, 0 => (parseVBits h (FmtA.of w)).map .vand
  | 0x4C, 1 => (parseVBits h (FmtA.of w)).map .vor
  | 0x4C, 2 => (parseVBits h (FmtA.of w)).map .vxor
  | 0x4C, 3 => (parseVBits h (FmtA.of w)).map .vandn
  | 0x4D, 0 => (parseVBits h (FmtA.of w)).map .vshl
  | 0x4D, 1 => (parseVBits h (FmtA.of w)).map .vshr
  | 0x4D, 2 => (parseVBits h (FmtA.of w)).map .vsra
  | 0x4E, 0 => if (w.extractLsb' 15 1) == 1 then (parseVCvtCh h (FmtA.of w)).map .vcvtChannel else (parseVCvt h (FmtA.of w)).map .vcvt
  | 0x4F, 0 => (parseVCvt h (FmtA.of w)).map .vrnd
  | 0x50, 0 => (parseVScale h (FmtA.of w)).map .vscale
  | 0x51, 0 => (parseVPack h (FmtA.of w)).map .vpack
  | 0x52, 0 => (parseVUnpack h (FmtA.of w)).map .vunpack
  | 0x53, 0 => (parseVBsc h (FmtA.of w)).map .vbsc
  | 0x54, 0 => (parseVBsx h (FmtA.of w)).map .vbsx
  | 0x55, 0 => (parseVHad h (FmtA.of w)).map .vhad
  | 0x56, 0 => (parseVRed h (FmtA.of w)).map .vredAdd
  | 0x56, 1 => (parseVRed h (FmtA.of w)).map .vredMin
  | 0x56, 2 => (parseVRed h (FmtA.of w)).map .vredMax
  | 0x57, 0 => (parseVBits h (FmtA.of w)).map .vperm
  | 0x58, 0 => (parseVFromS h (FmtA.of w)).map .vbcst
  | 0x59, 0 => (parseVIns h (FmtA.of w)).map .vins
  | 0x5A, 0 => (parseVExt h (FmtA.of w)).map .vext
  | 0x5B, 0 => (parseVHist h (FmtA.of w)).map .vhist
  | 0x5C, 0 => if (w.extractLsb' 15 1) == 1 then (parseVSdcCh h (FmtA.of w)).map .vsdcChannel else (parseVSdc h (FmtA.of w)).map .vsdc
  | 0x5D, 0 => (parseVSdAdd h (FmtA.of w)).map .vsdadd
  | 0x5E, 0 => (parseVSdCmp h (FmtA.of w)).map .vsdcmp
  | 0x5F, 0 => (parseVClass h (FmtA.of w)).map .vclass
  | 0x60, 0 => (parseVDot h (FmtA.of w)).map .vdot
  | 0x61, 0 => (parseVSort h (FmtA.of w)).map .vsort
  | 0x80, 0 => (parseMB h (FmtM.of w)).map .mbld
  | 0x80, 1 => (parseMB h (FmtM.of w)).map .mbldDiag
  | 0x81, 0 => (parseMB h (FmtM.of w)).map .mbsp
  | 0x82, 0 => (parseMRow h (FmtM.of w)).map .mrow
  | 0x83, 0 => (parseMRowW h (FmtM.of w)).map .mroww
  | 0x83, 1 => (parseMRowW h (FmtM.of w)).map .mrowwSp
  | 0x84, 0 => (parseMN h (FmtM.of w)).map .mzero
  | 0x85, 0 => (parseMOut h (FmtM.of w)).map .mout
  | 0x86, 0 => if (w.extractLsb' 16 1) == 1 then (parseMScaleC h (FmtM.of w)).map .mscaleCode else (parseMScaleW h (FmtM.of w)).map .mscaleWindow
  | 0x87, 0 => (parseMBias h (FmtM.of w)).map .mbias
  | 0x88, 0 => (parseMRd h (FmtM.of w)).map .mrd
  | 0x89, 0 => (parseMWr h (FmtM.of w)).map .mwr
  | 0x8A, 0 => (parseMSlot h (FmtM.of w)).map .mslot
  | 0x90, 0 => (parseWFill h (FmtW.of w)).map .wfill
  | 0x91, 0 => (parseWOff h (FmtW.of w)).map .wread
  | 0x92, 0 => (parseWOff h (FmtW.of w)).map .wupd
  | 0x93, 0 => (parseWShrink h (FmtW.of w)).map .wshrink
  | 0x94, 0 => (parseWStat h (FmtW.of w)).map .wstat
  | 0x95, 0 => (parseWSave h (FmtW.of w)).map .wsave
  | 0x96, 0 => (parseWRest h (FmtW.of w)).map .wrest
  | 0x97, 0 => (parseRecv h (FmtW.of w)).map .recv
  | 0x98, 0 => (parseSend h (FmtW.of w)).map .send
  | 0x99, 0 => (parsePeek h (FmtW.of w)).map .peek
  | 0x9A, 0 => (parseVcSet h (FmtW.of w)).map .vcset
  | 0x9B, 0 => (parseBarInit h (FmtW.of w)).map .barInit
  | 0x9B, 1 => (parseBar h (FmtW.of w)).map .barArrive
  | 0x9B, 2 => (parseBar h (FmtW.of w)).map .barWait
  | 0x9B, 3 => (parseBar h (FmtW.of w)).map .barAw
  | 0x9B, 4 => (parseBarRemote h (FmtW.of w)).map .barRemote
  | 0xC0, 0 => (parseCpy h (FmtE.of w)).map .cpy
  | 0xC1, 0 => (parseCpy3 h (FmtE.of w)).map .cpyq
  | 0xC2, 0 => (parseCpy3 h (FmtE.of w)).map .gth
  | 0xC3, 0 => (parseCpy3 h (FmtE.of w)).map .sct
  | 0xC8, 0 => (parseAt h (FmtE.of w)).map .aadd
  | 0xC8, 8 => (parseAtF h (FmtE.of w)).map .aaddF
  | 0xC9, 0 => (parseAt h (FmtE.of w)).map .amin
  | 0xC9, 8 => (parseAtF h (FmtE.of w)).map .aminF
  | 0xCA, 0 => (parseAt h (FmtE.of w)).map .amax
  | 0xCA, 8 => (parseAtF h (FmtE.of w)).map .amaxF
  | 0xCB, 0 => (parseAt h (FmtE.of w)).map .aand
  | 0xCB, 1 => (parseAt h (FmtE.of w)).map .aor
  | 0xCB, 2 => (parseAt h (FmtE.of w)).map .axor
  | 0xCB, 8 => (parseAtF h (FmtE.of w)).map .aandF
  | 0xCB, 9 => (parseAtF h (FmtE.of w)).map .aorF
  | 0xCB, 10 => (parseAtF h (FmtE.of w)).map .axorF
  | 0xCC, 0 => (parseAt h (FmtE.of w)).map .axchg
  | 0xCC, 8 => (parseAtF h (FmtE.of w)).map .axchgF
  | 0xCD, 8 => (parseACas h (FmtE.of w)).map .acas
  | 0xCE, 8 => (parseACasQ h (FmtE.of w)).map .acasQ
  | 0xD0, 0 => (parsePSS h (FmtE.of w)).map .plq
  | 0xD1, 0 => (parsePSC h (FmtE.of w)).map .plterm
  | 0xD2, 0 => (parsePSS h (FmtE.of w)).map .plvec
  | 0xD3, 0 => (parsePSS h (FmtE.of w)).map .plfuseLin
  | 0xD3, 1 => (parsePSS h (FmtE.of w)).map .plfuseRrf
  | 0xD4, 0 => (parsePRun h (FmtE.of w)).map .plrunOr
  | 0xD4, 1 => (parsePRun h (FmtE.of w)).map .plrunAnd
  | 0xD4, 2 => (parsePRun h (FmtE.of w)).map .plrunWand
  | 0xD5, 0 => (parsePS h (FmtE.of w)).map .plabort
  | 0xD6, 0 => (parsePResume h (FmtE.of w)).map .plresume
  | 0xE0, 0 => (parsePins h (FmtE.of w)).map .pins
  | 0xE1, 0 => (parsePTake h (FmtE.of w)).map .ptake
  | 0xE2, 0 => (parsePTake h (FmtE.of w)).map .ptry
  | 0xE3, 0 => (parsePSS h (FmtE.of w)).map .pstat
  | 0xE4, 0 => (parsePSS h (FmtE.of w)).map .pcfg
  | 0xE8, 0 => (parseXFillR h (FmtE.of w)).map .xfill
  | 0xE9, 0 => (parseXFillR h (FmtE.of w)).map .xred
  | 0xEA, 0 => (parseXBar h (FmtE.of w)).map .xbar
  | 0xF0, 0 => (parseSmov h (FmtF.of w)).map .smovRead
  | 0xF0, 1 => (parseSmov h (FmtF.of w)).map .smovWrite
  | 0xF1, 0 => (parseCtxCtl h (FmtF.of w)).map .ctxctlFreeze
  | 0xF1, 1 => (parseCtxCtl h (FmtF.of w)).map .ctxctlResume
  | 0xF1, 2 => (parseCtxCtl h (FmtF.of w)).map .ctxctlKill
  | 0xF1, 3 => (parseCtxCtl h (FmtF.of w)).map .ctxctlRestart
  | 0xF2, 0 => if (w.extractLsb' 40 8) == 0 then (parseMark0 h (FmtF.of w)).map .markRound else if (w.extractLsb' 40 8) == 1 then (parseMark1 h (FmtF.of w)).map .markCheckpoint else (parseMark2 h (FmtF.of w)).map .markCut
  | 0xF3, 0 => (parseTsamp h (FmtF.of w)).map .tsamp
  | 0xF4, 0 => if (w.extractLsb' 47 1) == 1 then (parseBrkArmed h (FmtF.of w)).map .brkptArmed else (parseBrk h (FmtF.of w)).map .brkpt
  | 0xF5, 0 => (parseTlbinv h (FmtF.of w)).map .tlbinv
  | 0xF6, 0 => (parsePost h (FmtF.of w)).map .post
  | op, _ => if assignedOp op then .error .function else .error .opcode
where
  /-- The 133 assigned OP values (R67). -/
  assignedOp (op : Nat) : Bool := [0x01, 0x02, 0x03, 0x04, 0x05, 0x06, 0x07, 0x08, 0x09, 0x0A, 0x0B, 0x0C, 0x0D, 0x0E, 0x0F, 0x10, 0x11, 0x12, 0x13, 0x14, 0x15, 0x16, 0x17, 0x18, 0x1A, 0x1B, 0x20, 0x21, 0x22, 0x23, 0x24, 0x30, 0x31, 0x32, 0x33, 0x34, 0x38, 0x39, 0x3A, 0x3B, 0x3C, 0x3D, 0x3E, 0x40, 0x41, 0x42, 0x43, 0x44, 0x45, 0x46, 0x47, 0x48, 0x49, 0x4A, 0x4B, 0x4C, 0x4D, 0x4E, 0x4F, 0x50, 0x51, 0x52, 0x53, 0x54, 0x55, 0x56, 0x57, 0x58, 0x59, 0x5A, 0x5B, 0x5C, 0x5D, 0x5E, 0x5F, 0x60, 0x61, 0x80, 0x81, 0x82, 0x83, 0x84, 0x85, 0x86, 0x87, 0x88, 0x89, 0x8A, 0x90, 0x91, 0x92, 0x93, 0x94, 0x95, 0x96, 0x97, 0x98, 0x99, 0x9A, 0x9B, 0xC0, 0xC1, 0xC2, 0xC3, 0xC8, 0xC9, 0xCA, 0xCB, 0xCC, 0xCD, 0xCE, 0xD0, 0xD1, 0xD2, 0xD3, 0xD4, 0xD5, 0xD6, 0xE0, 0xE1, 0xE2, 0xE3, 0xE4, 0xE8, 0xE9, 0xEA, 0xF0, 0xF1, 0xF2, 0xF3, 0xF4, 0xF5, 0xF6].contains op

/-- Decode a word: parse its operands, then the checks of R66 and the entries. -/
def decode (w : Word) : Except Reject Instr := do
  let i ← parse w
  if wf i then .ok i else .error .illFormed

/-- The word of an instruction; device steps have none. -/
def encode : Instr → Option Word
  | .add o => some ((mkHead 0x01 0 o.g).pack (bodySSS o))
  | .addImm o => some ((mkHead 0x01 8 o.g).pack (bodySSI o))
  | .sub o => some ((mkHead 0x02 0 o.g).pack (bodySSS o))
  | .subImm o => some ((mkHead 0x02 8 o.g).pack (bodySSI o))
  | .mul o => some ((mkHead 0x03 0 o.g).pack (bodySSS o))
  | .mulImm o => some ((mkHead 0x03 8 o.g).pack (bodySSI o))
  | .mulh o => some ((mkHead 0x04 0 o.g).pack (bodySSS o))
  | .mulhImm o => some ((mkHead 0x04 8 o.g).pack (bodySSI o))
  | .mulhN o => some ((mkHead 0x04 1 o.g).pack (bodySSS o))
  | .mulhNImm o => some ((mkHead 0x04 9 o.g).pack (bodySSI o))
  | .mulhSn o => some ((mkHead 0x04 2 o.g).pack (bodySSS o))
  | .mulhSnImm o => some ((mkHead 0x04 10 o.g).pack (bodySSI o))
  | .div o => some ((mkHead 0x05 0 o.g).pack (bodySSS o))
  | .divImm o => some ((mkHead 0x05 8 o.g).pack (bodySSI o))
  | .divN o => some ((mkHead 0x05 1 o.g).pack (bodySSS o))
  | .divNImm o => some ((mkHead 0x05 9 o.g).pack (bodySSI o))
  | .rem o => some ((mkHead 0x06 0 o.g).pack (bodySSS o))
  | .remImm o => some ((mkHead 0x06 8 o.g).pack (bodySSI o))
  | .remN o => some ((mkHead 0x06 1 o.g).pack (bodySSS o))
  | .remNImm o => some ((mkHead 0x06 9 o.g).pack (bodySSI o))
  | .and_ o => some ((mkHead 0x07 0 o.g).pack (bodySSS o))
  | .andImm o => some ((mkHead 0x07 8 o.g).pack (bodySSI o))
  | .or_ o => some ((mkHead 0x08 0 o.g).pack (bodySSS o))
  | .orImm o => some ((mkHead 0x08 8 o.g).pack (bodySSI o))
  | .xor o => some ((mkHead 0x09 0 o.g).pack (bodySSS o))
  | .xorImm o => some ((mkHead 0x09 8 o.g).pack (bodySSI o))
  | .andn o => some ((mkHead 0x0A 0 o.g).pack (bodySSS o))
  | .andnImm o => some ((mkHead 0x0A 8 o.g).pack (bodySSI o))
  | .shl o => some ((mkHead 0x0B 0 o.g).pack (bodySSS o))
  | .shlImm o => some ((mkHead 0x0B 8 o.g).pack (bodySSI o))
  | .shr o => some ((mkHead 0x0C 0 o.g).pack (bodySSS o))
  | .shrImm o => some ((mkHead 0x0C 8 o.g).pack (bodySSI o))
  | .sra o => some ((mkHead 0x0D 0 o.g).pack (bodySSS o))
  | .sraImm o => some ((mkHead 0x0D 8 o.g).pack (bodySSI o))
  | .rot o => some ((mkHead 0x0E 0 o.g).pack (bodySSS o))
  | .rotImm o => some ((mkHead 0x0E 8 o.g).pack (bodySSI o))
  | .min o => some ((mkHead 0x0F 0 o.g).pack (bodySSS o))
  | .minImm o => some ((mkHead 0x0F 8 o.g).pack (bodySSI o))
  | .minN o => some ((mkHead 0x0F 1 o.g).pack (bodySSS o))
  | .minNImm o => some ((mkHead 0x0F 9 o.g).pack (bodySSI o))
  | .max o => some ((mkHead 0x10 0 o.g).pack (bodySSS o))
  | .maxImm o => some ((mkHead 0x10 8 o.g).pack (bodySSI o))
  | .maxN o => some ((mkHead 0x10 1 o.g).pack (bodySSS o))
  | .maxNImm o => some ((mkHead 0x10 9 o.g).pack (bodySSI o))
  | .cmpEq o => some ((mkHead 0x11 0 o.g).pack (bodyKSS o))
  | .cmpEqImm o => some ((mkHead 0x11 8 o.g).pack (bodyKSI o))
  | .cmpNe o => some ((mkHead 0x11 1 o.g).pack (bodyKSS o))
  | .cmpNeImm o => some ((mkHead 0x11 9 o.g).pack (bodyKSI o))
  | .cmpLt o => some ((mkHead 0x11 2 o.g).pack (bodyKSS o))
  | .cmpLtImm o => some ((mkHead 0x11 10 o.g).pack (bodyKSI o))
  | .cmpLe o => some ((mkHead 0x11 3 o.g).pack (bodyKSS o))
  | .cmpLeImm o => some ((mkHead 0x11 11 o.g).pack (bodyKSI o))
  | .cmpLtN o => some ((mkHead 0x11 4 o.g).pack (bodyKSS o))
  | .cmpLtNImm o => some ((mkHead 0x11 12 o.g).pack (bodyKSI o))
  | .cmpLeN o => some ((mkHead 0x11 5 o.g).pack (bodyKSS o))
  | .cmpLeNImm o => some ((mkHead 0x11 13 o.g).pack (bodyKSI o))
  | .sel o => some ((mkHead 0x12 0 o.g).pack (bodySSSK o))
  | .clz o => some ((mkHead 0x13 0 o.g).pack (bodySS o))
  | .ctz o => some ((mkHead 0x13 1 o.g).pack (bodySS o))
  | .popc o => some ((mkHead 0x13 2 o.g).pack (bodySS o))
  | .extI8 o => some ((mkHead 0x14 0 o.g).pack (bodySS o))
  | .extN8 o => some ((mkHead 0x14 1 o.g).pack (bodySS o))
  | .extI16 o => some ((mkHead 0x14 2 o.g).pack (bodySS o))
  | .extN16 o => some ((mkHead 0x14 3 o.g).pack (bodySS o))
  | .extI32 o => some ((mkHead 0x14 4 o.g).pack (bodySS o))
  | .extN32 o => some ((mkHead 0x14 5 o.g).pack (bodySS o))
  | .bfx o => some ((mkHead 0x15 0 o.g).pack (bodySSS o))
  | .bfxI o => some ((mkHead 0x15 1 o.g).pack (bodySSS o))
  | .bfi o => some ((mkHead 0x16 0 o.g).pack (bodySSSS o))
  | .li o => some ((mkHead 0x17 0 o.g).pack (bodySI o))
  | .lih o => some ((mkHead 0x17 1 o.g).pack (bodySI o))
  | .mov o => some ((mkHead 0x18 0 o.g).pack (bodyMov o))
  | .kand o => some ((mkHead 0x1A 0 o.g).pack (bodyKKK o))
  | .kor o => some ((mkHead 0x1A 1 o.g).pack (bodyKKK o))
  | .kxor o => some ((mkHead 0x1A 2 o.g).pack (bodyKKK o))
  | .kandn o => some ((mkHead 0x1A 3 o.g).pack (bodyKKK o))
  | .knot o => some ((mkHead 0x1A 4 o.g).pack (bodyKK o))
  | .kmovKToS o => some ((mkHead 0x1B 0 o.g).pack (bodySK o))
  | .kmovSToK o => some ((mkHead 0x1B 1 o.g).pack (bodyKS o))
  | .kpopc o => some ((mkHead 0x1B 2 o.g).pack (bodySK o))
  | .kfirst o => some ((mkHead 0x1B 3 o.g).pack (bodySK o))
  | .cnarrow o => some ((mkHead 0x20 0 o.g).pack (bodyCCSS o))
  | .cperm o => some ((mkHead 0x21 0 o.g).pack (bodyCCS o))
  | .cget o => some ((mkHead 0x22 0 o.g).pack (bodyCGet o))
  | .cld o => some ((mkHead 0x23 0 o.g).pack (bodyCLd o))
  | .cst o => some ((mkHead 0x24 0 o.g).pack (bodyCSt o))
  | .loop o => some ((mkHead 0x30 0 noGuard).pack (bodyLoop o))
  | .lmask o => some ((mkHead 0x31 0 noGuard).pack (bodyLMask o))
  | .end_ => some ((0x32 : BitVec 8) ++ (0 : BitVec 56))
  | .nop => some ((0x33 : BitVec 8) ++ (0 : BitVec 56))
  | .trap o => some ((mkHead 0x34 0 o.g).pack (bodyTrap o))
  | .smovRead o => some ((mkHead 0xF0 0 o.g).pack (bodySmov o))
  | .smovWrite o => some ((mkHead 0xF0 1 o.g).pack (bodySmov o))
  | .ctxctlFreeze o => some ((mkHead 0xF1 0 o.g).pack (bodyCtxCtl o))
  | .ctxctlResume o => some ((mkHead 0xF1 1 o.g).pack (bodyCtxCtl o))
  | .ctxctlKill o => some ((mkHead 0xF1 2 o.g).pack (bodyCtxCtl o))
  | .ctxctlRestart o => some ((mkHead 0xF1 3 o.g).pack (bodyCtxCtl o))
  | .markRound o => some ((mkHead 0xF2 0 o.g).pack (bodyMark0 o))
  | .markCheckpoint o => some ((mkHead 0xF2 0 o.g).pack (bodyMark1 o))
  | .markCut o => some ((mkHead 0xF2 0 o.g).pack (bodyMark2 o))
  | .tsamp o => some ((mkHead 0xF3 0 o.g).pack (bodyTsamp o))
  | .brkpt o => some ((mkHead 0xF4 0 o.g).pack (bodyBrk o))
  | .brkptArmed o => some ((mkHead 0xF4 0 o.g).pack (bodyBrkArmed o))
  | .tlbinv o => some ((mkHead 0xF5 0 o.g).pack (bodyTlbinv o))
  | .post o => some ((mkHead 0xF6 0 o.g).pack (bodyPost o))
  | .vadd o => some ((mkHead 0x40 0 o.g).pack (bodyVBin o))
  | .vsub o => some ((mkHead 0x41 0 o.g).pack (bodyVBin o))
  | .vmul o => some ((mkHead 0x42 0 o.g).pack (bodyVBin o))
  | .vfma o => some ((mkHead 0x43 0 o.g).pack (bodyVFma o))
  | .vmin o => some ((mkHead 0x44 0 o.g).pack (bodyVMinMax o))
  | .vmax o => some ((mkHead 0x44 1 o.g).pack (bodyVMinMax o))
  | .vabs o => some ((mkHead 0x45 0 o.g).pack (bodyVUnS o))
  | .vneg o => some ((mkHead 0x45 1 o.g).pack (bodyVUnS o))
  | .vdiv o => some ((mkHead 0x46 0 o.g).pack (bodyVDiv o))
  | .vsqrt o => some ((mkHead 0x47 0 o.g).pack (bodyVUn o))
  | .vexp2 o => some ((mkHead 0x48 0 o.g).pack (bodyVUn o))
  | .vlog2 o => some ((mkHead 0x49 0 o.g).pack (bodyVUn o))
  | .vcmpEq o => some ((mkHead 0x4A 0 o.g).pack (bodyVCmp o))
  | .vcmpNe o => some ((mkHead 0x4A 1 o.g).pack (bodyVCmp o))
  | .vcmpLt o => some ((mkHead 0x4A 2 o.g).pack (bodyVCmp o))
  | .vcmpLe o => some ((mkHead 0x4A 3 o.g).pack (bodyVCmp o))
  | .vcmpUn o => some ((mkHead 0x4A 4 o.g).pack (bodyVCmp o))
  | .vsel o => some ((mkHead 0x4B 0 o.g).pack (bodyVSel o))
  | .vand o => some ((mkHead 0x4C 0 o.g).pack (bodyVBits o))
  | .vor o => some ((mkHead 0x4C 1 o.g).pack (bodyVBits o))
  | .vxor o => some ((mkHead 0x4C 2 o.g).pack (bodyVBits o))
  | .vandn o => some ((mkHead 0x4C 3 o.g).pack (bodyVBits o))
  | .vshl o => some ((mkHead 0x4D 0 o.g).pack (bodyVBits o))
  | .vshr o => some ((mkHead 0x4D 1 o.g).pack (bodyVBits o))
  | .vsra o => some ((mkHead 0x4D 2 o.g).pack (bodyVBits o))
  | .vcvt o => some ((mkHead 0x4E 0 o.g).pack (bodyVCvt o))
  | .vcvtChannel o => some ((mkHead 0x4E 0 o.g).pack (bodyVCvtCh o))
  | .vrnd o => some ((mkHead 0x4F 0 o.g).pack (bodyVCvt o))
  | .vscale o => some ((mkHead 0x50 0 o.g).pack (bodyVScale o))
  | .vpack o => some ((mkHead 0x51 0 o.g).pack (bodyVPack o))
  | .vunpack o => some ((mkHead 0x52 0 o.g).pack (bodyVUnpack o))
  | .vbsc o => some ((mkHead 0x53 0 o.g).pack (bodyVBsc o))
  | .vbsx o => some ((mkHead 0x54 0 o.g).pack (bodyVBsx o))
  | .vhad o => some ((mkHead 0x55 0 o.g).pack (bodyVHad o))
  | .vredAdd o => some ((mkHead 0x56 0 o.g).pack (bodyVRed o))
  | .vredMin o => some ((mkHead 0x56 1 o.g).pack (bodyVRed o))
  | .vredMax o => some ((mkHead 0x56 2 o.g).pack (bodyVRed o))
  | .vperm o => some ((mkHead 0x57 0 o.g).pack (bodyVBits o))
  | .vbcst o => some ((mkHead 0x58 0 o.g).pack (bodyVFromS o))
  | .vins o => some ((mkHead 0x59 0 o.g).pack (bodyVIns o))
  | .vext o => some ((mkHead 0x5A 0 o.g).pack (bodyVExt o))
  | .vsort o => some ((mkHead 0x61 0 o.g).pack (bodyVSort o))
  | .vhist o => some ((mkHead 0x5B 0 o.g).pack (bodyVHist o))
  | .vsdc o => some ((mkHead 0x5C 0 o.g).pack (bodyVSdc o))
  | .vsdcChannel o => some ((mkHead 0x5C 0 o.g).pack (bodyVSdcCh o))
  | .vsdadd o => some ((mkHead 0x5D 0 o.g).pack (bodyVSdAdd o))
  | .vsdcmp o => some ((mkHead 0x5E 0 o.g).pack (bodyVSdCmp o))
  | .vclass o => some ((mkHead 0x5F 0 o.g).pack (bodyVClass o))
  | .vdot o => some ((mkHead 0x60 0 o.g).pack (bodyVDot o))
  | .mbld o => some ((mkHead 0x80 0 o.g).pack (bodyMB o))
  | .mbldDiag o => some ((mkHead 0x80 1 o.g).pack (bodyMB o))
  | .mbsp o => some ((mkHead 0x81 0 o.g).pack (bodyMB o))
  | .bSwap => none
  | .mrow o => some ((mkHead 0x82 0 o.g).pack (bodyMRow o))
  | .mroww o => some ((mkHead 0x83 0 o.g).pack (bodyMRowW o))
  | .mrowwSp o => some ((mkHead 0x83 1 o.g).pack (bodyMRowW o))
  | .matrixRowFiring => none
  | .mzero o => some ((mkHead 0x84 0 o.g).pack (bodyMN o))
  | .mout o => some ((mkHead 0x85 0 o.g).pack (bodyMOut o))
  | .mscaleWindow o => some ((mkHead 0x86 0 o.g).pack (bodyMScaleW o))
  | .mscaleCode o => some ((mkHead 0x86 0 o.g).pack (bodyMScaleC o))
  | .mbias o => some ((mkHead 0x87 0 o.g).pack (bodyMBias o))
  | .mrd o => some ((mkHead 0x88 0 o.g).pack (bodyMRd o))
  | .mwr o => some ((mkHead 0x89 0 o.g).pack (bodyMWr o))
  | .mslot o => some ((mkHead 0x8A 0 o.g).pack (bodyMSlot o))
  | .wfill o => some ((mkHead 0x90 0 o.g).pack (bodyWFill o))
  | .wread o => some ((mkHead 0x91 0 o.g).pack (bodyWOff o))
  | .wupd o => some ((mkHead 0x92 0 o.g).pack (bodyWOff o))
  | .wshrink o => some ((mkHead 0x93 0 o.g).pack (bodyWShrink o))
  | .wstat o => some ((mkHead 0x94 0 o.g).pack (bodyWStat o))
  | .wsave o => some ((mkHead 0x95 0 o.g).pack (bodyWSave o))
  | .wrest o => some ((mkHead 0x96 0 o.g).pack (bodyWRest o))
  | .windowWaiterRelease => none
  | .recv o => some ((mkHead 0x97 0 o.g).pack (bodyRecv o))
  | .peek o => some ((mkHead 0x99 0 o.g).pack (bodyPeek o))
  | .send o => some ((mkHead 0x98 0 o.g).pack (bodySend o))
  | .vcset o => some ((mkHead 0x9A 0 o.g).pack (bodyVcSet o))
  | .barInit o => some ((mkHead 0x9B 0 o.g).pack (bodyBarInit o))
  | .barArrive o => some ((mkHead 0x9B 1 o.g).pack (bodyBar o))
  | .barWait o => some ((mkHead 0x9B 2 o.g).pack (bodyBar o))
  | .barAw o => some ((mkHead 0x9B 3 o.g).pack (bodyBar o))
  | .barRemote o => some ((mkHead 0x9B 4 o.g).pack (bodyBarRemote o))
  | .remoteArrival => none
  | .mld o => some ((mkHead 0x38 0 o.g).pack (bodyMem o))
  | .mst o => some ((mkHead 0x39 0 o.g).pack (bodyMem o))
  | .mwrt o => some ((mkHead 0x3B 0 o.g).pack (bodyMWrt o))
  | .mreq o => some ((mkHead 0x3A 0 o.g).pack (bodyMReq o))
  | .wreq o => some ((mkHead 0x3E 0 o.g).pack (bodyWReq o))
  | .fenceRegion o => some ((mkHead 0x3C 0 o.g).pack (bodyFence o))
  | .fenceDevice o => some ((mkHead 0x3C 1 o.g).pack (bodyFence o))
  | .fenceSystem o => some ((mkHead 0x3C 2 o.g).pack (bodyFence o))
  | .ctok o => some ((mkHead 0x3D 0 o.g).pack (bodyCtok o))
  | .cpy o => some ((mkHead 0xC0 0 o.g).pack (bodyCpy o))
  | .cpyq o => some ((mkHead 0xC1 0 o.g).pack (bodyCpy3 o))
  | .gth o => some ((mkHead 0xC2 0 o.g).pack (bodyCpy3 o))
  | .sct o => some ((mkHead 0xC3 0 o.g).pack (bodyCpy3 o))
  | .copyCompletion => none
  | .aadd o => some ((mkHead 0xC8 0 o.g).pack (bodyAt o))
  | .aaddF o => some ((mkHead 0xC8 8 o.g).pack (bodyAtF o))
  | .amin o => some ((mkHead 0xC9 0 o.g).pack (bodyAt o))
  | .aminF o => some ((mkHead 0xC9 8 o.g).pack (bodyAtF o))
  | .amax o => some ((mkHead 0xCA 0 o.g).pack (bodyAt o))
  | .amaxF o => some ((mkHead 0xCA 8 o.g).pack (bodyAtF o))
  | .aand o => some ((mkHead 0xCB 0 o.g).pack (bodyAt o))
  | .aandF o => some ((mkHead 0xCB 8 o.g).pack (bodyAtF o))
  | .aor o => some ((mkHead 0xCB 1 o.g).pack (bodyAt o))
  | .aorF o => some ((mkHead 0xCB 9 o.g).pack (bodyAtF o))
  | .axor o => some ((mkHead 0xCB 2 o.g).pack (bodyAt o))
  | .axorF o => some ((mkHead 0xCB 10 o.g).pack (bodyAtF o))
  | .axchg o => some ((mkHead 0xCC 0 o.g).pack (bodyAt o))
  | .axchgF o => some ((mkHead 0xCC 8 o.g).pack (bodyAtF o))
  | .acas o => some ((mkHead 0xCD 8 o.g).pack (bodyACas o))
  | .acasQ o => some ((mkHead 0xCE 8 o.g).pack (bodyACasQ o))
  | .sparseUpdateApply => none
  | .plq o => some ((mkHead 0xD0 0 o.g).pack (bodyPSS o))
  | .plterm o => some ((mkHead 0xD1 0 o.g).pack (bodyPSC o))
  | .plvec o => some ((mkHead 0xD2 0 o.g).pack (bodyPSS o))
  | .plfuseLin o => some ((mkHead 0xD3 0 o.g).pack (bodyPSS o))
  | .plfuseRrf o => some ((mkHead 0xD3 1 o.g).pack (bodyPSS o))
  | .plrunOr o => some ((mkHead 0xD4 0 o.g).pack (bodyPRun o))
  | .plrunAnd o => some ((mkHead 0xD4 1 o.g).pack (bodyPRun o))
  | .plrunWand o => some ((mkHead 0xD4 2 o.g).pack (bodyPRun o))
  | .plabort o => some ((mkHead 0xD5 0 o.g).pack (bodyPS o))
  | .plresume o => some ((mkHead 0xD6 0 o.g).pack (bodyPResume o))
  | .chunkDecode => none
  | .chunkCommit => none
  | .queryRunEnd => none
  | .pins o => some ((mkHead 0xE0 0 o.g).pack (bodyPins o))
  | .ptake o => some ((mkHead 0xE1 0 o.g).pack (bodyPTake o))
  | .ptry o => some ((mkHead 0xE2 0 o.g).pack (bodyPTake o))
  | .pstat o => some ((mkHead 0xE3 0 o.g).pack (bodyPSS o))
  | .pcfg o => some ((mkHead 0xE4 0 o.g).pack (bodyPSS o))
  | .pcfgApply => none
  | .poolInsertAccept => none
  | .poolTakeTest => none
  | .migrationAnswer => none
  | .migrationArrival => none
  | .topNotesSend => none
  | .topNotesArrival => none
  | .remoteTake => none
  | .agreementWave => none
  | .emptyClearing => none
  | .xfill o => some ((mkHead 0xE8 0 o.g).pack (bodyXFillR o))
  | .xred o => some ((mkHead 0xE9 0 o.g).pack (bodyXFillR o))
  | .xbar o => some ((mkHead 0xEA 0 o.g).pack (bodyXBar o))
  | .peerBeatArrival => none
  | .peerRetransmit => none
  | .engineAccept => none
  | .engineReply => none
  | .issueGrant => none
  | .arbWeightStep => none
  | .taskInputsEnded => none
  | .fillAccept => none
  | .arrivalToken => none
  | .controlTokenPass => none
  | .controlBeat => none
  | .addressGeneratorBeat => none
  | .pass => none
  | .fork => none
  | .steer => none
  | .merge => none
  | .amerge => none
  | .carry => none
  | .join => none
  | .gate => none
  | .const => none
  | .sink => none
  | .count => none
  | .select => none
  | .sequentialController => none
  | .pipelinedController => none
  | .streamingController => none
  | .contextSwitch => none
  | .contextFetchDone => none
  | .contextStoreAdd => none
  | .launchPortWrite => none
  | .launch => none
  | .token => none
  | .cancel => none
  | .close => none
  | .release => none
  | .badKind => none
  | .blockScheduler => none
  | .ageStepExpiry => none
  | .residencyEnd => none
  | .tokenForward => none
  | .launchDrained => none
  | .eventRecordFill => none
  | .eventShrink => none
  | .roundMarker => none
  | .checkpointMarker => none
  | .drainComplete => none
  | .saveComplete => none
  | .lateData => none
  | .restore => none
  | .stallWatchDeclare => none
  | .trapLetterDelivery => none
  | .pageWalkDone => none
  | .deadLetterResolve => none
  | .spillWriteRetry => none
  | .migration => none
  | .faultHead => none
  | .faultAnswer => none
  | .invalGo => none
  | .linkRetry => none
  | .linkDown => none
  | .regionKill => none
  | .regionStop => none
  | .stopRelease => none
  | .linkBrk => none
  | .captureStart => none
  | .captureStop => none
  | .devReset => none
  | .powerOn => none
  | .conventionalReset => none
  | .bootStageComplete => none
  | .fwLoad => none
  | .powerRun => none
  | .powerIdle => none
  | .powerPark => none
  | .powerTransitionDone => none
  | .thermalTrip => none
  | .lcAdvance => none
  | .revokeGo => none
  | .attestGo => none
  | .bar0RegisterWrite => none
  | .idcode => none
  | .devid => none
  | .debugFreeze => none
  | .freezePin => none
  | .thaw => none
  | .debugSelect => none
  | .debugRead => none
  | .debugToken => none
  | .bypass => none
  | .accessComplete => none
  | .threadTokenAccepted => none
  | .cumulativeAcknowledgement => none
  | .ethernetLinkChange => none
  | .powerRemoval => none
  | .launchErrClear => none

/-- The instruction of a row of the opcode table numbered from its least significant bit; the word is 64 bits, little-endian (R6, R17), bits above `nbits` 0. -/
def decodeTableWord (nbits w : Nat) : Option Instr :=
  match decode (BitVec.ofNat 64 (w % 2 ^ nbits)) with
  | .ok i => some i
  | .error _ => none

/-! Codes by which the spec names some device steps. They are not instruction words. -/

/-- Letter kinds (R263). -/
def decodeLetter (kind : Nat) : Instr :=
  match kind with
  | 0x01 => .launch | 0x02 => .token | 0x03 => .cancel | 0x04 => .close | 0x05 => .release | _ => .badKind

/-- Operator codes (R88); 0xF is reserved. -/
def decodeOpc (opc : Nat) : Option Instr :=
  match opc with
  | 0x0 => some .pass | 0x1 => some .fork | 0x2 => some .steer | 0x3 => some .merge
  | 0x4 => some .amerge | 0x5 => some .carry | 0x6 => some .join | 0x7 => some .gate
  | 0x8 => some .sequentialController | 0x9 => some .pipelinedController
  | 0xA => some .streamingController | 0xB => some .const | 0xC => some .sink
  | 0xD => some .count | 0xE => some .select | _ => none

/-- Debug-port instruction codes (R361) with the data shifted in. -/
def decodeTap (code : Nat) (data : Nat) : Instr × StepArg :=
  match code with
  | 0x01 => (.idcode, .none) | 0x02 => (.devid, .none) | 0x10 => (.debugFreeze, .none) | 0x11 => (.thaw, .none)
  | 0x20 => (.debugSelect, .reg 0 (BitVec.ofNat 64 data)) | 0x21 => (.debugRead, .none)
  | 0x30 => (.debugToken, .data 0 (bytesLE 320 data)) | _ => (.bypass, .none)

/-- The step a 64-bit host write to a BAR0 offset makes (R372); LINK_BRK[i] are the registers 0x0440-0x0458. -/
def decodeBar0Write (off : Nat) (w : Word) : Instr × StepArg :=
  (match off with
  | 0x0008 => .devReset | 0x0020 => .fwLoad | 0x0048 => .launchErrClear | 0x0120 => .faultAnswer
  | 0x0140 => .invalGo
  | 0x0200 => match w.toNat / 16 % 4 with
    | 0 => .powerRun | 1 => .powerIdle | _ => .powerPark
  | 0x0420 => if w.toNat / 2 ^ 40 % 2 == 0 then .captureStart else .captureStop
  | 0x0428 => .stopRelease
  | 0x0440 => .linkBrk | 0x0448 => .linkBrk | 0x0450 => .linkBrk | 0x0458 => .linkBrk
  | 0x0500 => .lcAdvance | 0x0510 => .revokeGo | 0x0628 => .attestGo
  | _ => .bar0RegisterWrite, .reg off w)

end Sys2Proof
end

