-- ==== Sys2Proof/Machine/State.lean ====
section
/-! DEFINITION. The state of the machine as plain data: contexts, tiles, windows, channels, engines, the hub and the host link; the reasons a step can stop; the state after reset. -/

namespace Sys2Proof.Machine

/-- A table from keys to values; a key not listed holds the default its reader names. -/
abbrev Tbl (κ α : Type) := List (κ × α)

/-- Bytes of a space by address; an unlisted address reads 0 (R378 stage 6; host memory: log 6). -/
abbrev Memory := List Host.Cell

/-- The canonical form: addresses strictly rising and no listed byte 0. -/
def Memory.wf : Memory → Bool
  | [] => true
  | [c] => c.2 != 0
  | c :: d :: m => c.2 != 0 && decide (c.1 < d.1) && Memory.wf (d :: m)

/-! Values -/

/-- A capability register: 128 bits and the hidden tag (R18, R20, R54). -/
structure CapV where
  val : BitVec 128 := 0
  tag : Bool := false
deriving DecidableEq, Repr

/-- Kinds of control token (R228, R231); a select token carries a configuration-context identifier (R104). -/
inductive CtlKind where
  | arrival | endOfList | completion | permit | done | endOfTile
  | select (id : Nat)
deriving DecidableEq, Repr

/-- A sampled token's postmark and hops: element, arrival and departure cycle (R356). -/
structure Sample where
  postmark : Nat
  elem : Nat
  oc : Nat
  hops : List (Nat × Nat × Nat) := []
deriving DecidableEq, Repr

/-- Why a beat carries no data (R285, R291, R346). -/
inductive Bad where
  | ecc
  | bounds
  | status (va outcome : Nat)
deriving DecidableEq, Repr

/-- What stands in a channel: a data beat, a control beat or a waiting control token (R231, R234). -/
structure Item where
  beat : Beat := 0
  ctl : Option CtlKind := none
  slot : Bool := true
  markB : Bool := false
  fault : Option Bad := none
  last : Bool := false
  /-- a reply of an island to the request of that number, which neither keeps a channel from ending nor ends it (R230, R235) -/
  reply : Option Nat := none
  /-- the edge port at which that island stands: the reply is an engine fill of it (R14, R26, R223) -/
  edge : Nat := 0
  sample : Option Sample := none
deriving DecidableEq, Repr

/-- The two markers of a drain or stop (R327, R360): kind 0 round, 1 checkpoint, 2 cut. -/
inductive Marker where
  | round | checkpoint | cut
deriving DecidableEq, Repr

/-- What travels on a link. -/
inductive Fly where
  | item (i : Item)
  | marker (m : Marker)
deriving DecidableEq, Repr

/-! Contexts -/

/-- States of a context (R21, R29). -/
inductive CState where
  | unbound | idle | ready | run | wait | frozen | done
deriving DecidableEq, Repr

/-- One of the two hardware loops of a context (R124, R332). -/
structure LoopSlot where
  active : Bool := false
  start : BitVec 12 := 0
  stop : BitVec 12 := 0
  remaining : Word := 0
deriving DecidableEq, Repr

/-- A stochastic source (R28, R42). -/
structure SRGen where
  seed : Word := 0
  ctr : Word := 0
deriving DecidableEq, Repr

/-- A capture under way (R338, R339, R358). -/
structure Capture where
  pmc : List Word
  cycle : Word
  out : Nat := 0
  outn : Nat := 0
deriving DecidableEq, Repr

/-- What a context in WAIT waits for (R21, R179, R199). -/
inductive Wait where
  /-- listed among the waiters of a window -/
  | window (w : Nat)
  /-- registered on a phase of a barrier -/
  | barrier (b : Nat) (phase : Bool)
  /-- accesses of the masked colours complete at a scope -/
  | fence (ids : List Nat) (scope : Scope)
  /-- a read's data -/
  | load (id : Nat)
  /-- the writes of a wsave, with FROZEN before it -/
  | save (ids : List Nat) (prior : Bool)
  /-- the header read of a wrest, then the header and the element reads, with FROZEN before it -/
  | rest (hdr : Option Nat) (head : List Byte) (body : List Nat) (prior : Bool)
  /-- acceptance of an engine command -/
  | accept (cmd : Nat)
  /-- the reply of an engine command -/
  | reply (cmd : Nat)
  /-- the colour release of a post -/
  | postRelease (ids : List Nat)
  /-- the entry window's acceptance of a posted thread token -/
  | postSent
  /-- the loader's completion of ctxctl or tlbinv -/
  | loader
deriving DecidableEq, Repr

/-- Why a freeze takes effect only once a waiting word is answered (R219, R380). -/
inductive Freeze where
  | ctl | round | cut
deriving DecidableEq, Repr

/-- A context (R18, R19, R21, R28, R332). -/
structure Ctx where
  s : Vector Word 32 := Vector.replicate 32 0
  v : Vector Beat 32 := Vector.replicate 32 0
  k : Vector Word 8 := Vector.replicate 8 0
  c : Vector CapV 16 := Vector.replicate 16 {}
  lc : Vector (BitVec 32) 2 := Vector.replicate 2 0
  loops : Vector LoopSlot 2 := Vector.replicate 2 {}
  pc : BitVec 12 := 0
  entry : BitVec 12 := 0
  st : CState := .unbound
  /-- state before freezing (R21) -/
  was : CState := .idle
  trapped : Bool := false
  preempted : Bool := false
  /-- a stop, not a marker of a drain, froze it (R360) -/
  stopped : Bool := false
  /-- ctxctl.freeze froze it, so neither a restore nor the end of a stop resumes it (R132, R336, R360) -/
  byCtl : Bool := false
  waitop : Byte := 0
  flags : BitVec 5 := 0
  sra : SRGen := {}
  srb : SRGen := {}
  fireCnt : Word := 0
  loopMax : Word := 1
  tripCnt : Word := 0
  trapCode : Word := 0
  info0 : Word := 0
  info1 : Word := 0
  cycleCnt : Word := 0
  pmc : Vector Word 16 := Vector.replicate 16 0
  pmcSel : Vector Byte 16 := Vector.replicate 16 0
  awarr : Bool := false
  /-- the phase a waiting bar.aw recorded (R189) -/
  awPhase : Bool := false
  sup : Bool := false
  inMask : BitVec 32 := 0
  outMask : BitVec 32 := 0
  inRate : Vector Nat 32 := Vector.replicate 32 0
  outRate : Vector Nat 32 := Vector.replicate 32 0
  received : Vector Nat 32 := Vector.replicate 32 0
  sent : Vector Nat 32 := Vector.replicate 32 0
  reserved : BitVec 32 := 0
  /-- tsamp pending on an output (R135) -/
  tsamp : Option (Fin 32) := none
  /-- armed breakpoint: output, tokens left, n (R136) -/
  armed : Option (Fin 32 × BitVec 32 × BitVec 32) := none
  capture : Option Capture := none
  wait : Option Wait := none
  /-- the word that waits; its registers cannot change while it waits -/
  waitIns : Option Instr := none
  /-- registers that await the phase of an arrival not yet counted: words that read them are interlocked (R107, R189) -/
  locks : List SReg := []
  /-- freezes that wait for the word in issue or for an answer (R21, R219, R380) -/
  freeze : List Freeze := []
  /-- THE MODEL'S OWN: it issued, or left WAIT, in this cycle, so it issues again from the next one (R107, R278) -/
  justRan : Bool := false
  /-- device slots of the pools with an element in hand (R308) -/
  inHand : List Nat := []
  /-- operand bytes of registers whose stored data cannot be corrected (R346) -/
  bad : List Nat := []
  /-- a dead-letter spill failure freezes it at its next boundary: address, port (R349) -/
  double : Option (Nat × Nat) := none
deriving DecidableEq, Repr

/-! Tiles -/

/-- A supervisor write that waits for the cycle boundary (R33). -/
inductive TileWrite where
  | slot (i : Fin 16) (entry : BitVec 4)
  | weight (c : Fin 8) (w : BitVec 4)
  | bar (b : Nat) (w : Word)
deriving DecidableEq, Repr

/-- A matrix row firing that waits for the array (R167, R168). -/
structure RowFire where
  ctx : Nat
  bank : Nat
  row : Nat
  rm : RM
  zf : Bool
  sparse : Bool
  aty : Ty
  bty : Ty
  scale : Byte
  a : List Beat
  /-- stochastic seed and counter of the row, when RM is .sa or .sb (R42) -/
  sr : Option (Word × Word) := none
  /-- an earlier row of its instruction raised a flag, so FLAGSET has counted it (R31) -/
  counted : Bool := false
deriving DecidableEq, Repr

/-- A compute tile beyond its contexts, windows and channels (R15, R28, R32, R278). -/
structure Tile where
  imem : List Word := []
  slotTable : Word := 0
  accBind : Word := 0
  weight : Vector (BitVec 4) 8 := Vector.replicate 8 0
  floor : Vector (BitVec 4) 8 := Vector.replicate 8 0
  ctxPtr : Fin 8 := 0
  holder : Option (Fin 8) := none
  burst : Nat := 0
  /-- the issuing cycles of the burst under way, by the weight under which it was granted (R33) -/
  limit : Nat := 1
  loaded : Nat := 0
  pend : List TileWrite := []
  rows : List RowFire := []
deriving DecidableEq, Repr

/-- A B operand: dense columns with their masks when sparse (R161, R164). -/
structure BBuf where
  cols : List Beat := []
  masks : List Byte := []
  diag : Bool := false
deriving DecidableEq, Repr

/-- An accumulator bank (R22, R161). -/
structure Bank where
  rows : Vector Beat 64 := Vector.replicate 64 0
  front : BBuf := {}
  back : BBuf := {}
  mask : BitVec 16 := 0xFFFF
  cscale : Vector Byte 16 := Vector.replicate 16 0x7F
  asc : Byte := 0x7F
  /-- the column mask of a loaded back buffer that waits for earlier firings (R165) -/
  swap : Option (BitVec 16) := none
  /-- the bank's profile holds integers (R161, R163) -/
  int : Bool := false
deriving DecidableEq, Repr

/-- A barrier (R27). -/
structure Bar where
  init : Byte := 0
  pending : Byte := 0
  phase : Bool := false
  relp : Bool := false
  note : Word := 0
deriving DecidableEq, Repr

/-! Windows, channels, operators, generators -/

/-- Who waits at a window, in arrival order (R225). -/
inductive Waiter where
  | ctx (c : Nat)
  /-- the beat at the head of a fill-port channel -/
  | chan (vc : Nat)
  /-- an engine command of that number -/
  | cmd (id : Nat)
  /-- the next beat of a peer's flow -/
  | peer (flow : Nat)
  /-- a letter or report record of a supervisor window -/
  | letter
deriving DecidableEq, Repr

/-- A window's descriptor and what its controller holds beyond it (R24, R224, R225, R228). -/
structure Window where
  base : BitVec 18 := 0
  esz : Fin 6 := 0
  cap : BitVec 16 := 0
  head : BitVec 16 := 0
  fill : BitVec 16 := 0
  resv : BitVec 18 := 0
  frozen : Bool := false
  multi : Bool := false
  waiters : List Waiter := []
  /-- elements filled in this cycle and in the one before (Fv) -/
  fillNow : Nat := 0
  fillPrev : Nat := 0
  /-- elements shrunk in this cycle (Sv) -/
  shrinkNow : Nat := 0
  /-- elements of the transfers under way, by the source that fills -/
  xfers : Tbl Waiter Nat := []
  /-- arrival or end-of-list tokens due: cycle, fill channel, token -/
  due : List (Nat × Nat × Item) := []
  /-- the context whose wsave or wrest is in progress -/
  busy : Option Nat := none
deriving DecidableEq, Repr

/-- An input channel (R23, R86, R231, R234). -/
structure Chan where
  en : Bool := false
  slots : Nat := 0
  fmt : BitVec 5 := 0
  scale : Byte := 0x7F
  /-- a vcset that applies from the next cycle (R187) -/
  newFmt : Option (BitVec 5 × Byte) := none
  items : List Item := []
  /-- on the link: due cycle and what travels; data beats among them hold slots -/
  flight : List (Nat × Fly) := []
  /-- slots reserved and not yet used (R231) -/
  reserved : Nat := 0
  /-- the window of the fill port it is bound to -/
  port : Option Nat := none
  /-- control tokens that wait in the network (R231, R234) -/
  held : List Item := []
  /-- a fill port met a fault token at its head and has sent its letter (R346) -/
  stuck : Bool := false
deriving DecidableEq, Repr

/-- A route (R87). -/
structure Route where
  delem : Nat
  dvc : Nat
  comp : Nat := 0
deriving DecidableEq, Repr

/-- One frame of an image (R79, R80); `grp` is the configuration-context group (R104). -/
structure Frame where
  kind : Nat
  sub : Nat
  elem : Nat
  crcOk : Bool
  body : BitVec 192
  off : Nat
  grp : Option Nat := none
deriving DecidableEq, Repr

/-- What an element is (R82). -/
inductive EKind where
  | tile | mu | edge | op
deriving DecidableEq, Repr

/-- An element of a residency (R13, R82, R104, R328). -/
structure Elem where
  kind : EKind
  die : Nat := 0
  x : Nat := 0
  y : Nat := 0
  /-- the edge port of an edge element -/
  port : Nat := 0
  isl : Nat := 0
  routes : Tbl Nat Route := []
  /-- window store and its tagged 16-byte units (R16, R20) -/
  store : Memory := []
  tags : List Nat := []
  /-- 8-byte units of the store that cannot be corrected (R346) -/
  bad : List Nat := []
  /-- frozen at a round or cut marker (R328, R360) -/
  frozen : Option Marker := none
  /-- saw the checkpoint marker (R327) -/
  check : Bool := false
  saved : Bool := false
  /-- beats sent on each output since load, for SAMPLE_RATE and link breakpoints (R356, R359) -/
  sentCnt : Tbl Nat Nat := []
  /-- the operator stopped at a fault token (R346) -/
  stuck : Bool := false
  /-- COMPAT: active context, cached contexts (most recent first), select tokens with the channel in whose counter each waits, fetch under way with its due cycle (R104) -/
  active : Option Nat := none
  cache : List (Nat × List Frame) := []
  select : List (Nat × Nat) := []
  fetch : Option (Nat × Nat) := none
deriving DecidableEq, Repr

/-- The operator frame's configuration and state (R88, R236, R238, R240, R333). -/
structure OpSt where
  opc : Nat
  ina : Nat
  inb : Nat
  ctl : Nat
  param : Nat
  value : Word
  outs : List (Option Nat)
  depth : Nat
  remain : Nat := 0
  n : Nat := 0
  /-- const: beats sent (R236) -/
  sent : Nat := 0
  /-- carry in LOOP -/
  looping : Bool := false
  /-- controller: a run is under way; permits waiting; permits sent and dones counted per child -/
  running : Bool := false
  runs : Nat := 0
  p : List Nat := []
  d : List Nat := []
deriving DecidableEq, Repr

/-- One extent: pattern offsets [lo, hi), physical base, absent mark (R285). -/
structure Extent where
  lo : Nat
  hi : Nat
  bulk : Bool
  phys : Nat
  absent : Bool := false
deriving DecidableEq, Repr

/-- One element of a stream's beat: the reads it waits for, then its data or the reason it has none. -/
structure GElem where
  ids : List Nat := []
  data : List Byte := []
  fault : Option Bad := none
deriving DecidableEq, Repr

/-- A beat issued and not yet delivered: its elements, whether it ends a loop-0 run, and the walk's position and indices before it (R329). -/
structure GBeat where
  els : List GElem
  last : Bool
  pos : List Nat
  idx : List Nat
deriving DecidableEq, Repr

/-- An address generator: its frame and its walk (R89, R285, R289, R333). -/
structure Gen where
  write : Bool
  esz : Nat
  col : Nat
  cap : CapV
  /-- the MU window it reads, when CAP is 0xFF -/
  win : Option Nat := none
  idx : Option Nat := none
  nloops : Nat
  counts : List Nat
  strides : List Int
  offset : Nat
  pelem : Nat
  pvc : Nat
  /-- a read's output, 32 + generator; a write's channel in its element -/
  oc : Nat
  eot : Bool
  commut : Bool
  quant : Bool := false
  qfmt : Nat := 0
  qhad : Nat := 0
  hist : Option (Nat × Nat) := none
  comp : Nat := 0
  i : List Nat := [0, 0, 0, 0, 0]
  /-- the walk has issued its last element -/
  ended : Bool := false
  beats : Nat := 0
  idxBeats : Nat := 0
  idxBuf : List Nat := []
  /-- beats issued and not yet delivered, in order -/
  ahead : List GBeat := []
  /-- walk positions of the beats of a commutative stream that were delivered past an older one, which a rewound walk passes over (R289, R329) -/
  skip : List (List Nat) := []
  doneSent : Bool := false
  extents : List Extent := []
  paused : Bool := false
  stopped : Bool := false
  check : Bool := false
  /-- base of the region's remap table, written at placement and at SAVING (R89, R334) -/
  remap : Nat := 0
  /-- THE MODEL'S OWN: source bytes that the quantise stage of a write holds until its block is whole (R39) -/
  qbuf : List Byte := []
deriving DecidableEq, Repr

/-! Accesses in flight -/

/-- Who issued an access (R243). -/
inductive Issuer where
  | ctx (r : CtxRef)
  | gen (g : GenRef)
  /-- an engine command, on behalf of its context -/
  | cmd (r : CtxRef) (id : Nat)
deriving DecidableEq, Repr

/-- Outcomes of a walk other than MAPPED (R284), with the host's REFUSE (R291). -/
inductive Miss where
  | absent | denied | malformed | held | refuse
deriving DecidableEq, Repr

/-- Where an access stands on its way (R255, R286, R287). -/
inductive Place where
  | queued
  | parked
  | dead (m : Miss)
  | phys (bulk : Bool) (addr : Nat)
  | host (addr : Nat)
  | peer (addr : Nat)
deriving DecidableEq, Repr

/-- Whom an access serves. -/
inductive Purpose where
  | store
  | load
  /-- a beat of mreq: target, ordinal, last, EOT -/
  | reply (c : ChanRef) (k : Nat) (last eot : Bool)
  | genRead
  | genWrite
  /-- unit k of an engine command -/
  | unit (id : Nat) (k : Nat)
  | atomic (id : Nat)
  /-- a list header, skip table or block: lane or 8 + term -/
  | list (q : QueryRef) (lane : Nat)
deriving DecidableEq, Repr

/-- An access in flight (R243-R255). -/
structure Acc where
  id : Nat
  issuer : Issuer
  rid : Nat
  port : PortRef
  colour : Nat
  write : Bool
  atomic : Bool := false
  space : Nat
  asid : Nat
  va : Nat
  len : Nat
  data : List Byte := []
  /-- tags of the 16-byte units written; empty clears them -/
  tags : List Bool := []
  place : Place := .queued
  /-- a record of its fault stands or stood in the host fault queue (R290) -/
  asked : Bool := false
  /-- 0 issued, 1 complete at region scope, 2 at device scope, 3 at system scope -/
  level : Nat := 0
  /-- accesses that are complete at device scope before it starts (.rel, R249) -/
  after : List Nat := []
  purpose : Purpose
  due : Nat
  result : Option (List Byte × List Bool × Bool) := none
  /-- the fatal outcome it carries instead of data (R291) -/
  fault : Option Bad := none
deriving DecidableEq, Repr

/-- A release that waits for accesses: arrivals, tokens (R189, R190, R197). -/
inductive Later where
  | arrive (bar : Nat) (dest : SReg)
  | remote (target : Nat) (bar : Nat)
  | ctok (oc : Nat)
deriving DecidableEq, Repr

/-- A deferred release of a context. -/
structure Deferred where
  r : CtxRef
  ids : List Nat
  scope : Scope
  what : Later
deriving DecidableEq, Repr

/-- A barrier arrival on its way to a tile (R188, R190, R202). -/
structure Remote where
  due : Nat
  src : Nat
  bar : Nat
  rel : Bool
  note : Option Word := none
  /-- the end-of-tile token that follows the arrival of a copy (R202) -/
  token : Option ChanRef := none
deriving DecidableEq, Repr

/-! Engines -/

/-- Phases of an engine command (R199). -/
inductive CPhase where
  | offered | running | queued | replied
deriving DecidableEq, Repr

/-- An engine command (R199-R222). -/
structure Cmd where
  id : Nat
  r : CtxRef
  port : PortRef
  isl : Nat
  ins : Instr
  /-- register operands, in the order of the word's entry -/
  w : List Word
  capA : CapV := {}
  capB : CapV := {}
  colour : Nat := 0
  after : List Nat := []
  phase : CPhase := .offered
  /-- next unit to read, next unit to write -/
  rd : Nat := 0
  wr : Nat := 0
  bytes : List Byte := []
  sr : SRGen := {}
  srNext : Nat := 0
  flags : BitVec 5 := 0
  /-- completion under way: notice sent -/
  stage : Nat := 0
  status : Option Word := none
  withdrawn : Bool := false
  /-- a unit of the block under way could not be read, so the block is not written (R346) -/
  spoilt : Bool := false
  /-- units of an xred's segment that its partner could not read, which are not written (R346) -/
  holes : List Nat := []
deriving DecidableEq, Repr

/-- States of a query context (R211). -/
inductive QState where
  | free | opened | running | failed
deriving DecidableEq, Repr

/-- Where a chunk stands (R319-R322). -/
inductive ChunkSt where
  | waiting
  | claimed (lane : Nat)
  | decoded (docs : List (Nat × Nat))
  | bad
  | committed
  | skipped
deriving DecidableEq, Repr

/-- One block of one term (R315, R317). -/
structure Chunk where
  term : Nat
  block : Nat
  first : Nat
  last : Nat
  bmax : Nat
  off : Nat
  /-- last document before the block, or −1 -/
  prev : Int
  /-- a reserved bit of its skip entry is set -/
  resv : Bool := false
  /-- the block header, once read; empty where it lies outside the capability or could not be read -/
  hdr : Option (List Byte) := none
  st : ChunkSt := .waiting
deriving DecidableEq, Repr

/-- A term (R213). -/
structure Term where
  cap : CapV
  weight : BitVec 16
  /-- 0 unread, 1 header on its way, 2 skip table on its way, 3 read -/
  stage : Nat := 0
  header : List Byte := []
  table : List Byte := []
  bad : Bool := false
deriving DecidableEq, Repr

/-- A posting-list query context (R211-R216, R319-R326, R379). -/
structure Query where
  st : QState := .free
  tag : Nat := 0
  asid : Nat := 0
  block : Nat := 0
  ctx : CtxRef := ⟨0, 0, 0⟩
  win : Nat := 0
  welem : Nat := 0
  telem : Nat := 0
  tvc : Nat := 0
  terms : List Term := []
  cands : List (Nat × Option (BitVec 32)) := []
  rrf : Option Nat := none
  alpha : BitVec 32 := 0x3F800000
  beta : BitVec 32 := 0
  op : Nat := 0
  topk : Nat := 0
  colour : Nat := 0
  after : List Nat := []
  /-- the plrun or plresume command whose run goes on, and the context that issued it -/
  cmd : Nat := 0
  runner : CtxRef := ⟨0, 0, 0⟩
  chunks : List Chunk := []
  ordered : Bool := false
  /-- the score table: document, term, impact of every committed posting -/
  hits : List (Nat × Nat × Nat) := []
  /-- result pairs left to fill, and how many were filled -/
  results : List (BitVec 64) := []
  filled : Nat := 0
  /-- the end of a completed run: 0 not yet, 1 filling results, 3 end-of-list token and status beat due -/
  ending : Nat := 0
  status : Word := 0
deriving DecidableEq, Repr

/-- A status beat of a failed or abandoned run that waits for a residency of its block: the engine's die, launch, block, target channel, beat (R326, R381). -/
structure HeldBeat where
  die : Nat
  tag : Nat
  block : Nat
  chan : ChanRef
  item : Item
deriving DecidableEq, Repr

/-- A pool element (R299). -/
structure PElem where
  key : Word
  val : Word
  die : Nat
  seq : Nat
  birth : Nat
  /-- the pins.rel that inserted it, by its command number -/
  rel : Option Nat := none
  /-- in outgoing flight to this die (R305) -/
  flight : Option Nat := none
  /-- its spilled copy cannot be corrected (R346) -/
  bad : Bool := false
deriving DecidableEq, Repr

/-- A shard's copy of another shard's top notes (R301). -/
structure Mirror where
  period : Nat := 0
  count : Nat := 0
  entries : List (Word × Nat × Nat × Bool) := []
deriving DecidableEq, Repr

/-- What shards send one another (R301, R304-R306). -/
inductive PMsg where
  | notes (m : Mirror)
  | request
  | answer (es : List PElem)
  /-- the migrated elements that have been inserted, by die and sequence number -/
  | ack (keys : List (Nat × Nat))
  | remoteTake
  | remoteAnswer (e : Option PElem)
  /-- a pcfg's update: its command and the descriptor words (R312) -/
  | cfg (cmd : Nat) (w0 w1 : Word)
deriving DecidableEq, Repr

/-- A shard of a pool object (R298-R312). -/
structure Shard where
  elems : List PElem := []
  seq : Nat := 0
  queue : List Nat := []
  mirrors : Tbl Nat Mirror := []
  period : Nat := 0
  nextX : Nat := 0
  noteSeen : Bool := true
  reqTo : Option Nat := none
  migrating : List PElem := []
  migFrom : Nat := 0
  /-- the elements of that migration, for its acknowledgement -/
  migKeys : List (Nat × Nat) := []
  answered : Bool := false
  remoteOut : Bool := false
  /-- the take for which the remote take under way was sent (R306) -/
  remoteFor : Option Nat := none
  waitFrom : Nat := 0
  movedOut : Nat := 0
  movedIn : Nat := 0
  accepted : Nat := 0
  empty : Bool := false
  asked : Bool := false
  /-- its spill area in the GDDR of its die (R298) -/
  area : Option Nat := none
  bound : Nat := 1
  xper : Nat := 64
  agemax : Nat := 0
  waitmax : Nat := 0
  /-- messages on the way: due cycle, from, what -/
  inbox : List (Nat × Nat × PMsg) := []
  /-- the insert step and the take step of this cycle are used (R300) -/
  inserted : Bool := false
  took : Bool := false
deriving DecidableEq, Repr

/-- States of an emptiness agreement (R309). -/
inductive Agree where
  | idle
  | wave1 (due : Nat)
  | wave2 (due : Nat) (first : List (List Nat))
  | agreed
  | clearing (due : Nat)
deriving DecidableEq, Repr

/-- A pool object in its device slot (R298, R309). -/
structure Pool where
  tag : Nat
  obj : Nat
  configured : Option Nat := none
  agree : Agree := .idle
  /-- pcfg commands not yet applied by every shard: command, shards left -/
  cfgs : List (Nat × Nat) := []
deriving DecidableEq, Repr

/-- A flow of the window transport that this device sends (R220, R373): a source context and a target window. -/
structure Flow where
  id : Nat
  src : CtxRef
  peer : Nat
  tag : Nat
  elem : Nat
  win : Nat
  next : Nat := 0
  /-- sent and not acknowledged: number, beat, resend cycle, command -/
  unacked : List (Nat × PeerBody × Nat × Nat) := []
deriving DecidableEq, Repr

/-! Residencies and launches -/

/-- A verified image (R79, R92, R94). -/
structure Image where
  frames : List Frame := []
  trailer : List Byte := []
  digest : BitVec 384 := 0
  keyslot : Nat := 0
deriving DecidableEq, Repr

/-- States of a residency (R273, R297, R327): `loading` until its streams' pages are in place. -/
inductive RState where
  | loading | resident | draining | saving | saved | restoring | ended
deriving DecidableEq, Repr

/-- A trap letter or notice not yet delivered (R342-R344). -/
structure Letter where
  cycle : Nat
  tile : Nat
  who : Nat
  body : Beat
  /-- it goes to the host event window whatever the supervisor (R347, R348) -/
  host : Bool := false
deriving DecidableEq, Repr

/-- A residency and its region (R4, R19, R273, R275, R327, R341). -/
structure Res where
  region : Nat := 0
  tag : Nat := 0
  block : Nat := 0
  asid : Nat := 0
  cls : Nat := 0
  loadOrder : Nat := 0
  batch : List (BitVec 256) := []
  st : RState := .resident
  image : Image := {}
  width : Nat := 1
  height : Nat := 1
  /-- dies with the corner of the rectangle on each -/
  dies : List (Nat × Nat × Nat) := []
  /-- hosts of the loader's handles: handle, port -/
  islands : List (Nat × Nat) := []
  engineDie : Tbl Nat Nat := []
  mainPort : Tbl Nat Nat := []
  hubPort : Tbl Nat Nat := []
  caps : List CapV := []
  dlQuiet : Word := 65536
  stallCnt : Word := 0
  armed : Bool := true
  /-- the conditions of its end have held (R274): it has ended, and frees its region once its accesses are complete (R253) -/
  closing : Bool := false
  traceCtl : Word := 0
  sampleRate : Word := 0
  stopped : Bool := false
  /-- cut or round marker injections due -/
  cutDue : Option Nat := none
  killed : Bool := false
  cancelled : Bool := false
  supWin : Option (Nat × Nat × Nat) := none
  /-- the place in the order of R343, cycle, TILE_ID and WHO, from which letters go to the host, since the supervisor context is gone -/
  supLost : Option (Nat × Nat × Nat) := none
  letters : List Letter := []
  report : List Beat := []
  deferredDrain : Bool := false
  savedAt : Nat := 0
  preemptAt : Nat := 0
  /-- candidate the region was taken for: tag, block, saved residency -/
  victimOf : Option (Nat × Nat × Option Nat) := none
  /-- mark kind 1 under way (R340) -/
  check : Bool := false
  /-- a mark of the region itself started the drain (R340) -/
  ownMark : Bool := false
  /-- save area with its bytes, and spill areas, in GDDR (R287, R331) -/
  saveArea : Option (Nat × Nat) := none
  /-- the area that the placement of a restore has allocated, until the records are written back (R331, R336) -/
  nextArea : Option (Nat × Nat) := none
  spills : List Nat := []
  /-- command numbers of the runs whose held results were passed to this residency: no context leaves IDLE before they are delivered (R326) -/
  adopted : List Nat := []
deriving DecidableEq, Repr

/-- A block-table entry with its parsed image (R265). -/
structure Block where
  image : Image := {}
  entry : Nat := 1
  succ : Nat := 0xFFFF
  mapoff : Nat := 0
  /-- capability-table bases once allocated (R96, R266) -/
  bases : Option (List Nat) := none
  /-- hub MU and byte offset of the entry window (R270) -/
  hubMu : Nat := 0
  hubOff : Nat := 0
  /-- thread tokens with their arrival cycles, oldest first -/
  tokens : List (BitVec 256 × Nat) := []
deriving DecidableEq, Repr

/-- A launch (R264, R270, R276). -/
structure Launch where
  seq : Nat
  asid : Nat
  opened : Bool
  mapSpace : Nat
  map : Nat
  blocks : List Block := []
  live : Bool := true
  /-- a CANCEL waits for its residencies' accesses (R253, R276) -/
  cancelled : Bool := false
  /-- device slots of its pool objects -/
  pools : List Nat := []
  /-- the group registers at its launch (R372): self, table, size, collectives -/
  group : List Word := [0, 0, 0, 0]
deriving DecidableEq, Repr

/-- A page-table entry of a launch half (R283). -/
structure Pte where
  frame : Nat
  tgt : Nat := 0
  r : Bool := true
  w : Bool := true
  a : Bool := true
  held : Bool := false
  dirty : Bool := false
  dieHint : Nat := 0
deriving DecidableEq, Repr

/-- A port's TLB entry (R286, R294). -/
structure TlbEnt where
  asid : Nat
  gen : Nat
  bulkTbl : Bool
  va : Nat
  size : Nat
  bulk : Bool
  phys : Nat
  r : Bool
  w : Bool
  a : Bool
deriving DecidableEq, Repr

/-- An island port that translates (R286, R287, R349). -/
structure Port where
  tlb : List TlbEnt := []
  deadq : List Nat := []
  spill : List Nat := []
  full : Bool := false
  freed : Nat := 0
  /-- entries whose spill write fails, with the next retry (R349) -/
  retry : List (Nat × Nat) := []
  /-- its spill frame cannot be corrected (R346) -/
  bad : Bool := false
  /-- bases of the remap tables of saved regions, by residency (R334) -/
  remaps : Tbl Nat Nat := []
deriving DecidableEq, Repr

/-- A migration or page-in under way (R293). -/
structure Migr where
  page : PageRef
  stage : Nat := 0
  target : Option Nat := none
deriving DecidableEq, Repr

/-- Whom an invalidation answers (R137, R292, R293, R294). -/
inductive InvalOwner where
  | ctx (r : CtxRef)
  | host
  | migr (p : PageRef)
  | asid (a : Nat)
deriving DecidableEq, Repr

/-- An invalidation under way: the tables and VA range it names, and the accesses it waits for (R292). -/
structure Inval where
  owner : InvalOwner
  asid : Option Nat
  bulk : Option Bool := none
  lo : Nat
  hi : Nat
  started : Bool := false
  ids : List Nat := []
  /-- the generators it paused -/
  paused : List GenRef := []
deriving DecidableEq, Repr

/-! Hub -/

/-- Power states of a die (R374). -/
inductive Power where
  | run | idle | park
deriving DecidableEq, Repr

/-- Life-cycle states (R363). -/
inductive Life where
  | blank | provisioned | field | retired
deriving DecidableEq, Repr

/-- The BAR0 registers that hold plain values (R372). -/
structure Bar0 where
  fwAddr : Word := 0
  fwLen : Word := 0
  fwLoad : Word := 0
  launchErr : Word := 0
  ageStep : Word := 4096
  preemptAfter : Word := 1048576
  sharedRootMain : Word := 0
  sharedRootBulk : Word := 0
  invalStart : Word := 0
  invalLength : Word := 0
  invalGo : Word := 0
  softDie : Vector Word 8 := Vector.replicate 8 0
  softHub : Word := 0
  traceBase : Word := 0
  traceSize : Word := 0
  traceHead : Word := 0
  traceTail : Word := 0
  linkBrk : Vector Word 4 := Vector.replicate 4 0
  revokeAddr : Word := 0
  revokeGo : Word := 0
  attestNonce : BitVec 256 := 0
  attestSel : Word := 0
  attestGo : Word := 0
  attestReport : BitVec 2560 := 0
  groupSelf : Word := 0
  groupTable : Word := 0
  groupSize : Word := 0
  collTable : Word := 0
  ethStatus : Vector Word 12 := Vector.replicate 12 0
  tripped : Bool := false
  tripDie : BitVec 3 := 0
deriving DecidableEq, Repr

/-- Bring-up, firmware, fuses and security root (R363-R368, R378). -/
structure Sec where
  ready : Bool := false
  fwOk : Bool := false
  bootStage : BitVec 4 := 0
  bootErr : Byte := 0
  life : Life := .blank
  /-- revoke bits of image slots 0-7 and of DBGKEY -/
  revoked : BitVec 8 := 0
  dbgRevoked : Bool := false
  measurement : BitVec 384 := 0
  fwVersion : Nat := 0
  /-- resets so far: numbers the reset nonce -/
  resets : Nat := 0
  openFeatures : BitVec 3 := 0
  /-- stage 6 has ended and stage 7 awaits FW_LOAD (R378) -/
  awaitFw : Bool := false
deriving DecidableEq, Repr

/-- The debug port (R361, R362). -/
structure Dbg where
  ir : Byte := 0xFF
  select : Word := 0
  word : BitVec 46 := 0
  tokenStatus : Byte := 0
  frozen : Bool := false
  /-- what the last capture shifts out -/
  out : List Bool := []
deriving DecidableEq, Repr

/-- A power command under way: die, target, SR, due cycle (R374, R375). -/
structure PowerCmd where
  die : Nat
  goal : Power
  sr : Bool
  due : Nat
deriving DecidableEq, Repr

/-- An error in stored bits (R345, R346): corrected in a tile's storage, in that of a die's MUs, islands, memories and links, or in the hub's; or that cannot be corrected, in a context's register (by operand byte), a window store or a memory (by 8-byte unit), the spill frame of a port, an element of a pool shard, a beat of a channel or a TLB entry. -/
inductive Ecc where
  | softTile (die x y : Nat)
  | softDie (d : Nat)
  | softHub
  | reg (r : CtxRef) (o : Nat)
  | store (e : ElemRef) (u : Nat)
  | mem (bulk : Bool) (u : Nat)
  | spill (p : PortRef)
  | pool (k : ShardRef) (n : Nat)
  | beat (c : ChanRef) (n : Nat)
  | tlb (p : PortRef) (n : Nat)
deriving DecidableEq, Repr

/-- The whole machine. -/
structure State where
  /-- hub cycle (R8) -/
  cycle : Nat := 0
  ctxs : Tbl CtxRef Ctx := []
  tiles : Tbl ElemRef Tile := []
  banks : Tbl BankRef Bank := []
  bars : Tbl BarRef Bar := []
  elems : Tbl ElemRef Elem := []
  wins : Tbl WinRef Window := []
  chans : Tbl ChanRef Chan := []
  ops : Tbl ElemRef OpSt := []
  gens : Tbl GenRef Gen := []
  ress : Tbl Nat Res := []
  /-- soft errors corrected at each tile's site: die, x, y (R4, R28, R345) -/
  softTiles : Tbl (Nat × Nat × Nat) (BitVec 32) := []
  /-- memories by physical address, and tagged 16-byte units (R280) -/
  gddr : Memory := []
  bulk : Memory := []
  host : Memory := []
  gddrTags : List Nat := []
  bulkTags : List Nat := []
  /-- 8-byte units of main and of bulk memory that cannot be corrected (R345, R346) -/
  badMem : List Nat := []
  badBulk : List Nat := []
  accs : List Acc := []
  deferred : List Deferred := []
  remotes : Tbl ElemRef Remote := []
  /-- beats and tokens of islands that wait for slots at their target, in order (R195, R210) -/
  outbox : List (ChanRef × Item) := []
  /-- roots of the launch-half tables, which lie in GDDR, by ASID, main or bulk (R281, R282) -/
  roots : Tbl (Nat × Bool) Nat := []
  /-- THE MODEL'S OWN: the 64 KiB frames of launch halves that the loader has taken, pages and tables: ASID, main or bulk memory, address (log 7) -/
  ledger : List (Nat × Bool × Nat) := []
  ports : Tbl PortRef Port := []
  asidGen : Tbl Nat Nat := []
  migrs : List Migr := []
  invals : List Inval := []
  faultq : List (BitVec 128) := []
  cmds : List Cmd := []
  queries : Tbl QueryRef Query := []
  /-- status beats that the posting engines hold for a region that is saved out or has ended (R326, R381) -/
  heldBeats : List HeldBeat := []
  pools : Tbl Nat Pool := []
  shards : Tbl ShardRef Shard := []
  flows : List Flow := []
  /-- beats applied of each flow that peers send (R373) -/
  inFlows : Tbl Nat Nat := []
  peerWait : List PeerBeat := []
  /-- group barrier arrivals by barrier: member, beat count (R222) -/
  groupArr : Tbl Nat (List Nat) := []
  launches : Tbl Nat Launch := []
  launchSeq : Nat := 0
  loadSeq : Nat := 0
  nextRid : Nat := 0
  /-- numbers accesses and engine commands -/
  nextAcc : Nat := 0
  /-- launch window, its write buffer, host event window and records that wait for it (R262, R267) -/
  launchWin : List Beat := []
  launchBuf : List Beat := []
  /-- letters of host writes that the port withholds, on the host's side of the link (R262) -/
  launchHeld : List Beat := []
  eventWin : List Beat := []
  eventWait : List Beat := []
  /-- forwards that wait for space: launch, block, token (R274) -/
  forwards : List (Nat × Nat × BitVec 256) := []
  /-- the cycles in which forwards reach their entry windows, oldest first: launch, block, cycle; the last ones of a window are those of the forwards that wait there (R270) -/
  fwdAt : List (Nat × Nat × Nat) := []
  /-- the first letter of the launch window has had its effects, and leaves once its records are filled, a CANCEL once its launch has ended (R262, R267, R276) -/
  letterDone : Bool := false
  /-- the cycle in which the first letter, a TOKEN, reached its entry window and found it full (R225, R264, R270) -/
  letterAt : Option Nat := none
  /-- the scheduler is to evaluate (R272) -/
  sched : Bool := false
  /-- posts on their way: due cycle, TILE_ID, context, launch, block, token (R138, R270) -/
  posts : List (Nat × Nat × CtxRef × Nat × Nat × BitVec 256) := []
  /-- second-level context store: residency's launch and block, frames (R104, R105) -/
  ctxStore : Tbl (Nat × Nat) (List Frame) := []
  bar0 : Bar0 := {}
  /-- MSI-X vectors raised, newest first (R369) -/
  msix : List Nat := []
  dropCnt : Nat := 0
  linksDown : List LinkRef := []
  retries : Tbl LinkRef Nat := []
  power : Vector Power 8 := Vector.replicate 8 .run
  selfRefresh : BitVec 8 := 0
  powerCmd : Option PowerCmd := none
  powerErr : BitVec 3 := 0
  /-- the hottest junction temperature of each die, in °C (R372, R377) -/
  temps : Vector Byte 8 := Vector.replicate 8 0
  /-- a thermal trip parks the dies once the launches that it ends, by sequence number, have ended (R376, R377) -/
  tripWait : Option (List Nat) := none
  /-- the cycle of the last trip, which overrides the commands of that cycle (R377) -/
  tripAt : Option Nat := none
  sec : Sec := {}
  dbg : Dbg := {}
  /-- link breakpoint counts since the write (R359) -/
  brkCnt : Vector Nat 4 := Vector.replicate 4 0
  vaBump : Nat := 0x10000
  nextAlloc : Nat := 0
  /-- THE MODEL'S OWN (log 2): the steps left in this cycle, the arguments of the running step, what the outside does and when, the context granted issue, the context whose word runs, the counter behind the free values, the residencies that were active in this cycle -/
  agenda : List (Instr × StepArg) := []
  /-- the engines have moved and the second half of the cycle's steps is under way -/
  half : Bool := false
  arg : StepArg := .none
  inputs : List (Nat × Instr × StepArg) := []
  /-- THE MODEL'S OWN: errors of stored bits to come, with the cycle of each (log 23) -/
  nature : List (Nat × Ecc) := []
  grant : Option CtxRef := none
  cur : CtxRef := ⟨0, 0, 0⟩
  serial : Nat := 0
  busy : List Nat := []
deriving DecidableEq, Repr

/-- Why the machine stops with a fault. -/
inductive Fault where
  /-- exec of a word of the Tabrad set while `cur` names no context: no step of the machine does this; safe -/
  | noContext
  /-- an access whose physical address no memory device holds (R280): the spec says no address reaches it; safe -/
  | noSuchAddress
deriving DecidableEq, Repr

/-- Why the machine has no meaning for a step. -/
inductive Refusal where
  /-- an instruction whose meaning is not written yet; raised by Dispatch only; safe -/
  | notModelled (mnemonic : String)
deriving DecidableEq, Repr

/-- The machine right after reset (R372, R374, R378): every field at the spec's value, or at the value log 3 and log 4 name. -/
def State.reset : State := {}

end Sys2Proof.Machine
end

