-- ==== Sys2Proof/Machine/Ops.lean ====
section
/-! DEFINITION. The named operations over tables, memory, contexts and records; taking a trap and the return from one, each once. -/

namespace Sys2Proof

/-- The element of a context. -/
def CtxRef.tile (r : CtxRef) : ElemRef := ⟨r.rid, r.elem⟩
def WinRef.at (w : WinRef) : ElemRef := ⟨w.rid, w.elem⟩
def ChanRef.at (c : ChanRef) : ElemRef := ⟨c.rid, c.elem⟩
def GenRef.at (g : GenRef) : ElemRef := ⟨g.rid, g.elem⟩
def ElemRef.chan (e : ElemRef) (vc : Nat) : ChanRef := ⟨e.rid, e.elem, vc⟩
def ElemRef.win (e : ElemRef) (w : Nat) : WinRef := ⟨e.rid, e.elem, w⟩
def ElemRef.ctx (e : ElemRef) (c : Nat) : CtxRef := ⟨e.rid, e.elem, c⟩

end Sys2Proof

namespace Sys2Proof.Machine

/-- What exec answers. -/
abbrev Out := Host.Outcome State Fault Refusal

/-! Tables -/

def tget {κ α : Type} [DecidableEq κ] : Tbl κ α → κ → Option α
  | [], _ => none
  | p :: t, k => if p.1 = k then some p.2 else tget t k

def tput {κ α : Type} [DecidableEq κ] : Tbl κ α → κ → α → Tbl κ α
  | [], k, a => [(k, a)]
  | p :: t, k, a => if p.1 = k then (k, a) :: t else p :: tput t k a

def tdel {κ α : Type} [DecidableEq κ] (t : Tbl κ α) (k : κ) : Tbl κ α := t.filter fun p => p.1 ≠ k

/-- Change the value of a key that is present. -/
def tmod {κ α : Type} [DecidableEq κ] (t : Tbl κ α) (k : κ) (f : α → α) : Tbl κ α :=
  match tget t k with
  | some a => tput t k (f a)
  | none => t

/-- Change every value of a table. -/
def tmap {κ α : Type} (t : Tbl κ α) (f : κ → α → α) : Tbl κ α := t.map fun p => (p.1, f p.1 p.2)

/-- Replace entry `i` of a list, growing it with `d` where it is shorter. -/
def listPut {α : Type} (d : α) : List α → Nat → α → List α
  | [], 0, a => [a]
  | [], n + 1, a => d :: listPut d [] n a
  | _ :: l, 0, a => a :: l
  | x :: l, n + 1, a => x :: listPut d l n a

/-! Memory (R6, R378): an unlisted byte reads 0 -/

def Memory.get : Memory → Nat → Byte
  | [], _ => 0
  | c :: m, a => if c.1 = a then c.2 else if a < c.1 then 0 else Memory.get m a

/-- Write one byte; writing 0 unlists the address. -/
def Memory.put : Memory → Nat → Byte → Memory
  | [], a, b => if b = 0 then [] else [(a, b)]
  | c :: m, a, b =>
    if a < c.1 then (if b = 0 then c :: m else (a, b) :: c :: m)
    else if a = c.1 then (if b = 0 then m else (a, b) :: m)
    else c :: Memory.put m a b

/-- `n` bytes from address `a`, ascending. -/
def Memory.read (m : Memory) : Nat → Nat → List Byte
  | _, 0 => []
  | a, n + 1 => m.get a :: Memory.read m (a + 1) n

/-- Write bytes from address `a`, ascending. -/
def Memory.write (m : Memory) : Nat → List Byte → Memory
  | _, [] => m
  | a, b :: bs => Memory.write (m.put a b) (a + 1) bs

/-- Little-endian word of `n` bytes (R6). -/
def Memory.word (m : Memory) (a n : Nat) : Nat := ofBytesLE (m.read a n)

/-! Tag lists: the tagged 16-byte units, by unit number -/

def tagSet (t : List Nat) (u : Nat) (on : Bool) : List Nat :=
  let t := t.filter (· ≠ u)
  if on then u :: t else t

/-- Clear the tags of every unit that bytes `[a, a + n)` touch (R20). -/
def tagClear (t : List Nat) (a n : Nat) : List Nat :=
  t.filter fun u => !(a < 16 * u + 16 && 16 * u < a + n)

/-- Insert by a strict order, behind equal ones: sorting is structural. -/
def insertBy {α : Type} (lt : α → α → Bool) (a : α) : List α → List α
  | [] => [a]
  | b :: l => if lt a b then a :: b :: l else b :: insertBy lt a l
def sortBy {α : Type} (lt : α → α → Bool) (l : List α) : List α := l.foldl (fun acc a => insertBy lt a acc) []

/-! Records by fields -/

/-- The number with each value at its lowest bit. -/
def fields (l : List (Nat × Nat)) : Nat := l.foldl (fun a p => a + p.2 * 2 ^ p.1) 0

def beatOf (l : List (Nat × Nat)) : Beat := BitVec.ofNat 512 (fields l)

def beatBytes (b : Beat) : List Byte := bytesLE 64 b.toNat
def bytesBeat (bs : List Byte) : Beat := BitVec.ofNat 512 (ofBytesLE bs)

def boolNat (b : Bool) : Nat := if b then 1 else 0

/-! Capabilities (R54) -/

def CapV.base (c : CapV) : Nat := (c.val.extractLsb' 0 64).toNat
def CapV.length (c : CapV) : Nat := (c.val.extractLsb' 64 40).toNat
def CapV.perm (c : CapV) : BitVec 8 := c.val.extractLsb' 104 8
def CapV.space (c : CapV) : Nat := (c.val.extractLsb' 112 4).toNat
def CapV.asid (c : CapV) : Nat := (c.val.extractLsb' 116 12).toNat
def CapV.has (c : CapV) (i : Nat) : Bool := c.perm.getLsbD i
def pR := 0
def pW := 1
def pA := 2
def pG := 3
def pP := 4
def pL := 5
def pS := 6

/-- A reserved space or the reserved permission (R54, R118). -/
def CapV.reservedUse (c : CapV) : Bool := c.space > 5 || c.has 7

/-- Replace base and length (R119). -/
def CapV.narrow (c : CapV) (base : Word) (len : Nat) : CapV :=
  { c with val := (c.val.extractLsb' 104 24) ++ (BitVec.ofNat 40 len ++ base) }

/-! The free-value counter -/

/-- The next number for an opaque constant, and the state that has used it. -/
def State.fresh (s : State) : Nat × State := (s.serial, { s with serial := s.serial + 1 })

/-- Cycles that work of unstated length takes from now, at least `least`. -/
def State.later (s : State) (least : Nat) : Nat × State :=
  (s.cycle + least + Config.latency s.serial, { s with serial := s.serial + 1 })

/-! Records of the machine by key -/

def State.ctx? (s : State) (r : CtxRef) : Option Ctx := tget s.ctxs r
def State.setCtx (s : State) (r : CtxRef) (x : Ctx) : State := { s with ctxs := tput s.ctxs r x }
def State.modCtx (s : State) (r : CtxRef) (f : Ctx → Ctx) : State := { s with ctxs := tmod s.ctxs r f }
def State.elem? (s : State) (e : ElemRef) : Option Elem := tget s.elems e
def State.modElem (s : State) (e : ElemRef) (f : Elem → Elem) : State := { s with elems := tmod s.elems e f }
def State.tile? (s : State) (e : ElemRef) : Option Tile := tget s.tiles e
def State.modTile (s : State) (e : ElemRef) (f : Tile → Tile) : State := { s with tiles := tmod s.tiles e f }
def State.bank? (s : State) (b : BankRef) : Option Bank := tget s.banks b
def State.setBank (s : State) (b : BankRef) (x : Bank) : State := { s with banks := tput s.banks b x }
def State.win? (s : State) (w : WinRef) : Option Window := tget s.wins w
def State.setWin (s : State) (w : WinRef) (x : Window) : State := { s with wins := tput s.wins w x }
def State.modWin (s : State) (w : WinRef) (f : Window → Window) : State := { s with wins := tmod s.wins w f }
def State.chan? (s : State) (c : ChanRef) : Option Chan := tget s.chans c
def State.setChan (s : State) (c : ChanRef) (x : Chan) : State := { s with chans := tput s.chans c x }
def State.modChan (s : State) (c : ChanRef) (f : Chan → Chan) : State := { s with chans := tmod s.chans c f }
def State.res? (s : State) (r : Nat) : Option Res := tget s.ress r
def State.modRes (s : State) (r : Nat) (f : Res → Res) : State := { s with ress := tmod s.ress r f }
/-- A barrier nothing has named is unused (R27). -/
def State.bar (s : State) (b : BarRef) : Bar := (tget s.bars b).getD {}
def State.setBar (s : State) (b : BarRef) (x : Bar) : State := { s with bars := tput s.bars b x }

/-- TILE_ID of an element (R28). -/
def Elem.tileId (e : Elem) : Nat := e.die + 2 ^ 8 * e.x + 2 ^ 16 * e.y

/-- An element of this residency was active in this cycle (R350). -/
def State.active (s : State) (rid : Nat) : State :=
  if s.busy.contains rid then s else { s with busy := rid :: s.busy }

/-! Performance counters (R31) -/

/-- A residency whose contexts count: it is on the fabric (R28, R31). -/
def State.onFabric (s : State) (rid : Nat) : Bool :=
  match s.res? rid with
  | some rs => rs.st == .resident || rs.st == .draining || rs.st == .saving
  | none => false

/-- A residency that has ended but for its accesses and commands (R253, R274). -/
def State.closing (s : State) (rid : Nat) : Bool := match s.res? rid with | some rs => rs.closing | none => false

/-- A region that was killed (R276, R347). -/
def State.killed (s : State) (rid : Nat) : Bool := match s.res? rid with | some rs => rs.killed | none => false

/-- Add to every counter that selects an event, unless the context is frozen. -/
def Ctx.count (x : Ctx) (code : Byte) (n : Nat) : Ctx :=
  if x.st = .frozen then x
  else { x with pmc := Vector.ofFn fun i => if x.pmcSel[i] = code then x.pmc[i] + BitVec.ofNat 64 n else x.pmc[i] }

/-! Completing a word -/

/-- The loop that the word at pc p ends, where one is active (R124). -/
def Ctx.loopAt (x : Ctx) : Option (Fin 2) :=
  if x.loops[0].active && x.loops[0].stop == x.pc then some 0
  else if x.loops[1].active && x.loops[1].stop == x.pc then some 1 else none

/-- Advance past the word at pc: to pc + 1, or through one iteration of the loop it ends (R124). -/
def Ctx.advance (x : Ctx) : Ctx :=
  match x.loopAt with
  | none => { x with pc := x.pc + 1 }
  | some n =>
    let l := x.loops[n]
    let x := { x with lc := x.lc.set n (x.lc[n] + 1), bad := x.bad.filter fun d => d != 0xCC + n.val }
    if 1 < l.remaining.toNat then
      { x with pc := l.start, loops := x.loops.set n { l with remaining := l.remaining - 1 } }
    else { x with pc := l.stop + 1, loops := x.loops.set n { l with remaining := 0, active := false } }

/-- A context leaves the word it waited on and is in RUN; it issues again from the next cycle (R278). -/
def Ctx.running (x : Ctx) : Ctx :=
  { x with st := .run, wait := none, waitIns := none, waitop := 0, justRan := true }

/-- A freeze that has to wait is noted once. -/
def Ctx.freezeLater (x : Ctx) (f : Freeze) : Ctx := if x.freeze.contains f then x else { x with freeze := x.freeze ++ [f] }

/-- Freeze a context between words, with those freezes that waited (R21, R328, R360). -/
def Ctx.freezeNow (x : Ctx) (fs : List Freeze) : Ctx :=
  { x with st := .frozen, was := (if x.st = .wait then .run else x.st), wait := none, waitIns := none,
           freeze := [], preempted := x.preempted || fs.contains .round, stopped := x.stopped || fs.contains .cut,
           byCtl := x.byCtl || fs.contains .ctl }

/-- The word at pc has completed: pc advances, ISSUE counts, and a freeze that waited for it takes effect. -/
def Ctx.complete (x : Ctx) : Ctx :=
  let x := (x.running.count 0x02 1).advance
  if x.freeze.isEmpty then x else x.freezeNow x.freeze

/-- The running context's word completes with the context x. -/
def State.finish (s : State) (r : CtxRef) (x : Ctx) : State :=
  (s.setCtx r x.complete).active r.rid

/-! Trap letters (R342-R344) -/

/-- A letter's 64 bytes. -/
def letterBeat (s : State) (rid : Nat) (code : Nat) (elem : Nat) (who pc : Nat) (i0 i1 : Nat)
    (remote killed async : Bool) : Beat :=
  let rs := (s.res? rid).getD {}
  let (d, x, y) := match s.elem? ⟨rid, elem⟩ with
    | some e => (e.die, e.x, e.y)
    | none => (0, 0, 0)
  beatOf [(0, 0x04), (8, code % 256), (16, rs.tag % 2 ^ 16), (32, rs.region % 2 ^ 16), (48, elem % 2 ^ 16),
    (64, d % 8), (72, x % 32), (80, y % 32), (88, who % 16), (100, pc % 4096), (112, boolNat remote),
    (113, boolNat killed), (114, boolNat async), (128, i0 % 2 ^ 64), (192, i1 % 2 ^ 64), (256, s.cycle % 2 ^ 64)]

/-- Where in the order of R343 the letters of a region begin that go to the host, for a letter of this cycle: from its supervisor's own letter on, or from this cycle on where the supervisor context is gone without one (R343). -/
def State.supLoss (s : State) (rid : Nat) (rs : Res) (elem who tile : Nat) : Option (Nat × Nat × Nat) :=
  match rs.supLost, rs.supWin with
  | some k, _ => some k
  | none, none => none
  | none, some (e, c, _) =>
    match s.ctx? ⟨rid, e, c⟩ with
    | none => none
    | some x =>
      if !(x.st = .done || x.st = .unbound || (x.st = .frozen && x.trapped)) then none
      else if e = elem && c = who then some (s.cycle, tile, who)
      else some (s.cycle, 0, 0)

/-- Queue a letter of a residency, in the order of R343. -/
def State.fileLetter (s : State) (rid : Nat) (elem who : Nat) (b : Beat) (host : Bool) : State :=
  let tile := match s.elem? ⟨rid, elem⟩ with | some e => e.tileId | none => 0
  s.modRes rid fun rs => { rs with supLost := s.supLoss rid rs elem who tile, letters := rs.letters ++ [{ cycle := s.cycle, tile := tile, who := who, body := b, host := host }] }

/-- A letter that freezes no context (R344). -/
def State.remoteLetter (s : State) (rid : Nat) (code elem who pc i0 i1 : Nat) : State :=
  s.fileLetter rid elem who (letterBeat s rid code elem who pc i0 i1 true false false) false

/-- Taking a trap (R10, R21, R71, R342): the context, unchanged but for this, freezes at its pc with TRAPPED, TRAP_CODE and the information words, and its letter is filled. -/
def State.trap (s : State) (r : CtxRef) (x : Ctx) (code : Nat) (i0 i1 : Word) : State :=
  let pc := x.pc.toNat
  let x := { x with st := .frozen, was := .run, trapped := true, wait := none, waitIns := none,
                    freeze := [], waitop := 0,
                    preempted := x.preempted || x.freeze.contains .round,
                    stopped := x.stopped || x.freeze.contains .cut,
                    byCtl := x.byCtl || x.freeze.contains .ctl,
                    trapCode := BitVec.ofNat 64 code, info0 := i0, info1 := i1 }
  let s := (s.setCtx r x).active r.rid
  s.fileLetter r.rid r.elem r.ctx
    (letterBeat s r.rid code r.elem r.ctx pc i0.toNat i1.toNat false false false) false

/-- Trap codes (R71). -/
def tILLEGAL := 0x01
def tPRIV := 0x02
def tCAP_TAG := 0x03
def tCAP_BOUNDS := 0x04
def tCAP_PERM := 0x05
def tCAP_SPACE := 0x06
def tALIGN := 0x07
def tTYPE_COMBO := 0x08
def tVC_FORMAT := 0x09
def tRATE := 0x0A
def tLOOP_MAX := 0x0B
def tSOFT := 0x0C
def tBREAK := 0x0D
def tECC_UNCORR := 0x0E
def tDOUBLE := 0x0F
def tISLAND_STATUS := 0x10
def tPOOL_HANDLE := 0x11

/-- The return from a trap or freeze (R21, R130, R132): the state before freezing, WAIT having become RUN; after SOFT or the immediate BREAK the context continues past its word. -/
def Ctx.resume (x : Ctx) : Ctx :=
  let skip := x.trapped && (x.trapCode.toNat == tSOFT || x.trapCode.toNat == tBREAK)
  let x := { x with st := x.was, trapped := false, preempted := false, stopped := false, byCtl := false, waitop := 0 }
  if skip then { x with pc := x.pc + 1 } else x

/-- A die's fabric is clocked: in IDLE its clocks are gated, in PARK it has no power (R375). -/
def State.clocked (s : State) (d : Nat) : Bool := if h : d < 8 then s.power.get ⟨d, h⟩ == .run else true

/-! Records and interrupts of the host -/

/-- Raise an MSI-X vector (R369). -/
def State.raise (s : State) (v : Nat) : State := { s with msix := v :: s.msix }

/-- File a record in the host event window; it waits in order behind others while the window is full (R267). -/
def State.event (s : State) (b : Beat) : State := { s with eventWait := s.eventWait ++ [b] }

/-- Event records of kinds 1, 2, 3 and 6 (R268). -/
def eventBeat (s : State) (kind code tag block elem off pc : Nat) : Beat :=
  beatOf [(0, kind), (8, code % 256), (16, tag % 2 ^ 16), (32, block % 2 ^ 16), (48, elem % 2 ^ 16),
    (64, off % 2 ^ 64), (128, s.cycle % 2 ^ 64), (192, pc % 4096)]

end Sys2Proof.Machine
end

