-- ==== Sys2Proof/Machine/Operands.lean ====
section
/-! DEFINITION. Operand forms: the register banks with their hard-wired members, the guard, lanes of a vector register, broadcast operands, and the shape shared by the words of a context. -/

namespace Sys2Proof.Machine

/-! Register banks (R18): s0 reads 0, k0 reads all ones, writes to them are discarded -/

def Ctx.gs (x : Ctx) (r : SReg) : Word := if r = 0 then 0 else x.s.get r
/-- The marks left once the register with this operand byte is written whole: its stored data are good again (R346, log 23). -/
def Ctx.mended (x : Ctx) (b : Nat) : List Nat := x.bad.filter fun d => d != b

/-- Write an s register. One that awaited an arrival's phase awaits it no longer: this word is the later one (R107). -/
def Ctx.ss (x : Ctx) (r : SReg) (v : Word) : Ctx :=
  if r = 0 then x else { x with s := x.s.set r.val v r.isLt, bad := x.mended r.val, locks := x.locks.filter (· ≠ r) }
def Ctx.gv (x : Ctx) (r : VReg) : Beat := x.v.get r
def Ctx.sv (x : Ctx) (r : VReg) (v : Beat) : Ctx := { x with v := x.v.set r.val v r.isLt, bad := x.mended (0x40 + r.val) }
def Ctx.gk (x : Ctx) (r : KReg) : Word := if r = 0 then BitVec.allOnes 64 else x.k.get r
def Ctx.sk (x : Ctx) (r : KReg) (v : Word) : Ctx :=
  if r = 0 then x else { x with k := x.k.set r.val v r.isLt, bad := x.mended (0xC0 + r.val) }
def Ctx.gc (x : Ctx) (r : CReg) : CapV := x.c.get r
def Ctx.sc (x : Ctx) (r : CReg) (v : CapV) : Ctx := { x with c := x.c.set r.val v r.isLt, bad := x.mended (0x80 + r.val) }
/-- A register that was written in part keeps its mark (R346, log 23). -/
def Ctx.keepMarks (y x : Ctx) (whole : Bool) : Ctx := { y with bad := if whole then y.bad else x.bad }

/-- Register `r + i` of a run of s registers (R198). -/
def Ctx.gsAt (x : Ctx) (r : SReg) (i : Nat) : Word :=
  if h : r.val + i < 32 then x.gs ⟨r.val + i, h⟩ else 0
/-- Register `r + i` of a run of v registers (R149, R151). -/
def Ctx.gvAt (x : Ctx) (r : VReg) (i : Nat) : Beat :=
  if h : r.val + i < 32 then x.gv ⟨r.val + i, h⟩ else 0
def Ctx.svAt (x : Ctx) (r : VReg) (i : Nat) (b : Beat) : Ctx :=
  if h : r.val + i < 32 then x.sv ⟨r.val + i, h⟩ b else x

/-- sext64(IMM32) (R108). -/
def immS (i : BitVec 32) : Word := i.signExtend 64

/-! The guard (R62) -/

def Ctx.guard (x : Ctx) (g : Guard) : Word :=
  let v := x.gk g.k
  if g.neg then ~~~v else v

/-- Bit 0 of the guard: whether a word that is not lane-wise executes. -/
def Ctx.guard0 (x : Ctx) (g : Guard) : Bool := (x.guard g).getLsbD 0

/-- Whether result lane i of type t is unmasked: bit i, or bit i div 2 where there are 128 lanes. -/
def Ctx.laneOn (x : Ctx) (g : Guard) (t : Ty) (i : Nat) : Bool :=
  (x.guard g).getLsbD (if t.lanes == 128 then i / 2 else i)

/-- No lane of type t is masked. -/
def Ctx.allOn (x : Ctx) (g : Guard) (t : Ty) : Bool := (List.range t.lanes).all (x.laneOn g t)

/-! Lanes (R139) -/

/-- Lane i of a beat, as a number. -/
def laneGet (t : Ty) (b : Beat) (i : Nat) : Nat := b.toNat / 2 ^ (t.width * i) % 2 ^ t.width

def lanesOf (t : Ty) (b : Beat) : List Nat := (List.range t.lanes).map (laneGet t b)

/-- The beat of lanes of a given width, lane 0 lowest. -/
def packGo (w : Nat) : List Nat → Nat
  | [] => 0
  | l :: ls => l % 2 ^ w + 2 ^ w * packGo w ls

def lanesBeat (t : Ty) (ls : List Nat) : Beat := BitVec.ofNat 512 (packGo t.width ls)

/-- A vector operand: a v register, or an s register's low bits in every lane (R65). -/
def Ctx.operand (x : Ctx) (t : Ty) : SV → Beat
  | .v r => x.gv r
  | .s r => lanesBeat t (List.replicate t.lanes (x.gs r).toNat)

/-- Lanes written under the guard: a masked lane keeps its old contents (R62). -/
def Ctx.merge (x : Ctx) (g : Guard) (t : Ty) (old : Beat) (new : List Nat) : Beat :=
  lanesBeat t ((new.zip (List.range t.lanes)).map fun p => if x.laneOn g t p.2 then p.1 else laneGet t old p.2)

/-! Words of a context -/

/-- A word whose guard's bit 0 decides whether it executes (R62); with a false guard it completes with no effect, and counts in ISSUE like any word that completes: R31 counts the words completed, and R62 does not say whether that is an effect (DESIGN CHOICE, log 73). -/
def runWord (g : Guard) (s : State) (f : CtxRef → Ctx → Out) : Out :=
  match s.ctx? s.cur with
  | none => .fault .noContext
  | some x => if x.guard0 g then f s.cur x else .next (s.finish s.cur x)

/-- A guarded word that changes its own context and completes. -/
def pureWord (g : Guard) (s : State) (f : Ctx → Ctx) : Out :=
  runWord g s fun r x => .next (s.finish r (f x))

/-- A word that is never guarded, or whose guard acts on lanes. -/
def openWord (s : State) (f : CtxRef → Ctx → Out) : Out :=
  match s.ctx? s.cur with
  | none => .fault .noContext
  | some x => f s.cur x

/-- An unguarded word that changes its own context and completes. -/
def openPure (s : State) (f : Ctx → Ctx) : Out := openWord s fun r x => .next (s.finish r (f x))

/-- sD ← f(a, b), register form. -/
def aluSSS (o : SSSOps) (s : State) (f : Word → Word → Word) : Out :=
  pureWord o.g s fun x => x.ss o.d (f (x.gs o.a) (x.gs o.b))

/-- sD ← f(a, b), immediate form (R108). -/
def aluSSI (o : SSIOps) (s : State) (f : Word → Word → Word) : Out :=
  pureWord o.g s fun x => x.ss o.d (f (x.gs o.a) (immS o.imm))

/-- kD ← all ones or 0 (R110). -/
def cmpWord (b : Bool) : Word := if b then BitVec.allOnes 64 else 0

end Sys2Proof.Machine
end

