-- ==== Sys2Proof/Machine/Reads.lean ====
section
/-! DEFINITION. What a word reads: its guard, and the registers it takes as sources, by operand byte (R62, R64, R106, R140, R346). -/

namespace Sys2Proof

/-! Operand bytes (R64); s0 and k0 hold no data -/

def rS (r : SReg) : List Nat := if r = 0 then [] else [r.val]
def rV (r : VReg) : List Nat := [0x40 + r.val]
def rC (r : CReg) : List Nat := [0x80 + r.val]
def rK (r : KReg) : List Nat := if r = 0 then [] else [0xC0 + r.val]
/-- A run of n s registers (R198). -/
def rSRun (r : SReg) (n : Nat) : List Nat := (List.range n).flatMap fun i => if r.val + i = 0 then [] else [r.val + i]
/-- A run of n v registers (R149, R151). -/
def rVRun (r : VReg) (n : Nat) : List Nat := (List.range n).map fun i => 0x40 + r.val + i

def SV.reads : SV → List Nat
  | .s r => rS r
  | .v r => rV r
def SVC.reads : SVC → List Nat
  | .s r => rS r
  | .v r => rV r
  | .c r => rC r
def CS.reads : CS → List Nat
  | .c r => rC r
  | .s r => rS r
def MovOp.reads : MovOp → List Nat
  | .ss _ a => rS a
  | .sl _ a => [0xCC + a.val]
  | .ls _ a => rS a
  | .vv _ a => rV a
  | .cc _ a => rC a

/-- The registers that hold a guard. -/
def Guard.reads (g : Guard) : List Nat := rK g.k

/-- Guard and source registers of a word; a device step has neither. -/
def Instr.uses : Instr → Guard × List Nat
  | .add o | .sub o | .mul o | .mulh o | .mulhN o | .mulhSn o | .div o | .divN o | .rem o | .remN o
  | .and_ o | .or_ o | .xor o | .andn o | .shl o | .shr o | .sra o | .rot o
  | .min o | .minN o | .max o | .maxN o | .bfx o | .bfxI o => (o.g, rS o.a ++ rS o.b)
  | .addImm o | .subImm o | .mulImm o | .mulhImm o | .mulhNImm o | .mulhSnImm o | .divImm o | .divNImm o | .remImm o | .remNImm o
  | .andImm o | .orImm o | .xorImm o | .andnImm o | .shlImm o | .shrImm o | .sraImm o | .rotImm o
  | .minImm o | .minNImm o | .maxImm o | .maxNImm o => (o.g, rS o.a)
  | .cmpEq o | .cmpNe o | .cmpLt o | .cmpLe o | .cmpLtN o | .cmpLeN o => (o.g, rS o.a ++ rS o.b)
  | .cmpEqImm o | .cmpNeImm o | .cmpLtImm o | .cmpLeImm o | .cmpLtNImm o | .cmpLeNImm o => (o.g, rS o.a)
  | .sel o => (o.g, rS o.a ++ rS o.b ++ rK o.k)
  | .clz o | .ctz o | .popc o | .extI8 o | .extN8 o | .extI16 o | .extN16 o | .extI32 o | .extN32 o => (o.g, rS o.a)
  | .bfi o => (o.g, rS o.a ++ rS o.b ++ rS o.c)
  | .li o => (o.g, [])
  | .lih o => (o.g, rS o.d)
  | .mov o => (o.g, o.op.reads)
  | .kand o | .kor o | .kxor o | .kandn o => (o.g, rK o.a ++ rK o.b)
  | .knot o => (o.g, rK o.a)
  | .kmovKToS o | .kpopc o | .kfirst o => (o.g, rK o.a)
  | .kmovSToK o => (o.g, rS o.a)
  | .cnarrow o => (o.g, rC o.a ++ rS o.b ++ rS o.c)
  | .cperm o => (o.g, rC o.a ++ rS o.b)
  | .cget o => (o.g, rC o.a)
  | .cld o => (o.g, rC o.a ++ rS o.b)
  | .cst o => (o.g, rC o.a ++ rS o.b ++ rC o.c)
  | .loop o => ({ neg := false, k := 0 }, rS o.d)
  | .lmask o => ({ neg := false, k := 0 }, rS o.m ++ [0xCC + o.lc.val] ++ (if o.sticky then rK o.d else []))
  | .trap o => (o.g, rS o.d)
  | .smovRead o => (o.g, [])
  | .smovWrite o => (o.g, rS o.d)
  | .ctxctlFreeze o | .ctxctlResume o | .ctxctlKill o | .ctxctlRestart o => (o.g, rS o.x)
  | .markRound o | .markCheckpoint o | .markCut o => (o.g, [])
  | .tsamp o => (o.g, [])
  | .brkpt o => (o.g, [])
  | .brkptArmed o => (o.g, [])
  | .tlbinv o => (o.g, if o.all then [] else rS o.d ++ rS o.x)
  | .post o => (o.g, rV o.d)
  | .vadd o | .vsub o | .vmul o => (o.g, rV o.a ++ o.b.reads)
  | .vfma o => (o.g, rV o.a ++ o.b.reads ++ rV o.c)
  | .vmin o | .vmax o => (o.g, rV o.a ++ o.b.reads)
  | .vabs o | .vneg o => (o.g, rV o.a)
  | .vdiv o => (o.g, rV o.a ++ o.b.reads)
  | .vsqrt o | .vexp2 o | .vlog2 o => (o.g, rV o.a)
  | .vcmpEq o | .vcmpNe o | .vcmpLt o | .vcmpLe o | .vcmpUn o => (o.g, rV o.a ++ o.b.reads)
  | .vsel o => (o.g, rV o.a ++ o.b.reads ++ rK o.k)
  | .vand o | .vor o | .vxor o | .vandn o | .vshl o | .vshr o | .vsra o | .vperm o => (o.g, rV o.a ++ o.b.reads)
  | .vcvt o | .vrnd o => (o.g, rV o.a)
  | .vcvtChannel o => (o.g, [])
  | .vscale o => (o.g, rV o.a ++ rS o.b)
  | .vpack o => (o.g, rV o.a ++ (match o.b with | some b => b.reads | none => []))
  | .vunpack o => (o.g, rV o.a)
  | .vbsc o => (o.g, rVRun o.a (if o.src32 then 4 else 2))
  | .vbsx o => (o.g, rV o.a ++ rS o.b)
  | .vhad o => (o.g, rVRun o.a (hadSpan o.ty o.size.val))
  | .vredAdd o | .vredMin o | .vredMax o => (o.g, rV o.a)
  | .vbcst o => (o.g, rS o.a)
  | .vins o => (o.g, rS o.a ++ rS o.b)
  | .vext o => (o.g, rV o.a ++ rS o.b)
  | .vsort o => (o.g, rV o.a)
  | .vhist o => (o.g, rV o.a ++ rS o.b)
  | .vsdc o => (o.g, rV o.a)
  | .vsdcChannel o => (o.g, [])
  | .vsdadd o => (o.g, rV o.a ++ o.b.reads)
  | .vsdcmp o => (o.g, rV o.a ++ o.b.reads ++ rS o.c)
  | .vclass o => (o.g, rV o.a)
  | .vdot o => (o.g, rV o.a ++ o.b.reads ++ rV o.c)
  | .mbld o | .mbldDiag o | .mbsp o => (o.g, [])
  | .mrow o => (o.g, [])
  | .mroww o | .mrowwSp o => (o.g, [])
  | .mzero o => (o.g, [])
  | .mout o => (o.g, [])
  | .mscaleWindow o => (o.g, [])
  | .mscaleCode o => (o.g, [])
  | .mbias o => (o.g, [])
  | .mrd o => (o.g, [])
  | .mwr o => (o.g, [])
  | .mslot o => (o.g, [])
  | .wfill o => (o.g, o.d.reads)
  | .wread o => (o.g, rS o.a)
  | .wupd o => (o.g, o.d.reads ++ rS o.a)
  | .wshrink o => (o.g, rS o.a)
  | .wstat o => (o.g, [])
  | .wsave o => (o.g, rC o.d ++ rS o.a)
  | .wrest o => (o.g, rC o.d ++ rS o.a)
  | .recv o => (o.g, [])
  | .peek o => (o.g, rS o.a)
  | .send o => (o.g, o.d.reads)
  | .vcset o => (o.g, rS o.d)
  | .barInit o => (o.g, rS o.d)
  | .barArrive o | .barAw o => (o.g, [])
  | .barWait o => (o.g, rS o.d)
  | .barRemote o => (o.g, rS o.d)
  | .mld o => (o.g, rC o.cap ++ rS o.a)
  | .mst o => (o.g, rC o.cap ++ o.d.reads ++ rS o.a)
  | .mwrt o => (o.g, rC o.cap ++ rS o.d ++ rS o.a)
  | .mreq o => (o.g, rC o.a ++ rS o.b ++ rS o.c)
  | .wreq o => (o.g, rS o.a ++ rS o.b ++ rS o.c)
  | .fenceRegion o | .fenceDevice o | .fenceSystem o => (o.g, [])
  | .ctok o => (o.g, [])
  | .cpy o => (o.g, rC o.a ++ o.b.reads ++ rSRun o.c 4)
  | .cpyq o => (o.g, rC o.a ++ rC o.b ++ rSRun o.c 5)
  | .gth o | .sct o => (o.g, rC o.a ++ rC o.b ++ rSRun o.c 4)
  | .aadd o | .amin o | .amax o | .aand o | .aor o | .axor o | .axchg o => (o.g, rC o.a ++ rS o.b ++ rS o.c)
  | .aaddF o | .aminF o | .amaxF o | .aandF o | .aorF o | .axorF o | .axchgF o => (o.g, rC o.a ++ rS o.b ++ rS o.c)
  | .acas o => (o.g, rC o.a ++ rS o.b ++ rSRun o.c 2)
  | .acasQ o => (o.g, rC o.a ++ rS o.b ++ rV o.c)
  | .plq o | .plvec o | .plfuseLin o | .plfuseRrf o => (o.g, rS o.a ++ rS o.b)
  | .plterm o => (o.g, rS o.a ++ rC o.b)
  | .plrunOr o | .plrunAnd o | .plrunWand o => (o.g, rS o.a ++ rS o.b)
  | .plabort o => (o.g, rS o.a)
  | .plresume o => (o.g, rS o.a)
  | .pins o => (o.g, rS o.a ++ rS o.b)
  | .ptake o | .ptry o => (o.g, [])
  | .pstat o => (o.g, [])
  | .pcfg o => (o.g, rS o.a ++ rS o.b)
  | .xfill o | .xred o => (o.g, rC o.a ++ rS o.b ++ rSRun o.c 2)
  | .xbar o => (o.g, rS o.a)
  | _ => ({ neg := false, k := 0 }, [])

/-- A word whose guard acts on its lanes and not on whether it executes (R62). -/
def Instr.laneWise : Instr → Bool
  | .vadd _ | .vsub _ | .vmul _ | .vfma _ | .vmin _ | .vmax _ | .vabs _ | .vneg _ | .vdiv _ | .vsqrt _ | .vexp2 _ | .vlog2 _
  | .vcmpEq _ | .vcmpNe _ | .vcmpLt _ | .vcmpLe _ | .vcmpUn _ | .vsel _ | .vand _ | .vor _ | .vxor _ | .vandn _ | .vshl _ | .vshr _ | .vsra _
  | .vcvt _ | .vcvtChannel _ | .vrnd _ | .vscale _ | .vpack _ | .vunpack _ | .vbsc _ | .vbsx _ | .vhad _
  | .vredAdd _ | .vredMin _ | .vredMax _ | .vperm _ | .vbcst _ | .vins _ | .vsort _ | .vhist _
  | .vsdc _ | .vsdcChannel _ | .vsdadd _ | .vsdcmp _ | .vclass _ | .vdot _ => true
  | _ => false

/-- A supervisor-only word; an smov of a register whose access is S is told by its number (R28, R68). -/
def Instr.supOnly : Instr → Bool
  | .mslot _ | .pcfg _ | .ctxctlFreeze _ | .ctxctlResume _ | .ctxctlKill _ | .ctxctlRestart _
  | .markRound _ | .markCheckpoint _ | .markCut _ | .tlbinv _ => true
  | _ => false

end Sys2Proof
end

