-- ==== Sys2Proof/Machine/Flags.lean ====
section
/-! DEFINITION. FPFLAGS and the stochastic sources: what an instruction's unmasked lanes raise, and how a counter advances (R30, R42, R49). -/

namespace Sys2Proof

/-- Whether a mode draws. -/
def RM.stochastic : RM → Bool
  | .sa | .sb => true
  | _ => false

end Sys2Proof

namespace Sys2Proof.Machine

/-- OR the flags of the unmasked lanes into FPFLAGS; FLAGSET counts an instruction that raised any (R30, R31). -/
def Ctx.raise (x : Ctx) (f : Flags) : Ctx :=
  if f = 0 then x else { (x.count 0x0A 1) with flags := x.flags ||| f }

/-- The flags of the lanes the guard leaves unmasked. -/
def Ctx.laneFlags (x : Ctx) (g : Guard) (t : Ty) (fs : List Flags) : Flags :=
  ((fs.zip (List.range fs.length)).filter fun p => x.laneOn g t p.2).foldl (fun a p => a ||| p.1) 0

/-- Seed and counter of the source a mode draws from. -/
def Ctx.source (x : Ctx) (rm : RM) : SRGen := if rm = .sb then x.srb else x.sra

/-- Advance the counter of a stochastic mode by n (R42); SRDRAW counts it. -/
def Ctx.drew (x : Ctx) (rm : RM) (n : Nat) : Ctx :=
  match rm with
  | .sa => { (x.count 0x09 n) with sra := { x.sra with ctr := x.sra.ctr + BitVec.ofNat 64 n } }
  | .sb => { (x.count 0x09 n) with srb := { x.srb with ctr := x.srb.ctr + BitVec.ofNat 64 n } }
  | _ => x

/-- How lane i rounds: its mode, its draw and SAT (R40, R41). -/
def Ctx.rnd (x : Ctx) (rm : RM) (sat : Bool) (i : Nat) : Rnd :=
  { rm := rm, sat := sat,
    u := if rm.stochastic then draw (x.source rm).seed (x.source rm).ctr i else 0 }

/-- A vector instruction's result lanes with their flags: written under the guard, flags ORed, counter advanced (R30, R42, R62). -/
def Ctx.writeLanes (x : Ctx) (g : Guard) (t : Ty) (rm : RM) (d : VReg) (ls : List (Nat × Flags)) : Ctx :=
  let new := x.merge g t (x.gv d) (ls.map Prod.fst)
  let fl := x.laneFlags g t (ls.map Prod.snd)
  (((x.sv d new).keepMarks x (x.allOn g t)).raise fl).drew rm 1

/-- The same for a word that leaves some lanes of vD as they were. -/
def Ctx.writePart (x : Ctx) (g : Guard) (t : Ty) (rm : RM) (d : VReg) (ls : List (Nat × Flags)) : Ctx :=
  (x.writeLanes g t rm d ls).keepMarks x false

end Sys2Proof.Machine
end

