-- ==== Sys2Proof/Machine/Scalar.lean ====
section
/-! DEFINITION. Scalar, predicate and capability words that act on their own context, hardware loops, nop and trap (spec file 05). -/

namespace Sys2Proof.Machine

/-- floor(p / 2^64) of an exact product (R108). -/
def mulHigh (p : Int) : Word := BitVec.ofInt 64 (p / 2 ^ 64)

/-- The quotient of R109, signed. -/
def divS (a b : Word) : Word :=
  if b = 0 then BitVec.allOnes 64 else BitVec.ofInt 64 (a.toInt.tdiv b.toInt)
/-- The quotient of R109, natural. -/
def divN (a b : Word) : Word :=
  if b = 0 then BitVec.allOnes 64 else BitVec.ofNat 64 (a.toNat / b.toNat)
/-- The remainder of R109, signed: the sign of the dividend. -/
def remS (a b : Word) : Word :=
  if b = 0 then a else BitVec.ofInt 64 (a.toInt.tmod b.toInt)
/-- The remainder of R109, natural. -/
def remN (a b : Word) : Word :=
  if b = 0 then a else BitVec.ofNat 64 (a.toNat % b.toNat)

/-- Index of the lowest one among n bits from i on, or i + n. -/
def lowBit : Nat → Nat → Word → Nat
  | 0, i, _ => i
  | n + 1, i, a => if a.getLsbD i then i else lowBit n (i + 1) a

/-- Position and width of a field (R113); a width above 64 is 64. -/
def fieldPos (b : Word) : Nat × Nat := (b.toNat % 64, min 64 (b.toNat / 2 ^ 8 % 2 ^ 7))

def bfx (a b : Word) : Word :=
  let (l, w) := fieldPos b
  BitVec.ofNat 64 (a.toNat / 2 ^ l % 2 ^ w)

def bfxI (a b : Word) : Word :=
  let (l, w) := fieldPos b
  if w = 0 then 0
  else
    let h := min (l + w) 64 - l
    BitVec.ofInt 64 (toSigned h (a.toNat / 2 ^ l % 2 ^ w))

def bfi (a b c : Word) : Word :=
  let (l, w) := fieldPos b
  let m := BitVec.ofNat 64 ((2 ^ w - 1) * 2 ^ l)
  (c &&& ~~~m) ||| (BitVec.ofNat 64 (a.toNat * 2 ^ l) &&& m)

/-- The class pairs of mov (R115). -/
def Ctx.mov (x : Ctx) : MovOp → Ctx
  | .ss d a => x.ss d (x.gs a)
  | .sl d a => x.ss d ((x.lc.get a).setWidth 64)
  | .ls d a => { x with lc := x.lc.set d.val ((x.gs a).setWidth 32) d.isLt, bad := x.mended (0xCC + d.val) }
  | .vv d a => x.sv d (x.gv a)
  | .cc d a => x.sc d (x.gc a)

/-- The first two checks of a capability operand (R118): the code it traps with. -/
def capCheck (c : CapV) : Option Nat :=
  if !c.tag then some tCAP_TAG else if c.reservedUse then some tCAP_SPACE else none

/-- A mask that leaves a capability's permission byte with these bits, bit 111 cleared (R120). -/
def permMask (p : BitVec 8) : BitVec 128 :=
  BitVec.allOnes 16 ++ ((p &&& 0x7F) ++ BitVec.allOnes 104)

/-- The fields of cget (R121). -/
def capField (c : CapV) (sel : Nat) : Word :=
  match sel with
  | 0 => c.val.extractLsb' 0 64
  | 1 => BitVec.ofNat 64 c.length
  | 2 => c.perm.setWidth 64
  | 3 => BitVec.ofNat 64 c.space
  | 4 => BitVec.ofNat 64 c.asid
  | 5 => if c.tag then 1 else 0
  | 6 => c.val.extractLsb' 0 64
  | _ => c.val.extractLsb' 64 64

/-- wrap64(a + b); register form (R108). -/
def execAdd (o : SSSOps) (s : State) : Out := aluSSS o s fun a b => a + b

/-- wrap64(a + b); immediate form (R108). -/
def execAddImm (o : SSIOps) (s : State) : Out := aluSSI o s fun a b => a + b

/-- wrap64(a − b); register form (R108). -/
def execSub (o : SSSOps) (s : State) : Out := aluSSS o s fun a b => a - b

/-- wrap64(a − b); immediate form (R108). -/
def execSubImm (o : SSIOps) (s : State) : Out := aluSSI o s fun a b => a - b

/-- wrap64(a × b); register form (R108). -/
def execMul (o : SSSOps) (s : State) : Out := aluSSS o s fun a b => a * b

/-- wrap64(a × b); immediate form (R108). -/
def execMulImm (o : SSIOps) (s : State) : Out := aluSSI o s fun a b => a * b

/-- high half, both signed; register form (R108). -/
def execMulh (o : SSSOps) (s : State) : Out := aluSSS o s fun a b => mulHigh (a.toInt * b.toInt)

/-- high half, both signed; immediate form (R108). -/
def execMulhImm (o : SSIOps) (s : State) : Out := aluSSI o s fun a b => mulHigh (a.toInt * b.toInt)

/-- high half, both natural; register form (R108). -/
def execMulhN (o : SSSOps) (s : State) : Out := aluSSS o s fun a b => mulHigh ((a.toNat * b.toNat : Nat) : Int)

/-- high half, both natural; immediate form (R108). -/
def execMulhNImm (o : SSIOps) (s : State) : Out := aluSSI o s fun a b => mulHigh ((a.toNat * b.toNat : Nat) : Int)

/-- high half, a signed and b natural; register form (R108). -/
def execMulhSn (o : SSSOps) (s : State) : Out := aluSSS o s fun a b => mulHigh (a.toInt * (b.toNat : Int))

/-- high half, a signed and b natural; immediate form (R108). -/
def execMulhSnImm (o : SSIOps) (s : State) : Out := aluSSI o s fun a b => mulHigh (a.toInt * (b.toNat : Int))

/-- signed quotient (R109); register form (R108). -/
def execDiv (o : SSSOps) (s : State) : Out := aluSSS o s fun a b => divS a b

/-- signed quotient (R109); immediate form (R108). -/
def execDivImm (o : SSIOps) (s : State) : Out := aluSSI o s fun a b => divS a b

/-- natural quotient (R109); register form (R108). -/
def execDivN (o : SSSOps) (s : State) : Out := aluSSS o s fun a b => divN a b

/-- natural quotient (R109); immediate form (R108). -/
def execDivNImm (o : SSIOps) (s : State) : Out := aluSSI o s fun a b => divN a b

/-- signed remainder (R109); register form (R108). -/
def execRem (o : SSSOps) (s : State) : Out := aluSSS o s fun a b => remS a b

/-- signed remainder (R109); immediate form (R108). -/
def execRemImm (o : SSIOps) (s : State) : Out := aluSSI o s fun a b => remS a b

/-- natural remainder (R109); register form (R108). -/
def execRemN (o : SSSOps) (s : State) : Out := aluSSS o s fun a b => remN a b

/-- natural remainder (R109); immediate form (R108). -/
def execRemNImm (o : SSIOps) (s : State) : Out := aluSSI o s fun a b => remN a b

/-- a and b; register form (R108). -/
def execAnd_ (o : SSSOps) (s : State) : Out := aluSSS o s fun a b => a &&& b

/-- a and b; immediate form (R108). -/
def execAndImm (o : SSIOps) (s : State) : Out := aluSSI o s fun a b => a &&& b

/-- a or b; register form (R108). -/
def execOr_ (o : SSSOps) (s : State) : Out := aluSSS o s fun a b => a ||| b

/-- a or b; immediate form (R108). -/
def execOrImm (o : SSIOps) (s : State) : Out := aluSSI o s fun a b => a ||| b

/-- a xor b; register form (R108). -/
def execXor (o : SSSOps) (s : State) : Out := aluSSS o s fun a b => a ^^^ b

/-- a xor b; immediate form (R108). -/
def execXorImm (o : SSIOps) (s : State) : Out := aluSSI o s fun a b => a ^^^ b

/-- a and not b; register form (R108). -/
def execAndn (o : SSSOps) (s : State) : Out := aluSSS o s fun a b => a &&& ~~~b

/-- a and not b; immediate form (R108). -/
def execAndnImm (o : SSIOps) (s : State) : Out := aluSSI o s fun a b => a &&& ~~~b

/-- shift left by b mod 64; register form (R108). -/
def execShl (o : SSSOps) (s : State) : Out := aluSSS o s fun a b => a <<< (b.toNat % 64)

/-- shift left by b mod 64; immediate form (R108). -/
def execShlImm (o : SSIOps) (s : State) : Out := aluSSI o s fun a b => a <<< (b.toNat % 64)

/-- logical shift right; register form (R108). -/
def execShr (o : SSSOps) (s : State) : Out := aluSSS o s fun a b => a >>> (b.toNat % 64)

/-- logical shift right; immediate form (R108). -/
def execShrImm (o : SSIOps) (s : State) : Out := aluSSI o s fun a b => a >>> (b.toNat % 64)

/-- arithmetic shift right; register form (R108). -/
def execSra (o : SSSOps) (s : State) : Out := aluSSS o s fun a b => a.sshiftRight (b.toNat % 64)

/-- arithmetic shift right; immediate form (R108). -/
def execSraImm (o : SSIOps) (s : State) : Out := aluSSI o s fun a b => a.sshiftRight (b.toNat % 64)

/-- rotate left; register form (R108). -/
def execRot (o : SSSOps) (s : State) : Out := aluSSS o s fun a b => a.rotateLeft (b.toNat % 64)

/-- rotate left; immediate form (R108). -/
def execRotImm (o : SSIOps) (s : State) : Out := aluSSI o s fun a b => a.rotateLeft (b.toNat % 64)

/-- the smaller, signed; register form (R108). -/
def execMin (o : SSSOps) (s : State) : Out := aluSSS o s fun a b => if a.slt b then a else b

/-- the smaller, signed; immediate form (R108). -/
def execMinImm (o : SSIOps) (s : State) : Out := aluSSI o s fun a b => if a.slt b then a else b

/-- the smaller, natural; register form (R108). -/
def execMinN (o : SSSOps) (s : State) : Out := aluSSS o s fun a b => if a.ult b then a else b

/-- the smaller, natural; immediate form (R108). -/
def execMinNImm (o : SSIOps) (s : State) : Out := aluSSI o s fun a b => if a.ult b then a else b

/-- the larger, signed; register form (R108). -/
def execMax (o : SSSOps) (s : State) : Out := aluSSS o s fun a b => if a.slt b then b else a

/-- the larger, signed; immediate form (R108). -/
def execMaxImm (o : SSIOps) (s : State) : Out := aluSSI o s fun a b => if a.slt b then b else a

/-- the larger, natural; register form (R108). -/
def execMaxN (o : SSSOps) (s : State) : Out := aluSSS o s fun a b => if a.ult b then b else a

/-- the larger, natural; immediate form (R108). -/
def execMaxNImm (o : SSIOps) (s : State) : Out := aluSSI o s fun a b => if a.ult b then b else a

/-- kD ← a = b (R110). -/
def execCmpEq (o : KSSOps) (s : State) : Out := pureWord o.g s fun x => let a := x.gs o.a; let b := x.gs o.b; x.sk o.d (cmpWord (a == b))

/-- kD ← a = b; immediate form (R110). -/
def execCmpEqImm (o : KSIOps) (s : State) : Out := pureWord o.g s fun x => let a := x.gs o.a; let b := immS o.imm; x.sk o.d (cmpWord (a == b))

/-- kD ← a ≠ b (R110). -/
def execCmpNe (o : KSSOps) (s : State) : Out := pureWord o.g s fun x => let a := x.gs o.a; let b := x.gs o.b; x.sk o.d (cmpWord (a != b))

/-- kD ← a ≠ b; immediate form (R110). -/
def execCmpNeImm (o : KSIOps) (s : State) : Out := pureWord o.g s fun x => let a := x.gs o.a; let b := immS o.imm; x.sk o.d (cmpWord (a != b))

/-- kD ← a < b, signed (R110). -/
def execCmpLt (o : KSSOps) (s : State) : Out := pureWord o.g s fun x => let a := x.gs o.a; let b := x.gs o.b; x.sk o.d (cmpWord (a.slt b))

/-- kD ← a < b, signed; immediate form (R110). -/
def execCmpLtImm (o : KSIOps) (s : State) : Out := pureWord o.g s fun x => let a := x.gs o.a; let b := immS o.imm; x.sk o.d (cmpWord (a.slt b))

/-- kD ← a ≤ b, signed (R110). -/
def execCmpLe (o : KSSOps) (s : State) : Out := pureWord o.g s fun x => let a := x.gs o.a; let b := x.gs o.b; x.sk o.d (cmpWord (a.sle b))

/-- kD ← a ≤ b, signed; immediate form (R110). -/
def execCmpLeImm (o : KSIOps) (s : State) : Out := pureWord o.g s fun x => let a := x.gs o.a; let b := immS o.imm; x.sk o.d (cmpWord (a.sle b))

/-- kD ← a < b, natural (R110). -/
def execCmpLtN (o : KSSOps) (s : State) : Out := pureWord o.g s fun x => let a := x.gs o.a; let b := x.gs o.b; x.sk o.d (cmpWord (a.ult b))

/-- kD ← a < b, natural; immediate form (R110). -/
def execCmpLtNImm (o : KSIOps) (s : State) : Out := pureWord o.g s fun x => let a := x.gs o.a; let b := immS o.imm; x.sk o.d (cmpWord (a.ult b))

/-- kD ← a ≤ b, natural (R110). -/
def execCmpLeN (o : KSSOps) (s : State) : Out := pureWord o.g s fun x => let a := x.gs o.a; let b := x.gs o.b; x.sk o.d (cmpWord (a.ule b))

/-- kD ← a ≤ b, natural; immediate form (R110). -/
def execCmpLeNImm (o : KSIOps) (s : State) : Out := pureWord o.g s fun x => let a := x.gs o.a; let b := immS o.imm; x.sk o.d (cmpWord (a.ule b))

/-- sA when bit 0 of kC is 1, else sB (R111). -/
def execSel (o : SSSKOps) (s : State) : Out := pureWord o.g s fun x => x.ss o.d (if (x.gk o.k).getLsbD 0 then x.gs o.a else x.gs o.b)

/-- Count of leading zeros (R112). -/
def execClz (o : SSOps) (s : State) : Out := pureWord o.g s fun x => let a := x.gs o.a; x.ss o.d (BitVec.ofNat 64 (64 - bitLen a.toNat))

/-- Count of trailing zeros; 64 for 0 (R112). -/
def execCtz (o : SSOps) (s : State) : Out := pureWord o.g s fun x => let a := x.gs o.a; x.ss o.d (BitVec.ofNat 64 (lowBit 64 0 a))

/-- Count of ones (R112). -/
def execPopc (o : SSOps) (s : State) : Out := pureWord o.g s fun x => let a := x.gs o.a; x.ss o.d (BitVec.ofNat 64 (popBits 64 a.toNat))

/-- Sign extension of the low 8 bits (R112). -/
def execExtI8 (o : SSOps) (s : State) : Out := pureWord o.g s fun x => x.ss o.d (((x.gs o.a).setWidth 8).signExtend 64)

/-- Zero extension of the low 8 bits (R112). -/
def execExtN8 (o : SSOps) (s : State) : Out := pureWord o.g s fun x => x.ss o.d (((x.gs o.a).setWidth 8).setWidth 64)

/-- Sign extension of the low 16 bits (R112). -/
def execExtI16 (o : SSOps) (s : State) : Out := pureWord o.g s fun x => x.ss o.d (((x.gs o.a).setWidth 16).signExtend 64)

/-- Zero extension of the low 16 bits (R112). -/
def execExtN16 (o : SSOps) (s : State) : Out := pureWord o.g s fun x => x.ss o.d (((x.gs o.a).setWidth 16).setWidth 64)

/-- Sign extension of the low 32 bits (R112). -/
def execExtI32 (o : SSOps) (s : State) : Out := pureWord o.g s fun x => x.ss o.d (((x.gs o.a).setWidth 32).signExtend 64)

/-- Zero extension of the low 32 bits (R112). -/
def execExtN32 (o : SSOps) (s : State) : Out := pureWord o.g s fun x => x.ss o.d (((x.gs o.a).setWidth 32).setWidth 64)

/-- Field, zero-extended (R113). -/
def execBfx (o : SSSOps) (s : State) : Out := aluSSS o s fun a b => bfx a b

/-- Field, sign-extended (R113). -/
def execBfxI (o : SSSOps) (s : State) : Out := aluSSS o s fun a b => bfxI a b

/-- Insert a field (R113). -/
def execBfi (o : SSSSOps) (s : State) : Out := pureWord o.g s fun x => x.ss o.d (bfi (x.gs o.a) (x.gs o.b) (x.gs o.c))

/-- sext64(IMM32) (R114). -/
def execLi (o : SIOps) (s : State) : Out := pureWord o.g s fun x => x.ss o.d (immS o.imm)

/-- Bits [63:32] replaced (R114). -/
def execLih (o : SIOps) (s : State) : Out := pureWord o.g s fun x => x.ss o.d (o.imm ++ (x.gs o.d).setWidth 32)

/-- Copies between class pairs (R115). -/
def execMov (o : MovOps) (s : State) : Out := pureWord o.g s fun x => x.mov o.op

/-- Predicate logic, bit by bit (R116). -/
def execKand (o : KKKOps) (s : State) : Out := pureWord o.g s fun x => let a := x.gk o.a; let b := x.gk o.b; x.sk o.d (a &&& b)

/-- Predicate logic, bit by bit (R116). -/
def execKor (o : KKKOps) (s : State) : Out := pureWord o.g s fun x => let a := x.gk o.a; let b := x.gk o.b; x.sk o.d (a ||| b)

/-- Predicate logic, bit by bit (R116). -/
def execKxor (o : KKKOps) (s : State) : Out := pureWord o.g s fun x => let a := x.gk o.a; let b := x.gk o.b; x.sk o.d (a ^^^ b)

/-- Predicate logic, bit by bit (R116). -/
def execKandn (o : KKKOps) (s : State) : Out := pureWord o.g s fun x => let a := x.gk o.a; let b := x.gk o.b; x.sk o.d (a &&& ~~~b)

/-- not A (R116). -/
def execKnot (o : KKOps) (s : State) : Out := pureWord o.g s fun x => x.sk o.d (~~~(x.gk o.a))

/-- sD ← kA (R117). -/
def execKmovKToS (o : SKOps) (s : State) : Out := pureWord o.g s fun x => x.ss o.d (x.gk o.a)

/-- kD ← sA (R117). -/
def execKmovSToK (o : KSOps) (s : State) : Out := pureWord o.g s fun x => x.sk o.d (x.gs o.a)

/-- Ones of kA (R117). -/
def execKpopc (o : SKOps) (s : State) : Out := pureWord o.g s fun x => x.ss o.d (BitVec.ofNat 64 (popBits 64 (x.gk o.a).toNat))

/-- Index of the lowest one, or 64 (R117). -/
def execKfirst (o : SKOps) (s : State) : Out := pureWord o.g s fun x => x.ss o.d (BitVec.ofNat 64 (lowBit 64 0 (x.gk o.a)))

/-- Narrow to the sub-range at sB of length sC (R118, R119). -/
def execCnarrow (o : CCSSOps) (s : State) : Out := runWord o.g s fun r x =>
  let c := x.gc o.a
  let b := (x.gs o.b).toNat
  let l := (x.gs o.c).toNat
  match capCheck c with
  | some t => .next (s.trap r x t 0 0)
  | none =>
    if b + l > c.length then .next (s.trap r x tCAP_BOUNDS 0 0)
    else .next (s.finish r (x.sc o.d { c.narrow (BitVec.ofNat 64 (c.base + b)) l with tag := true }))

/-- Remove permissions (R118, R120). -/
def execCperm (o : CCSOps) (s : State) : Out := runWord o.g s fun r x =>
  let c := x.gc o.a
  match capCheck c with
  | some t => .next (s.trap r x t 0 0)
  | none => .next (s.finish r (x.sc o.d { c with val := c.val &&& permMask ((x.gs o.b).setWidth 8) }))

/-- Read a field, tagged or not (R121). -/
def execCget (o : CGetOps) (s : State) : Out := pureWord o.g s fun x => x.ss o.d (capField (x.gc o.a) o.sel.val)

/-- Start a hardware loop, or skip its body when the count is 0 (R124). -/
def execLoop (o : LoopOps) (s : State) : Out := openWord s fun r x =>
  let n : Nat := if o.d = 0 then o.count.toNat else (x.gs o.d).toNat
  if n > x.loopMax.toNat then .next (s.trap r x tLOOP_MAX (BitVec.ofNat 64 n) 0)
  else
    let x := ({ x with lc := x.lc.set o.lc.val 0, bad := x.mended (0xCC + o.lc.val) }).running.count 0x02 1
    let x := if n = 0 then { x with pc := o.stop + 1 }
      else { x with pc := x.pc + 1,
                    loops := x.loops.set o.lc.val { active := true, start := x.pc + 1, stop := o.stop, remaining := BitVec.ofNat 64 n } }
    .next ((s.setCtx r x).active r.rid)

/-- Loop mask (R126). -/
def execLmask (o : LMaskOps) (s : State) : Out := openPure s fun x =>
  let t := cmpWord ((x.lc.get o.lc).toNat < (x.gs o.m).toNat)
  x.sk o.d (if o.sticky then x.gk o.d &&& t else t)

/-- No effect (R128). -/
def execNop (s : State) : Out := openPure s id

/-- Traps SOFT with IMM32 and sD (R129). -/
def execTrap (o : TrapOps) (s : State) : Out := runWord o.g s fun r x => .next (s.trap r x tSOFT (o.imm.setWidth 64) (x.gs o.d))

end Sys2Proof.Machine
end

