-- ==== Sys2Proof/Machine/Vector.lean ====
section
/-! DEFINITION. Vector words that act on their own context (spec file 06). -/

namespace Sys2Proof

/-- Negation of an operand, exactly on the sign bit (R140). -/
def FV.negIf (v : FV) (n : Bool) : FV := if n then v.negate else v

end Sys2Proof

namespace Sys2Proof.Machine

/-- Lane numbers 0 to n − 1 with f applied. -/
def lanes (n : Nat) (f : Nat → Nat × Flags) : List (Nat × Flags) := (List.range n).map f

/-- A lane-wise word over two sources of the destination's type (R140, R143). -/
def vecBin (x : Ctx) (g : Guard) (t : Ty) (rm : RM) (sat : Bool) (d : VReg) (a b : Beat)
    (f : Rnd → FV → FV → Nat × Flags) (i : Int → Int → Int) : Ctx :=
  x.writeLanes g t rm d (lanes t.lanes fun l =>
    let p := laneGet t a l
    let q := laneGet t b l
    if t.isFloat then f (x.rnd rm sat l) (unpackF t p) (unpackF t q)
    else (t.isat sat (i (t.ival p) (t.ival q)), 0))

/-- The smaller or larger of two codes, exactly; −0 below +0; a NaN gives the canonical NaN (R143). -/
def minMaxF (t : Ty) (larger : Bool) (p q : Nat) : Nat × Flags :=
  let x := unpackF t p
  let y := unpackF t q
  if x.isNan || y.isNan then (t.nan, sigFlag [x, y])
  else
    let lt := cmpF true x y == .lt
    (if lt != larger then p else q, 0)

def minMaxI (larger : Bool) (a b : Int) : Int := if larger then max a b else min a b

def vecMinMax (x : Ctx) (o : VMinMaxOps) (larger : Bool) : Ctx :=
  let a := x.gv o.a
  let b := x.operand o.ty o.b
  x.writeLanes o.g o.ty o.rm o.d (lanes o.ty.lanes fun l =>
    let p := laneGet o.ty a l
    let q := laneGet o.ty b l
    if o.ty.isFloat then minMaxF o.ty larger p q
    else (o.ty.isat o.sat (minMaxI larger (o.ty.ival p) (o.ty.ival q)), 0))

/-- vabs and vneg: the sign bit of a float, the value of an integer; a signalling NaN raises NV (R45, R143). -/
def vecSign (x : Ctx) (o : VUnSOps) (neg : Bool) : Ctx :=
  let a := x.gv o.a
  let sign := 2 ^ (o.ty.width - 1)
  x.writeLanes o.g o.ty o.rm o.d (lanes o.ty.lanes fun l =>
    let p := laneGet o.ty a l
    if o.ty.isFloat then
      if (unpackF o.ty p).isNan then (o.ty.nan, sigFlag [unpackF o.ty p])
      else (if neg then (if p < sign then p + sign else p - sign) else p % sign, 0)
    else
      let i := o.ty.ival p
      (o.ty.isat o.sat (if neg then -i else (i.natAbs : Int)), 0))

/-- A float word of one source, correctly rounded (R144). -/
def vecUn (x : Ctx) (o : VUnOps) (f : Ty → Rnd → FV → Nat × Flags) : Ctx :=
  let a := x.gv o.a
  x.writeLanes o.g o.ty o.rm o.d (lanes o.ty.lanes fun l =>
    f o.ty (x.rnd o.rm false l) (unpackF o.ty (laneGet o.ty a l)))

/-- Bits of k: bit i from lane i under the guard, masked bits kept, bits from the lane count up 0 (R145). -/
def kBits (x : Ctx) (g : Guard) (t : Ty) (old : Word) (b : Nat → Bool) : Word :=
  BitVec.ofNat 64 (fields ((List.range t.lanes).map fun l =>
    (l, boolNat (if x.laneOn g t l then b l else old.getLsbD l))))

/-- A relation's answer on an ordering, or on a NaN: bit and whether any NaN raises NV. -/
structure Rel where
  int : Int → Int → Bool
  ord : Ordering → Bool
  nan : Bool
  quietNV : Bool

def vecCmp (x : Ctx) (o : VCmpOps) (rel : Rel) : Ctx :=
  let a := x.gv o.a
  let b := x.operand o.ty o.b
  let one (l : Nat) : Bool × Flags :=
    let p := laneGet o.ty a l
    let q := laneGet o.ty b l
    if o.ty.isFloat then
      let u := unpackF o.ty p
      let v := unpackF o.ty q
      if u.isNan || v.isNan then
        (rel.nan, if rel.quietNV || u.isSig || v.isSig then fNV else 0)
      else (rel.ord (cmpF false u v), 0)
    else (rel.int (o.ty.ival p) (o.ty.ival q), 0)
  let k := kBits x o.g o.ty (x.gk o.d) fun l => (one l).1
  let fl := x.laneFlags o.g o.ty ((List.range o.ty.lanes).map fun l => (one l).2)
  ((x.sk o.d k).keepMarks x (x.allOn o.g o.ty)).raise fl

/-- A word on raw lanes of two sources (R146). -/
def vecBits (x : Ctx) (o : VBitsOps) (f : Nat → Nat → Nat) : Ctx :=
  let a := x.gv o.a
  let b := x.operand o.ty o.b
  x.writeLanes o.g o.ty .rne o.d (lanes o.ty.lanes fun l => (f (laneGet o.ty a l) (laneGet o.ty b l), 0))

/-- Which element a destination lane takes, if it is written (R147). -/
def partSrc (ty sty : Ty) (part l : Nat) : Option Nat :=
  let ws := sty.width
  let wd := ty.width
  let n := 512 / max ws wd
  let l' : Option Nat := if wd < ws then (if part * n ≤ l && l < part * n + n then some (l - part * n) else none)
    else (if l < n then some l else none)
  l'.map fun i => if ws < wd then part * n + i else i

/-- The destination with the selected lanes replaced, under the guard; lanes not selected are unchanged. -/
def vecPart (x : Ctx) (g : Guard) (ty sty : Ty) (rm : RM) (part : Nat) (d : VReg) (src : Beat)
    (f : Nat → Nat → Nat × Flags) : Ctx :=
  let old := x.gv d
  let write := if ty.width < sty.width then x.writePart else x.writeLanes
  write g ty rm d (lanes ty.lanes fun l =>
    match partSrc ty sty part l with
    | some i => f l (laneGet sty src i)
    | none => (laneGet ty old l, 0))

/-- vcvt from a source beat (R147); shared with the channel form. -/
def Ctx.vcvt (x : Ctx) (g : Guard) (rm : RM) (ty sty : Ty) (sat : Bool) (part : Nat) (d : VReg) (src : Beat) : Ctx :=
  vecPart x g ty sty rm part d src fun l p => convert ty sty (x.rnd rm sat l) p

/-- vrnd of one element: rounded to an integer, then to the type under rne (R147). -/
def rndOne (ty sty : Ty) (r : Rnd) (p : Nat) : Nat × Flags :=
  if ty.isInt || ty == .i4 then convert ty sty r p
  else match valueOf sty p with
    | .fin n m e =>
      if m == 0 then convertScaled ty { r with rm := .rne } (.fin n 0 0) 0
      else
        let (k, inexact) := ({ neg := n, mant := m, exp := e } : Ex).roundAt 0 r.rm r.u
        let (c, f) := convertScaled ty { r with rm := .rne } (.fin n k 0) 0
        (c, f ||| (if inexact then fNX else 0))
    | v => convertScaled ty r v 0

/-- vscale of one element: the exact product rounded once; an integer source keeps the integer rule of R47. -/
def scaleOne (ty sty : Ty) (r : Rnd) (e : Int) (p : Nat) : Nat × Flags :=
  if (ty.isInt || ty == .i4) && (sty.isInt || sty == .i4) then
    let i := sty.ival p
    let (k, _) := ({ neg := i < 0, mant := i.natAbs, exp := e } : Ex).roundAt 0 r.rm r.u
    (ty.isat r.sat (if i < 0 then -(k : Int) else k), 0)
  else convertScaled ty r (valueOf sty p) e

/-- Element j of a packed beat of w-bit elements (R38). -/
def packedGet (w : Nat) (b : Beat) (j : Nat) : Nat := b.toNat / 2 ^ (w * j) % 2 ^ w

def Ctx.vpack (x : Ctx) (o : VPackOps) : Ctx :=
  let a := x.gv o.a
  match o.b with
  | some b =>
    let b := x.operand .n8 b
    x.writeLanes o.g o.ty .rne o.d (lanes 128 fun l =>
      (laneGet .n8 (if l < 64 then a else b) (l % 64) % 16, 0))
  | none =>
    let old := x.gv o.d
    (x.sv o.d (BitVec.ofNat 512 (packGo 6 ((List.range 64).map fun j =>
      if x.laneOn o.g o.ty j then laneGet .n8 a j % 64 else packedGet 6 old j)))).keepMarks x (x.allOn o.g o.ty)

def Ctx.vunpack (x : Ctx) (o : VUnpackOps) : Ctx :=
  let a := x.gv o.a
  x.writeLanes o.g .n8 .rne o.d (lanes 64 fun j =>
    match o.ty with
    | .i4 => (wrapNat 8 (toSigned 4 (packedGet 4 a (64 * boolNat o.half + j))), 0)
    | .e2m1 => (packedGet 4 a (64 * boolNat o.half + j), 0)
    | _ => (packedGet 6 a j, 0))

/-- Magnitude order of finite values: whether m × 2^e ≤ n × 2^f. -/
def leMag (m : Nat) (e : Int) (n : Nat) (f : Int) : Bool :=
  let b := min e f
  m * 2 ^ (e - b).toNat ≤ n * 2 ^ (f - b).toNat

/-- The e8m0 code of a block of 64 (R149). -/
def blockScale (ty : Ty) (xs : List FV) : Nat :=
  if xs.any FV.isNan then 0xFF
  else if xs.any (fun v => match v with | .inf _ => true | _ => false) then 254
  else
    let mx := xs.foldl (fun (a : Nat × Int) v => match v with
      | .fin _ m e => if leMag m e a.1 a.2 then a else (m, e)
      | _ => a) (0, 0)
    if mx.1 == 0 then 127
    else
      let (mm, me) : Nat × Int := if ty == .i8 then (127, 0) else
        match unpackF ty ty.maxCode with
        | .fin _ m e => (m, e)
        | _ => (1, 0)
      let t0 := ((bitLen mx.1 : Int) + mx.2) - ((bitLen mm : Int) + me)
      let t := if leMag mx.1 mx.2 mm (me + t0 - 1) then t0 - 1
        else if leMag mx.1 mx.2 mm (me + t0) then t0 else t0 + 1
      (max 0 (min 254 (t + 127))).toNat

/-- One element quantised under a block's code (R149). -/
def quantOne (ty : Ty) (r : Rnd) (e : Nat) (v : FV) : Nat × Flags :=
  if e == 0xFF then (ty.nan, 0) else convertScaled ty r v (127 - (e : Int))

/-- The 64 source values of vbsc. -/
def Ctx.blockSrc (x : Ctx) (a : VReg) (src32 : Bool) : List FV :=
  let t : Ty := if src32 then .f32 else .bf16
  (List.range 64).map fun i => unpackF t (laneGet t (x.gvAt a (i / t.lanes)) (i % t.lanes))

def Ctx.vbsc (x : Ctx) (o : VBscOps) : Ctx :=
  let xs := x.blockSrc o.a o.src32
  let e := blockScale o.ty xs
  let old := x.gv o.d
  let first := if o.half then 64 else 0
  let rs := lanes o.ty.lanes fun l =>
    if first ≤ l && l < first + 64 then
      quantOne o.ty (x.rnd o.rm o.sat (l - first)) e (xs.getD (l - first) (.fin false 0 0))
    else (laneGet o.ty old l, 0)
  let x := if o.ty.lanes == 128 then x.writePart o.g o.ty o.rm o.d rs else x.writeLanes o.g o.ty o.rm o.d rs
  let x := if e == 0xFF then x.raise fNV else x
  x.ss o.c (BitVec.ofNat 64 e)

def Ctx.vbsx (x : Ctx) (o : VBsxOps) : Ctx :=
  let a := x.gv o.a
  let e := (x.gs o.b).toNat % 256
  let n := o.dst.lanes
  x.writeLanes o.g o.dst o.rm o.d (lanes n fun l =>
    if e == 0xFF then (o.dst.nan, fNV)
    else
      let v := valueOf o.ty (laneGet o.ty a (o.part.val * n + l))
      convertScaled o.dst (x.rnd o.rm o.sat l) v ((e : Int) - 127))

/-- vhad over its range of registers (R151). -/
def Ctx.vhad (x : Ctx) (o : VHadOps) : Ctx :=
  let n := 8 * 2 ^ o.size.val
  let k := hadSpan o.ty o.size.val
  let src := (List.range k).map fun j => x.gvAt o.a j
  let el (i : Nat) : FV := unpackF o.ty (laneGet o.ty (src.getD (i / o.ty.lanes) 0) (i % o.ty.lanes))
  let out := (List.range k).map fun j => lanes o.ty.lanes fun l =>
    let i := j * o.ty.lanes + l
    let b := i / n * n
    hadOut o.ty (x.rnd o.rm false l) ((List.range n).map fun q => el (b + q)) (i - b)
  let y := (out.zip (List.range k)).foldl (fun (y : Ctx) p =>
    let new := x.merge o.g o.ty (x.gvAt o.d p.2) (p.1.map Prod.fst)
    y.svAt o.d p.2 new) x
  let fl := out.foldl (fun a ls => a ||| x.laneFlags o.g o.ty (ls.map Prod.snd)) 0
  ((y.keepMarks x (x.allOn o.g o.ty)).raise fl).drew o.rm 1

/-- One level of the tree of R56: pairs combined, node numbers from `k`. -/
def treeLevel (f : Nat → Nat → Nat → Nat × Flags) : Nat → List (Nat × Flags) → List (Nat × Flags)
  | k, a :: b :: ls =>
    let (c, fl) := f k a.1 b.1
    (c, a.2 ||| b.2 ||| fl) :: treeLevel f (k + 1) ls
  | _, ls => ls

/-- All levels, `n` of them. -/
def tree (f : Nat → Nat → Nat → Nat × Flags) : Nat → Nat → List (Nat × Flags) → Nat × Flags
  | 0, _, ls => ls.headD (0, 0)
  | n + 1, k, ls => tree f n (k + ls.length / 2) (treeLevel f k ls)

/-- vred (R56, R152): 0 add, 1 min, 2 max. -/
def Ctx.vred (x : Ctx) (o : VRedOps) (kind : Nat) : Ctx :=
  let a := x.gv o.a
  let t := o.ty
  let on (l : Nat) : Bool := (x.guard o.g).getLsbD l
  let idF : Nat := match kind with
    | 0 => 2 ^ (t.width - 1)
    | 1 => (infCode t {} false).1
    | _ => (infCode t {} true).1
  if t.isFloat then
    let ls := lanes t.lanes fun l => (if on l then laneGet t a l else idF, 0)
    let f (k p q : Nat) : Nat × Flags :=
      if kind == 0 then addF t (x.rnd o.rm o.sat k) (unpackF t p) (unpackF t q)
      else minMaxF t (kind == 2) p q
    let (v, fl) := tree f (Nat.log2 t.lanes) 0 ls
    ((x.ss o.d (BitVec.ofNat 64 v)).raise fl).drew o.rm 1
  else
    let vs := (List.range t.lanes).map fun l =>
      if on l then t.ival (laneGet t a l) else match kind with | 0 => 0 | 1 => t.imax | _ => t.imin
    let r : Int := match kind with
      | 0 => vs.foldl (· + ·) 0
      | 1 => vs.foldl min t.imax
      | _ => vs.foldl max t.imin
    let c := if kind == 0 then t.isat o.sat r else t.icode r
    x.ss o.d (BitVec.ofInt 64 (t.ival c))

/-- The key by which vsort orders a lane: integers by value, floats as in R51. -/
def sortKey (t : Ty) (p : Nat) : Int :=
  if t.isFloat then
    let h := 2 ^ (t.width - 1)
    if p < h then p + h else ((2 ^ t.width - 1 - p : Nat) : Int)
  else t.ival p

/-- Stable insertion of a lane behind its equals. -/
def sortInsert (lt : Nat → Nat → Bool) (p : Nat) : List Nat → List Nat
  | [] => [p]
  | q :: ls => if lt p q then p :: q :: ls else q :: sortInsert lt p ls

/-- Write sorted lanes into the unmasked lanes in ascending order (R154). -/
def sortFill (on : Nat → Bool) (old : Nat → Nat) : Nat → Nat → List Nat → List Nat
  | 0, _, _ => []
  | n + 1, l, vs =>
    if on l then vs.headD 0 :: sortFill on old n (l + 1) vs.tail
    else old l :: sortFill on old n (l + 1) vs

def Ctx.vsort (x : Ctx) (o : VSortOps) : Ctx :=
  let t := o.ty
  let a := x.gv o.a
  let on (l : Nat) := x.laneOn o.g t l
  let lt (p q : Nat) : Bool := if o.desc then sortKey t p > sortKey t q else sortKey t p < sortKey t q
  let vs := ((List.range t.lanes).filter on).foldl (fun acc l => sortInsert lt (laneGet t a l) acc) []
  (x.sv o.d (lanesBeat t (sortFill on (laneGet t (x.gv o.d)) t.lanes 0 vs))).keepMarks x (x.allOn o.g t)

/-- vsdc of a source beat (R156); shared with the channel form. -/
def Ctx.vsdc (x : Ctx) (g : Guard) (t : Ty) (half : Bool) (d : VReg) (src : Beat) : Ctx :=
  x.writeLanes g .sd .rne d (lanes 8 fun i => ((sdOf t (laneGet t src (8 * boolNat half + i))).toNat, 0))

/-- vsdcmp: the count sC is read as a natural number before its clamp to 1-32 (DEDUCED, log 53). -/
def Ctx.vsdcmp (x : Ctx) (o : VSdCmpOps) : Ctx :=
  let a := x.gv o.a
  let b := x.operand .sd o.b
  let j := max 1 (min 32 (x.gs o.c).toNat)
  let one (l : Nat) := sdCmp j (BitVec.ofNat 64 (laneGet .sd a l)) (BitVec.ofNat 64 (laneGet .sd b l))
  let d2 : KReg := o.d + 1
  let gt := kBits x o.g .sd (x.gk o.d) fun l => (one l).1 == .gt
  let un := kBits x o.g .sd (x.gk d2) fun l => (one l).1 == .eq
  let fl := x.laneFlags o.g .sd ((List.range 8).map fun l => (one l).2)
  (((x.sk o.d gt).sk d2 un).keepMarks x (x.allOn o.g .sd)).raise fl

/-- The class bits of a code (R159). -/
def classOf (t : Ty) (p : Nat) : Nat :=
  match unpackF t p with
  | .nan sig => if sig then 2 ^ 8 else 2 ^ 9
  | .inf n => if n then 1 else 2 ^ 7
  | .fin n m _ =>
    let normal := m ≥ 2 ^ t.ffmt.mb
    if m == 0 then (if n then 2 ^ 3 else 2 ^ 4)
    else if normal then (if n then 2 else 2 ^ 6)
    else (if n then 4 else 2 ^ 5)

def Ctx.vdot (x : Ctx) (o : VDotOps) : Ctx :=
  let a := x.gv o.a
  let b := x.operand o.ty o.b
  let c := x.gv o.c
  let sa : Ty := if o.sign == 1 then .n8 else .i8
  let sb : Ty := if o.sign == 0 then .i8 else .n8
  x.writeLanes o.g o.ty .rne o.d (lanes 16 fun l =>
    let p := (List.range 4).foldl (fun (acc : Int) m =>
      acc + sa.ival (laneGet sa a (4 * l + m)) * sb.ival (laneGet sb b (4 * l + m))) 0
    (o.ty.isat o.sat (o.ty.ival (laneGet o.ty c l) + p), 0))

/-- round(a + b) (R143). -/
def execVadd (o : VBinOps) (s : State) : Out := openPure s fun x => vecBin x o.g o.ty o.rm o.sat o.d (x.gv o.a) (x.operand o.ty o.b)
    (fun r p q => addF o.ty r (p.negIf o.negA) q) (· + ·)

/-- round(a − b) (R143). -/
def execVsub (o : VBinOps) (s : State) : Out := openPure s fun x => vecBin x o.g o.ty o.rm o.sat o.d (x.gv o.a) (x.operand o.ty o.b)
    (fun r p q => addF o.ty r (p.negIf o.negA) q.negate) (· - ·)

/-- round(a × b) (R143). -/
def execVmul (o : VBinOps) (s : State) : Out := openPure s fun x => vecBin x o.g o.ty o.rm o.sat o.d (x.gv o.a) (x.operand o.ty o.b)
    (fun r p q => fmaF o.ty r (p.negIf o.negA) q none) (· * ·)

/-- round(a × b + c), rounded once (R143). -/
def execVfma (o : VFmaOps) (s : State) : Out := openPure s fun x =>
  let a := x.gv o.a
  let b := x.operand o.ty o.b
  let c := x.gv o.c
  x.writeLanes o.g o.ty o.rm o.d (lanes o.ty.lanes fun l =>
    fmaF o.ty (x.rnd o.rm o.sat l) ((unpackF o.ty (laneGet o.ty a l)).negIf o.negA)
      (unpackF o.ty (laneGet o.ty b l)) (some ((unpackF o.ty (laneGet o.ty c l)).negIf o.negC)))

/-- The smaller operand, exactly (R143). -/
def execVmin (o : VMinMaxOps) (s : State) : Out := openPure s fun x => vecMinMax x o false

/-- The larger operand, exactly (R143). -/
def execVmax (o : VMinMaxOps) (s : State) : Out := openPure s fun x => vecMinMax x o true

/-- abs(a) (R143). -/
def execVabs (o : VUnSOps) (s : State) : Out := openPure s fun x => vecSign x o false

/-- −a (R143). -/
def execVneg (o : VUnSOps) (s : State) : Out := openPure s fun x => vecSign x o true

/-- round(a / b) (R144). -/
def execVdiv (o : VDivOps) (s : State) : Out := openPure s fun x =>
  let a := x.gv o.a
  let b := x.operand o.ty o.b
  x.writeLanes o.g o.ty o.rm o.d (lanes o.ty.lanes fun l =>
    divF o.ty (x.rnd o.rm false l) (unpackF o.ty (laneGet o.ty a l)) (unpackF o.ty (laneGet o.ty b l)))

/-- round(√a) (R144). -/
def execVsqrt (o : VUnOps) (s : State) : Out := openPure s fun x => vecUn x o sqrtF

/-- round(2^a) (R144). -/
def execVexp2 (o : VUnOps) (s : State) : Out := openPure s fun x => vecUn x o exp2F

/-- round(log2 a) (R144). -/
def execVlog2 (o : VUnOps) (s : State) : Out := openPure s fun x => vecUn x o log2F

/-- Lane comparison eq into kD (R145). -/
def execVcmpEq (o : VCmpOps) (s : State) : Out := openPure s fun x => vecCmp x o { int := fun a b => a == b, ord := fun c => c == .eq, nan := false, quietNV := false }

/-- Lane comparison ne into kD (R145). -/
def execVcmpNe (o : VCmpOps) (s : State) : Out := openPure s fun x => vecCmp x o { int := fun a b => a != b, ord := fun c => c != .eq, nan := true, quietNV := false }

/-- Lane comparison lt into kD (R145). -/
def execVcmpLt (o : VCmpOps) (s : State) : Out := openPure s fun x => vecCmp x o { int := fun a b => a < b, ord := fun c => c == .lt, nan := false, quietNV := true }

/-- Lane comparison le into kD (R145). -/
def execVcmpLe (o : VCmpOps) (s : State) : Out := openPure s fun x => vecCmp x o { int := fun a b => a ≤ b, ord := fun c => c != .gt, nan := false, quietNV := true }

/-- Lane comparison un into kD (R145). -/
def execVcmpUn (o : VCmpOps) (s : State) : Out := openPure s fun x => vecCmp x o { int := fun _ _ => false, ord := fun _ => false, nan := true, quietNV := false }

/-- a where kC has its bit, else b (R146). -/
def execVsel (o : VSelOps) (s : State) : Out := openPure s fun x =>
  let a := x.gv o.a
  let b := x.operand o.ty o.b
  let k := x.gk o.k
  x.writeLanes o.g o.ty .rne o.d (lanes o.ty.lanes fun l =>
    (laneGet o.ty (if k.getLsbD l then a else b) l, 0))

/-- Vector logic on raw bits (R146). -/
def execVand (o : VBitsOps) (s : State) : Out := openPure s fun x => vecBits x o (fun a b => a &&& b)

/-- Vector logic on raw bits (R146). -/
def execVor (o : VBitsOps) (s : State) : Out := openPure s fun x => vecBits x o (fun a b => a ||| b)

/-- Vector logic on raw bits (R146). -/
def execVxor (o : VBitsOps) (s : State) : Out := openPure s fun x => vecBits x o (fun a b => a ^^^ b)

/-- Vector logic on raw bits (R146). -/
def execVandn (o : VBitsOps) (s : State) : Out := openPure s fun x => vecBits x o (fun a b => a ^^^ (a &&& b))

/-- Vector shift by b mod w (R146). -/
def execVshl (o : VBitsOps) (s : State) : Out := openPure s fun x => vecBits x o (fun a b => a * 2 ^ (b % o.ty.width))

/-- Vector shift by b mod w (R146). -/
def execVshr (o : VBitsOps) (s : State) : Out := openPure s fun x => vecBits x o (fun a b => a / 2 ^ (b % o.ty.width))

/-- Vector shift by b mod w (R146). -/
def execVsra (o : VBitsOps) (s : State) : Out := openPure s fun x => vecBits x o (fun a b => wrapNat o.ty.width (toSigned o.ty.width a / 2 ^ (b % o.ty.width)))

/-- Conversion with PART (R147). -/
def execVcvt (o : VCvtOps) (s : State) : Out := openPure s fun x => x.vcvt o.g o.rm o.ty o.sty o.sat o.part.val o.d (x.gv o.a)

/-- Rounding to an integer value (R147). -/
def execVrnd (o : VCvtOps) (s : State) : Out := openPure s fun x => vecPart x o.g o.ty o.sty o.rm o.part.val o.d (x.gv o.a) fun l p => rndOne o.ty o.sty (x.rnd o.rm o.sat l) p

/-- round(a × 2^e) (R147). -/
def execVscale (o : VScaleOps) (s : State) : Out := openPure s fun x =>
  let e := toSigned 16 (x.gs o.b).toNat
  vecPart x o.g o.ty o.sty o.rm o.part.val o.d (x.gv o.a) fun l p => scaleOne o.ty o.sty (x.rnd o.rm o.sat l) e p

/-- Byte form to packed form (R148). -/
def execVpack (o : VPackOps) (s : State) : Out := openPure s fun x => x.vpack o

/-- Packed form to byte form (R148). -/
def execVunpack (o : VUnpackOps) (s : State) : Out := openPure s fun x => x.vunpack o

/-- Quantise a block of 64 under one scale (R149). -/
def execVbsc (o : VBscOps) (s : State) : Out := openPure s fun x => x.vbsc o

/-- Expand block-scaled elements (R150). -/
def execVbsx (o : VBsxOps) (s : State) : Out := openPure s fun x => x.vbsx o

/-- Block Hadamard transform (R60, R151). -/
def execVhad (o : VHadOps) (s : State) : Out := openPure s fun x => x.vhad o

/-- Reduction by the pairwise tree (R56, R152). -/
def execVredAdd (o : VRedOps) (s : State) : Out := openPure s fun x => x.vred o 0

/-- Reduction by the pairwise tree (R56, R152). -/
def execVredMin (o : VRedOps) (s : State) : Out := openPure s fun x => x.vred o 1

/-- Reduction by the pairwise tree (R56, R152). -/
def execVredMax (o : VRedOps) (s : State) : Out := openPure s fun x => x.vred o 2

/-- Lane i from lane b_i mod L (R153). -/
def execVperm (o : VBitsOps) (s : State) : Out := openPure s fun x =>
  let a := x.gv o.a
  vecBits x o fun _ b => laneGet o.ty a (b % o.ty.lanes)

/-- The low bits of sA in every lane (R153). -/
def execVbcst (o : VFromSOps) (s : State) : Out := openPure s fun x => x.writeLanes o.g o.ty .rne o.d (lanes o.ty.lanes fun _ => ((x.gs o.a).toNat, 0))

/-- Insert into lane sB mod L (R153). -/
def execVins (o : VInsOps) (s : State) : Out := openPure s fun x =>
  let i := (x.gs o.b).toNat % o.ty.lanes
  let old := x.gv o.d
  x.writePart o.g o.ty .rne o.d (lanes o.ty.lanes fun l => (if l == i then (x.gs o.a).toNat else laneGet o.ty old l, 0))

/-- Extract lane sB mod L (R153). -/
def execVext (o : VExtOps) (s : State) : Out := pureWord o.g s fun x =>
  x.ss o.d (BitVec.ofInt 64 (o.ty.ival (laneGet o.ty (x.gv o.a) ((x.gs o.b).toNat % o.ty.lanes))))

/-- Stable sort of the unmasked lanes (R154). -/
def execVsort (o : VSortOps) (s : State) : Out := openPure s fun x => x.vsort o

/-- Conversion to signed digits (R51, R156). -/
def execVsdc (o : VSdcOps) (s : State) : Out := openPure s fun x => x.vsdc o.g o.ty o.half o.d (x.gv o.a)

/-- Carry-free signed-digit addition (R52, R157). -/
def execVsdadd (o : VSdAddOps) (s : State) : Out := openPure s fun x =>
  let a := x.gv o.a
  let b := x.operand .sd o.b
  x.writeLanes o.g .sd .rne o.d (lanes 8 fun l =>
    let r := sdAdd (BitVec.ofNat 64 (laneGet .sd a l)) (BitVec.ofNat 64 (laneGet .sd b l))
    (r.1.toNat, r.2))

/-- Signed-digit comparison into kD and k(D + 1) (R53, R158). -/
def execVsdcmp (o : VSdCmpOps) (s : State) : Out := openPure s fun x => x.vsdcmp o

/-- One-hot class (R159). -/
def execVclass (o : VClassOps) (s : State) : Out := openPure s fun x => let a := x.gv o.a
  x.writeLanes o.g o.ty .rne o.d (lanes o.ty.lanes fun l => (classOf o.ty (laneGet o.ty a l), 0))

/-- Four-way 8-bit dot products (R57, R160). -/
def execVdot (o : VDotOps) (s : State) : Out := openPure s fun x => x.vdot o

end Sys2Proof.Machine
end

