-- ==== Sys2Proof/Machine/Links.lean ====
section
/-! DEFINITION. Links and channels: the trace ring, sampled tokens, what departs on an output, what is taken from a channel, control tokens (spec files 08, 10, 11, 20). -/

namespace Sys2Proof.Machine

/-! The trace ring (R355) -/

/-- Elements that the ring can still take: the device never lets HEAD catch TAIL. -/
def Bar0.traceRoom (b : Bar0) : Nat :=
  let n := b.traceSize.toNat
  if n = 0 then 0 else (b.traceTail.toNat + n - 1 - b.traceHead.toNat % n) % n

/-- Write 64-byte elements to host memory, one at each ring position. -/
def ringWrite (base size : Nat) : Memory → Nat → List Beat → Memory
  | m, _, [] => m
  | m, h, b :: bs => ringWrite base size (m.write (base + 64 * (h % size)) (beatBytes b)) (h + 1) bs

/-- Write a record whole and advance TRACE_HEAD, or discard and count it (R355); `drops` says that the record reports the drop count. -/
def State.trace (s : State) (bs : List Beat) (drops : Bool) : State :=
  let b := s.bar0
  let n := b.traceSize.toNat
  if bs.length ≤ b.traceRoom then
    { s with host := ringWrite b.traceBase.toNat n s.host b.traceHead.toNat bs
             bar0 := { b with traceHead := BitVec.ofNat 64 ((b.traceHead.toNat + bs.length) % n) }
             dropCnt := if drops then 0 else s.dropCnt }
  else { s with dropCnt := s.dropCnt + 1 }

/-! Sillage records (R356, R357) -/

def sat32 (n : Nat) : Nat := min n (2 ^ 32 - 1)

/-- The elements that hold hops, four to an element. -/
def hopBeats (post : Nat) : Nat → List (Nat × Nat × Nat) → List Beat
  | 0, _ => []
  | n + 1, hs =>
    let one (i : Nat) : List (Nat × Nat) :=
      match hs[i]? with
      | some (e, a, d) => [(128 * i, e % 2 ^ 16), (128 * i + 64, sat32 (a - post)), (128 * i + 96, sat32 (d - post))]
      | none => []
    if hs.isEmpty then [] else beatOf (one 0 ++ one 1 ++ one 2 ++ one 3) :: hopBeats post n (hs.drop 4)

/-- The record of a sampled token at its sink. -/
def State.sillage (s : State) (rid : Nat) (t : Sample) (how sink : Nat) : State :=
  let rs := (s.res? rid).getD {}
  let hs := t.hops.take 32
  let b := beatOf [(0, 0x10), (8, hs.length), (16, boolNat (32 < t.hops.length)), (32, rs.region % 2 ^ 16),
    (48, rs.tag % 2 ^ 16), (64, t.postmark % 2 ^ 64), (128, s.cycle % 2 ^ 64), (192, t.elem % 2 ^ 16),
    (208, t.oc % 32), (224, sink % 2 ^ 16), (240, how), (256, s.dropCnt % 2 ^ 64)]
  s.trace (b :: hopBeats t.postmark 9 hs) true

/-- The end of an item's sampling, where it was sampled. -/
def State.sinkItem (s : State) (rid : Nat) (i : Item) (how sink : Nat) : State :=
  match i.sample with
  | none => s
  | some t => s.sillage rid t how sink

/-! Slots (R231) -/

/-- Slots of a channel that beats hold, in the channel or on its link. -/
def Chan.taken (c : Chan) : Nat :=
  (c.items.filter (·.slot)).length +
  (c.flight.filter fun p => match p.2 with | .item i => i.slot | .marker _ => false).length

/-- Slots neither occupied nor reserved. -/
def Chan.free (c : Chan) : Nat := c.slots - (c.taken + c.reserved)

/-- Waiting control tokens of a channel: the counter of R234. -/
def Chan.tokens (c : Chan) : Nat := (c.items.filter fun i => !i.slot).length

/-- The counter of R234 of a channel: its waiting control tokens, select tokens among them (R104). -/
def State.counter (s : State) (c : ChanRef) (x : Chan) : Nat :=
  x.tokens + match s.elem? c.at with | some e => (e.select.filter fun p => p.1 == c.vc).length | none => 0

/-- A task of the channel's tile declares it in IN_MASK. -/
def State.declared (s : State) (c : ChanRef) : Bool :=
  s.ctxs.any fun p => p.1.tile == c.at && p.2.inMask.getLsbD c.vc

/-- The channel on which an output's route ends. -/
def State.route? (s : State) (e : ElemRef) (oc : Nat) : Option ChanRef :=
  match s.elem? e with
  | none => none
  | some el =>
    match tget el.routes oc with
    | none => none
    | some t =>
      let c : ChanRef := ⟨e.rid, t.delem, t.dvc⟩
      match s.chan? c with
      | some _ => some c
      | none => none

/-- Cycle at which what leaves now is at its destination: one cycle between operators (R233), at least one elsewhere. -/
def State.linkDue (s : State) (a b : ElemRef) : Nat × State :=
  let op (e : ElemRef) : Bool := match s.elem? e with | some x => x.kind == .op | none => false
  if op a && op b then (s.cycle + 1, s) else s.later 1

/-- Put something on the link to a channel, behind what is there. -/
def State.push (s : State) (src : ElemRef) (c : ChanRef) (f : Fly) : State :=
  let (d, s) := s.linkDue src c.at
  (s.modChan c fun x => { x with flight := x.flight ++ [(d, f)] }).active c.rid

/-! Departures (R186, R231, R356, R359) -/

/-- A beat on a breakpoint departs: its letter, and the stop in the next cycle unless the region drains or one is due already; in a stopped region nothing further (R359, R360). -/
def State.breakHit (s : State) (rid elem who pc n oc : Nat) : State :=
  let rs := (s.res? rid).getD {}
  let during := rs.st == .draining || rs.st == .saving
  if rs.stopped then s
  else
    let s := s.remoteLetter rid tBREAK elem who pc n (oc + if during then 2 ^ 63 else 0)
    if during || rs.cutDue.isSome then s else s.modRes rid fun rs => { rs with cutDue := some (s.cycle + 1) }

/-- Link breakpoint i counts a data beat (R359). -/
def State.linkBreak (s : State) (rid elem oc who pc : Nat) (i : Fin 4) : State :=
  let b := (s.bar0.linkBrk.get i).toNat
  let n := field b 63 40
  let rs := (s.res? rid).getD {}
  if n ≠ 0 && field b 15 0 == rs.tag && field b 31 16 == elem && field b 36 32 == oc % 32 then
    let k := s.brkCnt.get i + 1
    if k = n then
      ({ s with bar0 := { s.bar0 with linkBrk := s.bar0.linkBrk.set i.val (BitVec.ofNat 64 (b % 2 ^ 40)) i.isLt },
                brkCnt := s.brkCnt.set i.val 0 i.isLt }).breakHit rid elem who pc n (oc % 32)
    else { s with brkCnt := s.brkCnt.set i.val k i.isLt }
  else s

/-- A data beat leaves an element on output oc (R186, R231, R236): counted, sampled where due, put on its link, or discarded where there is no route.  `res` says that the sender held a reserved slot. -/
def State.depart (s : State) (e : ElemRef) (oc who pc : Nat) (res : Bool) (it : Item) : State :=
  let rs := (s.res? e.rid).getD {}
  let n := match s.elem? e with | some x => (tget x.sentCnt oc).getD 0 + 1 | none => 1
  let s := s.modElem e fun x => { x with sentCnt := tput x.sentCnt oc n }
  let rate := rs.sampleRate.toNat % 2 ^ 16
  let auto := rs.traceCtl.getLsbD 0 && rate ≠ 0 && n % rate == 0
  let it := match it.sample with
    | some _ => it
    | none => if auto then { it with sample := some { postmark := s.cycle, elem := e.elem, oc := oc } } else it
  let s := (List.finRange 4).foldl (fun s i => s.linkBreak e.rid e.elem oc who pc i) s
  match s.route? e oc with
  | none => (s.sinkItem e.rid it 4 e.elem).active e.rid
  | some c =>
    let s := if res then s.modChan c fun x => { x with reserved := x.reserved - 1 } else s
    s.push e c (.item { it with slot := true })

/-! Control tokens (R228, R231) -/

def CtlKind.code : CtlKind → Nat
  | .arrival => 1 | .endOfList => 2 | .completion => 3 | .permit => 4 | .done => 5 | .endOfTile => 6
  | .select _ => 0

/-- The control beat of R228, which a token carries with it. -/
def controlBeat (k : CtlKind) (win elem count fill : Nat) : Beat :=
  beatOf [(0, k.code), (8, win % 64), (16, elem % 2 ^ 16), (32, min count 65535), (48, fill % 2 ^ 16)]

def ctlItem (k : CtlKind) (b : Beat) : Item := { beat := b, ctl := some k, slot := false }

/-- A control token leaves on an output; without a valid route it is discarded. -/
def State.sendCtl (s : State) (e : ElemRef) (oc : Nat) (i : Item) : State :=
  match s.route? e oc with
  | none => s
  | some c => s.push e c (.item i)

/-- A control token can leave on an output: none waits at its destination (R231, R234). -/
def State.ctlRoom (s : State) (e : ElemRef) (oc : Nat) : Bool :=
  match s.route? e oc with
  | none => true
  | some c => match s.chan? c with | some x => x.held.isEmpty | none => true

/-- The done token of a task leaves on oc(24 + context) of its tile (R239). -/
def State.sendDone (s : State) (r : CtxRef) : State :=
  s.sendCtl r.tile (24 + r.ctx) (ctlItem .done (controlBeat .done 0 0 0 0))

/-! Taking from a channel -/

/-- Close the last hop of a sampled token at this cycle. -/
def Sample.leave (t : Sample) (now : Nat) : Sample :=
  { t with hops := match t.hops.reverse with
      | [] => []
      | (e, a, _) :: hs => ((e, a, now) :: hs).reverse }

/-- Remove item i of a channel; the item, with its last hop closed, and the state without it. -/
def State.takeAt (s : State) (c : ChanRef) (i : Nat) : Option (Item × State) :=
  match s.chan? c with
  | none => none
  | some x =>
    match x.items[i]? with
    | none => none
    | some it =>
      some ({ it with sample := it.sample.map (·.leave s.cycle) },
            (s.setChan c { x with items := x.items.eraseIdx i }).active c.rid)

/-- A context takes the next n beats of a channel (R127, R185); each sampled one ends there. -/
def State.ctxTake (s : State) (c : ChanRef) : Nat → State
  | 0 => s
  | n + 1 =>
    match s.takeAt c 0 with
    | none => s
    | some (it, s) => (s.sinkItem c.rid it 1 c.elem).ctxTake c n

/-- Beat k of a channel from its head; a firing's declared beats stand there (R21). -/
def State.chanItem (s : State) (c : ChanRef) (k : Nat) : Item :=
  match s.chan? c with
  | some x => (x.items[k]?).getD {}
  | none => {}

/-- The format entry in force (R23, R187). -/
def State.fmt (s : State) (c : ChanRef) : Nat :=
  match s.chan? c with | some x => x.fmt.toNat | none => 0

/-! Words the load scan would not have passed -/

/-- The word at a context's pc. -/
def State.wordAt (s : State) (r : CtxRef) (pc : Nat) : Word :=
  match s.tile? r.tile with
  | some t => (t.imem[pc]?).getD 0
  | none => 0

/-- ILLEGAL: TRAP_INFO0 the word, TRAP_INFO1 the pc (R70). -/
def State.illegal (s : State) (r : CtxRef) (x : Ctx) : State :=
  s.trap r x tILLEGAL (s.wordAt r x.pc.toNat) (x.pc.setWidth 64)

/-- The words of a task: from its entry to the first end. -/
def taskWords (m : List Word) : Nat → Nat → List Instr
  | 0, _ => []
  | n + 1, p =>
    match m[p]? with
    | none => []
    | some w =>
      match decode w with
      | .error _ => taskWords m n (p + 1)
      | .ok .end_ => [.end_]
      | .ok i => i :: taskWords m n (p + 1)

def State.words (s : State) (r : CtxRef) (x : Ctx) : List Instr :=
  match s.tile? r.tile with
  | some t => taskWords t.imem 4096 x.entry.toNat
  | none => []

end Sys2Proof.Machine
end

