-- ==== Sys2Proof/Machine/Barriers.lean ====
section
/-! DEFINITION. Barriers: what an arrival does, waits and their release, remote arrivals on their way (R27, R188-R190, R202). -/

namespace Sys2Proof.Machine

/-- BARDROP counts in the contexts of a tile whose residency is on the fabric (R31). -/
def State.barDrop (s : State) (e : ElemRef) : State :=
  if !s.onFabric e.rid then s
  else { s with ctxs := tmap s.ctxs fun k x => if k.tile = e then x.count 0x0B 1 else x }

/-- A context registered on the phase of barrier b that has just completed leaves WAIT (R188, R189). -/
def Ctx.barRelease (x : Ctx) (b : Nat) (phase : Bool) : Ctx :=
  match x.wait with
  | some (.barrier b' p) => if b' = b && p == phase then ({ x with awarr := false }).complete else x
  | _ => x

/-- The waits of a tile on an old phase are released (R27). -/
def State.barWake (s : State) (e : ElemRef) (b : Nat) (phase : Bool) : State :=
  { s with ctxs := tmap s.ctxs fun k x => if k.tile = e then x.barRelease b phase else x }

/-- An arrival is counted: PENDING falls, and the one that brings it to 0 completes the phase (R27); at an unused barrier it is discarded (R189, R190). Where a write of BARSTATE has left PENDING 0 with INIT not 0, R27 does not say what an arrival makes of it: it completes the phase (DESIGN CHOICE, log 73). -/
def State.arrive (s : State) (e : ElemRef) (b : Nat) (rel : Bool) : State :=
  let k : BarRef := ⟨e.rid, e.elem, b⟩
  let x := s.bar k
  let s := s.active e.rid
  if b ≥ 96 || x.init = 0 then s.barDrop e
  else if x.pending.toNat ≤ 1 then
    (s.setBar k { x with pending := x.init, phase := !x.phase, relp := false }).barWake e b x.phase
  else s.setBar k { x with pending := x.pending - 1, relp := x.relp || rel }

/-- BARSTATE[b] (R27). -/
def Bar.word (x : Bar) : Word :=
  BitVec.ofNat 64 (fields [(0, x.init.toNat), (8, x.pending.toNat), (16, boolNat x.phase), (17, boolNat x.relp)])

/-- What a supervisor write leaves in BARSTATE[b]: the defined bits (R131). -/
def Bar.load (x : Bar) (w : Word) : Bar :=
  { x with init := w.extractLsb' 0 8, pending := w.extractLsb' 8 8, phase := w.getLsbD 16, relp := w.getLsbD 17 }

/-- A remote or engine arrival on its way to a tile, behind those of its source that go there already (R190, R202). -/
def State.sendArrival (s : State) (t : ElemRef) (src bar : Nat) (rel : Bool) (note : Option Word) (token : Option ChanRef) : State :=
  let (d, s) := s.later 1
  let d := s.remotes.foldl (fun m p => if p.1 == t && p.2.src == src then max m p.2.due else m) d
  { s with remotes := s.remotes ++ [(t, { due := d, src := src, bar := bar, rel := rel, note := note, token := token })] }

end Sys2Proof.Machine
end

