-- ==== Sys2Proof/Machine/Access.lean ====
section
/-! DEFINITION. Accesses in flight: physical places, translation at the ports, the order of colours and completion at the scopes (spec files 12, 15). -/

namespace Sys2Proof

def Scope.level : Scope → Nat
  | .region => 1 | .device => 2 | .system => 3

end Sys2Proof

namespace Sys2Proof.Machine

/-! Physical places (R280) -/

/-- A memory device holds the bytes `[a, a + n)`: below each device's tag table. -/
def physOk (bulk : Bool) (a n : Nat) : Bool :=
  if bulk then a / 2 ^ 36 < 16 && a % 2 ^ 36 + n ≤ 65024 * 2 ^ 20
  else a / 2 ^ 35 < 8 && a / 2 ^ 32 % 8 < 6 && a % 2 ^ 32 + n ≤ 4064 * 2 ^ 20

def Place.ok (n : Nat) : Place → Bool
  | .phys bulk a => physOk bulk a n
  | _ => true

/-- Set the tags of consecutive 16-byte units. -/
def tagRun (t : List Nat) (u : Nat) : List Bool → List Nat
  | [] => t
  | b :: bs => tagRun (tagSet t u b) (u + 1) bs

/-- An 8-byte unit that cannot be corrected lies in the bytes `[a, a + n)`. -/
def badIn (bad : List Nat) (a n : Nat) : Bool := bad.any fun u => a < 8 * u + 8 && 8 * u < a + n

/-- The units left uncorrectable once the bytes `[a, a + n)` are written: one written whole is good again (R346, log 23). -/
def mendIn (bad : List Nat) (a n : Nat) : List Nat := bad.filter fun u => !(a ≤ 8 * u && 8 * u + 8 ≤ a + n)

/-- Write bytes at a place; the tags of the units touched are cleared, and those given are set (R20). A peer's memory is not this device's. -/
def State.writePlace (s : State) (p : Place) (data : List Byte) (tags : List Bool) : State :=
  match p with
  | .phys false a => { s with gddr := s.gddr.write a data, gddrTags := tagRun (tagClear s.gddrTags a data.length) (a / 16) tags,
                              badMem := mendIn s.badMem a data.length }
  | .phys true a => { s with bulk := s.bulk.write a data, bulkTags := tagRun (tagClear s.bulkTags a data.length) (a / 16) tags,
                             badBulk := mendIn s.badBulk a data.length }
  | .host a => { s with host := s.host.write a data }
  | _ => s

/-- Bytes, tags of the 16-byte units and whether a unit cannot be corrected. What a peer holds is a free value. -/
def State.readPlace (s : State) (p : Place) (n : Nat) : List Byte × List Bool × Bool :=
  let units (a : Nat) := (List.range (ceilDiv n 16)).map (a / 16 + ·)
  match p with
  | .phys false a => (s.gddr.read a n, (units a).map (s.gddrTags.contains ·), badIn s.badMem a n)
  | .phys true a => (s.bulk.read a n, (units a).map (s.bulkTags.contains ·), badIn s.badBulk a n)
  | .host a => (s.host.read a n, (units a).map fun _ => false, false)
  | _ => ((List.range n).map fun i => Config.freeByte (s.serial + i), (units 0).map fun _ => false, false)

/-- The state as a reader of a residency sees memory: writes complete at region scope stand over it (R244, R245). -/
def State.regionView (s : State) (rid : Nat) : State :=
  (s.accs.filter fun a => a.level == 1 && a.write && a.rid == rid).foldl
    (fun s a => s.writePlace a.place a.data a.tags) s

/-! Walks (R282-R284) -/

/-- How a walk ends; or the walk waits, since a table that it must read lies in GDDR in self-refresh (R376). -/
inductive Walk where
  | mapped (phys : Nat) (bulk : Bool) (size : Nat) (r w a : Bool) (pte : Nat)
  | miss (m : Miss)
  | asleep
deriving DecidableEq, Repr

/-- What an access needs of an entry. -/
structure Need where
  write : Bool
  atomic : Bool

def Need.ok (n : Need) (r w a : Bool) : Bool := if n.atomic then a else if n.write then w else r

/-- Lowest VA bit of a level's index, and bits of the index. -/
def levelShift : Nat → Nat
  | 1 => 48 | 2 => 39 | 3 => 30 | 4 => 21 | _ => 16
def levelBits : Nat → Nat
  | 5 => 5 | _ => 9

/-- Address of the entry of an address in a table of a level. -/
def entryAt (lv tbl va : Nat) : Nat := tbl + 8 * (va / 2 ^ levelShift lv % 2 ^ levelBits lv)

/-- GDDR in self-refresh serves no access (R376). -/
def State.asleep (s : State) (a : Nat) : Bool := s.selfRefresh.getLsbD (a / 2 ^ 35)

/-- A table below a root lies in GDDR in self-refresh, met on the way to the entry of an address. -/
def sleepGo (m : Memory) (sr : BitVec 8) (va : Nat) : Nat → Nat → Nat → Bool
  | 0, _, _ => false
  | n + 1, lv, tbl =>
    let e := m.word (entryAt lv tbl va) 8
    sr.getLsbD (entryAt lv tbl va / 2 ^ 35) || (lv ≠ 5 && bitOf e 0 && field e 6 5 == 0 && sleepGo m sr va n (lv + 1) (field e 55 12 * 256))

/-- The walk of R284 from a level's table, with `n` levels left. -/
def walkGo (m : Memory) (bulkTbl : Bool) (need : Need) (va : Nat) : Nat → Nat → Nat → Walk
  | 0, _, _ => .miss .malformed
  | n + 1, lv, tbl =>
    let at_ := entryAt lv tbl va
    let e := m.word at_ 8
    let paddr := field e 55 12 * 256
    let size := field e 6 5
    let page := 2 ^ levelShift lv
    let tgt := field e 8 7
    if !bitOf e 0 then .miss .absent
    else if size = 0 && lv ≠ 5 then walkGo m bulkTbl need va n (lv + 1) paddr
    else if size = 0 || lv + size ≠ 6 || field e 63 59 ≠ 0 || field e 11 10 ≠ 0 || paddr % page ≠ 0 || tgt ≥ 2 then .miss .malformed
    else if bitOf e 4 then .miss .held
    else if !need.ok (bitOf e 1) (bitOf e 2) (bitOf e 3) then .miss .denied
    else if !bulkTbl && tgt = 1 then .miss .absent
    else if bulkTbl && tgt = 0 then .miss .malformed
    else .mapped (paddr + va % page) (tgt == 1) page (bitOf e 1) (bitOf e 2) (bitOf e 3) at_

/-- Lowest VA bit of the page that holds an address in the tables below a root: of the valid leaf met, or of a 64 KiB page (R282). -/
def leafShift (m : Memory) (va : Nat) : Nat → Nat → Nat → Nat
  | 0, _, _ => 16
  | n + 1, lv, tbl =>
    let e := m.word (entryAt lv tbl va) 8
    if !bitOf e 0 then 16
    else if field e 6 5 = 0 && lv ≠ 5 then leafShift m va n (lv + 1) (field e 55 12 * 256)
    else levelShift lv

/-- Where the page of an address lies in GDDR by the tables of main memory below a root, whether or not its entry is HELD or allows an access. -/
def leafHome (m : Memory) (va : Nat) : Nat → Nat → Nat → Option Nat
  | 0, _, _ => none
  | n + 1, lv, tbl =>
    let e := m.word (entryAt lv tbl va) 8
    let paddr := field e 55 12 * 256
    let size := field e 6 5
    let page := 2 ^ levelShift lv
    if !bitOf e 0 then none
    else if size = 0 && lv ≠ 5 then leafHome m va n (lv + 1) paddr
    else if size = 0 || lv + size ≠ 6 || field e 63 59 ≠ 0 || field e 11 10 ≠ 0 || paddr % page ≠ 0 || field e 8 7 ≠ 0 then none
    else some (paddr + va % page)

/-- Address of the level-5 entry of an address below a root, where its tables stand. -/
def leafAt (m : Memory) (va : Nat) : Nat → Nat → Nat → Option Nat
  | 0, _, _ => none
  | n + 1, lv, tbl =>
    let e := m.word (entryAt lv tbl va) 8
    if lv = 5 then some (entryAt lv tbl va)
    else if bitOf e 0 && field e 6 5 = 0 then leafAt m va n (lv + 1) (field e 55 12 * 256)
    else none

/-- The root of the tables of an address: of an ASID's own launch half, or of the shared half, named in BAR0 (R281). -/
def State.rootOf (s : State) (asid : Nat) (bulkTbl : Bool) (va : Nat) : Option Nat :=
  if va / 2 ^ 56 % 2 = 1 then some (if bulkTbl then s.bar0.sharedRootBulk else s.bar0.sharedRootMain).toNat
  else tget s.roots (asid, bulkTbl)

/-- The walk of an address through the tables in GDDR (R282, R284); an ASID without a table maps nothing. -/
def State.walk (s : State) (asid : Nat) (bulkTbl : Bool) (need : Need) (va : Nat) : Walk :=
  match s.rootOf asid bulkTbl va with
  | none => .miss .absent
  | some root =>
    if s.selfRefresh ≠ 0 && sleepGo s.gddr s.selfRefresh va 5 1 root then .asleep
    else walkGo s.gddr bulkTbl need va 5 1 root

/-- Where a page of main memory lies in GDDR, whatever its entry allows (R295, R296). -/
def State.homeOf (s : State) (asid va : Nat) : Option Nat :=
  (s.rootOf asid false va).bind fun root => if s.selfRefresh ≠ 0 && sleepGo s.gddr s.selfRefresh va 5 1 root then none else leafHome s.gddr va 5 1 root

/-- The walker sets D on the first write through an entry, by a store or an atomic alike (R283). -/
def State.dirty (s : State) (asid : Nat) (bulkTbl : Bool) (need : Need) (va : Nat) : State :=
  match s.walk asid bulkTbl need va with
  | .mapped _ _ _ _ _ _ p => { s with gddr := s.gddr.put (p + 1) (s.gddr.get (p + 1) ||| 0x02) }
  | _ => s

/-! Launch-half entries, which the loader alone builds and changes (R281, R283) -/

/-- The bytes of an entry: a valid 64 KiB leaf. -/
def Pte.word (e : Pte) : Nat :=
  fields [(0, 1), (1, boolNat e.r), (2, boolNat e.w), (3, boolNat e.a), (4, boolNat e.held), (5, 1), (7, e.tgt), (9, boolNat e.dirty),
          (12, e.frame / 256), (56, e.dieHint)]

def Pte.ofWord (w : Nat) : Pte :=
  { frame := field w 55 12 * 256, tgt := field w 8 7, r := bitOf w 1, w := bitOf w 2, a := bitOf w 3, held := bitOf w 4, dirty := bitOf w 9,
    dieHint := field w 58 56 }

/-- Address of the entry of a launch page. -/
def State.pteAt (s : State) (p : PageRef) : Option Nat :=
  (tget s.roots (p.asid, p.bulk)).bind fun r => leafAt s.gddr (p.vpage * 2 ^ 16) 5 1 r

/-- The entry of a launch page, where it is valid. -/
def State.pte? (s : State) (p : PageRef) : Option Pte :=
  (s.pteAt p).bind fun a => let w := s.gddr.word a 8; if bitOf w 0 then some (Pte.ofWord w) else none

def State.setPte (s : State) (p : PageRef) (e : Pte) : State :=
  match s.pteAt p with
  | some a => { s with gddr := s.gddr.write a (bytesLE 8 e.word) }
  | none => s

/-- The tables of a launch page lie in GDDR in self-refresh. -/
def State.pageAsleep (s : State) (p : PageRef) : Bool := s.walk p.asid p.bulk ⟨false, false⟩ (p.vpage * 2 ^ 16) == .asleep

/-! Ports (R286) -/

def State.port (s : State) (p : PortRef) : Port := (tget s.ports p).getD {}
def State.setPort (s : State) (p : PortRef) (x : Port) : State := { s with ports := tput s.ports p x }
def State.gen (s : State) (asid : Nat) : Nat := (tget s.asidGen asid).getD 0
def State.acc? (s : State) (id : Nat) : Option Acc := s.accs.find? (·.id == id)
def State.modAcc (s : State) (id : Nat) (f : Acc → Acc) : State :=
  { s with accs := s.accs.map fun a => if a.id = id then f a else a }
def State.dropAcc (s : State) (id : Nat) : State := { s with accs := s.accs.filter (·.id ≠ id) }

def Acc.bulk (a : Acc) : Bool := a.space == 2
def Acc.need (a : Acc) : Need := ⟨a.write, a.atomic⟩

/-- A TLB entry that translates an access. -/
def TlbEnt.hits (t : TlbEnt) (gen : Nat) (a : Acc) : Bool :=
  t.asid == a.asid && t.gen == gen && t.bulkTbl == a.bulk && t.va == a.va / t.size &&
    a.need.ok t.r t.w t.a

/-- Keep at most 512 entries; the device chooses which one leaves (R286). -/
def State.tlbFill (s : State) (p : PortRef) (t : TlbEnt) : State :=
  let x := s.port p
  let s := { s with serial := s.serial + 1 }
  let keep := if x.tlb.length < 512 then x.tlb else x.tlb.eraseIdx (Config.choice (s.serial - 1) % x.tlb.length)
  s.setPort p { x with tlb := t :: keep }

def State.parked (s : State) (p : PortRef) : Nat :=
  (s.accs.filter fun a => a.port == p && a.place == .parked).length

/-- Try one queued access at its port: a hit goes on, a miss parks and starts a walk; none where the port cannot take it. -/
def State.tryPort (s : State) (a : Acc) : Option State :=
  let x := s.port a.port
  if x.full then none
  else match x.tlb.find? (·.hits (s.gen a.asid) a) with
    | some t =>
      -- the walker's write of D waits as any access to that GDDR
      if a.write && s.walk a.asid a.bulk a.need a.va == .asleep then none
      else
      let s := if a.write then s.dirty a.asid a.bulk a.need a.va else s
      let (d, s) := s.later 1
      some (s.modAcc a.id fun a => { a with place := .phys t.bulk (t.phys + a.va % t.size), due := d })
    | none =>
      if s.parked a.port < 64 then
        let (d, s) := s.later 1
        some (s.modAcc a.id fun a => { a with place := .parked, due := d })
      else none

/-- The port takes its queued accesses in order, until one must wait (R286). -/
def State.portGo (s : State) : List Acc → State
  | [] => s
  | a :: l =>
    match s.tryPort a with
    | none => s
    | some s => s.portGo l

def State.portRun (s : State) (p : PortRef) : State :=
  s.portGo (s.accs.filter fun a => a.port == p && a.place == .queued)

/-- Every port. -/
def State.portsRun (s : State) : State :=
  ((s.accs.filter (·.place == .queued)).map (·.port)).eraseDups.foldl State.portRun s

/-! Issue -/

/-- An access issues (R243): to its port, or to the hub for host and peer space. Its number is given back. -/
def State.issue (s : State) (a : Acc) : Nat × State :=
  let id := s.nextAcc
  let (d, s) := s.later 1
  let pl : Place := if a.space = 3 then .host a.va else if a.space = 4 then .peer a.va else .queued
  let s := ({ s with nextAcc := id + 1, accs := s.accs ++ [{ a with id := id, due := d, place := pl }] }).active a.rid
  (id, if pl == .queued then s.portRun a.port else s)

/-- The request port of a context for a space (R286). -/
def State.reqPort (s : State) (e : ElemRef) (space : Nat) : PortRef :=
  let die := match s.elem? e with | some x => x.die | none => 0
  let rs := (s.res? e.rid).getD {}
  ⟨die, if space = 1 then (tget rs.mainPort die).getD 0 else (tget rs.hubPort die).getD 20⟩

/-- An access of a context through a capability. -/
def ctxAcc (s : State) (r : CtxRef) (c : CapV) (va len colour : Nat) (write : Bool) (data : List Byte)
    (tags : List Bool) (after : List Nat) (p : Purpose) : Acc :=
  { id := 0, issuer := .ctx r, rid := r.rid, port := s.reqPort r.tile c.space, colour := colour, write := write,
    space := c.space, asid := c.asid, va := va, len := len, data := data, tags := tags, after := after,
    purpose := p, due := 0 }

/-! Queues of a port (R287, R349) -/

/-- The spill frame of a port cannot take a write. -/
def State.spillFails (s : State) (p : PortRef) : Bool := (s.port p).bad || s.linksDown.contains ⟨p.die, p.port⟩

/-- Whom a notice of an access names: its element, WHO and the context or generator. -/
def Acc.from_ (a : Acc) : Nat × Nat :=
  match a.issuer with
  | .ctx r => (r.elem, r.ctx)
  | .gen g => (g.elem, 9)
  | .cmd r _ => (r.elem, r.ctx)

/-- The spill area of a region is full at a port (R287): its own entries fill it. -/
def State.spillFull (s : State) (p : PortRef) (rid : Nat) : Bool :=
  Config.spillEntries ≤ ((s.port p).spill.filter fun id => s.accs.any fun a => a.id == id && a.rid == rid).length

/-- A faulted access becomes a dead letter: on chip, or in the spill area of its region (R287, R349). -/
def State.enqueueDead (s : State) (a : Acc) (m : Miss) : State :=
  let s := s.modAcc a.id fun a => { a with place := .dead m }
  let x := s.port a.port
  if x.deadq.length < 256 then s.setPort a.port { x with deadq := x.deadq ++ [a.id] }
  else if s.spillFails a.port then
    let s := s.setPort a.port { x with deadq := x.deadq ++ [a.id], retry := x.retry ++ [(a.id, s.cycle + 4096)] }
    match a.issuer with
    | .gen g => s.remoteLetter a.rid tDOUBLE g.elem 9 0 a.va a.port.port
    | .ctx r | .cmd r _ => s.modCtx r fun x => { x with double := some (a.va, a.port.port) }
  else
    let full := s.spillFull a.port a.rid
    let s := s.setPort a.port { x with spill := x.spill ++ [a.id], full := x.full || full, freed := if full then 0 else x.freed }
    if full && !x.full then s.remoteLetter a.rid 0x20 a.from_.1 11 0 a.port.port 0 else s

/-- An entry leaves its queue; a full port resumes once replay has freed 64 (R349). -/
def State.leaveDead (s : State) (a : Acc) (replayed : Bool) : State :=
  let x := s.port a.port
  let x := { x with deadq := x.deadq.filter (· ≠ a.id), spill := x.spill.filter (· ≠ a.id), retry := x.retry.filter (·.1 ≠ a.id),
                    freed := if x.full then x.freed + boolNat replayed else 0 }
  if x.full && 64 ≤ x.freed then
    (s.setPort a.port { x with full := false, freed := 0 }).remoteLetter a.rid 0x21 a.from_.1 11 0 a.port.port 0
  else s.setPort a.port x

/-! Order (R247, R249, R252) -/

/-- The context a command or access belongs to, and its place in program order. -/
def Acc.stream (a : Acc) : Option (CtxRef × Nat) :=
  match a.issuer with
  | .ctx r => some (r, a.id)
  | .cmd r id => some (r, id)
  | _ => none

def Acc.isCmd (a : Acc) : Bool := match a.issuer with | .cmd .. => true | _ => false

/-- Commands that write, or may write, in their colour: they stand in its order (R201, R252). -/
def Cmd.coloured (c : Cmd) : Bool :=
  match c.ins with
  | .cpy _ | .cpyq _ | .gth _ | .sct _ | .aadd _ | .aaddF _ | .amin _ | .aminF _ | .amax _ | .amaxF _ | .aand _ | .aandF _
  | .aor _ | .aorF _ | .axor _ | .axorF _ | .axchg _ | .axchgF _ | .acas _ | .acasQ _ | .xfill _ | .xred _
  | .plrunOr _ | .plrunAnd _ | .plrunWand _ | .plresume _ => true
  | _ => false

/-- Commands that a fence or a completion token waits for: a wreq, which reads a window, among them (R196). -/
def Cmd.fenced (c : Cmd) : Bool := c.coloured || match c.ins with | .wreq _ => true | _ => false

/-- A command still has memory reads or writes to make before it is complete at a level (R201, R243): a copy to a window ends with its reads; an xfill too, but at system scope with its last beat's acceptance (R220); an xred once the writes of its segment are issued, whatever its beats wait for; a run with its lists. Any other command stands until it is over. -/
def State.cmdOwes (s : State) (c : Cmd) (level : Nat) : Bool :=
  let reads (i : Nat) : Bool := c.rd < ceilDiv (c.w.getD i 0).toNat 64
  c.phase == .offered || match c.ins with
  | .cpy o => (match o.b with | .s _ => reads 2 | .c _ => true)
  | .xfill _ => level == 3 || reads 1
  | .xred _ => c.stage < 4
  | .plrunOr _ | .plrunAnd _ | .plrunWand _ | .plresume _ =>
    s.queries.any fun p => p.2.cmd == c.id && p.2.st == .running && p.2.ending == 0
  | _ => true

/-- Everything numbered `id` is complete at a level: an access, or a command with all its accesses. -/
def State.doneAt (s : State) (id level : Nat) : Bool :=
  (s.accs.all fun a => match a.issuer with
    | .cmd _ k => (k ≠ id && a.id ≠ id) || level ≤ a.level
    | _ => a.id ≠ id || level ≤ a.level) &&
  s.cmds.all fun c => c.id ≠ id || !s.cmdOwes c level

/-- Earlier accesses and commands of a context whose colour the mask names, not yet complete at system scope. -/
def State.earlier (s : State) (r : CtxRef) (mask : Nat → Bool) : List Nat :=
  (s.accs.filter fun a => a.issuer == .ctx r && mask a.colour).map (·.id) ++
  (s.accs.filterMap fun a => match a.issuer with | .cmd q k => if q = r && mask a.colour then some k else none | _ => none) ++
  (s.cmds.filter fun c => c.r == r && c.fenced && mask c.colour && c.phase != .offered).map (·.id)

/-- Access b stands before access a in a's colour, and one of them writes. -/
def Acc.before (b a : Acc) : Bool :=
  match a.stream, b.stream with
  | some (r, k), some (q, j) =>
    r == q && a.colour == b.colour && j < k && !(a.isCmd && b.isCmd) && (a.write || b.write || a.isCmd || b.isCmd)
  | none, none => a.issuer == b.issuer && b.id < a.id && a.write && b.write
  | _, _ => false

/-- An access can rise to a level: its place is known, what it is ordered after is complete, and writes of its region keep one order at each byte (R245). -/
def State.canRise (s : State) (a : Acc) (level : Nat) : Bool :=
  (match a.place with
    -- GDDR in self-refresh serves no access (R376)
    | .phys bulk x => bulk || !s.asleep x
    | .host _ => true
    | .peer _ => true
    | _ => false) &&
  a.level + 1 == level &&
  a.after.all (fun id => s.doneAt id 2) &&
  (s.accs.all fun b => !b.before a || (if a.write then level ≤ b.level else 1 ≤ b.level)) &&
  (match a.issuer with
    | .ctx r => s.cmds.all fun c => !(c.r == r && c.coloured && c.colour == a.colour && c.id < a.id && c.phase != .offered && s.cmdOwes c 2)
    | _ => true) &&
  (level ≠ 2 || !a.write ||
    (s.accs.takeWhile (·.id ≠ a.id)).all fun b =>
      !(b.rid == a.rid && b.write && b.level == 1 &&
        match a.place, b.place with
        | .phys p x, .phys q y => p == q && x < y + b.len && y < x + a.len
        | .host x, .host y => x < y + b.len && y < x + a.len
        | _, _ => false))

/-! Frames of main memory (log 7) -/

/-- First and last byte of a memory device: GDDR device d, or bulk device d. -/
def devBase (bulk : Bool) (d : Nat) : Nat := if bulk then d * 2 ^ 36 else d / 6 * 2 ^ 35 + d % 6 * 2 ^ 32
def devSize (bulk : Bool) : Nat := if bulk then 65024 * 2 ^ 20 else 4064 * 2 ^ 20
/-- The device of a physical address. -/
def devOf (bulk : Bool) (a : Nat) : Nat := if bulk then a / 2 ^ 36 else a / 2 ^ 35 * 6 + a / 2 ^ 32 % 8
def devCount (bulk : Bool) : Nat := if bulk then 16 else 48

/-- Bytes of a spill area of a die (R287). -/
def spillBytes : Nat := 2 ^ 20

/-- Bytes of a pool shard's spill area (R298). -/
def shardBytes : Nat := 2 ^ 25

/-- What the loader has taken of a memory: pages and tables of launch halves, save areas, spill areas of regions and of pool shards. -/
def State.taken (s : State) (bulk : Bool) : List (Nat × Nat) :=
  ((s.ledger.filter fun p => p.2.1 == bulk).map fun p => (p.2.2, p.2.2 + 2 ^ 16)) ++
  (if bulk then [] else s.ress.flatMap fun r =>
    ((r.2.saveArea.toList ++ r.2.nextArea.toList).map fun a => (a.1, a.1 + a.2)) ++ r.2.spills.map fun a => (a, a + spillBytes)) ++
  (if bulk then [] else s.shards.flatMap fun x => x.2.area.toList.map fun a => (a, a + shardBytes)) ++
  s.migrs.filterMap fun m => match m.target with
    | some t => if bulk then none else some (t, t + 2 ^ 16)
    | none => none

/-- A place for n bytes on a device, in whole 64 KiB frames, whose memory serves accesses (R376); where the search starts is free (R96, R297 give no frame). -/
def State.findFrames (s : State) (bulk : Bool) (dev n : Nat) : Option Nat :=
  let lo := devBase bulk dev
  let used := s.taken bulk
  let hint := Config.frameHint s.nextAlloc % (devSize bulk / 2 ^ 16) * 2 ^ 16
  let ok (a : Nat) : Bool := lo ≤ a && a + n ≤ lo + devSize bulk && (bulk || !s.asleep a) && used.all fun u => a + n ≤ u.1 || u.2 ≤ a
  ((lo + hint) :: lo :: used.map (·.2)).find? ok

/-- The same on the first device of several that has room. -/
def State.findOn (s : State) (bulk : Bool) (n : Nat) : List Nat → Option Nat
  | [] => none
  | d :: ds => match s.findFrames bulk d n with
    | some a => some a
    | none => s.findOn bulk n ds

/-! Checks of capability operands (R118, R191, R279) -/

/-- A range leaves the address space (R279). -/
def rangeBad (space va n : Nat) : Bool :=
  va + n > 2 ^ 64 || ((space = 1 || space = 2) && n ≠ 0 && va + n > 2 ^ 57)

/-- The checks of R118 and R191 on `n` bytes at an offset: the code of the first that fails. -/
def memCheck (c : CapV) (spaces : List Nat) (perm : Nat) (off n align : Nat) : Option Nat :=
  match capCheck c with
  | some t => some t
  | none =>
    if !spaces.contains c.space then some tCAP_SPACE
    else if !c.has perm then some tCAP_PERM
    else if off + n > c.length || rangeBad c.space (c.base + off) n then some tCAP_BOUNDS
    else if (c.base + off) % align ≠ 0 then some tALIGN
    else none

end Sys2Proof.Machine
end

