-- ==== Sys2Proof/Machine/Windows.lean ====
section
/-! DEFINITION. Windows: descriptors, elements, fills and reads, waiters, the window words, save records and fill ports (spec files 01, 08, 10). -/

namespace Sys2Proof.Machine

/-! Descriptors and elements (R24, R25, R224) -/

/-- Bytes of an element size code. -/
def eszBytes (e : Fin 6) : Nat :=
  match e.val with
  | 0 => 1 | 1 => 2 | 2 => 4 | 3 => 8 | 4 => 16 | _ => 64

def Window.size (w : Window) : Nat := eszBytes w.esz
/-- Fv: the fill that reads see. -/
def Window.fv (w : Window) : Nat := w.fill.toNat - (w.fillNow + w.fillPrev)
/-- Sv: the space that fills see. -/
def Window.sv (w : Window) : Nat := w.cap.toNat - w.fill.toNat - w.shrinkNow

/-- The descriptor (R24). -/
def Window.desc (w : Window) : BitVec 128 :=
  BitVec.ofNat 128 (fields [(0, w.base.toNat), (18, w.esz.val), (24, w.cap.toNat), (40, w.head.toNat), (56, w.fill.toNat),
    (72, w.resv.toNat), (96, min w.waiters.length 255), (104, boolNat w.frozen), (105, boolNat w.multi)])

/-- Store byte of slot j. -/
def Window.slotAt (w : Window) (j : Nat) : Nat := w.base.toNat * 32 + j * w.size
/-- Store byte of logical offset o. -/
def Window.offAt (w : Window) (o : Nat) : Nat := w.slotAt ((w.head.toNat + o) % w.cap.toNat)

/-- Lists of n items each. -/
def chunksOf {α : Type} (n : Nat) : Nat → List α → List (List α)
  | 0, _ => []
  | k + 1, l => if l.isEmpty then [] else l.take n :: chunksOf n k (l.drop n)

/-- Write store bytes; tags of the units touched are cleared, or set by a capability's write (R20). -/
def Elem.write (e : Elem) (a : Nat) (bs : List Byte) (tag : Bool) : Elem :=
  let t := tagClear e.tags a bs.length
  { e with store := e.store.write a bs, tags := if tag then tagSet t (a / 16) true else t,
           bad := e.bad.filter fun u => !(a < 8 * u + 8 && 8 * u < a + bs.length) }

/-- Write elements at logical offsets from o on. -/
def Elem.putAt (e : Elem) (w : Window) (o : Nat) : List (List Byte) → Bool → Elem
  | [], _ => e
  | b :: bs, tag => (e.write (w.offAt o) b tag).putAt w (o + 1) bs tag

/-- Bytes of elements o to o + n − 1. -/
def State.winBytes (s : State) (wr : WinRef) (w : Window) (o n : Nat) : List Byte :=
  match s.elem? wr.at with
  | none => []
  | some e => (List.range n).flatMap fun i => e.store.read (w.offAt (o + i)) w.size

/-- An element among them cannot be corrected. -/
def State.winBad (s : State) (wr : WinRef) (w : Window) (o n : Nat) : Bool :=
  match s.elem? wr.at with
  | none => false
  | some e => (List.range n).any fun i =>
      let a := w.offAt (o + i)
      e.bad.any fun u => a < 8 * u + 8 && 8 * u < a + w.size

/-- Fill whole elements at the tail (R180). -/
def State.winFill (s : State) (wr : WinRef) (w : Window) (bs : List Byte) (tag : Bool) : State :=
  let els := chunksOf w.size bs.length bs
  let n := els.length
  let s := s.modElem wr.at fun e => e.putAt w w.fill.toNat els tag
  (s.setWin wr { w with fill := w.fill + BitVec.ofNat 16 n, fillNow := w.fillNow + n }).active wr.rid

/-- A read of n elements at offset o can complete (R180, R224). -/
def Window.readable (w : Window) (o n : Nat) : Bool := !w.frozen && o + n ≤ w.fv
/-- A fill of n elements can be accepted (R180, R224). -/
def Window.fillable (w : Window) (n : Nat) : Bool := !w.frozen && n ≤ w.sv

/-! Registers as bytes (R178) -/

def Ctx.svcBytes (x : Ctx) (z : Nat) : SVC → List Byte × Bool
  | .s r => (bytesLE z (x.gs r).toNat, false)
  | .v r => (bytesLE z (x.gv r).toNat, false)
  | .c r => (bytesLE z (x.gc r).val.toNat, (x.gc r).tag)

def Ctx.setSvc (x : Ctx) (d : SVC) (bs : List Byte) (tag : Bool) : Ctx :=
  match d with
  | .s r => x.ss r (BitVec.ofNat 64 (ofBytesLE bs))
  | .v r => x.sv r (bytesBeat bs)
  | .c r => x.sc r { val := BitVec.ofNat 128 (ofBytesLE bs), tag := tag }

def SVC_width : SVC → Nat
  | .s _ => 8 | .v _ => 64 | .c _ => 16

/-- The pairings of size, element size and register that the loader passes (R178). -/
def sizeOk (w : Window) (z : Nat) (d : SVC) : Bool :=
  w.cap ≠ 0 && w.size ≤ z && z ≤ SVC_width d &&
    match d with | .c _ => z == 16 && w.size == 16 | _ => true

/-- Offset or count: IMM16 + sA, not wrapped (R177). -/
def Ctx.offset (x : Ctx) (a : SReg) (imm : BitVec 16) : Nat := imm.toNat + (x.gs a).toNat

/-! Waiting at a window (R225) -/

/-- The context joins the waiters of a window and waits. -/
def State.joinWindow (s : State) (r : CtxRef) (x : Ctx) (w : Nat) (i : Instr) : State :=
  let op := (s.wordAt r x.pc.toNat).extractLsb' 56 8
  let s := s.modWin (r.tile.win w) fun d =>
    if d.waiters.contains (.ctx r.ctx) then d else { d with waiters := d.waiters ++ [.ctx r.ctx] }
  s.setCtx r { x with st := .wait, wait := some (.window w), waitIns := some i, waitop := op }

/-- A window word that completes where its condition holds and joins the waiters where it fails. -/
def State.orWait (s : State) (r : CtxRef) (x : Ctx) (w : Nat) (i : Instr) (t : Option State) : State :=
  match t with
  | some s => s
  | none => s.joinWindow r x w i

/-- The window a word names; a word that names none that is configured would not have been loaded (R24). -/
def State.withWin (s : State) (r : CtxRef) (x : Ctx) (w : Nat) (f : WinRef → Window → Option State) : Option State :=
  match s.win? (r.tile.win w) with
  | none => some (s.illegal r x)
  | some d => if d.cap = 0 then some (s.illegal r x) else f (r.tile.win w) d

/-! The window words: none where the condition fails -/

def tryWfill (o : WFillOps) (s : State) (r : CtxRef) (x : Ctx) : Option State :=
  s.withWin r x o.win fun wr w =>
    let z := eszBytes o.sz
    if !sizeOk w z o.d then some (s.illegal r x)
    else if !w.fillable (z / w.size) then none
    else
      let (bs, tag) := x.svcBytes z o.d
      some ((s.winFill wr w bs tag).finish r x)

def tryWread (o : WOffOps) (s : State) (r : CtxRef) (x : Ctx) : Option State :=
  s.withWin r x o.win fun wr w =>
    let z := eszBytes o.sz
    let off := x.offset o.a o.imm
    let n := z / w.size
    if !sizeOk w z o.d then some (s.illegal r x)
    else if !w.readable off n then none
    else if s.winBad wr w off n then some (s.trap r x tECC_UNCORR 0 0)
    else
      let tag := match s.elem? wr.at with | some e => e.tags.contains (w.offAt off / 16) | none => false
      some (s.finish r (x.setSvc o.d (s.winBytes wr w off n) tag))

def tryWupd (o : WOffOps) (s : State) (r : CtxRef) (x : Ctx) : Option State :=
  s.withWin r x o.win fun wr w =>
    let z := eszBytes o.sz
    let off := x.offset o.a o.imm
    if !sizeOk w z o.d then some (s.illegal r x)
    else if !w.readable off (z / w.size) then none
    else
      let (bs, tag) := x.svcBytes z o.d
      some ((s.modElem wr.at fun e => e.putAt w off (chunksOf w.size z bs) tag).finish r x)

def tryWshrink (o : WShrinkOps) (s : State) (r : CtxRef) (x : Ctx) : Option State :=
  s.withWin r x o.win fun wr w =>
    let m := x.offset o.a o.imm
    if m > w.fill.toNat || w.frozen then none
    else
      some ((s.setWin wr { w with head := BitVec.ofNat 16 ((w.head.toNat + m) % w.cap.toNat),
                                  fill := w.fill - BitVec.ofNat 16 m, shrinkNow := w.shrinkNow + m }).finish r x)

/-- The counter that an element increments (R59). -/
def histIndex (t : Ty) (x : Nat) : Nat :=
  match t with
  | .e8m0 => x % 256
  | .f64 => x / 2 ^ 52 % 2 ^ 11 / 8
  | _ => x / 2 ^ t.ffmt.mb % 2 ^ t.ffmt.eb

/-- Each counted element adds 1 to its counter, which saturates (R59). -/
def histAdd (els : List (List Byte)) (codes : List Nat) : List (List Byte) :=
  codes.foldl (fun l c => match l[c]? with
    | some b => l.set c (bytesLE b.length (min (ofBytesLE b + 1) (2 ^ 32 - 1)))
    | none => l) els

def tryVhist (o : VHistOps) (s : State) (r : CtxRef) (x : Ctx) : Option State :=
  s.withWin r x o.win fun wr w =>
    let off := (x.gs o.b).toNat % 2 ^ 16
    if w.size ≠ 4 then some (s.illegal r x)
    else if !w.readable off 256 then none
    else if s.winBad wr w off 256 then some (s.trap r x tECC_UNCORR 0 0)
    else
      let a := x.gv o.a
      let codes := ((List.range o.ty.lanes).filter (x.laneOn o.g o.ty)).map fun i => histIndex o.ty (laneGet o.ty a i)
      let els := histAdd (chunksOf 4 1024 (s.winBytes wr w off 256)) codes
      some ((s.modElem wr.at fun e => e.putAt w off els false).finish r x)

/-! Save records (R182-R184) -/

/-- The pieces of a byte string that do not cross a 64-byte line, with their addresses. -/
def lineSplit : Nat → Nat → List Byte → List (Nat × List Byte)
  | 0, _, _ => []
  | k + 1, a, bs =>
    if bs.isEmpty then [] else
    let n := 64 - a % 64
    (a, bs.take n) :: lineSplit k (a + n) (bs.drop n)

/-- The header of a save record. -/
def saveHeader (w : Window) : List Byte :=
  bytesLE 16 (fields [(0, w.cap.toNat), (16, w.esz.val), (32, w.fill.toNat)])

/-- Tag of 16-byte unit u of the elements, oldest first: a unit of the store that stands there whole (log 18). -/
def State.recTag (s : State) (wr : WinRef) (w : Window) (u : Nat) : Bool :=
  match s.elem? wr.at with
  | none => false
  | some e =>
    let at_ (k : Nat) : Nat := w.offAt (k / w.size) + k % w.size
    at_ (16 * u) % 16 = 0 && at_ (16 * u + 15) == at_ (16 * u) + 15 && e.tags.contains (at_ (16 * u) / 16)

/-- Issue the accesses of one word over the lines of a range; their numbers. -/
def State.issueAll (s : State) : List Acc → List Nat × State
  | [] => ([], s)
  | a :: l =>
    let (i, s) := s.issue a
    let (is, s) := s.issueAll l
    (i :: is, s)

/-- End a wsave or wrest on a window: FROZEN as given. -/
def State.winRelease (s : State) (wr : WinRef) (frozen : Bool) : State :=
  s.modWin wr fun w => { w with frozen := frozen, busy := none }

def tryWsave (o : WSaveOps) (s : State) (r : CtxRef) (x : Ctx) : Option State :=
  s.withWin r x o.win fun wr w =>
    if w.busy.isSome then none
    else
      let c := x.gc o.d
      let off := (x.gs o.a).toNat
      let n := w.fill.toNat * w.size
      match memCheck c [1, 2] pW off (16 + n) 16 with
      | some t => some (s.trap r x t 0 0)
      | none =>
        if s.winBad wr w 0 w.fill.toNat then some (s.trap r x tECC_UNCORR 0 0)
        else
        let data := saveHeader w ++ s.winBytes wr w 0 w.fill.toNat
        let tag (u : Nat) : Bool := c.has pS && u ≠ 0 && s.recTag wr w (u - 1)
        let accs := (lineSplit (data.length + 1) (c.base + off) data).map fun p =>
          ctxAcc s r c p.1 p.2.length o.col.val true p.2
            ((List.range (p.2.length / 16)).map fun i => tag ((p.1 - (c.base + off)) / 16 + i)) [] .store
        let s := s.setWin wr { w with frozen := true, busy := some r.ctx }
        let (ids, s) := s.issueAll accs
        some (s.setCtx r { x with st := .wait, wait := some (.save ids w.frozen), waitIns := some (.wsave o),
                                  waitop := 0x95 })

def tryWrest (o : WRestOps) (s : State) (r : CtxRef) (x : Ctx) : Option State :=
  s.withWin r x o.win fun wr w =>
    if w.busy.isSome then none
    else
      let c := x.gc o.d
      let off := (x.gs o.a).toNat
      let code := match capCheck c with
        | some t => some t
        | none =>
          if c.space ≠ 1 && c.space ≠ 2 then some tCAP_SPACE
          else if !c.has pR then some tCAP_PERM
          else if (c.base + off) % 16 ≠ 0 then some tALIGN
          else if off + 16 > c.length || rangeBad c.space (c.base + off) 16 then some tCAP_BOUNDS
          else none
      match code with
      | some t => some (s.trap r x t 0 0)
      | none =>
        let (id, s) := (s.setWin wr { w with busy := some r.ctx }).issue
          (ctxAcc s r c (c.base + off) 16 o.col.val false [] [] [] .load)
        some (s.setCtx r { x with st := .wait, wait := some (.rest (some id) [] [] w.frozen), waitIns := some (.wrest o),
                                  waitop := 0x96 })

/-- Every element of a wrest has been read: the window changes whole (R184). -/
def State.wrestDone (s : State) (r : CtxRef) (x : Ctx) (o : WRestOps) (hd bs : List Byte) (tags : List Bool) : State :=
  let wr := r.tile.win o.win
  match s.win? wr with
  | none => s
  | some w =>
    let fill := field (ofBytesLE hd) 47 32
    let c2 : BitVec 16 := if o.cap ≠ 0 then o.cap else w.cap
    let w := { w with cap := c2, head := 0, fill := BitVec.ofNat 16 fill, frozen := false, busy := none,
                      fillNow := 0, fillPrev := 0, shrinkNow := 0 }
    let a := w.slotAt 0
    let s := s.modElem wr.at fun e =>
      let e := e.write a bs false
      { e with tags := if (x.gc o.d).has pL then tagRun e.tags (a / 16) tags else e.tags }
    (s.setWin wr w).finish r x

/-- The header of a wrest has come: check it and read the elements (R184). -/
def State.wrestHeader (s : State) (r : CtxRef) (x : Ctx) (o : WRestOps) (hd : List Byte) : State :=
  let wr := r.tile.win o.win
  match s.win? wr with
  | none => s
  | some w =>
    let c := x.gc o.d
    let off := (x.gs o.a).toNat
    let h := ofBytesLE hd
    let c2 := if o.cap ≠ 0 then o.cap.toNat else w.cap.toNat
    let fill := field h 47 32
    if field h 18 16 ≠ w.esz.val || fill > c2 || c2 * w.size > w.resv.toNat * 32 || field h 31 19 ≠ 0 ||
        field h 127 48 ≠ 0 || off + 16 + fill * w.size > c.length then
      (s.winRelease wr w.frozen).trap r x tCAP_BOUNDS (BitVec.ofNat 64 h) (BitVec.ofNat 64 c2)
    else
      let pieces := lineSplit (fill * w.size + 1) (c.base + off + 16) (List.replicate (fill * w.size) 0)
      let prior := w.frozen
      let s := s.setWin wr { w with frozen := true }
      let (ids, s) := s.issueAll (pieces.map fun p => ctxAcc s r c p.1 p.2.length o.col.val false [] [] [] .load)
      let x := { x with wait := some (.rest none hd ids prior) }
      if pieces.isEmpty then s.wrestDone r x o hd [] [] else s.setCtx r x

/-! Fill ports and engine fills (R86, R223, R228, R231) -/

/-- The route an arrival token of a window takes: that of its fill channel, or for an engine fill of the lowest channel bound to its port (R228). -/
def State.fillChan (s : State) (wr : WinRef) : Option Nat :=
  ((s.chans.filter fun p => p.1.at == wr.at && p.2.port == some wr.win).map (·.1.vc)).foldl
    (fun m v => match m with | none => some v | some u => some (min u v)) none

/-- Elements that the transfer of a source has filled so far. -/
def Window.xfer (w : Window) (k : Waiter) : Nat := (tget w.xfers k).getD 0

/-- The transfer of source `k` has ended: its token is due two cycles after the fill's acceptance (R228). -/
def State.transferEnd (s : State) (wr : WinRef) (k : Waiter) (vc : Option Nat) (t : CtlKind) : State :=
  match s.win? wr with
  | none => s
  | some w =>
    let l := tdel w.xfers k
    match vc with
    | none => s.setWin wr { w with xfers := l }
    | some v => s.setWin wr { w with xfers := l, due := w.due ++ [(s.cycle + 2, v,
        { ctlItem t (controlBeat t wr.win wr.elem (w.xfer k) 0) with reply := match k with | .cmd n => some n | _ => none })] }

/-- The records of an element have been written: what reaches it is late (R334). -/
def State.savedElem (s : State) (e : ElemRef) : Bool := match s.elem? e with | some e => e.saved | none => false

/-- Accept one beat as a fill of 64 ÷ size elements; none where space or FROZEN forbids it. In a saved record only the capacity does (R335); what comes for a killed region is discarded, so that its commands end (R253, R276). -/
def State.fillPlain (s : State) (wr : WinRef) (b : List Byte) : Option State :=
  match s.win? wr with
  | none => none
  | some w =>
    let n := b.length / w.size
    if s.killed wr.rid then some s
    else if (if s.savedElem wr.at then w.fill.toNat + n ≤ w.cap.toNat else w.fillable n) then some (s.winFill wr w b false) else none

/-- The same for a beat of the transfer of source `k`. -/
def State.fillBeat (s : State) (wr : WinRef) (k : Waiter) (b : List Byte) : Option State :=
  (s.fillPlain wr b).map fun s => s.modWin wr fun w => { w with xfers := tput w.xfers k (w.xfer k + b.length / w.size) }

/-- The source whose transfer a beat at a fill port belongs to: a request of a third party, or the channel's sender (R223, R228). -/
def Item.source (i : Item) (vc : Nat) : Waiter := match i.reply with | some n => .cmd n | none => .chan vc

/-- The channel whose route the arrival token of a beat's transfer takes: a reply is an engine fill (R223, R228). -/
def Item.arrivalChan (i : Item) (s : State) (wr : WinRef) (vc : Nat) : Option Nat := if i.reply.isSome then s.fillChan wr else some vc

/-- The beat at the head of a fill-port channel is accepted, its transfer ended where it is the last; none where it waits. -/
def State.portFill (s : State) (c : ChanRef) : Option State :=
  match s.chan? c with
  | none => none
  | some x =>
    match x.port, x.items with
    | some wn, i :: _ =>
      if !i.slot || i.fault.isSome then none
      else
        let wr := c.at.win wn
        match s.fillBeat wr (i.source c.vc) (beatBytes i.beat) with
        | none => none
        | some s =>
          match s.takeAt c 0 with
          | none => none
          | some (i, s) =>
            let s := s.sinkItem c.rid i 2 c.elem
            some (if i.last then s.transferEnd wr (i.source c.vc) (i.arrivalChan s wr c.vc) .arrival else s)
    | _, _ => none

/-- Join a window's waiters once. -/
def State.joinWaiters (s : State) (wr : WinRef) (k : Waiter) : State :=
  s.modWin wr fun w => if w.waiters.contains k then w else { w with waiters := w.waiters ++ [k] }

def State.leaveWaiters (s : State) (wr : WinRef) (k : Waiter) : State :=
  s.modWin wr fun w => { w with waiters := w.waiters.filter (· ≠ k) }

/-! The words -/

/-- Fill the tail (R180). -/
def execWfill (o : WFillOps) (s : State) : Out :=
  runWord o.g s fun r x => .next (s.orWait r x o.win (.wfill o) (tryWfill o s r x))

/-- Read at an offset (R180). -/
def execWread (o : WOffOps) (s : State) : Out :=
  runWord o.g s fun r x => .next (s.orWait r x o.win (.wread o) (tryWread o s r x))

/-- Overwrite at an offset (R180). -/
def execWupd (o : WOffOps) (s : State) : Out :=
  runWord o.g s fun r x => .next (s.orWait r x o.win (.wupd o) (tryWupd o s r x))

/-- Drop the oldest elements (R180). -/
def execWshrink (o : WShrinkOps) (s : State) : Out :=
  runWord o.g s fun r x => .next (s.orWait r x o.win (.wshrink o) (tryWshrink o s r x))

/-- Read a word of the descriptor; never waits (R181). -/
def execWstat (o : WStatOps) (s : State) : Out :=
  runWord o.g s fun r x => .next <|
    (s.withWin r x o.win fun _ w =>
      some (s.finish r (x.ss o.d (w.desc.extractLsb' (if o.high then 64 else 0) 64)))).getD s

/-- Write the save record of a window (R183). -/
def execWsave (o : WSaveOps) (s : State) : Out :=
  runWord o.g s fun r x => .next (s.orWait r x o.win (.wsave o) (tryWsave o s r x))

/-- Replace a window's contents with a save record (R184). -/
def execWrest (o : WRestOps) (s : State) : Out :=
  runWord o.g s fun r x => .next (s.orWait r x o.win (.wrest o) (tryWrest o s r x))

/-- Count exponents into a histogram record (R155); the guard masks lanes. -/
def execVhist (o : VHistOps) (s : State) : Out :=
  openWord s fun r x => .next (s.orWait r x o.win (.vhist o) (tryVhist o s r x))

end Sys2Proof.Machine
end

