-- ==== Sys2Proof/Machine/Channels.lean ====
section
/-! DEFINITION. The channel words, the channel forms of vcvt and vsdc, and end (R127, R142, R185-R187). -/

namespace Sys2Proof.Machine

/-- Take n beats: RATE where the declared count would be exceeded (R185, R194). -/
def Ctx.over (x : Ctx) (vc : Fin 32) (n : Nat) : Bool := x.received.get vc + n > x.inRate.get vc

/-- The trap of a beat that carries no data, at ordinal k of channel vc (R285, R291, R346). -/
def State.badBeat (s : State) (r : CtxRef) (x : Ctx) (vc : Fin 32) (k : Nat) : Bad → State
  | .ecc => s.trap r x tECC_UNCORR (BitVec.ofNat 64 k) (BitVec.ofNat 64 vc.val)
  | .bounds => s.trap r x tCAP_BOUNDS (BitVec.ofNat 64 k) (BitVec.ofNat 64 vc.val)
  | .status va out => s.trap r x tISLAND_STATUS (BitVec.ofNat 64 va) (BitVec.ofNat 64 (0x100 + out))

/-- The first beat among n from ordinal k on that carries no data. -/
def State.firstBad (s : State) (c : ChanRef) : Nat → Nat → Option (Nat × Bad)
  | 0, _ => none
  | n + 1, k =>
    match (s.chanItem c k).fault with
    | some b => some (k, b)
    | none => s.firstBad c n (k + 1)

/-- Check and take n beats of a declared channel: the trap, or the beats with the state and context after them (R169, R185, R194). -/
def State.takeBeats (s : State) (r : CtxRef) (x : Ctx) (vc : Fin 32) (n : Nat) : State ⊕ (List Beat × State × Ctx) :=
  let c := r.tile.chan vc.val
  if !x.inMask.getLsbD vc.val then .inl (s.illegal r x)
  else if x.over vc n then .inl (s.trap r x tRATE (BitVec.ofNat 64 vc.val) 0)
  else
    match s.firstBad c n 0 with
    | some (k, b) => .inl (s.badBeat r x vc (x.received.get vc + k) b)
    | none =>
      .inr ((List.range n).map fun i => (s.chanItem c i).beat, s.ctxTake c n,
        { x with received := x.received.set vc.val (x.received.get vc + n) vc.isLt })

/-- Write a beat to its destination: the whole of a v register, bytes 0-7 to an s register (R185). -/
def Ctx.setBeat (x : Ctx) (d : SV) (b : Beat) : Ctx :=
  match d with
  | .v r => x.sv r b
  | .s r => x.ss r (b.extractLsb' 0 64)

/-- Take the next beat (R185). -/
def execRecv (o : RecvOps) (s : State) : Out :=
  runWord o.g s fun r x => .next <|
    match s.takeBeats r x o.vc 1 with
    | .inl s => s
    | .inr (bs, s, x) => s.finish r (x.setBeat o.d (bs.headD 0))

/-- Read a beat without taking it (R185). -/
def execPeek (o : PeekOps) (s : State) : Out :=
  runWord o.g s fun r x => .next <|
    let k := x.offset o.a o.imm
    let i := s.chanItem (r.tile.chan o.vc.val) k
    if !x.inMask.getLsbD o.vc.val then s.illegal r x
    else if x.over o.vc (k + 1) then s.trap r x tRATE (BitVec.ofNat 64 o.vc.val) 0
    else match i.fault with
      | some b => s.badBeat r x o.vc (x.received.get o.vc + k) b
      | none => s.finish r (x.setBeat o.d i.beat)

/-- One beat departs on an output of a task; the pending sample mark and the armed breakpoint act on it (R135, R136, R186). -/
def State.ctxSend (s : State) (r : CtxRef) (x : Ctx) (oc : Fin 32) (b : Beat) : State × Ctx :=
  let n := x.sent.get oc + 1
  let mark := x.tsamp == some oc
  let it : Item := { beat := b, last := n == x.outRate.get oc,
                     sample := if mark then some { postmark := s.cycle, elem := r.elem, oc := oc.val } else none }
  let s := s.depart r.tile oc.val r.ctx x.pc.toNat (x.reserved.getLsbD oc.val) it
  let x := { x with sent := x.sent.set oc.val n oc.isLt, tsamp := if mark then none else x.tsamp }
  match x.armed with
  | some (c, left, m) =>
    if c ≠ oc then (s, x)
    else if left.toNat ≤ 1 then (s.breakHit r.rid r.elem r.ctx x.pc.toNat m.toNat oc.val, { x with armed := none })
    else (s, { x with armed := some (c, left - 1, m) })
  | none => (s, x)

/-- Beats depart one after another. -/
def State.ctxSends (s : State) (r : CtxRef) (x : Ctx) (oc : Fin 32) : List Beat → State × Ctx
  | [] => (s, x)
  | b :: bs =>
    let (s, x) := s.ctxSend r x oc b
    s.ctxSends r x oc bs

/-- Send one beat (R186). -/
def execSend (o : SendOps) (s : State) : Out :=
  runWord o.g s fun r x => .next <|
    if !x.outMask.getLsbD o.oc.val then s.illegal r x
    else if x.sent.get o.oc + 1 > x.outRate.get o.oc then s.trap r x tRATE (BitVec.ofNat 64 o.oc.val) 0
    else
      let b := match o.d with
        | .v v => x.gv v
        | .s a => (x.gs a).setWidth 512
      let (s, x) := s.ctxSend r x o.oc b
      s.finish r x

/-- Whether an A type and a B type form an implemented combination (R163), by their codes. -/
def comboOk (a : Ty) (b : Ty) : Bool :=
  match a, b with
  | .bf16, .bf16 | .f16, .f16 | .e2m1, .e2m1 | .i8, .i8 | .i4, .i4 | .i8, .i4 => true
  | .e4m3, .e4m3 | .e4m3, .e5m2 | .e5m2, .e4m3 | .e5m2, .e5m2 => true
  | .e3m2, .e3m2 | .e3m2, .e2m3 | .e2m3, .e3m2 | .e2m3, .e2m3 => true
  | _, _ => false

/-- An mrow word of a task reads this channel with a B type that a format does not pair with. -/
def unpaired (vc : Fin 32) (fmt : BitVec 5) : Instr → Bool
  | .mrow o => o.vca == vc && match Ty.ofCode fmt with | some a => !comboOk a o.bty | none => true
  | _ => false

/-- Rewrite a format entry from the next cycle on (R187). -/
def execVcset (o : VcSetOps) (s : State) : Out :=
  runWord o.g s fun r x => .next <|
    let w := x.gs o.d
    let fmt := w.extractLsb' 8 5
    let sc := w.extractLsb' 24 8
    if !x.inMask.getLsbD o.vc.val then s.illegal r x
    else if fmt.toNat ≥ 0x14 then s.trap r x tVC_FORMAT (fmt.setWidth 64) 0
    else if fmt == Ty.sd.code && (sc.toInt < -64 || sc.toInt > 64) then s.trap r x tVC_FORMAT 0 0
    else if (s.words r x).any (unpaired o.vc fmt) then s.trap r x tTYPE_COMBO 0 0
    else (s.modChan (r.tile.chan o.vc.val) fun c => { c with newFmt := some (fmt, sc) }).finish r x

/-- The source beat of a channel form (R142). -/
def State.formBeat (s : State) (r : CtxRef) (x : Ctx) (vc : Fin 32) (t : Ty) (f : Beat → Ctx → Ctx) : State :=
  let c := r.tile.chan vc.val
  if !x.inMask.getLsbD vc.val then s.illegal r x
  else if x.over vc 1 then s.trap r x tRATE (BitVec.ofNat 64 vc.val) 0
  else if s.fmt c ≠ t.code.toNat then s.trap r x tVC_FORMAT (BitVec.ofNat 64 (s.fmt c)) 0
  else
    match s.takeBeats r x vc 1 with
    | .inl s => s
    | .inr (bs, s, x) => s.finish r (f (bs.headD 0) x)

/-- vcvt of a channel's next beat (R142, R147). -/
def execVcvtChannel (o : VCvtChOps) (s : State) : Out :=
  openWord s fun r x => .next (s.formBeat r x o.a o.sty fun b x => x.vcvt o.g o.rm o.ty o.sty o.sat o.part.val o.d b)

/-- vsdc of a channel's next beat (R142, R156). -/
def execVsdcChannel (o : VSdcChOps) (s : State) : Out :=
  openWord s fun r x => .next (s.formBeat r x o.a o.ty fun b x => x.vsdc o.g o.ty o.half o.d b)

/-! end (R127) -/

/-- The lowest declared output short of its count. -/
def Ctx.shortOut (x : Ctx) : Option (Fin 32) :=
  (List.finRange 32).find? fun n => x.outMask.getLsbD n.val && x.sent.get n < x.outRate.get n

/-- Release a context's unused slot reservations (R231). -/
def State.unreserve (s : State) (r : CtxRef) (x : Ctx) : State :=
  (List.finRange 32).foldl (fun s n =>
    if x.reserved.getLsbD n.val then
      match s.route? r.tile n.val with
      | some c => s.modChan c fun y => { y with reserved := y.reserved - (x.outRate.get n - x.sent.get n) }
      | none => s
    else s) s

/-- The context's firing is over: nothing received, sent or reserved; no element in hand (R127, R231, R308). -/
def Ctx.closed (x : Ctx) : Ctx :=
  { x with received := Vector.replicate 32 0, sent := Vector.replicate 32 0, reserved := 0, inHand := [],
           loops := x.loops.map fun l => { l with active := false } }

/-- Close a firing (R127). -/
def execEnd_ (s : State) : Out :=
  openWord s fun r x => .next <|
    match x.shortOut with
    | some n => s.trap r x tRATE (BitVec.ofNat 64 n.val) (BitVec.ofNat 64 (x.sent.get n))
    | none =>
      let s := (List.finRange 32).foldl (fun s n =>
        if x.inMask.getLsbD n.val then s.ctxTake (r.tile.chan n.val) (x.inRate.get n - x.received.get n) else s) s
      let s := s.unreserve r x
      let x := ((x.running.count 0x02 1).count 0x03 1).closed
      let x := { x with fireCnt := x.fireCnt + 1, pc := x.entry, st := .idle }
      if x.tripCnt ≠ 0 && x.fireCnt == x.tripCnt then
        ((s.setCtx r { x with st := .done }).active r.rid).sendDone r
      else (s.setCtx r x).active r.rid

end Sys2Proof.Machine
end

