-- ==== Sys2Proof/Machine/MemoryWords.lean ====
section
/-! DEFINITION. Barrier words, memory words, fences and completion tokens; what completes when an access completes (R122, R123, R188-R197, R244-R255). -/

namespace Sys2Proof.Machine

/-! Beats of islands on their way to a channel (R195, R210, R230) -/

/-- What reaches a channel of a saved element is late (R334). -/
def State.savedAt (s : State) (c : ChanRef) : Bool := s.savedElem c.at

/-- Send what waits, in order for each channel; a beat takes only a slot that no sender holds reserved. -/
def State.outGo (s : State) : List (ChanRef × Item) → List (ChanRef × Item) → State
  | [], kept => { s with outbox := kept }
  | p :: l, kept =>
    match s.chan? p.1 with
    | none => s.outGo l kept
    | some c =>
      if kept.any (·.1 == p.1) || s.savedAt p.1 || (p.2.slot && c.free = 0) || (!p.2.slot && !c.held.isEmpty) then s.outGo l (kept ++ [p])
      else (s.push p.1.at p.1 (.item p.2)).outGo l kept

def State.outRun (s : State) : State := s.outGo s.outbox []

/-- An island sends a beat or a token to a channel. -/
def State.toChan (s : State) (c : ChanRef) (i : Item) : State :=
  ({ s with outbox := s.outbox ++ [(c, i)] }).outRun

/-! Barrier words (R189, R190) -/

/-- Re-initialise a barrier (R189). -/
def execBarInit (o : BarInitOps) (s : State) : Out :=
  runWord o.g s fun r x => .next <|
    let k : BarRef := ⟨r.rid, r.elem, o.bar.val⟩
    let n := (x.gs o.d).extractLsb' 0 8
    (s.setBar k { s.bar k with init := n, pending := n, relp := false }).finish r x

/-- Every earlier access of every colour of a context, not yet complete at device scope. -/
def State.owed (s : State) (r : CtxRef) : List Nat := (s.earlier r fun _ => true).filter fun i => !s.doneAt i 2

/-- A deferred release behind which another of its context must stay. -/
def Deferred.blocks (d e : Deferred) : Bool :=
  d.r == e.r && match d.what, e.what with
    | .arrive b _, .arrive c _ => b == c
    | .remote t _, .remote u _ => t == u
    | .ctok a, .ctok b => a == b
    | _, _ => false

/-- A release takes place: an arrival is counted and its phase recorded where no later word has written the register, or a token leaves. -/
def State.release (s : State) (d : Deferred) : State :=
  match d.what with
  | .arrive b dest =>
    let ph := (s.bar ⟨d.r.rid, d.r.elem, b⟩).phase
    (s.arrive d.r.tile b true).modCtx d.r fun x =>
      if x.locks.contains dest then x.ss dest (if ph then 1 else 0) else x
  | .remote t b => s.sendArrival ⟨d.r.rid, t⟩ d.r.elem b (d.scope == .device) none none
  | .ctok oc => s.sendCtl d.r.tile oc (ctlItem .completion (controlBeat .completion 0 0 0 0))

/-- Whether a release may take place now. -/
def State.released (s : State) (d : Deferred) : Bool :=
  d.ids.all (fun i => s.doneAt i d.scope.level) &&
    match d.what with | .ctok oc => s.ctlRoom d.r.tile oc | _ => true

/-- Make every release that is due and that `p` names, in order. -/
def State.deferGo (s : State) (p : Deferred → Bool) : List Deferred → List Deferred → State
  | [], kept => { s with deferred := kept }
  | d :: l, kept =>
    if !p d || kept.any (·.blocks d) || !s.released d then s.deferGo p l (kept ++ [d])
    else (s.release d).deferGo p l kept

def Later.isArrival : Later → Bool
  | .arrive .. => true
  | _ => false

/-- Remote arrivals and completion tokens leave as soon as they may; an arrival at the tile itself has its place among the tile's context operations (R27, R188). -/
def State.deferRun (s : State) : State := s.deferGo (fun d => !d.what.isArrival) s.deferred []

def State.defer (s : State) (d : Deferred) : State := ({ s with deferred := s.deferred ++ [d] }).deferRun

/-- A register awaits the phase of an arrival not yet counted; s0 awaits none. -/
def Ctx.lock (x : Ctx) (d : SReg) : Ctx := if d = 0 then x else { x with locks := x.locks.filter (· ≠ d) ++ [d] }

/-- The earlier arrivals of a context that would record their phase in a register record it nowhere: a later word writes it. -/
def State.forget (s : State) (r : CtxRef) (d : SReg) : State :=
  { s with deferred := s.deferred.map fun e => match e.what with
      | .arrive b q => if e.r = r ∧ q = d then { e with what := .arrive b 0 } else e
      | _ => e }

/-- Arrive at a barrier of the tile (R189): an arrival that must wait is deferred, and the context continues. -/
def execBarArrive (o : BarOps) (s : State) : Out :=
  runWord o.g s fun r x => .next <|
    let k : BarRef := ⟨r.rid, r.elem, o.bar.val⟩
    let owed := if o.ar then s.owed r else []
    if owed.isEmpty then
      let ph := (s.bar k).phase
      (s.finish r (x.ss o.d (if ph then 1 else 0))).arrive r.tile o.bar.val o.ar
    else
      ((s.forget r o.d).finish r (x.lock o.d)).defer { r := r, ids := owed, scope := .device, what := .arrive o.bar.val o.d }

/-- Wait for a phase to complete (R189); later words issue only after it, so .acq needs nothing more (R250). -/
def execBarWait (o : BarOps) (s : State) : Out :=
  runWord o.g s fun r x => .next <|
    let ph := (x.gs o.d).getLsbD 0
    if (s.bar ⟨r.rid, r.elem, o.bar.val⟩).phase ≠ ph then s.finish r x
    else s.setCtx r { x with st := .wait, wait := some (.barrier o.bar.val ph), waitIns := some (.barWait o), waitop := 0x9B }

/-- The wait of bar.aw on the phase it recorded. -/
def State.awWait (s : State) (r : CtxRef) (x : Ctx) (o : BarOps) : State :=
  if (s.bar ⟨r.rid, r.elem, o.bar.val⟩).phase ≠ x.awPhase then s.finish r { x with awarr := false }
  else s.setCtx r { x with st := .wait, wait := some (.barrier o.bar.val x.awPhase), waitIns := some (.barAw o), waitop := 0x9B }

/-- The arrival of bar.aw, then its wait. -/
def State.awArrive (s : State) (r : CtxRef) (x : Ctx) (o : BarOps) : State :=
  let ph := (s.bar ⟨r.rid, r.elem, o.bar.val⟩).phase
  let x := { (x.ss o.d (if ph then 1 else 0)).running with awPhase := ph, awarr := true }
  let s := (s.setCtx r x).arrive r.tile o.bar.val o.ar
  s.awWait r ((s.ctx? r).getD x) o

/-- Arrive, then wait (R189); with AWARR set it arrives no second time. -/
def execBarAw (o : BarOps) (s : State) : Out :=
  runWord o.g s fun r x => .next <|
    if x.awarr then s.awWait r x o
    else
      let owed := if o.ar then s.owed r else []
      if owed.isEmpty then s.awArrive r x o
      else s.setCtx r { x with st := .wait, wait := some (.fence owed .device), waitIns := some (.barAw o), waitop := 0x9B }

/-- Send an arrival to another tile (R190). -/
def execBarRemote (o : BarRemoteOps) (s : State) : Out :=
  runWord o.g s fun r x => .next <|
    match s.tile? ⟨r.rid, o.target.toNat⟩ with
    | none => s.illegal r x
    | some _ =>
      let b := (x.gs o.d).toNat % 2 ^ 7
      (s.finish r x).defer { r := r, ids := if o.rel then s.owed r else [],
                             scope := if o.rel then .device else .region, what := .remote o.target.toNat b }

/-! Memory words (R191-R195) -/

/-- A context waits for a read's data. -/
def State.waitLoad (s : State) (r : CtxRef) (x : Ctx) (i : Instr) (op : Byte) (a : Acc) : State :=
  let (id, s) := s.issue a
  s.setCtx r { x with st := .wait, wait := some (.load id), waitIns := some i, waitop := op }

/-- Load; waits for its data (R192). -/
def execMld (o : MemOps) (s : State) : Out :=
  runWord o.g s fun r x => .next <|
    let c := x.gc o.cap
    let z := eszBytes o.sz
    let off := x.offset o.a o.imm
    match memCheck c [1, 2, 3, 4] pR off z z with
    | some t => s.trap r x t 0 0
    | none => s.waitLoad r x (.mld o) 0x38 (ctxAcc s r c (c.base + off) z o.col.val false [] [] [] .load)

/-- Store; issued to its port without waiting (R192). -/
def execMst (o : MemOps) (s : State) : Out :=
  runWord o.g s fun r x => .next <|
    let c := x.gc o.cap
    let z := eszBytes o.sz
    let off := x.offset o.a o.imm
    match memCheck c [1, 2, 3, 4] pW off z z with
    | some t => s.trap r x t 0 0
    | none =>
      let data := match o.d with
        | .s a => bytesLE z (x.gs a).toNat
        | .v v => bytesLE z (x.gv v).toNat
      let (_, s) := s.issue (ctxAcc s r c (c.base + off) z o.col.val true data [] (if o.ar then s.owed r else []) .store)
      s.finish r x

/-- Load a capability with its tag (R122). -/
def execCld (o : CLdOps) (s : State) : Out :=
  runWord o.g s fun r x => .next <|
    let c := x.gc o.a
    let off := (x.gs o.b).toNat
    match memCheck c [1] pR off 16 16 with
    | some t =>
      s.trap r x (if c.tag && !c.reservedUse && c.space = 1 && !(c.has pR && c.has pL) then tCAP_PERM else t) 0 0
    | none =>
      if !c.has pL then s.trap r x tCAP_PERM 0 0
      else s.waitLoad r x (.cld o) 0x23 (ctxAcc s r c (c.base + off) 16 o.col.val false [] [] [] .load)

/-- Store a capability with its tag (R123). -/
def execCst (o : CStOps) (s : State) : Out :=
  runWord o.g s fun r x => .next <|
    let c := x.gc o.a
    let v := x.gc o.c
    let off := (x.gs o.b).toNat
    let short := !c.has pW || (v.tag && !c.has pS)
    match memCheck c [1] pW off 16 16 with
    | some t => s.trap r x (if c.tag && !c.reservedUse && c.space = 1 && short then tCAP_PERM else t) 0 0
    | none =>
      if short then s.trap r x tCAP_PERM 0 0
      else
        let (_, s) := s.issue (ctxAcc s r c (c.base + off) 16 o.col.val true (bytesLE 16 v.val.toNat) [v.tag]
          (if o.rel then s.owed r else []) .store)
        s.finish r x

/-- Stream beats of a channel to memory (R194). -/
def execMwrt (o : MWrtOps) (s : State) : Out :=
  runWord o.g s fun r x => .next <|
    let c := x.gc o.cap
    let n := (x.gs o.d).toNat
    let off := x.offset o.a o.imm
    if !x.inMask.getLsbD o.vc.val then s.illegal r x
    else if n = 0 then s.finish r x
    else if x.over o.vc n then s.trap r x tRATE (BitVec.ofNat 64 o.vc.val) 0
    else match memCheck c [1, 2, 3, 4] pW off (64 * n) 64 with
      | some t => s.trap r x t 0 0
      | none =>
        match s.takeBeats r x o.vc n with
        | .inl s => s
        | .inr (bs, s, x) =>
          let accs := (bs.zip (List.range n)).map fun p =>
            ctxAcc s r c (c.base + off + 64 * p.2) 64 o.col.val true (beatBytes p.1) [] [] .store
          let (_, s) := s.issueAll accs
          s.finish r x

/-- The reply target of a register: element and channel (R195, R208). -/
def replyTarget (rid : Nat) (w : Word) : ChanRef := ⟨rid, w.toNat % 2 ^ 16, w.toNat / 2 ^ 16 % 2 ^ 5⟩

/-- A completion register (R202). -/
structure CompReg where
  elem : Nat
  vc : Nat
  eot : Bool
  bar : Nat
  arr : Bool

def compReg (w : Word) : CompReg :=
  let n := w.toNat
  { elem := n % 2 ^ 16, vc := n / 2 ^ 16 % 2 ^ 5, eot := bitOf n 21, bar := n / 2 ^ 22 % 2 ^ 7, arr := bitOf n 29 }

/-- The deferred arrivals of one context that may be counted now: those of bar.arrive.rel, then that of a bar.aw.rel (R189). -/
def State.ctxArrivals (s : State) (r : CtxRef) : State :=
  let s := s.deferGo (fun d => d.r == r && d.what.isArrival) s.deferred []
  match s.ctx? r with
  | none => s
  | some x =>
    match x.wait, x.waitIns with
    | some (.fence ids sc), some (.barAw o) => if ids.all fun i => s.doneAt i sc.level then s.awArrive r x.running o else s
    | _, _ => s

/-- A context of this tile owes an arrival. -/
def State.owesArrival (s : State) (e : ElemRef) : Bool :=
  (s.deferred.any fun d => d.r.tile == e && d.what.isArrival) ||
  s.ctxs.any fun p => p.1.tile == e && match p.2.wait, p.2.waitIns with | some (.fence ..), some (.barAw _) => true | _, _ => false

/-- The deferred arrivals of a tile's contexts up to `n`, by ascending context (R27, R188). -/
def State.tileArrivals (s : State) (e : ElemRef) (n : Nat) : State :=
  if s.owesArrival e then (List.range n).foldl (fun s c => s.ctxArrivals (e.ctx c)) s else s

/-- The tile still has its issue of this cycle before it. -/
def State.grantDue (s : State) (e : ElemRef) : Bool := s.agenda.contains (.issueGrant, .elem e)

/-- A context may still issue in this cycle: its tile has its issue before it, or the word granted there stands behind the other tiles (R133). -/
def State.issueDue (s : State) (r : CtxRef) : Bool := s.grantDue r.tile || s.agenda.contains (.issueGrant, .ctx r)

/-- A target channel exists and is declared by the image. -/
def State.targetOk (s : State) (c : ChanRef) : Bool :=
  match s.chan? c with | some x => x.en | none => false

/-- Read beats of memory for a third party (R195). -/
def execMreq (o : MReqOps) (s : State) : Out :=
  runWord o.g s fun r x => .next <|
    let c := x.gc o.a
    let m := o.m.val + 1
    let off := (x.gs o.b).toNat
    let t := replyTarget r.rid (x.gs o.c)
    match memCheck c [1, 2, 3, 4] pR off (64 * m) 64 with
    | some k => s.trap r x k 0 0
    | none =>
      if !s.targetOk t then s.trap r x tISLAND_STATUS (x.gs o.c) 0
      else
        let accs := (List.range m).map fun k =>
          ctxAcc s r c (c.base + off + 64 * k) 64 o.col.val false [] [] []
            (.reply t k (k + 1 == m) ((x.gs o.c).getLsbD 31))
        let (_, s) := s.issueAll accs
        s.finish r x

/-- Read beats of a window for a third party, at its controller (R195). The window is tested before the target, whose order the rule does not give (DESIGN CHOICE, log 66). -/
def execWreq (o : WReqOps) (s : State) : Out :=
  runWord o.g s fun r x => .next <|
    let a := x.gs o.a
    let wr : WinRef := ⟨r.rid, a.toNat % 2 ^ 16, a.toNat / 2 ^ 16 % 2 ^ 6⟩
    let t := replyTarget r.rid (x.gs o.c)
    let bad := match s.win? wr with | some w => w.cap == 0 | none => true
    if bad then s.trap r x tISLAND_STATUS 0 0
    else if !s.targetOk t then s.trap r x tISLAND_STATUS (x.gs o.c) 0
    else
      let id := s.nextAcc
      let cmd : Cmd := { id := id, r := r, port := s.reqPort r.tile 1, isl := 0, ins := .wreq o,
                         w := [a, x.gs o.b, x.gs o.c], colour := o.col.val, phase := .running }
      (({ s with nextAcc := id + 1, cmds := s.cmds ++ [cmd] }).joinWaiters wr (.cmd id)).finish r x

/-- Serve a wreq at its source window: its beats leave for the target; none where it waits. -/
def State.serveWreq (s : State) (c : Cmd) (o : WReqOps) : Option State :=
  let a := c.w.getD 0 0
  let off := (c.w.getD 1 0).toNat
  let tw := c.w.getD 2 0
  let wr : WinRef := ⟨c.r.rid, a.toNat % 2 ^ 16, a.toNat / 2 ^ 16 % 2 ^ 6⟩
  let t := replyTarget c.r.rid tw
  let m := o.m.val + 1
  match s.win? wr with
  | none => none
  | some w =>
    let per := 64 / w.size
    if !w.readable off (per * m) then none
    else
      let s := (List.range m).foldl (fun s k =>
        s.toChan t { beat := bytesBeat (s.winBytes wr w (off + per * k) per), last := k + 1 == m, reply := some c.id, edge := c.port.port,
                     fault := if s.winBad wr w (off + per * k) per then some .ecc else none }) s
      let s := if tw.getLsbD 31 then s.toChan t (ctlItem .endOfTile (controlBeat .endOfTile 0 0 0 0)) else s
      some (({ s with cmds := s.cmds.filter (·.id ≠ c.id) }).active c.r.rid)

/-! Fences and completion tokens (R196, R197) -/

def State.fenceWord (s : State) (r : CtxRef) (x : Ctx) (i : Instr) (mask : Byte) (sc : Scope) : State :=
  let ids := (s.earlier r fun c => mask.getLsbD c).filter fun i => !s.doneAt i sc.level
  if ids.isEmpty then s.finish r x
  else s.setCtx r { x with st := .wait, wait := some (.fence ids sc), waitIns := some i, waitop := 0x3C }

/-- Wait for earlier accesses of the masked colours at region scope (R196). -/
def execFenceRegion (o : FenceOps) (s : State) : Out :=
  runWord o.g s fun r x => .next (s.fenceWord r x (.fenceRegion o) o.mask .region)

/-- The same at device scope (R196). -/
def execFenceDevice (o : FenceOps) (s : State) : Out :=
  runWord o.g s fun r x => .next (s.fenceWord r x (.fenceDevice o) o.mask .device)

/-- The same at system scope (R196). -/
def execFenceSystem (o : FenceOps) (s : State) : Out :=
  runWord o.g s fun r x => .next (s.fenceWord r x (.fenceSystem o) o.mask .system)

/-- A completion token leaves once the masked accesses are complete (R197). -/
def execCtok (o : CtokOps) (s : State) : Out :=
  runWord o.g s fun r x => .next <|
    if !x.outMask.getLsbD o.oc.val then s.illegal r x
    else
      let ids := (s.earlier r fun c => o.mask.getLsbD c).filter fun i => !s.doneAt i o.scope.level
      (s.finish r x).defer { r := r, ids := ids, scope := o.scope, what := .ctok o.oc.val }

/-! What a completed access releases -/

/-- The data of a waiting mld or cld has come (R122, R192). -/
def State.loadDone (s : State) (r : CtxRef) (x : Ctx) (bs : List Byte) (tags : List Bool) (bad : Bool) : State :=
  if bad then s.trap r x tECC_UNCORR 0 0
  else match x.waitIns with
    | some (.mld o) =>
      s.finish r (match o.d with
        | .s d => x.ss d (BitVec.ofNat 64 (ofBytesLE bs))
        | .v d => x.sv d (bytesBeat bs))
    | some (.cld o) => s.finish r (x.sc o.d { val := BitVec.ofNat 128 (ofBytesLE bs), tag := tags.headD false })
    | _ => s

/-- The results of reads, in order; none while one is missing. -/
def State.results (s : State) : List Nat → Option (List Byte × List Bool × Bool)
  | [] => some ([], [], false)
  | i :: is =>
    match s.acc? i with
    | none => none
    | some a =>
      match a.result, s.results is with
      | some (b, t, e), some (bs, ts, es) => some (b ++ bs, t ++ ts, e || es)
      | _, _ => none

/-- Advance a context whose wait an access may have ended. -/
def State.wakeCtx (s : State) (r : CtxRef) : State :=
  match s.ctx? r with
  | none => s
  | some x =>
    match x.wait with
    | some (.load id) =>
      match s.results [id] with
      | some (bs, ts, e) => (s.dropAcc id).loadDone r x bs ts e
      | none => s
    | some (.fence ids sc) =>
      if ids.all fun i => s.doneAt i sc.level then
        match x.waitIns with
        -- its arrival has its place among the tile's context operations (R188)
        | some (.barAw _) => s
        | _ => s.finish r x
      else s
    | some (.save ids prior) =>
      if ids.all fun i => s.doneAt i 2 then
        match x.waitIns with
        | some (.wsave o) =>
          let s := { s with accs := s.accs.filter fun a : Acc => !(ids.contains a.id && a.level = 3) }
          (s.winRelease (r.tile.win o.win) (if o.keep then true else prior)).finish r x
        | _ => s
      else s
    | some (.rest (some id) _ _ _) =>
      match x.waitIns, s.results [id] with
      | some (.wrest o), some (bs, _, e) =>
        let s := s.dropAcc id
        if e then
          ((s.modWin (r.tile.win o.win) fun w => { w with busy := none })).trap r x tECC_UNCORR 0 0
        else s.wrestHeader r x o bs
      | _, _ => s
    | some (.rest none hd ids prior) =>
      match x.waitIns, s.results ids with
      | some (.wrest o), some (bs, ts, e) =>
        let s := ids.foldl State.dropAcc s
        if e then (s.winRelease (r.tile.win o.win) prior).trap r x tECC_UNCORR 0 0
        else s.wrestDone r x o hd bs ts
      | _, _ => s
    | some (.postRelease ids) =>
      if ids.all fun i => s.doneAt i 2 then
        match x.waitIns with
        | some (.post o) =>
          let rs := (s.res? r.rid).getD {}
          let (d, s) := s.later 1
          let tile := match s.elem? r.tile with | some e => e.tileId | none => 0
          let s := { s with posts := s.posts ++ [(d, tile, r, rs.tag, o.block.toNat, (x.gv o.d).extractLsb' 0 256)] }
          s.setCtx r { x with wait := some .postSent }
        | _ => s
      else s
    | _ => s

def State.wakeAll (s : State) : State := (s.ctxs.map (·.1)).foldl State.wakeCtx s

/-- Beats of mreq whose data have come leave in address order (R195). -/
def State.replyGo (s : State) : List Acc → State
  | [] => s
  | a :: l =>
    match a.purpose, a.result with
    | .reply c k last eot, some (bs, _, e) =>
      let early := s.accs.any fun b => match b.purpose with
        | .reply _ j _ _ => b.id + k == a.id + j && j < k
        | _ => false
      if early then s.replyGo l
      else
        let s := (s.dropAcc a.id).toChan c { beat := bytesBeat bs, last := last, reply := some (a.id - k), edge := a.port.port, fault := if e then some (a.fault.getD .ecc) else none }
        (if last && eot then s.toChan c (ctlItem .endOfTile (controlBeat .endOfTile 0 0 0 0)) else s).replyGo l
    | _, _ => s.replyGo l

/-- Everything that completed accesses release: replies, waiting words, arrivals and tokens. -/
def State.settle (s : State) : State := ((s.replyGo s.accs).wakeAll).deferRun

/-- A wsave that still waits names this write. -/
def State.saveHolds (s : State) (id : Nat) : Bool :=
  s.ctxs.any fun p => match p.2.wait with | some (.save ids _) => ids.contains id | _ => false

/-- An access finishes at its controller (R244): a read's value is fixed, a write is complete at one scope more. -/
def execAccessComplete (s : State) : Out :=
  match s.arg with
  | .access id sc =>
    match s.acc? id with
    | none => .next s
    | some a =>
      if a.atomic && a.level = 0 then .next s
      else if !a.write && !a.atomic then
        if a.level ≠ 0 || !s.canRise a 1 then .next s
        else if !a.place.ok a.len then .fault .noSuchAddress
        else
          let res := (s.regionView a.rid).readPlace a.place a.len
          let s := { s with serial := s.serial + a.len }
          .next ((s.modAcc id fun a => { a with level := 3, result := some res }).settle.active a.rid)
      else if !s.canRise a sc.level then .next s
      else
        let (d, s) := s.later 0
        match sc with
        | .region =>
          .next (({ s with accs := (s.accs.filter fun b : Acc => b.id ≠ id) ++ [{ a with level := 1, due := d }] }).settle.active a.rid)
        | .device =>
          if !a.place.ok a.len then .fault .noSuchAddress
          else
            let s := s.modAcc id fun a => { a with level := 2, due := d }
            .next ((s.writePlace a.place a.data a.tags).settle.active a.rid)
        | .system =>
          let s := if s.saveHolds id then s.modAcc id fun a => { a with level := 3 } else s.dropAcc id
          .next (s.settle.active a.rid)
  | _ => .next s

/-- Arrivals that have reached a tile are counted, by ascending source element; an engine's note is written first (R188, R202). -/
def State.countArrivals (s : State) (e : ElemRef) : List Remote → State
  | [] => s
  | m :: l =>
    let s := match m.note with
      | some w => let k : BarRef := ⟨e.rid, e.elem, m.bar⟩; s.setBar k { s.bar k with note := w }
      | none => s
    let s := s.arrive e m.bar m.rel
    (match m.token with
      | some k => s.toChan k (ctlItem .endOfTile (controlBeat .endOfTile 0 0 0 0))
      | none => s).countArrivals e l

/-- Insert by ascending source, behind equal ones. -/
def insertSrc (m : Remote) : List Remote → List Remote
  | [] => [m]
  | n :: l => if m.src < n.src then m :: n :: l else n :: insertSrc m l

/-- Remote and engine arrivals reach a tile's barriers (R188, R190); once the tile's issue of the cycle is over, the deferred arrivals of its contexts follow that are still to be counted. -/
def execRemoteArrival (s : State) : Out :=
  match s.arg with
  | .elem e =>
    let due (p : ElemRef × Remote) : Bool := p.1 == e && p.2.due ≤ s.cycle
    let ms := ((s.remotes.filter due).map (·.2)).foldl (fun l m => insertSrc m l) []
    let s := ({ s with remotes := s.remotes.filter fun p => !due p }).countArrivals e ms
    .next (if s.grantDue e then s else s.tileArrivals e 8)
  | _ => .next s

end Sys2Proof.Machine
end

