-- ==== Sys2Proof/Machine/Contexts.lean ====
section
/-! DEFINITION. Freezing, killing, restarting a context; markers, drains, checkpoints and stops of a region (R21, R130, R132, R219, R231, R327-R330, R340, R360, R380). -/

namespace Sys2Proof.Machine

/-! Contexts (R21) -/

/-- The tile context that a target register of ctxctl names, bound or not (R132). -/
def State.ctlTarget (s : State) (rid : Nat) (w : Word) : Option CtxRef :=
  let n := w.toNat
  let c := n / 2 ^ 24 % 8
  let e : Option ElemRef :=
    if w.getLsbD 31 then some ⟨rid, n % 2 ^ 16⟩
    else (s.elems.find? fun p => p.1.rid == rid && p.2.kind == .tile &&
      p.2.die == n % 8 && p.2.x == n / 2 ^ 8 % 2 ^ 5 && p.2.y == n / 2 ^ 16 % 2 ^ 5).map (·.1)
  match e with
  | none => none
  | some e => match s.tile? e with
    | some _ => some (e.ctx c)
    | none => none

/-- The target of a ctxctl.freeze that a context waits on. -/
def State.freezeTarget (s : State) (r : CtxRef) (x : Ctx) : Option CtxRef :=
  match x.wait, x.waitIns with
  | some .loader, some (.ctxctlFreeze o) => s.ctlTarget r.rid (x.gs o.x)
  | _, _ => none

/-- A ctxctl.freeze abandoned while it waits leaves its target alone, unless another one waits for the same target (R10, R107). -/
def State.dropFreeze (s : State) (r : CtxRef) (x : Ctx) : State :=
  match s.freezeTarget r x with
  | none => s
  | some q =>
    if s.ctxs.any fun p => p.1 != r && s.freezeTarget p.1 p.2 == some q then s
    else s.modCtx q fun y => { y with freeze := y.freeze.filter (· ≠ .ctl) }

/-- The generators that an invalidation paused, and none of the others pauses, go on (R292). -/
def State.unpause (s : State) (i : Inval) (others : List Inval) : State :=
  { s with gens := tmap s.gens fun k g =>
      if i.paused.contains k && !others.any (·.paused.contains k) then { g with paused := false } else g }

/-- An invalidation whose tlbinv is abandoned ends, and the generators it paused go on (R107, R137). -/
def State.dropInval (s : State) (r : CtxRef) : State :=
  let rest := s.invals.filter fun v => v.owner ≠ .ctx r
  (s.invals.filter fun v => v.owner == .ctx r).foldl (fun s i => s.unpause i rest) { s with invals := rest }

/-- A wait that a freeze abandons: what the waiting word holds elsewhere goes. -/
def State.abandon (s : State) (r : CtxRef) (x : Ctx) : State :=
  match x.wait with
  | some (.window w) => s.leaveWaiters (r.tile.win w) (.ctx r.ctx)
  | some (.load id) => s.dropAcc id
  | some (.save ids prior) =>
    let s := match x.waitIns with | some (.wsave o) => s.winRelease (r.tile.win o.win) prior | _ => s
    -- the record bytes are left unspecified (R183): free values, written and unwritten alike
    ids.foldl (fun s id => match s.acc? id with
      | none => s
      | some a =>
        let bs := (List.range a.len).map fun i => Config.freeByte (s.serial + i)
        let s := { s with serial := s.serial + a.len }
        let s := s.modAcc id fun a => { a with data := bs }
        let s := if 2 ≤ a.level then s.writePlace a.place bs a.tags else s
        if a.level = 3 then s.dropAcc id else s) s
  | some (.rest h _ ids prior) =>
    let s := match x.waitIns with | some (.wrest o) => s.winRelease (r.tile.win o.win) prior | _ => s
    (h.toList ++ ids).foldl State.dropAcc s
  | some (.accept id) => { s with cmds := s.cmds.filter fun c : Cmd => c.id ≠ id }
  | some (.reply id) => { s with cmds := s.cmds.filter fun c : Cmd => c.id ≠ id }
  | some .loader => (s.dropFreeze r x).dropInval r
  | _ => s

/-- A waiting word that keeps its operation when a freeze meets it (R138, R219, R380). -/
def Ctx.keeps (x : Ctx) : Bool :=
  match x.wait with
  | some (.reply _) => match x.waitIns with | some (.xbar _) => false | _ => true
  | some .postSent => true
  | _ => false

/-- Rows of a context stand in the array (R167). -/
def State.rowsOf (s : State) (r : CtxRef) : Bool :=
  match s.tile? r.tile with | some t => t.rows.any (·.ctx == r.ctx) | none => false

/-- Freezes meet a waiting context (R21): a word that keeps its operation goes on to wait for its answer, and a ptake asks for its withdrawal; another wait is abandoned. -/
def State.freezeWait (s : State) (r : CtxRef) (x : Ctx) (fs : List Freeze) : State :=
  if x.keeps then
    let s := match x.wait with
      | some (.reply id) => { s with cmds := s.cmds.map fun c : Cmd =>
          if c.id = id then match c.ins with | .ptake _ => { c with withdrawn := true } | _ => c else c }
      | _ => s
    s.setCtx r (fs.foldl Ctx.freezeLater x)
  else (s.abandon r x).setCtx r (x.freezeNow (fs ++ x.freeze))

/-- A freeze reaches a context (R21): between words; where the tile has yet to issue in this cycle, after that issue, so that a trap of the same cycle is taken; once the answer that its word keeps waiting for has come; or after the last row of its matrix word (R168, R169). -/
def State.freeze (s : State) (r : CtxRef) (f : Freeze) : State :=
  match s.ctx? r with
  | none => s
  | some x =>
    match x.st with
    | .unbound | .done => s
    | .frozen =>
      s.setCtx r { x with preempted := x.preempted || f == .round, stopped := x.stopped || f == .cut }
    | .wait => s.freezeWait r x [f]
    | _ =>
      if s.rowsOf r || (x.st == .run && s.issueDue r) then s.setCtx r (x.freezeLater f)
      else s.setCtx r (x.freezeNow (f :: x.freeze))

/-- A freeze that waited for the issue of its cycle takes effect where the word issued has not taken it: between words, or on the wait that the word has entered (R21). -/
def State.freezeDue (s : State) (r : CtxRef) : State :=
  match s.ctx? r with
  | none => s
  | some x =>
    if x.freeze.isEmpty then s
    else match x.st with
      | .run | .idle | .ready =>
        if s.rowsOf r || (x.st == .run && s.issueDue r) then s else s.setCtx r (x.freezeNow x.freeze)
      | .done | .unbound => s.setCtx r { x with freeze := [] }
      | .wait => s.freezeWait r x []
      | .frozen => s

/-- What a kill leaves of a waiting word: a command that its island has accepted is not withdrawn, but for ptake and xbar (R199); its answer finds no one. -/
def State.killWait (s : State) (r : CtxRef) (x : Ctx) : State :=
  match x.wait, x.waitIns with
  | some (.reply _), some (.ptake _) | some (.reply _), some (.xbar _) => s.abandon r x
  | some (.reply _), _ => s
  | _, _ => s.abandon r x

/-- ctxctl.kill: no done token; nothing reserved, in hand or waiting (R132, R231, R308). R132 does not say whether TRAPPED goes with the state FROZEN; here it does (DESIGN CHOICE, log 54). -/
def State.kill (s : State) (r : CtxRef) : State :=
  match s.ctx? r with
  | none => s
  | some x =>
    if x.st == .unbound || x.st == .done then s
    else
      let s := (s.killWait r x).unreserve r x
      (s.setCtx r { x.closed with st := .done, wait := none, waitIns := none, waitop := 0, freeze := [],
                                  trapped := false }).active r.rid

/-- ctxctl.restart of a frozen context (R132). -/
def State.restart (s : State) (r : CtxRef) (x : Ctx) : State :=
  ((s.unreserve r x).setCtx r { x.closed with st := .idle, pc := x.entry, trapped := false, preempted := false,
                                              stopped := false, byCtl := false, waitop := 0 }).active r.rid

/-! Sources, routes and markers (R327, R328) -/

/-- Elements of a residency. -/
def State.elemsOf (s : State) (rid : Nat) : List (ElemRef × Elem) := s.elems.filter (·.1.rid == rid)

def Marker.freeze : Marker → Freeze
  | .round => .round
  | .checkpoint => .round
  | .cut => .cut

/-- Elements that hold a source by kind: a generator, a const operator, a task with IN_MASK = 0. -/
def State.sourceKind (s : State) (e : ElemRef) : Bool :=
  s.gens.any (fun p => p.1.at == e) ||
  (match tget s.ops e with | some o => o.opc == 0xB | none => false) ||
  s.ctxs.any fun p => p.1.tile == e && p.2.st ≠ .unbound && p.2.inMask == 0

/-- Elements reached by routes from a set, one step further each time. -/
def State.reach (s : State) (rid : Nat) : Nat → List Nat → List Nat
  | 0, l => l
  | n + 1, l =>
    let next := (s.elemsOf rid).flatMap fun p => if l.contains p.1.elem then p.2.routes.map (·.2.delem) else []
    s.reach rid n ((l ++ next).eraseDups)

/-- The sources of a region: by kind, or reached by no route from those (R327). -/
def State.sources (s : State) (rid : Nat) : List ElemRef :=
  let es := s.elemsOf rid
  let base := (es.filter fun p => s.sourceKind p.1).map (·.1.elem)
  let seen := s.reach rid es.length base
  (es.filter fun p => base.contains p.1.elem || !seen.contains p.1.elem).map (·.1)

/-- A marker leaves on every output that has a route. -/
def State.sendMarkers (s : State) (e : ElemRef) (m : Marker) : State :=
  match s.elem? e with
  | none => s
  | some el => el.routes.foldl (fun s p =>
      match s.route? e p.1 with
      | some c => s.push e c (.marker m)
      | none => s) s

/-- A supervisor context keeps issuing while a mark of its own drains its region, and while a stop holds it (R134, R340, R360). -/
def State.exempt (s : State) (r : CtxRef) (m : Marker) : Bool :=
  match s.ctx? r, s.res? r.rid with
  | some x, some rs => x.sup && (m == .cut || rs.ownMark)
  | _, _ => false

/-- An element meets its first round or cut marker: it freezes and forwards (R328, R360). -/
def State.elemFreeze (s : State) (e : ElemRef) (m : Marker) : State :=
  match s.elem? e with
  | none => s
  | some el =>
    if el.frozen.isSome then s
    else
      let s := s.modElem e fun el => { el with frozen := some m }
      let rs := ((s.ctxs.filter fun p => p.1.tile == e).map (·.1)).filter fun r => !s.exempt r m
      let s := rs.foldl (fun s r => s.freeze r m.freeze) s
      (s.sendMarkers e m).active e.rid

/-- A generator stops at a checkpoint marker (R329). -/
def State.genCheck (s : State) (e : ElemRef) : State :=
  { s with gens := tmap s.gens fun k g => if k.at = e then { g with check := true } else g }

/-- The read generators of an element that hold the checkpoint marker back behind the beats they have fetched (R329). -/
def State.holding (s : State) (e : ElemRef) : List (GenRef × Gen) :=
  s.gens.filter fun p => p.1.at == e && !p.2.write && !p.2.ahead.isEmpty

/-- An element sees the checkpoint marker: forwarded once; a read generator holds it back behind the beats it has fetched. -/
def State.elemCheck (s : State) (e : ElemRef) : State :=
  match s.elem? e with
  | none => s
  | some el =>
    if el.check then s
    else
      let s := (s.modElem e fun el => { el with check := true }).genCheck e
      if !(s.holding e).isEmpty then s else s.sendMarkers e .checkpoint

/-- Edge streamer ports of a region: the elements that are edges and hold a generator. -/
def State.edgeGens (s : State) (rid : Nat) : List ElemRef :=
  ((s.elemsOf rid).filter fun p => p.2.kind == .edge && s.gens.any fun g => g.1.at == p.1).map (·.1)

/-- Where checkpoint markers are injected: at the edge streamer ports for a drain (R327), at every source for a mark of kind 1 (R134). -/
def State.checkSources (s : State) (rid : Nat) : List ElemRef :=
  match s.res? rid with
  | some rs => if rs.st == .resident then (s.edgeGens rid ++ s.sources rid).eraseDups else s.edgeGens rid
  | none => s.edgeGens rid

/-- Sinks of the checkpoint marker: elements that it reaches and that send nothing further. -/
def State.checkSinks (s : State) (rid : Nat) : List ElemRef :=
  let es := s.elemsOf rid
  let seen := s.reach rid es.length ((s.checkSources rid).map (·.elem))
  (es.filter fun p => seen.contains p.1.elem && p.2.routes.isEmpty).map (·.1)

/-- Every sink has seen the checkpoint marker. -/
def State.checked (s : State) (rid : Nat) : Bool :=
  (s.checkSinks rid).all fun e => match s.elem? e with | some el => el.check | none => true

/-- Held results of an earlier residency are still on their way into a region (R326). -/
def State.adopting (s : State) (rid : Nat) : Bool :=
  match s.res? rid with
  | none => false
  | some rs => rs.adopted.any fun n =>
    (s.queries.any fun p => p.2.cmd == n && p.2.ctx.rid == rid && p.2.ending ≠ 0) ||
    (s.heldBeats.any fun h => h.chan.rid == rid && h.item.reply == some n) ||
    (s.outbox.any fun p => p.1.rid == rid && p.2.reply == some n) ||
    s.chans.any fun p => p.1.rid == rid && p.2.flight.any fun f => match f.2 with | .item i => i.reply == some n | .marker _ => false

/-- Channels to which a command is still to send: the replies of a wreq or of a fetching atomic, the end-of-tile token of a copy, the status beat of a run. -/
def State.cmdTargets (s : State) (c : Cmd) : List ChanRef :=
  let comp (w : Word) : List ChanRef := let t := compReg w; if t.eot then [⟨c.r.rid, t.elem, t.vc⟩] else []
  match c.ins with
  | .wreq _ => [replyTarget c.r.rid (c.w.getD 2 0)]
  | .aaddF _ | .aminF _ | .amaxF _ | .aandF _ | .aorF _ | .axorF _ | .axchgF _ | .acas _ | .acasQ _ => [replyTarget c.r.rid (c.w.getD 1 0)]
  | .cpy _ | .gth _ | .sct _ => comp (c.w.getD 3 0)
  | .cpyq _ => comp (c.w.getD 4 0)
  | .plrunOr _ | .plrunAnd _ | .plrunWand _ | .plresume _ =>
    (s.queries.filter fun p => p.2.cmd == c.id && p.2.ending ≠ 0).map fun p => ⟨p.2.ctx.rid, p.2.telem, p.2.tvc⟩
  | _ => []

/-- Channels to which island ports hold replies or completions: those that wait for a slot, of reads under way, of commands and of notices under way (R327). -/
def State.portTargets (s : State) (rid : Nat) : List ChanRef :=
  (((s.outbox.map (·.1)) ++ (s.remotes.filterMap (·.2.token)) ++ (s.accs.filterMap fun a => match a.purpose with | .reply c .. => some c | _ => none) ++
    (s.cmds.filter (·.phase != .offered)).flatMap s.cmdTargets).filter (·.rid == rid)).eraseDups

/-- Elements to whose windows island ports hold fills: a transfer of an engine or of a peer is under way there, or waits (R327). -/
def State.portFills (s : State) (rid : Nat) : List ElemRef :=
  let far (k : Waiter) : Bool := match k with | .cmd _ | .peer _ => true | _ => false
  ((s.wins.filter fun p => p.1.rid == rid && (p.2.waiters.any far || p.2.xfers.any (far ·.1))).map (·.1.at)).eraseDups

/-- A marker leaves the island ports of a region for the channels that they serve (R327). -/
def State.markPorts (s : State) (rid : Nat) (m : Marker) : State :=
  (s.portTargets rid).foldl (fun s c => s.push c.at c (.marker m)) s

/-- A pre-emption starts: round markers at every source, those of the island ports on their way to the channels they serve, checkpoint markers at every edge streamer port (R327). -/
def State.startDrain (s : State) (rid : Nat) (own : Bool) : State :=
  match s.res? rid with
  | none => s
  | some rs =>
    if rs.st ≠ .resident then s
    else if rs.stopped || rs.cutDue.isSome then s.modRes rid fun rs => { rs with deferredDrain := true, ownMark := own }
    else
      let s := s.modRes rid fun rs => { rs with st := .draining, preemptAt := s.cycle, deferredDrain := false, ownMark := own }
      let s := s.markPorts rid .round
      let s := (s.sources rid ++ s.portFills rid).foldl (fun s e => s.elemFreeze e .round) s
      (s.edgeGens rid).foldl State.elemCheck s

/-- A checkpoint of its own, at every source (R134, R340): generators stop; no state is saved. -/
def State.startCheck (s : State) (rid : Nat) : State :=
  (s.checkSources rid ++ s.portFills rid).foldl State.elemCheck ((s.modRes rid fun rs => { rs with check := true }).markPorts rid .checkpoint)

/-- A stop: cut markers at every source, the island ports among them (R327, R360). -/
def State.startStop (s : State) (rid : Nat) : State :=
  let s := (s.modRes rid fun rs => { rs with stopped := true, cutDue := none }).markPorts rid .cut
  (s.sources rid ++ s.portFills rid).foldl (fun s e => s.elemFreeze e .cut) s

/-- A context that a stop froze, and nothing else, resumes (R360). -/
def Ctx.unstop (x : Ctx) : Ctx :=
  if x.st = .frozen && x.stopped then
    if x.trapped || x.byCtl || x.preempted then { x with stopped := false } else x.resume
  else { x with freeze := x.freeze.filter (· ≠ .cut) }

/-- A stop ends: each element resumes in its state before it (R360). -/
def State.endStop (s : State) (rid : Nat) : State :=
  let s := s.modRes rid fun rs => { rs with stopped := false, cutDue := none }
  let s := { s with elems := tmap s.elems fun k e => if k.rid = rid && e.frozen == some Marker.cut then { e with frozen := none } else e
                    ctxs := tmap s.ctxs fun k x => if k.rid = rid then x.unstop else x
                    chans := tmap s.chans fun k c =>
                      if k.rid = rid then { c with flight := c.flight.filter (·.2 ≠ Fly.marker .cut) } else c }
  match s.res? rid with
  | some rs => if rs.deferredDrain then s.startDrain rid rs.ownMark else s
  | none => s

/-- The marker at the head of a channel's link, if it has arrived. It follows every token sent before it: while one still waits in the network the marker does too, unless the element has frozen already and takes nothing more (R328). -/
def State.markerAt (s : State) (c : ChanRef) : Option Marker :=
  let still : Bool := match s.elem? c.at with | some e => e.frozen.isSome | none => true
  match s.chan? c with
  | some x => match x.flight with
    | (d, .marker m) :: _ => if d ≤ s.cycle && (x.held.isEmpty || still) then some m else none
    | _ => none
  | none => none

def State.popMarker (s : State) (c : ChanRef) : State := s.modChan c fun x => { x with flight := x.flight.drop 1 }

/-- A round or cut marker reaches an element (R328, R360). -/
def execRoundMarker (s : State) : Out :=
  match s.arg with
  | .chan c =>
    match s.markerAt c with
    | some .round => .next ((s.popMarker c).elemFreeze c.at .round)
    | some .cut => .next ((s.popMarker c).elemFreeze c.at .cut)
    | _ => .next s
  | _ => .next s

/-- A stop takes effect in the cycle after its cause (R360). -/
def execRegionStop (s : State) : Out :=
  match s.arg with
  | .id rid =>
    match s.res? rid with
    | some rs =>
      match rs.cutDue with
      | some d => if d ≤ s.cycle && rs.st == .resident then .next (s.startStop rid) else .next s
      | none => .next s
    | none => .next s
  | _ => .next s

/-- The host ends the stop of a region, by its number (R360). -/
def execStopRelease (s : State) : Out :=
  match s.arg with
  | .reg _ w =>
    match s.ress.find? fun p => p.2.region == w.toNat && p.2.stopped with
    | some p => .next (s.endStop p.1)
    | none => .next s
  | _ => .next s

end Sys2Proof.Machine
end

