-- ==== Sys2Proof/Machine/Matrix.lean ====
section
/-! DEFINITION. The matrix array: B operands, scales, row firings, accumulator rows, the slot table (R55, R161-R176). -/

namespace Sys2Proof.Machine

/-! Values of A and B (R163, R164) -/

/-- A elements that one beat holds. -/
def perBeat (t : Ty) : Nat := if t.bits = 6 then 64 else 512 / t.bits

/-- Value `i` of a string packed at the bits of a type (R38). -/
def packed (t : Ty) (x i : Nat) : Nat := x / 2 ^ (t.bits * i) % 2 ^ t.bits

/-- The A elements of a row: one beat, or the three of a sparse row. -/
def rowElems (t : Ty) (a : List Beat) : List Nat :=
  a.flatMap fun b => (List.range (perBeat t)).map (packed t b.toNat)

/-- Rank of bit i among the set bits of a mask. -/
def maskRank (m i : Nat) : Nat := popBits i m

/-- The 24-bit mask of group g of column c. -/
def BBuf.groupMask (b : BBuf) (groups c g : Nat) : Nat :=
  ofBytesLE ((List.range 3).map fun i => b.masks.getD (3 * (c * groups + g) + i) 0)

/-- The B value at column c and K position k; none where a sparse mask leaves the position out. On a buffer that no mbsp has filled, the reset B among them, the masks are empty and no term stands (R167 does not say; DESIGN CHOICE, log 73). -/
def BBuf.value (b : BBuf) (aty bty : Ty) (sparse : Bool) (c k : Nat) : Option Nat :=
  if sparse then
    let groups := 3 * perBeat aty / 24
    let m := b.groupMask groups c (k / 24)
    let j := maskRank m (k % 24)
    if bitOf m (k % 24) && j < 8 then some (packed bty (b.cols.getD c 0).toNat (8 * (k / 24) + j)) else none
  else if b.diag then
    let q := perBeat aty / 16
    some (if k / q = c then packed bty ((b.cols.headD 0).toNat / 2 ^ (32 * c) % 2 ^ 32) (k % q) else 0)
  else some (packed bty (b.cols.getD c 0).toNat k)

/-- The pairs of A and B values that column c sums. -/
def BBuf.pairs (b : BBuf) (aty bty : Ty) (sparse : Bool) (a : List Nat) (c : Nat) : List (Nat × Nat) :=
  (a.zip (List.range a.length)).filterMap fun p => (b.value aty bty sparse c p.2).map fun v => (p.1, v)

/-! The sum of R55 -/

/-- A product term scaled by 2^k; a NaN, 0 × ∞ and a 0xFF scale are NaN. -/
def term (x y : FV) (k : Option Int) : FV :=
  match k, x, y with
  | none, _, _ => .nan false
  | some k, .fin n a ea, .fin m b eb => .fin (n != m) (a * b) (ea + eb + k)
  | some _, .inf n, .inf m => .inf (n != m)
  | some _, .inf n, .fin m b _ => if b = 0 then .nan false else .inf (n != m)
  | some _, .fin n a _, .inf m => if a = 0 then .nan false else .inf (n != m)
  | _, _, _ => .nan false

def FV.isInf (s : Bool) : FV → Bool
  | .inf n => n == s
  | _ => false

/-- acc + Σ terms, exact and rounded once to f32; without acc under ZF. R55 and R167 do not state the sign of the zero of a sum with neither a term nor an accumulator (ZF on a sparse column without a set mask bit); here it is −0, as of terms that are all −0 (DESIGN CHOICE, log 57). -/
def macF (r : Rnd) (acc : Option FV) (ts : List FV) : Nat × Flags :=
  let all := acc.toList ++ ts
  let pos := all.any (FV.isInf false)
  let neg := all.any (FV.isInf true)
  if ts.any FV.isNan || (pos && neg) then (Ty.nan .f32, fNV)
  else if all.any FV.isNan then (Ty.nan .f32, sigFlag all)
  else if pos || neg then infCode .f32 r neg
  else
    let fs := all.filterMap fun v => match v with | .fin n m e => some (n, m, e) | _ => none
    let (i, e) := sumExact fs
    if i == 0 then r.to .f32 { neg := zeroSign r.rm (fs.all fun f => f.2.1 == 0 && f.1), mant := 0, exp := 0 }
    else r.to .f32 (exOfInt i e)

/-- The unbiased exponent of a scale; none for 0xFF. -/
def scaleExp (c : Byte) : Option Int := if c = 0xFF then none else some ((c.toNat : Int) - 127)

/-- floor(x × 2^k). -/
def shiftFloor (x k : Int) : Int := if k ≥ 0 then x * 2 ^ k.toNat else x / 2 ^ (-k).toNat

/-- The integer sum: exponent 128 for 0xFF. -/
def macI (acc : Int) (ts : List (Int × Int)) (a b : Byte) : Nat :=
  let s := ts.foldl (fun t p => t + p.1 * p.2) 0
  wrapNat 32 (acc + shiftFloor s ((a.toNat : Int) - 127 + ((b.toNat : Int) - 127)))

/-! Row firings (R167, R168) -/

/-- Lane c of an accumulator row. -/
def accLane (r : Beat) (c : Nat) : Nat := r.toNat / 2 ^ (32 * c) % 2 ^ 32

def accRow (ls : List Nat) : Beat := BitVec.ofNat 512 (packGo 32 ls)

/-- One column of a firing: its new lane and flags. -/
def Bank.column (b : Bank) (f : RowFire) (a : List Nat) (c : Nat) : Nat × Flags :=
  let old := accLane ((b.rows.toList)[f.row]?.getD 0) c
  if !b.mask.getLsbD c then (if f.zf || (!b.int && old == 2 ^ 31) then 0 else old, 0)
  else
    let sb := (b.cscale.toList)[c]?.getD 0x7F
    let ps := b.front.pairs f.aty f.bty f.sparse a c
    if b.int then
      (macI (if f.zf then 0 else toSigned 32 old) (ps.map fun p => (f.aty.ival p.1, f.bty.ival p.2)) f.scale sb, 0)
    else
      let k := match scaleExp f.scale, scaleExp sb with
        | some i, some j => some (i + j)
        | _, _ => none
      let r : Rnd := { rm := f.rm, u := match f.sr with | some (seed, ctr) => draw seed ctr c | none => 0 }
      macF r (if f.zf then none else some (unpackF .f32 old))
        (ps.map fun p => term (unpackF f.aty p.1) (unpackF f.bty p.2) k)

/-- Replace a row of a bank. -/
def Bank.setRow (b : Bank) (r : Nat) (x : Beat) : Bank :=
  { b with rows := Vector.ofFn fun i => if i.val = r then x else b.rows[i] }

/-- A row firing is applied whole (R167); MROWS counts, and FLAGSET once for its instruction. -/
def State.fireRow (s : State) (e : ElemRef) (f : RowFire) : State :=
  let k : BankRef := ⟨e.rid, e.elem, f.bank⟩
  match s.bank? k with
  | none => s
  | some b =>
    let a := rowElems f.aty f.a
    let cols := (List.range 16).map (b.column f a)
    let fl := cols.foldl (fun x p => x ||| p.2) 0
    let s := s.setBank k (b.setRow f.row (accRow (cols.map Prod.fst)))
    let s := s.modCtx (e.ctx f.ctx) fun x =>
      let x := x.count 0x07 1
      if f.counted then { x with flags := x.flags ||| fl } else x.raise fl
    let s := s.modTile e fun t => { t with rows := t.rows.map fun g =>
      if g.ctx = f.ctx && fl ≠ 0 then { g with counted := true } else g }
    s.active e.rid

/-- Remove a context's oldest row. -/
def dropRow (c : Nat) : List RowFire → List RowFire
  | [] => []
  | f :: l => if f.ctx = c then l else f :: dropRow c l

/-- The contexts in the order in which slot `t` looks at them: from slot t on, then those without a valid slot (R168). -/
def slotOrder (table : Word) (t : Nat) : List Nat :=
  let slots := (List.range 16).filterMap fun i =>
    let n := table.toNat / 2 ^ (4 * ((t + i) % 16)) % 16
    if 8 ≤ n then some (n - 8) else none
  slots ++ (List.range 8).filter fun c => !slots.contains c

/-- The context that the array grants in this cycle: one with a freeze pending before all others. -/
def State.rowGrant (s : State) (e : ElemRef) (t : Tile) : Option Nat :=
  let order := slotOrder t.slotTable ((s.cycle - t.loaded) % 16)
  let ready (c : Nat) : Bool := t.rows.any (·.ctx == c)
  let urgent (c : Nat) : Bool := match s.ctx? (e.ctx c) with | some x => !x.freeze.isEmpty | none => false
  match order.find? fun c => ready c && urgent c with
  | some c => some c
  | none => order.find? ready

/-- The array takes at most one row (R168); a freeze that waited for a context's last row takes effect, and MDENY counts the others. -/
def execMatrixRowFiring (s : State) : Out :=
  match s.arg with
  | .elem e =>
    match s.tile? e with
    | none => .next s
    | some t =>
      match s.rowGrant e t with
      | none => .next s
      | some c =>
        let denied := ((List.range 8).filter fun d => d ≠ c && t.rows.any (·.ctx == d))
        let s := denied.foldl (fun s d => s.modCtx (e.ctx d) (·.count 0x08 1)) s
        match t.rows.find? (·.ctx == c) with
        | none => .next s
        | some f =>
          let s := s.modTile e fun t => { t with rows := dropRow c t.rows }
          let s := s.fireRow e f
          let more := (dropRow c t.rows).any (·.ctx == c)
          if more then .next s
          else .next (s.modCtx (e.ctx c) fun x => if x.freeze.isEmpty || x.st == .wait then x else x.freezeNow x.freeze)
  | _ => .next s

/-- The loaded B becomes the front of its bank once no earlier firing needs the old one (R165). It does so in the cycle behind the load's issue, so that a mout or mbias behind the load finds the new MASK: R165 orders row firings alone (DESIGN CHOICE, log 71). -/
def execBSwap (s : State) : Out :=
  match s.arg with
  | .bank k =>
    match s.bank? k with
    | none => .next s
    | some b =>
      match b.swap with
      | none => .next s
      | some m =>
        let pending := match s.tile? ⟨k.rid, k.elem⟩ with | some t => t.rows.any (·.bank == k.bank) | none => false
        if pending then .next s
        else .next ((s.setBank k { b with front := b.back, mask := m, cscale := Vector.replicate 16 0x7F, swap := none }).active k.rid)
  | _ => .next s

/-! The words -/

/-- The bank a matrix word names, bound to its context; a word that names another would not have been loaded (R22, R162). In a compatibility image an added word may (R105), and no rule says what it then does: here it traps ILLEGAL (DESIGN CHOICE, log 65). -/
def State.withBank (s : State) (r : CtxRef) (x : Ctx) (acc : Nat) (f : BankRef → Bank → Option State) : Option State :=
  let k : BankRef := ⟨r.rid, r.elem, acc⟩
  let bind := match s.tile? r.tile with | some t => t.accBind.toNat / 2 ^ (4 * acc) % 16 | none => 0
  match s.bank? k with
  | none => some (s.illegal r x)
  | some b => if bind ≠ 8 + r.ctx then some (s.illegal r x) else f k b

/-- The same with a window of 64-byte elements. -/
def State.withBankWin (s : State) (r : CtxRef) (x : Ctx) (acc wb : Nat)
    (f : BankRef → Bank → WinRef → Window → Option State) : Option State :=
  s.withBank r x acc fun k b => s.withWin r x wb fun wr w =>
    if w.size ≠ 64 then some (s.illegal r x) else f k b wr w

/-- Elements o to o + n − 1 of a window once they stand there, checked (R257): none to wait, else the trap or their beats. -/
def State.elements (s : State) (r : CtxRef) (x : Ctx) (wr : WinRef) (w : Window) (o n : Nat) : Option (State ⊕ List Beat) :=
  if !w.readable o n then none
  else if s.winBad wr w o n then some (.inl (s.trap r x tECC_UNCORR 0 0))
  else some (.inr ((chunksOf 64 n (s.winBytes wr w o n)).map bytesBeat))

/-- Extra elements that hold the masks of a sparse B. -/
def maskElems : Ty → Nat
  | .bf16 | .f16 => 3
  | .e2m1 | .i4 => 12
  | _ => 6

/-- The columns that a load's mask leaves. -/
def maskCols (mask : BitVec 16) (cols : List Beat) : List Beat :=
  (cols.zip (List.range cols.length)).map fun p => if mask.getLsbD p.2 then p.1 else 0

/-- Load B into the back buffer of a bank (R165). -/
def tryLoadB (s : State) (r : CtxRef) (x : Ctx) (o : MBOps) (off n : Nat) (back : List Beat → BBuf) : Option State :=
  s.withBankWin r x o.acc.val o.wb.val fun k b wr w =>
    match s.elements r x wr w off n with
    | none => none
    | some (.inl s) => some s
    | some (.inr es) => some ((s.setBank k { b with back := back es, swap := some o.mask }).finish r x)

def denseB (o : MBOps) (es : List Beat) : BBuf := { cols := maskCols o.mask es }

def diagB (o : MBOps) (es : List Beat) : BBuf :=
  let d := (es.headD 0).toNat
  { cols := [accRow ((List.range 16).map fun c => if o.mask.getLsbD c then accLane (BitVec.ofNat 512 d) c else 0)], diag := true }

def sparseB (o : MBOps) (es : List Beat) : BBuf :=
  { cols := maskCols o.mask (es.take 16), masks := (es.drop 16).flatMap beatBytes }

def tryMbld (o : MBOps) (s : State) (r : CtxRef) (x : Ctx) : Option State :=
  tryLoadB s r x o (16 * o.slot.val) 16 (denseB o)
def tryMbldDiag (o : MBOps) (s : State) (r : CtxRef) (x : Ctx) : Option State :=
  tryLoadB s r x o o.slot.val 1 (diagB o)
def tryMbsp (o : MBOps) (s : State) (r : CtxRef) (x : Ctx) : Option State :=
  tryLoadB s r x o (32 * o.slot.val) (16 + maskElems o.bty) (sparseB o)

/-- Load a dense B (R164, R165). -/
def execMbld (o : MBOps) (s : State) : Out :=
  runWord o.g s fun r x => .next (s.orWait r x o.wb (.mbld o) (tryMbld o s r x))

/-- Load a diagonal B (R164, R165). -/
def execMbldDiag (o : MBOps) (s : State) : Out :=
  runWord o.g s fun r x => .next (s.orWait r x o.wb (.mbldDiag o) (tryMbldDiag o s r x))

/-- Load a sparse B with its masks (R164, R165). -/
def execMbsp (o : MBOps) (s : State) : Out :=
  runWord o.g s fun r x => .next (s.orWait r x o.wb (.mbsp o) (tryMbsp o s r x))

/-- What n rows fire: shared by mrow and mroww (R169, R170). -/
structure Firing where
  acc : Nat
  row : Nat
  rm : RM
  zf : Bool
  sparse : Bool
  aty : Ty
  bty : Ty
  a : List (List Beat)
  scales : List Byte

/-- A word whose rows stand in the array is passed, and its context stays in RUN: a freeze that waits takes effect behind the last of them (R168, R169). -/
def Ctx.completeRows (x : Ctx) : Ctx := { Ctx.complete { x with freeze := [] } with freeze := x.freeze }

/-- The context's word is passed with its rows in the array. -/
def State.finishRows (s : State) (r : CtxRef) (x : Ctx) : State := (s.setCtx r x.completeRows).active r.rid

/-- Row firings are issued: ready in the tile, their draws reserved (R167, R176). -/
def State.fireRows (s : State) (r : CtxRef) (x : Ctx) (f : Firing) : State :=
  let src := x.source f.rm
  let rows := (f.a.zip (List.range f.a.length)).map fun p =>
    ({ ctx := r.ctx, bank := f.acc, row := f.row + p.2, rm := f.rm, zf := f.zf, sparse := f.sparse, aty := f.aty, bty := f.bty,
       scale := f.scales.getD p.2 0x7F, a := p.1,
       sr := if f.rm.stochastic then some (src.seed, src.ctr + BitVec.ofNat 64 p.2) else none } : RowFire)
  (s.modTile r.tile fun t => { t with rows := t.rows ++ rows }).finishRows r (x.drew f.rm f.a.length)

/-- The checks on a scale channel, before anything is consumed (R167, R169). -/
def State.scaleCheck (s : State) (r : CtxRef) (x : Ctx) : Option (Fin 32) → Option State
  | none => none
  | some vc =>
    let f := s.fmt (r.tile.chan vc.val)
    if !x.inMask.getLsbD vc.val then some (s.illegal r x)
    else if x.over vc 1 then some (s.trap r x tRATE (BitVec.ofNat 64 vc.val) 0)
    else if f ≠ Ty.e8m0.code.toNat then some (s.trap r x tVC_FORMAT (BitVec.ofNat 64 f) 0)
    else none

/-- The scale beat, where the word names one: the trap, or the row scales and the state after taking it. -/
def State.takeScale (s : State) (r : CtxRef) (x : Ctx) (sch : Option (Fin 32)) (n : Nat) (other : Byte) :
    State ⊕ (List Byte × State × Ctx) :=
  match sch with
  | none => .inr (List.replicate n other, s, x)
  | some vc =>
    match s.takeBeats r x vc 1 with
    | .inl s => .inl s
    | .inr (bs, s, x) => .inr ((beatBytes (bs.headD 0)).take n, s, x)

/-- Fire rows from a channel (R169). -/
def execMrow (o : MRowOps) (s : State) : Out :=
  runWord o.g s fun r x => .next <|
    let n := o.n.val
    let c := r.tile.chan o.vca.val
    let ch := (s.chan? c).getD {}
    (s.withBank r x o.acc.val fun _ _ =>
      some <|
      match Ty.ofCode ch.fmt with
      | none => s.illegal r x
      | some aty =>
        if !x.inMask.getLsbD o.vca.val || !comboOk aty o.bty then s.illegal r x
        else if x.over o.vca n then s.trap r x tRATE (BitVec.ofNat 64 o.vca.val) 0
        else match s.scaleCheck r x o.sch with
          | some s => s
          | none =>
            -- every beat is checked before any is consumed
            let scBad := match o.sch with
              | some vc => (s.firstBad (r.tile.chan vc.val) 1 0).map fun p => (vc, p)
              | none => none
            match s.firstBad c n 0, scBad with
            | some (k, b), _ => s.badBeat r x o.vca (x.received.get o.vca + k) b
            | none, some (vc, k, b) => s.badBeat r x vc (x.received.get vc + k) b
            | none, none =>
              match s.takeBeats r x o.vca n with
              | .inl s => s
              | .inr (bs, s, x) =>
                match s.takeScale r x o.sch n ch.scale with
                | .inl s => s
                | .inr (sc, s, x) =>
                  s.fireRows r x { acc := o.acc.val, row := o.row.val, rm := o.rm, zf := o.zf, sparse := false,
                                   aty := aty, bty := o.bty, a := bs.map fun b => [b], scales := sc }).getD s

/-- Fire rows read from a window (R170). -/
def tryRowW (o : MRowWOps) (sparse : Bool) (s : State) (r : CtxRef) (x : Ctx) : Option State :=
  s.withBankWin r x o.acc.val o.wb.val fun _ b wr w =>
    let n := o.n.val
    let e := if sparse then 3 * n else n
    if !comboOk o.aty o.bty then some (s.illegal r x)
    else if !w.readable o.off.val e then none
    else match s.scaleCheck r x o.sch with
      | some s => some s
      | none =>
        -- the scale beat comes first; a bad element leaves it where it stands
        match s.takeScale r x o.sch n b.asc, s.elements r x wr w o.off.val e with
        | .inl s, _ => some s
        | .inr _, none => none
        | .inr _, some (.inl s) => some s
        | .inr (sc, s, x), some (.inr es) =>
            some (s.fireRows r x { acc := o.acc.val, row := o.row.val, rm := o.rm, zf := o.zf, sparse := sparse,
                                   aty := o.aty, bty := o.bty, a := chunksOf (if sparse then 3 else 1) n es, scales := sc })

def tryMroww (o : MRowWOps) (s : State) (r : CtxRef) (x : Ctx) : Option State := tryRowW o false s r x
def tryMrowwSp (o : MRowWOps) (s : State) (r : CtxRef) (x : Ctx) : Option State := tryRowW o true s r x

/-- Fire dense rows from a window (R170). -/
def execMroww (o : MRowWOps) (s : State) : Out :=
  runWord o.g s fun r x => .next (s.orWait r x o.wb (.mroww o) (tryMroww o s r x))

/-- Fire sparse rows from a window (R170). -/
def execMrowwSp (o : MRowWOps) (s : State) : Out :=
  runWord o.g s fun r x => .next (s.orWait r x o.wb (.mrowwSp o) (tryMrowwSp o s r x))

/-- Rows row to row + n − 1 changed by f. -/
def Bank.mapRows (b : Bank) (row n : Nat) (f : Nat → Beat → Beat) : Bank :=
  { b with rows := Vector.ofFn fun i => if row ≤ i.val && i.val < row + n then f (i.val - row) b.rows[i] else b.rows[i] }

/-- Row i of a bank. -/
def Bank.row (b : Bank) (i : Nat) : Beat := (b.rows.toList)[i]?.getD 0

/-- Set rows to +0 (R171). -/
def execMzero (o : MNOps) (s : State) : Out :=
  runWord o.g s fun r x => .next <|
    (s.withBank r x o.acc.val fun k b =>
      some ((s.setBank k (b.mapRows o.row.val o.n.val fun _ _ => 0)).finish r x)).getD s

/-- Output types that a bank's accumulator type allows (R172). -/
def otyOk (int : Bool) : Ty → Bool
  | .f32 | .bf16 => true
  | .f16 | .e4m3 | .e5m2 => !int
  | .i32 | .i16 | .i8 => int
  | _ => false

/-- A lane of mout, rounded with the draw of its row and column (R172, R176). -/
def outLane (b : Bank) (o : MOutOps) (src : SRGen) (j c : Nat) : Nat × Flags :=
  if !b.mask.getLsbD c then (0, 0)
  else
    let r : Rnd := { rm := o.rm, sat := o.sat,
                     u := if o.rm.stochastic then draw src.seed (src.ctr + BitVec.ofNat 64 j) c else 0 }
    convert o.oty (if b.int then .i32 else .f32) r (accLane (b.row (o.row.val + j)) c)

/-- Convert rows and send them (R172). -/
def execMout (o : MOutOps) (s : State) : Out :=
  runWord o.g s fun r x => .next <|
    (s.withBank r x o.acc.val fun k b =>
      let n := o.n.val
      some <|
      if !x.outMask.getLsbD o.oc.val || !otyOk b.int o.oty then s.illegal r x
      else if x.sent.get o.oc + n > x.outRate.get o.oc then s.trap r x tRATE (BitVec.ofNat 64 o.oc.val) 0
      else
        let src := x.source o.rm
        let rows := (List.range n).map fun j => (List.range 16).map (outLane b o src j)
        let fl := rows.foldl (fun f l => l.foldl (fun f p => f ||| p.2) f) 0
        let s := if o.zf then s.setBank k (b.mapRows o.row.val n fun _ _ => 0) else s
        let beats := rows.map fun l => BitVec.ofNat 512 (packGo o.oty.width (l.map Prod.fst))
        let (s, x) := s.ctxSends r ((x.raise fl).drew o.rm n) o.oc beats
        s.finish r x).getD s

def tryMscaleWindow (o : MScaleWOps) (s : State) (r : CtxRef) (x : Ctx) : Option State :=
  s.withBankWin r x o.acc.val o.wb.val fun k b wr w =>
    match s.elements r x wr w o.off.toNat 1 with
    | none => none
    | some (.inl s) => some s
    | some (.inr es) =>
      let bs := beatBytes (es.headD 0)
      some ((s.setBank k { b with cscale := Vector.ofFn fun i => bs.getD i.val 0 }).finish r x)

/-- Column scales from a window (R166). -/
def execMscaleWindow (o : MScaleWOps) (s : State) : Out :=
  runWord o.g s fun r x => .next (s.orWait r x o.wb (.mscaleWindow o) (tryMscaleWindow o s r x))

/-- The A-row scale of the bank (R166). -/
def execMscaleCode (o : MScaleCOps) (s : State) : Out :=
  runWord o.g s fun r x => .next <|
    (s.withBank r x o.acc.val fun k b => some ((s.setBank k { b with asc := o.code }).finish r x)).getD s

/-- acc + bias in one lane (R173). -/
def biasLane (b : Bank) (o : MBiasOps) (src : SRGen) (bias : Beat) (j c : Nat) (old : Nat) : Nat × Flags :=
  if !b.mask.getLsbD c then (old, 0)
  else if b.int then (wrapNat 32 (toSigned 32 old + toSigned 32 (accLane bias c)), 0)
  else
    let r : Rnd := { rm := o.rm, u := if o.rm.stochastic then draw src.seed (src.ctr + BitVec.ofNat 64 j) c else 0 }
    addF .f32 r (unpackF .f32 old) (unpackF .f32 (accLane bias c))

def tryMbias (o : MBiasOps) (s : State) (r : CtxRef) (x : Ctx) : Option State :=
  s.withBankWin r x o.acc.val o.wb.val fun k b wr w =>
    match s.elements r x wr w o.off.val 1 with
    | none => none
    | some (.inl s) => some s
    | some (.inr es) =>
      let bias := es.headD 0
      let src := x.source o.rm
      let lane (j c : Nat) : Nat × Flags := biasLane b o src bias j c (accLane (b.row (o.row.val + j)) c)
      let fl := (List.range o.n.val).foldl (fun f j => (List.range 16).foldl (fun f c => f ||| (lane j c).2) f) 0
      let b := b.mapRows o.row.val o.n.val fun j _ => accRow ((List.range 16).map fun c => (lane j c).1)
      some ((s.setBank k b).finish r ((x.raise fl).drew o.rm o.n.val))

/-- Add a bias row (R173). -/
def execMbias (o : MBiasOps) (s : State) : Out :=
  runWord o.g s fun r x => .next (s.orWait r x o.wb (.mbias o) (tryMbias o s r x))

def tryMrd (o : MRdOps) (s : State) (r : CtxRef) (x : Ctx) : Option State :=
  s.withBankWin r x o.acc.val o.wb.val fun _ b wr w =>
    if !w.fillable o.n.val then none
    else
      let bs := (List.range o.n.val).flatMap fun j => beatBytes (b.row (o.row.val + j))
      some ((s.winFill wr w bs false).finish r x)

/-- Move rows into a window, raw (R174). -/
def execMrd (o : MRdOps) (s : State) : Out :=
  runWord o.g s fun r x => .next (s.orWait r x o.wb (.mrd o) (tryMrd o s r x))

def tryMwr (o : MWrOps) (s : State) (r : CtxRef) (x : Ctx) : Option State :=
  s.withBankWin r x o.acc.val o.wb.val fun k b wr w =>
    match s.elements r x wr w o.off.val o.n.val with
    | none => none
    | some (.inl s) => some s
    | some (.inr es) => some ((s.setBank k (b.mapRows o.row.val o.n.val fun j _ => es.getD j 0)).finish r x)

/-- Move window elements into rows, raw (R174). -/
def execMwr (o : MWrOps) (s : State) : Out :=
  runWord o.g s fun r x => .next (s.orWait r x o.wb (.mwr o) (tryMwr o s r x))

/-- Write a slot of the slot table at the next cycle boundary; supervisor-only (R33, R68, R175). -/
def execMslot (o : MSlotOps) (s : State) : Out :=
  runWord o.g s fun r x => .next <|
    if !x.sup then s.trap r x tPRIV 0 0
    else (s.modTile r.tile fun t => { t with pend := t.pend ++ [.slot o.slot (BitVec.ofNat 4 o.entry.val)] }).finish r x

end Sys2Proof.Machine
end

