-- ==== Sys2Proof/Machine/Generators.lean ====
section
/-! DEFINITION. Address generators: extents, the walk, beats read ahead and delivered, beats written, end-of-tile and done tokens (R59, R89, R90, R239, R285, R289, R329, R346). -/

namespace Sys2Proof.Machine

def State.gen? (s : State) (k : GenRef) : Option Gen := tget s.gens k
def State.setGen (s : State) (k : GenRef) (g : Gen) : State := { s with gens := tput s.gens k g }
def State.modGen (s : State) (k : GenRef) (f : Gen → Gen) : State := { s with gens := tmod s.gens k f }

/-- An element acts: its residency stands and it is neither frozen nor saved (R328). -/
def State.acts (s : State) (e : ElemRef) : Bool :=
  match s.elem? e, s.res? e.rid with
  | some el, some rs => el.frozen.isNone && !el.saved && (rs.st == .resident || rs.st == .draining)
  | _, _ => false

/-! Quantised blocks (R149, R204) -/

/-- Bytes of a row's elements and bits of an output element of cpyq (R204). -/
structure QuantCfg where
  fmt : Ty
  had : Nat
  rm : RM
  src32 : Bool
  sat : Bool
  cols : Nat
  rows : Nat

def QuantCfg.size (q : QuantCfg) : Nat := if q.src32 then 4 else 2
def QuantCfg.dstride (q : QuantCfg) : Nat := ceilDiv (q.cols * q.fmt.bits) 512 * 64
def QuantCfg.scaleOff (q : QuantCfg) : Nat := 64 + q.rows * q.dstride
def QuantCfg.blocks (q : QuantCfg) : Nat := q.cols / 64
/-- Source bytes of one block. -/
def QuantCfg.blockBytes (q : QuantCfg) : Nat := 64 * q.size
/-- Bytes from the envelope to the end of the scales. -/
def QuantCfg.destBytes (q : QuantCfg) : Nat := q.scaleOff + q.rows * q.blocks

def quantFmt (c : Nat) : Option Ty :=
  match Ty.ofCode (BitVec.ofNat 5 c) with
  | some t => if t == .e4m3 || t == .e5m2 || t == .e3m2 || t == .e2m3 || t == .e2m1 || t == .i8 then some t else none
  | none => none

def rmOf (n : Nat) : RM :=
  match n % 8 with
  | 0 => .rne | 1 => .rtz | 2 => .rdn | 3 => .rup | 4 => .rna | 5 => .sa | 6 => .sb | _ => .rod

/-- The fields of a cpyq's registers, in a format of R204. -/
def quantFields (t : Ty) (dims cfg : Word) : QuantCfg :=
  let g := cfg.toNat
  { fmt := t, had := g / 2 ^ 5 % 4, rm := rmOf (g / 2 ^ 7), src32 := bitOf g 10, sat := bitOf g 11,
    cols := dims.toNat % 2 ^ 32, rows := dims.toNat / 2 ^ 32 }

/-- The configuration of a cpyq; none for BAD_ARG. -/
def quantCfg (dims cfg : Word) : Option QuantCfg :=
  match quantFmt (cfg.toNat % 2 ^ 5) with
  | none => none
  | some t =>
    let q := quantFields t dims cfg
    if q.cols % 64 ≠ 0 || q.cols = 0 || q.cols > 2 ^ 24 || q.rows = 0 || q.rows > 2 ^ 24 then none else some q

/-- Codes, scale and flags of one block of 64. -/
def quantBlock (q : QuantCfg) (bs : List Byte) (seed ctr : Word) : List Byte × Byte × Flags :=
  let t : Ty := if q.src32 then .f32 else .bf16
  let x := ofBytesLE bs
  let raw := (List.range 64).map fun i => x / 2 ^ (t.width * i) % 2 ^ t.width
  let n := 8 * 2 ^ q.had
  let rot : List (Nat × Flags) :=
    if q.had = 0 then raw.map fun v => (v, 0)
    else (List.range 64).map fun i =>
      let b := i / n * n
      hadOut t {} ((List.range n).map fun j => unpackF t (raw.getD (b + j) 0)) (i - b)
  let xs := rot.map fun p => unpackF t p.1
  let e := blockScale q.fmt xs
  let out := (xs.zip (List.range 64)).map fun p =>
    quantOne q.fmt { rm := q.rm, sat := q.sat, u := if q.rm.stochastic then draw seed ctr p.2 else 0 } e p.1
  let fl := (rot ++ out).foldl (fun a p => a ||| p.2) (if e == 0xFF then fNV else 0)
  (bytesLE (8 * q.fmt.bits) (packGo q.fmt.bits (out.map Prod.fst)), BitVec.ofNat 8 e, fl)

/-! The walk (R89) -/

/-- Offset of an element for loop counts `i`; with an index in place of loop 0's count. -/
def Gen.at_ (g : Gen) (i : List Nat) (ix : Option Nat) : Int :=
  let i := match ix with | some x => i.set 0 x | none => i
  (List.range g.nloops).foldl (fun a l => a + (i.getD l 0 : Int) * g.strides.getD l 0) g.offset

/-- The counts after one element, and whether loop 0 and the whole walk end with it. -/
def odoGo : List Nat → List Nat → List Nat × Bool
  | [], _ => ([], true)
  | i :: is, c :: cs =>
    if i + 1 < c then ((i + 1) :: is, false)
    else
      let (js, e) := odoGo is cs
      (0 :: js, e)
  | i :: is, [] => (i :: is, true)

def Gen.advance (g : Gen) : Gen × Bool :=
  let (j, e) := odoGo (g.i.take g.nloops) (g.counts.take g.nloops)
  let run := g.counts.headD 1 ≤ g.i.headD 0 + 1
  ({ g with i := j, ended := e }, run)

/-- Elements of the walk before a position. -/
def Gen.ordinal (g : Gen) (i : List Nat) : Nat := ((i.take g.nloops).zip g.counts).foldr (fun p a => p.1 + p.2 * a) 0

def Gen.bytes (g : Gen) : Nat := eszBytes (Fin.ofNat 6 g.esz)

/-! The quantise stage (R39, R89): each beat that it gives holds whole blocks of 64 elements, whose source elements come from several beats -/

/-- Elements of a quantised beat: one block, or two of a 4-bit type (R39). -/
def Gen.quantElems (g : Gen) : Nat := match quantFmt g.qfmt with | some t => if t.bits = 4 then 128 else 64 | none => 64

/-- Elements of one beat: those that 64 bytes hold; of a quantised read, those from whose bytes the stage makes one beat. Their element size tells f32 from bf16, the two source types of R149 (log 5). -/
def Gen.per (g : Gen) : Nat :=
  if g.quant && !g.write then ceilDiv (g.quantElems * (if g.bytes = 4 then 4 else 2)) g.bytes else 64 / g.bytes

/-- The quantised beat of source bytes, whole blocks of 64 elements, absent ones zero: codes packed by R38, under the modes of Config, whose scale has no place (log 5). -/
def Gen.quantised (g : Gen) (src32 : Bool) (bs : List Byte) (seed : Word) : List Byte :=
  match quantFmt g.qfmt with
  | none => []
  | some t =>
    let q : QuantCfg := { fmt := t, had := g.qhad, rm := rmOf Config.quantRm, src32 := src32, sat := Config.quantSat % 2 == 1, cols := 64, rows := 1 }
    (List.range (g.quantElems / 64)).flatMap fun b =>
      let src := (bs.drop (b * q.blockBytes)).take q.blockBytes
      (quantBlock q (src ++ List.replicate (q.blockBytes - src.length) 0) seed (BitVec.ofNat 64 b)).1

/-- Least offset and end of the greatest element that the walk reaches, without an indexed loop 0 (R90). -/
def Gen.bounds (g : Gen) : Int × Int :=
  let ls := (List.range g.nloops).filter fun l => !(l == 0 && g.idx.isSome)
  let far (l : Nat) : Int := ((g.counts.getD l 1 : Int) - 1) * g.strides.getD l 0
  let lo := ls.foldl (fun a l => a + min 0 (far l)) (g.offset : Int)
  let hi := ls.foldl (fun a l => a + max 0 (far l)) (g.offset : Int)
  (lo, hi + g.bytes)

/-! Extents (R285) -/

/-- Add a run behind the extents so far, joined where it continues the last one. -/
def extentAdd (es : List Extent) (e : Extent) : List Extent :=
  match es.reverse with
  | l :: r =>
    if l.hi == e.lo && l.bulk == e.bulk && l.absent == e.absent && (e.absent || l.phys + (l.hi - l.lo) == e.phys) then
      ({ l with hi := e.hi } :: r).reverse
    else es ++ [e]
  | [] => [e]

/-- Intervals of offsets that loops reach from given ones: where a stride passes over no whole page, one interval stands for all its steps. -/
def reachGo : List (Nat × Int) → List (Int × Int) → List (Int × Int)
  | [], l => l
  | (c, st) :: ls, l =>
    reachGo ls (l.flatMap fun p =>
      let far : Int := ((c : Int) - 1) * st
      if (st.natAbs : Int) ≤ max (p.2 - p.1) (2 ^ 16) then [(p.1 + min 0 far, p.2 + max 0 far)]
      else (List.range c).map fun (k : Nat) => (p.1 + (k : Int) * st, p.2 + (k : Int) * st))

/-- Virtual pages of 64 KiB that the pattern reaches, ascending (R285, R295, R297); an indexed one can reach its whole capability. -/
def Gen.reach (g : Gen) : List Nat :=
  let loops := (List.range g.nloops).map fun l => (g.counts.getD l 1, g.strides.getD l 0)
  let spans : List (Int × Int) := if g.idx.isSome then [(0, (g.cap.length : Int))] else reachGo loops [((g.offset : Int), g.offset + g.bytes)]
  let pages := spans.flatMap fun p =>
    let a := (g.cap.base + p.1.toNat) / 2 ^ 16
    let b := (g.cap.base + p.2.toNat + 2 ^ 16 - 1) / 2 ^ 16
    (List.range (b - a)).map (a + ·)
  sortBy (fun a b => a < b) pages.eraseDups

/-- Extents of pages, for offsets from `lo` to `hi`; none where a walk is MALFORMED. -/
def State.extentGo (s : State) (c : CapV) (bulk : Bool) (need : Need) (lo hi : Nat) : List Nat → List Extent → Option (List Extent)
  | [], es => some es
  | p :: ps, es =>
    let a := max lo (p * 2 ^ 16 - c.base)
    let b := min hi ((p + 1) * 2 ^ 16 - c.base)
    match s.walk c.asid bulk need (c.base + a) with
    | .mapped ph k _ _ _ _ _ => s.extentGo c bulk need lo hi ps (extentAdd es { lo := a, hi := b, bulk := k, phys := ph })
    | .miss .malformed => none
    | _ => s.extentGo c bulk need lo hi ps (extentAdd es { lo := a, hi := b, bulk := bulk, phys := 0, absent := true })

/-- A pattern that extents map: window, host, peer and indexed patterns have none. -/
def Gen.extended (g : Gen) : Bool := g.win.isNone && g.idx.isNone && (g.cap.space == 1 || g.cap.space == 2)

/-- The extent table of a generator: the first 256 runs of the pages that its pattern reaches; none on a MALFORMED walk. -/
def State.extentsFor (s : State) (g : Gen) : Option (List Extent) :=
  if !g.extended then some []
  else
    let (lo, hi) := g.bounds
    (s.extentGo g.cap (g.cap.space == 2) ⟨g.write, false⟩ lo.toNat hi.toNat g.reach []).map (·.take 256)

/-- A walk for the extents of a generator waits for GDDR in self-refresh (R376). -/
def State.genAsleep (s : State) (g : Gen) : Bool :=
  s.selfRefresh ≠ 0 && g.extended && g.reach.any fun p => s.walk g.cap.asid (g.cap.space == 2) ⟨g.write, false⟩ (p * 2 ^ 16) == .asleep

/-- The extent that holds `n` bytes at an offset. -/
def Gen.extent (g : Gen) (off n : Nat) : Option Extent :=
  g.extents.find? fun e => e.lo ≤ off && off + n ≤ e.hi && !e.absent

/-! Issue -/

/-- An offset lies in an absent extent. -/
def Gen.absent (g : Gen) (off n : Nat) : Bool := g.extents.any fun e => e.absent && e.lo < off + n && off < e.hi

/-- Why an element in an absent extent faults: the outcome of the walk; of an entry that has become valid without an invalidation, ABSENT in the shared half, which the host answers, and HELD in the launch half, which goes back to the port. -/
def State.absentMiss (s : State) (c : CapV) (need : Need) (va : Nat) : Miss :=
  match s.walk c.asid (c.space == 2) need va with
  | .miss m => m
  | _ => if va / 2 ^ 56 % 2 = 1 then .absent else .held

/-- An access of a generator: its place is known where an extent names it, it faults at the port where its extent is absent, and it is translated there elsewhere. -/
def State.genIssue (s : State) (k : GenRef) (g : Gen) (off n : Nat) (data : List Byte) : Nat × State :=
  let port : PortRef := match s.elem? k.at with | some e => ⟨e.die, e.port⟩ | none => ⟨0, 0⟩
  let a : Acc := { id := 0, issuer := .gen k, rid := k.rid, port := port, colour := g.col, write := g.write,
                   space := g.cap.space, asid := g.cap.asid, va := g.cap.base + off, len := n, data := data,
                   purpose := if g.write then .genWrite else .genRead, due := 0 }
  let id := s.nextAcc
  -- what needs a table in GDDR in self-refresh waits at the port (R376)
  if s.walk a.asid a.bulk a.need a.va == .asleep && (a.space = 1 || a.space = 2) then s.issue a
  else match g.extent off n with
  | some e =>
    let s := if g.write then s.dirty a.asid a.bulk a.need a.va else s
    let (d, s) := s.later 1
    (id, ({ s with nextAcc := id + 1,
                   accs := s.accs ++ [{ a with id := id, due := d, place := .phys e.bulk (e.phys + (off - e.lo)) }] }).active k.rid)
  | none =>
    if g.absent off n && !(s.port port).full then
      let (d, s) := s.later 1
      let a := { a with id := id, due := d }
      (id, (State.enqueueDead { s with nextAcc := id + 1, accs := s.accs ++ [a] } a (s.absentMiss g.cap a.need a.va)).active k.rid)
    else s.issue a

/-- The accesses of one element, cut at 64-byte lines. -/
def State.genPieces (s : State) (k : GenRef) (g : Gen) : List (Nat × List Byte) → Bool → List Nat × State
  | [], _ => ([], s)
  | p :: l, wr =>
    let (i, s) := s.genIssue k g (p.1 - g.cap.base) p.2.length (if wr then p.2 else [])
    let (is, s) := s.genPieces k g l wr
    (i :: is, s)

/-- An element outside the capability, as an index can reach it (R285), or outside the address space (R279). -/
def Gen.outside (g : Gen) (o : Int) : Bool :=
  o < 0 || g.cap.length < o.toNat + g.bytes || rangeBad g.cap.space (g.cap.base + o.toNat) g.bytes

/-- One element read: from the window, or by accesses; none where the window must wait. -/
def State.genElem (s : State) (k : GenRef) (g : Gen) (o : Int) : Option (GElem × State) :=
  match g.win with
  | some w =>
    let wr := k.at.win w
    match s.win? wr with
    | none => none
    | some d =>
      if o < 0 then none
      else
        let first := o.toNat / d.size
        let n := (o.toNat + g.bytes - 1) / d.size - first + 1
        if !d.readable first n then none
        else if s.winBad wr d first n then some ({ fault := some .ecc }, s)
        else some ({ data := ((s.winBytes wr d first n).drop (o.toNat % d.size)).take g.bytes }, s)
  | none =>
    if g.outside o then some ({ fault := some .bounds }, s)
    else
      let (ids, s) := s.genPieces k g (lineSplit (g.bytes + 1) (g.cap.base + o.toNat) (List.replicate g.bytes 0)) false
      some ({ ids := ids }, s)

/-- The indices in hand, with beats of the index channel taken while fewer than `n` stand there. -/
def State.takeIdx (s : State) (k : GenRef) : Nat → Nat → State
  | 0, _ => s
  | m + 1, n =>
    match s.gen? k with
    | none => s
    | some g =>
      match g.idx with
      | none => s
      | some vc =>
        if n ≤ g.idxBuf.length then s
        else
          let c := k.at.chan vc
          let i := match s.chan? c with | some x => x.items.findIdx (·.slot) | none => 0
          match s.takeAt c i with
          | none => s
          | some (it, s) =>
            if it.fault.isSome then (s.sinkItem k.rid it 3 k.elem).modGen k fun g => { g with stopped := true }
            else
              let ws := (List.range 16).map fun j => it.beat.toNat / 2 ^ (32 * j) % 2 ^ 32
              let s := (s.sinkItem k.rid it 3 k.elem).modGen k fun g => { g with idxBuf := g.idxBuf ++ ws, idxBeats := g.idxBeats + 1 }
              s.takeIdx k m n

/-- Elements of the walk that are left, up to `n`. -/
def leftGo : Nat → Gen → Nat
  | 0, _ => 0
  | n + 1, g => if g.ended then 0 else 1 + leftGo n g.advance.1

/-- Gather up to `n` elements of the walk; none where one must wait. The flag says that a loop-0 run ended. -/
def State.gather (s : State) (k : GenRef) : Nat → Gen → List GElem → Bool → Option (List GElem × Bool × Gen × State)
  | 0, g, es, last => some (es, last, g, s)
  | n + 1, g, es, last =>
    if g.ended then some (es, last, g, s)
    else
      let ix := if g.idx.isSome then g.idxBuf.head? else none
      if g.idx.isSome && ix.isNone then none
      else
        match s.genElem k g (g.at_ g.i ix) with
        | none => none
        | some (e, s) =>
          let (g, run) := ({ g with idxBuf := if g.idx.isSome then g.idxBuf.drop 1 else g.idxBuf }).advance
          s.gather k n g (es ++ [e]) (last || run)

/-- A letter of a generator (R344, R346). -/
def State.genLetter (s : State) (k : GenRef) (b : Bad) (off : Nat) : State :=
  match b with
  | .ecc => s.remoteLetter k.rid tECC_UNCORR k.elem 9 0 off 0
  | .bounds => s.remoteLetter k.rid tCAP_BOUNDS k.elem 9 0 off 0
  | .status va out => s.remoteLetter k.rid tISLAND_STATUS k.elem 9 0 va (0x100 + out)

/-- An element of a beat waits in a dead-letter queue. -/
def State.diverted (s : State) (b : GBeat) : Bool :=
  b.els.any fun e => e.ids.any fun i => match s.acc? i with
    | some a => match a.place with | .dead _ => true | _ => false
    | none => false

/-- A read generator has fetched as far as it may (R289): 64 beats behind the oldest one it holds, or, of a commutative stream, 64 that are not diverted. -/
def State.farAhead (s : State) (g : Gen) : Bool :=
  64 ≤ (if g.commut then g.ahead.filter fun b => !s.diverted b else g.ahead.drop 1).length

/-- The walk passes over one beat. -/
def passGo : Nat → Gen → Gen
  | 0, g => g
  | n + 1, g => if g.ended then g else passGo n g.advance.1

/-- The walk passes over the beats that were delivered before it was rewound. -/
def skipGo : Nat → Gen → Gen
  | 0, g => g
  | n + 1, g => if !g.ended && g.skip.contains g.i then skipGo n (passGo g.per g) else g

/-- A read generator issues its next beat (R89, R289). -/
def State.genFetch (s : State) (k : GenRef) (g : Gen) : State :=
  if g.ended || g.paused || g.stopped || g.check || s.farAhead g then s
  else if !g.skip.isEmpty && g.skip.contains g.i then s.setGen k (skipGo g.skip.length g)
  else
    let n := leftGo g.per g
    let s := s.takeIdx k (n + 1) n
    match s.gen? k with
    | none => s
    | some g =>
      if g.stopped then s.genLetter k .ecc 0
      else if g.idx.isSome && g.idxBuf.length < n then s
      else
        let pos := g.i
        let idx := g.idxBuf.take n
        match s.gather k n g [] false with
        | none => s
        | some (es, last, g, s) =>
          if g.win.isSome && es.any (·.fault.isSome) then
            (s.modGen k fun g => { g with stopped := true }).genLetter k .ecc 0
          else (s.setGen k { g with ahead := g.ahead ++ [{ els := es, last := last, pos := pos, idx := idx }] }).active k.rid

/-! Delivery (R285, R289, R346) -/

/-- Data and fault of an element whose reads have completed. -/
def State.genData (s : State) (e : GElem) : Option (List Byte × Option Bad) :=
  if e.fault.isSome || e.ids.isEmpty then some (e.data, e.fault)
  else (s.results e.ids).map fun r => (r.1, if r.2.2 then some .ecc else none)

/-- Data and fault of a beat. -/
def State.beatData (s : State) : List GElem → Option (List Byte × Option Bad)
  | [] => some ([], none)
  | e :: es =>
    match s.genData e, s.beatData es with
    | some (b, f), some (bs, fs) => some (b ++ bs, if f.isSome then f else fs)
    | _, _ => none

/-- The beat to deliver: the oldest, or for a commutative stream the first whose earlier ones are all diverted. -/
def State.nextBeat (s : State) (commut : Bool) : List GBeat → Nat → Option (Nat × GBeat × List Byte × Option Bad)
  | [], _ => none
  | b :: l, n =>
    match s.beatData b.els with
    | some (bs, f) => some (n, b, bs, f)
    | none => if commut && s.diverted b then s.nextBeat commut l (n + 1) else none

/-- Count up to `m` elements of a beat into the histogram window (R59); their type is the format of the stream's channel. The record stands at offset 0 of the window, and a window that cannot hold it counts nothing (DESIGN CHOICE, log 59). -/
def State.genHist (s : State) (k : GenRef) (g : Gen) (c : ChanRef) (bs : List Byte) (m : Nat) : State :=
  match g.hist, Ty.ofCode (BitVec.ofNat 5 (s.fmt c)) with
  | some (he, hw), some t =>
    let wr : WinRef := ⟨k.rid, he, hw⟩
    match s.win? wr with
    | none => s
    | some w =>
      if !(t.isFloat || t.isSmall || t == .e8m0) || w.size ≠ 4 || w.cap.toNat < 256 then s
      else
        let x := ofBytesLE bs
        -- a beat of a 6-bit type holds 64 elements (R38)
        let n := min m (min (8 * bs.length / t.bits) (if t.bits = 6 then 64 else 128))
        let codes := (List.range n).map fun i => histIndex t (packed t x i)
        s.modElem wr.at fun e => e.putAt w 0 (histAdd (chunksOf 4 1024 (s.winBytes wr w 0 256)) codes) false
  | _, _ => s

/-- What a beat holds: its elements and zeros behind them; with the quantise stage on, the codes of its blocks. -/
def State.genBeat (s : State) (g : Gen) (src32 : Bool) (bs : List Byte) : Beat × State :=
  if g.quant then
    let (n, s) := s.fresh
    (bytesBeat (g.quantised src32 bs ((Config.freeWord n).extractLsb' 0 64)), s)
  else (bytesBeat bs, s)

/-- A read generator delivers one beat into a free slot; the histogram counts the beat as it stands on the stream, quantised where the stage is on (R59, R89). -/
def State.genDeliver (s : State) (k : GenRef) (g : Gen) : State :=
  match s.nextBeat g.commut g.ahead 0 with
  | none => s
  | some (n, b, bs, f) =>
    let c := s.route? k.at g.oc
    let room := match c with
      | some c => (match s.chan? c with | some x => 0 < x.free | none => true)
      | none => true
    if !room then s
    else
      let s := (b.els.flatMap (·.ids)).foldl State.dropAcc s
      let (beat, s) := if f.isSome then ((0 : Beat), s) else s.genBeat g (g.bytes == 4) bs
      let s := match c with
        | some c => if f.isSome then s
          else if g.quant then s.genHist k g c (beatBytes beat) (bs.length / (if g.bytes = 4 then 4 else 2))
          else s.genHist k g c bs 128
        | none => s
      let rest := g.ahead.eraseIdx n
      -- listed are the delivered positions that a walk from the oldest beat not delivered would meet
      let oldest := match rest with | o :: _ => o.pos | [] => g.i
      let skip := if rest.isEmpty && g.ended then [] else (g.skip ++ [b.pos]).filter fun p => g.ordinal oldest ≤ g.ordinal p
      let s := s.setGen k { g with ahead := rest, skip := skip, beats := g.beats + 1 }
      s.depart k.at g.oc 9 0 false { beat := beat, last := b.last, fault := f }

/-! Writes -/

/-- The writes of one beat at the walk's next offsets, as far as they lie inside the capability. CAP 0xFF gives a write pattern no capability: it stops at its first element as an index outside does (R89 speaks of a window source only; DESIGN CHOICE, log 61). -/
def State.genStores (s : State) (k : GenRef) : Nat → Gen → List Byte → Gen × Bool × State
  | 0, g, _ => (g, true, s)
  | n + 1, g, bs =>
    if g.ended then (g, true, s)
    else
      let ix := if g.idx.isSome then g.idxBuf.head? else none
      let o := g.at_ g.i ix
      if g.outside o then (g, false, s)
      else
        let (_, s) := s.genPieces k g (lineSplit (g.bytes + 1) (g.cap.base + o.toNat) (bs.take g.bytes)) true
        let (g, _) := ({ g with idxBuf := if g.idx.isSome then g.idxBuf.drop 1 else g.idxBuf }).advance
        s.genStores k n g (bs.drop g.bytes)

/-- Source bytes that the quantise stage of a write waits for: those of a whole beat, or of the `n` elements of memory that are left. -/
def Gen.quantNeed (g : Gen) (src32 : Bool) (n : Nat) : Nat :=
  let bits := match quantFmt g.qfmt with | some t => t.bits | none => 8
  min g.quantElems (ceilDiv (8 * n * g.bytes) bits) * (if src32 then 4 else 2)

/-- Codes whose source elements a write generator holds in its quantise stage, in bytes of memory. -/
def Gen.heldBytes (g : Gen) (src32 : Bool) : Nat :=
  let bits := match quantFmt g.qfmt with | some t => t.bits | none => 8
  ceilDiv (g.qbuf.length / (if src32 then 4 else 2) * bits) 8

/-- A write generator that stops writes every beat that it has taken (R329): the codes of the source elements in its quantise stage, as a block of their own (DESIGN CHOICE, log 5). -/
def State.genFlush (s : State) (k : GenRef) (g : Gen) : State :=
  if g.qbuf.isEmpty || g.ended || g.stopped then s
  else
    let src32 := s.fmt (k.at.chan g.oc) == Ty.f32.code.toNat
    let n := ceilDiv (g.heldBytes src32) g.bytes
    if g.idx.isSome && g.idxBuf.length < n then s
    else
      let (beat, s) := s.genBeat g src32 g.qbuf
      let (g, ok, s) := s.genStores k n { g with qbuf := [] } (beatBytes beat)
      let s := (s.setGen k { g with beats := g.beats + 1, stopped := !ok }).active k.rid
      if ok then s else s.genLetter k .bounds 0

/-- A write generator takes a beat of its channel and writes it (R89, R289); with the quantise stage on, once the blocks of a beat have come together (R39), of the type of its channel. It stops at a beat without data or an index outside (R285, R346). -/
def State.genStore (s : State) (k : GenRef) (g : Gen) : State :=
  if g.check && !g.paused then s.genFlush k g
  else if g.ended || g.paused || g.stopped || g.check then s
  else
    let n := leftGo g.per g
    let c := k.at.chan g.oc
    match s.chan? c with
    | none => s
    | some x =>
      let i := x.items.findIdx (·.slot)
      match x.items[i]? with
      | none => s
      | some it =>
        match it.fault with
        | some b => (s.modGen k fun g => { g with stopped := true }).genLetter k b 0
        | none =>
          let s := s.takeIdx k (n + 1) n
          match s.gen? k with
          | none => s
          | some g =>
            if g.stopped then s.genLetter k .ecc 0
            else if g.idx.isSome && g.idxBuf.length < n then s
            else
              match s.takeAt c i with
              | none => s
              | some (it, s) =>
                let s := s.sinkItem k.rid it 3 k.elem
                let src32 := s.fmt c == Ty.f32.code.toNat
                -- what lies behind the end of the walk is no element of the stream
                let s := s.genHist k g c ((beatBytes it.beat).take (if g.quant then g.quantNeed src32 n - g.qbuf.length else n * g.bytes)) 128
                let bs := g.qbuf ++ beatBytes it.beat
                if g.quant && bs.length < g.quantNeed src32 n then (s.setGen k { g with qbuf := bs }).active k.rid
                else
                  let (beat, s) := s.genBeat g src32 bs
                  let (g, ok, s) := s.genStores k n { g with qbuf := [] } (beatBytes beat)
                  let s := (s.setGen k { g with beats := g.beats + 1, stopped := !ok }).active k.rid
                  if ok then s else s.genLetter k .bounds 0

/-! The end of a stream (R89, R235, R239, R249) -/

/-- The output of a generator's done token. -/
def State.doneOut (s : State) (k : GenRef) : Nat :=
  match s.elem? k.at with
  | some e => if e.kind == .mu then 28 + k.gen else 31
  | none => 31

/-- Every write of a generator is complete at device scope. -/
def State.genQuiet (s : State) (k : GenRef) : Bool :=
  s.accs.all fun a => a.issuer ≠ .gen k || !a.write || 2 ≤ a.level

/-- After the last beat: the end-of-tile token, then the done token, once. A read sends its end-of-tile token behind its beats; R89 names no output for that of a write, which leaves on the output of its done token, ahead of it (DESIGN CHOICE, log 60). -/
def State.genEnd (s : State) (k : GenRef) : State :=
  match s.gen? k with
  | none => s
  | some g =>
    let o := s.doneOut k
    if !g.ended || !g.ahead.isEmpty || g.doneSent || g.stopped || !s.genQuiet k then s
    else if !s.ctlRoom k.at o || (g.eot && !s.ctlRoom k.at (if g.write then o else g.oc)) then s
    else
      let s := if g.eot then s.sendCtl k.at (if g.write then o else g.oc) (ctlItem .endOfTile (controlBeat .endOfTile 0 0 0 0)) else s
      ((s.modGen k fun g => { g with doneSent := true }).sendCtl k.at o (ctlItem .done (controlBeat .done 0 0 0 0))).active k.rid

/-- A frozen read generator that has met the checkpoint marker delivers what it has fetched, while its element is not yet saved (R329). -/
def State.genDrains (s : State) (k : GenRef) (g : Gen) : Bool :=
  !g.write && g.check &&
  match s.elem? k.at, s.res? k.rid with
  | some el, some rs => el.frozen == some .round && !el.saved && rs.st == .draining
  | _, _ => false

/-- A write generator that has met the checkpoint marker writes what it has taken, while its element, which a drain has frozen, is not yet saved (R329). -/
def State.genStops (s : State) (k : GenRef) (g : Gen) : Bool :=
  g.write && g.check && !g.paused &&
  match s.elem? k.at, s.res? k.rid with
  | some el, some rs => el.frozen == some .round && !el.saved && rs.st == .draining
  | _, _ => false

/-- One cycle of a generator: a beat fetched and one delivered, or one written; then its end (R89, R285). -/
def execAddressGeneratorBeat (s : State) : Out :=
  match s.arg with
  | .gen k =>
    match s.gen? k with
    | none => .next s
    | some g =>
      if !s.acts k.at then .next (if s.genDrains k g then s.genDeliver k g else if s.genStops k g then s.genFlush k g else s)
      else if g.write then .next ((s.genStore k g).genEnd k)
      else
        let s := s.genFetch k g
        let s := match s.gen? k with | some g => s.genDeliver k g | none => s
        .next (s.genEnd k)
  | _ => .next s

/-- Beats fetched and never delivered are discarded; the walk stands behind the last delivered one, or at the oldest that was not (R329). -/
def State.genRewind (s : State) (k : GenRef) : State :=
  match s.gen? k with
  | none => s
  | some g =>
    match g.ahead with
    | [] => s
    | b :: _ =>
      let s := (g.ahead.flatMap fun b => b.els.flatMap (·.ids)).foldl State.dropAcc s
      s.setGen k { g with i := b.pos, ended := false, idxBuf := g.ahead.flatMap (·.idx) ++ g.idxBuf, ahead := [] }

/-- A read generator can deliver nothing more: all it has fetched has come, its next beat finds no free slot, and nothing will be taken there (R328, R329). -/
def State.genStuck (s : State) (k : GenRef) (g : Gen) : Bool :=
  g.ahead.all (fun b => (s.beatData b.els).isSome) &&
  match s.route? k.at g.oc with
  | none => false
  | some c => (match s.chan? c with | some x => x.free = 0 | none => false) &&
      (match s.elem? c.at with | some el => el.frozen == some .round | none => false)

/-- A checkpoint of its own is over: every sink has seen the marker, and no marker of it is on its way or held back (R340). -/
def State.checkOver (s : State) (rid : Nat) : Bool :=
  s.checked rid && (s.chans.all fun p => p.1.rid ≠ rid || p.2.flight.all fun f => f.2 != .marker .checkpoint) &&
  (s.elemsOf rid).all fun p => !p.2.check || (s.holding p.1).isEmpty

/-- The checkpoint marker reaches an element (R329); with the last sink of a checkpoint of its own, the generators resume in the next cycle (R340). -/
def execCheckpointMarker (s : State) : Out :=
  match s.arg with
  | .chan c =>
    match s.markerAt c with
    | some .checkpoint => .next ((s.popMarker c).elemCheck c.at)
    | _ => .next s
  | .elem e =>
    -- the marker follows the last fetched beat, or the last that can be delivered
    match s.elem? e with
    | some el =>
      let h := s.holding e
      if el.check && h.all fun p => s.genStuck p.1 p.2 then
        .next ((h.foldl (fun s p => s.genRewind p.1) s).sendMarkers e .checkpoint)
      else .next s
    | none => .next s
  | .id rid =>
    match s.res? rid with
    | some rs =>
      if rs.check && rs.st == .resident && s.checkOver rid then
        .next { (s.modRes rid fun rs => { rs with check := false }) with
          elems := tmap s.elems fun k e => if k.rid = rid then { e with check := false } else e
          gens := tmap s.gens fun k g => if k.rid = rid then { g with check := false } else g }
      else .next s
    | none => .next s
  | _ => .next s

/-! Invalidation of extents (R292) -/

/-- A generator's extents intersect a VA range of tables. -/
def Gen.meets (g : Gen) (asid : Option Nat) (bulk : Option Bool) (lo hi : Nat) : Bool :=
  (match asid with | some a => g.cap.asid == a | none => true) &&
  (match bulk with | some b => (g.cap.space == 2) == b | none => true) &&
  g.extents.any fun e => g.cap.base + e.lo < hi && lo < g.cap.base + e.hi

/-- The extents of a generator that an invalidation paused cannot be rewritten yet (R376). -/
def State.repatchAsleep (s : State) (i : Inval) : Bool := s.gens.any fun p => i.paused.contains p.1 && s.genAsleep p.2

/-- Rewrite the extents of the generators that an invalidation paused. -/
def State.repatch (s : State) (i : Inval) : State :=
  { s with gens := tmap s.gens fun k g => if i.paused.contains k then { g with extents := (s.extentsFor g).getD [] } else g }

end Sys2Proof.Machine
end

