-- ==== Sys2Proof/Machine/Operators.lean ====
section
/-! DEFINITION. Fabric operators and controllers (R88, R104, R232-R240, R346). -/

namespace Sys2Proof.Machine

/-- The control value of a token at a CTL channel (R234). -/
def Item.truth (i : Item) : Bool :=
  match i.ctl with
  | none => i.beat.getLsbD 0
  | some .completion | some .done | some .permit => true
  | some k => k.code % 2 == 1

/-- What one firing takes and sends. -/
structure Plan where
  /-- channel and place of each token taken; whether it passes on: one whose chosen output is not valid is discarded (R236) -/
  takes : List (Nat × Nat × Bool) := []
  /-- data beats by output -/
  sends : List (Nat × Item) := []
  /-- control-network tokens by output -/
  ctls : List (Nat × Item) := []
  op : OpSt
deriving DecidableEq, Repr

/-- Takes alone, as a word's. -/
def takesOnly (l : List (Nat × Nat × Bool)) : Plan :=
  { takes := l, op := { opc := 0xF, ina := 32, inb := 32, ctl := 32, param := 0, value := 0, outs := [], depth := 0 } }

/-- The token at place i of a channel of the operator. -/
def State.token (s : State) (e : ElemRef) (vc i : Nat) : Option Item :=
  match s.chan? (e.chan vc) with | some x => x.items[i]? | none => none

/-- Output `n` of the operator, where it is valid. -/
def OpSt.out (o : OpSt) (n : Nat) : Option Nat := (o.outs[n]?).getD none

/-- A data beat on output n, unmarked: what a control token brought is passed on as data (R236). It ends no transfer, whatever ended with the beat taken: the table of R228 has no row for an operator (DESIGN CHOICE, log 72). -/
def OpSt.beat (o : OpSt) (n : Nat) (i : Item) : List (Nat × Item) :=
  match o.out n with
  | some oc => [(oc, { i with ctl := none, markB := false, slot := true, last := false, reply := none })]
  | none => []

/-- Some output is sent on. -/
def onward (l : List (Nat × Item)) : Bool := !l.isEmpty

def OpSt.doneChans (o : OpSt) : List Nat := (List.range 32).filter fun n => o.value.getLsbD n

/-! What fires, by its tokens alone (R236-R238) -/

def planPass (s : State) (e : ElemRef) (o : OpSt) : Option Plan :=
  (s.token e o.ina 0).map fun i => { takes := [(o.ina, 0, onward (o.beat 0 i))], sends := o.beat 0 i, op := o }

def planFork (s : State) (e : ElemRef) (o : OpSt) : Option Plan :=
  (s.token e o.ina 0).map fun i =>
    let out := (List.range 4).flatMap fun n => o.beat n i
    { takes := [(o.ina, 0, onward out)], sends := out, op := o }

def planSteer (s : State) (e : ElemRef) (o : OpSt) : Option Plan :=
  match s.token e o.ina 0, s.token e o.ctl 0 with
  | some i, some c =>
    let out := o.beat (if c.truth then 0 else 1) i
    some { takes := [(o.ina, 0, onward out), (o.ctl, 0, false)], sends := out, op := o }
  | _, _ => none

/-- Place of the token that a merge selects: in a shared channel the oldest with the mark (R237). -/
def State.mergePick (s : State) (e : ElemRef) (o : OpSt) (t : Bool) : Option (Nat × Nat) :=
  if o.ina = o.inb then
    match s.chan? (e.chan o.ina) with
    | none => none
    | some x => (x.items.findIdx? fun i => i.markB != t).map fun n => (o.ina, n)
  else
    let vc := if t then o.ina else o.inb
    (s.token e vc 0).map fun _ => (vc, 0)

def planMerge (s : State) (e : ElemRef) (o : OpSt) : Option Plan :=
  match s.token e o.ctl 0 with
  | none => none
  | some c =>
    match s.mergePick e o c.truth with
    | none => none
    | some (vc, n) =>
      (s.token e vc n).map fun i => { takes := [(o.ctl, 0, false), (vc, n, onward (o.beat 0 i))], sends := o.beat 0 i, op := o }

def planAmerge (s : State) (e : ElemRef) (o : OpSt) : Option Plan :=
  match s.token e o.ina 0, s.token e o.inb 0 with
  | some i, _ => some { takes := [(o.ina, 0, onward (o.beat 0 i))], sends := o.beat 0 i, op := o }
  | none, some i =>
    some { takes := [(o.inb, 0, onward (o.beat 0 i))], sends := (o.beat 0 i).map fun p => (p.1, { p.2 with markB := true }), op := o }
  | none, none => none

def planCarry (s : State) (e : ElemRef) (o : OpSt) : Option Plan :=
  if o.looping then
    match s.token e o.ctl 0, s.token e o.inb 0 with
    | some c, some i =>
      let out := o.beat (if c.truth then 0 else 1) i
      some { takes := [(o.ctl, 0, false), (o.inb, 0, onward out)], sends := out,
             op := { o with looping := c.truth } }
    | _, _ => none
  else
    (s.token e o.ina 0).map fun i =>
      { takes := [(o.ina, 0, onward (o.beat 0 i))], sends := o.beat 0 i, op := { o with looping := true } }

def planJoin (s : State) (e : ElemRef) (o : OpSt) : Option Plan :=
  if o.doneChans.all fun vc => (s.token e vc 0).isSome then
    some { takes := o.doneChans.map fun vc => (vc, 0, false),
           ctls := match o.out 0 with
             | some oc => [(oc, ctlItem .completion (controlBeat .completion 0 0 0 0))]
             | none => [],
           op := o }
  else none

/-- A gate takes a permit where one stands, and passes a token where one stands and REMAIN allows it; `pass` says whether its slot is free. -/
def planGate (pass : Bool) (s : State) (e : ElemRef) (o : OpSt) : Option Plan :=
  let permit := s.token e o.ctl 0
  let remain := if permit.isSome then min (o.remain + o.param) (2 ^ 32 - 1) else o.remain
  let taken := if permit.isSome then [(o.ctl, 0, false)] else []
  match (if pass && remain ≠ 0 then s.token e o.ina 0 else none) with
  | some i => some { takes := taken ++ [(o.ina, 0, onward (o.beat 0 i))], sends := o.beat 0 i, op := { o with remain := remain - 1 } }
  | none => if permit.isSome then some { takes := taken, op := { o with remain := remain } } else none

def planConst (_s : State) (_e : ElemRef) (o : OpSt) : Option Plan :=
  if o.param = 0 || o.sent < o.param then
    let b := BitVec.ofNat 512 (packGo 64 (List.replicate 8 o.value.toNat))
    some { sends := o.beat 0 { beat := b }, op := { o with sent := o.sent + 1 } }
  else none

def planSink (s : State) (e : ElemRef) (o : OpSt) : Option Plan :=
  (s.token e o.ina 0).map fun _ => { takes := [(o.ina, 0, false)], op := o }

def planCount (s : State) (e : ElemRef) (o : OpSt) : Option Plan :=
  (s.token e o.ina 0).map fun _ =>
    let hit := o.n + 1 == o.param
    { takes := [(o.ina, 0, false)], sends := o.beat 0 { beat := if hit then 1 else 0 },
      op := { o with n := if hit then 0 else o.n + 1 } }

def planSelect (s : State) (e : ElemRef) (o : OpSt) : Option Plan :=
  (s.token e o.ina 0).map fun i =>
    { takes := [(o.ina, 0, false)],
      ctls := (List.range 4).filterMap fun n => (o.out n).map fun oc => (oc, ctlItem (.select (i.beat.toNat % 2 ^ 16)) i.beat),
      op := o }

/-- The plan by operator code. -/
def planOf (s : State) (e : ElemRef) (o : OpSt) : Option Plan :=
  match o.opc with
  | 0x0 => planPass s e o
  | 0x1 => planFork s e o
  | 0x2 => planSteer s e o
  | 0x3 => planMerge s e o
  | 0x4 => planAmerge s e o
  | 0x5 => planCarry s e o
  | 0x6 => planJoin s e o
  | 0x7 => planGate true s e o
  | 0xB => planConst s e o
  | 0xC => planSink s e o
  | 0xD => planCount s e o
  | 0xE => planSelect s e o
  | _ => none

/-! Slots (R232): the largest set of firings in which each finds its slots -/

/-- A firing that a cycle may hold, or what a tile's word takes in it: its element and plan. -/
abbrev Firer := ElemRef × Plan

/-- Slots that the firings of a set empty in a channel. -/
def emptied (s : State) (l : List Firer) (c : ChanRef) : Nat :=
  (l.map fun f => if f.1 == c.at then
    (f.2.takes.filter fun t => t.1 == c.vc && match s.token f.1 t.1 t.2.1 with | some i => i.slot | none => false).length
    else 0).foldl (· + ·) 0

/-- The operator elements whose step is still to come in this cycle. -/
def State.toCome (s : State) : List ElemRef :=
  s.agenda.filterMap fun p => match p.2 with | .elem e => if (tget s.ops e).isSome then some e else none | _ => none

/-- Slots of a channel that a controller whose step is still to come empties in this cycle: every data beat of its DONE mask, and one of its CTL where no run is under way (R239). -/
def State.donesEmpty (s : State) (c : ChanRef) : Nat :=
  if !s.toCome.contains c.at || !s.acts c.at then 0
  else match tget s.ops c.at, s.elem? c.at, s.chan? c with
    | some o, some el, some x =>
      let bad := (o.doneChans ++ [o.ctl]).any fun vc => ((s.token c.at vc 0).bind (·.fault)).isSome
      if 0x8 ≤ o.opc && o.opc ≤ 0xA && !el.stuck && !bad then
        if o.doneChans.contains c.vc then ((x.items.takeWhile (·.fault.isNone)).filter (·.slot)).length
        else if c.vc == o.ctl && !o.running then ((x.items.take 1).filter (·.slot)).length
        else 0
      else 0
    | _, _, _ => 0

/-- Every output that a firing sends on finds a slot for each beat that goes there, and no control token holds it back (R231, R234). -/
def State.roomFor (s : State) (l : List Firer) (f : Firer) : Bool :=
  (f.2.sends.all fun p => match s.route? f.1 p.1 with
    | none => true
    | some c => match s.chan? c with
      | none => true
      | some x => x.taken + x.reserved + (f.2.sends.filter fun q => s.route? f.1 q.1 == some c).length ≤ x.slots + emptied s l c + s.donesEmpty c) &&
  f.2.ctls.all fun p => s.ctlRoom f.1 p.1

/-- What an operator without room still does in a cycle: a gate takes its permit (R236). -/
def State.lesser (s : State) (f : Firer) : Option Firer :=
  match tget s.ops f.1 with
  | some o => if o.opc = 0x7 && !f.2.sends.isEmpty then (planGate false s f.1 o).map (f.1, ·) else none
  | none => none

/-- An operator's firing, where the set leaves it room; else what it still does. -/
def State.keepOp (s : State) (l : List Firer) (f : Firer) : Option Firer := if s.roomFor l f then some f else s.lesser f

/-- Cut a set of firings down until each stands in what is left of it; an operator is cut at most twice, and a tile has eight contexts to grant. -/
def settleFirers (keep : List Firer → Firer → Option Firer) : Nat → List Firer → List Firer
  | 0, l => l
  | n + 1, l =>
    let k := l.filterMap (keep l)
    if k = l then l else settleFirers keep n k

/-- An operator that a fault token stopped, or whose next token is one, does not fire. -/
def State.planBad (s : State) (e : ElemRef) (p : Plan) : Option Bad :=
  p.takes.findSome? fun t => match s.token e t.1 t.2.1 with | some i => i.fault | none => none

/-- The plan of an operator element that may fire. -/
def State.firer (s : State) (e : ElemRef) : Option Firer :=
  match tget s.ops e, s.elem? e with
  | some o, some el =>
    if el.stuck || !s.acts e then none
    else match planOf s e o with
      | some p => if (s.planBad e p).isSome then none else some (e, p)
      | none => none
  | _, _ => none

/-- The operator finds its slots, counting those that others empty in this cycle. -/
def State.fires (s : State) (e : ElemRef) (p : Plan) : Bool :=
  let l := (e, p) :: (s.toCome.filter (· ≠ e)).filterMap s.firer
  (settleFirers s.keepOp (2 * l.length) l).contains (e, p)

/-! Firing -/

/-- Take the tokens of a plan, the later places of one channel first; a token not passed on ends there (R357). -/
def State.takeAll (s : State) (e : ElemRef) : List (Nat × Nat × Bool) → List Sample → List Sample × State
  | [], l => (l, s)
  | t :: ts, l =>
    match s.takeAt (e.chan t.1) t.2.1 with
    | none => s.takeAll e ts l
    | some (i, s) =>
      if t.2.2 then s.takeAll e ts (l ++ i.sample.toList)
      else (s.sinkItem e.rid i 4 e.elem).takeAll e ts l

/-- Carry out a plan. -/
def State.fire (s : State) (e : ElemRef) (p : Plan) : State :=
  let (marks, s) := s.takeAll e p.takes []
  let s := { s with ops := tput s.ops e p.op }
  let s := p.sends.foldl (fun s q => s.depart e q.1 10 0 false { q.2 with sample := if q.2.sample.isSome then marks.head? else none }) s
  let s := p.ctls.foldl (fun s q => s.sendCtl e q.1 q.2) s
  s.active e.rid

/-- A fault token stops an operator element, with its letter (R346). -/
def State.opStuck (s : State) (e : ElemRef) (b : Bad) : State :=
  let s := s.modElem e fun el => { el with stuck := true }
  match b with
  | .ecc => s.remoteLetter e.rid tECC_UNCORR e.elem 10 0 0 0
  | .bounds => s.remoteLetter e.rid tCAP_BOUNDS e.elem 10 0 0 0
  | .status va out => s.remoteLetter e.rid tISLAND_STATUS e.elem 10 0 va (0x100 + out)

/-- One cycle of an operator of a code (R232, R236): it fires at most once; a fault token stops it (R346). -/
def opStep (code : Nat) (plan : State → ElemRef → OpSt → Option Plan) (s : State) : Out :=
  match s.arg with
  | .elem e =>
    match tget s.ops e, s.elem? e with
    | some o, some el =>
      if o.opc ≠ code || el.stuck || !s.acts e then .next s
      else match plan s e o with
        | none => .next s
        | some p =>
          match s.planBad e p with
          | some b => .next (s.opStuck e b)
          | none => if s.fires e p then .next (s.fire e p) else .next s
    | _, _ => .next s
  | _ => .next s

/-- INA to out0 (R236). -/
def execPass (s : State) : Out := opStep 0x0 planPass s
/-- A copy on each valid out (R236). -/
def execFork (s : State) : Out := opStep 0x1 planFork s
/-- INA to out0 or out1 by CTL (R236). -/
def execSteer (s : State) : Out := opStep 0x2 planSteer s
/-- The input that CTL selects, shared input included (R236, R237). -/
def execMerge (s : State) : Out := opStep 0x3 planMerge s
/-- Next token in arrival order, marked with its input (R236, R237). -/
def execAmerge (s : State) : Out := opStep 0x4 planAmerge s
/-- The carry of a fabric loop (R238). -/
def execCarry (s : State) : Out := opStep 0x5 planCarry s
/-- One completion token once every channel of the mask holds a token (R236). -/
def execJoin (s : State) : Out := opStep 0x6 planJoin s
/-- PARAM tokens per permit (R236); a permit is taken whether or not a token can pass. -/
def execGate (s : State) : Out :=
  opStep 0x7 (fun s e o =>
    match planGate true s e o with
    | some p => if p.sends.isEmpty || s.fires e p then some p else planGate false s e o
    | none => none) s
/-- PARAM beats of VALUE (R236). -/
def execConst (s : State) : Out := opStep 0xB planConst s
/-- Discard INA (R236). -/
def execSink (s : State) : Out := opStep 0xC planSink s
/-- A true token for every PARAM tokens (R236). -/
def execCount (s : State) : Out := opStep 0xD planCount s
/-- Context-select tokens of a COMPAT image (R88, R104). -/
def execSelect (s : State) : Out := opStep 0xE planSelect s

/-! Controllers (R239, R240) -/

/-- Dones of a controller's children in this cycle: every token of the DONE mask is taken, up to a fault token (R346). -/
def State.takeDones (s : State) (e : ElemRef) : List Nat → State × List Nat
  | [] => (s, [])
  | vc :: l =>
    let n := match s.chan? (e.chan vc) with | some x => (x.items.takeWhile (·.fault.isNone)).length | none => 0
    let s := (List.range n).foldl (fun s _ => match s.takeAt (e.chan vc) 0 with
      | some (i, s) => s.sinkItem e.rid i 4 e.elem
      | none => s) s
    let (s, ns) := s.takeDones e l
    (s, n :: ns)

/-- Sums of two lists of counts. -/
def addCounts : List Nat → List Nat → List Nat
  | a :: l, b :: m => (a + b) :: addCounts l m
  | [], m => m
  | l, [] => l

/-- Child i may start iteration p_i + 1. -/
def permitOk (code : Nat) (o : OpSt) (m i : Nat) : Bool :=
  let n := o.p.getD i 0 + 1
  let d (j : Nat) := o.d.getD j 0
  n ≤ o.param &&
  match code with
  | 0x8 => if i = 0 then d (m - 1) ≥ n - 1 else d (i - 1) ≥ n
  | 0x9 => d i ≥ n - 1 && (i = 0 || d (i - 1) ≥ n) && (i + 1 ≥ m || n ≤ d (i + 1) + o.depth)
  | _ => (List.range m).all fun j => d j ≥ n - 1

/-- The run has ended. -/
def runOver (code : Nat) (o : OpSt) (m : Nat) : Bool :=
  match code with
  | 0xA => (List.range m).all fun j => o.d.getD j 0 ≥ o.param
  | _ => o.d.getD (m - 1) 0 ≥ o.param

/-- Send the permits whose condition holds, at most one per child. -/
def State.permits (s : State) (e : ElemRef) (code m : Nat) (o : OpSt) : List Nat → OpSt → State × OpSt
  | [], q => (s, q)
  | i :: l, q =>
    let oc := o.value.toNat / 2 ^ 32 % 2 ^ 5 + i
    if permitOk code o m i && s.ctlRoom e oc then
      let s := (s.sendCtl e oc (ctlItem .permit (controlBeat .permit 0 0 0 0))).active e.rid
      s.permits e code m o l { q with p := listPut 0 q.p i (q.p.getD i 0 + 1) }
    else s.permits e code m o l q

/-- Start a run where none is under way: at load without a CTL channel, otherwise by a permit. -/
def State.startRun (s : State) (e : ElemRef) (o : OpSt) : State × OpSt :=
  let fresh : OpSt := { o with running := true, runs := o.runs + 1, p := [], d := [] }
  let en := match s.chan? (e.chan o.ctl) with | some x => x.en | none => false
  if o.running then (s, o)
  else if !en then (if o.runs ≠ 0 then (s, o) else (s, fresh))
  else match s.takeAt (e.chan o.ctl) 0 with
    | some (i, s) => (s.sinkItem e.rid i 4 e.elem, fresh)
    | none => (s, o)

/-- One cycle of a controller. -/
def ctlStep (code : Nat) (s : State) : Out :=
  match s.arg with
  | .elem e =>
    match tget s.ops e, s.elem? e with
    | some o, some el =>
      if o.opc ≠ code || el.stuck || !s.acts e then .next s
      else
        let m := o.doneChans.length
        match (o.doneChans ++ [o.ctl]).findSome? fun vc => (s.token e vc 0).bind (·.fault) with
        | some b => .next (s.opStuck e b)
        | none =>
          let (s, o) := s.startRun e o
          let fin := o.running && runOver code o m
          let oc := (o.out 0).getD 32
          let (s, o) :=
            if fin then
              if s.ctlRoom e oc then
                ((s.sendCtl e oc (ctlItem .done (controlBeat .done 0 0 0 0))).active e.rid, { o with running := false })
              else (s, o)
            else if o.running then s.permits e code m o (List.range m) o
            else (s, o)
          let (s, ns) := s.takeDones e o.doneChans
          .next { s with ops := tput s.ops e { o with d := addCounts o.d ns } }
    | _, _ => .next s
  | _ => .next s

/-- Children one after another (R240). -/
def execSequentialController (s : State) : Out := ctlStep 0x8 s
/-- Children overlap up to DEPTH (R240). -/
def execPipelinedController (s : State) : Out := ctlStep 0x9 s
/-- Children together (R240). -/
def execStreamingController (s : State) : Out := ctlStep 0xA s

/-! The end of a channel's source (R235) -/

/-- The output of an element that a route leads to this channel, if any. -/
def State.sourceOf (s : State) (c : ChanRef) : Option (ElemRef × Nat) :=
  s.elems.findSome? fun p =>
    if p.1.rid ≠ c.rid then none
    else (p.2.routes.find? fun r => r.2.delem == c.elem && r.2.dvc == c.vc).map fun r => (p.1, r.1)

/-- A source can send nothing more on an output; `chan` says which channels have ended. -/
def State.spent (s : State) (ended : ChanRef → Bool) (e : ElemRef) (oc : Nat) : Bool :=
  match s.elem? e with
  | none => false
  | some el =>
    match el.kind with
    | .tile =>
      (s.ctxs.any fun p => p.1.tile == e && p.2.outMask.getLsbD oc && p.2.st == .done) ||
      (s.ctxs.any fun p => p.1.tile == e && 24 + p.1.ctx == oc && p.2.st == .done)
    | .mu | .edge =>
      s.gens.any fun p => p.1.at == e && p.2.ended && p.2.ahead.isEmpty && (p.2.oc == oc || (p.2.doneSent && s.doneOut p.1 == oc))
    | .op =>
      match tget s.ops e with
      | none => false
      | some o =>
        let dead (vc : Nat) : Bool := ended (e.chan vc)
        match o.opc with
        | 0xB => o.param ≠ 0 && o.sent == o.param
        | 0x0 | 0x1 | 0x7 | 0xD | 0x2 | 0xE => dead o.ina
        | 0x3 => dead o.ctl || (dead o.ina && dead o.inb)
        | 0x4 => dead o.ina && dead o.inb
        | 0x5 => dead o.ina && !o.looping
        | 0x6 => o.doneChans.any dead
        | 0x8 | 0x9 | 0xA =>
          o.runs ≠ 0 && !o.running &&
            ((match s.chan? (e.chan o.ctl) with | some x => !x.en | none => true) || dead o.ctl)
        | _ => false

/-- A channel holds no beat and no control beat, here or on its link; replies do not count (R235). -/
def State.emptyChan (s : State) (c : ChanRef) : Bool :=
  match s.chan? c with
  | some x => x.items.all (·.reply.isSome) && x.held.isEmpty && x.flight.all fun f => match f.2 with | .marker _ => true | .item i => i.reply.isSome
  | none => true

/-- A channel has ended; `n` bounds the length of the path back to its sources. -/
def State.chanEnded (s : State) : Nat → ChanRef → Bool
  | 0, _ => false
  | n + 1, c =>
    s.emptyChan c &&
    match s.sourceOf c with
    | none => false
    | some (e, oc) => s.spent (s.chanEnded n) e oc

/-- A task with TRIPS 0 whose inputs have all ended emits done and is DONE (R235). -/
def execTaskInputsEnded (s : State) : Out :=
  match s.arg with
  | .ctx r =>
    match s.ctx? r with
    | none => .next s
    | some x =>
      let depth := (s.elemsOf r.rid).length + 1
      if x.st == .idle && x.tripCnt == 0 && x.inMask ≠ 0 && s.acts r.tile && !s.adopting r.rid &&
          (List.range 32).all (fun n => !x.inMask.getLsbD n || s.chanEnded depth (r.tile.chan n)) then
        .next (((s.setCtx r { x with st := .done }).active r.rid).sendDone r)
      else .next s
  | _ => .next s

end Sys2Proof.Machine
end

