-- ==== Sys2Proof/Machine/Engines.lean ====
section
/-! DEFINITION. Engine words: checks, offer and acceptance; copies and quantising copies, gather and scatter, atomics (R198-R210). -/

namespace Sys2Proof.Machine

/-! Status words (R200) -/

def stOK : Word := 0x00
def stEMPTY : Word := 0x01
def stNOT_READY : Word := 0x02
def stBAD_ARG : Word := 0x10
def stBAD_TARGET : Word := 0x11
def stNO_CONTEXT : Word := 0x12
def stBAD_STATE : Word := 0x13
def stLIMIT : Word := 0x14
def stCHUNK_FAIL : Word := 0x15
def stABORTED : Word := 0x16
def stPEER_DOWN : Word := 0x17
def stNO_COLLECTIVE : Word := 0x18

/-- A status that is an error. -/
def errStatus (w : Word) : Bool := 0x10 ≤ w.toNat % 256

/-- An engine word ends with a status: sD, or ISLAND_STATUS for an error that D discards. -/
def State.statusDone (s : State) (r : CtxRef) (x : Ctx) (d : SReg) (isl : Byte) (st : Word) : State :=
  if errStatus st && d = 0 then s.trap r x tISLAND_STATUS st (isl.setWidth 64)
  else s.finish r (x.ss d st)

/-! Commands -/

def State.cmd? (s : State) (id : Nat) : Option Cmd := s.cmds.find? (·.id == id)
def State.modCmd (s : State) (id : Nat) (f : Cmd → Cmd) : State :=
  { s with cmds := s.cmds.map fun c : Cmd => if c.id = id then f c else c }
def State.dropCmd (s : State) (id : Nat) : State := { s with cmds := s.cmds.filter fun c : Cmd => c.id ≠ id }

/-- The island port of a handle for a tile (R296). -/
def State.islandPort (s : State) (e : ElemRef) (isl : Nat) : Option PortRef :=
  match s.elem? e, s.res? e.rid with
  | some el, some rs =>
    (tget rs.islands isl).map fun p =>
      ⟨if p = 12 then (tget rs.engineDie e.elem).getD el.die else el.die, p⟩
  | _, _ => none

/-- Offer a command to its island and wait for acceptance (R199). A word whose handle names no island of the element traps ILLEGAL: only a word that the load did not scan gets here, and R70 says no more of it (DESIGN CHOICE, log 65). -/
def State.offer (s : State) (r : CtxRef) (x : Ctx) (i : Instr) (op : Byte) (isl : Byte) (c : Cmd) : State :=
  match s.islandPort r.tile isl.toNat with
  | none => s.illegal r x
  | some p =>
    let id := s.nextAcc
    let s := { s with nextAcc := id + 1,
                      cmds := s.cmds ++ [{ c with id := id, r := r, port := p, isl := isl.toNat, ins := i }] }
    (s.setCtx r { x with st := .wait, wait := some (.accept id), waitIns := some i, waitop := op }).active r.rid

/-- A command with its register operands, filled in by `offer`. -/
def newCmd (i : Instr) (w : List Word) (a b : CapV) (colour : Nat) (after : List Nat) : Cmd :=
  { id := 0, r := ⟨0, 0, 0⟩, port := ⟨0, 0⟩, isl := 0, ins := i, w := w, capA := a, capB := b, colour := colour, after := after }

/-- Accesses that a .rel command waits for. -/
def State.relOwed (s : State) (r : CtxRef) (rel : Bool) : List Nat := if rel then s.owed r else []

/-! Completion registers (R202) -/

def State.compOk (s : State) (rid : Nat) (w : Word) : Bool :=
  let t := compReg w
  (!t.eot || ((s.elem? ⟨rid, t.elem⟩).isSome && s.targetOk ⟨rid, t.elem, t.vc⟩)) &&
  (!t.arr || ((s.tile? ⟨rid, t.elem⟩).isSome && t.bar < 96))

/-! Units of a copy -/

/-- Rows that a mask selects, ascending. -/
def maskRows (mask : List Byte) (rows : Nat) : List Nat :=
  (List.range rows).filter fun i => (mask.getD (i / 8) 0).getLsbD (i % 8)

/-- Bytes that a cpyq reads and writes, which its context checks before the island sees an argument (R199, R204). A code that is none of the six formats gives no row width, and so no destination range. -/
def quantRanges (dims cfg : Word) : Nat × Nat :=
  let q := quantFields ((quantFmt (cfg.toNat % 2 ^ 5)).getD .i8) dims cfg
  (q.rows * q.cols * q.size, if (quantFmt (cfg.toNat % 2 ^ 5)).isSome then q.destBytes else 0)

/-- Where unit k of a command lies: source offset, bytes, destination offset. -/
structure UnitAt where
  src : Nat
  n : Nat
  dst : Nat

/-- Units of a row move. -/
def rowUnit (src dst rowb : Nat) (sel : List Nat) (gather : Bool) (k : Nat) : UnitAt :=
  let per := ceilDiv rowb 64
  let j := k / per
  let q := k % per
  let i := sel.getD j 0
  let n := min 64 (rowb - 64 * q)
  if gather then ⟨src + i * rowb + 64 * q, n, dst + j * rowb + 64 * q⟩
  else ⟨src + j * rowb + 64 * q, n, dst + i * rowb + 64 * q⟩

def Cmd.reg (c : Cmd) (i : Nat) : Nat := (c.w.getD i 0).toNat

/-- Units that a command reads. -/
def Cmd.units (c : Cmd) : Nat :=
  match c.ins with
  | .cpy _ => ceilDiv (c.reg 2) 64
  | .cpyq _ => match quantCfg (c.w.getD 2 0) (c.w.getD 3 0) with | some q => q.rows * q.cols * q.size / 64 | none => 0
  | .gth _ | .sct _ =>
    let rows := c.reg 2 % 2 ^ 16
    (maskRows c.bytes rows).length * ceilDiv (c.reg 2 / 2 ^ 16 % 2 ^ 24) 64
  | .xfill _ | .xred _ => ceilDiv (c.reg 1) 64
  | _ => 0

def Cmd.unitAt (c : Cmd) (k : Nat) : UnitAt :=
  match c.ins with
  | .gth _ => rowUnit (c.reg 0) (c.reg 1) (c.reg 2 / 2 ^ 16 % 2 ^ 24) (maskRows c.bytes (c.reg 2 % 2 ^ 16)) true k
  | .sct _ => rowUnit (c.reg 0) (c.reg 1) (c.reg 2 / 2 ^ 16 % 2 ^ 24) (maskRows c.bytes (c.reg 2 % 2 ^ 16)) false k
  | .cpyq _ => ⟨c.reg 0 + 64 * k, 64, 0⟩
  | .xfill _ | .xred _ => ⟨c.reg 0 + 64 * k, min 64 (c.reg 1 - 64 * k), 0⟩
  | _ => ⟨c.reg 0 + 64 * k, min 64 (c.reg 2 - 64 * k), c.reg 1 + 64 * k⟩

/-- The window destination of a cpy. -/
def Cmd.winDst (c : Cmd) : Option WinRef :=
  match c.ins with
  | .cpy o => match o.b with
    | .s _ => some ⟨c.r.rid, c.reg 1 % 2 ^ 16, c.reg 1 / 2 ^ 16 % 2 ^ 6⟩
    | .c _ => none
  | _ => none

/-- An access of a command at its island's port. -/
def cmdAcc (c : Cmd) (cap : CapV) (off n : Nat) (write : Bool) (data : List Byte) (tags : List Bool) (p : Purpose) : Acc :=
  { id := 0, issuer := .cmd c.r c.id, rid := c.r.rid, port := c.port, colour := c.colour, write := write, space := cap.space,
    asid := cap.asid, va := cap.base + off, len := n, data := data, tags := tags, after := c.after, purpose := p, due := 0 }

/-- The writes of bytes at an offset, cut at 64-byte lines; 16-byte units keep their tags where all are aligned. -/
def State.cmdWrite (s : State) (c : Cmd) (cap : CapV) (off : Nat) (bs : List Byte) (tags : List Bool) : State :=
  let va := cap.base + off
  let accs := (lineSplit (bs.length + 1) va bs).map fun p =>
    cmdAcc c cap (p.1 - cap.base) p.2.length true p.2
      (if va % 16 = 0 && p.2.length % 16 = 0 then (tags.drop ((p.1 - va) / 16)).take (p.2.length / 16) else []) .store
  (s.issueAll accs).2

/-- Issue the reads of unit k. -/
def State.cmdRead (s : State) (c : Cmd) (k : Nat) : State :=
  let u := c.unitAt k
  let accs := (lineSplit (u.n + 1) (c.capA.base + u.src) (List.replicate u.n 0)).map fun p =>
    cmdAcc c c.capA (p.1 - c.capA.base) p.2.length false [] [] (.unit c.id k)
  (s.issueAll accs).2

/-- The reads of unit k, in address order. -/
def State.unitReads (s : State) (id k : Nat) : List Nat :=
  (s.accs.filter fun a => a.purpose == .unit id k).map (·.id)

/-- The letter of a unit that an engine cannot read or write (R346, R291). -/
def State.unitLetter (s : State) (c : Cmd) (off : Nat) : State := s.remoteLetter c.r.rid tISLAND_STATUS c.r.elem 11 0 off c.r.ctx

/-- A unit that an engine cannot read or write (R346, R291): its letter, and no completion notice. -/
def State.unitFail (s : State) (c : Cmd) (off : Nat) : State :=
  (s.modCmd c.id fun c => { c with stage := 9 }).unitLetter c off

/-! Quantised blocks in memory (R204, R205) -/

/-- The envelope (R205). -/
def envelope (q : QuantCfg) (sr : SRGen) (flags : Flags) : Beat :=
  let st := q.rm.stochastic
  let rm := match q.rm with | .rne => 0 | .rtz => 1 | .rdn => 2 | .rup => 3 | .rna => 4 | .sa => 5 | .sb => 6 | .rod => 7
  beatOf [(0, if q.src32 then 0x0A else 0x09), (8, q.fmt.code.toNat), (18, q.had), (20, boolNat (q.rm == .sb)), (21, rm),
    (24, 1), (32, flags.toNat), (200, q.rows), (232, q.cols), (264, q.cols * q.size), (304, q.dstride), (344, q.scaleOff),
    (384, if st then sr.seed.toNat else 0), (448, if st then sr.ctr.toNat else 0)]

/-- Block b of a quantising copy is written: its codes, the padding behind a row's last block, its scale. -/
def State.quantWrite (s : State) (c : Cmd) (q : QuantCfg) (b : Nat) (bs : List Byte) : State :=
  let (codes, e, fl) := quantBlock q bs c.sr.seed (c.sr.ctr + BitVec.ofNat 64 b)
  let r := b / q.blocks
  let j := b % q.blocks
  let row := c.reg 1 + 64 + r * q.dstride
  let pad := if j + 1 = q.blocks then q.dstride - (j + 1) * codes.length else 0
  let s := s.cmdWrite c c.capB (row + j * codes.length) (codes ++ List.replicate pad 0) []
  let s := s.cmdWrite c c.capB (c.reg 1 + q.scaleOff + r * q.blocks + j) [e] []
  s.modCmd c.id fun c => { c with flags := c.flags ||| fl }

/-! Progress of copies -/

/-- The bytes of a unit join the block under way; a whole block is written, unless a unit of it could not be read. -/
def State.quantUnit (s : State) (c : Cmd) (bs : List Byte) (bad : Bool) : State :=
  match quantCfg (c.w.getD 2 0) (c.w.getD 3 0) with
  | none => s
  | some q =>
    let buf := c.bytes ++ bs
    let spoilt := c.spoilt || bad
    if buf.length < q.blockBytes then s.modCmd c.id fun c => { c with bytes := buf, spoilt := spoilt }
    else
      let s := s.modCmd c.id fun c => { c with bytes := [], spoilt := false, srNext := c.srNext + 1 }
      if spoilt then s else s.quantWrite c q c.srNext buf

/-- What becomes of unit k's bytes; none where a window fill waits. -/
def State.unitMove (s : State) (c : Cmd) (k : Nat) (bs : List Byte) (tags : List Bool) : Option State :=
  match c.ins with
  | .cpyq _ => some (s.quantUnit c bs false)
  | _ =>
    match c.winDst with
    | some wr =>
      match s.fillBeat wr (.cmd c.id) bs with
      | none => none
      | some s => some (if k + 1 = c.units then s.transferEnd wr (.cmd c.id) (s.fillChan wr) .arrival else s)
    | none =>
      let keep := match c.ins with | .cpy _ => c.capA.has pL && c.capB.has pS | _ => false
      let aligned := (c.capA.base + (c.unitAt k).src) % 16 = 0
      some (s.cmdWrite c c.capB (c.unitAt k).dst bs (if keep && aligned then tags else []))

/-- Finish the next units of a copy whose data are in hand, in order; a window fill without space joins the waiters. -/
def State.copyWrites (s : State) (id : Nat) : Nat → State
  | 0 => s
  | n + 1 =>
    match s.cmd? id with
    | none => s
    | some c =>
      if c.units ≤ c.wr || c.rd ≤ c.wr then s
      else
        let rs := s.unitReads id c.wr
        match s.results rs with
        | none => s
        | some (bs, tags, bad) =>
          let next (s : State) : State := (rs.foldl State.dropAcc s).modCmd id fun c => { c with wr := c.wr + 1 }
          if bad then
            let s := s.unitFail c (c.unitAt c.wr).src
            (next (match c.ins with | .cpyq _ => s.quantUnit c bs true | _ => s)).copyWrites id n
          else match s.unitMove c c.wr bs tags with
            | some s => ((next s).active c.r.rid).copyWrites id n
            | none => match c.winDst with
              | some wr => s.joinWaiters wr (.cmd id)
              | none => s

/-- The region of a command drains: its memory accesses are to complete before SAVING, whatever its fills must wait for (R330). -/
def State.drains (s : State) (rid : Nat) : Bool := match s.res? rid with | some rs => rs.st == .draining | none => false

/-- Issue the next reads of a copy, at most 16 units ahead of its writes. -/
def State.copyReads (s : State) (id : Nat) : Nat → State
  | 0 => s
  | n + 1 =>
    match s.cmd? id with
    | none => s
    | some c =>
      if c.units ≤ c.rd || (c.wr + 16 ≤ c.rd && !s.drains c.r.rid) || !c.after.all (fun i => s.doneAt i 2) then s
      else ((s.cmdRead c c.rd).modCmd id fun c => { c with rd := c.rd + 1 }).copyReads id n

/-- The envelope is written once every block has been. -/
def State.copySeal (s : State) (id : Nat) : State :=
  match s.cmd? id with
  | none => s
  | some c =>
    match c.ins with
    | .cpyq _ =>
      match quantCfg (c.w.getD 2 0) (c.w.getD 3 0) with
      | none => s
      | some q =>
        if c.stage = 0 && c.wr = c.units then
          (s.cmdWrite c c.capB (c.reg 1) (beatBytes (envelope q c.sr c.flags)) []).modCmd id fun c => { c with stage := 1 }
        else s
    | _ => s

def Cmd.isCopy (c : Cmd) : Bool :=
  match c.ins with | .cpy _ | .cpyq _ | .gth _ | .sct _ => true | _ => false

/-- A cycle of one copy at work. A fill that already waits at its window is left to the window's scan (R225). -/
def State.copyGo (s : State) (id : Nat) : State :=
  match s.cmd? id with
  | none => s
  | some c =>
    if !c.isCopy || c.phase ≠ .running then s
    else
      let held := match c.winDst with
        | some wr => (match s.win? wr with | some w => w.waiters.contains (.cmd id) | none => false)
        | none => false
      ((if held then s else s.copyWrites id 16).copyReads id 16).copySeal id

/-- A waiting window fill of a copy is tried again. -/
def State.copyRetry (s : State) (c : Cmd) : Option State :=
  match c.winDst with
  | none => none
  | some wr =>
    let rs := s.unitReads c.id c.wr
    match s.results rs with
    | none => none
    | some (bs, tags, _) =>
      (s.unitMove c c.wr bs tags).map fun s =>
        ((rs.foldl State.dropAcc s).modCmd c.id fun c => { c with wr := c.wr + 1 }).leaveWaiters wr (.cmd c.id)

/-- Every access of a command is complete at a level. -/
def State.cmdQuiet (s : State) (id level : Nat) : Bool :=
  s.accs.all fun a => match a.issuer with | .cmd _ k => k ≠ id || level ≤ a.level | _ => true

/-- The notices of R202, in order: note, arrival, token. A token behind an arrival leaves once the arrival has been made. -/
def State.notices (s : State) (c : Cmd) : State :=
  let t := compReg (c.w.getD (match c.ins with | .cpyq _ => 4 | _ => 3) 0)
  let note : Option Word := match c.ins with
    | .gth _ | .sct _ => some (BitVec.ofNat 64 (maskRows c.bytes (c.reg 2 % 2 ^ 16)).length)
    | _ => none
  let tok : Option ChanRef := if t.eot then some ⟨c.r.rid, t.elem, t.vc⟩ else none
  if t.arr then s.sendArrival ⟨c.r.rid, t.elem⟩ c.r.elem t.bar true note tok
  else match tok with
    | some k => s.toChan k (ctlItem .endOfTile (controlBeat .endOfTile 0 0 0 0))
    | none => s

/-- A copy whose every write is complete at device scope sends its notices and is over (R201, R202). -/
def execCopyCompletion (s : State) : Out :=
  match s.arg with
  | .id id =>
    match s.cmd? id with
    | none => .next s
    | some c =>
      let sealed := match c.ins with | .cpyq _ => c.stage ≠ 0 | _ => true
      if c.isCopy && c.phase == .running && c.wr = c.units && sealed && s.cmdQuiet id 2 && c.after.all (fun i => s.doneAt i 2) then
        let s := s.dropCmd id
        .next ((if c.stage = 9 then s else s.notices c).active c.r.rid)
      else .next s
  | _ => .next s

/-! What an island answers at acceptance -/

inductive Verdict where
  /-- not accepted in this cycle -/
  | hold (s : State)
  /-- posted: the status; the command goes on in the state where it has work -/
  | posted (st : Word) (s : State)
  /-- replying: accepted, the reply is to come -/
  | pend (s : State)
  | trap (code : Nat) (info : Word)

/-- Start a posted command's work. -/
def State.running (s : State) (c : Cmd) : State := s.modCmd c.id fun c => { c with phase := .running }

/-- Acceptance of a copy (R202-R204, R206). -/
def acceptCopy (s : State) (c : Cmd) : Verdict :=
  let sT := c.w.getD (match c.ins with | .cpyq _ => 4 | _ => 3) 0
  let arrNeeded := match c.ins with | .gth _ | .sct _ => !(compReg sT).arr | _ => false
  let badWin := match c.winDst with
    | some wr => (match s.win? wr with | some w => w.cap == 0 | none => true)
    | none => false
  let badArg := match c.ins with | .cpyq _ => (quantCfg (c.w.getD 2 0) (c.w.getD 3 0)).isNone | _ => false
  if badArg then .posted stBAD_ARG s
  else if badWin || arrNeeded || !s.compOk c.r.rid sT then .posted stBAD_TARGET s
  else
    match c.ins with
    | .cpyq _ =>
      match s.ctx? c.r, quantCfg (c.w.getD 2 0) (c.w.getD 3 0) with
      | some x, some q =>
        let src := x.source q.rm
        let s := s.setCtx c.r (x.drew q.rm (q.rows * q.blocks))
        .posted stOK ((s.modCmd c.id fun c => { c with sr := src }).running c)
      | _, _ => .posted stOK (s.running c)
    | _ => .posted stOK (s.running c)

/-! The copy words -/

/-- Checks of a memory range through a capability, without alignment (R199). -/
def capRange (c : CapV) (spaces : List Nat) (perm off n : Nat) : Option Nat := memCheck c spaces perm off n 1

/-- The first of several checks that fails. -/
def firstFail : List (Option Nat) → Option Nat
  | [] => none
  | some t :: _ => some t
  | none :: l => firstFail l

def alignFail (ns : List Nat) (m : Nat) : Option Nat := if ns.all fun n => n % m = 0 then none else some tALIGN

/-- Copy bytes (R203). -/
def execCpy (o : CpyOps) (s : State) : Out :=
  runWord o.g s fun r x => .next <|
    let a := x.gc o.a
    let so := (x.gsAt o.c 0).toNat
    let d := x.gsAt o.c 1
    let l := (x.gsAt o.c 2).toNat
    let (b, w1, chk, al) : CapV × Word × Option Nat × Option Nat := match o.b with
      | .c c => (x.gc c, d, capRange (x.gc c) [1, 2, 3, 4] pW d.toNat l, alignFail [so, d.toNat, l] 16)
      | .s t => ({}, x.gs t, none, firstFail [alignFail [so] 16, alignFail [l] 64])
    match firstFail [capRange a [1, 2, 3, 4] pR so l, chk, al] with
    | some t => s.trap r x t 0 0
    | none => s.offer r x (.cpy o) 0xC0 o.isl
        (newCmd (.cpy o) [x.gsAt o.c 0, w1, x.gsAt o.c 2, x.gsAt o.c 3] a b o.col.val (s.relOwed r o.rel))

/-- Quantising copy (R204). -/
def execCpyq (o : Cpy3Ops) (s : State) : Out :=
  runWord o.g s fun r x => .next <|
    let a := x.gc o.a
    let b := x.gc o.b
    let so := (x.gsAt o.c 0).toNat
    let d := (x.gsAt o.c 1).toNat
    let dims := x.gsAt o.c 2
    let cfg := x.gsAt o.c 3
    let (rd, wr) := quantRanges dims cfg
    match firstFail [capRange a [1, 2] pR so rd, capRange b [1, 2] pW d wr, alignFail [so, d] 64] with
    | some t => s.trap r x t 0 0
    | none => s.offer r x (.cpyq o) 0xC1 o.isl
        (newCmd (.cpyq o) [x.gsAt o.c 0, x.gsAt o.c 1, dims, cfg, x.gsAt o.c 4] a b o.col.val (s.relOwed r o.rel))

/-- gth and sct: none while the mask window must wait (R206). -/
def tryRows (i : Instr) (o : Cpy3Ops) (gather : Bool) (s : State) (r : CtxRef) (x : Ctx) : Option State :=
  let arg := x.gsAt o.c 2
  let rows := arg.toNat % 2 ^ 16
  let rowb := arg.toNat / 2 ^ 16 % 2 ^ 24
  let wr := r.tile.win (arg.toNat / 2 ^ 40 % 2 ^ 4)
  let bad := rows = 0 || rowb = 0 || rowb % 16 ≠ 0
  match s.win? wr with
  | none => some (s.trap r x tCAP_BOUNDS arg 0)
  | some w =>
    if w.cap = 0 || bad then some (s.trap r x tCAP_BOUNDS arg 0)
    else
      let b := ceilDiv rows 8
      let n := ceilDiv b w.size
      if !w.readable 0 n then none
      else if s.winBad wr w 0 n then some (s.trap r x tECC_UNCORR 0 0)
      else
        let mask := (s.winBytes wr w 0 n).take b
        let m := (maskRows mask rows).length
        let ca := x.gc o.a
        let cb := x.gc o.b
        let so := (x.gsAt o.c 0).toNat
        let d := (x.gsAt o.c 1).toNat
        let all := rows * rowb
        let some_ := m * rowb
        match firstFail [capRange ca [1, 2, 3, 4] pR so (if gather then all else some_),
                         capRange cb [1, 2, 3, 4] pW d (if gather then some_ else all), alignFail [so, d] 16] with
        | some t => some (s.trap r x t 0 0)
        | none =>
          let c := newCmd i [x.gsAt o.c 0, x.gsAt o.c 1, arg, x.gsAt o.c 3] ca cb o.col.val (s.relOwed r o.rel)
          some (s.offer r x i (if gather then 0xC2 else 0xC3) o.isl { c with bytes := mask })

def tryGth (o : Cpy3Ops) (s : State) (r : CtxRef) (x : Ctx) : Option State := tryRows (.gth o) o true s r x
def trySct (o : Cpy3Ops) (s : State) (r : CtxRef) (x : Ctx) : Option State := tryRows (.sct o) o false s r x

/-- Gather the rows that a mask selects (R206). -/
def execGth (o : Cpy3Ops) (s : State) : Out :=
  runWord o.g s fun r x => .next (s.orWait r x ((x.gsAt o.c 2).toNat / 2 ^ 40 % 2 ^ 4) (.gth o) (tryGth o s r x))

/-- Scatter rows to the places that a mask selects (R206). -/
def execSct (o : Cpy3Ops) (s : State) : Out :=
  runWord o.g s fun r x => .next (s.orWait r x ((x.gsAt o.c 2).toNat / 2 ^ 40 % 2 ^ 4) (.sct o) (trySct o s r x))

/-! Atomics (R207-R210) -/

/-- Lane type, lanes and bytes of a TYP code. -/
def atType (t : Nat) : Ty × Nat × Nat :=
  match t with
  | 0 => (.f16, 2, 4) | 1 => (.bf16, 2, 4) | 2 => (.f32, 1, 4) | 3 => (.f64, 1, 8)
  | 4 => (.i32, 1, 4) | 5 => (.n32, 1, 4) | 6 => (.i64, 1, 8) | _ => (.n64, 1, 8)

/-- Lane by lane over values of a TYP code. -/
def atLanes (typ : Nat) (a b : Nat) (f : Ty → Nat → Nat → Nat) : Nat :=
  let (t, n, _) := atType typ
  packGo t.width ((List.range n).map fun i => f t (a / 2 ^ (t.width * i) % 2 ^ t.width) (b / 2 ^ (t.width * i) % 2 ^ t.width))

def atAdd (t : Ty) (a b : Nat) : Nat :=
  if t.isFloat then (addF t {} (unpackF t a) (unpackF t b)).1 else t.icode (t.ival a + t.ival b)
def atMinMax (larger : Bool) (t : Ty) (a b : Nat) : Nat :=
  if t.isFloat then (minMaxF t larger a b).1 else t.icode (minMaxI larger (t.ival a) (t.ival b))

/-- The operation of an atomic word: bytes, TYP, and the new value from old and operand. -/
structure AtSpec where
  bytes : Nat
  fetch : Bool
  new : Nat → Nat → Nat

def atSpec : Instr → Option (AtSpec × Nat)
  | .aadd o => some (⟨(atType o.typ.val).2.2, false, fun a v => atLanes o.typ.val a v atAdd⟩, o.typ.val)
  | .aaddF o => some (⟨(atType o.typ.val).2.2, true, fun a v => atLanes o.typ.val a v atAdd⟩, o.typ.val)
  | .amin o => some (⟨(atType o.typ.val).2.2, false, fun a v => atLanes o.typ.val a v (atMinMax false)⟩, o.typ.val)
  | .aminF o => some (⟨(atType o.typ.val).2.2, true, fun a v => atLanes o.typ.val a v (atMinMax false)⟩, o.typ.val)
  | .amax o => some (⟨(atType o.typ.val).2.2, false, fun a v => atLanes o.typ.val a v (atMinMax true)⟩, o.typ.val)
  | .amaxF o => some (⟨(atType o.typ.val).2.2, true, fun a v => atLanes o.typ.val a v (atMinMax true)⟩, o.typ.val)
  | .aand o => some (⟨(atType o.typ.val).2.2, false, fun a v => a &&& v⟩, o.typ.val)
  | .aandF o => some (⟨(atType o.typ.val).2.2, true, fun a v => a &&& v⟩, o.typ.val)
  | .aor o => some (⟨(atType o.typ.val).2.2, false, fun a v => a ||| v⟩, o.typ.val)
  | .aorF o => some (⟨(atType o.typ.val).2.2, true, fun a v => a ||| v⟩, o.typ.val)
  | .axor o => some (⟨(atType o.typ.val).2.2, false, fun a v => a ^^^ v⟩, o.typ.val)
  | .axorF o => some (⟨(atType o.typ.val).2.2, true, fun a v => a ^^^ v⟩, o.typ.val)
  | .axchg o => some (⟨(atType o.typ.val).2.2, false, fun _ v => v⟩, o.typ.val)
  | .axchgF o => some (⟨(atType o.typ.val).2.2, true, fun _ v => v⟩, o.typ.val)
  | .acas _ => some (⟨8, true, fun a v => if a = v % 2 ^ 64 then v / 2 ^ 64 else a⟩, 7)
  | .acasQ _ => some (⟨16, true, fun a v => if a = v % 2 ^ 128 then v / 2 ^ 128 else a⟩, 7)
  | _ => none

/-- The context's side of an atomic word (R208). Its operand travels in the command's bytes. -/
def State.atomic (s : State) (r : CtxRef) (x : Ctx) (i : Instr) (op : Byte) (isl : Byte) (cap : CReg) (off : SReg)
    (col : Fin 8) (rel : Bool) (n : Nat) (v : Nat) (d : Option SReg) : State :=
  let c := x.gc cap
  let a := (x.gs off).toNat
  let code := match capCheck c with
    | some t => some t
    | none =>
      if c.space ≠ 1 && c.space ≠ 2 then some tCAP_SPACE
      else if !c.has pA then some tCAP_PERM
      else if a + n > c.length || rangeBad c.space (c.base + a) n then some tCAP_BOUNDS
      else if (c.base + a) % n ≠ 0 then some tALIGN
      else none
  match code with
  | some t => s.trap r x t 0 0
  | none =>
    let bad := match d with | some d => !s.targetOk (replyTarget r.rid (x.gs d)) | none => false
    if bad then s.trap r x tISLAND_STATUS (match d with | some d => x.gs d | none => 0) 0
    else
      let cmd := newCmd i [x.gs off, match d with | some d => x.gs d | none => 0] c {} col.val (s.relOwed r rel)
      s.offer r x i op isl { cmd with bytes := bytesLE 32 v }

def atWord (o : AtOps) (s : State) (i : Instr) (op : Byte) : Out :=
  runWord o.g s fun r x => .next <|
    s.atomic r x i op o.isl o.a o.b o.col o.rel (atType o.typ.val).2.2 (x.gs o.c).toNat none

def atFWord (o : AtFOps) (s : State) (i : Instr) (op : Byte) : Out :=
  runWord o.g s fun r x => .next <|
    s.atomic r x i op o.isl o.a o.b o.col o.rel (atType o.typ.val).2.2 (x.gs o.c).toNat (some o.d)

/-- old + v (R207). -/
def execAadd (o : AtOps) (s : State) : Out := atWord o s (.aadd o) 0xC8
/-- old + v, fetching (R207, R210). -/
def execAaddF (o : AtFOps) (s : State) : Out := atFWord o s (.aaddF o) 0xC8
/-- The smaller (R207). -/
def execAmin (o : AtOps) (s : State) : Out := atWord o s (.amin o) 0xC9
/-- The smaller, fetching (R207, R210). -/
def execAminF (o : AtFOps) (s : State) : Out := atFWord o s (.aminF o) 0xC9
/-- The larger (R207). -/
def execAmax (o : AtOps) (s : State) : Out := atWord o s (.amax o) 0xCA
/-- The larger, fetching (R207, R210). -/
def execAmaxF (o : AtFOps) (s : State) : Out := atFWord o s (.amaxF o) 0xCA
/-- Bitwise and (R207). -/
def execAand (o : AtOps) (s : State) : Out := atWord o s (.aand o) 0xCB
/-- Bitwise and, fetching (R207, R210). -/
def execAandF (o : AtFOps) (s : State) : Out := atFWord o s (.aandF o) 0xCB
/-- Bitwise or (R207). -/
def execAor (o : AtOps) (s : State) : Out := atWord o s (.aor o) 0xCB
/-- Bitwise or, fetching (R207, R210). -/
def execAorF (o : AtFOps) (s : State) : Out := atFWord o s (.aorF o) 0xCB
/-- Bitwise exclusive or (R207). -/
def execAxor (o : AtOps) (s : State) : Out := atWord o s (.axor o) 0xCB
/-- Bitwise exclusive or, fetching (R207, R210). -/
def execAxorF (o : AtFOps) (s : State) : Out := atFWord o s (.axorF o) 0xCB
/-- Exchange (R207). -/
def execAxchg (o : AtOps) (s : State) : Out := atWord o s (.axchg o) 0xCC
/-- Exchange, fetching (R207, R210). -/
def execAxchgF (o : AtFOps) (s : State) : Out := atFWord o s (.axchgF o) 0xCC

/-- Compare and swap of 8 bytes (R207). -/
def execAcas (o : ACasOps) (s : State) : Out :=
  runWord o.g s fun r x => .next <|
    s.atomic r x (.acas o) 0xCD o.isl o.a o.b o.col o.rel 8
      ((x.gsAt o.c 0).toNat + 2 ^ 64 * (x.gsAt o.c 1).toNat) (some o.d)

/-- Compare and swap of 16 bytes (R207). -/
def execAcasQ (o : ACasQOps) (s : State) : Out :=
  runWord o.g s fun r x => .next <|
    s.atomic r x (.acasQ o) 0xCE o.isl o.a o.b o.col o.rel 16 ((x.gv o.c).toNat % 2 ^ 256) (some o.d)

/-- Acceptance of an atomic: its unit gathers up to 64 address tokens (R209); the access issues. -/
def acceptAtomic (s : State) (c : Cmd) (n : Nat) : Verdict :=
  let held := (s.accs.filter fun a => a.atomic && a.level = 0 && a.port == c.port).length
  if 64 ≤ held then .hold s
  else
    let a := { cmdAcc c c.capA (c.reg 0) n true [] [] (.atomic c.id) with atomic := true }
    .posted stOK ((s.issue a).2.running c)

/-- Two accesses touch a common byte of one place. -/
def Acc.meets (a b : Acc) : Bool :=
  match a.place, b.place with
  | .phys p x, .phys q y => p == q && x < y + b.len && y < x + a.len
  | _, _ => false

/-- The unit of a handle applies updates to each address in acceptance order (R209). -/
def State.orderedUnit (s : State) (c : Cmd) : Bool :=
  match s.res? c.r.rid with
  | none => false
  | some rs =>
    -- island-table byte of the handle: bit 4
    rs.image.frames.any fun f => f.kind == 4 && f.sub == 0x10 + c.isl / 24 && bitOf (f.body.toNat / 2 ^ (8 * (c.isl % 24))) 4

/-- An update may apply: its place is known, its colour's order allows it, nothing of its region's writes stands over the bytes, and in ordered mode no earlier update of the unit to the address is left. -/
def State.canApply (s : State) (c : Cmd) (a : Acc) : Bool :=
  s.canRise a 1 && (s.modAcc a.id fun a => { a with level := 1 }).canRise { a with level := 1 } 2 &&
  !(s.accs.any fun b => b.id ≠ a.id && b.level == 1 && b.write && b.rid == a.rid && b.meets a) &&
  (!s.orderedUnit c || !((s.accs.takeWhile (·.id ≠ a.id)).any fun b =>
      b.atomic && b.level = 0 && b.port == a.port && b.asid == a.asid && b.space == a.space && b.va == a.va))

/-- The update of an atomic at memory, single-copy atomic; a fetching one sends its reply beat (R208-R210). -/
def execSparseUpdateApply (s : State) : Out :=
  match s.arg with
  | .id id =>
    match s.cmd? id, s.accs.find? (fun a => a.purpose == .atomic id && a.level = 0) with
    | some c, some a =>
      match atSpec c.ins with
      | none => .next s
      | some (sp, _) =>
        if !s.canApply c a then .next s
        else if !a.place.ok a.len then .fault .noSuchAddress
        else
          let (bs, _, bad) := s.readPlace a.place a.len
          let old := ofBytesLE bs
          let v := ofBytesLE c.bytes
          let v := if sp.bytes = 4 then v % 2 ^ 32 else if (match c.ins with | .acas _ | .acasQ _ => true | _ => false) then v else v % 2 ^ 64
          let new := sp.new old v
          let stored := match c.ins with
            | .acas _ => old == v % 2 ^ 64
            | .acasQ _ => old == v % 2 ^ 128
            | _ => false
          let (d, s) := s.later 0
          let s := s.modAcc a.id fun a => { a with level := 2, due := d, data := bytesLE a.len new }
          let s := if bad then s.unitFail c (c.reg 0) else s.writePlace a.place (bytesLE a.len new) []
          let s := if sp.fetch then
              s.toChan (replyTarget c.r.rid (c.w.getD 1 0))
                { beat := beatOf [(0, old), (128, c.reg 0), (192, boolNat stored)], last := true, reply := some id, edge := c.port.port,
                  fault := if bad then some .ecc else none }
            else s
          .next ((s.dropCmd id).settle.active c.r.rid)
    | _, _ => .next s
  | _ => .next s

end Sys2Proof.Machine
end

