-- ==== Sys2Proof/Machine/Posting.lean ====
section
/-! DEFINITION. The posting-list engine: query contexts, the list format, lanes, commit, failure, ranking and results (R58, R211-R216, R314-R326, R379-R381). -/

namespace Sys2Proof.Machine

def State.query (s : State) (q : QueryRef) : Query := (tget s.queries q).getD {}
def State.setQuery (s : State) (q : QueryRef) (x : Query) : State := { s with queries := tput s.queries q x }
/-- The context is FREE again. -/
def State.freeQuery (s : State) (q : QueryRef) : State :=
  let ids := s.accs.filterMap fun a => match a.purpose with | .list p _ => if p = q then some a.id else none | _ => none
  { ids.foldl State.dropAcc s with queries := tdel s.queries q }

/-! Reading (R314-R316) -/

/-- A read of the engine, on behalf of the context that issued the run (R243), for a lane, or for a term's header and table as lane 8 + term. -/
def State.listRead (s : State) (q : QueryRef) (x : Query) (t : Term) (lane off n : Nat) : State :=
  let port := match s.cmd? x.cmd with | some c => c.port | none => ⟨q.die, 12⟩
  let accs := (lineSplit (n + 1) (t.cap.base + off) (List.replicate n 0)).map fun p =>
    ({ id := 0, issuer := .cmd x.runner x.cmd, rid := x.runner.rid, port := port, colour := x.colour, write := false,
       space := t.cap.space, asid := t.cap.asid, va := p.1, len := p.2.length, after := x.after,
       purpose := .list q lane, due := 0 } : Acc)
  (s.issueAll accs).2

/-- The reads of a lane, in address order. -/
def State.listIds (s : State) (q : QueryRef) (lane : Nat) : List Nat :=
  (s.accs.filter fun a => a.purpose == .list q lane).map (·.id)

/-- A list header is sound (R314, R317). -/
def headerOk (t : Term) (h : List Byte) : Bool :=
  let x := ofBytesLE h
  let blocks := field x 47 32
  let len := field x 255 216
  let data := field x 215 176
  h.length == 64 && field x 15 0 == 0x4C50 && field x 31 16 == 1 && blocks ≠ 0 && field x 95 64 ≠ 0 &&
  field x 63 56 == 0 && field x 175 160 == 0 && field x 479 256 == 0 && field x 511 480 == crc32c (h.take 60) &&
  64 + 16 * blocks ≤ data && data ≤ len && len ≤ t.cap.length

def headerBlocks (h : List Byte) : Nat := field (ofBytesLE h) 47 32

/-- Advance the reading of a term's header and skip table. -/
def State.termGo (s : State) (q : QueryRef) (i : Nat) : State :=
  let x := s.query q
  match x.terms[i]? with
  | none => s
  | some t =>
    let put (s : State) (t : Term) : State := let x := s.query q; s.setQuery q { x with terms := x.terms.set i t }
    match t.stage with
    | 0 =>
      if t.cap.length < 64 then put s { t with stage := 3, bad := true }
      else put (s.listRead q x t (8 + i) 0 64) { t with stage := 1 }
    | 1 =>
      let ids := s.listIds q (8 + i)
      match s.results ids with
      | none => s
      | some (bs, _, e) =>
        let s := ids.foldl State.dropAcc s
        if e || !headerOk t bs then put s { t with stage := 3, bad := true, header := bs }
        else put (s.listRead q x t (8 + i) 64 (16 * headerBlocks bs)) { t with stage := 2, header := bs }
    | 2 =>
      let ids := s.listIds q (8 + i)
      match s.results ids with
      | none => s
      | some (bs, _, e) =>
        put (ids.foldl State.dropAcc s) { t with stage := 3, bad := e, table := bs }
    | _ => s

/-- The chunks of a term, from its skip table. -/
def termChunks (i : Nat) (t : Term) : List Chunk :=
  let n := headerBlocks t.header
  let ent (b : Nat) : Nat := ofBytesLE ((t.table.drop (16 * b)).take 16)
  (List.range n).map fun b =>
    { term := i, block := b, first := field (ent b) 31 0, last := field (ent b) 63 32, bmax := field (ent b) 71 64,
      off := field (ent b) 127 88, prev := if b = 0 then -1 else (field (ent (b - 1)) 63 32 : Int),
      resv := field (ent b) 87 72 ≠ 0 }

/-- Claim order (R319). -/
def chunkLt (a b : Chunk) : Bool := a.first < b.first || (a.first == b.first && a.term < b.term)

/-- Under AND a block is skipped when some other term has no block that meets its range (R321). -/
def andSkip (cs : List Chunk) (terms : Nat) (c : Chunk) : Bool :=
  (List.range terms).any fun t => t ≠ c.term && !cs.any fun d => d.term == t && d.first ≤ c.last && c.first ≤ d.last

/-! Decoding a block (R316, R317) -/

/-- The postings of a block; none where the chunk fails. -/
def decodeBlock (c : Chunk) (pay : List Byte) : Option (List (Nat × Nat)) :=
  match c.hdr with
  | none => none
  | some hd =>
    let h := ofBytesLE hd
    let count := field h 7 0
    let gw := field h 12 8
    let iw := field h 16 13
    let xc := field h 21 17
    let plen := field h 95 80
    let gb := ceilDiv (count * gw) 8
    let ib := ceilDiv (count * iw) 8
    if hd.length ≠ 16 || c.resv || count = 0 || count > 128 || gw > 31 || iw > 8 || xc > 16 || field h 79 22 ≠ 0 ||
        plen ≠ gb + 8 * xc + ib || pay.length ≠ plen || field h 127 96 ≠ crc32c pay then none
    else
      let gaps := ofBytesLE (pay.take gb)
      let ex := (List.range xc).map fun k => ofBytesLE ((pay.drop (gb + 8 * k)).take 8)
      let idx := ex.map fun e => field e 7 0
      let asc := (idx.zip (idx.drop 1)).all fun p => p.1 < p.2
      let imps := ofBytesLE (pay.drop (gb + 8 * xc))
      if !asc || idx.any (fun i => i ≥ count) || ex.any (fun e => field e 31 8 ≠ 0) then none
      else
        let gap (i : Nat) : Nat :=
          let high := match ex.find? fun e => field e 7 0 == i with | some e => field e 63 32 | none => 0
          gaps / 2 ^ (gw * i) % 2 ^ gw + high * 2 ^ gw
        let docs := (List.range count).foldl (fun (a : List Int × Int) i =>
          let d := a.2 + gap i + 1
          (d :: a.1, d)) ([], c.prev)
        let ds := docs.1.reverse
        if ds.any (fun d => d > 2 ^ 32 - 1) || ds.head? ≠ some (c.first : Int) || ds.getLast? ≠ some (c.last : Int) then none
        else some ((ds.zip (List.range count)).map fun p =>
          (p.1.toNat, if iw = 0 then c.bmax else imps / 2 ^ (iw * p.2) % 2 ^ iw))

/-! Scores (R58, R214) -/

abbrev F32 := BitVec 32

def f32v (x : F32) : FV := unpackF .f32 x.toNat

/-- The lexical score from (term, impact) in ascending term index. -/
def lexScore (ws : List (BitVec 16)) (l : List (Nat × Nat)) : F32 :=
  (sortBy (fun (a b : Nat × Nat) => a.1 < b.1) l).foldl (fun sc p =>
    BitVec.ofNat 32 (fmaF .f32 {} (unpackF .f16 (ws.getD p.1 0).toNat) (.fin false p.2 0) (some (f32v sc))).1) 0

/-- The fused score under LIN. -/
def fuseLin (al be : F32) (lex vec : Option F32) : F32 :=
  let t := (fmaF .f32 {} (f32v al) (f32v (lex.getD 0)) none).1
  BitVec.ofNat 32 (fmaF .f32 {} (f32v be) (f32v (vec.getD 0)) (some (unpackF .f32 t))).1

/-- One list's RRF term. -/
def rrfTerm (c rank : Nat) : F32 := BitVec.ofNat 32 (divF .f32 {} (.fin false 1 0) (.fin false (c + rank) 0)).1

/-- The order of R324: score descending by its order key, ties to the lower document. -/
def rankLt (a b : Nat × F32) : Bool :=
  let k (x : F32) := orderKey x.toNat
  k b.2 < k a.2 || (k a.2 == k b.2 && a.1 < b.1)

def isNan32 (x : F32) : Bool := (f32v x).isNan

/-- Rank of a document in a list of scores, from 1. -/
def rankIn (l : List (Nat × F32)) (d : Nat) : Option Nat := ((sortBy rankLt l).findIdx? (·.1 == d)).map (· + 1)

def Query.weights (x : Query) : List (BitVec 16) := x.terms.map (·.weight)

/-- Documents of the score table with their lexical scores; under AND those that every term holds. -/
def Query.lexical (x : Query) : List (Nat × F32) :=
  let docs := (x.hits.map (·.1)).eraseDups
  let docs := if x.op = 1 then docs.filter fun d => (List.range x.terms.length).all fun t => x.hits.any fun h => h.1 == d && h.2.1 == t
    else docs
  docs.map fun d => (d, lexScore x.weights ((x.hits.filter (·.1 == d)).map (·.2)))

/-- The vector candidates with a score. -/
def Query.vectors (x : Query) : List (Nat × F32) := x.cands.filterMap fun p => p.2.map fun v => (p.1, v)

/-- Every candidate's fused score, NaN ones dropped (R214, R323). -/
def Query.fused (x : Query) : List (Nat × F32) :=
  let lex := x.lexical
  let vec := x.vectors
  let docs := (lex.map (·.1) ++ x.cands.map (·.1)).eraseDups
  (docs.map fun d =>
    let l := (lex.find? (·.1 == d)).map (·.2)
    let v := (vec.find? (·.1 == d)).map (·.2)
    match x.rrf with
    | none => (d, fuseLin x.alpha x.beta l v)
    | some c =>
      let tl : F32 := match rankIn lex d with | some r => rrfTerm c r | none => 0
      let tv : F32 := match rankIn vec d with | some r => rrfTerm c r | none => 0
      (d, match rankIn lex d, rankIn vec d with
        | some _, some _ => BitVec.ofNat 32 (addF .f32 {} (f32v tl) (f32v tv)).1
        | some _, none => tl
        | none, _ => tv)).filter fun p => !isNan32 p.2

/-- The result pairs: the top K (R215, R324). -/
def Query.top (x : Query) : List (BitVec 64) :=
  ((sortBy rankLt x.fused).take x.topk).map fun p => p.2 ++ BitVec.ofNat 32 p.1

/-! WAND (R322) -/

def plusOk (x : F32) : Bool := x.toNat < 0x7F800000
def weightOk (w : BitVec 16) : Bool := w.toNat < 0x7C00

def Query.wandOn (x : Query) : Bool :=
  x.op == 2 && x.rrf.isNone && plusOk x.alpha && plusOk x.beta && x.weights.all weightOk

def Chunk.over_ (c : Chunk) : Bool := match c.st with | .committed | .skipped => true | _ => false

/-- θ: the K-th highest fused score among the complete candidates, by order key; none for −∞. -/
def Query.theta (x : Query) : Option F32 :=
  let done (d : Nat) : Bool := x.chunks.all fun c => d < c.first || c.over_
  let l := sortBy rankLt (x.fused.filter fun p => done p.1)
  if x.topk = 0 then none else (l[x.topk - 1]?).map (·.2)

/-- bound(d). -/
def Query.boundAt (x : Query) (d : Nat) : F32 :=
  let l := (List.range x.terms.length).filterMap fun t =>
    (x.chunks.find? fun c => c.term == t && c.first ≤ d && d ≤ c.last).map fun c => (t, c.bmax)
  let lex := if l.isEmpty then none else some (lexScore x.weights l)
  fuseLin x.alpha x.beta lex ((x.vectors.find? (·.1 == d)).map (·.2))

/-- The documents of a block at which bound can change. -/
def Query.breaks (x : Query) (c : Chunk) : List Nat :=
  (c.first :: (x.chunks.flatMap fun d => [d.first, d.last + 1]) ++ x.vectors.flatMap fun p => [p.1, p.1 + 1]).filter
    fun d => c.first ≤ d && d ≤ c.last

def Query.wandSkip (x : Query) (c : Chunk) : Bool :=
  x.wandOn && match x.theta with
    | none => false
    | some th => (x.breaks c).all fun d =>
        let b := x.boundAt d
        !isNan32 b && orderKey b.toNat < orderKey th.toNat

/-! Lanes and claims (R319, R330) -/

/-- The context that issued the run has frozen in a region that is drained, saved or restored: no new claim until it is resident again (R330, R336). -/
def State.claimHeld (s : State) (x : Query) : Bool :=
  match s.res? x.runner.rid, s.ctx? x.runner with
  | some rs, some c => rs.st != .resident && rs.st != .ended && c.st == .frozen
  | _, _ => false

/-- Lanes of an engine that decode no chunk of any query. -/
def State.freeLanes (s : State) (die : Nat) : List Nat :=
  (List.range 8).filter fun n => !s.queries.any fun p => p.1.die == die && p.2.chunks.any fun c => c.st == .claimed n

def Query.setChunk (x : Query) (i : Nat) (f : Chunk → Chunk) : Query :=
  { x with chunks := (x.chunks.zip (List.range x.chunks.length)).map fun p => if p.2 = i then f p.1 else p.1 }

/-- Give the next chunks to the free lanes; at most eight chunks run ahead of the commits. -/
def State.claimGo (s : State) (q : QueryRef) : List Nat → Nat → State
  | _, 0 => s
  | [], _ => s
  | lane :: ls, n + 1 =>
    let x := s.query q
    let head := x.chunks.findIdx fun c => !c.over_
    match x.chunks.findIdx? fun c => c.st == .waiting with
    | none => s
    | some i =>
      if head + 8 ≤ i then s
      else match x.chunks[i]? with
        | none => s
        | some c =>
          if x.wandSkip c then (s.setQuery q (x.setChunk i fun c => { c with st := .skipped })).claimGo q (lane :: ls) n
          else
            match x.terms[c.term]? with
            | none => s
            | some t =>
              let s := s.setQuery q (x.setChunk i fun c =>
                { c with st := .claimed lane, hdr := if c.off + 16 ≤ t.cap.length then none else some [] })
              let s := if c.off + 16 ≤ t.cap.length then s.listRead q x t lane c.off 16 else s
              s.claimGo q ls n

/-- A lane's block header has come: its payload is read, where that lies inside the capability. -/
def State.laneGo (s : State) (q : QueryRef) (lane : Nat) : State :=
  let x := s.query q
  match x.chunks.findIdx? fun c => c.st == .claimed lane with
  | none => s
  | some i =>
    match x.chunks[i]? with
    | none => s
    | some c =>
      if c.hdr.isSome then s
      else
        let ids := s.listIds q lane
        match s.results ids, x.terms[c.term]? with
        | some (bs, _, e), some t =>
          let s := ids.foldl State.dropAcc s
          let plen := field (ofBytesLE bs) 95 80
          let bad := e || t.cap.length < c.off + 16 + plen
          let s := s.setQuery q ((s.query q).setChunk i fun c => { c with hdr := some (if bad then [] else bs) })
          if bad || plen = 0 then s else s.listRead q x t lane (c.off + 16) plen
        | _, _ => s

/-- A cycle of a query at work. -/
def State.queryGo (s : State) (q : QueryRef) : State :=
  let x := s.query q
  if x.st ≠ .running || x.ending ≠ 0 || !s.clocked q.die || !x.after.all (fun i => s.doneAt i 2) then s
  else if !x.ordered then
    -- term by term, in order (R319)
    match x.terms.findIdx? (·.stage ≠ 3) with
    | some i => s.termGo q i
    | none => s
  else
    let s := (List.range 8).foldl (fun s n => s.laneGo q n) s
    if s.claimHeld x then s else s.claimGo q (s.freeLanes q.die) (x.chunks.length + 8)

/-- A lane has all that it needs to decode. -/
def State.laneReady (s : State) (q : QueryRef) (lane : Nat) : Bool :=
  (s.query q).chunks.any fun c => c.st == .claimed lane && c.hdr.isSome && (s.results (s.listIds q lane)).isSome

/-- Every list header and skip table has been read. -/
def Query.listsIn (x : Query) : Bool := x.st == .running && !x.ordered && x.terms.all (·.stage == 3)

/-! Failure (R211, R320) -/

def queryStatus (q : QueryRef) (code : Word) (count term block : Nat) : Word :=
  BitVec.ofNat 64 (fields [(0, code.toNat), (8, q.q), (16, count), (32, term), (38, block % 2 ^ 26)])

/-- A region takes what the engine sends to an element: it is resident, its end has not come (R274, R326), or draining, and the element's records are not yet written. -/
def State.takesFor (s : State) (e : ElemRef) : Bool :=
  match s.res? e.rid with
  | some rs => (rs.st == .resident || rs.st == .draining) && !rs.closing && !s.savedElem e
  | none => false

/-- A status beat leaves for the status target, or is held while the region is saved out or has no residency (R215, R326, R381). -/
def State.queryBeat (s : State) (q : QueryRef) (x : Query) (w : Word) : State :=
  let c : ChanRef := ⟨x.ctx.rid, x.telem, x.tvc⟩
  let i : Item := { beat := w.setWidth 512, last := true, reply := some x.cmd, edge := 12 }
  if s.takesFor c.at then s.toChan c i
  else { s with heldBeats := s.heldBeats ++ [{ die := q.die, tag := x.tag, block := x.block, chan := c, item := i }] }

/-- Send the held status beats of a region, in their order; an engine whose die's clocks are gated keeps its own (R375). -/
def State.sendHeld (s : State) (rid : Nat) : State :=
  let goes (h : HeldBeat) : Bool := h.chan.rid == rid && s.clocked h.die
  (s.heldBeats.filter goes).foldl (fun s h => s.toChan h.chan h.item) { s with heldBeats := s.heldBeats.filter fun h => !goes h }

/-- The run stops in FAILED at a term and block: later chunks are forgotten, committed ones kept. -/
def State.queryFail (s : State) (q : QueryRef) (term block : Nat) : State :=
  let x := s.query q
  let ids := s.accs.filterMap fun a => match a.purpose with | .list p _ => if p = q then some a.id else none | _ => none
  let s := (ids.foldl State.dropAcc s).dropCmd x.cmd
  let head := x.chunks.findIdx fun c => !c.over_
  let chunks := (x.chunks.zip (List.range x.chunks.length)).map fun p =>
    if p.2 < head then p.1 else { p.1 with st := .waiting, hdr := none }
  (s.setQuery q { x with st := .failed, chunks := chunks }).queryBeat q x (queryStatus q stCHUNK_FAIL 0 term block)

/-- Where the chunk at the head of the claim order has failed, the query fails. -/
def State.headFail (s : State) (q : QueryRef) : State :=
  let x := s.query q
  match x.chunks.find? fun c => !c.over_ with
  | some c => if c.st == .bad then s.queryFail q c.term c.block else s
  | none => s

/-- A lane ends its chunk, or the lists have all been read (as lane 8): the claim order is made, or the query fails at a header (R317, R319, R321). -/
def execChunkDecode (s : State) : Out :=
  match s.arg with
  | .query q lane =>
    let x := s.query q
    if x.st ≠ .running || !s.clocked q.die then .next s
    else if lane = 8 then
      if !x.listsIn then .next s
      else match x.terms.findIdx? (·.bad) with
        | some t => .next (s.queryFail q t 0x3FFFFFF)
        | none =>
          let cs := sortBy chunkLt ((x.terms.zip (List.range x.terms.length)).flatMap fun p => termChunks p.2 p.1)
          let cs := if x.op = 1 then cs.map fun c => if andSkip cs x.terms.length c then { c with st := .skipped } else c else cs
          .next (s.setQuery q { x with chunks := cs, ordered := true })
    else if !s.laneReady q lane then .next s
    else match x.chunks.findIdx? fun c => c.st == .claimed lane with
      | none => .next s
      | some i =>
        match x.chunks[i]? with
        | none => .next s
        | some c =>
          let ids := s.listIds q lane
          match s.results ids with
          | none => .next s
          | some (pay, _, e) =>
            let s := ids.foldl State.dropAcc s
            let st := match (if e then none else decodeBlock c pay) with
              | some ds => ChunkSt.decoded ds
              | none => ChunkSt.bad
            .next ((s.setQuery q (x.setChunk i fun c => { c with st := st })).headFail q)
  | _ => .next s

/-- The next chunk in claim order commits (R58, R319). -/
def execChunkCommit (s : State) : Out :=
  match s.arg with
  | .query q _ =>
    let x := s.query q
    if x.st ≠ .running || !s.clocked q.die then .next s
    else
      let i := x.chunks.findIdx fun c => !c.over_
      match x.chunks[i]? with
      | none => .next s
      | some c =>
        match c.st with
        | .decoded ds =>
          let x := x.setChunk i fun c => { c with st := .committed }
          .next ((s.setQuery q { x with hits := x.hits ++ ds.map fun p => (p.1, c.term, p.2) }).headFail q)
        | _ => .next s
  | _ => .next s

/-! The end of a run (R215, R228, R326, R381) -/

/-- The run has decided everything. -/
def Query.over_ (x : Query) : Bool := x.st == .running && x.ordered && x.chunks.all Chunk.over_

/-- The result window's element is in a region that takes fills. -/
def State.queryLive (s : State) (x : Query) : Bool :=
  (s.elem? ⟨x.ctx.rid, x.welem⟩).isSome && s.takesFor ⟨x.ctx.rid, x.welem⟩

/-- Fill result pairs until one must wait; it joins the window's waiters. -/
def State.pairsGo (s : State) (q : QueryRef) : Nat → State
  | 0 => s
  | n + 1 =>
    let x := s.query q
    let wr : WinRef := ⟨x.ctx.rid, x.welem, x.win⟩
    match x.results with
    | [] => s
    | p :: ps =>
      match s.fillBeat wr (.cmd x.cmd) (bytesLE 8 p.toNat) with
      | none => s.joinWaiters wr (.cmd x.cmd)
      | some s => (s.setQuery q { x with results := ps, filled := x.filled + 1 }).pairsGo q n

/-- Fills, token, status beat: one after another as far as they can go. -/
def State.queryEndGo (s : State) (q : QueryRef) : State :=
  let x := s.query q
  if !s.queryLive x || !s.clocked q.die then s
  else
    let wr : WinRef := ⟨x.ctx.rid, x.welem, x.win⟩
    let waits := match s.win? wr with | some w => w.waiters.contains (.cmd x.cmd) | none => false
    let s := if x.ending = 1 && !waits then s.pairsGo q 1025 else s
    let x := s.query q
    let s := if x.ending = 1 && x.results.isEmpty then
        (s.transferEnd wr (.cmd x.cmd) (s.fillChan wr) .endOfList).setQuery q { x with ending := 3 }
      else s
    let x := s.query q
    let due := match s.win? wr with | some w => w.due.any fun d => d.2.2.reply == some x.cmd | none => false
    if x.ending = 3 && !due then ((s.queryBeat q x x.status).dropCmd x.cmd).freeQuery q else s

/-- A run ends: the ranking is made, then the results are delivered. -/
def execQueryRunEnd (s : State) : Out :=
  match s.arg with
  | .query q _ =>
    let x := s.query q
    if !s.clocked q.die then .next s
    else if x.over_ && x.ending = 0 then
      let ps := x.top
      let s := s.setQuery q { x with results := ps, filled := 0, ending := 1, status := queryStatus q stOK ps.length 0 0 }
      .next (s.queryEndGo q)
    else if x.ending ≠ 0 then .next (s.queryEndGo q)
    else .next s
  | _ => .next s

/-- What an engine holds for a block's earlier residency passes to a new one, whose contexts stay IDLE until it is delivered (R326). -/
def State.adoptQueries (s : State) (tag block rid : Nat) : State :=
  let gone (n : Nat) : Bool := match s.res? n with | some rs => rs.st == .ended | none => true
  let mine (p : QueryRef × Query) : Bool := p.2.tag == tag && p.2.block == block && gone p.2.ctx.rid
  let beat (h : HeldBeat) : Bool := h.tag == tag && h.block == block && gone h.chan.rid
  let ids := (s.heldBeats.filter beat).filterMap (·.item.reply) ++ ((s.queries.filter fun p => mine p && p.2.ending ≠ 0).map (·.2.cmd))
  let move (h : HeldBeat) : HeldBeat := if beat h then { h with chan := { h.chan with rid := rid } } else h
  let s := { s.modRes rid (fun r => { r with adopted := ids }) with heldBeats := s.heldBeats.map move }
  (s.queries.filter mine).foldl (fun s p => (s.setQuery p.1 { p.2 with ctx := { p.2.ctx with rid := rid } }).queryEndGo p.1) (s.sendHeld rid)

/-! The words and their acceptance (R211-R216) -/

/-- The query a word names, of the launch of its context. -/
def State.queryFor (s : State) (c : Cmd) (sts : List QState) : Option (QueryRef × Query) :=
  let q : QueryRef := ⟨c.port.die, c.reg 0 % 2 ^ 6⟩
  let x := s.query q
  let tag := match s.res? c.r.rid with | some rs => rs.tag | none => 0
  if x.tag = tag && sts.contains x.st then some (q, x) else none

/-- plq: the lowest FREE context (R325). -/
def acceptPlq (s : State) (c : Cmd) : Verdict :=
  let rs := (s.res? c.r.rid).getD {}
  match (List.range 64).find? fun q => let x := s.query ⟨c.port.die, q⟩; x.st == .free with
  | none => .pend (s.modCmd c.id fun c => { c with phase := .running, status := some stNO_CONTEXT })
  | some q =>
    let wr : WinRef := ⟨c.r.rid, c.reg 0 % 2 ^ 16, c.reg 0 / 2 ^ 16 % 2 ^ 6⟩
    let t := replyTarget c.r.rid (c.w.getD 1 0)
    let winOk := match s.win? wr with | some w => w.cap ≠ 0 && w.size == 8 | none => false
    if !winOk || !s.targetOk t then .pend (s.modCmd c.id fun c => { c with phase := .running, status := some stBAD_TARGET })
    else
      let x : Query := { st := .opened, tag := rs.tag, asid := rs.asid, block := rs.block, ctx := c.r, win := wr.win, welem := wr.elem,
                         telem := t.elem, tvc := t.vc }
      .pend ((s.setQuery ⟨c.port.die, q⟩ x).modCmd c.id fun c =>
        { c with phase := .running, status := some (BitVec.ofNat 64 (q * 256)) })

def f16Bad (w : BitVec 16) : Bool := w.toNat / 2 ^ 10 % 2 ^ 5 == 31

def acceptPlterm (s : State) (c : Cmd) : Verdict :=
  match s.queryFor c [.opened] with
  | none => .posted stBAD_STATE s
  | some (q, x) =>
    let w := BitVec.ofNat 16 (c.reg 0 / 2 ^ 16)
    if 64 ≤ x.terms.length then .posted stLIMIT s
    else if f16Bad w then .posted stBAD_ARG s
    else .posted stOK ((s.setQuery q { x with terms := x.terms ++ [{ cap := c.capA, weight := w }] }).dropCmd c.id)

/-- plvec is accepted; its pairs are copied once the window holds them. -/
def acceptPlvec (s : State) (c : Cmd) : Verdict :=
  match s.queryFor c [.opened] with
  | none => .pend (s.modCmd c.id fun c => { c with phase := .running, status := some stBAD_STATE })
  | some _ =>
    let wr : WinRef := ⟨c.r.rid, c.reg 1 % 2 ^ 16, c.reg 1 / 2 ^ 16 % 2 ^ 6⟩
    let n := c.reg 1 / 2 ^ 32 % 2 ^ 13
    let winOk := match s.win? wr with | some w => w.cap ≠ 0 && w.size == 8 | none => false
    let st : Option Word := if n = 0 || n > 4096 then some stBAD_ARG else if !winOk then some stBAD_TARGET else none
    let s := s.modCmd c.id fun c => { c with phase := .running, status := st }
    .pend (if st.isSome then s else s.joinWaiters wr (.cmd c.id))

/-- The candidates of a plvec: pairs with one document keep the lower offset; a NaN score is absent. -/
def candsOf (ps : List Nat) : List (Nat × Option F32) :=
  ps.foldl (fun l p =>
    let d := p % 2 ^ 32
    let v : F32 := BitVec.ofNat 32 (p / 2 ^ 32)
    if l.any (·.1 == d) then l else l ++ [(d, if isNan32 v then none else some v)]) []

/-- Serve a plvec at its window; none where it waits. -/
def State.servePlvec (s : State) (c : Cmd) : Option State :=
  let wr : WinRef := ⟨c.r.rid, c.reg 1 % 2 ^ 16, c.reg 1 / 2 ^ 16 % 2 ^ 6⟩
  let n := c.reg 1 / 2 ^ 32 % 2 ^ 13
  match s.win? wr with
  | none => none
  | some w =>
    if !w.readable 0 n then none
    else if s.winBad wr w 0 n then
      match s.ctx? c.r with
      | some x => some (if x.st = .wait && x.wait == some (.reply c.id) then (s.dropCmd c.id).trap c.r x tECC_UNCORR 0 0 else s.dropCmd c.id)
      | none => some (s.dropCmd c.id)
    else
      let cands := candsOf ((chunksOf 8 n (s.winBytes wr w 0 n)).map ofBytesLE)
      match s.queryFor c [.opened] with
      | none => some (s.modCmd c.id fun c => { c with status := some stBAD_STATE })
      | some (q, x) => some ((s.setQuery q { x with cands := cands }).modCmd c.id fun c => { c with status := some stOK })

def acceptPlfuseLin (s : State) (c : Cmd) : Verdict :=
  match s.queryFor c [.opened] with
  | none => .posted stBAD_STATE s
  | some (q, x) =>
    .posted stOK ((s.setQuery q { x with rrf := none, alpha := (c.w.getD 1 0).extractLsb' 0 32,
                                         beta := (c.w.getD 1 0).extractLsb' 32 32 }).dropCmd c.id)

def acceptPlfuseRrf (s : State) (c : Cmd) : Verdict :=
  match s.queryFor c [.opened] with
  | none => .posted stBAD_STATE s
  | some (q, x) =>
    let k := c.reg 1 % 2 ^ 11
    if k = 0 || k > 1024 then .posted stBAD_ARG s
    else .posted stOK ((s.setQuery q { x with rrf := some k }).dropCmd c.id)

/-- A run starts (R214). -/
def acceptPlrun (op : Nat) (s : State) (c : Cmd) : Verdict :=
  match s.queryFor c [.opened] with
  | none => .posted stBAD_STATE s
  | some (q, x) =>
    let k := c.reg 1 % 2 ^ 11
    if k = 0 || k > 1024 then .posted stLIMIT s
    else .posted stOK ((s.setQuery q { x with st := .running, op := op, topk := k, colour := c.colour, after := c.after,
                                              cmd := c.id, runner := c.r }).running c)

/-- plabort frees the context that the query holds, BAD_STATE where it is FREE: fills and the end-of-list token that have not left are discarded, and the ABORTED beat goes (R211, R216, R320). -/
def acceptPlabort (s : State) (c : Cmd) : Verdict :=
  match s.queryFor c [.opened, .running, .failed] with
  | none => .posted stBAD_STATE s
  | some (q, x) =>
    if x.st == .opened then .posted stOK ((s.freeQuery q).dropCmd c.id)
    else
      let stop (w : Window) : Window :=
        { w with xfers := tdel w.xfers (.cmd x.cmd), due := w.due.filter fun d => d.2.2.reply ≠ some x.cmd }
      let wr : WinRef := ⟨x.ctx.rid, x.welem, x.win⟩
      let s := (((s.dropCmd x.cmd).leaveWaiters wr (.cmd x.cmd)).modWin wr stop).freeQuery q
      .posted stOK ((s.queryBeat q x (queryStatus q stABORTED 0 0 0)).dropCmd c.id)

/-- plresume: the failed chunk and those behind it again, or the whole run after a failed header (R320). -/
def acceptPlresume (s : State) (c : Cmd) : Verdict :=
  match s.queryFor c [.failed] with
  | none => .posted stBAD_STATE s
  | some (q, x) =>
    let x := if x.ordered then x else { x with terms := x.terms.map fun t => { t with stage := 0, bad := false, header := [], table := [] } }
    let cs := if x.op = 1 then x.chunks.map fun d =>
        if !d.over_ && andSkip x.chunks x.terms.length d then { d with st := .skipped } else d else x.chunks
    .posted stOK ((s.setQuery q { x with st := .running, chunks := cs, colour := c.colour, after := c.after, cmd := c.id, runner := c.r }).running c)

/-- Open a query context (R212). -/
def execPlq (o : PSSOps) (s : State) : Out :=
  runWord o.g s fun r x => .next (s.offer r x (.plq o) 0xD0 o.isl (newCmd (.plq o) [x.gs o.a, x.gs o.b] {} {} 0 []))

/-- Append a term (R213). -/
def execPlterm (o : PSCOps) (s : State) : Out :=
  runWord o.g s fun r x => .next <|
    let c := x.gc o.b
    match capCheck c with
    | some t => s.trap r x t 0 0
    | none =>
      if c.space ≠ 1 && c.space ≠ 2 then s.trap r x tCAP_SPACE 0 0
      else if !c.has pP then s.trap r x tCAP_PERM 0 0
      else s.offer r x (.plterm o) 0xD1 o.isl (newCmd (.plterm o) [x.gs o.a] c {} 0 [])

/-- Vector candidates (R213). -/
def execPlvec (o : PSSOps) (s : State) : Out :=
  runWord o.g s fun r x => .next (s.offer r x (.plvec o) 0xD2 o.isl (newCmd (.plvec o) [x.gs o.a, x.gs o.b] {} {} 0 []))

/-- Linear fusion (R213). -/
def execPlfuseLin (o : PSSOps) (s : State) : Out :=
  runWord o.g s fun r x => .next (s.offer r x (.plfuseLin o) 0xD3 o.isl (newCmd (.plfuseLin o) [x.gs o.a, x.gs o.b] {} {} 0 []))

/-- Reciprocal-rank fusion (R213). -/
def execPlfuseRrf (o : PSSOps) (s : State) : Out :=
  runWord o.g s fun r x => .next (s.offer r x (.plfuseRrf o) 0xD3 o.isl (newCmd (.plfuseRrf o) [x.gs o.a, x.gs o.b] {} {} 0 []))

/-- Run under OR (R214). -/
def execPlrunOr (o : PRunOps) (s : State) : Out :=
  runWord o.g s fun r x => .next (s.offer r x (.plrunOr o) 0xD4 o.isl
    (newCmd (.plrunOr o) [x.gs o.a, x.gs o.b] {} {} o.col.val (s.relOwed r o.rel)))

/-- Run under AND (R214). -/
def execPlrunAnd (o : PRunOps) (s : State) : Out :=
  runWord o.g s fun r x => .next (s.offer r x (.plrunAnd o) 0xD4 o.isl
    (newCmd (.plrunAnd o) [x.gs o.a, x.gs o.b] {} {} o.col.val (s.relOwed r o.rel)))

/-- Run with block skipping (R214, R322). -/
def execPlrunWand (o : PRunOps) (s : State) : Out :=
  runWord o.g s fun r x => .next (s.offer r x (.plrunWand o) 0xD4 o.isl
    (newCmd (.plrunWand o) [x.gs o.a, x.gs o.b] {} {} o.col.val (s.relOwed r o.rel)))

/-- Abandon a query (R216). -/
def execPlabort (o : PSOps) (s : State) : Out :=
  runWord o.g s fun r x => .next (s.offer r x (.plabort o) 0xD5 o.isl (newCmd (.plabort o) [x.gs o.a] {} {} 0 []))

/-- Resume a failed query (R216). -/
def execPlresume (o : PResumeOps) (s : State) : Out :=
  runWord o.g s fun r x => .next (s.offer r x (.plresume o) 0xD6 o.isl
    (newCmd (.plresume o) [x.gs o.a] {} {} o.col.val (s.relOwed r o.rel)))

end Sys2Proof.Machine
end

