-- ==== Sys2Proof/Machine/Pool.lean ====
section
/-! DEFINITION. The priority pool: objects and shards, inserts and takes, top notes, migration, remote takes and emptiness agreements (R95, R217-R219, R298-R312). -/

namespace Sys2Proof.Machine

/-! What an engine word answers (R199, R200) -/

/-- The status register of an engine word; the atomics have none. -/
def statusReg : Instr → SReg
  | .cpy o => o.d
  | .cpyq o | .gth o | .sct o => o.d
  | .plq o | .plvec o | .plfuseLin o | .plfuseRrf o | .pstat o | .pcfg o => o.d
  | .plterm o => o.d
  | .plrunOr o | .plrunAnd o | .plrunWand o => o.d
  | .plabort o => o.d
  | .plresume o => o.d
  | .pins o => o.d
  | .ptake o | .ptry o => o.d
  | .xfill o | .xred o => o.d
  | .xbar o => o.d
  | _ => 0

/-- An island's answer takes effect: acceptance, the acceptance status of a posted word, a trap at acceptance. -/
def State.answer (s : State) (c : Cmd) (v : Verdict) : State :=
  match v with
  | .hold s' => s'
  | .posted st s' =>
    let s := if errStatus st then s'.dropCmd c.id else s'
    match s.ctx? c.r with
    | some x => s.statusDone c.r x (statusReg c.ins) (BitVec.ofNat 8 c.isl) st
    | none => s
  | .pend s' =>
    (s'.modCmd c.id fun d => { d with phase := if d.phase == .offered then .running else d.phase }).modCtx c.r fun x =>
      { x with wait := some (.reply c.id) }
  | .trap code info =>
    match s.ctx? c.r with
    | some x => (s.dropCmd c.id).trap c.r x code info 0
    | none => s.dropCmd c.id

/-- The reply of a replying command is decided; `bs` is what its registers receive. -/
def State.reply (s : State) (id : Nat) (st : Word) (bs : List Byte) : State :=
  s.modCmd id fun c => { c with phase := .replied, status := some st, bytes := bs }

/-! Objects (R95, R217, R298) -/

/-- A body of the image's HEADER frames. -/
def Image.header (im : Image) (sub : Nat) : Option Nat :=
  (im.frames.find? fun f => f.kind == 4 && f.sub == sub && f.grp.isNone).map (·.body.toNat)

/-- The island-table byte of a handle (R94, R95). -/
def Image.islandByte (im : Image) (h : Nat) : Nat :=
  match im.header (0x10 + h / 24) with | some b => b / 2 ^ (8 * (h % 24)) % 2 ^ 8 | none => 0

def State.pool? (s : State) (slot : Nat) : Option Pool := tget s.pools slot
def State.setPool (s : State) (slot : Nat) (x : Pool) : State := { s with pools := tput s.pools slot x }
def State.shard (s : State) (p : ShardRef) : Shard := (tget s.shards p).getD {}
def State.setShard (s : State) (p : ShardRef) (x : Shard) : State := { s with shards := tput s.shards p x }
def State.modShard (s : State) (p : ShardRef) (f : Shard → Shard) : State := s.setShard p (f (s.shard p))

/-- The pool object that a command names. -/
def State.poolObj (s : State) (c : Cmd) : Nat :=
  match s.res? c.r.rid with | some rs => rs.image.islandByte c.isl / 16 | none => 0

/-- The device slot of a command's object. -/
def State.poolSlot (s : State) (c : Cmd) : Option Nat :=
  let rs := (s.res? c.r.rid).getD {}
  (s.pools.find? fun p => p.2.tag == rs.tag && p.2.obj == s.poolObj c).map (·.1)

/-- POOL_BOUND, POOL_XPER, POOL_AGEMAX and POOL_WAITMAX of descriptor words 0 and 1 (R95). -/
def poolParams (w0 w1 : Nat) : Nat × Nat × Nat × Nat := (field w0 5 0, field w0 31 15, field w1 31 0, field w1 63 32)
def poolParamsOk (w0 w1 : Nat) : Bool :=
  let (b, x, _, _) := poolParams w0 w1
  1 ≤ b && b ≤ 32 && 64 ≤ x && x ≤ 65536

/-- The slot of a configured object; the first acceptance of a word whose image holds the descriptor configures it (R217). -/
def State.poolFor (s : State) (c : Cmd) : Option (Nat × State) :=
  let rs := (s.res? c.r.rid).getD {}
  match s.poolSlot c with
  | none => none
  | some slot =>
    match s.pool? slot with
    | none => none
    | some p =>
      if p.configured.isSome then some (slot, s)
      else match rs.image.header (0x20 + p.obj) with
        | none => none
        | some b =>
          let (bo, xp, ag, wa) := poolParams (b % 2 ^ 64) (b / 2 ^ 64 % 2 ^ 64)
          let s := s.setPool slot { p with configured := some s.cycle }
          some (slot, (List.range 8).foldl (fun s d =>
            s.setShard ⟨slot, d⟩ { bound := bo, xper := xp, agemax := ag, waitmax := wa, nextX := s.cycle + xp,
                                   area := s.findOn false shardBytes ((List.range 6).map (6 * d + ·)) }) s)

/-- POOL_HANDLE: TRAP_INFO0 the object number. -/
def State.poolTrap (s : State) (c : Cmd) : Verdict := .trap tPOOL_HANDLE (BitVec.ofNat 64 (s.poolObj c))

/-! Rank (R299) -/

def rank (key : Word) (die seq : Nat) : Nat := key.toNat * 2 ^ 63 + die * 2 ^ 60 + seq
def PElem.rank (e : PElem) : Nat := Machine.rank e.key e.die e.seq
def pelemLt (a b : PElem) : Bool := a.rank < b.rank

/-- Elements stand in ascending rank. -/
def Shard.insert (x : Shard) (e : PElem) : Shard := { x with elems := insertBy pelemLt e x.elems }
def Shard.remove (x : Shard) (e : PElem) : Shard := { x with elems := x.elems.filter fun f => f.rank ≠ e.rank }

/-- On chip and in the spill area (R298). -/
def Shard.full (x : Shard) : Bool := 131072 + (if x.area.isSome then 1048576 else 0) ≤ x.elems.length

/-- The remote element that has come for a take that is no longer there (R219, R306). -/
def Shard.leftOver (x : Shard) (now : Nat) : Option (Nat × PElem × Shard) :=
  if !x.queue.isEmpty then none
  else x.inbox.findSome? fun m => match m.2.2 with
    | .remoteAnswer (some e) => if m.1 ≤ now then some (m.2.1, e, { x with inbox := x.inbox.erase m, remoteOut := false }) else none
    | _ => none

/-- The oldest aged element that no migration holds (R307). -/
def Shard.aged (x : Shard) (now : Nat) : Option PElem :=
  if x.agemax = 0 then none
  else (x.elems.filter fun e => e.flight.isNone && e.birth + x.agemax < now).foldl
    (fun m e => match m with
      | none => some e
      | some f => if e.birth < f.birth then some e else some f) none

/-- Mirror entries of the other shards, by rank and flight. -/
def Mirror.ranks (m : Mirror) : List Nat := m.entries.map fun e => Machine.rank e.1 e.2.1 e.2.2.1

/-- The take condition of R302: the element that may be returned now. -/
def Shard.takeable (x : Shard) (self now : Nat) : Option PElem :=
  match x.aged now with
  | some e => some e
  | none =>
    match x.elems with
    | [] => none
    | m :: _ =>
      if m.flight.isSome then none
      else
        let held := x.elems.map (·.rank)
        let others := (List.range 8).filter (· ≠ self)
        let mirror (d : Nat) : List Nat := match tget x.mirrors d with | some n => n.ranks | none => []
        let below := (others.flatMap fun d => (mirror d).filter fun r => r < m.rank && !held.contains r).length
        let full := others.all fun d => (mirror d).length < 32 || m.rank ≤ ((mirror d)[31]?).getD 0
        if below ≤ x.bound - 1 && full then some m else none

/-! Elements in hand (R308) -/

def State.unhand (s : State) (r : CtxRef) (slot : Nat) : State :=
  s.modCtx r fun x => { x with inHand := x.inHand.filter (· ≠ slot) }

/-- A command receives an element: in hand from now on. -/
def State.giveElem (s : State) (slot : Nat) (c : Cmd) (e : PElem) : State :=
  (s.reply c.id stOK (bytesLE 8 e.key.toNat ++ bytesLE 8 e.val.toNat)).modCtx c.r fun x => { x with inHand := slot :: x.inHand }

/-! Messages between shards -/

/-- A message over the die-to-die control network. -/
def State.poolSend (s : State) (p : ShardRef) (dest : Nat) (m : PMsg) : State :=
  let d := s.cycle + 1 + Config.latency s.serial
  ({ s with serial := s.serial + 1 }).modShard ⟨p.slot, dest⟩ fun x => { x with inbox := x.inbox ++ [(d, p.die, m)] }

/-- Top notes arrive within 400 cycles (R301). -/
def State.noteSend (s : State) (p : ShardRef) (dest : Nat) (m : Mirror) : State :=
  let d := s.cycle + 1 + Config.latency s.serial % 400
  ({ s with serial := s.serial + 1 }).modShard ⟨p.slot, dest⟩ fun x => { x with inbox := x.inbox ++ [(d, p.die, PMsg.notes m)] }

/-- The messages of some kinds that have arrived, in ascending die order, and the shard without them. -/
def Shard.arrived (x : Shard) (now : Nat) (kind : PMsg → Bool) : List (Nat × PMsg) × Shard :=
  let due (m : Nat × Nat × PMsg) : Bool := m.1 ≤ now && kind m.2.2
  (sortBy (fun (a b : Nat × PMsg) => a.1 < b.1) ((x.inbox.filter due).map (·.2)),
   { x with inbox := x.inbox.filter fun m => !due m })

/-! Acceptance of the pool words -/

/-- pins: accepted in the insert step, which comes before the take step of its cycle, once its release has been made (R217, R218, R300). -/
def acceptPins (s : State) (c : Cmd) : Verdict :=
  if !c.after.all (fun i => s.doneAt i 2) then .hold s
  else match s.poolFor c with
    | none => s.poolTrap c
    | some (slot, s') =>
      let p : ShardRef := ⟨slot, c.port.die⟩
      let x := s'.shard p
      match s'.pool? slot with
      | none => .hold s
      | some o =>
        match o.agree with
        | .agreed =>
          let (d, s') := s'.later 1
          -- the pins reaches the shard and waits until EMPTY is cleared (R309)
          .hold (s'.setPool slot { o with agree := .clearing d })
        | .clearing _ => .hold s
        | _ =>
          if x.inserted || x.took || !x.migrating.isEmpty || x.full then .hold s
          else if x.seq = 2 ^ 60 then s.poolTrap c
          else
            let e : PElem := { key := c.w.getD 0 0, val := c.w.getD 1 0, die := p.die, seq := x.seq, birth := s'.cycle,
                               rel := match c.ins with | .pins o => if o.rel then some c.id else none | _ => none }
            .posted stOK ((s'.setShard p { x.insert e with seq := x.seq + 1, accepted := x.accepted + 1, inserted := true }).dropCmd c.id)

/-- ptake joins the queue of its die's shard; what the context held of the object is released first (R302, R308, R310). -/
def acceptPtake (s : State) (c : Cmd) : Verdict :=
  match s.poolFor c with
  | none => s.poolTrap c
  | some (slot, s) =>
    let s := s.unhand c.r slot
    let p : ShardRef := ⟨slot, c.port.die⟩
    let x := s.shard p
    if x.empty then .pend (s.reply c.id stEMPTY [])
    else .pend ((s.setShard p { x with queue := x.queue ++ [c.id], waitFrom := if x.queue.isEmpty then s.cycle else x.waitFrom }).modCmd c.id
      fun c => { c with phase := .queued })

/-- The residency, with its element, that a shard tells of an element that cannot be corrected: that of the take, and where no take asks, the first of the launch that is resident; R346 names none (DESIGN CHOICE, log 74). -/
def State.shardTells (s : State) (p : ShardRef) (c : Option Cmd) : Option (Nat × Nat) :=
  match c with
  | some c => some (c.r.rid, c.r.elem)
  | none => (s.ress.find? fun q => (q.2.st == .resident || q.2.st == .draining) &&
      match s.pool? p.slot with | some o => o.tag == q.2.tag | none => false).map fun q => (q.1, 0)

/-- Spilled elements that cannot be corrected are removed, each with a letter (R346). -/
def State.dropBad (s : State) (p : ShardRef) (c : Option Cmd) : State :=
  let x := s.shard p
  let s' := s.setShard p { x with elems := x.elems.filter (!·.bad) }
  match s.shardTells p c with
  | some (rid, e) => (x.elems.filter (·.bad)).foldl (fun s _ => s.remoteLetter rid tECC_UNCORR e 11 0 0 0) s'
  | none => s'

/-- ptry is tested once (R302, R310); it uses the take step of its cycle. -/
def acceptPtry (s : State) (c : Cmd) : Verdict :=
  match s.poolFor c with
  | none => s.poolTrap c
  | some (slot, s') =>
    let p : ShardRef := ⟨slot, c.port.die⟩
    let x := s'.shard p
    if x.took then .hold s
    else
      let s := s'.unhand c.r slot
      if x.empty then .pend (s.reply c.id stEMPTY [])
      else
        let s := s.dropBad p (some c)
        let x := s.shard p
        match x.takeable p.die s.cycle with
        | none => .pend (s.reply c.id stNOT_READY [])
        | some e => .pend ((s.setShard p { x.remove e with took := true }).giveElem slot c e)

def acceptPstat (s : State) (c : Cmd) : Verdict :=
  match s.poolFor c with
  | none => s.poolTrap c
  | some (slot, s) =>
    let x := s.shard ⟨slot, c.port.die⟩
    let n := x.elems.length
    let m := x.mirrors.foldl (fun a p => a + p.2.count) 0
    .pend (s.reply c.id stOK (bytesLE 8 n ++ bytesLE 8 (m + n)))

/-- pcfg leaves for the eight shards (R218, R312). -/
def acceptPcfg (s : State) (c : Cmd) : Verdict :=
  match s.poolFor c with
  | none => s.poolTrap c
  | some (slot, s) =>
    if !poolParamsOk (c.reg 0) (c.reg 1) then .pend (s.reply c.id stBAD_ARG [])
    else match s.pool? slot with
      | none => .hold s
      | some o =>
        .pend ((List.range 8).foldl (fun s d => s.poolSend ⟨slot, c.port.die⟩ d (.cfg c.id (c.w.getD 0 0) (c.w.getD 1 0)))
          (s.setPool slot { o with cfgs := o.cfgs ++ [(c.id, 8)] }))

/-! The words (R218) -/

/-- Insert an element. -/
def execPins (o : PinsOps) (s : State) : Out :=
  runWord o.g s fun r x => .next (s.offer r x (.pins o) 0xE0 o.isl (newCmd (.pins o) [x.gs o.a, x.gs o.b] {} {} 0 (s.relOwed r o.rel)))

/-- Take an element, waiting for it; later words issue only after it, so .acq needs nothing more (R250). -/
def execPtake (o : PTakeOps) (s : State) : Out :=
  runWord o.g s fun r x => .next (s.offer r x (.ptake o) 0xE1 o.isl (newCmd (.ptake o) [] {} {} 0 []))

/-- Take an element if one may be returned now. -/
def execPtry (o : PTakeOps) (s : State) : Out :=
  runWord o.g s fun r x => .next (s.offer r x (.ptry o) 0xE2 o.isl (newCmd (.ptry o) [] {} {} 0 []))

/-- Counts of the pool. -/
def execPstat (o : PSSOps) (s : State) : Out :=
  runWord o.g s fun r x => .next (s.offer r x (.pstat o) 0xE3 o.isl (newCmd (.pstat o) [] {} {} 0 []))

/-- Change the pool's parameters; supervisor only (R68). -/
def execPcfg (o : PSSOps) (s : State) : Out :=
  runWord o.g s fun r x => .next <|
    if !x.sup then s.trap r x tPRIV 0 0
    else s.offer r x (.pcfg o) 0xE4 o.isl (newCmd (.pcfg o) [x.gs o.a, x.gs o.b] {} {} 0 [])

/-! The steps of a shard -/

/-- The next exchange: the next multiple of XPER from the configuration (R301, R312). -/
def nextExchange (from_ now xper : Nat) : Nat := if xper = 0 then now + 1 else from_ + ((now - from_) / xper + 1) * xper

/-- Updates that have reached a shard are applied; the reply is due once all eight have (R312). -/
def execPcfgApply (s : State) : Out :=
  match s.arg with
  | .shard p =>
    let (ms, x) := (s.shard p).arrived s.cycle fun m => match m with | .cfg .. => true | _ => false
    .next <| ms.foldl (fun s m => match m.2 with
      | .cfg id w0 w1 =>
        match s.pool? p.slot with
        | none => s
        | some o =>
          let (b, xp, ag, wa) := poolParams w0.toNat w1.toNat
          let s := s.modShard p fun x => { x with bound := b, xper := xp, agemax := ag, waitmax := wa,
                                                  nextX := nextExchange (o.configured.getD 0) s.cycle xp }
          let left := match o.cfgs.find? (·.1 == id) with | some q => q.2 - 1 | none => 0
          if left = 0 then (s.setPool p.slot { o with cfgs := o.cfgs.filter (·.1 ≠ id) }).reply id stOK []
          else s.setPool p.slot { o with cfgs := o.cfgs.map fun q => if q.1 = id then (id, left) else q }
      | _ => s) (s.setShard p x)
  | _ => .next s

/-- TILE_ID order, then contexts (R199). -/
def State.cmdKey (s : State) (c : Cmd) : Nat :=
  (match s.elem? c.r.tile with | some e => e.tileId | none => 0) * 8 + c.r.ctx

/-- The pins that would be accepted next at a shard. -/
def State.nextPins (s : State) (p : ShardRef) : Option Cmd :=
  (sortBy (fun (a b : Cmd) => s.cmdKey a < s.cmdKey b) (s.cmds.filter fun c =>
    c.phase == .offered && c.port.die == p.die && (match c.ins with | .pins _ => true | _ => false) &&
      s.poolSlot c == some p.slot && c.after.all fun i => s.doneAt i 2)).head?

/-- A withdrawn take leaves its queue and its context freezes at it (R219). -/
def State.withdraw (s : State) (p : ShardRef) (c : Cmd) : State :=
  let s := (s.modShard p fun x => { x with queue := x.queue.filter (· ≠ c.id) }).dropCmd c.id
  match s.ctx? c.r with
  | none => s
  | some x => s.setCtx c.r (if x.freeze.isEmpty then x.running else x.freezeNow x.freeze)

/-- Commands of a take queue that still stand, withdrawals handled; what the old head asked for no longer counts (R311). -/
def State.queueRun (s : State) (p : ShardRef) : State :=
  let x := s.shard p
  let q := x.queue.filter fun id => (s.cmd? id).isSome
  let s := s.setShard p { x with queue := q }
  let s := q.foldl (fun s id => match s.cmd? id with
    | some c => if c.withdrawn then s.withdraw p c else s
    | none => s) s
  let y := s.shard p
  if y.queue.head? = x.queue.head? then s else s.setShard p { y with waitFrom := s.cycle, asked := false }

/-- The insert step: an element that has come from another shard first, then a pins (R300, R305, R306). -/
def execPoolInsertAccept (s : State) : Out :=
  match s.arg with
  | .shard p =>
    let s := s.queueRun p
    let x := s.shard p
    if x.inserted then .next s
    else match x.leftOver s.cycle, x.migrating with
      | some (_, e, y), _ =>
        if x.full then .next s
        else .next (s.setShard p { y.insert e with movedIn := y.movedIn + 1, inserted := true })
      | none, e :: es =>
        if x.full then .next s
        else
          let x := { x.insert e with migrating := es, movedIn := x.movedIn + 1, inserted := true }
          let s := s.setShard p (if es.isEmpty then { x with reqTo := none, noteSeen := false } else x)
          .next (if es.isEmpty then s.poolSend p x.migFrom (.ack x.migKeys) else s)
      | none, [] =>
        match s.nextPins p with
        | none => .next s
        | some c => .next (s.answer c (acceptPins s c))
  | _ => .next s

/-- The mirror that holds the least entry. -/
def Shard.least (x : Shard) : Option Nat :=
  ((x.mirrors.filterMap fun m => m.2.ranks.head?.map fun r => (m.1, r)).foldl
    (fun a b => match a with
      | none => some b
      | some a => if b.2 < a.2 then some b else some a) (none : Option (Nat × Nat))).map (·.1)

/-- The head take leaves the queue. -/
def Shard.pop (x : Shard) (now : Nat) : Shard := { x with queue := x.queue.drop 1, waitFrom := now, asked := false }

/-- A failed head take asks by the mirrors: a migration request, a remote take, or an agreement (R304, R306). -/
def State.takeFails (s : State) (p : ShardRef) : State :=
  let x := s.shard p
  let idle := match s.pool? p.slot with | some o => o.agree == Agree.idle | none => false
  let s := match x.least with
    | some d =>
      -- each head take sends its own, whatever an earlier one still waits for
      let late := x.waitmax ≠ 0 && x.waitFrom + x.waitmax ≤ s.cycle && !(x.remoteOut && x.remoteFor == x.queue.head?)
      let s := if late then (s.setShard p { x with remoteOut := true, remoteFor := x.queue.head? }).poolSend p d .remoteTake else s
      if idle && x.reqTo.isNone && x.noteSeen then
        (s.modShard p fun x => { x with reqTo := some d }).poolSend p d .request
      else s
    | none => s
  if idle then s.modShard p fun x => { x with asked := x.elems.isEmpty && x.mirrors.all fun m => m.2.count == 0 }
  else s

/-- The test of the take at the head of a shard's queue (R302, R304, R307). -/
def execPoolTakeTest (s : State) : Out :=
  match s.arg with
  | .shard p =>
    let s := s.queueRun p
    let x := s.shard p
    if x.took then .next s
    else match x.queue.head?.bind s.cmd? with
      | none => .next s
      | some c =>
        if x.empty then .next ((s.setShard p (x.pop s.cycle)).reply c.id stEMPTY [])
        else
          let s := s.dropBad p (some c)
          let x := s.shard p
          match x.takeable p.die s.cycle with
          | some e => .next ((s.setShard p { ((x.remove e).pop s.cycle) with took := true }).giveElem p.slot c e)
          | none => .next (s.takeFails p)
  | _ => .next s

/-- Requests that have reached a shard are answered in ascending die order (R305). -/
def execMigrationAnswer (s : State) : Out :=
  match s.arg with
  | .shard p =>
    let (ms, x) := (s.shard p).arrived s.cycle fun m => m == .request
    .next <| ms.foldl (fun s m =>
      let x := s.shard p
      if x.answered then s.poolSend p m.1 (.answer [])
      else
        -- no element goes on with a mark (R346)
        let s := s.dropBad p none
        let x := s.shard p
        let aged (e : PElem) : Bool := x.agemax ≠ 0 && e.birth + x.agemax < s.cycle
        let es := (x.elems.filter fun e => e.flight.isNone && !aged e).take (min x.bound 8)
        let x := { x with answered := true, movedOut := x.movedOut + es.length,
                          elems := x.elems.map fun e => if es.any (·.rank == e.rank) then { e with flight := some m.1 } else e }
        (s.setShard p x).poolSend p m.1 (.answer es)) (s.setShard p x)
  | _ => .next s

/-- Migrated elements, an empty answer or an acknowledgement reach a shard (R305). -/
def execMigrationArrival (s : State) : Out :=
  match s.arg with
  | .shard p =>
    let (ms, x) := (s.shard p).arrived s.cycle fun m => match m with | .answer _ | .ack _ => true | _ => false
    .next <| ms.foldl (fun s m => s.modShard p fun x => match m.2 with
      | .answer [] => { x with reqTo := none, noteSeen := false }
      | .answer es => { x with migrating := es, migFrom := m.1, migKeys := es.map fun e => (e.die, e.seq) }
      | .ack keys => { x with elems := x.elems.filter fun e => !(e.flight == some m.1 && keys.contains (e.die, e.seq)) }
      | _ => x) (s.setShard p x)
  | _ => .next s

/-- A remote take is handled ahead of the queue, or its answer reaches the head take (R306). -/
def execRemoteTake (s : State) : Out :=
  match s.arg with
  | .shard p =>
    let s := s.queueRun p
    let x := s.shard p
    -- an answer serves the take at the head in the take step; one that no take awaits goes to the insert step
    let answer (m : Nat × Nat × PMsg) : Bool := m.1 ≤ s.cycle && match m.2.2 with
      | .remoteAnswer (some _) => !x.took && !x.queue.isEmpty
      | .remoteAnswer none => true
      | _ => false
    let s := match x.inbox.find? answer with
      | none => s
      | some m =>
        let x := { x with inbox := x.inbox.erase m, remoteOut := false, waitFrom := s.cycle }
        match m.2.2, x.queue.head?.bind s.cmd? with
        | .remoteAnswer (some e), some c =>
          (s.setShard p { x.pop s.cycle with movedIn := x.movedIn + 1, took := true }).giveElem p.slot c e
        | _, _ => s.setShard p x
    let x := s.shard p
    match x.inbox.find? fun m => m.1 ≤ s.cycle && m.2.2 == .remoteTake with
    | none => .next s
    | some m =>
      if x.took then .next s
      else
        -- the letter of an element that cannot be corrected goes to the region of the take that asked
        let s := (s.setShard p { x with inbox := x.inbox.erase m, took := true }).dropBad p ((s.shard ⟨p.slot, m.2.1⟩).queue.head?.bind s.cmd?)
        let x := s.shard p
        let e := match x.aged s.cycle with
          | some e => some e
          | none => x.elems.find? fun e => e.flight.isNone
        match e with
        | none => .next ((s.setShard p x).poolSend p m.2.1 (.remoteAnswer none))
        | some e => .next ((s.setShard p { x.remove e with movedOut := x.movedOut + 1 }).poolSend p m.2.1 (.remoteAnswer (some e)))
  | _ => .next s

/-! Exchanges and agreements (R301, R309) -/

/-- A shard's top notes (R301). -/
def Shard.notes (x : Shard) : Mirror :=
  { period := x.period + 1, count := x.elems.length,
    entries := (x.elems.take 32).map fun e => (e.key, e.die, e.seq, e.flight.isSome) }

/-- The exchange of the shards whose instant has come; the lowest of them that asked starts an agreement (R301, R309). -/
def execTopNotesSend (s : State) : Out :=
  match s.arg with
  | .pool q =>
    match s.pool? q.slot with
    | none => .next s
    | some o =>
      if o.configured.isNone then .next s
      else
        let due := (List.range 8).filter fun d => (s.shard ⟨q.slot, d⟩).nextX ≤ s.cycle
        let s := due.foldl (fun s d => s.queueRun ⟨q.slot, d⟩) s
        let asks := due.any fun d => (s.shard ⟨q.slot, d⟩).asked
        let s := due.foldl (fun s d =>
          let p : ShardRef := ⟨q.slot, d⟩
          let x := s.shard p
          let m := x.notes
          let s := s.setShard p { x with period := m.period, answered := false, asked := false,
                                         nextX := nextExchange (o.configured.getD 0) s.cycle x.xper }
          ((List.range 8).filter (· ≠ d)).foldl (fun s e => s.noteSend p e m) s) s
        if asks && o.agree == Agree.idle then
          let (t, s) := s.later 1
          .next (s.setPool q.slot { o with agree := .wave1 t })
        else .next s
  | _ => .next s

/-- Top notes reach a shard (R301). -/
def execTopNotesArrival (s : State) : Out :=
  match s.arg with
  | .shard p =>
    let (ms, x) := (s.shard p).arrived s.cycle fun m => match m with | .notes _ => true | _ => false
    .next <| s.setShard p <| ms.foldl (fun x m => match m.2 with
      | .notes n =>
        let old := match tget x.mirrors m.1 with | some o => o.period | none => 0
        if old < n.period then { x with mirrors := tput x.mirrors m.1 n, noteSeen := true } else x
      | _ => x) x
  | _ => .next s

/-- The six counts of a shard's reply to a wave (R309). -/
def State.waveCounts (s : State) (p : ShardRef) : List Nat :=
  let x := s.shard p
  let onDie (r : CtxRef) : Bool := match s.elem? r.tile with | some e => e.die == p.die | none => false
  let waiting := (s.cmds.filter fun c => c.phase == .offered && c.port.die == p.die && s.poolSlot c == some p.slot &&
    match c.ins with | .pins _ => true | _ => false).length
  [x.elems.length, (s.ctxs.filter fun c => onDie c.1 && c.2.inHand.contains p.slot).length, x.movedOut, x.movedIn,
   x.accepted + waiting, x.accepted]

def sumAt (l : List (List Nat)) (i : Nat) : Nat := l.foldl (fun a c => a + c.getD i 0) 0

/-- The agreement holds (R309). -/
def agreeHolds (a b : List (List Nat)) : Bool :=
  a == b && a.all (fun c => c.getD 0 0 == 0 && c.getD 1 0 == 0 && c.getD 4 0 == c.getD 5 0) && sumAt a 2 == sumAt a 3

/-- Every shard sets EMPTY and answers its queue, in order. -/
def State.emptyNotice (s : State) (slot : Nat) : State :=
  (List.range 8).foldl (fun s d =>
    let p : ShardRef := ⟨slot, d⟩
    let s := s.queueRun p
    let x := s.shard p
    x.queue.foldl (fun s id => s.reply id stEMPTY []) (s.setShard p { x with empty := true, asked := false, queue := [] })) s

/-- All replies to a wave have arrived (R309). -/
def execAgreementWave (s : State) : Out :=
  match s.arg with
  | .pool q =>
    match s.pool? q.slot with
    | none => .next s
    | some o =>
      let counts := (List.range 8).map fun d => s.waveCounts ⟨q.slot, d⟩
      match o.agree with
      | .wave1 d =>
        if d ≤ s.cycle then
          let (t, s) := s.later 1
          .next (s.setPool q.slot { o with agree := .wave2 t counts })
        else .next s
      | .wave2 d first =>
        if s.cycle < d then .next s
        else if agreeHolds first counts then .next ((s.setPool q.slot { o with agree := .agreed }).emptyNotice q.slot)
        else .next (s.setPool q.slot { o with agree := .idle })
      | _ => .next s
  | _ => .next s

/-- Every shard has cleared EMPTY and acknowledged (R309). -/
def execEmptyClearing (s : State) : Out :=
  match s.arg with
  | .pool q =>
    match s.pool? q.slot with
    | none => .next s
    | some o =>
      match o.agree with
      | .clearing d =>
        if d ≤ s.cycle then
          .next ((List.range 8).foldl (fun s d => s.modShard ⟨q.slot, d⟩ fun x => { x with empty := false })
            (s.setPool q.slot { o with agree := .idle }))
        else .next s
      | _ => .next s
  | _ => .next s

end Sys2Proof.Machine
end

