-- ==== Sys2Proof/Machine/Network.lean ====
section
/-! DEFINITION. The network engine and the window transport: xfill, xred, xbar, beats from peers, acknowledgement and retransmission, Ethernet links (R220-R222, R373). -/

namespace Sys2Proof

/-- The beat fills a window. -/
def PeerBody.isFill : PeerBody → Bool
  | .fill .. => true
  | _ => false

end Sys2Proof

namespace Sys2Proof.Machine

/-! The device group (R372, R373): the registers as they stood at the launch -/

def State.group (s : State) (rid : Nat) : List Word :=
  let tag := match s.res? rid with | some rs => rs.tag | none => 0
  match tget s.launches tag with | some l => l.group | none => []
def groupSelf (g : List Word) : Nat := (g.getD 0 0).toNat % 2 ^ 12
def groupSize (g : List Word) : Nat := (g.getD 2 0).toNat
def State.memberMask (s : State) (g : List Word) (m : Nat) : Nat := s.gddr.word ((g.getD 1 0).toNat + 32 * m + 22) 2

/-- The member's entry of the group table lies in GDDR in self-refresh: what needs it waits (R376). -/
def State.memberAsleep (s : State) (g : List Word) (m : Nat) : Bool := s.asleep ((g.getD 1 0).toNat + 32 * m)

/-- A port that may reach a member and whose link is up. -/
def State.portTo (s : State) (g : List Word) (m : Nat) : Option (Fin 12) :=
  let up := (List.finRange 12).filter fun p => bitOf (s.memberMask g m) p.val && (s.bar0.ethStatus.get p).getLsbD 0
  up[Config.choice s.serial % up.length]?
def State.memberDown (s : State) (g : List Word) (m : Nat) : Bool := (s.portTo g m).isNone

/-- Cycles of 20 µs at 2.7 GHz. -/
def resendTime : Nat := 54000

/-! Sending -/

/-- A beat is numbered in its flow and sent; it is sent again until it is acknowledged. -/
def State.sendBeat (s : State) (r : CtxRef) (peer tag elem win cmd : Nat) (b : PeerBody) : State :=
  let s := s.active r.rid
  match s.flows.find? fun f => f.src == r && f.peer == peer && f.elem == elem && f.win == win with
  | some f =>
    { s with flows := s.flows.map fun (g : Flow) =>
        if g.id = f.id then { g with next := g.next + 1, unacked := g.unacked ++ [(g.next, b, s.cycle + resendTime, cmd)] } else g }
  | none =>
    { s with nextAcc := s.nextAcc + 1,
             flows := s.flows ++ [({ id := s.nextAcc, src := r, peer := peer, tag := tag, elem := elem, win := win, next := 1,
                                     unacked := [(0, b, s.cycle + resendTime, cmd)] } : Flow)] }

/-- Every beat of a command has been acknowledged. -/
def State.acked (s : State) (id : Nat) : Bool := s.flows.all fun f => f.unacked.all fun b => b.2.2.2 ≠ id

/-! xfill -/

/-- Peer, element and window of sC+1. -/
def Cmd.peer (c : Cmd) : Nat := c.reg 2 % 2 ^ 12
def Cmd.peerElem (c : Cmd) : Nat := c.reg 2 / 2 ^ 12 % 2 ^ 16
def Cmd.peerWin (c : Cmd) : Nat := c.reg 2 / 2 ^ 28 % 2 ^ 6

/-- An earlier xfill of the same context to the same window has beats to send: they arrive in acceptance order (R220). -/
def State.fillBehind (s : State) (c : Cmd) : Bool :=
  s.cmds.any fun d => (match d.ins with | .xfill _ => true | _ => false) && d.r == c.r && d.id < c.id && d.phase == .running &&
    d.reg 2 % 2 ^ 34 == c.reg 2 % 2 ^ 34 && d.wr < d.units

/-- Send the next units whose data are in hand. -/
def State.fillSends (s : State) (id : Nat) : Nat → State
  | 0 => s
  | n + 1 =>
    match s.cmd? id with
    | none => s
    | some c =>
      if c.units ≤ c.wr || c.rd ≤ c.wr || s.fillBehind c then s
      else
        let rs := s.unitReads id c.wr
        match s.results rs with
        | none => s
        | some (bs, _, bad) =>
          let s := (rs.foldl State.dropAcc s).modCmd id fun c => { c with wr := c.wr + 1 }
          if bad then (s.unitFail c (c.unitAt c.wr).src).fillSends id n
          else
            let tag := match s.res? c.r.rid with | some r => r.tag | none => 0
            (s.sendBeat c.r c.peer tag c.peerElem c.peerWin id
              (.fill tag c.peerElem c.peerWin (bytesBeat bs) (c.wr + 1 == c.units))).fillSends id n

/-! xred -/

/-- The registered step of an xred (R221). -/
def State.redStep (s : State) (c : Cmd) : Option (Nat × Nat × Nat × Nat × Bool × Nat) :=
  Config.collStep ((s.group c.r.rid).getD 3 0) (c.reg 2 % 2 ^ 16) (c.reg 2 / 2 ^ 16 % 2 ^ 16)

/-- Bytes of a segment's offset. -/
def Cmd.segAt (c : Cmd) (i : Nat) : Nat := c.reg 0 + i * c.reg 1

/-- Bytes of 64-byte unit u of a segment. -/
def Cmd.segLen (c : Cmd) (u : Nat) : Nat := min 64 (c.reg 1 - 64 * u)

/-- Issue the reads of a segment, unit by unit, numbered from `k`. -/
def State.segReads (s : State) (c : Cmd) (seg k : Nat) : State :=
  (List.range c.units).foldl (fun s u =>
    let accs := (lineSplit 3 (c.capA.base + c.segAt seg + 64 * u) (List.replicate (c.segLen u) 0)).map fun p =>
      cmdAcc c c.capA (p.1 - c.capA.base) p.2.length false [] [] (.unit c.id (k + u))
    (s.issueAll accs).2) s

/-- The units of a segment whose reads are numbered from `k`, each with whether it could be read; none while one is missing. -/
def State.segUnits (s : State) (c : Cmd) (k : Nat) : List Nat → Option (List (List Byte × Bool))
  | [] => some []
  | u :: us =>
    match s.results (s.unitReads c.id (k + u)), s.segUnits c k us with
    | some (bs, _, bad), some l => some ((bs, bad) :: l)
    | _, _ => none

/-- The reads of a segment are done with. -/
def State.segDrop (s : State) (c : Cmd) (k : Nat) : State :=
  (List.range c.units).foldl (fun s u => (s.unitReads c.id (k + u)).foldl State.dropAcc s) s

/-- Local and received segment combined element by element (R221): type code 0 f32, 1 bf16, 2 i32. R221 gives no result for a length that holds no whole number of elements: the bytes behind the last whole element are combined as an element whose missing bytes are zero, and cut to their length (DESIGN CHOICE, log 72). -/
def combine (reduce : Bool) (ty : Nat) (loc got : List Byte) : List Byte :=
  if !reduce then got
  else
    let t : Ty := match ty with | 0 => .f32 | 1 => .bf16 | _ => .i32
    let n := t.width / 8
    ((chunksOf n loc.length loc).zip (chunksOf n got.length got)).flatMap fun p =>
      (bytesLE n (atAdd t (ofBytesLE p.1) (ofBytesLE p.2))).take p.1.length

/-- The units of the received segment are combined into the local one; a unit that cannot be read is not written, with its letter, nor is one that its partner could not read (R221, R346). -/
def State.redWrite (s : State) (c : Cmd) (rseg : Nat) (reduce : Bool) (ty : Nat) (loc : List (List Byte × Bool)) : State :=
  (loc.zip (List.range loc.length)).foldl (fun s p =>
    let off := c.segAt rseg + 64 * p.2
    if p.1.2 then s.unitLetter c off
    else if c.holes.contains p.2 then s
    else s.cmdWrite c c.capA off (combine reduce ty p.1.1 ((c.bytes.drop (64 * p.2)).take (c.segLen p.2))) []) s

/-- A cycle of an xred: 0 start, 1 own segment read, 2 partner's segment awaited, 3 local segment read, 4 written: it is over once its accesses are complete and its beats acknowledged. The segment goes in beats of 64 bytes (R373); the beat of a unit that cannot be read carries none, and the unit alone fails (R346; DESIGN CHOICE, log 72). -/
def State.redGo (s : State) (id : Nat) : State :=
  match s.cmd? id with
  | none => s
  | some c =>
    match s.redStep c with
    | none => s
    | some (sp, sseg, _, rseg, reduce, ty) =>
      match c.stage with
      | 0 => if c.after.all (fun i => s.doneAt i 2) then (s.segReads c sseg 0).modCmd id fun c => { c with stage := 1 } else s
      | 1 =>
        match s.segUnits c 0 (List.range c.units) with
        | none => s
        | some l =>
          let s := s.segDrop c 0
          let tag := match s.res? c.r.rid with | some r => r.tag | none => 0
          let send (s : State) (p : (List Byte × Bool) × Nat) : State :=
            (if p.1.2 then s.unitLetter c (c.segAt sseg + 64 * p.2) else s).sendBeat c.r sp tag c.r.elem 0x40 id
              (.segment (c.reg 2 % 2 ^ 16) (c.reg 2 / 2 ^ 16 % 2 ^ 16) (if p.1.2 then [] else p.1.1) (p.2 + 1 == c.units))
          ((l.zip (List.range l.length)).foldl send s).modCmd id fun c => { c with stage := if l.isEmpty then 4 else 2 }
      | 3 =>
        match s.segUnits c c.units (List.range c.units) with
        | none => s
        | some l => ((s.segDrop c c.units).modCmd id fun c => { c with stage := 4 }).redWrite c rseg reduce ty l
      | 2 => s
      | _ => if s.cmdQuiet id 2 && s.acked id then s.dropCmd id else s

/-- The next beat of a partner's segment reaches the xred of its collective and step; none where no command awaits it. A beat without bytes leaves its unit of the local segment as it is (R346). Behind the last, COPY overwrites the local segment at once, and REDUCE reads it first (R221). -/
def State.takeSegment (s : State) (coll st : Nat) (bs : List Byte) (last : Bool) : Option State :=
  match s.cmds.find? fun c => (match c.ins with | .xred _ => true | _ => false) && c.phase == .running && c.stage == 2 &&
      c.reg 2 % 2 ^ 16 == coll && c.reg 2 / 2 ^ 16 % 2 ^ 16 == st with
  | none => none
  | some c =>
    match s.redStep c with
    | none => none
    | some (_, _, _, rseg, reduce, _) =>
      let u := c.bytes.length / 64
      let c := if bs.isEmpty then { c with bytes := c.bytes ++ List.replicate (c.segLen u) 0, holes := c.holes ++ [u] } else { c with bytes := c.bytes ++ bs }
      let s := s.modCmd c.id fun d => { d with bytes := c.bytes, holes := c.holes }
      some (if !last then s
        else if reduce then (s.segReads c rseg c.units).modCmd c.id fun c => { c with stage := 3 }
        else (s.modCmd c.id fun c => { c with stage := 4 }).redWrite c rseg false 0 (List.replicate c.units ([], false)))

/-! xbar (R222) -/

/-- The arrivals of a barrier: one of every member is taken where all have arrived. -/
def takeRound (members : List Nat) (l : List Nat) : Option (List Nat) :=
  if members.all l.contains then some (members.foldl (fun l m => l.erase m) l) else none

/-- A cycle of an xbar: 0 its arrival is due, 1 waiting. -/
def State.barGo (s : State) (id : Nat) : State :=
  match s.cmd? id with
  | none => s
  | some c =>
    let g := s.group c.r.rid
    let b := c.reg 0 % 2 ^ 16
    let me := groupSelf g
    let members := List.range (groupSize g)
    if c.status.isSome then s
    else if c.stage = 0 then
      if c.after.all (fun i => s.doneAt i 3) then
        let tag := match s.res? c.r.rid with | some r => r.tag | none => 0
        let s := (members.filter (· ≠ me)).foldl (fun s m => s.sendBeat c.r m tag c.r.elem 0x41 id (.arrive b me)) s
        ({ s with groupArr := tput s.groupArr b ((tget s.groupArr b).getD [] ++ [me]) }.modCtx c.r fun x => { x with awarr := true }).modCmd id
          fun c => { c with stage := 1 }
      else s
    else match takeRound members ((tget s.groupArr b).getD []) with
      | none => s
      | some l => ({ s with groupArr := tput s.groupArr b l }.modCtx c.r fun x => { x with awarr := false }).reply id stOK []

/-- A cycle of a network command at work. -/
def State.netGo (s : State) (id : Nat) : State :=
  match s.cmd? id with
  | none => s
  | some c =>
    if c.phase == .offered then s
    else match c.ins with
      | .xfill _ =>
        let s := (s.fillSends id 16).copyReads id 16
        match s.cmd? id with
        | some c => if c.wr = c.units && s.acked id && s.cmdQuiet id 2 then s.dropCmd id else s
        | none => s
      | .xred _ => s.redGo id
      | .xbar _ => s.barGo id
      | _ => s

/-! Acceptance -/

def acceptXfill (s : State) (c : Cmd) : Verdict :=
  let g := s.group c.r.rid
  if c.reg 1 % 64 ≠ 0 then .posted stBAD_ARG s
  else if groupSize g ≤ c.peer then .posted stBAD_TARGET s
  else if s.memberAsleep g c.peer then .hold s
  else if s.memberDown g c.peer then .posted stPEER_DOWN s
  else .posted stOK (s.running c)

/-- xred is accepted where its step is registered and its partners can be reached. A registered segment that runs beyond cA is BAD_ARG: R221 names no outcome (DESIGN CHOICE, log 72). -/
def acceptXred (s : State) (c : Cmd) : Verdict :=
  match s.redStep c with
  | none => .posted stNO_COLLECTIVE s
  | some (sp, sseg, rp, rseg, _, _) =>
    let g := s.group c.r.rid
    if c.capA.length < c.segAt sseg + c.reg 1 || c.capA.length < c.segAt rseg + c.reg 1 then .posted stBAD_ARG s
    else if s.memberAsleep g sp || s.memberAsleep g rp then .hold s
    else if s.memberDown g sp || s.memberDown g rp then .posted stPEER_DOWN s
    else .posted stOK (s.running c)

/-- xbar: with AWARR set its arrival has been made, and it only waits. -/
def acceptXbar (s : State) (c : Cmd) : Verdict :=
  let g := s.group c.r.rid
  let arrived := match s.ctx? c.r with | some x => x.awarr | none => false
  if !Config.groupBarrier (g.getD 3 0) (c.reg 0 % 2 ^ 16) then .pend (s.reply c.id stNO_COLLECTIVE [])
  else if !arrived && (List.range (groupSize g)).any (s.memberAsleep g) then .hold s
  else if !arrived && ((List.range (groupSize g)).filter (· ≠ groupSelf g)).any (s.memberDown g) then .pend (s.reply c.id stPEER_DOWN [])
  else .pend (s.modCmd c.id fun c => { c with phase := .running, stage := if arrived then 1 else 0 })

/-! The words -/

/-- Move bytes into a window of a peer (R220). -/
def execXfill (o : XFillROps) (s : State) : Out :=
  runWord o.g s fun r x => .next <|
    let l := x.gsAt o.c 0
    match capRange (x.gc o.a) [1, 2] pR (x.gs o.b).toNat l.toNat with
    | some t => s.trap r x t 0 0
    | none => s.offer r x (.xfill o) 0xE8 o.isl (newCmd (.xfill o) [x.gs o.b, l, x.gsAt o.c 1] (x.gc o.a) {} o.col.val (s.relOwed r o.rel))

/-- One step of a registered collective (R221), which names no spaces for cA: those of xfill (DESIGN CHOICE, log 72). -/
def execXred (o : XFillROps) (s : State) : Out :=
  runWord o.g s fun r x => .next <|
    let l := x.gsAt o.c 0
    let c := x.gc o.a
    match firstFail [capRange c [1, 2] pR (x.gs o.b).toNat l.toNat, capRange c [1, 2] pW (x.gs o.b).toNat l.toNat] with
    | some t => s.trap r x t 0 0
    | none => s.offer r x (.xred o) 0xE9 o.isl (newCmd (.xred o) [x.gs o.b, l, x.gsAt o.c 1] c {} o.col.val (s.relOwed r o.rel))

/-- Earlier accesses of a context that are not complete at system scope. -/
def State.owedSystem (s : State) (r : CtxRef) : List Nat := (s.earlier r fun _ => true).filter fun i => !s.doneAt i 3

/-- Group barrier (R222). -/
def execXbar (o : XBarOps) (s : State) : Out :=
  runWord o.g s fun r x => .next <|
    s.offer r x (.xbar o) 0xEA o.isl (newCmd (.xbar o) [x.gs o.a] {} {} 0 (if o.ar then s.owedSystem r else []))

/-! Beats from peers (R373) -/

/-- The window a peer's fill names, in the configuration of the launch that stands or is saved (R220, R328, R335). -/
def State.peerWin (s : State) (tag elem win : Nat) : Option WinRef :=
  (s.ress.find? fun p => p.2.tag == tag && p.2.st != .loading && p.2.st != .ended &&
    match s.win? ⟨p.1, elem, win⟩ with | some w => w.cap ≠ 0 | none => false).map fun p => ⟨p.1, elem, win⟩

/-- A member's access to this device's shared half of main, translated by its shared table (R279): a store is written, a load changes nothing here; none while no entry allows it. -/
def State.peerAccess (s : State) (offset : Nat) (store : Option (List Byte)) : Option State :=
  let va := 2 ^ 56 + offset
  let need : Need := ⟨store.isSome, false⟩
  match s.walk 0 false need va with
  | .mapped p bulk _ _ _ _ _ =>
    if !bulk && s.asleep p then none
    else match store with
    | some bs => some ((s.dirty 0 false need va).writePlace (.phys bulk p) bs [])
    | none => some s
  | _ => none

/-- Apply a beat of a flow; none where it must wait. -/
def State.peerApply (s : State) (flow : Nat) : PeerBody → Option State
  | .fill tag elem win b last =>
    match s.peerWin tag elem win with
    | none => none
    | some wr =>
      (s.fillBeat wr (.peer flow) (beatBytes b)).map fun s =>
        if last then s.transferEnd wr (.peer flow) (s.fillChan wr) .arrival else s
  | .segment coll st bs last => s.takeSegment coll st bs last
  | .arrive b m => some { s with groupArr := tput s.groupArr b ((tget s.groupArr b).getD [] ++ [m]) }
  | .access off st => s.peerAccess off st

/-- A beat has been applied: the next of its flow may follow. -/
def State.peerDone (s : State) (m : PeerBeat) : State :=
  { s with peerWait := s.peerWait.erase m, inFlows := tput s.inFlows m.flow (m.seq + 1) }

/-- The waiting beat that is the next of a flow. -/
def State.peerNext (s : State) (flow : Nat) : Option PeerBeat :=
  s.peerWait.find? fun m => m.flow == flow && m.seq == (tget s.inFlows m.flow).getD 0

/-- Apply one waiting beat where it is the next of its flow; a fill that must wait joins its window's waiters, where the window's scan finds it (R225). -/
def State.peerBeat (s : State) (m : PeerBeat) : State :=
  let wr : Option WinRef := match m.body with | .fill tag elem win _ _ => s.peerWin tag elem win | _ => none
  let waits := match wr with
    | some w => (match s.win? w with | some d => d.waiters.contains (.peer m.flow) | none => false)
    | none => false
  if waits || s.peerNext m.flow ≠ some m then s
  else match s.peerApply m.flow m.body with
    | some s => s.peerDone m
    | none => match wr with
      | some w => s.joinWaiters w (.peer m.flow)
      | none => s

/-- The waiting fill of a flow is tried again at its window. -/
def State.peerRetry (s : State) (flow : Nat) : Option State :=
  match s.peerNext flow with
  | none => some s
  | some m => (s.peerApply flow m.body).map fun s => s.peerDone m

/-- The waiting beats of peers in the order of their arrival: the fills, which are engine fills (R220), or the others. -/
def State.peerRun (s : State) (fills : Bool) : State :=
  (s.peerWait.filter fun m => m.body.isFill == fills).foldl State.peerBeat s

/-- A beat arrives from a peer; one that has been applied or waits already is dropped (R373). -/
def execPeerBeatArrival (s : State) : Out :=
  match s.arg with
  | .beat m =>
    let known := m.seq < (tget s.inFlows m.flow).getD 0 || s.peerWait.any fun n => n.flow == m.flow && n.seq == m.seq
    .next (if known then s else { s with peerWait := s.peerWait ++ [m] }.peerRun false)
  | _ => .next s

/-- The beats of a flow whose 20 µs are over are sent again, on a port that is up (R373). -/
def execPeerRetransmit (s : State) : Out :=
  match s.arg with
  | .id id =>
    match s.flows.find? (·.id == id) with
    | none => .next s
    | some f =>
      let n := (f.unacked.filter fun b => b.2.2.1 ≤ s.cycle).length
      if n = 0 || s.memberAsleep (s.group f.src.rid) f.peer then .next s
      else
        let port := s.portTo (s.group f.src.rid) f.peer
        let s := { s with serial := s.serial + 1, flows := s.flows.map fun (g : Flow) =>
          if g.id = id then { g with unacked := g.unacked.map fun b =>
            if b.2.2.1 ≤ s.cycle then (b.1, b.2.1, s.cycle + resendTime, b.2.2.2) else b } else g }
        match port with
        | none => .next s
        | some p =>
          let w := s.bar0.ethStatus.get p
          .next { s with bar0 := { s.bar0 with ethStatus := s.bar0.ethStatus.set p.val (w + BitVec.ofNat 64 (2 ^ 32 * n)) p.isLt } }
  | _ => .next s

/-- A peer acknowledges the beats of a flow up to a number (R373). -/
def execCumulativeAcknowledgement (s : State) : Out :=
  match s.arg with
  | .ack flow upTo =>
    .next { s with flows := s.flows.map fun (f : Flow) => if f.id = flow then { f with unacked := f.unacked.filter fun b => upTo < b.1 } else f }
  | _ => .next s

/-- An Ethernet link comes up or goes down: bit 0, and bit 1 with it (R372, R373). -/
def execEthernetLinkChange (s : State) : Out :=
  match s.arg with
  | .eth port up =>
    if h : port < 12 then
      let w := s.bar0.ethStatus.get ⟨port, h⟩
      let w := (w &&& ~~~(3 : Word)) ||| (if up then 3 else 0)
      .next { s with bar0 := { s.bar0 with ethStatus := s.bar0.ethStatus.set port w h } }
    else .next s
  | _ => .next s

end Sys2Proof.Machine
end

