-- ==== Sys2Proof/Machine/Islands.lean ====
section
/-! DEFINITION. Acceptance and replies of engine words; the waiters of windows; fill ports, arrival tokens and control tokens at channels (R86, R199, R200, R223-R231, R234, R346). -/

namespace Sys2Proof.Machine

/-! ENGINE_ACCEPT, ENGINE_REPLY (R199, R200) -/

/-- What its island answers to an offered command. -/
def acceptCmd (s : State) (c : Cmd) : Verdict :=
  match c.ins with
  | .cpy _ | .cpyq _ | .gth _ | .sct _ => acceptCopy s c
  | .plq _ => acceptPlq s c
  | .plterm _ => acceptPlterm s c
  | .plvec _ => acceptPlvec s c
  | .plfuseLin _ => acceptPlfuseLin s c
  | .plfuseRrf _ => acceptPlfuseRrf s c
  | .plrunOr _ => acceptPlrun 0 s c
  | .plrunAnd _ => acceptPlrun 1 s c
  | .plrunWand _ => acceptPlrun 2 s c
  | .plabort _ => acceptPlabort s c
  | .plresume _ => acceptPlresume s c
  | .pins _ => acceptPins s c
  | .ptake _ => acceptPtake s c
  | .ptry _ => acceptPtry s c
  | .pstat _ => acceptPstat s c
  | .pcfg _ => acceptPcfg s c
  | .xfill _ => acceptXfill s c
  | .xred _ => acceptXred s c
  | .xbar _ => acceptXbar s c
  | _ =>
    match atSpec c.ins with
    | some (sp, _) => acceptAtomic s c sp.bytes
    | none => .hold s

/-- What the earlier commands of a context at the same island still wait for before they start: this one starts behind them (R199). -/
def State.startsBehind (s : State) (c : Cmd) : List Nat :=
  ((s.cmds.filter fun d => d.r == c.r && d.port == c.port && d.id < c.id && d.phase != .offered).flatMap (·.after)).filter
    fun i => !s.doneAt i 2

/-- An island accepts the command of a waiting context (R199). -/
def execEngineAccept (s : State) : Out :=
  match s.arg with
  | .id id =>
    match s.cmd? id with
    | none => .next s
    | some c =>
      let waits := match s.ctx? c.r with | some x => x.wait == some (.accept id) | none => false
      if c.phase == .offered && waits && s.clocked c.port.die then
        let c := { c with after := c.after ++ s.startsBehind c }
        let s := s.modCmd id fun _ => c
        .next (s.answer c (acceptCmd s c))
      else .next s
  | _ => .next s

/-- The registers that a reply writes beside its status (R218). -/
def Ctx.replyRegs (x : Ctx) (c : Cmd) : Ctx :=
  let w (i : Nat) : Word := BitVec.ofNat 64 (ofBytesLE ((c.bytes.drop (8 * i)).take 8))
  match c.ins with
  | .ptake o | .ptry o => ((x.ss o.a (w 0)).ss o.b (w 1)).sk o.k (if c.bytes.isEmpty then 0 else 1)
  | .pstat o => (x.ss o.a (w 0)).ss o.b (w 1)
  | _ => x

/-- The reply of a replying command reaches its context; a freeze that waited for it takes effect at pc + 1 (R199, R219, R380). One whose context waits no more, killed meanwhile, is dropped. -/
def execEngineReply (s : State) : Out :=
  match s.arg with
  | .id id =>
    match s.cmd? id with
    | none => .next s
    | some c =>
      match c.status, s.ctx? c.r with
      | some st, some x =>
        if x.wait == some (.reply id) then
          .next ((s.dropCmd id).statusDone c.r (x.replyRegs c) (statusReg c.ins) (BitVec.ofNat 8 c.isl) st)
        else .next (s.dropCmd id)
      | some _, none => .next (s.dropCmd id)
      | none, _ => .next s
  | _ => .next s

/-! Waiters (R224, R225) -/

/-- A waiting window word tried again. -/
def retryWord (i : Instr) (s : State) (r : CtxRef) (x : Ctx) : Option State :=
  match i with
  | .wfill o => tryWfill o s r x
  | .wread o => tryWread o s r x
  | .wupd o => tryWupd o s r x
  | .wshrink o => tryWshrink o s r x
  | .vhist o => tryVhist o s r x
  | .wsave o => tryWsave o s r x
  | .wrest o => tryWrest o s r x
  | .mbld o => tryMbld o s r x
  | .mbldDiag o => tryMbldDiag o s r x
  | .mbsp o => tryMbsp o s r x
  | .mroww o => tryMroww o s r x
  | .mrowwSp o => tryMrowwSp o s r x
  | .mscaleWindow o => tryMscaleWindow o s r x
  | .mbias o => tryMbias o s r x
  | .mrd o => tryMrd o s r x
  | .mwr o => tryMwr o s r x
  | .gth o => tryGth o s r x
  | .sct o => trySct o s r x
  | _ => none

/-- A waiting engine command served at the window. -/
def retryCmd (c : Cmd) (s : State) : Option State :=
  match c.ins with
  | .wreq o => s.serveWreq c o
  | .plvec _ => s.servePlvec c
  | .cpy _ => s.copyRetry c
  | _ =>
    -- the result pairs of a run
    match s.queries.find? fun q => q.2.cmd == c.id && q.2.ending == 1 && s.queryLive q.2 with
    | none => none
    | some q =>
      match q.2.results with
      | [] => none
      | p :: ps =>
        (s.fillBeat ⟨q.2.ctx.rid, q.2.welem, q.2.win⟩ (.cmd c.id) (bytesLE 8 p.toNat)).map fun s =>
          s.setQuery q.1 { s.query q.1 with results := ps, filled := q.2.filled + 1 }

/-- Letter a goes before letter b (R343). -/
def Letter.before (a b : Letter) : Bool :=
  a.cycle < b.cycle || (a.cycle == b.cycle && (a.tile < b.tile || (a.tile == b.tile && a.who < b.who)))

/-- The letter stands at or behind the point from which the region's letters go to the host (R343). -/
def Res.late (rs : Res) (l : Letter) : Bool :=
  match rs.supLost with
  | some (c, t, w) => !(l.cycle < c || (l.cycle == c && (l.tile < t || (l.tile == t && l.who < w))))
  | none => false

/-- The letter that goes next to the supervisor window, of an earlier cycle. -/
def Res.nextLetter (rs : Res) (now : Nat) : Option Letter :=
  (rs.letters.filter fun l => !l.host && !rs.late l && l.cycle < now).foldl (fun m l => match m with
    | none => some l
    | some k => if l.before k then some l else some k) none

/-- The first record of a report has gone: the others follow ahead of every letter (R343). -/
def Res.beginReport (rs : Res) : Res :=
  let rest : List Beat := rs.report.drop 1
  let rec_ (p : Beat × Nat) : Letter := { cycle := 0, tile := p.2, who := 0, body := p.1 }
  { rs with report := [], letters := (rest.zip (List.range rest.length)).map rec_ ++ rs.letters }

/-- Deliver the oldest letter record, or the next record of a report, whose filling is no progress (R354), into a window; none where space or FROZEN forbids it (R343, R353). -/
def State.letterFill (s : State) (wr : WinRef) : Option State :=
  match s.res? wr.rid with
  | none => none
  | some rs =>
    -- a letter is no late datum (R335): it waits at the loader while its supervisor is saved out
    if s.savedElem wr.at then none
    else match rs.nextLetter s.cycle with
    | some l => (s.fillPlain wr (beatBytes l.body)).map fun t =>
      { t.modRes wr.rid fun rs => { rs with letters := rs.letters.erase l } with busy := if l.cycle = 0 then s.busy else t.busy }
    | none => match (if rs.supLost.isSome then [] else rs.report) with
      | b :: _ => (s.fillPlain wr (beatBytes b)).map fun t => { t.modRes wr.rid Res.beginReport with busy := s.busy }
      | [] => none

/-- The element has frozen (R328). -/
def State.frozenAt (s : State) (e : ElemRef) : Bool := match s.elem? e with | some x => x.frozen.isSome | none => false

/-- Try one waiter: what completes leaves the list. An island whose die's clocks are gated does nothing (R375). -/
def State.tryWaiter (s : State) (wr : WinRef) (k : Waiter) : State :=
  let done : Option State := match k with
    | .ctx c =>
      let r := wr.at.ctx c
      match s.ctx? r with
      | some x =>
        match x.wait, x.waitIns with
        | some (.window _), some i => retryWord i s r x.running
        | _, _ => some s
      | none => some s
    -- a frozen element takes nothing from its channels (R328)
    | .chan vc => if s.frozenAt wr.at then none else s.portFill (wr.at.chan vc)
    | .cmd id =>
      match s.cmd? id with
      | some c => if s.clocked c.port.die then retryCmd c s else none
      | none => some s
    | .peer f => s.peerRetry f
    | .letter => s.letterFill wr
  match done with
  | some s => s.leaveWaiters wr k
  | none => s

/-- A window's controller scans its waiters, oldest first (R225). -/
def execWindowWaiterRelease (s : State) : Out :=
  match s.arg with
  | .win wr =>
    match s.win? wr with
    | none => .next s
    | some w => .next (w.waiters.foldl (fun s k => s.tryWaiter wr k) s)
  | _ => .next s

/-! Fill ports (R86, R223, R346) -/

/-- The head of a channel is a reply of an island: an engine fill, not a link fill (R223). -/
def State.replyHead (s : State) (c : ChanRef) : Bool :=
  match s.chan? c with | some x => (match x.items with | i :: _ => i.reply.isSome | [] => false) | none => false

/-- The edge port of the island whose reply stands at the head of a fill-port channel that acts (R26). -/
def State.replyEdge (s : State) (c : ChanRef) : Option Nat :=
  match s.chan? c with
  | some x => match x.items with
    | i :: _ => if x.port.isSome && i.reply.isSome && s.acts c.at then some i.edge else none
    | [] => none
  | none => none

/-- The beat at the head of a fill-port channel fills the window or joins its waiters; a fault token stays, with one letter. A window that has no capacity takes none, and the channel waits: R24 and R86 refuse no image that binds one to a fill port (DESIGN CHOICE, log 73). -/
def State.fillHead (s : State) (c : ChanRef) : State :=
  match s.chan? c with
  | none => s
  | some x =>
    match x.port, x.items with
    | some wn, i :: _ =>
      let wr := c.at.win wn
      let waits := match s.win? wr with | some w => w.waiters.contains (.chan c.vc) | none => true
      if !i.slot || waits then s
      else if i.fault.isSome then
        if x.stuck then s
        else
          let (code, i0, i1) := match i.fault with
            | some (.status va out) => (tISLAND_STATUS, va, 0x100 + out)
            | some .bounds => (tCAP_BOUNDS, 0, 0)
            | _ => (tECC_UNCORR, 0, 0)
          (s.setChan c { x with stuck := true }).remoteLetter c.rid code c.elem 8 c.vc i0 i1
      else match s.portFill c with
        | some s => s
        | none => s.joinWaiters wr (.chan c.vc)
    | _, _ => s

/-- A fill port takes the head of its channel: a link fill, or in its own place among the fills of the cycle an island's reply, which is an engine fill (R26, R223). -/
def execFillAccept (s : State) : Out :=
  match s.arg with
  | .chan c => .next (if s.replyHead c then s else s.fillHead c)
  | .reply c => .next (if s.replyHead c then s.fillHead c else s)
  | _ => .next s

/-! Tokens of windows (R228) -/

/-- The tokens of a window that are due leave on their routes, in the order of their transfers. -/
def State.tokensGo (s : State) (wr : WinRef) : List (Nat × Nat × Item) → State
  | [] => s
  | (d, vc, i) :: l =>
    match s.win? wr with
    | none => s
    | some w =>
      if s.cycle < d || !s.ctlRoom wr.at vc then s
      else
        let s := s.setWin wr { w with due := l }
        -- FILL as it stands when the token is sent
        let i := { i with beat := i.beat ||| BitVec.ofNat 512 (w.fv * 2 ^ 48), reply := none }
        (s.sendCtl wr.at vc i).tokensGo wr l

/-- Arrival and end-of-list tokens leave two cycles after the last fill of their transfer (R228); those of a saved element wait for its restore (R381). -/
def execArrivalToken (s : State) : Out :=
  match s.arg with
  | .win wr =>
    match s.win? wr with
    | none => .next s
    | some w => .next (if s.savedElem wr.at then s else s.tokensGo wr w.due)
  | _ => .next s

/-- A control token at the head of a fill-port channel is passed on along the port's route, behind the arrival token of the transfer before it (R231). -/
def execControlTokenPass (s : State) : Out :=
  match s.arg with
  | .chan c =>
    match s.chan? c with
    | none => .next s
    | some x =>
      match x.port, x.items with
      | some wn, i :: is =>
        let behind := match s.win? (c.at.win wn) with
          | some w => w.due.any fun d => d.2.1 == c.vc
          | none => false
        if i.slot || behind || !s.ctlRoom c.at c.vc then .next s
        else .next ((s.setChan c { x with items := is }).sendCtl c.at c.vc i)
      | _, _ => .next s
  | _ => .next s

/-- The oldest token that waits in the network enters its channel: as a control beat at a declared one, into the counter of up to 255 elsewhere (R231, R234). -/
def execControlBeat (s : State) : Out :=
  match s.arg with
  | .chan c =>
    match s.chan? c with
    | none => .next s
    | some x =>
      match x.held with
      | [] => .next s
      | i :: is =>
        if 255 ≤ s.counter c x then .next s
        else match i.ctl with
        | some (.select g) => .next (((s.setChan c { x with held := is }).modElem c.at fun e => { e with select := e.select ++ [(c.vc, g)] }).active c.rid)
        | _ =>
        if s.declared c then
          if x.free = 0 then .next s
          else .next ((s.setChan c { x with held := is, items := x.items ++ [{ i with slot := true }] }).active c.rid)
        else .next ((s.setChan c { x with held := is, items := x.items ++ [i] }).active c.rid)
  | _ => .next s

end Sys2Proof.Machine
end

