-- ==== Sys2Proof/Machine/Translation.lean ====
section
/-! DEFINITION. Frames, page walks, dead letters, spill areas, the host fault queue, invalidation and migration (R137, R282-R294, R297, R349). -/

namespace Sys2Proof.Machine

/-! Replay (R288) -/

/-- Resolved entries go back to their ports, in ordinal order, and translate afresh (R288). -/
def State.replay (s : State) (as : List Acc) : State :=
  (as.foldl (fun s a => (s.leaveDead a true).modAcc a.id fun a => { a with place := .queued, asked := false }) s).portsRun

/-! Fatal entries (R291) -/

def Miss.code : Miss → Nat
  | .absent => 0 | .denied => 1 | .malformed => 2 | .refuse => 3 | .held => 0

/-- The element of a generator's beat that waits for a read takes a fault instead. -/
def Gen.failRead (g : Gen) (id : Nat) (f : Bad) : Gen :=
  let one (e : GElem) : GElem := if e.ids.contains id then { e with ids := [], fault := some f } else e
  { g with ahead := g.ahead.map fun b => { b with els := b.els.map one } }

/-- A fatal dead letter completes with no memory change. -/
def State.fatal (s : State) (a : Acc) (m : Miss) : State :=
  let s := s.leaveDead a false
  let code := 0x100 + m.code
  let bad : Bad := .status a.va m.code
  let letter (s : State) (elem who : Nat) : State := s.remoteLetter a.rid tISLAND_STATUS elem who 0 a.va code
  match a.purpose, a.issuer with
  | .load, .ctx r =>
    match s.ctx? r with
    | some x => ((s.abandon r x).dropAcc a.id).trap r x tISLAND_STATUS (BitVec.ofNat 64 a.va) (BitVec.ofNat 64 code)
    | none => s.dropAcc a.id
  | .genRead, .gen g => (s.dropAcc a.id).modGen g fun x => x.failRead a.id bad
  | .genWrite, .gen g => (letter (s.dropAcc a.id) g.elem 9).settle
  | .atomic id, .cmd r _ =>
    let s := (letter (s.dropAcc a.id) r.elem r.ctx)
    match s.cmd? id with
    | none => s
    | some c =>
      let fetch := match atSpec c.ins with | some (sp, _) => sp.fetch | none => false
      let s := if fetch then s.toChan (replyTarget c.r.rid (c.w.getD 1 0)) { beat := 0, last := true, reply := some c.id, edge := c.port.port, fault := some bad } else s
      (s.dropCmd id).settle
  | .store, .ctx r | .store, .cmd r _ => (letter (s.dropAcc a.id) r.elem r.ctx).settle
  | _, _ =>
    -- a read of mreq or of an engine: its consumer receives the status instead of data
    (s.modAcc a.id fun a => { a with level := 3, result := some (List.replicate a.len 0, [], true), fault := some bad }).settle

/-! Walks (R284, R286) -/

/-- An invalidation of the address is between its start and its end. -/
def State.invalidating (s : State) (a : Acc) : Bool :=
  s.invals.any fun i => i.started && (match i.asid with | some x => x == a.asid | none => true) &&
    (match i.bulk with | some b => b == a.bulk | none => true) && i.lo ≤ a.va && a.va < i.hi && i.ids.all fun d => s.doneAt d 2

/-- A port's walk ends: MAPPED fills the TLB and issues the access, any other outcome makes it a dead letter; a walk that an invalidation meets is repeated (R292). -/
def execPageWalkDone (s : State) : Out :=
  match s.arg with
  | .id id =>
    match s.acc? id with
    | none => .next s
    | some a =>
      if a.place ≠ .parked || s.cycle < a.due then .next s
      else if s.invalidating a then
        let (d, s) := s.later 1
        .next (s.modAcc id fun a => { a with due := d })
      else match s.walk a.asid a.bulk a.need a.va with
        | .asleep => .next s
        | .mapped p bulk size r w at' _ =>
          let s := s.tlbFill a.port { asid := a.asid, gen := s.gen a.asid, bulkTbl := a.bulk, va := a.va / size, size := size,
                                      bulk := bulk, phys := p - a.va % size, r := r, w := w, a := at' }
          let s := if a.write then s.dirty a.asid a.bulk a.need a.va else s
          let (d, s) := s.later 1
          .next (((s.modAcc id fun a => { a with place := .phys bulk p, due := d }).portRun a.port).active a.rid)
        | .miss m => .next (((s.enqueueDead a m).portRun a.port).active a.rid)
  | _ => .next s

/-! Resolution (R288, R290) -/

def Acc.page (a : Acc) : PageRef := ⟨a.asid, a.bulk, a.va / 2 ^ 16⟩
def Acc.shared (a : Acc) : Bool := a.va / 2 ^ 56 % 2 == 1

/-- The record of a shared-half fault. -/
def faultRecord (a : Acc) : BitVec 128 :=
  BitVec.ofNat 128 (fields [(0, a.va / 2 ^ 16 % 2 ^ 41), (56, a.asid), (80, boolNat a.bulk), (81, boolNat a.write), (82, boolNat a.atomic)])

/-- A dead letter of a killed region completes with no memory change and tells no one: the accesses of the region are completed so that it frees (R253, R276, R347). -/
def State.voidDead (s : State) (a : Acc) : State :=
  let s := s.leaveDead a false
  match a.purpose with
  | .unit .. => s.modAcc a.id fun a => { a with level := 3, result := some (List.replicate a.len 0, [], true) }
  | .atomic id => (s.dropAcc a.id).dropCmd id
  | _ => s.dropAcc a.id

/-- The loader resolves a dead letter by its outcome (R288). -/
def execDeadLetterResolve (s : State) : Out :=
  match s.arg with
  | .id id =>
    match s.acc? id with
    | none => .next s
    | some a =>
      match a.place with
      | .dead m =>
        let moving := s.migrs.any fun g => g.page == a.page
        match m with
        | .held => if moving then .next s else .next (s.replay [a])
        | _ =>
          if s.killed a.rid then .next (s.voidDead a)
          else if a.shared && (m == .absent || m == .denied) then
            if a.asked || 1024 ≤ s.faultq.length then .next s
            else .next ((State.modAcc { s with faultq := s.faultq ++ [faultRecord a] } id fun a => { a with asked := true }).raise 1)
          else if m == .absent && !a.bulk then
            -- page-in: a launch page of the main table that lies in bulk memory; its entries wait for the end of the move
            match s.pte? a.page with
            | some e =>
              if moving || s.pageAsleep a.page then .next s
              else if e.tgt = 1 then .next { s with migrs := s.migrs ++ [{ page := a.page }] }
              else .next (s.replay [a])
            | none => .next (s.fatal a m)
          else .next (s.fatal a m)
      | _ => .next s
  | _ => .next s

/-- A spill write is tried again every 4,096 cycles (R349). -/
def execSpillWriteRetry (s : State) : Out :=
  match s.arg with
  | .id id =>
    match s.acc? id with
    | none => .next s
    | some a =>
      let x := s.port a.port
      match x.retry.find? (·.1 == id) with
      | none => .next s
      | some (_, d) =>
        if s.cycle < d then .next s
        else if s.spillFails a.port then
          .next (s.setPort a.port { x with retry := x.retry.map fun r => if r.1 = id then (id, s.cycle + 4096) else r })
        else
          let full := s.spillFull a.port a.rid
          let s' := s.setPort a.port { x with retry := x.retry.filter (·.1 ≠ id), deadq := x.deadq.filter (· ≠ id), spill := x.spill ++ [id],
                                              full := x.full || full, freed := if full then 0 else x.freed }
          .next (if full && !x.full then s'.remoteLetter a.rid 0x20 a.from_.1 11 0 a.port.port 0 else s')
  | _ => .next s

/-- A read of FAULT_HEAD takes the oldest record, which is the first of the queue (R290). While an earlier letter is not accepted, the read waits and is tried in the next cycle (R370). -/
def execFaultHead (s : State) : Out :=
  if s.launchHeld.isEmpty then .next { s with faultq := s.faultq.drop 1 }
  else .next { s with inputs := (s.cycle + 1, .faultHead, s.arg) :: s.inputs }

/-- The host answers a fault: the entries on the page are replayed, or are fatal (R290). -/
def execFaultAnswer (s : State) : Out :=
  match s.arg with
  | .reg _ w =>
    let hit (a : Acc) : Bool :=
      (match a.place with | .dead .absent | .dead .denied => true | _ => false) && a.shared &&
      a.va / 2 ^ 16 % 2 ^ 41 == (w.extractLsb' 0 41).toNat && a.bulk == w.getLsbD 41
    let as := s.accs.filter hit
    if w.getLsbD 63 then .next (as.foldl (fun s a => s.fatal a .refuse) s) else .next (s.replay as)
  | _ => .next s

/-! Invalidation (R292) -/

def Inval.meets (i j : Inval) : Bool :=
  (match i.asid, j.asid with | some a, some b => a == b | _, _ => true) &&
  (match i.bulk, j.bulk with | some a, some b => a == b | _, _ => true) && i.lo < j.hi && j.lo < i.hi

/-- The accesses of a range that an extent or a TLB has translated and that are not complete at device scope. -/
def State.translated (s : State) (i : Inval) : List Nat :=
  (s.accs.filter fun a => (match a.place with | .phys .. => true | _ => false) && a.level < 2 &&
    (match i.asid with | some x => x == a.asid | none => true) && (match i.bulk with | some b => b == a.bulk | none => true) &&
    a.va < i.hi && i.lo < a.va + a.len).map (·.id)

/-- Bytes of the greater page that holds an address in the tables an invalidation names: shared-half pages have three sizes (R282). -/
def State.pageBytes (s : State) (i : Inval) (va : Nat) : Nat :=
  if va / 2 ^ 56 % 2 = 0 then 2 ^ 16
  else
    let of (b : Bool) : Nat :=
      if i.bulk == some (!b) then 16 else leafShift s.gddr va 5 1 (if b then s.bar0.sharedRootBulk else s.bar0.sharedRootMain).toNat
    2 ^ max (of false) (of true)

/-- The tables that give the page sizes of a range's ends lie in GDDR in self-refresh (R376). -/
def State.rangeAsleep (s : State) (i : Inval) : Bool :=
  s.selfRefresh ≠ 0 && [i.lo, i.hi - 1].any fun va => va / 2 ^ 56 % 2 == 1 && [false, true].any fun b =>
    i.bulk != some (!b) && s.walk 0 b ⟨false, false⟩ va == .asleep

/-- The range in whole pages of the tables (R137). -/
def State.widen (s : State) (i : Inval) : Inval :=
  let (p, q) := (s.pageBytes i i.lo, s.pageBytes i (i.hi - 1))
  { i with lo := i.lo / p * p, hi := (i.hi + q - 1) / q * q }

/-- Step 1: the range is widened to whole pages, and the generators whose extents meet it pause. -/
def State.invalStart (s : State) (i : Inval) : Inval × State :=
  let i := s.widen i
  let hit (g : Gen) : Bool := g.meets i.asid i.bulk i.lo i.hi
  ({ i with started := true, paused := (s.gens.filter fun p => hit p.2).map (·.1) },
   { s with gens := tmap s.gens fun _ g => if hit g then { g with paused := true } else g })

/-- The TLB entry maps a page of the range. -/
def TlbEnt.inRange (t : TlbEnt) (i : Inval) : Bool :=
  (match i.asid with | some x => x == t.asid | none => true) && (match i.bulk with | some b => b == t.bulkTbl | none => true) &&
  t.va * t.size < i.hi && i.lo < (t.va + 1) * t.size

/-- Change the migration of a page that is under way: the first; later ones of the page wait for it. -/
def State.modMigr (s : State) (p : PageRef) (f : Migr → Migr) : State :=
  let rec go : List Migr → List Migr
    | [] => []
    | m :: l => if m.page = p then f m :: l else m :: go l
  { s with migrs := go s.migrs }

/-- The migration of a page has ended. -/
def State.endMigr (s : State) (p : PageRef) : State := { s with migrs := s.migrs.eraseP (·.page == p) }

/-- Steps 3 to 5: the extents of the paused generators are rewritten, TLB entries go, those generators resume, the owner is answered. -/
def State.invalEnd (s : State) (i : Inval) (others : List Inval) : State :=
  let s := s.repatch i
  let s := { s with ports := tmap s.ports fun _ p => { p with tlb := p.tlb.filter fun t => !t.inRange i } }
  let s := s.unpause i others
  match i.owner with
  | .ctx r => match s.ctx? r with
    | some x => if x.wait == some .loader then s.finish r x else s
    | none => s
  | .host => { s with bar0 := { s.bar0 with invalGo := 0 } }
  | .migr p => s.modMigr p fun m => { m with stage := m.stage + 1 }
  | .asid a => { s with asidGen := tput s.asidGen a ((s.gen a + 1) % 2 ^ 20) }

/-- Each invalidation in the order received: one that overlaps an earlier one waits for it, and a started one for every access that the old mapping has translated by now (step 2). -/
def State.invalGo (s : State) : List Inval → List Inval → State
  | [], kept => { s with invals := kept }
  | i :: l, kept =>
    if kept.any (·.meets i) || (!i.started && s.rangeAsleep i) then s.invalGo l (kept ++ [i])
    else
      let (i, s) := if i.started then (i, s) else s.invalStart i
      let i := { i with ids := s.translated i }
      if i.ids.isEmpty && !s.repatchAsleep i then (s.invalEnd i (kept ++ l)).invalGo l kept else s.invalGo l (kept ++ [i])

def State.invalRun (s : State) : State := if s.invals.isEmpty then s else s.invalGo s.invals []

/-- Widen to whole 64 KiB pages. -/
def pageRange (start len : Nat) : Nat × Nat := (start / 2 ^ 16 * 2 ^ 16, (start + len + 2 ^ 16 - 1) / 2 ^ 16 * 2 ^ 16)

/-- The host invalidates shared-half pages, for all ASIDs (R292). -/
def execInvalGo (s : State) : Out :=
  match s.arg with
  | .reg _ w =>
    if !w.getLsbD 0 then .next s
    else
      let (lo, hi) := pageRange s.bar0.invalStart.toNat s.bar0.invalLength.toNat
      if s.bar0.invalLength = 0 then .next s
      else .next (State.invalRun { s with bar0 := { s.bar0 with invalGo := 1 },
                                          invals := s.invals ++ [{ owner := .host, asid := none, lo := lo, hi := hi }] })
  | _ => .next s

/-! Migration and page-in (R293) -/

/-- Set or clear L of a launch page. -/
def State.hold (s : State) (p : PageRef) (on : Bool) : State :=
  match s.pte? p with
  | some e => s.setPte p { e with held := on }
  | none => s

def State.pageInval (s : State) (p : PageRef) : State :=
  State.invalRun { s with invals := s.invals ++ [{ owner := .migr p, asid := some p.asid, bulk := some p.bulk,
                                                   lo := p.vpage * 2 ^ 16, hi := (p.vpage + 1) * 2 ^ 16 }] }

/-- Copy data and tags of a frame. -/
def State.copyFrame (s : State) (fromBulk : Bool) (a : Nat) (toBulk : Bool) (b : Nat) : State :=
  let src := if fromBulk then s.bulk else s.gddr
  let tags := if fromBulk then s.bulkTags else s.gddrTags
  let bs := (src.filter fun c => a ≤ c.1 && c.1 < a + 2 ^ 16).map fun c => (c.1 - a + b, c.2)
  let ts := (tags.filter fun u => a ≤ 16 * u && 16 * u < a + 2 ^ 16).map fun u => u - a / 16 + b / 16
  let clear (m : Memory) : Memory := m.filter fun c => !(b ≤ c.1 && c.1 < b + 2 ^ 16)
  let put (m : Memory) : Memory := bs.foldl (fun m c => m.put c.1 c.2) (clear m)
  let putTags (t : List Nat) : List Nat := ts ++ t.filter fun u => !(b ≤ 16 * u && 16 * u < b + 2 ^ 16)
  if toBulk then { s with bulk := put s.bulk, bulkTags := putTags s.bulkTags }
  else { s with gddr := put s.gddr, gddrTags := putTags s.gddrTags }

/-- The devices for a page-in, those of the DIE hint first. -/
def hintDevs (die : Nat) : List Nat := ((List.range 6).map (die * 6 + ·)) ++ (List.range 48).filter fun d => d / 6 ≠ die

/-- A migration or page-in of one page, stage by stage: 0 hold, 1 first invalidation, 2 copy and rewrite, 3 second invalidation, 4 replay (R293). -/
def execMigration (s : State) : Out :=
  match s.arg with
  | .page p =>
    -- GDDR in self-refresh serves neither the entry nor the copy (R376)
    if s.pageAsleep p then .next s
    else match s.migrs.find? (·.page == p), s.pte? p with
    | some m, some e =>
      match m.stage with
      | 0 =>
        let t := match m.target with | some t => some t | none => s.findOn false (2 ^ 16) (hintDevs e.dieHint)
        match t with
        -- no frame is free: the page waits
        | none => .next s
        | some t =>
          let s := State.modMigr { s with nextAlloc := s.nextAlloc + 1 } p fun g => { g with stage := 1, target := some t }
          .next ((s.hold p true).pageInval p)
      | 2 =>
        let t := m.target.getD e.frame
        let old : Nat × Bool × Nat := (p.asid, e.tgt == 1, e.frame)
        if s.asleep t || (e.tgt == 0 && s.asleep e.frame) then .next s
        else
          let s := s.copyFrame (e.tgt == 1) e.frame false t
          let s := (State.setPte { s with ledger := (p.asid, false, t) :: s.ledger.erase old } p { e with frame := t, tgt := 0, held := false }).modMigr p
            fun g => { g with stage := 3 }
          .next (s.pageInval p)
      | 4 =>
        let s := s.endMigr p
        .next (s.replay (s.accs.filter fun a => a.page == p && match a.place with | .dead .held | .dead .absent => true | _ => false))
      | _ => .next s
    | some _, none => .next (s.endMigr p)
    | none, _ => .next s
  | _ => .next s

end Sys2Proof.Machine
end

