-- ==== Sys2Proof/Machine/System.lean ====
section
/-! DEFINITION. The system words: smov, ctxctl, mark, tsamp, brkpt, tlbinv, post (R28, R29, R33, R131-R138, R340, R360). -/

namespace Sys2Proof.Machine

/-! smov (R28, R29, R131) -/

def CState.code : CState → Nat
  | .unbound => 0 | .idle => 1 | .ready => 2 | .run => 3 | .wait => 4 | .frozen => 5 | .done => 6

/-- CTX_STATE with a given STATE. -/
def Ctx.stateWord (x : Ctx) (st : CState) : Word :=
  BitVec.ofNat 64 (fields [(0, st.code), (4, boolNat x.trapped), (5, boolNat x.preempted), (8, x.pc.toNat), (24, x.waitop.toNat)])

/-- VC_DESC of a channel (R23). -/
def Chan.desc (c : Chan) : Word :=
  BitVec.ofNat 64 (fields [(0, c.slots % 2 ^ 7), (7, boolNat c.en), (8, c.fmt.toNat), (24, c.scale.toNat)])

/-- REGION_SHAPE: width, height, die mask. -/
def Res.shape (rs : Res) : Word :=
  BitVec.ofNat 64 (fields [(0, rs.width % 2 ^ 8), (8, rs.height % 2 ^ 8), (16, (rs.dies.foldl (fun a d => a + 2 ^ d.1) 0) % 2 ^ 8)])

/-- A register whose access is S. -/
def sysReadS (n : Nat) : Bool := n = 0x200 || n = 0x203 || n = 0x210 || n = 0x211
/-- A register that only a supervisor may write. -/
def sysWriteS (n : Nat) : Bool :=
  sysReadS n || n = 0x008 || n = 0x009 || (0x100 ≤ n && n ≤ 0x10F) || (0x300 ≤ n && n ≤ 0x35F)

/-- The value of a system register; none for an unassigned number. -/
def State.sysRead (s : State) (r : CtxRef) (x : Ctx) (n : Nat) : Option Word :=
  let t := (s.tile? r.tile).getD {}
  let site : Nat × Nat × Nat := match s.elem? r.tile with | some e => (e.die, e.x, e.y) | none => (0, 0, 0)
  let rs := (s.res? r.rid).getD {}
  let pmc (i : Nat) : Word := if h : i < 16 then x.pmc.get ⟨i, h⟩ else 0
  let sel (i : Nat) : Byte := if h : i < 16 then x.pmcSel.get ⟨i, h⟩ else 0
  let nib (v : Vector (BitVec 4) 8) (i : Nat) : Word := if h : i < 8 then (v.get ⟨i, h⟩).setWidth 64 else 0
  if n = 0x000 then some (BitVec.ofNat 64 (fields [(0, r.ctx % 8), (3, boolNat x.sup)]))
  else if n = 0x001 then some (x.stateWord .run)
  else if n = 0x002 then some (x.flags.setWidth 64)
  else if n = 0x003 then some x.sra.seed
  else if n = 0x004 then some x.sra.ctr
  else if n = 0x005 then some x.srb.seed
  else if n = 0x006 then some x.srb.ctr
  else if n = 0x007 then some x.fireCnt
  else if n = 0x008 then some x.loopMax
  else if n = 0x009 then some x.trapCode
  else if n = 0x00A then some x.info0
  else if n = 0x00B then some x.info1
  else if n = 0x00C then some x.tripCnt
  else if n = 0x010 then some x.cycleCnt
  else if 0x020 ≤ n && n ≤ 0x02F then some (pmc (n - 0x020))
  else if 0x030 ≤ n && n ≤ 0x03F then some ((sel (n - 0x030)).setWidth 64)
  else if 0x100 ≤ n && n ≤ 0x107 then some (nib t.weight (n - 0x100))
  else if 0x108 ≤ n && n ≤ 0x10F then some (nib t.floor (n - 0x108))
  else if n = 0x110 then some t.slotTable
  else if n = 0x111 then some t.accBind
  else if n = 0x120 then some (BitVec.ofNat 64 t.ctxPtr.val)
  else if n = 0x130 then some (BitVec.ofNat 64 (match s.elem? r.tile with | some e => e.tileId | none => 0))
  else if 0x140 ≤ n && n ≤ 0x15F then
    some (match s.chan? (r.tile.chan (n - 0x140)) with | some c => c.desc | none => ({} : Chan).desc)
  else if 0x180 ≤ n && n ≤ 0x1DF then some (s.bar ⟨r.rid, r.elem, n - 0x180⟩).note
  else if n = 0x200 then some rs.dlQuiet
  else if n = 0x201 then some (BitVec.ofNat 64 (rs.region % 2 ^ 16))
  else if n = 0x202 then some rs.shape
  else if n = 0x203 then some rs.stallCnt
  else if n = 0x210 then some rs.traceCtl
  else if n = 0x211 then some rs.sampleRate
  else if 0x300 ≤ n && n ≤ 0x35F then some (s.bar ⟨r.rid, r.elem, n - 0x300⟩).word
  else if n = 0x360 then some (((tget s.softTiles site).getD 0).setWidth 64)
  else none

/-- Write a system register; none for a number that no word may write. -/
def State.sysWrite (s : State) (r : CtxRef) (x : Ctx) (n : Nat) (w : Word) : Option (State × Ctx) :=
  let tile (f : Tile → Tile) : Option (State × Ctx) := some (s.modTile r.tile f, x)
  let res (f : Res → Res) : Option (State × Ctx) := some (s.modRes r.rid f, x)
  if n = 0x002 then some (s, { x with flags := w.extractLsb' 0 5 })
  else if n = 0x003 then some (s, { x with sra := { x.sra with seed := w } })
  else if n = 0x004 then some (s, { x with sra := { x.sra with ctr := w } })
  else if n = 0x005 then some (s, { x with srb := { x.srb with seed := w } })
  else if n = 0x006 then some (s, { x with srb := { x.srb with ctr := w } })
  else if n = 0x008 then some (s, { x with loopMax := if w = 0 then 1 else w })
  else if n = 0x009 then some (s, { x with trapCode := w &&& 0xFF })
  else if h : 0x020 ≤ n ∧ n ≤ 0x02F then some (s, { x with pmc := x.pmc.set (n - 0x020) w (by omega) })
  else if h : 0x030 ≤ n ∧ n ≤ 0x03F then some (s, { x with pmcSel := x.pmcSel.set (n - 0x030) (w.extractLsb' 0 8) (by omega) })
  else if h : 0x100 ≤ n ∧ n ≤ 0x107 then tile fun t => { t with pend := t.pend ++ [.weight ⟨n - 0x100, by omega⟩ (w.extractLsb' 0 4)] }
  else if h : 0x108 ≤ n ∧ n ≤ 0x10F then tile fun t => { t with floor := t.floor.set (n - 0x108) (w.extractLsb' 0 4) (by omega) }
  else if 0x180 ≤ n && n ≤ 0x1DF then
    let k : BarRef := ⟨r.rid, r.elem, n - 0x180⟩
    some (s.setBar k { s.bar k with note := w }, x)
  else if n = 0x200 then res fun rs => { rs with dlQuiet := BitVec.ofNat 64 (max 1024 (min w.toNat (2 ^ 32 - 1))) }
  else if n = 0x203 then res fun rs => { rs with stallCnt := w, armed := true }
  else if n = 0x210 then res fun rs => { rs with traceCtl := w &&& 3 }
  else if n = 0x211 then res fun rs => { rs with sampleRate := w &&& 0xFFFF }
  else if 0x300 ≤ n && n ≤ 0x35F then tile fun t => { t with pend := t.pend ++ [.bar (n - 0x300) w] }
  else none

/-- Read a system register (R131). -/
def execSmovRead (o : SmovOps) (s : State) : Out :=
  runWord o.g s fun r x => .next <|
    if sysReadS o.reg.toNat && !x.sup then s.trap r x tPRIV 0 0
    else match s.sysRead r x o.reg.toNat with
      | some w => s.finish r (x.ss o.d w)
      | none => s.illegal r x

/-- Write a system register (R131). The word counts its own completion (ISSUE, R31) after its write, so under the value and the selection that it wrote: the rules do not order the two (DESIGN CHOICE, log 70). -/
def execSmovWrite (o : SmovOps) (s : State) : Out :=
  runWord o.g s fun r x => .next <|
    if sysWriteS o.reg.toNat && !x.sup then s.trap r x tPRIV 0 0
    else match s.sysWrite r x o.reg.toNat (x.gs o.d) with
      | some (s, x) => s.finish r x
      | none => s.illegal r x

/-! ctxctl (R132, R133) -/

/-- The shape of ctxctl: privilege, target, self, then the action with its status. -/
def ctlWord (o : CtxCtlOps) (s : State) (act : CtxRef → Ctx → CtxRef → Ctx → State) : Out :=
  runWord o.g s fun r x => .next <|
    let done (st : Word) : State := s.finish r (x.ss o.d st)
    if !x.sup then s.trap r x tPRIV 0 0
    else match s.ctlTarget r.rid (x.gs o.x) with
      | none => done 1
      | some q =>
        if q = r then done 3
        else match s.ctx? q with
          | none => done 2
          | some y => if y.st == .unbound then done 2 else act r x q y

/-- Complete the issuer's ctxctl with a status, in the state its action has left. -/
def State.ctlDone (s : State) (r : CtxRef) (d : SReg) (st : Word) : State :=
  match s.ctx? r with | some x => s.finish r (x.ss d st) | none => s

/-- Freeze a context; it waits until the target is FROZEN (R132). -/
def execCtxctlFreeze (o : CtxCtlOps) (s : State) : Out :=
  ctlWord o s fun r _ q y =>
    if y.st == .done then s.ctlDone r o.d 2
    else if y.st == .frozen then s.ctlDone r o.d 0
    else
      let s := s.freeze q .ctl
      let frozen : Bool := match s.ctx? q with | some y => y.st == .frozen | none => true
      if frozen then s.ctlDone r o.d 0
      else s.modCtx r fun x => { x with st := .wait, wait := some .loader, waitIns := some (.ctxctlFreeze o), waitop := 0xF1 }

/-- A ctxctl.freeze that waits completes once its target is FROZEN, or ended by itself. -/
def State.ctlPoll (s : State) (r : CtxRef) : State :=
  match s.ctx? r with
  | none => s
  | some x =>
    match x.wait, x.waitIns with
    | some .loader, some (.ctxctlFreeze o) =>
      match (s.ctlTarget r.rid (x.gs o.x)).bind s.ctx? with
      | some y => if y.st == .frozen then s.finish r (x.ss o.d 0) else if y.st == .done then s.finish r (x.ss o.d 2) else s
      | none => s.finish r (x.ss o.d 1)
    | _, _ => s

/-- The freezes that wait for a context, which is FROZEN, are answered before a command of the same cycle changes it (R133). -/
def State.freezesDone (s : State) (r q : CtxRef) : State :=
  ((s.ctxs.filter fun p => p.1 ≠ r && p.1 ≠ q && p.2.st == .wait && s.freezeTarget p.1 p.2 == some q).map (·.1)).foldl State.ctlPoll s

/-- Resume a frozen context (R130, R132). -/
def execCtxctlResume (o : CtxCtlOps) (s : State) : Out :=
  ctlWord o s fun r _ q y =>
    if y.st == .frozen && !y.preempted then (((s.freezesDone r q).setCtx q y.resume).active q.rid).ctlDone r o.d 0
    else s.ctlDone r o.d 2

/-- Kill a context (R132). -/
def execCtxctlKill (o : CtxCtlOps) (s : State) : Out :=
  ctlWord o s fun r _ q y => if y.st == .done then s.ctlDone r o.d 2 else ((if y.st == .frozen then s.freezesDone r q else s).kill q).ctlDone r o.d 0

/-- Restart a frozen context at its entry (R132). -/
def execCtxctlRestart (o : CtxCtlOps) (s : State) : Out :=
  ctlWord o s fun r _ q y => if y.st == .frozen then ((s.freezesDone r q).restart q y).ctlDone r o.d 0 else s.ctlDone r o.d 2

/-! mark (R134, R340, R360) -/

/-- The shape of mark: privilege, then a status with what the marker does; the word completes at injection, and a freeze that the marker brings its own issuer finds it between words (R21, R134). -/
def markWord (o : MarkOps) (s : State) (act : Nat → Res → Word × (State → State)) : Out :=
  runWord o.g s fun r x => .next <|
    if !x.sup then s.trap r x tPRIV 0 0
    else
      let (st, go) := act r.rid ((s.res? r.rid).getD {})
      go (s.finish r (x.ss o.d st))

/-- Round markers: the pre-emption of the issuer's region (R327, R340). In a stopped region R360 defers the pre-emption; the status is then 0 at once, and 1 for a second mark while it stands deferred (DESIGN CHOICE, log 55). -/
def execMarkRound (o : MarkOps) (s : State) : Out :=
  markWord o s fun rid rs => if rs.st ≠ .resident || rs.deferredDrain then (1, id) else (0, fun s => s.startDrain rid true)

/-- Checkpoint markers alone (R340). -/
def execMarkCheckpoint (o : MarkOps) (s : State) : Out :=
  markWord o s fun rid rs => if rs.st ≠ .resident || rs.check then (1, id) else (0, fun s => s.startCheck rid)

/-- A marker of a kind is on a link of the region. -/
def State.markerOn (s : State) (rid : Nat) (m : Marker) : Bool :=
  s.chans.any fun p => p.1.rid == rid && p.2.flight.any fun f => f.2 == .marker m

/-- Cut markers: a stop, or in a stopped region its release (R360). -/
def execMarkCut (o : MarkOps) (s : State) : Out :=
  markWord o s fun rid rs =>
    if rs.st ≠ .resident || rs.cutDue.isSome || (rs.stopped && s.markerOn rid .cut) then (1, id)
    else if rs.stopped then (0, fun s => s.endStop rid)
    else (0, fun s => s.modRes rid fun rs => { rs with cutDue := some (s.cycle + 1) })

/-! tsamp, brkpt (R135, R136) -/

/-- Mark the next token on an output. R332 records one pending output, and R135 speaks of a second tsamp on the same one: a tsamp on another output while one is pending adds nothing either (DESIGN CHOICE, log 56). -/
def execTsamp (o : TsampOps) (s : State) : Out :=
  runWord o.g s fun r x => .next <|
    let on := match s.res? r.rid with | some rs => rs.traceCtl.getLsbD 0 | none => false
    if !x.outMask.getLsbD o.oc.val then s.illegal r x
    else s.finish r (if on && x.tsamp.isNone then { x with tsamp := some o.oc } else x)

/-- Trap BREAK. -/
def execBrkpt (o : BrkOps) (s : State) : Out :=
  runWord o.g s fun r x => .next (s.trap r x tBREAK (o.imm.setWidth 64) 0)

/-- Arm a breakpoint on the n-th token of an output. -/
def execBrkptArmed (o : BrkArmedOps) (s : State) : Out :=
  runWord o.g s fun r x => .next <|
    let on := match s.res? r.rid with | some rs => rs.traceCtl.getLsbD 1 | none => false
    if !x.outMask.getLsbD o.oc.val then s.illegal r x
    else s.finish r (if on then { x with armed := if o.n = 0 then none else some (o.oc, o.n, o.n) } else x)

/-! tlbinv (R137) -/

/-- Invalidate a range of the region's ASID, or all of it; waits until it is done. -/
def execTlbinv (o : TlbinvOps) (s : State) : Out :=
  runWord o.g s fun r x => .next <|
    let asid := match s.res? r.rid with | some rs => rs.asid | none => 0
    let len := (x.gs o.x).toNat
    if !x.sup then s.trap r x tPRIV 0 0
    else if !o.all && len = 0 then s.finish r x
    else
      let (lo, hi) := if o.all then (0, 2 ^ 64) else pageRange (x.gs o.d).toNat len
      let s := s.setCtx r { x with st := .wait, wait := some .loader, waitIns := some (.tlbinv o), waitop := 0xF5 }
      (State.invalRun { s with invals := s.invals ++ [{ owner := .ctx r, asid := some asid, lo := lo, hi := hi }] }).active r.rid

/-! post (R138) -/

/-- Post a thread token: its colours are released first, then the token leaves for the hub. -/
def execPost (o : PostOps) (s : State) : Out :=
  runWord o.g s fun r x => .next <|
    let tag := match s.res? r.rid with | some rs => rs.tag | none => 0
    let n := match tget s.launches tag with | some l => l.blocks.length | none => 0
    if n ≤ o.block.toNat then s.trap r x tISLAND_STATUS (o.block.setWidth 64) 0
    else
      let s := s.setCtx r { x with st := .wait, wait := some (.postRelease (s.owed r)), waitIns := some (.post o), waitop := 0xF6 }
      s.wakeCtx r

end Sys2Proof.Machine
end

