-- ==== Sys2Proof/Machine/Issue.lean ====
section
/-! DEFINITION. The firing condition, interlocks and the arbiter of a tile (R21, R32, R107, R231, R232, R278). -/

namespace Sys2Proof.Machine

/-! The firing condition (R21, R231) -/

/-- Every declared input channel holds its count. -/
def State.inputsIn (s : State) (r : CtxRef) (x : Ctx) : Bool :=
  (List.finRange 32).all fun n => !x.inMask.getLsbD n.val ||
    match s.chan? (r.tile.chan n.val) with
    | some c => x.inRate.get n ≤ (c.items.filter (·.slot)).length
    | none => false

/-- Reserve the declared counts at the grant that starts a firing (R231). -/
def State.reserve (s : State) (r : CtxRef) (x : Ctx) : State × Ctx :=
  (List.finRange 32).foldl (fun (p : State × Ctx) n =>
    if x.outMask.getLsbD n.val then
      match p.1.route? r.tile n.val with
      | some c => (p.1.modChan c fun y => { y with reserved := y.reserved + x.outRate.get n },
                   { p.2 with reserved := p.2.reserved ||| BitVec.twoPow 32 n.val })
      | none => p
    else p) (s, x)

/-! Interlocks (R107, R165, R189) -/

/-- The bank that a matrix word names. -/
def matrixBank : Instr → Option Nat
  | .mrow o => some o.acc.val
  | .mroww o | .mrowwSp o => some o.acc.val
  | .mbld o | .mbldDiag o | .mbsp o => some o.acc.val
  | .mscaleWindow o => some o.acc.val
  | .mscaleCode o => some o.acc.val
  | _ => none

/-- A release arrival or release store of a context still waits for what stands before it (R249). -/
def State.releaseOwed (s : State) (r : CtxRef) : Bool :=
  (s.deferred.any fun d => d.r == r && d.scope == .device && match d.what with | .ctok _ => false | _ => true) ||
  s.accs.any fun a => a.issuer == .ctx r && a.write && a.after.any fun i => !s.doneAt i 2

/-- A word reads a register that still awaits the phase of an arrival (R107, R189). -/
def Ctx.awaits (x : Ctx) (i : Instr) : Bool := x.locks.any fun d => (rS d).any i.uses.2.contains

/-- The next word of a context in RUN waits, invisibly, for an earlier one: a register that it reads awaits an arrival's phase; a barrier word follows a deferred arrival at its barrier; matrix rows of the context stand in the array; a B buffer waits to be swapped; a fill follows what a release before it waits for (R251). -/
def State.interlocked (s : State) (r : CtxRef) (x : Ctx) : Bool :=
  let next : Option Instr := match decode (s.wordAt r x.pc.toNat) with | .ok i => some i | .error _ => none
  let owed (b : Nat) : Bool := s.deferred.any fun d => d.r == r && match d.what with | .arrive c _ => c == b | _ => false
  let fill := match next with
    | some (.wfill _) | some (.mrd _) => s.releaseOwed r
    | _ => false
  let bar := match next with
    | some (.barInit o) => owed o.bar.val
    | some (.barArrive o) | some (.barWait o) | some (.barAw o) => owed o.bar.val
    | _ => false
  let swap := match next.bind matrixBank with
    | some b => (match s.bank? ⟨r.rid, r.elem, b⟩ with | some k => k.swap.isSome | none => false)
    | none => false
  (match next with | some i => x.awaits i | none => false) || s.rowsOf r || x.double.isSome || bar || swap || fill

/-- A context may be granted: one in RUN from the cycle behind its last word on, one in READY for the first word of its firing, unless the word waits for an earlier one (R107, R278). -/
def State.canIssue (s : State) (r : CtxRef) (x : Ctx) : Bool :=
  match x.st with
  | .ready => !s.interlocked r { x with pc := x.entry }
  | .run => !x.justRan && !s.interlocked r x
  | _ => false

/-! The grant (R278) -/

def State.ctxOf (s : State) (e : ElemRef) (c : Fin 8) : Ctx := (s.ctx? (e.ctx c.val)).getD {}

/-- The context that issues in this cycle, and the arbiter after it. A burst goes on under the weight it was granted with (R33). -/
def arbiter (t : Tile) (can : Fin 8 → Bool) : Option (Fin 8) × Tile :=
  let close (t : Tile) (h : Fin 8) : Tile :=
    if t.limit ≤ t.burst then { t with ctxPtr := h + 1, holder := none } else t
  let search (t : Tile) : Option (Fin 8) × Tile :=
    match (List.finRange 8).find? fun i => can (t.ctxPtr + i) with
    | some i =>
      let c := t.ctxPtr + i
      (some c, close { t with holder := some c, burst := 1, limit := (t.weight.get c).toNat + 1, ctxPtr := c } c)
    | none => (none, t)
  match t.holder with
  | some h =>
    if can h && t.burst < t.limit then
      (some h, close { t with burst := t.burst + 1 } h)
    else search { t with ctxPtr := h + 1, holder := none }
  | none => search t

/-- A region whose contexts may fire. -/
def State.firing (s : State) (rid : Nat) : Bool :=
  match s.res? rid with | some rs => (rs.st == .resident || rs.st == .draining) && !rs.killed && !rs.closing | none => false

/-- A context takes part in its element's work: the element acts, or the context is a supervisor that the marker which froze the element leaves issuing (R340, R360). -/
def State.firesOn (s : State) (r : CtxRef) : Bool :=
  s.acts r.tile || match s.elem? r.tile with
    | some el => (match el.frozen with | some m => s.exempt r m | none => false)
    | none => false

/-! Fetch (R17, R70, R346) -/

/-- The window that a word names, with the sizes it accepts. -/
def winNeed : Instr → Option (Nat × (Window → Bool))
  | .wfill o => some (o.win, fun w => sizeOk w (eszBytes o.sz) o.d)
  | .wread o | .wupd o => some (o.win, fun w => sizeOk w (eszBytes o.sz) o.d)
  | .wshrink o => some (o.win, fun _ => true)
  | .wstat o => some (o.win, fun _ => true)
  | .wsave o => some (o.win, fun _ => true)
  | .wrest o => some (o.win, fun _ => true)
  | .vhist o => some (o.win, fun w => w.size == 4)
  | .mbld o | .mbldDiag o | .mbsp o => some (o.wb, fun w => w.size == 64)
  | .mroww o | .mrowwSp o => some (o.wb, fun w => w.size == 64)
  | .mscaleWindow o => some (o.wb, fun w => w.size == 64)
  | .mbias o => some (o.wb, fun w => w.size == 64)
  | .mrd o => some (o.wb, fun w => w.size == 64)
  | .mwr o => some (o.wb, fun w => w.size == 64)
  | _ => none

/-- The word names a window that its element has not configured (R69, R70). -/
def State.noWindow (s : State) (e : ElemRef) (i : Instr) : Bool :=
  match winNeed i with
  | some (w, _) => (match s.win? (e.win w) with | some d => d.cap == 0 | none => true)
  | none => false

/-- The word is for a supervisor and its context is none: it traps PRIV before it reads anything (R28, R68). -/
def denied (i : Instr) (x : Ctx) : Bool :=
  !x.sup && (i.supOnly || match i with
    | .smovRead o => sysReadS o.reg.toNat
    | .smovWrite o => sysWriteS o.reg.toNat
    | _ => false)

/-- A register that the word reads cannot be corrected (R346): its guard, which every word reads; its sources, where the word executes. -/
def readsBad (i : Instr) (x : Ctx) : Bool :=
  let (g, src) := i.uses
  g.reads.any x.bad.contains ||
    ((i.laneWise || x.guard0 g) && !denied i x && src.any x.bad.contains)

/-- A granted context's word (R70): the instruction with the state it runs in, or the state after its trap. What is no instruction traps ILLEGAL whatever its guard; a register that cannot be corrected traps the word that reads it (R346). -/
def State.fetch (s : State) (r : CtxRef) : State ⊕ (Instr × State) :=
  let s := { s with grant := none }
  match s.ctx? r with
  | none => .inl s
  | some x =>
    let s := { s with cur := r }
    match decode (s.wordAt r x.pc.toNat) with
    | .error _ => .inl (s.illegal r x)
    | .ok i =>
      if s.noWindow r.tile i then .inl (s.illegal r x)
      else if readsBad i x then .inl (s.trap r x tECC_UNCORR 0 0)
      else .inr (i, s)

/-! Slots a task's test counts (R231, R232) -/

/-- The words that take beats of a channel, with their meanings: end consumes those that its firing has left (R127). -/
def takeWord : Instr → Option (State → Out)
  | .recv o => some (execRecv o)
  | .vcvtChannel o => some (execVcvtChannel o)
  | .vsdcChannel o => some (execVsdcChannel o)
  | .mwrt o => some (execMwrt o)
  | .mrow o => some (execMrow o)
  | .mroww o => some (execMroww o)
  | .mrowwSp o => some (execMrowwSp o)
  | .end_ => some execEnd_
  | _ => none

/-- What the next word of a context takes of the element's channels, should it issue now. -/
def State.wordTakes (s : State) (r : CtxRef) (x : Ctx) : List (Nat × Nat × Bool) :=
  match (s.setCtx r { x with st := .run }).fetch r with
  | .inl _ => []
  | .inr (i, s) =>
    match takeWord i with
    | none => []
    | some f =>
      match f s with
      | .next t => (List.range 32).flatMap fun vc =>
          match s.chan? (r.tile.chan vc), t.chan? (r.tile.chan vc) with
          | some c, some d => (List.range (c.items.length - d.items.length)).map fun n => (vc, n, true)
          | _, _ => []
      | _ => []

/-- Every declared output's destination has its count of slots neither occupied nor reserved, counting those that the set of firings and the controllers empty in this cycle. -/
def State.slotsIn (s : State) (l : List Firer) (r : CtxRef) (x : Ctx) : Bool :=
  (List.finRange 32).all fun n => !x.outMask.getLsbD n.val ||
    match s.route? r.tile n.val with
    | some c => (match s.chan? c with
      | some y => y.taken + y.reserved + x.outRate.get n ≤ y.slots + emptied s l c + s.donesEmpty c
      | none => true)
    | none => true

/-- A context as IDLE and READY would follow the firing condition under a set of firings. -/
def State.readyIn (s : State) (l : List Firer) (r : CtxRef) (x : Ctx) : Ctx :=
  match x.st with
  | .idle => if s.firesOn r && s.inputsIn r x && s.slotsIn l r x && !s.adopting r.rid then { x with st := .ready } else x
  | .ready => if s.inputsIn r x && s.slotsIn l r x then x else { x with st := .idle }
  | _ => x

/-- What a tile's word takes in this cycle under a set of firings. -/
def State.tileTakes (s : State) (l : List Firer) (e : ElemRef) : Plan :=
  let at_ (c : Fin 8) : Ctx := s.readyIn l (e.ctx c.val) (s.ctxOf e c)
  let takes := match (arbiter ((s.tile? e).getD {}) fun c => s.canIssue (e.ctx c.val) (at_ c)).1 with
    | none => []
    | some c =>
      let x := at_ c
      s.wordTakes (e.ctx c.val) (if x.st = .ready then { x with pc := x.entry } else x)
  takesOnly takes

/-- Keep of a set what stands under it: an operator with its room, and of a tile what its word takes then. -/
def State.keepFirer (s : State) (l : List Firer) (f : Firer) : Option Firer :=
  if (tget s.ops f.1).isSome then s.keepOp l f else some (f.1, s.tileTakes l f.1)

/-- The tiles whose issue is still to come in this cycle. -/
def State.tilesToCome (s : State) : List ElemRef :=
  s.agenda.filterMap fun p => match p with | (.issueGrant, .elem e) => if s.firing e.rid then some e else none | _ => none

/-- The firings of what is left of this cycle with the takes of the tiles, this one's among them: those found where each tile's contexts have all their slots, cut down to those that stand, with what each tile takes among them (R232). -/
def State.firings (s : State) (e : ElemRef) : List Firer :=
  let ops := s.toCome.filterMap s.firer
  let tiles := e :: s.tilesToCome.filter (· ≠ e)
  let all : List Firer := s.chans.map fun p => (p.1.at, takesOnly ((List.range p.2.items.length).map fun n => (p.1.vc, n, true)))
  let l := ops ++ tiles.map fun t => (t, s.tileTakes all t)
  settleFirers s.keepFirer (10 * l.length) l

/-- Every declared output has its slots, counting those that operators, controllers and tasks empty in this cycle (R232). -/
def State.slotsFree (s : State) (r : CtxRef) (x : Ctx) : Bool := s.slotsIn [] r x || s.slotsIn (s.firings r.tile) r x

def State.canFire (s : State) (r : CtxRef) (x : Ctx) : Bool := s.inputsIn r x && s.slotsFree r x

/-- IDLE and READY follow the firing condition. -/
def State.readyGo (s : State) (e : ElemRef) : State :=
  (List.finRange 8).foldl (fun s c =>
    let r := e.ctx c.val
    match s.ctx? r with
    | none => s
    | some x =>
      match x.st with
      | .idle => if s.firesOn r && s.canFire r x && !s.adopting r.rid then s.setCtx r { x with st := .ready } else s
      | .ready => if s.canFire r x then s else s.setCtx r { x with st := .idle }
      | _ => s) s

/-- ctxctl and mark act behind every tile's issue of their cycle: a freeze finds its target behind the word that issues with it, and each command the state that those of lower TILE_ID have left (R133). -/
def isControl (i : Instr) : Bool :=
  match i with
  | .ctxctlFreeze _ | .ctxctlResume _ | .ctxctlKill _ | .ctxctlRestart _ | .markRound _ | .markCheckpoint _ | .markCut _ => true
  | _ => false

/-- A row of a tile's issue. -/
def isTileRow (p : Instr × StepArg) : Bool := match p.1 with | .issueGrant | .remoteArrival => true | _ => false

/-- Put a row behind the tiles' rows. -/
def behindTiles (p : Instr × StepArg) (l : List (Instr × StepArg)) : List (Instr × StepArg) :=
  let n := (l.reverse.dropWhile fun q => !isTileRow q).length
  l.take n ++ p :: l.drop n

/-- The place of a context in the order in which commands of a cycle act: TILE_ID, then its number (R133). -/
def State.ctlKey (s : State) (r : CtxRef) : Nat := 8 * (match s.elem? r.tile with | some e => e.tileId | none => 0) + r.ctx

/-- The target of a context's ctxctl word that a freeze of this cycle awaits behind its own word, which is still to come: the command finds it behind that word (R21, R133). -/
def State.ctlBehind (s : State) (r : CtxRef) : Option CtxRef :=
  match s.ctx? r with
  | none => none
  | some x =>
    let target : Option CtxRef := match decode (s.wordAt r x.pc.toNat) with
      | .ok (.ctxctlFreeze o) | .ok (.ctxctlResume o) | .ok (.ctxctlKill o) | .ok (.ctxctlRestart o) => s.ctlTarget r.rid (x.gs o.x)
      | _ => none
    match target with
    | none => none
    | some q => match s.ctx? q with
      | some y => if !y.freeze.isEmpty && s.agenda.contains (.issueGrant, .ctx q) && s.ctlKey r < s.ctlKey q then some q else none
      | none => none

/-- Put a context's row behind that of another, and behind those that stand there for an issuer before it. -/
def State.rowBehind (s : State) (r q : CtxRef) : List (Instr × StepArg) → List (Instr × StepArg)
  | [] => [(.issueGrant, .ctx r)]
  | p :: l =>
    if p == (.issueGrant, .ctx q) then
      let early (k : Instr × StepArg) : Bool := match k with | (.issueGrant, .ctx c) => s.ctlKey c < s.ctlKey r | _ => false
      p :: (l.takeWhile early ++ (.issueGrant, .ctx r) :: l.dropWhile early)
    else p :: s.rowBehind r q l

/-- The word of a granted context runs next; one of ctxctl or mark waits behind the issue of the other tiles. -/
def State.granted (s : State) (r : CtxRef) (x : Ctx) : State :=
  let control := match decode (s.wordAt r x.pc.toNat) with | .ok i => isControl i | .error _ => false
  if control && s.agenda.any isTileRow then { s with agenda := behindTiles (.issueGrant, .ctx r) s.agenda }
  else { s with grant := some r }

/-- A tile's issue grant of this cycle: the granted context's word runs next (R21, R32, R278), behind the deferred arrivals of the contexts up to it (R27, R188); for a context, the grant that stood behind the tiles, and stands behind the word of its target where a freeze of the cycle awaits that word (R133). -/
def execIssueGrant (s : State) : Out :=
  match s.arg with
  | .elem e =>
    match s.tile? e with
    | none => .next s
    | some _ =>
      if !s.firing e.rid then .next s
      else
        let s := s.readyGo e
        let t := (s.tile? e).getD {}
        let (g, t) := arbiter t fun c => s.canIssue (e.ctx c.val) (s.ctxOf e c)
        let s := { s with tiles := tput s.tiles e t }
        match g with
        | none => .next s
        | some c =>
          let r := e.ctx c.val
          let s := s.tileArrivals e (c.val + 1)
          match s.ctx? r with
          | none => .next s
          | some x =>
            if x.st = .ready then
              let (s, x) := s.reserve r { x with st := .run, pc := x.entry }
              .next ((s.setCtx r x).granted r x)
            else .next (s.granted r x)
  | .ctx r =>
    let s := ((s.ctxs.map (·.1)).filter (· ≠ r)).foldl State.freezeDue s
    match s.ctx? r with
    | some x =>
      if x.st ≠ .run then .next s
      else match s.ctlBehind r with
        | some q => .next { s with agenda := s.rowBehind r q s.agenda }
        | none => .next { s with grant := some r }
    | none => .next s
  | _ => .next s

/-! The periodic step (R32) -/

/-- Beats in a context's declared channels, and their SLOTS. -/
def State.fillOf (s : State) (r : CtxRef) (x : Ctx) : Nat × Nat :=
  (List.finRange 32).foldl (fun (p : Nat × Nat) n =>
    if x.inMask.getLsbD n.val then
      match s.chan? (r.tile.chan n.val) with
      | some c => (p.1 + (c.items.filter (·.slot)).length, p.2 + c.slots)
      | none => p
    else p) (0, 0)

/-- The weight of a context after the periodic step. -/
def State.stepWeight (s : State) (e : ElemRef) (t : Tile) (c : Fin 8) : BitVec 4 :=
  let w := t.weight.get c
  match s.ctx? (e.ctx c.val) with
  | none => w
  | some x =>
    let (f, n) := s.fillOf (e.ctx c.val) x
    if n = 0 then w
    else if 3 * n < 4 * f then (if w.toNat < 15 then w + 1 else w)
    else if 4 * f < n then (if (t.floor.get c).toNat < w.toNat then w - 1 else w)
    else w

/-- The weights of a tile after the periodic step. The burst under way goes on under the holder's new weight (R278), unless a supervisor's write has changed that weight since the grant (R33). -/
def State.stepWeights (s : State) (e : ElemRef) (t : Tile) : Tile :=
  { t with
    weight := Vector.ofFn (s.stepWeight e t)
    limit := match t.holder with
      | some h => if t.limit = (t.weight.get h).toNat + 1 then (s.stepWeight e t h).toNat + 1 else t.limit
      | none => t.limit }

/-- A pending supervisor write of a tile takes effect (R33). -/
def State.applyPend (s : State) (e : ElemRef) (w : TileWrite) : State :=
  match w with
  | .slot i v => s.modTile e fun t =>
      { t with slotTable := (t.slotTable &&& ~~~((0xF : Word) <<< (4 * i.val))) ||| (v.setWidth 64 <<< (4 * i.val)) }
  | .weight c v => s.modTile e fun t => { t with weight := t.weight.set c.val v c.isLt }
  | .bar b v => let k : BarRef := ⟨e.rid, e.elem, b⟩; s.setBar k ((s.bar k).load v)

def TileWrite.isWeight : TileWrite → Bool
  | .weight .. => true
  | _ => false

/-- The supervisor writes of a tile that `p` names, of those that wait for the cycle boundary, take effect (R33). -/
def State.pendGo (s : State) (e : ElemRef) (p : TileWrite → Bool) : State :=
  match s.tile? e with
  | none => s
  | some t =>
    if t.pend.any p then
      ((t.pend.filter p).foldl (fun s w => s.applyPend e w) s).modTile e fun t => { t with pend := t.pend.filter fun w => !p w }
    else s

/-- The periodic step falls in this cycle. -/
def State.stepDue (s : State) (t : Tile) : Bool := t.loaded < s.cycle && (s.cycle - t.loaded) % 1024 == 0

/-- Every 1,024 cycles from load the weights follow the fill of the input channels, while the tile is on the fabric; a supervisor's write of the cycle prevails (R32, R33). -/
def execArbWeightStep (s : State) : Out :=
  match s.arg with
  | .elem e =>
    match s.tile? e with
    | none => .next s
    | some t =>
      if !s.stepDue t || !s.onFabric e.rid then .next s
      else .next (State.pendGo { s with tiles := tput s.tiles e (s.stepWeights e t) } e TileWrite.isWeight)
  | _ => .next s

end Sys2Proof.Machine
end

