-- ==== Sys2Proof/Machine/Image.lean ====
section
/-! DEFINITION. Images: frames, tasks, operators, generators and capabilities as the loader reads them, and its static checks (R69, R79-R102, R125, R162, R177, R178, R228-R230, R239-R241, R273, R279, R341). -/

namespace Sys2Proof.Machine

/-! Frames (R79) -/

/-- A frame at an offset of the image, in a configuration-context group. -/
def parseFrame (off : Nat) (bs : List Byte) (grp : Option Nat) : Frame :=
  let h := ofBytesLE (bs.take 8)
  let body := (bs.drop 8).take 24
  { kind := field h 63 60, sub := field h 59 48, elem := field h 47 32, crcOk := field h 31 0 == crc32c body,
    body := BitVec.ofNat 192 (ofBytesLE body), off := off, grp := grp }

/-- The frames up to END; a group header of a COMPAT image opens a group of the frames of KIND 0-3 and 6 behind it, and the SIG frames close it (R104). -/
def parseGo : Nat → Nat → List Byte → Option Nat → List Frame
  | 0, _, _, _ => []
  | n + 1, off, bs, g =>
    if bs.length < 32 then []
    else
      let f := parseFrame off (bs.take 32) g
      let g := if f.kind = 4 && f.sub = 0x0F0 then some f.elem else if f.kind = 5 then none else g
      let f := { f with grp := if f.kind ≤ 3 || f.kind = 6 then g else none }
      if f.kind = 7 then [f] else f :: parseGo n (off + 32) (bs.drop 32) g

/-- The header of a frame, as stored. -/
def frameBytes (bs : List Byte) (f : Frame) : List Byte := (bs.drop f.off).take 32

/-- An image read from its bytes. -/
def parseImage (bs : List Byte) : Image :=
  let fs := parseGo (bs.length / 32 + 1) 0 bs none
  let signed := (fs.filter fun f => f.kind ≠ 5).flatMap (frameBytes bs)
  let slot := match fs.find? fun f => f.kind == 5 && f.sub == 4 with | some f => field f.body.toNat 2 0 | none => 0
  { frames := fs, trailer := bs.drop (32 * fs.length), digest := Config.sha384 signed, keyslot := slot }

/-- The frames that describe one configuration: those of no group and those of a given one. A frame of KIND 0-3 or 6 ahead of the first group header is of no group, and so of every configuration: R104 says nothing of it (DESIGN CHOICE, log 58). -/
def Image.view (im : Image) (g : Option Nat) : Image :=
  { im with frames := (im.frames.filter fun f => f.grp.isNone || f.grp == g).map fun f => { f with grp := none } }

/-- The identifiers of the configuration contexts. -/
def Image.groups (im : Image) : List Nat := (im.frames.filter fun f => f.kind == 4 && f.sub == 0x0F0).map (·.elem)

/-- Each configuration of an image: itself, or one per group. -/
def Image.views (im : Image) : List Image := if im.groups.isEmpty then [im] else im.groups.map fun g => im.view (some g)

def Image.fr (im : Image) (kind elem sub : Nat) : Option Frame :=
  im.frames.find? fun f => f.kind == kind && f.elem == elem && f.sub == sub
/-- A body, 0 where no such frame stands. -/
def Image.body (im : Image) (kind elem sub : Nat) : Nat := match im.fr kind elem sub with | some f => f.body.toNat | none => 0
/-- Offset of a frame, as an error record names it; where no such frame stands, of the first of its kind and element, or of its element (log 67). -/
def Image.offOf (im : Image) (kind elem sub : Nat) : Nat :=
  match [im.fr kind elem sub, im.frames.find? fun f => f.kind == kind && f.elem == elem, im.frames.find? (·.elem == elem)].findSome? id with
  | some f => f.off
  | none => 0

/-! The main header (R94) -/

def Image.main (im : Image) : Nat := im.body 4 0 0
def Image.edges (im : Image) : Nat := field im.main 191 176
def Image.ranges (im : Image) : Nat := field im.main 175 160
def Image.ncaps (im : Image) : Nat := field im.main 159 152
def Image.isls (im : Image) : Nat := field im.main 151 144
def Image.nelems (im : Image) : Nat := field im.main 143 128
def Image.batch (im : Image) : Nat := field im.main 111 96
def Image.prio (im : Image) : Nat := field im.main 89 88
def Image.ndies (im : Image) : Nat := field im.main 87 80
def Image.height (im : Image) : Nat := field im.main 79 72
def Image.width (im : Image) : Nat := field im.main 71 64
def Image.compat (im : Image) : Bool := bitOf im.main 49
def Image.racy (im : Image) : Bool := bitOf im.main 48

/-! Elements (R82) -/

def isElemFrame (f : Frame) : Bool := f.kind ≤ 3 || f.kind == 6
/-- The elements that frames name, ascending: the order of frames has no effect (R81). -/
def Image.elemNums (im : Image) : List Nat := sortBy (fun a b => a < b) ((im.frames.filter isElemFrame).map (·.elem)).eraseDups

/-- The kinds that an element's frames make it. -/
def Image.kindsOf (im : Image) (e : Nat) : List EKind :=
  let has (k : Nat) : Bool := im.frames.any fun f => f.kind == k && f.elem == e
  (if has 0 then [EKind.tile] else []) ++ (if has 1 then [EKind.mu] else []) ++
  (if bitOf (im.body 2 e 0) 136 then [EKind.edge] else []) ++
  (if (im.fr 2 e 0x100).isSome && !has 0 && !has 1 then [EKind.op] else [])

def Image.kindOf (im : Image) (e : Nat) : Option EKind :=
  match im.kindsOf e with | [k] => some k | _ => none

/-! Channels and routes (R83, R86, R87) -/

/-- The slot byte of a channel. -/
def Image.slotByte (im : Image) (e vc : Nat) : Nat :=
  im.body 2 e (if vc < 16 then 0 else 1) / 2 ^ (8 * (vc % 16)) % 2 ^ 8
def Image.en (im : Image) (e vc : Nat) : Bool := bitOf (im.slotByte e vc) 7
def Image.slots (im : Image) (e vc : Nat) : Nat := im.slotByte e vc % 2 ^ 7

/-- The format entry of a tile's channel: FMT, SCALE. An entry whose EN is 0 is absent (R23, R83; DEDUCED, log 62). -/
def Image.fmtEntry (im : Image) (e vc : Nat) : Nat × Nat :=
  match im.fr 0 e (1 + vc / 8) with
  | some f => let x := f.body.toNat / 2 ^ (24 * (vc % 8)); if bitOf x 13 then (field x 12 8, field x 7 0) else (0, 0x7F)
  | none => (0, 0x7F)

/-- The window that a channel's fill port is bound to. -/
def Image.portOf (im : Image) (e vc : Nat) : Option Nat :=
  let (k, sub) := if im.kindOf e = some .mu then (1, 1 + vc / 16) else (0, 9 + vc / 16)
  let b := im.body k e sub / 2 ^ (8 * (vc % 16)) % 2 ^ 8
  if bitOf b 7 then some (if k = 1 then b % 2 ^ 6 else b % 2 ^ 4) else none

/-- The valid routes of an element: output, destination. -/
def Image.routes (im : Image) (e : Nat) : Tbl Nat Route :=
  (List.range 32).filterMap fun oc =>
    let b := im.body 2 e (0x10 + oc)
    if bitOf b 21 then some (oc, { delem := b % 2 ^ 16, dvc := field b 20 16, comp := field b 23 22 }) else none

def Image.route (im : Image) (e oc : Nat) : Option Route := tget (im.routes e) oc

/-! Windows (R24, R83, R85) -/

def descOf (b : Nat) : Window :=
  { base := BitVec.ofNat 18 b, esz := if h : field b 20 18 < 6 then ⟨field b 20 18, h⟩ else 5, cap := BitVec.ofNat 16 (field b 39 24),
    resv := BitVec.ofNat 18 (field b 89 72), multi := bitOf b 105 }

def Image.winFrame (im : Image) (e w : Nat) : Option Frame :=
  if im.kindOf e = some .mu then im.fr 1 e (0x40 + w) else im.fr 0 e (0x30 + w)
def Image.win (im : Image) (e w : Nat) : Window :=
  match im.winFrame e w with | some f => descOf f.body.toNat | none => {}
def Image.winCount (im : Image) (e : Nat) : Nat := match im.kindOf e with | some .tile => 16 | some .mu => 64 | _ => 0
def Image.wins (im : Image) (e : Nat) : List (Nat × Window) :=
  ((List.range (im.winCount e)).map fun w => (w, im.win e w)).filter fun p => p.2.cap ≠ 0

/-! Tasks (R84) -/

structure Task where
  elem : Nat
  ctx : Nat
  off : Nat
  entry : Nat
  sup : Bool
  weight : Nat
  floor : Nat
  loopMax : Nat
  trips : Nat
  inMask : Nat
  outMask : Nat
  swen : Bool
  swin : Nat
  inRate : List Nat
  outRate : List Nat
  binds : List Nat

def rateOf (b n : Nat) : Nat := let c := b / 2 ^ (6 * n) % 2 ^ 6; if c = 0 then 64 else c

/-- The task of a context (R84). Where its rate or binding frame is absent the fields are those of a body of zeros, so each declared rate is 64 (DESIGN CHOICE, log 73). -/
def Image.taskOf (im : Image) (e c : Nat) : Option Task :=
  match im.fr 0 e (0x10 + c) with
  | none => none
  | some f =>
    let b := f.body.toNat
    if !bitOf b 17 then none
    else some {
      elem := e, ctx := c, off := f.off, entry := field b 11 0, sup := bitOf b 16, weight := field b 27 24, floor := field b 31 28,
      loopMax := field b 63 32, trips := field b 95 64, inMask := field b 127 96, outMask := field b 159 128,
      swen := bitOf b 164, swin := field b 163 160,
      inRate := (List.range 32).map (rateOf (im.body 0 e (0x18 + c))), outRate := (List.range 32).map (rateOf (im.body 0 e (0x20 + c))),
      binds := (List.range 16).map fun j => im.body 0 e (0x28 + c) / 2 ^ (8 * j) % 2 ^ 8 }

def Image.tasksOf (im : Image) (e : Nat) : List Task := (List.range 8).filterMap (im.taskOf e)
def Image.tasks (im : Image) : List Task := im.elemNums.flatMap im.tasksOf

/-- The word of a pc, with the offset of its frame; none where the image does not supply it. -/
def Image.wordOf (im : Image) (e pc : Nat) : Option (Word × Nat) :=
  if 4096 ≤ pc then none
  else (im.fr 6 e (pc / 3)).map fun f => (BitVec.ofNat 64 (f.body.toNat / 2 ^ (64 * (pc % 3))), f.off)

/-- The words of a task from its entry to the first end: pc, frame offset, instruction; the flag says that the end was reached. -/
def Image.bodyGo (im : Image) (e : Nat) : Nat → Nat → List (Nat × Nat × Instr) × Bool
  | 0, _ => ([], false)
  | n + 1, pc =>
    match im.wordOf e pc with
    | none => ([], false)
    | some (w, off) =>
      match decode w with
      | .error _ => ([], false)
      | .ok .end_ => ([(pc, off, .end_)], true)
      | .ok i => let (l, ok) := im.bodyGo e n (pc + 1); ((pc, off, i) :: l, ok)

def Image.taskBody (im : Image) (t : Task) : List (Nat × Nat × Instr) × Bool := im.bodyGo t.elem 4096 t.entry

/-! Operators (R88) and generators (R89) -/

def Image.opOf (im : Image) (e : Nat) : Option OpSt :=
  (im.fr 2 e 0x100).map fun f =>
    let b := f.body.toNat
    { opc := field b 3 0, ina := field b 12 8, inb := field b 17 13, ctl := field b 22 18, param := field b 63 32,
      value := BitVec.ofNat 64 (field b 127 64),
      outs := (List.range 4).map fun i => let o := b / 2 ^ (128 + 8 * i) % 2 ^ 8; if bitOf o 7 then some (o % 2 ^ 5) else none,
      depth := field b 167 160 }

/-- A signed 40-bit field. -/
def signed40 (n : Nat) : Int := if 2 ^ 39 ≤ n then (n : Int) - 2 ^ 40 else n

/-- Generator g of an element (R89); its channel is filled in at placement, its capability from the table. Where part 1 or 2 is absent the loops are those of a body of zeros: COUNT 1, STRIDE 0 (DESIGN CHOICE, log 73). -/
def Image.genOf (im : Image) (caps : List CapV) (e g : Nat) : Option Gen :=
  (im.fr 3 e (8 * g)).map fun f =>
    let b := f.body.toNat
    let loop (l : Nat) : Nat := im.body 3 e (8 * g + (if l < 3 then 1 else 2)) / 2 ^ (64 * (l % 3)) % 2 ^ 64
    let own := im.kindOf e = some .mu && field b 15 8 = 0xFF
    { write := field b 1 0 == 1, esz := field b 4 2, col := field b 7 5, cap := (caps[field b 15 8]?).getD {},
      win := if own then some (field b 69 64) else none, idx := if bitOf b 21 then some (field b 20 16) else none,
      nloops := field b 24 22, counts := (List.range 5).map fun l => field (loop l) 23 0 + 1,
      strides := (List.range 5).map fun l => signed40 (field (loop l) 63 24), offset := if own then 0 else field b 103 64,
      pelem := field b 143 128, pvc := field b 148 144, oc := 32 + g, eot := bitOf b 149, commut := bitOf b 150,
      quant := bitOf b 27, qfmt := field b 32 28, qhad := field b 34 33,
      hist := if bitOf b 37 then some (field b 175 160, field b 43 38) else none, comp := field b 26 25 }

/-- The elements and generators of an image, ascending. -/
def Image.genKeys (im : Image) : List (Nat × Nat) :=
  im.elemNums.flatMap fun e => ((List.range 4).filter fun g => (im.fr 3 e (8 * g)).isSome).map fun g => (e, g)

/-- Routes of an element with those of its read generators, which are routes too (R235), at 32 + generator. -/
def Image.allRoutes (im : Image) (e : Nat) : Tbl Nat Route :=
  im.routes e ++ (im.genKeys.filter (·.1 == e)).filterMap fun k =>
    match im.genOf [] e k.2 with
    | some g => if g.write then none else some (32 + k.2, { delem := g.pelem, dvc := g.pvc, comp := g.comp })
    | none => none

/-! Capability table (R96) -/

structure CapEntry where
  cap : CapV
  origin : Nat
  off : Nat

def Image.capAt (im : Image) (j : Nat) : CapEntry :=
  let b := im.body 4 0 (0x100 + j)
  { cap := { val := BitVec.ofNat 128 b, tag := true }, origin := field b 129 128, off := im.offOf 4 0 (0x100 + j) }

def Image.caps (im : Image) : List CapEntry := (List.range im.ncaps).map im.capAt

/-! Errors (R98) -/

structure LErr where
  code : Nat
  off : Nat
  elem : Nat := 0
  pc : Nat := 0
deriving DecidableEq, Repr

/-- The first failure of one check, in frame order. -/
def firstOff (l : List LErr) : Option LErr :=
  l.foldl (fun m e => match m with
    | none => some e
    | some f => if e.off < f.off then some e else some f) none

def errIf (b : Bool) (code off elem : Nat) : List LErr := if b then [{ code := code, off := off, elem := elem }] else []

/-- SUB values that a kind assigns (R80). -/
def subOk (f : Frame) : Bool :=
  let b := f.sub
  match f.kind with
  | 0 => b ≤ 0x0A || (0x10 ≤ b && b ≤ 0x3F)
  | 1 => b == 1 || b == 2 || (0x40 ≤ b && b ≤ 0x7F)
  | 2 => b ≤ 1 || (0x10 ≤ b && b ≤ 0x2F) || b == 0x100
  | 3 => b % 8 ≤ 2 && b < 32
  | 4 => b ≤ 3 || (0x10 ≤ b && b ≤ 0x1A) || (0x20 ≤ b && b ≤ 0x2F) || b == 0xF0 || (0x100 ≤ b && b ≤ 0x17F) ||
      (0x200 ≤ b && b ≤ 0x7FF)
  | 5 => b ≤ 4
  | 6 => b ≤ 1365
  | 7 => b == 0
  | _ => false

/-- The ordering edges: from range, to range, frame offset; three slots to a frame, those with VALID. -/
def Image.edgeList (im : Image) : List (Nat × Nat × Nat) :=
  (List.range 512).flatMap fun k => match im.fr 4 0 (0x600 + k) with
    | none => []
    | some f => (List.range 3).filterMap fun i =>
      let b := f.body.toNat / 2 ^ (64 * i)
      if bitOf b 32 then some (field b 15 0, field b 31 16, f.off) else none

/-- The first frame that breaks the order of R81, of n frames: 0 before the main header, 1 among the frames of step 2, 2 + k before SIG k, 7 before END, 8 behind it. -/
def orderGo (n : Nat) : Nat → List Frame → List LErr
  | st, [] => errIf (st ≠ 8) 2 (32 * n) 0
  | st, f :: fs =>
    let ok : Option Nat :=
      if st = 0 then (if f.kind = 4 && f.sub = 0 then some 1 else none)
      else if st = 1 && f.kind ≠ 5 then (if f.kind = 7 then none else some 1)
      else if f.kind = 5 && f.sub = max st 2 - 2 then some (max st 2 + 1)
      else if st = 7 && f.kind = 7 then some 8
      else none
    match ok with
    | some k => orderGo n k fs
    | none => [{ code := 2, off := f.off, elem := f.elem }]

/-- Kind, SUB, ELEM and order (R80, R81, R93). -/
def orderErrs (im : Image) : List LErr :=
  let fs := im.frames
  let n := fs.length
  let gen (f : Frame) : Bool := im.kindOf f.elem = some .mu || (im.kindOf f.elem = some .edge && f.sub < 8)
  fs.flatMap (fun f => errIf (7 < f.kind || !subOk f || ((f.kind == 4 || f.kind == 5 || f.kind == 7) && f.sub ≠ 0x0F0 && f.elem ≠ 0) ||
      (f.kind == 3 && !gen f) ||
      (f.kind == 4 && f.sub == 0x0F0 && (!im.compat || f.body.toNat % 2 ^ 16 ≠ f.elem))) 2 f.off f.elem) ++
  orderGo n 0 fs ++
  errIf (match fs.getLast? with | some f => field f.body.toNat 31 0 ≠ n | none => true) 2 (32 * (n - 1)) 0

/-- The counts and fields of the main header and its tables (R94-R97, R279). The trailer is all that stands behind END, so bytes beyond the declared length fail the image (DESIGN CHOICE between R81 and R94, log 67). -/
def headerErrs (im : Image) : List LErr :=
  let m := im.main
  let count (lo hi : Nat) : Nat := (im.frames.filter fun f => f.kind == 4 && lo ≤ f.sub && f.sub ≤ hi).length
  let trailer := im.body 4 0 1 % 2 ^ 64
  let hash := (im.body 4 0 2, im.body 4 0 3)
  let h := (Config.sha384 im.trailer).toNat
  -- the digest's bytes are big-endian, 24 to a frame
  let be (x : Nat) : Nat := ofBytesLE (bytesLE 24 x).reverse
  let isl (i : Nat) : Nat := im.islandByte i
  let nums := ((im.views.flatMap Image.elemNums)).eraseDups
  -- a frame of the island table that ISLS counts a handle in is absent
  let short := (List.range ((im.isls + 23) / 24)).any fun k => (im.fr 4 0 (0x10 + k)).isNone
  errIf (field m 31 0 ≠ 0x49445856 || field m 47 32 ≠ 1 || im.batch = 0 || im.ndies = 0 || 8 < im.ndies || im.width = 0 || 18 < im.width ||
      im.height = 0 || 18 < im.height || 128 < im.ncaps || 1024 < im.ranges) 2 0 0 ++
  errIf (nums.length ≠ im.nelems || nums.any (fun e => im.nelems ≤ e) || count 0x100 0x17F ≠ im.ncaps || count 0x200 0x5FF ≠ im.ranges ||
      im.edgeList.length ≠ im.edges || short) 2 0 0 ++
  errIf (trailer ≠ im.trailer.length || (im.trailer.length ≠ 0 && hash ≠ (be (h / 2 ^ 192), be (h % 2 ^ 192)))) 2 (im.offOf 4 0 1) 0 ++
  (List.range 256).flatMap (fun i => errIf (if i < im.isls then 7 ≤ isl i % 16 else isl i % 16 ≠ 0) 2
    (im.offOf 4 0 (0x10 + i / 24)) 0) ++
  -- two sparse handles of one unit differ in ORDERED (R296)
  (let sp := (List.range im.isls).filter fun i => isl i % 16 == 3
   (sp.zip (List.range sp.length)).flatMap fun p => (sp.zip (List.range sp.length)).flatMap fun q =>
     errIf (p.2 % 4 = q.2 % 4 && bitOf (isl p.1) 4 ≠ bitOf (isl q.1) 4) 2 (im.offOf 4 0 0x10) 0) ++
  (List.range 16).flatMap (fun i => match im.fr 4 0 (0x20 + i) with
    | some f => errIf (!poolParamsOk (f.body.toNat % 2 ^ 64) (f.body.toNat / 2 ^ 64 % 2 ^ 64)) 2 f.off 0
    | none => []) ++
  im.caps.flatMap (fun c =>
    let sp := c.cap.space
    let sharedHalf := 2 ^ 56 ≤ c.cap.base && c.cap.base + c.cap.length ≤ 2 ^ 57
    errIf (c.cap.asid ≠ 0 || c.origin = 3 || sp = 0 || 5 ≤ sp || (c.origin ≠ 0 && 3 ≤ sp) || (c.origin = 0 && sp ≤ 2 && !sharedHalf) ||
      (c.origin = 2 && c.cap.base ≠ 0) || (c.origin = 1 && im.trailer.length < c.cap.base + c.cap.length)) 2 c.off 0)

/-- Codes of descriptors and format entries outside their tables (R23, R24). -/
def codeErrs (im : Image) (e : Nat) : List LErr :=
  (List.range (im.winCount e)).flatMap (fun w => match im.winFrame e w with
    | some f => errIf (6 ≤ field f.body.toNat 20 18) 2 f.off e
    | none => []) ++
  (List.range 32).flatMap fun vc =>
    let (f, sc) := im.fmtEntry e vc
    -- the exponent of sd is -64 to +64
    errIf ((Ty.ofCode (BitVec.ofNat 5 f)).isNone || (f == Ty.sd.code.toNat && 64 < sc && sc < 192)) 2 (im.offOf 0 e (1 + vc / 8)) e

/-- Element kinds, codes, tile headers, rates, bindings, fill ports (R23, R24, R82-R86, R228, R230, R273, R341). -/
def tileErrs (im : Image) : List LErr :=
  im.elemNums.flatMap (codeErrs im) ++
  im.elemNums.flatMap (fun e =>
    let off := match im.frames.find? fun f => isElemFrame f && f.elem == e with | some f => f.off | none => 0
    let chunks := im.frames.any fun f => f.kind == 6 && f.elem == e
    errIf ((im.kindOf e).isNone || (chunks && im.kindOf e ≠ some .tile)) 2 off e) ++
  im.elemNums.flatMap (fun e =>
    if im.kindOf e ≠ some .tile then [] else
    let bound := field (im.body 0 e 0) 87 80
    (List.range 8).flatMap fun c => errIf (bitOf bound c ≠ (im.taskOf e c).isSome) 2 (im.offOf 0 e 0) e) ++
  im.tasks.flatMap (fun t =>
    let inB := im.body 0 t.elem (0x18 + t.ctx)
    let outB := im.body 0 t.elem (0x20 + t.ctx)
    errIf ((t.trips = 0 && t.inMask = 0) || t.loopMax = 0 || t.binds.any fun b => bitOf b 7 && im.ncaps ≤ b % 2 ^ 7) 2 t.off t.elem ++
    errIf (t.swen && (!t.sup || (im.win t.elem t.swin).size ≠ 64 || (im.win t.elem t.swin).cap = 0)) 2 t.off t.elem ++
    (List.range 32).flatMap fun n =>
      errIf (!bitOf t.inMask n && inB / 2 ^ (6 * n) % 2 ^ 6 ≠ 0) 2 (im.offOf 0 t.elem (0x18 + t.ctx)) t.elem ++
      errIf (!bitOf t.outMask n && outB / 2 ^ (6 * n) % 2 ^ 6 ≠ 0) 2 (im.offOf 0 t.elem (0x20 + t.ctx)) t.elem ++
      errIf (bitOf t.inMask n && (!im.en t.elem n || (im.portOf t.elem n).isSome || im.slots t.elem n < t.inRate.getD n 0)) 2 t.off t.elem ++
      errIf (bitOf t.outMask n && ((match im.route t.elem n with
        | some r => im.slots r.delem r.dvc < t.outRate.getD n 0
        | none => false) || (im.portOf t.elem n).isSome ||
        (im.tasksOf t.elem).any fun u => (u.ctx ≠ t.ctx && bitOf u.outMask n) || n == 24 + u.ctx)) 2 t.off t.elem) ++
  -- w15 of element 0 holds a batch
  errIf (im.kindOf 0 = some .tile && (im.win 0 15).cap ≠ 0 && (im.win 0 15).size = 64 && (im.win 0 15).cap.toNat < im.batch) 2
    (im.offOf 0 0 0x3F) 0 ++
  -- a fill port's route carries no done token
  im.elemNums.flatMap (fun e => (List.range 32).flatMap fun n =>
    let done := match im.kindOf e with
      | some .tile => 24 ≤ n && (im.taskOf e (n - 24)).isSome
      | some .mu => 28 ≤ n && (im.fr 3 e (8 * (n - 28))).isSome
      | _ => false
    errIf ((im.portOf e n).isSome && (im.route e n).isSome && done) 2 (im.offOf 2 e (0x10 + n)) e)

/-- Inputs that an operator reads. -/
def opInputs (o : OpSt) : List Nat :=
  let mask := (List.range 32).filter fun n => o.value.getLsbD n
  match o.opc with
  | 0x2 => [o.ina, o.ctl] | 0x3 => [o.ina, o.inb, o.ctl] | 0x4 => [o.ina, o.inb] | 0x5 => [o.ina, o.inb, o.ctl]
  | 0x6 => mask | 0x7 => [o.ina, o.ctl] | 0x8 | 0x9 | 0xA => mask | 0xB => [] | _ => [o.ina]

/-- Outputs that an operator can send on (R88): its valid outs, as many as its code uses, and a controller's permits. -/
def opOutputs (o : OpSt) : List Nat :=
  let used : Nat := match o.opc with | 0x1 | 0xE => 4 | 0x2 | 0x5 => 2 | 0xC => 0 | _ => 1
  let outs := (o.outs.take used).filterMap id
  let kids := ((List.range 32).filter fun n => o.value.getLsbD n).length
  let pbase := field o.value.toNat 36 32
  match o.opc with
  | 0x8 | 0x9 | 0xA => outs ++ (List.range kids).map (pbase + ·)
  | _ => outs

/-- Switches, operators, generators, routes (R87-R89, R230, R236, R240). -/
def switchErrs (im : Image) : List LErr :=
  im.elemNums.flatMap (fun e =>
    (List.range 32).flatMap (fun n => errIf (64 < im.slots e n) 2 (im.offOf 2 e (if n < 16 then 0 else 1)) e) ++
    (im.allRoutes e).flatMap (fun r =>
      let off := if r.1 < 32 then im.offOf 2 e (0x10 + r.1) else im.offOf 3 e (8 * (r.1 - 32))
      let twice := im.elemNums.any fun e2 => (im.allRoutes e2).any fun q => (e2, q.1) ≠ (e, r.1) && q.2.delem == r.2.delem && q.2.dvc == r.2.dvc
      errIf (r.2.comp = 3 || !im.en r.2.delem r.2.dvc || twice) 2 off e) ++
    (match im.opOf e with
      | none => []
      | some o =>
        let bad := o.opc = 0xF || (o.opc = 0xE && !im.compat) || (o.opc = 0xD && o.param = 0) ||
          ((o.opc = 0x8 || o.opc = 0x9 || o.opc = 0xA) && o.param = 0) || (o.opc = 0x9 && o.depth = 0)
        errIf (bad || (opInputs o).any fun n => !im.en e n) 2 (im.offOf 2 e 0x100) e) ++
    -- a stream names a streamer handle or none (ISL 0); another edge element names a handle in use (log 12)
    (if im.kindOf e = some .edge then
      let h := field (im.body 2 e 0) 135 128
      let kind := if h < im.isls then im.islandByte h % 16 else 0
      errIf (if (im.fr 3 e 0).isSome then h ≠ 0 && kind ≠ 1 else kind = 0) 2 (im.offOf 2 e 0) e
    else [])) ++
  im.genKeys.flatMap fun k =>
    let b := im.body 3 k.1 (8 * k.2)
    let mu := im.kindOf k.1 = some .mu
    let kindOk := mu || (im.kindOf k.1 = some .edge && k.2 = 0)
    let cap := field b 15 8
    errIf (!kindOk || 2 ≤ field b 1 0 || 6 ≤ field b 4 2 || field b 24 22 = 0 || 5 < field b 24 22 || field b 36 35 ≠ 0 || field b 26 25 = 3 ||
      (bitOf b 27 && (quantFmt (field b 32 28)).isNone) || (bitOf b 150 && field b 1 0 = 1) ||
      im.body 3 k.1 (8 * k.2 + 2) / 2 ^ 128 ≠ 0 || (if cap = 0xFF then !mu else im.ncaps ≤ cap)) 2 (im.offOf 3 k.1 (8 * k.2)) k.1

/-- An element that frames of several groups make of more than one kind: R82 holds of the image as a whole too (R104). -/
def kindErrs (im : Image) : List LErr :=
  (im.views.flatMap Image.elemNums).eraseDups.flatMap fun e =>
    let off := match im.frames.find? fun f => isElemFrame f && f.elem == e with | some f => f.off | none => 0
    errIf (1 < ((im.views.flatMap fun v => v.kindsOf e).eraseDups).length) 2 off e

/-- IMG_FORMAT. -/
def formatErr (im : Image) : Option LErr :=
  -- SWEN set by more than one task of the image, of whatever group (R341)
  let sups := (im.frames.filter fun f => f.kind == 0 && 0x10 ≤ f.sub && f.sub < 0x18 && bitOf f.body.toNat 17 && bitOf f.body.toNat 164)
  firstOff (orderErrs im ++ headerErrs im ++ kindErrs im ++ ((sups.drop 1).map fun f => { code := 2, off := f.off, elem := f.elem }) ++
    im.views.flatMap fun v => tileErrs v ++ switchErrs v)

def crcErr (im : Image) : Option LErr := firstOff (im.frames.flatMap fun f => errIf (!f.crcOk) 3 f.off f.elem)

/-- IMG_DUP: within a group; two group headers of one identifier (R80, R104). -/
def dupErr (im : Image) : Option LErr :=
  firstOff (im.frames.flatMap fun f =>
    errIf (im.frames.any fun g => g.off < f.off && g.kind == f.kind && g.elem == f.elem && g.sub == f.sub && g.grp == f.grp) 4 f.off f.elem)

/-- The signature r‖s (R92). -/
def Image.sig (im : Image) : List Byte := (List.range 4).flatMap fun i => bytesLE 24 (im.body 5 0 i)

/-- Images load in PROVISIONED and FIELD alone (R363). -/
def Life.loads : Life → Bool
  | .provisioned | .field => true
  | .blank | .retired => false

/-- SIG_BAD and SIG_KEY. In a life-cycle state in which no image loads none verifies: R363 names no code (DESIGN CHOICE, log 69). -/
def sigErr (s : State) (im : Image) : Option LErr :=
  let key := Config.fwImageKey s.sec.measurement im.keyslot
  let off := im.offOf 5 0 4
  if !s.sec.life.loads || !Config.ecdsaOk im.digest im.sig key then some { code := 5, off := im.offOf 5 0 0 }
  else match Config.keySlot im.keyslot with
    | none => some { code := 6, off := off }
    | some h => if s.sec.revoked.getLsbD im.keyslot || Config.sha384 key ≠ h then some { code := 6, off := off } else none

/-! Words (R69, R125, R162, R177, R178, R198) -/

/-- The island kind that a word needs. -/
def islNeed : Instr → Option (Byte × Nat)
  | .mreq o => some (o.isl, 1)
  | .cpy o => some (o.isl, 2)
  | .cpyq o | .gth o | .sct o => some (o.isl, 2)
  | .aadd o | .amin o | .amax o | .aand o | .aor o | .axor o | .axchg o => some (o.isl, 3)
  | .aaddF o | .aminF o | .amaxF o | .aandF o | .aorF o | .axorF o | .axchgF o => some (o.isl, 3)
  | .acas o => some (o.isl, 3)
  | .acasQ o => some (o.isl, 3)
  | .plq o | .plvec o | .plfuseLin o | .plfuseRrf o => some (o.isl, 4)
  | .plterm o => some (o.isl, 4)
  | .plrunOr o | .plrunAnd o | .plrunWand o => some (o.isl, 4)
  | .plabort o => some (o.isl, 4)
  | .plresume o => some (o.isl, 4)
  | .pins o => some (o.isl, 5)
  | .ptake o | .ptry o => some (o.isl, 5)
  | .pstat o | .pcfg o => some (o.isl, 5)
  | .xfill o | .xred o => some (o.isl, 6)
  | .xbar o => some (o.isl, 6)
  | _ => none

/-- Input channels and outputs that a word names. -/
def chanNeed : Instr → List Nat × List Nat
  | .recv o => ([o.vc], []) | .peek o => ([o.vc], []) | .vcset o => ([o.vc], []) | .mwrt o => ([o.vc], [])
  | .send o => ([], [o.oc]) | .tsamp o => ([], [o.oc]) | .brkptArmed o => ([], [o.oc]) | .ctok o => ([], [o.oc])
  | .vcvtChannel o => ([o.a], []) | .vsdcChannel o => ([o.a], [])
  | .mrow o => (o.vca.val :: (o.sch.toList.map (·.val)), [])
  | .mroww o | .mrowwSp o => (o.sch.toList.map (·.val), [])
  | .mout o => ([], [o.oc])
  | _ => ([], [])

/-- The bank that a word names (R22, R162). -/
def accNeed : Instr → Option Nat
  | .mbld o | .mbldDiag o | .mbsp o => some o.acc
  | .mrow o => some o.acc
  | .mroww o | .mrowwSp o => some o.acc
  | .mzero o => some o.acc
  | .mout o => some o.acc
  | .mscaleWindow o => some o.acc
  | .mscaleCode o => some o.acc
  | .mbias o => some o.acc
  | .mrd o => some o.acc
  | .mwr o => some o.acc
  | _ => none

/-- The bank profile: bank, B type, and whether the word is dense (R163). -/
def profile : Instr → Option (Nat × Ty × Bool)
  | .mbld o | .mbldDiag o => some (o.acc, o.bty, true)
  | .mbsp o => some (o.acc, o.bty, false)
  | .mrow o => some (o.acc, o.bty, true)
  | .mroww o => some (o.acc, o.bty, true)
  | .mrowwSp o => some (o.acc, o.bty, false)
  | _ => none

def Image.accOwner (im : Image) (e n : Nat) : Option Nat :=
  let b := im.body 0 e 0 / 2 ^ (64 + 4 * n) % 2 ^ 4
  if bitOf b 3 then some (b % 8) else none

/-- INIT of a barrier of a tile. -/
def Image.barInit (im : Image) (e b : Nat) : Nat := im.body 0 e (5 + b / 24) / 2 ^ (8 * (b % 24)) % 2 ^ 8

/-- The chunk words of an element in pc order: pc, frame offset, instruction. -/
def Image.chunkWords (im : Image) (e : Nat) : List (Nat × Nat × Instr) :=
  ((im.frames.filter fun f => f.kind == 6 && f.elem == e)).flatMap fun f =>
    (List.range 3).filterMap fun k => match decode (BitVec.ofNat 64 (f.body.toNat / 2 ^ (64 * k))) with
      | .ok i => some (3 * f.sub + k, f.off, i)
      | .error _ => none

/-- What an accumulator of a bank holds, as far as the words of the element say: true for INT32 (R163, R172). -/
def Image.bankInt? (im : Image) (e n : Nat) : Option Bool :=
  (im.chunkWords e).findSome? fun p => match profile p.2.2 with
    | some (b, ty, _) => if b == n then some !(ty.isFloat || ty.isSmall) else none
    | none => none

/-- A bank that no word with a B type names holds integers where a mout asks for an integer result, and else FP32: the spec gives it no type (DESIGN CHOICE, log 68). -/
def Image.bankInt (im : Image) (e n : Nat) : Bool :=
  (im.bankInt? e n).getD ((im.chunkWords e).any fun p => match p.2.2 with
    | .mout o => o.acc.val == n && (o.oty == .i32 || o.oty == .i16 || o.oty == .i8)
    | _ => false)

/-- What the loader asks of any word of a chunk beyond its encoding. -/
def Image.wordOk (im : Image) (e : Nat) (i : Instr) : Bool :=
  (match winNeed i with | some (w, ok) => (im.win e w).cap ≠ 0 && ok (im.win e w) | none => true) &&
  (match islNeed i with | some (h, k) => h.toNat < im.isls && im.islandByte h.toNat % 16 == k | none => true) &&
  (match i with
    | .barArrive o | .barAw o => im.barInit e o.bar.val ≠ 0
    | .barRemote o => im.kindOf o.target.toNat = some .tile
    | .mout o => otyOk (im.bankInt e o.acc) o.oty
    | _ => true)

/-- What the loader asks of the channels that a word of a task names: declared, and, where beats are read raw or as rows, bound to no fill port. -/
def Image.chanOk (im : Image) (t : Task) (i : Instr) : Bool :=
  let anyPort : Bool := match i with | .vcset _ | .vcvtChannel _ | .vsdcChannel _ => true | _ => false
  ((chanNeed i).1.all fun n => bitOf t.inMask n && (anyPort || (im.portOf t.elem n).isNone)) &&
  ((chanNeed i).2.all fun n => bitOf t.outMask n)

/-- The loops of a task: pc, counter, end pc (R125). -/
def loopsOf (l : List (Nat × Nat × Instr)) : List (Nat × Nat × Nat × Nat) :=
  l.filterMap fun p => match p.2.2 with | .loop o => some (p.1, p.2.1, o.lc.val, o.stop.toNat) | _ => none

def loopBad (l : List (Nat × Nat × Nat × Nat)) (last : Nat) (p : Nat × Nat × Nat × Nat) : Bool :=
  let (pc, _, lc, e) := p
  let around := l.filter fun q => q.1 < pc && pc ≤ q.2.2.2
  e ≤ pc || last ≤ e || around.any (fun q => q.2.2.1 == lc || q.2.2.2 ≤ e) || 1 < around.length

/-- IMG_ILLEGAL: a word of a chunk that is not an instruction, or at pc 4,096 or 4,097 another than nop, for which R91 names no code (DESIGN CHOICE, log 67); a task whose words are not all supplied, break a rule of their entries, or whose loops break R125. -/
def illegalErrs (im : Image) : List LErr :=
  (im.frames.filter (·.kind == 6)).flatMap (fun f =>
    (List.range 3).flatMap fun k =>
      let pc := 3 * f.sub + k
      let w : Word := BitVec.ofNat 64 (f.body.toNat / 2 ^ (64 * k))
      let bad : Bool := match decode w with
        | .ok i => if 4096 ≤ pc then i ≠ .nop else !im.wordOk f.elem i
        | .error _ => true
      if bad then [{ code := 7, off := f.off, elem := f.elem, pc := pc }] else []) ++
  im.tasks.flatMap (fun t =>
    let (l, ok) := im.taskBody t
    let stop := t.entry + l.length
    (if !ok && (im.wordOf t.elem stop).isNone then [{ code := 7, off := t.off, elem := t.elem, pc := stop }] else []) ++
    (l.filterMap fun p => if im.chanOk t p.2.2 then none else some { code := 7, off := p.2.1, elem := t.elem, pc := p.1 }) ++
    ((loopsOf l).filter (loopBad (loopsOf l) (stop - 1))).map fun p => { code := 7, off := p.2.1, elem := t.elem, pc := p.1 }) ++
  -- the profile of each bank
  im.elemNums.flatMap fun e =>
    let ws := (im.chunkWords e).filterMap fun p => (profile p.2.2).map fun q => (p, q)
    ws.flatMap fun a => if ws.any fun b => b.1.1 < a.1.1 && b.2.1 == a.2.1 && (b.2.2.1 ≠ a.2.2.1 || b.2.2.2 ≠ a.2.2.2) then
      [{ code := 7, off := a.1.2.1, elem := e, pc := a.1.1 }] else []

/-- The first failing word of a list: of the first frame in frame order, in pc order (R69, R98). -/
def firstPc (l : List LErr) : Option LErr :=
  l.foldl (fun m e => match m with
    | none => some e
    | some f => if e.off < f.off || (e.off == f.off && e.pc < f.pc) then some e else some f) none

def accErrs (im : Image) : List LErr :=
  im.tasks.flatMap fun t => (im.taskBody t).1.filterMap fun p =>
    match accNeed p.2.2 with
    | some n => if im.accOwner t.elem n = some t.ctx then none else some { code := 8, off := p.2.1, elem := t.elem, pc := p.1 }
    | none => none

/-! Windows, slots, cycles (R25, R87, R99) -/

def winErrs (im : Image) : List LErr :=
  im.elemNums.flatMap fun e =>
    let ws := im.wins e
    let words := if im.kindOf e = some .mu then 139264 else 17408
    ws.flatMap fun p =>
      let w := p.2
      let b := w.base.toNat
      let r := w.resv.toNat
      errIf (r * 32 < w.cap.toNat * w.size || words < b + r ||
        ws.any fun q => q.1 < p.1 && q.2.base.toNat < b + r && b < q.2.base.toNat + q.2.resv.toNat) 9
        (match im.winFrame e p.1 with | some f => f.off | none => 0) e

def slotErrs (im : Image) : List LErr :=
  im.elemNums.flatMap fun e => errIf (512 < (List.range 32).foldl (fun a n => a + im.slots e n) 0) 0x0A (im.offOf 2 e 0) e

/-- Outputs that an element can produce after consuming from a channel: those of a task, its done token's among them (R239), or of an operator; a controller reads its CTL channel where that is enabled. -/
def Image.after (im : Image) (e vc : Nat) : List Nat :=
  ((im.tasksOf e).flatMap fun t =>
    if bitOf t.inMask vc then ((List.range 32).filter fun n => bitOf t.outMask n) ++ [24 + t.ctx] else []) ++
  (match im.opOf e with
    | some o =>
      let control := 0x8 ≤ o.opc && o.opc ≤ 0xA && o.ctl == vc && im.en e vc
      if (opInputs o).contains vc || control then opOutputs o else []
    | none => [])

/-- Channels one step further. -/
def Image.nexts (im : Image) (c : Nat × Nat) : List (Nat × Nat) :=
  (im.after c.1 c.2).filterMap fun oc => (im.route c.1 oc).map fun r => (r.delem, r.dvc)

/-- Every simple cycle through a first channel, by its channels. -/
def Image.cyclesGo (im : Image) (start : Nat × Nat) : Nat → List (Nat × Nat) → Nat × Nat → List (List (Nat × Nat))
  | 0, _, _ => []
  | n + 1, path, c =>
    (im.nexts c).flatMap fun d =>
      if d = start then [(c :: path)]
      else if path.contains d || d = c then []
      else im.cyclesGo start n (c :: path) d

def Image.channels (im : Image) : List (Nat × Nat) := im.elemNums.flatMap fun e => ((List.range 32).filter (im.en e)).map fun n => (e, n)
def Image.cycles (im : Image) : List (List (Nat × Nat)) :=
  im.channels.flatMap fun c => im.cyclesGo c (im.channels.length + 1) [] c

def Image.carries (im : Image) (l : List (Nat × Nat)) : Nat :=
  ((l.map (·.1)).eraseDups.filter fun e => match im.opOf e with | some o => o.opc == 5 | none => false).length

/-- CYCLE_ZERO, or CYCLE_SHORT. -/
def cycleErrs (im : Image) (zero : Bool) : List LErr :=
  im.cycles.flatMap fun l =>
    let n := l.foldl (fun a c => a + im.slots c.1 c.2) 0
    let e := (l.map (·.1)).foldl min 65535
    if zero then errIf (n = 0) 0x0B (im.offOf 2 e 0) e else errIf (n ≠ 0 && n < im.carries l + 1) 0x0C (im.offOf 2 e 0) e

/-! Types, patterns, orders, races (R90, R97, R100, R101) -/

def comboErrs (im : Image) : List LErr :=
  im.tasks.flatMap fun t => (im.taskBody t).1.filterMap fun p =>
    let bad : Bool := match p.2.2 with
      | .mrow o => (match Ty.ofCode (BitVec.ofNat 5 (im.fmtEntry t.elem o.vca).1) with | some a => !comboOk a o.bty | none => true)
      | .mroww o | .mrowwSp o => !comboOk o.aty o.bty
      | _ => false
    if bad then some { code := 0x0D, off := p.2.1, elem := t.elem } else none

/-- CAP_RANGE of a pattern (R90). -/
def rangeErrs (im : Image) (caps : List CapV) : List LErr :=
  im.genKeys.flatMap fun k =>
    match im.genOf caps k.1 k.2 with
    | none => []
    | some g =>
      if g.win.isSome then []
      else
        let g' := if g.idx.isSome then { g with counts := 1 :: g.counts.drop 1 } else g
        let (lo, hi) := g'.bounds
        errIf (lo < 0 || g.cap.length < hi.toNat || !g.cap.has (if g.write then pW else pR)) 0x0E (im.offOf 3 k.1 (8 * k.2)) k.1

/-- A declared range. -/
structure DRange where
  node : Nat
  cap : Nat
  wr : Bool
  start : Nat
  len : Nat
  off : Nat

/-- A declared range (R97). CAP and NODE are taken as they stand: of a CAP that is no entry of the table, or a NODE that is no task and no AGEN element, the rule says nothing, and the image is accepted, with an empty capability for the first (DESIGN CHOICE, log 73). -/
def Image.rangeAt (im : Image) (n : Nat) : DRange :=
  let b := im.body 4 0 (0x200 + n)
  { node := field b 15 0, cap := field b 23 16, wr := bitOf b 24, start := field b 103 64, len := field b 167 128, off := im.offOf 4 0 (0x200 + n) }
def Image.rangeList (im : Image) : List DRange := (List.range im.ranges).map im.rangeAt

/-- Elements reached by routes. -/
def Image.reachGo (im : Image) : Nat → List Nat → List Nat
  | 0, l => l
  | n + 1, l => im.reachGo n ((l ++ l.flatMap fun e => (im.allRoutes e).map (·.2.delem)).eraseDups)

/-- Outputs on which an element emits a done, end-of-tile or ctok token (R89, R197, R239). -/
def Image.emits (im : Image) (e : Nat) : List Nat :=
  let gens := (im.genKeys.filter (·.1 == e)).flatMap fun k =>
    (if bitOf (im.body 3 e (8 * k.2)) 149 then [32 + k.2] else []) ++ [if im.kindOf e = some .mu then 28 + k.2 else 31]
  gens ++ (im.tasksOf e).flatMap fun t => (24 + t.ctx) :: (im.taskBody t).1.filterMap fun p => match p.2.2 with
    | .ctok o => some o.oc.val
    | _ => none

/-- Targets of the barrier tokens that an element's tasks emit (R97, R190): each reaches its tile without a route. -/
def Image.barTargets (im : Image) (e : Nat) : List Nat :=
  (im.tasksOf e).flatMap fun t => (im.taskBody t).1.filterMap fun p => match p.2.2 with
    | .barRemote o => some o.target.toNat
    | _ => none

/-- A path begins at a token's output of an element, or with a barrier token at its target or on any route of the element, and reaches another by routes (R97). -/
def Image.backed (im : Image) (a b : Nat) : Bool :=
  let bars := im.barTargets a
  let first := ((im.emits a).filterMap fun oc => (tget (im.allRoutes a) oc).map (·.delem)) ++
    if bars.isEmpty then [] else bars ++ (im.allRoutes a).map (·.2.delem)
  (im.reachGo im.elemNums.length first).contains b

/-- EDGE_UNBACKED; an edge that names no declared range has no code of its own and takes this one (DESIGN CHOICE, log 67). -/
def edgeErrs (im : Image) : List LErr :=
  im.edgeList.flatMap fun p =>
    let a := (im.rangeAt p.1).node
    let b := (im.rangeAt p.2.1).node
    errIf (im.ranges ≤ p.1 || im.ranges ≤ p.2.1 || !im.backed a b) 0x0F p.2.2 a

/-- Ranges ordered after others, transitively. -/
def Image.ordGo (im : Image) : Nat → List Nat → List Nat
  | 0, l => l
  | n + 1, l => im.ordGo n ((l ++ im.edgeList.filterMap fun p => if l.contains p.1 then some p.2.1 else none).eraseDups)

/-- The races among declared ranges (R101). -/
def raceErrs (im : Image) (caps : List CapV) : List LErr :=
  let rs := im.rangeList.zip (List.range im.ranges)
  let va (r : DRange) : Nat × Nat × Nat :=
    let c := (caps[r.cap]?).getD {}
    (c.space, c.base + r.start, c.base + r.start + r.len)
  let ord (i j : Nat) : Bool := (im.ordGo im.ranges [i]).contains j
  rs.flatMap fun p => rs.flatMap fun q =>
    let a := va p.1
    let b := va q.1
    errIf (q.2 < p.2 && p.1.node ≠ q.1.node && p.1.len ≠ 0 && q.1.len ≠ 0 && (p.1.wr || q.1.wr) && a.1 = b.1 && a.2.1 < b.2.2 && b.2.1 < a.2.2 && !ord p.2 q.2 && !ord q.2 p.2)
      0x10 p.1.off p.1.node

/-! Shape (R98, R272, R277) -/

/-- Whether an edge element's stream goes to the hub (R296). -/
def Image.hubStream (im : Image) (e : Nat) : Bool := (im.capAt (field (im.body 3 e 0) 15 8)).cap.space ≠ 1
def Image.streams (im : Image) : List Nat := im.elemNums.filter fun e => im.kindOf e = some .edge && (im.fr 3 e 0).isSome
def Image.ofKind (im : Image) (k : EKind) : List Nat := im.elemNums.filter fun e => im.kindOf e = some k

/-- A site of a rectangle: die, x, y. -/
abbrev Spot := Nat × Nat × Nat

/-- Slots of an element's channels. -/
def Image.slotSum (im : Image) (e : Nat) : Nat := (List.range 32).foldl (fun a n => a + im.slots e n) 0

/-- One switch, or neighbouring ones (R233). -/
def Spot.near (p q : Spot) : Bool :=
  p.1 == q.1 && (p.2.1 - q.2.1) + (q.2.1 - p.2.1) + (p.2.2 - q.2.2) + (q.2.2 - p.2.2) ≤ 1

/-- A tile takes a site that no other tile has; an operator takes one whose switch has slots left, next to the operators with which a route joins it (R88, R233). -/
def Image.fits (im : Image) (done : List (Nat × Spot)) (e : Nat) (p : Spot) : Bool :=
  let op (e : Nat) : Bool := im.kindOf e == some .op
  let joined (a b : Nat) : Bool := (im.routes a).any (·.2.delem == b) || (im.routes b).any (·.2.delem == a)
  (op e || done.all fun d => op d.1 || d.2 ≠ p) &&
  done.foldl (fun a d => if d.2 = p then a + im.slotSum d.1 else a) (im.slotSum e) ≤ 512 &&
  done.all fun d => !(op e && op d.1 && joined e d.1) || Spot.near d.2 p

/-- A list from one of its places on, then what stands before. -/
def rotate {α : Type} (l : List α) (n : Nat) : List α := l.drop (n % l.length) ++ l.take (n % l.length)

/-- Tiles and operators dealt onto sites, each tried from a place that the device chooses; none where no deal fits. -/
def Image.deal (im : Image) (choice : Nat → Nat) (sites : List Spot) : Nat → List Nat → List (Nat × Spot) → Option (List (Nat × Spot))
  | _, [], done => some done
  | n, e :: es, done =>
    -- a tile is tried at the sites that are still free
    let free := if im.kindOf e = some .tile then sites.filter fun p => done.all fun d => d.2 ≠ p else sites
    (rotate free (choice n)).findSome? fun p => if im.fits done e p then im.deal choice sites (n + 1) es (done ++ [(e, p)]) else none

/-- The elements that stand at sites of the rectangles, tiles first. -/
def Image.dealt (im : Image) : List Nat := im.ofKind .tile ++ im.ofKind .op

/-- Sites of a rectangle. -/
def rectSpots (d x y w h : Nat) : List Spot := (List.range h).flatMap fun j => (List.range w).map fun i => (d, x + i, y + j)

/-- Some region of the device could hold the image; a streamer of each class is left on each die for requests (R286). -/
def shapeOk (im : Image) : Bool :=
  let d := im.ndies
  im.width ≤ 16 && im.height ≤ 16 && (im.ofKind .tile).length ≤ im.width * im.height * d && (im.ofKind .mu).length ≤ 32 * d &&
  (im.streams.filter fun e => !im.hubStream e).length ≤ 11 * d && (im.streams.filter im.hubStream).length ≤ 3 * d &&
  (im.deal (fun _ => 0) ((List.range d).flatMap fun k => rectSpots k 1 1 im.width im.height) 0 im.dealt []).isSome

/-! The checks in order (R98), and the warnings (R102) -/

/-- The capabilities of the table with their bases as checks see them: the entries of ORIGIN 1 and 2 stand apart from all others. -/
def Image.checkCaps (im : Image) : List CapV :=
  (im.caps.zip (List.range im.ncaps)).map fun p =>
    if p.1.origin = 0 then p.1.cap else p.1.cap.narrow (BitVec.ofNat 64 (2 ^ 58 + p.2 * 2 ^ 41)) p.1.cap.length

def firstSome {α : Type} : List (Option α) → Option α
  | [] => none
  | some a :: _ => some a
  | none :: l => firstSome l

/-- The first failing check of an image. -/
def imageErr (s : State) (im : Image) : Option LErr :=
  let each (f : Image → List LErr) : List LErr := im.views.flatMap f
  firstSome [formatErr im, crcErr im, dupErr im, sigErr s im, firstPc (each illegalErrs), firstOff (each accErrs), firstOff (each winErrs),
    firstOff (each slotErrs), firstOff (each fun v => cycleErrs v true), firstOff (each fun v => cycleErrs v false), firstOff (each comboErrs),
    firstOff (each fun v => rangeErrs v im.checkCaps), firstOff (each edgeErrs),
    if im.racy then none else firstOff (each fun v => raceErrs v im.checkCaps),
    if im.views.all shapeOk then none else some { code := 0x11, off := 0 }]

/-- Elements that a window word needs at least: its constant count, behind its offset where that is constant (R102, R226). -/
def extentOf (w : Window) : Instr → Nat
  | .wfill o => eszBytes o.sz / w.size
  | .wread o | .wupd o => (if o.a == 0 then o.imm.toNat else 0) + eszBytes o.sz / w.size
  | .wshrink o => if o.a == 0 then o.imm.toNat else 0
  | .vhist _ => 256
  | .mbld o => 16 * o.slot.val + 16
  | .mbldDiag o => o.slot.val + 1
  | .mbsp o => 32 * o.slot.val + 16 + maskElems o.bty
  | .mroww o => o.off.val + o.n.val
  | .mrowwSp o => o.off.val + 3 * o.n.val
  | .mscaleWindow o => o.off.toNat + 1
  | .mbias o => o.off.val + 1
  | .mrd o => o.n.val
  | .mwr o => o.off.val + o.n.val
  | _ => 0

/-- It exceeds the window's capacity. -/
def extentWarn (w : Window) (i : Instr) : Bool := w.cap.toNat < extentOf w i

/-- Declared fillers of a window: bound channels, and contexts with a wfill or mrd naming it. -/
def Image.fillers (im : Image) (e w : Nat) : Nat :=
  ((List.range 32).filter fun n => im.portOf e n == some w).length +
  ((im.tasksOf e).filter fun t => (im.taskBody t).1.any fun p => match p.2.2 with
    | .wfill o => o.win.val == w
    | .mrd o => o.wb.val == w
    | _ => false).length

/-- The warnings of an image, in the order found. -/
def warnings (im : Image) : List LErr :=
  im.views.flatMap fun v =>
    (v.tasks.flatMap fun t => (v.taskBody t).1.filterMap fun p =>
      match winNeed p.2.2 with
      | some (w, _) => if extentWarn (v.win t.elem w) p.2.2 then some { code := 0x80, off := p.2.1, elem := t.elem } else none
      | none => none) ++
    (v.elemNums.flatMap fun e => (v.wins e).flatMap fun p =>
      let off := match v.winFrame e p.1 with | some f => f.off | none => 0
      errIf ((List.range 32).any (fun n => v.portOf e n == some p.1) && p.2.cap.toNat < 64 / p.2.size) 0x80 off e ++
      errIf (1 < v.fillers e p.1) 0x81 off e) ++
    (if im.racy then (raceErrs v im.checkCaps).map fun e => { e with code := 0x82 } else [])

end Sys2Proof.Machine
end

