-- ==== Sys2Proof/Machine/Records.lean ====
section
/-! DEFINITION. The records of the save area, which the debug port also reads (R331-R334, R361). -/

namespace Sys2Proof.Machine

def w8 (n : Nat) : List Byte := bytesLE 8 n
def padTo (n : Nat) (bs : List Byte) : List Byte := (bs ++ List.replicate (n - bs.length) 0).take n
def wordsOf (l : List Nat) : List Byte := l.flatMap w8

/-- The state as it stood before a marker froze it, WAIT recorded as RUN (R332). -/
def Ctx.recState (x : Ctx) : CState :=
  if x.st = .frozen && (x.preempted || x.stopped) && !x.trapped && !x.byCtl then x.was else if x.st = .wait then .run else x.st

/-- The context record: 3,072 bytes (R332, R339). -/
def Ctx.record (x : Ctx) (savedAt : Nat) : List Byte :=
  let tags := fields ((List.range 16).map fun i => (i, match (x.c.toList)[i]? with | some c => boolNat c.tag | none => 0))
  let loop (l : LoopSlot) : Nat := fields [(0, l.start.toNat), (12, l.stop.toNat), (24, l.remaining.toNat % 2 ^ 32), (63, boolNat l.active)]
  let marks := fields [(0, match x.tsamp with | some o => o.val | none => 0), (5, boolNat x.tsamp.isSome),
    (6, match x.armed with | some a => a.1.val | none => 0), (11, boolNat x.armed.isSome), (32, match x.armed with | some a => a.2.1.toNat | none => 0)]
  let cap := match x.capture with | some c => (savedAt, c.outn) | none => (0, 0)
  padTo 3072 (
    (x.v.toList.flatMap beatBytes) ++ wordsOf (x.s.toList.map (·.toNat)) ++ (x.c.toList.flatMap fun c => bytesLE 16 c.val.toNat) ++
    -- k0 holds all ones (R18)
    wordsOf ((2 ^ 64 - 1) :: (x.k.toList.drop 1).map (·.toNat)) ++ wordsOf [(Ctx.stateWord { x with preempted := false } x.recState).toNat,
      fields [(0, tags), (16, boolNat x.awarr), (17, boolNat x.preempted)],
      fields [(0, (x.lc.get 0).toNat), (32, (x.lc.get 1).toNat)], loop (x.loops.get 0), loop (x.loops.get 1), x.flags.toNat,
      x.sra.seed.toNat, x.sra.ctr.toNat, x.srb.seed.toNat, x.srb.ctr.toNat, x.fireCnt.toNat, x.cycleCnt.toNat, x.loopMax.toNat, x.tripCnt.toNat,
      x.trapCode.toNat, x.info0.toNat, x.info1.toNat] ++
    wordsOf (x.pmc.toList.map (·.toNat)) ++ x.pmcSel.toList ++ (x.received.toList.map (BitVec.ofNat 8)) ++ (x.sent.toList.map (BitVec.ofNat 8)) ++
    wordsOf [x.reserved.toNat, marks, cap.1, cap.2])

/-- A B buffer: 16 beats, then 768 bytes of masks. -/
def BBuf.record (b : BBuf) : List Byte := padTo 1024 (b.cols.flatMap beatBytes) ++ padTo 768 b.masks

/-- An accumulator bank. -/
def Bank.record (b : Bank) : List Byte :=
  b.rows.toList.flatMap beatBytes ++ b.front.record ++ b.back.record ++ w8 b.mask.toNat ++ b.cscale.toList ++ w8 b.asc.toNat

/-- The element record of a tile, operator or generator holder (R333); fields shorter than a word take one each. -/
def State.elemRecord (s : State) (e : ElemRef) : List Byte :=
  let rs := (s.res? e.rid).getD {}
  let region := if e.elem = 0 then wordsOf [rs.dlQuiet.toNat, rs.traceCtl.toNat, rs.sampleRate.toNat] else []
  let tile := match s.tile? e with
    | none => []
    | some t =>
      ((List.range 4).flatMap fun n => ((s.bank? ⟨e.rid, e.elem, n⟩).getD {}).record) ++
      wordsOf ((List.range 96).map fun b => (s.bar ⟨e.rid, e.elem, b⟩).word.toNat) ++
      wordsOf ((List.range 96).map fun b => (s.bar ⟨e.rid, e.elem, b⟩).note.toNat) ++
      wordsOf (t.weight.toList.map (·.toNat)) ++ wordsOf [t.ctxPtr.val, t.slotTable.toNat, match t.holder with | some h => 8 + h.val | none => 0, t.burst]
  -- the counters of a join: the tokens that stand in each channel of its DONE mask
  let joins (o : OpSt) : List Nat :=
    if o.opc = 0x6 then o.doneChans.map fun vc => match s.chan? (e.chan vc) with | some x => x.items.length | none => 0 else []
  -- p_i and d_i of every child of a controller, permitted or not
  let kids (o : OpSt) (l : List Nat) : List Nat :=
    if 0x8 ≤ o.opc && o.opc ≤ 0xA then (List.range o.doneChans.length).map fun i => l.getD i 0 else []
  let op := match tget s.ops e with
    | some o => wordsOf ([o.remain, o.n, o.sent, boolNat o.looping] ++ joins o ++ [o.runs] ++ kids o o.p ++ kids o o.d)
    | none => []
  let gens := (s.gens.filter fun p => p.1.at == e).flatMap fun p =>
    ((List.range 5).flatMap fun l => bytesLE 4 (p.2.i.getD l 0)) ++ bytesLE 4 0 ++ w8 p.2.beats ++ w8 p.2.idxBeats
  let compat := match s.elem? e with
    | some el => (match el.active with | some g => w8 (g + 2 ^ 16) | none => [])
    | none => []
  region ++ tile ++ op ++ gens ++ compat

/-- A window record: the save record of R182 with room for CAP elements, so that late fills find their slots (R335), the tags of its 16-byte units as a bitmap with the header as unit 0, the state word (log 64). -/
def State.winRecord (s : State) (wr : WinRef) (w : Window) : List Byte :=
  let body := padTo (16 + w.cap.toNat * w.size) (saveHeader w ++ s.winBytes wr w 0 w.fill.toNat)
  let units := ceilDiv body.length 16
  let tag (u : Nat) : Bool := u ≠ 0 && 16 * u ≤ w.fill.toNat * w.size && s.recTag wr w (u - 1)
  let bits := fields ((List.range units).map fun u => (u, boolNat (tag u)))
  body ++ bytesLE (8 * ceilDiv units 64) bits ++ w8 (fields [(0, boolNat w.frozen), (1, boolNat w.multi)])

/-- A channel record: COUNT and the control-token counter (R234), the marks, the beats oldest first, with room for SLOTS of them (R335, log 64). -/
def Chan.record (c : Chan) (tokens : Nat) : List Byte :=
  let beats := c.items.filter (·.slot)
  let marks := fields ((beats.zip (List.range beats.length)).map fun p => (p.2, boolNat p.1.markB))
  padTo (16 + 64 * c.slots) (w8 (fields [(0, beats.length), (8, tokens)]) ++ w8 marks ++ beats.flatMap fun i => beatBytes i.beat)

def State.chanRecord (s : State) (c : ChanRef) : List Byte :=
  match s.chan? c with
  | some x => x.record (s.counter c x)
  | none => []

/-- Records with their offsets from a start. -/
def layOut (start : Nat) : List (List Byte) → List Nat
  | [] => []
  | r :: rs => start :: layOut (start + r.length) rs

/-- Elements, contexts, windows and channels of a residency in ascending order. -/
def State.elemOrder (s : State) (rid : Nat) : List Nat := sortBy (fun a b => a < b) ((s.elemsOf rid).map (·.1.elem))
def State.ctxOrder (s : State) (rid : Nat) : List CtxRef :=
  (s.elemOrder rid).flatMap fun e => ((List.range 8).map fun c => (⟨rid, e, c⟩ : CtxRef)).filter fun r =>
    match s.ctx? r with | some x => x.st != .unbound | none => false
def State.winOrder (s : State) (rid : Nat) : List WinRef :=
  (s.elemOrder rid).flatMap fun e => ((List.range 64).map fun w => (⟨rid, e, w⟩ : WinRef)).filter fun w => (s.win? w).isSome
def State.chanOrder (s : State) (rid : Nat) : List ChanRef :=
  (s.elemOrder rid).flatMap fun e => ((List.range 32).map fun v => (⟨rid, e, v⟩ : ChanRef)).filter fun c =>
    match s.chan? c with | some x => x.en | none => false

/-- A remap entry (R334). -/
def remapEntry (off index kind elem : Nat) : List Byte := bytesLE 16 (fields [(88, off), (40, index), (36, kind), (0, elem)])

/-- The records of a save area in the order of their kinds: contexts, elements, windows, channels (R331-R333). -/
structure Records where
  ctxs : List (List Byte)
  elems : List (List Byte)
  wins : List (List Byte)
  chans : List (List Byte)

def State.records (s : State) (rid now : Nat) : Records :=
  { ctxs := (s.ctxOrder rid).map fun r => ((s.ctx? r).getD {}).record now
    elems := (s.elemOrder rid).map fun e => s.elemRecord ⟨rid, e⟩
    wins := (s.winOrder rid).map fun w => s.winRecord w ((s.win? w).getD {})
    chans := (s.chanOrder rid).map s.chanRecord }

/-- Offsets of the records of each kind, and of the remap table behind them. -/
def Records.offs (r : Records) : List Nat := layOut 64 [r.ctxs.flatten, r.elems.flatten, r.wins.flatten, r.chans.flatten, []]

/-- The remap table: an entry for each window, channel and barrier of each element (R334). -/
def State.remapTable (s : State) (rid : Nat) (r : Records) : List (List Byte) :=
  let off (i : Nat) : Nat := r.offs.getD i 0
  let wo := (s.winOrder rid).zip (layOut (off 2) r.wins)
  let co := (s.chanOrder rid).zip (layOut (off 3) r.chans)
  let eo := (s.elemOrder rid).zip (layOut (off 1) r.elems)
  eo.flatMap fun e =>
    ((wo.filter fun p => p.1.elem == e.1).map fun p => remapEntry p.2 p.1.win 1 e.1) ++
    ((co.filter fun p => p.1.elem == e.1).map fun p => remapEntry p.2 p.1.vc 2 e.1) ++
    (if (s.tile? ⟨rid, e.1⟩).isSome then (List.range 96).map fun b => remapEntry e.2 b 3 e.1 else [])

/-- Address of the remap table of a region in its save area. -/
def State.remapBase (s : State) (rid : Nat) : Nat :=
  (match (s.res? rid).bind (·.saveArea) with | some a => a.1 | none => 0) + (s.records rid s.cycle).offs.getD 4 0

/-- The loader writes the base of a region's remap table into its generators: at placement (R89), and at SAVING (R334). -/
def State.setGenRemap (s : State) (rid : Nat) : State :=
  let base := s.remapBase rid
  { s with gens := tmap s.gens fun k g => if k.rid = rid then { g with remap := base } else g }

/-- The save area: header, records, remap table (R331-R334). -/
def State.saveImage (s : State) (rid now : Nat) : List Byte :=
  let rs := (s.res? rid).getD {}
  let r := s.records rid now
  let off (i : Nat) : Nat := r.offs.getD i 0
  let remap := s.remapTable rid r
  bytesLE 64 (fields [(0, 0x53445856), (32, 1), (80, rs.region), (96, rs.block), (112, rs.tag), (128, now), (224, r.elems.length),
    (240, r.ctxs.length), (256, off 0), (296, off 1), (336, off 2), (376, off 3), (416, remap.length), (432, off 4)]) ++
  r.ctxs.flatten ++ r.elems.flatten ++ r.wins.flatten ++ r.chans.flatten ++ remap.flatten

end Sys2Proof.Machine
end

