-- ==== Sys2Proof/Machine/Loader.lean ====
section
/-! DEFINITION. The loader: reading and writing memory, allocation, placement, building and freeing a residency (R19, R96, R266, R273, R285, R295-R297). -/

namespace Sys2Proof.Machine

/-! Memory as the loader sees it: ASID 0 (R294) -/

/-- Read page by page; the flag says that every byte was readable. -/
def State.loaderGo (s : State) (space : Nat) : Nat → Nat → Nat → List Byte → List Byte × Bool
  | 0, _, _, acc => (acc, false)
  | k + 1, va, n, acc =>
    if n = 0 then (acc, true)
    else
      let m := min n (2 ^ 16 - va % 2 ^ 16)
      if space = 3 then
        if 2 ^ 64 < va + m then (acc, false) else s.loaderGo space k (va + m) (n - m) (acc ++ s.host.read va m)
      else if 2 ^ 57 ≤ va then (acc, false)
      else match s.walk 0 (space == 2) ⟨false, false⟩ va with
        | .mapped p bulk _ _ _ _ _ =>
          let (bs, _, bad) := s.readPlace (.phys bulk p) m
          if bad || !physOk bulk p m then (acc, false) else s.loaderGo space k (va + m) (n - m) (acc ++ bs)
        | _ => (acc, false)

/-- Memory that the loader must read lies in GDDR in self-refresh, or tables on the way to it: it waits (R376). -/
def State.sleepsGo (s : State) (space : Nat) : Nat → Nat → Nat → Bool
  | 0, _, _ => false
  | k + 1, va, n =>
    n ≠ 0 && space ≠ 3 && va < 2 ^ 57 &&
    ((match s.walk 0 (space == 2) ⟨false, false⟩ va with
      | .mapped p bulk _ _ _ _ _ => !bulk && s.asleep p
      | .miss _ => false
      | .asleep => true) || s.sleepsGo space k (va + (2 ^ 16 - va % 2 ^ 16)) (n - (2 ^ 16 - va % 2 ^ 16)))

def State.loaderSleeps (s : State) (space va n : Nat) : Bool := s.selfRefresh ≠ 0 && s.sleepsGo space (n / 2 ^ 16 + 2) va n

/-- A generator's pattern is walked at the load, so a load waits for GDDR in self-refresh. -/
def State.patternsAsleep (s : State) (gs : List Gen) : Bool := s.selfRefresh ≠ 0 && gs.any s.genAsleep

def State.loaderRead (s : State) (space va n : Nat) : List Byte × Bool := s.loaderGo space (n / 2 ^ 16 + 2) va n []

/-- Write through an ASID's tables, page by page, each page's entry becoming dirty (R283); bytes of a page that is not mapped for writing are dropped. -/
def State.vaWriteGo (s : State) (asid : Nat) (bulk : Bool) : Nat → Nat → List Byte → State
  | 0, _, _ => s
  | k + 1, va, bs =>
    if bs.isEmpty then s
    else
      let m := 2 ^ 16 - va % 2 ^ 16
      let s := match s.walk asid bulk ⟨true, false⟩ va with
        | .mapped p b _ _ _ _ _ =>
          if physOk b p (bs.take m).length then (s.dirty asid bulk ⟨true, false⟩ va).writePlace (.phys b p) (bs.take m) [] else s
        | _ => s
      s.vaWriteGo asid bulk k (va + m) (bs.drop m)

def State.vaWrite (s : State) (asid : Nat) (bulk : Bool) (va : Nat) (bs : List Byte) : State :=
  s.vaWriteGo asid bulk (bs.length / 2 ^ 16 + 2) va bs

/-- The loader's write to a space, complete at system scope (R266). -/
def State.loaderWrite (s : State) (space va : Nat) (bs : List Byte) : State :=
  if space = 3 then { s with host := s.host.write va bs } else s.vaWrite 0 (space == 2) va bs

/-! Allocation (R96, R281) -/

/-- A frame handed out is zero and untagged. -/
def State.clearFrame (s : State) (bulk : Bool) (a n : Nat) : State :=
  let mem (m : Memory) : Memory := m.filter fun c => !(a ≤ c.1 && c.1 < a + n)
  let tags (t : List Nat) : List Nat := t.filter fun u => !(a ≤ 16 * u && 16 * u < a + n)
  if bulk then { s with bulk := mem s.bulk, bulkTags := tags s.bulkTags } else { s with gddr := mem s.gddr, gddrTags := tags s.gddrTags }

/-- A frame of 64 KiB of main or bulk memory for an ASID, zero and untagged; none where none is free. -/
def State.takeFrame (s : State) (asid : Nat) (bulk : Bool) : Option (Nat × State) :=
  (s.findOn bulk (2 ^ 16) (List.range (devCount bulk))).map fun a =>
    (a, State.clearFrame { s with nextAlloc := s.nextAlloc + 1, ledger := (asid, bulk, a) :: s.ledger } bulk a (2 ^ 16))

/-- Address of the level-5 entry of an address below a table, with the tables that are missing on the way made (R282): each in a frame of its own, wherever the loader finds one (log 7). -/
def State.leafFor (s : State) (asid va : Nat) : Nat → Nat → Nat → Option (Nat × State)
  | 0, _, _ => none
  | n + 1, lv, tbl =>
    let at_ := entryAt lv tbl va
    let e := s.gddr.word at_ 8
    if lv = 5 then some (at_, s)
    else if bitOf e 0 then s.leafFor asid va n (lv + 1) (field e 55 12 * 256)
    else match s.takeFrame asid false with
      | none => none
      | some (a, s) => State.leafFor { s with gddr := s.gddr.write at_ (bytesLE 8 (fields [(0, 1), (12, a / 256)])) } asid va n (lv + 1) a

/-- The root of an ASID's main or bulk table, made where it has none (R281). -/
def State.rootFor (s : State) (asid : Nat) (bulk : Bool) : Option (Nat × State) :=
  match tget s.roots (asid, bulk) with
  | some r => some (r, s)
  | none => (s.takeFrame asid false).map fun (p : Nat × State) => (p.1, { p.2 with roots := tput p.2.roots (asid, bulk) p.1 })

/-- Map one page of a launch half to a frame of its own; none while its tables lie in GDDR in self-refresh (R376). -/
def State.mapPage (s : State) (asid : Nat) (bulk : Bool) (p : Nat) : Option State :=
  if s.pageAsleep ⟨asid, bulk, p⟩ then none
  else (s.takeFrame asid bulk).bind fun (f : Nat × State) =>
    (f.2.rootFor asid bulk).bind fun (r : Nat × State) =>
      (r.2.leafFor asid (p * 2 ^ 16) 5 1 r.1).map fun (l : Nat × State) =>
        { l.2 with gddr := l.2.gddr.write l.1 (bytesLE 8 (Pte.word { frame := f.1, tgt := boolNat bulk })) }

/-- Map n pages from a virtual page on; none when no frame is free. -/
def State.mapGo (s : State) (asid : Nat) (bulk : Bool) : Nat → Nat → Option State
  | 0, _ => some s
  | n + 1, p => (s.mapPage asid bulk p).bind fun s => s.mapGo asid bulk n (p + 1)

/-- Allocate bytes of virtual memory of their own pages, holding `bs` and zeros behind. -/
def State.alloc (s : State) (asid : Nat) (bulk : Bool) (len : Nat) (bs : List Byte) : Option (Nat × State) :=
  let base := s.vaBump + Config.allocGap s.nextAlloc % 2 ^ 16 * 2 ^ 16
  let pages := ceilDiv len (2 ^ 16)
  let next := base + max 1 pages * 2 ^ 16
  if 2 ^ 56 < next then none
  else (State.mapGo { s with vaBump := next, nextAlloc := s.nextAlloc + 1 } asid bulk pages (base / 2 ^ 16)).map fun s =>
    (base, s.vaWrite asid bulk base bs)

/-- The bases of a capability table, with the allocations of ORIGIN 1 and 2 made. -/
def State.allocCaps (s : State) (asid : Nat) (trailer : List Byte) : List CapEntry → Option (List Nat × State)
  | [] => some ([], s)
  | c :: cs =>
    let one : Option (Nat × State) :=
      if c.origin = 0 then some (c.cap.base, s)
      else s.alloc asid (c.cap.space == 2) c.cap.length
        (if c.origin = 1 then (trailer.drop c.cap.base).take c.cap.length else [])
    match one with
    | none => none
    | some (b, s) => (s.allocCaps asid trailer cs).map fun (p : List Nat × State) => (b :: p.1, p.2)

/-- A capability under a launch's ASID. -/
def CapV.under (c : CapV) (asid base : Nat) : CapV :=
  { val := BitVec.ofNat 12 asid ++ ((c.val.extractLsb' 64 52) ++ BitVec.ofNat 64 base), tag := true }

/-- The capability table as a residency holds it. -/
def Image.capTable (im : Image) (asid : Nat) (bases : List Nat) : List CapV :=
  (im.caps.zip bases).map fun p => p.1.cap.under asid p.2

/-! Sites (R13, R14, R295) -/

/-- Residencies that hold sites. -/
def RState.holds : RState → Bool
  | .saved | .ended => false
  | _ => true

def State.holders (s : State) : List (Nat × Res) := s.ress.filter fun p => p.2.st.holds

/-- Rectangles on a die: x, y, width, height. -/
def State.rects (s : State) (d : Nat) : List (Nat × Nat × Nat × Nat) :=
  s.holders.flatMap fun p => (p.2.dies.filter (·.1 == d)).map fun q => (q.2.1, q.2.2, p.2.width, p.2.height)

/-- The lowest-y, then lowest-x, free rectangle of a die. -/
def State.freeRect (s : State) (d w h : Nat) : Option (Nat × Nat) :=
  if w = 0 || h = 0 || 16 < w || 16 < h then none
  else
    let used := s.rects d
    let all := (List.range (17 - h)).flatMap fun y => (List.range (17 - w)).map fun x => (x + 1, y + 1)
    all.find? fun p => used.all fun u => p.1 + w ≤ u.1 || u.1 + u.2.2.1 ≤ p.1 || p.2 + h ≤ u.2.1 || u.2.1 + u.2.2.2 ≤ p.2

/-- Elements of residencies that hold sites. -/
def State.sited (s : State) : List Elem :=
  (s.elems.filter fun p => match s.res? p.1.rid with | some rs => rs.st.holds | none => false).map (·.2)

/-- Free MU sites of a die at a distance from a rectangle's rows, west column first. -/
def State.musAt (s : State) (d y h k : Nat) : List (Nat × Nat × Nat) :=
  let dist (r : Nat) : Nat := if r < y then y - r else if y + h ≤ r then r - (y + h - 1) else 0
  let rows : List Nat := (List.range 16).filterMap fun r => if dist (r + 1) = k then some (r + 1) else none
  let sites := rows.map (fun r => (0, r)) ++ rows.map fun r => (17, r)
  (sites.filter fun p => !s.sited.any fun e => e.kind == .mu && e.die == d && e.x == p.1 && e.y == p.2).map fun p => (d, p.1, p.2)

/-- Free MU sites for rectangles of a height: the rows they span, then the nearest other rows (R295). -/
def State.freeMus (s : State) (rects : List (Nat × Nat × Nat)) (h : Nat) : List (Nat × Nat × Nat) :=
  (List.range 16).flatMap fun k => rects.flatMap fun r => s.musAt r.1 r.2.2 h k

/-- Port p's site (R14). -/
def portSite (p : Nat) : Nat × Nat := (p % 16 + 1, if p < 16 then 0 else 17)

/-- Ports of a die among `ps` that neither a stream nor the requests of a region hold (R286, R296) and whose link is in service (R348). -/
def State.freePorts (s : State) (d : Nat) (ps : List Nat) : List Nat :=
  let asked (r : Res) (p : Nat) : Bool := tget r.mainPort d == some p || tget r.hubPort d == some p
  ps.filter fun p => !s.linksDown.contains ⟨d, p⟩ && !(s.sited.any fun e => e.kind == .edge && e.die == d && e.port == p) &&
    !s.holders.any fun r => asked r.2 p

def gddrPorts : List Nat := List.range 12
def hubPorts : List Nat := [20, 21, 22, 23]

/-! Choosing dies (R295) -/

/-- Sublists of n members, in lexicographic order. -/
def combos : Nat → List Nat → List (List Nat)
  | 0, _ => [[]]
  | _ + 1, [] => []
  | n + 1, d :: ds => (combos n ds).map (d :: ·) ++ combos (n + 1) ds

def dieRows (ds : List Nat) : Nat := ((ds.map (· / 4)).eraseDups).length
def adjacency (ds : List Nat) : Nat := (ds.filter fun d => ds.contains (d + 1) && d / 4 == (d + 1) / 4).length

/-- The bridges that join the dies of a region are in service (R348). -/
def State.bridged (s : State) (ds : List Nat) : Bool :=
  let up (d : Nat) (ps : List Nat) : Bool := ps.all fun p => !s.linksDown.contains ⟨d, p⟩
  ds.all fun d =>
    (!(ds.contains (d + 1) && d / 4 == (d + 1) / 4) || (up d [28, 29] && up (d + 1) [26, 27])) &&
    (dieRows ds ≤ 1 || up d [30, 31])

/-- Main-memory pages that a generator's pattern reaches, with the device that holds each, be the page HELD or its entry DENIED; an indexed one reaches its whole capability. -/
def State.pagesOf (s : State) (g : Gen) : List (Nat × Nat) :=
  if g.cap.space ≠ 1 || g.win.isSome then []
  else g.reach.filterMap fun p => (s.homeOf g.cap.asid (p * 2 ^ 16)).map fun a => (p, devOf false a)

/-- Bytes of a stream's pages by device: device, bytes. -/
def State.deviceBytes (s : State) (g : Gen) : List (Nat × Nat) := (s.pagesOf g).map fun p => (p.2, 2 ^ 16)

/-- Bytes of the launch-half pages that streams reach, each page once (R295). -/
def State.launchBytes (s : State) (gs : List Gen) : List (Nat × Nat) :=
  ((gs.flatMap s.pagesOf).eraseDups.filter fun p => p.1 < 2 ^ 40).map fun p => (p.2, 2 ^ 16)

def bytesOn (l : List (Nat × Nat)) (f : Nat → Bool) : Nat := l.foldl (fun a p => if f p.1 then a + p.2 else a) 0

/-- The better of two choices of dies: fewer rows, more adjacency, more bytes; the first otherwise. -/
def betterDies (bytes : List (Nat × Nat)) (a b : List Nat) : List Nat :=
  let on (ds : List Nat) : Nat := bytesOn bytes fun v => ds.contains (v / 6)
  if dieRows b ≠ dieRows a then (if dieRows b < dieRows a then b else a)
  else if adjacency b ≠ adjacency a then (if adjacency a < adjacency b then b else a)
  else if on a < on b then b else a

/-- Dies for a region among those that are `up`, none where none can be granted: a die on which the links of the image's islands are down gets no region with those islands (R348, log 7). -/
def State.chooseDies (s : State) (n w h : Nat) (up : Nat → Bool) (bytes : List (Nat × Nat)) : Option (List Nat) :=
  let free := (List.range 8).filter fun d =>
    up d && (if hd : d < 8 then s.power.get ⟨d, hd⟩ == .run else false) && s.tripWait.isNone && s.powerCmd.all (fun c => c.die ≠ d) && (s.freeRect d w h).isSome
  match (combos n free).filter s.bridged with
  | [] => none
  | c :: cs => some (cs.foldl (betterDies bytes) c)

/-! A placement (R295, R296) -/

structure Site where
  elem : Nat
  die : Nat
  x : Nat
  y : Nat
  port : Nat := 0
deriving DecidableEq, Repr

structure Placement where
  dies : List (Nat × Nat × Nat)
  sites : List Site
  mainPort : Tbl Nat Nat
  hubPort : Tbl Nat Nat
  saveArea : Nat
  spills : List Nat
deriving DecidableEq, Repr

/-- Deal tiles and operators onto the sites of the rectangles; which takes which is the device's choice (log 7). -/
def State.dealSites (s : State) (im : Image) (sites : List Spot) : Option (List Site × State) :=
  (im.deal (fun n => Config.choice (s.serial + n)) sites 0 im.dealt []).map fun l =>
    (l.map fun p => { elem := p.1, die := p.2.1, x := p.2.2.1, y := p.2.2.2 }, { s with serial := s.serial + im.dealt.length })

/-- Bind streams to free ports in ascending element order: element, prefers, ports allowed. One port of each die stays free for requests (R286, R296). -/
def bindStreams : List (Nat × List (Nat × Nat) × List (Nat × Nat)) → List (Nat × Nat) → Option (List Site)
  | [], _ => some []
  | (e, pref, allowed) :: l, used =>
    let left := allowed.filter fun p => !used.contains p
    let ok (p : Nat × Nat) : Bool := left.contains p && 2 ≤ (left.filter (·.1 == p.1)).length
    match (pref ++ allowed).find? ok with
    | none => none
    | some p => (bindStreams l (p :: used)).map fun r =>
        { elem := e, die := p.1, x := (portSite p.2).1, y := (portSite p.2).2, port := p.2 } :: r

/-- The devices that hold a stream's pages, most bytes first. -/
def bestDevs (l : List (Nat × Nat)) : List Nat :=
  let ds := (l.map (·.1)).eraseDups
  sortBy (fun a b => bytesOn l (· == b) < bytesOn l (· == a)) ds

/-- Islands of other kinds (R296): handle, port. -/
def Image.islandPorts (im : Image) : List (Nat × Nat) :=
  let hs := List.range im.isls
  let kth (k h : Nat) : Nat := ((List.range h).filter fun i => im.islandByte i % 16 == k).length
  hs.filterMap fun h => match im.islandByte h % 16 with
    | 2 => some (h, if kth 2 h % 2 = 0 then 15 else 25)
    | 3 => some (h, 16 + kth 3 h % 4)
    | 4 => some (h, 12)
    | 5 => some (h, 14)
    | 6 => some (h, 24)
    | _ => none

/-- Bytes of the save area of an image: bounds on the records of R331 to R334. -/
def Image.saveSize (im : Image) : Nat :=
  2 ^ 16 + 2 ^ 20 * (im.ofKind .tile).length + 5 * 2 ^ 20 * (im.ofKind .mu).length + 2 ^ 17 * ((im.ofKind .edge).length + (im.ofKind .op).length)

/-- The save area and a spill area of each die (R287, R331). -/
def State.reserveAreas (s : State) (rid n : Nat) (ds : List Nat) : Option (Nat × List Nat) :=
  let devs (d : Nat) : List Nat := (List.range 6).map (d * 6 + ·)
  match s.findOn false n (devs (ds.headD 0)) with
  | none => none
  | some a =>
    let s := s.modRes rid fun rs => { rs with saveArea := some (a, n) }
    (ds.foldl (fun (acc : Option (List Nat × State)) d => acc.bind fun p =>
      (p.2.findOn false spillBytes (devs d)).map fun b =>
        (p.1 ++ [b], p.2.modRes rid fun rs => { rs with spills := rs.spills ++ [b] })) (some ([], s))).map fun p => (a, p.1)

/-- The request port of a die: the lowest of its free ports of a class that no stream of the region takes; none where there is none. -/
def State.requestPorts (s : State) (ds ports : List Nat) (edges : List Site) : Option (Tbl Nat Nat) :=
  let l := ds.filterMap fun d =>
    ((s.freePorts d ports).find? fun p => !edges.any fun e => e.die == d && e.port == p).map fun p => (d, p)
  if l.length = ds.length then some l else none

/-- The ports of an image's islands are in service on a die (R348). -/
def State.islandsUp (s : State) (im : Image) (d : Nat) : Bool := im.islandPorts.all fun p => !s.linksDown.contains ⟨d, p.2⟩

/-- Place an image for a residency whose record stands in the state, without sites; none where the region cannot be granted now. -/
def State.place (s : State) (rid : Nat) (im : Image) (caps : List CapV) : Option (Placement × State) :=
  let streams := im.streams
  let gen (e : Nat) : Option Gen := im.genOf caps e 0
  let bytes (e : Nat) : List (Nat × Nat) := match gen e with | some g => s.deviceBytes g | none => []
  if s.patternsAsleep (streams.filterMap gen) then none
  else match s.chooseDies im.ndies im.width im.height (s.islandsUp im) (s.launchBytes (streams.filterMap gen)) with
  | none => none
  | some ds =>
    let rects := ds.filterMap fun d => (s.freeRect d im.width im.height).map fun p => (d, p.1, p.2)
    let sites := rects.flatMap fun r => rectSpots r.1 r.2.1 r.2.2 im.width im.height
    let mus := s.freeMus rects im.height
    let allowed (ps : List Nat) : List (Nat × Nat) := ds.flatMap fun d => (s.freePorts d ps).map fun p => (d, p)
    let prefs (e : Nat) : List (Nat × Nat) := ((bestDevs (bytes e)).take 1).flatMap fun v => [(v / 6, 2 * (v % 6)), (v / 6, 2 * (v % 6) + 1)]
    let want := streams.map fun e => if im.hubStream e then (e, [], allowed hubPorts) else (e, prefs e, allowed gddrPorts)
    let muElems := im.ofKind .mu
    match s.dealSites im sites, bindStreams want [], s.reserveAreas rid im.saveSize ds with
    | some (tiles, s), some edges, some (save, spills) =>
      match s.requestPorts ds gddrPorts edges, s.requestPorts ds hubPorts edges with
      | some main, some hub =>
        if mus.length < muElems.length then none
        else
          let mu := (muElems.zip mus).map fun p => ({ elem := p.1, die := p.2.1, x := p.2.2.1, y := p.2.2.2 } : Site)
          let isl := im.islandPorts
          let die := ds.headD 0
          -- an edge element that is no stream stands at the port of its island
          let others := ((im.ofKind .edge).filter fun e => !streams.contains e).map fun e =>
            let p := (tget isl (field (im.body 2 e 0) 135 128)).getD ((tget main die).getD 0)
            ({ elem := e, die := die, x := (portSite p).1, y := (portSite p).2, port := p } : Site)
          some ({ dies := rects, sites := tiles ++ mu ++ edges ++ others, mainPort := main, hubPort := hub, saveArea := save,
                  spills := spills }, s)
      | _, _ => none
    | _, _, _ => none

/-! Building elements (R19, R22-R27, R83-R89) -/

/-- The instruction store: words that no chunk supplies hold 0. -/
def Image.store (im : Image) (e : Nat) : List Word :=
  (List.range 4096).map fun p => match im.wordOf e p with | some (w, _) => w | none => 0

def Image.tileOf (im : Image) (e now : Nat) : Tile :=
  let b := im.body 0 e 0
  let nib (f : Task → Nat) : Vector (BitVec 4) 8 := Vector.ofFn fun c => match im.taskOf e c.val with | some t => BitVec.ofNat 4 (f t) | none => 0
  { imem := im.store e, slotTable := BitVec.ofNat 64 b, accBind := BitVec.ofNat 64 (field b 79 64), weight := nib (·.weight),
    floor := nib (·.floor), loaded := now }

def Task.ctx_ (t : Task) (caps : List CapV) : Ctx :=
  { c := Vector.ofFn fun i => let b := t.binds.getD i.val 0
                              if bitOf b 7 then (caps[b % 2 ^ 7]?).getD {} else {}
    pc := BitVec.ofNat 12 t.entry, entry := BitVec.ofNat 12 t.entry, st := .idle, loopMax := BitVec.ofNat 64 t.loopMax,
    tripCnt := BitVec.ofNat 64 t.trips, sup := t.sup, inMask := BitVec.ofNat 32 t.inMask, outMask := BitVec.ofNat 32 t.outMask,
    inRate := Vector.ofFn fun i => t.inRate.getD i.val 64, outRate := Vector.ofFn fun i => t.outRate.getD i.val 64 }

def Image.chanOf (im : Image) (e vc : Nat) : Chan :=
  let f := im.fmtEntry e vc
  { en := im.en e vc, slots := im.slots e vc, fmt := BitVec.ofNat 5 f.1, scale := BitVec.ofNat 8 f.2, port := im.portOf e vc }

/-- The channel of an element from which its write generator takes: the end of the route that the far end names, else the lowest enabled one. -/
def Image.writeChan (im : Image) (e pelem pvc : Nat) : Nat :=
  match im.route pelem pvc with
  | some r => if r.delem = e then r.dvc else ((List.range 32).find? (im.en e)).getD 0
  | none => ((List.range 32).find? (im.en e)).getD 0

/-- The frames of a configuration context, ungrouped. -/
def Image.groupFrames (im : Image) (g : Nat) : List Frame :=
  (im.frames.filter fun f => f.grp == some g).map fun f => { f with grp := none }

/-- One element of a configuration, at its site. -/
def State.buildElem (s : State) (rid : Nat) (im : Image) (caps : List CapV) (grp : Option Nat) (st : Site) : State :=
  match im.kindOf st.elem with
  | none => s
  | some k =>
    let e : ElemRef := ⟨rid, st.elem⟩
    let el : Elem := { kind := k, die := st.die, x := st.x, y := st.y, port := st.port, isl := field (im.body 2 st.elem 0) 135 128,
                       routes := im.allRoutes st.elem, active := grp,
                       cache := grp.toList.map fun g => (g, (s.res? rid |>.getD {}).image.groupFrames g) }
    let s := { s with
      elems := tput s.elems e el
      chans := (List.range 32).foldl (fun t vc => tput t (e.chan vc) (im.chanOf st.elem vc)) s.chans
      wins := (im.wins st.elem).foldl (fun t p => tput t (e.win p.1) { p.2 with multi := p.2.multi || 1 < im.fillers st.elem p.1 }) s.wins }
    match k with
    | .tile =>
      let s := { s with
        tiles := tput s.tiles e (im.tileOf st.elem s.cycle)
        ctxs := (im.tasksOf st.elem).foldl (fun t (k : Task) => tput t (e.ctx k.ctx) (k.ctx_ caps)) s.ctxs
        banks := (List.range 4).foldl (fun t n => tput t ⟨rid, st.elem, n⟩ { int := im.bankInt st.elem n }) s.banks }
      (List.range 96).foldl (fun s b =>
        let n := im.barInit st.elem b
        if n = 0 then s else s.setBar ⟨rid, st.elem, b⟩ { init := BitVec.ofNat 8 n, pending := BitVec.ofNat 8 n }) s
    | .op => match im.opOf st.elem with
      | some o => { s with ops := tput s.ops e o }
      | none => s
    | _ =>
      (im.genKeys.filter (·.1 == st.elem)).foldl (fun s k =>
        match im.genOf caps st.elem k.2 with
        | some g => s.setGen ⟨rid, st.elem, k.2⟩ (if g.write then { g with oc := im.writeChan st.elem g.pelem g.pvc } else g)
        | none => s) s

/-- The supervisor window that a task of the image names, of whatever configuration context (R104, R341). -/
def Image.supWin (im : Image) : Option (Nat × Nat × Nat) :=
  ((im.views.flatMap Image.tasks).find? (·.swen)).map fun t => (t.elem, t.ctx, t.swin)

/-- The configuration context of an element that is active at load: the first of a COMPAT image that frames it (log 44). -/
def Image.groupOf (im : Image) (e : Nat) : Option Nat := im.groups.find? fun g => ((im.view (some g)).kindOf e).isSome

/-! Pages of streams (R297) -/

/-- Pages of the main launch half that a generator's pattern reaches. -/
def State.streamPages (s : State) (g : Gen) : List Nat :=
  if g.cap.space ≠ 1 || g.win.isSome then []
  else g.reach.filter fun p =>
    match s.pte? ⟨g.cap.asid, false, p⟩ with
    | some e => e.tgt == 0 || e.held
    | none => false

/-- Targets for n pages on a device: one run where it is free, else one frame each. -/
def State.pageTargets (s : State) (dev n : Nat) : List Nat :=
  match s.findFrames false dev (n * 2 ^ 16) with
  | some a => (List.range n).map fun i => a + i * 2 ^ 16
  | none => []

/-- Migrate the pages of the streams to their ports' devices, lowest stream first; data in place stay. A page that another residency is moving moves again behind that migration. -/
def State.movePages (s : State) (rid asid : Nat) : List (Nat × Nat) → List Nat → State
  | [], _ => s
  | (e, dev) :: l, seen =>
    match s.gen? ⟨rid, e, 0⟩ with
    | none => s.movePages rid asid l seen
    | some g =>
      let ps := (s.streamPages g).filter fun p => !seen.contains p
      -- where it will stand once the migrations under way have ended
      let dest (p : Nat) : Option Nat := match (s.migrs.reverse.find? fun m => m.page == ⟨asid, false, p⟩).bind (·.target) with
        | some a => some a
        | none => (s.pte? ⟨asid, false, p⟩).map (·.frame)
      let away := ps.filter fun p => match dest p with | some a => devOf false a ≠ dev | none => false
      let run := s.pageTargets dev away.length
      let s := (away.zip (List.range away.length)).foldl (fun (s : State) p =>
        let t := match run[p.2]? with | some a => some a | none => s.findFrames false dev (2 ^ 16)
        match t with
        | none => s
        | some a => { s with nextAlloc := s.nextAlloc + 1, migrs := s.migrs ++ [{ page := ⟨asid, false, p.1⟩, target := some a }] }) s
      s.movePages rid asid l (ps ++ seen)

/-- Streams of main space with the device of their port, ascending. -/
def State.streamDevs (s : State) (rid : Nat) : List (Nat × Nat) :=
  let l := (s.elems.filter fun p => p.1.rid == rid && p.2.kind == .edge && p.2.port < 12).map fun p => (p.1.elem, p.2.die * 6 + p.2.port / 2)
  sortBy (fun a b => a.1 < b.1) (l.filter fun p => (s.gen? ⟨rid, p.1, 0⟩).isSome)

/-- Pages of a residency's streams are still moving. -/
def State.moving (s : State) (rid : Nat) : Bool :=
  let ps := (s.streamDevs rid).flatMap fun p => match s.gen? ⟨rid, p.1, 0⟩ with
    | some g => (s.streamPages g).map fun v => (⟨g.cap.asid, false, v⟩ : PageRef)
    | none => []
  s.migrs.any fun m => ps.contains m.page

/-- Patch the extents of a residency's generators; the first element whose walk is MALFORMED (R285). -/
def State.patch (s : State) (rid : Nat) : State × Option Nat :=
  (s.gens.filter fun p => p.1.rid == rid).foldl (fun (acc : State × Option Nat) p =>
    match acc.1.extentsFor p.2 with
    | some es => (acc.1.modGen p.1 fun g => { g with extents := es }, acc.2)
    | none => (acc.1, match acc.2 with | some e => some (min e p.1.elem) | none => some p.1.elem)) (s, none)

/-! The batch (R273) -/

def batchBeat (block i : Nat) (t : BitVec 256) : Beat := beatOf [(0, t.toNat), (256, block % 2 ^ 16), (272, i % 2 ^ 16)]

def State.fillBatch (s : State) (rid block : Nat) (batch : List (BitVec 256)) : State :=
  let wr : WinRef := ⟨rid, 0, 15⟩
  let isTile : Bool := match s.elem? wr.at with | some e => e.kind == .tile | none => false
  (batch.zip (List.range batch.length)).foldl (fun (s : State) p =>
    match s.win? wr with
    | some w => if isTile && w.size = 64 && w.cap ≠ 0 then s.winFill wr w (beatBytes (batchBeat block p.2 p.1)) false else s
    | none => s) s

/-! A residency is built, and freed -/

/-- The region number of a new residency: the loader's choice among the numbers not in use, here the lowest (R28). -/
def State.freeRegion (s : State) : Nat :=
  ((List.range 65536).find? fun n => !s.ress.any fun p => p.2.region == n && p.2.st != .ended).getD 0

/-- Enter the elements of a placement and start moving pages. -/
def State.settleIn (s : State) (rid : Nat) (pl : Placement) : State :=
  let s := s.modRes rid fun rs => { rs with dies := pl.dies, mainPort := pl.mainPort, hubPort := pl.hubPort, saveArea := some (pl.saveArea, rs.image.saveSize),
                                            spills := pl.spills, loadOrder := s.loadSeq }
  { s with loadSeq := s.loadSeq + 1 }

/-- Build a residency of a block, with its batch; none where it cannot be granted now. -/
def State.build (s : State) (rs : Res) (bases : List Nat) : Option State :=
  let rid := s.nextRid
  let im := rs.image
  let caps := im.capTable rs.asid bases
  let rs := { rs with region := s.freeRegion, st := .loading, width := im.width, height := im.height, caps := caps, cls := im.prio,
                      islands := im.islandPorts, supWin := im.supWin }
  let s0 := { s with nextRid := rid + 1, ress := tput s.ress rid { rs with st := .saved } }
  match s0.place rid im caps with
  | none => none
  | some (pl, s) =>
    let s := (s.modRes rid fun r => { r with st := .loading }).settleIn rid pl
    let s := pl.sites.foldl (fun s st =>
      let g := im.groupOf st.elem
      s.buildElem rid (match g with | some _ => im.view g | none => im) caps g st) s
    let s := (s.setGenRemap rid).fillBatch rid rs.block rs.batch
    some ((s.movePages rid rs.asid (s.streamDevs rid) []).active rid)

/-- A run of a query, which may outlive its residency (R326). -/
def Cmd.isRun (c : Cmd) : Bool :=
  match c.ins with | .plrunOr _ | .plrunAnd _ | .plrunWand _ | .plresume _ => true | _ => false

/-- Every access of a residency is complete at device scope, and no engine command of it is under way but runs that have read their lists and hold results (R253, R326). -/
def State.quiet (s : State) (rid : Nat) : Bool :=
  (s.accs.all fun a => a.rid ≠ rid || 2 ≤ a.level) && s.cmds.all fun c => c.r.rid ≠ rid || (c.isRun && !s.cmdOwes c 2)

/-- Keep the entries of a table whose key is of no residency `rid`. -/
def Tbl.without {κ α : Type} (t : Tbl κ α) (f : κ → Nat) (rid : Nat) : Tbl κ α := t.filter fun p => f p.1 ≠ rid

/-- Free a residency: its elements and contexts go, contexts become UNBOUND; its record stays as ENDED with its undelivered letters, which go to the host (R343). -/
def State.free (s : State) (rid : Nat) : State :=
  let host (l : Letter) : Letter := { l with host := true }
  let bare (r : Res) : Res :=
    { r with st := .ended, batch := [], report := [], saveArea := none, nextArea := none, spills := [], dies := [], letters := r.letters.map host }
  { s with
    ctxs := Tbl.without s.ctxs (·.rid) rid, tiles := Tbl.without s.tiles (·.rid) rid, banks := Tbl.without s.banks (·.rid) rid,
    bars := Tbl.without s.bars (·.rid) rid, elems := Tbl.without s.elems (·.rid) rid, wins := Tbl.without s.wins (·.rid) rid,
    chans := Tbl.without s.chans (·.rid) rid, ops := Tbl.without s.ops (·.rid) rid, gens := Tbl.without s.gens (·.rid) rid,
    remotes := Tbl.without s.remotes (·.rid) rid, deferred := s.deferred.filter (·.r.rid ≠ rid),
    outbox := s.outbox.filter (·.1.rid ≠ rid), ports := tmap s.ports fun _ p => { p with remaps := tdel p.remaps rid },
    -- writes that are not yet complete at system scope go on
    accs := s.accs.filter fun a => a.rid ≠ rid || (a.write && a.level == 2), cmds := s.cmds.filter fun (c : Cmd) => c.r.rid ≠ rid || c.isRun,
    ress := tmod s.ress rid bare,
    grant := match s.grant with | some r => if r.rid = rid then none else some r | none => none }

end Sys2Proof.Machine
end

