-- ==== Sys2Proof/Machine/Launch.lean ====
section
/-! DEFINITION. Launch letters, entry windows, the block scheduler, the end of residencies and launches, the host event window (R262-R276, R294, R298, R371). -/

namespace Sys2Proof.Machine

/-! The launch port (R262, R371) -/

/-- Bytes as 64-byte letters. -/
def lettersOf (bs : List Byte) : List Beat := (chunksOf 64 (bs.length / 64) bs).map bytesBeat

/-- Letters move on in order: into free space of the window, into the buffer of 256, and no further than the host's side of the link when that is full. -/
def State.launchGo (s : State) : State :=
  let wait := s.launchBuf ++ s.launchHeld
  let n := 1024 - s.launchWin.length
  { s with launchWin := s.launchWin ++ wait.take n, launchBuf := (wait.drop n).take 256, launchHeld := (wait.drop n).drop 256 }

/-- A host write to the launch port: whole aligned letters are filled, anything else sets LAUNCH_ERR bit 0. -/
def execLaunchPortWrite (s : State) : Out :=
  match s.arg with
  | .data off bs =>
    if !s.sec.ready || off % 64 ≠ 0 || bs.length % 64 ≠ 0 || bs.isEmpty then
      .next { s with bar0 := { s.bar0 with launchErr := s.bar0.launchErr ||| 1 } }
    else .next (State.launchGo { s with launchHeld := s.launchHeld ++ lettersOf bs })
  | _ => .next s

/-- FREE: C − F of the launch window. -/
def State.free_ (s : State) : Nat := if s.sec.ready then 1024 - s.launchWin.length else 0

/-! The host event window (R267, R371) -/

/-- A record of kind 1, 2, 3 or 6 holds the cycle of its fill as TIME (R268). -/
def stampTime (b : Beat) (t : Nat) : Beat :=
  let n := b.toNat
  if [1, 2, 3, 6].contains (n % 2 ^ 8) then BitVec.ofNat 512 (n % 2 ^ 128 + t % 2 ^ 64 * 2 ^ 128 + n / 2 ^ 192 * 2 ^ 192) else b

/-- The oldest waiting record is filled once there is space; MSI-X vector 0 when F leaves 0. -/
def execEventRecordFill (s : State) : Out :=
  match s.eventWait with
  | [] => .next s
  | b :: bs =>
    if 1024 ≤ s.eventWin.length then .next s
    else
      let t := { s with eventWait := bs, eventWin := s.eventWin ++ [stampTime b s.cycle] }
      .next (if s.eventWin.isEmpty then t.raise 0 else t)

/-- A host write of EVENT_SHRINK: min(n, F) elements leave; the vector is raised again when F stays nonzero. -/
def execEventShrink (s : State) : Out :=
  match s.arg with
  | .reg _ w =>
    let t := { s with eventWin := s.eventWin.drop (w.extractLsb' 0 11).toNat }
    .next (if t.eventWin.isEmpty then t else t.raise 0)
  | _ => .next s

/-! Letters (R263) -/

def lKind (b : Beat) : Nat := field b.toNat 7 0
def lTag (b : Beat) : Nat := field b.toNat 31 16
def lBlocks (b : Beat) : Nat := field b.toNat 47 32
def lBlock (b : Beat) : Nat := field b.toNat 175 160
def lTspace (b : Beat) : Nat := field b.toNat 131 128
def lTable (b : Beat) : Nat := field b.toNat 127 64
def lMap (b : Beat) : Nat := field b.toNat 255 192
def lToken (b : Beat) : BitVec 256 := b.extractLsb' 256 256
def lReserved (b : Beat) : Bool :=
  field b.toNat 15 9 ≠ 0 || field b.toNat 63 48 ≠ 0 || field b.toNat 159 132 ≠ 0 || field b.toNat 191 176 ≠ 0

/-- The loader reads no letter: the device is not READY, or a letter before it is not yet processed completely (R262, R267). -/
def State.loaderBusy (s : State) : Bool := !s.sec.ready || s.letterDone || !s.eventWait.isEmpty

/-- The letter the loader reads, where it is of a kind: the device is READY and no record of the loader waits (R267). -/
def State.letter (s : State) (kind : Nat) : Option Beat :=
  if s.loaderBusy then none
  else match s.launchWin with
    | b :: _ => if lKind b = kind then some b else none
    | [] => none

/-- The letter has been processed: the window shrinks by one. -/
def State.shrinkLetter (s : State) : State := State.launchGo { s with launchWin := s.launchWin.drop 1, letterAt := none }

/-- The effects of a letter have been made: it stands first in the window until its records are filled (R262, R267). -/
def State.endLetter (s : State) : State := if s.eventWait.isEmpty then s.shrinkLetter else { s with letterDone := true }

/-- LETTER_REFUSED (R269). -/
def State.refuse (s : State) (b : Beat) (code : Nat) : State :=
  { s.event (eventBeat s 6 code (lTag b) (lBlock b) 0 0 0) with letterDone := true }

/-- A letter whose records are filled, and whose launch has ended where it is a CANCEL, has been processed completely: the window shrinks by one (R262, R276). -/
def State.letterGo (s : State) : State :=
  match s.launchWin with
  | b :: _ =>
    let ends := lKind b = 3 && match tget s.launches (lTag b) with | some l => l.live && l.cancelled | none => false
    if s.letterDone && s.eventWait.isEmpty && !ends then { s.shrinkLetter with letterDone := false } else s
  | [] => s

/-- LOAD_ERROR or WARNING (R268). -/
def State.loadRecord (s : State) (kind tag block : Nat) (e : LErr) : State := s.event (eventBeat s kind e.code tag block e.elem e.off e.pc)

/-! Entry windows (R270) -/

/-- Bytes of hub MU m that are in use: first, end. -/
def State.hubUsed (s : State) (m : Nat) : List (Nat × Nat) :=
  (if m < 2 then [(0, 65536)] else []) ++
  (s.launches.filter (·.2.live)).flatMap fun l => (l.2.blocks.filter (·.hubMu == m)).map fun b => (b.hubOff, b.hubOff + 64 * b.entry)

/-- The lowest place for n bytes of a hub MU. -/
def State.hubPlace (s : State) (m n : Nat) (more : List (Nat × Nat)) : Option Nat :=
  let used := s.hubUsed m ++ more
  if 64 ≤ used.length then none
  else (0 :: used.map (·.2)).find? fun a => a + n ≤ 4352 * 1024 && used.all fun u => a + n ≤ u.1 || u.2 ≤ a

/-- Place the entry windows of a launch, in block order. -/
def State.placeEntries (s : State) : List Block → List Block → Option (List Block)
  | [], done => some done
  | b :: bs, done =>
    let more (m : Nat) : List (Nat × Nat) := (done.filter (·.hubMu == m)).map fun d => (d.hubOff, d.hubOff + 64 * d.entry)
    let at_ : Option (Nat × Nat) := firstSome ((List.range 4).map fun m => (s.hubPlace m (64 * b.entry) (more m)).map fun a => (m, a))
    match at_ with
    | none => none
    | some (m, a) => s.placeEntries bs (done ++ [{ b with hubMu := m, hubOff := a }])

def State.modLaunch (s : State) (tag : Nat) (f : Launch → Launch) : State := { s with launches := tmod s.launches tag f }
def Launch.modBlock (l : Launch) (n : Nat) (f : Block → Block) : Launch :=
  { l with blocks := match l.blocks[n]? with | some b => l.blocks.set n (f b) | none => l.blocks }

/-- A token can be accepted by an entry window. -/
def State.entryRoom (s : State) (tag block : Nat) : Bool :=
  match tget s.launches tag with
  | some l => match l.blocks[block]? with
    | some b => b.tokens.length < b.entry
    | none => false
  | none => false

/-- A token enters an entry window. -/
def State.accept (s : State) (tag block : Nat) (t : BitVec 256) : State :=
  { (s.modLaunch tag fun l => l.modBlock block fun b => { b with tokens := b.tokens ++ [(t, s.cycle)] }) with sched := true }

/-! LAUNCH (R264, R265) -/

/-- A block-table entry read from its 32 bytes; the flag says that it is valid for a launch of n blocks. -/
structure TblEntry where
  block : Block
  ispace : Nat
  len : Nat
  image : Nat
  ok : Bool

def tblEntry (n : Nat) (bs : List Byte) : TblEntry :=
  let e := ofBytesLE bs
  let succ := field e 159 144
  let sp := field e 107 104
  { block := { entry := field e 143 128, succ := succ, mapoff := field e 223 192 }, ispace := sp, len := field e 103 64, image := field e 63 0,
    ok := field e 143 128 ≠ 0 && (succ = 0xFFFF || succ < n) && 1 ≤ sp && sp ≤ 3 &&
          field e 255 224 = 0 && field e 191 160 = 0 && field e 127 108 = 0 }

/-- A pattern over a shared-half capability meets a MALFORMED walk (R285). -/
def State.malformed (s : State) (im : Image) : Option LErr :=
  firstOff (im.views.flatMap fun v => v.genKeys.flatMap fun k =>
    match v.genOf (v.caps.map (·.cap)) k.1 k.2 with
    | some g => errIf (s.extentsFor g).isNone 0x0E (v.offOf 3 k.1 (8 * k.2)) k.1
    | none => [])

/-- Read and check the images in block order: the blocks, or the block and error of the first that fails. -/
def State.readImages (s : State) : List TblEntry → Nat → List Block ⊕ (Nat × LErr)
  | [], _ => .inl []
  | t :: ts, n =>
    let (bs, ok) := s.loaderRead t.ispace t.image t.len
    if !ok then .inr (n, { code := 1, off := bs.length / 32 * 32 })
    else
      let im := parseImage bs
      match firstSome [imageErr s im, s.malformed im] with
      | some e => .inr (n, e)
      | none => match s.readImages ts (n + 1) with
        | .inl bl => .inl ({ t.block with image := im } :: bl)
        | .inr e => .inr e

/-- An image's patterns cannot be walked yet (R376). -/
def State.imageAsleep (s : State) (im : Image) : Bool :=
  s.selfRefresh ≠ 0 && s.patternsAsleep (im.views.flatMap fun v => v.genKeys.filterMap fun k => v.genOf (v.caps.map (·.cap)) k.1 k.2)

/-- A block's image cannot be read or checked yet (R376). -/
def State.entryAsleep (s : State) (t : TblEntry) : Bool :=
  s.selfRefresh ≠ 0 && (s.loaderSleeps t.ispace t.image t.len || s.imageAsleep (parseImage (s.loaderRead t.ispace t.image t.len).1))

/-- A block's allocation list cannot be written yet (R376). -/
def State.mapAsleep (s : State) (space map : Nat) (b : Block) : Bool := s.loaderSleeps space (map + b.mapoff) (8 * b.image.ncaps)

/-- ASIDs that a launch may take: not in use, and not between a RELEASE and the end of its invalidation (R294). -/
def State.freeAsid (s : State) : Option Nat :=
  ((List.range 4096).drop 1).find? fun a => !(s.launches.any fun l => l.2.asid == a) && !s.invals.any fun i => i.owner == .asid a

/-- The object numbers that a block describes. -/
def Block.poolObjs (b : Block) : List Nat := (List.range 16).filter fun o => (b.image.header (0x20 + o)).isSome
/-- The pool objects of a launch: one for each object number that a block describes (R298). -/
def poolObjs (bl : List Block) : List Nat := (bl.flatMap Block.poolObjs).eraseDups
/-- Device slots that the descriptors of a launch reserve: one for every descriptor of every block (R298). -/
def poolNeed (bl : List Block) : Nat := (bl.flatMap Block.poolObjs).length
def State.freeSlots (s : State) : List Nat := (List.range 16).filter fun n => !s.launches.any fun l => l.2.pools.contains n

/-- The warnings of a launch, in block order and, within a block, in the order found. -/
def heldWarnings : List Block → Nat → List (Nat × LErr)
  | [], _ => []
  | b :: bs, n => (warnings b.image).map (fun e => (n, e)) ++ heldWarnings bs (n + 1)

/-- Slots of a block's allocation list are written (R266). -/
def State.writeMap (s : State) (l : Launch) (b : Block) (slots : List (Nat × Nat)) : State :=
  slots.foldl (fun s p => s.loaderWrite l.mapSpace (l.map + b.mapoff + 8 * p.1) (bytesLE 8 p.2)) s

/-- The slots of ORIGIN 0, whose bases stand in the image. -/
def Block.originSlots (b : Block) : List (Nat × Nat) :=
  ((List.range b.image.ncaps).zip b.image.caps).filterMap fun p => if p.2.origin = 0 then some (p.1, p.2.cap.base) else none

/-- A launch that has passed every check becomes live; the slots of its lists that need no allocation are written. -/
def State.goLive (s : State) (b : Beat) (bl : List Block) (asid : Nat) : State :=
  let tag := lTag b
  let objs := poolObjs bl
  let slots := s.freeSlots.take (poolNeed bl)
  let l : Launch := { seq := s.launchSeq, asid := asid, opened := bitOf b.toNat 8, mapSpace := lTspace b, map := lMap b, blocks := bl,
                      pools := slots, group := [s.bar0.groupSelf, s.bar0.groupTable, s.bar0.groupSize, s.bar0.collTable] }
  let put (t : Tbl Nat Pool) (p : Nat × Nat) : Tbl Nat Pool := tput t p.1 { tag := tag, obj := p.2 }
  let s : State := { s with launchSeq := s.launchSeq + 1, launches := tput s.launches tag l,
                            pools := (slots.zip objs).foldl put s.pools }
  let s := bl.foldl (fun s b => s.writeMap l b b.originSlots) s
  let s := s.accept tag (lBlock b) (lToken b)
  ((heldWarnings bl 0).foldl (fun (s : State) p => s.loadRecord 2 tag p.1 p.2) s).endLetter

/-- The loader processes a LAUNCH letter: checked whole, then live, or refused with no effect (R264). -/
def execLaunch (s : State) : Out :=
  match s.letter 0x01 with
  | none => .next s
  | some b =>
    let n := lBlocks b
    if (tget s.launches (lTag b)).isSome then .next (s.refuse b 0x02)
    else if lReserved b || n = 0 || 4096 < n || n ≤ lBlock b || lTspace b = 0 || 3 < lTspace b then .next (s.refuse b 0x07)
    else
      let (tb, ok) := s.loaderRead (lTspace b) (lTable b) (32 * n)
      if s.loaderSleeps (lTspace b) (lTable b) (32 * n) then .next s
      else if !ok then .next (s.refuse b 0x05)
      else
        let es := (chunksOf 32 n tb).map (tblEntry n)
        if !es.all (·.ok) then .next (s.refuse b 0x07)
        else if es.any s.entryAsleep then .next s
        else match s.readImages es 0 with
          | .inr (k, e) => .next (s.loadRecord 1 (lTag b) k e).endLetter
          | .inl bl =>
            if bl.any (s.mapAsleep (lTspace b) (lMap b)) then .next s
            else match s.placeEntries bl [] with
            | none => .next (s.refuse b 0x06)
            | some bl =>
              match s.freeAsid with
              | none => .next (s.refuse b 0x08)
              | some a =>
                if s.freeSlots.length < poolNeed bl then .next (s.refuse b 0x09)
                else .next (s.goLive b bl a)

def State.liveLaunch (s : State) (tag : Nat) : Option Launch :=
  match tget s.launches tag with
  | some l => if l.live && !l.cancelled then some l else none
  | none => none

/-- TOKEN: waits while the entry window is full (R264), ahead of the tokens that reach the window later (R225). -/
def execToken (s : State) : Out :=
  match s.letter 0x02 with
  | none => .next s
  | some b =>
    match s.liveLaunch (lTag b) with
    | none => .next (s.refuse b 0x03)
    | some l =>
      if l.blocks.length ≤ lBlock b then .next (s.refuse b 0x04)
      else if !s.entryRoom (lTag b) (lBlock b) then .next { s with letterAt := some (s.letterAt.getD s.cycle) }
      else .next (s.accept (lTag b) (lBlock b) (lToken b)).shrinkLetter

/-! The end of a launch (R276) -/

/-- A request that waits at a window, wreq or plvec: it makes no access (R243). -/
def Cmd.atWindow (c : Cmd) : Bool := match c.ins with | .wreq _ | .plvec _ => true | _ => false

/-- Every context of a region is killed; nothing of it acts, a request at its windows waits no more, and the region frees once its accesses are complete (R276, R347). -/
def State.killRegion (s : State) (rid : Nat) : State :=
  let s := ((s.ctxs.filter fun p => p.1.rid == rid).map (·.1)).foldl State.kill s
  let stop (k : ElemRef) (e : Elem) : Elem := if k.rid = rid then { e with frozen := some Marker.cut } else e
  let s := { s with elems := tmap s.elems stop, cmds := s.cmds.filter fun (c : Cmd) => c.r.rid ≠ rid || (c.phase != CPhase.offered && !c.atWindow) }
  let dead (r : Res) : Res := { r with killed := true, batch := [] }
  { s.modRes rid dead with sched := true }

/-- Free a query context with nothing sent (R276). -/
def State.freeLaunchQueries (s : State) (tag : Nat) (f : Query → Bool) : State :=
  s.queries.foldl (fun s p => if p.2.tag = tag && p.2.st != .free && f p.2 then (s.dropCmd p.2.cmd).freeQuery p.1 else s) s

/-- Residencies of a launch that have not ended. -/
def State.resOf (s : State) (tag : Nat) : List (Nat × Res) := s.ress.filter fun p => p.2.tag == tag && p.2.st != .ended

/-- LAUNCH_DONE: entry windows, queries, pool slots and transport flows of the launch go. -/
def State.endLaunch (s : State) (tag code : Nat) : State :=
  let slots := match tget s.launches tag with | some l => l.pools | none => []
  let mine (rid : Nat) : Bool := match s.res? rid with | some rs => rs.tag == tag | none => false
  let s := s.freeLaunchQueries tag fun _ => true
  let close (l : Launch) : Launch := { l with live := false, blocks := [], pools := [] }
  let s := { s with
    flows := s.flows.filter fun f => !mine f.src.rid
    pools := s.pools.filter fun p => !slots.contains p.1
    shards := s.shards.filter fun p => !slots.contains p.1.slot
    forwards := s.forwards.filter (·.1 ≠ tag)
    heldBeats := s.heldBeats.filter (·.tag ≠ tag)
    posts := s.posts.filter fun p => p.2.2.2.1 ≠ tag
    ctxStore := s.ctxStore.filter fun p => p.1.1 ≠ tag
    ress := s.ress.filter fun p => p.2.tag ≠ tag || p.2.st != RState.ended || !p.2.letters.isEmpty }
  let s := s.event (eventBeat s 3 code tag 0 0 0 0)
  s.modLaunch tag close

/-- A command of the network engine, whose beats are sent again until they are delivered or their launch ends (R373). -/
def Cmd.isNet (c : Cmd) : Bool := match c.ins with | .xfill _ | .xred _ | .xbar _ => true | _ => false

/-- The network commands of a launch end with it: nothing is sent again. -/
def State.dropNet (s : State) (tag : Nat) : State :=
  let mine (rid : Nat) : Bool := match s.res? rid with | some rs => rs.tag == tag | none => false
  { s with cmds := s.cmds.filter fun c => !(mine c.r.rid && c.isNet), flows := s.flows.filter fun f => !mine f.src.rid }

/-- A launch is cancelled: its residencies are killed, what is saved or waits is discarded (R276). -/
def State.cancelLaunch (s : State) (tag : Nat) : State :=
  let mark (l : Launch) : Launch := { l with cancelled := true, blocks := l.blocks.map fun (b : Block) => { b with tokens := [] } }
  let s := s.modLaunch tag mark
  let s := { s with forwards := s.forwards.filter (·.1 ≠ tag), posts := s.posts.filter (fun p => p.2.2.2.1 ≠ tag),
                    heldBeats := s.heldBeats.filter (·.tag ≠ tag) }
  let s := (s.resOf tag).foldl (fun s p =>
    if p.2.st = .saved then s.free p.1
    else
      let one (r : Res) : Res := { r with cancelled := true }
      (s.killRegion p.1).modRes p.1 one) s
  let s := (s.dropNet tag).freeLaunchQueries tag fun _ => true
  if (s.resOf tag).isEmpty then s.endLaunch tag 1 else s

/-- CANCEL: the letter stands until LAUNCH_DONE is filled (R262, R276). -/
def execCancel (s : State) : Out :=
  match s.letter 0x03 with
  | none => .next s
  | some b =>
    match s.liveLaunch (lTag b) with
    | none => .next (s.refuse b 0x03)
    | some _ => .next { s.cancelLaunch (lTag b) with letterDone := true }

/-- CLOSE. -/
def execClose (s : State) : Out :=
  match s.letter 0x04 with
  | none => .next s
  | some b =>
    match s.liveLaunch (lTag b) with
    | none => .next (s.refuse b 0x03)
    | some _ => .next (s.shrinkLetter.modLaunch (lTag b) fun l => { l with opened := false })

/-- RELEASE: tables and frames go, the generation rises, and the ASID is free once its invalidation is acknowledged (R276, R294). -/
def execRelease (s : State) : Out :=
  match s.letter 0x05 with
  | none => .next s
  | some b =>
    match tget s.launches (lTag b) with
    | none => .next (s.refuse b 0x03)
    | some l =>
      if l.live then .next (s.refuse b 0x03)
      else
        let s := s.shrinkLetter
        .next (State.invalRun { s with
          roots := s.roots.filter fun p => p.1.1 ≠ l.asid
          ledger := s.ledger.filter fun p => p.1 ≠ l.asid
          migrs := s.migrs.filter fun m => m.page.asid ≠ l.asid
          launches := tdel s.launches (lTag b)
          invals := s.invals ++ [{ owner := .asid l.asid, asid := some l.asid, lo := 0, hi := 2 ^ 64 }] })

/-- A letter of no assigned kind. -/
def execBadKind (s : State) : Out :=
  if s.loaderBusy then .next s
  else match s.launchWin with
    | b :: _ => if lKind b = 0 || 5 < lKind b then .next (s.refuse b 0x01) else .next s
    | [] => .next s

/-- The conditions under which a launch is drained (R276). -/
def State.drained (s : State) (tag : Nat) (l : Launch) : Bool :=
  l.live && !l.opened && l.blocks.all (·.tokens.isEmpty) && (s.resOf tag).isEmpty && s.forwards.all (·.1 ≠ tag) &&
  s.queries.all fun p => p.2.tag ≠ tag || !(p.2.st == .running || p.2.ending ≠ 0)

/-- A launch without work left ends; so does a cancelled one whose regions have freed. -/
def execLaunchDrained (s : State) : Out :=
  match s.arg with
  | .id tag =>
    match tget s.launches tag with
    | none => .next s
    | some l =>
      if l.live && l.cancelled && (s.resOf tag).isEmpty then .next (s.endLaunch tag 1)
      else if !l.cancelled && s.drained tag l then .next (s.endLaunch tag 0)
      else .next s
  | _ => .next s

/-! Posts and forwards (R138, R270, R274) -/

/-- A posted token that is due is accepted once its entry window has room; its context's word is then complete (R138). -/
def execThreadTokenAccepted (s : State) : Out :=
  match s.arg with
  | .ctx r =>
    match s.posts.find? fun p => p.2.2.1 == r && p.1 ≤ s.cycle with
    | none => .next s
    | some p =>
      let (_, _, _, tag, block, t) := p
      if !s.entryRoom tag block then .next s
      else
        let s := State.accept { s with posts := s.posts.filter (· ≠ p) } tag block t
        match s.ctx? r with
        | some x => if x.wait == some .postSent then .next (s.finish r x) else .next s
        | none => .next s
  | _ => .next s

/-- The cycle in which the first of n forwards that wait at an entry window reached it. -/
def State.fwdCycle (s : State) (tag block n : Nat) : Nat :=
  let l := s.fwdAt.filter fun p => p.1 == tag && p.2.1 == block
  match l[l.length - n]? with | some p => p.2.2 | none => 0

/-- The cycles of forwards that have left their windows are forgotten. -/
def State.fwdTrim (s : State) : State :=
  let waits (p : Nat × Nat × Nat) : Nat := (s.forwards.filter fun f => f.1 == p.1 && f.2.1 == p.2.1).length
  let keep (l : List (Nat × Nat × Nat)) : List (Nat × Nat × Nat) := l.foldr (fun p k =>
    if (k.filter fun q => q.1 == p.1 && q.2.1 == p.2.1).length < waits p then p :: k else k) []
  { s with fwdAt := keep s.fwdAt }

/-- A TOKEN letter waits at an entry window since an earlier cycle than c. -/
def State.letterBefore (s : State) (tag block c : Nat) : Bool :=
  match s.letter 0x02, s.letterAt with
  | some b, some w => lTag b == tag && lBlock b == block && w < c
  | _, _ => false

/-- Forwards in order: each goes as soon as its entry window has room, none of the same window is before it, and no post and no letter waits there that reached the window in an earlier cycle (R138, R225, R270). -/
def State.forwardGo (s : State) : List (Nat × Nat × BitVec 256) → List (Nat × Nat × BitVec 256) → State
  | [], kept => { s with forwards := kept }
  | f :: l, kept =>
    let n := ((f :: l).filter fun g => g.1 == f.1 && g.2.1 == f.2.1).length
    let behind := s.posts.any fun p => p.2.2.2.1 == f.1 && p.2.2.2.2.1 == f.2.1 && p.1 < s.fwdCycle f.1 f.2.1 n
    if (kept.any fun k => k.1 == f.1 && k.2.1 == f.2.1) || behind || s.letterBefore f.1 f.2.1 (s.fwdCycle f.1 f.2.1 n) || !s.entryRoom f.1 f.2.1 then s.forwardGo l (kept ++ [f])
    else (s.accept f.1 f.2.1 f.2.2).forwardGo l kept

/-- Forwarded tokens enter the successor's entry window (R274). -/
def execTokenForward (s : State) : Out := .next (s.forwardGo s.forwards [])

/-! The end of a residency (R253, R274, R347) -/

/-- A context keeps its residency from no end: it is bound to no task, DONE, or of a task with TRIPS = 0 and IDLE, its firing condition not met (R21, R274). -/
def State.atRest (s : State) (r : CtxRef) (x : Ctx) : Bool :=
  x.st == .unbound || x.st == .done || (x.st == .idle && x.tripCnt == 0 && !(s.firesOn r && s.canFire r x))

/-- R274's conditions, now or once they have held; results of an earlier residency are delivered first (R326). -/
def State.over (s : State) (rid : Nat) : Bool :=
  s.closing rid || (!s.adopting rid && (s.ctxs.all fun p => p.1.rid ≠ rid || s.atRest p.1 p.2) &&
    s.gens.all fun p => p.1.rid ≠ rid || (p.2.ended && p.2.ahead.isEmpty))

/-- A residency whose conditions hold at the end of a cycle has ended, and only its accesses and commands go on (R253, R274). -/
def State.closeGo (s : State) (rid : Nat) : State :=
  match s.res? rid with
  | some rs => if rs.st == .resident && !rs.closing && s.over rid then s.modRes rid fun rs => { rs with closing := true } else s
  | none => s

/-- The residency frees its region; its batch is forwarded to the successor block. -/
def State.endResidency (s : State) (rid : Nat) (rs : Res) : State :=
  let succ := match tget s.launches rs.tag with
    | some l => match l.blocks[rs.block]? with | some b => b.succ | none => 0xFFFF
    | none => 0xFFFF
  let fw := if succ = 0xFFFF then [] else rs.batch.map fun t => (rs.tag, succ, t)
  { s.free rid with forwards := s.forwards ++ fw, fwdAt := s.fwdAt ++ fw.map fun f => (f.1, f.2.1, s.cycle + 1), sched := true }

/-- A residency whose work is over, or whose region was killed, ends once its accesses are complete at device scope. -/
def execResidencyEnd (s : State) : Out :=
  match s.arg with
  | .id rid =>
    match s.res? rid with
    | none => .next s
    | some rs =>
      if rs.st = .ended || rs.st = .saved || !s.quiet rid then .next s
      else if rs.killed then .next { s.free rid with sched := true }
      else if rs.st = .resident && s.over rid then .next (s.endResidency rid rs)
      else .next s
  | _ => .next s

/-! The block scheduler (R271, R272, R275) -/

/-- A candidate: a block, or a saved residency. -/
structure Cand where
  tag : Nat
  block : Nat
  rid : Option Nat
  cls : Nat
  work : Nat
  age : Nat
  seq : Nat
deriving DecidableEq, Repr

def Cand.effective (c : Cand) (step : Nat) : Nat := c.work * 2 ^ c.cls + c.age / step

/-- Candidate a ranks before candidate b. -/
def Cand.before (step : Nat) (a b : Cand) : Bool :=
  let k (c : Cand) : Nat × Nat × Nat := (c.seq, c.block, if c.rid.isSome then 0 else 1)
  b.effective step < a.effective step ||
  (a.effective step == b.effective step &&
    ((k a).1 < (k b).1 || ((k a).1 == (k b).1 && ((k a).2.1 < (k b).2.1 || ((k a).2.1 == (k b).2.1 && (k a).2.2 < (k b).2.2)))))

/-- Every candidate. -/
def State.cands (s : State) : List Cand :=
  (s.launches.flatMap fun p =>
    if !p.2.live || p.2.cancelled then [] else
    (p.2.blocks.zip (List.range p.2.blocks.length)).filterMap fun q =>
      match q.1.tokens with
      | [] => none
      | t :: _ => some { tag := p.1, block := q.2, rid := none, cls := q.1.image.prio, work := q.1.tokens.length, age := s.cycle - t.2, seq := p.2.seq }) ++
  s.ress.filterMap fun p =>
    if p.2.st ≠ .saved then none
    else match tget s.launches p.2.tag with
      | some l => some { tag := p.2.tag, block := p.2.block, rid := some p.1, cls := p.2.cls, work := p.2.batch.length, age := s.cycle - p.2.preemptAt, seq := l.seq }
      | none => none

def State.topCand (s : State) : Option Cand :=
  (s.cands).foldl (fun m c => match m with
    | none => some c
    | some d => if c.before s.bar0.ageStep.toNat d then some c else some d) none

/-- The bases of a block's capabilities, allocated at its first load. -/
def State.basesOf (s : State) (tag : Nat) (l : Launch) (n : Nat) (b : Block) : Option (List Nat × State) :=
  match b.bases with
  | some bs => some (bs, s)
  | none =>
    if s.mapAsleep l.mapSpace l.map b then none
    else (s.allocCaps l.asid b.image.trailer b.image.caps).map fun (p : List Nat × State) =>
    (p.1, (p.2.writeMap l b ((List.range p.1.length).zip p.1)).modLaunch tag fun l => l.modBlock n fun b => { b with bases := some p.1 })

/-- Frames that the second-level store holds: 8 MiB of 32-byte frames (R104). -/
def State.storeUsed (s : State) : Nat := s.ctxStore.foldl (fun n p => n + p.2.length) 0
def storeCap : Nat := 8 * 2 ^ 20 / 32

/-- The frames of an image's configuration contexts enter the second-level store; none where it has no room: R104 names no refusal at load, and the block is then not granted (DESIGN CHOICE, log 63). -/
def State.storeGroups (s : State) (tag block : Nat) (im : Image) : Option State :=
  let fs := im.frames.filter fun f => f.grp.isSome || (f.kind == 4 && f.sub == 0x0F0)
  if !im.compat || (tget s.ctxStore (tag, block)).isSome then some s
  else if storeCap < s.storeUsed + fs.length then none
  else some { s with ctxStore := tput s.ctxStore (tag, block) fs }

/-- Grant and load a block: its residency takes min(W, BATCH) tokens by one shrink (R272). -/
def State.loadBlock (s : State) (c : Cand) : Option State :=
  match tget s.launches c.tag with
  | none => none
  | some l =>
    match l.blocks[c.block]? with
    | none => none
    | some b =>
      match s.basesOf c.tag l c.block b with
      | none => none
      | some (bases, s) =>
        let n := min b.tokens.length b.image.batch
        let rs : Res := { tag := c.tag, block := c.block, asid := l.asid, image := b.image, batch := (b.tokens.take n).map (·.1) }
        (s.build rs bases).bind fun s =>
          (s.modLaunch c.tag fun l => l.modBlock c.block fun b => { b with tokens := b.tokens.drop n }).storeGroups c.tag c.block b.image

/-- Place a saved residency again (R336 step 1): its elements take new sites and its streams' pages move; `restore` then completes. -/
def State.replace (s : State) (rid : Nat) : Option State :=
  match s.res? rid with
  | none => none
  | some rs =>
    match s.place rid rs.image rs.caps with
    | none => none
    | some (pl, s) =>
      -- posting handles stay with the engine of the die that served each tile first (R296); the records stand in the old save area until they are written back
      let first (t : Tbl Nat Nat) (p : ElemRef × Elem) : Tbl Nat Nat :=
        if p.1.rid == rid && p.2.kind == .tile && (tget t p.1.elem).isNone then tput t p.1.elem p.2.die else t
      let eng := s.elems.foldl first rs.engineDie
      let s := (s.settleIn rid pl).modRes rid fun r => { r with st := .restoring, victimOf := none, saveArea := rs.saveArea, nextArea := some (pl.saveArea, rs.image.saveSize),
                                                                engineDie := eng }
      let s := pl.sites.foldl (fun s st => s.modElem ⟨rid, st.elem⟩ fun e => { e with die := st.die, x := st.x, y := st.y, port := st.port }) s
      some (s.movePages rid rs.asid (s.streamDevs rid) [])

/-- A candidate is granted: a saved residency takes its place again, or a block loads; none where it cannot be now, and, since no image loads then, in BLANK and RETIRED (R363). -/
def State.grantCand (s : State) (c : Cand) : Option State :=
  if !s.sec.life.loads then none
  else match c.rid with
  | some rid => s.replace rid
  | none => s.loadBlock c

/-- A victim already chosen for a candidate is still on its way out. -/
def State.victimsOut (s : State) (c : Cand) : Bool :=
  s.ress.any fun p => p.2.victimOf == some (c.tag, c.block, c.rid) && (p.2.st == .draining || p.2.st == .saving || p.2.deferredDrain)

/-- Whether a grant would succeed with a set of regions gone. -/
def State.wouldGrant (s : State) (c : Cand) (vs : List Nat) : Bool :=
  let gone (k : Nat) (r : Res) : Res := if vs.contains k then { r with st := .saved } else r
  (State.grantCand { s with ress := tmap s.ress gone } c).isSome

/-- The first prefix of victims that would let the candidate be granted. -/
def State.victimSet (s : State) (c : Cand) : List Nat → List Nat → Option (List Nat)
  | [], _ => none
  | v :: vs, acc => if s.wouldGrant c (acc ++ [v]) then some (acc ++ [v]) else s.victimSet c vs (acc ++ [v])

/-- Resident regions below class 3: ascending class, the most recently loaded first (R275). -/
def State.victims (s : State) : List Nat :=
  let l := s.ress.filter fun p => p.2.st == .resident && p.2.cls < 3 && !p.2.killed && !p.2.deferredDrain
  (sortBy (fun (a b : Nat × Res) => a.2.cls < b.2.cls || (a.2.cls == b.2.cls && b.2.loadOrder < a.2.loadOrder)) l).map (·.1)

/-- The pre-emption that a class-3 candidate may start (R272, R275). -/
def State.preemptFor (s : State) (c : Cand) : State :=
  let after := s.bar0.preemptAfter.toNat
  if c.cls ≠ 3 || after = 0 || c.age < after || s.victimsOut c then s
  else match s.victimSet c s.victims [] with
    | none => s
    | some vs => vs.foldl (fun s v => (s.modRes v fun r => { r with victimOf := some (c.tag, c.block, c.rid) }).startDrain v false) s

/-- One evaluation: the highest-ranked candidates load while they can (R272). -/
def State.schedGo (s : State) : Nat → State
  | 0 => s
  | n + 1 =>
    match s.topCand with
    | none => s
    | some c =>
      match s.grantCand c with
      | some s => s.schedGo n
      | none => s.preemptFor c

/-- The scheduler evaluates. -/
def execBlockScheduler (s : State) : Out :=
  if !s.sched || !s.sec.ready then .next s
  else .next ({ s with sched := false }.schedGo (s.cands.foldl (fun n (c : Cand) => n + c.work) 1))

/-- Every AGE_STEP cycles an evaluation falls due. -/
def execAgeStepExpiry (s : State) : Out :=
  if s.cycle % (max 1 s.bar0.ageStep.toNat) = 0 then .next { s with sched := true } else .next s

/-! The end of loading -/

/-- A loaded residency whose streams' pages are in place starts: extents are patched, held results of its block are delivered; a MALFORMED walk refuses the launch (R285, R297, R326). -/
def State.loadGo (s : State) (rid : Nat) : State :=
  match s.res? rid with
  | none => s
  | some rs =>
    if rs.st ≠ .loading || s.moving rid || s.patternsAsleep ((s.gens.filter (·.1.rid == rid)).map (·.2)) then s
    else
      let (s, bad) := s.patch rid
      match bad with
      | some e => (s.loadRecord 1 rs.tag rs.block { code := 0x0E, off := rs.image.offOf 3 e 0, elem := e }).cancelLaunch rs.tag
      | none => (s.modRes rid fun r => { r with st := .resident }).adoptQueries rs.tag rs.block rid

end Sys2Proof.Machine
end

