-- ==== Sys2Proof/Machine/Compat.lean ====
section
/-! DEFINITION. Images in the Vrelix Akrouf layout: configuration contexts, their cache and the second-level store (R104, R105). -/

namespace Sys2Proof.Machine

/-- The frames of a configuration context in the second-level store of a residency's block, whole. -/
def State.storedGroup (s : State) (rs : Res) (g : Nat) : Option (List Frame) :=
  match tget s.ctxStore (rs.tag, rs.block) with
  | none => none
  | some fs =>
    if fs.any fun f => f.kind == 4 && f.sub == 0x0F0 && f.elem == g then
      some ((fs.filter fun f => f.grp == some g).map fun f => { f with grp := none })
    else none

/-- No context of the unit is in READY, RUN or WAIT. -/
def State.boundary (s : State) (e : ElemRef) : Bool :=
  s.ctxs.all fun p => p.1.tile ≠ e || !(p.2.st == .ready || p.2.st == .run || p.2.st == .wait)

/-- The image that a group of frames describes, under the frames of no group. -/
def Image.withGroup (im : Image) (fs : List Frame) : Image := { im with frames := (im.frames.filter (·.grp.isNone)) ++ fs }

/-- A context under new headers: registers stay, DONE returns to IDLE (R104). -/
def Ctx.rehead (x : Ctx) (t : Task) : Ctx :=
  let y := t.ctx_ []
  let st : CState := if x.st = .done || x.st = .unbound then .idle else x.st
  let pc := if st = .idle then y.entry else x.pc
  { x with entry := y.entry, pc := pc, st := st, loopMax := y.loopMax, tripCnt := y.tripCnt, sup := y.sup, inMask := y.inMask,
           outMask := y.outMask, inRate := y.inRate, outRate := y.outRate }

/-- The contexts of a tile under new headers. -/
def State.reheadAll (s : State) (e : ElemRef) (im : Image) (caps : List CapV) : State :=
  (List.range 8).foldl (fun s c =>
    let r := e.ctx c
    match im.taskOf e.elem c, s.ctx? r with
    | some t, some x => s.setCtx r (x.rehead t)
    | some t, none => s.setCtx r (t.ctx_ caps)
    | none, some x => s.setCtx r { x with st := .unbound }
    | none, none => s) s

/-- Replace a unit's task headers, instruction words, channel formats, routes and operator state; a header with SWEN names the region's supervisor window (R104, R341). -/
def State.switchTo (s : State) (e : ElemRef) (g : Nat) (fs : List Frame) : State :=
  let rs := (s.res? e.rid).getD {}
  let im := rs.image.withGroup fs
  let isTile : Bool := match s.elem? e with | some el => el.kind == .tile | none => false
  let relink (el : Elem) : Elem :=
    { el with routes := im.routes e.elem ++ el.routes.filter (fun r => 32 ≤ r.1), active := some g, select := el.select.drop 1,
              cache := (g, fs) :: el.cache.filter fun p => p.1 ≠ g }
  let s := s.modElem e relink
  let s := { s with chans := tmap s.chans fun k c =>
    if k.at = e then { c with fmt := BitVec.ofNat 5 (im.fmtEntry e.elem k.vc).1, scale := BitVec.ofNat 8 (im.fmtEntry e.elem k.vc).2 } else c }
  let s := match im.opOf e.elem with | some o => { s with ops := tput s.ops e o } | none => { s with ops := tdel s.ops e }
  let s := match (im.tasksOf e.elem).find? (·.swen) with
    | some t => s.modRes e.rid fun rs => { rs with supWin := some (t.elem, t.ctx, t.swin) }
    | none => s
  if isTile then
    let t := im.tileOf e.elem s.cycle
    -- the B type of a bank is that of the words that now name it (R161, R163)
    let s := { s with banks := tmap s.banks fun k b =>
      if k.rid = e.rid && k.elem = e.elem then { b with int := (im.bankInt? e.elem k.bank).getD b.int } else b }
    (s.modTile e fun x => { x with imem := t.imem, weight := t.weight, floor := t.floor }).reheadAll e im rs.caps
  else s

/-- A select token is drawn at the unit's firing boundary: a switch, a fetch on a miss, or a letter where the store holds no such context. -/
def execContextSwitch (s : State) : Out :=
  match s.arg with
  | .elem e =>
    match s.elem? e, s.res? e.rid with
    | some el, some rs =>
      match el.select with
      | [] => .next s
      | (_, g) :: _ =>
        if !s.acts e || !s.boundary e || el.fetch.isSome then .next s
        else match el.cache.find? (·.1 == g) with
          | some (_, fs) => .next ((s.switchTo e g fs).active e.rid)
          | none =>
            if (s.storedGroup rs g).isNone then
              let who := if el.kind = .op then 10 else 0
              .next ((s.modElem e fun el => { el with select := el.select.drop 1 }).remoteLetter e.rid tILLEGAL e.elem who 0 g 0)
            else
              let (d, s) := s.later 1
              .next ((s.modElem e fun el => { el with fetch := some (g, d) }).active e.rid)
    | _, _ => .next s
  | _ => .next s

/-- A missing context arrives from the second-level store; the least recently used of four leaves. -/
def execContextFetchDone (s : State) : Out :=
  match s.arg with
  | .elem e =>
    match s.elem? e, s.res? e.rid with
    | some el, some rs =>
      match el.fetch with
      | none => .next s
      | some (g, d) =>
        if s.cycle < d then .next s
        else
          let fs := (s.storedGroup rs g).getD []
          .next ((s.modElem e fun el => { el with fetch := none, cache := ((g, fs) :: el.cache).take 4 }).active e.rid)
    | _, _ => .next s
  | _ => .next s

/-- The host adds configuration contexts to the store of a resident region: CRCs, signature and room are checked first, then they are visible whole (R105). -/
def execContextStoreAdd (s : State) : Out :=
  match s.arg with
  | .data rid bs =>
    match s.res? rid with
    | none => .next s
    | some rs =>
      if rs.st ≠ .resident || !rs.image.compat then .next s
      else
        let im := parseImage bs
        let fs := im.frames.filter fun f => f.grp.isSome || (f.kind == 4 && f.sub == 0x0F0)
        let old := (tget s.ctxStore (rs.tag, rs.block)).getD []
        let named (f : Frame) : Bool := im.groups.contains (f.grp.getD f.elem)
        let kept := old.filter fun f => !named f
        let err : Option LErr := firstSome [crcErr im, sigErr s im,
          if storeCap < s.storeUsed - old.length + kept.length + fs.length then some { code := 0x0A, off := 0 } else none]
        match err with
        | some e => .next (s.loadRecord 1 rs.tag rs.block e)
        | none => .next { s with ctxStore := tput s.ctxStore (rs.tag, rs.block) (kept ++ fs) }
  | _ => .next s

end Sys2Proof.Machine
end

