-- ==== Sys2Proof/Machine/Preempt.lean ====
section
/-! DEFINITION. The drain, the save, late data and the restore of a region (R327-R339, R381). -/

namespace Sys2Proof.Machine

/-- Nothing travels on a link of a region. -/
def State.linksEmpty (s : State) (rid : Nat) : Bool := s.chans.all fun p => p.1.rid ≠ rid || p.2.flight.isEmpty

/-- An accepted command still has memory accesses to make, which complete before SAVING (R253, R330): a copy to memory up to its completion, a fill's reads, a collective's step up to its writes, a run's lists while it may claim chunks. -/
def State.memoryWork (s : State) (c : Cmd) : Bool :=
  c.phase != .offered && match c.ins with
  | .cpy _ | .cpyq _ | .gth _ | .sct _ => c.winDst.isNone || c.rd < c.units
  | .xfill _ => c.rd < c.units
  | .xred _ => c.stage < 4
  | .plrunOr _ | .plrunAnd _ | .plrunWand _ | .plresume _ =>
    -- the lists are being read, or a claimed chunk is, or one is still to be claimed
    s.queries.any fun p => p.2.cmd == c.id && p.2.st == .running && p.2.ending = 0 &&
      (!p.2.ordered || p.2.chunks.any fun k => match k.st with | .claimed _ => true | .waiting => !s.claimHeld p.2 | _ => false)
  | _ => false

/-- No token is on a link of a region: no remote arrival is on its way, no arrival token of a window is due that could leave, and a channel's link holds nothing but what stands behind a token that waits in the network (R231, R327, log 64). -/
def State.linksDrained (s : State) (rid : Nat) : Bool :=
  (s.chans.all fun p => p.1.rid ≠ rid || p.2.flight.isEmpty || !p.2.held.isEmpty) && (s.remotes.all fun p => p.1.rid ≠ rid) &&
  s.wins.all fun p => p.1.rid ≠ rid || match p.2.due with | [] => true | d :: _ => !s.ctlRoom p.1.at d.2.1

/-- DRAINING is over (R327): every element has frozen, the sinks have seen the checkpoint marker behind what the generators fetched, no token is on a link, every access is complete at device scope, the array has fired its rows (R261, R337). -/
def State.drainedOut (s : State) (rid : Nat) : Bool :=
  (s.elemsOf rid).all (fun p => p.2.frozen.isSome) && s.checked rid && s.linksDrained rid && (s.tiles.all fun p => p.1.rid ≠ rid || p.2.rows.isEmpty) && (s.accs.all fun a => a.rid ≠ rid || 2 ≤ a.level) &&
  (s.gens.all fun p => p.1.rid ≠ rid || !p.2.check || (if p.2.write then p.2.qbuf.isEmpty || p.2.ended || p.2.stopped else p.2.ahead.isEmpty)) &&
  (s.cmds.all fun (c : Cmd) => c.r.rid ≠ rid || !s.memoryWork c) && s.ctxs.all fun p => p.1.rid ≠ rid || p.2.freeze.isEmpty

/-- The island ports of a region: those of its handles, and its request ports, on each of its dies (R296). -/
def State.regionPorts (s : State) (rid : Nat) : List PortRef :=
  match s.res? rid with
  | none => []
  | some rs => rs.dies.flatMap fun d =>
    ((rs.islands.map (·.2) ++ (tget rs.mainPort d.1).toList ++ (tget rs.hubPort d.1).toList).eraseDups).map fun p => ⟨d.1, p⟩

/-- At SAVING the loader writes the base of a region's remap table into its generators and into its island ports (R334). -/
def State.setRemap (s : State) (rid : Nat) : State :=
  let base := s.remapBase rid
  let put (s : State) (p : PortRef) : State :=
    let x := (tget s.ports p).getD {}
    { s with ports := tput s.ports p { x with remaps := tput x.remaps rid base } }
  (s.regionPorts rid).foldl put (s.setGenRemap rid)

/-- What waits in the network for the region's channels is held by the network, ahead of what comes later (R231, R335, log 64). -/
def State.holdTokens (s : State) (rid : Nat) : State :=
  let mine := s.chans.filter fun p => p.1.rid == rid && !p.2.held.isEmpty
  let behind (c : Chan) : List Item := c.flight.filterMap fun f => match f.2 with | .item i => some i | .marker _ => none
  { s with outbox := mine.flatMap (fun p => (p.2.held ++ behind p.2).map fun i => (p.1, i)) ++ s.outbox,
           chans := tmap s.chans fun k c => if k.rid = rid then { c with held := [], flight := [] } else c }

/-- The sampled tokens of a region's channels end their sampling (R356). -/
def State.endSamples (s : State) (rid : Nat) : State :=
  let cs := s.chans.filter fun p => p.1.rid == rid && p.2.items.any (·.sample.isSome)
  let s := cs.foldl (fun s p => p.2.items.foldl (fun s i =>
    s.sinkItem rid { i with sample := i.sample.map (·.leave s.cycle) } 5 p.1.elem) s) s
  let bare (i : Item) : Item := { i with sample := none }
  { s with chans := tmap s.chans fun k c => if k.rid = rid then { c with items := c.items.map bare } else c }

/-- Every element has frozen, every sink has seen the checkpoint marker, no token is on a link, every access is complete: SAVING begins, and the supervisor freezes with the rest (R327, R340). -/
def execDrainComplete (s : State) : Out :=
  match s.arg with
  | .id rid =>
    match s.res? rid with
    | none => .next s
    | some rs =>
      if rs.st ≠ .draining || !s.drainedOut rid then .next s
      else
        let rest := (s.ctxs.filter fun p => p.1.rid == rid && p.2.st != .frozen && p.2.st != .done && p.2.st != .unbound).map (·.1)
        let s := rest.foldl (fun s r => s.freeze r .round) s
        let s := ((s.gens.filter fun p => p.1.rid == rid).map (·.1)).foldl State.genRewind s
        let s := { s with elems := tmap s.elems fun k e => if k.rid = rid then { e with saved := true } else e }
        .next (((((s.modRes rid fun r => { r with st := .saving }).endSamples rid).holdTokens rid)).setRemap rid)
  | _ => .next s

/-- The save area of a region lies in GDDR in self-refresh (R376). -/
def State.areaAsleep (s : State) (rs : Res) : Bool := match rs.saveArea with | some a => s.asleep a.1 | none => false

/-- The records stand in the save area, as they were at the entry to SAVED and with the late data since (R331, R335). -/
def State.writeImage (s : State) (rid : Nat) : State :=
  match s.res? rid with
  | some rs => match rs.saveArea with
    | some a => { s with gddr := s.gddr.write a.1 (s.saveImage rid rs.savedAt) }
    | none => s
  | none => s

/-- Every record is written: the region is SAVED and its sites are free (R327, R331). -/
def execSaveComplete (s : State) : Out :=
  match s.arg with
  | .id rid =>
    match s.res? rid with
    | none => .next s
    | some rs =>
      -- a region that was cancelled or killed in SAVING is not kept (R276, R327)
      if rs.st ≠ .saving || rs.killed || s.areaAsleep rs || s.ctxs.any fun p => p.1.rid == rid && !p.2.freeze.isEmpty then .next s
      else
        -- a capture counts the pre-emption that is being saved (R339)
        let count (c : Capture) : Capture := { c with outn := c.outn + 1 }
        let s := { s with ctxs := tmap s.ctxs fun k x => if k.rid = rid then { x with capture := x.capture.map count } else x }
        let saved (r : Res) : Res := { r with st := .saved, savedAt := s.cycle, dies := [], spills := [], cutDue := none }
        .next { ((s.modRes rid saved).writeImage rid) with sched := true }
  | _ => .next s

/-- One late datum for a channel (R335): a beat at a fill port into the window's record; elsewhere a beat in a free slot; a token in the counter or, at a declared channel, as a beat. -/
def State.lateItem (s : State) (c : ChanRef) (i : Item) : Option State :=
  match s.chan? c with
  | none => some s
  | some x =>
    let in_ : State := s.setChan c { x with items := x.items ++ [{ i with slot := true }] }
    if i.slot && x.port.isSome && x.items.isEmpty && i.fault.isNone then in_.portFill c
    else if i.slot || s.declared c then if x.free = 0 then none else some in_
    else if 255 ≤ s.counter c x then none
    else match i.ctl with
      | some (.select g) => some (s.modElem c.at fun e => { e with select := e.select ++ [(c.vc, g)] })
      | _ => some (s.setChan c { x with items := x.items ++ [i] })

/-- Late data in arrival order; what does not fit is held, and holds back what follows it at its channel. -/
def State.lateGo (s : State) (rid : Nat) : List (ChanRef × Item) → List (ChanRef × Item) → State
  | [], kept => { s with outbox := kept }
  | p :: l, kept =>
    if p.1.rid ≠ rid || !s.savedAt p.1 || kept.any (·.1 == p.1) then s.lateGo rid l (kept ++ [p])
    else match s.lateItem p.1 p.2 with
      | some s => s.lateGo rid l kept
      | none => s.lateGo rid l (kept ++ [p])

/-- Data that reach a saved element are applied to its saved state; once its records stand in the save area they change there (R334, R335). -/
def execLateData (s : State) : Out :=
  match s.arg with
  | .id rid =>
    match s.res? rid with
    | none => .next s
    | some rs =>
      if rs.st ≠ .saved then .next (s.lateGo rid s.outbox [])
      else if s.areaAsleep rs then .next s
      else .next ((s.lateGo rid s.outbox []).writeImage rid)
  | _ => .next s

/-! Restore (R336) -/

/-- A window written back: its elements stand from slot 0 on, with the tags of their units, whatever the element size; nothing of a context or fill port waits. -/
def State.winBack (s : State) (wr : WinRef) (w : Window) : State :=
  let n := w.fill.toNat
  let bs := s.winBytes wr w 0 n
  let tags := (List.range (w.cap.toNat * w.size / 16)).map fun u => 16 * (u + 1) ≤ n * w.size && s.recTag wr w u
  let w := { w with head := 0, fillNow := 0, fillPrev := 0, shrinkNow := 0, busy := none,
                    waiters := w.waiters.filter fun k => match k with | .ctx _ | .chan _ => false | _ => true }
  (s.setWin wr w).modElem wr.at fun e =>
    let e := e.write (w.slotAt 0) bs false
    { e with tags := tagRun e.tags (w.slotAt 0 / 16) tags }

/-- The remap table is cleared (R336): no port uses it; the generators hold the base of the table that the next save will write (R89). -/
def State.clearRemap (s : State) (rid : Nat) : State :=
  State.setGenRemap { s with ports := tmap s.ports fun _ p => { p with remaps := tdel p.remaps rid } } rid

/-- A context enters its recorded state: one that a trap or ctxctl froze stays frozen (R336). -/
def Ctx.back (x : Ctx) (out : Nat) : Ctx :=
  let x := { x with capture := x.capture.map fun c => { c with out := c.out + out } }
  if x.st = .frozen && (x.trapped || x.byCtl) then { x with preempted := false }
  else if x.st = .frozen then x.resume
  else x

/-- The restore of a placed residency completes once its streams' pages are in place. -/
def execRestore (s : State) : Out :=
  match s.arg with
  | .id rid =>
    match s.res? rid with
    | none => .next s
    | some rs =>
      if rs.st ≠ .restoring || rs.killed || s.moving rid || s.areaAsleep rs ||
        s.patternsAsleep ((s.gens.filter (·.1.rid == rid)).map (·.2)) then .next s
      else
        let (s, bad) := s.patch rid
        match bad with
        | some e => .next ((s.loadRecord 1 rs.tag rs.block { code := 0x0E, off := rs.image.offOf 3 e 0, elem := e }).cancelLaunch rs.tag)
        | none =>
          let s := (s.wins.filter fun p => p.1.rid == rid).foldl (fun s p => s.winBack p.1 p.2) s
          let live (k : ElemRef) (e : Elem) : Elem :=
            if k.rid = rid then { e with saved := false, frozen := none, check := false, sentCnt := [] } else e
          let back (r : Res) : Res := { r with st := .resident, stallCnt := 0, armed := true, ownMark := false, check := false, deferredDrain := false,
                                               saveArea := r.nextArea, nextArea := none }
          let s := { (s.modRes rid back) with elems := tmap s.elems live }
          let s := s.outRun.clearRemap rid
          let s := { s with gens := tmap s.gens fun k g => if k.rid = rid then { g with check := false, paused := false } else g }
          -- what the posting engines hold for the region leaves before its contexts go on (R381)
          let s := (s.queries.filter fun p => p.2.ctx.rid == rid).foldl (fun s p => s.queryEndGo p.1) (s.sendHeld rid)
          let out := s.cycle - rs.savedAt
          .next { s with ctxs := tmap s.ctxs fun k x => if k.rid = rid then x.back out else x }
  | _ => .next s

end Sys2Proof.Machine
end

