-- ==== Sys2Proof/Machine/Watch.lean ====
section
/-! DEFINITION. Letters on their way, links, killed regions, the stall watch and its report (R341-R354). -/

namespace Sys2Proof.Machine

/-! Delivery (R341, R343) -/

/-- The supervisor window of a region: none by the loader's default, or once the region is killed or has ended. -/
def State.letterWin (s : State) (rid : Nat) : Option WinRef :=
  match s.res? rid with
  | none => none
  | some rs =>
    match rs.supWin with
    | none => none
    | some (e, _, w) => if rs.st = .ended || rs.killed then none else some ⟨rid, e, w⟩

/-- Letters of a region that go to the host, those of earlier cycles, in order: all where it has no supervisor window, else the supervisor's own last letter and every later one (R343). -/
def State.toHost (s : State) (rid : Nat) (rs : Res) : List Letter :=
  let all := (s.letterWin rid).isNone
  sortBy Letter.before (rs.letters.filter fun l => (l.host || all || rs.late l) && l.cycle < s.cycle)

/-- The host event window takes a report whole, once its first record has space, where the region has no supervisor window or its supervisor is gone (R341, R343). -/
def State.reportHost (s : State) (rid : Nat) (rs : Res) : State :=
  if ((s.letterWin rid).isSome && rs.supLost.isNone) || rs.report.isEmpty || !s.eventWait.isEmpty || 1024 ≤ s.eventWin.length then s
  else (rs.report.foldl State.event s).modRes rid fun r => { r with report := [] }

/-- A region's letters and report records go to the host event window, or to its supervisor window once it has space. -/
def execTrapLetterDelivery (s : State) : Out :=
  match s.arg with
  | .id rid =>
    match s.res? rid with
    | none => .next s
    | some rs =>
      let ls := s.toHost rid rs
      let gone (r : Res) : Res := { r with letters := r.letters.filter fun l => !ls.contains l }
      let s := (ls.foldl (fun s l => s.event l.body) s).modRes rid gone
      let rs := (s.res? rid).getD {}
      let s := s.reportHost rid rs
      match s.letterWin rid with
      | none => .next s
      | some wr =>
        let waits : Bool := match s.win? wr with | some w => w.waiters.contains .letter | none => true
        let due : Bool := (rs.nextLetter s.cycle).isSome || (!rs.report.isEmpty && rs.supLost.isNone)
        if !due || waits || !(rs.st == .resident || rs.st == .draining) then .next s
        else match s.letterFill wr with
          | some s => .next s
          | none => .next (s.joinWaiters wr .letter)
  | _ => .next s

/-! Killed regions and links (R347, R348) -/

/-- The region is killed: one letter with KILLED goes to the host. -/
def State.killWith (s : State) (rid elem who : Nat) : State :=
  match s.res? rid with
  | none => s
  | some rs =>
    if rs.killed || rs.st = .ended then s
    else
      let s := if rs.st = .saved then { s.free rid with sched := true } else s.killRegion rid
      s.fileLetter rid elem who (letterBeat s rid tECC_UNCORR elem who 0 0 0 false true false) true

/-- An uncorrectable error in configuration state. -/
def execRegionKill (s : State) : Out :=
  match s.arg with
  | .kill e who => .next (s.killWith e.rid e.elem who)
  | _ => .next s

/-- A residency is routed over a link: it binds the port, or its dies are joined by the bridge (R14). -/
def State.routedOver (s : State) (rid : Nat) (rs : Res) (l : LinkRef) : Bool :=
  let ds := rs.dies.map (·.1)
  let bound := (s.elemsOf rid).any fun p => p.2.kind == .edge && p.2.die == l.die && p.2.port == l.port
  let req := tget rs.mainPort l.die == some l.port || tget rs.hubPort l.die == some l.port
  let isl := rs.islands.any fun p => p.2 == l.port
  ds.contains l.die && (bound || req || isl ||
    (26 ≤ l.port && l.port ≤ 27 && l.die % 4 ≠ 0 && ds.contains (l.die - 1)) ||
    (28 ≤ l.port && l.port ≤ 29 && l.die % 4 ≠ 3 && ds.contains (l.die + 1)) ||
    (30 ≤ l.port && 1 < dieRows ds))

/-- A soft error of a die: of its MUs, islands, memories and links (R345). -/
def State.softDie (s : State) (d : Nat) : State :=
  if h : d < 8 then { s with bar0 := { s.bar0 with softDie := s.bar0.softDie.set d (s.bar0.softDie.get ⟨d, h⟩ + 1) } }
  else { s with bar0 := { s.bar0 with softHub := s.bar0.softHub + 1 } }

/-- A beat fails its CRC and is retried (argument a link); the retried beat passes (argument a port) and the count of consecutive retries ends. -/
def execLinkRetry (s : State) : Out :=
  match s.arg with
  | .link l => .next { s.softDie l.die with retries := tput s.retries l ((tget s.retries l).getD 0 + 1) }
  | .port p => .next { s with retries := tdel s.retries ⟨p.die, p.port⟩ }
  | _ => .next s

/-- After 1,024 failed retries of one beat the link leaves service: the regions routed over it are killed, and LINK_DOWN is filled. -/
def execLinkDown (s : State) : Out :=
  match s.arg with
  | .link l =>
    if (tget s.retries l).getD 0 < 1024 || s.linksDown.contains l then .next s
    else
      let hit := s.ress.filter fun p => p.2.st.holds && s.routedOver p.1 p.2 l
      let s := { s with linksDown := l :: s.linksDown, retries := tdel s.retries l }
      let s := hit.foldl (fun s p => s.killWith p.1 0 11) s
      let b := beatOf [(0, 0x04), (8, 0x22), (64, l.die % 8), (72, (portSite l.port).1), (80, (portSite l.port).2), (88, 11), (112, 1),
        (128, l.die % 8 + 2 ^ 8 * (l.port % 32)), (256, s.cycle % 2 ^ 64)]
      .next (s.event b)
  | _ => .next s

/-! Waiting operations (R351) -/

/-- An element with its WHO. -/
abbrev Node := Nat × Nat

structure WaitOp where
  elem : Nat
  who : Nat
  pc : Nat := 0
  op : Nat := 0
  win : Nat := 0xFF
  offset : Nat := 0
  count : Nat := 0
  fill : Nat := 0
  cap : Nat := 0
  sats : List Node := []
  outside : Bool := false
deriving DecidableEq, Repr

def WaitOp.node (w : WaitOp) : Node := (w.elem, w.who)
def nodeLt (a b : Node) : Bool := a.1 < b.1 || (a.1 == b.1 && a.2 < b.2)
def lowestNode (l : List Node) : Option Node :=
  l.foldl (fun m n => match m with | none => some n | some k => if nodeLt n k then some n else some k) none

/-- A window word: window, offset, count, whether it waits for fills. -/
def winWord (x : Ctx) (w : Window) : Instr → Option (Nat × Nat × Bool)
  | .wread o | .wupd o => some (x.offset o.a o.imm, eszBytes o.sz / w.size, true)
  | .wshrink o => some (0, x.offset o.a o.imm, true)
  | .wfill o => some (w.fill.toNat, eszBytes o.sz / w.size, false)
  | .vhist o => some ((x.gs o.b).toNat % 2 ^ 16, 256, true)
  | .mbld o => some (16 * o.slot.val, 16, true)
  | .mbldDiag o => some (o.slot.val, 1, true)
  | .mbsp o => some (32 * o.slot.val, 16 + maskElems o.bty, true)
  | .mroww o => some (o.off.val, o.n.val, true)
  | .mrowwSp o => some (o.off.val, 3 * o.n.val, true)
  | .mscaleWindow o => some (o.off.toNat, 1, true)
  | .mbias o => some (o.off.val, 1, true)
  | .mrd o => some (w.fill.toNat, o.n.val, false)
  | .mwr o => some (o.off.val, o.n.val, true)
  | .gth o | .sct o => some (0, ceilDiv (ceilDiv ((x.gsAt o.c 2).toNat % 2 ^ 16) 8) w.size, true)
  | .plvec o => some (0, (x.gs o.b).toNat / 2 ^ 32 % 2 ^ 13, true)
  | _ => none

def fillsWin (n : Nat) : Instr → Bool
  | .wfill o => o.win.val == n
  | .mrd o => o.wb.val == n
  | _ => false
def shrinksWin (n : Nat) : Instr → Bool
  | .wshrink o => o.win.val == n
  | _ => false
/-- An engine word that can fill a window. -/
def engineFills : Instr → Bool
  | .cpy _ | .mreq _ | .wreq _ | .plq _ => true
  | _ => false
def copyWord : Instr → Bool
  | .cpy _ | .cpyq _ | .gth _ | .sct _ => true
  | _ => false
def arrives : Instr → Bool
  | .barArrive _ | .barAw _ => true
  | _ => false
def remoteTo (e : Nat) : Instr → Bool
  | .barRemote o => o.target.toNat == e
  | _ => false

/-- The bound contexts of a region whose task holds a word. -/
def State.ctxsWith (s : State) (rid : Nat) (f : CtxRef → Instr → Bool) : List Node :=
  (s.ctxs.filter fun p => p.1.rid == rid && (s.words p.1 p.2).any (f p.1)).map fun p => (p.1.elem, p.1.ctx)

/-- The satisfiers of a read of a window. -/
def State.winFillers (s : State) (wr : WinRef) : List Node :=
  (if s.chans.any fun p => p.1.at == wr.at && p.2.port == some wr.win then [(wr.elem, 8)] else []) ++
  s.ctxsWith wr.rid fun r i => (r.tile == wr.at && fillsWin wr.win i) || engineFills i

def State.winShrinkers (s : State) (wr : WinRef) : List Node := s.ctxsWith wr.rid fun r i => r.tile == wr.at && shrinksWin wr.win i

/-- A wait on a window leads outside the region: the supervisor window; any window where peers may fill one by xfill (log 9). -/
def State.winOutside (s : State) (wr : WinRef) : Bool :=
  let rs := (s.res? wr.rid).getD {}
  (match rs.supWin with | some (e, _, w) => e == wr.elem && w == wr.win | none => false) ||
  (groupSize (s.group wr.rid) ≠ 0 && s.ctxs.any fun p => p.1.rid == wr.rid && (s.words p.1 p.2).any fun i => match i with | .xfill _ => true | _ => false)

/-- Who takes from a channel. -/
def State.consumers (s : State) (c : ChanRef) : List Node :=
  (match s.chan? c with | some x => (if x.port.isSome then [(c.elem, 8)] else []) | none => []) ++
  ((s.ctxs.filter fun p => p.1.tile == c.at && p.2.inMask.getLsbD c.vc && p.2.st != .unbound).map fun p => (c.elem, p.1.ctx)) ++
  (if s.gens.any fun p => p.1.at == c.at && ((p.2.write && p.2.oc == c.vc) || p.2.idx == some c.vc) then [(c.elem, 9)] else []) ++
  (match tget s.ops c.at with | some _ => [(c.elem, 10)] | none => [])

/-- Who sends into a channel. -/
def State.producers (s : State) (c : ChanRef) : List Node :=
  match s.sourceOf c with
  | none => []
  | some (e, oc) =>
    ((s.ctxs.filter fun p => p.1.tile == e && p.2.st != .unbound && (p.2.outMask.getLsbD oc || oc == 24 + p.1.ctx)).map fun p => (e.elem, p.1.ctx)) ++
    (if s.gens.any fun p => p.1.at == e && (p.2.oc == oc || s.doneOut p.1 == oc) then [(e.elem, 9)] else []) ++
    (match tget s.ops e with | some _ => [(e.elem, 10)] | none => []) ++
    (if s.chans.any fun p => p.1.at == e && p.1.vc == oc && p.2.port.isSome then [(e.elem, 8)] else [])

/-- The operation a context waits on. -/
def State.ctxWait (s : State) (r : CtxRef) (x : Ctx) : Option WaitOp :=
  let base : WaitOp := { elem := r.elem, who := r.ctx, pc := x.pc.toNat, op := x.waitop.toNat }
  match x.st, x.wait, x.waitIns with
  | .wait, some (.window n), some i =>
    let wr := r.tile.win n
    match s.win? wr with
    | none => none
    | some w =>
      match winWord x w i with
      | none => none
      | some (off, cnt, reads) => some { base with win := n, offset := off, count := cnt, fill := w.fill.toNat, cap := w.cap.toNat,
                                                   sats := if reads then s.winFillers wr else s.winShrinkers wr, outside := s.winOutside wr }
  -- a post that has reached a full entry window of the hub (R138)
  | .wait, some .postSent, _ =>
    if s.posts.any fun p => p.2.2.1 == r && p.1 ≤ s.cycle then some { base with count := 1, outside := true } else none
  | .wait, some (.barrier b _), _ =>
    some { base with count := (s.bar ⟨r.rid, r.elem, b⟩).pending.toNat,
                     sats := s.ctxsWith r.rid fun q i => (q.tile == r.tile && arrives i) || remoteTo r.elem i || copyWord i }
  | .idle, _, _ =>
    if !s.inputsIn r x || s.slotsFree r x then none
    else
      let short := (List.finRange 32).filter fun n => x.outMask.getLsbD n.val &&
        match s.route? r.tile n.val with
        | some c => (match s.chan? c with | some y => y.free < x.outRate.get n | none => false)
        | none => false
      some { base with count := match short with | n :: _ => x.outRate.get n | [] => 0,
                       sats := short.flatMap fun n => match s.route? r.tile n.val with | some c => s.consumers c | none => [] }
  | _, _, _ => none

/-- A plvec that waits at its window for the engine to read it: its context waits upon the window's fillers (R351). -/
def State.plvecWait (s : State) (c : Cmd) : Option WaitOp :=
  let wr : WinRef := ⟨c.r.rid, c.reg 1 % 2 ^ 16, c.reg 1 / 2 ^ 16 % 2 ^ 6⟩
  match c.ins, s.win? wr, s.ctx? c.r with
  | .plvec o, some w, some x =>
    if !w.waiters.contains (.cmd c.id) then none
    else (winWord x w (.plvec o)).map fun q =>
      { elem := c.r.elem, who := c.r.ctx, pc := x.pc.toNat, op := 0xD2, win := wr.win, offset := q.1, count := q.2.1, fill := w.fill.toNat,
        cap := w.cap.toNat, sats := s.winFillers wr, outside := s.winOutside wr }
  | _, _, _ => none

/-- A wreq that waits at its source window, on behalf of the context that sent it, whose pc its record has (R195, R342, R351, R353). -/
def State.wreqWait (s : State) (c : Cmd) : Option WaitOp :=
  let wr : WinRef := ⟨c.r.rid, c.reg 0 % 2 ^ 16, c.reg 0 / 2 ^ 16 % 2 ^ 6⟩
  let pc := match s.ctx? c.r with | some x => x.pc.toNat | none => 0
  match c.ins, s.win? wr with
  | .wreq o, some w =>
    if !w.waiters.contains (.cmd c.id) then none
    else some { elem := c.r.elem, who := c.r.ctx, pc := pc, op := 0x3E, win := wr.win, offset := c.reg 1, count := 64 / w.size * (o.m.val + 1),
                fill := w.fill.toNat, cap := w.cap.toNat, sats := s.winFillers wr, outside := s.winOutside wr }
  | _, _ => none

/-- Fills of islands that are held for space at a window: of an engine command, or of a peer, whose window leads outside the region (R351). -/
def State.fillWaits (s : State) (wr : WinRef) (w : Window) : List WaitOp :=
  let op (out : Bool) : WaitOp := { elem := wr.elem, who := 11, op := 0x90, win := wr.win, offset := w.fill.toNat, count := 64 / w.size, fill := w.fill.toNat,
                                    cap := w.cap.toNat, sats := s.winShrinkers wr, outside := out || s.winOutside wr }
  w.waiters.filterMap fun k => match k with
    | .cmd id => (s.cmd? id).bind fun c => match c.ins with | .wreq _ | .plvec _ => none | _ => some (op false)
    | .peer _ => some (op true)
    | _ => none

/-- A beat held at a fill port. -/
def State.portWait (s : State) (c : ChanRef) (x : Chan) : Option WaitOp :=
  match x.port with
  | none => none
  | some n =>
    let wr := c.at.win n
    match s.win? wr with
    | none => none
    | some w =>
      if !w.waiters.contains (.chan c.vc) then none
      else some { elem := c.elem, who := 8, pc := c.vc, op := 0x90, win := n, offset := w.fill.toNat, count := 64 / w.size, fill := w.fill.toNat,
                  cap := w.cap.toNat, sats := s.winShrinkers wr, outside := s.winOutside wr }

/-- The channels on which an operator lacks a token for its next firing (R236-R240); a controller lacks the dones of its run. -/
def State.opLacks (s : State) (e : ElemRef) (o : OpSt) : List Nat :=
  let empty (l : List Nat) : List Nat := l.filter fun n => (s.token e n 0).isNone
  match o.opc with
  | 0x2 => empty [o.ina, o.ctl]
  | 0x3 => match s.token e o.ctl 0 with
    | none => [o.ctl]
    | some c => [if c.truth then o.ina else o.inb]
  | 0x4 => empty [o.ina, o.inb]
  | 0x5 => if o.looping then empty [o.ctl, o.inb] else empty [o.ina]
  | 0x6 => empty o.doneChans
  | 0x7 => [if o.remain = 0 then o.ctl else o.ina]
  | 0x8 | 0x9 | 0xA => if o.running then empty o.doneChans else empty [o.ctl]
  | _ => empty [o.ina]

/-- The channels without room for what an operator would send. -/
def State.opShort (s : State) (e : ElemRef) (p : Plan) : List ChanRef :=
  (p.sends.filterMap fun q => match s.route? e q.1 with
    | some c => (match s.chan? c with | some x => if x.free = 0 then some c else none | none => none)
    | none => none) ++
  (p.ctls.filterMap fun q => if s.ctlRoom e q.1 then none else s.route? e q.1)

/-- An operator that holds a token it cannot fire. -/
def State.opWait (s : State) (e : ElemRef) (o : OpSt) : Option WaitOp :=
  if (List.range 32).all fun n => (s.token e n 0).isNone then none
  else
    let base : WaitOp := { elem := e.elem, who := 10, op := o.opc, count := 1 }
    match planOf s e o with
    | some p =>
      let short := s.opShort e p
      if short.isEmpty then none else some { base with sats := (short.flatMap s.consumers).eraseDups }
    | none => some { base with sats := ((s.opLacks e o).flatMap fun n => s.producers (e.chan n)).eraseDups }

/-- A letter or report record held for the supervisor window. -/
def State.letterWait (s : State) (rid : Nat) : List WaitOp :=
  match s.res? rid, s.letterWin rid with
  | some rs, some wr =>
    let held : Bool := match s.win? wr with | some w => w.waiters.contains .letter | none => false
    if held then [{ elem := wr.elem, who := 11, win := wr.win, sats := match rs.supWin with | some (e, c, _) => [(e, c)] | none => [] }] else []
  | _, _ => []

/-- Every waiting operation of a region. -/
def State.waitOps (s : State) (rid : Nat) : List WaitOp :=
  ((s.ctxs.filter (·.1.rid == rid)).filterMap fun p => s.ctxWait p.1 p.2) ++ ((s.chans.filter (·.1.rid == rid)).filterMap fun p => s.portWait p.1 p.2) ++
  ((s.ops.filter (·.1.rid == rid)).filterMap fun p => s.opWait p.1 p.2) ++
  ((s.cmds.filter (·.r.rid == rid)).filterMap fun c => match s.plvecWait c with | some w => some w | none => s.wreqWait c) ++
  ((s.wins.filter (·.1.rid == rid)).flatMap fun p => s.fillWaits p.1 p.2) ++ s.letterWait rid

/-! The watch (R350, R354) -/

/-- The cycle was quiet for a region. A wreq, or a plvec, that waits at its window is a waiting operation, and no island holds it at work; so is a post at a full entry window. A reply that waits at its port for a slot is outstanding (R350). -/
def State.quietCycle (s : State) (rid : Nat) : Bool :=
  !s.busy.contains rid && !(s.waitOps rid).isEmpty && s.linksEmpty rid && (s.cmds.all fun c => c.r.rid ≠ rid || (s.wreqWait c).isSome || (s.plvecWait c).isSome) &&
  (s.accs.all fun a => a.rid ≠ rid || 2 ≤ a.level) && (s.posts.all fun p => p.2.2.1.rid ≠ rid || p.1 ≤ s.cycle) && (s.outbox.all fun p => p.1.rid ≠ rid) && (s.remotes.all fun p => p.1.rid ≠ rid) &&
  (s.elemsOf rid).all fun p => p.2.fetch.isNone

/-- At the cycle boundary: STALL_CNT counts quiet cycles; progress rearms the watch and abandons a report that has not begun. -/
def State.stallGo (s : State) (rid : Nat) : State :=
  match s.res? rid with
  | none => s
  | some rs =>
    if rs.st ≠ .resident || rs.stopped then s
    else
      let moved := s.busy.contains rid
      let q := s.quietCycle rid
      s.modRes rid fun r =>
        if moved then { r with armed := true, stallCnt := 0, report := [] }
        else if !r.armed then r
        else { r with stallCnt := if q then r.stallCnt + 1 else 0 }

/-! The stuck set (R352) -/

/-- A node can never act: its context is DONE or UNBOUND, its generators are past their last beat. -/
def State.neverActs (s : State) (rid : Nat) (n : Node) : Bool :=
  if n.2 < 8 then (match s.ctx? ⟨rid, n.1, n.2⟩ with | some x => x.st == .done || x.st == .unbound | none => true)
  else if n.2 = 9 then (s.gens.filter fun p => p.1.at == ⟨rid, n.1⟩).all fun p => p.2.ended && p.2.ahead.isEmpty
  else false

/-- Drop the members with a satisfier that holds no member and can act, until none is left to drop. -/
def State.stuckGo (s : State) (rid : Nat) : Nat → List WaitOp → List WaitOp
  | 0, l => l
  | n + 1, l =>
    let keep := l.filter fun m => !m.outside && m.sats.all fun t => l.any (·.node == t) || s.neverActs rid t
    if keep.length = l.length then l else s.stuckGo rid n keep

def State.stuckSet (s : State) (rid : Nat) : List WaitOp :=
  let ops := s.waitOps rid
  sortBy (fun a b => nodeLt a.node b.node || (a.node == b.node && a.pc < b.pc)) (s.stuckGo rid ops.length ops)

/-- The lowest stuck satisfier of a member. -/
def WaitOp.nextIn (m : WaitOp) (l : List WaitOp) : Option WaitOp :=
  match lowestNode (m.sats.filter fun t => l.any (·.node == t)) with
  | none => none
  | some t => l.find? (·.node == t)

/-- Nodes reachable along stuck satisfiers. -/
def reachStuck (l : List WaitOp) : Nat → List Node → List Node
  | 0, ns => ns
  | n + 1, ns => reachStuck l n ((ns ++ (l.filter fun m => ns.contains m.node).flatMap fun m => m.sats.filter fun t => l.any (·.node == t)).eraseDups)

def succs (l : List WaitOp) (m : WaitOp) : List Node := m.sats.filter fun t => l.any (·.node == t)
def reaches (l : List WaitOp) (m : WaitOp) : List Node := reachStuck l l.length (succs l m)

/-- The members of the strongly connected part of a member on a cycle. -/
def partOf (l : List WaitOp) (m : WaitOp) : List WaitOp :=
  if !(reaches l m).contains m.node then [] else l.filter fun k => (reaches l m).contains k.node && (reaches l k).contains m.node

/-- Follow the lowest stuck satisfier within a part, from its lowest member, until a member comes again. -/
def cycleGo (part : List WaitOp) : Nat → WaitOp → List WaitOp → List WaitOp
  | 0, _, acc => acc
  | n + 1, m, acc =>
    match m.nextIn part with
    | none => acc ++ [m]
    | some k => if (acc ++ [m]).contains k then acc ++ [m] else cycleGo part n k (acc ++ [m])

/-- Every cycle, by its first member. -/
def cyclesOf (l : List WaitOp) : List WaitOp → List Node → List (List WaitOp)
  | [], _ => []
  | m :: ms, seen =>
    if seen.contains m.node then cyclesOf l ms seen
    else match partOf l m with
      | [] => cyclesOf l ms seen
      | p => cycleGo p p.length m [] :: cyclesOf l ms (seen ++ p.map (·.node))

/-- A member at which a chain ends: all of its satisfiers can never act, or it has none. -/
def State.endMember (s : State) (rid : Nat) (m : WaitOp) : Bool := m.sats.all (s.neverActs rid)

/-- Follow a chain until its end, or a member already listed. -/
def State.chainGo (s : State) (rid : Nat) (l : List WaitOp) : Nat → WaitOp → List Node → List WaitOp
  | 0, _, _ => []
  | n + 1, m, seen =>
    if seen.contains m.node then []
    else if s.endMember rid m then [m]
    else match m.nextIn l with
      | none => [m]
      | some k => m :: s.chainGo rid l n k (m.node :: seen)

/-- The open chains, each member listed once. -/
def State.chainsGo (s : State) (rid : Nat) (l : List WaitOp) : List WaitOp → List Node → List (List WaitOp)
  | [], _ => []
  | m :: ms, seen =>
    match s.chainGo rid l l.length m seen with
    | [] => s.chainsGo rid l ms seen
    | c => c :: s.chainsGo rid l ms (seen ++ c.map (·.node))

/-- Operations that begin open chains: they lead to an end, and no other listed member waits upon them, of a cycle or of a chain. -/
def State.openStarts (s : State) (rid : Nat) (l : List WaitOp) (cyc : List Node) : List WaitOp :=
  let leads (m : WaitOp) : Bool := s.endMember rid m || l.any fun k => (reaches l m).contains k.node && s.endMember rid k
  let open_ := l.filter fun m => leads m && !cyc.contains m.node
  let listed := l.filter fun k => cyc.contains k.node || open_.contains k
  open_.filter fun m => !listed.any fun k => k.node ≠ m.node && (succs l k).contains m.node

/-- A wait record (R353). -/
def State.waitRecord (s : State) (rid : Nat) (l : List WaitOp) (cyc pos : Nat) (m : WaitOp) : Beat :=
  let rs := (s.res? rid).getD {}
  let (d, x, y) := match s.elem? ⟨rid, m.elem⟩ with | some e => (e.die, e.x, e.y) | none => (0, 0, 0)
  let isEnd := (m.nextIn l).isNone || s.endMember rid m
  let on : Node := match m.nextIn l with
    | some k => if isEnd then (lowestNode m.sats).getD (0xFFFF, 15) else k.node
    | none => (lowestNode m.sats).getD (0xFFFF, 15)
  beatOf [(0, 0x05), (8, 1), (16, rs.tag % 2 ^ 16), (32, rs.region % 2 ^ 16), (48, cyc % 2 ^ 8), (56, pos % 2 ^ 8), (64, m.elem % 2 ^ 16), (80, d % 8),
    (83, x % 32), (88, y % 32), (96, m.who % 16), (100, m.pc % 2 ^ 12), (112, m.op % 2 ^ 8), (120, m.win % 2 ^ 8), (128, m.offset % 2 ^ 16),
    (144, m.count % 2 ^ 16), (160, m.fill % 2 ^ 16), (176, m.cap % 2 ^ 16), (192, on.1 % 2 ^ 16), (208, on.2 % 16), (212, boolNat isEnd)]

/-- The header and the wait records of a report: at most 255 chains and 65,535 records. -/
def State.reportOf (s : State) (rid : Nat) (l : List WaitOp) : List Beat :=
  let rs := (s.res? rid).getD {}
  let cycles := cyclesOf l l []
  let listed := (l.filter fun m => !(partOf l m).isEmpty).map (·.node)
  let chains := cycles.map (fun c => (c, c)) ++ (s.chainsGo rid l (s.openStarts rid l listed) listed).map fun c => (c, l)
  let kept := chains.take 255
  let recs := ((kept.zip (List.range kept.length)).flatMap fun c => (c.1.1.zip (List.range c.1.1.length)).map fun m => s.waitRecord rid c.1.2 c.2 m.2 m.1)
  let trunc : Bool := kept.length < chains.length || 65535 < recs.length
  let recs := recs.take 65535
  beatOf [(0, 0x05), (16, rs.tag % 2 ^ 16), (32, rs.region % 2 ^ 16), (48, kept.length), (56, boolNat trunc), (64, recs.length), (128, 0x12),
    (192, rs.dlQuiet.toNat), (256, s.cycle % 2 ^ 64)] :: recs

/-- STALL_CNT has reached DL_QUIET: the stuck set is formed; a report is made of it, and the watch is disarmed (R352, R354). -/
def execStallWatchDeclare (s : State) : Out :=
  match s.arg with
  | .id rid =>
    match s.res? rid with
    | none => .next s
    | some rs =>
      if rs.st ≠ .resident || rs.stopped || !rs.armed || rs.stallCnt.toNat < rs.dlQuiet.toNat then .next s
      else
        let l := s.stuckSet rid
        let rep := if l.isEmpty then [] else s.reportOf rid l
        .next (s.modRes rid fun r => { r with armed := false, report := rep })
  | _ => .next s

end Sys2Proof.Machine
end

