-- ==== Sys2Proof/Machine/Debug.lean ====
section
/-! DEFINITION. Captures, link breakpoints, the debug port, the life cycle, debug tokens, revocation and attestation (R338, R339, R358-R368). -/

namespace Sys2Proof.Machine

/-! Captures (R358) -/

/-- The bound context that a CAPTURE write names. -/
def State.captureCtx (s : State) (w : Word) : Option CtxRef :=
  match s.ress.find? fun p => p.2.region == (w.extractLsb' 0 16).toNat && p.2.st.holds with
  | none => none
  | some p =>
    let r : CtxRef := ⟨p.1, (w.extractLsb' 16 16).toNat, (w.extractLsb' 32 3).toNat⟩
    match s.ctx? r with
    | some x => if x.st = .unbound then none else some r
    | none => none

/-- A start packet: the context notes its counters. -/
def execCaptureStart (s : State) : Out :=
  match s.arg with
  | .reg _ w =>
    if w.getLsbD 40 then .next s
    else match s.captureCtx w with
      | none => .next s
      | some r => .next (s.modCtx r fun x => { x with capture := some { pmc := x.pmc.toList, cycle := x.cycleCnt } })
  | _ => .next s

/-- The three elements of a capture record. -/
def State.captureRecord (s : State) (r : CtxRef) (x : Ctx) (c : Capture) : List Beat :=
  let rs := (s.res? r.rid).getD {}
  let d := (x.pmc.toList.zip c.pmc).map fun p => (p.1 - p.2).toNat
  let eight (l : List Nat) : Beat := beatOf ((l.zip (List.range 8)).map fun p => (64 * p.2, p.1))
  [beatOf [(0, 0x12), (8, r.ctx % 8), (11, boolNat (c.outn ≠ 0)), (16, r.elem % 2 ^ 16), (32, rs.region % 2 ^ 16), (48, rs.tag % 2 ^ 16),
     (64, (x.cycleCnt - c.cycle).toNat), (128, c.out % 2 ^ 64), (192, c.outn % 2 ^ 32)], eight (d.take 8), eight (d.drop 8)]

/-- A stop packet: the context writes its record. -/
def execCaptureStop (s : State) : Out :=
  match s.arg with
  | .reg _ w =>
    if !w.getLsbD 40 then .next s
    else match s.captureCtx w with
      | none => .next s
      | some r =>
        match s.ctx? r with
        | none => .next s
        | some x => match x.capture with
          | none => .next s
          | some c => .next ((s.setCtx r { x with capture := none }).trace (s.captureRecord r x c) false)
  | _ => .next s

/-- LINK_BRK[i]: armed from the write onward, or disarmed by n = 0 (R359). -/
def execLinkBrk (s : State) : Out :=
  match s.arg with
  | .reg off w =>
    if h : (off - 0x440) / 8 < 4 then
      .next { s with bar0 := { s.bar0 with linkBrk := s.bar0.linkBrk.set ((off - 0x440) / 8) (w &&& 0xFFFFFF1FFFFFFFFF) },
                     brkCnt := s.brkCnt.set ((off - 0x440) / 8) 0 }
    else .next s
  | _ => .next s

/-! The debug port (R361, R362) -/

/-- Features: 0 THAW, 1 READ_FABRIC, 2 READ_HUB; all are open outside FIELD (R363, R364). -/
def State.features (s : State) : BitVec 3 := match s.sec.life with | .field => s.sec.openFeatures | _ => 7

def bitsOf (n x : Nat) : List Bool := (List.range n).map fun i => bitOf x i
def bytesBits (bs : List Byte) : List Bool := bs.flatMap fun b => bitsOf 8 b.toNat

def State.tap (s : State) (ir : Byte) (out : List Bool) : State := { s with dbg := { s.dbg with ir := ir, out := out } }
def State.bypass (s : State) : State := s.tap 0xFF [false]

/-- IDCODE: 0x108802A3. -/
def execIdcode (s : State) : Out := .next (s.tap 0x01 (bitsOf 32 0x108802A3))

/-- x‖y of the identity key, 96 bytes, while the device has one (R363). -/
def State.identity (s : State) : List Byte :=
  match s.sec.life with
  | .provisioned | .field => (bytesLE 96 Config.identityKey.toNat).reverse
  | _ => List.replicate 96 0

def devidBytes : List Byte := bytesLE 16 Config.devid.toNat
def State.nonceBytes (s : State) : List Byte := bytesLE 32 (Config.nonce s.sec.resets).toNat

/-- DEVID, the reset nonce and the identity public key: 1,152 bits. -/
def execDevid (s : State) : Out := .next (s.tap 0x02 (bytesBits (devidBytes ++ s.nonceBytes ++ s.identity)))

/-- FREEZE: every clock stops (R362). -/
def execDebugFreeze (s : State) : Out :=
  let t := s.tap 0x10 []
  .next { t with dbg := { t.dbg with frozen := true } }

/-- The FREEZE pin. -/
def execFreezePin (s : State) : Out := .next { s with dbg := { s.dbg with frozen := true } }

/-- THAW: the clocks restart; a closed feature selects BYPASS. -/
def execThaw (s : State) : Out :=
  if !s.features.getLsbD 0 then .next s.bypass
  else
    let t := s.tap 0x11 []
    .next { t with dbg := { t.dbg with frozen := false } }

/-- SELECT. -/
def execDebugSelect (s : State) : Out :=
  match s.arg with
  | .reg _ w =>
    let t := s.tap 0x20 []
    .next { t with dbg := { t.dbg with select := w, word := w.extractLsb' 18 46 } }
  | _ => .next s

/-- Word n of bytes; none beyond them. -/
def wordIn (bs : List Byte) (n : Nat) : Option Nat := if 8 * n + 8 ≤ bs.length then some (ofBytesLE ((bs.drop (8 * n)).take 8)) else none

/-- The register operand that word n of a context record belongs to. -/
def recOperand (n : Nat) : Option Nat :=
  if n < 256 then some (0x40 + n / 8) else if n < 288 then some (n - 256) else if n < 320 then some (0x80 + (n - 288) / 2)
  else if n < 328 then some (0xC0 + (n - 320)) else none

/-- Words of a class of an element of a kind, where the spec gives its size: a context record, the window store, the instruction store. -/
def classWords (cls : Nat) (k : EKind) : Option Nat :=
  if cls < 8 then some (if k == .tile then 384 else 0)
  else if cls = 9 then some (match k with | .tile => 17408 * 4 | .mu => 139264 * 4 | _ => 0)
  else if cls = 10 then some (if k == .tile then 4096 else 0)
  else none

/-- The kind of element at a site of a die (R13, R14). -/
def siteKind (x y : Nat) : Option EKind :=
  if 1 ≤ x && x ≤ 16 && 1 ≤ y && y ≤ 16 then some .tile
  else if (x = 0 || x = 17) && 1 ≤ y && y ≤ 16 then some .mu
  else if 1 ≤ x && x ≤ 16 && (y = 0 || y = 17) then some .edge
  else none

/-- A site of a die stands under FREEZE or in a stopped region: in a rectangle of one, or as the host of an element of it, an operator among them (R360-R362). -/
def State.siteHeld (s : State) (die x y : Nat) : Bool :=
  (s.dbg.frozen && die < 8) || s.ress.any fun p => p.2.stopped && p.2.st.holds &&
    ((p.2.dies.any fun d => d.1 == die && d.2.1 ≤ x && x < d.2.1 + p.2.width && d.2.2 ≤ y && y < d.2.2 + p.2.height) ||
      s.elems.any fun q => q.1.rid == p.1 && q.2.die == die && q.2.x == x && q.2.y == y)

/-- What a read finds: data and UNCORR; none gives NOTHELD. Free values (log 5) are the contents of classes 11, 12 and 14, whose layout and size the spec does not give, and what stands at a site that hosts no tile, MU or edge element, or of a context that none binds, which FREEZE and a stop of its region hold all the same. -/
def State.debugWord (s : State) : Option (Nat × Bool) :=
  let sel := s.dbg.select.toNat
  let cls := field sel 17 14
  let n := s.dbg.word.toNat
  let die := field sel 3 0
  let free : Option (Nat × Bool) :=
    if Config.choice s.serial % 2 = 0 then none else some ((Config.freeWord s.serial).toNat % 2 ^ 64, false)
  let word : Nat := (Config.freeWord s.serial).toNat % 2 ^ 64
  let site := s.elems.find? fun p => p.2.die == die && p.2.x == field sel 8 4 && p.2.y == field sel 13 9 && p.2.kind != .op &&
    (match s.res? p.1.rid with | some rs => rs.st.holds && (s.dbg.frozen || rs.stopped) | none => false)
  if cls = 15 then none
  else if cls = 14 then (if s.dbg.frozen then free else none)
  else if cls = 13 then
    if (s.dbg.frozen || s.siteHeld die (field sel 8 4) (field sel 13 9)) && physOk false (8 * n) 8 then some (s.gddr.word (8 * n) 8, s.badMem.contains n) else none
  else
    match site with
    | none =>
      if !s.siteHeld die (field sel 8 4) (field sel 13 9) then none
      else match siteKind (field sel 8 4) (field sel 13 9) with
        | none => none
        | some k => match classWords cls k with
          | some m => if n < m then some (word, false) else none
          | none => free
    | some (e, el) =>
      if cls < 8 then
        match s.ctx? (e.ctx cls) with
        | none => match classWords cls el.kind with
          | some m => if n < m then some (word, false) else none
          | none => none
        | some x => (wordIn (x.record 0) n).map fun w => (w, match recOperand n with | some o => x.bad.contains o | none => false)
      else if cls = 8 then (wordIn (s.elemRecord e) n).map fun w => (w, false)
      else if cls = 9 then
        if n < (classWords cls el.kind).getD 0 then some (el.store.word (8 * n) 8, el.bad.contains n) else none
      else if cls = 10 then
        match s.tile? e with
        | some t => (t.imem[n]?).map fun w => (w.toNat, false)
        | none => none
      else free

/-- READ: 64 data bits, UNCORR, NOTHELD; WORD advances. A closed feature selects BYPASS. -/
def execDebugRead (s : State) : Out :=
  let hub := field s.dbg.select.toNat 17 14 = 14
  if !s.features.getLsbD (if hub then 2 else 1) then .next s.bypass
  else
    let out := match s.debugWord with
      | some (w, u) => bitsOf 64 w ++ [u, false]
      | none => bitsOf 64 0 ++ [false, true]
    let t := s.tap 0x21 out
    .next { t with dbg := { t.dbg with word := t.dbg.word + 1 }, serial := s.serial + 1 }

/-- BYPASS. -/
def execBypass (s : State) : Out := .next s.bypass

/-! Debug tokens (R364, R365) -/

/-- A 48-byte hash, big-endian. -/
def hashBytes (h : BitVec 384) : List Byte := (bytesLE 48 h.toNat).reverse

/-- The status of a token. -/
def State.tokenCheck (s : State) (bs : List Byte) : Nat :=
  let at_ (o n : Nat) : List Byte := (bs.drop o).take n
  let num (o n : Nat) : Nat := ofBytesLE (at_ o n)
  let digest := Config.sha384 (at_ 0 112)
  if bs.length ≠ 320 || num 0 4 ≠ 0x54445856 || num 4 2 ≠ 1 || 8 ≤ num 6 2 || num 104 8 ≠ 0 || num 304 16 ≠ 0 then 1
  else if at_ 8 16 ≠ devidBytes || at_ 24 48 ≠ hashBytes (Config.sha384 s.identity) then 2
  else if at_ 72 32 ≠ s.nonceBytes then 3
  else if Config.sha384 (at_ 208 96) ≠ Config.dbgKey || s.sec.dbgRevoked then 4
  else if !Config.ecdsaOk digest (at_ 112 96) (at_ 208 96) then 5
  else 0

/-- TOKEN: checked in order; OK opens the named features until reset. In BLANK and RETIRED it returns OK and changes nothing. -/
def execDebugToken (s : State) : Out :=
  match s.arg with
  | .data _ bs =>
    match s.sec.life with
    | .blank | .retired => .next { s.tap 0x30 (bitsOf 8 0) with dbg := { (s.tap 0x30 (bitsOf 8 0)).dbg with tokenStatus := 0 } }
    | _ =>
      let c := s.tokenCheck bs
      let t := s.tap 0x30 (bitsOf 8 c)
      .next { t with dbg := { t.dbg with tokenStatus := BitVec.ofNat 8 c },
                     sec := if c = 0 then { t.sec with openFeatures := BitVec.ofNat 3 (ofBytesLE ((bs.drop 6).take 2)) } else t.sec }
  | _ => .next s

/-! The security root (R363, R367, R368) -/

def Life.code : Life → Nat
  | .blank => 0 | .provisioned => 1 | .field => 2 | .retired => 3
def Life.next : Life → Option Life
  | .blank => some .provisioned | .provisioned => some .field | .field => some .retired | .retired => none

/-- LC_ADVANCE: the next code advances the fuse; any other value is discarded. -/
def execLcAdvance (s : State) : Out :=
  match s.arg with
  | .reg _ w =>
    match s.sec.life.next with
    | some l => if w.toNat = l.code then .next { s with sec := { s.sec with life := l } } else .next s
    | none => .next s
  | _ => .next s

/-- What an accepted revocation record names: it is accepted where its signature verifies with the firmware key (R366, R367), which a BLANK device has not (R363). -/
def revocation (life : Life) (bs : List Byte) : Option Nat :=
  let (sig, key, n) := Config.revokeParse bs
  if Config.ecdsaOk (Config.sha384 bs) sig key && Config.sha384 key == Config.fwKey && life != .blank then n else none

/-- REVOKE_GO: a record that verifies blows its revoke bit for good; the register reads 0 once it is decided. -/
def execRevokeGo (s : State) : Out :=
  match s.arg with
  | .reg _ w =>
    if !w.getLsbD 0 then .next s
    else
      let s := { s with bar0 := { s.bar0 with revokeGo := 0 } }
      match revocation s.sec.life (s.host.read s.bar0.revokeAddr.toNat 4096) with
      | none => .next s
      | some n =>
        if n < 8 then .next { s with sec := { s.sec with revoked := s.sec.revoked ||| BitVec.twoPow 8 n } }
        else .next { s with sec := { s.sec with dbgRevoked := true } }
  | _ => .next s

/-- The image that an attestation names: that of a block of a live launch. -/
def State.attested (s : State) (tag block : Nat) : Option Image :=
  if block = 0xFFFF then none
  else match tget s.launches tag with
    | some l => if l.live then (l.blocks[block]?).map (·.image) else none
    | none => none

/-- The report of R368. -/
def State.report (s : State) : List Byte :=
  let tag := (s.bar0.attestSel.extractLsb' 0 16).toNat
  let block := (s.bar0.attestSel.extractLsb' 16 16).toNat
  let im := s.attested tag block
  let body := bytesLE 4 0x41545856 ++ bytesLE 2 1 ++ bytesLE 1 s.sec.life.code ++ bytesLE 1 s.sec.revoked.toNat ++ devidBytes ++
    hashBytes (Config.sha384 s.identity) ++ hashBytes s.sec.measurement ++ bytesLE 4 s.sec.fwVersion ++ bytesLE 4 0 ++
    bytesLE 32 s.bar0.attestNonce.toNat ++ bytesLE 2 tag ++ bytesLE 2 block ++ bytesLE 1 (match im with | some i => i.keyslot | none => 0) ++
    bytesLE 3 0 ++ (match im with | some i => hashBytes i.digest | none => List.replicate 48 0) ++ bytesLE 8 s.features.toNat
  body ++ (bytesLE 96 (Config.identitySign (Config.sha384 body)).toNat).reverse

/-- ATTEST_GO: the report is written and the register clears; in BLANK and RETIRED the report is zero. -/
def execAttestGo (s : State) : Out :=
  match s.arg with
  | .reg _ w =>
    if !w.getLsbD 0 then .next s
    else
      let rep : BitVec 2560 := match s.sec.life with
        | .blank | .retired => 0
        | _ => BitVec.ofNat 2560 (ofBytesLE s.report)
      .next { s with bar0 := { s.bar0 with attestReport := rep, attestGo := 0 } }
  | _ => .next s

end Sys2Proof.Machine
end

