-- ==== Sys2Proof/Machine/Hub.lean ====
section
/-! DEFINITION. The host link's registers, power states, the thermal trip and bring-up (R5, R366, R369-R378). -/

namespace Sys2Proof.Machine

/-! BAR0 (R372) -/

/-- A write to a register that only stores its value; other offsets are discarded. -/
def Bar0.write (b : Bar0) (off : Nat) (w : Word) : Bar0 :=
  match off with
  | 0x0010 => { b with fwAddr := w }
  | 0x0018 => { b with fwLen := w }
  | 0x0080 => { b with ageStep := if w &&& 0xFFFFFFFF = 0 then 1 else w &&& 0xFFFFFFFF }
  | 0x0088 => { b with preemptAfter := w &&& 0xFFFFFFFF }
  | 0x0100 => { b with sharedRootMain := w }
  | 0x0108 => { b with sharedRootBulk := w }
  | 0x0130 => { b with invalStart := w }
  | 0x0138 => { b with invalLength := w }
  | 0x0400 => { b with traceBase := w }
  | 0x0408 => { b with traceSize := w }
  | 0x0418 => { b with traceTail := w }
  | 0x0508 => { b with revokeAddr := w }
  | 0x0600 => { b with attestNonce := b.attestNonce.extractLsb' 64 192 ++ w }
  | 0x0608 => { b with attestNonce := b.attestNonce.extractLsb' 128 128 ++ (w ++ b.attestNonce.extractLsb' 0 64) }
  | 0x0610 => { b with attestNonce := b.attestNonce.extractLsb' 192 64 ++ (w ++ b.attestNonce.extractLsb' 0 128) }
  | 0x0618 => { b with attestNonce := w ++ b.attestNonce.extractLsb' 0 192 }
  | 0x0620 => { b with attestSel := w &&& 0xFFFFFFFF }
  | 0x0A00 => { b with groupSelf := w &&& 0xFFF }
  | 0x0A08 => { b with groupTable := w }
  | 0x0A10 => { b with groupSize := w &&& 0x1FFF }
  | 0x0A18 => { b with collTable := w }
  | _ => b

def execBar0RegisterWrite (s : State) : Out :=
  match s.arg with
  | .reg off w => .next { s with bar0 := s.bar0.write off w }
  | _ => .next s

/-- LAUNCH_ERR bit 0 is cleared by writing 1. -/
def execLaunchErrClear (s : State) : Out :=
  match s.arg with
  | .reg _ w => .next { s with bar0 := { s.bar0 with launchErr := s.bar0.launchErr &&& ~~~(w &&& 1) } }
  | _ => .next s

/-- DEV_STATUS. -/
def Sec.status (x : Sec) : Word :=
  BitVec.ofNat 64 (fields [(0, boolNat x.ready), (1, boolNat x.fwOk), (4, x.bootStage.toNat), (8, x.bootErr.toNat), (16, x.life.code)])

def Power.code : Power → Nat
  | .run => 0 | .idle => 1 | .park => 2

/-- POWER_STATE (R374). -/
def State.powerState (s : State) : Word :=
  BitVec.ofNat 64 (fields ((List.finRange 8).map (fun d => (2 * d.val, (s.power.get d).code)) ++
    [(16, s.selfRefresh.toNat), (24, boolNat s.powerCmd.isSome), (25, s.powerErr.toNat)]))

/-- The hottest die's temperature (R372). -/
def State.hottest (s : State) : Nat := s.temps.toList.foldl (fun m t => max m t.toNat) 0

/-- THERM_STATUS. -/
def State.therm (s : State) : Word :=
  BitVec.ofNat 64 (fields [(0, s.hottest), (8, boolNat s.bar0.tripped), (9, s.bar0.tripDie.toNat)])

/-- What a 16-byte read of FAULT_HEAD returns: the oldest record, or zeros; the step `execFaultHead` takes it (R290). -/
def State.faultHead (s : State) : BitVec 128 := s.faultq.headD 0

/-- The value of a BAR0 register, as a host read returns it. -/
def State.bar0Read (s : State) (off : Nat) : Word :=
  let b := s.bar0
  if off = 0x0000 then s.sec.status
  else if off = 0x0010 then b.fwAddr else if off = 0x0018 then b.fwLen else if off = 0x0020 then b.fwLoad
  else if off = 0x0040 then BitVec.ofNat 64 s.free_ else if off = 0x0048 then b.launchErr
  else if off = 0x0080 then b.ageStep else if off = 0x0088 then b.preemptAfter
  else if off = 0x0100 then b.sharedRootMain else if off = 0x0108 then b.sharedRootBulk
  else if off = 0x0110 then s.faultHead.extractLsb' 0 64 else if off = 0x0118 then s.faultHead.extractLsb' 64 64
  else if off = 0x0130 then b.invalStart else if off = 0x0138 then b.invalLength else if off = 0x0140 then b.invalGo
  else if off = 0x0208 then s.powerState else if off = 0x0210 then s.therm
  else if 0x0300 ≤ off && off ≤ 0x0338 && off % 8 = 0 then (b.softDie.toList[(off - 0x300) / 8]?).getD 0
  else if off = 0x0340 then b.softHub
  else if off = 0x0400 then b.traceBase else if off = 0x0408 then b.traceSize else if off = 0x0410 then b.traceHead else if off = 0x0418 then b.traceTail
  else if 0x0440 ≤ off && off ≤ 0x0458 && off % 8 = 0 then (b.linkBrk.toList[(off - 0x440) / 8]?).getD 0
  else if off = 0x0508 then b.revokeAddr else if off = 0x0510 then b.revokeGo
  else if 0x0600 ≤ off && off ≤ 0x0618 && off % 8 = 0 then BitVec.ofNat 64 (b.attestNonce.toNat / 2 ^ (8 * (off - 0x600)))
  else if off = 0x0620 then b.attestSel else if off = 0x0628 then b.attestGo
  else if 0x0800 ≤ off && off ≤ 0x0938 && off % 8 = 0 then BitVec.ofNat 64 (b.attestReport.toNat / 2 ^ (8 * (off - 0x800)))
  else if off = 0x0A00 then b.groupSelf else if off = 0x0A08 then b.groupTable else if off = 0x0A10 then b.groupSize else if off = 0x0A18 then b.collTable
  else if 0x0B00 ≤ off && off ≤ 0x0B58 && off % 8 = 0 then (b.ethStatus.toList[(off - 0xB00) / 8]?).getD 0
  else 0

/-- An element of the event window, zeros beyond F; and F (R371). -/
def State.bar2Event (s : State) (o : Nat) : Beat := (s.eventWin[o]?).getD 0
def State.bar2Fill (s : State) : Nat := s.eventWin.length

/-- A byte of BAR2 as a read returns it: the event window's elements at 0x1_0000, F at 0x2_0000, 0 elsewhere (R371). -/
def State.bar2Byte (s : State) (off : Nat) : Byte :=
  if 0x10000 ≤ off && off < 0x20000 then (beatBytes (s.bar2Event ((off - 0x10000) / 64))).getD (off % 64) 0
  else if 0x20000 ≤ off && off < 0x20008 then (bytesLE 8 s.bar2Fill).getD (off - 0x20000) 0
  else 0

/-- A host read returns later: an earlier host write is not yet accepted (R370), as letters stand on the host's side of the link (R262), or the device is under FREEZE and answers no request (R362). -/
def State.readWaits (s : State) : Bool := !s.launchHeld.isEmpty || s.dbg.frozen

/-- A host read of a BAR0 register, or of n bytes of BAR2; none while it waits (R362, R370). -/
def State.hostRead0 (s : State) (off : Nat) : Option Word := if s.readWaits then none else some (s.bar0Read off)
def State.hostRead2 (s : State) (off n : Nat) : Option (List Byte) :=
  if s.readWaits then none else some ((List.range n).map fun i => s.bar2Byte (off + i))

/-- The step of a host write to BAR2: letters in the launch port, whose address within the port is ignored but for its alignment; EVENT_SHRINK at 0x2_0008; other writes are discarded (R371). -/
def bar2Write (off : Nat) (bs : List Byte) : Option (Instr × StepArg) :=
  if off < 0x10000 then some (.launchPortWrite, .data off bs)
  else if off = 0x20008 then some (.eventShrink, .reg off (BitVec.ofNat 64 (ofBytesLE (bs.take 8))))
  else none

/-! Resets and bring-up (R5, R378) -/

/-- Everything but fuses goes; what is outside the device, the free-value counter and the number of resets go on. -/
def State.fusesOnly (s : State) : State :=
  { (State.reset) with
    host := s.host, inputs := s.inputs, nature := s.nature, serial := s.serial,
    sec := { life := s.sec.life, revoked := s.sec.revoked, dbgRevoked := s.sec.dbgRevoked, resets := s.sec.resets + 1 } }

/-- Stage 1 begins. -/
def State.bringUp (s : State) : State :=
  let t := s.fusesOnly
  { t with sec := { t.sec with bootStage := 1 } }

/-- DEV_RESET: a write of 0x5253 resets the device. -/
def execDevReset (s : State) : Out :=
  match s.arg with
  | .reg _ w => if w = 0x5253 then .next s.bringUp else .next s
  | _ => .next s

def execPowerOn (s : State) : Out := .next s.bringUp
def execConventionalReset (s : State) : Out := .next s.bringUp
/-- Power is removed: all state but fuses is lost. -/
def execPowerRemoval (s : State) : Out := .next s.fusesOnly

/-- Stage 7 begins. -/
def State.stage7 (s : State) : State := { s with sec := { s.sec with bootStage := 7, awaitFw := false } }

/-- FW_LOAD: 1 requests the load; stage 7 begins, where stage 6 has ended (R378). -/
def execFwLoad (s : State) : Out :=
  match s.arg with
  | .reg _ w =>
    if w ≠ 1 then .next s
    else
      let t := { s with bar0 := { s.bar0 with fwLoad := 1 } }
      .next (if s.sec.awaitFw then t.stage7 else t)
  | _ => .next s

/-- A stage fails: BOOT_ERR, vector 3, and the sequence halts. -/
def State.bootFail (s : State) : State :=
  State.raise { s with sec := { s.sec with bootErr := s.sec.bootStage.setWidth 8 }, bar0 := { s.bar0 with fwLoad := 0 } } 3

/-- The security root accepts a firmware (R366). -/
def State.firmware (s : State) : Option (BitVec 384 × Nat) :=
  let bs := s.host.read s.bar0.fwAddr.toNat s.bar0.fwLen.toNat
  let (sig, key, ver) := Config.fwParse bs
  let h := Config.sha384 bs
  let lifeOk : Bool := match s.sec.life with | .provisioned | .field => true | _ => false
  if Config.ecdsaOk h sig key && Config.sha384 key == Config.fwKey && Config.fwMinVersion ≤ ver && lifeOk then some (h, ver) else none

/-- Stage 6: windows, registers and memories hold zero, untagged. -/
def State.zeroed (s : State) : State := { s with gddr := [], bulk := [], gddrTags := [], bulkTags := [], badMem := [], badBulk := [] }

/-- A bring-up stage ends (R378); behind stage 6, stage 7 begins once FW_LOAD has been written. -/
def execBootStageComplete (s : State) : Out :=
  match s.arg with
  | .bool ok =>
    let n := s.sec.bootStage.toNat
    if n = 0 || s.sec.bootErr ≠ 0 || s.sec.ready || s.sec.awaitFw then .next s
    else if n = 7 then
      match s.firmware with
        | some (h, v) =>
          .next (State.raise { s with sec := { s.sec with fwOk := true, ready := true, measurement := h, fwVersion := v },
                                      bar0 := { s.bar0 with fwLoad := 0 } } 3)
        | none => .next s.bootFail
    else if !ok then .next s.bootFail
    else if n = 6 then .next (if s.bar0.fwLoad = 1 then s.zeroed.stage7 else { s.zeroed with sec := { s.sec with awaitFw := true } })
    else .next { s with sec := { s.sec with bootStage := s.sec.bootStage + 1 } }
  | _ => .next s

/-! Power (R374-R377) -/

def PERR_BUSY : BitVec 3 := 1
def PERR_HOT : BitVec 3 := 2
def PERR_BAD : BitVec 3 := 3

/-- A residency, a restore or a grant occupies the die, or a pool object is configured. -/
def State.occupied (s : State) (d : Nat) : Bool :=
  (s.holders.any fun p => p.2.dies.any (·.1 == d)) || s.pools.any fun p => p.2.configured.isSome

/-- Cycles of a transition. -/
def transitTime : Power → Power → Nat
  | .run, .idle => 5400
  | .idle, .run => 5400
  | .run, .park => 135000
  | .idle, .park => 135000
  | .park, .run => 5400000
  | _, _ => 0

/-- A POWER_CMD write, checked in the order of R375; a trip of the same cycle overrides it (R377). -/
def State.powerWrite (s : State) (w : Word) : State :=
  let d : Fin 8 := ⟨(w.extractLsb' 0 3).toNat, by omega⟩
  let sr := w.getLsbD 8
  let now := s.power.get d
  let err (e : BitVec 3) : State := { s with powerErr := e }
  let go (goal : Power) : State :=
    let t := max (transitTime now goal) (if sr ≠ s.selfRefresh.getLsbD d.val then 27000 else 0)
    let b := if goal = .run then { s.bar0 with tripped := false } else s.bar0
    { s with powerCmd := some { die := d.val, goal := goal, sr := sr, due := s.cycle + t }, powerErr := 0, bar0 := b }
  if s.tripAt = some s.cycle then s
  else if s.powerCmd.isSome then err PERR_BUSY
  else match (w.extractLsb' 4 2).toNat with
    | 0 => if sr then err PERR_BAD else if s.bar0.tripped && 95 < s.hottest then err PERR_HOT else go .run
    | 1 => if s.occupied d.val then err PERR_BUSY else if now = .park then err PERR_BAD else go .idle
    | 2 => if s.occupied d.val then err PERR_BUSY else go .park
    | _ => err PERR_BAD

/-- The rows of POWER_CMD share one write; each acts on its own STATE code, and PARK's row on the reserved one too, which the checks refuse. -/
def powerRow (codes : List Nat) (s : State) : Out :=
  match s.arg with
  | .reg _ w => if codes.contains (w.extractLsb' 4 2).toNat then .next (s.powerWrite w) else .next s
  | _ => .next s

def execPowerRun (s : State) : Out := powerRow [0] s
def execPowerIdle (s : State) : Out := powerRow [1] s
def execPowerPark (s : State) : Out := powerRow [2, 3] s

/-- A die's fabric loses power: the commands and queries of its islands, with what they were to send, its ports' registers and its tiles' registers are gone (R5, R375). -/
def State.parkDie (s : State) (d : Nat) : State :=
  let clear (k : PortRef) (p : Port) : Port := if k.die = d then {} else p
  let lost := (s.cmds.filter fun c : Cmd => c.port.die = d).map (·.id)
  { s with cmds := s.cmds.filter (fun c : Cmd => c.port.die ≠ d),
           flows := s.flows.map (fun f => { f with unacked := f.unacked.filter fun b => !lost.contains b.2.2.2 }),
           queries := s.queries.filter (fun p => p.1.die ≠ d), heldBeats := s.heldBeats.filter (·.die ≠ d), ports := tmap s.ports clear,
           softTiles := s.softTiles.filter fun p => p.1.1 ≠ d }

/-- A transition is complete: PEND clears, vector 2 is raised. -/
def execPowerTransitionDone (s : State) : Out :=
  match s.powerCmd with
  | none => .next s
  | some c =>
    if s.cycle < c.due then .next s
    else
      let s := if c.goal = .park then s.parkDie c.die else s
      let pw := if h : c.die < 8 then s.power.set c.die c.goal else s.power
      let bit : BitVec 8 := BitVec.twoPow 8 c.die
      .next (State.raise { s with power := pw, powerCmd := none, selfRefresh := if c.sr then s.selfRefresh ||| bit else s.selfRefresh &&& ~~~bit } 2)

/-- After a trip, once the launches that it ended have ended, every die is parked with its GDDR in self-refresh (R376, R377). A power command under way is dropped: PEND clears, with its vector (R369). -/
def State.tripGo (s : State) : State :=
  match s.tripWait with
  | none => s
  | some seqs =>
    if s.launches.any fun p => p.2.live && seqs.contains p.2.seq then s
    else
      let t := (List.range 8).foldl State.parkDie { s with power := Vector.replicate 8 .park, selfRefresh := 0xFF, powerCmd := none, tripWait := none }
      if s.powerCmd.isSome then t.raise 2 else t

/-- A die's temperature: at 105 °C the hardware trips, whether or not an earlier trip still shows in TRIPPED (R377). -/
def execThermalTrip (s : State) : Out :=
  match s.arg with
  | .temp d t =>
    let s := { s with temps := if h : d < 8 then s.temps.set d t else s.temps }
    if t.toNat < 105 then .next s
    else
      let live := s.launches.filter (·.2.live)
      let s := { s with bar0 := { s.bar0 with tripped := true, tripDie := BitVec.ofNat 3 d }, powerCmd := none,
                        tripWait := some (live.map (·.2.seq)), tripAt := some s.cycle }
      .next ((((live.filter fun p => !p.2.cancelled).map (·.1)).foldl State.cancelLaunch s).tripGo.raise 2)
  | _ => .next s

end Sys2Proof.Machine
end

