-- ==== Sys2Proof/Machine/Cycle.lean ====
section
/-! DEFINITION. One hub cycle: its boundary, the steps of its two halves in order, and the fetch of a granted word (R8, R10, R17, R70, R278, R346; log 10). -/

namespace Sys2Proof.Machine

/-- A step to make: the instruction and its arguments. -/
abbrev Row := Instr × StepArg

/-! Arrivals from links (R231, R234, R356) -/

/-- What a link delivers stands in its channel: a beat in its slot, a token in the counter, or waiting in the network. -/
def State.land (s : State) (c : ChanRef) (x : Chan) (it : Item) : State :=
  let it := { it with sample := it.sample.map fun t => { t with hops := t.hops ++ [(c.elem, s.cycle, s.cycle)] } }
  let s := s.active c.rid
  if s.savedAt c then { s.setChan c x with outbox := s.outbox ++ [(c, it)] }
  else match it.ctl with
    | some k =>
      if it.slot then s.setChan c { x with items := x.items ++ [it] }
      else if 255 ≤ s.counter c x then s.setChan c { x with held := x.held ++ [it] }
      else match k with
        | .select g => (s.setChan c x).modElem c.at fun e => { e with select := e.select ++ [(c.vc, g)] }
        | _ =>
          if s.declared c then s.setChan c { x with held := x.held ++ [it] }
          else s.setChan c { x with items := x.items ++ [it] }
    | none => s.setChan c { x with items := x.items ++ [it] }

/-- Deliver what is due at one channel: one item in a cycle, in order (R229); a token that waits there keeps its place before what follows it. -/
def State.landGo (s : State) (c : ChanRef) : State :=
  match s.chan? c with
  | none => s
  | some x =>
    match x.flight with
    | (d, .item it) :: fl => if d ≤ s.cycle && x.held.isEmpty then s.land c { x with flight := fl } it else s
    | _ => s

def State.landAll (s : State) : State := s.chans.foldl (fun s p => s.landGo p.1) s

/-! The boundary -/

/-- Events of a cycle that a context's counters select (R28, R31). -/
def Ctx.cycleEvents (x : Ctx) : Ctx :=
  if x.st = .unbound then x
  else
    let x := { x.count 0x01 1 with cycleCnt := x.cycleCnt + 1 }
    match x.st, x.wait with
    | .ready, _ => x.count 0x06 1
    | .wait, some (.window _) | .wait, some (.save ..) | .wait, some (.rest ..) => x.count 0x04 1
    | .wait, some (.accept _) | .wait, some (.reply _) => x.count 0x05 1
    | _, _ => x

/-- A context whose dead letter could not be spilled freezes with DOUBLE at its next instruction boundary (R349). -/
def State.doubleGo (s : State) (r : CtxRef) : State :=
  match s.ctx? r with
  | none => s
  | some x =>
    match x.double with
    | none => s
    | some (va, port) =>
      if x.st = .run || x.st = .idle || x.st = .ready then
        let (i0, i1) := (BitVec.ofNat 64 va, BitVec.ofNat 64 port)
        let y := { x with st := .frozen, was := x.st, trapped := true, double := none, trapCode := 0x0F, info0 := i0, info1 := i1 }
        let s := s.setCtx r y
        s.fileLetter r.rid r.elem r.ctx (letterBeat s r.rid tDOUBLE r.elem r.ctx x.pc.toNat i0.toNat i1.toNat false false true) false
      else s

/-- Fv and Sv move on by a cycle (R224); a vcset applies (R187); the steps of a shard are free again (R300). -/
def State.shift (s : State) : State :=
  { s with
    wins := tmap s.wins fun _ w => { w with fillPrev := w.fillNow, fillNow := 0, shrinkNow := 0 }
    chans := tmap s.chans fun _ c => match c.newFmt with
      | some (f, e) => { c with fmt := f, scale := e, newFmt := none }
      | none => c
    shards := tmap s.shards fun _ x => { x with inserted := false, took := false }
    ctxs := tmap s.ctxs fun k x => { (if s.onFabric k.rid then x.cycleEvents else x) with justRan := false } }

/-- A counter of 32 bits counts, up to its greatest value (R28). -/
def satUp (n : BitVec 32) : BitVec 32 := if n.toNat + 1 < 2 ^ 32 then n + 1 else n

/-- One error of stored bits (R345, R346): a corrected one is counted; one that cannot be corrected is met where the data are used, but for a TLB entry, which is discarded and walked again. -/
def State.ecc (s : State) : Ecc → State
  | .softTile d x y => { s with softTiles := tput s.softTiles (d, x, y) (satUp ((tget s.softTiles (d, x, y)).getD 0)) }
  | .softDie d => s.softDie d
  | .softHub => s.softDie 8
  | .reg r o => s.modCtx r fun x => { x with bad := o :: x.bad }
  | .store e u => s.modElem e fun x => { x with bad := u :: x.bad }
  | .mem false u => { s with badMem := u :: s.badMem }
  | .mem true u => { s with badBulk := u :: s.badBulk }
  | .spill p => s.setPort p { s.port p with bad := true }
  | .pool k n => s.modShard k fun x => { x with elems := x.elems.mapIdx fun i e => if i = n then { e with bad := true } else e }
  | .beat c n => s.modChan c fun x => { x with items := x.items.mapIdx fun i t => if i = n then { t with fault := some .ecc } else t }
  | .tlb p n => s.setPort p { s.port p with tlb := (s.port p).tlb.eraseIdx n }

/-- The errors that have come by this cycle. -/
def State.natureGo (s : State) : State :=
  let due := (s.nature.filter fun p => p.1 ≤ s.cycle).map (·.2)
  due.foldl State.ecc { s with nature := s.nature.filter fun p => s.cycle < p.1 }

/-- Supervisor writes of the cycle before take effect; a weight of a tile whose periodic step falls in this cycle waits for the step (R32, R33). -/
def State.pendAll (s : State) : State :=
  s.tiles.foldl (fun s p => s.pendGo p.1 fun w => !(w.isWeight && s.stepDue p.2 && s.onFabric p.1.rid)) s

/-- Status beats that an engine kept while its die's clocks were gated leave (R375, R381). -/
def State.heldGo (s : State) (rid : Nat) : State :=
  match s.res? rid with
  | some rs => if rs.st == .resident && !rs.closing && s.heldBeats.any (·.chan.rid == rid) then s.sendHeld rid else s
  | none => s

/-- Work that goes on by itself as soon as it can. -/
def State.polls (s : State) : State :=
  let s := (s.ctxs.map (·.1)).foldl State.freezeDue s
  let s := ((s.letterGo.fwdTrim.invalRun.peerRun false).outRun.deferRun).portsRun.wakeAll
  let s := (s.ress.map (·.1)).foldl (fun s r => (s.loadGo r).heldGo r) s
  (s.ctxs.map (·.1)).foldl (fun s r => (s.ctlPoll r).doubleGo r) s.tripGo

/-! The rows of a cycle -/

/-- A residency that acts. -/
def State.runs (s : State) (rid : Nat) : Bool :=
  match s.res? rid with | some rs => rs.st == .resident || rs.st == .draining | none => false

def rowsFor {α β : Type} (l : List (α × β)) (f : α × β → Bool) (i : Instr) (g : α → StepArg) : List Row :=
  (l.filter f).map fun p => (i, g p.1)

/-- A host write of POWER_CMD: it is decided behind the grants of its cycle (R375). -/
def powerInput (i : Instr) : Bool := match i with | .powerRun | .powerIdle | .powerPark => true | _ => false

def State.dueInputs (s : State) : List (Nat × Instr × StepArg) := s.inputs.filter fun p => p.1 ≤ s.cycle

/-- Elements in TILE_ID order. -/
def State.tileOrder (s : State) (l : List ElemRef) : List ElemRef :=
  let id (e : ElemRef) : Nat := match s.elem? e with | some x => x.tileId | none => 0
  sortBy (fun a b => id a < id b) l

/-- The fill-port channels with an island's reply at their head, by the edge port of the island (R26, R223). -/
def State.replies (s : State) : List (Nat × ChanRef) :=
  sortBy (fun (a b : Nat × ChanRef) => a.1 < b.1) (s.chans.filterMap fun p => (s.replyEdge p.1).map fun n => (n, p.1))

/-- First half: inputs of the outside, checkpoint markers, the array, windows and channels; then the engine fills of the lowest edge ports, the replies of the ports of main and behind them the result pairs of the posting engines, at port 12 (R14, R26). A check is over in the cycle after its last sink has seen the marker (R340). -/
def State.firstRows (s : State) : List Row :=
  ((s.dueInputs.filter fun p => !powerInput p.2.1).map (·.2)) ++
  rowsFor s.ress (fun p => p.2.check) .checkpointMarker .id ++
  rowsFor s.chans (fun p => s.markerAt p.1 == some .checkpoint) .checkpointMarker .chan ++
  rowsFor s.tiles (fun p => !p.2.rows.isEmpty) .matrixRowFiring .elem ++
  rowsFor s.banks (fun p => p.2.swap.isSome) .bSwap .bank ++
  rowsFor s.wins (fun p => !p.2.waiters.isEmpty) .windowWaiterRelease .win ++
  rowsFor s.chans (fun p => p.2.port.isSome && s.acts p.1.at && !s.replyHead p.1) .fillAccept .chan ++
  rowsFor s.wins (fun p => !p.2.due.isEmpty) .arrivalToken .win ++
  rowsFor s.chans (fun p => p.2.port.isSome && s.acts p.1.at) .controlTokenPass .chan ++
  rowsFor s.chans (fun p => !p.2.held.isEmpty) .controlBeat .chan ++
  ((s.replies.filter (·.1 < 12)).map fun p => (.fillAccept, .reply p.2)) ++
  s.queries.map fun q => (.queryRunEnd, .query q.1 0)

/-- The island of a command is clocked: in IDLE its die's clocks are gated (R375). -/
def State.cmdClocked (s : State) (id : Nat) : Bool := match s.cmd? id with | some c => s.clocked c.port.die | none => true

/-- What moves at an island. -/
inductive EngineWork where
  | cmd (id : Nat)
  | query (q : QueryRef)
  | reply (c : ChanRef)
  | peers

def State.work (s : State) : EngineWork → State
  | .cmd id => if s.cmdClocked id then (s.copyGo id).netGo id else s
  | .query q => s.queryGo q
  | .reply c => s.fillHead c
  | .peers => s.peerRun true

/-- The work of the islands with the edge port of each: posting engines stand at port 12, the network engine at port 24 (R14); a reply of one of them fills its window in its place (R223). -/
def State.works (s : State) : List (Nat × EngineWork) :=
  ((s.replies.filter (12 ≤ ·.1)).map fun p => (p.1, EngineWork.reply p.2)) ++
  s.cmds.map (fun c => (c.port.port, EngineWork.cmd c.id)) ++ s.queries.map (fun p => (12, EngineWork.query p.1)) ++ [(24, .peers)]

/-- The engines move, by ascending edge port, so that their fills reach a window in that order (R26). -/
def State.engines (s : State) : State :=
  (sortBy (fun (a b : Nat × EngineWork) => a.1 < b.1) s.works).foldl (fun s w => s.work w.2) s

/-- Rows of the islands: pools, commands, queries, accesses, translation. -/
def State.islandRows (s : State) : List Row :=
  let die : List ShardRef := (s.pools.map (·.1)).flatMap fun n => (List.range 8).map fun d => ⟨n, d⟩
  let sh (i : Instr) : List Row := die.map fun p => (i, StepArg.shard p)
  let po (i : Instr) : List Row := s.pools.map fun p => (i, StepArg.pool ⟨p.1⟩)
  let offered : List Cmd := sortBy (fun (a b : Cmd) => s.cmdKey a < s.cmdKey b) (s.cmds.filter fun c : Cmd => c.phase == CPhase.offered)
  let next (a : Acc) : Scope := match a.level with | 0 => .region | 1 => .device | _ => .system
  let ready : List Acc := s.accs.filter fun a : Acc => a.due ≤ s.cycle && match a.place with | .phys .. | .host _ | .peer _ => true | _ => false
  po .agreementWave ++ po .emptyClearing ++ po .topNotesSend ++
  sh .pcfgApply ++ sh .topNotesArrival ++ sh .migrationAnswer ++ sh .migrationArrival ++ sh .poolInsertAccept ++
  sh .remoteTake ++ sh .poolTakeTest ++
  offered.map (fun c => (.engineAccept, .id c.id)) ++
  (s.cmds.filter fun c : Cmd => c.status.isSome && s.clocked c.port.die).map (fun c => (.engineReply, .id c.id)) ++
  s.queries.flatMap (fun q => (List.range 9).map fun n => (.chunkDecode, .query q.1 n)) ++
  s.queries.map (fun q => (.chunkCommit, .query q.1 0)) ++
  (s.accs.filter fun a : Acc => a.place == .parked && a.due ≤ s.cycle).map (fun a => (.pageWalkDone, .id a.id)) ++
  (s.accs.filter fun a : Acc => match a.place with | .dead _ => true | _ => false).map (fun a => (.deadLetterResolve, .id a.id)) ++
  s.ports.flatMap (fun p => p.2.retry.map fun r => (.spillWriteRetry, .id r.1)) ++
  (s.migrs.map (·.page)).eraseDups.map (fun p => (.migration, .page p)) ++
  ready.flatMap (fun a => match a.purpose with
    | .atomic id => if a.level = 0 then [(.sparseUpdateApply, .id id)] else [(.accessComplete, .access a.id (next a))]
    | _ => [(.accessComplete, .access a.id (next a))]) ++
  (s.cmds.filter fun c : Cmd => c.isCopy && c.phase == CPhase.running && s.clocked c.port.die).map (fun c => (.copyCompletion, .id c.id)) ++
  (s.flows.filter fun f => f.unacked.any fun b => b.2.2.1 ≤ s.cycle && s.cmdClocked b.2.2.2).map (fun f => (.peerRetransmit, .id f.id))

/-- A read generator holds the checkpoint marker back behind what it has fetched (R329). -/
def State.holdsMarker (s : State) (e : ElemRef) (el : Elem) : Bool :=
  el.check && !(s.holding e).isEmpty

/-- Rows of the fabric: generators, contexts of a COMPAT image, barriers, tasks. -/
def State.fabricRows (s : State) : List Row :=
  rowsFor s.gens (fun p => p.2.write && s.runs p.1.rid) .addressGeneratorBeat .gen ++
  rowsFor s.gens (fun p => !p.2.write && s.runs p.1.rid) .addressGeneratorBeat .gen ++
  rowsFor s.elems (fun p => s.holdsMarker p.1 p.2) .checkpointMarker .elem ++
  rowsFor s.elems (fun p => p.2.fetch.isSome) .contextFetchDone .elem ++
  rowsFor s.elems (fun p => !p.2.select.isEmpty) .contextSwitch .elem ++
  ((s.remotes.filter fun p => p.2.due ≤ s.cycle).map (·.1)).eraseDups.map (fun e => (.remoteArrival, .elem e)) ++
  rowsFor s.ctxs (fun p => p.2.st == .idle && p.2.tripCnt == 0 && p.2.inMask != 0 && !s.closing p.1.rid) .taskInputsEnded .ctx

/-- Rows of a kind of operator element. -/
def State.opRows (s : State) (p : OpSt → Bool) : List Row :=
  s.ops.flatMap fun q => if s.runs q.1.rid && p q.2 then (match decodeOpc q.2.opc with | some i => [(i, StepArg.elem q.1)] | none => []) else []

/-- A tile's share of a cycle: its issue, and the arrivals its contexts still owe (R188). -/
def State.tileRows (s : State) (e : ElemRef) : List Row :=
  [(.issueGrant, .elem e)] ++ (if s.owesArrival e then [(.remoteArrival, .elem e)] else [])

/-- The array's operators and controllers follow the tasks, whose takes free slots for them; a controller goes before the operators that fill its channels (R232). -/
def State.operatorRows (s : State) : List Row :=
  s.opRows (fun o => 0x8 ≤ o.opc && o.opc ≤ 0xA) ++ s.opRows fun o => !(0x8 ≤ o.opc && o.opc ≤ 0xA)

/-- Round and cut markers, and stops, act behind the issue of their cycle: a trap of the same cycle is taken (R21). -/
def State.markerRows (s : State) : List Row :=
  rowsFor s.chans (fun p => s.markerAt p.1 == some .round || s.markerAt p.1 == some .cut) .roundMarker .chan ++
  rowsFor s.ress (fun p => p.2.cutDue.isSome) .regionStop .id

/-- Windows on which a wsave or wrest is in progress: they are scanned again before any new word, should it end in this cycle (R225). -/
def State.busyRows (s : State) : List Row :=
  rowsFor s.wins (fun p => p.2.busy.isSome && !p.2.waiters.isEmpty) .windowWaiterRelease .win

/-- Posted tokens that are due, with an arrival cycle that p admits: those that wait since an earlier cycle first, those of one cycle by TILE_ID and context (R138, R225, R270). -/
def State.duePosts (s : State) (p : Nat → Bool) : List CtxRef :=
  let key (p : Nat × Nat × CtxRef × Nat × Nat × BitVec 256) : Nat := 8 * p.2.1 + p.2.2.1.ctx
  (sortBy (fun (a b : Nat × Nat × CtxRef × Nat × Nat × BitVec 256) => a.1 < b.1 || (a.1 == b.1 && key a < key b))
    (s.posts.filter fun q => q.1 ≤ s.cycle && p q.1)).map (·.2.2.1)

/-- Links whose retries have reached their limit (R348). -/
def State.linksDue (s : State) : List LinkRef := (s.retries.filter fun p => 1024 ≤ p.2 && !s.linksDown.contains p.1).map (·.1)

/-- Rows of the tokens, of which a forward goes ahead of what reached its entry window in its cycle or later, with the loader's letter in its place among them, of the loader, the scheduler and the supervisors; then the arbiters' grants, and what ends. -/
def State.hubRows (s : State) : List Row :=
  let letter : List Row := match s.launchWin with | b :: _ => [(decodeLetter (lKind b), .none)] | [] => []
  let posts (p : Nat → Bool) : List Row := (s.duePosts p).flatMap fun r => [(.tokenForward, .none), (.threadTokenAccepted, .ctx r)]
  -- a TOKEN letter that waits since cycle w stands behind the posts up to it, and ahead of those of later cycles
  posts (fun d => match s.letterAt with | some w => d ≤ w | none => true) ++ [(.tokenForward, .none)] ++ letter ++
  posts (fun d => match s.letterAt with | some w => w < d | none => false) ++ (if s.letterAt.isSome then [(.tokenForward, .none)] else []) ++
  [(.ageStepExpiry, .none), (.blockScheduler, .none)] ++
  rowsFor s.launches (fun p => p.2.live) .launchDrained .id ++
  s.eventWait.map (fun _ => (.eventRecordFill, .none)) ++
  rowsFor s.ress (fun p => !p.2.letters.isEmpty || !p.2.report.isEmpty) .trapLetterDelivery .id ++
  rowsFor s.ress (fun p => p.2.armed && p.2.st == .resident) .stallWatchDeclare .id ++
  rowsFor s.ress (fun p => p.2.st == .draining) .drainComplete .id ++ rowsFor s.ress (fun p => p.2.st == .saving) .saveComplete .id ++
  rowsFor s.ress (fun p => p.2.st == .saving || p.2.st == .saved || p.2.st == .restoring) .lateData .id ++
  rowsFor s.ress (fun p => p.2.st == .restoring) .restore .id ++
  (s.linksDue.map fun l => (.linkDown, .link l)) ++
  rowsFor s.tiles (fun p => s.stepDue p.2 && s.onFabric p.1.rid) .arbWeightStep .elem ++ s.busyRows ++
  (s.tileOrder ((s.tiles.filter fun p => s.runs p.1.rid).map (·.1))).flatMap s.tileRows ++ s.operatorRows ++ s.markerRows ++
  rowsFor s.ress (fun p => p.2.st != .ended && p.2.st != .saved) .residencyEnd .id ++
  (if s.powerCmd.isSome then [(.powerTransitionDone, .none)] else [])

/-! The cycle -/

/-- A cycle begins: residencies that are over end, the watch counts the cycle before, the hub cycle advances, links deliver, what waited for the boundary takes effect. -/
def State.boundary_ (s : State) : State :=
  let s := (s.ress.map (·.1)).foldl State.stallGo ((s.ress.map (·.1)).foldl State.closeGo s)
  let s := ({ s with busy := [], cycle := s.cycle + 1, half := false }).shift
  let s := s.natureGo.pendAll.landAll.polls
  { s with agenda := s.firstRows, inputs := s.inputs.filter fun p => !(p.1 ≤ s.cycle && !powerInput p.2.1) }

/-- Instructions of the debug port, the FREEZE pin, resets and power act while the clocks stand (R362). -/
def clockless (i : Instr) : Bool :=
  match i with
  | .idcode | .devid | .debugFreeze | .freezePin | .thaw | .debugSelect | .debugRead | .debugToken | .bypass
  | .powerOn | .conventionalReset | .devReset | .powerRemoval => true
  | _ => false

/-- While the clocks stand the next debug step is made, if one waits (R362). -/
def State.frozenGo (s : State) : State :=
  match s.inputs.findIdx? fun p => clockless p.2.1 with
  | none => s
  | some i => match s.inputs[i]? with
    | some p => { s with agenda := [p.2], inputs := s.inputs.eraseIdx i }
    | none => s

/-- The second half of a cycle: the engines move, then its rows are made; power commands come last. -/
def State.halfGo (s : State) : State :=
  let s := s.engines
  let pw := s.dueInputs.filter fun p => powerInput p.2.1
  { s with half := true, agenda := s.islandRows ++ s.fabricRows ++ s.hubRows ++ pw.map (·.2),
           inputs := s.inputs.filter fun p => !(p.1 ≤ s.cycle && powerInput p.2.1) }

/-- The agenda is empty: the cycle goes on, or the next one begins. -/
def State.turn (s : State) : State :=
  if !s.half then s.halfGo else if s.dbg.frozen then s.frozenGo else s.boundary_

/-! A word in the smallest residency (log 11) -/

/-- The window a word names, configured with a size its load check takes (R69, R83); none where the word names none. -/
def winFor (e : ElemRef) (w : Word) : Tbl WinRef Window :=
  match decode w with
  | .error _ => []
  | .ok i =>
    match winNeed i with
    | none => []
    | some (n, fits) =>
      (([5, 4, 3, 2, 1, 0] : List (Fin 6)).map fun z => ({ esz := z, cap := 64 } : Window)).find? fits |>.toList.map fun d => (e.win n, d)

/-- A residency of one tile, loaded and granted: its context 0 is in RUN, a supervisor, at pc 0 (log 11). -/
def State.withWord (s : State) (w : Word) : State :=
  let rid := s.nextRid
  let e : ElemRef := ⟨rid, 0⟩
  { s with
    ress := tput s.ress rid { dies := [(0, 1, 1)] }
    elems := tput s.elems e { kind := .tile, x := 1, y := 1 }
    tiles := tput s.tiles e { imem := [w] }
    wins := (winFor e w).foldl (fun l p => tput l p.1 p.2) s.wins
    ctxs := tput s.ctxs (e.ctx 0) { st := .run, sup := true }
    grant := some (e.ctx 0) }

end Sys2Proof.Machine
end

