-- ==== Sys2Proof/Machine/Dispatch.lean ====
section
/-! DEFINITION. One arm per instruction: the call of its meaning. -/

namespace Sys2Proof.Machine

open Sys2Proof

def exec (i : Instr) (s : State) : Host.Outcome State Fault Refusal :=
  match i with
  | .add o => Sys2Proof.Machine.execAdd o s
  | .addImm o => Sys2Proof.Machine.execAddImm o s
  | .sub o => Sys2Proof.Machine.execSub o s
  | .subImm o => Sys2Proof.Machine.execSubImm o s
  | .mul o => Sys2Proof.Machine.execMul o s
  | .mulImm o => Sys2Proof.Machine.execMulImm o s
  | .mulh o => Sys2Proof.Machine.execMulh o s
  | .mulhImm o => Sys2Proof.Machine.execMulhImm o s
  | .mulhN o => Sys2Proof.Machine.execMulhN o s
  | .mulhNImm o => Sys2Proof.Machine.execMulhNImm o s
  | .mulhSn o => Sys2Proof.Machine.execMulhSn o s
  | .mulhSnImm o => Sys2Proof.Machine.execMulhSnImm o s
  | .div o => Sys2Proof.Machine.execDiv o s
  | .divImm o => Sys2Proof.Machine.execDivImm o s
  | .divN o => Sys2Proof.Machine.execDivN o s
  | .divNImm o => Sys2Proof.Machine.execDivNImm o s
  | .rem o => Sys2Proof.Machine.execRem o s
  | .remImm o => Sys2Proof.Machine.execRemImm o s
  | .remN o => Sys2Proof.Machine.execRemN o s
  | .remNImm o => Sys2Proof.Machine.execRemNImm o s
  | .and_ o => Sys2Proof.Machine.execAnd_ o s
  | .andImm o => Sys2Proof.Machine.execAndImm o s
  | .or_ o => Sys2Proof.Machine.execOr_ o s
  | .orImm o => Sys2Proof.Machine.execOrImm o s
  | .xor o => Sys2Proof.Machine.execXor o s
  | .xorImm o => Sys2Proof.Machine.execXorImm o s
  | .andn o => Sys2Proof.Machine.execAndn o s
  | .andnImm o => Sys2Proof.Machine.execAndnImm o s
  | .shl o => Sys2Proof.Machine.execShl o s
  | .shlImm o => Sys2Proof.Machine.execShlImm o s
  | .shr o => Sys2Proof.Machine.execShr o s
  | .shrImm o => Sys2Proof.Machine.execShrImm o s
  | .sra o => Sys2Proof.Machine.execSra o s
  | .sraImm o => Sys2Proof.Machine.execSraImm o s
  | .rot o => Sys2Proof.Machine.execRot o s
  | .rotImm o => Sys2Proof.Machine.execRotImm o s
  | .min o => Sys2Proof.Machine.execMin o s
  | .minImm o => Sys2Proof.Machine.execMinImm o s
  | .minN o => Sys2Proof.Machine.execMinN o s
  | .minNImm o => Sys2Proof.Machine.execMinNImm o s
  | .max o => Sys2Proof.Machine.execMax o s
  | .maxImm o => Sys2Proof.Machine.execMaxImm o s
  | .maxN o => Sys2Proof.Machine.execMaxN o s
  | .maxNImm o => Sys2Proof.Machine.execMaxNImm o s
  | .cmpEq o => Sys2Proof.Machine.execCmpEq o s
  | .cmpEqImm o => Sys2Proof.Machine.execCmpEqImm o s
  | .cmpNe o => Sys2Proof.Machine.execCmpNe o s
  | .cmpNeImm o => Sys2Proof.Machine.execCmpNeImm o s
  | .cmpLt o => Sys2Proof.Machine.execCmpLt o s
  | .cmpLtImm o => Sys2Proof.Machine.execCmpLtImm o s
  | .cmpLe o => Sys2Proof.Machine.execCmpLe o s
  | .cmpLeImm o => Sys2Proof.Machine.execCmpLeImm o s
  | .cmpLtN o => Sys2Proof.Machine.execCmpLtN o s
  | .cmpLtNImm o => Sys2Proof.Machine.execCmpLtNImm o s
  | .cmpLeN o => Sys2Proof.Machine.execCmpLeN o s
  | .cmpLeNImm o => Sys2Proof.Machine.execCmpLeNImm o s
  | .sel o => Sys2Proof.Machine.execSel o s
  | .clz o => Sys2Proof.Machine.execClz o s
  | .ctz o => Sys2Proof.Machine.execCtz o s
  | .popc o => Sys2Proof.Machine.execPopc o s
  | .extI8 o => Sys2Proof.Machine.execExtI8 o s
  | .extN8 o => Sys2Proof.Machine.execExtN8 o s
  | .extI16 o => Sys2Proof.Machine.execExtI16 o s
  | .extN16 o => Sys2Proof.Machine.execExtN16 o s
  | .extI32 o => Sys2Proof.Machine.execExtI32 o s
  | .extN32 o => Sys2Proof.Machine.execExtN32 o s
  | .bfx o => Sys2Proof.Machine.execBfx o s
  | .bfxI o => Sys2Proof.Machine.execBfxI o s
  | .bfi o => Sys2Proof.Machine.execBfi o s
  | .li o => Sys2Proof.Machine.execLi o s
  | .lih o => Sys2Proof.Machine.execLih o s
  | .mov o => Sys2Proof.Machine.execMov o s
  | .kand o => Sys2Proof.Machine.execKand o s
  | .kor o => Sys2Proof.Machine.execKor o s
  | .kxor o => Sys2Proof.Machine.execKxor o s
  | .kandn o => Sys2Proof.Machine.execKandn o s
  | .knot o => Sys2Proof.Machine.execKnot o s
  | .kmovKToS o => Sys2Proof.Machine.execKmovKToS o s
  | .kmovSToK o => Sys2Proof.Machine.execKmovSToK o s
  | .kpopc o => Sys2Proof.Machine.execKpopc o s
  | .kfirst o => Sys2Proof.Machine.execKfirst o s
  | .cnarrow o => Sys2Proof.Machine.execCnarrow o s
  | .cperm o => Sys2Proof.Machine.execCperm o s
  | .cget o => Sys2Proof.Machine.execCget o s
  | .cld o => Sys2Proof.Machine.execCld o s
  | .cst o => Sys2Proof.Machine.execCst o s
  | .loop o => Sys2Proof.Machine.execLoop o s
  | .lmask o => Sys2Proof.Machine.execLmask o s
  | .end_ => Sys2Proof.Machine.execEnd_ s
  | .nop => Sys2Proof.Machine.execNop s
  | .trap o => Sys2Proof.Machine.execTrap o s
  | .smovRead o => Sys2Proof.Machine.execSmovRead o s
  | .smovWrite o => Sys2Proof.Machine.execSmovWrite o s
  | .ctxctlFreeze o => Sys2Proof.Machine.execCtxctlFreeze o s
  | .ctxctlResume o => Sys2Proof.Machine.execCtxctlResume o s
  | .ctxctlKill o => Sys2Proof.Machine.execCtxctlKill o s
  | .ctxctlRestart o => Sys2Proof.Machine.execCtxctlRestart o s
  | .markRound o => Sys2Proof.Machine.execMarkRound o s
  | .markCheckpoint o => Sys2Proof.Machine.execMarkCheckpoint o s
  | .markCut o => Sys2Proof.Machine.execMarkCut o s
  | .tsamp o => Sys2Proof.Machine.execTsamp o s
  | .brkpt o => Sys2Proof.Machine.execBrkpt o s
  | .brkptArmed o => Sys2Proof.Machine.execBrkptArmed o s
  | .tlbinv o => Sys2Proof.Machine.execTlbinv o s
  | .post o => Sys2Proof.Machine.execPost o s
  | .vadd o => Sys2Proof.Machine.execVadd o s
  | .vsub o => Sys2Proof.Machine.execVsub o s
  | .vmul o => Sys2Proof.Machine.execVmul o s
  | .vfma o => Sys2Proof.Machine.execVfma o s
  | .vmin o => Sys2Proof.Machine.execVmin o s
  | .vmax o => Sys2Proof.Machine.execVmax o s
  | .vabs o => Sys2Proof.Machine.execVabs o s
  | .vneg o => Sys2Proof.Machine.execVneg o s
  | .vdiv o => Sys2Proof.Machine.execVdiv o s
  | .vsqrt o => Sys2Proof.Machine.execVsqrt o s
  | .vexp2 o => Sys2Proof.Machine.execVexp2 o s
  | .vlog2 o => Sys2Proof.Machine.execVlog2 o s
  | .vcmpEq o => Sys2Proof.Machine.execVcmpEq o s
  | .vcmpNe o => Sys2Proof.Machine.execVcmpNe o s
  | .vcmpLt o => Sys2Proof.Machine.execVcmpLt o s
  | .vcmpLe o => Sys2Proof.Machine.execVcmpLe o s
  | .vcmpUn o => Sys2Proof.Machine.execVcmpUn o s
  | .vsel o => Sys2Proof.Machine.execVsel o s
  | .vand o => Sys2Proof.Machine.execVand o s
  | .vor o => Sys2Proof.Machine.execVor o s
  | .vxor o => Sys2Proof.Machine.execVxor o s
  | .vandn o => Sys2Proof.Machine.execVandn o s
  | .vshl o => Sys2Proof.Machine.execVshl o s
  | .vshr o => Sys2Proof.Machine.execVshr o s
  | .vsra o => Sys2Proof.Machine.execVsra o s
  | .vcvt o => Sys2Proof.Machine.execVcvt o s
  | .vcvtChannel o => Sys2Proof.Machine.execVcvtChannel o s
  | .vrnd o => Sys2Proof.Machine.execVrnd o s
  | .vscale o => Sys2Proof.Machine.execVscale o s
  | .vpack o => Sys2Proof.Machine.execVpack o s
  | .vunpack o => Sys2Proof.Machine.execVunpack o s
  | .vbsc o => Sys2Proof.Machine.execVbsc o s
  | .vbsx o => Sys2Proof.Machine.execVbsx o s
  | .vhad o => Sys2Proof.Machine.execVhad o s
  | .vredAdd o => Sys2Proof.Machine.execVredAdd o s
  | .vredMin o => Sys2Proof.Machine.execVredMin o s
  | .vredMax o => Sys2Proof.Machine.execVredMax o s
  | .vperm o => Sys2Proof.Machine.execVperm o s
  | .vbcst o => Sys2Proof.Machine.execVbcst o s
  | .vins o => Sys2Proof.Machine.execVins o s
  | .vext o => Sys2Proof.Machine.execVext o s
  | .vsort o => Sys2Proof.Machine.execVsort o s
  | .vhist o => Sys2Proof.Machine.execVhist o s
  | .vsdc o => Sys2Proof.Machine.execVsdc o s
  | .vsdcChannel o => Sys2Proof.Machine.execVsdcChannel o s
  | .vsdadd o => Sys2Proof.Machine.execVsdadd o s
  | .vsdcmp o => Sys2Proof.Machine.execVsdcmp o s
  | .vclass o => Sys2Proof.Machine.execVclass o s
  | .vdot o => Sys2Proof.Machine.execVdot o s
  | .mbld o => Sys2Proof.Machine.execMbld o s
  | .mbldDiag o => Sys2Proof.Machine.execMbldDiag o s
  | .mbsp o => Sys2Proof.Machine.execMbsp o s
  | .bSwap => Sys2Proof.Machine.execBSwap s
  | .mrow o => Sys2Proof.Machine.execMrow o s
  | .mroww o => Sys2Proof.Machine.execMroww o s
  | .mrowwSp o => Sys2Proof.Machine.execMrowwSp o s
  | .matrixRowFiring => Sys2Proof.Machine.execMatrixRowFiring s
  | .mzero o => Sys2Proof.Machine.execMzero o s
  | .mout o => Sys2Proof.Machine.execMout o s
  | .mscaleWindow o => Sys2Proof.Machine.execMscaleWindow o s
  | .mscaleCode o => Sys2Proof.Machine.execMscaleCode o s
  | .mbias o => Sys2Proof.Machine.execMbias o s
  | .mrd o => Sys2Proof.Machine.execMrd o s
  | .mwr o => Sys2Proof.Machine.execMwr o s
  | .mslot o => Sys2Proof.Machine.execMslot o s
  | .wfill o => Sys2Proof.Machine.execWfill o s
  | .wread o => Sys2Proof.Machine.execWread o s
  | .wupd o => Sys2Proof.Machine.execWupd o s
  | .wshrink o => Sys2Proof.Machine.execWshrink o s
  | .wstat o => Sys2Proof.Machine.execWstat o s
  | .wsave o => Sys2Proof.Machine.execWsave o s
  | .wrest o => Sys2Proof.Machine.execWrest o s
  | .windowWaiterRelease => Sys2Proof.Machine.execWindowWaiterRelease s
  | .recv o => Sys2Proof.Machine.execRecv o s
  | .peek o => Sys2Proof.Machine.execPeek o s
  | .send o => Sys2Proof.Machine.execSend o s
  | .vcset o => Sys2Proof.Machine.execVcset o s
  | .barInit o => Sys2Proof.Machine.execBarInit o s
  | .barArrive o => Sys2Proof.Machine.execBarArrive o s
  | .barWait o => Sys2Proof.Machine.execBarWait o s
  | .barAw o => Sys2Proof.Machine.execBarAw o s
  | .barRemote o => Sys2Proof.Machine.execBarRemote o s
  | .remoteArrival => Sys2Proof.Machine.execRemoteArrival s
  | .mld o => Sys2Proof.Machine.execMld o s
  | .mst o => Sys2Proof.Machine.execMst o s
  | .mwrt o => Sys2Proof.Machine.execMwrt o s
  | .mreq o => Sys2Proof.Machine.execMreq o s
  | .wreq o => Sys2Proof.Machine.execWreq o s
  | .fenceRegion o => Sys2Proof.Machine.execFenceRegion o s
  | .fenceDevice o => Sys2Proof.Machine.execFenceDevice o s
  | .fenceSystem o => Sys2Proof.Machine.execFenceSystem o s
  | .ctok o => Sys2Proof.Machine.execCtok o s
  | .cpy o => Sys2Proof.Machine.execCpy o s
  | .cpyq o => Sys2Proof.Machine.execCpyq o s
  | .gth o => Sys2Proof.Machine.execGth o s
  | .sct o => Sys2Proof.Machine.execSct o s
  | .copyCompletion => Sys2Proof.Machine.execCopyCompletion s
  | .aadd o => Sys2Proof.Machine.execAadd o s
  | .aaddF o => Sys2Proof.Machine.execAaddF o s
  | .amin o => Sys2Proof.Machine.execAmin o s
  | .aminF o => Sys2Proof.Machine.execAminF o s
  | .amax o => Sys2Proof.Machine.execAmax o s
  | .amaxF o => Sys2Proof.Machine.execAmaxF o s
  | .aand o => Sys2Proof.Machine.execAand o s
  | .aandF o => Sys2Proof.Machine.execAandF o s
  | .aor o => Sys2Proof.Machine.execAor o s
  | .aorF o => Sys2Proof.Machine.execAorF o s
  | .axor o => Sys2Proof.Machine.execAxor o s
  | .axorF o => Sys2Proof.Machine.execAxorF o s
  | .axchg o => Sys2Proof.Machine.execAxchg o s
  | .axchgF o => Sys2Proof.Machine.execAxchgF o s
  | .acas o => Sys2Proof.Machine.execAcas o s
  | .acasQ o => Sys2Proof.Machine.execAcasQ o s
  | .sparseUpdateApply => Sys2Proof.Machine.execSparseUpdateApply s
  | .plq o => Sys2Proof.Machine.execPlq o s
  | .plterm o => Sys2Proof.Machine.execPlterm o s
  | .plvec o => Sys2Proof.Machine.execPlvec o s
  | .plfuseLin o => Sys2Proof.Machine.execPlfuseLin o s
  | .plfuseRrf o => Sys2Proof.Machine.execPlfuseRrf o s
  | .plrunOr o => Sys2Proof.Machine.execPlrunOr o s
  | .plrunAnd o => Sys2Proof.Machine.execPlrunAnd o s
  | .plrunWand o => Sys2Proof.Machine.execPlrunWand o s
  | .plabort o => Sys2Proof.Machine.execPlabort o s
  | .plresume o => Sys2Proof.Machine.execPlresume o s
  | .chunkDecode => Sys2Proof.Machine.execChunkDecode s
  | .chunkCommit => Sys2Proof.Machine.execChunkCommit s
  | .queryRunEnd => Sys2Proof.Machine.execQueryRunEnd s
  | .pins o => Sys2Proof.Machine.execPins o s
  | .ptake o => Sys2Proof.Machine.execPtake o s
  | .ptry o => Sys2Proof.Machine.execPtry o s
  | .pstat o => Sys2Proof.Machine.execPstat o s
  | .pcfg o => Sys2Proof.Machine.execPcfg o s
  | .pcfgApply => Sys2Proof.Machine.execPcfgApply s
  | .poolInsertAccept => Sys2Proof.Machine.execPoolInsertAccept s
  | .poolTakeTest => Sys2Proof.Machine.execPoolTakeTest s
  | .migrationAnswer => Sys2Proof.Machine.execMigrationAnswer s
  | .migrationArrival => Sys2Proof.Machine.execMigrationArrival s
  | .topNotesSend => Sys2Proof.Machine.execTopNotesSend s
  | .topNotesArrival => Sys2Proof.Machine.execTopNotesArrival s
  | .remoteTake => Sys2Proof.Machine.execRemoteTake s
  | .agreementWave => Sys2Proof.Machine.execAgreementWave s
  | .emptyClearing => Sys2Proof.Machine.execEmptyClearing s
  | .xfill o => Sys2Proof.Machine.execXfill o s
  | .xred o => Sys2Proof.Machine.execXred o s
  | .xbar o => Sys2Proof.Machine.execXbar o s
  | .peerBeatArrival => Sys2Proof.Machine.execPeerBeatArrival s
  | .peerRetransmit => Sys2Proof.Machine.execPeerRetransmit s
  | .engineAccept => Sys2Proof.Machine.execEngineAccept s
  | .engineReply => Sys2Proof.Machine.execEngineReply s
  | .issueGrant => Sys2Proof.Machine.execIssueGrant s
  | .arbWeightStep => Sys2Proof.Machine.execArbWeightStep s
  | .taskInputsEnded => Sys2Proof.Machine.execTaskInputsEnded s
  | .fillAccept => Sys2Proof.Machine.execFillAccept s
  | .arrivalToken => Sys2Proof.Machine.execArrivalToken s
  | .controlTokenPass => Sys2Proof.Machine.execControlTokenPass s
  | .controlBeat => Sys2Proof.Machine.execControlBeat s
  | .addressGeneratorBeat => Sys2Proof.Machine.execAddressGeneratorBeat s
  | .pass => Sys2Proof.Machine.execPass s
  | .fork => Sys2Proof.Machine.execFork s
  | .steer => Sys2Proof.Machine.execSteer s
  | .merge => Sys2Proof.Machine.execMerge s
  | .amerge => Sys2Proof.Machine.execAmerge s
  | .carry => Sys2Proof.Machine.execCarry s
  | .join => Sys2Proof.Machine.execJoin s
  | .gate => Sys2Proof.Machine.execGate s
  | .const => Sys2Proof.Machine.execConst s
  | .sink => Sys2Proof.Machine.execSink s
  | .count => Sys2Proof.Machine.execCount s
  | .select => Sys2Proof.Machine.execSelect s
  | .sequentialController => Sys2Proof.Machine.execSequentialController s
  | .pipelinedController => Sys2Proof.Machine.execPipelinedController s
  | .streamingController => Sys2Proof.Machine.execStreamingController s
  | .contextSwitch => Sys2Proof.Machine.execContextSwitch s
  | .contextFetchDone => Sys2Proof.Machine.execContextFetchDone s
  | .contextStoreAdd => Sys2Proof.Machine.execContextStoreAdd s
  | .launchPortWrite => Sys2Proof.Machine.execLaunchPortWrite s
  | .launch => Sys2Proof.Machine.execLaunch s
  | .token => Sys2Proof.Machine.execToken s
  | .cancel => Sys2Proof.Machine.execCancel s
  | .close => Sys2Proof.Machine.execClose s
  | .release => Sys2Proof.Machine.execRelease s
  | .badKind => Sys2Proof.Machine.execBadKind s
  | .blockScheduler => Sys2Proof.Machine.execBlockScheduler s
  | .ageStepExpiry => Sys2Proof.Machine.execAgeStepExpiry s
  | .residencyEnd => Sys2Proof.Machine.execResidencyEnd s
  | .tokenForward => Sys2Proof.Machine.execTokenForward s
  | .launchDrained => Sys2Proof.Machine.execLaunchDrained s
  | .eventRecordFill => Sys2Proof.Machine.execEventRecordFill s
  | .eventShrink => Sys2Proof.Machine.execEventShrink s
  | .roundMarker => Sys2Proof.Machine.execRoundMarker s
  | .checkpointMarker => Sys2Proof.Machine.execCheckpointMarker s
  | .drainComplete => Sys2Proof.Machine.execDrainComplete s
  | .saveComplete => Sys2Proof.Machine.execSaveComplete s
  | .lateData => Sys2Proof.Machine.execLateData s
  | .restore => Sys2Proof.Machine.execRestore s
  | .stallWatchDeclare => Sys2Proof.Machine.execStallWatchDeclare s
  | .trapLetterDelivery => Sys2Proof.Machine.execTrapLetterDelivery s
  | .pageWalkDone => Sys2Proof.Machine.execPageWalkDone s
  | .deadLetterResolve => Sys2Proof.Machine.execDeadLetterResolve s
  | .spillWriteRetry => Sys2Proof.Machine.execSpillWriteRetry s
  | .migration => Sys2Proof.Machine.execMigration s
  | .faultHead => Sys2Proof.Machine.execFaultHead s
  | .faultAnswer => Sys2Proof.Machine.execFaultAnswer s
  | .invalGo => Sys2Proof.Machine.execInvalGo s
  | .linkRetry => Sys2Proof.Machine.execLinkRetry s
  | .linkDown => Sys2Proof.Machine.execLinkDown s
  | .regionKill => Sys2Proof.Machine.execRegionKill s
  | .regionStop => Sys2Proof.Machine.execRegionStop s
  | .stopRelease => Sys2Proof.Machine.execStopRelease s
  | .linkBrk => Sys2Proof.Machine.execLinkBrk s
  | .captureStart => Sys2Proof.Machine.execCaptureStart s
  | .captureStop => Sys2Proof.Machine.execCaptureStop s
  | .devReset => Sys2Proof.Machine.execDevReset s
  | .powerOn => Sys2Proof.Machine.execPowerOn s
  | .conventionalReset => Sys2Proof.Machine.execConventionalReset s
  | .bootStageComplete => Sys2Proof.Machine.execBootStageComplete s
  | .fwLoad => Sys2Proof.Machine.execFwLoad s
  | .powerRun => Sys2Proof.Machine.execPowerRun s
  | .powerIdle => Sys2Proof.Machine.execPowerIdle s
  | .powerPark => Sys2Proof.Machine.execPowerPark s
  | .powerTransitionDone => Sys2Proof.Machine.execPowerTransitionDone s
  | .thermalTrip => Sys2Proof.Machine.execThermalTrip s
  | .lcAdvance => Sys2Proof.Machine.execLcAdvance s
  | .revokeGo => Sys2Proof.Machine.execRevokeGo s
  | .attestGo => Sys2Proof.Machine.execAttestGo s
  | .bar0RegisterWrite => Sys2Proof.Machine.execBar0RegisterWrite s
  | .idcode => Sys2Proof.Machine.execIdcode s
  | .devid => Sys2Proof.Machine.execDevid s
  | .debugFreeze => Sys2Proof.Machine.execDebugFreeze s
  | .freezePin => Sys2Proof.Machine.execFreezePin s
  | .thaw => Sys2Proof.Machine.execThaw s
  | .debugSelect => Sys2Proof.Machine.execDebugSelect s
  | .debugRead => Sys2Proof.Machine.execDebugRead s
  | .debugToken => Sys2Proof.Machine.execDebugToken s
  | .bypass => Sys2Proof.Machine.execBypass s
  | .accessComplete => Sys2Proof.Machine.execAccessComplete s
  | .threadTokenAccepted => Sys2Proof.Machine.execThreadTokenAccepted s
  | .cumulativeAcknowledgement => Sys2Proof.Machine.execCumulativeAcknowledgement s
  | .ethernetLinkChange => Sys2Proof.Machine.execEthernetLinkChange s
  | .powerRemoval => Sys2Proof.Machine.execPowerRemoval s
  | .launchErrClear => Sys2Proof.Machine.execLaunchErrClear s

end Sys2Proof.Machine
end

