-- ==== Sys2Proof/Machine/Step.lean ====
section
/-! DEFINITION. One step of the machine, and the placing of a word where it is fetched next. -/

namespace Sys2Proof.Machine

/-- One step: the word of the context the arbiter granted, else the next step of the cycle's agenda, else the cycle goes on (log 10). -/
def step (s : State) : Host.Outcome State Fault Refusal :=
  match s.grant with
  | some r =>
    match s.fetch r with
    | .inl s => .next s
    | .inr (i, s) => exec i s
  | none =>
    match s.agenda with
    | (i, a) :: l => exec i { s with agenda := l, arg := a }
    | [] => .next s.turn

/-- The state in which context 0 of a tile of a residency of its own has been granted issue, and its word at pc 0 is this one: a program is loaded by the loader, from outside the machine (log 11). -/
def State.withFetchWord (s : State) (nbits w : Nat) : State := s.withWord (BitVec.ofNat 64 (w % 2 ^ nbits))

end Sys2Proof.Machine
end

