-- ==== Sys2Proof/Safety.lean ====
section
/-! DEFINITION. What counts as a safe run, and the words the statements are made of: which context issues, what moving past a word does to it, what else of the machine stays as it was. -/

namespace Sys2Proof.Safety

open Sys2Proof.Machine

/-- The three memories and every window store list their bytes in the one canonical form. -/
def MemoryCanonical (s : State) : Prop :=
  s.gddr.wf = true ∧ s.bulk.wf = true ∧ s.host.wf = true ∧
    ∀ e el, s.elem? e = some el → el.store.wf = true

/-- `k` steps lead from s to t, with no fault and no refusal. -/
inductive Reaches : Nat → State → State → Prop where
  | refl (s : State) : Reaches 0 s s
  | step {k : Nat} {s t u : State} : step s = .next t → Reaches k t u → Reaches (k + 1) s u

/-- A step that stops. -/
def Stops (s : State) : Prop := (∃ f, step s = .fault f) ∨ (∃ r, step s = .refused r)

/-- The word that exec runs is a word of context r, which holds x. -/
def Issues (s : State) (r : CtxRef) (x : Ctx) : Prop := s.cur = r ∧ s.ctx? r = some x

/-- Byte a of an element's window store. -/
def storeByte (s : State) (e : ElemRef) (a : Nat) : Byte :=
  match s.elem? e with
  | some el => el.store.get a
  | none => 0

/-- Every byte of main memory, of host memory and of every window store, and every hidden tag, reads as before. -/
structure SameBytes (s t : State) : Prop where
  gddr : ∀ a, t.gddr.get a = s.gddr.get a
  bulk : ∀ a, t.bulk.get a = s.bulk.get a
  host : ∀ a, t.host.get a = s.host.get a
  store : ∀ e a, storeByte t e a = storeByte s e a
  gddrTags : t.gddrTags = s.gddrTags
  bulkTags : t.bulkTags = s.bulkTags

/-- Nothing of the machine changes but context r (and the list of residencies active in this cycle). -/
structure OnlyContext (s t : State) (r : CtxRef) : Prop where
  others : ∀ q, q ≠ r → t.ctx? q = s.ctx? q
  rest : t = { s with ctxs := t.ctxs, busy := t.busy }
  bytes : SameBytes s t

/-- What a context is registers, capabilities, flags, counters and special registers apart from its place in the program: all as before. -/
structure SameRegisters (x y : Ctx) : Prop where
  s : y.s = x.s
  v : y.v = x.v
  k : y.k = x.k
  c : y.c = x.c
  flags : y.flags = x.flags
  sra : y.sra = x.sra
  srb : y.srb = x.srb
  fireCnt : y.fireCnt = x.fireCnt
  loopMax : y.loopMax = x.loopMax
  tripCnt : y.tripCnt = x.tripCnt
  trapCode : y.trapCode = x.trapCode
  info0 : y.info0 = x.info0
  info1 : y.info1 = x.info1
  cycleCnt : y.cycleCnt = x.cycleCnt
  pmcSel : y.pmcSel = x.pmcSel
  awarr : y.awarr = x.awarr
  trapped : y.trapped = x.trapped
  sup : y.sup = x.sup
  inMask : y.inMask = x.inMask
  outMask : y.outMask = x.outMask
  inRate : y.inRate = x.inRate
  outRate : y.outRate = x.outRate
  received : y.received = x.received
  sent : y.sent = x.sent
  reserved : y.reserved = x.reserved
  tsamp : y.tsamp = x.tsamp
  armed : y.armed = x.armed
  inHand : y.inHand = x.inHand
  entry : y.entry = x.entry
  awPhase : y.awPhase = x.awPhase
  locks : y.locks = x.locks
  bad : y.bad = x.bad
  double : y.double = x.double
  capture : y.capture = x.capture

/-- The context x has moved past its word and is y: the registers are x's, and so are the marks of those that cannot be corrected, but for that of the loop counter the word writes; pc is the next word, or the loop the word ends goes on; ISSUE is counted; the context is in RUN, or frozen where a freeze waited for the word (R21, R31, R124). -/
structure Past (x y : Ctx) : Prop where
  regs : SameRegisters { x with bad := y.bad } y
  marks : y.bad = match x.loopAt with | none => x.bad | some n => x.bad.filter fun d => d != 0xCC + n.val
  straight : x.loopAt = none → y.pc = x.pc + 1 ∧ y.lc = x.lc ∧ y.loops = x.loops
  again : ∀ n, x.loopAt = some n → 1 < x.loops[n].remaining.toNat →
    y.pc = x.loops[n].start ∧ y.lc[n] = x.lc[n] + 1 ∧
      y.loops[n].remaining = x.loops[n].remaining - 1
  out : ∀ n, x.loopAt = some n → x.loops[n].remaining.toNat ≤ 1 →
    y.pc = x.loops[n].stop + 1 ∧ y.lc[n] = x.lc[n] + 1 ∧ y.loops[n].active = false
  issue : ∀ i : Fin 16, y.pmc[i] = if x.pmcSel[i] = 0x02 then x.pmc[i] + 1 else x.pmc[i]
  run : x.freeze = [] → y.st = .run ∧ y.wait = none
  frozen : x.freeze ≠ [] → y.st = .frozen ∧ y.was = .run

/-- exec of the word answers a next state in which its context, holding x, has moved past it, and nothing else has changed. -/
def Completes (i : Instr) (s : State) (r : CtxRef) (x : Ctx) : Prop :=
  ∃ t y, exec i s = .next t ∧ t.ctx? r = some y ∧ Past x y ∧ OnlyContext s t r

/-- Under a true guard the word writes sD, and only sD, with a value that `rel` allows for the context it ran in, and completes. -/
def WritesS (i : Instr) (g : Guard) (d : SReg) (rel : Ctx → Word → Prop) : Prop :=
  ∀ s r x, Issues s r x → x.guard0 g = true → ∃ v, rel x v ∧ Completes i s r (x.ss d v)

/-- Under a true guard the word writes kD, and only kD, and completes. -/
def WritesK (i : Instr) (g : Guard) (d : KReg) (rel : Ctx → Word → Prop) : Prop :=
  ∀ s r x, Issues s r x → x.guard0 g = true → ∃ v, rel x v ∧ Completes i s r (x.sk d v)

/-- exec of the word takes a trap: the next state is the one in which its context, holding x, has trapped at its pc with that code and those information words (what taking a trap does is State.trap, stated by the statement TrapEntry). -/
def Traps (i : Instr) (s : State) (r : CtxRef) (x : Ctx) (code : Nat) (i0 i1 : Word) : Prop :=
  exec i s = .next (s.trap r x code i0 i1)

/-- The guard of a word on which bit 0 of the guard decides (R62): every word but loop, lmask, end and nop, which have none, and the vector words, whose guard acts on lanes. -/
def wordGuard : Instr → Option Guard
  | .add o => some o.g
  | .addImm o => some o.g
  | .sub o => some o.g
  | .subImm o => some o.g
  | .mul o => some o.g
  | .mulImm o => some o.g
  | .mulh o => some o.g
  | .mulhImm o => some o.g
  | .mulhN o => some o.g
  | .mulhNImm o => some o.g
  | .mulhSn o => some o.g
  | .mulhSnImm o => some o.g
  | .div o => some o.g
  | .divImm o => some o.g
  | .divN o => some o.g
  | .divNImm o => some o.g
  | .rem o => some o.g
  | .remImm o => some o.g
  | .remN o => some o.g
  | .remNImm o => some o.g
  | .and_ o => some o.g
  | .andImm o => some o.g
  | .or_ o => some o.g
  | .orImm o => some o.g
  | .xor o => some o.g
  | .xorImm o => some o.g
  | .andn o => some o.g
  | .andnImm o => some o.g
  | .shl o => some o.g
  | .shlImm o => some o.g
  | .shr o => some o.g
  | .shrImm o => some o.g
  | .sra o => some o.g
  | .sraImm o => some o.g
  | .rot o => some o.g
  | .rotImm o => some o.g
  | .min o => some o.g
  | .minImm o => some o.g
  | .minN o => some o.g
  | .minNImm o => some o.g
  | .max o => some o.g
  | .maxImm o => some o.g
  | .maxN o => some o.g
  | .maxNImm o => some o.g
  | .cmpEq o => some o.g
  | .cmpEqImm o => some o.g
  | .cmpNe o => some o.g
  | .cmpNeImm o => some o.g
  | .cmpLt o => some o.g
  | .cmpLtImm o => some o.g
  | .cmpLe o => some o.g
  | .cmpLeImm o => some o.g
  | .cmpLtN o => some o.g
  | .cmpLtNImm o => some o.g
  | .cmpLeN o => some o.g
  | .cmpLeNImm o => some o.g
  | .sel o => some o.g
  | .clz o => some o.g
  | .ctz o => some o.g
  | .popc o => some o.g
  | .extI8 o => some o.g
  | .extN8 o => some o.g
  | .extI16 o => some o.g
  | .extN16 o => some o.g
  | .extI32 o => some o.g
  | .extN32 o => some o.g
  | .bfx o => some o.g
  | .bfxI o => some o.g
  | .bfi o => some o.g
  | .li o => some o.g
  | .lih o => some o.g
  | .mov o => some o.g
  | .kand o => some o.g
  | .kor o => some o.g
  | .kxor o => some o.g
  | .kandn o => some o.g
  | .knot o => some o.g
  | .kmovKToS o => some o.g
  | .kmovSToK o => some o.g
  | .kpopc o => some o.g
  | .kfirst o => some o.g
  | .cnarrow o => some o.g
  | .cperm o => some o.g
  | .cget o => some o.g
  | .cld o => some o.g
  | .cst o => some o.g
  | .trap o => some o.g
  | .smovRead o => some o.g
  | .smovWrite o => some o.g
  | .ctxctlFreeze o => some o.g
  | .ctxctlResume o => some o.g
  | .ctxctlKill o => some o.g
  | .ctxctlRestart o => some o.g
  | .markRound o => some o.g
  | .markCheckpoint o => some o.g
  | .markCut o => some o.g
  | .tsamp o => some o.g
  | .brkpt o => some o.g
  | .brkptArmed o => some o.g
  | .tlbinv o => some o.g
  | .post o => some o.g
  | .vext o => some o.g
  | .mbld o => some o.g
  | .mbldDiag o => some o.g
  | .mbsp o => some o.g
  | .mrow o => some o.g
  | .mroww o => some o.g
  | .mrowwSp o => some o.g
  | .mzero o => some o.g
  | .mout o => some o.g
  | .mscaleWindow o => some o.g
  | .mscaleCode o => some o.g
  | .mbias o => some o.g
  | .mrd o => some o.g
  | .mwr o => some o.g
  | .mslot o => some o.g
  | .wfill o => some o.g
  | .wread o => some o.g
  | .wupd o => some o.g
  | .wshrink o => some o.g
  | .wstat o => some o.g
  | .wsave o => some o.g
  | .wrest o => some o.g
  | .recv o => some o.g
  | .peek o => some o.g
  | .send o => some o.g
  | .vcset o => some o.g
  | .barInit o => some o.g
  | .barArrive o => some o.g
  | .barWait o => some o.g
  | .barAw o => some o.g
  | .barRemote o => some o.g
  | .mld o => some o.g
  | .mst o => some o.g
  | .mwrt o => some o.g
  | .mreq o => some o.g
  | .wreq o => some o.g
  | .fenceRegion o => some o.g
  | .fenceDevice o => some o.g
  | .fenceSystem o => some o.g
  | .ctok o => some o.g
  | .cpy o => some o.g
  | .cpyq o => some o.g
  | .gth o => some o.g
  | .sct o => some o.g
  | .aadd o => some o.g
  | .aaddF o => some o.g
  | .amin o => some o.g
  | .aminF o => some o.g
  | .amax o => some o.g
  | .amaxF o => some o.g
  | .aand o => some o.g
  | .aandF o => some o.g
  | .aor o => some o.g
  | .aorF o => some o.g
  | .axor o => some o.g
  | .axorF o => some o.g
  | .axchg o => some o.g
  | .axchgF o => some o.g
  | .acas o => some o.g
  | .acasQ o => some o.g
  | .plq o => some o.g
  | .plterm o => some o.g
  | .plvec o => some o.g
  | .plfuseLin o => some o.g
  | .plfuseRrf o => some o.g
  | .plrunOr o => some o.g
  | .plrunAnd o => some o.g
  | .plrunWand o => some o.g
  | .plabort o => some o.g
  | .plresume o => some o.g
  | .pins o => some o.g
  | .ptake o => some o.g
  | .ptry o => some o.g
  | .pstat o => some o.g
  | .pcfg o => some o.g
  | .xfill o => some o.g
  | .xred o => some o.g
  | .xbar o => some o.g
  | _ => none

end Sys2Proof.Safety
end

