-- ==== Sys2Proof/Certificates/Slice0/Obligations.lean ====
section
/-! DEFINITION. The statements for the provers, file by file of the spec. -/

section

open Sys2Proof Sys2Proof.Machine Sys2Proof.Safety

/-- Eleven words from the families of the table, laid out field by field as R61, R63 and R64 say, decode to their instructions: add s3, s1, s2; add s5, s6, -1 under k1; cmp.lt k2; li; cget; nop; trap; vadd in f32; recv from channel 5; mzero; cpy. The word of zeros, an OP of 0xFF, a guarded nop, an always-guard negated and a load of size 6 decode to nothing. -/
def Obligations.DecodeExamples : Prop :=
  (match decode 0x0100000301020000 with | .ok (.add o) => o = { g := { neg := false, k := 0 }, d := 3, a := 1, b := 2 } | _ => False) ∧
  (match decode 0x01180506FFFFFFFF with | .ok (.addImm o) => o = { g := { neg := false, k := 1 }, d := 5, a := 6, imm := 0xFFFFFFFF } | _ => False) ∧
  (match decode 0x119200C20A0B0000 with | .ok (.cmpLt o) => o = { g := { neg := true, k := 1 }, d := 2, a := 10, b := 11 } | _ => False) ∧
  (match decode 0x1700070080000000 with | .ok (.li o) => o = { g := { neg := false, k := 0 }, d := 7, imm := 0x80000000 } | _ => False) ∧
  (match decode 0x2200000483000020 with | .ok (.cget o) => o = { g := { neg := false, k := 0 }, d := 4, a := 3, sel := 2 } | _ => False) ∧
  (match decode 0x3300000000000000 with | .ok .nop => True | _ => False) ∧
  (match decode 0x3400000900000123 with | .ok (.trap o) => o = { g := { neg := false, k := 0 }, d := 9, imm := 0x123 } | _ => False) ∧
  (match decode 0x40000A4142430000 with
    | .ok (.vadd o) => o = { g := { neg := false, k := 0 }, rm := .rne, ty := .f32, sat := false, negA := false, negC := false, d := 1, a := 2, b := .v 3 }
    | _ => False) ∧
  (match decode 0x9700028542000000 with | .ok (.recv o) => o = { g := { neg := false, k := 0 }, vc := 5, d := .v 2 } | _ => False) ∧
  (match decode 0x84000A0000000010 with | .ok (.mzero o) => o = { g := { neg := false, k := 0 }, acc := 1, row := 32, n := 16 } | _ => False) ∧
  (match decode 0xC000050A8182030C with
    | .ok (.cpy o) => o = { g := { neg := false, k := 0 }, isl := 5, d := 10, a := 1, b := .c 2, c := 3, col := 4, rel := true }
    | _ => False) ∧
  (∀ w ∈ ([0, 0xFF00000000000000, 0x3310000000000000, 0x3380000000000000, 0x0180000301020000, 0x3800000601020000] : List Word),
    ∀ i, decode w ≠ .ok i)

/-- For every well-formed instruction i, with every operand at every value that its encoding admits: the decoder reads the word that the encoder gives i as i itself. -/
def Obligations.DecodeEncode : Prop :=
  ∀ i w, wf i = true → encode i = some w → decode w = .ok i

/-- Every word that decodes gives a well-formed instruction, and the encoder gives that instruction back the same word, so that a word with a reserved bit set decodes to nothing and no two words decode to one instruction. -/
def Obligations.WordsHaveOneInstruction : Prop :=
  ∀ w i, decode w = .ok i → wf i = true ∧ encode i = some w

/-- Where context r holds the grant, its word at pc decodes to i and every window that i names is configured, the step is exec of i, by r, with the grant taken, unless a register that i reads is marked as not to be corrected: then the step is the trap ECC_UNCORR. A word that does not decode, or that names a window not configured, traps ILLEGAL with the word and its pc. A word reads its guard, and its source registers where it executes and its privilege does not turn it away (the order of these checks is log 23's). Without a grant the step is exec of the first entry of the agenda with its argument (the order within a cycle is the model's choice, log 10). After State.withFetchWord the next step runs the word placed. -/
def Obligations.StepRunsDecodedWord : Prop :=
  (∀ s r x, s.grant = some r → s.ctx? r = some x →
    let w := s.wordAt r x.pc.toNat
    let t := { s with grant := none, cur := r }
    (∀ i, decode w = .ok i → s.noWindow r.tile i = false → readsBad i x = false → step s = exec i t) ∧
    (∀ i, decode w = .ok i → s.noWindow r.tile i = false → readsBad i x = true →
      step s = .next (t.trap r x tECC_UNCORR 0 0)) ∧
    (∀ i, decode w = .ok i → s.noWindow r.tile i = true → step s = .next (t.trap r x tILLEGAL w (x.pc.setWidth 64))) ∧
    (∀ e, decode w = .error e → step s = .next (t.trap r x tILLEGAL w (x.pc.setWidth 64)))) ∧
  (∀ (i : Instr) (x : Ctx), readsBad i x = true ↔ (∃ b ∈ i.uses.1.reads, b ∈ x.bad) ∨
    ((i.laneWise = true ∨ x.guard0 i.uses.1 = true) ∧ denied i x = false ∧ ∃ b ∈ i.uses.2, b ∈ x.bad)) ∧
  (∀ (s : State) (e : ElemRef) (i : Instr), s.noWindow e i = true ↔
    ∃ n f, winNeed i = some (n, f) ∧ ∀ d, s.win? (e.win n) = some d → d.cap = 0) ∧
  (∀ s i a l, s.grant = none → s.agenda = (i, a) :: l → step s = exec i { s with agenda := l, arg := a }) ∧
  (∀ (s : State) i (w : Nat), w < 2 ^ 64 → decode (BitVec.ofNat 64 w) = .ok i → ∃ t r x, step (s.withFetchWord 64 w) = exec i t ∧ t.cur = r ∧ t.ctx? r = some x ∧
    x.pc = 0 ∧ x.st = .run ∧ t.wordAt r 0 = BitVec.ofNat 64 w)

/-- After reset DEV_STATUS, the firmware registers, LAUNCH_ERR, FREE, the shared roots, the invalidation, trace, breakpoint, revocation, attestation, group and Ethernet registers and THERM_STATUS read 0, AGE_STEP reads 4,096 and PREEMPT_AFTER 1,048,576; every die is in RUN with SR clear and no command is pending; the hub cycle counter is 0; no launch, residency or context exists; every memory is in its canonical form (that a byte nothing has written reads 0 is the choice of log 6). -/
def Obligations.ResetState : Prop :=
  let s := State.reset
  (∀ off, off ≠ 0x80 → off ≠ 0x88 → s.bar0Read off = 0) ∧ s.bar0Read 0x80 = 4096 ∧ s.bar0Read 0x88 = 1048576 ∧
  (∀ d, s.power.get d = .run) ∧ s.selfRefresh = 0 ∧ s.powerCmd = none ∧ s.cycle = 0 ∧ s.launches = [] ∧ s.ress = [] ∧ s.ctxs = [] ∧ s.tiles = [] ∧
  s.launchWin = [] ∧ s.eventWin = [] ∧ s.msix = [] ∧ s.grant = none ∧ s.agenda = [] ∧ s.sec.ready = false ∧ s.dbg.frozen = false ∧ MemoryCanonical s

/-- From every state in which main memory, bulk memory, host memory and the store of every window list their bytes by strictly rising address with no entry of the value that an unlisted byte reads as, every step that answers a next state answers one in which they do. -/
def Obligations.StepKeepsMemoryCanonical : Prop :=
  ∀ s t, MemoryCanonical s → step s = .next t → MemoryCanonical t

/-- The register form and the immediate form of an integer instruction write sD with the value `f` gives their sources, the immediate sign-extended (R108). -/
def Alu (ir : SSSOps → Instr) (ii : SSIOps → Instr) (f : Word → Word → Word → Prop) : Prop :=
  (∀ o, WritesS (ir o) o.g o.d fun x v => f (x.gs o.a) (x.gs o.b) v) ∧
    (∀ o, WritesS (ii o) o.g o.d fun x v => f (x.gs o.a) (o.imm.signExtend 64) v)

/-- The register form and the immediate form of a comparison write kD all ones where the relation holds, and 0 otherwise (R110). -/
def Cmp (ir : KSSOps → Instr) (ii : KSIOps → Instr) (f : Word → Word → Prop) : Prop :=
  (∀ o, WritesK (ir o) o.g o.d fun x v =>
    (f (x.gs o.a) (x.gs o.b) → v = BitVec.allOnes 64) ∧ (¬ f (x.gs o.a) (x.gs o.b) → v = 0)) ∧
  (∀ o, WritesK (ii o) o.g o.d fun x v =>
    (f (x.gs o.a) (o.imm.signExtend 64) → v = BitVec.allOnes 64) ∧ (¬ f (x.gs o.a) (o.imm.signExtend 64) → v = 0))

/-- In every context, for all registers d and r: after a write of s register d (k, v, c alike), reading r gives the value written when r is d, and what it held otherwise; s0 always reads 0 and k0 all ones, and a write of either changes nothing. -/
def Obligations.RegisterFilesReadBack : Prop :=
  ∀ x : Ctx,
    (∀ d r v, d ≠ 0 → (x.ss d v).gs r = if r = d then v else x.gs r) ∧
    (∀ v, x.ss 0 v = x) ∧ x.gs 0 = 0 ∧
    (∀ d r v, d ≠ 0 → (x.sk d v).gk r = if r = d then v else x.gk r) ∧
    (∀ v, x.sk 0 v = x) ∧ x.gk 0 = BitVec.allOnes 64 ∧
    (∀ d r v, (x.sv d v).gv r = if r = d then v else x.gv r) ∧
    (∀ d r v, (x.sc d v).gc r = if r = d then v else x.gc r)

/-- For both forms of add, sub, mul, mulh, mulh.n, mulh.sn, and, or, xor, andn, shl, shr, sra, rot, min, min.n, max and max.n: in every state in which the word issues under a true guard, exec answers a next state in which sD holds the table's value of a and b (b the sign-extended immediate in format I), the context has moved past the word, and nothing else of the machine has changed. -/
def Obligations.IntegerArithmetic : Prop :=
  Alu .add .addImm (fun a b v => v.toNat = (a.toNat + b.toNat) % 2 ^ 64) ∧
  Alu .sub .subImm (fun a b v => (v.toNat : Int) = ((a.toNat : Int) - b.toNat) % 2 ^ 64) ∧
  Alu .mul .mulImm (fun a b v => v.toNat = a.toNat * b.toNat % 2 ^ 64) ∧
  Alu .mulh .mulhImm (fun a b v => v.toInt = a.toInt * b.toInt / 2 ^ 64) ∧
  Alu .mulhN .mulhNImm (fun a b v => v.toNat = a.toNat * b.toNat / 2 ^ 64) ∧
  Alu .mulhSn .mulhSnImm (fun a b v => v.toInt = a.toInt * (b.toNat : Int) / 2 ^ 64) ∧
  Alu .and_ .andImm (fun a b v => ∀ i : Nat, v.getLsbD i = (a.getLsbD i && b.getLsbD i)) ∧
  Alu .or_ .orImm (fun a b v => ∀ i : Nat, v.getLsbD i = (a.getLsbD i || b.getLsbD i)) ∧
  Alu .xor .xorImm (fun a b v => ∀ i : Nat, v.getLsbD i = (a.getLsbD i ^^ b.getLsbD i)) ∧
  Alu .andn .andnImm (fun a b v => ∀ i : Nat, v.getLsbD i = (a.getLsbD i && !b.getLsbD i)) ∧
  Alu .shl .shlImm (fun a b v => v.toNat = a.toNat * 2 ^ (b.toNat % 64) % 2 ^ 64) ∧
  Alu .shr .shrImm (fun a b v => v.toNat = a.toNat / 2 ^ (b.toNat % 64)) ∧
  Alu .sra .sraImm (fun a b v => v.toInt = a.toInt / 2 ^ (b.toNat % 64)) ∧
  Alu .rot .rotImm (fun a b v => ∀ i, i < 64 → v.getLsbD ((i + b.toNat % 64) % 64) = a.getLsbD i) ∧
  Alu .min .minImm (fun a b v => v.toInt = min a.toInt b.toInt) ∧
  Alu .minN .minNImm (fun a b v => v.toNat = min a.toNat b.toNat) ∧
  Alu .max .maxImm (fun a b v => v.toInt = max a.toInt b.toInt) ∧
  Alu .maxN .maxNImm (fun a b v => v.toNat = max a.toNat b.toNat)

/-- For both forms of div, div.n, rem and rem.n, under a true guard and for all operands: with b = 0 the quotient is all ones and the remainder a; for −2^63 by −1 the quotient is −2^63 and the remainder 0; otherwise the quotient is truncated toward zero and the remainder is a − b × q. exec answers a next state with that value in sD and nothing else changed. -/
def Obligations.DivisionNeverTraps : Prop :=
  Alu .div .divImm (fun a b v =>
    if b = 0 then v = 0xFFFFFFFFFFFFFFFF
    else if a.toInt = -2 ^ 63 ∧ b.toInt = -1 then v.toInt = -2 ^ 63
    else v.toInt = a.toInt.tdiv b.toInt) ∧
  Alu .divN .divNImm (fun a b v => if b = 0 then v = 0xFFFFFFFFFFFFFFFF else v.toNat = a.toNat / b.toNat) ∧
  Alu .rem .remImm (fun a b v =>
    if b = 0 then v = a
    else if a.toInt = -2 ^ 63 ∧ b.toInt = -1 then v = 0
    else v.toInt = a.toInt - b.toInt * a.toInt.tdiv b.toInt) ∧
  Alu .remN .remNImm (fun a b v => if b = 0 then v = a else v.toNat = a.toNat - b.toNat * (a.toNat / b.toNat))

/-- For both forms of cmp.eq, cmp.ne, cmp.lt, cmp.le, cmp.lt.n and cmp.le.n, in every state in which the word issues under a true guard, exec answers a next state in which kD is all ones when the relation of a and b holds and 0 otherwise (a write of k0 is discarded), and nothing else has changed. -/
def Obligations.ComparisonsWritePredicates : Prop :=
  Cmp .cmpEq .cmpEqImm (fun a b => a = b) ∧
  Cmp .cmpNe .cmpNeImm (fun a b => a ≠ b) ∧
  Cmp .cmpLt .cmpLtImm (fun a b => a.toInt < b.toInt) ∧
  Cmp .cmpLe .cmpLeImm (fun a b => a.toInt ≤ b.toInt) ∧
  Cmp .cmpLtN .cmpLtNImm (fun a b => a.toNat < b.toNat) ∧
  Cmp .cmpLeN .cmpLeNImm (fun a b => a.toNat ≤ b.toNat)

/-- Under a true guard: sel writes sA when bit 0 of kC is 1 and sB otherwise; clz of a is 64 − (position above its highest one), ctz the position of its lowest one (64 for 0), popc the number of its ones; ext.i8, ext.i16 and ext.i32 sign-extend and ext.n8, ext.n16 and ext.n32 zero-extend the low bits. Each completes with sD so written and nothing else changed. -/
def Obligations.SelectCountsAndExtensions : Prop :=
  (∀ o, WritesS (.sel o) o.g o.d fun x v =>
    ((x.gk o.k).getLsbD 0 = true → v = x.gs o.a) ∧ ((x.gk o.k).getLsbD 0 = false → v = x.gs o.b)) ∧
  (∀ o, WritesS (.clz o) o.g o.d fun x v => v.toNat ≤ 64 ∧ (x.gs o.a).toNat < 2 ^ (64 - v.toNat) ∧
    (v.toNat < 64 → (x.gs o.a).getLsbD (63 - v.toNat) = true)) ∧
  (∀ o, WritesS (.ctz o) o.g o.d fun x v => v.toNat ≤ 64 ∧ (∀ i, i < v.toNat → (x.gs o.a).getLsbD i = false) ∧
    (v.toNat < 64 → (x.gs o.a).getLsbD v.toNat = true)) ∧
  (∀ o, WritesS (.popc o) o.g o.d fun x v =>
    v.toNat = ((List.range 64).filter fun i => (x.gs o.a).getLsbD i).length) ∧
  (∀ o, WritesS (.extI8 o) o.g o.d fun x v => v = ((x.gs o.a).setWidth 8).signExtend 64) ∧
  (∀ o, WritesS (.extN8 o) o.g o.d fun x v => v.toNat = (x.gs o.a).toNat % 2 ^ 8) ∧
  (∀ o, WritesS (.extI16 o) o.g o.d fun x v => v = ((x.gs o.a).setWidth 16).signExtend 64) ∧
  (∀ o, WritesS (.extN16 o) o.g o.d fun x v => v.toNat = (x.gs o.a).toNat % 2 ^ 16) ∧
  (∀ o, WritesS (.extI32 o) o.g o.d fun x v => v = ((x.gs o.a).setWidth 32).signExtend 64) ∧
  (∀ o, WritesS (.extN32 o) o.g o.d fun x v => v.toNat = (x.gs o.a).toNat % 2 ^ 32)

/-- Under a true guard, with l = sB[5:0] and w = min(sB[14:8], 64): bit i of the result of bfx is bit l + i of sA for i < w (0 above bit 63 of sA and from w on); bfx.i copies above it the topmost bit of the field inside the register, and gives 0 for w = 0; bfi gives bit i − l of sA for l ≤ i < l + w and bit i of sC elsewhere. Each completes with sD so written and nothing else changed. -/
def Obligations.BitFieldsExtractAndInsert : Prop :=
  (∀ o, WritesS (.bfx o) o.g o.d fun x v =>
    let l := (x.gs o.b).toNat % 64; let w := min 64 ((x.gs o.b).toNat / 2 ^ 8 % 2 ^ 7)
    ∀ i, i < 64 → v.getLsbD i = (decide (i < w) && (x.gs o.a).getLsbD (l + i))) ∧
  (∀ o, WritesS (.bfxI o) o.g o.d fun x v =>
    let l := (x.gs o.b).toNat % 64; let w := min 64 ((x.gs o.b).toNat / 2 ^ 8 % 2 ^ 7)
    let h := min (l + w) 64 - l
    (w = 0 → v = 0) ∧
    (w ≠ 0 → ∀ i, i < 64 → v.getLsbD i = (x.gs o.a).getLsbD (l + min i (h - 1)))) ∧
  (∀ o, WritesS (.bfi o) o.g o.d fun x v =>
    let l := (x.gs o.b).toNat % 64; let w := min 64 ((x.gs o.b).toNat / 2 ^ 8 % 2 ^ 7)
    ∀ i, i < 64 → v.getLsbD i =
      if l ≤ i ∧ i < l + w then (x.gs o.a).getLsbD (i - l) else (x.gs o.c).getLsbD i)

/-- Under a true guard: li writes the sign-extended immediate, lih replaces bits [63:32] of sD; mov copies between the five class pairs (a c register with its tag, a loop counter zero-extended or modulo 2^32, a v register whole; a loop counter so written holds no uncorrectable bits, which is log 23's choice); kand, kor, kxor, kandn and knot work bit by bit; kmov copies between a predicate and an s register, kpopc counts ones and kfirst gives the lowest one or 64. Each completes and changes nothing else. -/
def Obligations.MovesAndPredicateLogic : Prop :=
  (∀ o, WritesS (.li o) o.g o.d fun _ v => v.toInt = o.imm.toInt) ∧
  (∀ o, WritesS (.lih o) o.g o.d fun x v => v.toNat = o.imm.toNat * 2 ^ 32 + (x.gs o.d).toNat % 2 ^ 32) ∧
  (∀ s r x g, Issues s r x → x.guard0 g = true →
    (∀ d a, Completes (.mov ⟨g, .ss d a⟩) s r (x.ss d (x.gs a))) ∧
    (∀ d a, Completes (.mov ⟨g, .sl d a⟩) s r (x.ss d ((x.lc.get a).zeroExtend 64))) ∧
    (∀ d a, ∃ w : BitVec 32, w.toNat = (x.gs a).toNat % 2 ^ 32 ∧
      Completes (.mov ⟨g, .ls d a⟩) s r { x with lc := x.lc.set d.val w d.isLt, bad := x.bad.filter (· ≠ 0xCC + d.val) }) ∧
    (∀ d a, Completes (.mov ⟨g, .vv d a⟩) s r (x.sv d (x.gv a))) ∧
    (∀ d a, Completes (.mov ⟨g, .cc d a⟩) s r (x.sc d (x.gc a)))) ∧
  (∀ o, WritesK (.kand o) o.g o.d fun x v => ∀ i : Nat, v.getLsbD i = ((x.gk o.a).getLsbD i && (x.gk o.b).getLsbD i)) ∧
  (∀ o, WritesK (.kor o) o.g o.d fun x v => ∀ i : Nat, v.getLsbD i = ((x.gk o.a).getLsbD i || (x.gk o.b).getLsbD i)) ∧
  (∀ o, WritesK (.kxor o) o.g o.d fun x v => ∀ i : Nat, v.getLsbD i = ((x.gk o.a).getLsbD i ^^ (x.gk o.b).getLsbD i)) ∧
  (∀ o, WritesK (.kandn o) o.g o.d fun x v => ∀ i : Nat, v.getLsbD i = ((x.gk o.a).getLsbD i && !(x.gk o.b).getLsbD i)) ∧
  (∀ o, WritesK (.knot o) o.g o.d fun x v => ∀ i, i < 64 → v.getLsbD i = !(x.gk o.a).getLsbD i) ∧
  (∀ o, WritesS (.kmovKToS o) o.g o.d fun x v => v = x.gk o.a) ∧
  (∀ o, WritesK (.kmovSToK o) o.g o.d fun x v => v = x.gs o.a) ∧
  (∀ o, WritesS (.kpopc o) o.g o.d fun x v =>
    v.toNat = ((List.range 64).filter fun i => (x.gk o.a).getLsbD i).length) ∧
  (∀ o, WritesS (.kfirst o) o.g o.d fun x v => v.toNat ≤ 64 ∧
    (∀ i, i < v.toNat → (x.gk o.a).getLsbD i = false) ∧ (v.toNat < 64 → (x.gk o.a).getLsbD v.toNat = true))

/-- Under a true guard: cnarrow and cperm trap CAP_TAG on an untagged capability, else CAP_SPACE on a reserved space or the reserved permission bit (the order R118 gives); cnarrow then traps CAP_BOUNDS when sB + sC exceeds LENGTH, and otherwise writes cD with BASE + sB (wrapping), LENGTH sC, permissions, space and ASID as in cA, tagged; cperm writes cD with the permission byte and-ed with sB[7:0], bit 111 clear, everything else and the tag of cA kept. cget completes with the selected field of cA, tagged or not. -/
def Obligations.CapabilitiesOnlyNarrow : Prop :=
  (∀ s r x (o : CCSSOps), Issues s r x → x.guard0 o.g = true →
    let c := x.gc o.a
    (c.tag = false → Traps (.cnarrow o) s r x tCAP_TAG 0 0) ∧
    (c.tag = true → (5 < (c.val.extractLsb' 112 4).toNat ∨ c.val.getLsbD 111 = true) →
      Traps (.cnarrow o) s r x tCAP_SPACE 0 0) ∧
    (c.tag = true → (c.val.extractLsb' 112 4).toNat ≤ 5 → c.val.getLsbD 111 = false →
      c.length < (x.gs o.b).toNat + (x.gs o.c).toNat → Traps (.cnarrow o) s r x tCAP_BOUNDS 0 0) ∧
    (c.tag = true → (c.val.extractLsb' 112 4).toNat ≤ 5 → c.val.getLsbD 111 = false →
      (x.gs o.b).toNat + (x.gs o.c).toNat ≤ c.length →
      ∃ n : CapV, n.tag = true ∧ n.base = (c.base + (x.gs o.b).toNat) % 2 ^ 64 ∧ n.length = (x.gs o.c).toNat ∧
        n.val.extractLsb' 104 24 = c.val.extractLsb' 104 24 ∧ Completes (.cnarrow o) s r (x.sc o.d n))) ∧
  (∀ s r x (o : CCSOps), Issues s r x → x.guard0 o.g = true →
    let c := x.gc o.a
    (c.tag = false → Traps (.cperm o) s r x tCAP_TAG 0 0) ∧
    (c.tag = true → (5 < (c.val.extractLsb' 112 4).toNat ∨ c.val.getLsbD 111 = true) →
      Traps (.cperm o) s r x tCAP_SPACE 0 0) ∧
    (c.tag = true → (c.val.extractLsb' 112 4).toNat ≤ 5 → c.val.getLsbD 111 = false →
      ∃ n : CapV, n.tag = c.tag ∧ (∀ i, i < 8 → n.perm.getLsbD i = (c.perm.getLsbD i && (x.gs o.b).getLsbD i && decide (i ≠ 7))) ∧
        n.val.extractLsb' 0 104 = c.val.extractLsb' 0 104 ∧ n.val.extractLsb' 112 16 = c.val.extractLsb' 112 16 ∧
        Completes (.cperm o) s r (x.sc o.d n))) ∧
  (∀ o : CGetOps, WritesS (.cget o) o.g o.d fun x v =>
    let c := x.gc o.a
    (o.sel = 0 → v.toNat = c.base) ∧ (o.sel = 1 → v.toNat = c.length) ∧
    (o.sel = 2 → v.toNat = c.perm.toNat) ∧ (o.sel = 3 → v.toNat = c.space) ∧ (o.sel = 4 → v.toNat = c.asid) ∧
    (o.sel = 5 → v.toNat = if c.tag then 1 else 0) ∧ (o.sel = 6 → v = c.val.extractLsb' 0 64) ∧
    (o.sel = 7 → v = c.val.extractLsb' 64 64))

/-- For every word on which bit 0 of the guard decides (all but loop, lmask, end, nop and the vector words whose guard acts on lanes), and every state in which it issues with bit 0 of its guard 0: exec answers a next state in which its context, registers unchanged, has moved past the word, and nothing else has changed. -/
def Obligations.FalseGuardHasNoEffect : Prop :=
  ∀ i g s r x, wordGuard i = some g → Issues s r x → x.guard0 g = false → Completes i s r x

/-- For every state, context r holding x, code and information words: the state after the trap has the context FROZEN at the same pc with TRAPPED, TRAP_CODE the code and TRAP_INFO0 and TRAP_INFO1 the words; its registers, flags, loop slots, stochastic sources, counters and received and sent counts are as before; every other context, every byte, window, channel, barrier, bank and engine command is as before; and one letter, of this context and this cycle, is filed behind the letters of its residency. For every residency, code, element, context, pc and information words of their widths, the letter holds 0x04 in bits [7:0], the code in [15:8], the launch tag in [31:16], the region in [47:32], the element in [63:48], WHO in [91:88], the pc in [111:100], REMOTE, KILLED and ASYNC in bits 112 to 114, the information words in [191:128] and [255:192], the cycle in [319:256], and 0 in [511:320]. -/
def Obligations.TrapEntryAndLetter : Prop :=
  (∀ (s : State) (r : CtxRef) (x : Ctx) (code : Nat) (i0 i1 : Word),
    let t := s.trap r x code i0 i1
    (∃ y, t.ctx? r = some y ∧ y.st = .frozen ∧ y.was = .run ∧ y.trapped = true ∧ y.pc = x.pc ∧
      y.trapCode = BitVec.ofNat 64 code ∧ y.info0 = i0 ∧ y.info1 = i1 ∧ y.wait = none ∧
      y.s = x.s ∧ y.v = x.v ∧ y.k = x.k ∧ y.c = x.c ∧ y.flags = x.flags ∧ y.lc = x.lc ∧ y.loops = x.loops ∧
      y.sra = x.sra ∧ y.srb = x.srb ∧ y.fireCnt = x.fireCnt ∧ y.pmc = x.pmc ∧ y.received = x.received ∧ y.sent = x.sent) ∧
    (∀ q, q ≠ r → t.ctx? q = s.ctx? q) ∧ SameBytes s t ∧
    t.wins = s.wins ∧ t.chans = s.chans ∧ t.bars = s.bars ∧ t.banks = s.banks ∧ t.cmds = s.cmds ∧ t.accs = s.accs ∧
    (∀ rs, s.res? r.rid = some rs → ∃ rt l, t.res? r.rid = some rt ∧ rt.letters = rs.letters ++ [l] ∧
      l.cycle = s.cycle ∧ l.who = r.ctx ∧ l.host = false ∧
      l.body = letterBeat s r.rid code r.elem r.ctx x.pc.toNat i0.toNat i1.toNat false false false)) ∧
  (∀ (s : State) (rid code elem who pc i0 i1 : Nat) (rem kil asy : Bool),
    code < 2 ^ 8 → elem < 2 ^ 16 → who < 2 ^ 4 → pc < 2 ^ 12 → i0 < 2 ^ 64 → i1 < 2 ^ 64 → s.cycle < 2 ^ 64 →
    let l := (letterBeat s rid code elem who pc i0 i1 rem kil asy).toNat
    let rs := (s.res? rid).getD {}
    field l 7 0 = 0x04 ∧ field l 15 8 = code ∧ field l 31 16 = rs.tag % 2 ^ 16 ∧ field l 47 32 = rs.region % 2 ^ 16 ∧
    field l 63 48 = elem ∧ field l 91 88 = who ∧ field l 111 100 = pc ∧
    bitOf l 112 = rem ∧ bitOf l 113 = kil ∧ bitOf l 114 = asy ∧
    field l 191 128 = i0 ∧ field l 255 192 = i1 ∧ field l 319 256 = s.cycle ∧ field l 511 320 = 0)

/-- In every state in which the word issues under a true guard: trap takes the trap SOFT with TRAP_INFO0 the zero-extended immediate and TRAP_INFO1 sD; brkpt takes the trap BREAK with TRAP_INFO0 the zero-extended immediate and TRAP_INFO1 0 (an information word that the rules name no value for is 0 by log 26), in every setting of TRACE_CTL. -/
def Obligations.TrapAndBreakpointTrap : Prop :=
  ∀ s r x, Issues s r x →
    (∀ o : TrapOps, x.guard0 o.g = true → Traps (.trap o) s r x tSOFT (o.imm.zeroExtend 64) (x.gs o.d)) ∧
    (∀ o : BrkOps, x.guard0 o.g = true → Traps (.brkpt o) s r x tBREAK (o.imm.zeroExtend 64) 0)

/-- With n the constant count (D = s0) or sD: for n above LOOP_MAX loop traps LOOP_MAX with TRAP_INFO0 n; for n = 0 its context goes on at e + 1; otherwise it goes on at the next pc with the slot of its counter active from there to e, n iterations left. The counter is 0 and registers, bytes and other contexts are as before. lmask writes kD all ones where lcN < m and 0 elsewhere, and-ed with kD in the sticky form. nop completes and changes nothing. -/
def Obligations.LoopsStartSkipOrTrap : Prop :=
  (∀ s r x (o : LoopOps), Issues s r x →
    let n : Nat := if o.d = 0 then o.count.toNat else (x.gs o.d).toNat
    (x.loopMax.toNat < n → Traps (.loop o) s r x tLOOP_MAX (BitVec.ofNat 64 n) 0) ∧
    (n ≤ x.loopMax.toNat → ∃ t y, exec (.loop o) s = .next t ∧ t.ctx? r = some y ∧ OnlyContext s t r ∧
      y.s = x.s ∧ y.v = x.v ∧ y.k = x.k ∧ y.c = x.c ∧ y.flags = x.flags ∧ y.st = .run ∧
      y.lc = x.lc.set o.lc.val 0 o.lc.isLt ∧
      (n = 0 → y.pc = o.stop + 1 ∧ y.loops = x.loops) ∧
      (n ≠ 0 → y.pc = x.pc + 1 ∧ y.loops = x.loops.set o.lc.val
        { active := true, start := x.pc + 1, stop := o.stop, remaining := BitVec.ofNat 64 n } o.lc.isLt))) ∧
  (∀ s r x (o : LMaskOps), Issues s r x → ∃ v : Word,
    (∀ i, i < 64 → v.getLsbD i = (decide ((x.lc.get o.lc).toNat < (x.gs o.m).toNat) && (!o.sticky || (x.gk o.d).getLsbD i))) ∧
    Completes (.lmask o) s r (x.sk o.d v)) ∧
  (∀ s r x, Issues s r x → Completes .nop s r x)

/-- In every state in which end issues: where a declared output has sent fewer than its count, the context traps RATE with TRAP_INFO0 the lowest such output and TRAP_INFO1 what it sent. Otherwise exec answers a next state in which FIRE_CNT is one more, pc is the entry pc, both loop slots are inactive, received and sent counts are 0, and the context is DONE when TRIP_CNT ≠ 0 equals the new FIRE_CNT, and IDLE otherwise; its registers and flags, every other context and every byte are as before. -/
def Obligations.EndClosesTheFiring : Prop :=
  ∀ s r x, Issues s r x →
    (∀ n : Fin 32, x.outMask.getLsbD n.val = true → x.sent.get n < x.outRate.get n →
      (∀ m : Fin 32, m < n → x.outMask.getLsbD m.val = true → x.outRate.get m ≤ x.sent.get m) →
      Traps .end_ s r x tRATE (BitVec.ofNat 64 n.val) (BitVec.ofNat 64 (x.sent.get n))) ∧
    ((∀ n : Fin 32, x.outMask.getLsbD n.val = true → x.outRate.get n ≤ x.sent.get n) →
      ∃ t y, exec .end_ s = .next t ∧ t.ctx? r = some y ∧
        y.fireCnt = x.fireCnt + 1 ∧ y.pc = x.entry ∧ (∀ n : Fin 2, y.loops[n].active = false) ∧
        (∀ n : Fin 32, y.received.get n = 0 ∧ y.sent.get n = 0) ∧
        y.st = (if x.tripCnt ≠ 0 ∧ x.fireCnt + 1 = x.tripCnt then .done else .idle) ∧
        y.s = x.s ∧ y.v = x.v ∧ y.k = x.k ∧ y.c = x.c ∧ y.flags = x.flags ∧ y.lc = x.lc ∧
        (∀ q, q ≠ r → t.ctx? q = s.ctx? q) ∧ SameBytes s t)

/-- Reading system register n gives the value f, and changes nothing but sD (R131). -/
def SmovReads (n : Nat) (f : State → CtxRef → Ctx → Word) : Prop :=
  ∀ s r x (o : SmovOps), Issues s r x → x.guard0 o.g = true → o.reg.toNat = n →
    Completes (.smovRead o) s r (x.ss o.d (f s r x))

/-- Reading system register n of access S gives the value f in a supervisor context, and traps PRIV in any other (R28, R131). -/
def SmovReadsS (n : Nat) (f : State → CtxRef → Ctx → Word) : Prop :=
  ∀ s r x (o : SmovOps), Issues s r x → x.guard0 o.g = true → o.reg.toNat = n →
    (x.sup = true → Completes (.smovRead o) s r (x.ss o.d (f s r x))) ∧
    (x.sup = false → Traps (.smovRead o) s r x tPRIV 0 0)

/-- Writing per-context system register n leaves the context f (of the value in sD), and changes nothing else (R131). -/
def SmovWrites (n : Nat) (f : Ctx → Word → Ctx) : Prop :=
  ∀ s r x (o : SmovOps), Issues s r x → x.guard0 o.g = true → o.reg.toNat = n →
    Completes (.smovWrite o) s r (f x (x.gs o.d))

/-- A write of system register n from a context that is no supervisor traps PRIV (R28). -/
def SmovWritePriv (n : Nat) : Prop :=
  ∀ s r x (o : SmovOps), Issues s r x → x.guard0 o.g = true → o.reg.toNat = n → x.sup = false →
    Traps (.smovWrite o) s r x tPRIV 0 0

/-- The residency of a context, where it has one. -/
def resOf (s : State) (r : CtxRef) : Res := (s.res? r.rid).getD {}

/-- In every state in which one of mslot, pcfg, the four ctxctl words, the three mark words or tlbinv issues under a true guard in a context that is not a supervisor, exec takes the trap PRIV, and does nothing else. -/
def Obligations.SupervisorWordsTrapPriv : Prop :=
  ∀ s r x, Issues s r x → x.sup = false →
    (∀ o, x.guard0 o.g = true → Traps (.mslot o) s r x tPRIV 0 0) ∧
    (∀ o, x.guard0 o.g = true → Traps (.pcfg o) s r x tPRIV 0 0) ∧
    (∀ o, x.guard0 o.g = true → Traps (.ctxctlFreeze o) s r x tPRIV 0 0) ∧
    (∀ o, x.guard0 o.g = true → Traps (.ctxctlResume o) s r x tPRIV 0 0) ∧
    (∀ o, x.guard0 o.g = true → Traps (.ctxctlKill o) s r x tPRIV 0 0) ∧
    (∀ o, x.guard0 o.g = true → Traps (.ctxctlRestart o) s r x tPRIV 0 0) ∧
    (∀ o, x.guard0 o.g = true → Traps (.markRound o) s r x tPRIV 0 0) ∧
    (∀ o, x.guard0 o.g = true → Traps (.markCheckpoint o) s r x tPRIV 0 0) ∧
    (∀ o, x.guard0 o.g = true → Traps (.markCut o) s r x tPRIV 0 0) ∧
    (∀ o, x.guard0 o.g = true → Traps (.tlbinv o) s r x tPRIV 0 0)

/-- For every system register of R28, in every state in which the read issues under a true guard: sD receives CTX_ID (context number and SUP), CTX_STATE (RUN, the pc, the marks), FPFLAGS, the stochastic seeds and counters, FIRE_CNT, LOOP_MAX, TRAP_CODE, TRAP_INFO0 and 1, TRIP_CNT, CYCLE, PMC and PMC_SEL, the arbiter, slot and bank registers, CTX_PTR and SOFT_CNT of its tile, TILE_ID (die, x and y), VC_DESC (SLOTS, EN, FMT and SCALE of the channel), the barrier note and state, REGION_ID and REGION_SHAPE (width, height and the mask of its dies), as State holds them, and nothing else changes; DL_QUIET, STALL_CNT, TRACE_CTL and SAMPLE_RATE trap PRIV outside a supervisor context. -/
def Obligations.SystemRegisterReads : Prop :=
  SmovReads 0x000 (fun _ r x => BitVec.ofNat 64 (r.ctx % 8 + if x.sup then 8 else 0)) ∧
  SmovReads 0x001 (fun _ _ x => BitVec.ofNat 64 (3 + (if x.trapped then 16 else 0) + (if x.preempted then 32 else 0) +
    x.pc.toNat * 2 ^ 8 + x.waitop.toNat * 2 ^ 24)) ∧
  SmovReads 0x002 (fun _ _ x => x.flags.zeroExtend 64) ∧
  SmovReads 0x003 (fun _ _ x => x.sra.seed) ∧ SmovReads 0x004 (fun _ _ x => x.sra.ctr) ∧
  SmovReads 0x005 (fun _ _ x => x.srb.seed) ∧ SmovReads 0x006 (fun _ _ x => x.srb.ctr) ∧
  SmovReads 0x007 (fun _ _ x => x.fireCnt) ∧ SmovReads 0x008 (fun _ _ x => x.loopMax) ∧
  SmovReads 0x009 (fun _ _ x => x.trapCode) ∧ SmovReads 0x00A (fun _ _ x => x.info0) ∧
  SmovReads 0x00B (fun _ _ x => x.info1) ∧ SmovReads 0x00C (fun _ _ x => x.tripCnt) ∧
  SmovReads 0x010 (fun _ _ x => x.cycleCnt) ∧
  (∀ i : Fin 16, SmovReads (0x020 + i) (fun _ _ x => x.pmc.get i)) ∧
  (∀ i : Fin 16, SmovReads (0x030 + i) (fun _ _ x => (x.pmcSel.get i).zeroExtend 64)) ∧
  (∀ i : Fin 8, SmovReads (0x100 + i) (fun s r _ => (((s.tile? r.tile).getD {}).weight.get i).zeroExtend 64)) ∧
  (∀ i : Fin 8, SmovReads (0x108 + i) (fun s r _ => (((s.tile? r.tile).getD {}).floor.get i).zeroExtend 64)) ∧
  SmovReads 0x110 (fun s r _ => ((s.tile? r.tile).getD {}).slotTable) ∧
  SmovReads 0x111 (fun s r _ => ((s.tile? r.tile).getD {}).accBind) ∧
  (∀ b : Fin 96, SmovReads (0x180 + b) (fun s r _ => (s.bar ⟨r.rid, r.elem, b⟩).note)) ∧
  (∀ b : Fin 96, SmovReads (0x300 + b) (fun s r _ => let z := s.bar ⟨r.rid, r.elem, b⟩
    BitVec.ofNat 64 (z.init.toNat + z.pending.toNat * 2 ^ 8 + (if z.phase then 2 ^ 16 else 0) + (if z.relp then 2 ^ 17 else 0)))) ∧
  SmovReads 0x201 (fun s r _ => BitVec.ofNat 64 ((resOf s r).region % 2 ^ 16)) ∧
  SmovReadsS 0x200 (fun s r _ => (resOf s r).dlQuiet) ∧ SmovReadsS 0x203 (fun s r _ => (resOf s r).stallCnt) ∧
  SmovReadsS 0x210 (fun s r _ => (resOf s r).traceCtl) ∧ SmovReadsS 0x211 (fun s r _ => (resOf s r).sampleRate) ∧
  SmovReads 0x120 (fun s r _ => BitVec.ofNat 64 ((s.tile? r.tile).getD {}).ctxPtr.val) ∧
  (∀ s r x (o : SmovOps) e, Issues s r x → x.guard0 o.g = true → o.reg.toNat = 0x130 → s.elem? r.tile = some e →
    Completes (.smovRead o) s r (x.ss o.d (BitVec.ofNat 64 (e.die + 2 ^ 8 * e.x + 2 ^ 16 * e.y)))) ∧
  (∀ vc : Fin 32, SmovReads (0x140 + vc) (fun s r _ => let c := (s.chan? (r.tile.chan vc.val)).getD {}
    BitVec.ofNat 64 (c.slots % 2 ^ 7 + (if c.en then 2 ^ 7 else 0) + 2 ^ 8 * c.fmt.toNat + 2 ^ 24 * c.scale.toNat))) ∧
  SmovReads 0x202 (fun s r _ => let rs := resOf s r
    BitVec.ofNat 64 (rs.width % 2 ^ 8 + 2 ^ 8 * (rs.height % 2 ^ 8) + 2 ^ 16 * ((rs.dies.map fun d => 2 ^ d.1).sum % 2 ^ 8))) ∧
  (∀ s r x (o : SmovOps) e, Issues s r x → x.guard0 o.g = true → o.reg.toNat = 0x360 → s.elem? r.tile = some e →
    Completes (.smovRead o) s r (x.ss o.d (((tget s.softTiles (e.die, e.x, e.y)).getD 0).zeroExtend 64)))

/-- In every state in which the write issues under a true guard: FPFLAGS keeps sD[4:0], the stochastic seeds and counters and PMC take sD, PMC_SEL its low byte, and nothing else changes; in a supervisor context LOOP_MAX takes sD (1 for 0; that it holds 64 bits is log 22's choice), TRAP_CODE sD[7:0], DL_QUIET sD clamped to 1,024 to 2^32 − 1, STALL_CNT sD, TRACE_CTL sD[1:0], SAMPLE_RATE sD[15:0], ARB_FLOOR sD[3:0], and a write of ARB_WEIGHT or BARSTATE stands behind the writes of the tile that take effect at the next cycle boundary, where the weight becomes sD[3:0], and the barrier's INIT, PENDING, PHASE and RELP the fields of sD. That a write of PMC[i] or PMC_SEL[i] comes before the ISSUE count of its own word is log 70's choice. LOOP_MAX, TRAP_CODE, ARB_WEIGHT, ARB_FLOOR, DL_QUIET, STALL_CNT, TRACE_CTL, SAMPLE_RATE and BARSTATE trap PRIV outside one. -/
def Obligations.SystemRegisterWrites : Prop :=
  SmovWrites 0x002 (fun x w => { x with flags := w.extractLsb' 0 5 }) ∧
  SmovWrites 0x003 (fun x w => { x with sra := { seed := w, ctr := x.sra.ctr } }) ∧
  SmovWrites 0x004 (fun x w => { x with sra := { seed := x.sra.seed, ctr := w } }) ∧
  SmovWrites 0x005 (fun x w => { x with srb := { seed := w, ctr := x.srb.ctr } }) ∧
  SmovWrites 0x006 (fun x w => { x with srb := { seed := x.srb.seed, ctr := w } }) ∧
  (∀ i : Fin 16, SmovWrites (0x020 + i) (fun x w => { x with pmc := x.pmc.set i.val w i.isLt })) ∧
  (∀ i : Fin 16, SmovWrites (0x030 + i) (fun x w => { x with pmcSel := x.pmcSel.set i.val (w.extractLsb' 0 8) i.isLt })) ∧
  (∀ s r x (o : SmovOps), Issues s r x → x.guard0 o.g = true → x.sup = true →
    (o.reg.toNat = 0x008 → Completes (.smovWrite o) s r { x with loopMax := if x.gs o.d = 0 then 1 else x.gs o.d }) ∧
    (o.reg.toNat = 0x009 → ∃ c : Word, c.toNat = (x.gs o.d).toNat % 2 ^ 8 ∧
      Completes (.smovWrite o) s r { x with trapCode := c }) ∧
    (∀ rs, s.res? r.rid = some rs → ∀ n, n = o.reg.toNat → n = 0x200 ∨ n = 0x203 ∨ n = 0x210 ∨ n = 0x211 →
      ∃ t y rt, exec (.smovWrite o) s = .next t ∧ t.ctx? r = some y ∧ Past x y ∧ t.res? r.rid = some rt ∧
        rt.dlQuiet.toNat = (if n = 0x200 then max 1024 (min (x.gs o.d).toNat (2 ^ 32 - 1)) else rs.dlQuiet.toNat) ∧
        rt.stallCnt = (if n = 0x203 then x.gs o.d else rs.stallCnt) ∧
        rt.traceCtl.toNat = (if n = 0x210 then (x.gs o.d).toNat % 4 else rs.traceCtl.toNat) ∧
        rt.sampleRate.toNat = (if n = 0x211 then (x.gs o.d).toNat % 2 ^ 16 else rs.sampleRate.toNat) ∧
        rt.letters = rs.letters ∧ rt.stopped = rs.stopped ∧ (∀ q, q ≠ r → t.ctx? q = s.ctx? q) ∧ SameBytes s t) ∧
    (∀ k, s.tile? r.tile = some k →
      let tileNow (k' : Tile) : Prop := ∃ t y, exec (.smovWrite o) s = .next t ∧ t.ctx? r = some y ∧ Past x y ∧ t.tile? r.tile = some k' ∧
        (∀ e, e ≠ r.tile → t.tile? e = s.tile? e) ∧ OnlyContext s { t with tiles := s.tiles } r
      (∀ i : Fin 8, o.reg.toNat = 0x108 + i → ∃ v : BitVec 4, v.toNat = (x.gs o.d).toNat % 2 ^ 4 ∧
        tileNow { k with floor := k.floor.set i.val v i.isLt }) ∧
      (∀ i : Fin 8, o.reg.toNat = 0x100 + i → ∃ v : BitVec 4, v.toNat = (x.gs o.d).toNat % 2 ^ 4 ∧
        tileNow { k with pend := k.pend ++ [.weight i v] }) ∧
      (∀ b : Fin 96, o.reg.toNat = 0x300 + b → tileNow { k with pend := k.pend ++ [.bar b (x.gs o.d)] }))) ∧
  (∀ (s : State) (e : ElemRef) k (i : Fin 8) (v : BitVec 4), s.tile? e = some k →
    (s.applyPend e (.weight i v)).tile? e = some { k with weight := k.weight.set i.val v i.isLt }) ∧
  (∀ (s : State) (e : ElemRef) (b : Nat) (w : Word), let z := (s.applyPend e (.bar b w)).bar ⟨e.rid, e.elem, b⟩
    z.init.toNat = w.toNat % 2 ^ 8 ∧ z.pending.toNat = w.toNat / 2 ^ 8 % 2 ^ 8 ∧ z.phase = w.getLsbD 16 ∧ z.relp = w.getLsbD 17 ∧
      z.note = (s.bar ⟨e.rid, e.elem, b⟩).note) ∧
  (∀ b : Fin 96, ∀ s r x (o : SmovOps), Issues s r x → x.guard0 o.g = true → o.reg.toNat = 0x180 + b →
    ∃ t y, exec (.smovWrite o) s = .next t ∧ t.ctx? r = some y ∧ Past x y ∧
      t.bar ⟨r.rid, r.elem, b⟩ = { s.bar ⟨r.rid, r.elem, b⟩ with note := x.gs o.d } ∧
      (∀ k, k ≠ ⟨r.rid, r.elem, b⟩ → t.bar k = s.bar k) ∧ (∀ q, q ≠ r → t.ctx? q = s.ctx? q) ∧ SameBytes s t) ∧
  SmovWritePriv 0x008 ∧ SmovWritePriv 0x009 ∧ (∀ i : Fin 16, SmovWritePriv (0x100 + i)) ∧ SmovWritePriv 0x200 ∧
  SmovWritePriv 0x203 ∧ SmovWritePriv 0x210 ∧ SmovWritePriv 0x211 ∧ (∀ b : Fin 96, SmovWritePriv (0x300 + b))

/-- In a supervisor context, under a true guard, for a target q other than the issuer: SELF (3) for the issuer, NOT_REGION (1) for a target that names no tile context of the region and STATE_REFUSED (2) for one that is UNBOUND (log 31) complete with nothing else changed. freeze of a target in IDLE or READY, or in RUN on a tile that has issued in this cycle, with no matrix row waiting, leaves it FROZEN, and of a FROZEN one answers 0; so does freeze of a target in WAIT, whose word is abandoned at its pc (from RUN), unless that word is a post or waits for an engine's answer other than a group barrier's. Of such a target, and of one in RUN whose tile has yet to issue in this cycle (log 31), the issuer waits and the target is marked to freeze. kill of a target in IDLE, READY, RUN or FROZEN leaves it DONE with inactive loop slots, resume of a target FROZEN and not PREEMPTED leaves it in the state before with TRAPPED 0 and pc one further after SOFT or BREAK (the saved pc itself plus 1, log 20), and restart of a FROZEN target leaves it IDLE at its entry pc: status OK (0), registers of the target as before. A resume or restart of any other bound target, and a freeze or kill of a DONE one, gives STATE_REFUSED (2) and changes nothing. -/
def Obligations.ContextControl : Prop :=
  ∀ s r x (o : CtxCtlOps), Issues s r x → x.guard0 o.g = true → x.sup = true →
    let all (v : Word) : Prop := Completes (.ctxctlFreeze o) s r (x.ss o.d v) ∧ Completes (.ctxctlResume o) s r (x.ss o.d v) ∧
      Completes (.ctxctlKill o) s r (x.ss o.d v) ∧ Completes (.ctxctlRestart o) s r (x.ss o.d v)
    (s.ctlTarget r.rid (x.gs o.x) = some r → all 3) ∧ (s.ctlTarget r.rid (x.gs o.x) = none → all 1) ∧
    (∀ q y, s.ctlTarget r.rid (x.gs o.x) = some q → q ≠ r → s.ctx? q = some y → y.st = .unbound → all 2) ∧
    (∀ q y, s.ctlTarget r.rid (x.gs o.x) = some q → q ≠ r → s.ctx? q = some y → y.st ≠ .unbound →
      let rowless := ∀ t, s.tile? q.tile = some t → ∀ f ∈ t.rows, f.ctx ≠ q.ctx
      (y.st ≠ .frozen ∨ y.preempted = true → Completes (.ctxctlResume o) s r (x.ss o.d 2)) ∧
      (y.st ≠ .frozen → Completes (.ctxctlRestart o) s r (x.ss o.d 2)) ∧
      (y.st = .done → Completes (.ctxctlFreeze o) s r (x.ss o.d 2) ∧ Completes (.ctxctlKill o) s r (x.ss o.d 2)) ∧
      (y.st = .frozen → Completes (.ctxctlFreeze o) s r (x.ss o.d 0)) ∧
      (y.st = .idle ∨ y.st = .ready ∨ (y.st = .run ∧ s.issueDue q = false) → rowless →
        ∃ t z w, exec (.ctxctlFreeze o) s = .next t ∧ t.ctx? q = some z ∧ z.st = .frozen ∧ z.was = y.st ∧ z.pc = y.pc ∧
          z.s = y.s ∧ z.v = y.v ∧ z.trapped = y.trapped ∧ t.ctx? r = some w ∧ Past (x.ss o.d 0) w) ∧
      (y.st = .wait → y.wait ≠ some .postSent → (∀ id, y.wait = some (.reply id) → ∃ b, y.waitIns = some (.xbar b)) → s.freezeTarget q y ≠ some r →
        ∃ t z w, exec (.ctxctlFreeze o) s = .next t ∧ t.ctx? q = some z ∧ z.st = .frozen ∧ z.was = .run ∧ z.wait = none ∧ z.pc = y.pc ∧
          z.s = y.s ∧ z.v = y.v ∧ z.trapped = y.trapped ∧ t.ctx? r = some w ∧ Past (x.ss o.d 0) w) ∧
      ((y.st = .run ∧ s.issueDue q = true) ∨ (y.st = .wait ∧ (y.wait = some .postSent ∨ ∃ id, y.wait = some (.reply id) ∧ ∀ b, y.waitIns ≠ some (.xbar b))) →
        ∃ t z w, exec (.ctxctlFreeze o) s = .next t ∧ t.ctx? q = some z ∧ z = { y with freeze := z.freeze } ∧ Freeze.ctl ∈ z.freeze ∧
          t.ctx? r = some w ∧ w.st = .wait ∧ w.wait = some .loader ∧ w.pc = x.pc ∧ SameRegisters x w) ∧
      (y.st = .frozen → y.preempted = false →
        ∃ t z w, exec (.ctxctlResume o) s = .next t ∧ t.ctx? q = some z ∧ z.st = y.was ∧ z.trapped = false ∧
          z.pc = (if y.trapped = true ∧ (y.trapCode.toNat = tSOFT ∨ y.trapCode.toNat = tBREAK) then y.pc + 1 else y.pc) ∧
          z.s = y.s ∧ z.v = y.v ∧ z.fireCnt = y.fireCnt ∧ t.ctx? r = some w ∧ Past (x.ss o.d 0) w) ∧
      (y.st = .idle ∨ y.st = .ready ∨ y.st = .run ∨ y.st = .frozen → y.wait = none →
        ∃ t z w, exec (.ctxctlKill o) s = .next t ∧ t.ctx? q = some z ∧ z.st = .done ∧ (∀ n : Fin 2, z.loops[n].active = false) ∧
          t.ctx? r = some w ∧ Past (x.ss o.d 0) w) ∧
      (y.st = .frozen →
        ∃ t z w, exec (.ctxctlRestart o) s = .next t ∧ t.ctx? q = some z ∧ z.st = .idle ∧ z.pc = y.entry ∧ z.trapped = false ∧
          (∀ n : Fin 2, z.loops[n].active = false) ∧ z.s = y.s ∧ z.v = y.v ∧ z.fireCnt = y.fireCnt ∧
          t.ctx? r = some w ∧ Past (x.ss o.d 0) w))

/-- In a supervisor context of a residency, under a true guard: while the region drains, saves or holds a deferred drain, mark round answers 1 and changes nothing but sD, and so does mark checkpoint while a checkpoint is under way and mark cut while a stop is due or its marker is on its way. That mark cut answers 1 while the region drains or a stop is due is log 30's choice; that mark round in a stopped region answers 0, its drain deferred, and a second one 1, is log 55's. Otherwise mark round puts the region in DRAINING (or defers the drain in a stopped region), mark checkpoint marks the checkpoint under way, and mark cut sets the stop due in the next cycle, or, with no cut marker on its way, ends the stop of a stopped region: the elements and contexts that the stop alone froze go on, and a drain that was deferred begins. Each has status 0 in sD and pc past the word, there also where the drain that begins freezes the supervisor itself. -/
def Obligations.MarksInjectOrReportDraining : Prop :=
  ∀ s r x rs (o : MarkOps), Issues s r x → x.guard0 o.g = true → x.sup = true → s.res? r.rid = some rs →
    (rs.st ≠ .resident ∨ rs.deferredDrain = true → Completes (.markRound o) s r (x.ss o.d 1)) ∧
    (rs.st ≠ .resident ∨ rs.check = true → Completes (.markCheckpoint o) s r (x.ss o.d 1)) ∧
    (rs.st ≠ .resident ∨ rs.cutDue.isSome = true ∨ (rs.stopped = true ∧ s.markerOn r.rid .cut = true) → Completes (.markCut o) s r (x.ss o.d 1)) ∧
    (rs.st = .resident → rs.deferredDrain = false → (rs.stopped = true ∨ rs.cutDue.isSome = true) →
      ∃ t y rt, exec (.markRound o) s = .next t ∧ t.ctx? r = some y ∧ Past (x.ss o.d 0) y ∧
        t.res? r.rid = some rt ∧ rt.deferredDrain = true ∧ rt.st = .resident) ∧
    (rs.st = .resident → rs.deferredDrain = false → rs.stopped = false → rs.cutDue = none →
      ∃ t y rt, exec (.markRound o) s = .next t ∧ t.ctx? r = some y ∧ Past (x.ss o.d 0) y ∧
        t.res? r.rid = some rt ∧ rt.st = .draining ∧ rt.ownMark = true) ∧
    (rs.st = .resident → rs.check = false →
      ∃ t y rt, exec (.markCheckpoint o) s = .next t ∧ t.ctx? r = some y ∧ Past (x.ss o.d 0) y ∧
        t.res? r.rid = some rt ∧ rt.check = true ∧ rt.st = .resident) ∧
    (rs.st = .resident → rs.cutDue = none → rs.stopped = false →
      ∃ t y rt, exec (.markCut o) s = .next t ∧ t.ctx? r = some y ∧ Past (x.ss o.d 0) y ∧
        t.res? r.rid = some rt ∧ rt.cutDue = some (s.cycle + 1) ∧ OnlyContext s { t with ress := s.ress } r) ∧
    (rs.st = .resident → rs.cutDue = none → rs.stopped = true → s.markerOn r.rid .cut = false →
      ∃ t y rt, exec (.markCut o) s = .next t ∧ t.ctx? r = some y ∧ t.res? r.rid = some rt ∧ rt.stopped = false ∧ rt.cutDue = none ∧
        (∃ z, Past (x.ss o.d 0) z ∧ y.pc = z.pc ∧ y.lc = z.lc ∧ SameRegisters z y) ∧
        (x.freeze = [] → rs.deferredDrain = false ∨ rs.ownMark = true → Past (x.ss o.d 0) y) ∧
        (rs.deferredDrain = true → rt.st = .draining) ∧
        (rs.deferredDrain = false → rt.st = .resident ∧
          (∀ e el, e.rid = r.rid → s.elem? e = some el → t.elem? e = some (if el.frozen = some .cut then { el with frozen := none } else el)) ∧
          ∀ q u, q ≠ r → q.rid = r.rid → s.ctx? q = some u → u.st = .frozen → u.stopped = true → u.trapped = false → u.byCtl = false → u.preempted = false →
            ∃ z, t.ctx? q = some z ∧ z.st = u.was ∧ z.pc = u.pc ∧ z.lc = u.lc ∧ z.stopped = false ∧ SameRegisters u z))

/-- Under a true guard and on a declared output: with TRACE_CTL bit 0 set, tsamp leaves the mark pending on its output unless one is pending already (that a tsamp of another output then adds nothing is log 56's choice); with the bit clear it has no effect. With TRACE_CTL bit 1 set, the armed brkpt arms the n-th token from here on its output, replacing what was armed, and disarms for n = 0; with the bit clear it has no effect. Each completes and changes nothing else. In a supervisor context under a true guard, tlbinv with a length of 0 completes with no effect; with no access in flight and no invalidation under way it completes at once, and then no port TLB holds an entry of the region's ASID that meets the range widened to whole pages (the whole ASID with ALL). post with a block number outside the launch's list traps ISLAND_STATUS with the number; with no access or command of its context outstanding it leaves the context in WAIT with the low 32 bytes of vD on their way to that block of its launch, once; bytes and registers are as before. -/
def Obligations.ArmingInvalidationAndPosting : Prop :=
  (∀ s r x rs, Issues s r x → s.res? r.rid = some rs →
    (∀ o : TsampOps, x.guard0 o.g = true → x.outMask.getLsbD o.oc.val = true →
      let m := if rs.traceCtl.getLsbD 0 = true ∧ x.tsamp = none then some o.oc else x.tsamp
      Completes (.tsamp o) s r { x with tsamp := m }) ∧
    (∀ o : BrkArmedOps, x.guard0 o.g = true → x.outMask.getLsbD o.oc.val = true →
      let m := if rs.traceCtl.getLsbD 1 = true then (if o.n = 0 then none else some (o.oc, o.n, o.n)) else x.armed
      Completes (.brkptArmed o) s r { x with armed := m })) ∧
  ((∀ s r x rs (o : TlbinvOps), Issues s r x → x.guard0 o.g = true → x.sup = true → s.res? r.rid = some rs →
    (o.all = false → x.gs o.x = 0 → Completes (.tlbinv o) s r x) ∧
    (o.all = true ∨ x.gs o.x ≠ 0 → s.invals = [] → s.accs = [] →
      ∃ t y, exec (.tlbinv o) s = .next t ∧ t.ctx? r = some y ∧ Past x y ∧ SameBytes s t ∧
        ∀ k p, tget t.ports k = some p → ∀ e ∈ p.tlb, e.asid = rs.asid →
          if o.all = true then 2 ^ 64 ≤ e.va * e.size ∨ e.size = 0
          else (e.va + 1) * e.size ≤ (x.gs o.d).toNat / 2 ^ 16 * 2 ^ 16 ∨
            ((x.gs o.d).toNat + (x.gs o.x).toNat + 2 ^ 16 - 1) / 2 ^ 16 * 2 ^ 16 ≤ e.va * e.size)) ∧
  (∀ s r x rs l (o : PostOps), Issues s r x → x.guard0 o.g = true → s.res? r.rid = some rs → tget s.launches rs.tag = some l →
    (l.blocks.length ≤ o.block.toNat → Traps (.post o) s r x tISLAND_STATUS (o.block.zeroExtend 64) 0) ∧
    (o.block.toNat < l.blocks.length → s.owed r = [] →
      ∃ t y d tile, exec (.post o) s = .next t ∧ t.ctx? r = some y ∧ y.st = .wait ∧ y.pc = x.pc ∧ SameRegisters x y ∧
        t.posts = s.posts ++ [(d, tile, r, rs.tag, o.block.toNat, (x.gv o.d).extractLsb' 0 256)] ∧ s.cycle < d ∧ SameBytes s t)))

/-- From x to z no register gains the mark of one that cannot be corrected, and none loses it but those with the operand bytes ds (R346, log 23). -/
def MarksGo (x z : Ctx) (ds : List Nat) : Prop :=
  ∀ b, (b ∈ z.bad → b ∈ x.bad) ∧ (b ∉ ds → b ∈ x.bad → b ∈ z.bad)

/-- Beside its destination registers, which have the operand bytes ds, a vector word changes only the sticky flags, the stochastic counters and the event counters of its context, and the marks of those registers. -/
structure VecFrame (x z : Ctx) (ds : List Nat) : Prop where
  rest : z = { x with v := z.v, flags := z.flags, sra := z.sra, srb := z.srb, pmc := z.pmc, bad := z.bad }
  sticky : ∀ i : Nat, x.flags.getLsbD i = true → z.flags.getLsbD i = true
  seeds : z.sra.seed = x.sra.seed ∧ z.srb.seed = x.srb.seed
  marks : MarksGo x z ds

/-- Every unmasked lane of vD stands in the relation, every masked lane keeps its old contents, every other v register is as before (R62, R139). -/
structure VecLanes (x z : Ctx) (g : Guard) (t : Ty) (d : VReg) (rel : Nat → Nat → Prop) : Prop where
  frame : VecFrame x z [0x40 + d.val]
  others : ∀ r, r ≠ d → z.gv r = x.gv r
  on : ∀ l, l < t.lanes → x.laneOn g t l = true → rel l (laneGet t (z.gv d) l)
  off : ∀ l, l < t.lanes → x.laneOn g t l = false → laneGet t (z.gv d) l = laneGet t (x.gv d) l

/-- A vector word that raises no flag and draws nothing: it writes the unmasked lanes of vD as the relation says, and completes with nothing else changed. -/
def WritesV (i : Instr) (g : Guard) (t : Ty) (d : VReg) (rel : Ctx → Nat → Nat → Prop) : Prop :=
  ∀ s r x, Issues s r x → ∃ z, VecLanes x z g t d (rel x) ∧ z = { x with v := z.v, bad := z.bad } ∧ Completes i s r z

/-- A lane-wise word whose lane results come with flags: the unmasked lanes of vD take the results, FPFLAGS takes the flags of the unmasked lanes and of no masked one, and the counter of a stochastic mode advances by one (R30, R42, R62). -/
def WritesVF (i : Instr) (g : Guard) (t : Ty) (rm : RM) (d : VReg) (f : Ctx → Nat → Nat × Flags) : Prop :=
  ∀ s r x, Issues s r x → ∃ z, VecLanes x z g t d (fun l v => v = (f x l).1 % 2 ^ t.width) ∧
    (∀ b : Nat, z.flags.getLsbD b = true ↔ x.flags.getLsbD b = true ∨
      ∃ l, l < t.lanes ∧ x.laneOn g t l = true ∧ (f x l).2.getLsbD b = true) ∧
    z.sra.ctr = (if rm = .sa then x.sra.ctr + 1 else x.sra.ctr) ∧
    z.srb.ctr = (if rm = .sb then x.srb.ctr + 1 else x.srb.ctr) ∧ Completes i s r z

/-- The code of an integer result: modulo the width, or clamped to the type's range with SAT (R47, R140). -/
def IntLane (t : Ty) (sat : Bool) (i : Int) (v : Nat) : Prop :=
  v < 2 ^ t.width ∧ (if sat = true then t.ival v = max t.imin (min t.imax i) else ((v : Int) - i) % 2 ^ t.width = 0)

/-- Lane l of vA and lane l of the B operand. -/
def laneA (x : Ctx) (t : Ty) (a : VReg) (l : Nat) : Nat := laneGet t (x.gv a) l
def laneB (x : Ctx) (t : Ty) (b : SV) (l : Nat) : Nat :=
  match b with
  | .v r => laneGet t (x.gv r) l
  | .s r => (x.gs r).toNat % 2 ^ t.width

/-- What a word that neither compares nor reduces leaves of its context beside registers d to d + k − 1 of the v file. -/
def VecSpan (i : Instr) (d k : Nat) : Prop :=
  ∀ s r x, Issues s r x → ∃ z, VecFrame x z ((List.range k).map fun j => 0x40 + d + j) ∧
    (∀ q : VReg, q.val < d ∨ d + k ≤ q.val → z.gv q = x.gv q) ∧ Completes i s r z

/-- Digit k of a signed-digit element, counted from the last (R50). -/
def sdDigit (w : Word) (k : Nat) : Int :=
  match w.getLsbD (2 * k + 1), w.getLsbD (2 * k) with
  | false, true => 1
  | true, true => -1
  | _, _ => 0

/-- A digit of the element is invalid (R50). -/
def SdBad (w : Word) : Prop := ∃ k, k < 32 ∧ w.getLsbD (2 * k + 1) = true ∧ w.getLsbD (2 * k) = false

/-- The element's value in units of its last digit. -/
def sdValue (w : Word) : Int := ((List.range 32).map fun k => sdDigit w k * 2 ^ k).sum

/-- For every integer type, guard and operand form: in each unmasked lane, vadd, vsub and vmul give a + b, a − b and a × b modulo 2^w, or clamped to the type's range with SAT; vmin and vmax the smaller and larger; vabs and vneg |a| and −a. Masked lanes and every other register keep their contents, no flag is raised and no counter advances; the word completes. -/
def Obligations.VectorIntegerLanes : Prop :=
  ∀ t : Ty, t.isInt = true →
    (∀ o : VBinOps, o.ty = t → o.rm = .rne →
      WritesV (.vadd o) o.g t o.d (fun x l v => IntLane t o.sat (t.ival (laneA x t o.a l) + t.ival (laneB x t o.b l)) v) ∧
      WritesV (.vsub o) o.g t o.d (fun x l v => IntLane t o.sat (t.ival (laneA x t o.a l) - t.ival (laneB x t o.b l)) v) ∧
      WritesV (.vmul o) o.g t o.d (fun x l v => IntLane t o.sat (t.ival (laneA x t o.a l) * t.ival (laneB x t o.b l)) v)) ∧
    (∀ o : VMinMaxOps, o.ty = t → o.rm = .rne →
      WritesV (.vmin o) o.g t o.d (fun x l v => t.ival v = min (t.ival (laneA x t o.a l)) (t.ival (laneB x t o.b l))) ∧
      WritesV (.vmax o) o.g t o.d (fun x l v => t.ival v = max (t.ival (laneA x t o.a l)) (t.ival (laneB x t o.b l)))) ∧
    (∀ o : VUnSOps, o.ty = t → o.rm = .rne →
      WritesV (.vabs o) o.g t o.d (fun x l v => IntLane t o.sat (t.ival (laneA x t o.a l)).natAbs v) ∧
      WritesV (.vneg o) o.g t o.d (fun x l v => IntLane t o.sat (-t.ival (laneA x t o.a l)) v))

/-- For f16, bf16, f32 and f64, every rounding mode, guard and operand form: vadd, vsub, vmul, vfma, vmin, vmax, vdiv, vsqrt, vexp2 and vlog2 write into each unmasked lane the rounded result of that lane's operands (negation of A and C on the sign first; a lane draws with its own index), OR into FPFLAGS exactly the flags of the unmasked lanes, advance the counter of their stochastic source by one, and change nothing else. vabs clears the sign bit, and vneg flips it, of a lane that is no NaN, with no flag; a NaN lane becomes the canonical NaN, and a signalling one raises NV (log 13's reading). -/
def Obligations.VectorFloatLanes : Prop :=
  ∀ t : Ty, t.isFloat = true →
    (∀ o : VBinOps, o.ty = t →
      let A (x : Ctx) (l : Nat) : FV := if o.negA then (unpackF t (laneA x t o.a l)).negate else unpackF t (laneA x t o.a l)
      WritesVF (.vadd o) o.g t o.rm o.d (fun x l => addF t (x.rnd o.rm o.sat l) (A x l) (unpackF t (laneB x t o.b l))) ∧
      WritesVF (.vsub o) o.g t o.rm o.d (fun x l => addF t (x.rnd o.rm o.sat l) (A x l) (unpackF t (laneB x t o.b l)).negate) ∧
      WritesVF (.vmul o) o.g t o.rm o.d (fun x l => fmaF t (x.rnd o.rm o.sat l) (A x l) (unpackF t (laneB x t o.b l)) none)) ∧
    (∀ o : VFmaOps, o.ty = t → WritesVF (.vfma o) o.g t o.rm o.d (fun x l => fmaF t (x.rnd o.rm o.sat l)
      (if o.negA then (unpackF t (laneA x t o.a l)).negate else unpackF t (laneA x t o.a l)) (unpackF t (laneB x t o.b l))
      (some (if o.negC then (unpackF t (laneA x t o.c l)).negate else unpackF t (laneA x t o.c l))))) ∧
    (∀ o : VMinMaxOps, o.ty = t →
      WritesVF (.vmin o) o.g t o.rm o.d (fun x l => minMaxF t false (laneA x t o.a l) (laneB x t o.b l)) ∧
      WritesVF (.vmax o) o.g t o.rm o.d (fun x l => minMaxF t true (laneA x t o.a l) (laneB x t o.b l))) ∧
    (∀ o : VDivOps, o.ty = t → WritesVF (.vdiv o) o.g t o.rm o.d
      (fun x l => divF t (x.rnd o.rm false l) (unpackF t (laneA x t o.a l)) (unpackF t (laneB x t o.b l)))) ∧
    (∀ o : VUnOps, o.ty = t →
      WritesVF (.vsqrt o) o.g t o.rm o.d (fun x l => sqrtF t (x.rnd o.rm false l) (unpackF t (laneA x t o.a l))) ∧
      WritesVF (.vexp2 o) o.g t o.rm o.d (fun x l => exp2F t (x.rnd o.rm false l) (unpackF t (laneA x t o.a l))) ∧
      WritesVF (.vlog2 o) o.g t o.rm o.d (fun x l => log2F t (x.rnd o.rm false l) (unpackF t (laneA x t o.a l)))) ∧
    (∀ o : VUnSOps, o.ty = t →
      let nan (x : Ctx) (l : Nat) : Nat × Flags :=
        (t.nan, match unpackF t (laneA x t o.a l) with | .nan true => fNV | _ => 0)
      WritesVF (.vabs o) o.g t o.rm o.d (fun x l => if (unpackF t (laneA x t o.a l)).isNan = true then nan x l
        else (laneA x t o.a l % 2 ^ (t.width - 1), 0)) ∧
      WritesVF (.vneg o) o.g t o.rm o.d (fun x l => if (unpackF t (laneA x t o.a l)).isNan = true then nan x l
        else ((laneA x t o.a l + 2 ^ (t.width - 1)) % 2 ^ t.width, 0)))

/-- Exponent bits, mantissa bits, bias and greatest finite value of a floating-point format (R35). -/
def fmtOf : Ty → Option (Nat × Nat × Nat × ℚ)
  | .f16 => some (5, 10, 15, 65504)
  | .bf16 => some (8, 7, 127, (2 ^ 8 - 1) * 2 ^ 120)
  | .f32 => some (8, 23, 127, (2 ^ 24 - 1) * 2 ^ 104)
  | .f64 => some (11, 52, 1023, (2 ^ 53 - 1) * 2 ^ 971)
  | .e5m2 => some (5, 2, 15, 57344)
  | .e4m3 => some (4, 3, 7, 448)
  | .e3m2 => some (3, 2, 3, 28)
  | .e2m3 => some (2, 3, 1, 15 / 2)
  | .e2m1 => some (2, 1, 1, 6)
  | _ => none

/-- The value of a finite operand; 0 of any other. -/
def valOf : FV → ℚ
  | .fin n m e => (if n then -1 else 1) * (m : ℚ) * 2 ^ e
  | _ => 0

/-- The mode takes the magnitude y, in units of the last place, to n units: to y itself where it is whole, and otherwise to one of its two neighbours as the table of R40 and the draw u of R41 say, f being the part above the lower magnitude. -/
def Picks (rm : RM) (neg : Bool) (u : Nat) (y : ℝ) (n : Nat) : Prop :=
  let f := y - ⌊y⌋₊
  (f = 0 → n = ⌊y⌋₊) ∧
  (f ≠ 0 → (n = ⌊y⌋₊ ∨ n = ⌊y⌋₊ + 1) ∧ (n = ⌊y⌋₊ + 1 ↔ match rm with
    | .rne => 1 / 2 < f ∨ (f = 1 / 2 ∧ ⌊y⌋₊ % 2 = 1)
    | .rtz => False
    | .rdn => neg = true
    | .rup => neg = false
    | .rna => 1 / 2 ≤ f
    | .rod => ⌊y⌋₊ % 2 = 0
    | .sa | .sb => if neg = true then ⌊(1 - f) * 2 ^ 24⌋₊ + u < 2 ^ 24 else 2 ^ 24 ≤ ⌊f * 2 ^ 24⌋₊ + u))

/-- The result is a zero of that sign, with no flag. -/
def IsZero (t : Ty) (neg : Bool) (res : Nat × Flags) : Prop := (∃ e, unpackF t res.1 = .fin neg 0 e) ∧ res.2 = 0

/-- The result is X ≠ 0 rounded once to the type: the multiple n of the last place that the mode picks, with NX where that is not X, and UF too where X is tiny; above the greatest finite value it is what the table of R43 gives, with OF and NX (R40, R41, R43, R44). -/
def RoundsOnce (t : Ty) (r : Rnd) (X : ℝ) (res : Nat × Flags) : Prop :=
  ∀ eb mb bias top, fmtOf t = some (eb, mb, bias, top) → ∀ (e : ℤ) (neg : Bool) (n k : Nat),
    (2 : ℝ) ^ e ≤ |X| → |X| < 2 ^ (e + 1) → (neg = true ↔ X < 0) →
    let q : ℤ := max (e - mb) (1 - bias - mb)
    Picks r.rm neg r.u (|X| / 2 ^ q) n → Picks r.rm neg r.u (|X| / 2 ^ (e - mb : ℤ)) k →
      res.1 < 2 ^ (1 + eb + mb) ∧
      ((n : ℝ) * 2 ^ q ≤ top → (∃ m x, unpackF t res.1 = .fin neg m x ∧ (m : ℝ) * 2 ^ x = n * 2 ^ q) ∧
        ((n : ℝ) * 2 ^ q = |X| → res.2 = 0) ∧
        ((n : ℝ) * 2 ^ q ≠ |X| → (k : ℝ) * 2 ^ (e - mb : ℤ) < 2 ^ (1 - bias : ℤ) → res.2 = fNX ||| fUF) ∧
        ((n : ℝ) * 2 ^ q ≠ |X| → (2 : ℝ) ^ (1 - bias : ℤ) ≤ k * 2 ^ (e - mb : ℤ) → res.2 = fNX)) ∧
      ((top : ℝ) < n * 2 ^ q → res.2 = fOF ||| fNX ∧
        (if r.sat = true ∨ t = .e3m2 ∨ t = .e2m3 ∨ t = .e2m1 ∨
            (t ≠ .e5m2 ∧ t ≠ .e4m3 ∧ (r.rm = .rtz ∨ r.rm = .rod ∨ (r.rm = .rdn ∧ neg = false) ∨ (r.rm = .rup ∧ neg = true)))
          then ∃ m x, unpackF t res.1 = .fin neg m x ∧ (m : ℝ) * 2 ^ x = top
          else if t = .e4m3 then res.1 = 0x7F else unpackF t res.1 = .inf neg))

/-- For a magnitude m in units of 2^0 rounded to multiples of 2^k (k ≥ 0), of either sign: a multiple is its own result and exact. Otherwise the result is one of the two neighbours, and: rtz the lower magnitude; rdn the greater magnitude exactly for a negative value and rup for a positive one; rod the odd one; rne and rna a nearest one, on a tie the even one and the greater one; sa and sb, for a positive value, the upper one exactly when floor(2^24 × f) + U ≥ 2^24, f being the fraction between the neighbours. The number U of a lane is what R41 computes from the seed and the counter of the mode's source. For every floating-point type, a magnitude is rounded once to the type, with its overflow and its flags. For f16, bf16, f32 and f64 the sum, the product, the product plus an addend, the quotient and the square root of finite operands are the exact result rounded once; a zero product or quotient has the sign of its operands, and a zero sum is −0 under rdn or where both its terms are −0, and +0 otherwise (for two zeros of one sign log 52's choice); a NaN operand, ∞ − ∞, 0 × ∞ and 0/0 give the canonical NaN, with NV but for a quiet NaN, and a finite nonzero value divided by 0 gives an infinity with DZ. A value scaled by a power of two and converted is the product rounded once; a conversion to an integer type is the integer that the mode picks, with NX where that is not the value, or the nearest bound with NV outside the range; output i of the Hadamard transform of finite elements is their exact sum, element j taken with the sign (−1)^popcount(i and j), rounded once. -/
def Obligations.RoundingFollowsTheMode : Prop :=
  (∀ (neg : Bool) (m k u : Nat) (rm : RM),
    let r := ({ neg := neg, mant := m, exp := 0 } : Ex).roundAt k rm u
    let lo := m / 2 ^ k
    let rest := m % 2 ^ k
    (rest = 0 → r = (lo, false)) ∧
    (rest ≠ 0 → r.2 = true ∧ (r.1 = lo ∨ r.1 = lo + 1) ∧
      (rm = .rtz → r.1 = lo) ∧
      (rm = .rdn → (r.1 = lo + 1 ↔ neg = true)) ∧ (rm = .rup → (r.1 = lo + 1 ↔ neg = false)) ∧
      (rm = .rod → r.1 % 2 = 1) ∧
      (rm = .rne → (2 * rest < 2 ^ k → r.1 = lo) ∧ (2 ^ k < 2 * rest → r.1 = lo + 1) ∧ (2 * rest = 2 ^ k → r.1 % 2 = 0)) ∧
      (rm = .rna → (2 * rest < 2 ^ k → r.1 = lo) ∧ (2 ^ k ≤ 2 * rest → r.1 = lo + 1)) ∧
      ((rm = .sa ∨ rm = .sb) → neg = false → (r.1 = lo + 1 ↔ 2 ^ 24 ≤ rest * 2 ^ 24 / 2 ^ k + u)))) ∧
  (∀ (seed ctr : Word) (lane : Nat),
    let z := seed.toNat ^^^ (ctr.toNat * 256 + lane) % 2 ^ 64
    let z := z * 0xD1B54A32D192ED03 % 2 ^ 64
    let z := z ^^^ z / 2 ^ 32
    let z := z * 0xAEF17502108EF2D9 % 2 ^ 64
    let z := z ^^^ z / 2 ^ 29
    draw seed ctr lane = z / 2 ^ 40) ∧
  (∀ (x : Ctx) (rm : RM) (sat : Bool) (l : Nat), (x.rnd rm sat l).rm = rm ∧ (x.rnd rm sat l).sat = sat ∧
    (rm = .sa → (x.rnd rm sat l).u = draw x.sra.seed x.sra.ctr l) ∧ (rm = .sb → (x.rnd rm sat l).u = draw x.srb.seed x.srb.ctr l)) ∧
  (∀ (t : Ty) (r : Rnd) (n : Bool) (m : Nat) (e : ℤ), fmtOf t ≠ none →
    let res := r.to t { neg := n, mant := m, exp := e }
    (m ≠ 0 → RoundsOnce t r (valOf (.fin n m e) : ℚ) res) ∧ (m = 0 → IsZero t n res)) ∧
  (∀ (t : Ty) (r : Rnd) (n n' n'' : Bool) (m m' m'' : Nat) (e e' e'' : ℤ), t.isFloat = true →
    let a := FV.fin n m e
    let b := FV.fin n' m' e'
    let c := FV.fin n'' m'' e''
    let once (X : ℚ) (zero : Bool) (res : Nat × Flags) : Prop := (X ≠ 0 → RoundsOnce t r (X : ℝ) res) ∧ (X = 0 → IsZero t zero res)
    once (valOf a + valOf b) (r.rm == .rdn || (n && n')) (addF t r a b) ∧
    once (valOf a * valOf b) (n != n') (fmaF t r a b none) ∧
    once (valOf a * valOf b + valOf c) (r.rm == .rdn || ((n != n') && n'')) (fmaF t r a b (some c)) ∧
    (m' ≠ 0 → once (valOf a / valOf b) (n != n') (divF t r a b)) ∧
    (m' = 0 → m ≠ 0 → unpackF t (divF t r a b).1 = .inf (n != n') ∧ (divF t r a b).2 = fDZ) ∧
    (m' = 0 → m = 0 → divF t r a b = (t.nan, fNV)) ∧
    (n = false → m ≠ 0 → RoundsOnce t r (Real.sqrt (valOf a : ℚ)) (sqrtF t r a)) ∧
    (n = true → m ≠ 0 → sqrtF t r a = (t.nan, fNV)) ∧ (m = 0 → IsZero t n (sqrtF t r a)) ∧
    addF t r (.inf n) (.inf !n) = (t.nan, fNV) ∧ divF t r (.inf n) (.inf n') = (t.nan, fNV) ∧
    (m = 0 → ∀ z, fmaF t r a (.inf n') z = (t.nan, fNV) ∧ fmaF t r (.inf n') a z = (t.nan, fNV)) ∧
    (∀ v : FV, addF t r (.nan n) v = (t.nan, if n = true ∨ v.isSig = true then fNV else 0) ∧
      divF t r (.nan n) v = (t.nan, if n = true ∨ v.isSig = true then fNV else 0) ∧
      fmaF t r (.nan n) v none = (t.nan, if n = true ∨ v.isSig = true then fNV else 0))) ∧
  (∀ (t : Ty) (r : Rnd) (n : Bool) (m : Nat) (e d : ℤ), fmtOf t ≠ none →
    let res := convertScaled t r (.fin n m e) d
    (m ≠ 0 → RoundsOnce t r (valOf (.fin n m e) * 2 ^ d : ℚ) res) ∧ (m = 0 → IsZero t n res)) ∧
  (∀ (t : Ty) (r : Rnd) (n : Bool) (m k : Nat) (e : ℤ), t.isInt = true → Picks r.rm n r.u ((m : ℝ) * 2 ^ e) k →
    let res := toInt t r (.fin n m e)
    let i : ℤ := if n then -k else k
    (i < t.imin → t.ival res.1 = t.imin ∧ res.2 = fNV) ∧ (t.imax < i → t.ival res.1 = t.imax ∧ res.2 = fNV) ∧
      (t.imin ≤ i → i ≤ t.imax → t.ival res.1 = i ∧ ((k : ℝ) = m * 2 ^ e → res.2 = 0) ∧ ((k : ℝ) ≠ m * 2 ^ e → res.2 = fNX))) ∧
  (∀ (t : Ty) (r : Rnd) (xs : List FV) (i : Nat), t = .bf16 ∨ t = .f32 → (∀ v ∈ xs, ∃ n m e, v = .fin n m e) →
    let minus (j : Nat) : Bool := ((List.range 8).filter fun b => i.testBit b && j.testBit b).length % 2 == 1
    let X : ℚ := ((List.range xs.length).map fun j => (if minus j then -1 else 1) * valOf (xs.getD j (.fin false 0 0))).sum
    (X ≠ 0 → RoundsOnce t r (X : ℝ) (hadOut t r xs i)) ∧ (X = 0 → ∃ neg, IsZero t neg (hadOut t r xs i)))

/-- For every type of 64 lanes or fewer: after vcmp.eq, ne, lt, le or un, bit l of kD for an unmasked lane l holds the relation (integers by value; floats by value with −0 equal to +0, and for a NaN 0 for eq, lt and le and 1 for ne and un), a masked lane keeps its old bit, bits from the lane count up are 0, and only kD, the sticky flags and the event counters of the context have changed. With integer types no flag is raised. For every type, guard and operand form, in each unmasked lane: vsel gives lane a where bit l of kC is 1 and b otherwise; vand, vor, vxor and vandn act bit by bit; vshl, vshr and vsra shift by b mod w; vperm gives lane b mod L of vA; vbcst the low bits of sA; vins the low bits of sA in lane sB mod L and the old contents elsewhere. Masked lanes and all other registers keep their contents, no flag is raised; vext writes sD with lane sB mod L of vA, extended by its type. -/
def Obligations.VectorComparisonsAndRawBits : Prop :=
  (∀ o : VCmpOps, o.ty.lanes ≤ 64 →
    let t := o.ty
    let res (i : Instr) (rel : Ctx → Nat → Bool) : Prop := ∀ s r x, Issues s r x → ∃ (z : Ctx) (k : Word),
      (∀ l, l < t.lanes → k.getLsbD l = if x.laneOn o.g t l = true then rel x l else (x.gk o.d).getLsbD l) ∧
      (∀ l, t.lanes ≤ l → k.getLsbD l = false) ∧
      z = { x.sk o.d k with flags := z.flags, pmc := z.pmc, bad := z.bad } ∧ MarksGo x z [0xC0 + o.d.val] ∧
      (∀ b : Nat, x.flags.getLsbD b = true → z.flags.getLsbD b = true) ∧
      (t.isInt = true → z = { x.sk o.d k with bad := z.bad }) ∧ Completes i s r z
    let nan (x : Ctx) (l : Nat) : Bool := (unpackF t (laneA x t o.a l)).isNan || (unpackF t (laneB x t o.b l)).isNan
    let ord (x : Ctx) (l : Nat) : Ordering := cmpF false (unpackF t (laneA x t o.a l)) (unpackF t (laneB x t o.b l))
    let ia (x : Ctx) (l : Nat) : Int := t.ival (laneA x t o.a l)
    let ib (x : Ctx) (l : Nat) : Int := t.ival (laneB x t o.b l)
    res (.vcmpEq o) (fun x l => if t.isFloat then !nan x l && ord x l == .eq else ia x l == ib x l) ∧
    res (.vcmpNe o) (fun x l => if t.isFloat then nan x l || ord x l != .eq else ia x l != ib x l) ∧
    res (.vcmpLt o) (fun x l => if t.isFloat then !nan x l && ord x l == .lt else decide (ia x l < ib x l)) ∧
    res (.vcmpLe o) (fun x l => if t.isFloat then !nan x l && ord x l != .gt else decide (ia x l ≤ ib x l)) ∧
    res (.vcmpUn o) (fun x l => t.isFloat && nan x l)) ∧
  ((∀ o : VSelOps, WritesV (.vsel o) o.g o.ty o.d (fun x l v =>
    v = if (x.gk o.k).getLsbD l then laneA x o.ty o.a l else laneB x o.ty o.b l)) ∧
  (∀ o : VBitsOps,
    let t := o.ty
    WritesV (.vand o) o.g t o.d (fun x l v => ∀ k, v.testBit k = ((laneA x t o.a l).testBit k && (laneB x t o.b l).testBit k)) ∧
    WritesV (.vor o) o.g t o.d (fun x l v => ∀ k, v.testBit k = ((laneA x t o.a l).testBit k || (laneB x t o.b l).testBit k)) ∧
    WritesV (.vxor o) o.g t o.d (fun x l v => ∀ k, v.testBit k = ((laneA x t o.a l).testBit k ^^ (laneB x t o.b l).testBit k)) ∧
    WritesV (.vandn o) o.g t o.d (fun x l v => ∀ k, v.testBit k = ((laneA x t o.a l).testBit k && !(laneB x t o.b l).testBit k)) ∧
    WritesV (.vshl o) o.g t o.d (fun x l v => v = laneA x t o.a l * 2 ^ (laneB x t o.b l % t.width) % 2 ^ t.width) ∧
    WritesV (.vshr o) o.g t o.d (fun x l v => v = laneA x t o.a l / 2 ^ (laneB x t o.b l % t.width)) ∧
    WritesV (.vsra o) o.g t o.d (fun x l v => toSigned t.width v = toSigned t.width (laneA x t o.a l) / 2 ^ (laneB x t o.b l % t.width)) ∧
    WritesV (.vperm o) o.g t o.d (fun x l v => v = laneA x t o.a (laneB x t o.b l % t.lanes))) ∧
  (∀ o : VFromSOps, WritesV (.vbcst o) o.g o.ty o.d (fun x _ v => v = (x.gs o.a).toNat % 2 ^ o.ty.width)) ∧
  (∀ o : VInsOps, WritesV (.vins o) o.g o.ty o.d (fun x l v =>
    v = if l = (x.gs o.b).toNat % o.ty.lanes then (x.gs o.a).toNat % 2 ^ o.ty.width else laneA x o.ty o.d l)) ∧
  (∀ o : VExtOps, WritesS (.vext o) o.g o.d (fun x v =>
    v = BitVec.ofInt 64 (o.ty.ival (laneA x o.ty o.a ((x.gs o.b).toNat % o.ty.lanes))))))

/-- The greatest finite value of a type that vbsc writes, 127 for i8 (R149). -/
def blockTop (t : Ty) : Option ℚ := if t = .i8 then some 127 else (fmtOf t).map fun f => f.2.2.2

/-- vpack of e2m1 and i4 puts the low 4 bits of byte l of vA, or of byte l − 64 of vB, into each unmasked element; of a 6-bit type it packs bits [5:0] of the bytes of vA, a masked element keeping its old bits, bytes 48 to 63 becoming 0. vunpack reverses it, i4 sign-extended. vcvt, vrnd and vscale write each unmasked selected lane with the conversion of its element (vrnd to an integer value first, vscale scaled by 2^e exactly first), leave every lane that PART does not select, OR in the flags of the unmasked selected lanes and draw once. vbsc writes sC, whatever the guard, with 0xFF where a source is a NaN (raising NV), 254 where one is infinite, 127 where all are zero, and otherwise the least code e of 0 to 254 with which no element times 2^(127 − e) is above the greatest finite value of the type (254 where there is none); it writes each unmasked lane of the half it selects with its element times 2^(127 − e) converted, the canonical NaN for 0xFF, and leaves every other lane; vbsx writes each unmasked lane with the element scaled by 2^(e − 127) and rounded once, and the canonical NaN with NV for e = 0xFF; vhad writes each unmasked lane of the registers of its span with its output of the Hadamard transform of its group, rounded once, and changes no other register. Each completes. That vbsx raises NV for 0xFF, and vbsc for a NaN in a masked lane, is log 15's reading; that a lane of vhad draws by its number within its own register is log 16's, the wrap or clamp of vscale between integer types log 14's. -/
def Obligations.ConversionsAndBlockScaling : Prop :=
  ((∀ (o : VPackOps) b, o.b = some b → o.ty = .e2m1 ∨ o.ty = .i4 → WritesV (.vpack o) o.g o.ty o.d (fun x l v =>
    v = (if l < 64 then laneA x .n8 o.a l else laneB x .n8 b (l - 64)) % 16)) ∧
  (∀ o : VPackOps, o.b = none → o.ty = .e3m2 ∨ o.ty = .e2m3 → ∀ s r x, Issues s r x →
    ∃ (b : Beat) (z : Ctx), (∀ j, j < 64 → b.toNat / 2 ^ (6 * j) % 64 =
        if x.laneOn o.g o.ty j = true then laneA x .n8 o.a j % 64 else (x.gv o.d).toNat / 2 ^ (6 * j) % 64) ∧
      b.toNat < 2 ^ 384 ∧ z = { x.sv o.d b with bad := z.bad } ∧ MarksGo x z [0x40 + o.d.val] ∧ Completes (.vpack o) s r z) ∧
  (∀ o : VUnpackOps, WritesV (.vunpack o) o.g .n8 o.d (fun x l v =>
    (o.ty = .i4 → toSigned 8 v = toSigned 4 ((x.gv o.a).toNat / 2 ^ (4 * ((if o.half then 64 else 0) + l)) % 16)) ∧
    (o.ty = .e2m1 → v = (x.gv o.a).toNat / 2 ^ (4 * ((if o.half then 64 else 0) + l)) % 16) ∧
    (o.ty = .e3m2 ∨ o.ty = .e2m3 → v = (x.gv o.a).toNat / 2 ^ (6 * l) % 64))) ∧
  (∀ o : VCvtOps,
    WritesVF (.vcvt o) o.g o.ty o.rm o.d (fun x l => match partSrc o.ty o.sty o.part.val l with
      | some i => convert o.ty o.sty (x.rnd o.rm o.sat l) (laneA x o.sty o.a i)
      | none => (laneA x o.ty o.d l, 0)) ∧
    WritesVF (.vrnd o) o.g o.ty o.rm o.d (fun x l => match partSrc o.ty o.sty o.part.val l with
      | some i => rndOne o.ty o.sty (x.rnd o.rm o.sat l) (laneA x o.sty o.a i)
      | none => (laneA x o.ty o.d l, 0))) ∧
  (∀ o : VScaleOps, WritesVF (.vscale o) o.g o.ty o.rm o.d (fun x l => match partSrc o.ty o.sty o.part.val l with
    | some i => scaleOne o.ty o.sty (x.rnd o.rm o.sat l) (toSigned 16 (x.gs o.b).toNat) (laneA x o.sty o.a i)
    | none => (laneA x o.ty o.d l, 0)))) ∧
  ((∀ (o : VBscOps) s r x, Issues s r x → ∃ z w, VecFrame x z [0x40 + o.d.val] ∧ (∀ q, q ≠ o.d → z.gv q = x.gv q) ∧
    (∀ l, l < o.ty.lanes → x.laneOn o.g o.ty l = false ∨ ¬ ((if o.half then 64 else 0) ≤ l ∧ l < (if o.half then 128 else 64)) →
      laneGet o.ty (z.gv o.d) l = laneA x o.ty o.d l) ∧
    (let xs := x.blockSrc o.a o.src32
     let first := if o.half then 64 else 0
     (∀ l, l < o.ty.lanes → first ≤ l → l < first + 64 → x.laneOn o.g o.ty l = true →
       laneGet o.ty (z.gv o.d) l = (if w.toNat = 255 then o.ty.nan
         else (convertScaled o.ty (x.rnd o.rm o.sat (l - first)) (xs.getD (l - first) (.fin false 0 0)) (127 - w.toNat)).1) % 2 ^ o.ty.width) ∧
     (∀ top, blockTop o.ty = some top → (∀ v ∈ xs, ∃ n m e, v = .fin n m e) → (∃ v ∈ xs, valOf v ≠ 0) → w.toNat ≤ 254 ∧
       (w.toNat < 254 → ∀ v ∈ xs, |valOf v| ≤ top * 2 ^ ((w.toNat : ℤ) - 127)) ∧
       (0 < w.toNat → ∃ v ∈ xs, top * 2 ^ ((w.toNat : ℤ) - 128) < |valOf v|)) ∧
     (xs.any FV.isNan = true → w = 0xFF ∧ z.flags.getLsbD 0 = true) ∧
     (xs.any FV.isNan = false → xs.any (fun v => match v with | .inf _ => true | _ => false) = true → w = 254) ∧
     ((∀ v ∈ xs, ∃ n e, v = .fin n 0 e) → w = 127) ∧ w.toNat < 256) ∧
    Completes (.vbsc o) s r (z.ss o.c w)) ∧
  (∀ o : VBsxOps, WritesVF (.vbsx o) o.g o.dst o.rm o.d (fun x l =>
    if (x.gs o.b).toNat % 256 = 255 then (o.dst.nan, fNV)
    else convertScaled o.dst (x.rnd o.rm o.sat l) (valueOf o.ty (laneA x o.ty o.a (o.part.val * o.dst.lanes + l)))
      (((x.gs o.b).toNat % 256 : Nat) - 127))) ∧
  (∀ (o : VHadOps) s r x, Issues s r x → ∃ z,
    let n := 8 * 2 ^ o.size.val
    let k := max 1 (n * o.ty.width / 512)
    let el (i : Nat) : FV := unpackF o.ty (laneGet o.ty (x.gvAt o.a (i / o.ty.lanes)) (i % o.ty.lanes))
    VecFrame x z ((List.range k).map fun j => 0x40 + o.d.val + j) ∧
    (∀ q : VReg, q.val < o.d.val ∨ o.d.val + k ≤ q.val → z.gv q = x.gv q) ∧
    (o.ty = .bf16 ∨ o.ty = .f32 → o.a.val + k ≤ 32 → o.d.val + k ≤ 32 → ∀ j l, j < k → l < o.ty.lanes →
      let i := j * o.ty.lanes + l
      laneGet o.ty (z.gvAt o.d j) l = if x.laneOn o.g o.ty l = true
        then (hadOut o.ty (x.rnd o.rm false l) ((List.range n).map fun q => el (i / n * n + q)) (i % n)).1 % 2 ^ o.ty.width
        else laneGet o.ty (x.gvAt o.d j) l) ∧
    Completes (.vhad o) s r z))

/-- In every state in which it issues, whatever its operands and its guard: vred.add, vred.min and vred.max complete with sD written, and beside it only the sticky flags, the stochastic and the event counters of their context changed. For an integer type sD is the sum of the unmasked lanes modulo 2^w (clamped with SAT), or their least or greatest (the type's maximum and minimum where none is unmasked), and no flag is raised; for a float type it is the pairwise tree over the lanes of vA, a masked lane holding −0 for a sum, +inf for a minimum and −inf for a maximum, node k of a sum rounded with draw k, and the flags of the nodes are ORed in. vsort completes with vD alone written: in the unmasked lanes, in ascending lane order, a permutation of the unmasked lanes of vA sorted by value, or for floats by the order of codes that puts −0 below +0, and the other lanes as before. vclass writes each unmasked lane of vD with its class, exactly one of bits 0 to 9 in a lane of 16 bits or more. vdot writes each unmasked lane of vD with c + Σ a × b over four byte pairs, wrapped or clamped. Each of the six completes with nothing else changed. -/
def Obligations.ReduceSortClassifyDot : Prop :=
  (∀ (o : VRedOps) s r x, Issues s r x →
    let res (i : Instr) (kind : Nat) (rel : Ctx → Int → Prop) : Prop := ∃ (w : Word) (z : Ctx),
      z = { x.ss o.d w with flags := z.flags, sra := z.sra, srb := z.srb, pmc := z.pmc } ∧
      (o.ty.isInt = true → ∃ k : Int, o.ty.imin ≤ k ∧ k ≤ o.ty.imax ∧ rel x k ∧ w = BitVec.ofInt 64 k ∧ z = x.ss o.d w) ∧
      (o.ty.isFloat = true →
        let mask : Nat := if kind = 0 then 2 ^ (o.ty.width - 1) else (infCode o.ty {} (kind == 2)).1
        let top := tree (fun k p q => if kind = 0 then addF o.ty (x.rnd o.rm o.sat k) (unpackF o.ty p) (unpackF o.ty q)
            else minMaxF o.ty (kind == 2) p q) (Nat.log2 o.ty.lanes) 0
          ((List.range o.ty.lanes).map fun l => (if (x.guard o.g).getLsbD l then laneA x o.ty o.a l else mask, 0))
        w.toNat = top.1 % 2 ^ 64 ∧ z.flags = x.flags ||| top.2 ∧
        z.sra.ctr = (if o.rm = .sa then x.sra.ctr + 1 else x.sra.ctr) ∧
        z.srb.ctr = (if o.rm = .sb then x.srb.ctr + 1 else x.srb.ctr)) ∧
      Completes i s r z
    let ons (x : Ctx) : List Int := ((List.range o.ty.lanes).filter fun l => (x.guard o.g).getLsbD l).map fun l => o.ty.ival (laneA x o.ty o.a l)
    res (.vredAdd o) 0 (fun x k => if o.sat = true then k = max o.ty.imin (min o.ty.imax (ons x).sum) else (k - (ons x).sum) % 2 ^ o.ty.width = 0) ∧
    res (.vredMin o) 1 (fun x k => (∀ a ∈ ons x, k ≤ a) ∧ (k ∈ ons x ∨ k = o.ty.imax)) ∧
    res (.vredMax o) 2 (fun x k => (∀ a ∈ ons x, a ≤ k) ∧ (k ∈ ons x ∨ k = o.ty.imin))) ∧
  (∀ (o : VSortOps) s r x, Issues s r x → ∃ (b : Beat) (z : Ctx),
    let t := o.ty
    let on := (List.range t.lanes).filter fun l => x.laneOn o.g t l
    let out := on.map (laneGet t b)
    out.Perm (on.map fun l => laneA x t o.a l) ∧
    out.Pairwise (fun p q => if o.desc = true then sortKey t q ≤ sortKey t p else sortKey t p ≤ sortKey t q) ∧
    (∀ l, l < t.lanes → x.laneOn o.g t l = false → laneGet t b l = laneA x t o.d l) ∧
    z = { x.sv o.d b with bad := z.bad } ∧ MarksGo x z [0x40 + o.d.val] ∧ Completes (.vsort o) s r z) ∧
  (∀ o : VClassOps, WritesV (.vclass o) o.g o.ty o.d (fun x l v => v = classOf o.ty (laneA x o.ty o.a l) % 2 ^ o.ty.width ∧
    (16 ≤ o.ty.width → ∃ k, k < 10 ∧ v = 2 ^ k))) ∧
  (∀ o : VDotOps, o.ty.lanes = 16 →
    let sa : Ty := if o.sign == 1 then .n8 else .i8
    let sb : Ty := if o.sign == 0 then .i8 else .n8
    let sum (x : Ctx) (l : Nat) : Int := o.ty.ival (laneA x o.ty o.c l) +
      ((List.range 4).map fun m => sa.ival (laneA x sa o.a (4 * l + m)) * sb.ival (laneGet sb (x.operand o.ty o.b) (4 * l + m))).sum
    WritesV (.vdot o) o.g o.ty o.d (fun x l v => (o.ty = .i32 ∨ o.ty = .n32 → IntLane o.ty o.sat (sum x l) v))) ∧
  (∀ (o : VDotOps) s r x, Issues s r x → ∃ z, z = { x with v := z.v, bad := z.bad } ∧ Completes (.vdot o) s r z)

/-- vsdc writes each unmasked lane with an element without bad digits whose value is the source's value (n32 natural, i32 signed, f32 its order key). vsdadd writes an unmasked lane whose operands have no bad digit with an element z for which a + b differs from 2 z by at most 1 unit of the last digit; with a bad digit it writes the all-bad element and raises NV. vsdcmp sets bit l of kD only where the value of a is greater than that of b, and with sC ≥ 32 sets it exactly there and bit l of k(D + 1) exactly where they are equal, for operands without bad digits (that the count is read as a natural number is log 53's reading). -/
def Obligations.SignedDigitsAddWithoutCarry : Prop :=
  (∀ o : VSdcOps, o.ty = .n32 ∨ o.ty = .i32 ∨ o.ty = .f32 → WritesV (.vsdc o) o.g .sd o.d (fun x l v =>
    let p := laneA x o.ty o.a ((if o.half then 8 else 0) + l)
    ¬ SdBad (BitVec.ofNat 64 v) ∧ sdValue (BitVec.ofNat 64 v) =
      if o.ty = .i32 then toSigned 32 p else if o.ty = .n32 then (p : Int)
      else if p < 2 ^ 31 then (p : Int) + 2 ^ 31 else 2 ^ 32 - 1 - (p : Int))) ∧
  (∀ (o : VSdAddOps) s r x, Issues s r x → ∃ z, VecLanes x z o.g .sd o.d (fun l v =>
      let a := BitVec.ofNat 64 (laneA x .sd o.a l); let b := BitVec.ofNat 64 (laneB x .sd o.b l); let c := BitVec.ofNat 64 v
      (SdBad a ∨ SdBad b → c = 0xAAAAAAAAAAAAAAAA ∧ z.flags.getLsbD 0 = true) ∧
      (¬ SdBad a → ¬ SdBad b → ¬ SdBad c ∧ (sdValue a + sdValue b - 2 * sdValue c).natAbs ≤ 1)) ∧
    Completes (.vsdadd o) s r z) ∧
  (∀ (o : VSdCmpOps) s r x, Issues s r x → 1 ≤ o.d.val → o.d.val ≤ 6 → ∃ z,
    z = { x with k := z.k, flags := z.flags, pmc := z.pmc, bad := z.bad } ∧ MarksGo x z [0xC0 + o.d.val, 0xC1 + o.d.val] ∧
    (∀ q : KReg, q ≠ o.d → q ≠ o.d + 1 → z.gk q = x.gk q) ∧
    (∀ l, l < 8 → x.laneOn o.g .sd l = true →
      let a := BitVec.ofNat 64 (laneA x .sd o.a l); let b := BitVec.ofNat 64 (laneB x .sd o.b l)
      ¬ SdBad a → ¬ SdBad b →
        ((z.gk o.d).getLsbD l = true → sdValue b < sdValue a) ∧
        ((z.gk o.d).getLsbD l = false → (z.gk (o.d + 1)).getLsbD l = false → sdValue a < sdValue b) ∧
        (32 ≤ (x.gs o.c).toNat → ((z.gk o.d).getLsbD l = true ↔ sdValue b < sdValue a) ∧
          ((z.gk (o.d + 1)).getLsbD l = true ↔ sdValue a = sdValue b))) ∧
    (∀ l, l < 8 → x.laneOn o.g .sd l = false → (z.gk o.d).getLsbD l = (x.gk o.d).getLsbD l ∧
      (z.gk (o.d + 1)).getLsbD l = (x.gk (o.d + 1)).getLsbD l) ∧
    (∀ l, 8 ≤ l → (z.gk o.d).getLsbD l = false ∧ (z.gk (o.d + 1)).getLsbD l = false) ∧
    Completes (.vsdcmp o) s r z)

/-- Byte k of a number, least significant first (R6). -/
def byteNo (v k : Nat) : Byte := BitVec.ofNat 8 (v / 2 ^ (8 * k))

/-- A beat or its bytes 0 to 7 written to a register (R185). -/
def putBeat (x : Ctx) (d : SV) (b : Beat) : Ctx :=
  match d with
  | .v r => x.sv r b
  | .s r => x.ss r (b.extractLsb' 0 64)

/-- What a register of class s, v or c holds, as a number. -/
def regVal (x : Ctx) (d : SVC) : Nat :=
  match d with
  | .s r => (x.gs r).toNat
  | .v r => (x.gv r).toNat
  | .c r => (x.gc r).val.toNat

/-- A register of class s, v or c written with a number, zero-extended, and a tag (R178). -/
def putReg (x : Ctx) (d : SVC) (v : Nat) (tag : Bool) : Ctx :=
  match d with
  | .s r => x.ss r (BitVec.ofNat 64 v)
  | .v r => x.sv r (BitVec.ofNat 512 v)
  | .c r => x.sc r { val := BitVec.ofNat 128 v, tag := tag }

/-- From s to t channel c has lost its first n items, and no other channel has changed. -/
def HeadsTaken (s t : State) (c : ChanRef) (n : Nat) : Prop :=
  (∀ ch, s.chan? c = some ch → t.chan? c = some { ch with items := ch.items.drop n }) ∧
  ∀ q, q ≠ c → t.chan? q = s.chan? q

/-- Window n of the tile of context r is configured and is w (R24). -/
def WindowIs (s : State) (r : CtxRef) (n : Nat) (w : Window) : Prop := s.win? (r.tile.win n) = some w ∧ w.cap ≠ 0

/-- The context waits, listed last among the waiters of its window n unless listed already; registers as before (R180, R225). -/
def JoinsWindow (i : Instr) (s : State) (r : CtxRef) (x : Ctx) (n : Nat) (w : Window) : Prop :=
  ∃ t y, exec i s = .next t ∧ t.ctx? r = some y ∧ y.st = .wait ∧ y.wait = some (.window n) ∧ y.waitIns = some i ∧
    SameRegisters x y ∧ y.pc = x.pc ∧ y.lc = x.lc ∧ y.loops = x.loops ∧
    t.win? (r.tile.win n) = some { w with waiters := if .ctx r.ctx ∈ w.waiters then w.waiters else w.waiters ++ [.ctx r.ctx] } ∧
    (∀ k, k ≠ r.tile.win n → t.win? k = s.win? k) ∧ OnlyContext s { t with wins := s.wins } r

/-- From s to t byte j of element o + i of window w of element e is f i j, for i below n, and no other byte of the machine has changed (R180). -/
def Stored (s t : State) (e : ElemRef) (w : Window) (o n : Nat) (f : Nat → Nat → Byte) : Prop :=
  (∀ i j, i < n → j < w.size → storeByte t e (w.offAt (o + i) + j) = f i j) ∧
  (∀ a, (∀ i j, i < n → j < w.size → a ≠ w.offAt (o + i) + j) → storeByte t e a = storeByte s e a) ∧
  (∀ q a, q ≠ e → storeByte t q a = storeByte s q a) ∧
  t.gddr = s.gddr ∧ t.bulk = s.bulk ∧ t.host = s.host

/-- Under a true guard, on a declared channel: with FMT sD[12:8] of 0x14 or above, vcset traps VC_FORMAT with TRAP_INFO0 that field, and with FMT SD and a scale outside −64 to 64 it traps VC_FORMAT with TRAP_INFO0 0 (an information word that the rule names no value for, log 26); with a format that an mrow word of the task reading the channel does not pair with, it traps TYPE_COMBO; otherwise it completes, and the entry of the channel is to become FMT and SCALE sD[31:24] at the boundary, slots, EN, format in force and beats as before, and nothing else changes. Under a true guard, on a declared output: where sent + 1 exceeds the declared count, send traps RATE with TRAP_INFO0 the output. Otherwise it completes, sent is one more, the pending sample mark of the output is used up and an armed breakpoint on it counts; where the output has a route, the beat (vD, or sD in bytes 0 to 7 and zero above) stands last on the link of the target channel, in a slot, due after this cycle, marked last when it is the last of its count, and a reserved slot of the target is given back when the context held one; without a route the beat is discarded and no channel changes. Other contexts, windows and barriers are as before, and with a route every byte is. -/
def Obligations.FormatEntriesAndSend : Prop :=
  (∀ s r x (o : VcSetOps) ch, Issues s r x → x.guard0 o.g = true → x.inMask.getLsbD o.vc.val = true →
    s.chan? (r.tile.chan o.vc.val) = some ch →
    let w := x.gs o.d
    let f := w.extractLsb' 8 5
    let sc : BitVec 8 := w.extractLsb' 24 8
    let sdBad := f = Ty.sd.code ∧ (sc.toInt < -64 ∨ 64 < sc.toInt)
    let unpairs := (s.words r x).any (unpaired o.vc f) = true
    (0x14 ≤ f.toNat → Traps (.vcset o) s r x tVC_FORMAT (f.zeroExtend 64) 0) ∧
    (f.toNat < 0x14 → sdBad → Traps (.vcset o) s r x tVC_FORMAT 0 0) ∧
    (f.toNat < 0x14 → ¬ sdBad → unpairs → Traps (.vcset o) s r x tTYPE_COMBO 0 0) ∧
    (f.toNat < 0x14 → ¬ sdBad → ¬ unpairs → ∃ t y, exec (.vcset o) s = .next t ∧ t.ctx? r = some y ∧ Past x y ∧
      t.chan? (r.tile.chan o.vc.val) = some { ch with newFmt := some (f, sc) } ∧
      (∀ q, q ≠ r.tile.chan o.vc.val → t.chan? q = s.chan? q) ∧ OnlyContext s { t with chans := s.chans } r)) ∧
  (∀ s r x (o : SendOps), Issues s r x → x.guard0 o.g = true → x.outMask.getLsbD o.oc.val = true →
    (x.outRate.get o.oc < x.sent.get o.oc + 1 → Traps (.send o) s r x tRATE (BitVec.ofNat 64 o.oc.val) 0) ∧
    (x.sent.get o.oc + 1 ≤ x.outRate.get o.oc →
      let b : Beat := match o.d with | .v v => x.gv v | .s a => (x.gs a).zeroExtend 512
      ∃ t y m, exec (.send o) s = .next t ∧ t.ctx? r = some y ∧
        Past { x with sent := x.sent.set o.oc.val (x.sent.get o.oc + 1) o.oc.isLt, armed := m,
                      tsamp := if x.tsamp = some o.oc then none else x.tsamp } y ∧
        (x.armed = none → m = none) ∧
        (∀ c l z, x.armed = some (c, l, z) → m = if c ≠ o.oc then x.armed else if l.toNat ≤ 1 then none else some (c, l - 1, z)) ∧
        (∀ q, q ≠ r → t.ctx? q = s.ctx? q) ∧ t.wins = s.wins ∧ t.bars = s.bars ∧ t.banks = s.banks ∧
        (s.route? r.tile o.oc.val = none → t.chans = s.chans) ∧
        (∀ c ch, s.route? r.tile o.oc.val = some c → s.chan? c = some ch → SameBytes s t ∧
          (∀ q, q ≠ c → t.chan? q = s.chan? q) ∧
          ∃ d it, s.cycle < d ∧ it.beat = b ∧ it.slot = true ∧ it.ctl = none ∧ it.fault = none ∧
            it.last = decide (x.sent.get o.oc + 1 = x.outRate.get o.oc) ∧
            t.chan? c = some { ch with
              flight := ch.flight ++ [(d, .item it)],
              reserved := if x.reserved.getLsbD o.oc.val then ch.reserved - 1 else ch.reserved })))

/-- Under a true guard, on a declared channel: where the beats received and the one asked for exceed the declared count, recv and peek trap RATE with TRAP_INFO0 the channel. Where the beat is not to be corrected, they trap ECC_UNCORR. Otherwise recv writes the beat (or its bytes 0 to 7) to its register, removes it from the channel and counts it, and peek writes the beat that stands at its index and changes nothing else. Other contexts, other channels, windows and barriers are as before, and so is every byte when the beat is not sampled. On a declared channel with a beat left of its count: where the format in force is not the source type, vcvt and vsdc of a channel trap VC_FORMAT with TRAP_INFO0 the format. Otherwise, where the next beat carries data, they do to that beat what the register form does, count it as received, and remove it from the channel; other channels and contexts are as before. -/
def Obligations.ChannelWordsTakeBeats : Prop :=
  ((∀ s r x (o : RecvOps), Issues s r x → x.guard0 o.g = true → x.inMask.getLsbD o.vc.val = true →
    (x.inRate.get o.vc < x.received.get o.vc + 1 → Traps (.recv o) s r x tRATE (BitVec.ofNat 64 o.vc.val) 0) ∧
    (x.received.get o.vc + 1 ≤ x.inRate.get o.vc → ∀ ch i l, s.chan? (r.tile.chan o.vc.val) = some ch → ch.items = i :: l →
      (i.fault = some .ecc → Traps (.recv o) s r x tECC_UNCORR (BitVec.ofNat 64 (x.received.get o.vc)) (BitVec.ofNat 64 o.vc.val)) ∧
      (i.fault = none → ∃ t y, exec (.recv o) s = .next t ∧ t.ctx? r = some y ∧
        Past (putBeat { x with received := x.received.set o.vc.val (x.received.get o.vc + 1) o.vc.isLt } o.d i.beat) y ∧
        HeadsTaken s t (r.tile.chan o.vc.val) 1 ∧ (∀ q, q ≠ r → t.ctx? q = s.ctx? q) ∧ t.wins = s.wins ∧ t.bars = s.bars ∧
        t.banks = s.banks ∧ t.cmds = s.cmds ∧ t.accs = s.accs ∧ (i.sample = none → SameBytes s t)))) ∧
  (∀ s r x (o : PeekOps), Issues s r x → x.guard0 o.g = true → x.inMask.getLsbD o.vc.val = true →
    let k := o.imm.toNat + (x.gs o.a).toNat
    (x.inRate.get o.vc < x.received.get o.vc + k + 1 → Traps (.peek o) s r x tRATE (BitVec.ofNat 64 o.vc.val) 0) ∧
    (x.received.get o.vc + k + 1 ≤ x.inRate.get o.vc → ∀ ch i, s.chan? (r.tile.chan o.vc.val) = some ch → ch.items[k]? = some i →
      (i.fault = some .ecc → Traps (.peek o) s r x tECC_UNCORR (BitVec.ofNat 64 (x.received.get o.vc + k)) (BitVec.ofNat 64 o.vc.val)) ∧
      (i.fault = none → Completes (.peek o) s r (putBeat x o.d i.beat))))) ∧
  ((∀ s r x (o : VCvtChOps) ch i l, Issues s r x → x.inMask.getLsbD o.a.val = true → x.received.get o.a + 1 ≤ x.inRate.get o.a →
    s.chan? (r.tile.chan o.a.val) = some ch → ch.items = i :: l → i.fault = none →
    (ch.fmt ≠ o.sty.code → Traps (.vcvtChannel o) s r x tVC_FORMAT (ch.fmt.zeroExtend 64) 0) ∧
    (ch.fmt = o.sty.code → ∃ t y, exec (.vcvtChannel o) s = .next t ∧ t.ctx? r = some y ∧
      Past (({ x with received := x.received.set o.a.val (x.received.get o.a + 1) o.a.isLt } : Ctx).vcvt
        o.g o.rm o.ty o.sty o.sat o.part.val o.d i.beat) y ∧
      HeadsTaken s t (r.tile.chan o.a.val) 1 ∧ ∀ q, q ≠ r → t.ctx? q = s.ctx? q)) ∧
  (∀ s r x (o : VSdcChOps) ch i l, Issues s r x → x.inMask.getLsbD o.a.val = true → x.received.get o.a + 1 ≤ x.inRate.get o.a →
    s.chan? (r.tile.chan o.a.val) = some ch → ch.items = i :: l → i.fault = none →
    (ch.fmt ≠ o.ty.code → Traps (.vsdcChannel o) s r x tVC_FORMAT (ch.fmt.zeroExtend 64) 0) ∧
    (ch.fmt = o.ty.code → ∃ t y, exec (.vsdcChannel o) s = .next t ∧ t.ctx? r = some y ∧
      Past (({ x with received := x.received.set o.a.val (x.received.get o.a + 1) o.a.isLt } : Ctx).vsdc
        o.g o.ty o.half o.d i.beat) y ∧
      HeadsTaken s t (r.tile.chan o.a.val) 1 ∧ ∀ q, q ≠ r → t.ctx? q = s.ctx? q)))

/-- Under a true guard, on a configured window with FILL at most CAP and a register and size the loader passes, n the elements moved: where the fill finds room for n elements and FROZEN is 0, wfill writes them at HEAD + F + i mod C and raises F by n; where offset + n elements are visible and FROZEN is 0, wread writes its register with elements HEAD + o + i mod C and wupd writes them; where at most F elements are dropped and FROZEN is 0, wshrink moves HEAD on mod C and lowers F. No other byte, window, context or register changes. Where the condition fails, the context waits at the end of the window's waiter list and nothing else changes. An element that cannot be corrected traps ECC_UNCORR in wread. wstat, under a true guard on a configured window, writes sD with descriptor bits [63:0], or [127:64] in the high form, each field where R24 places it, and changes nothing else. vhist, on a window of 4-byte elements, not frozen, whose 256 visible counters from offset sB[15:0] on are correct, replaces each counter c by the smaller of 2^32 − 1 and its old value plus the number of unmasked lanes of vA whose exponent field is c, and changes no other byte; it joins the waiters where the condition fails. -/
def Obligations.WindowWordsAndHistograms : Prop :=
  (∀ s r x (n0 : Fin 16) (z0 : Fin 6) (d : SVC) (w : Window) (e : Elem), Issues s r x → MemoryCanonical s → WindowIs s r n0 w →
    s.elem? r.tile = some e → sizeOk w (eszBytes z0) d = true → w.fill.toNat ≤ w.cap.toNat →
    let z := eszBytes z0
    let n := z / w.size
    let f := w.fill.toNat
    (∀ g, x.guard0 g = true →
      (w.frozen = false ∧ n + w.shrinkNow ≤ w.cap.toNat - f → ∃ t y, exec (.wfill ⟨g, n0, z0, d⟩) s = .next t ∧ t.ctx? r = some y ∧ Past x y ∧
        Stored s t r.tile w f n (fun i j => byteNo (regVal x d) (i * w.size + j)) ∧
        t.win? (r.tile.win n0) = some { w with fill := w.fill + BitVec.ofNat 16 n, fillNow := w.fillNow + n } ∧
        (∀ k, k ≠ r.tile.win n0 → t.win? k = s.win? k) ∧
        OnlyContext s { t with wins := s.wins, elems := s.elems } r) ∧
      (w.frozen = true ∨ w.cap.toNat - f < n + w.shrinkNow → JoinsWindow (.wfill ⟨g, n0, z0, d⟩) s r x n0 w)) ∧
    (∀ g a imm, x.guard0 g = true →
      let o := imm.toNat + (x.gs a).toNat
      let v := f - (w.fillNow + w.fillPrev)
      (w.frozen = false ∧ o + n ≤ v → s.winBad (r.tile.win n0) w o n = true →
        Traps (.wread ⟨g, n0, z0, d, a, imm⟩) s r x tECC_UNCORR 0 0) ∧
      (w.frozen = false ∧ o + n ≤ v → s.winBad (r.tile.win n0) w o n = false →
        ∃ val : Nat, (∀ i j, i < n → j < w.size → byteNo val (i * w.size + j) = storeByte s r.tile (w.offAt (o + i) + j)) ∧
          val < 2 ^ (8 * z) ∧
          Completes (.wread ⟨g, n0, z0, d, a, imm⟩) s r (putReg x d val (e.tags.contains (w.offAt o / 16)))) ∧
      (w.frozen = true ∨ v < o + n → JoinsWindow (.wread ⟨g, n0, z0, d, a, imm⟩) s r x n0 w) ∧
      (w.frozen = false ∧ o + n ≤ v → ∃ t y, exec (.wupd ⟨g, n0, z0, d, a, imm⟩) s = .next t ∧ t.ctx? r = some y ∧ Past x y ∧
        Stored s t r.tile w o n (fun i j => byteNo (regVal x d) (i * w.size + j)) ∧ OnlyContext s { t with elems := s.elems } r) ∧
      (w.frozen = true ∨ v < o + n → JoinsWindow (.wupd ⟨g, n0, z0, d, a, imm⟩) s r x n0 w) ∧
      (w.frozen = false ∧ o ≤ f → ∃ t y, exec (.wshrink ⟨g, n0, a, imm⟩) s = .next t ∧ t.ctx? r = some y ∧ Past x y ∧
        t.win? (r.tile.win n0) = some { w with head := BitVec.ofNat 16 ((w.head.toNat + o) % w.cap.toNat),
                                               fill := w.fill - BitVec.ofNat 16 o, shrinkNow := w.shrinkNow + o } ∧
        (∀ k, k ≠ r.tile.win n0 → t.win? k = s.win? k) ∧ OnlyContext s { t with wins := s.wins } r) ∧
      (w.frozen = true ∨ f < o → JoinsWindow (.wshrink ⟨g, n0, a, imm⟩) s r x n0 w))) ∧
  ((∀ s r x (o : WStatOps) w, Issues s r x → x.guard0 o.g = true → WindowIs s r o.win w →
    ∃ d : BitVec 128, d.extractLsb' 0 18 = w.base ∧ (d.extractLsb' 18 3).toNat = w.esz.val ∧ d.extractLsb' 24 16 = w.cap ∧
      d.extractLsb' 40 16 = w.head ∧ d.extractLsb' 56 16 = w.fill ∧ d.extractLsb' 72 18 = w.resv ∧
      (d.extractLsb' 96 8).toNat = min w.waiters.length 255 ∧ d.getLsbD 104 = w.frozen ∧ d.getLsbD 105 = w.multi ∧
      Completes (.wstat o) s r (x.ss o.d (if o.high then d.extractLsb' 64 64 else d.extractLsb' 0 64))) ∧
  (∀ s r x (o : VHistOps) w e, Issues s r x → MemoryCanonical s → WindowIs s r o.win w → s.elem? r.tile = some e → w.size = 4 →
    256 ≤ w.cap.toNat →
    let off := (x.gs o.b).toNat % 2 ^ 16
    let v := w.fill.toNat - (w.fillNow + w.fillPrev)
    let ctr (u : State) (c : Nat) : Nat := ofBytesLE ((List.range 4).map fun j => storeByte u r.tile (w.offAt (off + c) + j))
    (w.frozen = true ∨ v < off + 256 → JoinsWindow (.vhist o) s r x o.win w) ∧
    (w.frozen = false → off + 256 ≤ v → s.winBad (r.tile.win o.win) w off 256 = true → Traps (.vhist o) s r x tECC_UNCORR 0 0) ∧
    (w.frozen = false → off + 256 ≤ v → s.winBad (r.tile.win o.win) w off 256 = false →
      ∃ t y, exec (.vhist o) s = .next t ∧ t.ctx? r = some y ∧ Past x y ∧ OnlyContext s { t with elems := s.elems } r ∧
        (∀ c, c < 256 → ctr t c = min (2 ^ 32 - 1) (ctr s c +
          ((List.range o.ty.lanes).filter fun i => x.laneOn o.g o.ty i && histIndex o.ty (laneGet o.ty (x.gv o.a) i) == c).length)) ∧
        (∀ a, (∀ i j, i < 256 → j < 4 → a ≠ w.offAt (off + i) + j) → storeByte t r.tile a = storeByte s r.tile a) ∧
        (∀ q a, q ≠ r.tile → storeByte t q a = storeByte s q a) ∧ t.gddr = s.gddr ∧ t.bulk = s.bulk ∧ t.host = s.host)))

/-- The checks of R118 and R191 pass for n bytes at an offset of a capability: tagged, no reserved use, in one of the spaces, with the permission, inside LENGTH and the address space, aligned. -/
def CapAllows (c : CapV) (spaces : List Nat) (perm off n align : Nat) : Prop :=
  c.tag = true ∧ c.space ≤ 5 ∧ c.has 7 = false ∧ c.space ∈ spaces ∧ c.has perm = true ∧ off + n ≤ c.length ∧
    c.base + off + n ≤ 2 ^ 64 ∧ (c.space = 1 ∨ c.space = 2 → n ≠ 0 → c.base + off + n ≤ 2 ^ 57) ∧ (c.base + off) % align = 0

/-- The first check that fails traps, in the order of R118, R122, R123 and R191, where the permissions the word needs are there when `ok` holds. -/
def CapTrapsUnless (i : Instr) (s : State) (r : CtxRef) (x : Ctx) (c : CapV) (spaces : List Nat) (ok : Prop) (off n align : Nat) : Prop :=
  (c.tag = false → Traps i s r x tCAP_TAG 0 0) ∧
  (c.tag = true → (5 < c.space ∨ c.has 7 = true) → Traps i s r x tCAP_SPACE 0 0) ∧
  (c.tag = true → c.space ≤ 5 → c.has 7 = false →
    (c.space ∉ spaces → Traps i s r x tCAP_SPACE 0 0) ∧
    (c.space ∈ spaces → ¬ ok → Traps i s r x tCAP_PERM 0 0) ∧
    (c.space ∈ spaces → ok → c.length < off + n → Traps i s r x tCAP_BOUNDS 0 0) ∧
    (c.space ∈ spaces → ok → off + n ≤ c.length → c.base + off + n ≤ 2 ^ 57 →
      (c.base + off) % align ≠ 0 → Traps i s r x tALIGN 0 0))

/-- The same of a word that needs one permission. -/
def CapTraps (i : Instr) (s : State) (r : CtxRef) (x : Ctx) (c : CapV) (spaces : List Nat) (perm off n align : Nat) : Prop :=
  CapTrapsUnless i s r x c spaces (c.has perm = true) off n align

/-- No port TLB holds an entry, so that no write goes through one at once. -/
def NoTlb (s : State) : Prop := ∀ k p, tget s.ports k = some p → p.tlb = []

/-- The state t, after accesses have been issued in s: no register, window, channel or barrier has changed outside context r, and no byte has, but for the mark that a walker sets in the translation tables (bit 1 of the byte it marks, R283, log 7); nothing at all where no access stood queued and `plain` says that nothing was written through a table. -/
def IssuedOnly (s t : State) (r : CtxRef) (plain : Prop) : Prop :=
  (∀ q, q ≠ r → t.ctx? q = s.ctx? q) ∧ t.wins = s.wins ∧ t.chans = s.chans ∧ t.bars = s.bars ∧ t.banks = s.banks ∧
  t.elems = s.elems ∧ t.cmds = s.cmds ∧ t.bulk = s.bulk ∧ t.host = s.host ∧ t.gddrTags = s.gddrTags ∧ t.bulkTags = s.bulkTags ∧
  (MemoryCanonical s → ∀ a, t.gddr.get a = s.gddr.get a ∨ t.gddr.get a = s.gddr.get a ||| 2) ∧
  (plain → (∀ a ∈ s.accs, a.place ≠ .queued) → t.gddr = s.gddr)

/-- An access of context r through c stands issued in t, numbered id: its address, length, colour, direction and purpose. -/
def IssuedAcc (t : State) (r : CtxRef) (c : CapV) (id va len colour : Nat) (write : Bool) (data : List Byte) (a : Acc) : Prop :=
  a ∈ t.accs ∧ a.id = id ∧ a.issuer = .ctx r ∧ a.space = c.space ∧ a.asid = c.asid ∧ a.va = va ∧ a.len = len ∧
    a.colour = colour ∧ a.write = write ∧ a.atomic = false ∧ a.level = 0 ∧ a.data = data

/-- The context waits on word i for w; its registers and pc are as before. -/
def WaitsFor (i : Instr) (x y : Ctx) (w : Wait) : Prop :=
  SameRegisters x y ∧ y.pc = x.pc ∧ y.lc = x.lc ∧ y.loops = x.loops ∧ y.st = .wait ∧ y.wait = some w ∧ y.waitIns = some i

/-- Nothing of a context is owed at a level: each earlier access and command of the masked colours is complete there. -/
def Paid (s : State) (r : CtxRef) (mask : Nat → Bool) (level : Nat) : Prop :=
  ∀ id ∈ s.earlier r mask, s.doneAt id level = true

/-- Barrier k holds b in t, and every other barrier is as in s. -/
def BarSet (s t : State) (k : BarRef) (b : Bar) : Prop := t.bar k = b ∧ ∀ q, q ≠ k → t.bar q = s.bar q

/-- Under a true guard: bar.init leaves INIT and PENDING at sD[7:0] and RELP 0, the phase unchanged. bar.wait completes when PHASE differs from sD[0], and else waits registered on it. bar.arrive, and bar.aw without AWARR, when nothing is owed (or without .rel), write sD with PHASE and count the arrival: at an unused barrier it is discarded; with PENDING above 1 it lowers PENDING, and RELP is set by a .rel arrival; with PENDING 1 it sets PENDING to INIT, flips PHASE, clears RELP and releases each wait of the tile on the old phase. bar.aw then waits on the recorded phase with AWARR set, or completes with AWARR clear where its own arrival completed the phase; at an unused barrier its arrival is discarded and it waits; with AWARR set it arrives no second time. A .rel bar.arrive that owes accesses completes too, with its arrival due behind them and sD (unless it is s0) awaiting its phase; that, that bar.aw of s0 arrives and waits all the same, and that a discarded arrival sets AWARR, is log 21's reading. Bytes and windows are as before. Under a true guard, with a target tile of the image, nothing owed by a .rel form and no release of the context waiting: bar.remote completes at once and leaves one arrival on its way to the target, due in a later cycle, with barrier number sD[6:0] and its release mark; no barrier changes. The device step of remote arrivals at a tile takes off the way exactly the arrivals to that tile that are due; with one due, and no arrival of the tile's own contexts deferred or its issue still to come in this cycle, it counts that one: PENDING falls, or the phase completes. -/
def Obligations.BarrierArrivalsAndPhases : Prop :=
  ((∀ s r x (o : BarInitOps), Issues s r x → x.guard0 o.g = true →
    ∃ t y, exec (.barInit o) s = .next t ∧ t.ctx? r = some y ∧ Past x y ∧
      BarSet s t ⟨r.rid, r.elem, o.bar⟩ { s.bar ⟨r.rid, r.elem, o.bar⟩ with
        init := (x.gs o.d).extractLsb' 0 8, pending := (x.gs o.d).extractLsb' 0 8, relp := false } ∧
      OnlyContext s { t with bars := s.bars } r) ∧
  (∀ s r x (o : BarOps), Issues s r x → x.guard0 o.g = true →
    let k : BarRef := ⟨r.rid, r.elem, o.bar⟩
    let b := s.bar k
    let p : Word := if b.phase then 1 else 0
    (b.phase ≠ (x.gs o.d).getLsbD 0 → Completes (.barWait o) s r x) ∧
    (b.phase = (x.gs o.d).getLsbD 0 → ∃ t y, exec (.barWait o) s = .next t ∧ t.ctx? r = some y ∧
      WaitsFor (.barWait o) x y (.barrier o.bar ((x.gs o.d).getLsbD 0)) ∧ OnlyContext s t r) ∧
    ((o.ar = true → Paid s r (fun _ => true) 2) →
      (∃ t y z, exec (.barArrive o) s = .next t ∧ t.ctx? r = some y ∧ Past (x.ss o.d p) z ∧ y.pc = z.pc ∧ y.st = z.st ∧ y.s = z.s ∧
        y.v = x.v ∧ y.k = x.k ∧ y.flags = x.flags ∧ y.lc = z.lc ∧ y.loops = z.loops ∧ SameBytes s t ∧ t.wins = s.wins ∧ t.chans = s.chans ∧
        (b.init = 0 → BarSet s t k b) ∧
        (b.init ≠ 0 → 1 < b.pending.toNat →
          BarSet s t k { b with pending := b.pending - 1, relp := b.relp || o.ar } ∧ ∀ q, q ≠ r → t.ctx? q = s.ctx? q) ∧
        (b.init ≠ 0 → b.pending.toNat ≤ 1 →
          BarSet s t k { b with pending := b.init, phase := !b.phase, relp := false } ∧
          ∀ q u, q ≠ r → s.ctx? q = some u →
            t.ctx? q = some (if q.tile = r.tile ∧ u.wait = some (.barrier o.bar b.phase) then ({ u with awarr := false }).complete else u))) ∧
      (x.awarr = false → ∃ t y, exec (.barAw o) s = .next t ∧ t.ctx? r = some y ∧ SameBytes s t ∧ t.wins = s.wins ∧ t.chans = s.chans ∧
        (b.init = 0 → BarSet s t k b ∧ WaitsFor (.barAw o) { (x.ss o.d p) with awPhase := b.phase, awarr := true } y (.barrier o.bar b.phase)) ∧
        (b.init ≠ 0 → 1 < b.pending.toNat →
          BarSet s t k { b with pending := b.pending - 1, relp := b.relp || o.ar } ∧ (∀ q, q ≠ r → t.ctx? q = s.ctx? q) ∧
          WaitsFor (.barAw o) { (x.ss o.d p) with awPhase := b.phase, awarr := true } y (.barrier o.bar b.phase)) ∧
        (b.init ≠ 0 → b.pending.toNat ≤ 1 →
          BarSet s t k { b with pending := b.init, phase := !b.phase, relp := false } ∧
          Past { (x.ss o.d p) with awPhase := b.phase, awarr := false } y))) ∧
    (o.ar = true → ¬ Paid s r (fun _ => true) 2 → s.deferred = [] →
      ∃ t y, exec (.barArrive o) s = .next t ∧ t.ctx? r = some y ∧ Past { x with locks := if o.d = 0 then x.locks else x.locks.filter (· ≠ o.d) ++ [o.d] } y ∧
        t.bars = s.bars ∧ SameBytes s t ∧ ∃ d, t.deferred = [d] ∧ d.r = r ∧ d.scope = .device ∧ d.what = .arrive o.bar o.d) ∧
    (x.awarr = true → b.phase ≠ x.awPhase → Completes (.barAw o) s r { x with awarr := false }) ∧
    (x.awarr = true → b.phase = x.awPhase → ∃ t y, exec (.barAw o) s = .next t ∧ t.ctx? r = some y ∧ OnlyContext s t r ∧
      WaitsFor (.barAw o) x y (.barrier o.bar x.awPhase)))) ∧
  ((∀ s r x (o : BarRemoteOps) tl, Issues s r x → x.guard0 o.g = true → s.tile? ⟨r.rid, o.target.toNat⟩ = some tl →
    (o.rel = true → Paid s r (fun _ => true) 2) → s.deferred = [] →
    ∃ t y m, exec (.barRemote o) s = .next t ∧ t.ctx? r = some y ∧ Past x y ∧ (∀ q, q ≠ r → t.ctx? q = s.ctx? q) ∧ SameBytes s t ∧
      t.bars = s.bars ∧ t.wins = s.wins ∧ t.chans = s.chans ∧
      t.remotes = s.remotes ++ [(⟨r.rid, o.target.toNat⟩, m)] ∧ s.cycle < m.due ∧ m.src = r.elem ∧
      m.bar = (x.gs o.d).toNat % 2 ^ 7 ∧ m.rel = o.rel ∧ m.note = none) ∧
  (∀ s e, s.arg = .elem e → ∃ t, exec .remoteArrival s = .next t ∧ SameBytes s t ∧ t.wins = s.wins ∧ t.accs = s.accs ∧
    ((∀ p ∈ s.remotes, p.1 = e → p.2.due ≤ s.cycle → p.2.token = none) → t.chans = s.chans) ∧
    (∀ p, p ∈ t.remotes ↔ p ∈ s.remotes ∧ ¬ (p.1 = e ∧ p.2.due ≤ s.cycle)) ∧
    (∀ q, q.rid ≠ e.rid ∨ q.elem ≠ e.elem → t.bar q = s.bar q) ∧
    (∀ m, (s.remotes.filter fun p => p.1 = e ∧ p.2.due ≤ s.cycle) = [(e, m)] → m.note = none →
      s.grantDue e = true ∨ s.owesArrival e = false →
      let k : BarRef := ⟨e.rid, e.elem, m.bar⟩
      let b := s.bar k
      (96 ≤ m.bar ∨ b.init = 0 → BarSet s t k b) ∧
      (m.bar < 96 → b.init ≠ 0 → 1 < b.pending.toNat → BarSet s t k { b with pending := b.pending - 1, relp := b.relp || m.rel }) ∧
      (m.bar < 96 → b.init ≠ 0 → b.pending.toNat ≤ 1 →
        BarSet s t k { b with pending := b.init, phase := !b.phase, relp := false }))))

/-- Under a true guard, with o the offset and z the size: where the capability allows the access, mld and cld issue one read of the bytes at BASE + o and wait for its data, and mst and cst issue one write of bytes 0 to z − 1 of D (of the capability, with its tag) and complete, a .rel form behind what the context owes. No register changes, and no byte but a walker's mark. A capability that fails a check traps with the code of the first check that fails: tag, reserved use, space, permission, bounds, alignment; among the permissions cld needs L beside R, and cst of a tagged capability S beside W. Where the walker keeps its mark D is log 7's choice. -/
def Obligations.LoadsWaitAndStoresIssue : Prop :=
  (∀ s r x (o : MemOps), Issues s r x → x.guard0 o.g = true →
    let c := x.gc o.cap
    let z := eszBytes o.sz
    let off := o.imm.toNat + (x.gs o.a).toNat
    CapTraps (.mld o) s r x c [1, 2, 3, 4] 0 off z z ∧ CapTraps (.mst o) s r x c [1, 2, 3, 4] 1 off z z ∧
    (CapAllows c [1, 2, 3, 4] 0 off z z → ∃ t y a, exec (.mld o) s = .next t ∧ t.ctx? r = some y ∧
      WaitsFor (.mld o) x y (.load s.nextAcc) ∧ IssuedAcc t r c s.nextAcc (c.base + off) z o.col.val false [] a ∧ a.purpose = .load ∧
      IssuedOnly s t r True) ∧
    (CapAllows c [1, 2, 3, 4] 1 off z z → ∃ t y a data, exec (.mst o) s = .next t ∧ t.ctx? r = some y ∧ Past x y ∧
      data.length = z ∧ (∀ k, k < z → data[k]? = some (byteNo (regVal x (match o.d with | .s d => .s d | .v d => .v d)) k)) ∧
      IssuedAcc t r c s.nextAcc (c.base + off) z o.col.val true data a ∧ a.tags = [] ∧
      a.after = (if o.ar then s.owed r else []) ∧
      IssuedOnly s t r (3 ≤ c.space ∨ NoTlb s))) ∧
  (∀ s r x (o : CLdOps), Issues s r x → x.guard0 o.g = true →
    let c := x.gc o.a
    let off := (x.gs o.b).toNat
    CapTrapsUnless (.cld o) s r x c [1] (c.has 0 = true ∧ c.has 5 = true) off 16 16 ∧
    (CapAllows c [1] 0 off 16 16 → c.has 5 = true → ∃ t y a, exec (.cld o) s = .next t ∧ t.ctx? r = some y ∧
      WaitsFor (.cld o) x y (.load s.nextAcc) ∧ IssuedAcc t r c s.nextAcc (c.base + off) 16 o.col.val false [] a ∧ a.purpose = .load ∧
      IssuedOnly s t r True)) ∧
  (∀ s r x (o : CStOps), Issues s r x → x.guard0 o.g = true →
    let c := x.gc o.a
    let v := x.gc o.c
    let off := (x.gs o.b).toNat
    CapTrapsUnless (.cst o) s r x c [1] (c.has 1 = true ∧ (v.tag = true → c.has 6 = true)) off 16 16 ∧
    (CapAllows c [1] 1 off 16 16 → (v.tag = true → c.has 6 = true) → ∃ t y a, exec (.cst o) s = .next t ∧ t.ctx? r = some y ∧ Past x y ∧
      IssuedAcc t r c s.nextAcc (c.base + off) 16 o.col.val true (bytesLE 16 v.val.toNat) a ∧ a.tags = [v.tag] ∧
      a.after = (if o.rel then s.owed r else []) ∧
      IssuedOnly s t r (NoTlb s)))

/-- Under a true guard, on a declared channel: n = 0 has no effect; n beats beyond the declared count trap RATE with TRAP_INFO0 the channel; a capability that fails a check of R191 traps. Otherwise, with n data beats at the head of the channel, the beats leave the channel and are counted, and n writes are issued, beat k at BASE + o + 64k, untagged; other registers, contexts and channels are as before. Under a true guard, with m the beats asked for and the target sC[15:0], channel sC[20:16]: where the capability allows 64m bytes and the target is an enabled channel, mreq completes with m reads issued, beat k at BASE + o + 64k for the target, the last one marked, with EOT sC[31]; wreq of a configured window completes with one command for that window listed last among its waiters. A target that is no enabled channel traps ISLAND_STATUS with TRAP_INFO0 sC; a source window that is not configured traps ISLAND_STATUS with TRAP_INFO0 0, before the target is looked at (the rule gives no order: log 66's choice; it names no information word: log 26's reading). That mreq looks at its target behind its capability is log 39's reading, and where the walker keeps its mark log 7's choice. -/
def Obligations.BeatsStreamAndRequests : Prop :=
  (∀ s r x (o : MWrtOps), Issues s r x → x.guard0 o.g = true → x.inMask.getLsbD o.vc.val = true →
    let c := x.gc o.cap
    let n := (x.gs o.d).toNat
    let off := o.imm.toNat + (x.gs o.a).toNat
    (n = 0 → Completes (.mwrt o) s r x) ∧
    (n ≠ 0 → x.inRate.get o.vc < x.received.get o.vc + n → Traps (.mwrt o) s r x tRATE (BitVec.ofNat 64 o.vc.val) 0) ∧
    (n ≠ 0 → x.received.get o.vc + n ≤ x.inRate.get o.vc → CapTraps (.mwrt o) s r x c [1, 2, 3, 4] 1 off (64 * n) 64) ∧
    (n ≠ 0 → x.received.get o.vc + n ≤ x.inRate.get o.vc → CapAllows c [1, 2, 3, 4] 1 off (64 * n) 64 →
      ∀ ch, s.chan? (r.tile.chan o.vc.val) = some ch → n ≤ ch.items.length → (∀ i ∈ ch.items.take n, i.fault = none) →
      ∃ t y, exec (.mwrt o) s = .next t ∧ t.ctx? r = some y ∧
        Past { x with received := x.received.set o.vc.val (x.received.get o.vc + n) o.vc.isLt } y ∧
        HeadsTaken s t (r.tile.chan o.vc.val) n ∧ (∀ q, q ≠ r → t.ctx? q = s.ctx? q) ∧ t.wins = s.wins ∧ t.bars = s.bars ∧ t.bulk = s.bulk ∧
        (∀ k i, k < n → ch.items[k]? = some i → ∃ a, a.tags = [] ∧
          IssuedAcc t r c (s.nextAcc + k) (c.base + off + 64 * k) 64 o.col.val true (bytesLE 64 i.beat.toNat) a))) ∧
  ((∀ s r x (o : MReqOps), Issues s r x → x.guard0 o.g = true →
    let c := x.gc o.a
    let w := x.gs o.c
    let off := (x.gs o.b).toNat
    let m := o.m.val + 1
    let q : ChanRef := ⟨r.rid, w.toNat % 2 ^ 16, w.toNat / 2 ^ 16 % 2 ^ 5⟩
    CapTraps (.mreq o) s r x c [1, 2, 3, 4] 0 off (64 * m) 64 ∧
    (CapAllows c [1, 2, 3, 4] 0 off (64 * m) 64 → (∀ ch, s.chan? q = some ch → ch.en = false) →
      Traps (.mreq o) s r x tISLAND_STATUS w 0) ∧
    (CapAllows c [1, 2, 3, 4] 0 off (64 * m) 64 → ∀ ch, s.chan? q = some ch → ch.en = true →
      ∃ t y, exec (.mreq o) s = .next t ∧ t.ctx? r = some y ∧ Past x y ∧ IssuedOnly s t r True ∧
        ∀ k, k < m → ∃ a, IssuedAcc t r c (s.nextAcc + k) (c.base + off + 64 * k) 64 o.col.val false [] a ∧
          a.purpose = .reply q k (k + 1 == m) (w.getLsbD 31))) ∧
  (∀ s r x (o : WReqOps), Issues s r x → x.guard0 o.g = true →
    let a := x.gs o.a
    let w := x.gs o.c
    let wr : WinRef := ⟨r.rid, a.toNat % 2 ^ 16, a.toNat / 2 ^ 16 % 2 ^ 6⟩
    let q : ChanRef := ⟨r.rid, w.toNat % 2 ^ 16, w.toNat / 2 ^ 16 % 2 ^ 5⟩
    ((∀ d, s.win? wr = some d → d.cap = 0) → Traps (.wreq o) s r x tISLAND_STATUS 0 0) ∧
    (∀ d, s.win? wr = some d → d.cap ≠ 0 →
      ((∀ ch, s.chan? q = some ch → ch.en = false) → Traps (.wreq o) s r x tISLAND_STATUS w 0) ∧
      (∀ ch, s.chan? q = some ch → ch.en = true →
        ∃ t y m, exec (.wreq o) s = .next t ∧ t.ctx? r = some y ∧ Past x y ∧ (∀ p, p ≠ r → t.ctx? p = s.ctx? p) ∧ SameBytes s t ∧
          t.cmds = s.cmds ++ [m] ∧ m.id = s.nextAcc ∧ m.ins = .wreq o ∧ m.r = r ∧ m.w = [a, x.gs o.b, w] ∧ m.colour = o.col.val ∧
          t.win? wr = some { d with waiters := if .cmd s.nextAcc ∈ d.waiters then d.waiters else d.waiters ++ [.cmd s.nextAcc] } ∧
          ∀ k, k ≠ wr → t.win? k = s.win? k))))

/-- Under a true guard: each fence (region, device, system) completes at once, changing nothing else, when every earlier access and command of the context in its mask is complete at its scope, as always with a mask of 0, and otherwise waits for exactly those that are not. ctok on a declared output, while no release of a context waits, completes: where something masked is owed at its scope, with its token due behind that; where nothing is, and its route leads to a channel before which no control token waits, with one completion token last on the link, without a slot. Under a true guard, on a configured window with no wsave or wrest in progress: where the capability allows the whole record (main or bulk, W, in bounds, 16-byte aligned), wsave traps ECC_UNCORR when an element cannot be corrected, and otherwise leaves the window FROZEN and the context waiting on writes that between them carry, at BASE + o + k, byte k of the record: byte k of the header (C in [15:0], ESZ in [18:16], F in [47:32]) for k below 16, and above them the elements, oldest first. wrest, where the capability allows reading the header, leaves the window claimed, FROZEN as it was, and the context waiting on the 16-byte read of the header. Neither changes a byte but a walker's mark (log 7's choice of its place). While another wsave or wrest of the window is in progress, the context waits. -/
def Obligations.FencesTokensAndSaves : Prop :=
  ((∀ (sc : Scope) (i : FenceOps → Instr), (sc = .region ∧ i = .fenceRegion) ∨ (sc = .device ∧ i = .fenceDevice) ∨ (sc = .system ∧ i = .fenceSystem) →
    ∀ s r x (o : FenceOps), Issues s r x → x.guard0 o.g = true →
      (o.mask = 0 → Completes (i o) s r x) ∧
      (Paid s r (fun c => o.mask.getLsbD c) sc.level → Completes (i o) s r x) ∧
      (¬ Paid s r (fun c => o.mask.getLsbD c) sc.level → ∃ t y ids, exec (i o) s = .next t ∧ t.ctx? r = some y ∧ OnlyContext s t r ∧
        WaitsFor (i o) x y (.fence ids sc) ∧
        ∀ k, k ∈ ids ↔ k ∈ s.earlier r (fun c => o.mask.getLsbD c) ∧ s.doneAt k sc.level = false)) ∧
  (∀ s r x (o : CtokOps), Issues s r x → x.guard0 o.g = true → x.outMask.getLsbD o.oc.val = true → s.deferred = [] →
    (¬ Paid s r (fun c => o.mask.getLsbD c) o.scope.level → ∃ t y d, exec (.ctok o) s = .next t ∧ t.ctx? r = some y ∧ Past x y ∧
      t.chans = s.chans ∧ t.deferred = [d] ∧ d.r = r ∧ d.scope = o.scope ∧ d.what = .ctok o.oc) ∧
    (∀ c ch, Paid s r (fun c => o.mask.getLsbD c) o.scope.level → s.route? r.tile o.oc.val = some c → s.chan? c = some ch → ch.held = [] →
      ∃ t y d i, exec (.ctok o) s = .next t ∧ t.ctx? r = some y ∧ Past x y ∧ t.deferred = [] ∧ SameBytes s t ∧
        (∀ q, q ≠ r → t.ctx? q = s.ctx? q) ∧ (∀ q, q ≠ c → t.chan? q = s.chan? q) ∧
        t.chan? c = some { ch with flight := ch.flight ++ [(d, .item i)] } ∧ i.ctl = some .completion ∧ i.slot = false ∧ s.cycle < d))) ∧
  ((∀ s r x (o : WSaveOps) w e, Issues s r x → x.guard0 o.g = true → WindowIs s r o.win w → s.elem? r.tile = some e →
    let c := x.gc o.d
    let off := (x.gs o.a).toNat
    let n := w.fill.toNat * w.size
    let hd := w.cap.toNat + w.esz.val * 2 ^ 16 + w.fill.toNat * 2 ^ 32
    let byte (k : Nat) : Byte := if k < 16 then byteNo hd k else
      storeByte s r.tile (w.offAt ((k - 16) / w.size) + (k - 16) % w.size)
    (w.busy.isSome = true → JoinsWindow (.wsave o) s r x o.win w) ∧
    (w.busy = none → CapTraps (.wsave o) s r x c [1, 2] 1 off (16 + n) 16) ∧
    (w.busy = none → CapAllows c [1, 2] 1 off (16 + n) 16 → s.winBad (r.tile.win o.win) w 0 w.fill.toNat = true →
      Traps (.wsave o) s r x tECC_UNCORR 0 0) ∧
    (w.busy = none → CapAllows c [1, 2] 1 off (16 + n) 16 → s.winBad (r.tile.win o.win) w 0 w.fill.toNat = false →
      ∃ t y ids, exec (.wsave o) s = .next t ∧ t.ctx? r = some y ∧
      WaitsFor (.wsave o) x y (.save ids w.frozen) ∧
      t.win? (r.tile.win o.win) = some { w with frozen := true, busy := some r.ctx } ∧
      (∀ k, k ≠ r.tile.win o.win → t.win? k = s.win? k) ∧ IssuedOnly s { t with wins := s.wins } r (NoTlb s) ∧
      ∀ k, k < 16 + n → ∃ a ∈ t.accs, a.id ∈ ids ∧ a.issuer = .ctx r ∧ a.write = true ∧ a.space = c.space ∧ a.asid = c.asid ∧
        a.colour = o.col.val ∧ a.va ≤ c.base + off + k ∧ a.data[c.base + off + k - a.va]? = some (byte k))) ∧
  (∀ s r x (o : WRestOps) w, Issues s r x → x.guard0 o.g = true → WindowIs s r o.win w →
    let c := x.gc o.d
    let off := (x.gs o.a).toNat
    (w.busy.isSome = true → JoinsWindow (.wrest o) s r x o.win w) ∧
    (w.busy = none → CapAllows c [1, 2] 0 off 16 16 → ∃ t y a, exec (.wrest o) s = .next t ∧ t.ctx? r = some y ∧
      WaitsFor (.wrest o) x y (.rest (some s.nextAcc) [] [] w.frozen) ∧
      t.win? (r.tile.win o.win) = some { w with busy := some r.ctx } ∧
      (∀ k, k ≠ r.tile.win o.win → t.win? k = s.win? k) ∧ IssuedOnly s { t with wins := s.wins } r True ∧
      IssuedAcc t r c s.nextAcc (c.base + off) 16 o.col.val false [] a ∧ a.purpose = .load)))

/-- Element o of window w of element e is the beat b. -/
def ElementIs (s : State) (e : ElemRef) (w : Window) (o : Nat) (b : Beat) : Prop :=
  ∀ j, j < 64 → storeByte s e (w.offAt o + j) = byteNo b.toNat j

/-- The accumulator bank a matrix word names is b, and it is bound to the context of the word (R22, R162). -/
def BankIs (s : State) (r : CtxRef) (acc : Fin 4) (b : Bank) : Prop :=
  s.bank? ⟨r.rid, r.elem, acc⟩ = some b ∧ ∃ t, s.tile? r.tile = some t ∧ t.accBind.toNat / 2 ^ (4 * acc.val) % 16 = 8 + r.ctx

/-- The bank holds b in t, and every other bank is as in s. -/
def BankSet (s t : State) (k : BankRef) (b : Bank) : Prop := t.bank? k = some b ∧ ∀ q, q ≠ k → t.bank? q = s.bank? q

/-- n elements of 64 bytes stand at offset o of a configured window that is not frozen, visible and correct (R180, R257). -/
def Standing (s : State) (r : CtxRef) (wb : Fin 16) (w : Window) (o n : Nat) : Prop :=
  WindowIs s r wb w ∧ w.size = 64 ∧ w.frozen = false ∧ o + n ≤ w.fill.toNat - (w.fillNow + w.fillPrev) ∧
    s.winBad (r.tile.win wb) w o n = false

/-- The window cannot serve them yet. -/
def NotYet (s : State) (r : CtxRef) (wb : Fin 16) (w : Window) (o n : Nat) : Prop :=
  WindowIs s r wb w ∧ w.size = 64 ∧ (w.frozen = true ∨ w.fill.toNat - (w.fillNow + w.fillPrev) < o + n)

/-- Past the word the bank is b', and nothing else of the machine has changed but the context, which was y before moving on. -/
def BankWord (i : Instr) (s : State) (r : CtxRef) (acc : Fin 4) (b : Bank) (y : Ctx) : Prop :=
  ∃ t z, exec i s = .next t ∧ t.ctx? r = some z ∧ Past y z ∧ BankSet s t ⟨r.rid, r.elem, acc⟩ b ∧
    OnlyContext s { t with banks := s.banks } r

/-- Where the scales of n rows come from: the scale channel's next beat, one byte to a row, or one scale for all; and the context after that (R166, R169). -/
def ScalesFrom (s : State) (r : CtxRef) (x : Ctx) (sch : Option (Fin 32)) (other : Byte) (y : Ctx) (sc : Nat → Byte) : Prop :=
  (sch = none → y = x ∧ ∀ j, sc j = other) ∧
  ∀ vc, sch = some vc → x.inMask.getLsbD vc.val = true ∧ x.received.get vc + 1 ≤ x.inRate.get vc ∧
    ∃ ch i l, s.chan? (r.tile.chan vc.val) = some ch ∧ ch.fmt = Ty.e8m0.code ∧ ch.items = i :: l ∧ i.fault = none ∧
      y = { x with received := x.received.set vc.val (x.received.get vc + 1) vc.isLt } ∧ ∀ j, sc j = byteNo i.beat.toNat j

/-- n row firings stand last in the tile, row j of them f j, and the context y has moved past its word, in RUN whatever freeze waits, with its draws reserved (R167, R169, R176). -/
def RowsReady (i : Instr) (s : State) (r : CtxRef) (y : Ctx) (rm : RM) (n : Nat) (f : Nat → RowFire) : Prop :=
  ∃ t z tl, exec i s = .next t ∧ t.ctx? r = some z ∧ (∃ z0, Past { y.drew rm n with freeze := [] } z0 ∧ z = { z0 with freeze := y.freeze }) ∧
    (∀ q, q ≠ r → t.ctx? q = s.ctx? q) ∧ s.tile? r.tile = some tl ∧ t.tile? r.tile = some { tl with rows := tl.rows ++ (List.range n).map f } ∧
    (∀ e, e ≠ r.tile → t.tile? e = s.tile? e) ∧ t.banks = s.banks ∧ t.wins = s.wins ∧ t.bars = s.bars ∧ t.accs = s.accs ∧ t.elems = s.elems

/-- The seed and counter that row j of a word rounds with (R42, R176). -/
def rowDraw (y : Ctx) (rm : RM) (j : Nat) : Option (Word × Word) :=
  match rm with
  | .sa => some (y.sra.seed, y.sra.ctr + BitVec.ofNat 64 j)
  | .sb => some (y.srb.seed, y.srb.ctr + BitVec.ofNat 64 j)
  | _ => none

/-- Under a true guard on a bank bound to the context, with the window elements the word names standing and correct: mbld, its diagonal form and mbsp leave the back buffer holding the elements (columns outside the mask 0; the sparse form with its mask bytes) and the mask waiting for the swap; mscale sets the column scales from the first 16 bytes of an element, or the A-row scale to the code; mzero sets its rows to 0; mwr sets its rows to the elements; mrd fills its rows into the window; mslot queues the slot-table write. Nothing else changes. Where the window cannot serve the word, the context joins its waiters. The swap step makes the back buffer the front one, with its mask and column scales of 1, once no waiting row firing names the bank, and does nothing before. -/
def Obligations.MatrixOperandsLoadAndMove : Prop :=
  (∀ s r x b w (acc : Fin 4) (wb : Fin 16) g, Issues s r x → x.guard0 g = true → BankIs s r acc b →
    (∀ slot bty mask,
      let o : MBOps := ⟨g, acc, slot, wb, bty, mask⟩
      let n := match bty with | .bf16 => 3 | .f16 => 3 | .e2m1 => 12 | .i4 => 12 | _ => 6
      (Standing s r wb w (16 * slot.val) 16 → ∃ k, (∀ c, c < 16 →
          (mask.getLsbD c = true → ElementIs s r.tile w (16 * slot.val + c) (k.cols.getD c 0)) ∧ (mask.getLsbD c = false → k.cols.getD c 0 = 0)) ∧
        k.diag = false ∧ BankWord (.mbld o) s r acc { b with back := k, swap := some mask } x) ∧
      (NotYet s r wb w (16 * slot.val) 16 → JoinsWindow (.mbld o) s r x wb w) ∧
      (Standing s r wb w slot.val 1 → ∃ (k : BBuf) (d : Beat), ElementIs s r.tile w slot.val d ∧ k.diag = true ∧
        (∀ c, c < 16 → accLane (k.cols.getD 0 0) c = if mask.getLsbD c then accLane d c else 0) ∧
        BankWord (.mbldDiag o) s r acc { b with back := k, swap := some mask } x) ∧
      (NotYet s r wb w slot.val 1 → JoinsWindow (.mbldDiag o) s r x wb w) ∧
      (Standing s r wb w (32 * slot.val) (16 + n) → ∃ k, (∀ c, c < 16 →
          (mask.getLsbD c = true → ElementIs s r.tile w (32 * slot.val + c) (k.cols.getD c 0)) ∧ (mask.getLsbD c = false → k.cols.getD c 0 = 0)) ∧
        (∀ i j, i < n → j < 64 → k.masks.getD (64 * i + j) 0 = storeByte s r.tile (w.offAt (32 * slot.val + 16 + i) + j)) ∧
        k.diag = false ∧ BankWord (.mbsp o) s r acc { b with back := k, swap := some mask } x) ∧
      (NotYet s r wb w (32 * slot.val) (16 + n) → JoinsWindow (.mbsp o) s r x wb w)) ∧
    (∀ off : BitVec 16,
      (Standing s r wb w off.toNat 1 → ∃ k : Vector Byte 16, (∀ i : Fin 16, k.get i = storeByte s r.tile (w.offAt off.toNat + i)) ∧
        BankWord (.mscaleWindow ⟨g, acc, wb, off⟩) s r acc { b with cscale := k } x) ∧
      (NotYet s r wb w off.toNat 1 → JoinsWindow (.mscaleWindow ⟨g, acc, wb, off⟩) s r x wb w)) ∧
    (∀ code, BankWord (.mscaleCode ⟨g, acc, code⟩) s r acc { b with asc := code } x) ∧
    (∀ row n, ∃ k : Vector Beat 64, (∀ i : Fin 64, k.get i = if row.val ≤ i.val ∧ i.val < row.val + n.val then 0 else b.rows.get i) ∧
      BankWord (.mzero ⟨g, acc, row, n⟩) s r acc { b with rows := k } x) ∧
    (∀ (row : Fin 64) (n : Fin 128) (off : Fin 512), row.val + n.val ≤ 64 →
      (Standing s r wb w off.val n.val → ∃ k : Vector Beat 64,
        (∀ i : Fin 64, (row.val ≤ i.val ∧ i.val < row.val + n.val → ElementIs s r.tile w (off.val + (i.val - row.val)) (k.get i)) ∧
          (i < row ∨ row.val + n.val ≤ i.val → k.get i = b.rows.get i)) ∧
        BankWord (.mwr ⟨g, acc, row, wb, n, off⟩) s r acc { b with rows := k } x) ∧
      (NotYet s r wb w off.val n.val → JoinsWindow (.mwr ⟨g, acc, row, wb, n, off⟩) s r x wb w)) ∧
    (∀ (row : Fin 64) (n : Fin 128) e, row.val + n.val ≤ 64 → 0 < n.val → MemoryCanonical s → s.elem? r.tile = some e → WindowIs s r wb w →
      w.size = 64 → w.fill.toNat ≤ w.cap.toNat →
      (w.frozen = false ∧ n.val + w.shrinkNow ≤ w.cap.toNat - w.fill.toNat → ∃ t y, exec (.mrd ⟨g, acc, row, wb, n⟩) s = .next t ∧
        t.ctx? r = some y ∧ Past x y ∧ Stored s t r.tile w w.fill.toNat n.val (fun i j => byteNo (b.row (row.val + i)).toNat j) ∧
        t.win? (r.tile.win wb) = some { w with fill := w.fill + BitVec.ofNat 16 n.val, fillNow := w.fillNow + n.val } ∧
        OnlyContext s { t with wins := s.wins, elems := s.elems } r) ∧
      (w.frozen = true ∨ w.cap.toNat - w.fill.toNat < n.val + w.shrinkNow → JoinsWindow (.mrd ⟨g, acc, row, wb, n⟩) s r x wb w)) ∧
    (∀ slot entry tl, x.sup = true → s.tile? r.tile = some tl → ∃ t y, exec (.mslot ⟨g, slot, entry⟩) s = .next t ∧ t.ctx? r = some y ∧ Past x y ∧
      t.tile? r.tile = some { tl with pend := tl.pend ++ [.slot slot (BitVec.ofNat 4 entry.val)] } ∧
      OnlyContext s { t with tiles := s.tiles } r)) ∧
  (∀ s b k m, s.arg = .bank k → s.bank? k = some b → b.swap = some m →
      ((∀ tl, s.tile? ⟨k.rid, k.elem⟩ = some tl → ∀ f ∈ tl.rows, f.bank ≠ k.bank) → ∃ t, exec .bSwap s = .next t ∧
        BankSet s t k { b with front := b.back, mask := m, cscale := Vector.replicate 16 0x7F, swap := none } ∧
        t = { s with banks := t.banks, busy := t.busy }) ∧
      (∀ tl f, s.tile? ⟨k.rid, k.elem⟩ = some tl → f ∈ tl.rows → f.bank = k.bank → exec .bSwap s = .next s))

/-- Under a true guard on a bank bound to the context, with row + n at most 64 and an implemented pair of types: mrow takes n beats of its channel, and mroww and mroww.sp read n elements, or 3n, of their window, and each readies n row firings with the row numbers, types, scales and draws of R167 to R170. The array step applies the oldest firing of the context it grants: each column's lane is the sum of R55 of that column (for a dense integer bank with both scales 1: the old lane, or 0 under ZF, plus the products, wrapped; for a dense float bank with finite elements and lane: the exact sum of the old lane, or 0 under ZF, and the products times 2^(sa + sb), where it is not 0 rounded once to f32 with the draw of the row and column), a masked column keeps its lane (an f32 −0 becomes +0), or is 0 under ZF; other rows and banks are as before; with nothing ready it does nothing. mbias adds the bias element to each row, an integer lane wrapped; mout sends one beat per row whose lanes are the lanes converted to the output type, 0 in masked columns, and clears the rows under ZF; beyond the declared count it traps RATE. -/
def Obligations.MatrixRowsFireAndLeave : Prop :=
  (∀ s r x b w (acc : Fin 4) (wb : Fin 16) g, Issues s r x → x.guard0 g = true → BankIs s r acc b →
    ∀ (rm : RM) (zf : Bool) (row : Fin 64) (sch : Option (Fin 32)) (bty : Ty) (n : Fin 128), row.val + n.val ≤ 64 →
    let fire (sparse : Bool) (y : Ctx) (aty : Ty) (sc : Nat → Byte) (a : Nat → List Beat) (j : Nat) : RowFire :=
      { ctx := r.ctx, bank := acc, row := row.val + j, rm := rm, zf := zf, sparse := sparse, aty := aty, bty := bty,
        scale := sc j, a := a j, sr := rowDraw y rm j }
    (∀ (vca : Fin 32) ch aty sc y,
      let o : MRowOps := ⟨g, rm, acc, zf, row, vca, sch, bty, n⟩
      let x1 : Ctx := { x with received := x.received.set vca.val (x.received.get vca + n.val) vca.isLt }
      x.inMask.getLsbD vca.val = true → s.chan? (r.tile.chan vca.val) = some ch → Ty.ofCode ch.fmt = some aty → comboOk aty bty = true →
      (x.inRate.get vca < x.received.get vca + n.val → Traps (.mrow o) s r x tRATE (BitVec.ofNat 64 vca.val) 0) ∧
      (x.received.get vca + n.val ≤ x.inRate.get vca → sch ≠ some vca → ScalesFrom s r x1 sch ch.scale y sc → n.val ≤ ch.items.length →
        (∀ i ∈ ch.items.take n.val, i.fault = none) →
        RowsReady (.mrow o) s r y rm n.val (fire false y aty sc (fun j => [(ch.items.getD j {}).beat])) ∧
        ∀ t, exec (.mrow o) s = .next t → t.chan? (r.tile.chan vca.val) = some { ch with items := ch.items.drop n.val })) ∧
    (∀ (aty : Ty) (off : Fin 512) sc y, comboOk aty bty = true → ScalesFrom s r x sch b.asc y sc →
      let o : MRowWOps := ⟨g, rm, acc, zf, row, aty, sch, wb, bty, n, off⟩
      (Standing s r wb w off.val n.val → ∃ a : Nat → Beat, (∀ j, j < n.val → ElementIs s r.tile w (off.val + j) (a j)) ∧
        RowsReady (.mroww o) s r y rm n.val (fire false y aty sc (fun j => [a j]))) ∧
      (NotYet s r wb w off.val n.val → JoinsWindow (.mroww o) s r x wb w) ∧
      (Standing s r wb w off.val (3 * n.val) → ∃ a : Nat → Beat, (∀ j, j < 3 * n.val → ElementIs s r.tile w (off.val + j) (a j)) ∧
        RowsReady (.mrowwSp o) s r y rm n.val (fire true y aty sc (fun j => [a (3 * j), a (3 * j + 1), a (3 * j + 2)]))) ∧
      (NotYet s r wb w off.val (3 * n.val) → JoinsWindow (.mrowwSp o) s r x wb w)) ∧
    (∀ off : Fin 512,
      let o : MBiasOps := ⟨g, rm, acc, row, wb, n, off⟩
      (Standing s r wb w off.val 1 → ∃ (d : Beat) (k : Vector Beat 64) (fl : BitVec 5), ElementIs s r.tile w off.val d ∧
        (∀ i : Fin 64, i < row ∨ row.val + n.val ≤ i.val → k.get i = b.rows.get i) ∧
        (∀ i : Fin 64, row ≤ i → i.val < row.val + n.val → ∀ c, c < 16 →
          (b.mask.getLsbD c = false → accLane (k.get i) c = accLane (b.rows.get i) c) ∧
          (b.mask.getLsbD c = true → b.int = true → accLane (k.get i) c = (accLane (b.rows.get i) c + accLane d c) % 2 ^ 32) ∧
          (b.mask.getLsbD c = true → b.int = false → accLane (k.get i) c =
            (biasLane b o (x.source rm) d (i.val - row.val) c (accLane (b.rows.get i) c)).1 % 2 ^ 32)) ∧
        BankWord (.mbias o) s r acc { b with rows := k } ((x.raise fl).drew rm n.val)) ∧
      (NotYet s r wb w off.val 1 → JoinsWindow (.mbias o) s r x wb w)) ∧
    (∀ (oc : Fin 32) (sat : Bool) (oty : Ty),
      let o : MOutOps := ⟨g, rm, acc, zf, row, oc, sat, oty, n⟩
      x.outMask.getLsbD oc.val = true → otyOk b.int oty = true →
      (x.outRate.get oc < x.sent.get oc + n.val → Traps (.mout o) s r x tRATE (BitVec.ofNat 64 oc.val) 0) ∧
      (x.sent.get oc + n.val ≤ x.outRate.get oc → ∀ c ch, s.route? r.tile oc.val = some c → s.chan? c = some ch →
        ∃ t y fl m a rs fs, exec (.mout o) s = .next t ∧ t.ctx? r = some y ∧
          (let u := (x.raise fl).drew rm n.val
           Past { u with sent := x.sent.set oc.val (x.sent.get oc + n.val) oc.isLt, tsamp := m, armed := a } y) ∧
          (x.tsamp = none → m = none) ∧ (x.armed = none → a = none) ∧
          BankSet s t ⟨r.rid, r.elem, acc⟩ { b with rows := rs } ∧
          (∀ i : Fin 64, rs.get i = if zf = true ∧ row ≤ i ∧ i.val < row.val + n.val then 0 else b.rows.get i) ∧
          t.chan? c = some { ch with
            flight := ch.flight ++ fs,
            reserved := if x.reserved.getLsbD oc.val then ch.reserved - n.val else ch.reserved } ∧ fs.length = n.val ∧
          ∀ j, j < n.val → ∃ d it, fs[j]? = some (d, .item it) ∧ s.cycle < d ∧ ∀ l, l < 16 →
            (b.mask.getLsbD l = false → laneGet oty it.beat l = 0) ∧
            (b.mask.getLsbD l = true → laneGet oty it.beat l = (outLane b o (x.source rm) j l).1 % 2 ^ oty.width)))) ∧
  (∀ s e tl, s.arg = .elem e → s.tile? e = some tl →
    (tl.rows = [] → exec .matrixRowFiring s = .next s) ∧
    (∀ c f b, s.rowGrant e tl = some c → tl.rows.find? (fun g => g.ctx == c) = some f → s.bank? ⟨e.rid, e.elem, f.bank⟩ = some b → f.row < 64 →
      ∃ t rs, exec .matrixRowFiring s = .next t ∧ BankSet s t ⟨e.rid, e.elem, f.bank⟩ { b with rows := rs } ∧
        (∀ i : Fin 64, i.val ≠ f.row → rs.get i = b.rows.get i) ∧ SameBytes s t ∧ t.wins = s.wins ∧ t.chans = s.chans ∧
        (∃ tl', t.tile? e = some tl' ∧ tl'.rows.length + 1 = tl.rows.length) ∧
        ∀ i : Fin 64, i.val = f.row → ∀ l, l < 16 →
          let old := accLane (b.rows.get i) l
          (b.mask.getLsbD l = false → accLane (rs.get i) l = if f.zf = true ∨ (b.int = false ∧ old = 2 ^ 31) then 0 else old) ∧
          (b.mask.getLsbD l = true → b.int = false → accLane (rs.get i) l = (b.column f (rowElems f.aty f.a) l).1 % 2 ^ 32) ∧
          (∀ a sb, b.mask.getLsbD l = true → b.int = false → f.sparse = false → b.front.diag = false → f.a = [a] → b.cscale.toList[l]? = some sb →
            f.scale ≠ 0xFF → sb ≠ 0xFF →
            let av (k : Nat) : FV := unpackF f.aty (packed f.aty a.toNat k)
            let bv (k : Nat) : FV := unpackF f.bty (packed f.bty (b.front.cols.getD l 0).toNat k)
            let u : Nat := match f.sr with | some (seed, ctr) => draw seed ctr l | none => 0
            (∀ k, k < perBeat f.aty → (∃ n m e, av k = .fin n m e) ∧ ∃ n m e, bv k = .fin n m e) →
            (f.zf = true ∨ ∃ n m e, unpackF .f32 old = .fin n m e) →
            let X : ℚ := (if f.zf then 0 else valOf (unpackF .f32 old)) + ((List.range (perBeat f.aty)).map fun k =>
              valOf (av k) * valOf (bv k) * 2 ^ ((f.scale.toNat : ℤ) - 127 + ((sb.toNat : ℤ) - 127))).sum
            X ≠ 0 → RoundsOnce .f32 { rm := f.rm, u := u } (X : ℝ) (b.column f (rowElems f.aty f.a) l)) ∧
          (b.mask.getLsbD l = true → b.int = true → f.sparse = false → b.front.diag = false → f.scale = 0x7F → b.cscale.toList[l]? = some 0x7F →
            ∀ a, f.a = [a] → accLane (rs.get i) l = (wrapNat 32 ((if f.zf then 0 else toSigned 32 old) +
              ((List.range (perBeat f.aty)).map fun k =>
                f.aty.ival (packed f.aty a.toNat k) * f.bty.ival (packed f.bty (b.front.cols.getD l 0).toNat k)).sum)))))

/-- One command, of which f tells the operands, stands offered to the island that the handle names, and the context waits for its acceptance; nothing else changes (R199). -/
def Offered (i : Instr) (s : State) (r : CtxRef) (x : Ctx) (isl : Byte) (f : Cmd → Prop) : Prop :=
  ∀ p, s.islandPort r.tile isl.toNat = some p → ∃ t y c, exec i s = .next t ∧ t.ctx? r = some y ∧
    WaitsFor i x y (.accept s.nextAcc) ∧ t.cmds = s.cmds ++ [c] ∧ c.id = s.nextAcc ∧ c.r = r ∧ c.port = p ∧ c.isl = isl.toNat ∧
    c.ins = i ∧ c.phase = .offered ∧ f c ∧ OnlyContext s { t with cmds := s.cmds, nextAcc := s.nextAcc } r

/-- The size in bytes of an atomic's TYP (R207). -/
def typBytes (t : Fin 8) : Nat := if t = 3 ∨ 6 ≤ t then 8 else 4

/-- Nothing of the machine waits for an access: no context, no release, no reply. -/
def NothingWaits (s : State) : Prop :=
  (∀ p ∈ s.ctxs, p.2.wait = none) ∧ s.deferred = [] ∧ ∀ a ∈ s.accs, ∀ c k l e, a.purpose ≠ .reply c k l e

/-- Context r, holding x, waits for w, and nothing else waits for an access. -/
def OneWaits (s : State) (r : CtxRef) (x : Ctx) (w : Wait) : Prop :=
  s.ctx? r = some x ∧ x.wait = some w ∧ (∀ p ∈ s.ctxs, p.1 ≠ r → p.2.wait = none) ∧ s.deferred = [] ∧
    ∀ a ∈ s.accs, ∀ c k l e, a.purpose ≠ .reply c k l e

/-- The only access numbered id is a. -/
def TheAccess (s : State) (id : Nat) (a : Acc) : Prop := a ∈ s.accs ∧ a.id = id ∧ ∀ b ∈ s.accs, b.id = id → b = a

/-- Under a true guard, where the handle names an island of the context's die: each of the words cpy, cpyq, gth, sct, the atomics, pl…, p… and x… whose checks pass leaves one command with its register operands, capability, colour and, for a .rel form, the accesses owed, offered to that island, and the context in WAIT for its acceptance; registers, pc, memory, windows and other contexts are as before. pcfg does so in a supervisor context. The spaces that gth and sct take, 1 to 4, are log 35's reading. A fetching atomic whose reply target is no enabled channel traps ISLAND_STATUS with TRAP_INFO0 the target register; a capability without a tag traps CAP_TAG. -/
def Obligations.EngineWordsAreOffered : Prop :=
  ∀ s r x, Issues s r x →
  (∀ o : PSSOps, x.guard0 o.g = true →
    let f (c : Cmd) : Prop := c.w = [x.gs o.a, x.gs o.b] ∧ c.after = []
    Offered (.plq o) s r x o.isl f ∧ Offered (.plvec o) s r x o.isl f ∧ Offered (.plfuseLin o) s r x o.isl f ∧
    Offered (.plfuseRrf o) s r x o.isl f ∧ Offered (.pstat o) s r x o.isl (fun c => c.w = []) ∧
    (x.sup = true → Offered (.pcfg o) s r x o.isl f)) ∧
  (∀ o : PSCOps, x.guard0 o.g = true →
    let c := x.gc o.b
    (c.tag = false → Traps (.plterm o) s r x tCAP_TAG 0 0) ∧
    (c.tag = true → c.has 7 = false → c.space = 1 ∨ c.space = 2 → c.has 4 = true →
      Offered (.plterm o) s r x o.isl (fun m => m.w = [x.gs o.a] ∧ m.capA = c))) ∧
  (∀ o : PRunOps, x.guard0 o.g = true →
    let f (c : Cmd) : Prop := c.w = [x.gs o.a, x.gs o.b] ∧ c.colour = o.col.val ∧ c.after = (if o.rel then s.owed r else [])
    Offered (.plrunOr o) s r x o.isl f ∧ Offered (.plrunAnd o) s r x o.isl f ∧ Offered (.plrunWand o) s r x o.isl f) ∧
  (∀ o : PSOps, x.guard0 o.g = true → Offered (.plabort o) s r x o.isl (fun c => c.w = [x.gs o.a])) ∧
  (∀ o : PResumeOps, x.guard0 o.g = true → Offered (.plresume o) s r x o.isl (fun c => c.w = [x.gs o.a] ∧ c.colour = o.col.val)) ∧
  (∀ o : PinsOps, x.guard0 o.g = true →
    Offered (.pins o) s r x o.isl (fun c => c.w = [x.gs o.a, x.gs o.b] ∧ c.after = (if o.rel then s.owed r else []))) ∧
  (∀ o : PTakeOps, x.guard0 o.g = true →
    Offered (.ptake o) s r x o.isl (fun c => c.w = []) ∧ Offered (.ptry o) s r x o.isl (fun c => c.w = [])) ∧
  (∀ o : XBarOps, x.guard0 o.g = true → Offered (.xbar o) s r x o.isl (fun c => c.w = [x.gs o.a])) ∧
  (∀ o : XFillROps, x.guard0 o.g = true →
    let c := x.gc o.a
    let n := (x.gsAt o.c 0).toNat
    let f (m : Cmd) : Prop := m.w = [x.gs o.b, x.gsAt o.c 0, x.gsAt o.c 1] ∧ m.capA = c ∧ m.colour = o.col.val ∧
      m.after = (if o.rel then s.owed r else [])
    (CapAllows c [1, 2] 0 (x.gs o.b).toNat n 1 → Offered (.xfill o) s r x o.isl f) ∧
    (CapAllows c [1, 2] 0 (x.gs o.b).toNat n 1 → CapAllows c [1, 2] 1 (x.gs o.b).toNat n 1 → Offered (.xred o) s r x o.isl f)) ∧
  (∀ o : CpyOps, x.guard0 o.g = true →
    let src := (x.gsAt o.c 0).toNat
    let dst := (x.gsAt o.c 1).toNat
    let n := (x.gsAt o.c 2).toNat
    CapAllows (x.gc o.a) [1, 2, 3, 4] 0 src n 1 → src % 16 = 0 →
    (∀ b, o.b = .c b → CapAllows (x.gc b) [1, 2, 3, 4] 1 dst n 1 → dst % 16 = 0 → n % 16 = 0 →
      Offered (.cpy o) s r x o.isl (fun c => c.w = [x.gsAt o.c 0, x.gsAt o.c 1, x.gsAt o.c 2, x.gsAt o.c 3] ∧ c.capA = x.gc o.a ∧
        c.capB = x.gc b ∧ c.colour = o.col.val ∧ c.after = (if o.rel then s.owed r else []))) ∧
    (∀ b, o.b = .s b → n % 64 = 0 →
      Offered (.cpy o) s r x o.isl (fun c => c.w = [x.gsAt o.c 0, x.gs b, x.gsAt o.c 2, x.gsAt o.c 3] ∧ c.capA = x.gc o.a))) ∧
  (∀ o : Cpy3Ops, x.guard0 o.g = true →
    let src := (x.gsAt o.c 0).toNat
    let dst := (x.gsAt o.c 1).toNat
    let arg := (x.gsAt o.c 2).toNat
    let rows := arg % 2 ^ 16
    let rowb := arg / 2 ^ 16 % 2 ^ 24
    let len := (rows + 7) / 8
    (∀ q, quantCfg (x.gsAt o.c 2) (x.gsAt o.c 3) = some q → CapAllows (x.gc o.a) [1, 2] 0 src (q.rows * q.cols * q.size) 1 →
      CapAllows (x.gc o.b) [1, 2] 1 dst q.destBytes 1 → src % 64 = 0 → dst % 64 = 0 →
      Offered (.cpyq o) s r x o.isl (fun c => c.w = [x.gsAt o.c 0, x.gsAt o.c 1, x.gsAt o.c 2, x.gsAt o.c 3, x.gsAt o.c 4] ∧
        c.capA = x.gc o.a ∧ c.capB = x.gc o.b ∧ c.colour = o.col.val)) ∧
    (∀ w e mask, WindowIs s r (arg / 2 ^ 40 % 2 ^ 4) w → s.elem? r.tile = some e → w.frozen = false → rows ≠ 0 → rowb ≠ 0 → rowb % 16 = 0 →
      (len + w.size - 1) / w.size ≤ w.fill.toNat - (w.fillNow + w.fillPrev) →
      s.winBad (r.tile.win (arg / 2 ^ 40 % 2 ^ 4)) w 0 ((len + w.size - 1) / w.size) = false →
      mask.length = len → (∀ k, k < len → mask[k]? = some (storeByte s r.tile (w.offAt (k / w.size) + k % w.size))) →
      src % 16 = 0 → dst % 16 = 0 →
      let m := ((List.range rows).filter fun i => (mask.getD (i / 8) 0).getLsbD (i % 8)).length
      let f (c : Cmd) : Prop := c.w = [x.gsAt o.c 0, x.gsAt o.c 1, x.gsAt o.c 2, x.gsAt o.c 3] ∧ c.capA = x.gc o.a ∧ c.capB = x.gc o.b ∧
        c.bytes = mask
      (CapAllows (x.gc o.a) [1, 2, 3, 4] 0 src (rows * rowb) 1 → CapAllows (x.gc o.b) [1, 2, 3, 4] 1 dst (m * rowb) 1 →
        Offered (.gth o) s r x o.isl f) ∧
      (CapAllows (x.gc o.a) [1, 2, 3, 4] 0 src (m * rowb) 1 → CapAllows (x.gc o.b) [1, 2, 3, 4] 1 dst (rows * rowb) 1 →
        Offered (.sct o) s r x o.isl f))) ∧
  (∀ o : AtOps, x.guard0 o.g = true →
    let n := typBytes o.typ
    let f (c : Cmd) : Prop := c.w = [x.gs o.b, 0] ∧ c.capA = x.gc o.a ∧ c.colour = o.col.val ∧ c.bytes = bytesLE 32 (x.gs o.c).toNat ∧
      c.after = (if o.rel then s.owed r else [])
    CapAllows (x.gc o.a) [1, 2] 2 (x.gs o.b).toNat n n →
      Offered (.aadd o) s r x o.isl f ∧ Offered (.amin o) s r x o.isl f ∧ Offered (.amax o) s r x o.isl f ∧ Offered (.aand o) s r x o.isl f ∧
      Offered (.aor o) s r x o.isl f ∧ Offered (.axor o) s r x o.isl f ∧ Offered (.axchg o) s r x o.isl f) ∧
  (∀ o : AtFOps, x.guard0 o.g = true →
    let n := typBytes o.typ
    let q := replyTarget r.rid (x.gs o.d)
    let f (c : Cmd) : Prop := c.w = [x.gs o.b, x.gs o.d] ∧ c.capA = x.gc o.a ∧ c.colour = o.col.val ∧ c.bytes = bytesLE 32 (x.gs o.c).toNat
    CapAllows (x.gc o.a) [1, 2] 2 (x.gs o.b).toNat n n →
      ((∀ ch, s.chan? q = some ch → ch.en = false) → Traps (.aaddF o) s r x tISLAND_STATUS (x.gs o.d) 0) ∧
      (∀ ch, s.chan? q = some ch → ch.en = true →
        Offered (.aaddF o) s r x o.isl f ∧ Offered (.aminF o) s r x o.isl f ∧ Offered (.amaxF o) s r x o.isl f ∧ Offered (.aandF o) s r x o.isl f ∧
        Offered (.aorF o) s r x o.isl f ∧ Offered (.axorF o) s r x o.isl f ∧ Offered (.axchgF o) s r x o.isl f)) ∧
  (∀ (o : ACasOps) ch, x.guard0 o.g = true → CapAllows (x.gc o.a) [1, 2] 2 (x.gs o.b).toNat 8 8 →
    s.chan? (replyTarget r.rid (x.gs o.d)) = some ch → ch.en = true → Offered (.acas o) s r x o.isl (fun c =>
      c.w = [x.gs o.b, x.gs o.d] ∧ c.bytes = bytesLE 32 ((x.gsAt o.c 0).toNat + 2 ^ 64 * (x.gsAt o.c 1).toNat))) ∧
  (∀ (o : ACasQOps) ch, x.guard0 o.g = true → CapAllows (x.gc o.a) [1, 2] 2 (x.gs o.b).toNat 16 16 →
    s.chan? (replyTarget r.rid (x.gs o.d)) = some ch → ch.en = true → Offered (.acasQ o) s r x o.isl (fun c =>
      c.w = [x.gs o.b, x.gs o.d] ∧ c.bytes = bytesLE 32 ((x.gv o.c).toNat % 2 ^ 256)))

/-- An item with that beat, in a slot, is on its way to a channel: on its link, or held back by the island that sent it (R195, R231). -/
def OnItsWay (t : State) (c : ChanRef) (b : Beat) : Prop :=
  ∃ it : Item, it.beat = b ∧ it.slot = true ∧ it.ctl = none ∧
    ((c, it) ∈ t.outbox ∨ ∃ ch d, t.chan? c = some ch ∧ (d, Fly.item it) ∈ ch.flight)

/-- On a die whose islands are clocked, engineAccept of an offered copy whose completion register names a tile or channel that is there writes status OK, sets the command running, behind the accesses that the context's earlier commands at the island still wait for, and completes the word; with a target that is not there it writes BAD_TARGET and the command is gone, or traps ISLAND_STATUS where the status is discarded. engineReply writes the reply status and, for ptake, key, value and predicate, and completes the word. copyCompletion, once every unit is written and complete, ends the command and sends its arrival. accessComplete gives a waiting mld the bytes at its place; takes a write to region, device and system scope in turn, the bytes standing in memory from device scope on (that they change there at one moment, and that a write leaves the pool of accesses at system scope, is log 24's choice), and does nothing before its order allows it; a write at a place that no memory holds (R280) ends in the fault noSuchAddress; and ends the wait of a wsave with its last write. sparseUpdateApply replaces the value at the place by the operation of the word, clears the tag, and ends the command, each update being applied alone (log 34's reading); for a fetching word one reply beat is then on its way to the target channel: the old value in bytes 0 to 15, the offset in bytes 16 to 23, and in bit 0 of byte 24 whether acas or acas.q stored its new value. -/
def Obligations.CommandsAndAccessesFinish : Prop :=
  (∀ s id c x o, s.arg = .id id → s.cmd? id = some c → c.phase = .offered → s.ctx? c.r = some x → x.wait = some (.accept id) →
    (c.ins = .cpy o → c.winDst = none → s.clocked c.port.die = true → s.compOk c.r.rid (c.w.getD 3 0) = true → ∃ t y m, exec .engineAccept s = .next t ∧ t.ctx? c.r = some y ∧
      Past (x.ss o.d 0) y ∧ t.cmd? id = some m ∧ m = { c with phase := .running, after := c.after ++ s.startsBehind c } ∧ (∀ q, q ≠ c.r → t.ctx? q = s.ctx? q) ∧ SameBytes s t) ∧
    (c.ins = .cpy o → c.winDst = none → s.clocked c.port.die = true → s.compOk c.r.rid (c.w.getD 3 0) = false →
      (o.d ≠ 0 → ∃ t y, exec .engineAccept s = .next t ∧ t.ctx? c.r = some y ∧ Past (x.ss o.d 0x11) y ∧ t.cmd? id = none ∧ SameBytes s t) ∧
      (o.d = 0 → exec .engineAccept s = .next ((s.dropCmd id).trap c.r x tISLAND_STATUS 0x11 ((BitVec.ofNat 8 c.isl).setWidth 64))))) ∧
  (∀ s id c x st, s.arg = .id id → s.cmd? id = some c → c.status = some st → s.ctx? c.r = some x → x.wait = some (.reply id) →
    (∀ (o : PTakeOps) (k v : Word), c.ins = .ptake o → st.toNat % 256 < 0x10 → c.bytes = bytesLE 8 k.toNat ++ bytesLE 8 v.toNat →
      ∃ t y, exec .engineReply s = .next t ∧ t.ctx? c.r = some y ∧ Past ((((x.ss o.a k).ss o.b v).sk o.k 1).ss o.d st) y ∧ t.cmd? id = none ∧
        OnlyContext s { t with cmds := s.cmds } c.r) ∧
    (∀ o : PSSOps, c.ins = .plq o → (st.toNat % 256 < 0x10 ∨ o.d ≠ 0) → ∃ t y, exec .engineReply s = .next t ∧ t.ctx? c.r = some y ∧
      Past (x.ss o.d st) y ∧ t.cmd? id = none ∧ OnlyContext s { t with cmds := s.cmds } c.r)) ∧
  (∀ s id c o, s.arg = .id id → s.cmd? id = some c → c.ins = .cpy o → c.phase = .running → c.wr = c.units → c.stage ≠ 9 → c.after = [] →
    (∀ a ∈ s.accs, ∀ r, a.issuer = .cmd r id → 2 ≤ a.level) → (compReg (c.w.getD 3 0)).eot = false →
    ∃ t, exec .copyCompletion s = .next t ∧ t.cmd? id = none ∧ SameBytes s t ∧ t.ctxs = s.ctxs ∧
      ((compReg (c.w.getD 3 0)).arr = false → t.remotes = s.remotes) ∧
      ((compReg (c.w.getD 3 0)).arr = true → ∃ m, t.remotes = s.remotes ++ [(⟨c.r.rid, (compReg (c.w.getD 3 0)).elem⟩, m)] ∧ s.cycle < m.due ∧
        m.bar = (compReg (c.w.getD 3 0)).bar ∧ m.src = c.r.elem ∧ m.note = none)) ∧
  (∀ s id a sc, s.arg = .access id sc → TheAccess s id a → a.atomic = false →
    (a.write = true → s.canRise a sc.level = false → exec .accessComplete s = .next s) ∧
    (a.write = false → s.canRise a 1 = false → exec .accessComplete s = .next s) ∧
    (a.write = true → s.canRise a sc.level = true → NothingWaits s → ∀ addr, a.place = .phys false addr →
      (sc = .region → ∃ t b, exec .accessComplete s = .next t ∧ b ∈ t.accs ∧ b.id = id ∧ b.level = 1 ∧ b.data = a.data ∧ SameBytes s t) ∧
      (sc = .device → a.place.ok a.len = false → exec .accessComplete s = .fault .noSuchAddress) ∧
      (sc = .device → a.place.ok a.len = true → MemoryCanonical s → ∃ t b, exec .accessComplete s = .next t ∧ b ∈ t.accs ∧ b.id = id ∧ b.level = 2 ∧
        (∀ k, k < a.data.length → t.gddr.get (addr + k) = a.data.getD k 0) ∧
        (∀ z, z < addr ∨ addr + a.data.length ≤ z → t.gddr.get z = s.gddr.get z) ∧ t.bulk = s.bulk ∧ t.host = s.host ∧ t.elems = s.elems) ∧
      (sc = .system → ∃ t, exec .accessComplete s = .next t ∧ t.acc? id = none ∧ SameBytes s t)) ∧
    (∀ r x (o : MemOps) addr, a.write = false → a.level = 0 → s.canRise a 1 = true → a.place = .phys false addr → a.place.ok a.len = true →
      OneWaits s r x (.load id) → x.waitIns = some (.mld o) → (s.badMem.any fun u => addr < 8 * u + 8 && 8 * u < addr + a.len) = false →
      (∀ b ∈ s.accs, b.rid = a.rid → b.write = true → b.level ≠ 1) → a.len ≤ 64 →
      ∃ (t : State) (y : Ctx) (v : Nat), exec .accessComplete s = .next t ∧ t.ctx? r = some y ∧ t.acc? id = none ∧
        (∀ k, k < a.len → byteNo v k = s.gddr.get (addr + k)) ∧ v < 2 ^ (8 * a.len) ∧
        Past (match o.d with | .s d => x.ss d (BitVec.ofNat 64 v) | .v d => x.sv d (BitVec.ofNat 512 v)) y ∧ SameBytes s t) ∧
    (∀ r x (o : WSaveOps) ids prior w, a.write = true → sc = .device → s.canRise a 2 = true → a.place.ok a.len = true →
      OneWaits s r x (.save ids prior) → x.waitIns = some (.wsave o) → (∀ j ∈ ids, j ≠ id → s.doneAt j 2 = true) →
      (∀ m ∈ s.cmds, m.id ≠ id) → (∀ b ∈ s.accs, ∀ q, b.issuer ≠ .cmd q id) → s.win? (r.tile.win o.win) = some w →
      ∃ t y, exec .accessComplete s = .next t ∧ t.ctx? r = some y ∧ Past x y ∧
        t.win? (r.tile.win o.win) = some { w with frozen := o.keep || prior, busy := none })) ∧
  (∀ s id c a addr, s.arg = .id id → s.cmd? id = some c → s.accs.find? (fun b => b.purpose == .atomic id && b.level = 0) = some a →
    s.canApply c a = true → a.place = .phys false addr → a.place.ok a.len = true → MemoryCanonical s → NothingWaits s →
    (s.badMem.any fun u => addr < 8 * u + 8 && 8 * u < addr + a.len) = false →
    let old := ofBytesLE (s.gddr.read addr a.len)
    let v := ofBytesLE c.bytes
    let done (new : Nat) : Prop := ∃ t, exec .sparseUpdateApply s = .next t ∧ t.cmd? id = none ∧
      ofBytesLE (t.gddr.read addr a.len) = new ∧ (∀ z, z < addr ∨ addr + a.len ≤ z → t.gddr.get z = s.gddr.get z) ∧ t.bulk = s.bulk ∧
      (∀ u, addr < 16 * u + 16 → 16 * u < addr + a.len → u ∉ t.gddrTags)
    (∀ o : AtOps, typBytes o.typ = a.len →
      (c.ins = .aadd o → 4 ≤ o.typ → done ((old + v % 2 ^ (8 * a.len)) % 2 ^ (8 * a.len))) ∧
      (c.ins = .aand o → done (old &&& v % 2 ^ (8 * a.len))) ∧ (c.ins = .aor o → done (old ||| v % 2 ^ (8 * a.len))) ∧
      (c.ins = .axor o → done (old ^^^ v % 2 ^ (8 * a.len))) ∧ (c.ins = .axchg o → done (v % 2 ^ (8 * a.len))) ∧
      (c.ins = .amin o → (o.typ = 5 ∨ o.typ = 7) → done (min old (v % 2 ^ (8 * a.len)))) ∧
      (c.ins = .amax o → (o.typ = 5 ∨ o.typ = 7) → done (max old (v % 2 ^ (8 * a.len))))) ∧
    (∀ o : ACasOps, c.ins = .acas o → a.len = 8 → v < 2 ^ 128 → done (if old = v % 2 ^ 64 then v / 2 ^ 64 else old)) ∧
    (∀ ch, s.chan? (replyTarget c.r.rid (c.w.getD 1 0)) = some ch →
      let fetched (new : Nat) (stored : Bool) : Prop := ∃ t, exec .sparseUpdateApply s = .next t ∧ t.cmd? id = none ∧
        ofBytesLE (t.gddr.read addr a.len) = new ∧ (∀ z, z < addr ∨ addr + a.len ≤ z → t.gddr.get z = s.gddr.get z) ∧ t.bulk = s.bulk ∧
        OnItsWay t (replyTarget c.r.rid (c.w.getD 1 0)) (BitVec.ofNat 512 (old + 2 ^ 128 * (c.w.getD 0 0).toNat + if stored then 2 ^ 192 else 0))
      (∀ o : AtFOps, typBytes o.typ = a.len →
        (c.ins = .aaddF o → 4 ≤ o.typ → fetched ((old + v % 2 ^ (8 * a.len)) % 2 ^ (8 * a.len)) false) ∧
        (c.ins = .aandF o → fetched (old &&& v % 2 ^ (8 * a.len)) false) ∧ (c.ins = .aorF o → fetched (old ||| v % 2 ^ (8 * a.len)) false) ∧
        (c.ins = .axorF o → fetched (old ^^^ v % 2 ^ (8 * a.len)) false) ∧ (c.ins = .axchgF o → fetched (v % 2 ^ (8 * a.len)) false) ∧
        (c.ins = .aminF o → (o.typ = 5 ∨ o.typ = 7) → fetched (min old (v % 2 ^ (8 * a.len))) false) ∧
        (c.ins = .amaxF o → (o.typ = 5 ∨ o.typ = 7) → fetched (max old (v % 2 ^ (8 * a.len))) false)) ∧
      (∀ o : ACasOps, c.ins = .acas o → a.len = 8 → v < 2 ^ 128 →
        fetched (if old = v % 2 ^ 64 then v / 2 ^ 64 else old) (decide (old = v % 2 ^ 64))) ∧
      (∀ o : ACasQOps, c.ins = .acasQ o → a.len = 16 → v < 2 ^ 256 →
        fetched (if old = v % 2 ^ 128 then v / 2 ^ 128 else old) (decide (old = v % 2 ^ 128)))))

/-- The first chunk of the claim order that is not over is not a failed one. -/
def HeadSound (l : List Chunk) : Prop := ∀ d, l.find? (fun d => !d.over_) = some d → d.st ≠ .bad

/-- No query, context, engine command or byte but those of query q has changed. -/
def OnlyQuery (s t : State) (q : QueryRef) : Prop :=
  (∀ p, p ≠ q → t.query p = s.query p) ∧ t.ctxs = s.ctxs ∧ t.cmds = s.cmds ∧ SameBytes s t

/-- A block without exceptions decodes to COUNT postings: document i is the one before it (LAST of the entry before, for posting 0) + gap i + 1, its impact field i of IW bits, or BMAX where IW is 0. chunkDecode of a lane whose payload is read marks its chunk decoded, or failed where the block is unsound; chunkCommit of the first chunk in claim order that is not over adds its postings to the score table and marks it committed; a failed chunk that is the first, at its own chunkDecode or at the chunkCommit after which it is, fails the query, its status beat CHUNK_FAIL with TERM and BLOCK sent where the region takes beats. queryRunEnd of a run that has decided everything holds its ranking while the region takes no fills, and in a live region with one ranked pair and room in the window fills it, sends the status beat and frees the context. Where nothing is due (a query that does not run, an engine without a clock, a lane whose chunk is not read, a run not over) each of the three answers the state as it was. -/
def Obligations.PostingsDecodeCommitAndRank : Prop :=
  (∀ (c : Chunk) hd pay ds, c.hdr = some hd → decodeBlock c pay = some ds →
    let h := ofBytesLE hd
    let gw := h / 2 ^ 8 % 2 ^ 5
    let iw := h / 2 ^ 13 % 2 ^ 4
    let n := h % 2 ^ 8
    let start := 8 * ((n * gw + 7) / 8)
    h / 2 ^ 17 % 2 ^ 5 = 0 → ds.length = n ∧ ∀ (i d v : Nat), ds[i]? = some (d, v) →
      (d : Int) = (if i = 0 then c.prev else (((ds.getD (i - 1) (0, 0)).1 : Nat) : Int)) + ((ofBytesLE pay / 2 ^ (gw * i) % 2 ^ gw : Nat) : Int) + 1 ∧
      v = if iw = 0 then c.bmax else ofBytesLE pay / 2 ^ (start + iw * i) % 2 ^ iw) ∧
  (∀ s q lane i c pay tg, s.arg = .query q lane → s.clocked q.die = true → lane < 8 → (s.query q).st = .running →
    (s.query q).chunks.findIdx? (fun c => c.st == .claimed lane) = some i → (s.query q).chunks[i]? = some c → c.hdr.isSome = true →
    s.results (s.listIds q lane) = some (pay, tg, false) → HeadSound (s.query q).chunks →
    (∀ ds, decodeBlock c pay = some ds → ∃ t, exec .chunkDecode s = .next t ∧ OnlyQuery s t q ∧
      t.query q = { s.query q with chunks := (s.query q).chunks.set i { c with st := .decoded ds } }) ∧
    (decodeBlock c pay = none → HeadSound ((s.query q).chunks.set i { c with st := .bad }) → ∃ t, exec .chunkDecode s = .next t ∧
      OnlyQuery s t q ∧ t.query q = { s.query q with chunks := (s.query q).chunks.set i { c with st := .bad } }) ∧
    (decodeBlock c pay = none → (s.query q).chunks.find? (fun d => !d.over_) = some c → i = (s.query q).chunks.findIdx (fun d => !d.over_) →
      ∃ t, exec .chunkDecode s = .next t ∧ (t.query q).st = .failed ∧ (t.query q).hits = (s.query q).hits ∧
        (∀ ch, s.takesFor ⟨(s.query q).ctx.rid, (s.query q).telem⟩ = true →
          s.chan? ⟨(s.query q).ctx.rid, (s.query q).telem, (s.query q).tvc⟩ = some ch → s.outbox = [] →
          OnItsWay t ⟨(s.query q).ctx.rid, (s.query q).telem, (s.query q).tvc⟩
            ((queryStatus q stCHUNK_FAIL 0 c.term c.block).setWidth 512)))) ∧
  (∀ s q n i c ds, s.arg = .query q n → s.clocked q.die = true → (s.query q).st = .running → i = (s.query q).chunks.findIdx (fun d => !d.over_) →
    (s.query q).chunks[i]? = some c → c.st = .decoded ds → HeadSound ((s.query q).chunks.set i { c with st := .committed }) →
    ∃ t, exec .chunkCommit s = .next t ∧ OnlyQuery s t q ∧ t.accs = s.accs ∧
      t.query q = { s.query q with chunks := (s.query q).chunks.set i { c with st := .committed },
                                   hits := (s.query q).hits ++ ds.map fun p => (p.1, c.term, p.2) }) ∧
  (∀ s q n i c, s.arg = .query q n → (s.query q).st = .running → i = (s.query q).chunks.findIdx (fun d => !d.over_) →
    (s.query q).chunks[i]? = some c → (∀ ds, c.st ≠ .decoded ds) → exec .chunkCommit s = .next s) ∧
  (∀ s q n i c ds d, s.arg = .query q n → s.clocked q.die = true → (s.query q).st = .running → i = (s.query q).chunks.findIdx (fun d => !d.over_) →
    (s.query q).chunks[i]? = some c → c.st = .decoded ds →
    ((s.query q).chunks.set i { c with st := .committed }).find? (fun d => !d.over_) = some d → d.st = .bad →
    ∃ t, exec .chunkCommit s = .next t ∧ (t.query q).st = .failed ∧ (t.query q).hits = (s.query q).hits ++ (ds.map fun p => (p.1, c.term, p.2)) ∧
      (∀ ch, s.takesFor ⟨(s.query q).ctx.rid, (s.query q).telem⟩ = true →
        s.chan? ⟨(s.query q).ctx.rid, (s.query q).telem, (s.query q).tvc⟩ = some ch → s.outbox = [] →
        OnItsWay t ⟨(s.query q).ctx.rid, (s.query q).telem, (s.query q).tvc⟩
          ((queryStatus q stCHUNK_FAIL 0 d.term d.block).setWidth 512))) ∧
  (∀ s q n, s.arg = .query q n →
    ((s.query q).st ≠ .running ∨ s.clocked q.die = false → exec .chunkDecode s = .next s ∧ exec .chunkCommit s = .next s) ∧
    (n = 8 → ((s.query q).ordered = true ∨ ∃ t ∈ (s.query q).terms, t.stage ≠ 3) → exec .chunkDecode s = .next s) ∧
    (n ≠ 8 → (∀ c ∈ (s.query q).chunks, c.st ≠ .claimed n ∨ c.hdr = none ∨ s.results (s.listIds q n) = none) → exec .chunkDecode s = .next s) ∧
    (s.clocked q.die = false ∨ ((s.query q).over_ = false ∧ (s.query q).ending = 0) → exec .queryRunEnd s = .next s)) ∧
  (∀ s q n, s.arg = .query q n → s.clocked q.die = true → (s.query q).over_ = true → (s.query q).ending = 0 →
    (s.queryLive (s.query q) = false → ∃ t, exec .queryRunEnd s = .next t ∧ OnlyQuery s t q ∧ t.query q = { s.query q with
        results := (s.query q).top, filled := 0, ending := 1, status := queryStatus q 0 (s.query q).top.length 0 0 }) ∧
    (∀ p w e ch, s.queryLive (s.query q) = true → s.takesFor ⟨(s.query q).ctx.rid, (s.query q).telem⟩ = true →
      s.killed (s.query q).ctx.rid = false → (s.query q).top = [p] → MemoryCanonical s →
      let wr : WinRef := ⟨(s.query q).ctx.rid, (s.query q).welem, (s.query q).win⟩
      s.win? wr = some w → w.cap ≠ 0 → w.esz = 3 → w.frozen = false → w.waiters = [] → w.due = [] → w.fill.toNat + w.shrinkNow < w.cap.toNat →
      s.elem? wr.at = some e → s.fillChan wr = none →
      s.chan? ⟨(s.query q).ctx.rid, (s.query q).telem, (s.query q).tvc⟩ = some ch → s.outbox = [] →
      ∃ t, exec .queryRunEnd s = .next t ∧ Stored s t wr.at w w.fill.toNat 1 (fun _ j => byteNo p.toNat j) ∧ t.query q = {} ∧
        (∀ p, p ≠ q → t.query p = s.query p) ∧ t.cmd? (s.query q).cmd = none ∧
        OnItsWay t ⟨(s.query q).ctx.rid, (s.query q).telem, (s.query q).tvc⟩ ((queryStatus q 0 1 0 0).setWidth 512)))

/-- peerBeatArrival of a beat already applied, or waiting, changes nothing; of one ahead of its flow it keeps the beat waiting; of the next one, a group arrival with nothing else waiting, it records the member at the barrier and moves the flow on. cumulativeAcknowledgement removes exactly the beats of its flow up to the number. peerRetransmit of a flow sets the beats whose 20 µs are over to be resent after another 20 µs and counts them in the upper half of the status of the port it uses; with none over it changes nothing. ethernetLinkChange sets or clears bits 0 and 1 of the port's status and no other bit. That a beat ahead of its flow waits, and which bits a link's state sets, is log 38's choice, and 20 µs are 54,000 cycles by log 42. -/
def Obligations.PeerBeatsAndEthernetLinks : Prop :=
  (∀ s (m : PeerBeat), s.arg = .beat m →
    let got := (tget s.inFlows m.flow).getD 0
    ((m.seq < got ∨ ∃ n ∈ s.peerWait, n.flow = m.flow ∧ n.seq = m.seq) → exec .peerBeatArrival s = .next s) ∧
    (got < m.seq → s.peerWait = [] → exec .peerBeatArrival s = .next { s with peerWait := [m] }) ∧
    (∀ b k, m.seq = got → s.peerWait = [] → m.body = .arrive b k → ∃ t, exec .peerBeatArrival s = .next t ∧
      (tget t.groupArr b).getD [] = (tget s.groupArr b).getD [] ++ [k] ∧
      (∀ c, c ≠ b → tget t.groupArr c = tget s.groupArr c) ∧
      tget t.inFlows m.flow = some (got + 1) ∧ (∀ f, f ≠ m.flow → tget t.inFlows f = tget s.inFlows f) ∧
      t = { s with groupArr := t.groupArr, inFlows := t.inFlows })) ∧
  (∀ s flow n, s.arg = .ack flow n → ∃ t, exec .cumulativeAcknowledgement s = .next t ∧ t = { s with flows := t.flows } ∧
    t.flows.length = s.flows.length ∧ ∀ (i : Nat) (f g : Sys2Proof.Machine.Flow), s.flows[i]? = some f → t.flows[i]? = some g →
      (f.id ≠ flow → g = f) ∧ (f.id = flow → ∃ l, g = { f with unacked := l } ∧ ∀ b, b ∈ l ↔ b ∈ f.unacked ∧ n < b.1)) ∧
  (∀ s id (f : Sys2Proof.Machine.Flow), s.arg = .id id → s.flows = [f] → f.id = id →
    ((∀ b ∈ f.unacked, s.cycle < b.2.2.1) → exec .peerRetransmit s = .next s) ∧
    (∀ num body due cmd, s.selfRefresh = 0 → f.unacked = [(num, body, due, cmd)] → due ≤ s.cycle →
      ∃ t, exec .peerRetransmit s = .next t ∧ t.flows = [{ f with unacked := [(num, body, s.cycle + 54000, cmd)] }] ∧
        (s.portTo (s.group f.src.rid) f.peer = none → t.bar0 = s.bar0) ∧
        (∀ p, s.portTo (s.group f.src.rid) f.peer = some p →
          t.bar0.ethStatus.get p = s.bar0.ethStatus.get p + 2 ^ 32 ∧
          ∀ k, k ≠ p → t.bar0.ethStatus.get k = s.bar0.ethStatus.get k))) ∧
  (∀ s (p : Fin 12) up, s.arg = .eth p.val up → ∃ t, exec .ethernetLinkChange s = .next t ∧
    t = { s with bar0 := { s.bar0 with ethStatus := t.bar0.ethStatus } } ∧
    (∀ k, k ≠ p → t.bar0.ethStatus.get k = s.bar0.ethStatus.get k) ∧
    ∀ j, (t.bar0.ethStatus.get p).getLsbD j = if j < 2 then up else (s.bar0.ethStatus.get p).getLsbD j)

/-- Only shard p of the machine, and what it sends to other shards, has changed. -/
def OnlyShards (s t : State) : Prop := t = { s with shards := t.shards, serial := t.serial }

/-- Every message in the inbox of a shard is still on its way, or is of a kind that `kind` does not name. -/
def NothingDue (x : Shard) (now : Nat) (kind : PMsg → Prop) : Prop := ∀ m ∈ x.inbox, now < m.1 ∨ ¬ kind m.2.2

/-- A message from p to another die's shard of the object: at its inbox last in t, due after this cycle. -/
def MessageSent (s t : State) (p : ShardRef) (dest : Nat) (m : PMsg) : Prop :=
  ∃ d, s.cycle < d ∧ t.shard ⟨p.slot, dest⟩ = { s.shard ⟨p.slot, dest⟩ with inbox := (s.shard ⟨p.slot, dest⟩).inbox ++ [(d, p.die, m)] }

/-- For the take at the head of a shard's queue in a cycle in which the shard has served none: where EMPTY is set its command is replied EMPTY and leaves the queue. Where the shard holds no aged element, its least element is not in flight, fewer than POOL_BOUND entries of the mirrors not held here rank below it, and each mirror has fewer than 32 entries or a last one that ranks at or above it, the element is removed, the reply carries its key and value, the context has an element of the object in hand, and the take leaves the queue. Where an element is aged, the one with the oldest birth is given. Where the shard holds nothing and knows of nothing, the take stays and the shard asks for an agreement. -/
def Obligations.PoolTakesFollowTheCondition : Prop :=
  ∀ s p id q (c : Cmd) cx, s.arg = .shard p → (s.shard p).queue = id :: q → s.cmds.filter (fun d => d.id = id) = [c] → c.withdrawn = false →
    (∀ k ∈ q, ∃ d, s.cmd? k = some d ∧ d.withdrawn = false) → (s.shard p).took = false → s.ctx? c.r = some cx →
    (∀ e ∈ (s.shard p).elems, e.bad = false) → id ∉ q →
    let x := s.shard p
    let served (e : PElem) : Prop := ∃ t y, exec .poolTakeTest s = .next t ∧
      t.shard p = { x with elems := x.elems.filter (fun f => f.rank ≠ e.rank), queue := q, waitFrom := s.cycle, asked := false, took := true } ∧
      (∀ r, r ≠ p → t.shard r = s.shard r) ∧
      t.cmd? id = some { c with phase := .replied, status := some 0, bytes := bytesLE 8 e.key.toNat ++ bytesLE 8 e.val.toNat } ∧
      t.ctx? c.r = some y ∧ y = { cx with inHand := p.slot :: cx.inHand } ∧ SameBytes s t
    (x.empty = true → ∃ t, exec .poolTakeTest s = .next t ∧ t.shard p = { x with queue := q, waitFrom := s.cycle, asked := false } ∧
      (∃ m, t.cmd? id = some m ∧ m.phase = .replied ∧ m.status = some stEMPTY) ∧ t.ctxs = s.ctxs ∧ SameBytes s t) ∧
    (x.empty = false → ∀ e ∈ x.elems, x.agemax ≠ 0 → e.flight = none → e.birth + x.agemax < s.cycle →
      (∀ f ∈ x.elems, f.rank ≠ e.rank → e.birth < f.birth) → (∀ f ∈ x.elems, f.rank = e.rank → f = e) → served e) ∧
    (x.empty = false → ∀ e l, x.elems = e :: l → x.agemax = 0 → e.flight = none →
      (∀ d n, d < 8 → d ≠ p.die → tget x.mirrors d = some n → n.entries.length < 32 ∨
        ∃ k a b f, n.entries[31]? = some (k, a, b, f) ∧ e.rank ≤ Machine.rank k a b) →
      (((List.range 8).filter (· ≠ p.die)).flatMap fun d => match tget x.mirrors d with
        | some n => (n.entries.map fun f => Machine.rank f.1 f.2.1 f.2.2.1).filter fun k => k < e.rank && !(x.elems.map (·.rank)).contains k
        | none => []).length ≤ x.bound - 1 → served e) ∧
    (x.empty = false → x.elems = [] → x.mirrors = [] → ∀ o, s.pool? p.slot = some o → o.agree = .idle →
      ∃ t, exec .poolTakeTest s = .next t ∧ t = { s with shards := t.shards } ∧ t.shard p = { x with asked := true } ∧
        ∀ r, r ≠ p → t.shard r = s.shard r)

/-- Every take of the shard's queue still stands, none withdrawn. -/
def QueueStands (s : State) (p : ShardRef) : Prop := ∀ k ∈ (s.shard p).queue, ∃ d, s.cmd? k = some d ∧ d.withdrawn = false

/-- No element of another shard has come for a take that is there no longer (R306). -/
def NoneLeftOver (s : State) (p : ShardRef) : Prop :=
  (s.shard p).queue ≠ [] ∨ NothingDue (s.shard p) s.cycle (fun m => ∃ e, m = .remoteAnswer (some e))

/-- For a shard whose queued takes stand: in a cycle whose insert step is used, poolInsertAccept changes nothing; else it inserts and counts the element that a remote take brought for a take withdrawn since; with none such, the next migrated element, and with the last one acknowledges to the shard it came from; with none, and no take served yet in the cycle, it accepts the one pins that stands offered for it: the element, numbered next, stands among the others by rank (the shard's elements and it, no other), the status register is written OK and the word completes. pcfgApply of an update that has arrived sets bound, period, age and wait limits and the next exchange of the shard at the next multiple of the new period from the configuration, counts it for its command, and replies OK once it was the eighth; with nothing arrived neither changes anything. That an element come for a take withdrawn since is inserted ahead of migrated elements and pins is log 37's choice. -/
def Obligations.PoolInsertsAndUpdates : Prop :=
  (∀ s p, s.arg = .shard p → QueueStands s p → (s.shard p).inserted = true →
    ∃ t, exec .poolInsertAccept s = .next t ∧ OnlyShards s t ∧ ∀ r, t.shard r = s.shard r) ∧
  (∀ s p due src e, s.arg = .shard p → (s.shard p).queue = [] → (s.shard p).inserted = false → (s.shard p).elems.length < 131072 →
    (s.shard p).inbox = [(due, src, .remoteAnswer (some e))] → due ≤ s.cycle →
    let x := s.shard p
    ∃ t es, exec .poolInsertAccept s = .next t ∧ OnlyShards s t ∧ (∀ r, r ≠ p → t.shard r = s.shard r) ∧ (∀ f, f ∈ es ↔ f = e ∨ f ∈ x.elems) ∧
      es.length = x.elems.length + 1 ∧
      t.shard p = { x with inbox := [], remoteOut := false, elems := es, movedIn := x.movedIn + 1, inserted := true }) ∧
  (∀ s p e es, s.arg = .shard p → QueueStands s p → NoneLeftOver s p → (s.shard p).inserted = false → (s.shard p).migrating = e :: es → (s.shard p).elems.length < 131072 →
    let x := s.shard p
    ∃ t y, exec .poolInsertAccept s = .next t ∧ t.shard p = y ∧ (∀ f, f ∈ y.elems ↔ f = e ∨ f ∈ x.elems) ∧ y.elems.length = x.elems.length + 1 ∧
      y.migrating = es ∧ y.movedIn = x.movedIn + 1 ∧ y.inserted = true ∧ OnlyShards s t ∧
      (es = [] → x.migFrom ≠ p.die → y.reqTo = none ∧ y.noteSeen = false ∧ MessageSent s t p x.migFrom (.ack x.migKeys)) ∧
      (es ≠ [] → ∀ r, r ≠ p → t.shard r = s.shard r)) ∧
  (∀ s p c cx (o : PinsOps) pl, s.arg = .shard p → QueueStands s p → NoneLeftOver s p → (s.shard p).inserted = false → (s.shard p).took = false → (s.shard p).migrating = [] → (s.shard p).elems.length < 131072 →
    s.cmds = [c] → c.ins = .pins o → c.phase = .offered → c.port.die = p.die → c.after = [] → s.poolSlot c = some p.slot →
    s.pool? p.slot = some pl → pl.configured.isSome = true → pl.agree = .idle → (s.shard p).seq < 2 ^ 60 →
    s.ctx? c.r = some cx → cx.wait = some (.accept c.id) →
    let x := s.shard p
    let e : PElem := { key := c.w.getD 0 0, val := c.w.getD 1 0, die := p.die, seq := x.seq, birth := s.cycle,
                       rel := if o.rel then some c.id else none }
    ∃ t y z, exec .poolInsertAccept s = .next t ∧ t.shard p = z ∧ (∀ f, f ∈ z.elems ↔ f = e ∨ f ∈ x.elems) ∧
      z.elems.length = x.elems.length + 1 ∧ z.seq = x.seq + 1 ∧ z.accepted = x.accepted + 1 ∧ z.inserted = true ∧
      (∀ r, r ≠ p → t.shard r = s.shard r) ∧ t.cmds = [] ∧ t.ctx? c.r = some y ∧ Past (cx.ss o.d 0) y ∧ SameBytes s t) ∧
  (∀ s p id (w0 w1 : Word) pl n due src, s.arg = .shard p → (s.shard p).inbox = [(due, src, .cfg id w0 w1)] → due ≤ s.cycle →
    s.pool? p.slot = some pl → pl.cfgs = [(id, n)] →
    let x := s.shard p
    let per := w0.toNat / 2 ^ 15 % 2 ^ 17
    ∃ t, exec .pcfgApply s = .next t ∧ (∀ r, r ≠ p → t.shard r = s.shard r) ∧
      t.shard p = { x with
        inbox := [], bound := w0.toNat % 2 ^ 6, xper := per, agemax := w1.toNat % 2 ^ 32, waitmax := w1.toNat / 2 ^ 32,
        nextX := nextExchange (pl.configured.getD 0) s.cycle per } ∧
      (1 < n → t.pool? p.slot = some { pl with cfgs := [(id, n - 1)] } ∧ t.cmds = s.cmds) ∧
      (n = 1 → t.pool? p.slot = some { pl with cfgs := [] } ∧ ∀ c, s.cmds = [c] → c.id = id →
        t.cmds = [{ c with phase := .replied, status := some 0, bytes := [] }]) ∧ t.ctxs = s.ctxs ∧ SameBytes s t) ∧
  (∀ s p, s.arg = .shard p → NothingDue (s.shard p) s.cycle (fun m => ∃ i a b, m = .cfg i a b) →
    ∃ t, exec .pcfgApply s = .next t ∧ OnlyShards s t ∧ ∀ r, t.shard r = s.shard r)

/-- migrationAnswer of the first request of a period, at a shard whose elements are all correct, sends min(POOL_BOUND, 8) least elements that are neither aged nor in flight, counted as moved out and kept marked in flight to the requester; of a later request it sends an empty answer. migrationArrival of elements holds them for the insert step, of an empty answer lets the shard ask again once a new note has come, and of an acknowledgement removes the elements in flight to that die that it names. remoteTake, in a cycle without a take yet, at a shard whose elements are all correct, removes the least element not in flight (with no limit on age set) and sends it, counted as moved out, or answers empty where the shard holds none; the element of an answer goes to the take at the head of the queue, in a take step that was not used yet. topNotesSend at the exchange of one shard counts its period and sends its count and 32 least elements to the other seven, within 400 cycles; topNotesArrival keeps a note whose period is above the mirror's and discards another. agreementWave, once the replies are in, goes on to the second wave with the counts of the first, and after the second: to AGREED where both replies are equal shard by shard, every count of held and in-hand elements is 0, injected equals accepted and the sums of moved out and in agree, every shard being EMPTY from then on; and otherwise back to IDLE. emptyClearing ends the agreement with EMPTY clear at every shard. That a remote answer is served in the take step, that an element in flight is not migrated again, that a wave counts in one instant and that the notice of EMPTY takes one step are log 37's choices. -/
def Obligations.PoolExchanges : Prop :=
  ((∀ s p due src, s.arg = .shard p → (s.shard p).inbox = [(due, src, .request)] → due ≤ s.cycle → src ≠ p.die → (s.shard p).agemax = 0 → (∀ e ∈ (s.shard p).elems, e.bad = false) →
    let x := s.shard p
    ((x.answered = true → ∃ t, exec .migrationAnswer s = .next t ∧ OnlyShards s t ∧ t.shard p = { x with inbox := [] } ∧
        MessageSent s t p src (.answer [])) ∧
     (x.answered = false → (∀ (i j : Nat) (e f : PElem), x.elems[i]? = some e → x.elems[j]? = some f → e.rank = f.rank → i = j) →
        let es := (x.elems.filter fun e => e.flight = none).take (if x.bound ≤ 8 then x.bound else 8)
        ∃ t, exec .migrationAnswer s = .next t ∧ OnlyShards s t ∧ MessageSent s t p src (.answer es) ∧
          t.shard p = { x with inbox := [], answered := true, movedOut := x.movedOut + es.length,
                               elems := x.elems.map fun e => if e ∈ es then { e with flight := some src } else e }))) ∧
  (∀ s p due src m, s.arg = .shard p → (s.shard p).inbox = [(due, src, m)] → due ≤ s.cycle →
    let x := s.shard p
    let becomes (y : Shard) : Prop := ∃ t, exec .migrationArrival s = .next t ∧ t = { s with shards := t.shards } ∧ t.shard p = y ∧
      ∀ r, r ≠ p → t.shard r = s.shard r
    (m = .answer [] → becomes { x with inbox := [], reqTo := none, noteSeen := false }) ∧
    (∀ e es, m = .answer (e :: es) → becomes { x with inbox := [], migrating := e :: es, migFrom := src, migKeys := (e :: es).map fun f => (f.die, f.seq) }) ∧
    (∀ keys, m = .ack keys → becomes { x with inbox := [], elems := x.elems.filter fun e => ¬ (e.flight = some src ∧ (e.die, e.seq) ∈ keys) })) ∧
  (∀ s p due src, s.arg = .shard p → (s.shard p).inbox = [(due, src, .remoteTake)] → due ≤ s.cycle → src ≠ p.die → (s.shard p).agemax = 0 → QueueStands s p → (∀ e ∈ (s.shard p).elems, e.bad = false) →
    let x := s.shard p
    (x.took = true → ∃ t, exec .remoteTake s = .next t ∧ OnlyShards s t ∧ ∀ r, t.shard r = s.shard r) ∧
    (x.took = false → ∀ e, x.elems.find? (fun e => e.flight.isNone) = some e → ∃ t, exec .remoteTake s = .next t ∧ OnlyShards s t ∧
      MessageSent s t p src (.remoteAnswer (some e)) ∧
      t.shard p = { x with inbox := [], took := true, movedOut := x.movedOut + 1, elems := x.elems.filter fun f => f.rank ≠ e.rank }) ∧
    (x.took = false → x.elems = [] → ∃ t, exec .remoteTake s = .next t ∧ OnlyShards s t ∧
      MessageSent s t p src (.remoteAnswer none) ∧ t.shard p = { x with inbox := [], took := true })) ∧
  (∀ s p due src e id q (c : Cmd) cx, s.arg = .shard p → (s.shard p).inbox = [(due, src, .remoteAnswer (some e))] → due ≤ s.cycle →
    (s.shard p).queue = id :: q → QueueStands s p → s.cmds.filter (fun d => d.id = id) = [c] → s.ctx? c.r = some cx →
    let x := s.shard p
    (x.took = true → ∃ t, exec .remoteTake s = .next t ∧ OnlyShards s t ∧ ∀ r, t.shard r = s.shard r) ∧
    (x.took = false → ∃ t y, exec .remoteTake s = .next t ∧ (∀ r, r ≠ p → t.shard r = s.shard r) ∧
      t.shard p = { x with inbox := [], remoteOut := false, queue := q, waitFrom := s.cycle, asked := false, movedIn := x.movedIn + 1, took := true } ∧
      t.cmd? id = some { c with phase := .replied, status := some 0, bytes := bytesLE 8 e.key.toNat ++ bytesLE 8 e.val.toNat } ∧
      t.ctx? c.r = some y ∧ y = { cx with inHand := p.slot :: cx.inHand } ∧ SameBytes s t))) ∧
  ((∀ s p due src n, s.arg = .shard p → (s.shard p).inbox = [(due, src, .notes n)] → due ≤ s.cycle →
    let x := s.shard p
    let old := match tget x.mirrors src with | some o => o.period | none => 0
    ∃ t, exec .topNotesArrival s = .next t ∧ t = { s with shards := t.shards } ∧ (∀ r, r ≠ p → t.shard r = s.shard r) ∧
      (n.period ≤ old → t.shard p = { x with inbox := [] }) ∧
      (old < n.period → tget (t.shard p).mirrors src = some n ∧ (t.shard p).noteSeen = true ∧ (t.shard p).elems = x.elems ∧
        ∀ d, d ≠ src → tget (t.shard p).mirrors d = tget x.mirrors d)) ∧
  (∀ s (q : PoolRef) o d, s.arg = .pool q → s.pool? q.slot = some o → o.configured.isSome = true → d < 8 →
    (s.shard ⟨q.slot, d⟩).nextX ≤ s.cycle → (∀ e, e < 8 → e ≠ d → s.cycle < (s.shard ⟨q.slot, e⟩).nextX) → (s.shard ⟨q.slot, d⟩).asked = false → QueueStands s ⟨q.slot, d⟩ →
    let x := s.shard ⟨q.slot, d⟩
    ∃ t, exec .topNotesSend s = .next t ∧ OnlyShards s t ∧
      t.shard ⟨q.slot, d⟩ = { x with period := x.period + 1, answered := false, asked := false,
                                     nextX := nextExchange (o.configured.getD 0) s.cycle x.xper } ∧
      ∀ e, e < 8 → e ≠ d → ∃ due n, s.cycle < due ∧ due ≤ s.cycle + 400 ∧
        t.shard ⟨q.slot, e⟩ = { s.shard ⟨q.slot, e⟩ with inbox := (s.shard ⟨q.slot, e⟩).inbox ++ [(due, d, .notes n)] } ∧
        n.period = x.period + 1 ∧ n.count = x.elems.length ∧
        n.entries = (x.elems.take 32).map fun e => (e.key, e.die, e.seq, decide (e.flight ≠ none))) ∧
  (∀ s (q : PoolRef) o due, s.arg = .pool q → s.pool? q.slot = some o →
    let counts := (List.range 8).map fun d => s.waveCounts ⟨q.slot, d⟩
    (o.agree = .wave1 due → s.cycle < due → exec .agreementWave s = .next s) ∧
    (o.agree = .wave1 due → due ≤ s.cycle → ∃ t next, exec .agreementWave s = .next t ∧ s.cycle < next ∧
      t.pool? q.slot = some { o with agree := .wave2 next counts } ∧ t = { s with pools := t.pools, serial := t.serial }) ∧
    (∀ first, o.agree = .wave2 due first → due ≤ s.cycle →
      ((first ≠ counts ∨ ∃ d, d < 8 ∧ ((s.shard ⟨q.slot, d⟩).elems ≠ [] ∨ (s.waveCounts ⟨q.slot, d⟩).getD 1 0 ≠ 0 ∨
          (s.waveCounts ⟨q.slot, d⟩).getD 4 0 ≠ (s.waveCounts ⟨q.slot, d⟩).getD 5 0)) →
        ∃ t, exec .agreementWave s = .next t ∧ t.pool? q.slot = some { o with agree := .idle } ∧ t = { s with pools := t.pools }) ∧
      (first = counts → (∀ d, d < 8 → (s.shard ⟨q.slot, d⟩).elems = [] ∧ (s.waveCounts ⟨q.slot, d⟩).getD 1 0 = 0 ∧
          (s.waveCounts ⟨q.slot, d⟩).getD 4 0 = (s.waveCounts ⟨q.slot, d⟩).getD 5 0 ∧ (s.shard ⟨q.slot, d⟩).queue = []) →
        (List.range 8).foldl (fun a d => a + (s.shard ⟨q.slot, d⟩).movedOut) 0 = (List.range 8).foldl (fun a d => a + (s.shard ⟨q.slot, d⟩).movedIn) 0 →
        ∃ t, exec .agreementWave s = .next t ∧ t.pool? q.slot = some { o with agree := .agreed } ∧
          (∀ d, d < 8 → t.shard ⟨q.slot, d⟩ = { s.shard ⟨q.slot, d⟩ with empty := true, asked := false }) ∧ t.ctxs = s.ctxs ∧ t.cmds = s.cmds))) ∧
  (∀ s (q : PoolRef) o due, s.arg = .pool q → s.pool? q.slot = some o → o.agree = .clearing due → due ≤ s.cycle →
    ∃ t, exec .emptyClearing s = .next t ∧ t.pool? q.slot = some { o with agree := .idle } ∧ t = { s with pools := t.pools, shards := t.shards } ∧
      ∀ d, d < 8 → t.shard ⟨q.slot, d⟩ = { s.shard ⟨q.slot, d⟩ with empty := false }))

/-- The step is that of operator element e, which holds o and may act: not stopped by a fault token, neither frozen nor saved (R232, R328, R346). -/
def OpTurn (s : State) (e : ElemRef) (o : OpSt) : Prop :=
  s.arg = .elem e ∧ tget s.ops e = some o ∧ s.acts e = true ∧ ∃ el, s.elem? e = some el ∧ el.stuck = false

/-- Channel vc of the operator holds `it` first, with data. -/
def HeadIs (s : State) (e : ElemRef) (vc : Nat) (it : Item) : Prop :=
  ∃ ch l, s.chan? (e.chan vc) = some ch ∧ ch.items = it :: l ∧ it.fault = none

/-- Channel vc of the operator holds nothing. -/
def NoHead (s : State) (e : ElemRef) (vc : Nat) : Prop := ∀ ch, s.chan? (e.chan vc) = some ch → ch.items = []

/-- Output n leads nowhere, or to a channel with a free slot (R232, R236). -/
def OutFree (s : State) (e : ElemRef) (o : OpSt) (n : Nat) : Prop :=
  ∀ oc c ch, o.out n = some oc → s.route? e oc = some c → s.chan? c = some ch → ch.taken + ch.reserved < ch.slots

/-- No control token waits at the destination of output n (R234). -/
def CtlFree (s : State) (e : ElemRef) (o : OpSt) (n : Nat) : Prop := ∀ oc, o.out n = some oc → s.ctlRoom e oc = true

/-- The operator fires: it holds p then; of its channel vc the item at place tk vc is taken, and no other; what f allows leaves on each output of ns that leads to a channel, and nothing else arrives anywhere; contexts, windows and commands are as before. -/
def OpFires (i : Instr) (s : State) (e : ElemRef) (o p : OpSt) (tk : Nat → Option Nat) (ns : List Nat) (f : Item → Prop) : Prop :=
  ∃ t, exec i s = .next t ∧ tget t.ops e = some p ∧ (∀ q, q ≠ e → tget t.ops q = tget s.ops q) ∧ t.ctxs = s.ctxs ∧ t.wins = s.wins ∧
    t.cmds = s.cmds ∧ ∀ q ch, s.chan? q = some ch →
      let left := if q.at = e then (match tk q.vc with | some k => ch.items.eraseIdx k | none => ch.items) else ch.items
      ((∀ n oc, n ∈ ns → o.out n = some oc → s.route? e oc ≠ some q) → t.chan? q = some { ch with items := left }) ∧
      (∀ n oc, n ∈ ns → o.out n = some oc → s.route? e oc = some q →
        ∃ d m, s.cycle < d ∧ f m ∧ t.chan? q = some { ch with items := left, flight := ch.flight ++ [(d, .item m)] })

/-- What an item brings, as a data beat, in a slot, with mark B or without (R236, R237). -/
def Carries (it : Item) (mark : Bool) (m : Item) : Prop := m.beat = it.beat ∧ m.ctl = none ∧ m.markB = mark ∧ m.slot = true ∧ m.fault = none

/-- A token of the control network of that kind. -/
def IsToken (k : CtlKind) (m : Item) : Prop := m.ctl = some k ∧ m.slot = false

/-- Nothing is taken but the head of the channels listed. -/
def heads (l : List Nat) (vc : Nat) : Option Nat := if vc ∈ l then some 0 else none

/-- For an operator that may act and whose chosen outputs find their slots: pass sends its head on out0; fork a copy on each valid out; steer the data on out0 or out1 by the control value; merge the token that the control value selects, out of a shared channel the oldest with its mark; amerge the head of INA, or of INB with mark B where INA is empty; carry the INA head in INIT, the INB head on out0 or out1 by the control value in LOOP; join one completion token where every channel of its mask holds one; gate takes a permit, adding PARAM to REMAIN up to 2^32 − 1, and passes a token while REMAIN is above 0; const a beat of VALUE until PARAM are sent; sink discards; count sends true at each PARAM-th token; select a select token of the identifier in bits 15:0. What is taken leaves its channel, other channels change by what is sent alone, and with nothing to take the state is as it was. The control value of a data beat is bit 0; an arrival, completion, done token or permit is true, an end-of-list token false. That a control token at a data input goes on as a data beat of its 64 bytes is log 33's reading. -/
def Obligations.OperatorsFire : Prop :=
  (∀ i : Item, (i.ctl = none → i.truth = i.beat.getLsbD 0) ∧ (i.ctl = some .endOfList → i.truth = false) ∧
    (i.ctl = some .arrival ∨ i.ctl = some .completion ∨ i.ctl = some .done ∨ i.ctl = some .permit → i.truth = true)) ∧
  (∀ s e o, OpTurn s e o →
    (o.opc = 0x0 →
      (∀ it, HeadIs s e o.ina it → OutFree s e o 0 → OpFires .pass s e o o (heads [o.ina]) [0] (Carries it false)) ∧
      (NoHead s e o.ina → exec .pass s = .next s)) ∧
    (o.opc = 0x1 →
      (∀ it, HeadIs s e o.ina it → (∀ n, n < 4 → OutFree s e o n) →
        (∀ n m a b q, n < 4 → m < 4 → o.out n = some a → o.out m = some b → s.route? e a = some q → s.route? e b = some q → n = m) →
        OpFires .fork s e o o (heads [o.ina]) [0, 1, 2, 3] (Carries it false)) ∧
      (NoHead s e o.ina → exec .fork s = .next s)) ∧
    (o.opc = 0x2 → o.ina ≠ o.ctl →
      (∀ it c, HeadIs s e o.ina it → HeadIs s e o.ctl c → OutFree s e o (if c.truth then 0 else 1) →
        OpFires .steer s e o o (heads [o.ina, o.ctl]) [if c.truth then 0 else 1] (Carries it false)) ∧
      (NoHead s e o.ina ∨ NoHead s e o.ctl → exec .steer s = .next s)) ∧
    (o.opc = 0x3 → o.ina ≠ o.ctl → o.inb ≠ o.ctl →
      (∀ it c, o.ina ≠ o.inb → HeadIs s e o.ctl c → HeadIs s e (if c.truth then o.ina else o.inb) it → OutFree s e o 0 →
        OpFires .merge s e o o (heads [o.ctl, if c.truth then o.ina else o.inb]) [0] (Carries it false)) ∧
      (∀ it c ch k, o.ina = o.inb → HeadIs s e o.ctl c → s.chan? (e.chan o.ina) = some ch → ch.items[k]? = some it → it.fault = none →
        it.markB = !c.truth → (∀ j i, j < k → ch.items[j]? = some i → i.markB = c.truth) → OutFree s e o 0 →
        OpFires .merge s e o o (fun vc => if vc = o.ina then some k else if vc = o.ctl then some 0 else none) [0] (Carries it false)) ∧
      (NoHead s e o.ctl → exec .merge s = .next s)) ∧
    (o.opc = 0x4 → o.ina ≠ o.inb →
      (∀ it, HeadIs s e o.ina it → OutFree s e o 0 → OpFires .amerge s e o o (heads [o.ina]) [0] (Carries it false)) ∧
      (∀ it, NoHead s e o.ina → HeadIs s e o.inb it → OutFree s e o 0 → OpFires .amerge s e o o (heads [o.inb]) [0] (Carries it true)) ∧
      (NoHead s e o.ina → NoHead s e o.inb → exec .amerge s = .next s)) ∧
    (o.opc = 0x5 → o.inb ≠ o.ctl →
      (∀ it, o.looping = false → HeadIs s e o.ina it → OutFree s e o 0 →
        OpFires .carry s e o { o with looping := true } (heads [o.ina]) [0] (Carries it false)) ∧
      (∀ it c, o.looping = true → HeadIs s e o.ctl c → HeadIs s e o.inb it → OutFree s e o (if c.truth then 0 else 1) →
        OpFires .carry s e o { o with looping := c.truth } (heads [o.ctl, o.inb]) [if c.truth then 0 else 1] (Carries it false)) ∧
      (o.looping = false → NoHead s e o.ina → exec .carry s = .next s)) ∧
    (o.opc = 0x6 →
      ((∀ n, n < 32 → o.value.getLsbD n = true → ∃ it, HeadIs s e n it) → CtlFree s e o 0 →
        OpFires .join s e o o (fun n => if n < 32 ∧ o.value.getLsbD n = true then some 0 else none) [0] (IsToken .completion)) ∧
      (∀ n, n < 32 → o.value.getLsbD n = true → NoHead s e n → exec .join s = .next s)) ∧
    (o.opc = 0x7 → o.ina ≠ o.ctl →
      (∀ c, HeadIs s e o.ctl c → NoHead s e o.ina →
        OpFires .gate s e o { o with remain := min (o.remain + o.param) (2 ^ 32 - 1) } (heads [o.ctl]) [] (fun _ => True)) ∧
      (∀ it, NoHead s e o.ctl → HeadIs s e o.ina it → o.remain ≠ 0 → OutFree s e o 0 →
        OpFires .gate s e o { o with remain := o.remain - 1 } (heads [o.ina]) [0] (Carries it false)) ∧
      (∀ it c, HeadIs s e o.ctl c → HeadIs s e o.ina it → o.remain + o.param ≠ 0 → OutFree s e o 0 →
        OpFires .gate s e o { o with remain := min (o.remain + o.param) (2 ^ 32 - 1) - 1 } (heads [o.ctl, o.ina]) [0] (Carries it false)) ∧
      (NoHead s e o.ctl → o.remain = 0 → exec .gate s = .next s)) ∧
    (o.opc = 0xB →
      ((o.param = 0 ∨ o.sent < o.param) → OutFree s e o 0 → OpFires .const s e o { o with sent := o.sent + 1 } (fun _ => none) [0]
        (fun m => m.ctl = none ∧ m.slot = true ∧ ∀ k, k < 8 → m.beat.extractLsb' (64 * k) 64 = o.value)) ∧
      (o.param ≠ 0 → o.param ≤ o.sent → exec .const s = .next s)) ∧
    (o.opc = 0xC →
      (∀ it, HeadIs s e o.ina it → OpFires .sink s e o o (heads [o.ina]) [] (fun _ => True)) ∧ (NoHead s e o.ina → exec .sink s = .next s)) ∧
    (o.opc = 0xD →
      (∀ it, HeadIs s e o.ina it → OutFree s e o 0 → OpFires .count s e o { o with n := if o.n + 1 = o.param then 0 else o.n + 1 }
        (heads [o.ina]) [0] (fun m => m.ctl = none ∧ m.slot = true ∧ m.beat = if o.n + 1 = o.param then 1 else 0)) ∧
      (NoHead s e o.ina → exec .count s = .next s)) ∧
    (o.opc = 0xE →
      (∀ it, HeadIs s e o.ina it → (∀ n, n < 4 → CtlFree s e o n) →
        (∀ n m a b q, n < 4 → m < 4 → o.out n = some a → o.out m = some b → s.route? e a = some q → s.route? e b = some q → n = m) →
        OpFires .select s e o o (heads [o.ina]) [0, 1, 2, 3] (IsToken (.select (it.beat.toNat % 2 ^ 16)))) ∧
      (NoHead s e o.ina → exec .select s = .next s)))

/-- Permit p_i + 1 to child i of m: its condition, by operator code (R240). -/
def PermitDue (o : OpSt) (m i : Nat) : Prop :=
  let n := o.p.getD i 0 + 1
  let d (j : Nat) : Nat := o.d.getD j 0
  n ≤ o.param ∧
  (o.opc = 0x8 → if i = 0 then n ≤ d (m - 1) + 1 else n ≤ d (i - 1)) ∧
  (o.opc = 0x9 → n ≤ d i + 1 ∧ (0 < i → n ≤ d (i - 1)) ∧ (i + 1 < m → n ≤ d (i + 1) + o.depth)) ∧
  (o.opc = 0xA → ∀ j, j < m → n ≤ d j + 1)

/-- The run's end, by operator code (R240). -/
def RunOver (o : OpSt) (m : Nat) : Prop :=
  if o.opc = 0xA then ∀ j, j < m → o.param ≤ o.d.getD j 0 else o.param ≤ o.d.getD (m - 1) 0

/-- The controller's step with no done on its way: it holds q then. -/
def CtlSteps (i : Instr) (s : State) (e : ElemRef) (f : State → OpSt → Prop) : Prop :=
  ∃ t q, exec i s = .next t ∧ tget t.ops e = some q ∧ (∀ k, k ≠ e → tget t.ops k = tget s.ops k) ∧ t.ctxs = s.ctxs ∧ t.wins = s.wins ∧
    t.cmds = s.cmds ∧ f t q

/-- A sequential, pipelined or streaming controller with a run under way and no token at its done channels: where the run is not over, each child i whose condition of R240 holds and whose permit output is not held back is sent one permit more, and no other child is; the counts of dones and the rest of the run stay as they were, and so does every channel to which no such permit goes. Where the run is over and out0 is not held back, the run ends, and with a route the done token is on its way. Without a run, a controller whose CTL is not enabled and that has run before stays as it is; one that has never run starts its run from load. The element for loop counts i lies at offset + the sum of i × stride over the loops. A read generator of 64-byte elements over a window whose next element can be read, with a free slot at its target, sends that element's bytes as one beat, counts it and moves loop 0 on. A write generator of 64-byte elements whose channel holds a beat takes it, counts it and issues a write of its bytes at the walk's next address, which the capability holds. A generator that has issued and delivered all, with no access in flight and its done output not held back, sends its done token once, where a route leads on. One that has sent it, or that may not act and has no beat to deliver ahead of a checkpoint marker, changes nothing. -/
def Obligations.ControllersAndGenerators : Prop :=
  (∀ s e o i, OpTurn s e o → (i = .sequentialController ∧ o.opc = 0x8 ∨ i = .pipelinedController ∧ o.opc = 0x9 ∨
      i = .streamingController ∧ o.opc = 0xA) → o.doneChans ≠ [] → (∀ vc ∈ o.doneChans, NoHead s e vc) →
    (∀ ch it l, s.chan? (e.chan o.ctl) = some ch → ch.items = it :: l → it.fault = none) →
    let m := o.doneChans.length
    let base := o.value.toNat / 2 ^ 32 % 2 ^ 5
    (o.running = true → ¬ RunOver o m → CtlSteps i s e fun t q =>
      q = { o with p := q.p, d := q.d } ∧ (∀ k, q.d.getD k 0 = o.d.getD k 0) ∧
      (∀ c ch, s.chan? c = some ch → (∀ k, k < m → PermitDue o m k → s.ctlRoom e (base + k) = true → s.route? e (base + k) ≠ some c) →
        t.chan? c = some ch) ∧
      ∀ k, k < m →
        (PermitDue o m k → s.ctlRoom e (base + k) = true → q.p.getD k 0 = o.p.getD k 0 + 1 ∧
          ∀ c ch, s.route? e (base + k) = some c → s.chan? c = some ch → ∃ ch' d it, t.chan? c = some ch' ∧
            (d, Fly.item it) ∈ ch'.flight ∧ s.cycle < d ∧ IsToken .permit it) ∧
        (¬ PermitDue o m k ∨ s.ctlRoom e (base + k) = false → q.p.getD k 0 = o.p.getD k 0)) ∧
    (o.running = true → RunOver o m → s.ctlRoom e ((o.out 0).getD 32) = true → CtlSteps i s e fun t q =>
      q.running = false ∧ q.p = o.p ∧ ∀ oc c ch, o.out 0 = some oc → s.route? e oc = some c → s.chan? c = some ch →
        ∃ d it, s.cycle < d ∧ IsToken .done it ∧ t.chan? c = some { ch with flight := ch.flight ++ [(d, .item it)] }) ∧
    (o.running = false → (∀ ch, s.chan? (e.chan o.ctl) = some ch → ch.en = false) →
      (o.runs ≠ 0 → CtlSteps i s e fun t q => q = { o with d := q.d } ∧ t.chans = s.chans) ∧
      (o.runs = 0 → 0 < o.param → CtlSteps i s e fun _ q => q.running = true ∧ q.runs = 1))) ∧
  ((∀ (g : Gen) i j k l, g.nloops = 2 → g.at_ (i :: j :: l) none = (g.offset : Int) + i * g.strides.getD 0 0 + j * g.strides.getD 1 0 ∧
    g.at_ (i :: j :: l) (some k) = (g.offset : Int) + k * g.strides.getD 0 0 + j * g.strides.getD 1 0) ∧
  (∀ s k g, s.arg = .gen k → s.gen? k = some g →
    (s.acts k.at = false → g.check = false → exec .addressGeneratorBeat s = .next s) ∧
    (s.acts k.at = true → g.ended = true → g.ahead = [] → g.doneSent = true → exec .addressGeneratorBeat s = .next s) ∧
    (s.acts k.at = true → g.ended = true → g.ahead = [] → g.doneSent = false → g.stopped = false → g.eot = false → s.accs = [] →
      s.ctlRoom k.at (s.doneOut k) = true →
      ∃ t, exec .addressGeneratorBeat s = .next t ∧ t.gen? k = some { g with doneSent := true } ∧ t.ctxs = s.ctxs ∧
        ∀ c ch, s.route? k.at (s.doneOut k) = some c → s.chan? c = some ch →
          ∃ d m, s.cycle < d ∧ IsToken .done m ∧ t.chan? c = some { ch with flight := ch.flight ++ [(d, .item m)] }) ∧
    (∀ w d i0 is c0 cs c ch, s.acts k.at = true → g.write = false → g.ended = false → g.paused = false → g.stopped = false → g.check = false →
      g.quant = false → g.hist = none → g.idx = none → g.esz = 5 → g.ahead = [] → g.skip = [] → g.win = some w → s.win? (k.at.win w) = some d → d.esz = 5 →
      g.i = i0 :: is → g.counts = c0 :: cs → 0 < g.nloops → i0 + 1 < c0 → 0 ≤ g.at_ g.i none → (g.at_ g.i none).toNat % 64 = 0 →
      d.readable ((g.at_ g.i none).toNat / 64) 1 = true → s.winBad (k.at.win w) d ((g.at_ g.i none).toNat / 64) 1 = false →
      s.route? k.at g.oc = some c → s.chan? c = some ch → 0 < ch.free →
      ∃ t y due m, exec .addressGeneratorBeat s = .next t ∧ t.gen? k = some y ∧ y.beats = g.beats + 1 ∧ y.ahead = [] ∧ y.ended = false ∧
        y.i.head? = some (i0 + 1) ∧ y.doneSent = g.doneSent ∧ s.cycle < due ∧ m.ctl = none ∧ m.fault = none ∧ m.last = false ∧
        (∀ j, j < 64 → byteNo m.beat.toNat j = match s.elem? k.at with
          | some e => e.store.get (d.offAt ((g.at_ g.i none).toNat / 64) + j) | none => 0) ∧
        t.chan? c = some { ch with flight := ch.flight ++ [(due, .item m)] } ∧ t.ctxs = s.ctxs ∧ t.wins = s.wins) ∧
    (∀ it l ch, s.acts k.at = true → g.write = true → g.ended = false → g.paused = false → g.stopped = false → g.check = false →
      g.quant = false → g.hist = none → g.idx = none → g.esz = 5 → s.chan? (k.at.chan g.oc) = some ch → ch.items = it :: l → it.slot = true →
      it.fault = none → 0 ≤ g.at_ g.i none → (g.at_ g.i none).toNat + 64 ≤ g.cap.length → g.cap.base + (g.at_ g.i none).toNat + 64 ≤ 2 ^ 57 →
      (g.cap.base + (g.at_ g.i none).toNat) % 64 = 0 →
      ∃ t y a ch', exec .addressGeneratorBeat s = .next t ∧ t.gen? k = some y ∧ y.beats = g.beats + 1 ∧ y.stopped = false ∧
        t.chan? (k.at.chan g.oc) = some ch' ∧ ch'.items = l ∧
        a ∈ t.accs ∧ a.issuer = .gen k ∧ a.write = true ∧ a.va = g.cap.base + (g.at_ g.i none).toNat ∧ a.len = 64 ∧
        a.data.length = 64 ∧ (∀ j, j < 64 → a.data.getD j 0 = byteNo it.beat.toNat j) ∧ a.colour = g.col ∧ t.ctxs = s.ctxs ∧ t.wins = s.wins)))

/-- From s to t nothing has changed but windows, channels, element stores and the numbers that free values use. -/
def OnlyFabric (s t : State) : Prop := t.ctxs = s.ctxs ∧ t.tiles = s.tiles ∧ t.bars = s.bars ∧ t.cmds = s.cmds ∧ t.accs = s.accs ∧
  t.gddr = s.gddr ∧ t.bulk = s.bulk

/-- A control token like m leaves e on output oc, where a route leads on: it stands last on the link of its channel. -/
def TokenLeaves (s t : State) (e : ElemRef) (oc : Nat) (except : ChanRef) (f : Item → Prop) : Prop :=
  ∀ q ch, s.route? e oc = some q → q ≠ except → s.chan? q = some ch →
    ∃ d m, s.cycle < d ∧ f m ∧ t.chan? q = some { ch with flight := ch.flight ++ [(d, .item m)] }

/-- windowWaiterRelease completes a waiting wread whose elements are visible, writing its register, and takes it off the list; where they are not, or the window is frozen, nothing changes. fillAccept takes the beat at the head of a fill-port channel as a fill of 64 ÷ size elements where they fit, and the channel's transfer counts them, and with a last beat the arrival token, with the transfer's count, falls due two cycles on and the transfer ends; where they do not fit, the channel joins the waiters. arrivalToken sends a due token with Fv in its FILL field, and nothing before it is due or from an element whose records are written. controlTokenPass sends a token at the head of a fill-port channel on along the port's route once nothing is due ahead of it. controlBeat turns the oldest waiting token into a control beat in a free slot at a declared channel, elsewhere counts it, and gives a select token to its unit, up to 255 in the channel's counter. -/
def Obligations.WindowsServeWaitersAndPorts : Prop :=
  (∀ s (wr : WinRef) w c x (o : WOffOps) e, s.arg = .win wr → s.win? wr = some w → w.cap ≠ 0 → w.waiters = [.ctx c] →
    s.ctx? (wr.at.ctx c) = some x → x.wait = some (.window wr.win) → x.waitIns = some (.wread o) → o.win.val = wr.win →
    s.elem? wr.at = some e → sizeOk w (eszBytes o.sz) o.d = true →
    let off := o.imm.toNat + (x.gs o.a).toNat
    let n := eszBytes o.sz / w.size
    let v := w.fill.toNat - (w.fillNow + w.fillPrev)
    (w.frozen = true ∨ v < off + n → exec .windowWaiterRelease s = .next s) ∧
    (w.frozen = false → off + n ≤ v → s.winBad wr w off n = false → ∃ (t : State) (y : Ctx) (val : Nat), exec .windowWaiterRelease s = .next t ∧
      t.ctx? (wr.at.ctx c) = some y ∧ Past (putReg x o.d val (e.tags.contains (w.offAt off / 16))) y ∧ val < 2 ^ (8 * eszBytes o.sz) ∧
      (∀ i j, i < n → j < w.size → byteNo val (i * w.size + j) = storeByte s wr.at (w.offAt (off + i) + j)) ∧
      t.win? wr = some { w with waiters := [] } ∧ (∀ k, k ≠ wr → t.win? k = s.win? k) ∧
      OnlyContext s { t with wins := s.wins } (wr.at.ctx c))) ∧
  (∀ s c ch wn i l w e, s.arg = .chan c → s.chan? c = some ch → ch.port = some wn → ch.items = i :: l → i.slot = true → i.fault = none →
    i.sample = none → i.reply = none → s.win? (c.at.win wn) = some w → w.cap ≠ 0 → w.waiters = [] → s.elem? c.at = some e → e.saved = false →
    (∀ rs, s.res? c.rid = some rs → rs.killed = false) → MemoryCanonical s →
    let n := 64 / w.size
    (w.frozen = true ∨ w.cap.toNat < w.fill.toNat + w.shrinkNow + n → ∃ t, exec .fillAccept s = .next t ∧
      t.win? (c.at.win wn) = some { w with waiters := [.chan c.vc] } ∧ (∀ k, k ≠ c.at.win wn → t.win? k = s.win? k) ∧ t.chans = s.chans ∧
      OnlyFabric s t ∧ SameBytes s t) ∧
    (w.frozen = false → w.fill.toNat + w.shrinkNow + n ≤ w.cap.toNat → ∃ t, exec .fillAccept s = .next t ∧
      Stored s t c.at w w.fill.toNat n (fun a b => byteNo i.beat.toNat (a * w.size + b)) ∧
      t.chan? c = some { ch with items := l } ∧ (∀ q, q ≠ c → t.chan? q = s.chan? q) ∧ OnlyFabric s t ∧
      (∀ k, k ≠ c.at.win wn → t.win? k = s.win? k) ∧
      ∃ z, (∀ q, q ≠ .chan c.vc → tget z q = tget w.xfers q) ∧
      (i.last = false → tget z (.chan c.vc) = some ((tget w.xfers (.chan c.vc)).getD 0 + n) ∧ t.win? (c.at.win wn) = some { w with
        fill := w.fill + BitVec.ofNat 16 n, fillNow := w.fillNow + n, xfers := z }) ∧
      (i.last = true → tget z (.chan c.vc) = none ∧
        ∃ m, m = ctlItem .arrival (controlBeat .arrival wn c.elem ((tget w.xfers (.chan c.vc)).getD 0 + n) 0) ∧ t.win? (c.at.win wn) = some { w with
          fill := w.fill + BitVec.ofNat 16 n, fillNow := w.fillNow + n, xfers := z, due := w.due ++ [(s.cycle + 2, c.vc, m)] }))) ∧
  (∀ s wr w d vc i, s.arg = .win wr → s.win? wr = some w → w.due = [(d, vc, i)] →
    (s.cycle < d ∨ s.ctlRoom wr.at vc = false → exec .arrivalToken s = .next s) ∧
    (s.savedElem wr.at = true → exec .arrivalToken s = .next s) ∧
    (d ≤ s.cycle → s.ctlRoom wr.at vc = true → s.savedElem wr.at = false → ∃ t, exec .arrivalToken s = .next t ∧ t.win? wr = some { w with due := [] } ∧
      (∀ k, k ≠ wr → t.win? k = s.win? k) ∧ OnlyFabric s t ∧ SameBytes s t ∧
      ∀ q ch, s.route? wr.at vc = some q → s.chan? q = some ch → ∃ due m, s.cycle < due ∧ m.ctl = i.ctl ∧ m.slot = i.slot ∧
        m.beat = i.beat ||| BitVec.ofNat 512 ((w.fill.toNat - (w.fillNow + w.fillPrev)) * 2 ^ 48) ∧
        t.chan? q = some { ch with flight := ch.flight ++ [(due, .item m)] })) ∧
  (∀ s c ch wn i l w, s.arg = .chan c → s.chan? c = some ch → ch.port = some wn → ch.items = i :: l → s.win? (c.at.win wn) = some w →
    (i.slot = true ∨ (∃ d m, (d, c.vc, m) ∈ w.due) ∨ s.ctlRoom c.at c.vc = false → exec .controlTokenPass s = .next s) ∧
    (i.slot = false → (∀ d v m, (d, v, m) ∈ w.due → v ≠ c.vc) → s.ctlRoom c.at c.vc = true → ∃ t, exec .controlTokenPass s = .next t ∧
      (s.route? c.at c.vc ≠ some c → t.chan? c = some { ch with items := l }) ∧ t.wins = s.wins ∧ OnlyFabric s t ∧ SameBytes s t ∧
      TokenLeaves s t c.at c.vc c (fun m => m = i))) ∧
  (∀ s c ch i l, s.arg = .chan c → s.chan? c = some ch → ch.held = i :: l →
    let n := ch.tokens + match s.elem? c.at with | some e => (e.select.filter fun p => p.1 == c.vc).length | none => 0
    (255 ≤ n → exec .controlBeat s = .next s) ∧
    (∀ g e, i.ctl = some (.select g) → n < 255 → s.elem? c.at = some e → ∃ t, exec .controlBeat s = .next t ∧
      t.chan? c = some { ch with held := l } ∧ t.elem? c.at = some { e with select := e.select ++ [(c.vc, g)] } ∧
      t = { s with chans := t.chans, elems := t.elems, busy := t.busy } ∧ ∀ q, q ≠ c → t.chan? q = s.chan? q) ∧
    ((∀ g, i.ctl ≠ some (.select g)) → s.declared c = true → ch.free = 0 → exec .controlBeat s = .next s) ∧
    ((∀ g, i.ctl ≠ some (.select g)) → n < 255 → s.declared c = true → ch.free ≠ 0 → ∃ t, exec .controlBeat s = .next t ∧
      t.chan? c = some { ch with held := l, items := ch.items ++ [{ i with slot := true }] } ∧ t = { s with chans := t.chans, busy := t.busy } ∧
      ∀ q, q ≠ c → t.chan? q = s.chan? q) ∧
    ((∀ g, i.ctl ≠ some (.select g)) → n < 255 → s.declared c = false → ∃ t, exec .controlBeat s = .next t ∧
      t.chan? c = some { ch with held := l, items := ch.items ++ [i] } ∧ t = { s with chans := t.chans, busy := t.busy } ∧
      ∀ q, q ≠ c → t.chan? q = s.chan? q))

/-- Context c of the tile can issue: in RUN, not released from a wait in this very cycle, with no interlock (R278). -/
def RunsFree (s : State) (e : ElemRef) (c : Fin 8) : Prop :=
  ∃ x, s.ctx? (e.ctx c.val) = some x ∧ x.st = .run ∧ x.justRan = false ∧ s.interlocked (e.ctx c.val) x = false

/-- In a region that fires, on a tile none of whose contexts is IDLE or READY: a holder that can issue with burst below the limit it was granted with is granted once more; without a holder the first context that can issue, from CTX_PTR on, is granted and becomes holder with burst 1 and its weight + 1 as limit; a burst that has reached its limit moves CTX_PTR past the context and gives the grant up; where no context can issue nothing is granted. A granted ctxctl or mark word runs behind the issue of the tiles that have yet to issue in the cycle, if its context is in RUN then (that all of them, and a freeze due with them, come first is log 31's reading). A lone IDLE context without outputs, whose declared channels all hold their counts, is granted, in RUN at its entry, or is READY without a grant while its first word waits for an earlier one (R107); where a channel lacks its count it stays IDLE and nothing is granted. Every 1,024 cycles from load, while the tile is on the fabric, a context's weight gains 1, up to 15, where its channel is filled above three quarters, loses 1, down to its floor, below one quarter, and is kept else and for a context without channels; a burst under way goes on under the holder's new weight, unless a supervisor's write has changed that weight since the grant. An IDLE task without a trip count whose declared channels have all ended is DONE and sends its done token. -/
def Obligations.TilesGrantAndWeigh : Prop :=
  (∀ s e t, s.arg = .elem e → s.tile? e = some t → s.firing e.rid = true → s.owesArrival e = false →
    (∀ (c : Fin 8) x, s.ctx? (e.ctx c.val) = some x → x.st ≠ .idle ∧ x.st ≠ .ready) →
    let gives (c : Fin 8) (k : Tile) : Prop := ∀ x, s.ctx? (e.ctx c.val) = some x →
      let r := e.ctx c.val
      let late : Prop := s.agenda.any isTileRow = true ∧ ∃ i, decode (s.wordAt r x.pc.toNat) = .ok i ∧ isControl i = true
      (¬ late → exec .issueGrant s = .next { s with tiles := tput s.tiles e k, grant := some r }) ∧
      (late → exec .issueGrant s = .next { s with tiles := tput s.tiles e k, agenda := behindTiles (.issueGrant, .ctx r) s.agenda })
    let next (c : Fin 8) (b l : Nat) (k : Tile) : Tile :=
      if l ≤ b then { k with ctxPtr := c + 1, holder := none, burst := b, limit := l } else { k with holder := some c, burst := b, limit := l }
    let first (c : Fin 8) (k : Tile) : Tile := next c 1 ((t.weight.get c).toNat + 1) k
    (∀ h, t.holder = some h → RunsFree s e h → t.burst < t.limit → gives h (next h (t.burst + 1) t.limit t)) ∧
    (∀ i : Fin 8, t.holder = none → RunsFree s e (t.ctxPtr + i) → (∀ j, j < i → ¬ RunsFree s e (t.ctxPtr + j)) →
      gives (t.ctxPtr + i) (first (t.ctxPtr + i) { t with ctxPtr := t.ctxPtr + i })) ∧
    (∀ (h i : Fin 8), t.holder = some h → ¬ RunsFree s e h → RunsFree s e (h + 1 + i) → (∀ j, j < i → ¬ RunsFree s e (h + 1 + j)) →
      gives (h + 1 + i) (first (h + 1 + i) { t with ctxPtr := h + 1 + i })) ∧
    (t.holder = none → (∀ c, ¬ RunsFree s e c) → exec .issueGrant s = .next { s with tiles := tput s.tiles e t })) ∧
  (∀ s e t (c : Fin 8) x, s.arg = .elem e → s.tile? e = some t → s.firing e.rid = true → s.acts e = true → s.owesArrival e = false → s.adopting e.rid = false → t.holder = none →
    s.agenda.any isTileRow = false → s.ctx? (e.ctx c.val) = some x → x.st = .idle → x.outMask = 0 → (∀ d : Fin 8, d ≠ c → s.ctx? (e.ctx d.val) = none) →
    let full : Prop := ∀ n : Fin 32, x.inMask.getLsbD n.val = true → ∃ ch, s.chan? (e.chan n.val) = some ch ∧
      x.inRate.get n ≤ (ch.items.filter (·.slot)).length
    let waits : Prop := s.interlocked (e.ctx c.val) { x with pc := x.entry } = true
    (full → waits → ∃ u y, exec .issueGrant s = .next u ∧ u.grant = s.grant ∧ u.ctx? (e.ctx c.val) = some y ∧ y = { x with st := .ready } ∧ SameBytes s u) ∧
    (full → ¬ waits → ∃ u y k, exec .issueGrant s = .next u ∧ u.grant = some (e.ctx c.val) ∧ u.ctx? (e.ctx c.val) = some y ∧ y = { x with st := .run, pc := x.entry } ∧
      u.tile? e = some k ∧ k.burst = 1 ∧ k.weight = t.weight ∧ u.chans = s.chans ∧ (∀ r, r ≠ e.ctx c.val → u.ctx? r = s.ctx? r) ∧ SameBytes s u) ∧
    (¬ full → ∃ u, exec .issueGrant s = .next u ∧ u = { s with tiles := u.tiles } ∧ u.tile? e = some t)) ∧
  (∀ s r x, s.arg = .ctx r → s.ctx? r = some x → (∀ p ∈ s.ctxs, p.2.freeze = []) →
    (x.st = .run → exec .issueGrant s = .next { s with grant := some r }) ∧ (x.st ≠ .run → exec .issueGrant s = .next s)) ∧
  (∀ s e t, s.arg = .elem e → s.tile? e = some t → t.pend = [] →
    (s.onFabric e.rid = false → exec .arbWeightStep s = .next s) ∧
    (s.cycle ≤ t.loaded ∨ (s.cycle - t.loaded) % 1024 ≠ 0 → exec .arbWeightStep s = .next s) ∧
    (s.onFabric e.rid = true → t.loaded < s.cycle → (s.cycle - t.loaded) % 1024 = 0 → ∃ u k, exec .arbWeightStep s = .next u ∧ u = { s with tiles := u.tiles } ∧
      u.tile? e = some k ∧ k = { t with weight := k.weight, limit := k.limit } ∧
      (∀ h, t.holder = some h → k.limit = if t.limit = (t.weight.get h).toNat + 1 then (k.weight.get h).toNat + 1 else t.limit) ∧
      (t.holder = none → k.limit = t.limit) ∧ (∀ q, q ≠ e → u.tile? q = s.tile? q) ∧
      (∀ c : Fin 8, s.ctx? (e.ctx c.val) = none → k.weight.get c = t.weight.get c) ∧
      (∀ (c : Fin 8) x, s.ctx? (e.ctx c.val) = some x → x.inMask = 0 → k.weight.get c = t.weight.get c) ∧
      ∀ (c : Fin 8) x (m : Fin 32) ch, s.ctx? (e.ctx c.val) = some x → x.inMask = BitVec.twoPow 32 m.val → s.chan? (e.chan m.val) = some ch →
        0 < ch.slots →
        let f := (ch.items.filter (·.slot)).length
        let w := (t.weight.get c).toNat
        (3 * ch.slots < 4 * f → (k.weight.get c).toNat = min 15 (w + 1)) ∧
        (4 * f < ch.slots → (k.weight.get c).toNat = if (t.floor.get c).toNat < w then w - 1 else w) ∧
        (ch.slots ≤ 4 * f → 4 * f ≤ 3 * ch.slots → k.weight.get c = t.weight.get c))) ∧
  (∀ s r x, s.arg = .ctx r → s.ctx? r = some x →
    (x.st ≠ .idle ∨ x.tripCnt ≠ 0 ∨ x.inMask = 0 → exec .taskInputsEnded s = .next s) ∧
    (x.st = .idle → x.tripCnt = 0 → x.inMask ≠ 0 → s.acts r.tile = true → s.adopting r.rid = false →
      (∀ n, n < 32 → x.inMask.getLsbD n = true → s.chanEnded ((s.elemsOf r.rid).length + 1) (r.tile.chan n) = true) →
      ∃ t, exec .taskInputsEnded s = .next t ∧ t.ctx? r = some { x with st := .done } ∧ (∀ q, q ≠ r → t.ctx? q = s.ctx? q) ∧
        t.wins = s.wins ∧ t.tiles = s.tiles ∧ SameBytes s t ∧
        ∀ q ch, s.route? r.tile (24 + r.ctx) = some q → s.chan? q = some ch →
          ∃ d m, s.cycle < d ∧ IsToken .done m ∧ t.chan? q = some { ch with flight := ch.flight ++ [(d, .item m)] }))

/-- The letter b stands first in the launch window of a READY device, l behind it; its effects are still to come, and no record of the loader waits (R262, R267). -/
def LetterFirst (s : State) (b : Beat) (l : List Beat) : Prop :=
  s.sec.ready = true ∧ s.eventWait = [] ∧ s.letterDone = false ∧ s.launchWin = b :: l ∧ s.launchBuf = [] ∧ s.launchHeld = [] ∧ l.length < 1024

/-- The fields of a letter (R263). -/
def letterKind (b : Beat) : Nat := b.toNat % 2 ^ 8
def letterTag (b : Beat) : Nat := b.toNat / 2 ^ 16 % 2 ^ 16
def letterBlock (b : Beat) : Nat := b.toNat / 2 ^ 160 % 2 ^ 16

/-- An event record of that kind and code, about that launch and block (R268). -/
def RecordIs (m : Beat) (kind code tag block : Nat) : Prop :=
  m.toNat % 2 ^ 8 = kind ∧ m.toNat / 2 ^ 8 % 2 ^ 8 = code ∧ m.toNat / 2 ^ 16 % 2 ^ 16 = tag ∧ m.toNat / 2 ^ 32 % 2 ^ 16 = block

/-- The letter is refused with that code and has no other effect: a LETTER_REFUSED record; the letter is done, and stays first until the record is filled (R262, R267, R269). -/
def Refused (i : Instr) (s : State) (b : Beat) (code : Nat) : Prop :=
  ∃ m, exec i s = .next { s with letterDone := true, eventWait := [m] } ∧ RecordIs m 6 code (letterTag b) (letterBlock b)

/-- Block n of launch tag holds, in t, the token at its end, with its arrival cycle; every other block and launch is as in s. -/
def TokenEnters (s t : State) (tag n : Nat) (w : BitVec 256) : Prop :=
  (∀ l b, tget s.launches tag = some l → l.blocks[n]? = some b →
    tget t.launches tag = some { l with blocks := l.blocks.set n { b with tokens := b.tokens ++ [(w, s.cycle)] } }) ∧
  (∀ k, k ≠ tag → tget t.launches k = tget s.launches k) ∧ t.sched = true

/-- The entry window of block n has room. -/
def EntryFree (s : State) (tag n : Nat) : Prop := ∃ l b, tget s.launches tag = some l ∧ l.blocks[n]? = some b ∧ b.tokens.length < b.entry

/-- The entry window of block n is full. -/
def EntryFull (s : State) (tag n : Nat) : Prop := ∃ l b, tget s.launches tag = some l ∧ l.blocks[n]? = some b ∧ b.entry ≤ b.tokens.length

/-- The launch is live, and no CANCEL of it is under way. -/
def Live (s : State) (tag : Nat) (l : Launch) : Prop := tget s.launches tag = some l ∧ l.live = true ∧ l.cancelled = false

/-- With a letter first in the launch window of a READY device: a kind that is not assigned is refused BAD_KIND; TOKEN, CANCEL and CLOSE of a launch that is not live, and RELEASE of one that is live or unknown, TAG_UNKNOWN; TOKEN of a block beyond the table BAD_BLOCK, into a full entry window it waits, with the cycle of its first try noted, and else its token enters the window. LAUNCH under a tag in use is refused TAG_BUSY; with a table and images that pass, room for the entry windows, an ASID and pool slots, the launch goes live with the next sequence number, its token in the entry window of BLOCK and OPEN as in the letter. CLOSE ends OPEN. CANCEL discards tokens and kills every context of a residency, and without residencies ends the launch with LAUNCH_DONE 1. RELEASE of an ended launch takes its tables and frees the tag. The window shrinks by one with a TOKEN, a CLOSE, a RELEASE and a LAUNCH without warnings; a letter with a record, or a CANCEL, stays first, its effects made, until the loader has done with it (R262). No die is in self-refresh where tables, images or lists are read. -/
def Obligations.LettersAreProcessed : Prop :=
  ∀ s b l, LetterFirst s b l →
  let tag := letterTag b
  let n := letterBlock b
  (letterKind b = 0 ∨ 5 < letterKind b → Refused .badKind s b 0x01) ∧
  (1 ≤ letterKind b → letterKind b ≤ 5 → exec .badKind s = .next s) ∧
  (letterKind b = 2 → ((∀ k, ¬ Live s tag k) → Refused .token s b 0x03) ∧ ∀ k, Live s tag k →
    (k.blocks.length ≤ n → Refused .token s b 0x04) ∧
    (EntryFull s tag n → exec .token s = .next { s with letterAt := some (s.letterAt.getD s.cycle) }) ∧
    (EntryFree s tag n → ∃ t, exec .token s = .next t ∧ TokenEnters s t tag n (b.extractLsb' 256 256) ∧ t.launchWin = l ∧
      t = { s with launches := t.launches, launchWin := l, letterAt := none, sched := true })) ∧
  (letterKind b = 4 → ((∀ k, ¬ Live s tag k) → Refused .close s b 0x03) ∧ ∀ k, Live s tag k → ∃ t, exec .close s = .next t ∧
    tget t.launches tag = some { k with opened := false } ∧ (∀ j, j ≠ tag → tget t.launches j = tget s.launches j) ∧
    t = { s with launches := t.launches, launchWin := l, letterAt := none }) ∧
  (letterKind b = 3 → ((∀ k, ¬ Live s tag k) → Refused .cancel s b 0x03) ∧ ∀ k, Live s tag k → s.queries = [] →
    (s.ress = [] → ∃ t m j, exec .cancel s = .next t ∧ tget t.launches tag = some j ∧ j.live = false ∧ j.blocks = [] ∧
      t.eventWait = [m] ∧ RecordIs m 3 1 tag 0 ∧ t.launchWin = b :: l ∧ t.letterDone = true) ∧
    (∀ rid rs, s.ress = [(rid, rs)] → rs.tag = tag → rs.st = .resident → ∃ t j r, exec .cancel s = .next t ∧ tget t.launches tag = some j ∧
      j.live = true ∧ j.cancelled = true ∧ (∀ q ∈ j.blocks, q.tokens = []) ∧ t.launchWin = b :: l ∧ t.letterDone = true ∧
      t.res? rid = some r ∧ r.killed = true ∧ r.batch = [] ∧
      ∀ q x, q.rid = rid → s.ctx? q = some x → ∃ y, t.ctx? q = some y ∧ (y.st = .done ∨ (x.st = .unbound ∧ y = x)))) ∧
  (letterKind b = 5 → ((∀ k, tget s.launches tag = some k → k.live = true) → Refused .release s b 0x03) ∧
    ∀ k, tget s.launches tag = some k → k.live = false → ∃ t, exec .release s = .next t ∧ tget t.launches tag = none ∧
      (∀ j, j ≠ tag → tget t.launches j = tget s.launches j) ∧ (∀ p ∈ t.roots, p.1.1 ≠ k.asid) ∧ (∀ p ∈ t.ledger, p.1 ≠ k.asid) ∧ t.launchWin = l ∧
      (s.invals = [] → s.accs = [] → s.selfRefresh = 0 → t.gen k.asid = (s.gen k.asid + 1) % 2 ^ 20 ∧ t.invals = [])) ∧
  (letterKind b = 1 → (∀ k, tget s.launches tag = some k → Refused .launch s b 0x02) ∧
    (tget s.launches tag = none → (b.toNat / 2 ^ 32 % 2 ^ 16 = 0 ∨ b.toNat / 2 ^ 32 % 2 ^ 16 ≤ n) → Refused .launch s b 0x07) ∧
    ∀ tb bl bl' a, tget s.launches tag = none →
      let blocks := b.toNat / 2 ^ 32 % 2 ^ 16
      let space := b.toNat / 2 ^ 128 % 2 ^ 4
      s.selfRefresh = 0 → lReserved b = false → 1 ≤ blocks → blocks ≤ 4096 → n < blocks → 1 ≤ space → space ≤ 3 →
      s.loaderRead space (b.toNat / 2 ^ 64 % 2 ^ 64) (32 * blocks) = (tb, true) → ((chunksOf 32 blocks tb).map (tblEntry blocks)).all (·.ok) = true →
      s.readImages ((chunksOf 32 blocks tb).map (tblEntry blocks)) 0 = .inl bl → s.placeEntries bl [] = some bl' → s.freeAsid = some a →
      poolNeed bl' ≤ s.freeSlots.length → ∃ t j, exec .launch s = .next t ∧ tget t.launches tag = some j ∧ j.live = true ∧ j.cancelled = false ∧
        j.seq = s.launchSeq ∧ t.launchSeq = s.launchSeq + 1 ∧ j.asid = a ∧ j.opened = b.getLsbD 8 ∧ j.blocks.length = bl'.length ∧
        (∀ i, i < bl'.length → ∀ q r, bl'[i]? = some q → j.blocks[i]? = some r → r.image = q.image ∧
          r.tokens = if i = n then q.tokens ++ [(b.extractLsb' 256 256, s.cycle)] else q.tokens) ∧
        (∀ i, i ≠ tag → tget t.launches i = tget s.launches i) ∧ t.sched = true ∧
        (t.eventWait = [] → t.launchWin = l) ∧ (t.eventWait ≠ [] → t.launchWin = b :: l ∧ t.letterDone = true))

/-- launchPortWrite of one whole aligned letter puts it last in the window, an unaligned write or one of no whole letters sets LAUNCH_ERR bit 0, which launchErrClear of a one clears. eventRecordFill moves the oldest record into the event window, with the cycle of the fill as TIME in a record of kind 1, 2, 3 or 6, raising vector 0 where it was empty, and waits while it is full; eventShrink drops n records and raises the vector again where some stay. tokenForward moves a forward into its entry window and threadTokenAccepted a posted token whose post then completes, each where there is room; without room both wait. A forward waits too while a post that reached the window in an earlier cycle waits there; where no post and no letter waits it goes (R270 orders the arrivals of one cycle; that those of earlier cycles go first is log 46's choice). ageStepExpiry asks for an evaluation every AGE_STEP cycles (where the hub's cycle counter is a multiple of it, log 46). blockScheduler without a request changes nothing; with one candidate that it can grant it makes the granted state, for a block a residency that takes min(W, BATCH) tokens; with none it ends the request. residencyEnd of a quiet residency whose work is over ends it, its contexts gone and its batch forwarded to the successor; one that is not quiet stays. launchDrained of a launch with no work left ends it with LAUNCH_DONE 0. -/
def Obligations.LaunchesRunAndEnd : Prop :=
  (∀ s off bs, s.arg = .data off bs →
    (s.sec.ready = true → off % 64 = 0 → bs.length = 64 → s.launchBuf = [] → s.launchHeld = [] → s.launchWin.length < 1024 → ∃ b : Beat,
      exec .launchPortWrite s = .next { s with launchWin := s.launchWin ++ [b] } ∧ ∀ k, k < 64 → byteNo b.toNat k = bs.getD k 0) ∧
    (off % 64 ≠ 0 ∨ bs.length % 64 ≠ 0 → exec .launchPortWrite s = .next { s with bar0 := { s.bar0 with launchErr := s.bar0.launchErr ||| 1 } })) ∧
  (∀ s off w, s.arg = .reg off w →
    exec .launchErrClear s = .next { s with bar0 := { s.bar0 with
      launchErr := if w.getLsbD 0 then s.bar0.launchErr &&& ~~~1 else s.bar0.launchErr } } ∧
    (let n := w.toNat % 2 ^ 11
     exec .eventShrink s = .next { s with eventWin := s.eventWin.drop n, msix := if n < s.eventWin.length then 0 :: s.msix else s.msix })) ∧
  (∀ s, (s.eventWait = [] ∨ 1024 ≤ s.eventWin.length → exec .eventRecordFill s = .next s) ∧
    ∀ b l, s.eventWait = b :: l → s.eventWin.length < 1024 → ∃ m : Beat, exec .eventRecordFill s = .next { s with
        eventWait := l, eventWin := s.eventWin ++ [m], msix := if s.eventWin = [] then 0 :: s.msix else s.msix } ∧
      let k := b.toNat % 2 ^ 8
      ((k = 1 ∨ k = 2 ∨ k = 3 ∨ k = 6) → m.toNat % 2 ^ 128 = b.toNat % 2 ^ 128 ∧ m.toNat / 2 ^ 192 = b.toNat / 2 ^ 192 ∧
        m.toNat / 2 ^ 128 % 2 ^ 64 = s.cycle % 2 ^ 64) ∧ (¬ (k = 1 ∨ k = 2 ∨ k = 3 ∨ k = 6) → m = b)) ∧
  (∀ s tag n w, s.forwards = [(tag, n, w)] →
    (EntryFull s tag n → exec .tokenForward s = .next s) ∧
    (EntryFree s tag n → (∀ p ∈ s.posts, ¬ (p.2.2.2.1 = tag ∧ p.2.2.2.2.1 = n)) → s.letterAt = none → ∃ t, exec .tokenForward s = .next t ∧ TokenEnters s t tag n w ∧
      t.forwards = [] ∧ t = { s with launches := t.launches, forwards := [], sched := true }) ∧
    (∀ d id r v c, s.posts = [(d, id, r, tag, n, v)] → s.fwdAt = [(tag, n, c)] → d < c → exec .tokenForward s = .next s)) ∧
  (∀ s r x d id tag n w, s.arg = .ctx r → s.posts = [(d, id, r, tag, n, w)] → d ≤ s.cycle → s.ctx? r = some x → x.wait = some .postSent →
    (EntryFull s tag n → exec .threadTokenAccepted s = .next s) ∧
    (EntryFree s tag n → ∃ t y, exec .threadTokenAccepted s = .next t ∧ TokenEnters s t tag n w ∧ t.posts = [] ∧ t.ctx? r = some y ∧ Past x y ∧
      OnlyContext s { t with launches := s.launches, posts := s.posts, sched := s.sched } r)) ∧
  (∀ s, (s.bar0.ageStep ≠ 0 → s.cycle % s.bar0.ageStep.toNat = 0 → exec .ageStepExpiry s = .next { s with sched := true }) ∧
    (1 < s.bar0.ageStep.toNat → s.cycle % s.bar0.ageStep.toNat ≠ 0 → exec .ageStepExpiry s = .next s)) ∧
  (∀ s, (s.sched = false → exec .blockScheduler s = .next s) ∧
    (s.sched = true → s.sec.ready = true → s.cands = [] → exec .blockScheduler s = .next { s with sched := false }) ∧
    ∀ c u, s.sched = true → s.sec.ready = true → s.cands = [c] → 0 < c.work → State.grantCand { s with sched := false } c = some u → u.cands = [] →
      exec .blockScheduler s = .next u ∧
      (c.rid = none → ∀ l b, tget s.launches c.tag = some l → l.blocks[c.block]? = some b → ∃ rs, u.res? s.nextRid = some rs ∧ rs.tag = c.tag ∧
        rs.block = c.block ∧ rs.asid = l.asid ∧ rs.st = .loading ∧ rs.batch = (b.tokens.take (min b.tokens.length b.image.batch)).map (·.1))) ∧
  (∀ s rid rs, s.arg = .id rid → s.res? rid = some rs →
    (s.quiet rid = false → exec .residencyEnd s = .next s) ∧
    (s.quiet rid = true → rs.st = .resident → rs.killed = false → s.over rid = false → exec .residencyEnd s = .next s) ∧
    (s.quiet rid = true → rs.st = .resident → rs.killed = false → s.over rid = true → ∃ t r, exec .residencyEnd s = .next t ∧
      t.res? rid = some r ∧ r.st = .ended ∧ (∀ q, q.rid = rid → t.ctx? q = none) ∧ (∀ q, q.rid ≠ rid → t.ctx? q = s.ctx? q) ∧ t.sched = true ∧
      ∀ l b, tget s.launches rs.tag = some l → l.blocks[rs.block]? = some b →
        t.forwards = s.forwards ++ (if b.succ = 0xFFFF then [] else rs.batch.map fun w => (rs.tag, b.succ, w)))) ∧
  (∀ s tag l, s.arg = .id tag → Live s tag l → s.queries = [] → s.forwards = [] → s.ress = [] →
    (l.opened = true ∨ (∃ b ∈ l.blocks, b.tokens ≠ []) → exec .launchDrained s = .next s) ∧
    (l.opened = false → (∀ b ∈ l.blocks, b.tokens = []) → ∃ t m j, exec .launchDrained s = .next t ∧ tget t.launches tag = some j ∧
      j.live = false ∧ t.eventWait = s.eventWait ++ [m] ∧ RecordIs m 3 0 (tag % 2 ^ 16) 0 ∧
      ∀ k, k ≠ tag → tget t.launches k = tget s.launches k))

/-- Each channel that an output of e leads to holds that marker on its link in t (R328). -/
def MarkersLeave (s t : State) (e : ElemRef) (m : Marker) : Prop :=
  ∀ el oc q, s.elem? e = some el → (oc, q) ∈ el.routes → ∀ c, s.route? e oc = some c →
    ∃ ch d, t.chan? c = some ch ∧ s.cycle < d ∧ (d, Fly.marker m) ∈ ch.flight

/-- Context r, which ran x between words, is frozen in t by that marker at the same pc with the same registers (R328, R360). -/
def FrozenBy (t : State) (r : CtxRef) (x : Ctx) (m : Marker) : Prop :=
  ∃ y, t.ctx? r = some y ∧ y.st = .frozen ∧ y.was = x.st ∧ y.pc = x.pc ∧ y.lc = x.lc ∧ y.loops = x.loops ∧ SameRegisters x y ∧
    y.preempted = (x.preempted || m == .round) ∧ y.stopped = (x.stopped || m == .cut)

/-- No row of a matrix word waits in the array of the tile. -/
def NoRows (s : State) (e : ElemRef) : Prop := ∀ t, s.tile? e = some t → t.rows = []

/-- roundMarker, at the first round or cut marker that has arrived on an input of an element, freezes it: contexts between words freeze at their pc with their registers, PREEMPTED or stopped, but for a supervisor at a cut and for one whose issue of this cycle is still to come; the marker leaves on every output with a route. At an element that has frozen it is only taken. checkpointMarker stops the generators of the element and, with nothing fetched ahead, goes on. A marker that has not arrived changes nothing, nor does one before which a token still waits in the network, while the element has not frozen (log 64's choice; that a context whose issue of the cycle is still to come freezes behind it rests on the order of log 10). regionStop, in the cycle after its cause, freezes every source and marks the region stopped. stopRelease of its number ends the stop: a context that the stop alone froze is in its state before, one that is trapped too stays FROZEN. -/
def Obligations.MarkersFreezeAndStopsEnd : Prop :=
  (∀ s c ch d m fl el, s.arg = .chan c → s.chan? c = some ch → ch.flight = (d, .marker m) :: fl → s.elem? c.at = some el → m = .round ∨ m = .cut →
    (s.cycle < d → exec .roundMarker s = .next s) ∧
    (d ≤ s.cycle → el.frozen ≠ none → ∃ t, exec .roundMarker s = .next t ∧ t = { s with chans := t.chans } ∧
      t.chan? c = some { ch with flight := fl } ∧ ∀ q, q ≠ c → t.chan? q = s.chan? q) ∧
    (el.frozen = none → ch.held ≠ [] → exec .roundMarker s = .next s) ∧
    (d ≤ s.cycle → el.frozen = none → ch.held = [] → ∃ t, exec .roundMarker s = .next t ∧ t.elem? c.at = some { el with frozen := some m } ∧
      (∀ q, q ≠ c.at → t.elem? q = s.elem? q) ∧ MarkersLeave s t c.at m ∧
      ((∀ p ∈ s.ctxs, p.2.wait = none) → SameBytes s t ∧ ∀ r, r.tile ≠ c.at → t.ctx? r = s.ctx? r) ∧
      ∀ r x, r.tile = c.at → s.ctx? r = some x → NoRows s c.at → s.exempt r m = false →
        x.st = .run ∧ s.issueDue r = false ∨ x.st = .idle ∨ x.st = .ready → x.freeze = [] → FrozenBy t r x m)) ∧
  (∀ s c ch d fl el, s.arg = .chan c → s.chan? c = some ch → ch.flight = (d, .marker .checkpoint) :: fl → s.elem? c.at = some el →
    (s.cycle < d → exec .checkpointMarker s = .next s) ∧
    (el.frozen = none → ch.held ≠ [] → exec .checkpointMarker s = .next s) ∧
    (d ≤ s.cycle → (ch.held = [] ∨ el.frozen ≠ none) → el.check = false → (∀ p ∈ s.gens, p.1.at = c.at → p.2.ahead = []) → ∃ t, exec .checkpointMarker s = .next t ∧
      t.elem? c.at = some { el with check := true } ∧ (∀ k g, k.at = c.at → s.gen? k = some g → t.gen? k = some { g with check := true }) ∧
      (∀ k, k.at ≠ c.at → t.gen? k = s.gen? k) ∧ t.ctxs = s.ctxs ∧ SameBytes s t ∧ MarkersLeave s t c.at .checkpoint)) ∧
  (∀ s rid rs d, s.arg = .id rid → s.res? rid = some rs → rs.cutDue = some d →
    (s.cycle < d → exec .regionStop s = .next s) ∧
    (d ≤ s.cycle → rs.st = .resident → ∃ t r, exec .regionStop s = .next t ∧ t.res? rid = some r ∧ r = { rs with stopped := true, cutDue := none } ∧
      (∀ e ∈ s.sources rid, ∀ el, s.elem? e = some el → el.frozen = none → t.elem? e = some { el with frozen := some .cut } ∧ MarkersLeave s t e .cut ∧
        ∀ q x, q.tile = e → s.ctx? q = some x → NoRows s e → x.sup = false →
          x.st = .run ∧ s.issueDue q = false ∨ x.st = .idle ∨ x.st = .ready → x.freeze = [] → FrozenBy t q x .cut) ∧
      ((∀ p ∈ s.ctxs, p.2.wait = none) → SameBytes s t))) ∧
  (∀ s off w, s.arg = .reg off w →
    ((∀ p ∈ s.ress, p.2.region ≠ w.toNat ∨ p.2.stopped = false) → exec .stopRelease s = .next s) ∧
    (∀ rid rs, s.ress = [(rid, rs)] → rs.region = w.toNat → rs.stopped = true → rs.deferredDrain = false → ∃ t, exec .stopRelease s = .next t ∧
      t.res? rid = some { rs with stopped := false, cutDue := none } ∧ SameBytes s t ∧
      (∀ e el, e.rid = rid → s.elem? e = some el → t.elem? e = some (if el.frozen = some .cut then { el with frozen := none } else el)) ∧
      (∀ r x, r.rid = rid → s.ctx? r = some x → x.st = .frozen → x.stopped = true →
        (x.trapped = false → x.byCtl = false → x.preempted = false → ∃ y, t.ctx? r = some y ∧ y.st = x.was ∧ y.pc = x.pc ∧ y.lc = x.lc ∧
          y.stopped = false ∧ SameRegisters x y) ∧
        (x.trapped = true → t.ctx? r = some { x with stopped := false })) ∧
      ∀ r, r.rid ≠ rid → t.ctx? r = s.ctx? r))

/-- drainComplete of a DRAINING region that is drained begins SAVING, its elements saved and its running contexts frozen, and else changes nothing. saveComplete writes the save area, which begins with VXDS and version 1, changes no other byte, counts the pre-emption in captures, and the region is SAVED and asks for an evaluation; of a region that is killed by then it saves nothing. No die of these is in self-refresh. lateData appends a beat to a saved channel with room, holds one without, and fills the window of a fill port; the records in the area of a SAVED region follow. restore ends with the region RESIDENT, its elements released, windows at HEAD 0 with the same elements, contexts that the marker froze in their state before, and trapped ones FROZEN with PREEMPTED 0. contextSwitch, at the unit's firing boundary, takes the selected context from the cache with registers and channel contents kept and no context DONE, starts a fetch of one that the store holds, or files a letter; away from the boundary it changes nothing. That the channels' slots stay and that select tokens act in order of arrival is log 44's choice. contextFetchDone caches the fetched context first, four in all. contextStoreAdd enters sound frames whole, and else records the error and leaves the store. -/
def Obligations.RegionsSaveAndRestore : Prop :=
  (∀ s rid rs, s.arg = .id rid → s.res? rid = some rs →
    (rs.st = .draining → s.drainedOut rid = false → exec .drainComplete s = .next s) ∧
    (rs.st = .draining → s.drainedOut rid = true → ∃ t r, exec .drainComplete s = .next t ∧ t.res? rid = some r ∧ r.st = .saving ∧
      (∀ e el, e.rid = rid → s.elem? e = some el → t.elem? e = some { el with saved := true }) ∧
      ∀ q x, q.rid = rid → s.ctx? q = some x → NoRows s q.tile → x.st = .run → s.issueDue q = false → FrozenBy t q x .round) ∧
    (rs.st = .saving → rs.killed = true → exec .saveComplete s = .next s) ∧
    (rs.st = .saving → rs.killed = false → s.selfRefresh = 0 → (∀ p ∈ s.ctxs, p.1.rid = rid → p.2.freeze = []) → MemoryCanonical s → ∀ a n, rs.saveArea = some (a, n) →
      ∃ t im, exec .saveComplete s = .next t ∧ im = t.saveImage rid s.cycle ∧ t.res? rid = some { rs with st := .saved, savedAt := s.cycle, dies := [], spills := [], cutDue := none } ∧
        (∀ k, k < im.length → t.gddr.get (a + k) = im.getD k 0) ∧ (∀ k, k < a ∨ a + im.length ≤ k → t.gddr.get k = s.gddr.get k) ∧
        t.gddr.word a 4 = 0x53445856 ∧ t.gddr.word (a + 4) 4 = 1 ∧ t.bulk = s.bulk ∧ t.host = s.host ∧ t.elems = s.elems ∧ t.sched = true ∧
        (∀ q, q.rid ≠ rid → t.ctx? q = s.ctx? q) ∧
        ∀ q x, q.rid = rid → s.ctx? q = some x → t.ctx? q = some { x with capture := x.capture.map fun c => { c with outn := c.outn + 1 } })) ∧
  (∀ s rid rs c it ch, s.arg = .id rid → s.res? rid = some rs → s.outbox = [(c, it)] → c.rid = rid → s.savedAt c = true → s.chan? c = some ch →
    it.slot = true → s.selfRefresh = 0 → MemoryCanonical s →
    let stands (t : State) : Prop := (rs.st ≠ .saved → t.gddr = s.gddr) ∧ ∀ a n, rs.st = .saved → rs.saveArea = some (a, n) →
      ∀ k, k < (t.saveImage rid rs.savedAt).length → t.gddr.get (a + k) = (t.saveImage rid rs.savedAt).getD k 0
    (ch.port = none → ch.free = 0 → ∃ t, exec .lateData s = .next t ∧ t = { s with gddr := t.gddr } ∧ stands t) ∧
    (ch.port = none → ch.free ≠ 0 → ∃ t, exec .lateData s = .next t ∧ t.chan? c = some { ch with items := ch.items ++ [it] } ∧
      (∀ q, q ≠ c → t.chan? q = s.chan? q) ∧ t = { s with chans := t.chans, outbox := [], gddr := t.gddr } ∧ stands t) ∧
    (∀ n w e, ch.port = some n → ch.items = [] → it.fault = none → it.sample = none → it.last = false → rs.killed = false →
      s.win? (c.at.win n) = some w → w.cap ≠ 0 → s.elem? c.at = some e → w.fill.toNat + 64 / w.size ≤ w.cap.toNat →
      ∃ t u, exec .lateData s = .next t ∧ t.win? (c.at.win n) = some u ∧ u.fill.toNat = w.fill.toNat + 64 / w.size ∧ u.cap = w.cap ∧ u.head = w.head ∧
        (∀ i j, i < 64 / w.size → j < w.size → storeByte t c.at (w.offAt (w.fill.toNat + i) + j) = byteNo it.beat.toNat (i * w.size + j)) ∧
        t.chan? c = some ch ∧ t.outbox = [] ∧ t.ctxs = s.ctxs ∧ stands t)) ∧
  (∀ s rid rs, s.arg = .id rid → s.res? rid = some rs → rs.st = .restoring → rs.killed = false → s.gens = [] → s.migrs = [] → s.outbox = [] → s.queries = [] →
    s.selfRefresh = 0 → MemoryCanonical s → ∀ wr w e, s.wins = [(wr, w)] → wr.rid = rid → s.elem? wr.at = some e → w.cap ≠ 0 → w.fill.toNat ≤ w.cap.toNat →
    ∃ t r u, exec .restore s = .next t ∧ t.res? rid = some r ∧ r.st = .resident ∧ r.stallCnt = 0 ∧
      t.win? wr = some u ∧ u.head = 0 ∧ u.fill = w.fill ∧ u.frozen = w.frozen ∧ u.cap = w.cap ∧
      (∀ k j, k < w.fill.toNat → j < w.size → storeByte t wr.at (u.offAt k + j) = storeByte s wr.at (w.offAt k + j)) ∧
      (∀ q el, q.rid = rid → t.elem? q = some el → el.saved = false ∧ el.frozen = none ∧ el.check = false) ∧
      ∀ q x, q.rid = rid → s.ctx? q = some x → x.st = .frozen → x.capture = none →
        (x.trapped = true → t.ctx? q = some { x with preempted := false }) ∧
        (x.trapped = false → x.byCtl = false → ∃ y, t.ctx? q = some y ∧ y.st = x.was ∧ y.pc = x.pc ∧ y.lc = x.lc ∧ y.preempted = false ∧
          SameRegisters x y)) ∧
  (∀ s e el rs v g gs, s.arg = .elem e → s.elem? e = some el → s.res? e.rid = some rs → el.select = (v, g) :: gs →
    (s.boundary e = false → exec .contextSwitch s = .next s) ∧
    (s.acts e = true → s.boundary e = true → el.fetch = none → (∀ p ∈ el.cache, p.1 ≠ g) →
      (s.storedGroup rs g = none → ∃ t, exec .contextSwitch s = .next t ∧ t.elem? e = some { el with select := gs } ∧ t.ctxs = s.ctxs ∧
        t.tiles = s.tiles ∧ t.chans = s.chans ∧ ∃ r l, t.res? e.rid = some r ∧ r.letters = rs.letters ++ [l] ∧
          l.body.toNat / 2 ^ 8 % 2 ^ 8 = tILLEGAL ∧ l.body.toNat / 2 ^ 128 % 2 ^ 64 = g % 2 ^ 64) ∧
      (s.storedGroup rs g ≠ none → ∃ t d, exec .contextSwitch s = .next t ∧ s.cycle < d ∧ t.elem? e = some { el with fetch := some (g, d) } ∧
        t.ctxs = s.ctxs ∧ t.tiles = s.tiles ∧ t.chans = s.chans)) ∧
    (∀ fs, s.acts e = true → s.boundary e = true → el.fetch = none → el.cache.find? (fun p => p.1 == g) = some (g, fs) →
      ∃ t k, exec .contextSwitch s = .next t ∧ t.elem? e = some k ∧ k.active = some g ∧ k.select = gs ∧ k.cache.head? = some (g, fs) ∧
        k.store = el.store ∧ t.wins = s.wins ∧
        (∀ q ch, s.chan? q = some ch → ∃ c, t.chan? q = some c ∧ c.items = ch.items ∧ c.slots = ch.slots) ∧
        ∀ q x, q.tile = e → s.ctx? q = some x → ∃ y, t.ctx? q = some y ∧ y.s = x.s ∧ y.v = x.v ∧ y.k = x.k ∧ y.c = x.c ∧
          y.flags = x.flags ∧ (el.kind = .tile → q.ctx < 8 → y.st ≠ .done)) ∧
    (∀ d h, el.fetch = some (h, d) →
      (s.cycle < d → exec .contextFetchDone s = .next s) ∧
      (d ≤ s.cycle → ∃ t k, exec .contextFetchDone s = .next t ∧ t.elem? e = some k ∧ k.fetch = none ∧
        k.cache = ((h, (s.storedGroup rs h).getD []) :: el.cache).take 4 ∧ t.ctxs = s.ctxs ∧ t.chans = s.chans))) ∧
  (∀ s rid rs bs, s.arg = .data rid bs → s.res? rid = some rs → rs.st = .resident → rs.image.compat = true →
    let im := parseImage bs
    let new := im.frames.filter fun f => f.grp.isSome || (f.kind == 4 && f.sub == 0x0F0)
    let old := (tget s.ctxStore (rs.tag, rs.block)).getD []
    let kept := old.filter fun f => !im.groups.contains (f.grp.getD f.elem)
    (crcErr im = none → sigErr s im = none → s.storeUsed - old.length + kept.length + new.length ≤ 262144 →
      ∃ t, exec .contextStoreAdd s = .next t ∧ tget t.ctxStore (rs.tag, rs.block) = some (kept ++ new) ∧
        (∀ k, k ≠ (rs.tag, rs.block) → tget t.ctxStore k = tget s.ctxStore k) ∧ t = { s with ctxStore := t.ctxStore }) ∧
    (crcErr im ≠ none ∨ sigErr s im ≠ none ∨ 262144 < s.storeUsed - old.length + kept.length + new.length →
      ∃ m code, exec .contextStoreAdd s = .next { s with eventWait := s.eventWait ++ [m] } ∧ m.toNat % 2 ^ 8 = 1 ∧ m.toNat / 2 ^ 8 % 2 ^ 8 = code))

/-- The access numbered id has left the dead letters in t: it is translated afresh, or waits for its walk or its port (R288). -/
def Replayed (t : State) (id : Nat) (a : Acc) : Prop :=
  ∃ b, b ∈ t.accs ∧ b.id = id ∧ b.va = a.va ∧ b.len = a.len ∧ b.data = a.data ∧ b.level = a.level ∧
    (b.place = .queued ∨ b.place = .parked ∨ ∃ k p, b.place = .phys k p)

/-- The table or frame that the entry at an address names: bits [55:12], in units of 256 bytes (R283). -/
def named (s : State) (k : Nat) : Nat := s.gddr.word k 8 / 2 ^ 12 % 2 ^ 44 * 2 ^ 8

/-- The entry at k is valid and names the table of the next level (R282, R283). -/
def Leads (s : State) (k : Nat) : Prop := s.gddr.word k 8 % 2 = 1 ∧ s.gddr.word k 8 / 2 ^ 5 % 4 = 0

/-- The five entries that a walk of a launch-half address reads, from its ASID's root to the 64 KiB page's: levels of 9, 9, 9, 9 and 5 bits (R282). -/
def EntryPath (s : State) (asid : Nat) (bulk : Bool) (va : Nat) (l : List Nat) : Prop :=
  ∃ root a b c d e, tget s.roots (asid, bulk) = some root ∧ l = [a, b, c, d, e] ∧ a = root + 8 * (va / 2 ^ 48 % 2 ^ 9) ∧ Leads s a ∧
    b = named s a + 8 * (va / 2 ^ 39 % 2 ^ 9) ∧ Leads s b ∧ c = named s b + 8 * (va / 2 ^ 30 % 2 ^ 9) ∧ Leads s c ∧
    d = named s c + 8 * (va / 2 ^ 21 % 2 ^ 9) ∧ Leads s d ∧ e = named s d + 8 * (va / 2 ^ 16 % 2 ^ 5)

/-- The entry at k is a well-formed leaf of 64 KiB (R283). -/
def GoodLeaf (s : State) (k : Nat) : Prop :=
  let w := s.gddr.word k 8
  w % 2 = 1 ∧ w / 2 ^ 5 % 4 = 1 ∧ w / 2 ^ 7 % 4 < 2 ∧ w / 2 ^ 10 % 4 = 0 ∧ w / 2 ^ 59 = 0 ∧ named s k % 2 ^ 16 = 0

/-- What a page-table entry permits an access: A an atomic, W a write, R a read (R283). -/
def Permits (w : Nat) (a : Acc) : Prop := if a.atomic then w / 2 ^ 3 % 2 = 1 else if a.write then w / 2 ^ 2 % 2 = 1 else w / 2 % 2 = 1

/-- Every byte of GDDR but the eight at k and those that f excepts, and all of bulk and host memory, read in t as in s. -/
def EntryWritten (s t : State) (k : Nat) (f : Nat → Prop) : Prop :=
  (∀ j, ¬ (k ≤ j ∧ j < k + 8) → ¬ f j → t.gddr.get j = s.gddr.get j) ∧ t.bulk = s.bulk ∧ t.host = s.host

/-- pageWalkDone of a launch-half access walks its ASID's five levels in GDDR: an entry that is a well-formed leaf, is not held, has the right target and permits the access gives the place frame + offset, and the port's TLB an entry first; no root, no valid entry, a held one, a denied one make it a dead letter ABSENT, HELD, DENIED, queued at its port; a root's table in GDDR in self-refresh lets the walk wait. The loader's launch tables hold 64 KiB pages only (log 7). deadLetterResolve waits while the page moves, replays an entry whose page has moved, completes one of a killed region with no memory change, records a shared-half fault once in the host queue of 1,024 with vector 1, starts a page-in, and makes any other entry fatal: a load traps ISLAND_STATUS with the address and 0x100 + outcome. faultHead takes the oldest record, unless an earlier letter is held back, when it comes again a cycle later; faultAnswer replays the entries of its page or, refusing, makes them fatal. spillWriteRetry moves its entry to the spill area, or waits 4,096 cycles more. migration sets L in the page's entry and invalidates, copies data to the new frame and rewrites the entry, and replays. invalGo drops the TLB entries of the range, and no others where its ends lie in pages of 64 KiB, once no translated access is owed, and until then stays pending. -/
def Obligations.WalksResolveAndMigrate : Prop :=
  (∀ s id a, s.arg = .id id → TheAccess s id a → a.place = .parked → s.invals = [] →
    (s.cycle < a.due → exec .pageWalkDone s = .next s) ∧
    (a.due ≤ s.cycle → a.va / 2 ^ 56 % 2 = 0 → (s.port a.port).deadq.length < 256 →
      let dead (m : Miss) : Prop := ∃ t b, exec .pageWalkDone s = .next t ∧ b ∈ t.accs ∧ b = { a with place := .dead m } ∧
        (t.port a.port).deadq = (s.port a.port).deadq ++ [id] ∧ t.ctxs = s.ctxs
      (tget s.roots (a.asid, a.bulk) = none → dead .absent) ∧
      (∀ root, tget s.roots (a.asid, a.bulk) = some root → s.selfRefresh.getLsbD ((root + 8 * (a.va / 2 ^ 48 % 2 ^ 9)) / 2 ^ 35) = true →
        exec .pageWalkDone s = .next s) ∧
      (s.selfRefresh = 0 → ∀ a1 a2 a3 a4 k, EntryPath s a.asid a.bulk a.va [a1, a2, a3, a4, k] →
        let e := s.gddr.word k 8
        let tgt := e / 2 ^ 7 % 4
        (e % 2 = 0 → dead .absent) ∧
        (GoodLeaf s k → e / 2 ^ 4 % 2 = 1 → dead .held) ∧
        (GoodLeaf s k → e / 2 ^ 4 % 2 = 0 → ¬ Permits e a → dead .denied) ∧
        (GoodLeaf s k → e / 2 ^ 4 % 2 = 0 → Permits e a → a.bulk = false → tgt = 1 → dead .absent) ∧
        (GoodLeaf s k → e / 2 ^ 4 % 2 = 0 → Permits e a → tgt = (if a.bulk then 1 else 0) → ∃ t b l, exec .pageWalkDone s = .next t ∧
          b ∈ t.accs ∧ b.id = id ∧ b.va = a.va ∧ b.place = .phys a.bulk (named s k + a.va % 2 ^ 16) ∧ t.ctxs = s.ctxs ∧
          (t.port a.port).tlb.head? = some l ∧ l.asid = a.asid ∧ l.bulkTbl = a.bulk ∧ l.va = a.va / 2 ^ 16 ∧ l.size = 2 ^ 16 ∧ l.bulk = a.bulk ∧
          l.phys = named s k ∧ (l.r = true ↔ e / 2 % 2 = 1) ∧ (l.w = true ↔ e / 2 ^ 2 % 2 = 1) ∧ (l.a = true ↔ e / 2 ^ 3 % 2 = 1))))) ∧
  (∀ s id a m, s.arg = .id id → TheAccess s id a → a.place = .dead m →
    let moving : Prop := ∃ g ∈ s.migrs, g.page = a.page
    (m = .held → moving → exec .deadLetterResolve s = .next s) ∧
    (m = .held → ¬ moving → ∃ t, exec .deadLetterResolve s = .next t ∧ Replayed t id a ∧ t.ctxs = s.ctxs) ∧
    (∀ rs, s.res? a.rid = some rs → rs.killed = true → m ≠ .held → (∀ c k, a.purpose ≠ .unit c k) →
      ∃ t, exec .deadLetterResolve s = .next t ∧ t.acc? id = none ∧ t.ctxs = s.ctxs ∧ t.faultq = s.faultq ∧ SameBytes s t) ∧
    let alive : Prop := ∀ rs, s.res? a.rid = some rs → rs.killed = false
    (m = .absent ∨ m = .denied → alive → a.va / 2 ^ 56 % 2 = 1 →
      (a.asked = true ∨ 1024 ≤ s.faultq.length → exec .deadLetterResolve s = .next s) ∧
      (a.asked = false → s.faultq.length < 1024 → a.asid < 2 ^ 12 → ∃ t r, exec .deadLetterResolve s = .next t ∧ t.faultq = s.faultq ++ [r] ∧
        r.toNat % 2 ^ 41 = a.va / 2 ^ 16 % 2 ^ 41 ∧ r.toNat / 2 ^ 56 % 2 ^ 12 = a.asid ∧ r.getLsbD 80 = a.bulk ∧ r.getLsbD 81 = a.write ∧
        r.getLsbD 82 = a.atomic ∧ t.msix = 1 :: s.msix ∧ t.ctxs = s.ctxs ∧ ∃ b ∈ t.accs, b = { a with asked := true })) ∧
    (m = .absent → alive → a.va / 2 ^ 56 % 2 = 0 → a.bulk = false → s.selfRefresh = 0 →
      ∀ a1 a2 a3 a4 k, EntryPath s a.asid false (a.va / 2 ^ 16 * 2 ^ 16) [a1, a2, a3, a4, k] → GoodLeaf s k →
      let tgt := s.gddr.word k 8 / 2 ^ 7 % 4
      (moving → exec .deadLetterResolve s = .next s) ∧
      (¬ moving → tgt = 1 → exec .deadLetterResolve s = .next { s with migrs := s.migrs ++ [{ page := a.page }] }) ∧
      (¬ moving → tgt ≠ 1 → ∃ t, exec .deadLetterResolve s = .next t ∧ Replayed t id a ∧ t.ctxs = s.ctxs)) ∧
    (m = .malformed → alive → ∀ r x, a.purpose = .load → a.issuer = .ctx r → s.ctx? r = some x → x.wait = some (.load id) → ∃ t y,
      exec .deadLetterResolve s = .next t ∧ t.ctx? r = some y ∧ y.st = .frozen ∧ y.trapped = true ∧ y.trapCode = BitVec.ofNat 64 tISLAND_STATUS ∧
      y.info0 = BitVec.ofNat 64 a.va ∧ y.info1 = 0x102 ∧ y.pc = x.pc ∧ t.acc? id = none ∧ t.gddr = s.gddr ∧ t.bulk = s.bulk)) ∧
  (∀ s, (s.launchHeld = [] → exec .faultHead s = .next { s with faultq := s.faultq.drop 1 }) ∧
    (s.launchHeld ≠ [] → exec .faultHead s = .next { s with inputs := (s.cycle + 1, .faultHead, s.arg) :: s.inputs })) ∧
  (∀ s off w a, s.arg = .reg off w → s.accs = [a] → a.place = .dead .absent ∨ a.place = .dead .denied → a.va / 2 ^ 56 % 2 = 1 →
    (a.va / 2 ^ 16 % 2 ^ 41 ≠ w.toNat % 2 ^ 41 → ∃ t, exec .faultAnswer s = .next t ∧ t.accs = s.accs ∧ t.ctxs = s.ctxs) ∧
    (a.va / 2 ^ 16 % 2 ^ 41 = w.toNat % 2 ^ 41 → a.bulk = w.getLsbD 41 →
      (w.getLsbD 63 = false → ∃ t, exec .faultAnswer s = .next t ∧ Replayed t a.id a ∧ t.ctxs = s.ctxs) ∧
      (w.getLsbD 63 = true → ∀ r x, a.purpose = .load → a.issuer = .ctx r → s.ctx? r = some x → x.wait = some (.load a.id) → ∃ t y,
        exec .faultAnswer s = .next t ∧ t.ctx? r = some y ∧ y.trapCode = BitVec.ofNat 64 tISLAND_STATUS ∧ y.info1 = 0x103 ∧ t.accs = []))) ∧
  (∀ s id a d, s.arg = .id id → s.acc? id = some a → (s.port a.port).retry = [(id, d)] →
    let x := s.port a.port
    (s.cycle < d → exec .spillWriteRetry s = .next s) ∧
    (d ≤ s.cycle → s.spillFails a.port = true → ∃ t, exec .spillWriteRetry s = .next t ∧ t = { s with ports := t.ports } ∧
      t.port a.port = { x with retry := [(id, s.cycle + 4096)] }) ∧
    (d ≤ s.cycle → s.spillFails a.port = false → ∃ t, exec .spillWriteRetry s = .next t ∧ (t.port a.port).retry = [] ∧
      (t.port a.port).spill = x.spill ++ [id] ∧ (t.port a.port).deadq = x.deadq.filter (· ≠ id) ∧ t.ctxs = s.ctxs ∧ t.accs = s.accs)) ∧
  (∀ s p m a1 a2 a3 a4 k, s.arg = .page p → s.migrs = [m] → m.page = p → s.selfRefresh = 0 → p.vpage < 2 ^ 40 → MemoryCanonical s →
    EntryPath s p.asid p.bulk (p.vpage * 2 ^ 16) [a1, a2, a3, a4, k] → GoodLeaf s k → (∀ q ∈ [a1, a2, a3, a4], q + 8 ≤ k ∨ k + 8 ≤ q) →
    s.accs = [] → s.invals = [] → s.gens = [] →
    let e := s.gddr.word k 8
    (m.stage = 1 ∨ m.stage = 3 → exec .migration s = .next s) ∧
    (m.stage = 0 → ∀ a, m.target = some a → ∃ t, exec .migration s = .next t ∧ t.gddr.word k 8 = e + (if e / 2 ^ 4 % 2 = 0 then 2 ^ 4 else 0) ∧
      EntryWritten s t k (fun _ => False) ∧ t.migrs = [{ m with stage := 2 }] ∧ t.ctxs = s.ctxs ∧ t.ledger = s.ledger) ∧
    (m.stage = 2 → ∀ a, m.target = some a → e / 2 ^ 7 % 4 = 1 → a < 2 ^ 52 → a % 2 ^ 16 = 0 → (∀ q ∈ [a1, a2, a3, a4, k], q + 8 ≤ a ∨ a + 2 ^ 16 ≤ q) →
      ∃ t, exec .migration s = .next t ∧ named t k = a ∧
        (let w := t.gddr.word k 8
         w % 2 ^ 4 = e % 2 ^ 4 ∧ w / 2 ^ 4 % 2 = 0 ∧ w / 2 ^ 5 % 4 = 1 ∧ w / 2 ^ 7 % 4 = 0 ∧ w / 2 ^ 9 % 8 = e / 2 ^ 9 % 8 ∧ w / 2 ^ 56 = e / 2 ^ 56) ∧
        (∀ j, j < 2 ^ 16 → t.gddr.get (a + j) = s.bulk.get (named s k + j)) ∧ EntryWritten s t k (fun j => a ≤ j ∧ j < a + 2 ^ 16) ∧
        (∀ u, u < 2 ^ 12 → (a / 16 + u ∈ t.gddrTags ↔ named s k / 16 + u ∈ s.bulkTags)) ∧ t.migrs = [{ m with stage := 4 }] ∧
        t.ledger = (p.asid, false, a) :: s.ledger.erase (p.asid, true, named s k) ∧ t.ctxs = s.ctxs) ∧
    (m.stage = 4 → ∃ t, exec .migration s = .next t ∧ t.migrs = [] ∧ t.ledger = s.ledger ∧ t.ctxs = s.ctxs ∧ SameBytes s t)) ∧
  (∀ s off w, s.arg = .reg off w →
    let lo := s.bar0.invalStart.toNat / 2 ^ 16 * 2 ^ 16
    let hi := (s.bar0.invalStart.toNat + s.bar0.invalLength.toNat + 2 ^ 16 - 1) / 2 ^ 16 * 2 ^ 16
    (w.getLsbD 0 = false ∨ s.bar0.invalLength = 0 → exec .invalGo s = .next s) ∧
    (w.getLsbD 0 = true → s.bar0.invalLength ≠ 0 → s.invals = [] →
      (∀ a ∈ s.accs, ∀ k q, a.place = .phys k q → a.level < 2 → a.va < hi → lo < a.va + a.len →
        ∃ t, exec .invalGo s = .next t ∧ t.bar0.invalGo = 1 ∧ t.invals ≠ []) ∧
      (s.accs = [] → s.selfRefresh = 0 → ∃ t, exec .invalGo s = .next t ∧ t.bar0.invalGo = 0 ∧ t.invals = [] ∧ t.ctxs = s.ctxs ∧
        (∀ p l, l ∈ (t.port p).tlb → l ∈ (s.port p).tlb ∧ ¬ (l.va * l.size < hi ∧ lo < (l.va + 1) * l.size)) ∧
        ((∀ va r, va = lo ∨ va = hi - 1 → r = s.bar0.sharedRootMain.toNat ∨ r = s.bar0.sharedRootBulk.toNat → leafShift s.gddr va 5 1 r = 16) →
          ∀ p l, (l ∈ (t.port p).tlb ↔ l ∈ (s.port p).tlb ∧ ¬ (l.va * l.size < hi ∧ lo < (l.va + 1) * l.size))))))

/-- trapLetterDelivery passes the letter of a region without a supervisor to the host event window, fills that of one whose supervisor has filed no letter of its own into its window, and waits there where the window is full. stallWatchDeclare acts once STALL_CNT reaches DL_QUIET in an armed resident region: it disarms the watch, with a report whose header has KIND 5 where the stuck set is not empty and none else. linkRetry counts a soft error and a retry, or ends the count: which argument says which, and that a link's soft errors count for its die, is log 41's choice. linkDown after 1,024 retries takes the link out of service with a LINK_DOWN record, and before changes nothing. regionKill kills every context and files one letter ECC_UNCORR with KILLED for the host. linkBrk arms one of four link breakpoints with its count at 0. captureStart notes the counters of its context; captureStop of a capture writes its record of three elements to the trace ring, or counts it as dropped without room, whose measure is log 27's. -/
def Obligations.LettersLinksAndCaptures : Prop :=
  (∀ s rid rs l, s.arg = .id rid → s.res? rid = some rs → rs.letters = [l] → rs.report = [] → l.cycle < s.cycle → l.host = false → rs.supLost = none →
    (rs.supWin = none → ∃ t, exec .trapLetterDelivery s = .next t ∧ t.eventWait = s.eventWait ++ [l.body] ∧ t.res? rid = some { rs with letters := [] } ∧
      t.ctxs = s.ctxs ∧ t.wins = s.wins ∧ SameBytes s t) ∧
    (∀ e c n x w el, rs.supWin = some (e, c, n) → rs.st = .resident → rs.killed = false → s.ctx? ⟨rid, e, c⟩ = some x →
      x.st = .run ∨ x.st = .idle ∨ x.st = .ready ∨ x.st = .wait → s.win? ⟨rid, e, n⟩ = some w → w.cap ≠ 0 → w.esz = 5 → w.waiters = [] →
      s.elem? ⟨rid, e⟩ = some el → el.saved = false → MemoryCanonical s →
      (w.frozen = false → w.fill.toNat + w.shrinkNow < w.cap.toNat → ∃ t, exec .trapLetterDelivery s = .next t ∧ t.res? rid = some { rs with letters := [] } ∧
        Stored s t ⟨rid, e⟩ w w.fill.toNat 1 (fun _ j => byteNo l.body.toNat j) ∧ t.eventWait = s.eventWait ∧ t.ctxs = s.ctxs) ∧
      (w.frozen = true ∨ w.cap.toNat ≤ w.fill.toNat + w.shrinkNow → ∃ t, exec .trapLetterDelivery s = .next t ∧
        t.win? ⟨rid, e, n⟩ = some { w with waiters := [.letter] } ∧ t.res? rid = some rs ∧ t.eventWait = s.eventWait ∧ t.ctxs = s.ctxs ∧ SameBytes s t))) ∧
  (∀ s rid rs, s.arg = .id rid → s.res? rid = some rs →
    (rs.st ≠ .resident ∨ rs.stopped = true ∨ rs.armed = false ∨ rs.stallCnt.toNat < rs.dlQuiet.toNat → exec .stallWatchDeclare s = .next s) ∧
    (rs.st = .resident → rs.stopped = false → rs.armed = true → rs.dlQuiet.toNat ≤ rs.stallCnt.toNat → ∃ t rep, exec .stallWatchDeclare s = .next t ∧
      t = { s with ress := t.ress } ∧ t.res? rid = some { rs with armed := false, report := rep } ∧ (s.stuckSet rid = [] → rep = []) ∧
      (s.stuckSet rid ≠ [] → ∃ h l, rep = h :: l ∧ h.toNat % 2 ^ 8 = 5 ∧ h.toNat / 2 ^ 8 % 2 ^ 8 = 0 ∧ h.toNat / 2 ^ 16 % 2 ^ 16 = rs.tag % 2 ^ 16))) ∧
  (∀ s (k : LinkRef), s.arg = .link k → k.die < 8 →
    (∃ t, exec .linkRetry s = .next t ∧ tget t.retries k = some ((tget s.retries k).getD 0 + 1) ∧ t = { s with bar0 := t.bar0, retries := t.retries } ∧
      ∀ d : Fin 8, t.bar0.softDie.get d = if d.val = k.die then s.bar0.softDie.get d + 1 else s.bar0.softDie.get d) ∧
    ((tget s.retries k).getD 0 < 1024 ∨ k ∈ s.linksDown → exec .linkDown s = .next s) ∧
    (1024 ≤ (tget s.retries k).getD 0 → k ∉ s.linksDown → s.ress = [] → ∃ t m, exec .linkDown s = .next t ∧ t.linksDown = k :: s.linksDown ∧
      tget t.retries k = none ∧ t.eventWait = s.eventWait ++ [m] ∧ m.toNat % 2 ^ 8 = 4 ∧ m.toNat / 2 ^ 8 % 2 ^ 8 = 0x22)) ∧
  (∀ s (p : PortRef), s.arg = .port p → ∃ t, exec .linkRetry s = .next t ∧ t = { s with retries := t.retries } ∧ tget t.retries ⟨p.die, p.port⟩ = none ∧
    ∀ k, k ≠ ⟨p.die, p.port⟩ → tget t.retries k = tget s.retries k) ∧
  (∀ s (e : ElemRef) who rs, s.arg = .kill e who → s.res? e.rid = some rs →
    (rs.killed = true ∨ rs.st = .ended → exec .regionKill s = .next s) ∧
    (rs.killed = false → rs.st = .resident → ∃ t r l, exec .regionKill s = .next t ∧ t.res? e.rid = some r ∧ r.killed = true ∧ r.batch = [] ∧
      r.letters = rs.letters ++ [l] ∧ l.host = true ∧ l.body.toNat / 2 ^ 8 % 2 ^ 8 = tECC_UNCORR ∧ l.body.getLsbD 113 = true ∧ t.launches = s.launches ∧
      ∀ q x, q.rid = e.rid → s.ctx? q = some x → ∃ y, t.ctx? q = some y ∧ (y.st = .done ∨ (x.st = .unbound ∧ y = x)))) ∧
  (∀ s off w (i : Fin 4), s.arg = .reg off w → off = 0x440 + 8 * i.val → ∃ t, exec .linkBrk s = .next t ∧
    t = { s with bar0 := { s.bar0 with linkBrk := t.bar0.linkBrk }, brkCnt := t.brkCnt } ∧ t.brkCnt.get i = 0 ∧
    t.bar0.linkBrk.get i = w &&& 0xFFFFFF1FFFFFFFFF ∧
    ∀ j, j ≠ i → t.bar0.linkBrk.get j = s.bar0.linkBrk.get j ∧ t.brkCnt.get j = s.brkCnt.get j) ∧
  (∀ s off w r x, s.arg = .reg off w → s.captureCtx w = some r → s.ctx? r = some x →
    (w.getLsbD 40 = false → ∃ t c, exec .captureStart s = .next t ∧ t = { s with ctxs := t.ctxs } ∧ t.ctx? r = some { x with capture := some c } ∧
      c.pmc = x.pmc.toList ∧ c.cycle = x.cycleCnt ∧ c.out = 0 ∧ c.outn = 0 ∧ ∀ q, q ≠ r → t.ctx? q = s.ctx? q) ∧
    (w.getLsbD 40 = true → x.capture = none → exec .captureStop s = .next s) ∧
    (∀ c, w.getLsbD 40 = true → x.capture = some c →
      let b := s.bar0
      let n := b.traceSize.toNat
      let h := b.traceHead.toNat
      (b.traceRoom < 3 → ∃ t, exec .captureStop s = .next t ∧ t.dropCnt = s.dropCnt + 1 ∧ t.bar0 = s.bar0 ∧ t.host = s.host ∧
        t.ctx? r = some { x with capture := none }) ∧
      (3 ≤ b.traceRoom → MemoryCanonical s → ∃ t, exec .captureStop s = .next t ∧ t.bar0 = { s.bar0 with traceHead := BitVec.ofNat 64 ((h + 3) % n) } ∧
        t.ctx? r = some { x with capture := none } ∧ t.dropCnt = s.dropCnt ∧
        ∀ i k m, i < 3 → k < 64 → (s.captureRecord r x c)[i]? = some m → t.host.get (b.traceBase.toNat + 64 * ((h + i) % n) + k) = byteNo m.toNat k)))

/-- The machine after its power has gone: every field at its value at reset, but for the fuses, the host's memory and what the outside does next, and the two counters of the model (R5; the counters are the model's own). -/
def FusesOnly (s t : State) : Prop :=
  t = { State.reset with
        host := s.host, inputs := s.inputs, nature := s.nature, serial := s.serial,
        sec := { life := s.sec.life, revoked := s.sec.revoked, dbgRevoked := s.sec.dbgRevoked, resets := s.sec.resets + 1,
                 bootStage := t.sec.bootStage } }

/-- The length of a change of power state of one die in cycles of 2.7 GHz (R375; a change the table does not time takes none). -/
def transit (a b : Power) : Nat :=
  match a, b with
  | .run, .idle => 5400
  | .idle, .run => 5400
  | .run, .park => 135000
  | .idle, .park => 135000
  | .park, .run => 5400000
  | _, _ => 0

/-- A residency holds a site on the die, or a pool object is configured (R375). -/
def Occupied (s : State) (d : Nat) : Prop :=
  (∃ p ∈ s.ress, p.2.st.holds = true ∧ ∃ q ∈ p.2.dies, q.1 = d) ∨ ∃ p ∈ s.pools, p.2.configured ≠ none

/-- The command is refused with that error, and changes nothing else (R375). -/
def PowerRefused (i : Instr) (s : State) (e : BitVec 3) : Prop := exec i s = .next { s with powerErr := e }

/-- The command is under way: PEND reads 1 and ERR 0 until its due cycle (R374, R375). -/
def PowerGoes (i : Instr) (s : State) (d : Fin 8) (goal : Power) (sr : Bool) : Prop :=
  ∃ t c, exec i s = .next t ∧ t = { s with powerCmd := some c, powerErr := 0, bar0 := t.bar0 } ∧ c.die = d.val ∧ c.goal = goal ∧ c.sr = sr ∧
    c.due = s.cycle + max (transit (s.power.get d) goal) (if sr = s.selfRefresh.getLsbD d.val then 0 else 27000) ∧
    t.bar0 = if goal = .run then { s.bar0 with tripped := false } else s.bar0

/-- What the security root asks of a firmware (R366); its format is the configuration's. -/
def FirmwareGood (s : State) (h : BitVec 384) (v : Nat) : Prop :=
  ∃ sig key, Config.fwParse (s.host.read s.bar0.fwAddr.toNat s.bar0.fwLen.toNat) = (sig, key, v) ∧
    h = Config.sha384 (s.host.read s.bar0.fwAddr.toNat s.bar0.fwLen.toNat) ∧ Config.ecdsaOk h sig key = true ∧
    Config.sha384 key = Config.fwKey ∧ Config.fwMinVersion ≤ v ∧ (s.sec.life = .provisioned ∨ s.sec.life = .field)

/-- powerOn, conventionalReset and devReset of 0x5253 leave every field at its reset value but the fuses (and what lies outside the device) and begin stage 1; devReset of another value changes nothing; powerRemoval leaves the fuses with no stage begun. bootStageComplete of stages 1 to 6 begins the next, stage 6 having zeroed both memories and their tags, or, on failure, sets BOOT_ERR to the stage with vector 3; behind stage 6, stage 7 begins once FW_LOAD has been written, and its end sets READY, FW_OK and the measurement of an accepted firmware, or BOOT_ERR 7. powerRun and powerIdle act on their own STATE codes, powerPark on its own and on 3, and none acts in the cycle of a trip: BUSY while PEND is set, BAD for STATE 3, BUSY for IDLE or PARK of an occupied die, BAD for SR with RUN, HOT for RUN with a die above 95 degrees while tripped, and else the transition is under way for the longer of its times (PARK to IDLE is refused BAD, the choice of log 42). powerTransitionDone sets state and SR of its die at the due cycle, with vector 2. thermalTrip below 105 degrees notes its die's temperature; at it, tripped before or not, with no launch left, TRIPPED and the die are set, every die is parked in self-refresh and vector 2 is raised. -/
def Obligations.BringUpPowerAndTheTrip : Prop :=
  (∀ s, ∃ t, FusesOnly s t ∧ t.sec.bootStage = 1 ∧ exec .powerOn s = .next t ∧ exec .conventionalReset s = .next t ∧
    ∀ off w, s.arg = .reg off w → (w = 0x5253 → exec .devReset s = .next t) ∧ (w ≠ 0x5253 → exec .devReset s = .next s)) ∧
  (∀ s, ∃ t, FusesOnly s t ∧ t.sec.bootStage = 0 ∧ exec .powerRemoval s = .next t) ∧
  (∀ s off w, s.arg = .reg off w → (w = 1 → exec .fwLoad s = .next { s with
      bar0 := { s.bar0 with fwLoad := 1 }, sec := if s.sec.awaitFw then { s.sec with bootStage := 7, awaitFw := false } else s.sec }) ∧
    (w ≠ 1 → exec .fwLoad s = .next s)) ∧
  (∀ s ok, s.arg = .bool ok →
    let n := s.sec.bootStage.toNat
    (n = 0 ∨ s.sec.bootErr ≠ 0 ∨ s.sec.ready = true ∨ s.sec.awaitFw = true → exec .bootStageComplete s = .next s) ∧
    (s.sec.bootErr = 0 → s.sec.ready = false → s.sec.awaitFw = false →
      (1 ≤ n → n ≤ 6 → ok = false → ∃ t, exec .bootStageComplete s = .next t ∧ t.sec = { s.sec with bootErr := t.sec.bootErr } ∧ t.sec.bootErr.toNat = n ∧
        t.msix = 3 :: s.msix ∧ t.gddr = s.gddr ∧ t.bulk = s.bulk) ∧
      (1 ≤ n → n ≤ 5 → ok = true → ∃ t, exec .bootStageComplete s = .next t ∧ t.sec.bootStage.toNat = n + 1 ∧
        t = { s with sec := { s.sec with bootStage := t.sec.bootStage } }) ∧
      (n = 6 → ok = true → exec .bootStageComplete s = .next { s with
        sec := if s.bar0.fwLoad = 1 then { s.sec with bootStage := 7, awaitFw := false } else { s.sec with awaitFw := true },
        gddr := [], bulk := [], gddrTags := [], bulkTags := [], badMem := [], badBulk := [] }) ∧
      (n = 7 →
        (∀ h v, FirmwareGood s h v → exec .bootStageComplete s = .next { s with
          sec := { s.sec with fwOk := true, ready := true, measurement := h, fwVersion := v },
          bar0 := { s.bar0 with fwLoad := 0 }, msix := 3 :: s.msix }) ∧
        ((∀ h v, ¬ FirmwareGood s h v) → exec .bootStageComplete s = .next { s with
          sec := { s.sec with bootErr := 7 }, bar0 := { s.bar0 with fwLoad := 0 }, msix := 3 :: s.msix })))) ∧
  (∀ s off w (d : Fin 8), s.arg = .reg off w → d.val = w.toNat % 8 →
    let code := w.toNat / 2 ^ 4 % 4
    let sr := w.getLsbD 8
    let mine : Instr := if code = 0 then .powerRun else if code = 1 then .powerIdle else .powerPark
    (code ≠ 0 → exec .powerRun s = .next s) ∧ (code ≠ 1 → exec .powerIdle s = .next s) ∧ (code < 2 → exec .powerPark s = .next s) ∧
    (s.tripAt = some s.cycle → exec mine s = .next s) ∧
    (s.tripAt ≠ some s.cycle → s.powerCmd ≠ none → PowerRefused mine s 1) ∧
    (s.tripAt ≠ some s.cycle → s.powerCmd = none →
      (code = 3 → PowerRefused mine s 3) ∧
      (code = 0 → (sr = true → PowerRefused mine s 3) ∧
        (sr = false → s.bar0.tripped = true → (∃ j : Fin 8, 95 < (s.temps.get j).toNat) → PowerRefused mine s 2) ∧
        (sr = false → (s.bar0.tripped = false ∨ ∀ j : Fin 8, (s.temps.get j).toNat ≤ 95) → PowerGoes mine s d .run false)) ∧
      (code = 1 ∨ code = 2 → Occupied s d.val → PowerRefused mine s 1) ∧
      (code = 1 → ¬ Occupied s d.val → s.power.get d = .park → PowerRefused mine s 3) ∧
      (code = 1 → ¬ Occupied s d.val → s.power.get d ≠ .park → PowerGoes mine s d .idle sr) ∧
      (code = 2 → ¬ Occupied s d.val → PowerGoes mine s d .park sr))) ∧
  (∀ s, (s.powerCmd = none → exec .powerTransitionDone s = .next s) ∧
    ∀ c (d : Fin 8), s.powerCmd = some c → c.die = d.val →
      (s.cycle < c.due → exec .powerTransitionDone s = .next s) ∧
      (c.due ≤ s.cycle → ∃ t, exec .powerTransitionDone s = .next t ∧ t.powerCmd = none ∧ t.power.get d = c.goal ∧
        t.selfRefresh.getLsbD d.val = c.sr ∧ (∀ j, j ≠ d → t.power.get j = s.power.get j ∧ t.selfRefresh.getLsbD j.val = s.selfRefresh.getLsbD j.val) ∧
        t.msix = 2 :: s.msix ∧ t.ctxs = s.ctxs ∧ SameBytes s t)) ∧
  (∀ s d v, s.arg = .temp d v →
    let noted (t : State) : Prop := ∀ j : Fin 8, t.temps.get j = if j.val = d then v else s.temps.get j
    (v.toNat < 105 → ∃ t, exec .thermalTrip s = .next t ∧ t = { s with temps := t.temps } ∧ noted t) ∧
    (105 ≤ v.toNat → d < 8 → s.launches = [] → ∃ t, exec .thermalTrip s = .next t ∧ noted t ∧ t.tripAt = some s.cycle ∧
      t.bar0 = { s.bar0 with tripped := true, tripDie := t.bar0.tripDie } ∧ t.bar0.tripDie.toNat = d ∧ t.powerCmd = none ∧
      t.msix = 2 :: s.msix ∧ SameBytes s t ∧ t.selfRefresh = 0xFF ∧ ∀ j, t.power.get j = .park))

/-- The bits that a capture of the debug port shifts out, least significant bit of the first byte first. -/
def bitsOfBytes (l : List Byte) : List Bool := l.flatMap fun b => (List.range 8).map fun i => b.getLsbD i

/-- The instruction register holds code and the capture is bits; the rest of the port and of the machine is as in s. -/
def Tapped (i : Instr) (s : State) (code : Byte) (bits : List Bool) : Prop :=
  exec i s = .next { s with dbg := { s.dbg with ir := code, out := bits } }

/-- The debug features that are open: all of them, but in FIELD those that a token has opened (R363, R364). -/
def Open (s : State) (n : Nat) : Prop := s.sec.life = .field → s.sec.openFeatures.getLsbD n = true

/-- idcode shifts out 0x108802A3 and devid 1,152 bits; debugFreeze and the pin stop the clocks; thaw restarts them where THAW is open, and else selects BYPASS. debugSelect takes SELECT and its WORD; debugRead shifts 66 bits and advances WORD by 1, a word of main memory under FREEZE with UNCORR, a reserved class or memory with neither FREEZE nor a stopped region with NOTHELD and data 0, or selects BYPASS where its feature is closed. debugToken in BLANK and RETIRED returns 0 and opens nothing; elsewhere the capture is the status, 0 opens FEATURES and any other opens none; a wrong MAGIC is BAD_FORMAT, and so is a length other than 320: that, and NOTHELD for memory outside FREEZE and any stopped region, are inferences from R361 and R365, which name neither. lcAdvance takes the next code and discards others. revokeGo of bit 0 clears the register and blows the bit of a record of 4,096 bytes (log 8's choice, as is its format) that verifies with the firmware key, and of no other, but none in BLANK, which has no keys; attestGo of bit 0 clears its register, with the report zeroed in BLANK and RETIRED and else beginning with VXTA, version 1 and the life cycle. bar0RegisterWrite of a register that only holds its value holds it, and of an unused offset changes nothing. -/
def Obligations.DebugPortAndSecurityRoot : Prop :=
  (∀ s, Tapped .idcode s 0x01 (bitsOfBytes [0xA3, 0x02, 0x88, 0x10]) ∧
    (∃ bits, Tapped .devid s 0x02 bits ∧ bits.length = 1152) ∧
    exec .debugFreeze s = .next { s with dbg := { s.dbg with ir := 0x10, out := [], frozen := true } } ∧
    exec .freezePin s = .next { s with dbg := { s.dbg with frozen := true } } ∧
    (Open s 0 → exec .thaw s = .next { s with dbg := { s.dbg with ir := 0x11, out := [], frozen := false } }) ∧
    (¬ Open s 0 → Tapped .thaw s 0xFF [false]) ∧ Tapped .bypass s 0xFF [false]) ∧
  (∀ s off w, s.arg = .reg off w → ∃ n : BitVec 46, n.toNat = w.toNat / 2 ^ 18 ∧
    exec .debugSelect s = .next { s with dbg := { s.dbg with ir := 0x20, out := [], select := w, word := n } }) ∧
  (∀ s, let cls := s.dbg.select.toNat / 2 ^ 14 % 2 ^ 4
    (¬ Open s (if cls = 14 then 2 else 1) → Tapped .debugRead s 0xFF [false]) ∧
    (Open s (if cls = 14 then 2 else 1) → ∃ t, exec .debugRead s = .next t ∧
      t = { s with dbg := { s.dbg with ir := 0x21, out := t.dbg.out, word := s.dbg.word + 1 }, serial := s.serial + 1 } ∧ t.dbg.out.length = 66 ∧
      (cls = 15 ∨ (cls = 13 ∧ s.dbg.frozen = false ∧ ∀ p ∈ s.ress, p.2.stopped = false) → t.dbg.out = List.replicate 65 false ++ [true]) ∧
      (cls = 13 → s.dbg.frozen = true → physOk false (8 * s.dbg.word.toNat) 8 = true →
        t.dbg.out = bitsOfBytes ((List.range 8).map fun j => s.gddr.get (8 * s.dbg.word.toNat + j)) ++
          [decide (s.dbg.word.toNat ∈ s.badMem), false]))) ∧
  (∀ s off bs, s.arg = .data off bs → ∃ t c, exec .debugToken s = .next t ∧
    t = { s with dbg := { s.dbg with ir := 0x30, out := t.dbg.out, tokenStatus := c }, sec := { s.sec with openFeatures := t.sec.openFeatures } } ∧
    t.dbg.out = bitsOfBytes [c] ∧ c.toNat ≤ 5 ∧
    (s.sec.life = .blank ∨ s.sec.life = .retired → c = 0 ∧ t.sec = s.sec) ∧
    (s.sec.life = .provisioned ∨ s.sec.life = .field →
      (c ≠ 0 → t.sec = s.sec) ∧
      (c = 0 → bs.length = 320 ∧ bs.take 6 = [0x56, 0x58, 0x44, 0x54, 1, 0] ∧ s.sec.dbgRevoked = false ∧
        t.sec.openFeatures.toNat = (bs.getD 6 0).toNat ∧ bs.getD 7 0 = 0) ∧
      (bs.length ≠ 320 ∨ bs.take 4 ≠ [0x56, 0x58, 0x44, 0x54] → c = 1))) ∧
  (∀ s off w, s.arg = .reg off w →
    let life (l : Life) : Prop := exec .lcAdvance s = .next { s with sec := { s.sec with life := l } }
    (s.sec.life = .blank → if w = 1 then life .provisioned else life .blank) ∧
    (s.sec.life = .provisioned → if w = 2 then life .field else life .provisioned) ∧
    (s.sec.life = .field → if w = 3 then life .retired else life .field) ∧
    (s.sec.life = .retired → life .retired)) ∧
  (∀ s off w, s.arg = .reg off w →
    (w.getLsbD 0 = false → exec .revokeGo s = .next s ∧ exec .attestGo s = .next s) ∧
    (w.getLsbD 0 = true →
      (∃ t, exec .revokeGo s = .next t ∧
        t = { s with bar0 := { s.bar0 with revokeGo := 0 }, sec := { s.sec with revoked := t.sec.revoked, dbgRevoked := t.sec.dbgRevoked } } ∧
        (∀ i, s.sec.revoked.getLsbD i = true → t.sec.revoked.getLsbD i = true) ∧ (s.sec.dbgRevoked = true → t.sec.dbgRevoked = true) ∧
        let bs := s.host.read s.bar0.revokeAddr.toNat 4096
        ∀ sig key named, Config.revokeParse bs = (sig, key, named) →
          let signed : Prop := Config.ecdsaOk (Config.sha384 bs) sig key = true ∧ Config.sha384 key = Config.fwKey
          (named = none ∨ ¬ signed ∨ s.sec.life = .blank → t.sec = s.sec) ∧
          (∀ n, named = some n → signed → s.sec.life ≠ .blank →
            if n < 8 then t.sec = { s.sec with revoked := t.sec.revoked } ∧ (∀ i, t.sec.revoked.getLsbD i = true ↔ s.sec.revoked.getLsbD i = true ∨ i = n)
            else t.sec = { s.sec with dbgRevoked := true })) ∧
      (∃ t, exec .attestGo s = .next t ∧ t = { s with bar0 := { s.bar0 with attestGo := 0, attestReport := t.bar0.attestReport } } ∧
        (s.sec.life = .blank ∨ s.sec.life = .retired → t.bar0.attestReport = 0) ∧
        (s.sec.life = .provisioned ∨ s.sec.life = .field → t.bar0.attestReport.toNat % 2 ^ 48 = 0x000141545856 ∧
          t.bar0.attestReport.toNat / 2 ^ 48 % 2 ^ 8 = (if s.sec.life = .field then 2 else 1))))) ∧
  (∀ s off w, s.arg = .reg off w →
    let writes (b : Bar0) : Prop := exec .bar0RegisterWrite s = .next { s with bar0 := b }
    (off = 0x10 → writes { s.bar0 with fwAddr := w }) ∧ (off = 0x18 → writes { s.bar0 with fwLen := w }) ∧
    (off = 0x100 → writes { s.bar0 with sharedRootMain := w }) ∧ (off = 0x108 → writes { s.bar0 with sharedRootBulk := w }) ∧
    (off = 0x400 → writes { s.bar0 with traceBase := w }) ∧ (off = 0x408 → writes { s.bar0 with traceSize := w }) ∧
    (off = 0x418 → writes { s.bar0 with traceTail := w }) ∧ (off = 0x508 → writes { s.bar0 with revokeAddr := w }) ∧
    (0xB60 ≤ off → exec .bar0RegisterWrite s = .next s))

end
end

