-- ==== Sys2Proof/Laws/State.lean ====
section
/-! SUPPORT. One lemma per field of State per update of a record: what the update leaves as it was, and where it writes. -/

namespace Sys2Proof.Machine

@[simp] theorem State.setCtx_cycle (s : State) (r : CtxRef) (x : Ctx) : (s.setCtx r x).cycle = s.cycle := rfl
@[simp] theorem State.setCtx_ctxs (s : State) (r : CtxRef) (x : Ctx) : (s.setCtx r x).ctxs = tput s.ctxs r x := rfl
@[simp] theorem State.setCtx_tiles (s : State) (r : CtxRef) (x : Ctx) : (s.setCtx r x).tiles = s.tiles := rfl
@[simp] theorem State.setCtx_banks (s : State) (r : CtxRef) (x : Ctx) : (s.setCtx r x).banks = s.banks := rfl
@[simp] theorem State.setCtx_bars (s : State) (r : CtxRef) (x : Ctx) : (s.setCtx r x).bars = s.bars := rfl
@[simp] theorem State.setCtx_elems (s : State) (r : CtxRef) (x : Ctx) : (s.setCtx r x).elems = s.elems := rfl
@[simp] theorem State.setCtx_wins (s : State) (r : CtxRef) (x : Ctx) : (s.setCtx r x).wins = s.wins := rfl
@[simp] theorem State.setCtx_chans (s : State) (r : CtxRef) (x : Ctx) : (s.setCtx r x).chans = s.chans := rfl
@[simp] theorem State.setCtx_ops (s : State) (r : CtxRef) (x : Ctx) : (s.setCtx r x).ops = s.ops := rfl
@[simp] theorem State.setCtx_gens (s : State) (r : CtxRef) (x : Ctx) : (s.setCtx r x).gens = s.gens := rfl
@[simp] theorem State.setCtx_ress (s : State) (r : CtxRef) (x : Ctx) : (s.setCtx r x).ress = s.ress := rfl
@[simp] theorem State.setCtx_softTiles (s : State) (r : CtxRef) (x : Ctx) : (s.setCtx r x).softTiles = s.softTiles := rfl
@[simp] theorem State.setCtx_gddr (s : State) (r : CtxRef) (x : Ctx) : (s.setCtx r x).gddr = s.gddr := rfl
@[simp] theorem State.setCtx_bulk (s : State) (r : CtxRef) (x : Ctx) : (s.setCtx r x).bulk = s.bulk := rfl
@[simp] theorem State.setCtx_host (s : State) (r : CtxRef) (x : Ctx) : (s.setCtx r x).host = s.host := rfl
@[simp] theorem State.setCtx_gddrTags (s : State) (r : CtxRef) (x : Ctx) : (s.setCtx r x).gddrTags = s.gddrTags := rfl
@[simp] theorem State.setCtx_bulkTags (s : State) (r : CtxRef) (x : Ctx) : (s.setCtx r x).bulkTags = s.bulkTags := rfl
@[simp] theorem State.setCtx_badMem (s : State) (r : CtxRef) (x : Ctx) : (s.setCtx r x).badMem = s.badMem := rfl
@[simp] theorem State.setCtx_badBulk (s : State) (r : CtxRef) (x : Ctx) : (s.setCtx r x).badBulk = s.badBulk := rfl
@[simp] theorem State.setCtx_accs (s : State) (r : CtxRef) (x : Ctx) : (s.setCtx r x).accs = s.accs := rfl
@[simp] theorem State.setCtx_deferred (s : State) (r : CtxRef) (x : Ctx) : (s.setCtx r x).deferred = s.deferred := rfl
@[simp] theorem State.setCtx_remotes (s : State) (r : CtxRef) (x : Ctx) : (s.setCtx r x).remotes = s.remotes := rfl
@[simp] theorem State.setCtx_outbox (s : State) (r : CtxRef) (x : Ctx) : (s.setCtx r x).outbox = s.outbox := rfl
@[simp] theorem State.setCtx_roots (s : State) (r : CtxRef) (x : Ctx) : (s.setCtx r x).roots = s.roots := rfl
@[simp] theorem State.setCtx_ledger (s : State) (r : CtxRef) (x : Ctx) : (s.setCtx r x).ledger = s.ledger := rfl
@[simp] theorem State.setCtx_temps (s : State) (r : CtxRef) (x : Ctx) : (s.setCtx r x).temps = s.temps := rfl
@[simp] theorem State.setCtx_tripAt (s : State) (r : CtxRef) (x : Ctx) : (s.setCtx r x).tripAt = s.tripAt := rfl
@[simp] theorem State.setCtx_nature (s : State) (r : CtxRef) (x : Ctx) : (s.setCtx r x).nature = s.nature := rfl
@[simp] theorem State.setCtx_ports (s : State) (r : CtxRef) (x : Ctx) : (s.setCtx r x).ports = s.ports := rfl
@[simp] theorem State.setCtx_asidGen (s : State) (r : CtxRef) (x : Ctx) : (s.setCtx r x).asidGen = s.asidGen := rfl
@[simp] theorem State.setCtx_migrs (s : State) (r : CtxRef) (x : Ctx) : (s.setCtx r x).migrs = s.migrs := rfl
@[simp] theorem State.setCtx_invals (s : State) (r : CtxRef) (x : Ctx) : (s.setCtx r x).invals = s.invals := rfl
@[simp] theorem State.setCtx_faultq (s : State) (r : CtxRef) (x : Ctx) : (s.setCtx r x).faultq = s.faultq := rfl
@[simp] theorem State.setCtx_cmds (s : State) (r : CtxRef) (x : Ctx) : (s.setCtx r x).cmds = s.cmds := rfl
@[simp] theorem State.setCtx_queries (s : State) (r : CtxRef) (x : Ctx) : (s.setCtx r x).queries = s.queries := rfl
@[simp] theorem State.setCtx_heldBeats (s : State) (r : CtxRef) (x : Ctx) : (s.setCtx r x).heldBeats = s.heldBeats := rfl
@[simp] theorem State.setCtx_pools (s : State) (r : CtxRef) (x : Ctx) : (s.setCtx r x).pools = s.pools := rfl
@[simp] theorem State.setCtx_shards (s : State) (r : CtxRef) (x : Ctx) : (s.setCtx r x).shards = s.shards := rfl
@[simp] theorem State.setCtx_flows (s : State) (r : CtxRef) (x : Ctx) : (s.setCtx r x).flows = s.flows := rfl
@[simp] theorem State.setCtx_inFlows (s : State) (r : CtxRef) (x : Ctx) : (s.setCtx r x).inFlows = s.inFlows := rfl
@[simp] theorem State.setCtx_peerWait (s : State) (r : CtxRef) (x : Ctx) : (s.setCtx r x).peerWait = s.peerWait := rfl
@[simp] theorem State.setCtx_groupArr (s : State) (r : CtxRef) (x : Ctx) : (s.setCtx r x).groupArr = s.groupArr := rfl
@[simp] theorem State.setCtx_launches (s : State) (r : CtxRef) (x : Ctx) : (s.setCtx r x).launches = s.launches := rfl
@[simp] theorem State.setCtx_launchSeq (s : State) (r : CtxRef) (x : Ctx) : (s.setCtx r x).launchSeq = s.launchSeq := rfl
@[simp] theorem State.setCtx_loadSeq (s : State) (r : CtxRef) (x : Ctx) : (s.setCtx r x).loadSeq = s.loadSeq := rfl
@[simp] theorem State.setCtx_nextRid (s : State) (r : CtxRef) (x : Ctx) : (s.setCtx r x).nextRid = s.nextRid := rfl
@[simp] theorem State.setCtx_nextAcc (s : State) (r : CtxRef) (x : Ctx) : (s.setCtx r x).nextAcc = s.nextAcc := rfl
@[simp] theorem State.setCtx_launchWin (s : State) (r : CtxRef) (x : Ctx) : (s.setCtx r x).launchWin = s.launchWin := rfl
@[simp] theorem State.setCtx_launchBuf (s : State) (r : CtxRef) (x : Ctx) : (s.setCtx r x).launchBuf = s.launchBuf := rfl
@[simp] theorem State.setCtx_launchHeld (s : State) (r : CtxRef) (x : Ctx) : (s.setCtx r x).launchHeld = s.launchHeld := rfl
@[simp] theorem State.setCtx_eventWin (s : State) (r : CtxRef) (x : Ctx) : (s.setCtx r x).eventWin = s.eventWin := rfl
@[simp] theorem State.setCtx_eventWait (s : State) (r : CtxRef) (x : Ctx) : (s.setCtx r x).eventWait = s.eventWait := rfl
@[simp] theorem State.setCtx_forwards (s : State) (r : CtxRef) (x : Ctx) : (s.setCtx r x).forwards = s.forwards := rfl
@[simp] theorem State.setCtx_fwdAt (s : State) (r : CtxRef) (x : Ctx) : (s.setCtx r x).fwdAt = s.fwdAt := rfl
@[simp] theorem State.setCtx_letterDone (s : State) (r : CtxRef) (x : Ctx) : (s.setCtx r x).letterDone = s.letterDone := rfl
@[simp] theorem State.setCtx_letterAt (s : State) (r : CtxRef) (x : Ctx) : (s.setCtx r x).letterAt = s.letterAt := rfl
@[simp] theorem State.setCtx_sched (s : State) (r : CtxRef) (x : Ctx) : (s.setCtx r x).sched = s.sched := rfl
@[simp] theorem State.setCtx_posts (s : State) (r : CtxRef) (x : Ctx) : (s.setCtx r x).posts = s.posts := rfl
@[simp] theorem State.setCtx_ctxStore (s : State) (r : CtxRef) (x : Ctx) : (s.setCtx r x).ctxStore = s.ctxStore := rfl
@[simp] theorem State.setCtx_bar0 (s : State) (r : CtxRef) (x : Ctx) : (s.setCtx r x).bar0 = s.bar0 := rfl
@[simp] theorem State.setCtx_msix (s : State) (r : CtxRef) (x : Ctx) : (s.setCtx r x).msix = s.msix := rfl
@[simp] theorem State.setCtx_dropCnt (s : State) (r : CtxRef) (x : Ctx) : (s.setCtx r x).dropCnt = s.dropCnt := rfl
@[simp] theorem State.setCtx_linksDown (s : State) (r : CtxRef) (x : Ctx) : (s.setCtx r x).linksDown = s.linksDown := rfl
@[simp] theorem State.setCtx_retries (s : State) (r : CtxRef) (x : Ctx) : (s.setCtx r x).retries = s.retries := rfl
@[simp] theorem State.setCtx_power (s : State) (r : CtxRef) (x : Ctx) : (s.setCtx r x).power = s.power := rfl
@[simp] theorem State.setCtx_selfRefresh (s : State) (r : CtxRef) (x : Ctx) : (s.setCtx r x).selfRefresh = s.selfRefresh := rfl
@[simp] theorem State.setCtx_powerCmd (s : State) (r : CtxRef) (x : Ctx) : (s.setCtx r x).powerCmd = s.powerCmd := rfl
@[simp] theorem State.setCtx_powerErr (s : State) (r : CtxRef) (x : Ctx) : (s.setCtx r x).powerErr = s.powerErr := rfl
@[simp] theorem State.setCtx_tripWait (s : State) (r : CtxRef) (x : Ctx) : (s.setCtx r x).tripWait = s.tripWait := rfl
@[simp] theorem State.setCtx_sec (s : State) (r : CtxRef) (x : Ctx) : (s.setCtx r x).sec = s.sec := rfl
@[simp] theorem State.setCtx_dbg (s : State) (r : CtxRef) (x : Ctx) : (s.setCtx r x).dbg = s.dbg := rfl
@[simp] theorem State.setCtx_brkCnt (s : State) (r : CtxRef) (x : Ctx) : (s.setCtx r x).brkCnt = s.brkCnt := rfl
@[simp] theorem State.setCtx_vaBump (s : State) (r : CtxRef) (x : Ctx) : (s.setCtx r x).vaBump = s.vaBump := rfl
@[simp] theorem State.setCtx_nextAlloc (s : State) (r : CtxRef) (x : Ctx) : (s.setCtx r x).nextAlloc = s.nextAlloc := rfl
@[simp] theorem State.setCtx_agenda (s : State) (r : CtxRef) (x : Ctx) : (s.setCtx r x).agenda = s.agenda := rfl
@[simp] theorem State.setCtx_half (s : State) (r : CtxRef) (x : Ctx) : (s.setCtx r x).half = s.half := rfl
@[simp] theorem State.setCtx_arg (s : State) (r : CtxRef) (x : Ctx) : (s.setCtx r x).arg = s.arg := rfl
@[simp] theorem State.setCtx_inputs (s : State) (r : CtxRef) (x : Ctx) : (s.setCtx r x).inputs = s.inputs := rfl
@[simp] theorem State.setCtx_grant (s : State) (r : CtxRef) (x : Ctx) : (s.setCtx r x).grant = s.grant := rfl
@[simp] theorem State.setCtx_cur (s : State) (r : CtxRef) (x : Ctx) : (s.setCtx r x).cur = s.cur := rfl
@[simp] theorem State.setCtx_serial (s : State) (r : CtxRef) (x : Ctx) : (s.setCtx r x).serial = s.serial := rfl
@[simp] theorem State.setCtx_busy (s : State) (r : CtxRef) (x : Ctx) : (s.setCtx r x).busy = s.busy := rfl

@[simp] theorem State.modCtx_cycle (s : State) (r : CtxRef) (f : Ctx → Ctx) : (s.modCtx r f).cycle = s.cycle := rfl
@[simp] theorem State.modCtx_ctxs (s : State) (r : CtxRef) (f : Ctx → Ctx) : (s.modCtx r f).ctxs = tmod s.ctxs r f := rfl
@[simp] theorem State.modCtx_tiles (s : State) (r : CtxRef) (f : Ctx → Ctx) : (s.modCtx r f).tiles = s.tiles := rfl
@[simp] theorem State.modCtx_banks (s : State) (r : CtxRef) (f : Ctx → Ctx) : (s.modCtx r f).banks = s.banks := rfl
@[simp] theorem State.modCtx_bars (s : State) (r : CtxRef) (f : Ctx → Ctx) : (s.modCtx r f).bars = s.bars := rfl
@[simp] theorem State.modCtx_elems (s : State) (r : CtxRef) (f : Ctx → Ctx) : (s.modCtx r f).elems = s.elems := rfl
@[simp] theorem State.modCtx_wins (s : State) (r : CtxRef) (f : Ctx → Ctx) : (s.modCtx r f).wins = s.wins := rfl
@[simp] theorem State.modCtx_chans (s : State) (r : CtxRef) (f : Ctx → Ctx) : (s.modCtx r f).chans = s.chans := rfl
@[simp] theorem State.modCtx_ops (s : State) (r : CtxRef) (f : Ctx → Ctx) : (s.modCtx r f).ops = s.ops := rfl
@[simp] theorem State.modCtx_gens (s : State) (r : CtxRef) (f : Ctx → Ctx) : (s.modCtx r f).gens = s.gens := rfl
@[simp] theorem State.modCtx_ress (s : State) (r : CtxRef) (f : Ctx → Ctx) : (s.modCtx r f).ress = s.ress := rfl
@[simp] theorem State.modCtx_softTiles (s : State) (r : CtxRef) (f : Ctx → Ctx) : (s.modCtx r f).softTiles = s.softTiles := rfl
@[simp] theorem State.modCtx_gddr (s : State) (r : CtxRef) (f : Ctx → Ctx) : (s.modCtx r f).gddr = s.gddr := rfl
@[simp] theorem State.modCtx_bulk (s : State) (r : CtxRef) (f : Ctx → Ctx) : (s.modCtx r f).bulk = s.bulk := rfl
@[simp] theorem State.modCtx_host (s : State) (r : CtxRef) (f : Ctx → Ctx) : (s.modCtx r f).host = s.host := rfl
@[simp] theorem State.modCtx_gddrTags (s : State) (r : CtxRef) (f : Ctx → Ctx) : (s.modCtx r f).gddrTags = s.gddrTags := rfl
@[simp] theorem State.modCtx_bulkTags (s : State) (r : CtxRef) (f : Ctx → Ctx) : (s.modCtx r f).bulkTags = s.bulkTags := rfl
@[simp] theorem State.modCtx_badMem (s : State) (r : CtxRef) (f : Ctx → Ctx) : (s.modCtx r f).badMem = s.badMem := rfl
@[simp] theorem State.modCtx_badBulk (s : State) (r : CtxRef) (f : Ctx → Ctx) : (s.modCtx r f).badBulk = s.badBulk := rfl
@[simp] theorem State.modCtx_accs (s : State) (r : CtxRef) (f : Ctx → Ctx) : (s.modCtx r f).accs = s.accs := rfl
@[simp] theorem State.modCtx_deferred (s : State) (r : CtxRef) (f : Ctx → Ctx) : (s.modCtx r f).deferred = s.deferred := rfl
@[simp] theorem State.modCtx_remotes (s : State) (r : CtxRef) (f : Ctx → Ctx) : (s.modCtx r f).remotes = s.remotes := rfl
@[simp] theorem State.modCtx_outbox (s : State) (r : CtxRef) (f : Ctx → Ctx) : (s.modCtx r f).outbox = s.outbox := rfl
@[simp] theorem State.modCtx_roots (s : State) (r : CtxRef) (f : Ctx → Ctx) : (s.modCtx r f).roots = s.roots := rfl
@[simp] theorem State.modCtx_ledger (s : State) (r : CtxRef) (f : Ctx → Ctx) : (s.modCtx r f).ledger = s.ledger := rfl
@[simp] theorem State.modCtx_temps (s : State) (r : CtxRef) (f : Ctx → Ctx) : (s.modCtx r f).temps = s.temps := rfl
@[simp] theorem State.modCtx_tripAt (s : State) (r : CtxRef) (f : Ctx → Ctx) : (s.modCtx r f).tripAt = s.tripAt := rfl
@[simp] theorem State.modCtx_nature (s : State) (r : CtxRef) (f : Ctx → Ctx) : (s.modCtx r f).nature = s.nature := rfl
@[simp] theorem State.modCtx_ports (s : State) (r : CtxRef) (f : Ctx → Ctx) : (s.modCtx r f).ports = s.ports := rfl
@[simp] theorem State.modCtx_asidGen (s : State) (r : CtxRef) (f : Ctx → Ctx) : (s.modCtx r f).asidGen = s.asidGen := rfl
@[simp] theorem State.modCtx_migrs (s : State) (r : CtxRef) (f : Ctx → Ctx) : (s.modCtx r f).migrs = s.migrs := rfl
@[simp] theorem State.modCtx_invals (s : State) (r : CtxRef) (f : Ctx → Ctx) : (s.modCtx r f).invals = s.invals := rfl
@[simp] theorem State.modCtx_faultq (s : State) (r : CtxRef) (f : Ctx → Ctx) : (s.modCtx r f).faultq = s.faultq := rfl
@[simp] theorem State.modCtx_cmds (s : State) (r : CtxRef) (f : Ctx → Ctx) : (s.modCtx r f).cmds = s.cmds := rfl
@[simp] theorem State.modCtx_queries (s : State) (r : CtxRef) (f : Ctx → Ctx) : (s.modCtx r f).queries = s.queries := rfl
@[simp] theorem State.modCtx_heldBeats (s : State) (r : CtxRef) (f : Ctx → Ctx) : (s.modCtx r f).heldBeats = s.heldBeats := rfl
@[simp] theorem State.modCtx_pools (s : State) (r : CtxRef) (f : Ctx → Ctx) : (s.modCtx r f).pools = s.pools := rfl
@[simp] theorem State.modCtx_shards (s : State) (r : CtxRef) (f : Ctx → Ctx) : (s.modCtx r f).shards = s.shards := rfl
@[simp] theorem State.modCtx_flows (s : State) (r : CtxRef) (f : Ctx → Ctx) : (s.modCtx r f).flows = s.flows := rfl
@[simp] theorem State.modCtx_inFlows (s : State) (r : CtxRef) (f : Ctx → Ctx) : (s.modCtx r f).inFlows = s.inFlows := rfl
@[simp] theorem State.modCtx_peerWait (s : State) (r : CtxRef) (f : Ctx → Ctx) : (s.modCtx r f).peerWait = s.peerWait := rfl
@[simp] theorem State.modCtx_groupArr (s : State) (r : CtxRef) (f : Ctx → Ctx) : (s.modCtx r f).groupArr = s.groupArr := rfl
@[simp] theorem State.modCtx_launches (s : State) (r : CtxRef) (f : Ctx → Ctx) : (s.modCtx r f).launches = s.launches := rfl
@[simp] theorem State.modCtx_launchSeq (s : State) (r : CtxRef) (f : Ctx → Ctx) : (s.modCtx r f).launchSeq = s.launchSeq := rfl
@[simp] theorem State.modCtx_loadSeq (s : State) (r : CtxRef) (f : Ctx → Ctx) : (s.modCtx r f).loadSeq = s.loadSeq := rfl
@[simp] theorem State.modCtx_nextRid (s : State) (r : CtxRef) (f : Ctx → Ctx) : (s.modCtx r f).nextRid = s.nextRid := rfl
@[simp] theorem State.modCtx_nextAcc (s : State) (r : CtxRef) (f : Ctx → Ctx) : (s.modCtx r f).nextAcc = s.nextAcc := rfl
@[simp] theorem State.modCtx_launchWin (s : State) (r : CtxRef) (f : Ctx → Ctx) : (s.modCtx r f).launchWin = s.launchWin := rfl
@[simp] theorem State.modCtx_launchBuf (s : State) (r : CtxRef) (f : Ctx → Ctx) : (s.modCtx r f).launchBuf = s.launchBuf := rfl
@[simp] theorem State.modCtx_launchHeld (s : State) (r : CtxRef) (f : Ctx → Ctx) : (s.modCtx r f).launchHeld = s.launchHeld := rfl
@[simp] theorem State.modCtx_eventWin (s : State) (r : CtxRef) (f : Ctx → Ctx) : (s.modCtx r f).eventWin = s.eventWin := rfl
@[simp] theorem State.modCtx_eventWait (s : State) (r : CtxRef) (f : Ctx → Ctx) : (s.modCtx r f).eventWait = s.eventWait := rfl
@[simp] theorem State.modCtx_forwards (s : State) (r : CtxRef) (f : Ctx → Ctx) : (s.modCtx r f).forwards = s.forwards := rfl
@[simp] theorem State.modCtx_fwdAt (s : State) (r : CtxRef) (f : Ctx → Ctx) : (s.modCtx r f).fwdAt = s.fwdAt := rfl
@[simp] theorem State.modCtx_letterDone (s : State) (r : CtxRef) (f : Ctx → Ctx) : (s.modCtx r f).letterDone = s.letterDone := rfl
@[simp] theorem State.modCtx_letterAt (s : State) (r : CtxRef) (f : Ctx → Ctx) : (s.modCtx r f).letterAt = s.letterAt := rfl
@[simp] theorem State.modCtx_sched (s : State) (r : CtxRef) (f : Ctx → Ctx) : (s.modCtx r f).sched = s.sched := rfl
@[simp] theorem State.modCtx_posts (s : State) (r : CtxRef) (f : Ctx → Ctx) : (s.modCtx r f).posts = s.posts := rfl
@[simp] theorem State.modCtx_ctxStore (s : State) (r : CtxRef) (f : Ctx → Ctx) : (s.modCtx r f).ctxStore = s.ctxStore := rfl
@[simp] theorem State.modCtx_bar0 (s : State) (r : CtxRef) (f : Ctx → Ctx) : (s.modCtx r f).bar0 = s.bar0 := rfl
@[simp] theorem State.modCtx_msix (s : State) (r : CtxRef) (f : Ctx → Ctx) : (s.modCtx r f).msix = s.msix := rfl
@[simp] theorem State.modCtx_dropCnt (s : State) (r : CtxRef) (f : Ctx → Ctx) : (s.modCtx r f).dropCnt = s.dropCnt := rfl
@[simp] theorem State.modCtx_linksDown (s : State) (r : CtxRef) (f : Ctx → Ctx) : (s.modCtx r f).linksDown = s.linksDown := rfl
@[simp] theorem State.modCtx_retries (s : State) (r : CtxRef) (f : Ctx → Ctx) : (s.modCtx r f).retries = s.retries := rfl
@[simp] theorem State.modCtx_power (s : State) (r : CtxRef) (f : Ctx → Ctx) : (s.modCtx r f).power = s.power := rfl
@[simp] theorem State.modCtx_selfRefresh (s : State) (r : CtxRef) (f : Ctx → Ctx) : (s.modCtx r f).selfRefresh = s.selfRefresh := rfl
@[simp] theorem State.modCtx_powerCmd (s : State) (r : CtxRef) (f : Ctx → Ctx) : (s.modCtx r f).powerCmd = s.powerCmd := rfl
@[simp] theorem State.modCtx_powerErr (s : State) (r : CtxRef) (f : Ctx → Ctx) : (s.modCtx r f).powerErr = s.powerErr := rfl
@[simp] theorem State.modCtx_tripWait (s : State) (r : CtxRef) (f : Ctx → Ctx) : (s.modCtx r f).tripWait = s.tripWait := rfl
@[simp] theorem State.modCtx_sec (s : State) (r : CtxRef) (f : Ctx → Ctx) : (s.modCtx r f).sec = s.sec := rfl
@[simp] theorem State.modCtx_dbg (s : State) (r : CtxRef) (f : Ctx → Ctx) : (s.modCtx r f).dbg = s.dbg := rfl
@[simp] theorem State.modCtx_brkCnt (s : State) (r : CtxRef) (f : Ctx → Ctx) : (s.modCtx r f).brkCnt = s.brkCnt := rfl
@[simp] theorem State.modCtx_vaBump (s : State) (r : CtxRef) (f : Ctx → Ctx) : (s.modCtx r f).vaBump = s.vaBump := rfl
@[simp] theorem State.modCtx_nextAlloc (s : State) (r : CtxRef) (f : Ctx → Ctx) : (s.modCtx r f).nextAlloc = s.nextAlloc := rfl
@[simp] theorem State.modCtx_agenda (s : State) (r : CtxRef) (f : Ctx → Ctx) : (s.modCtx r f).agenda = s.agenda := rfl
@[simp] theorem State.modCtx_half (s : State) (r : CtxRef) (f : Ctx → Ctx) : (s.modCtx r f).half = s.half := rfl
@[simp] theorem State.modCtx_arg (s : State) (r : CtxRef) (f : Ctx → Ctx) : (s.modCtx r f).arg = s.arg := rfl
@[simp] theorem State.modCtx_inputs (s : State) (r : CtxRef) (f : Ctx → Ctx) : (s.modCtx r f).inputs = s.inputs := rfl
@[simp] theorem State.modCtx_grant (s : State) (r : CtxRef) (f : Ctx → Ctx) : (s.modCtx r f).grant = s.grant := rfl
@[simp] theorem State.modCtx_cur (s : State) (r : CtxRef) (f : Ctx → Ctx) : (s.modCtx r f).cur = s.cur := rfl
@[simp] theorem State.modCtx_serial (s : State) (r : CtxRef) (f : Ctx → Ctx) : (s.modCtx r f).serial = s.serial := rfl
@[simp] theorem State.modCtx_busy (s : State) (r : CtxRef) (f : Ctx → Ctx) : (s.modCtx r f).busy = s.busy := rfl

@[simp] theorem State.modElem_cycle (s : State) (e : ElemRef) (f : Elem → Elem) : (s.modElem e f).cycle = s.cycle := rfl
@[simp] theorem State.modElem_ctxs (s : State) (e : ElemRef) (f : Elem → Elem) : (s.modElem e f).ctxs = s.ctxs := rfl
@[simp] theorem State.modElem_tiles (s : State) (e : ElemRef) (f : Elem → Elem) : (s.modElem e f).tiles = s.tiles := rfl
@[simp] theorem State.modElem_banks (s : State) (e : ElemRef) (f : Elem → Elem) : (s.modElem e f).banks = s.banks := rfl
@[simp] theorem State.modElem_bars (s : State) (e : ElemRef) (f : Elem → Elem) : (s.modElem e f).bars = s.bars := rfl
@[simp] theorem State.modElem_elems (s : State) (e : ElemRef) (f : Elem → Elem) : (s.modElem e f).elems = tmod s.elems e f := rfl
@[simp] theorem State.modElem_wins (s : State) (e : ElemRef) (f : Elem → Elem) : (s.modElem e f).wins = s.wins := rfl
@[simp] theorem State.modElem_chans (s : State) (e : ElemRef) (f : Elem → Elem) : (s.modElem e f).chans = s.chans := rfl
@[simp] theorem State.modElem_ops (s : State) (e : ElemRef) (f : Elem → Elem) : (s.modElem e f).ops = s.ops := rfl
@[simp] theorem State.modElem_gens (s : State) (e : ElemRef) (f : Elem → Elem) : (s.modElem e f).gens = s.gens := rfl
@[simp] theorem State.modElem_ress (s : State) (e : ElemRef) (f : Elem → Elem) : (s.modElem e f).ress = s.ress := rfl
@[simp] theorem State.modElem_softTiles (s : State) (e : ElemRef) (f : Elem → Elem) : (s.modElem e f).softTiles = s.softTiles := rfl
@[simp] theorem State.modElem_gddr (s : State) (e : ElemRef) (f : Elem → Elem) : (s.modElem e f).gddr = s.gddr := rfl
@[simp] theorem State.modElem_bulk (s : State) (e : ElemRef) (f : Elem → Elem) : (s.modElem e f).bulk = s.bulk := rfl
@[simp] theorem State.modElem_host (s : State) (e : ElemRef) (f : Elem → Elem) : (s.modElem e f).host = s.host := rfl
@[simp] theorem State.modElem_gddrTags (s : State) (e : ElemRef) (f : Elem → Elem) : (s.modElem e f).gddrTags = s.gddrTags := rfl
@[simp] theorem State.modElem_bulkTags (s : State) (e : ElemRef) (f : Elem → Elem) : (s.modElem e f).bulkTags = s.bulkTags := rfl
@[simp] theorem State.modElem_badMem (s : State) (e : ElemRef) (f : Elem → Elem) : (s.modElem e f).badMem = s.badMem := rfl
@[simp] theorem State.modElem_badBulk (s : State) (e : ElemRef) (f : Elem → Elem) : (s.modElem e f).badBulk = s.badBulk := rfl
@[simp] theorem State.modElem_accs (s : State) (e : ElemRef) (f : Elem → Elem) : (s.modElem e f).accs = s.accs := rfl
@[simp] theorem State.modElem_deferred (s : State) (e : ElemRef) (f : Elem → Elem) : (s.modElem e f).deferred = s.deferred := rfl
@[simp] theorem State.modElem_remotes (s : State) (e : ElemRef) (f : Elem → Elem) : (s.modElem e f).remotes = s.remotes := rfl
@[simp] theorem State.modElem_outbox (s : State) (e : ElemRef) (f : Elem → Elem) : (s.modElem e f).outbox = s.outbox := rfl
@[simp] theorem State.modElem_roots (s : State) (e : ElemRef) (f : Elem → Elem) : (s.modElem e f).roots = s.roots := rfl
@[simp] theorem State.modElem_ledger (s : State) (e : ElemRef) (f : Elem → Elem) : (s.modElem e f).ledger = s.ledger := rfl
@[simp] theorem State.modElem_temps (s : State) (e : ElemRef) (f : Elem → Elem) : (s.modElem e f).temps = s.temps := rfl
@[simp] theorem State.modElem_tripAt (s : State) (e : ElemRef) (f : Elem → Elem) : (s.modElem e f).tripAt = s.tripAt := rfl
@[simp] theorem State.modElem_nature (s : State) (e : ElemRef) (f : Elem → Elem) : (s.modElem e f).nature = s.nature := rfl
@[simp] theorem State.modElem_ports (s : State) (e : ElemRef) (f : Elem → Elem) : (s.modElem e f).ports = s.ports := rfl
@[simp] theorem State.modElem_asidGen (s : State) (e : ElemRef) (f : Elem → Elem) : (s.modElem e f).asidGen = s.asidGen := rfl
@[simp] theorem State.modElem_migrs (s : State) (e : ElemRef) (f : Elem → Elem) : (s.modElem e f).migrs = s.migrs := rfl
@[simp] theorem State.modElem_invals (s : State) (e : ElemRef) (f : Elem → Elem) : (s.modElem e f).invals = s.invals := rfl
@[simp] theorem State.modElem_faultq (s : State) (e : ElemRef) (f : Elem → Elem) : (s.modElem e f).faultq = s.faultq := rfl
@[simp] theorem State.modElem_cmds (s : State) (e : ElemRef) (f : Elem → Elem) : (s.modElem e f).cmds = s.cmds := rfl
@[simp] theorem State.modElem_queries (s : State) (e : ElemRef) (f : Elem → Elem) : (s.modElem e f).queries = s.queries := rfl
@[simp] theorem State.modElem_heldBeats (s : State) (e : ElemRef) (f : Elem → Elem) : (s.modElem e f).heldBeats = s.heldBeats := rfl
@[simp] theorem State.modElem_pools (s : State) (e : ElemRef) (f : Elem → Elem) : (s.modElem e f).pools = s.pools := rfl
@[simp] theorem State.modElem_shards (s : State) (e : ElemRef) (f : Elem → Elem) : (s.modElem e f).shards = s.shards := rfl
@[simp] theorem State.modElem_flows (s : State) (e : ElemRef) (f : Elem → Elem) : (s.modElem e f).flows = s.flows := rfl
@[simp] theorem State.modElem_inFlows (s : State) (e : ElemRef) (f : Elem → Elem) : (s.modElem e f).inFlows = s.inFlows := rfl
@[simp] theorem State.modElem_peerWait (s : State) (e : ElemRef) (f : Elem → Elem) : (s.modElem e f).peerWait = s.peerWait := rfl
@[simp] theorem State.modElem_groupArr (s : State) (e : ElemRef) (f : Elem → Elem) : (s.modElem e f).groupArr = s.groupArr := rfl
@[simp] theorem State.modElem_launches (s : State) (e : ElemRef) (f : Elem → Elem) : (s.modElem e f).launches = s.launches := rfl
@[simp] theorem State.modElem_launchSeq (s : State) (e : ElemRef) (f : Elem → Elem) : (s.modElem e f).launchSeq = s.launchSeq := rfl
@[simp] theorem State.modElem_loadSeq (s : State) (e : ElemRef) (f : Elem → Elem) : (s.modElem e f).loadSeq = s.loadSeq := rfl
@[simp] theorem State.modElem_nextRid (s : State) (e : ElemRef) (f : Elem → Elem) : (s.modElem e f).nextRid = s.nextRid := rfl
@[simp] theorem State.modElem_nextAcc (s : State) (e : ElemRef) (f : Elem → Elem) : (s.modElem e f).nextAcc = s.nextAcc := rfl
@[simp] theorem State.modElem_launchWin (s : State) (e : ElemRef) (f : Elem → Elem) : (s.modElem e f).launchWin = s.launchWin := rfl
@[simp] theorem State.modElem_launchBuf (s : State) (e : ElemRef) (f : Elem → Elem) : (s.modElem e f).launchBuf = s.launchBuf := rfl
@[simp] theorem State.modElem_launchHeld (s : State) (e : ElemRef) (f : Elem → Elem) : (s.modElem e f).launchHeld = s.launchHeld := rfl
@[simp] theorem State.modElem_eventWin (s : State) (e : ElemRef) (f : Elem → Elem) : (s.modElem e f).eventWin = s.eventWin := rfl
@[simp] theorem State.modElem_eventWait (s : State) (e : ElemRef) (f : Elem → Elem) : (s.modElem e f).eventWait = s.eventWait := rfl
@[simp] theorem State.modElem_forwards (s : State) (e : ElemRef) (f : Elem → Elem) : (s.modElem e f).forwards = s.forwards := rfl
@[simp] theorem State.modElem_fwdAt (s : State) (e : ElemRef) (f : Elem → Elem) : (s.modElem e f).fwdAt = s.fwdAt := rfl
@[simp] theorem State.modElem_letterDone (s : State) (e : ElemRef) (f : Elem → Elem) : (s.modElem e f).letterDone = s.letterDone := rfl
@[simp] theorem State.modElem_letterAt (s : State) (e : ElemRef) (f : Elem → Elem) : (s.modElem e f).letterAt = s.letterAt := rfl
@[simp] theorem State.modElem_sched (s : State) (e : ElemRef) (f : Elem → Elem) : (s.modElem e f).sched = s.sched := rfl
@[simp] theorem State.modElem_posts (s : State) (e : ElemRef) (f : Elem → Elem) : (s.modElem e f).posts = s.posts := rfl
@[simp] theorem State.modElem_ctxStore (s : State) (e : ElemRef) (f : Elem → Elem) : (s.modElem e f).ctxStore = s.ctxStore := rfl
@[simp] theorem State.modElem_bar0 (s : State) (e : ElemRef) (f : Elem → Elem) : (s.modElem e f).bar0 = s.bar0 := rfl
@[simp] theorem State.modElem_msix (s : State) (e : ElemRef) (f : Elem → Elem) : (s.modElem e f).msix = s.msix := rfl
@[simp] theorem State.modElem_dropCnt (s : State) (e : ElemRef) (f : Elem → Elem) : (s.modElem e f).dropCnt = s.dropCnt := rfl
@[simp] theorem State.modElem_linksDown (s : State) (e : ElemRef) (f : Elem → Elem) : (s.modElem e f).linksDown = s.linksDown := rfl
@[simp] theorem State.modElem_retries (s : State) (e : ElemRef) (f : Elem → Elem) : (s.modElem e f).retries = s.retries := rfl
@[simp] theorem State.modElem_power (s : State) (e : ElemRef) (f : Elem → Elem) : (s.modElem e f).power = s.power := rfl
@[simp] theorem State.modElem_selfRefresh (s : State) (e : ElemRef) (f : Elem → Elem) : (s.modElem e f).selfRefresh = s.selfRefresh := rfl
@[simp] theorem State.modElem_powerCmd (s : State) (e : ElemRef) (f : Elem → Elem) : (s.modElem e f).powerCmd = s.powerCmd := rfl
@[simp] theorem State.modElem_powerErr (s : State) (e : ElemRef) (f : Elem → Elem) : (s.modElem e f).powerErr = s.powerErr := rfl
@[simp] theorem State.modElem_tripWait (s : State) (e : ElemRef) (f : Elem → Elem) : (s.modElem e f).tripWait = s.tripWait := rfl
@[simp] theorem State.modElem_sec (s : State) (e : ElemRef) (f : Elem → Elem) : (s.modElem e f).sec = s.sec := rfl
@[simp] theorem State.modElem_dbg (s : State) (e : ElemRef) (f : Elem → Elem) : (s.modElem e f).dbg = s.dbg := rfl
@[simp] theorem State.modElem_brkCnt (s : State) (e : ElemRef) (f : Elem → Elem) : (s.modElem e f).brkCnt = s.brkCnt := rfl
@[simp] theorem State.modElem_vaBump (s : State) (e : ElemRef) (f : Elem → Elem) : (s.modElem e f).vaBump = s.vaBump := rfl
@[simp] theorem State.modElem_nextAlloc (s : State) (e : ElemRef) (f : Elem → Elem) : (s.modElem e f).nextAlloc = s.nextAlloc := rfl
@[simp] theorem State.modElem_agenda (s : State) (e : ElemRef) (f : Elem → Elem) : (s.modElem e f).agenda = s.agenda := rfl
@[simp] theorem State.modElem_half (s : State) (e : ElemRef) (f : Elem → Elem) : (s.modElem e f).half = s.half := rfl
@[simp] theorem State.modElem_arg (s : State) (e : ElemRef) (f : Elem → Elem) : (s.modElem e f).arg = s.arg := rfl
@[simp] theorem State.modElem_inputs (s : State) (e : ElemRef) (f : Elem → Elem) : (s.modElem e f).inputs = s.inputs := rfl
@[simp] theorem State.modElem_grant (s : State) (e : ElemRef) (f : Elem → Elem) : (s.modElem e f).grant = s.grant := rfl
@[simp] theorem State.modElem_cur (s : State) (e : ElemRef) (f : Elem → Elem) : (s.modElem e f).cur = s.cur := rfl
@[simp] theorem State.modElem_serial (s : State) (e : ElemRef) (f : Elem → Elem) : (s.modElem e f).serial = s.serial := rfl
@[simp] theorem State.modElem_busy (s : State) (e : ElemRef) (f : Elem → Elem) : (s.modElem e f).busy = s.busy := rfl

@[simp] theorem State.modTile_cycle (s : State) (e : ElemRef) (f : Tile → Tile) : (s.modTile e f).cycle = s.cycle := rfl
@[simp] theorem State.modTile_ctxs (s : State) (e : ElemRef) (f : Tile → Tile) : (s.modTile e f).ctxs = s.ctxs := rfl
@[simp] theorem State.modTile_tiles (s : State) (e : ElemRef) (f : Tile → Tile) : (s.modTile e f).tiles = tmod s.tiles e f := rfl
@[simp] theorem State.modTile_banks (s : State) (e : ElemRef) (f : Tile → Tile) : (s.modTile e f).banks = s.banks := rfl
@[simp] theorem State.modTile_bars (s : State) (e : ElemRef) (f : Tile → Tile) : (s.modTile e f).bars = s.bars := rfl
@[simp] theorem State.modTile_elems (s : State) (e : ElemRef) (f : Tile → Tile) : (s.modTile e f).elems = s.elems := rfl
@[simp] theorem State.modTile_wins (s : State) (e : ElemRef) (f : Tile → Tile) : (s.modTile e f).wins = s.wins := rfl
@[simp] theorem State.modTile_chans (s : State) (e : ElemRef) (f : Tile → Tile) : (s.modTile e f).chans = s.chans := rfl
@[simp] theorem State.modTile_ops (s : State) (e : ElemRef) (f : Tile → Tile) : (s.modTile e f).ops = s.ops := rfl
@[simp] theorem State.modTile_gens (s : State) (e : ElemRef) (f : Tile → Tile) : (s.modTile e f).gens = s.gens := rfl
@[simp] theorem State.modTile_ress (s : State) (e : ElemRef) (f : Tile → Tile) : (s.modTile e f).ress = s.ress := rfl
@[simp] theorem State.modTile_softTiles (s : State) (e : ElemRef) (f : Tile → Tile) : (s.modTile e f).softTiles = s.softTiles := rfl
@[simp] theorem State.modTile_gddr (s : State) (e : ElemRef) (f : Tile → Tile) : (s.modTile e f).gddr = s.gddr := rfl
@[simp] theorem State.modTile_bulk (s : State) (e : ElemRef) (f : Tile → Tile) : (s.modTile e f).bulk = s.bulk := rfl
@[simp] theorem State.modTile_host (s : State) (e : ElemRef) (f : Tile → Tile) : (s.modTile e f).host = s.host := rfl
@[simp] theorem State.modTile_gddrTags (s : State) (e : ElemRef) (f : Tile → Tile) : (s.modTile e f).gddrTags = s.gddrTags := rfl
@[simp] theorem State.modTile_bulkTags (s : State) (e : ElemRef) (f : Tile → Tile) : (s.modTile e f).bulkTags = s.bulkTags := rfl
@[simp] theorem State.modTile_badMem (s : State) (e : ElemRef) (f : Tile → Tile) : (s.modTile e f).badMem = s.badMem := rfl
@[simp] theorem State.modTile_badBulk (s : State) (e : ElemRef) (f : Tile → Tile) : (s.modTile e f).badBulk = s.badBulk := rfl
@[simp] theorem State.modTile_accs (s : State) (e : ElemRef) (f : Tile → Tile) : (s.modTile e f).accs = s.accs := rfl
@[simp] theorem State.modTile_deferred (s : State) (e : ElemRef) (f : Tile → Tile) : (s.modTile e f).deferred = s.deferred := rfl
@[simp] theorem State.modTile_remotes (s : State) (e : ElemRef) (f : Tile → Tile) : (s.modTile e f).remotes = s.remotes := rfl
@[simp] theorem State.modTile_outbox (s : State) (e : ElemRef) (f : Tile → Tile) : (s.modTile e f).outbox = s.outbox := rfl
@[simp] theorem State.modTile_roots (s : State) (e : ElemRef) (f : Tile → Tile) : (s.modTile e f).roots = s.roots := rfl
@[simp] theorem State.modTile_ledger (s : State) (e : ElemRef) (f : Tile → Tile) : (s.modTile e f).ledger = s.ledger := rfl
@[simp] theorem State.modTile_temps (s : State) (e : ElemRef) (f : Tile → Tile) : (s.modTile e f).temps = s.temps := rfl
@[simp] theorem State.modTile_tripAt (s : State) (e : ElemRef) (f : Tile → Tile) : (s.modTile e f).tripAt = s.tripAt := rfl
@[simp] theorem State.modTile_nature (s : State) (e : ElemRef) (f : Tile → Tile) : (s.modTile e f).nature = s.nature := rfl
@[simp] theorem State.modTile_ports (s : State) (e : ElemRef) (f : Tile → Tile) : (s.modTile e f).ports = s.ports := rfl
@[simp] theorem State.modTile_asidGen (s : State) (e : ElemRef) (f : Tile → Tile) : (s.modTile e f).asidGen = s.asidGen := rfl
@[simp] theorem State.modTile_migrs (s : State) (e : ElemRef) (f : Tile → Tile) : (s.modTile e f).migrs = s.migrs := rfl
@[simp] theorem State.modTile_invals (s : State) (e : ElemRef) (f : Tile → Tile) : (s.modTile e f).invals = s.invals := rfl
@[simp] theorem State.modTile_faultq (s : State) (e : ElemRef) (f : Tile → Tile) : (s.modTile e f).faultq = s.faultq := rfl
@[simp] theorem State.modTile_cmds (s : State) (e : ElemRef) (f : Tile → Tile) : (s.modTile e f).cmds = s.cmds := rfl
@[simp] theorem State.modTile_queries (s : State) (e : ElemRef) (f : Tile → Tile) : (s.modTile e f).queries = s.queries := rfl
@[simp] theorem State.modTile_heldBeats (s : State) (e : ElemRef) (f : Tile → Tile) : (s.modTile e f).heldBeats = s.heldBeats := rfl
@[simp] theorem State.modTile_pools (s : State) (e : ElemRef) (f : Tile → Tile) : (s.modTile e f).pools = s.pools := rfl
@[simp] theorem State.modTile_shards (s : State) (e : ElemRef) (f : Tile → Tile) : (s.modTile e f).shards = s.shards := rfl
@[simp] theorem State.modTile_flows (s : State) (e : ElemRef) (f : Tile → Tile) : (s.modTile e f).flows = s.flows := rfl
@[simp] theorem State.modTile_inFlows (s : State) (e : ElemRef) (f : Tile → Tile) : (s.modTile e f).inFlows = s.inFlows := rfl
@[simp] theorem State.modTile_peerWait (s : State) (e : ElemRef) (f : Tile → Tile) : (s.modTile e f).peerWait = s.peerWait := rfl
@[simp] theorem State.modTile_groupArr (s : State) (e : ElemRef) (f : Tile → Tile) : (s.modTile e f).groupArr = s.groupArr := rfl
@[simp] theorem State.modTile_launches (s : State) (e : ElemRef) (f : Tile → Tile) : (s.modTile e f).launches = s.launches := rfl
@[simp] theorem State.modTile_launchSeq (s : State) (e : ElemRef) (f : Tile → Tile) : (s.modTile e f).launchSeq = s.launchSeq := rfl
@[simp] theorem State.modTile_loadSeq (s : State) (e : ElemRef) (f : Tile → Tile) : (s.modTile e f).loadSeq = s.loadSeq := rfl
@[simp] theorem State.modTile_nextRid (s : State) (e : ElemRef) (f : Tile → Tile) : (s.modTile e f).nextRid = s.nextRid := rfl
@[simp] theorem State.modTile_nextAcc (s : State) (e : ElemRef) (f : Tile → Tile) : (s.modTile e f).nextAcc = s.nextAcc := rfl
@[simp] theorem State.modTile_launchWin (s : State) (e : ElemRef) (f : Tile → Tile) : (s.modTile e f).launchWin = s.launchWin := rfl
@[simp] theorem State.modTile_launchBuf (s : State) (e : ElemRef) (f : Tile → Tile) : (s.modTile e f).launchBuf = s.launchBuf := rfl
@[simp] theorem State.modTile_launchHeld (s : State) (e : ElemRef) (f : Tile → Tile) : (s.modTile e f).launchHeld = s.launchHeld := rfl
@[simp] theorem State.modTile_eventWin (s : State) (e : ElemRef) (f : Tile → Tile) : (s.modTile e f).eventWin = s.eventWin := rfl
@[simp] theorem State.modTile_eventWait (s : State) (e : ElemRef) (f : Tile → Tile) : (s.modTile e f).eventWait = s.eventWait := rfl
@[simp] theorem State.modTile_forwards (s : State) (e : ElemRef) (f : Tile → Tile) : (s.modTile e f).forwards = s.forwards := rfl
@[simp] theorem State.modTile_fwdAt (s : State) (e : ElemRef) (f : Tile → Tile) : (s.modTile e f).fwdAt = s.fwdAt := rfl
@[simp] theorem State.modTile_letterDone (s : State) (e : ElemRef) (f : Tile → Tile) : (s.modTile e f).letterDone = s.letterDone := rfl
@[simp] theorem State.modTile_letterAt (s : State) (e : ElemRef) (f : Tile → Tile) : (s.modTile e f).letterAt = s.letterAt := rfl
@[simp] theorem State.modTile_sched (s : State) (e : ElemRef) (f : Tile → Tile) : (s.modTile e f).sched = s.sched := rfl
@[simp] theorem State.modTile_posts (s : State) (e : ElemRef) (f : Tile → Tile) : (s.modTile e f).posts = s.posts := rfl
@[simp] theorem State.modTile_ctxStore (s : State) (e : ElemRef) (f : Tile → Tile) : (s.modTile e f).ctxStore = s.ctxStore := rfl
@[simp] theorem State.modTile_bar0 (s : State) (e : ElemRef) (f : Tile → Tile) : (s.modTile e f).bar0 = s.bar0 := rfl
@[simp] theorem State.modTile_msix (s : State) (e : ElemRef) (f : Tile → Tile) : (s.modTile e f).msix = s.msix := rfl
@[simp] theorem State.modTile_dropCnt (s : State) (e : ElemRef) (f : Tile → Tile) : (s.modTile e f).dropCnt = s.dropCnt := rfl
@[simp] theorem State.modTile_linksDown (s : State) (e : ElemRef) (f : Tile → Tile) : (s.modTile e f).linksDown = s.linksDown := rfl
@[simp] theorem State.modTile_retries (s : State) (e : ElemRef) (f : Tile → Tile) : (s.modTile e f).retries = s.retries := rfl
@[simp] theorem State.modTile_power (s : State) (e : ElemRef) (f : Tile → Tile) : (s.modTile e f).power = s.power := rfl
@[simp] theorem State.modTile_selfRefresh (s : State) (e : ElemRef) (f : Tile → Tile) : (s.modTile e f).selfRefresh = s.selfRefresh := rfl
@[simp] theorem State.modTile_powerCmd (s : State) (e : ElemRef) (f : Tile → Tile) : (s.modTile e f).powerCmd = s.powerCmd := rfl
@[simp] theorem State.modTile_powerErr (s : State) (e : ElemRef) (f : Tile → Tile) : (s.modTile e f).powerErr = s.powerErr := rfl
@[simp] theorem State.modTile_tripWait (s : State) (e : ElemRef) (f : Tile → Tile) : (s.modTile e f).tripWait = s.tripWait := rfl
@[simp] theorem State.modTile_sec (s : State) (e : ElemRef) (f : Tile → Tile) : (s.modTile e f).sec = s.sec := rfl
@[simp] theorem State.modTile_dbg (s : State) (e : ElemRef) (f : Tile → Tile) : (s.modTile e f).dbg = s.dbg := rfl
@[simp] theorem State.modTile_brkCnt (s : State) (e : ElemRef) (f : Tile → Tile) : (s.modTile e f).brkCnt = s.brkCnt := rfl
@[simp] theorem State.modTile_vaBump (s : State) (e : ElemRef) (f : Tile → Tile) : (s.modTile e f).vaBump = s.vaBump := rfl
@[simp] theorem State.modTile_nextAlloc (s : State) (e : ElemRef) (f : Tile → Tile) : (s.modTile e f).nextAlloc = s.nextAlloc := rfl
@[simp] theorem State.modTile_agenda (s : State) (e : ElemRef) (f : Tile → Tile) : (s.modTile e f).agenda = s.agenda := rfl
@[simp] theorem State.modTile_half (s : State) (e : ElemRef) (f : Tile → Tile) : (s.modTile e f).half = s.half := rfl
@[simp] theorem State.modTile_arg (s : State) (e : ElemRef) (f : Tile → Tile) : (s.modTile e f).arg = s.arg := rfl
@[simp] theorem State.modTile_inputs (s : State) (e : ElemRef) (f : Tile → Tile) : (s.modTile e f).inputs = s.inputs := rfl
@[simp] theorem State.modTile_grant (s : State) (e : ElemRef) (f : Tile → Tile) : (s.modTile e f).grant = s.grant := rfl
@[simp] theorem State.modTile_cur (s : State) (e : ElemRef) (f : Tile → Tile) : (s.modTile e f).cur = s.cur := rfl
@[simp] theorem State.modTile_serial (s : State) (e : ElemRef) (f : Tile → Tile) : (s.modTile e f).serial = s.serial := rfl
@[simp] theorem State.modTile_busy (s : State) (e : ElemRef) (f : Tile → Tile) : (s.modTile e f).busy = s.busy := rfl

@[simp] theorem State.setBank_cycle (s : State) (b : BankRef) (x : Bank) : (s.setBank b x).cycle = s.cycle := rfl
@[simp] theorem State.setBank_ctxs (s : State) (b : BankRef) (x : Bank) : (s.setBank b x).ctxs = s.ctxs := rfl
@[simp] theorem State.setBank_tiles (s : State) (b : BankRef) (x : Bank) : (s.setBank b x).tiles = s.tiles := rfl
@[simp] theorem State.setBank_banks (s : State) (b : BankRef) (x : Bank) : (s.setBank b x).banks = tput s.banks b x := rfl
@[simp] theorem State.setBank_bars (s : State) (b : BankRef) (x : Bank) : (s.setBank b x).bars = s.bars := rfl
@[simp] theorem State.setBank_elems (s : State) (b : BankRef) (x : Bank) : (s.setBank b x).elems = s.elems := rfl
@[simp] theorem State.setBank_wins (s : State) (b : BankRef) (x : Bank) : (s.setBank b x).wins = s.wins := rfl
@[simp] theorem State.setBank_chans (s : State) (b : BankRef) (x : Bank) : (s.setBank b x).chans = s.chans := rfl
@[simp] theorem State.setBank_ops (s : State) (b : BankRef) (x : Bank) : (s.setBank b x).ops = s.ops := rfl
@[simp] theorem State.setBank_gens (s : State) (b : BankRef) (x : Bank) : (s.setBank b x).gens = s.gens := rfl
@[simp] theorem State.setBank_ress (s : State) (b : BankRef) (x : Bank) : (s.setBank b x).ress = s.ress := rfl
@[simp] theorem State.setBank_softTiles (s : State) (b : BankRef) (x : Bank) : (s.setBank b x).softTiles = s.softTiles := rfl
@[simp] theorem State.setBank_gddr (s : State) (b : BankRef) (x : Bank) : (s.setBank b x).gddr = s.gddr := rfl
@[simp] theorem State.setBank_bulk (s : State) (b : BankRef) (x : Bank) : (s.setBank b x).bulk = s.bulk := rfl
@[simp] theorem State.setBank_host (s : State) (b : BankRef) (x : Bank) : (s.setBank b x).host = s.host := rfl
@[simp] theorem State.setBank_gddrTags (s : State) (b : BankRef) (x : Bank) : (s.setBank b x).gddrTags = s.gddrTags := rfl
@[simp] theorem State.setBank_bulkTags (s : State) (b : BankRef) (x : Bank) : (s.setBank b x).bulkTags = s.bulkTags := rfl
@[simp] theorem State.setBank_badMem (s : State) (b : BankRef) (x : Bank) : (s.setBank b x).badMem = s.badMem := rfl
@[simp] theorem State.setBank_badBulk (s : State) (b : BankRef) (x : Bank) : (s.setBank b x).badBulk = s.badBulk := rfl
@[simp] theorem State.setBank_accs (s : State) (b : BankRef) (x : Bank) : (s.setBank b x).accs = s.accs := rfl
@[simp] theorem State.setBank_deferred (s : State) (b : BankRef) (x : Bank) : (s.setBank b x).deferred = s.deferred := rfl
@[simp] theorem State.setBank_remotes (s : State) (b : BankRef) (x : Bank) : (s.setBank b x).remotes = s.remotes := rfl
@[simp] theorem State.setBank_outbox (s : State) (b : BankRef) (x : Bank) : (s.setBank b x).outbox = s.outbox := rfl
@[simp] theorem State.setBank_roots (s : State) (b : BankRef) (x : Bank) : (s.setBank b x).roots = s.roots := rfl
@[simp] theorem State.setBank_ledger (s : State) (b : BankRef) (x : Bank) : (s.setBank b x).ledger = s.ledger := rfl
@[simp] theorem State.setBank_temps (s : State) (b : BankRef) (x : Bank) : (s.setBank b x).temps = s.temps := rfl
@[simp] theorem State.setBank_tripAt (s : State) (b : BankRef) (x : Bank) : (s.setBank b x).tripAt = s.tripAt := rfl
@[simp] theorem State.setBank_nature (s : State) (b : BankRef) (x : Bank) : (s.setBank b x).nature = s.nature := rfl
@[simp] theorem State.setBank_ports (s : State) (b : BankRef) (x : Bank) : (s.setBank b x).ports = s.ports := rfl
@[simp] theorem State.setBank_asidGen (s : State) (b : BankRef) (x : Bank) : (s.setBank b x).asidGen = s.asidGen := rfl
@[simp] theorem State.setBank_migrs (s : State) (b : BankRef) (x : Bank) : (s.setBank b x).migrs = s.migrs := rfl
@[simp] theorem State.setBank_invals (s : State) (b : BankRef) (x : Bank) : (s.setBank b x).invals = s.invals := rfl
@[simp] theorem State.setBank_faultq (s : State) (b : BankRef) (x : Bank) : (s.setBank b x).faultq = s.faultq := rfl
@[simp] theorem State.setBank_cmds (s : State) (b : BankRef) (x : Bank) : (s.setBank b x).cmds = s.cmds := rfl
@[simp] theorem State.setBank_queries (s : State) (b : BankRef) (x : Bank) : (s.setBank b x).queries = s.queries := rfl
@[simp] theorem State.setBank_heldBeats (s : State) (b : BankRef) (x : Bank) : (s.setBank b x).heldBeats = s.heldBeats := rfl
@[simp] theorem State.setBank_pools (s : State) (b : BankRef) (x : Bank) : (s.setBank b x).pools = s.pools := rfl
@[simp] theorem State.setBank_shards (s : State) (b : BankRef) (x : Bank) : (s.setBank b x).shards = s.shards := rfl
@[simp] theorem State.setBank_flows (s : State) (b : BankRef) (x : Bank) : (s.setBank b x).flows = s.flows := rfl
@[simp] theorem State.setBank_inFlows (s : State) (b : BankRef) (x : Bank) : (s.setBank b x).inFlows = s.inFlows := rfl
@[simp] theorem State.setBank_peerWait (s : State) (b : BankRef) (x : Bank) : (s.setBank b x).peerWait = s.peerWait := rfl
@[simp] theorem State.setBank_groupArr (s : State) (b : BankRef) (x : Bank) : (s.setBank b x).groupArr = s.groupArr := rfl
@[simp] theorem State.setBank_launches (s : State) (b : BankRef) (x : Bank) : (s.setBank b x).launches = s.launches := rfl
@[simp] theorem State.setBank_launchSeq (s : State) (b : BankRef) (x : Bank) : (s.setBank b x).launchSeq = s.launchSeq := rfl
@[simp] theorem State.setBank_loadSeq (s : State) (b : BankRef) (x : Bank) : (s.setBank b x).loadSeq = s.loadSeq := rfl
@[simp] theorem State.setBank_nextRid (s : State) (b : BankRef) (x : Bank) : (s.setBank b x).nextRid = s.nextRid := rfl
@[simp] theorem State.setBank_nextAcc (s : State) (b : BankRef) (x : Bank) : (s.setBank b x).nextAcc = s.nextAcc := rfl
@[simp] theorem State.setBank_launchWin (s : State) (b : BankRef) (x : Bank) : (s.setBank b x).launchWin = s.launchWin := rfl
@[simp] theorem State.setBank_launchBuf (s : State) (b : BankRef) (x : Bank) : (s.setBank b x).launchBuf = s.launchBuf := rfl
@[simp] theorem State.setBank_launchHeld (s : State) (b : BankRef) (x : Bank) : (s.setBank b x).launchHeld = s.launchHeld := rfl
@[simp] theorem State.setBank_eventWin (s : State) (b : BankRef) (x : Bank) : (s.setBank b x).eventWin = s.eventWin := rfl
@[simp] theorem State.setBank_eventWait (s : State) (b : BankRef) (x : Bank) : (s.setBank b x).eventWait = s.eventWait := rfl
@[simp] theorem State.setBank_forwards (s : State) (b : BankRef) (x : Bank) : (s.setBank b x).forwards = s.forwards := rfl
@[simp] theorem State.setBank_fwdAt (s : State) (b : BankRef) (x : Bank) : (s.setBank b x).fwdAt = s.fwdAt := rfl
@[simp] theorem State.setBank_letterDone (s : State) (b : BankRef) (x : Bank) : (s.setBank b x).letterDone = s.letterDone := rfl
@[simp] theorem State.setBank_letterAt (s : State) (b : BankRef) (x : Bank) : (s.setBank b x).letterAt = s.letterAt := rfl
@[simp] theorem State.setBank_sched (s : State) (b : BankRef) (x : Bank) : (s.setBank b x).sched = s.sched := rfl
@[simp] theorem State.setBank_posts (s : State) (b : BankRef) (x : Bank) : (s.setBank b x).posts = s.posts := rfl
@[simp] theorem State.setBank_ctxStore (s : State) (b : BankRef) (x : Bank) : (s.setBank b x).ctxStore = s.ctxStore := rfl
@[simp] theorem State.setBank_bar0 (s : State) (b : BankRef) (x : Bank) : (s.setBank b x).bar0 = s.bar0 := rfl
@[simp] theorem State.setBank_msix (s : State) (b : BankRef) (x : Bank) : (s.setBank b x).msix = s.msix := rfl
@[simp] theorem State.setBank_dropCnt (s : State) (b : BankRef) (x : Bank) : (s.setBank b x).dropCnt = s.dropCnt := rfl
@[simp] theorem State.setBank_linksDown (s : State) (b : BankRef) (x : Bank) : (s.setBank b x).linksDown = s.linksDown := rfl
@[simp] theorem State.setBank_retries (s : State) (b : BankRef) (x : Bank) : (s.setBank b x).retries = s.retries := rfl
@[simp] theorem State.setBank_power (s : State) (b : BankRef) (x : Bank) : (s.setBank b x).power = s.power := rfl
@[simp] theorem State.setBank_selfRefresh (s : State) (b : BankRef) (x : Bank) : (s.setBank b x).selfRefresh = s.selfRefresh := rfl
@[simp] theorem State.setBank_powerCmd (s : State) (b : BankRef) (x : Bank) : (s.setBank b x).powerCmd = s.powerCmd := rfl
@[simp] theorem State.setBank_powerErr (s : State) (b : BankRef) (x : Bank) : (s.setBank b x).powerErr = s.powerErr := rfl
@[simp] theorem State.setBank_tripWait (s : State) (b : BankRef) (x : Bank) : (s.setBank b x).tripWait = s.tripWait := rfl
@[simp] theorem State.setBank_sec (s : State) (b : BankRef) (x : Bank) : (s.setBank b x).sec = s.sec := rfl
@[simp] theorem State.setBank_dbg (s : State) (b : BankRef) (x : Bank) : (s.setBank b x).dbg = s.dbg := rfl
@[simp] theorem State.setBank_brkCnt (s : State) (b : BankRef) (x : Bank) : (s.setBank b x).brkCnt = s.brkCnt := rfl
@[simp] theorem State.setBank_vaBump (s : State) (b : BankRef) (x : Bank) : (s.setBank b x).vaBump = s.vaBump := rfl
@[simp] theorem State.setBank_nextAlloc (s : State) (b : BankRef) (x : Bank) : (s.setBank b x).nextAlloc = s.nextAlloc := rfl
@[simp] theorem State.setBank_agenda (s : State) (b : BankRef) (x : Bank) : (s.setBank b x).agenda = s.agenda := rfl
@[simp] theorem State.setBank_half (s : State) (b : BankRef) (x : Bank) : (s.setBank b x).half = s.half := rfl
@[simp] theorem State.setBank_arg (s : State) (b : BankRef) (x : Bank) : (s.setBank b x).arg = s.arg := rfl
@[simp] theorem State.setBank_inputs (s : State) (b : BankRef) (x : Bank) : (s.setBank b x).inputs = s.inputs := rfl
@[simp] theorem State.setBank_grant (s : State) (b : BankRef) (x : Bank) : (s.setBank b x).grant = s.grant := rfl
@[simp] theorem State.setBank_cur (s : State) (b : BankRef) (x : Bank) : (s.setBank b x).cur = s.cur := rfl
@[simp] theorem State.setBank_serial (s : State) (b : BankRef) (x : Bank) : (s.setBank b x).serial = s.serial := rfl
@[simp] theorem State.setBank_busy (s : State) (b : BankRef) (x : Bank) : (s.setBank b x).busy = s.busy := rfl

@[simp] theorem State.setWin_cycle (s : State) (w : WinRef) (x : Window) : (s.setWin w x).cycle = s.cycle := rfl
@[simp] theorem State.setWin_ctxs (s : State) (w : WinRef) (x : Window) : (s.setWin w x).ctxs = s.ctxs := rfl
@[simp] theorem State.setWin_tiles (s : State) (w : WinRef) (x : Window) : (s.setWin w x).tiles = s.tiles := rfl
@[simp] theorem State.setWin_banks (s : State) (w : WinRef) (x : Window) : (s.setWin w x).banks = s.banks := rfl
@[simp] theorem State.setWin_bars (s : State) (w : WinRef) (x : Window) : (s.setWin w x).bars = s.bars := rfl
@[simp] theorem State.setWin_elems (s : State) (w : WinRef) (x : Window) : (s.setWin w x).elems = s.elems := rfl
@[simp] theorem State.setWin_wins (s : State) (w : WinRef) (x : Window) : (s.setWin w x).wins = tput s.wins w x := rfl
@[simp] theorem State.setWin_chans (s : State) (w : WinRef) (x : Window) : (s.setWin w x).chans = s.chans := rfl
@[simp] theorem State.setWin_ops (s : State) (w : WinRef) (x : Window) : (s.setWin w x).ops = s.ops := rfl
@[simp] theorem State.setWin_gens (s : State) (w : WinRef) (x : Window) : (s.setWin w x).gens = s.gens := rfl
@[simp] theorem State.setWin_ress (s : State) (w : WinRef) (x : Window) : (s.setWin w x).ress = s.ress := rfl
@[simp] theorem State.setWin_softTiles (s : State) (w : WinRef) (x : Window) : (s.setWin w x).softTiles = s.softTiles := rfl
@[simp] theorem State.setWin_gddr (s : State) (w : WinRef) (x : Window) : (s.setWin w x).gddr = s.gddr := rfl
@[simp] theorem State.setWin_bulk (s : State) (w : WinRef) (x : Window) : (s.setWin w x).bulk = s.bulk := rfl
@[simp] theorem State.setWin_host (s : State) (w : WinRef) (x : Window) : (s.setWin w x).host = s.host := rfl
@[simp] theorem State.setWin_gddrTags (s : State) (w : WinRef) (x : Window) : (s.setWin w x).gddrTags = s.gddrTags := rfl
@[simp] theorem State.setWin_bulkTags (s : State) (w : WinRef) (x : Window) : (s.setWin w x).bulkTags = s.bulkTags := rfl
@[simp] theorem State.setWin_badMem (s : State) (w : WinRef) (x : Window) : (s.setWin w x).badMem = s.badMem := rfl
@[simp] theorem State.setWin_badBulk (s : State) (w : WinRef) (x : Window) : (s.setWin w x).badBulk = s.badBulk := rfl
@[simp] theorem State.setWin_accs (s : State) (w : WinRef) (x : Window) : (s.setWin w x).accs = s.accs := rfl
@[simp] theorem State.setWin_deferred (s : State) (w : WinRef) (x : Window) : (s.setWin w x).deferred = s.deferred := rfl
@[simp] theorem State.setWin_remotes (s : State) (w : WinRef) (x : Window) : (s.setWin w x).remotes = s.remotes := rfl
@[simp] theorem State.setWin_outbox (s : State) (w : WinRef) (x : Window) : (s.setWin w x).outbox = s.outbox := rfl
@[simp] theorem State.setWin_roots (s : State) (w : WinRef) (x : Window) : (s.setWin w x).roots = s.roots := rfl
@[simp] theorem State.setWin_ledger (s : State) (w : WinRef) (x : Window) : (s.setWin w x).ledger = s.ledger := rfl
@[simp] theorem State.setWin_temps (s : State) (w : WinRef) (x : Window) : (s.setWin w x).temps = s.temps := rfl
@[simp] theorem State.setWin_tripAt (s : State) (w : WinRef) (x : Window) : (s.setWin w x).tripAt = s.tripAt := rfl
@[simp] theorem State.setWin_nature (s : State) (w : WinRef) (x : Window) : (s.setWin w x).nature = s.nature := rfl
@[simp] theorem State.setWin_ports (s : State) (w : WinRef) (x : Window) : (s.setWin w x).ports = s.ports := rfl
@[simp] theorem State.setWin_asidGen (s : State) (w : WinRef) (x : Window) : (s.setWin w x).asidGen = s.asidGen := rfl
@[simp] theorem State.setWin_migrs (s : State) (w : WinRef) (x : Window) : (s.setWin w x).migrs = s.migrs := rfl
@[simp] theorem State.setWin_invals (s : State) (w : WinRef) (x : Window) : (s.setWin w x).invals = s.invals := rfl
@[simp] theorem State.setWin_faultq (s : State) (w : WinRef) (x : Window) : (s.setWin w x).faultq = s.faultq := rfl
@[simp] theorem State.setWin_cmds (s : State) (w : WinRef) (x : Window) : (s.setWin w x).cmds = s.cmds := rfl
@[simp] theorem State.setWin_queries (s : State) (w : WinRef) (x : Window) : (s.setWin w x).queries = s.queries := rfl
@[simp] theorem State.setWin_heldBeats (s : State) (w : WinRef) (x : Window) : (s.setWin w x).heldBeats = s.heldBeats := rfl
@[simp] theorem State.setWin_pools (s : State) (w : WinRef) (x : Window) : (s.setWin w x).pools = s.pools := rfl
@[simp] theorem State.setWin_shards (s : State) (w : WinRef) (x : Window) : (s.setWin w x).shards = s.shards := rfl
@[simp] theorem State.setWin_flows (s : State) (w : WinRef) (x : Window) : (s.setWin w x).flows = s.flows := rfl
@[simp] theorem State.setWin_inFlows (s : State) (w : WinRef) (x : Window) : (s.setWin w x).inFlows = s.inFlows := rfl
@[simp] theorem State.setWin_peerWait (s : State) (w : WinRef) (x : Window) : (s.setWin w x).peerWait = s.peerWait := rfl
@[simp] theorem State.setWin_groupArr (s : State) (w : WinRef) (x : Window) : (s.setWin w x).groupArr = s.groupArr := rfl
@[simp] theorem State.setWin_launches (s : State) (w : WinRef) (x : Window) : (s.setWin w x).launches = s.launches := rfl
@[simp] theorem State.setWin_launchSeq (s : State) (w : WinRef) (x : Window) : (s.setWin w x).launchSeq = s.launchSeq := rfl
@[simp] theorem State.setWin_loadSeq (s : State) (w : WinRef) (x : Window) : (s.setWin w x).loadSeq = s.loadSeq := rfl
@[simp] theorem State.setWin_nextRid (s : State) (w : WinRef) (x : Window) : (s.setWin w x).nextRid = s.nextRid := rfl
@[simp] theorem State.setWin_nextAcc (s : State) (w : WinRef) (x : Window) : (s.setWin w x).nextAcc = s.nextAcc := rfl
@[simp] theorem State.setWin_launchWin (s : State) (w : WinRef) (x : Window) : (s.setWin w x).launchWin = s.launchWin := rfl
@[simp] theorem State.setWin_launchBuf (s : State) (w : WinRef) (x : Window) : (s.setWin w x).launchBuf = s.launchBuf := rfl
@[simp] theorem State.setWin_launchHeld (s : State) (w : WinRef) (x : Window) : (s.setWin w x).launchHeld = s.launchHeld := rfl
@[simp] theorem State.setWin_eventWin (s : State) (w : WinRef) (x : Window) : (s.setWin w x).eventWin = s.eventWin := rfl
@[simp] theorem State.setWin_eventWait (s : State) (w : WinRef) (x : Window) : (s.setWin w x).eventWait = s.eventWait := rfl
@[simp] theorem State.setWin_forwards (s : State) (w : WinRef) (x : Window) : (s.setWin w x).forwards = s.forwards := rfl
@[simp] theorem State.setWin_fwdAt (s : State) (w : WinRef) (x : Window) : (s.setWin w x).fwdAt = s.fwdAt := rfl
@[simp] theorem State.setWin_letterDone (s : State) (w : WinRef) (x : Window) : (s.setWin w x).letterDone = s.letterDone := rfl
@[simp] theorem State.setWin_letterAt (s : State) (w : WinRef) (x : Window) : (s.setWin w x).letterAt = s.letterAt := rfl
@[simp] theorem State.setWin_sched (s : State) (w : WinRef) (x : Window) : (s.setWin w x).sched = s.sched := rfl
@[simp] theorem State.setWin_posts (s : State) (w : WinRef) (x : Window) : (s.setWin w x).posts = s.posts := rfl
@[simp] theorem State.setWin_ctxStore (s : State) (w : WinRef) (x : Window) : (s.setWin w x).ctxStore = s.ctxStore := rfl
@[simp] theorem State.setWin_bar0 (s : State) (w : WinRef) (x : Window) : (s.setWin w x).bar0 = s.bar0 := rfl
@[simp] theorem State.setWin_msix (s : State) (w : WinRef) (x : Window) : (s.setWin w x).msix = s.msix := rfl
@[simp] theorem State.setWin_dropCnt (s : State) (w : WinRef) (x : Window) : (s.setWin w x).dropCnt = s.dropCnt := rfl
@[simp] theorem State.setWin_linksDown (s : State) (w : WinRef) (x : Window) : (s.setWin w x).linksDown = s.linksDown := rfl
@[simp] theorem State.setWin_retries (s : State) (w : WinRef) (x : Window) : (s.setWin w x).retries = s.retries := rfl
@[simp] theorem State.setWin_power (s : State) (w : WinRef) (x : Window) : (s.setWin w x).power = s.power := rfl
@[simp] theorem State.setWin_selfRefresh (s : State) (w : WinRef) (x : Window) : (s.setWin w x).selfRefresh = s.selfRefresh := rfl
@[simp] theorem State.setWin_powerCmd (s : State) (w : WinRef) (x : Window) : (s.setWin w x).powerCmd = s.powerCmd := rfl
@[simp] theorem State.setWin_powerErr (s : State) (w : WinRef) (x : Window) : (s.setWin w x).powerErr = s.powerErr := rfl
@[simp] theorem State.setWin_tripWait (s : State) (w : WinRef) (x : Window) : (s.setWin w x).tripWait = s.tripWait := rfl
@[simp] theorem State.setWin_sec (s : State) (w : WinRef) (x : Window) : (s.setWin w x).sec = s.sec := rfl
@[simp] theorem State.setWin_dbg (s : State) (w : WinRef) (x : Window) : (s.setWin w x).dbg = s.dbg := rfl
@[simp] theorem State.setWin_brkCnt (s : State) (w : WinRef) (x : Window) : (s.setWin w x).brkCnt = s.brkCnt := rfl
@[simp] theorem State.setWin_vaBump (s : State) (w : WinRef) (x : Window) : (s.setWin w x).vaBump = s.vaBump := rfl
@[simp] theorem State.setWin_nextAlloc (s : State) (w : WinRef) (x : Window) : (s.setWin w x).nextAlloc = s.nextAlloc := rfl
@[simp] theorem State.setWin_agenda (s : State) (w : WinRef) (x : Window) : (s.setWin w x).agenda = s.agenda := rfl
@[simp] theorem State.setWin_half (s : State) (w : WinRef) (x : Window) : (s.setWin w x).half = s.half := rfl
@[simp] theorem State.setWin_arg (s : State) (w : WinRef) (x : Window) : (s.setWin w x).arg = s.arg := rfl
@[simp] theorem State.setWin_inputs (s : State) (w : WinRef) (x : Window) : (s.setWin w x).inputs = s.inputs := rfl
@[simp] theorem State.setWin_grant (s : State) (w : WinRef) (x : Window) : (s.setWin w x).grant = s.grant := rfl
@[simp] theorem State.setWin_cur (s : State) (w : WinRef) (x : Window) : (s.setWin w x).cur = s.cur := rfl
@[simp] theorem State.setWin_serial (s : State) (w : WinRef) (x : Window) : (s.setWin w x).serial = s.serial := rfl
@[simp] theorem State.setWin_busy (s : State) (w : WinRef) (x : Window) : (s.setWin w x).busy = s.busy := rfl

@[simp] theorem State.modWin_cycle (s : State) (w : WinRef) (f : Window → Window) : (s.modWin w f).cycle = s.cycle := rfl
@[simp] theorem State.modWin_ctxs (s : State) (w : WinRef) (f : Window → Window) : (s.modWin w f).ctxs = s.ctxs := rfl
@[simp] theorem State.modWin_tiles (s : State) (w : WinRef) (f : Window → Window) : (s.modWin w f).tiles = s.tiles := rfl
@[simp] theorem State.modWin_banks (s : State) (w : WinRef) (f : Window → Window) : (s.modWin w f).banks = s.banks := rfl
@[simp] theorem State.modWin_bars (s : State) (w : WinRef) (f : Window → Window) : (s.modWin w f).bars = s.bars := rfl
@[simp] theorem State.modWin_elems (s : State) (w : WinRef) (f : Window → Window) : (s.modWin w f).elems = s.elems := rfl
@[simp] theorem State.modWin_wins (s : State) (w : WinRef) (f : Window → Window) : (s.modWin w f).wins = tmod s.wins w f := rfl
@[simp] theorem State.modWin_chans (s : State) (w : WinRef) (f : Window → Window) : (s.modWin w f).chans = s.chans := rfl
@[simp] theorem State.modWin_ops (s : State) (w : WinRef) (f : Window → Window) : (s.modWin w f).ops = s.ops := rfl
@[simp] theorem State.modWin_gens (s : State) (w : WinRef) (f : Window → Window) : (s.modWin w f).gens = s.gens := rfl
@[simp] theorem State.modWin_ress (s : State) (w : WinRef) (f : Window → Window) : (s.modWin w f).ress = s.ress := rfl
@[simp] theorem State.modWin_softTiles (s : State) (w : WinRef) (f : Window → Window) : (s.modWin w f).softTiles = s.softTiles := rfl
@[simp] theorem State.modWin_gddr (s : State) (w : WinRef) (f : Window → Window) : (s.modWin w f).gddr = s.gddr := rfl
@[simp] theorem State.modWin_bulk (s : State) (w : WinRef) (f : Window → Window) : (s.modWin w f).bulk = s.bulk := rfl
@[simp] theorem State.modWin_host (s : State) (w : WinRef) (f : Window → Window) : (s.modWin w f).host = s.host := rfl
@[simp] theorem State.modWin_gddrTags (s : State) (w : WinRef) (f : Window → Window) : (s.modWin w f).gddrTags = s.gddrTags := rfl
@[simp] theorem State.modWin_bulkTags (s : State) (w : WinRef) (f : Window → Window) : (s.modWin w f).bulkTags = s.bulkTags := rfl
@[simp] theorem State.modWin_badMem (s : State) (w : WinRef) (f : Window → Window) : (s.modWin w f).badMem = s.badMem := rfl
@[simp] theorem State.modWin_badBulk (s : State) (w : WinRef) (f : Window → Window) : (s.modWin w f).badBulk = s.badBulk := rfl
@[simp] theorem State.modWin_accs (s : State) (w : WinRef) (f : Window → Window) : (s.modWin w f).accs = s.accs := rfl
@[simp] theorem State.modWin_deferred (s : State) (w : WinRef) (f : Window → Window) : (s.modWin w f).deferred = s.deferred := rfl
@[simp] theorem State.modWin_remotes (s : State) (w : WinRef) (f : Window → Window) : (s.modWin w f).remotes = s.remotes := rfl
@[simp] theorem State.modWin_outbox (s : State) (w : WinRef) (f : Window → Window) : (s.modWin w f).outbox = s.outbox := rfl
@[simp] theorem State.modWin_roots (s : State) (w : WinRef) (f : Window → Window) : (s.modWin w f).roots = s.roots := rfl
@[simp] theorem State.modWin_ledger (s : State) (w : WinRef) (f : Window → Window) : (s.modWin w f).ledger = s.ledger := rfl
@[simp] theorem State.modWin_temps (s : State) (w : WinRef) (f : Window → Window) : (s.modWin w f).temps = s.temps := rfl
@[simp] theorem State.modWin_tripAt (s : State) (w : WinRef) (f : Window → Window) : (s.modWin w f).tripAt = s.tripAt := rfl
@[simp] theorem State.modWin_nature (s : State) (w : WinRef) (f : Window → Window) : (s.modWin w f).nature = s.nature := rfl
@[simp] theorem State.modWin_ports (s : State) (w : WinRef) (f : Window → Window) : (s.modWin w f).ports = s.ports := rfl
@[simp] theorem State.modWin_asidGen (s : State) (w : WinRef) (f : Window → Window) : (s.modWin w f).asidGen = s.asidGen := rfl
@[simp] theorem State.modWin_migrs (s : State) (w : WinRef) (f : Window → Window) : (s.modWin w f).migrs = s.migrs := rfl
@[simp] theorem State.modWin_invals (s : State) (w : WinRef) (f : Window → Window) : (s.modWin w f).invals = s.invals := rfl
@[simp] theorem State.modWin_faultq (s : State) (w : WinRef) (f : Window → Window) : (s.modWin w f).faultq = s.faultq := rfl
@[simp] theorem State.modWin_cmds (s : State) (w : WinRef) (f : Window → Window) : (s.modWin w f).cmds = s.cmds := rfl
@[simp] theorem State.modWin_queries (s : State) (w : WinRef) (f : Window → Window) : (s.modWin w f).queries = s.queries := rfl
@[simp] theorem State.modWin_heldBeats (s : State) (w : WinRef) (f : Window → Window) : (s.modWin w f).heldBeats = s.heldBeats := rfl
@[simp] theorem State.modWin_pools (s : State) (w : WinRef) (f : Window → Window) : (s.modWin w f).pools = s.pools := rfl
@[simp] theorem State.modWin_shards (s : State) (w : WinRef) (f : Window → Window) : (s.modWin w f).shards = s.shards := rfl
@[simp] theorem State.modWin_flows (s : State) (w : WinRef) (f : Window → Window) : (s.modWin w f).flows = s.flows := rfl
@[simp] theorem State.modWin_inFlows (s : State) (w : WinRef) (f : Window → Window) : (s.modWin w f).inFlows = s.inFlows := rfl
@[simp] theorem State.modWin_peerWait (s : State) (w : WinRef) (f : Window → Window) : (s.modWin w f).peerWait = s.peerWait := rfl
@[simp] theorem State.modWin_groupArr (s : State) (w : WinRef) (f : Window → Window) : (s.modWin w f).groupArr = s.groupArr := rfl
@[simp] theorem State.modWin_launches (s : State) (w : WinRef) (f : Window → Window) : (s.modWin w f).launches = s.launches := rfl
@[simp] theorem State.modWin_launchSeq (s : State) (w : WinRef) (f : Window → Window) : (s.modWin w f).launchSeq = s.launchSeq := rfl
@[simp] theorem State.modWin_loadSeq (s : State) (w : WinRef) (f : Window → Window) : (s.modWin w f).loadSeq = s.loadSeq := rfl
@[simp] theorem State.modWin_nextRid (s : State) (w : WinRef) (f : Window → Window) : (s.modWin w f).nextRid = s.nextRid := rfl
@[simp] theorem State.modWin_nextAcc (s : State) (w : WinRef) (f : Window → Window) : (s.modWin w f).nextAcc = s.nextAcc := rfl
@[simp] theorem State.modWin_launchWin (s : State) (w : WinRef) (f : Window → Window) : (s.modWin w f).launchWin = s.launchWin := rfl
@[simp] theorem State.modWin_launchBuf (s : State) (w : WinRef) (f : Window → Window) : (s.modWin w f).launchBuf = s.launchBuf := rfl
@[simp] theorem State.modWin_launchHeld (s : State) (w : WinRef) (f : Window → Window) : (s.modWin w f).launchHeld = s.launchHeld := rfl
@[simp] theorem State.modWin_eventWin (s : State) (w : WinRef) (f : Window → Window) : (s.modWin w f).eventWin = s.eventWin := rfl
@[simp] theorem State.modWin_eventWait (s : State) (w : WinRef) (f : Window → Window) : (s.modWin w f).eventWait = s.eventWait := rfl
@[simp] theorem State.modWin_forwards (s : State) (w : WinRef) (f : Window → Window) : (s.modWin w f).forwards = s.forwards := rfl
@[simp] theorem State.modWin_fwdAt (s : State) (w : WinRef) (f : Window → Window) : (s.modWin w f).fwdAt = s.fwdAt := rfl
@[simp] theorem State.modWin_letterDone (s : State) (w : WinRef) (f : Window → Window) : (s.modWin w f).letterDone = s.letterDone := rfl
@[simp] theorem State.modWin_letterAt (s : State) (w : WinRef) (f : Window → Window) : (s.modWin w f).letterAt = s.letterAt := rfl
@[simp] theorem State.modWin_sched (s : State) (w : WinRef) (f : Window → Window) : (s.modWin w f).sched = s.sched := rfl
@[simp] theorem State.modWin_posts (s : State) (w : WinRef) (f : Window → Window) : (s.modWin w f).posts = s.posts := rfl
@[simp] theorem State.modWin_ctxStore (s : State) (w : WinRef) (f : Window → Window) : (s.modWin w f).ctxStore = s.ctxStore := rfl
@[simp] theorem State.modWin_bar0 (s : State) (w : WinRef) (f : Window → Window) : (s.modWin w f).bar0 = s.bar0 := rfl
@[simp] theorem State.modWin_msix (s : State) (w : WinRef) (f : Window → Window) : (s.modWin w f).msix = s.msix := rfl
@[simp] theorem State.modWin_dropCnt (s : State) (w : WinRef) (f : Window → Window) : (s.modWin w f).dropCnt = s.dropCnt := rfl
@[simp] theorem State.modWin_linksDown (s : State) (w : WinRef) (f : Window → Window) : (s.modWin w f).linksDown = s.linksDown := rfl
@[simp] theorem State.modWin_retries (s : State) (w : WinRef) (f : Window → Window) : (s.modWin w f).retries = s.retries := rfl
@[simp] theorem State.modWin_power (s : State) (w : WinRef) (f : Window → Window) : (s.modWin w f).power = s.power := rfl
@[simp] theorem State.modWin_selfRefresh (s : State) (w : WinRef) (f : Window → Window) : (s.modWin w f).selfRefresh = s.selfRefresh := rfl
@[simp] theorem State.modWin_powerCmd (s : State) (w : WinRef) (f : Window → Window) : (s.modWin w f).powerCmd = s.powerCmd := rfl
@[simp] theorem State.modWin_powerErr (s : State) (w : WinRef) (f : Window → Window) : (s.modWin w f).powerErr = s.powerErr := rfl
@[simp] theorem State.modWin_tripWait (s : State) (w : WinRef) (f : Window → Window) : (s.modWin w f).tripWait = s.tripWait := rfl
@[simp] theorem State.modWin_sec (s : State) (w : WinRef) (f : Window → Window) : (s.modWin w f).sec = s.sec := rfl
@[simp] theorem State.modWin_dbg (s : State) (w : WinRef) (f : Window → Window) : (s.modWin w f).dbg = s.dbg := rfl
@[simp] theorem State.modWin_brkCnt (s : State) (w : WinRef) (f : Window → Window) : (s.modWin w f).brkCnt = s.brkCnt := rfl
@[simp] theorem State.modWin_vaBump (s : State) (w : WinRef) (f : Window → Window) : (s.modWin w f).vaBump = s.vaBump := rfl
@[simp] theorem State.modWin_nextAlloc (s : State) (w : WinRef) (f : Window → Window) : (s.modWin w f).nextAlloc = s.nextAlloc := rfl
@[simp] theorem State.modWin_agenda (s : State) (w : WinRef) (f : Window → Window) : (s.modWin w f).agenda = s.agenda := rfl
@[simp] theorem State.modWin_half (s : State) (w : WinRef) (f : Window → Window) : (s.modWin w f).half = s.half := rfl
@[simp] theorem State.modWin_arg (s : State) (w : WinRef) (f : Window → Window) : (s.modWin w f).arg = s.arg := rfl
@[simp] theorem State.modWin_inputs (s : State) (w : WinRef) (f : Window → Window) : (s.modWin w f).inputs = s.inputs := rfl
@[simp] theorem State.modWin_grant (s : State) (w : WinRef) (f : Window → Window) : (s.modWin w f).grant = s.grant := rfl
@[simp] theorem State.modWin_cur (s : State) (w : WinRef) (f : Window → Window) : (s.modWin w f).cur = s.cur := rfl
@[simp] theorem State.modWin_serial (s : State) (w : WinRef) (f : Window → Window) : (s.modWin w f).serial = s.serial := rfl
@[simp] theorem State.modWin_busy (s : State) (w : WinRef) (f : Window → Window) : (s.modWin w f).busy = s.busy := rfl

@[simp] theorem State.setChan_cycle (s : State) (c : ChanRef) (x : Chan) : (s.setChan c x).cycle = s.cycle := rfl
@[simp] theorem State.setChan_ctxs (s : State) (c : ChanRef) (x : Chan) : (s.setChan c x).ctxs = s.ctxs := rfl
@[simp] theorem State.setChan_tiles (s : State) (c : ChanRef) (x : Chan) : (s.setChan c x).tiles = s.tiles := rfl
@[simp] theorem State.setChan_banks (s : State) (c : ChanRef) (x : Chan) : (s.setChan c x).banks = s.banks := rfl
@[simp] theorem State.setChan_bars (s : State) (c : ChanRef) (x : Chan) : (s.setChan c x).bars = s.bars := rfl
@[simp] theorem State.setChan_elems (s : State) (c : ChanRef) (x : Chan) : (s.setChan c x).elems = s.elems := rfl
@[simp] theorem State.setChan_wins (s : State) (c : ChanRef) (x : Chan) : (s.setChan c x).wins = s.wins := rfl
@[simp] theorem State.setChan_chans (s : State) (c : ChanRef) (x : Chan) : (s.setChan c x).chans = tput s.chans c x := rfl
@[simp] theorem State.setChan_ops (s : State) (c : ChanRef) (x : Chan) : (s.setChan c x).ops = s.ops := rfl
@[simp] theorem State.setChan_gens (s : State) (c : ChanRef) (x : Chan) : (s.setChan c x).gens = s.gens := rfl
@[simp] theorem State.setChan_ress (s : State) (c : ChanRef) (x : Chan) : (s.setChan c x).ress = s.ress := rfl
@[simp] theorem State.setChan_softTiles (s : State) (c : ChanRef) (x : Chan) : (s.setChan c x).softTiles = s.softTiles := rfl
@[simp] theorem State.setChan_gddr (s : State) (c : ChanRef) (x : Chan) : (s.setChan c x).gddr = s.gddr := rfl
@[simp] theorem State.setChan_bulk (s : State) (c : ChanRef) (x : Chan) : (s.setChan c x).bulk = s.bulk := rfl
@[simp] theorem State.setChan_host (s : State) (c : ChanRef) (x : Chan) : (s.setChan c x).host = s.host := rfl
@[simp] theorem State.setChan_gddrTags (s : State) (c : ChanRef) (x : Chan) : (s.setChan c x).gddrTags = s.gddrTags := rfl
@[simp] theorem State.setChan_bulkTags (s : State) (c : ChanRef) (x : Chan) : (s.setChan c x).bulkTags = s.bulkTags := rfl
@[simp] theorem State.setChan_badMem (s : State) (c : ChanRef) (x : Chan) : (s.setChan c x).badMem = s.badMem := rfl
@[simp] theorem State.setChan_badBulk (s : State) (c : ChanRef) (x : Chan) : (s.setChan c x).badBulk = s.badBulk := rfl
@[simp] theorem State.setChan_accs (s : State) (c : ChanRef) (x : Chan) : (s.setChan c x).accs = s.accs := rfl
@[simp] theorem State.setChan_deferred (s : State) (c : ChanRef) (x : Chan) : (s.setChan c x).deferred = s.deferred := rfl
@[simp] theorem State.setChan_remotes (s : State) (c : ChanRef) (x : Chan) : (s.setChan c x).remotes = s.remotes := rfl
@[simp] theorem State.setChan_outbox (s : State) (c : ChanRef) (x : Chan) : (s.setChan c x).outbox = s.outbox := rfl
@[simp] theorem State.setChan_roots (s : State) (c : ChanRef) (x : Chan) : (s.setChan c x).roots = s.roots := rfl
@[simp] theorem State.setChan_ledger (s : State) (c : ChanRef) (x : Chan) : (s.setChan c x).ledger = s.ledger := rfl
@[simp] theorem State.setChan_temps (s : State) (c : ChanRef) (x : Chan) : (s.setChan c x).temps = s.temps := rfl
@[simp] theorem State.setChan_tripAt (s : State) (c : ChanRef) (x : Chan) : (s.setChan c x).tripAt = s.tripAt := rfl
@[simp] theorem State.setChan_nature (s : State) (c : ChanRef) (x : Chan) : (s.setChan c x).nature = s.nature := rfl
@[simp] theorem State.setChan_ports (s : State) (c : ChanRef) (x : Chan) : (s.setChan c x).ports = s.ports := rfl
@[simp] theorem State.setChan_asidGen (s : State) (c : ChanRef) (x : Chan) : (s.setChan c x).asidGen = s.asidGen := rfl
@[simp] theorem State.setChan_migrs (s : State) (c : ChanRef) (x : Chan) : (s.setChan c x).migrs = s.migrs := rfl
@[simp] theorem State.setChan_invals (s : State) (c : ChanRef) (x : Chan) : (s.setChan c x).invals = s.invals := rfl
@[simp] theorem State.setChan_faultq (s : State) (c : ChanRef) (x : Chan) : (s.setChan c x).faultq = s.faultq := rfl
@[simp] theorem State.setChan_cmds (s : State) (c : ChanRef) (x : Chan) : (s.setChan c x).cmds = s.cmds := rfl
@[simp] theorem State.setChan_queries (s : State) (c : ChanRef) (x : Chan) : (s.setChan c x).queries = s.queries := rfl
@[simp] theorem State.setChan_heldBeats (s : State) (c : ChanRef) (x : Chan) : (s.setChan c x).heldBeats = s.heldBeats := rfl
@[simp] theorem State.setChan_pools (s : State) (c : ChanRef) (x : Chan) : (s.setChan c x).pools = s.pools := rfl
@[simp] theorem State.setChan_shards (s : State) (c : ChanRef) (x : Chan) : (s.setChan c x).shards = s.shards := rfl
@[simp] theorem State.setChan_flows (s : State) (c : ChanRef) (x : Chan) : (s.setChan c x).flows = s.flows := rfl
@[simp] theorem State.setChan_inFlows (s : State) (c : ChanRef) (x : Chan) : (s.setChan c x).inFlows = s.inFlows := rfl
@[simp] theorem State.setChan_peerWait (s : State) (c : ChanRef) (x : Chan) : (s.setChan c x).peerWait = s.peerWait := rfl
@[simp] theorem State.setChan_groupArr (s : State) (c : ChanRef) (x : Chan) : (s.setChan c x).groupArr = s.groupArr := rfl
@[simp] theorem State.setChan_launches (s : State) (c : ChanRef) (x : Chan) : (s.setChan c x).launches = s.launches := rfl
@[simp] theorem State.setChan_launchSeq (s : State) (c : ChanRef) (x : Chan) : (s.setChan c x).launchSeq = s.launchSeq := rfl
@[simp] theorem State.setChan_loadSeq (s : State) (c : ChanRef) (x : Chan) : (s.setChan c x).loadSeq = s.loadSeq := rfl
@[simp] theorem State.setChan_nextRid (s : State) (c : ChanRef) (x : Chan) : (s.setChan c x).nextRid = s.nextRid := rfl
@[simp] theorem State.setChan_nextAcc (s : State) (c : ChanRef) (x : Chan) : (s.setChan c x).nextAcc = s.nextAcc := rfl
@[simp] theorem State.setChan_launchWin (s : State) (c : ChanRef) (x : Chan) : (s.setChan c x).launchWin = s.launchWin := rfl
@[simp] theorem State.setChan_launchBuf (s : State) (c : ChanRef) (x : Chan) : (s.setChan c x).launchBuf = s.launchBuf := rfl
@[simp] theorem State.setChan_launchHeld (s : State) (c : ChanRef) (x : Chan) : (s.setChan c x).launchHeld = s.launchHeld := rfl
@[simp] theorem State.setChan_eventWin (s : State) (c : ChanRef) (x : Chan) : (s.setChan c x).eventWin = s.eventWin := rfl
@[simp] theorem State.setChan_eventWait (s : State) (c : ChanRef) (x : Chan) : (s.setChan c x).eventWait = s.eventWait := rfl
@[simp] theorem State.setChan_forwards (s : State) (c : ChanRef) (x : Chan) : (s.setChan c x).forwards = s.forwards := rfl
@[simp] theorem State.setChan_fwdAt (s : State) (c : ChanRef) (x : Chan) : (s.setChan c x).fwdAt = s.fwdAt := rfl
@[simp] theorem State.setChan_letterDone (s : State) (c : ChanRef) (x : Chan) : (s.setChan c x).letterDone = s.letterDone := rfl
@[simp] theorem State.setChan_letterAt (s : State) (c : ChanRef) (x : Chan) : (s.setChan c x).letterAt = s.letterAt := rfl
@[simp] theorem State.setChan_sched (s : State) (c : ChanRef) (x : Chan) : (s.setChan c x).sched = s.sched := rfl
@[simp] theorem State.setChan_posts (s : State) (c : ChanRef) (x : Chan) : (s.setChan c x).posts = s.posts := rfl
@[simp] theorem State.setChan_ctxStore (s : State) (c : ChanRef) (x : Chan) : (s.setChan c x).ctxStore = s.ctxStore := rfl
@[simp] theorem State.setChan_bar0 (s : State) (c : ChanRef) (x : Chan) : (s.setChan c x).bar0 = s.bar0 := rfl
@[simp] theorem State.setChan_msix (s : State) (c : ChanRef) (x : Chan) : (s.setChan c x).msix = s.msix := rfl
@[simp] theorem State.setChan_dropCnt (s : State) (c : ChanRef) (x : Chan) : (s.setChan c x).dropCnt = s.dropCnt := rfl
@[simp] theorem State.setChan_linksDown (s : State) (c : ChanRef) (x : Chan) : (s.setChan c x).linksDown = s.linksDown := rfl
@[simp] theorem State.setChan_retries (s : State) (c : ChanRef) (x : Chan) : (s.setChan c x).retries = s.retries := rfl
@[simp] theorem State.setChan_power (s : State) (c : ChanRef) (x : Chan) : (s.setChan c x).power = s.power := rfl
@[simp] theorem State.setChan_selfRefresh (s : State) (c : ChanRef) (x : Chan) : (s.setChan c x).selfRefresh = s.selfRefresh := rfl
@[simp] theorem State.setChan_powerCmd (s : State) (c : ChanRef) (x : Chan) : (s.setChan c x).powerCmd = s.powerCmd := rfl
@[simp] theorem State.setChan_powerErr (s : State) (c : ChanRef) (x : Chan) : (s.setChan c x).powerErr = s.powerErr := rfl
@[simp] theorem State.setChan_tripWait (s : State) (c : ChanRef) (x : Chan) : (s.setChan c x).tripWait = s.tripWait := rfl
@[simp] theorem State.setChan_sec (s : State) (c : ChanRef) (x : Chan) : (s.setChan c x).sec = s.sec := rfl
@[simp] theorem State.setChan_dbg (s : State) (c : ChanRef) (x : Chan) : (s.setChan c x).dbg = s.dbg := rfl
@[simp] theorem State.setChan_brkCnt (s : State) (c : ChanRef) (x : Chan) : (s.setChan c x).brkCnt = s.brkCnt := rfl
@[simp] theorem State.setChan_vaBump (s : State) (c : ChanRef) (x : Chan) : (s.setChan c x).vaBump = s.vaBump := rfl
@[simp] theorem State.setChan_nextAlloc (s : State) (c : ChanRef) (x : Chan) : (s.setChan c x).nextAlloc = s.nextAlloc := rfl
@[simp] theorem State.setChan_agenda (s : State) (c : ChanRef) (x : Chan) : (s.setChan c x).agenda = s.agenda := rfl
@[simp] theorem State.setChan_half (s : State) (c : ChanRef) (x : Chan) : (s.setChan c x).half = s.half := rfl
@[simp] theorem State.setChan_arg (s : State) (c : ChanRef) (x : Chan) : (s.setChan c x).arg = s.arg := rfl
@[simp] theorem State.setChan_inputs (s : State) (c : ChanRef) (x : Chan) : (s.setChan c x).inputs = s.inputs := rfl
@[simp] theorem State.setChan_grant (s : State) (c : ChanRef) (x : Chan) : (s.setChan c x).grant = s.grant := rfl
@[simp] theorem State.setChan_cur (s : State) (c : ChanRef) (x : Chan) : (s.setChan c x).cur = s.cur := rfl
@[simp] theorem State.setChan_serial (s : State) (c : ChanRef) (x : Chan) : (s.setChan c x).serial = s.serial := rfl
@[simp] theorem State.setChan_busy (s : State) (c : ChanRef) (x : Chan) : (s.setChan c x).busy = s.busy := rfl

@[simp] theorem State.modChan_cycle (s : State) (c : ChanRef) (f : Chan → Chan) : (s.modChan c f).cycle = s.cycle := rfl
@[simp] theorem State.modChan_ctxs (s : State) (c : ChanRef) (f : Chan → Chan) : (s.modChan c f).ctxs = s.ctxs := rfl
@[simp] theorem State.modChan_tiles (s : State) (c : ChanRef) (f : Chan → Chan) : (s.modChan c f).tiles = s.tiles := rfl
@[simp] theorem State.modChan_banks (s : State) (c : ChanRef) (f : Chan → Chan) : (s.modChan c f).banks = s.banks := rfl
@[simp] theorem State.modChan_bars (s : State) (c : ChanRef) (f : Chan → Chan) : (s.modChan c f).bars = s.bars := rfl
@[simp] theorem State.modChan_elems (s : State) (c : ChanRef) (f : Chan → Chan) : (s.modChan c f).elems = s.elems := rfl
@[simp] theorem State.modChan_wins (s : State) (c : ChanRef) (f : Chan → Chan) : (s.modChan c f).wins = s.wins := rfl
@[simp] theorem State.modChan_chans (s : State) (c : ChanRef) (f : Chan → Chan) : (s.modChan c f).chans = tmod s.chans c f := rfl
@[simp] theorem State.modChan_ops (s : State) (c : ChanRef) (f : Chan → Chan) : (s.modChan c f).ops = s.ops := rfl
@[simp] theorem State.modChan_gens (s : State) (c : ChanRef) (f : Chan → Chan) : (s.modChan c f).gens = s.gens := rfl
@[simp] theorem State.modChan_ress (s : State) (c : ChanRef) (f : Chan → Chan) : (s.modChan c f).ress = s.ress := rfl
@[simp] theorem State.modChan_softTiles (s : State) (c : ChanRef) (f : Chan → Chan) : (s.modChan c f).softTiles = s.softTiles := rfl
@[simp] theorem State.modChan_gddr (s : State) (c : ChanRef) (f : Chan → Chan) : (s.modChan c f).gddr = s.gddr := rfl
@[simp] theorem State.modChan_bulk (s : State) (c : ChanRef) (f : Chan → Chan) : (s.modChan c f).bulk = s.bulk := rfl
@[simp] theorem State.modChan_host (s : State) (c : ChanRef) (f : Chan → Chan) : (s.modChan c f).host = s.host := rfl
@[simp] theorem State.modChan_gddrTags (s : State) (c : ChanRef) (f : Chan → Chan) : (s.modChan c f).gddrTags = s.gddrTags := rfl
@[simp] theorem State.modChan_bulkTags (s : State) (c : ChanRef) (f : Chan → Chan) : (s.modChan c f).bulkTags = s.bulkTags := rfl
@[simp] theorem State.modChan_badMem (s : State) (c : ChanRef) (f : Chan → Chan) : (s.modChan c f).badMem = s.badMem := rfl
@[simp] theorem State.modChan_badBulk (s : State) (c : ChanRef) (f : Chan → Chan) : (s.modChan c f).badBulk = s.badBulk := rfl
@[simp] theorem State.modChan_accs (s : State) (c : ChanRef) (f : Chan → Chan) : (s.modChan c f).accs = s.accs := rfl
@[simp] theorem State.modChan_deferred (s : State) (c : ChanRef) (f : Chan → Chan) : (s.modChan c f).deferred = s.deferred := rfl
@[simp] theorem State.modChan_remotes (s : State) (c : ChanRef) (f : Chan → Chan) : (s.modChan c f).remotes = s.remotes := rfl
@[simp] theorem State.modChan_outbox (s : State) (c : ChanRef) (f : Chan → Chan) : (s.modChan c f).outbox = s.outbox := rfl
@[simp] theorem State.modChan_roots (s : State) (c : ChanRef) (f : Chan → Chan) : (s.modChan c f).roots = s.roots := rfl
@[simp] theorem State.modChan_ledger (s : State) (c : ChanRef) (f : Chan → Chan) : (s.modChan c f).ledger = s.ledger := rfl
@[simp] theorem State.modChan_temps (s : State) (c : ChanRef) (f : Chan → Chan) : (s.modChan c f).temps = s.temps := rfl
@[simp] theorem State.modChan_tripAt (s : State) (c : ChanRef) (f : Chan → Chan) : (s.modChan c f).tripAt = s.tripAt := rfl
@[simp] theorem State.modChan_nature (s : State) (c : ChanRef) (f : Chan → Chan) : (s.modChan c f).nature = s.nature := rfl
@[simp] theorem State.modChan_ports (s : State) (c : ChanRef) (f : Chan → Chan) : (s.modChan c f).ports = s.ports := rfl
@[simp] theorem State.modChan_asidGen (s : State) (c : ChanRef) (f : Chan → Chan) : (s.modChan c f).asidGen = s.asidGen := rfl
@[simp] theorem State.modChan_migrs (s : State) (c : ChanRef) (f : Chan → Chan) : (s.modChan c f).migrs = s.migrs := rfl
@[simp] theorem State.modChan_invals (s : State) (c : ChanRef) (f : Chan → Chan) : (s.modChan c f).invals = s.invals := rfl
@[simp] theorem State.modChan_faultq (s : State) (c : ChanRef) (f : Chan → Chan) : (s.modChan c f).faultq = s.faultq := rfl
@[simp] theorem State.modChan_cmds (s : State) (c : ChanRef) (f : Chan → Chan) : (s.modChan c f).cmds = s.cmds := rfl
@[simp] theorem State.modChan_queries (s : State) (c : ChanRef) (f : Chan → Chan) : (s.modChan c f).queries = s.queries := rfl
@[simp] theorem State.modChan_heldBeats (s : State) (c : ChanRef) (f : Chan → Chan) : (s.modChan c f).heldBeats = s.heldBeats := rfl
@[simp] theorem State.modChan_pools (s : State) (c : ChanRef) (f : Chan → Chan) : (s.modChan c f).pools = s.pools := rfl
@[simp] theorem State.modChan_shards (s : State) (c : ChanRef) (f : Chan → Chan) : (s.modChan c f).shards = s.shards := rfl
@[simp] theorem State.modChan_flows (s : State) (c : ChanRef) (f : Chan → Chan) : (s.modChan c f).flows = s.flows := rfl
@[simp] theorem State.modChan_inFlows (s : State) (c : ChanRef) (f : Chan → Chan) : (s.modChan c f).inFlows = s.inFlows := rfl
@[simp] theorem State.modChan_peerWait (s : State) (c : ChanRef) (f : Chan → Chan) : (s.modChan c f).peerWait = s.peerWait := rfl
@[simp] theorem State.modChan_groupArr (s : State) (c : ChanRef) (f : Chan → Chan) : (s.modChan c f).groupArr = s.groupArr := rfl
@[simp] theorem State.modChan_launches (s : State) (c : ChanRef) (f : Chan → Chan) : (s.modChan c f).launches = s.launches := rfl
@[simp] theorem State.modChan_launchSeq (s : State) (c : ChanRef) (f : Chan → Chan) : (s.modChan c f).launchSeq = s.launchSeq := rfl
@[simp] theorem State.modChan_loadSeq (s : State) (c : ChanRef) (f : Chan → Chan) : (s.modChan c f).loadSeq = s.loadSeq := rfl
@[simp] theorem State.modChan_nextRid (s : State) (c : ChanRef) (f : Chan → Chan) : (s.modChan c f).nextRid = s.nextRid := rfl
@[simp] theorem State.modChan_nextAcc (s : State) (c : ChanRef) (f : Chan → Chan) : (s.modChan c f).nextAcc = s.nextAcc := rfl
@[simp] theorem State.modChan_launchWin (s : State) (c : ChanRef) (f : Chan → Chan) : (s.modChan c f).launchWin = s.launchWin := rfl
@[simp] theorem State.modChan_launchBuf (s : State) (c : ChanRef) (f : Chan → Chan) : (s.modChan c f).launchBuf = s.launchBuf := rfl
@[simp] theorem State.modChan_launchHeld (s : State) (c : ChanRef) (f : Chan → Chan) : (s.modChan c f).launchHeld = s.launchHeld := rfl
@[simp] theorem State.modChan_eventWin (s : State) (c : ChanRef) (f : Chan → Chan) : (s.modChan c f).eventWin = s.eventWin := rfl
@[simp] theorem State.modChan_eventWait (s : State) (c : ChanRef) (f : Chan → Chan) : (s.modChan c f).eventWait = s.eventWait := rfl
@[simp] theorem State.modChan_forwards (s : State) (c : ChanRef) (f : Chan → Chan) : (s.modChan c f).forwards = s.forwards := rfl
@[simp] theorem State.modChan_fwdAt (s : State) (c : ChanRef) (f : Chan → Chan) : (s.modChan c f).fwdAt = s.fwdAt := rfl
@[simp] theorem State.modChan_letterDone (s : State) (c : ChanRef) (f : Chan → Chan) : (s.modChan c f).letterDone = s.letterDone := rfl
@[simp] theorem State.modChan_letterAt (s : State) (c : ChanRef) (f : Chan → Chan) : (s.modChan c f).letterAt = s.letterAt := rfl
@[simp] theorem State.modChan_sched (s : State) (c : ChanRef) (f : Chan → Chan) : (s.modChan c f).sched = s.sched := rfl
@[simp] theorem State.modChan_posts (s : State) (c : ChanRef) (f : Chan → Chan) : (s.modChan c f).posts = s.posts := rfl
@[simp] theorem State.modChan_ctxStore (s : State) (c : ChanRef) (f : Chan → Chan) : (s.modChan c f).ctxStore = s.ctxStore := rfl
@[simp] theorem State.modChan_bar0 (s : State) (c : ChanRef) (f : Chan → Chan) : (s.modChan c f).bar0 = s.bar0 := rfl
@[simp] theorem State.modChan_msix (s : State) (c : ChanRef) (f : Chan → Chan) : (s.modChan c f).msix = s.msix := rfl
@[simp] theorem State.modChan_dropCnt (s : State) (c : ChanRef) (f : Chan → Chan) : (s.modChan c f).dropCnt = s.dropCnt := rfl
@[simp] theorem State.modChan_linksDown (s : State) (c : ChanRef) (f : Chan → Chan) : (s.modChan c f).linksDown = s.linksDown := rfl
@[simp] theorem State.modChan_retries (s : State) (c : ChanRef) (f : Chan → Chan) : (s.modChan c f).retries = s.retries := rfl
@[simp] theorem State.modChan_power (s : State) (c : ChanRef) (f : Chan → Chan) : (s.modChan c f).power = s.power := rfl
@[simp] theorem State.modChan_selfRefresh (s : State) (c : ChanRef) (f : Chan → Chan) : (s.modChan c f).selfRefresh = s.selfRefresh := rfl
@[simp] theorem State.modChan_powerCmd (s : State) (c : ChanRef) (f : Chan → Chan) : (s.modChan c f).powerCmd = s.powerCmd := rfl
@[simp] theorem State.modChan_powerErr (s : State) (c : ChanRef) (f : Chan → Chan) : (s.modChan c f).powerErr = s.powerErr := rfl
@[simp] theorem State.modChan_tripWait (s : State) (c : ChanRef) (f : Chan → Chan) : (s.modChan c f).tripWait = s.tripWait := rfl
@[simp] theorem State.modChan_sec (s : State) (c : ChanRef) (f : Chan → Chan) : (s.modChan c f).sec = s.sec := rfl
@[simp] theorem State.modChan_dbg (s : State) (c : ChanRef) (f : Chan → Chan) : (s.modChan c f).dbg = s.dbg := rfl
@[simp] theorem State.modChan_brkCnt (s : State) (c : ChanRef) (f : Chan → Chan) : (s.modChan c f).brkCnt = s.brkCnt := rfl
@[simp] theorem State.modChan_vaBump (s : State) (c : ChanRef) (f : Chan → Chan) : (s.modChan c f).vaBump = s.vaBump := rfl
@[simp] theorem State.modChan_nextAlloc (s : State) (c : ChanRef) (f : Chan → Chan) : (s.modChan c f).nextAlloc = s.nextAlloc := rfl
@[simp] theorem State.modChan_agenda (s : State) (c : ChanRef) (f : Chan → Chan) : (s.modChan c f).agenda = s.agenda := rfl
@[simp] theorem State.modChan_half (s : State) (c : ChanRef) (f : Chan → Chan) : (s.modChan c f).half = s.half := rfl
@[simp] theorem State.modChan_arg (s : State) (c : ChanRef) (f : Chan → Chan) : (s.modChan c f).arg = s.arg := rfl
@[simp] theorem State.modChan_inputs (s : State) (c : ChanRef) (f : Chan → Chan) : (s.modChan c f).inputs = s.inputs := rfl
@[simp] theorem State.modChan_grant (s : State) (c : ChanRef) (f : Chan → Chan) : (s.modChan c f).grant = s.grant := rfl
@[simp] theorem State.modChan_cur (s : State) (c : ChanRef) (f : Chan → Chan) : (s.modChan c f).cur = s.cur := rfl
@[simp] theorem State.modChan_serial (s : State) (c : ChanRef) (f : Chan → Chan) : (s.modChan c f).serial = s.serial := rfl
@[simp] theorem State.modChan_busy (s : State) (c : ChanRef) (f : Chan → Chan) : (s.modChan c f).busy = s.busy := rfl

@[simp] theorem State.modRes_cycle (s : State) (r : Nat) (f : Res → Res) : (s.modRes r f).cycle = s.cycle := rfl
@[simp] theorem State.modRes_ctxs (s : State) (r : Nat) (f : Res → Res) : (s.modRes r f).ctxs = s.ctxs := rfl
@[simp] theorem State.modRes_tiles (s : State) (r : Nat) (f : Res → Res) : (s.modRes r f).tiles = s.tiles := rfl
@[simp] theorem State.modRes_banks (s : State) (r : Nat) (f : Res → Res) : (s.modRes r f).banks = s.banks := rfl
@[simp] theorem State.modRes_bars (s : State) (r : Nat) (f : Res → Res) : (s.modRes r f).bars = s.bars := rfl
@[simp] theorem State.modRes_elems (s : State) (r : Nat) (f : Res → Res) : (s.modRes r f).elems = s.elems := rfl
@[simp] theorem State.modRes_wins (s : State) (r : Nat) (f : Res → Res) : (s.modRes r f).wins = s.wins := rfl
@[simp] theorem State.modRes_chans (s : State) (r : Nat) (f : Res → Res) : (s.modRes r f).chans = s.chans := rfl
@[simp] theorem State.modRes_ops (s : State) (r : Nat) (f : Res → Res) : (s.modRes r f).ops = s.ops := rfl
@[simp] theorem State.modRes_gens (s : State) (r : Nat) (f : Res → Res) : (s.modRes r f).gens = s.gens := rfl
@[simp] theorem State.modRes_ress (s : State) (r : Nat) (f : Res → Res) : (s.modRes r f).ress = tmod s.ress r f := rfl
@[simp] theorem State.modRes_softTiles (s : State) (r : Nat) (f : Res → Res) : (s.modRes r f).softTiles = s.softTiles := rfl
@[simp] theorem State.modRes_gddr (s : State) (r : Nat) (f : Res → Res) : (s.modRes r f).gddr = s.gddr := rfl
@[simp] theorem State.modRes_bulk (s : State) (r : Nat) (f : Res → Res) : (s.modRes r f).bulk = s.bulk := rfl
@[simp] theorem State.modRes_host (s : State) (r : Nat) (f : Res → Res) : (s.modRes r f).host = s.host := rfl
@[simp] theorem State.modRes_gddrTags (s : State) (r : Nat) (f : Res → Res) : (s.modRes r f).gddrTags = s.gddrTags := rfl
@[simp] theorem State.modRes_bulkTags (s : State) (r : Nat) (f : Res → Res) : (s.modRes r f).bulkTags = s.bulkTags := rfl
@[simp] theorem State.modRes_badMem (s : State) (r : Nat) (f : Res → Res) : (s.modRes r f).badMem = s.badMem := rfl
@[simp] theorem State.modRes_badBulk (s : State) (r : Nat) (f : Res → Res) : (s.modRes r f).badBulk = s.badBulk := rfl
@[simp] theorem State.modRes_accs (s : State) (r : Nat) (f : Res → Res) : (s.modRes r f).accs = s.accs := rfl
@[simp] theorem State.modRes_deferred (s : State) (r : Nat) (f : Res → Res) : (s.modRes r f).deferred = s.deferred := rfl
@[simp] theorem State.modRes_remotes (s : State) (r : Nat) (f : Res → Res) : (s.modRes r f).remotes = s.remotes := rfl
@[simp] theorem State.modRes_outbox (s : State) (r : Nat) (f : Res → Res) : (s.modRes r f).outbox = s.outbox := rfl
@[simp] theorem State.modRes_roots (s : State) (r : Nat) (f : Res → Res) : (s.modRes r f).roots = s.roots := rfl
@[simp] theorem State.modRes_ledger (s : State) (r : Nat) (f : Res → Res) : (s.modRes r f).ledger = s.ledger := rfl
@[simp] theorem State.modRes_temps (s : State) (r : Nat) (f : Res → Res) : (s.modRes r f).temps = s.temps := rfl
@[simp] theorem State.modRes_tripAt (s : State) (r : Nat) (f : Res → Res) : (s.modRes r f).tripAt = s.tripAt := rfl
@[simp] theorem State.modRes_nature (s : State) (r : Nat) (f : Res → Res) : (s.modRes r f).nature = s.nature := rfl
@[simp] theorem State.modRes_ports (s : State) (r : Nat) (f : Res → Res) : (s.modRes r f).ports = s.ports := rfl
@[simp] theorem State.modRes_asidGen (s : State) (r : Nat) (f : Res → Res) : (s.modRes r f).asidGen = s.asidGen := rfl
@[simp] theorem State.modRes_migrs (s : State) (r : Nat) (f : Res → Res) : (s.modRes r f).migrs = s.migrs := rfl
@[simp] theorem State.modRes_invals (s : State) (r : Nat) (f : Res → Res) : (s.modRes r f).invals = s.invals := rfl
@[simp] theorem State.modRes_faultq (s : State) (r : Nat) (f : Res → Res) : (s.modRes r f).faultq = s.faultq := rfl
@[simp] theorem State.modRes_cmds (s : State) (r : Nat) (f : Res → Res) : (s.modRes r f).cmds = s.cmds := rfl
@[simp] theorem State.modRes_queries (s : State) (r : Nat) (f : Res → Res) : (s.modRes r f).queries = s.queries := rfl
@[simp] theorem State.modRes_heldBeats (s : State) (r : Nat) (f : Res → Res) : (s.modRes r f).heldBeats = s.heldBeats := rfl
@[simp] theorem State.modRes_pools (s : State) (r : Nat) (f : Res → Res) : (s.modRes r f).pools = s.pools := rfl
@[simp] theorem State.modRes_shards (s : State) (r : Nat) (f : Res → Res) : (s.modRes r f).shards = s.shards := rfl
@[simp] theorem State.modRes_flows (s : State) (r : Nat) (f : Res → Res) : (s.modRes r f).flows = s.flows := rfl
@[simp] theorem State.modRes_inFlows (s : State) (r : Nat) (f : Res → Res) : (s.modRes r f).inFlows = s.inFlows := rfl
@[simp] theorem State.modRes_peerWait (s : State) (r : Nat) (f : Res → Res) : (s.modRes r f).peerWait = s.peerWait := rfl
@[simp] theorem State.modRes_groupArr (s : State) (r : Nat) (f : Res → Res) : (s.modRes r f).groupArr = s.groupArr := rfl
@[simp] theorem State.modRes_launches (s : State) (r : Nat) (f : Res → Res) : (s.modRes r f).launches = s.launches := rfl
@[simp] theorem State.modRes_launchSeq (s : State) (r : Nat) (f : Res → Res) : (s.modRes r f).launchSeq = s.launchSeq := rfl
@[simp] theorem State.modRes_loadSeq (s : State) (r : Nat) (f : Res → Res) : (s.modRes r f).loadSeq = s.loadSeq := rfl
@[simp] theorem State.modRes_nextRid (s : State) (r : Nat) (f : Res → Res) : (s.modRes r f).nextRid = s.nextRid := rfl
@[simp] theorem State.modRes_nextAcc (s : State) (r : Nat) (f : Res → Res) : (s.modRes r f).nextAcc = s.nextAcc := rfl
@[simp] theorem State.modRes_launchWin (s : State) (r : Nat) (f : Res → Res) : (s.modRes r f).launchWin = s.launchWin := rfl
@[simp] theorem State.modRes_launchBuf (s : State) (r : Nat) (f : Res → Res) : (s.modRes r f).launchBuf = s.launchBuf := rfl
@[simp] theorem State.modRes_launchHeld (s : State) (r : Nat) (f : Res → Res) : (s.modRes r f).launchHeld = s.launchHeld := rfl
@[simp] theorem State.modRes_eventWin (s : State) (r : Nat) (f : Res → Res) : (s.modRes r f).eventWin = s.eventWin := rfl
@[simp] theorem State.modRes_eventWait (s : State) (r : Nat) (f : Res → Res) : (s.modRes r f).eventWait = s.eventWait := rfl
@[simp] theorem State.modRes_forwards (s : State) (r : Nat) (f : Res → Res) : (s.modRes r f).forwards = s.forwards := rfl
@[simp] theorem State.modRes_fwdAt (s : State) (r : Nat) (f : Res → Res) : (s.modRes r f).fwdAt = s.fwdAt := rfl
@[simp] theorem State.modRes_letterDone (s : State) (r : Nat) (f : Res → Res) : (s.modRes r f).letterDone = s.letterDone := rfl
@[simp] theorem State.modRes_letterAt (s : State) (r : Nat) (f : Res → Res) : (s.modRes r f).letterAt = s.letterAt := rfl
@[simp] theorem State.modRes_sched (s : State) (r : Nat) (f : Res → Res) : (s.modRes r f).sched = s.sched := rfl
@[simp] theorem State.modRes_posts (s : State) (r : Nat) (f : Res → Res) : (s.modRes r f).posts = s.posts := rfl
@[simp] theorem State.modRes_ctxStore (s : State) (r : Nat) (f : Res → Res) : (s.modRes r f).ctxStore = s.ctxStore := rfl
@[simp] theorem State.modRes_bar0 (s : State) (r : Nat) (f : Res → Res) : (s.modRes r f).bar0 = s.bar0 := rfl
@[simp] theorem State.modRes_msix (s : State) (r : Nat) (f : Res → Res) : (s.modRes r f).msix = s.msix := rfl
@[simp] theorem State.modRes_dropCnt (s : State) (r : Nat) (f : Res → Res) : (s.modRes r f).dropCnt = s.dropCnt := rfl
@[simp] theorem State.modRes_linksDown (s : State) (r : Nat) (f : Res → Res) : (s.modRes r f).linksDown = s.linksDown := rfl
@[simp] theorem State.modRes_retries (s : State) (r : Nat) (f : Res → Res) : (s.modRes r f).retries = s.retries := rfl
@[simp] theorem State.modRes_power (s : State) (r : Nat) (f : Res → Res) : (s.modRes r f).power = s.power := rfl
@[simp] theorem State.modRes_selfRefresh (s : State) (r : Nat) (f : Res → Res) : (s.modRes r f).selfRefresh = s.selfRefresh := rfl
@[simp] theorem State.modRes_powerCmd (s : State) (r : Nat) (f : Res → Res) : (s.modRes r f).powerCmd = s.powerCmd := rfl
@[simp] theorem State.modRes_powerErr (s : State) (r : Nat) (f : Res → Res) : (s.modRes r f).powerErr = s.powerErr := rfl
@[simp] theorem State.modRes_tripWait (s : State) (r : Nat) (f : Res → Res) : (s.modRes r f).tripWait = s.tripWait := rfl
@[simp] theorem State.modRes_sec (s : State) (r : Nat) (f : Res → Res) : (s.modRes r f).sec = s.sec := rfl
@[simp] theorem State.modRes_dbg (s : State) (r : Nat) (f : Res → Res) : (s.modRes r f).dbg = s.dbg := rfl
@[simp] theorem State.modRes_brkCnt (s : State) (r : Nat) (f : Res → Res) : (s.modRes r f).brkCnt = s.brkCnt := rfl
@[simp] theorem State.modRes_vaBump (s : State) (r : Nat) (f : Res → Res) : (s.modRes r f).vaBump = s.vaBump := rfl
@[simp] theorem State.modRes_nextAlloc (s : State) (r : Nat) (f : Res → Res) : (s.modRes r f).nextAlloc = s.nextAlloc := rfl
@[simp] theorem State.modRes_agenda (s : State) (r : Nat) (f : Res → Res) : (s.modRes r f).agenda = s.agenda := rfl
@[simp] theorem State.modRes_half (s : State) (r : Nat) (f : Res → Res) : (s.modRes r f).half = s.half := rfl
@[simp] theorem State.modRes_arg (s : State) (r : Nat) (f : Res → Res) : (s.modRes r f).arg = s.arg := rfl
@[simp] theorem State.modRes_inputs (s : State) (r : Nat) (f : Res → Res) : (s.modRes r f).inputs = s.inputs := rfl
@[simp] theorem State.modRes_grant (s : State) (r : Nat) (f : Res → Res) : (s.modRes r f).grant = s.grant := rfl
@[simp] theorem State.modRes_cur (s : State) (r : Nat) (f : Res → Res) : (s.modRes r f).cur = s.cur := rfl
@[simp] theorem State.modRes_serial (s : State) (r : Nat) (f : Res → Res) : (s.modRes r f).serial = s.serial := rfl
@[simp] theorem State.modRes_busy (s : State) (r : Nat) (f : Res → Res) : (s.modRes r f).busy = s.busy := rfl

@[simp] theorem State.setBar_cycle (s : State) (b : BarRef) (x : Bar) : (s.setBar b x).cycle = s.cycle := rfl
@[simp] theorem State.setBar_ctxs (s : State) (b : BarRef) (x : Bar) : (s.setBar b x).ctxs = s.ctxs := rfl
@[simp] theorem State.setBar_tiles (s : State) (b : BarRef) (x : Bar) : (s.setBar b x).tiles = s.tiles := rfl
@[simp] theorem State.setBar_banks (s : State) (b : BarRef) (x : Bar) : (s.setBar b x).banks = s.banks := rfl
@[simp] theorem State.setBar_bars (s : State) (b : BarRef) (x : Bar) : (s.setBar b x).bars = tput s.bars b x := rfl
@[simp] theorem State.setBar_elems (s : State) (b : BarRef) (x : Bar) : (s.setBar b x).elems = s.elems := rfl
@[simp] theorem State.setBar_wins (s : State) (b : BarRef) (x : Bar) : (s.setBar b x).wins = s.wins := rfl
@[simp] theorem State.setBar_chans (s : State) (b : BarRef) (x : Bar) : (s.setBar b x).chans = s.chans := rfl
@[simp] theorem State.setBar_ops (s : State) (b : BarRef) (x : Bar) : (s.setBar b x).ops = s.ops := rfl
@[simp] theorem State.setBar_gens (s : State) (b : BarRef) (x : Bar) : (s.setBar b x).gens = s.gens := rfl
@[simp] theorem State.setBar_ress (s : State) (b : BarRef) (x : Bar) : (s.setBar b x).ress = s.ress := rfl
@[simp] theorem State.setBar_softTiles (s : State) (b : BarRef) (x : Bar) : (s.setBar b x).softTiles = s.softTiles := rfl
@[simp] theorem State.setBar_gddr (s : State) (b : BarRef) (x : Bar) : (s.setBar b x).gddr = s.gddr := rfl
@[simp] theorem State.setBar_bulk (s : State) (b : BarRef) (x : Bar) : (s.setBar b x).bulk = s.bulk := rfl
@[simp] theorem State.setBar_host (s : State) (b : BarRef) (x : Bar) : (s.setBar b x).host = s.host := rfl
@[simp] theorem State.setBar_gddrTags (s : State) (b : BarRef) (x : Bar) : (s.setBar b x).gddrTags = s.gddrTags := rfl
@[simp] theorem State.setBar_bulkTags (s : State) (b : BarRef) (x : Bar) : (s.setBar b x).bulkTags = s.bulkTags := rfl
@[simp] theorem State.setBar_badMem (s : State) (b : BarRef) (x : Bar) : (s.setBar b x).badMem = s.badMem := rfl
@[simp] theorem State.setBar_badBulk (s : State) (b : BarRef) (x : Bar) : (s.setBar b x).badBulk = s.badBulk := rfl
@[simp] theorem State.setBar_accs (s : State) (b : BarRef) (x : Bar) : (s.setBar b x).accs = s.accs := rfl
@[simp] theorem State.setBar_deferred (s : State) (b : BarRef) (x : Bar) : (s.setBar b x).deferred = s.deferred := rfl
@[simp] theorem State.setBar_remotes (s : State) (b : BarRef) (x : Bar) : (s.setBar b x).remotes = s.remotes := rfl
@[simp] theorem State.setBar_outbox (s : State) (b : BarRef) (x : Bar) : (s.setBar b x).outbox = s.outbox := rfl
@[simp] theorem State.setBar_roots (s : State) (b : BarRef) (x : Bar) : (s.setBar b x).roots = s.roots := rfl
@[simp] theorem State.setBar_ledger (s : State) (b : BarRef) (x : Bar) : (s.setBar b x).ledger = s.ledger := rfl
@[simp] theorem State.setBar_temps (s : State) (b : BarRef) (x : Bar) : (s.setBar b x).temps = s.temps := rfl
@[simp] theorem State.setBar_tripAt (s : State) (b : BarRef) (x : Bar) : (s.setBar b x).tripAt = s.tripAt := rfl
@[simp] theorem State.setBar_nature (s : State) (b : BarRef) (x : Bar) : (s.setBar b x).nature = s.nature := rfl
@[simp] theorem State.setBar_ports (s : State) (b : BarRef) (x : Bar) : (s.setBar b x).ports = s.ports := rfl
@[simp] theorem State.setBar_asidGen (s : State) (b : BarRef) (x : Bar) : (s.setBar b x).asidGen = s.asidGen := rfl
@[simp] theorem State.setBar_migrs (s : State) (b : BarRef) (x : Bar) : (s.setBar b x).migrs = s.migrs := rfl
@[simp] theorem State.setBar_invals (s : State) (b : BarRef) (x : Bar) : (s.setBar b x).invals = s.invals := rfl
@[simp] theorem State.setBar_faultq (s : State) (b : BarRef) (x : Bar) : (s.setBar b x).faultq = s.faultq := rfl
@[simp] theorem State.setBar_cmds (s : State) (b : BarRef) (x : Bar) : (s.setBar b x).cmds = s.cmds := rfl
@[simp] theorem State.setBar_queries (s : State) (b : BarRef) (x : Bar) : (s.setBar b x).queries = s.queries := rfl
@[simp] theorem State.setBar_heldBeats (s : State) (b : BarRef) (x : Bar) : (s.setBar b x).heldBeats = s.heldBeats := rfl
@[simp] theorem State.setBar_pools (s : State) (b : BarRef) (x : Bar) : (s.setBar b x).pools = s.pools := rfl
@[simp] theorem State.setBar_shards (s : State) (b : BarRef) (x : Bar) : (s.setBar b x).shards = s.shards := rfl
@[simp] theorem State.setBar_flows (s : State) (b : BarRef) (x : Bar) : (s.setBar b x).flows = s.flows := rfl
@[simp] theorem State.setBar_inFlows (s : State) (b : BarRef) (x : Bar) : (s.setBar b x).inFlows = s.inFlows := rfl
@[simp] theorem State.setBar_peerWait (s : State) (b : BarRef) (x : Bar) : (s.setBar b x).peerWait = s.peerWait := rfl
@[simp] theorem State.setBar_groupArr (s : State) (b : BarRef) (x : Bar) : (s.setBar b x).groupArr = s.groupArr := rfl
@[simp] theorem State.setBar_launches (s : State) (b : BarRef) (x : Bar) : (s.setBar b x).launches = s.launches := rfl
@[simp] theorem State.setBar_launchSeq (s : State) (b : BarRef) (x : Bar) : (s.setBar b x).launchSeq = s.launchSeq := rfl
@[simp] theorem State.setBar_loadSeq (s : State) (b : BarRef) (x : Bar) : (s.setBar b x).loadSeq = s.loadSeq := rfl
@[simp] theorem State.setBar_nextRid (s : State) (b : BarRef) (x : Bar) : (s.setBar b x).nextRid = s.nextRid := rfl
@[simp] theorem State.setBar_nextAcc (s : State) (b : BarRef) (x : Bar) : (s.setBar b x).nextAcc = s.nextAcc := rfl
@[simp] theorem State.setBar_launchWin (s : State) (b : BarRef) (x : Bar) : (s.setBar b x).launchWin = s.launchWin := rfl
@[simp] theorem State.setBar_launchBuf (s : State) (b : BarRef) (x : Bar) : (s.setBar b x).launchBuf = s.launchBuf := rfl
@[simp] theorem State.setBar_launchHeld (s : State) (b : BarRef) (x : Bar) : (s.setBar b x).launchHeld = s.launchHeld := rfl
@[simp] theorem State.setBar_eventWin (s : State) (b : BarRef) (x : Bar) : (s.setBar b x).eventWin = s.eventWin := rfl
@[simp] theorem State.setBar_eventWait (s : State) (b : BarRef) (x : Bar) : (s.setBar b x).eventWait = s.eventWait := rfl
@[simp] theorem State.setBar_forwards (s : State) (b : BarRef) (x : Bar) : (s.setBar b x).forwards = s.forwards := rfl
@[simp] theorem State.setBar_fwdAt (s : State) (b : BarRef) (x : Bar) : (s.setBar b x).fwdAt = s.fwdAt := rfl
@[simp] theorem State.setBar_letterDone (s : State) (b : BarRef) (x : Bar) : (s.setBar b x).letterDone = s.letterDone := rfl
@[simp] theorem State.setBar_letterAt (s : State) (b : BarRef) (x : Bar) : (s.setBar b x).letterAt = s.letterAt := rfl
@[simp] theorem State.setBar_sched (s : State) (b : BarRef) (x : Bar) : (s.setBar b x).sched = s.sched := rfl
@[simp] theorem State.setBar_posts (s : State) (b : BarRef) (x : Bar) : (s.setBar b x).posts = s.posts := rfl
@[simp] theorem State.setBar_ctxStore (s : State) (b : BarRef) (x : Bar) : (s.setBar b x).ctxStore = s.ctxStore := rfl
@[simp] theorem State.setBar_bar0 (s : State) (b : BarRef) (x : Bar) : (s.setBar b x).bar0 = s.bar0 := rfl
@[simp] theorem State.setBar_msix (s : State) (b : BarRef) (x : Bar) : (s.setBar b x).msix = s.msix := rfl
@[simp] theorem State.setBar_dropCnt (s : State) (b : BarRef) (x : Bar) : (s.setBar b x).dropCnt = s.dropCnt := rfl
@[simp] theorem State.setBar_linksDown (s : State) (b : BarRef) (x : Bar) : (s.setBar b x).linksDown = s.linksDown := rfl
@[simp] theorem State.setBar_retries (s : State) (b : BarRef) (x : Bar) : (s.setBar b x).retries = s.retries := rfl
@[simp] theorem State.setBar_power (s : State) (b : BarRef) (x : Bar) : (s.setBar b x).power = s.power := rfl
@[simp] theorem State.setBar_selfRefresh (s : State) (b : BarRef) (x : Bar) : (s.setBar b x).selfRefresh = s.selfRefresh := rfl
@[simp] theorem State.setBar_powerCmd (s : State) (b : BarRef) (x : Bar) : (s.setBar b x).powerCmd = s.powerCmd := rfl
@[simp] theorem State.setBar_powerErr (s : State) (b : BarRef) (x : Bar) : (s.setBar b x).powerErr = s.powerErr := rfl
@[simp] theorem State.setBar_tripWait (s : State) (b : BarRef) (x : Bar) : (s.setBar b x).tripWait = s.tripWait := rfl
@[simp] theorem State.setBar_sec (s : State) (b : BarRef) (x : Bar) : (s.setBar b x).sec = s.sec := rfl
@[simp] theorem State.setBar_dbg (s : State) (b : BarRef) (x : Bar) : (s.setBar b x).dbg = s.dbg := rfl
@[simp] theorem State.setBar_brkCnt (s : State) (b : BarRef) (x : Bar) : (s.setBar b x).brkCnt = s.brkCnt := rfl
@[simp] theorem State.setBar_vaBump (s : State) (b : BarRef) (x : Bar) : (s.setBar b x).vaBump = s.vaBump := rfl
@[simp] theorem State.setBar_nextAlloc (s : State) (b : BarRef) (x : Bar) : (s.setBar b x).nextAlloc = s.nextAlloc := rfl
@[simp] theorem State.setBar_agenda (s : State) (b : BarRef) (x : Bar) : (s.setBar b x).agenda = s.agenda := rfl
@[simp] theorem State.setBar_half (s : State) (b : BarRef) (x : Bar) : (s.setBar b x).half = s.half := rfl
@[simp] theorem State.setBar_arg (s : State) (b : BarRef) (x : Bar) : (s.setBar b x).arg = s.arg := rfl
@[simp] theorem State.setBar_inputs (s : State) (b : BarRef) (x : Bar) : (s.setBar b x).inputs = s.inputs := rfl
@[simp] theorem State.setBar_grant (s : State) (b : BarRef) (x : Bar) : (s.setBar b x).grant = s.grant := rfl
@[simp] theorem State.setBar_cur (s : State) (b : BarRef) (x : Bar) : (s.setBar b x).cur = s.cur := rfl
@[simp] theorem State.setBar_serial (s : State) (b : BarRef) (x : Bar) : (s.setBar b x).serial = s.serial := rfl
@[simp] theorem State.setBar_busy (s : State) (b : BarRef) (x : Bar) : (s.setBar b x).busy = s.busy := rfl

@[simp] theorem State.raise_cycle (s : State) (v : Nat) : (s.raise v).cycle = s.cycle := rfl
@[simp] theorem State.raise_ctxs (s : State) (v : Nat) : (s.raise v).ctxs = s.ctxs := rfl
@[simp] theorem State.raise_tiles (s : State) (v : Nat) : (s.raise v).tiles = s.tiles := rfl
@[simp] theorem State.raise_banks (s : State) (v : Nat) : (s.raise v).banks = s.banks := rfl
@[simp] theorem State.raise_bars (s : State) (v : Nat) : (s.raise v).bars = s.bars := rfl
@[simp] theorem State.raise_elems (s : State) (v : Nat) : (s.raise v).elems = s.elems := rfl
@[simp] theorem State.raise_wins (s : State) (v : Nat) : (s.raise v).wins = s.wins := rfl
@[simp] theorem State.raise_chans (s : State) (v : Nat) : (s.raise v).chans = s.chans := rfl
@[simp] theorem State.raise_ops (s : State) (v : Nat) : (s.raise v).ops = s.ops := rfl
@[simp] theorem State.raise_gens (s : State) (v : Nat) : (s.raise v).gens = s.gens := rfl
@[simp] theorem State.raise_ress (s : State) (v : Nat) : (s.raise v).ress = s.ress := rfl
@[simp] theorem State.raise_softTiles (s : State) (v : Nat) : (s.raise v).softTiles = s.softTiles := rfl
@[simp] theorem State.raise_gddr (s : State) (v : Nat) : (s.raise v).gddr = s.gddr := rfl
@[simp] theorem State.raise_bulk (s : State) (v : Nat) : (s.raise v).bulk = s.bulk := rfl
@[simp] theorem State.raise_host (s : State) (v : Nat) : (s.raise v).host = s.host := rfl
@[simp] theorem State.raise_gddrTags (s : State) (v : Nat) : (s.raise v).gddrTags = s.gddrTags := rfl
@[simp] theorem State.raise_bulkTags (s : State) (v : Nat) : (s.raise v).bulkTags = s.bulkTags := rfl
@[simp] theorem State.raise_badMem (s : State) (v : Nat) : (s.raise v).badMem = s.badMem := rfl
@[simp] theorem State.raise_badBulk (s : State) (v : Nat) : (s.raise v).badBulk = s.badBulk := rfl
@[simp] theorem State.raise_accs (s : State) (v : Nat) : (s.raise v).accs = s.accs := rfl
@[simp] theorem State.raise_deferred (s : State) (v : Nat) : (s.raise v).deferred = s.deferred := rfl
@[simp] theorem State.raise_remotes (s : State) (v : Nat) : (s.raise v).remotes = s.remotes := rfl
@[simp] theorem State.raise_outbox (s : State) (v : Nat) : (s.raise v).outbox = s.outbox := rfl
@[simp] theorem State.raise_roots (s : State) (v : Nat) : (s.raise v).roots = s.roots := rfl
@[simp] theorem State.raise_ledger (s : State) (v : Nat) : (s.raise v).ledger = s.ledger := rfl
@[simp] theorem State.raise_temps (s : State) (v : Nat) : (s.raise v).temps = s.temps := rfl
@[simp] theorem State.raise_tripAt (s : State) (v : Nat) : (s.raise v).tripAt = s.tripAt := rfl
@[simp] theorem State.raise_nature (s : State) (v : Nat) : (s.raise v).nature = s.nature := rfl
@[simp] theorem State.raise_ports (s : State) (v : Nat) : (s.raise v).ports = s.ports := rfl
@[simp] theorem State.raise_asidGen (s : State) (v : Nat) : (s.raise v).asidGen = s.asidGen := rfl
@[simp] theorem State.raise_migrs (s : State) (v : Nat) : (s.raise v).migrs = s.migrs := rfl
@[simp] theorem State.raise_invals (s : State) (v : Nat) : (s.raise v).invals = s.invals := rfl
@[simp] theorem State.raise_faultq (s : State) (v : Nat) : (s.raise v).faultq = s.faultq := rfl
@[simp] theorem State.raise_cmds (s : State) (v : Nat) : (s.raise v).cmds = s.cmds := rfl
@[simp] theorem State.raise_queries (s : State) (v : Nat) : (s.raise v).queries = s.queries := rfl
@[simp] theorem State.raise_heldBeats (s : State) (v : Nat) : (s.raise v).heldBeats = s.heldBeats := rfl
@[simp] theorem State.raise_pools (s : State) (v : Nat) : (s.raise v).pools = s.pools := rfl
@[simp] theorem State.raise_shards (s : State) (v : Nat) : (s.raise v).shards = s.shards := rfl
@[simp] theorem State.raise_flows (s : State) (v : Nat) : (s.raise v).flows = s.flows := rfl
@[simp] theorem State.raise_inFlows (s : State) (v : Nat) : (s.raise v).inFlows = s.inFlows := rfl
@[simp] theorem State.raise_peerWait (s : State) (v : Nat) : (s.raise v).peerWait = s.peerWait := rfl
@[simp] theorem State.raise_groupArr (s : State) (v : Nat) : (s.raise v).groupArr = s.groupArr := rfl
@[simp] theorem State.raise_launches (s : State) (v : Nat) : (s.raise v).launches = s.launches := rfl
@[simp] theorem State.raise_launchSeq (s : State) (v : Nat) : (s.raise v).launchSeq = s.launchSeq := rfl
@[simp] theorem State.raise_loadSeq (s : State) (v : Nat) : (s.raise v).loadSeq = s.loadSeq := rfl
@[simp] theorem State.raise_nextRid (s : State) (v : Nat) : (s.raise v).nextRid = s.nextRid := rfl
@[simp] theorem State.raise_nextAcc (s : State) (v : Nat) : (s.raise v).nextAcc = s.nextAcc := rfl
@[simp] theorem State.raise_launchWin (s : State) (v : Nat) : (s.raise v).launchWin = s.launchWin := rfl
@[simp] theorem State.raise_launchBuf (s : State) (v : Nat) : (s.raise v).launchBuf = s.launchBuf := rfl
@[simp] theorem State.raise_launchHeld (s : State) (v : Nat) : (s.raise v).launchHeld = s.launchHeld := rfl
@[simp] theorem State.raise_eventWin (s : State) (v : Nat) : (s.raise v).eventWin = s.eventWin := rfl
@[simp] theorem State.raise_eventWait (s : State) (v : Nat) : (s.raise v).eventWait = s.eventWait := rfl
@[simp] theorem State.raise_forwards (s : State) (v : Nat) : (s.raise v).forwards = s.forwards := rfl
@[simp] theorem State.raise_fwdAt (s : State) (v : Nat) : (s.raise v).fwdAt = s.fwdAt := rfl
@[simp] theorem State.raise_letterDone (s : State) (v : Nat) : (s.raise v).letterDone = s.letterDone := rfl
@[simp] theorem State.raise_letterAt (s : State) (v : Nat) : (s.raise v).letterAt = s.letterAt := rfl
@[simp] theorem State.raise_sched (s : State) (v : Nat) : (s.raise v).sched = s.sched := rfl
@[simp] theorem State.raise_posts (s : State) (v : Nat) : (s.raise v).posts = s.posts := rfl
@[simp] theorem State.raise_ctxStore (s : State) (v : Nat) : (s.raise v).ctxStore = s.ctxStore := rfl
@[simp] theorem State.raise_bar0 (s : State) (v : Nat) : (s.raise v).bar0 = s.bar0 := rfl
@[simp] theorem State.raise_msix (s : State) (v : Nat) : (s.raise v).msix = v :: s.msix := rfl
@[simp] theorem State.raise_dropCnt (s : State) (v : Nat) : (s.raise v).dropCnt = s.dropCnt := rfl
@[simp] theorem State.raise_linksDown (s : State) (v : Nat) : (s.raise v).linksDown = s.linksDown := rfl
@[simp] theorem State.raise_retries (s : State) (v : Nat) : (s.raise v).retries = s.retries := rfl
@[simp] theorem State.raise_power (s : State) (v : Nat) : (s.raise v).power = s.power := rfl
@[simp] theorem State.raise_selfRefresh (s : State) (v : Nat) : (s.raise v).selfRefresh = s.selfRefresh := rfl
@[simp] theorem State.raise_powerCmd (s : State) (v : Nat) : (s.raise v).powerCmd = s.powerCmd := rfl
@[simp] theorem State.raise_powerErr (s : State) (v : Nat) : (s.raise v).powerErr = s.powerErr := rfl
@[simp] theorem State.raise_tripWait (s : State) (v : Nat) : (s.raise v).tripWait = s.tripWait := rfl
@[simp] theorem State.raise_sec (s : State) (v : Nat) : (s.raise v).sec = s.sec := rfl
@[simp] theorem State.raise_dbg (s : State) (v : Nat) : (s.raise v).dbg = s.dbg := rfl
@[simp] theorem State.raise_brkCnt (s : State) (v : Nat) : (s.raise v).brkCnt = s.brkCnt := rfl
@[simp] theorem State.raise_vaBump (s : State) (v : Nat) : (s.raise v).vaBump = s.vaBump := rfl
@[simp] theorem State.raise_nextAlloc (s : State) (v : Nat) : (s.raise v).nextAlloc = s.nextAlloc := rfl
@[simp] theorem State.raise_agenda (s : State) (v : Nat) : (s.raise v).agenda = s.agenda := rfl
@[simp] theorem State.raise_half (s : State) (v : Nat) : (s.raise v).half = s.half := rfl
@[simp] theorem State.raise_arg (s : State) (v : Nat) : (s.raise v).arg = s.arg := rfl
@[simp] theorem State.raise_inputs (s : State) (v : Nat) : (s.raise v).inputs = s.inputs := rfl
@[simp] theorem State.raise_grant (s : State) (v : Nat) : (s.raise v).grant = s.grant := rfl
@[simp] theorem State.raise_cur (s : State) (v : Nat) : (s.raise v).cur = s.cur := rfl
@[simp] theorem State.raise_serial (s : State) (v : Nat) : (s.raise v).serial = s.serial := rfl
@[simp] theorem State.raise_busy (s : State) (v : Nat) : (s.raise v).busy = s.busy := rfl

@[simp] theorem State.event_cycle (s : State) (b : Beat) : (s.event b).cycle = s.cycle := rfl
@[simp] theorem State.event_ctxs (s : State) (b : Beat) : (s.event b).ctxs = s.ctxs := rfl
@[simp] theorem State.event_tiles (s : State) (b : Beat) : (s.event b).tiles = s.tiles := rfl
@[simp] theorem State.event_banks (s : State) (b : Beat) : (s.event b).banks = s.banks := rfl
@[simp] theorem State.event_bars (s : State) (b : Beat) : (s.event b).bars = s.bars := rfl
@[simp] theorem State.event_elems (s : State) (b : Beat) : (s.event b).elems = s.elems := rfl
@[simp] theorem State.event_wins (s : State) (b : Beat) : (s.event b).wins = s.wins := rfl
@[simp] theorem State.event_chans (s : State) (b : Beat) : (s.event b).chans = s.chans := rfl
@[simp] theorem State.event_ops (s : State) (b : Beat) : (s.event b).ops = s.ops := rfl
@[simp] theorem State.event_gens (s : State) (b : Beat) : (s.event b).gens = s.gens := rfl
@[simp] theorem State.event_ress (s : State) (b : Beat) : (s.event b).ress = s.ress := rfl
@[simp] theorem State.event_softTiles (s : State) (b : Beat) : (s.event b).softTiles = s.softTiles := rfl
@[simp] theorem State.event_gddr (s : State) (b : Beat) : (s.event b).gddr = s.gddr := rfl
@[simp] theorem State.event_bulk (s : State) (b : Beat) : (s.event b).bulk = s.bulk := rfl
@[simp] theorem State.event_host (s : State) (b : Beat) : (s.event b).host = s.host := rfl
@[simp] theorem State.event_gddrTags (s : State) (b : Beat) : (s.event b).gddrTags = s.gddrTags := rfl
@[simp] theorem State.event_bulkTags (s : State) (b : Beat) : (s.event b).bulkTags = s.bulkTags := rfl
@[simp] theorem State.event_badMem (s : State) (b : Beat) : (s.event b).badMem = s.badMem := rfl
@[simp] theorem State.event_badBulk (s : State) (b : Beat) : (s.event b).badBulk = s.badBulk := rfl
@[simp] theorem State.event_accs (s : State) (b : Beat) : (s.event b).accs = s.accs := rfl
@[simp] theorem State.event_deferred (s : State) (b : Beat) : (s.event b).deferred = s.deferred := rfl
@[simp] theorem State.event_remotes (s : State) (b : Beat) : (s.event b).remotes = s.remotes := rfl
@[simp] theorem State.event_outbox (s : State) (b : Beat) : (s.event b).outbox = s.outbox := rfl
@[simp] theorem State.event_roots (s : State) (b : Beat) : (s.event b).roots = s.roots := rfl
@[simp] theorem State.event_ledger (s : State) (b : Beat) : (s.event b).ledger = s.ledger := rfl
@[simp] theorem State.event_temps (s : State) (b : Beat) : (s.event b).temps = s.temps := rfl
@[simp] theorem State.event_tripAt (s : State) (b : Beat) : (s.event b).tripAt = s.tripAt := rfl
@[simp] theorem State.event_nature (s : State) (b : Beat) : (s.event b).nature = s.nature := rfl
@[simp] theorem State.event_ports (s : State) (b : Beat) : (s.event b).ports = s.ports := rfl
@[simp] theorem State.event_asidGen (s : State) (b : Beat) : (s.event b).asidGen = s.asidGen := rfl
@[simp] theorem State.event_migrs (s : State) (b : Beat) : (s.event b).migrs = s.migrs := rfl
@[simp] theorem State.event_invals (s : State) (b : Beat) : (s.event b).invals = s.invals := rfl
@[simp] theorem State.event_faultq (s : State) (b : Beat) : (s.event b).faultq = s.faultq := rfl
@[simp] theorem State.event_cmds (s : State) (b : Beat) : (s.event b).cmds = s.cmds := rfl
@[simp] theorem State.event_queries (s : State) (b : Beat) : (s.event b).queries = s.queries := rfl
@[simp] theorem State.event_heldBeats (s : State) (b : Beat) : (s.event b).heldBeats = s.heldBeats := rfl
@[simp] theorem State.event_pools (s : State) (b : Beat) : (s.event b).pools = s.pools := rfl
@[simp] theorem State.event_shards (s : State) (b : Beat) : (s.event b).shards = s.shards := rfl
@[simp] theorem State.event_flows (s : State) (b : Beat) : (s.event b).flows = s.flows := rfl
@[simp] theorem State.event_inFlows (s : State) (b : Beat) : (s.event b).inFlows = s.inFlows := rfl
@[simp] theorem State.event_peerWait (s : State) (b : Beat) : (s.event b).peerWait = s.peerWait := rfl
@[simp] theorem State.event_groupArr (s : State) (b : Beat) : (s.event b).groupArr = s.groupArr := rfl
@[simp] theorem State.event_launches (s : State) (b : Beat) : (s.event b).launches = s.launches := rfl
@[simp] theorem State.event_launchSeq (s : State) (b : Beat) : (s.event b).launchSeq = s.launchSeq := rfl
@[simp] theorem State.event_loadSeq (s : State) (b : Beat) : (s.event b).loadSeq = s.loadSeq := rfl
@[simp] theorem State.event_nextRid (s : State) (b : Beat) : (s.event b).nextRid = s.nextRid := rfl
@[simp] theorem State.event_nextAcc (s : State) (b : Beat) : (s.event b).nextAcc = s.nextAcc := rfl
@[simp] theorem State.event_launchWin (s : State) (b : Beat) : (s.event b).launchWin = s.launchWin := rfl
@[simp] theorem State.event_launchBuf (s : State) (b : Beat) : (s.event b).launchBuf = s.launchBuf := rfl
@[simp] theorem State.event_launchHeld (s : State) (b : Beat) : (s.event b).launchHeld = s.launchHeld := rfl
@[simp] theorem State.event_eventWin (s : State) (b : Beat) : (s.event b).eventWin = s.eventWin := rfl
@[simp] theorem State.event_eventWait (s : State) (b : Beat) : (s.event b).eventWait = s.eventWait ++ [b] := rfl
@[simp] theorem State.event_forwards (s : State) (b : Beat) : (s.event b).forwards = s.forwards := rfl
@[simp] theorem State.event_fwdAt (s : State) (b : Beat) : (s.event b).fwdAt = s.fwdAt := rfl
@[simp] theorem State.event_letterDone (s : State) (b : Beat) : (s.event b).letterDone = s.letterDone := rfl
@[simp] theorem State.event_letterAt (s : State) (b : Beat) : (s.event b).letterAt = s.letterAt := rfl
@[simp] theorem State.event_sched (s : State) (b : Beat) : (s.event b).sched = s.sched := rfl
@[simp] theorem State.event_posts (s : State) (b : Beat) : (s.event b).posts = s.posts := rfl
@[simp] theorem State.event_ctxStore (s : State) (b : Beat) : (s.event b).ctxStore = s.ctxStore := rfl
@[simp] theorem State.event_bar0 (s : State) (b : Beat) : (s.event b).bar0 = s.bar0 := rfl
@[simp] theorem State.event_msix (s : State) (b : Beat) : (s.event b).msix = s.msix := rfl
@[simp] theorem State.event_dropCnt (s : State) (b : Beat) : (s.event b).dropCnt = s.dropCnt := rfl
@[simp] theorem State.event_linksDown (s : State) (b : Beat) : (s.event b).linksDown = s.linksDown := rfl
@[simp] theorem State.event_retries (s : State) (b : Beat) : (s.event b).retries = s.retries := rfl
@[simp] theorem State.event_power (s : State) (b : Beat) : (s.event b).power = s.power := rfl
@[simp] theorem State.event_selfRefresh (s : State) (b : Beat) : (s.event b).selfRefresh = s.selfRefresh := rfl
@[simp] theorem State.event_powerCmd (s : State) (b : Beat) : (s.event b).powerCmd = s.powerCmd := rfl
@[simp] theorem State.event_powerErr (s : State) (b : Beat) : (s.event b).powerErr = s.powerErr := rfl
@[simp] theorem State.event_tripWait (s : State) (b : Beat) : (s.event b).tripWait = s.tripWait := rfl
@[simp] theorem State.event_sec (s : State) (b : Beat) : (s.event b).sec = s.sec := rfl
@[simp] theorem State.event_dbg (s : State) (b : Beat) : (s.event b).dbg = s.dbg := rfl
@[simp] theorem State.event_brkCnt (s : State) (b : Beat) : (s.event b).brkCnt = s.brkCnt := rfl
@[simp] theorem State.event_vaBump (s : State) (b : Beat) : (s.event b).vaBump = s.vaBump := rfl
@[simp] theorem State.event_nextAlloc (s : State) (b : Beat) : (s.event b).nextAlloc = s.nextAlloc := rfl
@[simp] theorem State.event_agenda (s : State) (b : Beat) : (s.event b).agenda = s.agenda := rfl
@[simp] theorem State.event_half (s : State) (b : Beat) : (s.event b).half = s.half := rfl
@[simp] theorem State.event_arg (s : State) (b : Beat) : (s.event b).arg = s.arg := rfl
@[simp] theorem State.event_inputs (s : State) (b : Beat) : (s.event b).inputs = s.inputs := rfl
@[simp] theorem State.event_grant (s : State) (b : Beat) : (s.event b).grant = s.grant := rfl
@[simp] theorem State.event_cur (s : State) (b : Beat) : (s.event b).cur = s.cur := rfl
@[simp] theorem State.event_serial (s : State) (b : Beat) : (s.event b).serial = s.serial := rfl
@[simp] theorem State.event_busy (s : State) (b : Beat) : (s.event b).busy = s.busy := rfl

@[simp] theorem State.active_cycle (s : State) (n : Nat) : (s.active n).cycle = s.cycle := by
  unfold State.active; split <;> rfl
@[simp] theorem State.active_ctxs (s : State) (n : Nat) : (s.active n).ctxs = s.ctxs := by
  unfold State.active; split <;> rfl
@[simp] theorem State.active_tiles (s : State) (n : Nat) : (s.active n).tiles = s.tiles := by
  unfold State.active; split <;> rfl
@[simp] theorem State.active_banks (s : State) (n : Nat) : (s.active n).banks = s.banks := by
  unfold State.active; split <;> rfl
@[simp] theorem State.active_bars (s : State) (n : Nat) : (s.active n).bars = s.bars := by
  unfold State.active; split <;> rfl
@[simp] theorem State.active_elems (s : State) (n : Nat) : (s.active n).elems = s.elems := by
  unfold State.active; split <;> rfl
@[simp] theorem State.active_wins (s : State) (n : Nat) : (s.active n).wins = s.wins := by
  unfold State.active; split <;> rfl
@[simp] theorem State.active_chans (s : State) (n : Nat) : (s.active n).chans = s.chans := by
  unfold State.active; split <;> rfl
@[simp] theorem State.active_ops (s : State) (n : Nat) : (s.active n).ops = s.ops := by
  unfold State.active; split <;> rfl
@[simp] theorem State.active_gens (s : State) (n : Nat) : (s.active n).gens = s.gens := by
  unfold State.active; split <;> rfl
@[simp] theorem State.active_ress (s : State) (n : Nat) : (s.active n).ress = s.ress := by
  unfold State.active; split <;> rfl
@[simp] theorem State.active_softTiles (s : State) (n : Nat) : (s.active n).softTiles = s.softTiles := by
  unfold State.active; split <;> rfl
@[simp] theorem State.active_gddr (s : State) (n : Nat) : (s.active n).gddr = s.gddr := by
  unfold State.active; split <;> rfl
@[simp] theorem State.active_bulk (s : State) (n : Nat) : (s.active n).bulk = s.bulk := by
  unfold State.active; split <;> rfl
@[simp] theorem State.active_host (s : State) (n : Nat) : (s.active n).host = s.host := by
  unfold State.active; split <;> rfl
@[simp] theorem State.active_gddrTags (s : State) (n : Nat) : (s.active n).gddrTags = s.gddrTags := by
  unfold State.active; split <;> rfl
@[simp] theorem State.active_bulkTags (s : State) (n : Nat) : (s.active n).bulkTags = s.bulkTags := by
  unfold State.active; split <;> rfl
@[simp] theorem State.active_badMem (s : State) (n : Nat) : (s.active n).badMem = s.badMem := by
  unfold State.active; split <;> rfl
@[simp] theorem State.active_badBulk (s : State) (n : Nat) : (s.active n).badBulk = s.badBulk := by
  unfold State.active; split <;> rfl
@[simp] theorem State.active_accs (s : State) (n : Nat) : (s.active n).accs = s.accs := by
  unfold State.active; split <;> rfl
@[simp] theorem State.active_deferred (s : State) (n : Nat) : (s.active n).deferred = s.deferred := by
  unfold State.active; split <;> rfl
@[simp] theorem State.active_remotes (s : State) (n : Nat) : (s.active n).remotes = s.remotes := by
  unfold State.active; split <;> rfl
@[simp] theorem State.active_outbox (s : State) (n : Nat) : (s.active n).outbox = s.outbox := by
  unfold State.active; split <;> rfl
@[simp] theorem State.active_roots (s : State) (n : Nat) : (s.active n).roots = s.roots := by
  unfold State.active; split <;> rfl
@[simp] theorem State.active_ledger (s : State) (n : Nat) : (s.active n).ledger = s.ledger := by
  unfold State.active; split <;> rfl
@[simp] theorem State.active_temps (s : State) (n : Nat) : (s.active n).temps = s.temps := by
  unfold State.active; split <;> rfl
@[simp] theorem State.active_tripAt (s : State) (n : Nat) : (s.active n).tripAt = s.tripAt := by
  unfold State.active; split <;> rfl
@[simp] theorem State.active_nature (s : State) (n : Nat) : (s.active n).nature = s.nature := by
  unfold State.active; split <;> rfl
@[simp] theorem State.active_ports (s : State) (n : Nat) : (s.active n).ports = s.ports := by
  unfold State.active; split <;> rfl
@[simp] theorem State.active_asidGen (s : State) (n : Nat) : (s.active n).asidGen = s.asidGen := by
  unfold State.active; split <;> rfl
@[simp] theorem State.active_migrs (s : State) (n : Nat) : (s.active n).migrs = s.migrs := by
  unfold State.active; split <;> rfl
@[simp] theorem State.active_invals (s : State) (n : Nat) : (s.active n).invals = s.invals := by
  unfold State.active; split <;> rfl
@[simp] theorem State.active_faultq (s : State) (n : Nat) : (s.active n).faultq = s.faultq := by
  unfold State.active; split <;> rfl
@[simp] theorem State.active_cmds (s : State) (n : Nat) : (s.active n).cmds = s.cmds := by
  unfold State.active; split <;> rfl
@[simp] theorem State.active_queries (s : State) (n : Nat) : (s.active n).queries = s.queries := by
  unfold State.active; split <;> rfl
@[simp] theorem State.active_heldBeats (s : State) (n : Nat) : (s.active n).heldBeats = s.heldBeats := by
  unfold State.active; split <;> rfl
@[simp] theorem State.active_pools (s : State) (n : Nat) : (s.active n).pools = s.pools := by
  unfold State.active; split <;> rfl
@[simp] theorem State.active_shards (s : State) (n : Nat) : (s.active n).shards = s.shards := by
  unfold State.active; split <;> rfl
@[simp] theorem State.active_flows (s : State) (n : Nat) : (s.active n).flows = s.flows := by
  unfold State.active; split <;> rfl
@[simp] theorem State.active_inFlows (s : State) (n : Nat) : (s.active n).inFlows = s.inFlows := by
  unfold State.active; split <;> rfl
@[simp] theorem State.active_peerWait (s : State) (n : Nat) : (s.active n).peerWait = s.peerWait := by
  unfold State.active; split <;> rfl
@[simp] theorem State.active_groupArr (s : State) (n : Nat) : (s.active n).groupArr = s.groupArr := by
  unfold State.active; split <;> rfl
@[simp] theorem State.active_launches (s : State) (n : Nat) : (s.active n).launches = s.launches := by
  unfold State.active; split <;> rfl
@[simp] theorem State.active_launchSeq (s : State) (n : Nat) : (s.active n).launchSeq = s.launchSeq := by
  unfold State.active; split <;> rfl
@[simp] theorem State.active_loadSeq (s : State) (n : Nat) : (s.active n).loadSeq = s.loadSeq := by
  unfold State.active; split <;> rfl
@[simp] theorem State.active_nextRid (s : State) (n : Nat) : (s.active n).nextRid = s.nextRid := by
  unfold State.active; split <;> rfl
@[simp] theorem State.active_nextAcc (s : State) (n : Nat) : (s.active n).nextAcc = s.nextAcc := by
  unfold State.active; split <;> rfl
@[simp] theorem State.active_launchWin (s : State) (n : Nat) : (s.active n).launchWin = s.launchWin := by
  unfold State.active; split <;> rfl
@[simp] theorem State.active_launchBuf (s : State) (n : Nat) : (s.active n).launchBuf = s.launchBuf := by
  unfold State.active; split <;> rfl
@[simp] theorem State.active_launchHeld (s : State) (n : Nat) : (s.active n).launchHeld = s.launchHeld := by
  unfold State.active; split <;> rfl
@[simp] theorem State.active_eventWin (s : State) (n : Nat) : (s.active n).eventWin = s.eventWin := by
  unfold State.active; split <;> rfl
@[simp] theorem State.active_eventWait (s : State) (n : Nat) : (s.active n).eventWait = s.eventWait := by
  unfold State.active; split <;> rfl
@[simp] theorem State.active_forwards (s : State) (n : Nat) : (s.active n).forwards = s.forwards := by
  unfold State.active; split <;> rfl
@[simp] theorem State.active_fwdAt (s : State) (n : Nat) : (s.active n).fwdAt = s.fwdAt := by
  unfold State.active; split <;> rfl
@[simp] theorem State.active_letterDone (s : State) (n : Nat) : (s.active n).letterDone = s.letterDone := by
  unfold State.active; split <;> rfl
@[simp] theorem State.active_letterAt (s : State) (n : Nat) : (s.active n).letterAt = s.letterAt := by
  unfold State.active; split <;> rfl
@[simp] theorem State.active_sched (s : State) (n : Nat) : (s.active n).sched = s.sched := by
  unfold State.active; split <;> rfl
@[simp] theorem State.active_posts (s : State) (n : Nat) : (s.active n).posts = s.posts := by
  unfold State.active; split <;> rfl
@[simp] theorem State.active_ctxStore (s : State) (n : Nat) : (s.active n).ctxStore = s.ctxStore := by
  unfold State.active; split <;> rfl
@[simp] theorem State.active_bar0 (s : State) (n : Nat) : (s.active n).bar0 = s.bar0 := by
  unfold State.active; split <;> rfl
@[simp] theorem State.active_msix (s : State) (n : Nat) : (s.active n).msix = s.msix := by
  unfold State.active; split <;> rfl
@[simp] theorem State.active_dropCnt (s : State) (n : Nat) : (s.active n).dropCnt = s.dropCnt := by
  unfold State.active; split <;> rfl
@[simp] theorem State.active_linksDown (s : State) (n : Nat) : (s.active n).linksDown = s.linksDown := by
  unfold State.active; split <;> rfl
@[simp] theorem State.active_retries (s : State) (n : Nat) : (s.active n).retries = s.retries := by
  unfold State.active; split <;> rfl
@[simp] theorem State.active_power (s : State) (n : Nat) : (s.active n).power = s.power := by
  unfold State.active; split <;> rfl
@[simp] theorem State.active_selfRefresh (s : State) (n : Nat) : (s.active n).selfRefresh = s.selfRefresh := by
  unfold State.active; split <;> rfl
@[simp] theorem State.active_powerCmd (s : State) (n : Nat) : (s.active n).powerCmd = s.powerCmd := by
  unfold State.active; split <;> rfl
@[simp] theorem State.active_powerErr (s : State) (n : Nat) : (s.active n).powerErr = s.powerErr := by
  unfold State.active; split <;> rfl
@[simp] theorem State.active_tripWait (s : State) (n : Nat) : (s.active n).tripWait = s.tripWait := by
  unfold State.active; split <;> rfl
@[simp] theorem State.active_sec (s : State) (n : Nat) : (s.active n).sec = s.sec := by
  unfold State.active; split <;> rfl
@[simp] theorem State.active_dbg (s : State) (n : Nat) : (s.active n).dbg = s.dbg := by
  unfold State.active; split <;> rfl
@[simp] theorem State.active_brkCnt (s : State) (n : Nat) : (s.active n).brkCnt = s.brkCnt := by
  unfold State.active; split <;> rfl
@[simp] theorem State.active_vaBump (s : State) (n : Nat) : (s.active n).vaBump = s.vaBump := by
  unfold State.active; split <;> rfl
@[simp] theorem State.active_nextAlloc (s : State) (n : Nat) : (s.active n).nextAlloc = s.nextAlloc := by
  unfold State.active; split <;> rfl
@[simp] theorem State.active_agenda (s : State) (n : Nat) : (s.active n).agenda = s.agenda := by
  unfold State.active; split <;> rfl
@[simp] theorem State.active_half (s : State) (n : Nat) : (s.active n).half = s.half := by
  unfold State.active; split <;> rfl
@[simp] theorem State.active_arg (s : State) (n : Nat) : (s.active n).arg = s.arg := by
  unfold State.active; split <;> rfl
@[simp] theorem State.active_inputs (s : State) (n : Nat) : (s.active n).inputs = s.inputs := by
  unfold State.active; split <;> rfl
@[simp] theorem State.active_grant (s : State) (n : Nat) : (s.active n).grant = s.grant := by
  unfold State.active; split <;> rfl
@[simp] theorem State.active_cur (s : State) (n : Nat) : (s.active n).cur = s.cur := by
  unfold State.active; split <;> rfl
@[simp] theorem State.active_serial (s : State) (n : Nat) : (s.active n).serial = s.serial := by
  unfold State.active; split <;> rfl

@[simp] theorem State.finish_cycle (s : State) (r : CtxRef) (x : Ctx) : (s.finish r x).cycle = s.cycle := by
  simp [State.finish]
@[simp] theorem State.finish_tiles (s : State) (r : CtxRef) (x : Ctx) : (s.finish r x).tiles = s.tiles := by
  simp [State.finish]
@[simp] theorem State.finish_banks (s : State) (r : CtxRef) (x : Ctx) : (s.finish r x).banks = s.banks := by
  simp [State.finish]
@[simp] theorem State.finish_bars (s : State) (r : CtxRef) (x : Ctx) : (s.finish r x).bars = s.bars := by
  simp [State.finish]
@[simp] theorem State.finish_elems (s : State) (r : CtxRef) (x : Ctx) : (s.finish r x).elems = s.elems := by
  simp [State.finish]
@[simp] theorem State.finish_wins (s : State) (r : CtxRef) (x : Ctx) : (s.finish r x).wins = s.wins := by
  simp [State.finish]
@[simp] theorem State.finish_chans (s : State) (r : CtxRef) (x : Ctx) : (s.finish r x).chans = s.chans := by
  simp [State.finish]
@[simp] theorem State.finish_ops (s : State) (r : CtxRef) (x : Ctx) : (s.finish r x).ops = s.ops := by
  simp [State.finish]
@[simp] theorem State.finish_gens (s : State) (r : CtxRef) (x : Ctx) : (s.finish r x).gens = s.gens := by
  simp [State.finish]
@[simp] theorem State.finish_ress (s : State) (r : CtxRef) (x : Ctx) : (s.finish r x).ress = s.ress := by
  simp [State.finish]
@[simp] theorem State.finish_softTiles (s : State) (r : CtxRef) (x : Ctx) : (s.finish r x).softTiles = s.softTiles := by
  simp [State.finish]
@[simp] theorem State.finish_gddr (s : State) (r : CtxRef) (x : Ctx) : (s.finish r x).gddr = s.gddr := by
  simp [State.finish]
@[simp] theorem State.finish_bulk (s : State) (r : CtxRef) (x : Ctx) : (s.finish r x).bulk = s.bulk := by
  simp [State.finish]
@[simp] theorem State.finish_host (s : State) (r : CtxRef) (x : Ctx) : (s.finish r x).host = s.host := by
  simp [State.finish]
@[simp] theorem State.finish_gddrTags (s : State) (r : CtxRef) (x : Ctx) : (s.finish r x).gddrTags = s.gddrTags := by
  simp [State.finish]
@[simp] theorem State.finish_bulkTags (s : State) (r : CtxRef) (x : Ctx) : (s.finish r x).bulkTags = s.bulkTags := by
  simp [State.finish]
@[simp] theorem State.finish_badMem (s : State) (r : CtxRef) (x : Ctx) : (s.finish r x).badMem = s.badMem := by
  simp [State.finish]
@[simp] theorem State.finish_badBulk (s : State) (r : CtxRef) (x : Ctx) : (s.finish r x).badBulk = s.badBulk := by
  simp [State.finish]
@[simp] theorem State.finish_accs (s : State) (r : CtxRef) (x : Ctx) : (s.finish r x).accs = s.accs := by
  simp [State.finish]
@[simp] theorem State.finish_deferred (s : State) (r : CtxRef) (x : Ctx) : (s.finish r x).deferred = s.deferred := by
  simp [State.finish]
@[simp] theorem State.finish_remotes (s : State) (r : CtxRef) (x : Ctx) : (s.finish r x).remotes = s.remotes := by
  simp [State.finish]
@[simp] theorem State.finish_outbox (s : State) (r : CtxRef) (x : Ctx) : (s.finish r x).outbox = s.outbox := by
  simp [State.finish]
@[simp] theorem State.finish_roots (s : State) (r : CtxRef) (x : Ctx) : (s.finish r x).roots = s.roots := by
  simp [State.finish]
@[simp] theorem State.finish_ledger (s : State) (r : CtxRef) (x : Ctx) : (s.finish r x).ledger = s.ledger := by
  simp [State.finish]
@[simp] theorem State.finish_temps (s : State) (r : CtxRef) (x : Ctx) : (s.finish r x).temps = s.temps := by
  simp [State.finish]
@[simp] theorem State.finish_tripAt (s : State) (r : CtxRef) (x : Ctx) : (s.finish r x).tripAt = s.tripAt := by
  simp [State.finish]
@[simp] theorem State.finish_nature (s : State) (r : CtxRef) (x : Ctx) : (s.finish r x).nature = s.nature := by
  simp [State.finish]
@[simp] theorem State.finish_ports (s : State) (r : CtxRef) (x : Ctx) : (s.finish r x).ports = s.ports := by
  simp [State.finish]
@[simp] theorem State.finish_asidGen (s : State) (r : CtxRef) (x : Ctx) : (s.finish r x).asidGen = s.asidGen := by
  simp [State.finish]
@[simp] theorem State.finish_migrs (s : State) (r : CtxRef) (x : Ctx) : (s.finish r x).migrs = s.migrs := by
  simp [State.finish]
@[simp] theorem State.finish_invals (s : State) (r : CtxRef) (x : Ctx) : (s.finish r x).invals = s.invals := by
  simp [State.finish]
@[simp] theorem State.finish_faultq (s : State) (r : CtxRef) (x : Ctx) : (s.finish r x).faultq = s.faultq := by
  simp [State.finish]
@[simp] theorem State.finish_cmds (s : State) (r : CtxRef) (x : Ctx) : (s.finish r x).cmds = s.cmds := by
  simp [State.finish]
@[simp] theorem State.finish_queries (s : State) (r : CtxRef) (x : Ctx) : (s.finish r x).queries = s.queries := by
  simp [State.finish]
@[simp] theorem State.finish_heldBeats (s : State) (r : CtxRef) (x : Ctx) : (s.finish r x).heldBeats = s.heldBeats := by
  simp [State.finish]
@[simp] theorem State.finish_pools (s : State) (r : CtxRef) (x : Ctx) : (s.finish r x).pools = s.pools := by
  simp [State.finish]
@[simp] theorem State.finish_shards (s : State) (r : CtxRef) (x : Ctx) : (s.finish r x).shards = s.shards := by
  simp [State.finish]
@[simp] theorem State.finish_flows (s : State) (r : CtxRef) (x : Ctx) : (s.finish r x).flows = s.flows := by
  simp [State.finish]
@[simp] theorem State.finish_inFlows (s : State) (r : CtxRef) (x : Ctx) : (s.finish r x).inFlows = s.inFlows := by
  simp [State.finish]
@[simp] theorem State.finish_peerWait (s : State) (r : CtxRef) (x : Ctx) : (s.finish r x).peerWait = s.peerWait := by
  simp [State.finish]
@[simp] theorem State.finish_groupArr (s : State) (r : CtxRef) (x : Ctx) : (s.finish r x).groupArr = s.groupArr := by
  simp [State.finish]
@[simp] theorem State.finish_launches (s : State) (r : CtxRef) (x : Ctx) : (s.finish r x).launches = s.launches := by
  simp [State.finish]
@[simp] theorem State.finish_launchSeq (s : State) (r : CtxRef) (x : Ctx) : (s.finish r x).launchSeq = s.launchSeq := by
  simp [State.finish]
@[simp] theorem State.finish_loadSeq (s : State) (r : CtxRef) (x : Ctx) : (s.finish r x).loadSeq = s.loadSeq := by
  simp [State.finish]
@[simp] theorem State.finish_nextRid (s : State) (r : CtxRef) (x : Ctx) : (s.finish r x).nextRid = s.nextRid := by
  simp [State.finish]
@[simp] theorem State.finish_nextAcc (s : State) (r : CtxRef) (x : Ctx) : (s.finish r x).nextAcc = s.nextAcc := by
  simp [State.finish]
@[simp] theorem State.finish_launchWin (s : State) (r : CtxRef) (x : Ctx) : (s.finish r x).launchWin = s.launchWin := by
  simp [State.finish]
@[simp] theorem State.finish_launchBuf (s : State) (r : CtxRef) (x : Ctx) : (s.finish r x).launchBuf = s.launchBuf := by
  simp [State.finish]
@[simp] theorem State.finish_launchHeld (s : State) (r : CtxRef) (x : Ctx) : (s.finish r x).launchHeld = s.launchHeld := by
  simp [State.finish]
@[simp] theorem State.finish_eventWin (s : State) (r : CtxRef) (x : Ctx) : (s.finish r x).eventWin = s.eventWin := by
  simp [State.finish]
@[simp] theorem State.finish_eventWait (s : State) (r : CtxRef) (x : Ctx) : (s.finish r x).eventWait = s.eventWait := by
  simp [State.finish]
@[simp] theorem State.finish_forwards (s : State) (r : CtxRef) (x : Ctx) : (s.finish r x).forwards = s.forwards := by
  simp [State.finish]
@[simp] theorem State.finish_fwdAt (s : State) (r : CtxRef) (x : Ctx) : (s.finish r x).fwdAt = s.fwdAt := by
  simp [State.finish]
@[simp] theorem State.finish_letterDone (s : State) (r : CtxRef) (x : Ctx) : (s.finish r x).letterDone = s.letterDone := by
  simp [State.finish]
@[simp] theorem State.finish_letterAt (s : State) (r : CtxRef) (x : Ctx) : (s.finish r x).letterAt = s.letterAt := by
  simp [State.finish]
@[simp] theorem State.finish_sched (s : State) (r : CtxRef) (x : Ctx) : (s.finish r x).sched = s.sched := by
  simp [State.finish]
@[simp] theorem State.finish_posts (s : State) (r : CtxRef) (x : Ctx) : (s.finish r x).posts = s.posts := by
  simp [State.finish]
@[simp] theorem State.finish_ctxStore (s : State) (r : CtxRef) (x : Ctx) : (s.finish r x).ctxStore = s.ctxStore := by
  simp [State.finish]
@[simp] theorem State.finish_bar0 (s : State) (r : CtxRef) (x : Ctx) : (s.finish r x).bar0 = s.bar0 := by
  simp [State.finish]
@[simp] theorem State.finish_msix (s : State) (r : CtxRef) (x : Ctx) : (s.finish r x).msix = s.msix := by
  simp [State.finish]
@[simp] theorem State.finish_dropCnt (s : State) (r : CtxRef) (x : Ctx) : (s.finish r x).dropCnt = s.dropCnt := by
  simp [State.finish]
@[simp] theorem State.finish_linksDown (s : State) (r : CtxRef) (x : Ctx) : (s.finish r x).linksDown = s.linksDown := by
  simp [State.finish]
@[simp] theorem State.finish_retries (s : State) (r : CtxRef) (x : Ctx) : (s.finish r x).retries = s.retries := by
  simp [State.finish]
@[simp] theorem State.finish_power (s : State) (r : CtxRef) (x : Ctx) : (s.finish r x).power = s.power := by
  simp [State.finish]
@[simp] theorem State.finish_selfRefresh (s : State) (r : CtxRef) (x : Ctx) : (s.finish r x).selfRefresh = s.selfRefresh := by
  simp [State.finish]
@[simp] theorem State.finish_powerCmd (s : State) (r : CtxRef) (x : Ctx) : (s.finish r x).powerCmd = s.powerCmd := by
  simp [State.finish]
@[simp] theorem State.finish_powerErr (s : State) (r : CtxRef) (x : Ctx) : (s.finish r x).powerErr = s.powerErr := by
  simp [State.finish]
@[simp] theorem State.finish_tripWait (s : State) (r : CtxRef) (x : Ctx) : (s.finish r x).tripWait = s.tripWait := by
  simp [State.finish]
@[simp] theorem State.finish_sec (s : State) (r : CtxRef) (x : Ctx) : (s.finish r x).sec = s.sec := by
  simp [State.finish]
@[simp] theorem State.finish_dbg (s : State) (r : CtxRef) (x : Ctx) : (s.finish r x).dbg = s.dbg := by
  simp [State.finish]
@[simp] theorem State.finish_brkCnt (s : State) (r : CtxRef) (x : Ctx) : (s.finish r x).brkCnt = s.brkCnt := by
  simp [State.finish]
@[simp] theorem State.finish_vaBump (s : State) (r : CtxRef) (x : Ctx) : (s.finish r x).vaBump = s.vaBump := by
  simp [State.finish]
@[simp] theorem State.finish_nextAlloc (s : State) (r : CtxRef) (x : Ctx) : (s.finish r x).nextAlloc = s.nextAlloc := by
  simp [State.finish]
@[simp] theorem State.finish_agenda (s : State) (r : CtxRef) (x : Ctx) : (s.finish r x).agenda = s.agenda := by
  simp [State.finish]
@[simp] theorem State.finish_half (s : State) (r : CtxRef) (x : Ctx) : (s.finish r x).half = s.half := by
  simp [State.finish]
@[simp] theorem State.finish_arg (s : State) (r : CtxRef) (x : Ctx) : (s.finish r x).arg = s.arg := by
  simp [State.finish]
@[simp] theorem State.finish_inputs (s : State) (r : CtxRef) (x : Ctx) : (s.finish r x).inputs = s.inputs := by
  simp [State.finish]
@[simp] theorem State.finish_grant (s : State) (r : CtxRef) (x : Ctx) : (s.finish r x).grant = s.grant := by
  simp [State.finish]
@[simp] theorem State.finish_cur (s : State) (r : CtxRef) (x : Ctx) : (s.finish r x).cur = s.cur := by
  simp [State.finish]
@[simp] theorem State.finish_serial (s : State) (r : CtxRef) (x : Ctx) : (s.finish r x).serial = s.serial := by
  simp [State.finish]

@[simp] theorem State.fileLetter_cycle (s : State) (r e w : Nat) (b : Beat) (h : Bool) : (s.fileLetter r e w b h).cycle = s.cycle := rfl
@[simp] theorem State.fileLetter_ctxs (s : State) (r e w : Nat) (b : Beat) (h : Bool) : (s.fileLetter r e w b h).ctxs = s.ctxs := rfl
@[simp] theorem State.fileLetter_tiles (s : State) (r e w : Nat) (b : Beat) (h : Bool) : (s.fileLetter r e w b h).tiles = s.tiles := rfl
@[simp] theorem State.fileLetter_banks (s : State) (r e w : Nat) (b : Beat) (h : Bool) : (s.fileLetter r e w b h).banks = s.banks := rfl
@[simp] theorem State.fileLetter_bars (s : State) (r e w : Nat) (b : Beat) (h : Bool) : (s.fileLetter r e w b h).bars = s.bars := rfl
@[simp] theorem State.fileLetter_elems (s : State) (r e w : Nat) (b : Beat) (h : Bool) : (s.fileLetter r e w b h).elems = s.elems := rfl
@[simp] theorem State.fileLetter_wins (s : State) (r e w : Nat) (b : Beat) (h : Bool) : (s.fileLetter r e w b h).wins = s.wins := rfl
@[simp] theorem State.fileLetter_chans (s : State) (r e w : Nat) (b : Beat) (h : Bool) : (s.fileLetter r e w b h).chans = s.chans := rfl
@[simp] theorem State.fileLetter_ops (s : State) (r e w : Nat) (b : Beat) (h : Bool) : (s.fileLetter r e w b h).ops = s.ops := rfl
@[simp] theorem State.fileLetter_gens (s : State) (r e w : Nat) (b : Beat) (h : Bool) : (s.fileLetter r e w b h).gens = s.gens := rfl
@[simp] theorem State.fileLetter_softTiles (s : State) (r e w : Nat) (b : Beat) (h : Bool) : (s.fileLetter r e w b h).softTiles = s.softTiles := rfl
@[simp] theorem State.fileLetter_gddr (s : State) (r e w : Nat) (b : Beat) (h : Bool) : (s.fileLetter r e w b h).gddr = s.gddr := rfl
@[simp] theorem State.fileLetter_bulk (s : State) (r e w : Nat) (b : Beat) (h : Bool) : (s.fileLetter r e w b h).bulk = s.bulk := rfl
@[simp] theorem State.fileLetter_host (s : State) (r e w : Nat) (b : Beat) (h : Bool) : (s.fileLetter r e w b h).host = s.host := rfl
@[simp] theorem State.fileLetter_gddrTags (s : State) (r e w : Nat) (b : Beat) (h : Bool) : (s.fileLetter r e w b h).gddrTags = s.gddrTags := rfl
@[simp] theorem State.fileLetter_bulkTags (s : State) (r e w : Nat) (b : Beat) (h : Bool) : (s.fileLetter r e w b h).bulkTags = s.bulkTags := rfl
@[simp] theorem State.fileLetter_badMem (s : State) (r e w : Nat) (b : Beat) (h : Bool) : (s.fileLetter r e w b h).badMem = s.badMem := rfl
@[simp] theorem State.fileLetter_badBulk (s : State) (r e w : Nat) (b : Beat) (h : Bool) : (s.fileLetter r e w b h).badBulk = s.badBulk := rfl
@[simp] theorem State.fileLetter_accs (s : State) (r e w : Nat) (b : Beat) (h : Bool) : (s.fileLetter r e w b h).accs = s.accs := rfl
@[simp] theorem State.fileLetter_deferred (s : State) (r e w : Nat) (b : Beat) (h : Bool) : (s.fileLetter r e w b h).deferred = s.deferred := rfl
@[simp] theorem State.fileLetter_remotes (s : State) (r e w : Nat) (b : Beat) (h : Bool) : (s.fileLetter r e w b h).remotes = s.remotes := rfl
@[simp] theorem State.fileLetter_outbox (s : State) (r e w : Nat) (b : Beat) (h : Bool) : (s.fileLetter r e w b h).outbox = s.outbox := rfl
@[simp] theorem State.fileLetter_roots (s : State) (r e w : Nat) (b : Beat) (h : Bool) : (s.fileLetter r e w b h).roots = s.roots := rfl
@[simp] theorem State.fileLetter_ledger (s : State) (r e w : Nat) (b : Beat) (h : Bool) : (s.fileLetter r e w b h).ledger = s.ledger := rfl
@[simp] theorem State.fileLetter_temps (s : State) (r e w : Nat) (b : Beat) (h : Bool) : (s.fileLetter r e w b h).temps = s.temps := rfl
@[simp] theorem State.fileLetter_tripAt (s : State) (r e w : Nat) (b : Beat) (h : Bool) : (s.fileLetter r e w b h).tripAt = s.tripAt := rfl
@[simp] theorem State.fileLetter_nature (s : State) (r e w : Nat) (b : Beat) (h : Bool) : (s.fileLetter r e w b h).nature = s.nature := rfl
@[simp] theorem State.fileLetter_ports (s : State) (r e w : Nat) (b : Beat) (h : Bool) : (s.fileLetter r e w b h).ports = s.ports := rfl
@[simp] theorem State.fileLetter_asidGen (s : State) (r e w : Nat) (b : Beat) (h : Bool) : (s.fileLetter r e w b h).asidGen = s.asidGen := rfl
@[simp] theorem State.fileLetter_migrs (s : State) (r e w : Nat) (b : Beat) (h : Bool) : (s.fileLetter r e w b h).migrs = s.migrs := rfl
@[simp] theorem State.fileLetter_invals (s : State) (r e w : Nat) (b : Beat) (h : Bool) : (s.fileLetter r e w b h).invals = s.invals := rfl
@[simp] theorem State.fileLetter_faultq (s : State) (r e w : Nat) (b : Beat) (h : Bool) : (s.fileLetter r e w b h).faultq = s.faultq := rfl
@[simp] theorem State.fileLetter_cmds (s : State) (r e w : Nat) (b : Beat) (h : Bool) : (s.fileLetter r e w b h).cmds = s.cmds := rfl
@[simp] theorem State.fileLetter_queries (s : State) (r e w : Nat) (b : Beat) (h : Bool) : (s.fileLetter r e w b h).queries = s.queries := rfl
@[simp] theorem State.fileLetter_heldBeats (s : State) (r e w : Nat) (b : Beat) (h : Bool) : (s.fileLetter r e w b h).heldBeats = s.heldBeats := rfl
@[simp] theorem State.fileLetter_pools (s : State) (r e w : Nat) (b : Beat) (h : Bool) : (s.fileLetter r e w b h).pools = s.pools := rfl
@[simp] theorem State.fileLetter_shards (s : State) (r e w : Nat) (b : Beat) (h : Bool) : (s.fileLetter r e w b h).shards = s.shards := rfl
@[simp] theorem State.fileLetter_flows (s : State) (r e w : Nat) (b : Beat) (h : Bool) : (s.fileLetter r e w b h).flows = s.flows := rfl
@[simp] theorem State.fileLetter_inFlows (s : State) (r e w : Nat) (b : Beat) (h : Bool) : (s.fileLetter r e w b h).inFlows = s.inFlows := rfl
@[simp] theorem State.fileLetter_peerWait (s : State) (r e w : Nat) (b : Beat) (h : Bool) : (s.fileLetter r e w b h).peerWait = s.peerWait := rfl
@[simp] theorem State.fileLetter_groupArr (s : State) (r e w : Nat) (b : Beat) (h : Bool) : (s.fileLetter r e w b h).groupArr = s.groupArr := rfl
@[simp] theorem State.fileLetter_launches (s : State) (r e w : Nat) (b : Beat) (h : Bool) : (s.fileLetter r e w b h).launches = s.launches := rfl
@[simp] theorem State.fileLetter_launchSeq (s : State) (r e w : Nat) (b : Beat) (h : Bool) : (s.fileLetter r e w b h).launchSeq = s.launchSeq := rfl
@[simp] theorem State.fileLetter_loadSeq (s : State) (r e w : Nat) (b : Beat) (h : Bool) : (s.fileLetter r e w b h).loadSeq = s.loadSeq := rfl
@[simp] theorem State.fileLetter_nextRid (s : State) (r e w : Nat) (b : Beat) (h : Bool) : (s.fileLetter r e w b h).nextRid = s.nextRid := rfl
@[simp] theorem State.fileLetter_nextAcc (s : State) (r e w : Nat) (b : Beat) (h : Bool) : (s.fileLetter r e w b h).nextAcc = s.nextAcc := rfl
@[simp] theorem State.fileLetter_launchWin (s : State) (r e w : Nat) (b : Beat) (h : Bool) : (s.fileLetter r e w b h).launchWin = s.launchWin := rfl
@[simp] theorem State.fileLetter_launchBuf (s : State) (r e w : Nat) (b : Beat) (h : Bool) : (s.fileLetter r e w b h).launchBuf = s.launchBuf := rfl
@[simp] theorem State.fileLetter_launchHeld (s : State) (r e w : Nat) (b : Beat) (h : Bool) : (s.fileLetter r e w b h).launchHeld = s.launchHeld := rfl
@[simp] theorem State.fileLetter_eventWin (s : State) (r e w : Nat) (b : Beat) (h : Bool) : (s.fileLetter r e w b h).eventWin = s.eventWin := rfl
@[simp] theorem State.fileLetter_eventWait (s : State) (r e w : Nat) (b : Beat) (h : Bool) : (s.fileLetter r e w b h).eventWait = s.eventWait := rfl
@[simp] theorem State.fileLetter_forwards (s : State) (r e w : Nat) (b : Beat) (h : Bool) : (s.fileLetter r e w b h).forwards = s.forwards := rfl
@[simp] theorem State.fileLetter_fwdAt (s : State) (r e w : Nat) (b : Beat) (h : Bool) : (s.fileLetter r e w b h).fwdAt = s.fwdAt := rfl
@[simp] theorem State.fileLetter_letterDone (s : State) (r e w : Nat) (b : Beat) (h : Bool) : (s.fileLetter r e w b h).letterDone = s.letterDone := rfl
@[simp] theorem State.fileLetter_letterAt (s : State) (r e w : Nat) (b : Beat) (h : Bool) : (s.fileLetter r e w b h).letterAt = s.letterAt := rfl
@[simp] theorem State.fileLetter_sched (s : State) (r e w : Nat) (b : Beat) (h : Bool) : (s.fileLetter r e w b h).sched = s.sched := rfl
@[simp] theorem State.fileLetter_posts (s : State) (r e w : Nat) (b : Beat) (h : Bool) : (s.fileLetter r e w b h).posts = s.posts := rfl
@[simp] theorem State.fileLetter_ctxStore (s : State) (r e w : Nat) (b : Beat) (h : Bool) : (s.fileLetter r e w b h).ctxStore = s.ctxStore := rfl
@[simp] theorem State.fileLetter_bar0 (s : State) (r e w : Nat) (b : Beat) (h : Bool) : (s.fileLetter r e w b h).bar0 = s.bar0 := rfl
@[simp] theorem State.fileLetter_msix (s : State) (r e w : Nat) (b : Beat) (h : Bool) : (s.fileLetter r e w b h).msix = s.msix := rfl
@[simp] theorem State.fileLetter_dropCnt (s : State) (r e w : Nat) (b : Beat) (h : Bool) : (s.fileLetter r e w b h).dropCnt = s.dropCnt := rfl
@[simp] theorem State.fileLetter_linksDown (s : State) (r e w : Nat) (b : Beat) (h : Bool) : (s.fileLetter r e w b h).linksDown = s.linksDown := rfl
@[simp] theorem State.fileLetter_retries (s : State) (r e w : Nat) (b : Beat) (h : Bool) : (s.fileLetter r e w b h).retries = s.retries := rfl
@[simp] theorem State.fileLetter_power (s : State) (r e w : Nat) (b : Beat) (h : Bool) : (s.fileLetter r e w b h).power = s.power := rfl
@[simp] theorem State.fileLetter_selfRefresh (s : State) (r e w : Nat) (b : Beat) (h : Bool) : (s.fileLetter r e w b h).selfRefresh = s.selfRefresh := rfl
@[simp] theorem State.fileLetter_powerCmd (s : State) (r e w : Nat) (b : Beat) (h : Bool) : (s.fileLetter r e w b h).powerCmd = s.powerCmd := rfl
@[simp] theorem State.fileLetter_powerErr (s : State) (r e w : Nat) (b : Beat) (h : Bool) : (s.fileLetter r e w b h).powerErr = s.powerErr := rfl
@[simp] theorem State.fileLetter_tripWait (s : State) (r e w : Nat) (b : Beat) (h : Bool) : (s.fileLetter r e w b h).tripWait = s.tripWait := rfl
@[simp] theorem State.fileLetter_sec (s : State) (r e w : Nat) (b : Beat) (h : Bool) : (s.fileLetter r e w b h).sec = s.sec := rfl
@[simp] theorem State.fileLetter_dbg (s : State) (r e w : Nat) (b : Beat) (h : Bool) : (s.fileLetter r e w b h).dbg = s.dbg := rfl
@[simp] theorem State.fileLetter_brkCnt (s : State) (r e w : Nat) (b : Beat) (h : Bool) : (s.fileLetter r e w b h).brkCnt = s.brkCnt := rfl
@[simp] theorem State.fileLetter_vaBump (s : State) (r e w : Nat) (b : Beat) (h : Bool) : (s.fileLetter r e w b h).vaBump = s.vaBump := rfl
@[simp] theorem State.fileLetter_nextAlloc (s : State) (r e w : Nat) (b : Beat) (h : Bool) : (s.fileLetter r e w b h).nextAlloc = s.nextAlloc := rfl
@[simp] theorem State.fileLetter_agenda (s : State) (r e w : Nat) (b : Beat) (h : Bool) : (s.fileLetter r e w b h).agenda = s.agenda := rfl
@[simp] theorem State.fileLetter_half (s : State) (r e w : Nat) (b : Beat) (h : Bool) : (s.fileLetter r e w b h).half = s.half := rfl
@[simp] theorem State.fileLetter_arg (s : State) (r e w : Nat) (b : Beat) (h : Bool) : (s.fileLetter r e w b h).arg = s.arg := rfl
@[simp] theorem State.fileLetter_inputs (s : State) (r e w : Nat) (b : Beat) (h : Bool) : (s.fileLetter r e w b h).inputs = s.inputs := rfl
@[simp] theorem State.fileLetter_grant (s : State) (r e w : Nat) (b : Beat) (h : Bool) : (s.fileLetter r e w b h).grant = s.grant := rfl
@[simp] theorem State.fileLetter_cur (s : State) (r e w : Nat) (b : Beat) (h : Bool) : (s.fileLetter r e w b h).cur = s.cur := rfl
@[simp] theorem State.fileLetter_serial (s : State) (r e w : Nat) (b : Beat) (h : Bool) : (s.fileLetter r e w b h).serial = s.serial := rfl
@[simp] theorem State.fileLetter_busy (s : State) (r e w : Nat) (b : Beat) (h : Bool) : (s.fileLetter r e w b h).busy = s.busy := rfl

@[simp] theorem State.trap_cycle (s : State) (r : CtxRef) (x : Ctx) (c : Nat) (i j : Word) : (s.trap r x c i j).cycle = s.cycle := by
  simp [State.trap]
@[simp] theorem State.trap_tiles (s : State) (r : CtxRef) (x : Ctx) (c : Nat) (i j : Word) : (s.trap r x c i j).tiles = s.tiles := by
  simp [State.trap]
@[simp] theorem State.trap_banks (s : State) (r : CtxRef) (x : Ctx) (c : Nat) (i j : Word) : (s.trap r x c i j).banks = s.banks := by
  simp [State.trap]
@[simp] theorem State.trap_bars (s : State) (r : CtxRef) (x : Ctx) (c : Nat) (i j : Word) : (s.trap r x c i j).bars = s.bars := by
  simp [State.trap]
@[simp] theorem State.trap_elems (s : State) (r : CtxRef) (x : Ctx) (c : Nat) (i j : Word) : (s.trap r x c i j).elems = s.elems := by
  simp [State.trap]
@[simp] theorem State.trap_wins (s : State) (r : CtxRef) (x : Ctx) (c : Nat) (i j : Word) : (s.trap r x c i j).wins = s.wins := by
  simp [State.trap]
@[simp] theorem State.trap_chans (s : State) (r : CtxRef) (x : Ctx) (c : Nat) (i j : Word) : (s.trap r x c i j).chans = s.chans := by
  simp [State.trap]
@[simp] theorem State.trap_ops (s : State) (r : CtxRef) (x : Ctx) (c : Nat) (i j : Word) : (s.trap r x c i j).ops = s.ops := by
  simp [State.trap]
@[simp] theorem State.trap_gens (s : State) (r : CtxRef) (x : Ctx) (c : Nat) (i j : Word) : (s.trap r x c i j).gens = s.gens := by
  simp [State.trap]
@[simp] theorem State.trap_softTiles (s : State) (r : CtxRef) (x : Ctx) (c : Nat) (i j : Word) : (s.trap r x c i j).softTiles = s.softTiles := by
  simp [State.trap]
@[simp] theorem State.trap_gddr (s : State) (r : CtxRef) (x : Ctx) (c : Nat) (i j : Word) : (s.trap r x c i j).gddr = s.gddr := by
  simp [State.trap]
@[simp] theorem State.trap_bulk (s : State) (r : CtxRef) (x : Ctx) (c : Nat) (i j : Word) : (s.trap r x c i j).bulk = s.bulk := by
  simp [State.trap]
@[simp] theorem State.trap_host (s : State) (r : CtxRef) (x : Ctx) (c : Nat) (i j : Word) : (s.trap r x c i j).host = s.host := by
  simp [State.trap]
@[simp] theorem State.trap_gddrTags (s : State) (r : CtxRef) (x : Ctx) (c : Nat) (i j : Word) : (s.trap r x c i j).gddrTags = s.gddrTags := by
  simp [State.trap]
@[simp] theorem State.trap_bulkTags (s : State) (r : CtxRef) (x : Ctx) (c : Nat) (i j : Word) : (s.trap r x c i j).bulkTags = s.bulkTags := by
  simp [State.trap]
@[simp] theorem State.trap_badMem (s : State) (r : CtxRef) (x : Ctx) (c : Nat) (i j : Word) : (s.trap r x c i j).badMem = s.badMem := by
  simp [State.trap]
@[simp] theorem State.trap_badBulk (s : State) (r : CtxRef) (x : Ctx) (c : Nat) (i j : Word) : (s.trap r x c i j).badBulk = s.badBulk := by
  simp [State.trap]
@[simp] theorem State.trap_accs (s : State) (r : CtxRef) (x : Ctx) (c : Nat) (i j : Word) : (s.trap r x c i j).accs = s.accs := by
  simp [State.trap]
@[simp] theorem State.trap_deferred (s : State) (r : CtxRef) (x : Ctx) (c : Nat) (i j : Word) : (s.trap r x c i j).deferred = s.deferred := by
  simp [State.trap]
@[simp] theorem State.trap_remotes (s : State) (r : CtxRef) (x : Ctx) (c : Nat) (i j : Word) : (s.trap r x c i j).remotes = s.remotes := by
  simp [State.trap]
@[simp] theorem State.trap_outbox (s : State) (r : CtxRef) (x : Ctx) (c : Nat) (i j : Word) : (s.trap r x c i j).outbox = s.outbox := by
  simp [State.trap]
@[simp] theorem State.trap_roots (s : State) (r : CtxRef) (x : Ctx) (c : Nat) (i j : Word) : (s.trap r x c i j).roots = s.roots := by
  simp [State.trap]
@[simp] theorem State.trap_ledger (s : State) (r : CtxRef) (x : Ctx) (c : Nat) (i j : Word) : (s.trap r x c i j).ledger = s.ledger := by
  simp [State.trap]
@[simp] theorem State.trap_temps (s : State) (r : CtxRef) (x : Ctx) (c : Nat) (i j : Word) : (s.trap r x c i j).temps = s.temps := by
  simp [State.trap]
@[simp] theorem State.trap_tripAt (s : State) (r : CtxRef) (x : Ctx) (c : Nat) (i j : Word) : (s.trap r x c i j).tripAt = s.tripAt := by
  simp [State.trap]
@[simp] theorem State.trap_nature (s : State) (r : CtxRef) (x : Ctx) (c : Nat) (i j : Word) : (s.trap r x c i j).nature = s.nature := by
  simp [State.trap]
@[simp] theorem State.trap_ports (s : State) (r : CtxRef) (x : Ctx) (c : Nat) (i j : Word) : (s.trap r x c i j).ports = s.ports := by
  simp [State.trap]
@[simp] theorem State.trap_asidGen (s : State) (r : CtxRef) (x : Ctx) (c : Nat) (i j : Word) : (s.trap r x c i j).asidGen = s.asidGen := by
  simp [State.trap]
@[simp] theorem State.trap_migrs (s : State) (r : CtxRef) (x : Ctx) (c : Nat) (i j : Word) : (s.trap r x c i j).migrs = s.migrs := by
  simp [State.trap]
@[simp] theorem State.trap_invals (s : State) (r : CtxRef) (x : Ctx) (c : Nat) (i j : Word) : (s.trap r x c i j).invals = s.invals := by
  simp [State.trap]
@[simp] theorem State.trap_faultq (s : State) (r : CtxRef) (x : Ctx) (c : Nat) (i j : Word) : (s.trap r x c i j).faultq = s.faultq := by
  simp [State.trap]
@[simp] theorem State.trap_cmds (s : State) (r : CtxRef) (x : Ctx) (c : Nat) (i j : Word) : (s.trap r x c i j).cmds = s.cmds := by
  simp [State.trap]
@[simp] theorem State.trap_queries (s : State) (r : CtxRef) (x : Ctx) (c : Nat) (i j : Word) : (s.trap r x c i j).queries = s.queries := by
  simp [State.trap]
@[simp] theorem State.trap_heldBeats (s : State) (r : CtxRef) (x : Ctx) (c : Nat) (i j : Word) : (s.trap r x c i j).heldBeats = s.heldBeats := by
  simp [State.trap]
@[simp] theorem State.trap_pools (s : State) (r : CtxRef) (x : Ctx) (c : Nat) (i j : Word) : (s.trap r x c i j).pools = s.pools := by
  simp [State.trap]
@[simp] theorem State.trap_shards (s : State) (r : CtxRef) (x : Ctx) (c : Nat) (i j : Word) : (s.trap r x c i j).shards = s.shards := by
  simp [State.trap]
@[simp] theorem State.trap_flows (s : State) (r : CtxRef) (x : Ctx) (c : Nat) (i j : Word) : (s.trap r x c i j).flows = s.flows := by
  simp [State.trap]
@[simp] theorem State.trap_inFlows (s : State) (r : CtxRef) (x : Ctx) (c : Nat) (i j : Word) : (s.trap r x c i j).inFlows = s.inFlows := by
  simp [State.trap]
@[simp] theorem State.trap_peerWait (s : State) (r : CtxRef) (x : Ctx) (c : Nat) (i j : Word) : (s.trap r x c i j).peerWait = s.peerWait := by
  simp [State.trap]
@[simp] theorem State.trap_groupArr (s : State) (r : CtxRef) (x : Ctx) (c : Nat) (i j : Word) : (s.trap r x c i j).groupArr = s.groupArr := by
  simp [State.trap]
@[simp] theorem State.trap_launches (s : State) (r : CtxRef) (x : Ctx) (c : Nat) (i j : Word) : (s.trap r x c i j).launches = s.launches := by
  simp [State.trap]
@[simp] theorem State.trap_launchSeq (s : State) (r : CtxRef) (x : Ctx) (c : Nat) (i j : Word) : (s.trap r x c i j).launchSeq = s.launchSeq := by
  simp [State.trap]
@[simp] theorem State.trap_loadSeq (s : State) (r : CtxRef) (x : Ctx) (c : Nat) (i j : Word) : (s.trap r x c i j).loadSeq = s.loadSeq := by
  simp [State.trap]
@[simp] theorem State.trap_nextRid (s : State) (r : CtxRef) (x : Ctx) (c : Nat) (i j : Word) : (s.trap r x c i j).nextRid = s.nextRid := by
  simp [State.trap]
@[simp] theorem State.trap_nextAcc (s : State) (r : CtxRef) (x : Ctx) (c : Nat) (i j : Word) : (s.trap r x c i j).nextAcc = s.nextAcc := by
  simp [State.trap]
@[simp] theorem State.trap_launchWin (s : State) (r : CtxRef) (x : Ctx) (c : Nat) (i j : Word) : (s.trap r x c i j).launchWin = s.launchWin := by
  simp [State.trap]
@[simp] theorem State.trap_launchBuf (s : State) (r : CtxRef) (x : Ctx) (c : Nat) (i j : Word) : (s.trap r x c i j).launchBuf = s.launchBuf := by
  simp [State.trap]
@[simp] theorem State.trap_launchHeld (s : State) (r : CtxRef) (x : Ctx) (c : Nat) (i j : Word) : (s.trap r x c i j).launchHeld = s.launchHeld := by
  simp [State.trap]
@[simp] theorem State.trap_eventWin (s : State) (r : CtxRef) (x : Ctx) (c : Nat) (i j : Word) : (s.trap r x c i j).eventWin = s.eventWin := by
  simp [State.trap]
@[simp] theorem State.trap_eventWait (s : State) (r : CtxRef) (x : Ctx) (c : Nat) (i j : Word) : (s.trap r x c i j).eventWait = s.eventWait := by
  simp [State.trap]
@[simp] theorem State.trap_forwards (s : State) (r : CtxRef) (x : Ctx) (c : Nat) (i j : Word) : (s.trap r x c i j).forwards = s.forwards := by
  simp [State.trap]
@[simp] theorem State.trap_fwdAt (s : State) (r : CtxRef) (x : Ctx) (c : Nat) (i j : Word) : (s.trap r x c i j).fwdAt = s.fwdAt := by
  simp [State.trap]
@[simp] theorem State.trap_letterDone (s : State) (r : CtxRef) (x : Ctx) (c : Nat) (i j : Word) : (s.trap r x c i j).letterDone = s.letterDone := by
  simp [State.trap]
@[simp] theorem State.trap_letterAt (s : State) (r : CtxRef) (x : Ctx) (c : Nat) (i j : Word) : (s.trap r x c i j).letterAt = s.letterAt := by
  simp [State.trap]
@[simp] theorem State.trap_sched (s : State) (r : CtxRef) (x : Ctx) (c : Nat) (i j : Word) : (s.trap r x c i j).sched = s.sched := by
  simp [State.trap]
@[simp] theorem State.trap_posts (s : State) (r : CtxRef) (x : Ctx) (c : Nat) (i j : Word) : (s.trap r x c i j).posts = s.posts := by
  simp [State.trap]
@[simp] theorem State.trap_ctxStore (s : State) (r : CtxRef) (x : Ctx) (c : Nat) (i j : Word) : (s.trap r x c i j).ctxStore = s.ctxStore := by
  simp [State.trap]
@[simp] theorem State.trap_bar0 (s : State) (r : CtxRef) (x : Ctx) (c : Nat) (i j : Word) : (s.trap r x c i j).bar0 = s.bar0 := by
  simp [State.trap]
@[simp] theorem State.trap_msix (s : State) (r : CtxRef) (x : Ctx) (c : Nat) (i j : Word) : (s.trap r x c i j).msix = s.msix := by
  simp [State.trap]
@[simp] theorem State.trap_dropCnt (s : State) (r : CtxRef) (x : Ctx) (c : Nat) (i j : Word) : (s.trap r x c i j).dropCnt = s.dropCnt := by
  simp [State.trap]
@[simp] theorem State.trap_linksDown (s : State) (r : CtxRef) (x : Ctx) (c : Nat) (i j : Word) : (s.trap r x c i j).linksDown = s.linksDown := by
  simp [State.trap]
@[simp] theorem State.trap_retries (s : State) (r : CtxRef) (x : Ctx) (c : Nat) (i j : Word) : (s.trap r x c i j).retries = s.retries := by
  simp [State.trap]
@[simp] theorem State.trap_power (s : State) (r : CtxRef) (x : Ctx) (c : Nat) (i j : Word) : (s.trap r x c i j).power = s.power := by
  simp [State.trap]
@[simp] theorem State.trap_selfRefresh (s : State) (r : CtxRef) (x : Ctx) (c : Nat) (i j : Word) : (s.trap r x c i j).selfRefresh = s.selfRefresh := by
  simp [State.trap]
@[simp] theorem State.trap_powerCmd (s : State) (r : CtxRef) (x : Ctx) (c : Nat) (i j : Word) : (s.trap r x c i j).powerCmd = s.powerCmd := by
  simp [State.trap]
@[simp] theorem State.trap_powerErr (s : State) (r : CtxRef) (x : Ctx) (c : Nat) (i j : Word) : (s.trap r x c i j).powerErr = s.powerErr := by
  simp [State.trap]
@[simp] theorem State.trap_tripWait (s : State) (r : CtxRef) (x : Ctx) (c : Nat) (i j : Word) : (s.trap r x c i j).tripWait = s.tripWait := by
  simp [State.trap]
@[simp] theorem State.trap_sec (s : State) (r : CtxRef) (x : Ctx) (c : Nat) (i j : Word) : (s.trap r x c i j).sec = s.sec := by
  simp [State.trap]
@[simp] theorem State.trap_dbg (s : State) (r : CtxRef) (x : Ctx) (c : Nat) (i j : Word) : (s.trap r x c i j).dbg = s.dbg := by
  simp [State.trap]
@[simp] theorem State.trap_brkCnt (s : State) (r : CtxRef) (x : Ctx) (c : Nat) (i j : Word) : (s.trap r x c i j).brkCnt = s.brkCnt := by
  simp [State.trap]
@[simp] theorem State.trap_vaBump (s : State) (r : CtxRef) (x : Ctx) (c : Nat) (i j : Word) : (s.trap r x c i j).vaBump = s.vaBump := by
  simp [State.trap]
@[simp] theorem State.trap_nextAlloc (s : State) (r : CtxRef) (x : Ctx) (c : Nat) (i j : Word) : (s.trap r x c i j).nextAlloc = s.nextAlloc := by
  simp [State.trap]
@[simp] theorem State.trap_agenda (s : State) (r : CtxRef) (x : Ctx) (c : Nat) (i j : Word) : (s.trap r x c i j).agenda = s.agenda := by
  simp [State.trap]
@[simp] theorem State.trap_half (s : State) (r : CtxRef) (x : Ctx) (c : Nat) (i j : Word) : (s.trap r x c i j).half = s.half := by
  simp [State.trap]
@[simp] theorem State.trap_arg (s : State) (r : CtxRef) (x : Ctx) (c : Nat) (i j : Word) : (s.trap r x c i j).arg = s.arg := by
  simp [State.trap]
@[simp] theorem State.trap_inputs (s : State) (r : CtxRef) (x : Ctx) (c : Nat) (i j : Word) : (s.trap r x c i j).inputs = s.inputs := by
  simp [State.trap]
@[simp] theorem State.trap_grant (s : State) (r : CtxRef) (x : Ctx) (c : Nat) (i j : Word) : (s.trap r x c i j).grant = s.grant := by
  simp [State.trap]
@[simp] theorem State.trap_cur (s : State) (r : CtxRef) (x : Ctx) (c : Nat) (i j : Word) : (s.trap r x c i j).cur = s.cur := by
  simp [State.trap]
@[simp] theorem State.trap_serial (s : State) (r : CtxRef) (x : Ctx) (c : Nat) (i j : Word) : (s.trap r x c i j).serial = s.serial := by
  simp [State.trap]

end Sys2Proof.Machine
end

