-- ==== Sys2Proof/Laws/Tables.lean ====
section
/-! SUPPORT. Tables: a read after a write, after a change and after a removal. -/

namespace Sys2Proof.Machine

theorem tget_tput {κ α : Type} [DecidableEq κ] (t : Tbl κ α) (k q : κ) (a : α) :
    tget (tput t k a) q = if q = k then some a else tget t q := by
  induction t with
  | nil =>
    by_cases h : q = k
    · simp [tput, tget, h]
    · have : ¬ k = q := fun e => h e.symm
      simp [tput, tget, h, this]
  | cons p t ih =>
    by_cases h : p.1 = k
    · by_cases hq : q = k
      · simp [tput, tget, h, hq]
      · have : ¬ k = q := fun e => hq e.symm
        simp [tput, tget, h, hq, this]
    · by_cases hp : p.1 = q
      · have : ¬ q = k := fun e => h (hp.trans e)
        simp [tput, tget, hp, this]
      · simp [tput, tget, h, hp, ih]

@[simp] theorem tget_tput_self {κ α : Type} [DecidableEq κ] (t : Tbl κ α) (k : κ) (a : α) :
    tget (tput t k a) k = some a := by simp [tget_tput]

theorem tget_tput_other {κ α : Type} [DecidableEq κ] (t : Tbl κ α) {k q : κ} (a : α) (h : q ≠ k) :
    tget (tput t k a) q = tget t q := by simp [tget_tput, h]

theorem tget_tmod {κ α : Type} [DecidableEq κ] (t : Tbl κ α) (k q : κ) (f : α → α) :
    tget (tmod t k f) q = if q = k then (tget t k).map f else tget t q := by
  unfold tmod
  split <;> rename_i h
  · rw [tget_tput, h]; rfl
  · by_cases e : q = k <;> simp [e, h]

theorem tget_tdel {κ α : Type} [DecidableEq κ] (t : Tbl κ α) (k q : κ) :
    tget (tdel t k) q = if q = k then none else tget t q := by
  induction t with
  | nil => simp [tdel, tget]
  | cons p t ih =>
    by_cases h : p.1 = k
    · rw [show tdel (p :: t) k = tdel t k by simp [tdel, h], ih, tget, h]
      by_cases hq : q = k
      · simp [hq]
      · have : ¬ k = q := fun e => hq e.symm
        simp [hq, this]
    · rw [show tdel (p :: t) k = p :: tdel t k by simp [tdel, h], tget, tget, ih]
      by_cases hp : p.1 = q
      · have : ¬ q = k := fun e => h (hp.trans e)
        simp [hp, this]
      · simp [hp]

@[simp] theorem State.ctx?_setCtx (s : State) (r q : CtxRef) (x : Ctx) :
    (s.setCtx r x).ctx? q = if q = r then some x else s.ctx? q := tget_tput s.ctxs r q x

@[simp] theorem State.ctx?_active (s : State) (r : CtxRef) (n : Nat) : (s.active n).ctx? r = s.ctx? r := by
  unfold State.active; split <;> rfl

/-- A word that finishes leaves its own context past the word, and every other context alone. -/
@[simp] theorem State.ctx?_finish (s : State) (r q : CtxRef) (x : Ctx) :
    (s.finish r x).ctx? q = if q = r then some x.complete else s.ctx? q := by
  simp [State.finish]

@[simp] theorem State.win?_setWin (s : State) (w v : WinRef) (x : Window) :
    (s.setWin w x).win? v = if v = w then some x else s.win? v := tget_tput s.wins w v x

@[simp] theorem State.chan?_setChan (s : State) (c d : ChanRef) (x : Chan) :
    (s.setChan c x).chan? d = if d = c then some x else s.chan? d := tget_tput s.chans c d x

@[simp] theorem State.bank?_setBank (s : State) (b c : BankRef) (x : Bank) :
    (s.setBank b x).bank? c = if c = b then some x else s.bank? c := tget_tput s.banks b c x

@[simp] theorem State.bar_setBar (s : State) (b c : BarRef) (x : Bar) :
    (s.setBar b x).bar c = if c = b then x else s.bar c := by
  simp only [State.bar, State.setBar, tget_tput]
  split <;> rfl

/-- `finish` touches the contexts and the list of active residencies, and nothing else. -/
theorem State.finish_rest (s : State) (r : CtxRef) (x : Ctx) :
    s.finish r x = { s with ctxs := (s.finish r x).ctxs, busy := (s.finish r x).busy } := by
  unfold State.finish State.active State.setCtx; split <;> rfl

theorem State.finish_ctxs (s : State) (r : CtxRef) (x : Ctx) :
    (s.finish r x).ctxs = tput s.ctxs r x.complete := by
  unfold State.finish State.active State.setCtx; split <;> rfl

end Sys2Proof.Machine
end

