-- ==== Sys2Proof/Laws/Context.lean ====
section
/-! SUPPORT. Contexts: the register files with their hard-wired members, and what completing a word, raising flags and drawing leave as they were. -/

namespace Sys2Proof.Machine

@[simp] theorem Ctx.count_s (x : Ctx) (b : Byte) (n : Nat) : (x.count b n).s = x.s := by
  unfold Ctx.count; split <;> rfl
@[simp] theorem Ctx.count_v (x : Ctx) (b : Byte) (n : Nat) : (x.count b n).v = x.v := by
  unfold Ctx.count; split <;> rfl
@[simp] theorem Ctx.count_k (x : Ctx) (b : Byte) (n : Nat) : (x.count b n).k = x.k := by
  unfold Ctx.count; split <;> rfl
@[simp] theorem Ctx.count_c (x : Ctx) (b : Byte) (n : Nat) : (x.count b n).c = x.c := by
  unfold Ctx.count; split <;> rfl
@[simp] theorem Ctx.count_lc (x : Ctx) (b : Byte) (n : Nat) : (x.count b n).lc = x.lc := by
  unfold Ctx.count; split <;> rfl
@[simp] theorem Ctx.count_loops (x : Ctx) (b : Byte) (n : Nat) : (x.count b n).loops = x.loops := by
  unfold Ctx.count; split <;> rfl
@[simp] theorem Ctx.count_pc (x : Ctx) (b : Byte) (n : Nat) : (x.count b n).pc = x.pc := by
  unfold Ctx.count; split <;> rfl
@[simp] theorem Ctx.count_entry (x : Ctx) (b : Byte) (n : Nat) : (x.count b n).entry = x.entry := by
  unfold Ctx.count; split <;> rfl
@[simp] theorem Ctx.count_st (x : Ctx) (b : Byte) (n : Nat) : (x.count b n).st = x.st := by
  unfold Ctx.count; split <;> rfl
@[simp] theorem Ctx.count_was (x : Ctx) (b : Byte) (n : Nat) : (x.count b n).was = x.was := by
  unfold Ctx.count; split <;> rfl
@[simp] theorem Ctx.count_trapped (x : Ctx) (b : Byte) (n : Nat) : (x.count b n).trapped = x.trapped := by
  unfold Ctx.count; split <;> rfl
@[simp] theorem Ctx.count_preempted (x : Ctx) (b : Byte) (n : Nat) : (x.count b n).preempted = x.preempted := by
  unfold Ctx.count; split <;> rfl
@[simp] theorem Ctx.count_stopped (x : Ctx) (b : Byte) (n : Nat) : (x.count b n).stopped = x.stopped := by
  unfold Ctx.count; split <;> rfl
@[simp] theorem Ctx.count_byCtl (x : Ctx) (b : Byte) (n : Nat) : (x.count b n).byCtl = x.byCtl := by
  unfold Ctx.count; split <;> rfl
@[simp] theorem Ctx.count_waitop (x : Ctx) (b : Byte) (n : Nat) : (x.count b n).waitop = x.waitop := by
  unfold Ctx.count; split <;> rfl
@[simp] theorem Ctx.count_flags (x : Ctx) (b : Byte) (n : Nat) : (x.count b n).flags = x.flags := by
  unfold Ctx.count; split <;> rfl
@[simp] theorem Ctx.count_sra (x : Ctx) (b : Byte) (n : Nat) : (x.count b n).sra = x.sra := by
  unfold Ctx.count; split <;> rfl
@[simp] theorem Ctx.count_srb (x : Ctx) (b : Byte) (n : Nat) : (x.count b n).srb = x.srb := by
  unfold Ctx.count; split <;> rfl
@[simp] theorem Ctx.count_fireCnt (x : Ctx) (b : Byte) (n : Nat) : (x.count b n).fireCnt = x.fireCnt := by
  unfold Ctx.count; split <;> rfl
@[simp] theorem Ctx.count_loopMax (x : Ctx) (b : Byte) (n : Nat) : (x.count b n).loopMax = x.loopMax := by
  unfold Ctx.count; split <;> rfl
@[simp] theorem Ctx.count_tripCnt (x : Ctx) (b : Byte) (n : Nat) : (x.count b n).tripCnt = x.tripCnt := by
  unfold Ctx.count; split <;> rfl
@[simp] theorem Ctx.count_trapCode (x : Ctx) (b : Byte) (n : Nat) : (x.count b n).trapCode = x.trapCode := by
  unfold Ctx.count; split <;> rfl
@[simp] theorem Ctx.count_info0 (x : Ctx) (b : Byte) (n : Nat) : (x.count b n).info0 = x.info0 := by
  unfold Ctx.count; split <;> rfl
@[simp] theorem Ctx.count_info1 (x : Ctx) (b : Byte) (n : Nat) : (x.count b n).info1 = x.info1 := by
  unfold Ctx.count; split <;> rfl
@[simp] theorem Ctx.count_cycleCnt (x : Ctx) (b : Byte) (n : Nat) : (x.count b n).cycleCnt = x.cycleCnt := by
  unfold Ctx.count; split <;> rfl
@[simp] theorem Ctx.count_pmcSel (x : Ctx) (b : Byte) (n : Nat) : (x.count b n).pmcSel = x.pmcSel := by
  unfold Ctx.count; split <;> rfl
@[simp] theorem Ctx.count_awarr (x : Ctx) (b : Byte) (n : Nat) : (x.count b n).awarr = x.awarr := by
  unfold Ctx.count; split <;> rfl
@[simp] theorem Ctx.count_awPhase (x : Ctx) (b : Byte) (n : Nat) : (x.count b n).awPhase = x.awPhase := by
  unfold Ctx.count; split <;> rfl
@[simp] theorem Ctx.count_sup (x : Ctx) (b : Byte) (n : Nat) : (x.count b n).sup = x.sup := by
  unfold Ctx.count; split <;> rfl
@[simp] theorem Ctx.count_inMask (x : Ctx) (b : Byte) (n : Nat) : (x.count b n).inMask = x.inMask := by
  unfold Ctx.count; split <;> rfl
@[simp] theorem Ctx.count_outMask (x : Ctx) (b : Byte) (n : Nat) : (x.count b n).outMask = x.outMask := by
  unfold Ctx.count; split <;> rfl
@[simp] theorem Ctx.count_inRate (x : Ctx) (b : Byte) (n : Nat) : (x.count b n).inRate = x.inRate := by
  unfold Ctx.count; split <;> rfl
@[simp] theorem Ctx.count_outRate (x : Ctx) (b : Byte) (n : Nat) : (x.count b n).outRate = x.outRate := by
  unfold Ctx.count; split <;> rfl
@[simp] theorem Ctx.count_received (x : Ctx) (b : Byte) (n : Nat) : (x.count b n).received = x.received := by
  unfold Ctx.count; split <;> rfl
@[simp] theorem Ctx.count_sent (x : Ctx) (b : Byte) (n : Nat) : (x.count b n).sent = x.sent := by
  unfold Ctx.count; split <;> rfl
@[simp] theorem Ctx.count_reserved (x : Ctx) (b : Byte) (n : Nat) : (x.count b n).reserved = x.reserved := by
  unfold Ctx.count; split <;> rfl
@[simp] theorem Ctx.count_tsamp (x : Ctx) (b : Byte) (n : Nat) : (x.count b n).tsamp = x.tsamp := by
  unfold Ctx.count; split <;> rfl
@[simp] theorem Ctx.count_armed (x : Ctx) (b : Byte) (n : Nat) : (x.count b n).armed = x.armed := by
  unfold Ctx.count; split <;> rfl
@[simp] theorem Ctx.count_capture (x : Ctx) (b : Byte) (n : Nat) : (x.count b n).capture = x.capture := by
  unfold Ctx.count; split <;> rfl
@[simp] theorem Ctx.count_wait (x : Ctx) (b : Byte) (n : Nat) : (x.count b n).wait = x.wait := by
  unfold Ctx.count; split <;> rfl
@[simp] theorem Ctx.count_waitIns (x : Ctx) (b : Byte) (n : Nat) : (x.count b n).waitIns = x.waitIns := by
  unfold Ctx.count; split <;> rfl
@[simp] theorem Ctx.count_locks (x : Ctx) (b : Byte) (n : Nat) : (x.count b n).locks = x.locks := by
  unfold Ctx.count; split <;> rfl
@[simp] theorem Ctx.count_freeze (x : Ctx) (b : Byte) (n : Nat) : (x.count b n).freeze = x.freeze := by
  unfold Ctx.count; split <;> rfl
@[simp] theorem Ctx.count_justRan (x : Ctx) (b : Byte) (n : Nat) : (x.count b n).justRan = x.justRan := by
  unfold Ctx.count; split <;> rfl
@[simp] theorem Ctx.count_inHand (x : Ctx) (b : Byte) (n : Nat) : (x.count b n).inHand = x.inHand := by
  unfold Ctx.count; split <;> rfl
@[simp] theorem Ctx.count_bad (x : Ctx) (b : Byte) (n : Nat) : (x.count b n).bad = x.bad := by
  unfold Ctx.count; split <;> rfl
@[simp] theorem Ctx.count_double (x : Ctx) (b : Byte) (n : Nat) : (x.count b n).double = x.double := by
  unfold Ctx.count; split <;> rfl

@[simp] theorem Ctx.advance_s (x : Ctx)  : (x.advance).s = x.s := by
  unfold Ctx.advance; split <;> [rfl; (dsimp only; split <;> rfl)]
@[simp] theorem Ctx.advance_v (x : Ctx)  : (x.advance).v = x.v := by
  unfold Ctx.advance; split <;> [rfl; (dsimp only; split <;> rfl)]
@[simp] theorem Ctx.advance_k (x : Ctx)  : (x.advance).k = x.k := by
  unfold Ctx.advance; split <;> [rfl; (dsimp only; split <;> rfl)]
@[simp] theorem Ctx.advance_c (x : Ctx)  : (x.advance).c = x.c := by
  unfold Ctx.advance; split <;> [rfl; (dsimp only; split <;> rfl)]
@[simp] theorem Ctx.advance_entry (x : Ctx)  : (x.advance).entry = x.entry := by
  unfold Ctx.advance; split <;> [rfl; (dsimp only; split <;> rfl)]
@[simp] theorem Ctx.advance_st (x : Ctx)  : (x.advance).st = x.st := by
  unfold Ctx.advance; split <;> [rfl; (dsimp only; split <;> rfl)]
@[simp] theorem Ctx.advance_was (x : Ctx)  : (x.advance).was = x.was := by
  unfold Ctx.advance; split <;> [rfl; (dsimp only; split <;> rfl)]
@[simp] theorem Ctx.advance_trapped (x : Ctx)  : (x.advance).trapped = x.trapped := by
  unfold Ctx.advance; split <;> [rfl; (dsimp only; split <;> rfl)]
@[simp] theorem Ctx.advance_preempted (x : Ctx)  : (x.advance).preempted = x.preempted := by
  unfold Ctx.advance; split <;> [rfl; (dsimp only; split <;> rfl)]
@[simp] theorem Ctx.advance_stopped (x : Ctx)  : (x.advance).stopped = x.stopped := by
  unfold Ctx.advance; split <;> [rfl; (dsimp only; split <;> rfl)]
@[simp] theorem Ctx.advance_byCtl (x : Ctx)  : (x.advance).byCtl = x.byCtl := by
  unfold Ctx.advance; split <;> [rfl; (dsimp only; split <;> rfl)]
@[simp] theorem Ctx.advance_waitop (x : Ctx)  : (x.advance).waitop = x.waitop := by
  unfold Ctx.advance; split <;> [rfl; (dsimp only; split <;> rfl)]
@[simp] theorem Ctx.advance_flags (x : Ctx)  : (x.advance).flags = x.flags := by
  unfold Ctx.advance; split <;> [rfl; (dsimp only; split <;> rfl)]
@[simp] theorem Ctx.advance_sra (x : Ctx)  : (x.advance).sra = x.sra := by
  unfold Ctx.advance; split <;> [rfl; (dsimp only; split <;> rfl)]
@[simp] theorem Ctx.advance_srb (x : Ctx)  : (x.advance).srb = x.srb := by
  unfold Ctx.advance; split <;> [rfl; (dsimp only; split <;> rfl)]
@[simp] theorem Ctx.advance_fireCnt (x : Ctx)  : (x.advance).fireCnt = x.fireCnt := by
  unfold Ctx.advance; split <;> [rfl; (dsimp only; split <;> rfl)]
@[simp] theorem Ctx.advance_loopMax (x : Ctx)  : (x.advance).loopMax = x.loopMax := by
  unfold Ctx.advance; split <;> [rfl; (dsimp only; split <;> rfl)]
@[simp] theorem Ctx.advance_tripCnt (x : Ctx)  : (x.advance).tripCnt = x.tripCnt := by
  unfold Ctx.advance; split <;> [rfl; (dsimp only; split <;> rfl)]
@[simp] theorem Ctx.advance_trapCode (x : Ctx)  : (x.advance).trapCode = x.trapCode := by
  unfold Ctx.advance; split <;> [rfl; (dsimp only; split <;> rfl)]
@[simp] theorem Ctx.advance_info0 (x : Ctx)  : (x.advance).info0 = x.info0 := by
  unfold Ctx.advance; split <;> [rfl; (dsimp only; split <;> rfl)]
@[simp] theorem Ctx.advance_info1 (x : Ctx)  : (x.advance).info1 = x.info1 := by
  unfold Ctx.advance; split <;> [rfl; (dsimp only; split <;> rfl)]
@[simp] theorem Ctx.advance_cycleCnt (x : Ctx)  : (x.advance).cycleCnt = x.cycleCnt := by
  unfold Ctx.advance; split <;> [rfl; (dsimp only; split <;> rfl)]
@[simp] theorem Ctx.advance_pmc (x : Ctx)  : (x.advance).pmc = x.pmc := by
  unfold Ctx.advance; split <;> [rfl; (dsimp only; split <;> rfl)]
@[simp] theorem Ctx.advance_pmcSel (x : Ctx)  : (x.advance).pmcSel = x.pmcSel := by
  unfold Ctx.advance; split <;> [rfl; (dsimp only; split <;> rfl)]
@[simp] theorem Ctx.advance_awarr (x : Ctx)  : (x.advance).awarr = x.awarr := by
  unfold Ctx.advance; split <;> [rfl; (dsimp only; split <;> rfl)]
@[simp] theorem Ctx.advance_awPhase (x : Ctx)  : (x.advance).awPhase = x.awPhase := by
  unfold Ctx.advance; split <;> [rfl; (dsimp only; split <;> rfl)]
@[simp] theorem Ctx.advance_sup (x : Ctx)  : (x.advance).sup = x.sup := by
  unfold Ctx.advance; split <;> [rfl; (dsimp only; split <;> rfl)]
@[simp] theorem Ctx.advance_inMask (x : Ctx)  : (x.advance).inMask = x.inMask := by
  unfold Ctx.advance; split <;> [rfl; (dsimp only; split <;> rfl)]
@[simp] theorem Ctx.advance_outMask (x : Ctx)  : (x.advance).outMask = x.outMask := by
  unfold Ctx.advance; split <;> [rfl; (dsimp only; split <;> rfl)]
@[simp] theorem Ctx.advance_inRate (x : Ctx)  : (x.advance).inRate = x.inRate := by
  unfold Ctx.advance; split <;> [rfl; (dsimp only; split <;> rfl)]
@[simp] theorem Ctx.advance_outRate (x : Ctx)  : (x.advance).outRate = x.outRate := by
  unfold Ctx.advance; split <;> [rfl; (dsimp only; split <;> rfl)]
@[simp] theorem Ctx.advance_received (x : Ctx)  : (x.advance).received = x.received := by
  unfold Ctx.advance; split <;> [rfl; (dsimp only; split <;> rfl)]
@[simp] theorem Ctx.advance_sent (x : Ctx)  : (x.advance).sent = x.sent := by
  unfold Ctx.advance; split <;> [rfl; (dsimp only; split <;> rfl)]
@[simp] theorem Ctx.advance_reserved (x : Ctx)  : (x.advance).reserved = x.reserved := by
  unfold Ctx.advance; split <;> [rfl; (dsimp only; split <;> rfl)]
@[simp] theorem Ctx.advance_tsamp (x : Ctx)  : (x.advance).tsamp = x.tsamp := by
  unfold Ctx.advance; split <;> [rfl; (dsimp only; split <;> rfl)]
@[simp] theorem Ctx.advance_armed (x : Ctx)  : (x.advance).armed = x.armed := by
  unfold Ctx.advance; split <;> [rfl; (dsimp only; split <;> rfl)]
@[simp] theorem Ctx.advance_capture (x : Ctx)  : (x.advance).capture = x.capture := by
  unfold Ctx.advance; split <;> [rfl; (dsimp only; split <;> rfl)]
@[simp] theorem Ctx.advance_wait (x : Ctx)  : (x.advance).wait = x.wait := by
  unfold Ctx.advance; split <;> [rfl; (dsimp only; split <;> rfl)]
@[simp] theorem Ctx.advance_waitIns (x : Ctx)  : (x.advance).waitIns = x.waitIns := by
  unfold Ctx.advance; split <;> [rfl; (dsimp only; split <;> rfl)]
@[simp] theorem Ctx.advance_locks (x : Ctx)  : (x.advance).locks = x.locks := by
  unfold Ctx.advance; split <;> [rfl; (dsimp only; split <;> rfl)]
@[simp] theorem Ctx.advance_freeze (x : Ctx)  : (x.advance).freeze = x.freeze := by
  unfold Ctx.advance; split <;> [rfl; (dsimp only; split <;> rfl)]
@[simp] theorem Ctx.advance_justRan (x : Ctx)  : (x.advance).justRan = x.justRan := by
  unfold Ctx.advance; split <;> [rfl; (dsimp only; split <;> rfl)]
@[simp] theorem Ctx.advance_inHand (x : Ctx)  : (x.advance).inHand = x.inHand := by
  unfold Ctx.advance; split <;> [rfl; (dsimp only; split <;> rfl)]
@[simp] theorem Ctx.advance_double (x : Ctx)  : (x.advance).double = x.double := by
  unfold Ctx.advance; split <;> [rfl; (dsimp only; split <;> rfl)]

@[simp] theorem Ctx.running_s (x : Ctx)  : (x.running).s = x.s := by
  rfl
@[simp] theorem Ctx.running_v (x : Ctx)  : (x.running).v = x.v := by
  rfl
@[simp] theorem Ctx.running_k (x : Ctx)  : (x.running).k = x.k := by
  rfl
@[simp] theorem Ctx.running_c (x : Ctx)  : (x.running).c = x.c := by
  rfl
@[simp] theorem Ctx.running_lc (x : Ctx)  : (x.running).lc = x.lc := by
  rfl
@[simp] theorem Ctx.running_loops (x : Ctx)  : (x.running).loops = x.loops := by
  rfl
@[simp] theorem Ctx.running_pc (x : Ctx)  : (x.running).pc = x.pc := by
  rfl
@[simp] theorem Ctx.running_entry (x : Ctx)  : (x.running).entry = x.entry := by
  rfl
@[simp] theorem Ctx.running_was (x : Ctx)  : (x.running).was = x.was := by
  rfl
@[simp] theorem Ctx.running_trapped (x : Ctx)  : (x.running).trapped = x.trapped := by
  rfl
@[simp] theorem Ctx.running_preempted (x : Ctx)  : (x.running).preempted = x.preempted := by
  rfl
@[simp] theorem Ctx.running_stopped (x : Ctx)  : (x.running).stopped = x.stopped := by
  rfl
@[simp] theorem Ctx.running_byCtl (x : Ctx)  : (x.running).byCtl = x.byCtl := by
  rfl
@[simp] theorem Ctx.running_flags (x : Ctx)  : (x.running).flags = x.flags := by
  rfl
@[simp] theorem Ctx.running_sra (x : Ctx)  : (x.running).sra = x.sra := by
  rfl
@[simp] theorem Ctx.running_srb (x : Ctx)  : (x.running).srb = x.srb := by
  rfl
@[simp] theorem Ctx.running_fireCnt (x : Ctx)  : (x.running).fireCnt = x.fireCnt := by
  rfl
@[simp] theorem Ctx.running_loopMax (x : Ctx)  : (x.running).loopMax = x.loopMax := by
  rfl
@[simp] theorem Ctx.running_tripCnt (x : Ctx)  : (x.running).tripCnt = x.tripCnt := by
  rfl
@[simp] theorem Ctx.running_trapCode (x : Ctx)  : (x.running).trapCode = x.trapCode := by
  rfl
@[simp] theorem Ctx.running_info0 (x : Ctx)  : (x.running).info0 = x.info0 := by
  rfl
@[simp] theorem Ctx.running_info1 (x : Ctx)  : (x.running).info1 = x.info1 := by
  rfl
@[simp] theorem Ctx.running_cycleCnt (x : Ctx)  : (x.running).cycleCnt = x.cycleCnt := by
  rfl
@[simp] theorem Ctx.running_pmc (x : Ctx)  : (x.running).pmc = x.pmc := by
  rfl
@[simp] theorem Ctx.running_pmcSel (x : Ctx)  : (x.running).pmcSel = x.pmcSel := by
  rfl
@[simp] theorem Ctx.running_awarr (x : Ctx)  : (x.running).awarr = x.awarr := by
  rfl
@[simp] theorem Ctx.running_awPhase (x : Ctx)  : (x.running).awPhase = x.awPhase := by
  rfl
@[simp] theorem Ctx.running_sup (x : Ctx)  : (x.running).sup = x.sup := by
  rfl
@[simp] theorem Ctx.running_inMask (x : Ctx)  : (x.running).inMask = x.inMask := by
  rfl
@[simp] theorem Ctx.running_outMask (x : Ctx)  : (x.running).outMask = x.outMask := by
  rfl
@[simp] theorem Ctx.running_inRate (x : Ctx)  : (x.running).inRate = x.inRate := by
  rfl
@[simp] theorem Ctx.running_outRate (x : Ctx)  : (x.running).outRate = x.outRate := by
  rfl
@[simp] theorem Ctx.running_received (x : Ctx)  : (x.running).received = x.received := by
  rfl
@[simp] theorem Ctx.running_sent (x : Ctx)  : (x.running).sent = x.sent := by
  rfl
@[simp] theorem Ctx.running_reserved (x : Ctx)  : (x.running).reserved = x.reserved := by
  rfl
@[simp] theorem Ctx.running_tsamp (x : Ctx)  : (x.running).tsamp = x.tsamp := by
  rfl
@[simp] theorem Ctx.running_armed (x : Ctx)  : (x.running).armed = x.armed := by
  rfl
@[simp] theorem Ctx.running_capture (x : Ctx)  : (x.running).capture = x.capture := by
  rfl
@[simp] theorem Ctx.running_locks (x : Ctx)  : (x.running).locks = x.locks := by
  rfl
@[simp] theorem Ctx.running_freeze (x : Ctx)  : (x.running).freeze = x.freeze := by
  rfl
@[simp] theorem Ctx.running_inHand (x : Ctx)  : (x.running).inHand = x.inHand := by
  rfl
@[simp] theorem Ctx.running_bad (x : Ctx)  : (x.running).bad = x.bad := by
  rfl
@[simp] theorem Ctx.running_double (x : Ctx)  : (x.running).double = x.double := by
  rfl

@[simp] theorem Ctx.complete_s (x : Ctx)  : (x.complete).s = x.s := by
  unfold Ctx.complete; dsimp only; split <;> simp [Ctx.freezeNow]
@[simp] theorem Ctx.complete_v (x : Ctx)  : (x.complete).v = x.v := by
  unfold Ctx.complete; dsimp only; split <;> simp [Ctx.freezeNow]
@[simp] theorem Ctx.complete_k (x : Ctx)  : (x.complete).k = x.k := by
  unfold Ctx.complete; dsimp only; split <;> simp [Ctx.freezeNow]
@[simp] theorem Ctx.complete_c (x : Ctx)  : (x.complete).c = x.c := by
  unfold Ctx.complete; dsimp only; split <;> simp [Ctx.freezeNow]
@[simp] theorem Ctx.complete_entry (x : Ctx)  : (x.complete).entry = x.entry := by
  unfold Ctx.complete; dsimp only; split <;> simp [Ctx.freezeNow]
@[simp] theorem Ctx.complete_trapped (x : Ctx)  : (x.complete).trapped = x.trapped := by
  unfold Ctx.complete; dsimp only; split <;> simp [Ctx.freezeNow]
@[simp] theorem Ctx.complete_flags (x : Ctx)  : (x.complete).flags = x.flags := by
  unfold Ctx.complete; dsimp only; split <;> simp [Ctx.freezeNow]
@[simp] theorem Ctx.complete_sra (x : Ctx)  : (x.complete).sra = x.sra := by
  unfold Ctx.complete; dsimp only; split <;> simp [Ctx.freezeNow]
@[simp] theorem Ctx.complete_srb (x : Ctx)  : (x.complete).srb = x.srb := by
  unfold Ctx.complete; dsimp only; split <;> simp [Ctx.freezeNow]
@[simp] theorem Ctx.complete_fireCnt (x : Ctx)  : (x.complete).fireCnt = x.fireCnt := by
  unfold Ctx.complete; dsimp only; split <;> simp [Ctx.freezeNow]
@[simp] theorem Ctx.complete_loopMax (x : Ctx)  : (x.complete).loopMax = x.loopMax := by
  unfold Ctx.complete; dsimp only; split <;> simp [Ctx.freezeNow]
@[simp] theorem Ctx.complete_tripCnt (x : Ctx)  : (x.complete).tripCnt = x.tripCnt := by
  unfold Ctx.complete; dsimp only; split <;> simp [Ctx.freezeNow]
@[simp] theorem Ctx.complete_trapCode (x : Ctx)  : (x.complete).trapCode = x.trapCode := by
  unfold Ctx.complete; dsimp only; split <;> simp [Ctx.freezeNow]
@[simp] theorem Ctx.complete_info0 (x : Ctx)  : (x.complete).info0 = x.info0 := by
  unfold Ctx.complete; dsimp only; split <;> simp [Ctx.freezeNow]
@[simp] theorem Ctx.complete_info1 (x : Ctx)  : (x.complete).info1 = x.info1 := by
  unfold Ctx.complete; dsimp only; split <;> simp [Ctx.freezeNow]
@[simp] theorem Ctx.complete_cycleCnt (x : Ctx)  : (x.complete).cycleCnt = x.cycleCnt := by
  unfold Ctx.complete; dsimp only; split <;> simp [Ctx.freezeNow]
@[simp] theorem Ctx.complete_pmcSel (x : Ctx)  : (x.complete).pmcSel = x.pmcSel := by
  unfold Ctx.complete; dsimp only; split <;> simp [Ctx.freezeNow]
@[simp] theorem Ctx.complete_awarr (x : Ctx)  : (x.complete).awarr = x.awarr := by
  unfold Ctx.complete; dsimp only; split <;> simp [Ctx.freezeNow]
@[simp] theorem Ctx.complete_awPhase (x : Ctx)  : (x.complete).awPhase = x.awPhase := by
  unfold Ctx.complete; dsimp only; split <;> simp [Ctx.freezeNow]
@[simp] theorem Ctx.complete_sup (x : Ctx)  : (x.complete).sup = x.sup := by
  unfold Ctx.complete; dsimp only; split <;> simp [Ctx.freezeNow]
@[simp] theorem Ctx.complete_inMask (x : Ctx)  : (x.complete).inMask = x.inMask := by
  unfold Ctx.complete; dsimp only; split <;> simp [Ctx.freezeNow]
@[simp] theorem Ctx.complete_outMask (x : Ctx)  : (x.complete).outMask = x.outMask := by
  unfold Ctx.complete; dsimp only; split <;> simp [Ctx.freezeNow]
@[simp] theorem Ctx.complete_inRate (x : Ctx)  : (x.complete).inRate = x.inRate := by
  unfold Ctx.complete; dsimp only; split <;> simp [Ctx.freezeNow]
@[simp] theorem Ctx.complete_outRate (x : Ctx)  : (x.complete).outRate = x.outRate := by
  unfold Ctx.complete; dsimp only; split <;> simp [Ctx.freezeNow]
@[simp] theorem Ctx.complete_received (x : Ctx)  : (x.complete).received = x.received := by
  unfold Ctx.complete; dsimp only; split <;> simp [Ctx.freezeNow]
@[simp] theorem Ctx.complete_sent (x : Ctx)  : (x.complete).sent = x.sent := by
  unfold Ctx.complete; dsimp only; split <;> simp [Ctx.freezeNow]
@[simp] theorem Ctx.complete_reserved (x : Ctx)  : (x.complete).reserved = x.reserved := by
  unfold Ctx.complete; dsimp only; split <;> simp [Ctx.freezeNow]
@[simp] theorem Ctx.complete_tsamp (x : Ctx)  : (x.complete).tsamp = x.tsamp := by
  unfold Ctx.complete; dsimp only; split <;> simp [Ctx.freezeNow]
@[simp] theorem Ctx.complete_armed (x : Ctx)  : (x.complete).armed = x.armed := by
  unfold Ctx.complete; dsimp only; split <;> simp [Ctx.freezeNow]
@[simp] theorem Ctx.complete_capture (x : Ctx)  : (x.complete).capture = x.capture := by
  unfold Ctx.complete; dsimp only; split <;> simp [Ctx.freezeNow]
@[simp] theorem Ctx.complete_locks (x : Ctx)  : (x.complete).locks = x.locks := by
  unfold Ctx.complete; dsimp only; split <;> simp [Ctx.freezeNow]
@[simp] theorem Ctx.complete_inHand (x : Ctx)  : (x.complete).inHand = x.inHand := by
  unfold Ctx.complete; dsimp only; split <;> simp [Ctx.freezeNow]
@[simp] theorem Ctx.complete_double (x : Ctx)  : (x.complete).double = x.double := by
  unfold Ctx.complete; dsimp only; split <;> simp [Ctx.freezeNow]

@[simp] theorem Ctx.raise_s (x : Ctx) (f : Flags) : (x.raise f).s = x.s := by
  unfold Ctx.raise; split <;> simp
@[simp] theorem Ctx.raise_v (x : Ctx) (f : Flags) : (x.raise f).v = x.v := by
  unfold Ctx.raise; split <;> simp
@[simp] theorem Ctx.raise_k (x : Ctx) (f : Flags) : (x.raise f).k = x.k := by
  unfold Ctx.raise; split <;> simp
@[simp] theorem Ctx.raise_c (x : Ctx) (f : Flags) : (x.raise f).c = x.c := by
  unfold Ctx.raise; split <;> simp
@[simp] theorem Ctx.raise_lc (x : Ctx) (f : Flags) : (x.raise f).lc = x.lc := by
  unfold Ctx.raise; split <;> simp
@[simp] theorem Ctx.raise_loops (x : Ctx) (f : Flags) : (x.raise f).loops = x.loops := by
  unfold Ctx.raise; split <;> simp
@[simp] theorem Ctx.raise_pc (x : Ctx) (f : Flags) : (x.raise f).pc = x.pc := by
  unfold Ctx.raise; split <;> simp
@[simp] theorem Ctx.raise_entry (x : Ctx) (f : Flags) : (x.raise f).entry = x.entry := by
  unfold Ctx.raise; split <;> simp
@[simp] theorem Ctx.raise_st (x : Ctx) (f : Flags) : (x.raise f).st = x.st := by
  unfold Ctx.raise; split <;> simp
@[simp] theorem Ctx.raise_was (x : Ctx) (f : Flags) : (x.raise f).was = x.was := by
  unfold Ctx.raise; split <;> simp
@[simp] theorem Ctx.raise_trapped (x : Ctx) (f : Flags) : (x.raise f).trapped = x.trapped := by
  unfold Ctx.raise; split <;> simp
@[simp] theorem Ctx.raise_preempted (x : Ctx) (f : Flags) : (x.raise f).preempted = x.preempted := by
  unfold Ctx.raise; split <;> simp
@[simp] theorem Ctx.raise_stopped (x : Ctx) (f : Flags) : (x.raise f).stopped = x.stopped := by
  unfold Ctx.raise; split <;> simp
@[simp] theorem Ctx.raise_byCtl (x : Ctx) (f : Flags) : (x.raise f).byCtl = x.byCtl := by
  unfold Ctx.raise; split <;> simp
@[simp] theorem Ctx.raise_waitop (x : Ctx) (f : Flags) : (x.raise f).waitop = x.waitop := by
  unfold Ctx.raise; split <;> simp
@[simp] theorem Ctx.raise_sra (x : Ctx) (f : Flags) : (x.raise f).sra = x.sra := by
  unfold Ctx.raise; split <;> simp
@[simp] theorem Ctx.raise_srb (x : Ctx) (f : Flags) : (x.raise f).srb = x.srb := by
  unfold Ctx.raise; split <;> simp
@[simp] theorem Ctx.raise_fireCnt (x : Ctx) (f : Flags) : (x.raise f).fireCnt = x.fireCnt := by
  unfold Ctx.raise; split <;> simp
@[simp] theorem Ctx.raise_loopMax (x : Ctx) (f : Flags) : (x.raise f).loopMax = x.loopMax := by
  unfold Ctx.raise; split <;> simp
@[simp] theorem Ctx.raise_tripCnt (x : Ctx) (f : Flags) : (x.raise f).tripCnt = x.tripCnt := by
  unfold Ctx.raise; split <;> simp
@[simp] theorem Ctx.raise_trapCode (x : Ctx) (f : Flags) : (x.raise f).trapCode = x.trapCode := by
  unfold Ctx.raise; split <;> simp
@[simp] theorem Ctx.raise_info0 (x : Ctx) (f : Flags) : (x.raise f).info0 = x.info0 := by
  unfold Ctx.raise; split <;> simp
@[simp] theorem Ctx.raise_info1 (x : Ctx) (f : Flags) : (x.raise f).info1 = x.info1 := by
  unfold Ctx.raise; split <;> simp
@[simp] theorem Ctx.raise_cycleCnt (x : Ctx) (f : Flags) : (x.raise f).cycleCnt = x.cycleCnt := by
  unfold Ctx.raise; split <;> simp
@[simp] theorem Ctx.raise_pmcSel (x : Ctx) (f : Flags) : (x.raise f).pmcSel = x.pmcSel := by
  unfold Ctx.raise; split <;> simp
@[simp] theorem Ctx.raise_awarr (x : Ctx) (f : Flags) : (x.raise f).awarr = x.awarr := by
  unfold Ctx.raise; split <;> simp
@[simp] theorem Ctx.raise_awPhase (x : Ctx) (f : Flags) : (x.raise f).awPhase = x.awPhase := by
  unfold Ctx.raise; split <;> simp
@[simp] theorem Ctx.raise_sup (x : Ctx) (f : Flags) : (x.raise f).sup = x.sup := by
  unfold Ctx.raise; split <;> simp
@[simp] theorem Ctx.raise_inMask (x : Ctx) (f : Flags) : (x.raise f).inMask = x.inMask := by
  unfold Ctx.raise; split <;> simp
@[simp] theorem Ctx.raise_outMask (x : Ctx) (f : Flags) : (x.raise f).outMask = x.outMask := by
  unfold Ctx.raise; split <;> simp
@[simp] theorem Ctx.raise_inRate (x : Ctx) (f : Flags) : (x.raise f).inRate = x.inRate := by
  unfold Ctx.raise; split <;> simp
@[simp] theorem Ctx.raise_outRate (x : Ctx) (f : Flags) : (x.raise f).outRate = x.outRate := by
  unfold Ctx.raise; split <;> simp
@[simp] theorem Ctx.raise_received (x : Ctx) (f : Flags) : (x.raise f).received = x.received := by
  unfold Ctx.raise; split <;> simp
@[simp] theorem Ctx.raise_sent (x : Ctx) (f : Flags) : (x.raise f).sent = x.sent := by
  unfold Ctx.raise; split <;> simp
@[simp] theorem Ctx.raise_reserved (x : Ctx) (f : Flags) : (x.raise f).reserved = x.reserved := by
  unfold Ctx.raise; split <;> simp
@[simp] theorem Ctx.raise_tsamp (x : Ctx) (f : Flags) : (x.raise f).tsamp = x.tsamp := by
  unfold Ctx.raise; split <;> simp
@[simp] theorem Ctx.raise_armed (x : Ctx) (f : Flags) : (x.raise f).armed = x.armed := by
  unfold Ctx.raise; split <;> simp
@[simp] theorem Ctx.raise_capture (x : Ctx) (f : Flags) : (x.raise f).capture = x.capture := by
  unfold Ctx.raise; split <;> simp
@[simp] theorem Ctx.raise_wait (x : Ctx) (f : Flags) : (x.raise f).wait = x.wait := by
  unfold Ctx.raise; split <;> simp
@[simp] theorem Ctx.raise_waitIns (x : Ctx) (f : Flags) : (x.raise f).waitIns = x.waitIns := by
  unfold Ctx.raise; split <;> simp
@[simp] theorem Ctx.raise_locks (x : Ctx) (f : Flags) : (x.raise f).locks = x.locks := by
  unfold Ctx.raise; split <;> simp
@[simp] theorem Ctx.raise_freeze (x : Ctx) (f : Flags) : (x.raise f).freeze = x.freeze := by
  unfold Ctx.raise; split <;> simp
@[simp] theorem Ctx.raise_justRan (x : Ctx) (f : Flags) : (x.raise f).justRan = x.justRan := by
  unfold Ctx.raise; split <;> simp
@[simp] theorem Ctx.raise_inHand (x : Ctx) (f : Flags) : (x.raise f).inHand = x.inHand := by
  unfold Ctx.raise; split <;> simp
@[simp] theorem Ctx.raise_bad (x : Ctx) (f : Flags) : (x.raise f).bad = x.bad := by
  unfold Ctx.raise; split <;> simp
@[simp] theorem Ctx.raise_double (x : Ctx) (f : Flags) : (x.raise f).double = x.double := by
  unfold Ctx.raise; split <;> simp

@[simp] theorem Ctx.drew_s (x : Ctx) (m : RM) (n : Nat) : (x.drew m n).s = x.s := by
  unfold Ctx.drew; split <;> simp
@[simp] theorem Ctx.drew_v (x : Ctx) (m : RM) (n : Nat) : (x.drew m n).v = x.v := by
  unfold Ctx.drew; split <;> simp
@[simp] theorem Ctx.drew_k (x : Ctx) (m : RM) (n : Nat) : (x.drew m n).k = x.k := by
  unfold Ctx.drew; split <;> simp
@[simp] theorem Ctx.drew_c (x : Ctx) (m : RM) (n : Nat) : (x.drew m n).c = x.c := by
  unfold Ctx.drew; split <;> simp
@[simp] theorem Ctx.drew_lc (x : Ctx) (m : RM) (n : Nat) : (x.drew m n).lc = x.lc := by
  unfold Ctx.drew; split <;> simp
@[simp] theorem Ctx.drew_loops (x : Ctx) (m : RM) (n : Nat) : (x.drew m n).loops = x.loops := by
  unfold Ctx.drew; split <;> simp
@[simp] theorem Ctx.drew_pc (x : Ctx) (m : RM) (n : Nat) : (x.drew m n).pc = x.pc := by
  unfold Ctx.drew; split <;> simp
@[simp] theorem Ctx.drew_entry (x : Ctx) (m : RM) (n : Nat) : (x.drew m n).entry = x.entry := by
  unfold Ctx.drew; split <;> simp
@[simp] theorem Ctx.drew_st (x : Ctx) (m : RM) (n : Nat) : (x.drew m n).st = x.st := by
  unfold Ctx.drew; split <;> simp
@[simp] theorem Ctx.drew_was (x : Ctx) (m : RM) (n : Nat) : (x.drew m n).was = x.was := by
  unfold Ctx.drew; split <;> simp
@[simp] theorem Ctx.drew_trapped (x : Ctx) (m : RM) (n : Nat) : (x.drew m n).trapped = x.trapped := by
  unfold Ctx.drew; split <;> simp
@[simp] theorem Ctx.drew_preempted (x : Ctx) (m : RM) (n : Nat) : (x.drew m n).preempted = x.preempted := by
  unfold Ctx.drew; split <;> simp
@[simp] theorem Ctx.drew_stopped (x : Ctx) (m : RM) (n : Nat) : (x.drew m n).stopped = x.stopped := by
  unfold Ctx.drew; split <;> simp
@[simp] theorem Ctx.drew_byCtl (x : Ctx) (m : RM) (n : Nat) : (x.drew m n).byCtl = x.byCtl := by
  unfold Ctx.drew; split <;> simp
@[simp] theorem Ctx.drew_waitop (x : Ctx) (m : RM) (n : Nat) : (x.drew m n).waitop = x.waitop := by
  unfold Ctx.drew; split <;> simp
@[simp] theorem Ctx.drew_flags (x : Ctx) (m : RM) (n : Nat) : (x.drew m n).flags = x.flags := by
  unfold Ctx.drew; split <;> simp
@[simp] theorem Ctx.drew_fireCnt (x : Ctx) (m : RM) (n : Nat) : (x.drew m n).fireCnt = x.fireCnt := by
  unfold Ctx.drew; split <;> simp
@[simp] theorem Ctx.drew_loopMax (x : Ctx) (m : RM) (n : Nat) : (x.drew m n).loopMax = x.loopMax := by
  unfold Ctx.drew; split <;> simp
@[simp] theorem Ctx.drew_tripCnt (x : Ctx) (m : RM) (n : Nat) : (x.drew m n).tripCnt = x.tripCnt := by
  unfold Ctx.drew; split <;> simp
@[simp] theorem Ctx.drew_trapCode (x : Ctx) (m : RM) (n : Nat) : (x.drew m n).trapCode = x.trapCode := by
  unfold Ctx.drew; split <;> simp
@[simp] theorem Ctx.drew_info0 (x : Ctx) (m : RM) (n : Nat) : (x.drew m n).info0 = x.info0 := by
  unfold Ctx.drew; split <;> simp
@[simp] theorem Ctx.drew_info1 (x : Ctx) (m : RM) (n : Nat) : (x.drew m n).info1 = x.info1 := by
  unfold Ctx.drew; split <;> simp
@[simp] theorem Ctx.drew_cycleCnt (x : Ctx) (m : RM) (n : Nat) : (x.drew m n).cycleCnt = x.cycleCnt := by
  unfold Ctx.drew; split <;> simp
@[simp] theorem Ctx.drew_pmcSel (x : Ctx) (m : RM) (n : Nat) : (x.drew m n).pmcSel = x.pmcSel := by
  unfold Ctx.drew; split <;> simp
@[simp] theorem Ctx.drew_awarr (x : Ctx) (m : RM) (n : Nat) : (x.drew m n).awarr = x.awarr := by
  unfold Ctx.drew; split <;> simp
@[simp] theorem Ctx.drew_awPhase (x : Ctx) (m : RM) (n : Nat) : (x.drew m n).awPhase = x.awPhase := by
  unfold Ctx.drew; split <;> simp
@[simp] theorem Ctx.drew_sup (x : Ctx) (m : RM) (n : Nat) : (x.drew m n).sup = x.sup := by
  unfold Ctx.drew; split <;> simp
@[simp] theorem Ctx.drew_inMask (x : Ctx) (m : RM) (n : Nat) : (x.drew m n).inMask = x.inMask := by
  unfold Ctx.drew; split <;> simp
@[simp] theorem Ctx.drew_outMask (x : Ctx) (m : RM) (n : Nat) : (x.drew m n).outMask = x.outMask := by
  unfold Ctx.drew; split <;> simp
@[simp] theorem Ctx.drew_inRate (x : Ctx) (m : RM) (n : Nat) : (x.drew m n).inRate = x.inRate := by
  unfold Ctx.drew; split <;> simp
@[simp] theorem Ctx.drew_outRate (x : Ctx) (m : RM) (n : Nat) : (x.drew m n).outRate = x.outRate := by
  unfold Ctx.drew; split <;> simp
@[simp] theorem Ctx.drew_received (x : Ctx) (m : RM) (n : Nat) : (x.drew m n).received = x.received := by
  unfold Ctx.drew; split <;> simp
@[simp] theorem Ctx.drew_sent (x : Ctx) (m : RM) (n : Nat) : (x.drew m n).sent = x.sent := by
  unfold Ctx.drew; split <;> simp
@[simp] theorem Ctx.drew_reserved (x : Ctx) (m : RM) (n : Nat) : (x.drew m n).reserved = x.reserved := by
  unfold Ctx.drew; split <;> simp
@[simp] theorem Ctx.drew_tsamp (x : Ctx) (m : RM) (n : Nat) : (x.drew m n).tsamp = x.tsamp := by
  unfold Ctx.drew; split <;> simp
@[simp] theorem Ctx.drew_armed (x : Ctx) (m : RM) (n : Nat) : (x.drew m n).armed = x.armed := by
  unfold Ctx.drew; split <;> simp
@[simp] theorem Ctx.drew_capture (x : Ctx) (m : RM) (n : Nat) : (x.drew m n).capture = x.capture := by
  unfold Ctx.drew; split <;> simp
@[simp] theorem Ctx.drew_wait (x : Ctx) (m : RM) (n : Nat) : (x.drew m n).wait = x.wait := by
  unfold Ctx.drew; split <;> simp
@[simp] theorem Ctx.drew_waitIns (x : Ctx) (m : RM) (n : Nat) : (x.drew m n).waitIns = x.waitIns := by
  unfold Ctx.drew; split <;> simp
@[simp] theorem Ctx.drew_locks (x : Ctx) (m : RM) (n : Nat) : (x.drew m n).locks = x.locks := by
  unfold Ctx.drew; split <;> simp
@[simp] theorem Ctx.drew_freeze (x : Ctx) (m : RM) (n : Nat) : (x.drew m n).freeze = x.freeze := by
  unfold Ctx.drew; split <;> simp
@[simp] theorem Ctx.drew_justRan (x : Ctx) (m : RM) (n : Nat) : (x.drew m n).justRan = x.justRan := by
  unfold Ctx.drew; split <;> simp
@[simp] theorem Ctx.drew_inHand (x : Ctx) (m : RM) (n : Nat) : (x.drew m n).inHand = x.inHand := by
  unfold Ctx.drew; split <;> simp
@[simp] theorem Ctx.drew_bad (x : Ctx) (m : RM) (n : Nat) : (x.drew m n).bad = x.bad := by
  unfold Ctx.drew; split <;> simp
@[simp] theorem Ctx.drew_double (x : Ctx) (m : RM) (n : Nat) : (x.drew m n).double = x.double := by
  unfold Ctx.drew; split <;> simp

@[simp] theorem Ctx.ss_v (x : Ctx) (r : SReg) (v : Word) : (x.ss r v).v = x.v := by
  unfold Ctx.ss; split <;> rfl
@[simp] theorem Ctx.ss_k (x : Ctx) (r : SReg) (v : Word) : (x.ss r v).k = x.k := by
  unfold Ctx.ss; split <;> rfl
@[simp] theorem Ctx.ss_c (x : Ctx) (r : SReg) (v : Word) : (x.ss r v).c = x.c := by
  unfold Ctx.ss; split <;> rfl
@[simp] theorem Ctx.ss_lc (x : Ctx) (r : SReg) (v : Word) : (x.ss r v).lc = x.lc := by
  unfold Ctx.ss; split <;> rfl
@[simp] theorem Ctx.ss_loops (x : Ctx) (r : SReg) (v : Word) : (x.ss r v).loops = x.loops := by
  unfold Ctx.ss; split <;> rfl
@[simp] theorem Ctx.ss_pc (x : Ctx) (r : SReg) (v : Word) : (x.ss r v).pc = x.pc := by
  unfold Ctx.ss; split <;> rfl
@[simp] theorem Ctx.ss_entry (x : Ctx) (r : SReg) (v : Word) : (x.ss r v).entry = x.entry := by
  unfold Ctx.ss; split <;> rfl
@[simp] theorem Ctx.ss_st (x : Ctx) (r : SReg) (v : Word) : (x.ss r v).st = x.st := by
  unfold Ctx.ss; split <;> rfl
@[simp] theorem Ctx.ss_was (x : Ctx) (r : SReg) (v : Word) : (x.ss r v).was = x.was := by
  unfold Ctx.ss; split <;> rfl
@[simp] theorem Ctx.ss_trapped (x : Ctx) (r : SReg) (v : Word) : (x.ss r v).trapped = x.trapped := by
  unfold Ctx.ss; split <;> rfl
@[simp] theorem Ctx.ss_preempted (x : Ctx) (r : SReg) (v : Word) : (x.ss r v).preempted = x.preempted := by
  unfold Ctx.ss; split <;> rfl
@[simp] theorem Ctx.ss_stopped (x : Ctx) (r : SReg) (v : Word) : (x.ss r v).stopped = x.stopped := by
  unfold Ctx.ss; split <;> rfl
@[simp] theorem Ctx.ss_byCtl (x : Ctx) (r : SReg) (v : Word) : (x.ss r v).byCtl = x.byCtl := by
  unfold Ctx.ss; split <;> rfl
@[simp] theorem Ctx.ss_waitop (x : Ctx) (r : SReg) (v : Word) : (x.ss r v).waitop = x.waitop := by
  unfold Ctx.ss; split <;> rfl
@[simp] theorem Ctx.ss_flags (x : Ctx) (r : SReg) (v : Word) : (x.ss r v).flags = x.flags := by
  unfold Ctx.ss; split <;> rfl
@[simp] theorem Ctx.ss_sra (x : Ctx) (r : SReg) (v : Word) : (x.ss r v).sra = x.sra := by
  unfold Ctx.ss; split <;> rfl
@[simp] theorem Ctx.ss_srb (x : Ctx) (r : SReg) (v : Word) : (x.ss r v).srb = x.srb := by
  unfold Ctx.ss; split <;> rfl
@[simp] theorem Ctx.ss_fireCnt (x : Ctx) (r : SReg) (v : Word) : (x.ss r v).fireCnt = x.fireCnt := by
  unfold Ctx.ss; split <;> rfl
@[simp] theorem Ctx.ss_loopMax (x : Ctx) (r : SReg) (v : Word) : (x.ss r v).loopMax = x.loopMax := by
  unfold Ctx.ss; split <;> rfl
@[simp] theorem Ctx.ss_tripCnt (x : Ctx) (r : SReg) (v : Word) : (x.ss r v).tripCnt = x.tripCnt := by
  unfold Ctx.ss; split <;> rfl
@[simp] theorem Ctx.ss_trapCode (x : Ctx) (r : SReg) (v : Word) : (x.ss r v).trapCode = x.trapCode := by
  unfold Ctx.ss; split <;> rfl
@[simp] theorem Ctx.ss_info0 (x : Ctx) (r : SReg) (v : Word) : (x.ss r v).info0 = x.info0 := by
  unfold Ctx.ss; split <;> rfl
@[simp] theorem Ctx.ss_info1 (x : Ctx) (r : SReg) (v : Word) : (x.ss r v).info1 = x.info1 := by
  unfold Ctx.ss; split <;> rfl
@[simp] theorem Ctx.ss_cycleCnt (x : Ctx) (r : SReg) (v : Word) : (x.ss r v).cycleCnt = x.cycleCnt := by
  unfold Ctx.ss; split <;> rfl
@[simp] theorem Ctx.ss_pmc (x : Ctx) (r : SReg) (v : Word) : (x.ss r v).pmc = x.pmc := by
  unfold Ctx.ss; split <;> rfl
@[simp] theorem Ctx.ss_pmcSel (x : Ctx) (r : SReg) (v : Word) : (x.ss r v).pmcSel = x.pmcSel := by
  unfold Ctx.ss; split <;> rfl
@[simp] theorem Ctx.ss_awarr (x : Ctx) (r : SReg) (v : Word) : (x.ss r v).awarr = x.awarr := by
  unfold Ctx.ss; split <;> rfl
@[simp] theorem Ctx.ss_awPhase (x : Ctx) (r : SReg) (v : Word) : (x.ss r v).awPhase = x.awPhase := by
  unfold Ctx.ss; split <;> rfl
@[simp] theorem Ctx.ss_sup (x : Ctx) (r : SReg) (v : Word) : (x.ss r v).sup = x.sup := by
  unfold Ctx.ss; split <;> rfl
@[simp] theorem Ctx.ss_inMask (x : Ctx) (r : SReg) (v : Word) : (x.ss r v).inMask = x.inMask := by
  unfold Ctx.ss; split <;> rfl
@[simp] theorem Ctx.ss_outMask (x : Ctx) (r : SReg) (v : Word) : (x.ss r v).outMask = x.outMask := by
  unfold Ctx.ss; split <;> rfl
@[simp] theorem Ctx.ss_inRate (x : Ctx) (r : SReg) (v : Word) : (x.ss r v).inRate = x.inRate := by
  unfold Ctx.ss; split <;> rfl
@[simp] theorem Ctx.ss_outRate (x : Ctx) (r : SReg) (v : Word) : (x.ss r v).outRate = x.outRate := by
  unfold Ctx.ss; split <;> rfl
@[simp] theorem Ctx.ss_received (x : Ctx) (r : SReg) (v : Word) : (x.ss r v).received = x.received := by
  unfold Ctx.ss; split <;> rfl
@[simp] theorem Ctx.ss_sent (x : Ctx) (r : SReg) (v : Word) : (x.ss r v).sent = x.sent := by
  unfold Ctx.ss; split <;> rfl
@[simp] theorem Ctx.ss_reserved (x : Ctx) (r : SReg) (v : Word) : (x.ss r v).reserved = x.reserved := by
  unfold Ctx.ss; split <;> rfl
@[simp] theorem Ctx.ss_tsamp (x : Ctx) (r : SReg) (v : Word) : (x.ss r v).tsamp = x.tsamp := by
  unfold Ctx.ss; split <;> rfl
@[simp] theorem Ctx.ss_armed (x : Ctx) (r : SReg) (v : Word) : (x.ss r v).armed = x.armed := by
  unfold Ctx.ss; split <;> rfl
@[simp] theorem Ctx.ss_capture (x : Ctx) (r : SReg) (v : Word) : (x.ss r v).capture = x.capture := by
  unfold Ctx.ss; split <;> rfl
@[simp] theorem Ctx.ss_wait (x : Ctx) (r : SReg) (v : Word) : (x.ss r v).wait = x.wait := by
  unfold Ctx.ss; split <;> rfl
@[simp] theorem Ctx.ss_waitIns (x : Ctx) (r : SReg) (v : Word) : (x.ss r v).waitIns = x.waitIns := by
  unfold Ctx.ss; split <;> rfl
@[simp] theorem Ctx.ss_locks (x : Ctx) (r : SReg) (v : Word) : (x.ss r v).locks = if r = 0 then x.locks else x.locks.filter (· ≠ r) := by
  unfold Ctx.ss; split <;> rfl
@[simp] theorem Ctx.ss_freeze (x : Ctx) (r : SReg) (v : Word) : (x.ss r v).freeze = x.freeze := by
  unfold Ctx.ss; split <;> rfl
@[simp] theorem Ctx.ss_justRan (x : Ctx) (r : SReg) (v : Word) : (x.ss r v).justRan = x.justRan := by
  unfold Ctx.ss; split <;> rfl
@[simp] theorem Ctx.ss_inHand (x : Ctx) (r : SReg) (v : Word) : (x.ss r v).inHand = x.inHand := by
  unfold Ctx.ss; split <;> rfl
@[simp] theorem Ctx.ss_double (x : Ctx) (r : SReg) (v : Word) : (x.ss r v).double = x.double := by
  unfold Ctx.ss; split <;> rfl

@[simp] theorem Ctx.sk_s (x : Ctx) (r : KReg) (v : Word) : (x.sk r v).s = x.s := by
  unfold Ctx.sk; split <;> rfl
@[simp] theorem Ctx.sk_v (x : Ctx) (r : KReg) (v : Word) : (x.sk r v).v = x.v := by
  unfold Ctx.sk; split <;> rfl
@[simp] theorem Ctx.sk_c (x : Ctx) (r : KReg) (v : Word) : (x.sk r v).c = x.c := by
  unfold Ctx.sk; split <;> rfl
@[simp] theorem Ctx.sk_lc (x : Ctx) (r : KReg) (v : Word) : (x.sk r v).lc = x.lc := by
  unfold Ctx.sk; split <;> rfl
@[simp] theorem Ctx.sk_loops (x : Ctx) (r : KReg) (v : Word) : (x.sk r v).loops = x.loops := by
  unfold Ctx.sk; split <;> rfl
@[simp] theorem Ctx.sk_pc (x : Ctx) (r : KReg) (v : Word) : (x.sk r v).pc = x.pc := by
  unfold Ctx.sk; split <;> rfl
@[simp] theorem Ctx.sk_entry (x : Ctx) (r : KReg) (v : Word) : (x.sk r v).entry = x.entry := by
  unfold Ctx.sk; split <;> rfl
@[simp] theorem Ctx.sk_st (x : Ctx) (r : KReg) (v : Word) : (x.sk r v).st = x.st := by
  unfold Ctx.sk; split <;> rfl
@[simp] theorem Ctx.sk_was (x : Ctx) (r : KReg) (v : Word) : (x.sk r v).was = x.was := by
  unfold Ctx.sk; split <;> rfl
@[simp] theorem Ctx.sk_trapped (x : Ctx) (r : KReg) (v : Word) : (x.sk r v).trapped = x.trapped := by
  unfold Ctx.sk; split <;> rfl
@[simp] theorem Ctx.sk_preempted (x : Ctx) (r : KReg) (v : Word) : (x.sk r v).preempted = x.preempted := by
  unfold Ctx.sk; split <;> rfl
@[simp] theorem Ctx.sk_stopped (x : Ctx) (r : KReg) (v : Word) : (x.sk r v).stopped = x.stopped := by
  unfold Ctx.sk; split <;> rfl
@[simp] theorem Ctx.sk_byCtl (x : Ctx) (r : KReg) (v : Word) : (x.sk r v).byCtl = x.byCtl := by
  unfold Ctx.sk; split <;> rfl
@[simp] theorem Ctx.sk_waitop (x : Ctx) (r : KReg) (v : Word) : (x.sk r v).waitop = x.waitop := by
  unfold Ctx.sk; split <;> rfl
@[simp] theorem Ctx.sk_flags (x : Ctx) (r : KReg) (v : Word) : (x.sk r v).flags = x.flags := by
  unfold Ctx.sk; split <;> rfl
@[simp] theorem Ctx.sk_sra (x : Ctx) (r : KReg) (v : Word) : (x.sk r v).sra = x.sra := by
  unfold Ctx.sk; split <;> rfl
@[simp] theorem Ctx.sk_srb (x : Ctx) (r : KReg) (v : Word) : (x.sk r v).srb = x.srb := by
  unfold Ctx.sk; split <;> rfl
@[simp] theorem Ctx.sk_fireCnt (x : Ctx) (r : KReg) (v : Word) : (x.sk r v).fireCnt = x.fireCnt := by
  unfold Ctx.sk; split <;> rfl
@[simp] theorem Ctx.sk_loopMax (x : Ctx) (r : KReg) (v : Word) : (x.sk r v).loopMax = x.loopMax := by
  unfold Ctx.sk; split <;> rfl
@[simp] theorem Ctx.sk_tripCnt (x : Ctx) (r : KReg) (v : Word) : (x.sk r v).tripCnt = x.tripCnt := by
  unfold Ctx.sk; split <;> rfl
@[simp] theorem Ctx.sk_trapCode (x : Ctx) (r : KReg) (v : Word) : (x.sk r v).trapCode = x.trapCode := by
  unfold Ctx.sk; split <;> rfl
@[simp] theorem Ctx.sk_info0 (x : Ctx) (r : KReg) (v : Word) : (x.sk r v).info0 = x.info0 := by
  unfold Ctx.sk; split <;> rfl
@[simp] theorem Ctx.sk_info1 (x : Ctx) (r : KReg) (v : Word) : (x.sk r v).info1 = x.info1 := by
  unfold Ctx.sk; split <;> rfl
@[simp] theorem Ctx.sk_cycleCnt (x : Ctx) (r : KReg) (v : Word) : (x.sk r v).cycleCnt = x.cycleCnt := by
  unfold Ctx.sk; split <;> rfl
@[simp] theorem Ctx.sk_pmc (x : Ctx) (r : KReg) (v : Word) : (x.sk r v).pmc = x.pmc := by
  unfold Ctx.sk; split <;> rfl
@[simp] theorem Ctx.sk_pmcSel (x : Ctx) (r : KReg) (v : Word) : (x.sk r v).pmcSel = x.pmcSel := by
  unfold Ctx.sk; split <;> rfl
@[simp] theorem Ctx.sk_awarr (x : Ctx) (r : KReg) (v : Word) : (x.sk r v).awarr = x.awarr := by
  unfold Ctx.sk; split <;> rfl
@[simp] theorem Ctx.sk_awPhase (x : Ctx) (r : KReg) (v : Word) : (x.sk r v).awPhase = x.awPhase := by
  unfold Ctx.sk; split <;> rfl
@[simp] theorem Ctx.sk_sup (x : Ctx) (r : KReg) (v : Word) : (x.sk r v).sup = x.sup := by
  unfold Ctx.sk; split <;> rfl
@[simp] theorem Ctx.sk_inMask (x : Ctx) (r : KReg) (v : Word) : (x.sk r v).inMask = x.inMask := by
  unfold Ctx.sk; split <;> rfl
@[simp] theorem Ctx.sk_outMask (x : Ctx) (r : KReg) (v : Word) : (x.sk r v).outMask = x.outMask := by
  unfold Ctx.sk; split <;> rfl
@[simp] theorem Ctx.sk_inRate (x : Ctx) (r : KReg) (v : Word) : (x.sk r v).inRate = x.inRate := by
  unfold Ctx.sk; split <;> rfl
@[simp] theorem Ctx.sk_outRate (x : Ctx) (r : KReg) (v : Word) : (x.sk r v).outRate = x.outRate := by
  unfold Ctx.sk; split <;> rfl
@[simp] theorem Ctx.sk_received (x : Ctx) (r : KReg) (v : Word) : (x.sk r v).received = x.received := by
  unfold Ctx.sk; split <;> rfl
@[simp] theorem Ctx.sk_sent (x : Ctx) (r : KReg) (v : Word) : (x.sk r v).sent = x.sent := by
  unfold Ctx.sk; split <;> rfl
@[simp] theorem Ctx.sk_reserved (x : Ctx) (r : KReg) (v : Word) : (x.sk r v).reserved = x.reserved := by
  unfold Ctx.sk; split <;> rfl
@[simp] theorem Ctx.sk_tsamp (x : Ctx) (r : KReg) (v : Word) : (x.sk r v).tsamp = x.tsamp := by
  unfold Ctx.sk; split <;> rfl
@[simp] theorem Ctx.sk_armed (x : Ctx) (r : KReg) (v : Word) : (x.sk r v).armed = x.armed := by
  unfold Ctx.sk; split <;> rfl
@[simp] theorem Ctx.sk_capture (x : Ctx) (r : KReg) (v : Word) : (x.sk r v).capture = x.capture := by
  unfold Ctx.sk; split <;> rfl
@[simp] theorem Ctx.sk_wait (x : Ctx) (r : KReg) (v : Word) : (x.sk r v).wait = x.wait := by
  unfold Ctx.sk; split <;> rfl
@[simp] theorem Ctx.sk_waitIns (x : Ctx) (r : KReg) (v : Word) : (x.sk r v).waitIns = x.waitIns := by
  unfold Ctx.sk; split <;> rfl
@[simp] theorem Ctx.sk_locks (x : Ctx) (r : KReg) (v : Word) : (x.sk r v).locks = x.locks := by
  unfold Ctx.sk; split <;> rfl
@[simp] theorem Ctx.sk_freeze (x : Ctx) (r : KReg) (v : Word) : (x.sk r v).freeze = x.freeze := by
  unfold Ctx.sk; split <;> rfl
@[simp] theorem Ctx.sk_justRan (x : Ctx) (r : KReg) (v : Word) : (x.sk r v).justRan = x.justRan := by
  unfold Ctx.sk; split <;> rfl
@[simp] theorem Ctx.sk_inHand (x : Ctx) (r : KReg) (v : Word) : (x.sk r v).inHand = x.inHand := by
  unfold Ctx.sk; split <;> rfl
@[simp] theorem Ctx.sk_double (x : Ctx) (r : KReg) (v : Word) : (x.sk r v).double = x.double := by
  unfold Ctx.sk; split <;> rfl

@[simp] theorem Ctx.sv_s (x : Ctx) (r : VReg) (v : Beat) : (x.sv r v).s = x.s := by
  rfl
@[simp] theorem Ctx.sv_k (x : Ctx) (r : VReg) (v : Beat) : (x.sv r v).k = x.k := by
  rfl
@[simp] theorem Ctx.sv_c (x : Ctx) (r : VReg) (v : Beat) : (x.sv r v).c = x.c := by
  rfl
@[simp] theorem Ctx.sv_lc (x : Ctx) (r : VReg) (v : Beat) : (x.sv r v).lc = x.lc := by
  rfl
@[simp] theorem Ctx.sv_loops (x : Ctx) (r : VReg) (v : Beat) : (x.sv r v).loops = x.loops := by
  rfl
@[simp] theorem Ctx.sv_pc (x : Ctx) (r : VReg) (v : Beat) : (x.sv r v).pc = x.pc := by
  rfl
@[simp] theorem Ctx.sv_entry (x : Ctx) (r : VReg) (v : Beat) : (x.sv r v).entry = x.entry := by
  rfl
@[simp] theorem Ctx.sv_st (x : Ctx) (r : VReg) (v : Beat) : (x.sv r v).st = x.st := by
  rfl
@[simp] theorem Ctx.sv_was (x : Ctx) (r : VReg) (v : Beat) : (x.sv r v).was = x.was := by
  rfl
@[simp] theorem Ctx.sv_trapped (x : Ctx) (r : VReg) (v : Beat) : (x.sv r v).trapped = x.trapped := by
  rfl
@[simp] theorem Ctx.sv_preempted (x : Ctx) (r : VReg) (v : Beat) : (x.sv r v).preempted = x.preempted := by
  rfl
@[simp] theorem Ctx.sv_stopped (x : Ctx) (r : VReg) (v : Beat) : (x.sv r v).stopped = x.stopped := by
  rfl
@[simp] theorem Ctx.sv_byCtl (x : Ctx) (r : VReg) (v : Beat) : (x.sv r v).byCtl = x.byCtl := by
  rfl
@[simp] theorem Ctx.sv_waitop (x : Ctx) (r : VReg) (v : Beat) : (x.sv r v).waitop = x.waitop := by
  rfl
@[simp] theorem Ctx.sv_flags (x : Ctx) (r : VReg) (v : Beat) : (x.sv r v).flags = x.flags := by
  rfl
@[simp] theorem Ctx.sv_sra (x : Ctx) (r : VReg) (v : Beat) : (x.sv r v).sra = x.sra := by
  rfl
@[simp] theorem Ctx.sv_srb (x : Ctx) (r : VReg) (v : Beat) : (x.sv r v).srb = x.srb := by
  rfl
@[simp] theorem Ctx.sv_fireCnt (x : Ctx) (r : VReg) (v : Beat) : (x.sv r v).fireCnt = x.fireCnt := by
  rfl
@[simp] theorem Ctx.sv_loopMax (x : Ctx) (r : VReg) (v : Beat) : (x.sv r v).loopMax = x.loopMax := by
  rfl
@[simp] theorem Ctx.sv_tripCnt (x : Ctx) (r : VReg) (v : Beat) : (x.sv r v).tripCnt = x.tripCnt := by
  rfl
@[simp] theorem Ctx.sv_trapCode (x : Ctx) (r : VReg) (v : Beat) : (x.sv r v).trapCode = x.trapCode := by
  rfl
@[simp] theorem Ctx.sv_info0 (x : Ctx) (r : VReg) (v : Beat) : (x.sv r v).info0 = x.info0 := by
  rfl
@[simp] theorem Ctx.sv_info1 (x : Ctx) (r : VReg) (v : Beat) : (x.sv r v).info1 = x.info1 := by
  rfl
@[simp] theorem Ctx.sv_cycleCnt (x : Ctx) (r : VReg) (v : Beat) : (x.sv r v).cycleCnt = x.cycleCnt := by
  rfl
@[simp] theorem Ctx.sv_pmc (x : Ctx) (r : VReg) (v : Beat) : (x.sv r v).pmc = x.pmc := by
  rfl
@[simp] theorem Ctx.sv_pmcSel (x : Ctx) (r : VReg) (v : Beat) : (x.sv r v).pmcSel = x.pmcSel := by
  rfl
@[simp] theorem Ctx.sv_awarr (x : Ctx) (r : VReg) (v : Beat) : (x.sv r v).awarr = x.awarr := by
  rfl
@[simp] theorem Ctx.sv_awPhase (x : Ctx) (r : VReg) (v : Beat) : (x.sv r v).awPhase = x.awPhase := by
  rfl
@[simp] theorem Ctx.sv_sup (x : Ctx) (r : VReg) (v : Beat) : (x.sv r v).sup = x.sup := by
  rfl
@[simp] theorem Ctx.sv_inMask (x : Ctx) (r : VReg) (v : Beat) : (x.sv r v).inMask = x.inMask := by
  rfl
@[simp] theorem Ctx.sv_outMask (x : Ctx) (r : VReg) (v : Beat) : (x.sv r v).outMask = x.outMask := by
  rfl
@[simp] theorem Ctx.sv_inRate (x : Ctx) (r : VReg) (v : Beat) : (x.sv r v).inRate = x.inRate := by
  rfl
@[simp] theorem Ctx.sv_outRate (x : Ctx) (r : VReg) (v : Beat) : (x.sv r v).outRate = x.outRate := by
  rfl
@[simp] theorem Ctx.sv_received (x : Ctx) (r : VReg) (v : Beat) : (x.sv r v).received = x.received := by
  rfl
@[simp] theorem Ctx.sv_sent (x : Ctx) (r : VReg) (v : Beat) : (x.sv r v).sent = x.sent := by
  rfl
@[simp] theorem Ctx.sv_reserved (x : Ctx) (r : VReg) (v : Beat) : (x.sv r v).reserved = x.reserved := by
  rfl
@[simp] theorem Ctx.sv_tsamp (x : Ctx) (r : VReg) (v : Beat) : (x.sv r v).tsamp = x.tsamp := by
  rfl
@[simp] theorem Ctx.sv_armed (x : Ctx) (r : VReg) (v : Beat) : (x.sv r v).armed = x.armed := by
  rfl
@[simp] theorem Ctx.sv_capture (x : Ctx) (r : VReg) (v : Beat) : (x.sv r v).capture = x.capture := by
  rfl
@[simp] theorem Ctx.sv_wait (x : Ctx) (r : VReg) (v : Beat) : (x.sv r v).wait = x.wait := by
  rfl
@[simp] theorem Ctx.sv_waitIns (x : Ctx) (r : VReg) (v : Beat) : (x.sv r v).waitIns = x.waitIns := by
  rfl
@[simp] theorem Ctx.sv_locks (x : Ctx) (r : VReg) (v : Beat) : (x.sv r v).locks = x.locks := by
  rfl
@[simp] theorem Ctx.sv_freeze (x : Ctx) (r : VReg) (v : Beat) : (x.sv r v).freeze = x.freeze := by
  rfl
@[simp] theorem Ctx.sv_justRan (x : Ctx) (r : VReg) (v : Beat) : (x.sv r v).justRan = x.justRan := by
  rfl
@[simp] theorem Ctx.sv_inHand (x : Ctx) (r : VReg) (v : Beat) : (x.sv r v).inHand = x.inHand := by
  rfl
@[simp] theorem Ctx.sv_double (x : Ctx) (r : VReg) (v : Beat) : (x.sv r v).double = x.double := by
  rfl

@[simp] theorem Ctx.sc_s (x : Ctx) (r : CReg) (v : CapV) : (x.sc r v).s = x.s := by
  rfl
@[simp] theorem Ctx.sc_v (x : Ctx) (r : CReg) (v : CapV) : (x.sc r v).v = x.v := by
  rfl
@[simp] theorem Ctx.sc_k (x : Ctx) (r : CReg) (v : CapV) : (x.sc r v).k = x.k := by
  rfl
@[simp] theorem Ctx.sc_lc (x : Ctx) (r : CReg) (v : CapV) : (x.sc r v).lc = x.lc := by
  rfl
@[simp] theorem Ctx.sc_loops (x : Ctx) (r : CReg) (v : CapV) : (x.sc r v).loops = x.loops := by
  rfl
@[simp] theorem Ctx.sc_pc (x : Ctx) (r : CReg) (v : CapV) : (x.sc r v).pc = x.pc := by
  rfl
@[simp] theorem Ctx.sc_entry (x : Ctx) (r : CReg) (v : CapV) : (x.sc r v).entry = x.entry := by
  rfl
@[simp] theorem Ctx.sc_st (x : Ctx) (r : CReg) (v : CapV) : (x.sc r v).st = x.st := by
  rfl
@[simp] theorem Ctx.sc_was (x : Ctx) (r : CReg) (v : CapV) : (x.sc r v).was = x.was := by
  rfl
@[simp] theorem Ctx.sc_trapped (x : Ctx) (r : CReg) (v : CapV) : (x.sc r v).trapped = x.trapped := by
  rfl
@[simp] theorem Ctx.sc_preempted (x : Ctx) (r : CReg) (v : CapV) : (x.sc r v).preempted = x.preempted := by
  rfl
@[simp] theorem Ctx.sc_stopped (x : Ctx) (r : CReg) (v : CapV) : (x.sc r v).stopped = x.stopped := by
  rfl
@[simp] theorem Ctx.sc_byCtl (x : Ctx) (r : CReg) (v : CapV) : (x.sc r v).byCtl = x.byCtl := by
  rfl
@[simp] theorem Ctx.sc_waitop (x : Ctx) (r : CReg) (v : CapV) : (x.sc r v).waitop = x.waitop := by
  rfl
@[simp] theorem Ctx.sc_flags (x : Ctx) (r : CReg) (v : CapV) : (x.sc r v).flags = x.flags := by
  rfl
@[simp] theorem Ctx.sc_sra (x : Ctx) (r : CReg) (v : CapV) : (x.sc r v).sra = x.sra := by
  rfl
@[simp] theorem Ctx.sc_srb (x : Ctx) (r : CReg) (v : CapV) : (x.sc r v).srb = x.srb := by
  rfl
@[simp] theorem Ctx.sc_fireCnt (x : Ctx) (r : CReg) (v : CapV) : (x.sc r v).fireCnt = x.fireCnt := by
  rfl
@[simp] theorem Ctx.sc_loopMax (x : Ctx) (r : CReg) (v : CapV) : (x.sc r v).loopMax = x.loopMax := by
  rfl
@[simp] theorem Ctx.sc_tripCnt (x : Ctx) (r : CReg) (v : CapV) : (x.sc r v).tripCnt = x.tripCnt := by
  rfl
@[simp] theorem Ctx.sc_trapCode (x : Ctx) (r : CReg) (v : CapV) : (x.sc r v).trapCode = x.trapCode := by
  rfl
@[simp] theorem Ctx.sc_info0 (x : Ctx) (r : CReg) (v : CapV) : (x.sc r v).info0 = x.info0 := by
  rfl
@[simp] theorem Ctx.sc_info1 (x : Ctx) (r : CReg) (v : CapV) : (x.sc r v).info1 = x.info1 := by
  rfl
@[simp] theorem Ctx.sc_cycleCnt (x : Ctx) (r : CReg) (v : CapV) : (x.sc r v).cycleCnt = x.cycleCnt := by
  rfl
@[simp] theorem Ctx.sc_pmc (x : Ctx) (r : CReg) (v : CapV) : (x.sc r v).pmc = x.pmc := by
  rfl
@[simp] theorem Ctx.sc_pmcSel (x : Ctx) (r : CReg) (v : CapV) : (x.sc r v).pmcSel = x.pmcSel := by
  rfl
@[simp] theorem Ctx.sc_awarr (x : Ctx) (r : CReg) (v : CapV) : (x.sc r v).awarr = x.awarr := by
  rfl
@[simp] theorem Ctx.sc_awPhase (x : Ctx) (r : CReg) (v : CapV) : (x.sc r v).awPhase = x.awPhase := by
  rfl
@[simp] theorem Ctx.sc_sup (x : Ctx) (r : CReg) (v : CapV) : (x.sc r v).sup = x.sup := by
  rfl
@[simp] theorem Ctx.sc_inMask (x : Ctx) (r : CReg) (v : CapV) : (x.sc r v).inMask = x.inMask := by
  rfl
@[simp] theorem Ctx.sc_outMask (x : Ctx) (r : CReg) (v : CapV) : (x.sc r v).outMask = x.outMask := by
  rfl
@[simp] theorem Ctx.sc_inRate (x : Ctx) (r : CReg) (v : CapV) : (x.sc r v).inRate = x.inRate := by
  rfl
@[simp] theorem Ctx.sc_outRate (x : Ctx) (r : CReg) (v : CapV) : (x.sc r v).outRate = x.outRate := by
  rfl
@[simp] theorem Ctx.sc_received (x : Ctx) (r : CReg) (v : CapV) : (x.sc r v).received = x.received := by
  rfl
@[simp] theorem Ctx.sc_sent (x : Ctx) (r : CReg) (v : CapV) : (x.sc r v).sent = x.sent := by
  rfl
@[simp] theorem Ctx.sc_reserved (x : Ctx) (r : CReg) (v : CapV) : (x.sc r v).reserved = x.reserved := by
  rfl
@[simp] theorem Ctx.sc_tsamp (x : Ctx) (r : CReg) (v : CapV) : (x.sc r v).tsamp = x.tsamp := by
  rfl
@[simp] theorem Ctx.sc_armed (x : Ctx) (r : CReg) (v : CapV) : (x.sc r v).armed = x.armed := by
  rfl
@[simp] theorem Ctx.sc_capture (x : Ctx) (r : CReg) (v : CapV) : (x.sc r v).capture = x.capture := by
  rfl
@[simp] theorem Ctx.sc_wait (x : Ctx) (r : CReg) (v : CapV) : (x.sc r v).wait = x.wait := by
  rfl
@[simp] theorem Ctx.sc_waitIns (x : Ctx) (r : CReg) (v : CapV) : (x.sc r v).waitIns = x.waitIns := by
  rfl
@[simp] theorem Ctx.sc_locks (x : Ctx) (r : CReg) (v : CapV) : (x.sc r v).locks = x.locks := by
  rfl
@[simp] theorem Ctx.sc_freeze (x : Ctx) (r : CReg) (v : CapV) : (x.sc r v).freeze = x.freeze := by
  rfl
@[simp] theorem Ctx.sc_justRan (x : Ctx) (r : CReg) (v : CapV) : (x.sc r v).justRan = x.justRan := by
  rfl
@[simp] theorem Ctx.sc_inHand (x : Ctx) (r : CReg) (v : CapV) : (x.sc r v).inHand = x.inHand := by
  rfl
@[simp] theorem Ctx.sc_double (x : Ctx) (r : CReg) (v : CapV) : (x.sc r v).double = x.double := by
  rfl

/-- s0 reads 0 (R18). -/
@[simp] theorem Ctx.gs_zero (x : Ctx) : x.gs 0 = 0 := rfl
/-- k0 reads all ones (R18). -/
@[simp] theorem Ctx.gk_zero (x : Ctx) : x.gk 0 = BitVec.allOnes 64 := rfl

theorem get_set {α : Type} {n : Nat} (v : Vector α n) (d r : Fin n) (a : α) :
    (v.set d.val a d.isLt).get r = if r = d then a else v.get r := by
  change (v.set d.val a d.isLt)[r.val] = if r = d then a else v[r.val]
  rw [Vector.getElem_set]
  by_cases e : r = d
  · simp [e]
  · have : ¬ d.val = r.val := fun q => e (Fin.ext q.symm)
    simp [e, this]

/-- A read of an s register after a write of one: a write of s0 is discarded. -/
theorem Ctx.gs_ss (x : Ctx) (d r : SReg) (v : Word) :
    (x.ss d v).gs r = if r = d ∧ d ≠ 0 then v else x.gs r := by
  unfold Ctx.ss Ctx.gs
  by_cases hd : d = 0
  · simp [hd]
  · by_cases hr : r = 0
    · have : ¬ (0 : SReg) = d := fun e => hd e.symm
      simp [hd, hr, this]
    · simp [hd, hr, get_set]

/-- A read of a k register after a write of one: a write of k0 is discarded. -/
theorem Ctx.gk_sk (x : Ctx) (d r : KReg) (v : Word) :
    (x.sk d v).gk r = if r = d ∧ d ≠ 0 then v else x.gk r := by
  unfold Ctx.sk Ctx.gk
  by_cases hd : d = 0
  · simp [hd]
  · by_cases hr : r = 0
    · have : ¬ (0 : KReg) = d := fun e => hd e.symm
      simp [hd, hr, this]
    · simp [hd, hr, get_set]

theorem Ctx.gv_sv (x : Ctx) (d r : VReg) (v : Beat) :
    (x.sv d v).gv r = if r = d then v else x.gv r := by
  simp [Ctx.sv, Ctx.gv, get_set]

theorem Ctx.gc_sc (x : Ctx) (d r : CReg) (v : CapV) :
    (x.sc d v).gc r = if r = d then v else x.gc r := by
  simp [Ctx.sc, Ctx.gc, get_set]

/-- A word that ends no loop moves to the next pc, with the loop counters as they were (R124). -/
theorem Ctx.complete_straight (x : Ctx) (h : x.loopAt = none) :
    x.complete.pc = x.pc + 1 ∧ x.complete.lc = x.lc ∧ x.complete.loops = x.loops := by
  have h' : (x.running.count 0x02 1).loopAt = none := by
    simpa [Ctx.loopAt] using h
  unfold Ctx.complete Ctx.advance
  rw [h']
  dsimp only
  split <;> simp [Ctx.freezeNow]

/-- The marks of registers that cannot be corrected, past a word: the counter of a loop that the word ends is written whole (R124, R346). -/
theorem Ctx.complete_bad (x : Ctx) :
    x.complete.bad = match x.loopAt with | none => x.bad | some n => x.bad.filter fun d => d != 0xCC + n.val := by
  have h : (x.running.count 0x02 1).loopAt = x.loopAt := by simp [Ctx.loopAt]
  have e : x.complete.bad = (x.running.count 0x02 1).advance.bad := by
    unfold Ctx.complete; dsimp only; split <;> simp [Ctx.freezeNow]
  rw [e]
  unfold Ctx.advance
  rw [h]
  cases x.loopAt with
  | none => simp
  | some n => dsimp only; split <;> simp

/-- Taking a trap (R21, R342): the context freezes at its pc with its code and information words. -/
theorem State.trap_ctx (s : State) (r : CtxRef) (x : Ctx) (c : Nat) (i j : Word) :
    ∃ y, (s.trap r x c i j).ctx? r = some y ∧ y.st = .frozen ∧ y.trapped = true ∧ y.was = .run ∧
      y.pc = x.pc ∧ y.trapCode = BitVec.ofNat 64 c ∧ y.info0 = i ∧ y.info1 = j ∧
      y.s = x.s ∧ y.v = x.v ∧ y.k = x.k ∧ y.c = x.c ∧ y.flags = x.flags ∧ y.lc = x.lc ∧ y.loops = x.loops := by
  have : ∀ t : State, ∀ e w b h, (t.fileLetter r.rid e w b h).ctx? r = t.ctx? r := fun _ _ _ _ _ => rfl
  cases h : (s.trap r x c i j).ctx? r with
  | none => simp [State.trap, this] at h
  | some y =>
    simp only [State.trap, this, State.ctx?_active, State.ctx?_setCtx, if_true, Option.some.injEq] at h
    subst h
    simp

/-- A trap touches no other context. -/
theorem State.trap_other (s : State) (r q : CtxRef) (x : Ctx) (c : Nat) (i j : Word) (h : q ≠ r) :
    (s.trap r x c i j).ctx? q = s.ctx? q := by
  have : ∀ t : State, ∀ e w b h, (t.fileLetter r.rid e w b h).ctx? q = t.ctx? q := fun _ _ _ _ _ => rfl
  simp [State.trap, this, h]

/-- A letter is made of the residency, the element and the cycle. -/
theorem letterBeat_congr {s t : State} (h1 : t.ress = s.ress) (h2 : t.elems = s.elems) (h3 : t.cycle = s.cycle)
    (rid code elem who pc i0 i1 : Nat) (a b c : Bool) :
    letterBeat t rid code elem who pc i0 i1 a b c = letterBeat s rid code elem who pc i0 i1 a b c := by
  unfold letterBeat
  simp only [State.res?, State.elem?, h1, h2, h3]

/-- A trap files its letter behind those of its residency. -/
theorem State.trap_letter (s : State) (r : CtxRef) (x : Ctx) (c : Nat) (i j : Word) {rs : Res}
    (h : s.res? r.rid = some rs) :
    ∃ rt l, (s.trap r x c i j).res? r.rid = some rt ∧ rt.letters = rs.letters ++ [l] ∧
      l.cycle = s.cycle ∧ l.who = r.ctx ∧ l.host = false ∧
      l.body = letterBeat s r.rid c r.elem r.ctx x.pc.toNat i.toNat j.toNat false false false := by
  unfold State.trap
  dsimp only
  generalize hu : State.active _ _ = u
  have e1 : u.ress = s.ress := by rw [← hu]; simp
  have e2 : u.elems = s.elems := by rw [← hu]; simp
  have e3 : u.cycle = s.cycle := by rw [← hu]; simp
  have h' : tget u.ress r.rid = some rs := by rw [e1]; exact h
  rw [letterBeat_congr e1 e2 e3]
  simp only [State.fileLetter, State.res?, State.modRes, tget_tmod, if_true, h', Option.map_some]
  exact ⟨_, _, rfl, rfl, e3, rfl, rfl, rfl⟩

end Sys2Proof.Machine
end

