-- ==== Sys2Proof/Laws/Completion.lean ====
section
/-! SUPPORT. A word that finishes: what `finish` leaves is the context past its word and everything else as it was. -/

namespace Sys2Proof.Laws

open Sys2Proof.Machine Sys2Proof.Safety

theorem sameBytes_refl (s : State) : SameBytes s s :=
  ⟨fun _ => rfl, fun _ => rfl, fun _ => rfl, fun _ _ => rfl, rfl, rfl⟩

/-- States with the same memories and elements read alike. -/
theorem sameBytes_of {s t : State} (h1 : t.gddr = s.gddr) (h2 : t.bulk = s.bulk) (h3 : t.host = s.host)
    (h4 : t.elems = s.elems) (h5 : t.gddrTags = s.gddrTags) (h6 : t.bulkTags = s.bulkTags) : SameBytes s t :=
  ⟨fun _ => by rw [h1], fun _ => by rw [h2], fun _ => by rw [h3],
   fun _ _ => by simp only [storeByte, State.elem?, h4], h5, h6⟩

theorem onlyContext_finish (s : State) (r : CtxRef) (x : Ctx) : OnlyContext s (s.finish r x) r where
  others q h := by simp [h]
  rest := State.finish_rest s r x
  bytes := sameBytes_of (by simp) (by simp) (by simp) (by simp) (by simp) (by simp)

theorem sameRegisters_complete (x : Ctx) : SameRegisters { x with bad := x.complete.bad } x.complete := by
  constructor <;> first | rfl | simp

theorem loopAt_count_running (x : Ctx) : (x.running.count 0x02 1).loopAt = x.loopAt := by
  simp [Ctx.loopAt]

/-- The context before a freeze takes effect, past the word. -/
theorem complete_eq (x : Ctx) : x.complete =
    if (x.running.count 0x02 1).advance.freeze.isEmpty then (x.running.count 0x02 1).advance
    else (x.running.count 0x02 1).advance.freezeNow (x.running.count 0x02 1).advance.freeze := rfl

theorem advance_again {x : Ctx} {n : Fin 2} (h : x.loopAt = some n) (hr : 1 < x.loops[n].remaining.toNat) :
    x.advance = { x with
      lc := x.lc.set n (x.lc[n] + 1), bad := x.bad.filter (fun d => d != 0xCC + n.val), pc := x.loops[n].start,
      loops := x.loops.set n { x.loops[n] with remaining := x.loops[n].remaining - 1 } } := by
  unfold Ctx.advance
  rw [h]
  exact if_pos hr

theorem advance_out {x : Ctx} {n : Fin 2} (h : x.loopAt = some n) (hr : x.loops[n].remaining.toNat ≤ 1) :
    x.advance = { x with
      lc := x.lc.set n (x.lc[n] + 1), bad := x.bad.filter (fun d => d != 0xCC + n.val), pc := x.loops[n].stop + 1,
      loops := x.loops.set n { x.loops[n] with remaining := 0, active := false } } := by
  unfold Ctx.advance
  rw [h]
  exact if_neg (Nat.not_lt.2 hr)

/-- A word whose loop goes on returns to the loop's start with one iteration fewer. -/
theorem complete_again {x : Ctx} {n : Fin 2} (h : x.loopAt = some n) (hr : 1 < x.loops[n].remaining.toNat) :
    x.complete.pc = x.loops[n].start ∧ x.complete.lc[n] = x.lc[n] + 1 ∧
      x.complete.loops[n].remaining = x.loops[n].remaining - 1 := by
  have e := advance_again ((loopAt_count_running x).trans h) (by simpa using hr)
  rw [complete_eq, e]
  dsimp only
  split <;> simp [Ctx.freezeNow]

/-- A word that ends its loop's last iteration leaves the loop. -/
theorem complete_out {x : Ctx} {n : Fin 2} (h : x.loopAt = some n) (hr : x.loops[n].remaining.toNat ≤ 1) :
    x.complete.pc = x.loops[n].stop + 1 ∧ x.complete.lc[n] = x.lc[n] + 1 ∧
      x.complete.loops[n].active = false := by
  have e := advance_out ((loopAt_count_running x).trans h) (by simpa using hr)
  rw [complete_eq, e]
  dsimp only
  split <;> simp [Ctx.freezeNow]

theorem past_complete (x : Ctx) : Past x x.complete where
  regs := sameRegisters_complete x
  marks := Ctx.complete_bad x
  straight := Ctx.complete_straight x
  again _ := complete_again
  out _ := complete_out
  issue i := by
    have h : (x.running.count 0x02 1).pmc[i] =
        if x.pmcSel[i] = 0x02 then x.pmc[i] + 1 else x.pmc[i] := by
      have : x.running.st ≠ .frozen := by simp [Ctx.running]
      simp only [Ctx.count, this, if_false]
      by_cases e : x.pmcSel[i] = 0x02 <;> simp_all [Ctx.running]
    rw [complete_eq]
    split <;> simp [Ctx.freezeNow] <;> simpa using h
  run h := by
    rw [complete_eq]
    split <;> simp_all [Ctx.running]
  frozen h := by
    rw [complete_eq]
    split <;> simp_all [Ctx.freezeNow, Ctx.running]

/-- A word whose meaning finishes with context contents x completes with them. -/
theorem completes_of_finish {i : Instr} {s : State} {r : CtxRef} {x : Ctx}
    (h : exec i s = .next (s.finish r x)) : Completes i s r x :=
  ⟨_, _, h, by simp, past_complete x, onlyContext_finish s r x⟩

end Sys2Proof.Laws
end

