-- ==== Sys2Proof/Laws/Dispatch.lean ====
section
/-! SUPPORT. The meaning each constructor is dispatched to. -/

namespace Sys2Proof.Machine

@[simp] theorem exec_add (o : SSSOps) (s : State) : exec (.add o) s = execAdd o s := rfl
@[simp] theorem exec_addImm (o : SSIOps) (s : State) : exec (.addImm o) s = execAddImm o s := rfl
@[simp] theorem exec_sub (o : SSSOps) (s : State) : exec (.sub o) s = execSub o s := rfl
@[simp] theorem exec_subImm (o : SSIOps) (s : State) : exec (.subImm o) s = execSubImm o s := rfl
@[simp] theorem exec_mul (o : SSSOps) (s : State) : exec (.mul o) s = execMul o s := rfl
@[simp] theorem exec_mulImm (o : SSIOps) (s : State) : exec (.mulImm o) s = execMulImm o s := rfl
@[simp] theorem exec_mulh (o : SSSOps) (s : State) : exec (.mulh o) s = execMulh o s := rfl
@[simp] theorem exec_mulhImm (o : SSIOps) (s : State) : exec (.mulhImm o) s = execMulhImm o s := rfl
@[simp] theorem exec_mulhN (o : SSSOps) (s : State) : exec (.mulhN o) s = execMulhN o s := rfl
@[simp] theorem exec_mulhNImm (o : SSIOps) (s : State) : exec (.mulhNImm o) s = execMulhNImm o s := rfl
@[simp] theorem exec_mulhSn (o : SSSOps) (s : State) : exec (.mulhSn o) s = execMulhSn o s := rfl
@[simp] theorem exec_mulhSnImm (o : SSIOps) (s : State) : exec (.mulhSnImm o) s = execMulhSnImm o s := rfl
@[simp] theorem exec_div (o : SSSOps) (s : State) : exec (.div o) s = execDiv o s := rfl
@[simp] theorem exec_divImm (o : SSIOps) (s : State) : exec (.divImm o) s = execDivImm o s := rfl
@[simp] theorem exec_divN (o : SSSOps) (s : State) : exec (.divN o) s = execDivN o s := rfl
@[simp] theorem exec_divNImm (o : SSIOps) (s : State) : exec (.divNImm o) s = execDivNImm o s := rfl
@[simp] theorem exec_rem (o : SSSOps) (s : State) : exec (.rem o) s = execRem o s := rfl
@[simp] theorem exec_remImm (o : SSIOps) (s : State) : exec (.remImm o) s = execRemImm o s := rfl
@[simp] theorem exec_remN (o : SSSOps) (s : State) : exec (.remN o) s = execRemN o s := rfl
@[simp] theorem exec_remNImm (o : SSIOps) (s : State) : exec (.remNImm o) s = execRemNImm o s := rfl
@[simp] theorem exec_and_ (o : SSSOps) (s : State) : exec (.and_ o) s = execAnd_ o s := rfl
@[simp] theorem exec_andImm (o : SSIOps) (s : State) : exec (.andImm o) s = execAndImm o s := rfl
@[simp] theorem exec_or_ (o : SSSOps) (s : State) : exec (.or_ o) s = execOr_ o s := rfl
@[simp] theorem exec_orImm (o : SSIOps) (s : State) : exec (.orImm o) s = execOrImm o s := rfl
@[simp] theorem exec_xor (o : SSSOps) (s : State) : exec (.xor o) s = execXor o s := rfl
@[simp] theorem exec_xorImm (o : SSIOps) (s : State) : exec (.xorImm o) s = execXorImm o s := rfl
@[simp] theorem exec_andn (o : SSSOps) (s : State) : exec (.andn o) s = execAndn o s := rfl
@[simp] theorem exec_andnImm (o : SSIOps) (s : State) : exec (.andnImm o) s = execAndnImm o s := rfl
@[simp] theorem exec_shl (o : SSSOps) (s : State) : exec (.shl o) s = execShl o s := rfl
@[simp] theorem exec_shlImm (o : SSIOps) (s : State) : exec (.shlImm o) s = execShlImm o s := rfl
@[simp] theorem exec_shr (o : SSSOps) (s : State) : exec (.shr o) s = execShr o s := rfl
@[simp] theorem exec_shrImm (o : SSIOps) (s : State) : exec (.shrImm o) s = execShrImm o s := rfl
@[simp] theorem exec_sra (o : SSSOps) (s : State) : exec (.sra o) s = execSra o s := rfl
@[simp] theorem exec_sraImm (o : SSIOps) (s : State) : exec (.sraImm o) s = execSraImm o s := rfl
@[simp] theorem exec_rot (o : SSSOps) (s : State) : exec (.rot o) s = execRot o s := rfl
@[simp] theorem exec_rotImm (o : SSIOps) (s : State) : exec (.rotImm o) s = execRotImm o s := rfl
@[simp] theorem exec_min (o : SSSOps) (s : State) : exec (.min o) s = execMin o s := rfl
@[simp] theorem exec_minImm (o : SSIOps) (s : State) : exec (.minImm o) s = execMinImm o s := rfl
@[simp] theorem exec_minN (o : SSSOps) (s : State) : exec (.minN o) s = execMinN o s := rfl
@[simp] theorem exec_minNImm (o : SSIOps) (s : State) : exec (.minNImm o) s = execMinNImm o s := rfl
@[simp] theorem exec_max (o : SSSOps) (s : State) : exec (.max o) s = execMax o s := rfl
@[simp] theorem exec_maxImm (o : SSIOps) (s : State) : exec (.maxImm o) s = execMaxImm o s := rfl
@[simp] theorem exec_maxN (o : SSSOps) (s : State) : exec (.maxN o) s = execMaxN o s := rfl
@[simp] theorem exec_maxNImm (o : SSIOps) (s : State) : exec (.maxNImm o) s = execMaxNImm o s := rfl
@[simp] theorem exec_cmpEq (o : KSSOps) (s : State) : exec (.cmpEq o) s = execCmpEq o s := rfl
@[simp] theorem exec_cmpEqImm (o : KSIOps) (s : State) : exec (.cmpEqImm o) s = execCmpEqImm o s := rfl
@[simp] theorem exec_cmpNe (o : KSSOps) (s : State) : exec (.cmpNe o) s = execCmpNe o s := rfl
@[simp] theorem exec_cmpNeImm (o : KSIOps) (s : State) : exec (.cmpNeImm o) s = execCmpNeImm o s := rfl
@[simp] theorem exec_cmpLt (o : KSSOps) (s : State) : exec (.cmpLt o) s = execCmpLt o s := rfl
@[simp] theorem exec_cmpLtImm (o : KSIOps) (s : State) : exec (.cmpLtImm o) s = execCmpLtImm o s := rfl
@[simp] theorem exec_cmpLe (o : KSSOps) (s : State) : exec (.cmpLe o) s = execCmpLe o s := rfl
@[simp] theorem exec_cmpLeImm (o : KSIOps) (s : State) : exec (.cmpLeImm o) s = execCmpLeImm o s := rfl
@[simp] theorem exec_cmpLtN (o : KSSOps) (s : State) : exec (.cmpLtN o) s = execCmpLtN o s := rfl
@[simp] theorem exec_cmpLtNImm (o : KSIOps) (s : State) : exec (.cmpLtNImm o) s = execCmpLtNImm o s := rfl
@[simp] theorem exec_cmpLeN (o : KSSOps) (s : State) : exec (.cmpLeN o) s = execCmpLeN o s := rfl
@[simp] theorem exec_cmpLeNImm (o : KSIOps) (s : State) : exec (.cmpLeNImm o) s = execCmpLeNImm o s := rfl
@[simp] theorem exec_sel (o : SSSKOps) (s : State) : exec (.sel o) s = execSel o s := rfl
@[simp] theorem exec_clz (o : SSOps) (s : State) : exec (.clz o) s = execClz o s := rfl
@[simp] theorem exec_ctz (o : SSOps) (s : State) : exec (.ctz o) s = execCtz o s := rfl
@[simp] theorem exec_popc (o : SSOps) (s : State) : exec (.popc o) s = execPopc o s := rfl
@[simp] theorem exec_extI8 (o : SSOps) (s : State) : exec (.extI8 o) s = execExtI8 o s := rfl
@[simp] theorem exec_extN8 (o : SSOps) (s : State) : exec (.extN8 o) s = execExtN8 o s := rfl
@[simp] theorem exec_extI16 (o : SSOps) (s : State) : exec (.extI16 o) s = execExtI16 o s := rfl
@[simp] theorem exec_extN16 (o : SSOps) (s : State) : exec (.extN16 o) s = execExtN16 o s := rfl
@[simp] theorem exec_extI32 (o : SSOps) (s : State) : exec (.extI32 o) s = execExtI32 o s := rfl
@[simp] theorem exec_extN32 (o : SSOps) (s : State) : exec (.extN32 o) s = execExtN32 o s := rfl
@[simp] theorem exec_bfx (o : SSSOps) (s : State) : exec (.bfx o) s = execBfx o s := rfl
@[simp] theorem exec_bfxI (o : SSSOps) (s : State) : exec (.bfxI o) s = execBfxI o s := rfl
@[simp] theorem exec_bfi (o : SSSSOps) (s : State) : exec (.bfi o) s = execBfi o s := rfl
@[simp] theorem exec_li (o : SIOps) (s : State) : exec (.li o) s = execLi o s := rfl
@[simp] theorem exec_lih (o : SIOps) (s : State) : exec (.lih o) s = execLih o s := rfl
@[simp] theorem exec_mov (o : MovOps) (s : State) : exec (.mov o) s = execMov o s := rfl
@[simp] theorem exec_kand (o : KKKOps) (s : State) : exec (.kand o) s = execKand o s := rfl
@[simp] theorem exec_kor (o : KKKOps) (s : State) : exec (.kor o) s = execKor o s := rfl
@[simp] theorem exec_kxor (o : KKKOps) (s : State) : exec (.kxor o) s = execKxor o s := rfl
@[simp] theorem exec_kandn (o : KKKOps) (s : State) : exec (.kandn o) s = execKandn o s := rfl
@[simp] theorem exec_knot (o : KKOps) (s : State) : exec (.knot o) s = execKnot o s := rfl
@[simp] theorem exec_kmovKToS (o : SKOps) (s : State) : exec (.kmovKToS o) s = execKmovKToS o s := rfl
@[simp] theorem exec_kmovSToK (o : KSOps) (s : State) : exec (.kmovSToK o) s = execKmovSToK o s := rfl
@[simp] theorem exec_kpopc (o : SKOps) (s : State) : exec (.kpopc o) s = execKpopc o s := rfl
@[simp] theorem exec_kfirst (o : SKOps) (s : State) : exec (.kfirst o) s = execKfirst o s := rfl
@[simp] theorem exec_cnarrow (o : CCSSOps) (s : State) : exec (.cnarrow o) s = execCnarrow o s := rfl
@[simp] theorem exec_cperm (o : CCSOps) (s : State) : exec (.cperm o) s = execCperm o s := rfl
@[simp] theorem exec_cget (o : CGetOps) (s : State) : exec (.cget o) s = execCget o s := rfl
@[simp] theorem exec_cld (o : CLdOps) (s : State) : exec (.cld o) s = execCld o s := rfl
@[simp] theorem exec_cst (o : CStOps) (s : State) : exec (.cst o) s = execCst o s := rfl
@[simp] theorem exec_loop (o : LoopOps) (s : State) : exec (.loop o) s = execLoop o s := rfl
@[simp] theorem exec_lmask (o : LMaskOps) (s : State) : exec (.lmask o) s = execLmask o s := rfl
@[simp] theorem exec_end_ (s : State) : exec .end_ s = execEnd_ s := rfl
@[simp] theorem exec_nop (s : State) : exec .nop s = execNop s := rfl
@[simp] theorem exec_trap (o : TrapOps) (s : State) : exec (.trap o) s = execTrap o s := rfl
@[simp] theorem exec_smovRead (o : SmovOps) (s : State) : exec (.smovRead o) s = execSmovRead o s := rfl
@[simp] theorem exec_smovWrite (o : SmovOps) (s : State) : exec (.smovWrite o) s = execSmovWrite o s := rfl
@[simp] theorem exec_ctxctlFreeze (o : CtxCtlOps) (s : State) : exec (.ctxctlFreeze o) s = execCtxctlFreeze o s := rfl
@[simp] theorem exec_ctxctlResume (o : CtxCtlOps) (s : State) : exec (.ctxctlResume o) s = execCtxctlResume o s := rfl
@[simp] theorem exec_ctxctlKill (o : CtxCtlOps) (s : State) : exec (.ctxctlKill o) s = execCtxctlKill o s := rfl
@[simp] theorem exec_ctxctlRestart (o : CtxCtlOps) (s : State) : exec (.ctxctlRestart o) s = execCtxctlRestart o s := rfl
@[simp] theorem exec_markRound (o : MarkOps) (s : State) : exec (.markRound o) s = execMarkRound o s := rfl
@[simp] theorem exec_markCheckpoint (o : MarkOps) (s : State) : exec (.markCheckpoint o) s = execMarkCheckpoint o s := rfl
@[simp] theorem exec_markCut (o : MarkOps) (s : State) : exec (.markCut o) s = execMarkCut o s := rfl
@[simp] theorem exec_tsamp (o : TsampOps) (s : State) : exec (.tsamp o) s = execTsamp o s := rfl
@[simp] theorem exec_brkpt (o : BrkOps) (s : State) : exec (.brkpt o) s = execBrkpt o s := rfl
@[simp] theorem exec_brkptArmed (o : BrkArmedOps) (s : State) : exec (.brkptArmed o) s = execBrkptArmed o s := rfl
@[simp] theorem exec_tlbinv (o : TlbinvOps) (s : State) : exec (.tlbinv o) s = execTlbinv o s := rfl
@[simp] theorem exec_post (o : PostOps) (s : State) : exec (.post o) s = execPost o s := rfl
@[simp] theorem exec_vadd (o : VBinOps) (s : State) : exec (.vadd o) s = execVadd o s := rfl
@[simp] theorem exec_vsub (o : VBinOps) (s : State) : exec (.vsub o) s = execVsub o s := rfl
@[simp] theorem exec_vmul (o : VBinOps) (s : State) : exec (.vmul o) s = execVmul o s := rfl
@[simp] theorem exec_vfma (o : VFmaOps) (s : State) : exec (.vfma o) s = execVfma o s := rfl
@[simp] theorem exec_vmin (o : VMinMaxOps) (s : State) : exec (.vmin o) s = execVmin o s := rfl
@[simp] theorem exec_vmax (o : VMinMaxOps) (s : State) : exec (.vmax o) s = execVmax o s := rfl
@[simp] theorem exec_vabs (o : VUnSOps) (s : State) : exec (.vabs o) s = execVabs o s := rfl
@[simp] theorem exec_vneg (o : VUnSOps) (s : State) : exec (.vneg o) s = execVneg o s := rfl
@[simp] theorem exec_vdiv (o : VDivOps) (s : State) : exec (.vdiv o) s = execVdiv o s := rfl
@[simp] theorem exec_vsqrt (o : VUnOps) (s : State) : exec (.vsqrt o) s = execVsqrt o s := rfl
@[simp] theorem exec_vexp2 (o : VUnOps) (s : State) : exec (.vexp2 o) s = execVexp2 o s := rfl
@[simp] theorem exec_vlog2 (o : VUnOps) (s : State) : exec (.vlog2 o) s = execVlog2 o s := rfl
@[simp] theorem exec_vcmpEq (o : VCmpOps) (s : State) : exec (.vcmpEq o) s = execVcmpEq o s := rfl
@[simp] theorem exec_vcmpNe (o : VCmpOps) (s : State) : exec (.vcmpNe o) s = execVcmpNe o s := rfl
@[simp] theorem exec_vcmpLt (o : VCmpOps) (s : State) : exec (.vcmpLt o) s = execVcmpLt o s := rfl
@[simp] theorem exec_vcmpLe (o : VCmpOps) (s : State) : exec (.vcmpLe o) s = execVcmpLe o s := rfl
@[simp] theorem exec_vcmpUn (o : VCmpOps) (s : State) : exec (.vcmpUn o) s = execVcmpUn o s := rfl
@[simp] theorem exec_vsel (o : VSelOps) (s : State) : exec (.vsel o) s = execVsel o s := rfl
@[simp] theorem exec_vand (o : VBitsOps) (s : State) : exec (.vand o) s = execVand o s := rfl
@[simp] theorem exec_vor (o : VBitsOps) (s : State) : exec (.vor o) s = execVor o s := rfl
@[simp] theorem exec_vxor (o : VBitsOps) (s : State) : exec (.vxor o) s = execVxor o s := rfl
@[simp] theorem exec_vandn (o : VBitsOps) (s : State) : exec (.vandn o) s = execVandn o s := rfl
@[simp] theorem exec_vshl (o : VBitsOps) (s : State) : exec (.vshl o) s = execVshl o s := rfl
@[simp] theorem exec_vshr (o : VBitsOps) (s : State) : exec (.vshr o) s = execVshr o s := rfl
@[simp] theorem exec_vsra (o : VBitsOps) (s : State) : exec (.vsra o) s = execVsra o s := rfl
@[simp] theorem exec_vcvt (o : VCvtOps) (s : State) : exec (.vcvt o) s = execVcvt o s := rfl
@[simp] theorem exec_vcvtChannel (o : VCvtChOps) (s : State) : exec (.vcvtChannel o) s = execVcvtChannel o s := rfl
@[simp] theorem exec_vrnd (o : VCvtOps) (s : State) : exec (.vrnd o) s = execVrnd o s := rfl
@[simp] theorem exec_vscale (o : VScaleOps) (s : State) : exec (.vscale o) s = execVscale o s := rfl
@[simp] theorem exec_vpack (o : VPackOps) (s : State) : exec (.vpack o) s = execVpack o s := rfl
@[simp] theorem exec_vunpack (o : VUnpackOps) (s : State) : exec (.vunpack o) s = execVunpack o s := rfl
@[simp] theorem exec_vbsc (o : VBscOps) (s : State) : exec (.vbsc o) s = execVbsc o s := rfl
@[simp] theorem exec_vbsx (o : VBsxOps) (s : State) : exec (.vbsx o) s = execVbsx o s := rfl
@[simp] theorem exec_vhad (o : VHadOps) (s : State) : exec (.vhad o) s = execVhad o s := rfl
@[simp] theorem exec_vredAdd (o : VRedOps) (s : State) : exec (.vredAdd o) s = execVredAdd o s := rfl
@[simp] theorem exec_vredMin (o : VRedOps) (s : State) : exec (.vredMin o) s = execVredMin o s := rfl
@[simp] theorem exec_vredMax (o : VRedOps) (s : State) : exec (.vredMax o) s = execVredMax o s := rfl
@[simp] theorem exec_vperm (o : VBitsOps) (s : State) : exec (.vperm o) s = execVperm o s := rfl
@[simp] theorem exec_vbcst (o : VFromSOps) (s : State) : exec (.vbcst o) s = execVbcst o s := rfl
@[simp] theorem exec_vins (o : VInsOps) (s : State) : exec (.vins o) s = execVins o s := rfl
@[simp] theorem exec_vext (o : VExtOps) (s : State) : exec (.vext o) s = execVext o s := rfl
@[simp] theorem exec_vsort (o : VSortOps) (s : State) : exec (.vsort o) s = execVsort o s := rfl
@[simp] theorem exec_vhist (o : VHistOps) (s : State) : exec (.vhist o) s = execVhist o s := rfl
@[simp] theorem exec_vsdc (o : VSdcOps) (s : State) : exec (.vsdc o) s = execVsdc o s := rfl
@[simp] theorem exec_vsdcChannel (o : VSdcChOps) (s : State) : exec (.vsdcChannel o) s = execVsdcChannel o s := rfl
@[simp] theorem exec_vsdadd (o : VSdAddOps) (s : State) : exec (.vsdadd o) s = execVsdadd o s := rfl
@[simp] theorem exec_vsdcmp (o : VSdCmpOps) (s : State) : exec (.vsdcmp o) s = execVsdcmp o s := rfl
@[simp] theorem exec_vclass (o : VClassOps) (s : State) : exec (.vclass o) s = execVclass o s := rfl
@[simp] theorem exec_vdot (o : VDotOps) (s : State) : exec (.vdot o) s = execVdot o s := rfl
@[simp] theorem exec_mbld (o : MBOps) (s : State) : exec (.mbld o) s = execMbld o s := rfl
@[simp] theorem exec_mbldDiag (o : MBOps) (s : State) : exec (.mbldDiag o) s = execMbldDiag o s := rfl
@[simp] theorem exec_mbsp (o : MBOps) (s : State) : exec (.mbsp o) s = execMbsp o s := rfl
@[simp] theorem exec_bSwap (s : State) : exec .bSwap s = execBSwap s := rfl
@[simp] theorem exec_mrow (o : MRowOps) (s : State) : exec (.mrow o) s = execMrow o s := rfl
@[simp] theorem exec_mroww (o : MRowWOps) (s : State) : exec (.mroww o) s = execMroww o s := rfl
@[simp] theorem exec_mrowwSp (o : MRowWOps) (s : State) : exec (.mrowwSp o) s = execMrowwSp o s := rfl
@[simp] theorem exec_matrixRowFiring (s : State) : exec .matrixRowFiring s = execMatrixRowFiring s := rfl
@[simp] theorem exec_mzero (o : MNOps) (s : State) : exec (.mzero o) s = execMzero o s := rfl
@[simp] theorem exec_mout (o : MOutOps) (s : State) : exec (.mout o) s = execMout o s := rfl
@[simp] theorem exec_mscaleWindow (o : MScaleWOps) (s : State) : exec (.mscaleWindow o) s = execMscaleWindow o s := rfl
@[simp] theorem exec_mscaleCode (o : MScaleCOps) (s : State) : exec (.mscaleCode o) s = execMscaleCode o s := rfl
@[simp] theorem exec_mbias (o : MBiasOps) (s : State) : exec (.mbias o) s = execMbias o s := rfl
@[simp] theorem exec_mrd (o : MRdOps) (s : State) : exec (.mrd o) s = execMrd o s := rfl
@[simp] theorem exec_mwr (o : MWrOps) (s : State) : exec (.mwr o) s = execMwr o s := rfl
@[simp] theorem exec_mslot (o : MSlotOps) (s : State) : exec (.mslot o) s = execMslot o s := rfl
@[simp] theorem exec_wfill (o : WFillOps) (s : State) : exec (.wfill o) s = execWfill o s := rfl
@[simp] theorem exec_wread (o : WOffOps) (s : State) : exec (.wread o) s = execWread o s := rfl
@[simp] theorem exec_wupd (o : WOffOps) (s : State) : exec (.wupd o) s = execWupd o s := rfl
@[simp] theorem exec_wshrink (o : WShrinkOps) (s : State) : exec (.wshrink o) s = execWshrink o s := rfl
@[simp] theorem exec_wstat (o : WStatOps) (s : State) : exec (.wstat o) s = execWstat o s := rfl
@[simp] theorem exec_wsave (o : WSaveOps) (s : State) : exec (.wsave o) s = execWsave o s := rfl
@[simp] theorem exec_wrest (o : WRestOps) (s : State) : exec (.wrest o) s = execWrest o s := rfl
@[simp] theorem exec_windowWaiterRelease (s : State) : exec .windowWaiterRelease s = execWindowWaiterRelease s := rfl
@[simp] theorem exec_recv (o : RecvOps) (s : State) : exec (.recv o) s = execRecv o s := rfl
@[simp] theorem exec_peek (o : PeekOps) (s : State) : exec (.peek o) s = execPeek o s := rfl
@[simp] theorem exec_send (o : SendOps) (s : State) : exec (.send o) s = execSend o s := rfl
@[simp] theorem exec_vcset (o : VcSetOps) (s : State) : exec (.vcset o) s = execVcset o s := rfl
@[simp] theorem exec_barInit (o : BarInitOps) (s : State) : exec (.barInit o) s = execBarInit o s := rfl
@[simp] theorem exec_barArrive (o : BarOps) (s : State) : exec (.barArrive o) s = execBarArrive o s := rfl
@[simp] theorem exec_barWait (o : BarOps) (s : State) : exec (.barWait o) s = execBarWait o s := rfl
@[simp] theorem exec_barAw (o : BarOps) (s : State) : exec (.barAw o) s = execBarAw o s := rfl
@[simp] theorem exec_barRemote (o : BarRemoteOps) (s : State) : exec (.barRemote o) s = execBarRemote o s := rfl
@[simp] theorem exec_remoteArrival (s : State) : exec .remoteArrival s = execRemoteArrival s := rfl
@[simp] theorem exec_mld (o : MemOps) (s : State) : exec (.mld o) s = execMld o s := rfl
@[simp] theorem exec_mst (o : MemOps) (s : State) : exec (.mst o) s = execMst o s := rfl
@[simp] theorem exec_mwrt (o : MWrtOps) (s : State) : exec (.mwrt o) s = execMwrt o s := rfl
@[simp] theorem exec_mreq (o : MReqOps) (s : State) : exec (.mreq o) s = execMreq o s := rfl
@[simp] theorem exec_wreq (o : WReqOps) (s : State) : exec (.wreq o) s = execWreq o s := rfl
@[simp] theorem exec_fenceRegion (o : FenceOps) (s : State) : exec (.fenceRegion o) s = execFenceRegion o s := rfl
@[simp] theorem exec_fenceDevice (o : FenceOps) (s : State) : exec (.fenceDevice o) s = execFenceDevice o s := rfl
@[simp] theorem exec_fenceSystem (o : FenceOps) (s : State) : exec (.fenceSystem o) s = execFenceSystem o s := rfl
@[simp] theorem exec_ctok (o : CtokOps) (s : State) : exec (.ctok o) s = execCtok o s := rfl
@[simp] theorem exec_cpy (o : CpyOps) (s : State) : exec (.cpy o) s = execCpy o s := rfl
@[simp] theorem exec_cpyq (o : Cpy3Ops) (s : State) : exec (.cpyq o) s = execCpyq o s := rfl
@[simp] theorem exec_gth (o : Cpy3Ops) (s : State) : exec (.gth o) s = execGth o s := rfl
@[simp] theorem exec_sct (o : Cpy3Ops) (s : State) : exec (.sct o) s = execSct o s := rfl
@[simp] theorem exec_copyCompletion (s : State) : exec .copyCompletion s = execCopyCompletion s := rfl
@[simp] theorem exec_aadd (o : AtOps) (s : State) : exec (.aadd o) s = execAadd o s := rfl
@[simp] theorem exec_aaddF (o : AtFOps) (s : State) : exec (.aaddF o) s = execAaddF o s := rfl
@[simp] theorem exec_amin (o : AtOps) (s : State) : exec (.amin o) s = execAmin o s := rfl
@[simp] theorem exec_aminF (o : AtFOps) (s : State) : exec (.aminF o) s = execAminF o s := rfl
@[simp] theorem exec_amax (o : AtOps) (s : State) : exec (.amax o) s = execAmax o s := rfl
@[simp] theorem exec_amaxF (o : AtFOps) (s : State) : exec (.amaxF o) s = execAmaxF o s := rfl
@[simp] theorem exec_aand (o : AtOps) (s : State) : exec (.aand o) s = execAand o s := rfl
@[simp] theorem exec_aandF (o : AtFOps) (s : State) : exec (.aandF o) s = execAandF o s := rfl
@[simp] theorem exec_aor (o : AtOps) (s : State) : exec (.aor o) s = execAor o s := rfl
@[simp] theorem exec_aorF (o : AtFOps) (s : State) : exec (.aorF o) s = execAorF o s := rfl
@[simp] theorem exec_axor (o : AtOps) (s : State) : exec (.axor o) s = execAxor o s := rfl
@[simp] theorem exec_axorF (o : AtFOps) (s : State) : exec (.axorF o) s = execAxorF o s := rfl
@[simp] theorem exec_axchg (o : AtOps) (s : State) : exec (.axchg o) s = execAxchg o s := rfl
@[simp] theorem exec_axchgF (o : AtFOps) (s : State) : exec (.axchgF o) s = execAxchgF o s := rfl
@[simp] theorem exec_acas (o : ACasOps) (s : State) : exec (.acas o) s = execAcas o s := rfl
@[simp] theorem exec_acasQ (o : ACasQOps) (s : State) : exec (.acasQ o) s = execAcasQ o s := rfl
@[simp] theorem exec_sparseUpdateApply (s : State) : exec .sparseUpdateApply s = execSparseUpdateApply s := rfl
@[simp] theorem exec_plq (o : PSSOps) (s : State) : exec (.plq o) s = execPlq o s := rfl
@[simp] theorem exec_plterm (o : PSCOps) (s : State) : exec (.plterm o) s = execPlterm o s := rfl
@[simp] theorem exec_plvec (o : PSSOps) (s : State) : exec (.plvec o) s = execPlvec o s := rfl
@[simp] theorem exec_plfuseLin (o : PSSOps) (s : State) : exec (.plfuseLin o) s = execPlfuseLin o s := rfl
@[simp] theorem exec_plfuseRrf (o : PSSOps) (s : State) : exec (.plfuseRrf o) s = execPlfuseRrf o s := rfl
@[simp] theorem exec_plrunOr (o : PRunOps) (s : State) : exec (.plrunOr o) s = execPlrunOr o s := rfl
@[simp] theorem exec_plrunAnd (o : PRunOps) (s : State) : exec (.plrunAnd o) s = execPlrunAnd o s := rfl
@[simp] theorem exec_plrunWand (o : PRunOps) (s : State) : exec (.plrunWand o) s = execPlrunWand o s := rfl
@[simp] theorem exec_plabort (o : PSOps) (s : State) : exec (.plabort o) s = execPlabort o s := rfl
@[simp] theorem exec_plresume (o : PResumeOps) (s : State) : exec (.plresume o) s = execPlresume o s := rfl
@[simp] theorem exec_chunkDecode (s : State) : exec .chunkDecode s = execChunkDecode s := rfl
@[simp] theorem exec_chunkCommit (s : State) : exec .chunkCommit s = execChunkCommit s := rfl
@[simp] theorem exec_queryRunEnd (s : State) : exec .queryRunEnd s = execQueryRunEnd s := rfl
@[simp] theorem exec_pins (o : PinsOps) (s : State) : exec (.pins o) s = execPins o s := rfl
@[simp] theorem exec_ptake (o : PTakeOps) (s : State) : exec (.ptake o) s = execPtake o s := rfl
@[simp] theorem exec_ptry (o : PTakeOps) (s : State) : exec (.ptry o) s = execPtry o s := rfl
@[simp] theorem exec_pstat (o : PSSOps) (s : State) : exec (.pstat o) s = execPstat o s := rfl
@[simp] theorem exec_pcfg (o : PSSOps) (s : State) : exec (.pcfg o) s = execPcfg o s := rfl
@[simp] theorem exec_pcfgApply (s : State) : exec .pcfgApply s = execPcfgApply s := rfl
@[simp] theorem exec_poolInsertAccept (s : State) : exec .poolInsertAccept s = execPoolInsertAccept s := rfl
@[simp] theorem exec_poolTakeTest (s : State) : exec .poolTakeTest s = execPoolTakeTest s := rfl
@[simp] theorem exec_migrationAnswer (s : State) : exec .migrationAnswer s = execMigrationAnswer s := rfl
@[simp] theorem exec_migrationArrival (s : State) : exec .migrationArrival s = execMigrationArrival s := rfl
@[simp] theorem exec_topNotesSend (s : State) : exec .topNotesSend s = execTopNotesSend s := rfl
@[simp] theorem exec_topNotesArrival (s : State) : exec .topNotesArrival s = execTopNotesArrival s := rfl
@[simp] theorem exec_remoteTake (s : State) : exec .remoteTake s = execRemoteTake s := rfl
@[simp] theorem exec_agreementWave (s : State) : exec .agreementWave s = execAgreementWave s := rfl
@[simp] theorem exec_emptyClearing (s : State) : exec .emptyClearing s = execEmptyClearing s := rfl
@[simp] theorem exec_xfill (o : XFillROps) (s : State) : exec (.xfill o) s = execXfill o s := rfl
@[simp] theorem exec_xred (o : XFillROps) (s : State) : exec (.xred o) s = execXred o s := rfl
@[simp] theorem exec_xbar (o : XBarOps) (s : State) : exec (.xbar o) s = execXbar o s := rfl
@[simp] theorem exec_peerBeatArrival (s : State) : exec .peerBeatArrival s = execPeerBeatArrival s := rfl
@[simp] theorem exec_peerRetransmit (s : State) : exec .peerRetransmit s = execPeerRetransmit s := rfl
@[simp] theorem exec_engineAccept (s : State) : exec .engineAccept s = execEngineAccept s := rfl
@[simp] theorem exec_engineReply (s : State) : exec .engineReply s = execEngineReply s := rfl
@[simp] theorem exec_issueGrant (s : State) : exec .issueGrant s = execIssueGrant s := rfl
@[simp] theorem exec_arbWeightStep (s : State) : exec .arbWeightStep s = execArbWeightStep s := rfl
@[simp] theorem exec_taskInputsEnded (s : State) : exec .taskInputsEnded s = execTaskInputsEnded s := rfl
@[simp] theorem exec_fillAccept (s : State) : exec .fillAccept s = execFillAccept s := rfl
@[simp] theorem exec_arrivalToken (s : State) : exec .arrivalToken s = execArrivalToken s := rfl
@[simp] theorem exec_controlTokenPass (s : State) : exec .controlTokenPass s = execControlTokenPass s := rfl
@[simp] theorem exec_controlBeat (s : State) : exec .controlBeat s = execControlBeat s := rfl
@[simp] theorem exec_addressGeneratorBeat (s : State) : exec .addressGeneratorBeat s = execAddressGeneratorBeat s := rfl
@[simp] theorem exec_pass (s : State) : exec .pass s = execPass s := rfl
@[simp] theorem exec_fork (s : State) : exec .fork s = execFork s := rfl
@[simp] theorem exec_steer (s : State) : exec .steer s = execSteer s := rfl
@[simp] theorem exec_merge (s : State) : exec .merge s = execMerge s := rfl
@[simp] theorem exec_amerge (s : State) : exec .amerge s = execAmerge s := rfl
@[simp] theorem exec_carry (s : State) : exec .carry s = execCarry s := rfl
@[simp] theorem exec_join (s : State) : exec .join s = execJoin s := rfl
@[simp] theorem exec_gate (s : State) : exec .gate s = execGate s := rfl
@[simp] theorem exec_const (s : State) : exec .const s = execConst s := rfl
@[simp] theorem exec_sink (s : State) : exec .sink s = execSink s := rfl
@[simp] theorem exec_count (s : State) : exec .count s = execCount s := rfl
@[simp] theorem exec_select (s : State) : exec .select s = execSelect s := rfl
@[simp] theorem exec_sequentialController (s : State) : exec .sequentialController s = execSequentialController s := rfl
@[simp] theorem exec_pipelinedController (s : State) : exec .pipelinedController s = execPipelinedController s := rfl
@[simp] theorem exec_streamingController (s : State) : exec .streamingController s = execStreamingController s := rfl
@[simp] theorem exec_contextSwitch (s : State) : exec .contextSwitch s = execContextSwitch s := rfl
@[simp] theorem exec_contextFetchDone (s : State) : exec .contextFetchDone s = execContextFetchDone s := rfl
@[simp] theorem exec_contextStoreAdd (s : State) : exec .contextStoreAdd s = execContextStoreAdd s := rfl
@[simp] theorem exec_launchPortWrite (s : State) : exec .launchPortWrite s = execLaunchPortWrite s := rfl
@[simp] theorem exec_launch (s : State) : exec .launch s = execLaunch s := rfl
@[simp] theorem exec_token (s : State) : exec .token s = execToken s := rfl
@[simp] theorem exec_cancel (s : State) : exec .cancel s = execCancel s := rfl
@[simp] theorem exec_close (s : State) : exec .close s = execClose s := rfl
@[simp] theorem exec_release (s : State) : exec .release s = execRelease s := rfl
@[simp] theorem exec_badKind (s : State) : exec .badKind s = execBadKind s := rfl
@[simp] theorem exec_blockScheduler (s : State) : exec .blockScheduler s = execBlockScheduler s := rfl
@[simp] theorem exec_ageStepExpiry (s : State) : exec .ageStepExpiry s = execAgeStepExpiry s := rfl
@[simp] theorem exec_residencyEnd (s : State) : exec .residencyEnd s = execResidencyEnd s := rfl
@[simp] theorem exec_tokenForward (s : State) : exec .tokenForward s = execTokenForward s := rfl
@[simp] theorem exec_launchDrained (s : State) : exec .launchDrained s = execLaunchDrained s := rfl
@[simp] theorem exec_eventRecordFill (s : State) : exec .eventRecordFill s = execEventRecordFill s := rfl
@[simp] theorem exec_eventShrink (s : State) : exec .eventShrink s = execEventShrink s := rfl
@[simp] theorem exec_roundMarker (s : State) : exec .roundMarker s = execRoundMarker s := rfl
@[simp] theorem exec_checkpointMarker (s : State) : exec .checkpointMarker s = execCheckpointMarker s := rfl
@[simp] theorem exec_drainComplete (s : State) : exec .drainComplete s = execDrainComplete s := rfl
@[simp] theorem exec_saveComplete (s : State) : exec .saveComplete s = execSaveComplete s := rfl
@[simp] theorem exec_lateData (s : State) : exec .lateData s = execLateData s := rfl
@[simp] theorem exec_restore (s : State) : exec .restore s = execRestore s := rfl
@[simp] theorem exec_stallWatchDeclare (s : State) : exec .stallWatchDeclare s = execStallWatchDeclare s := rfl
@[simp] theorem exec_trapLetterDelivery (s : State) : exec .trapLetterDelivery s = execTrapLetterDelivery s := rfl
@[simp] theorem exec_pageWalkDone (s : State) : exec .pageWalkDone s = execPageWalkDone s := rfl
@[simp] theorem exec_deadLetterResolve (s : State) : exec .deadLetterResolve s = execDeadLetterResolve s := rfl
@[simp] theorem exec_spillWriteRetry (s : State) : exec .spillWriteRetry s = execSpillWriteRetry s := rfl
@[simp] theorem exec_migration (s : State) : exec .migration s = execMigration s := rfl
@[simp] theorem exec_faultHead (s : State) : exec .faultHead s = execFaultHead s := rfl
@[simp] theorem exec_faultAnswer (s : State) : exec .faultAnswer s = execFaultAnswer s := rfl
@[simp] theorem exec_invalGo (s : State) : exec .invalGo s = execInvalGo s := rfl
@[simp] theorem exec_linkRetry (s : State) : exec .linkRetry s = execLinkRetry s := rfl
@[simp] theorem exec_linkDown (s : State) : exec .linkDown s = execLinkDown s := rfl
@[simp] theorem exec_regionKill (s : State) : exec .regionKill s = execRegionKill s := rfl
@[simp] theorem exec_regionStop (s : State) : exec .regionStop s = execRegionStop s := rfl
@[simp] theorem exec_stopRelease (s : State) : exec .stopRelease s = execStopRelease s := rfl
@[simp] theorem exec_linkBrk (s : State) : exec .linkBrk s = execLinkBrk s := rfl
@[simp] theorem exec_captureStart (s : State) : exec .captureStart s = execCaptureStart s := rfl
@[simp] theorem exec_captureStop (s : State) : exec .captureStop s = execCaptureStop s := rfl
@[simp] theorem exec_devReset (s : State) : exec .devReset s = execDevReset s := rfl
@[simp] theorem exec_powerOn (s : State) : exec .powerOn s = execPowerOn s := rfl
@[simp] theorem exec_conventionalReset (s : State) : exec .conventionalReset s = execConventionalReset s := rfl
@[simp] theorem exec_bootStageComplete (s : State) : exec .bootStageComplete s = execBootStageComplete s := rfl
@[simp] theorem exec_fwLoad (s : State) : exec .fwLoad s = execFwLoad s := rfl
@[simp] theorem exec_powerRun (s : State) : exec .powerRun s = execPowerRun s := rfl
@[simp] theorem exec_powerIdle (s : State) : exec .powerIdle s = execPowerIdle s := rfl
@[simp] theorem exec_powerPark (s : State) : exec .powerPark s = execPowerPark s := rfl
@[simp] theorem exec_powerTransitionDone (s : State) : exec .powerTransitionDone s = execPowerTransitionDone s := rfl
@[simp] theorem exec_thermalTrip (s : State) : exec .thermalTrip s = execThermalTrip s := rfl
@[simp] theorem exec_lcAdvance (s : State) : exec .lcAdvance s = execLcAdvance s := rfl
@[simp] theorem exec_revokeGo (s : State) : exec .revokeGo s = execRevokeGo s := rfl
@[simp] theorem exec_attestGo (s : State) : exec .attestGo s = execAttestGo s := rfl
@[simp] theorem exec_bar0RegisterWrite (s : State) : exec .bar0RegisterWrite s = execBar0RegisterWrite s := rfl
@[simp] theorem exec_idcode (s : State) : exec .idcode s = execIdcode s := rfl
@[simp] theorem exec_devid (s : State) : exec .devid s = execDevid s := rfl
@[simp] theorem exec_debugFreeze (s : State) : exec .debugFreeze s = execDebugFreeze s := rfl
@[simp] theorem exec_freezePin (s : State) : exec .freezePin s = execFreezePin s := rfl
@[simp] theorem exec_thaw (s : State) : exec .thaw s = execThaw s := rfl
@[simp] theorem exec_debugSelect (s : State) : exec .debugSelect s = execDebugSelect s := rfl
@[simp] theorem exec_debugRead (s : State) : exec .debugRead s = execDebugRead s := rfl
@[simp] theorem exec_debugToken (s : State) : exec .debugToken s = execDebugToken s := rfl
@[simp] theorem exec_bypass (s : State) : exec .bypass s = execBypass s := rfl
@[simp] theorem exec_accessComplete (s : State) : exec .accessComplete s = execAccessComplete s := rfl
@[simp] theorem exec_threadTokenAccepted (s : State) : exec .threadTokenAccepted s = execThreadTokenAccepted s := rfl
@[simp] theorem exec_cumulativeAcknowledgement (s : State) : exec .cumulativeAcknowledgement s = execCumulativeAcknowledgement s := rfl
@[simp] theorem exec_ethernetLinkChange (s : State) : exec .ethernetLinkChange s = execEthernetLinkChange s := rfl
@[simp] theorem exec_powerRemoval (s : State) : exec .powerRemoval s = execPowerRemoval s := rfl
@[simp] theorem exec_launchErrClear (s : State) : exec .launchErrClear s = execLaunchErrClear s := rfl

end Sys2Proof.Machine
end

