-- ==== Sys2Proof/Laws/Encoding.lean ====
section
/-! SUPPORT. Encodings: the fields of a packed word are those packed, a word is its own fields packed, and an operand byte, a type, a mode or a flag reads back as what was written. -/

namespace Sys2Proof

/-- A field above the low part of a concatenation lies in the high part. -/
theorem extract_high {a b n k : Nat} (x : BitVec a) (y : BitVec b) (h : b ≤ k) : (x ++ y).extractLsb' k n = x.extractLsb' (k - b) n := by
  ext i hi
  simp [BitVec.getElem_extractLsb', BitVec.getLsbD_append, show ¬ k + i < b by omega, show k + i - b = k - b + i by omega]

/-- A field inside the low part of a concatenation. -/
theorem extract_low {a b n k : Nat} (x : BitVec a) (y : BitVec b) (h : k + n ≤ b) : (x ++ y).extractLsb' k n = y.extractLsb' k n := by
  ext i hi
  simp [BitVec.getElem_extractLsb', BitVec.getLsbD_append, show k + i < b by omega]

/-- Two adjacent fields are one. -/
theorem extract_join {w n m j k : Nat} (x : BitVec w) (h : j = k + n) : x.extractLsb' j m ++ x.extractLsb' k n = x.extractLsb' k (m + n) := by
  subst h
  ext i hi
  simp only [BitVec.getElem_append, BitVec.getElem_extractLsb']
  split
  · rfl
  · rw [show k + n + (i - n) = k + i by omega]

/-! A packed word's fields -/

theorem Head.of_pack (h : Head) (b : BitVec 48) : Head.of (h.pack b) = h := by
  cases h; simp (disch := omega) only [Head.of, Head.pack, extract_high, extract_low]; simp
theorem FmtA.of_pack (h : Head) (f : FmtA) : FmtA.of (h.pack f.pack) = f := by
  cases h; cases f; simp (disch := omega) only [FmtA.of, Head.pack, FmtA.pack, extract_high, extract_low]; simp
theorem FmtI.of_pack (h : Head) (f : FmtI) : FmtI.of (h.pack f.pack) = f := by
  cases h; cases f; simp (disch := omega) only [FmtI.of, Head.pack, FmtI.pack, extract_high, extract_low]; simp
theorem FmtW.of_pack (h : Head) (f : FmtW) : FmtW.of (h.pack f.pack) = f := by
  cases h; cases f; simp (disch := omega) only [FmtW.of, Head.pack, FmtW.pack, extract_high, extract_low]; simp
theorem FmtM.of_pack (h : Head) (f : FmtM) : FmtM.of (h.pack f.pack) = f := by
  cases h; cases f; simp (disch := omega) only [FmtM.of, Head.pack, FmtM.pack, extract_high, extract_low]; simp
theorem FmtE.of_pack (h : Head) (f : FmtE) : FmtE.of (h.pack f.pack) = f := by
  cases h; cases f; simp (disch := omega) only [FmtE.of, Head.pack, FmtE.pack, extract_high, extract_low]; simp
theorem FmtF.of_pack (h : Head) (f : FmtF) : FmtF.of (h.pack f.pack) = f := by
  cases h; cases f; simp (disch := omega) only [FmtF.of, Head.pack, FmtF.pack, extract_high, extract_low]; simp

/-! A word is its own fields packed -/

theorem Head.pack_of (w : Word) : (Head.of w).pack (w.extractLsb' 0 48) = w := by
  simp only [Head.of, Head.pack, extract_join]; simp
theorem FmtA.pack_of (w : Word) : (FmtA.of w).pack = w.extractLsb' 0 48 := by simp only [FmtA.of, FmtA.pack, extract_join]
theorem FmtI.pack_of (w : Word) : (FmtI.of w).pack = w.extractLsb' 0 48 := by simp only [FmtI.of, FmtI.pack, extract_join]
theorem FmtW.pack_of (w : Word) : (FmtW.of w).pack = w.extractLsb' 0 48 := by simp only [FmtW.of, FmtW.pack, extract_join]
theorem FmtM.pack_of (w : Word) : (FmtM.of w).pack = w.extractLsb' 0 48 := by simp only [FmtM.of, FmtM.pack, extract_join]
theorem FmtE.pack_of (w : Word) : (FmtE.of w).pack = w.extractLsb' 0 48 := by simp only [FmtE.of, FmtE.pack, extract_join]
theorem FmtF.pack_of (w : Word) : (FmtF.of w).pack = w.extractLsb' 0 48 := by simp only [FmtF.of, FmtF.pack, extract_join]

/-! Operand bytes, types, modes and flags -/

@[simp] theorem pS_eS (r : SReg) : pS (eS r) = .ok r := by revert r; decide
@[simp] theorem pV_eV (r : VReg) : pV (eV r) = .ok r := by revert r; decide
@[simp] theorem pC_eC (r : CReg) : pC (eC r) = .ok r := by revert r; decide
@[simp] theorem pK_eK (r : KReg) : pK (eK r) = .ok r := by revert r; decide
@[simp] theorem pLc_eLc (r : Fin 2) : pLc (eLc r) = .ok r := by revert r; decide
theorem eS_of_pS {b : BitVec 8} {r : SReg} (h : pS b = .ok r) : eS r = b := by
  unfold pS at h; split at h <;> simp at h; subst h; apply BitVec.eq_of_toNat_eq; simp [eS]
theorem eV_of_pV {b : BitVec 8} {r : VReg} (h : pV b = .ok r) : eV r = b := by
  unfold pV at h; split at h <;> simp at h; subst h; apply BitVec.eq_of_toNat_eq; simp [eV]; omega
theorem eC_of_pC {b : BitVec 8} {r : CReg} (h : pC b = .ok r) : eC r = b := by
  unfold pC at h; split at h <;> simp at h; subst h; apply BitVec.eq_of_toNat_eq; simp [eC]; omega
theorem eK_of_pK {b : BitVec 8} {r : KReg} (h : pK b = .ok r) : eK r = b := by
  unfold pK at h; split at h <;> simp at h; subst h; apply BitVec.eq_of_toNat_eq; simp [eK]; omega
theorem eLc_of_pLc {b : BitVec 8} {r : Fin 2} (h : pLc b = .ok r) : eLc r = b := by
  unfold pLc at h; split at h <;> simp at h; subst h; apply BitVec.eq_of_toNat_eq; simp [eLc]; omega

@[simp] theorem Ty.ofCode_code (t : Ty) : Ty.ofCode t.code = some t := by cases t <;> decide
@[simp] theorem pTy_code (t : Ty) : pTy t.code = .ok t := by cases t <;> rfl
theorem Ty.code_of_pTy {c : BitVec 5} {t : Ty} (h : pTy c = .ok t) : t.code = c := by
  revert h; revert c; cases t <;> decide
@[simp] theorem RM.ofCode_code (m : RM) : RM.ofCode m.code = m := by cases m <;> rfl
@[simp] theorem RM.code_ofCode (c : BitVec 3) : (RM.ofCode c).code = c := by revert c; decide
@[simp] theorem bool1_bit1 (b : Bool) : bool1 (bit1 b) = b := by cases b <;> rfl
@[simp] theorem bit1_bool1 (b : BitVec 1) : bit1 (bool1 b) = b := by revert b; decide
@[simp] theorem fin_unfin {n : Nat} (i : Fin (2 ^ n)) : fin (unfin i) = i := rfl
@[simp] theorem unfin_fin {n : Nat} (b : BitVec n) : unfin (fin b) = b := rfl
@[simp] theorem need0_zero {n : Nat} : need0 (0 : BitVec n) = .ok () := by simp [need0]
theorem eq_zero_of_need0 {n : Nat} {b : BitVec n} {u : Unit} (h : need0 b = .ok u) : b = 0 := by
  unfold need0 at h; split at h
  · exact eq_of_beq ‹_›
  · cases h
/-- The head that a guarded word of that OP and FN carries gives its guard back. -/
@[simp] theorem mkHead_guard (op fn : Nat) (g : Guard) : (mkHead op fn g).guard = g := by
  cases g; simp only [mkHead, Head.guard, bool1_bit1]; rfl

end Sys2Proof
end

