-- ==== Sys2Proof/Laws/Lanes.lean ====
section
/-! SUPPORT. Lanes: a lane of packed lanes, a merge under the guard, and what a word that writes lanes leaves. -/

namespace Sys2Proof.Machine

theorem packGo_lt (w : Nat) (ls : List Nat) : packGo w ls < 2 ^ (w * ls.length) := by
  induction ls with
  | nil => simp [packGo]
  | cons a ls ih =>
    have ha : a % 2 ^ w < 2 ^ w := Nat.mod_lt _ (by positivity)
    have e : 2 ^ (w * (ls.length + 1)) = 2 ^ w * 2 ^ (w * ls.length) := by rw [Nat.mul_succ, Nat.pow_add, Nat.mul_comm]
    rw [packGo, List.length_cons, e]
    have : 2 ^ w * packGo w ls + 2 ^ w ≤ 2 ^ w * 2 ^ (w * ls.length) := by
      rw [← Nat.mul_succ]; exact Nat.mul_le_mul_left _ ih
    omega

/-- Lane i of packed lanes is lane i, cut to the width. -/
theorem packGo_lane (w : Nat) (ls : List Nat) (i : Nat) (h : i < ls.length) :
    packGo w ls / 2 ^ (w * i) % 2 ^ w = ls[i] % 2 ^ w := by
  induction ls generalizing i with
  | nil => simp at h
  | cons a ls ih =>
    have ha : a % 2 ^ w < 2 ^ w := Nat.mod_lt _ (by positivity)
    cases i with
    | zero => simp [packGo, Nat.add_mul_mod_self_left]
    | succ i =>
      have hi : i < ls.length := by simpa using h
      rw [packGo, Nat.mul_succ, Nat.add_comm (w * i) w, Nat.pow_add, ← Nat.div_div_eq_div_mul,
        Nat.add_mul_div_left _ _ (by positivity), Nat.div_eq_of_lt ha, Nat.zero_add, ih i hi]
      simp

theorem width_mul_lanes (t : Ty) : t.width * t.lanes = 512 := by cases t <;> rfl

theorem laneGet_lt (t : Ty) (b : Beat) (i : Nat) : laneGet t b i < 2 ^ t.width := Nat.mod_lt _ (by positivity)

/-- A lane of a beat of lanes. -/
theorem laneGet_lanesBeat (t : Ty) (ls : List Nat) (hl : ls.length ≤ t.lanes) (i : Nat) (h : i < ls.length) :
    laneGet t (lanesBeat t ls) i = ls[i] % 2 ^ t.width := by
  have hb : packGo t.width ls < 2 ^ 512 := by
    refine Nat.lt_of_lt_of_le (packGo_lt _ _) (Nat.pow_le_pow_right (by decide) ?_)
    rw [← width_mul_lanes t]
    exact Nat.mul_le_mul_left _ hl
  unfold laneGet lanesBeat
  rw [BitVec.toNat_ofNat, Nat.mod_eq_of_lt hb, packGo_lane _ _ _ h]

/-- A merge under the guard: the new lane where it is unmasked, the old one where it is masked. -/
theorem laneGet_merge (x : Ctx) (g : Guard) (t : Ty) (old : Beat) (new : List Nat) (hn : new.length = t.lanes)
    (l : Nat) (hl : l < t.lanes) :
    laneGet t (x.merge g t old new) l =
      if x.laneOn g t l then new[l]'(by omega) % 2 ^ t.width else laneGet t old l := by
  unfold Ctx.merge
  rw [laneGet_lanesBeat _ _ (by simp) _ (by simp; omega)]
  simp only [List.getElem_map, List.getElem_zip, List.getElem_range]
  split
  · rfl
  · exact Nat.mod_eq_of_lt (laneGet_lt ..)

/-- An s register in a vector position gives its low bits in every lane (R65). -/
theorem laneGet_operand_s (x : Ctx) (t : Ty) (r : SReg) (l : Nat) (hl : l < t.lanes) :
    laneGet t (x.operand t (.s r)) l = (x.gs r).toNat % 2 ^ t.width := by
  unfold Ctx.operand
  rw [laneGet_lanesBeat _ _ (by simp) _ (by simpa using hl)]
  simp

@[simp] theorem Ctx.gv_raise (x : Ctx) (f : Flags) (r : VReg) : (x.raise f).gv r = x.gv r := by simp [Ctx.gv]
@[simp] theorem Ctx.gv_keepMarks (y x : Ctx) (w : Bool) (r : VReg) : (y.keepMarks x w).gv r = y.gv r := rfl
@[simp] theorem Ctx.gv_drew (x : Ctx) (m : RM) (n : Nat) (r : VReg) : (x.drew m n).gv r = x.gv r := by simp [Ctx.gv]

/-- The destination of a word that writes lanes. -/
theorem Ctx.laneGet_writeLanes (x : Ctx) (g : Guard) (t : Ty) (rm : RM) (d : VReg) (ls : List (Nat × Flags))
    (hn : ls.length = t.lanes) (l : Nat) (hl : l < t.lanes) :
    laneGet t ((x.writeLanes g t rm d ls).gv d) l =
      if x.laneOn g t l then (ls[l]'(by omega)).1 % 2 ^ t.width else laneGet t (x.gv d) l := by
  unfold Ctx.writeLanes
  rw [Ctx.gv_drew, Ctx.gv_raise, Ctx.gv_keepMarks, Ctx.gv_sv, if_pos rfl, laneGet_merge _ _ _ _ _ (by simpa using hn) _ hl]
  simp

/-- A word that writes lanes leaves every other v register. -/
theorem Ctx.gv_writeLanes_other (x : Ctx) (g : Guard) (t : Ty) (rm : RM) (d r : VReg) (ls : List (Nat × Flags))
    (h : r ≠ d) : (x.writeLanes g t rm d ls).gv r = x.gv r := by
  unfold Ctx.writeLanes
  rw [Ctx.gv_drew, Ctx.gv_raise, Ctx.gv_keepMarks, Ctx.gv_sv, if_neg h]

/-- A word that writes lanes changes a v register, the sticky flags, the stochastic counters, the event counters and the marks of registers that cannot be corrected. -/
theorem Ctx.writeLanes_rest (x : Ctx) (g : Guard) (t : Ty) (rm : RM) (d : VReg) (ls : List (Nat × Flags)) :
    x.writeLanes g t rm d ls = { x with
      v := (x.writeLanes g t rm d ls).v, flags := (x.writeLanes g t rm d ls).flags,
      sra := (x.writeLanes g t rm d ls).sra, srb := (x.writeLanes g t rm d ls).srb,
      pmc := (x.writeLanes g t rm d ls).pmc, bad := (x.writeLanes g t rm d ls).bad } := by
  obtain ⟨v, b, e⟩ : ∃ v b, (x.sv d (x.merge g t (x.gv d) (ls.map Prod.fst))).keepMarks x (x.allOn g t) =
      { x with v := v, bad := b } := ⟨_, _, rfl⟩
  unfold Ctx.writeLanes
  dsimp only
  rw [e]
  unfold Ctx.drew Ctx.raise Ctx.count
  dsimp only
  split <;> split <;> (try split) <;> rfl

end Sys2Proof.Machine
end

