-- ==== Sys2Proof/Laws/Memory.lean ====
section
/-! SUPPORT. Memory: a read after a write, and the canonical form that every write keeps. -/

namespace Sys2Proof.Machine

/-- Every listed address is above a. -/
def Memory.above (a : Nat) (m : Memory) : Prop := ∀ c ∈ m, a < c.1

/-- The canonical form, by the head and the tail. -/
theorem Memory.wf_cons (c : Host.Cell) (m : Memory) :
    Memory.wf (c :: m) = true ↔ c.2 ≠ 0 ∧ Memory.above c.1 m ∧ m.wf = true := by
  induction m generalizing c with
  | nil => simp [Memory.wf, Memory.above]
  | cons d m ih =>
    simp only [Memory.wf, Bool.and_eq_true, bne_iff_ne, ne_eq, decide_eq_true_eq]
    constructor
    · rintro ⟨⟨h0, hlt⟩, hw⟩
      refine ⟨h0, ?_, hw⟩
      have h := ((ih d).1 hw).2.1
      intro e he
      rcases List.mem_cons.1 he with rfl | he
      · exact hlt
      · exact Nat.lt_trans hlt (h e he)
    · rintro ⟨h0, ha, hw⟩
      exact ⟨⟨h0, ha d (List.mem_cons_self ..)⟩, hw⟩

theorem Memory.above_put {a p : Nat} {m : Memory} (h : Memory.above a m) (hp : a < p) (b : Byte) :
    Memory.above a (m.put p b) := by
  induction m with
  | nil =>
    unfold Memory.put
    split
    · exact h
    · intro c hc; simp at hc; subst hc; exact hp
  | cons d m ih =>
    have hd : a < d.1 := h d (List.mem_cons_self ..)
    have hm : Memory.above a m := fun e he => h e (List.mem_cons_of_mem _ he)
    unfold Memory.put
    split
    · split
      · exact h
      · intro c hc
        rcases List.mem_cons.1 hc with rfl | hc
        · exact hp
        · exact h c hc
    · split
      · split
        · exact hm
        · intro c hc
          rcases List.mem_cons.1 hc with rfl | hc
          · exact hp
          · exact hm c hc
      · intro c hc
        rcases List.mem_cons.1 hc with rfl | hc
        · exact hd
        · exact ih hm c hc

/-- One byte written keeps the canonical form. -/
theorem Memory.wf_put {m : Memory} (h : m.wf = true) (a : Nat) (b : Byte) : (m.put a b).wf = true := by
  induction m with
  | nil =>
    unfold Memory.put
    split
    · rfl
    · simpa [Memory.wf] using ‹_›
  | cons d m ih =>
    obtain ⟨h0, ha, hw⟩ := (Memory.wf_cons d m).1 h
    unfold Memory.put
    split
    · split
      · exact h
      · rename_i hlt hb
        refine (Memory.wf_cons _ _).2 ⟨hb, ?_, h⟩
        intro c hc
        rcases List.mem_cons.1 hc with rfl | hc
        · exact hlt
        · exact Nat.lt_trans hlt (ha c hc)
    · split
      · rename_i he
        split
        · exact hw
        · rename_i hb
          exact (Memory.wf_cons _ _).2 ⟨hb, by rw [he]; exact ha, hw⟩
      · exact (Memory.wf_cons _ _).2 ⟨h0, Memory.above_put ha (by omega) b, ih hw⟩

/-- A run of bytes written keeps the canonical form. -/
theorem Memory.wf_write {m : Memory} (h : m.wf = true) (a : Nat) (bs : List Byte) :
    (m.write a bs).wf = true := by
  induction bs generalizing m a with
  | nil => exact h
  | cons b bs ih => exact ih (Memory.wf_put h a b) (a + 1)

theorem Memory.get_above {a p : Nat} {m : Memory} (h : Memory.above a m) (hp : p ≤ a) : m.get p = 0 := by
  cases m with
  | nil => rfl
  | cons c m =>
    have := h c (List.mem_cons_self ..)
    unfold Memory.get
    rw [if_neg (by omega), if_pos (by omega)]

/-- A read after a write: the byte written there, every other byte as before. -/
theorem Memory.get_put {m : Memory} (h : m.wf = true) (a p : Nat) (b : Byte) :
    (m.put a b).get p = if p = a then b else m.get p := by
  induction m with
  | nil =>
    unfold Memory.put
    split
    · rename_i hb; split <;> simp [Memory.get, hb]
    · by_cases e : p = a
      · simp [Memory.get, e]
      · have : ¬ a = p := fun q => e q.symm
        simp [Memory.get, e, this]
  | cons d m ih =>
    obtain ⟨h0, ha, hw⟩ := (Memory.wf_cons d m).1 h
    unfold Memory.put
    by_cases hlt : a < d.1
    · rw [if_pos hlt]
      by_cases e : p = a
      · subst e
        by_cases hb : b = 0
        · simp [hb, Memory.get, hlt]; intro q; omega
        · rw [if_neg hb, if_pos rfl, Memory.get, if_pos rfl]
      · rw [if_neg e]
        by_cases hb : b = 0
        · simp [hb]
        · have q : ¬ a = p := fun q => e q.symm
          simp only [hb, if_false]
          rw [Memory.get]
          simp only [q, if_false]
          split
          · rw [Memory.get_above (a := p) _ (Nat.le_refl p)]
            intro c hc
            rcases List.mem_cons.1 hc with rfl | hc
            · omega
            · have := ha c hc; omega
          · rfl
    · rw [if_neg hlt]
      by_cases he : a = d.1
      · rw [if_pos he]
        by_cases e : p = a
        · subst e
          by_cases hb : b = 0
          · rw [if_pos hb, hb, Memory.get_above ha (by omega)]; simp
          · rw [if_neg hb, if_pos rfl, Memory.get, if_pos rfl]
        · have q : ¬ a = p := fun q => e q.symm
          have q' : ¬ d.1 = p := fun q => e (by omega)
          by_cases hb : b = 0
          · rw [if_pos hb, if_neg e]
            rw [Memory.get, if_neg q']
            split
            · exact Memory.get_above ha (by omega)
            · rfl
          · rw [if_neg hb, if_neg e, Memory.get, Memory.get]
            simp only [q', if_false, he]
      · rw [if_neg he, Memory.get, Memory.get, ih hw]
        by_cases e : p = a
        · subst e
          have q' : ¬ d.1 = p := fun q => he q.symm
          have q2 : ¬ p < d.1 := by omega
          simp [q', q2]
        · simp [e]

theorem Memory.get_write {m : Memory} (h : m.wf = true) (a p : Nat) (bs : List Byte) :
    (m.write a bs).get p = if h : a ≤ p ∧ p < a + bs.length then bs[p - a]'(by omega) else m.get p := by
  induction bs generalizing m a with
  | nil => rw [Memory.write, dif_neg (by simp)]
  | cons b bs ih =>
    rw [Memory.write, ih (Memory.wf_put h a b), Memory.get_put h]
    by_cases e : p = a
    · subst e
      have n : ¬ (p + 1 ≤ p ∧ p < p + 1 + bs.length) := by omega
      rw [dif_neg n, if_pos rfl, dif_pos (by simp)]
      simp
    · by_cases c : a + 1 ≤ p ∧ p < a + 1 + bs.length
      · rw [dif_pos c, dif_pos (by simp; omega)]
        have : p - a = (p - (a + 1)) + 1 := by omega
        simp [this]
      · rw [dif_neg c, if_neg e, dif_neg (by simp; omega)]

theorem Memory.length_read (m : Memory) (a n : Nat) : (m.read a n).length = n := by
  induction n generalizing a with
  | zero => rfl
  | succ n ih => simp [Memory.read, ih]

theorem Memory.getElem_read (m : Memory) (a n i : Nat) (h : i < (m.read a n).length) :
    (m.read a n)[i] = m.get (a + i) := by
  induction n generalizing a i with
  | zero => simp [Memory.read] at h
  | succ n ih =>
    cases i with
    | zero => simp [Memory.read]
    | succ i =>
      simp only [Memory.read, List.getElem_cons_succ]
      rw [ih]; congr 1; omega

/-- Bytes written are read back. -/
theorem Memory.read_write {m : Memory} (h : m.wf = true) (a : Nat) (bs : List Byte) :
    (m.write a bs).read a bs.length = bs := by
  refine List.ext_getElem (Memory.length_read ..) fun i h1 h2 => ?_
  rw [Memory.getElem_read, Memory.get_write h, dif_pos (by omega)]
  congr 1; omega

/-- Two canonical memories that read alike are the same list. -/
theorem Memory.ext_get {m n : Memory} (hm : m.wf = true) (hn : n.wf = true)
    (h : ∀ a, m.get a = n.get a) : m = n := by
  induction m generalizing n with
  | nil =>
    cases n with
    | nil => rfl
    | cons d n =>
      have h0 := ((Memory.wf_cons d n).1 hn).1
      have := h d.1
      simp [Memory.get] at this
      exact absurd this.symm h0
  | cons c m ih =>
    obtain ⟨hc0, hca, hcw⟩ := (Memory.wf_cons c m).1 hm
    cases n with
    | nil =>
      have := h c.1
      simp [Memory.get] at this
      exact absurd this hc0
    | cons d n =>
      obtain ⟨hd0, hda, hdw⟩ := (Memory.wf_cons d n).1 hn
      have hcd : c.1 = d.1 := by
        rcases Nat.lt_trichotomy c.1 d.1 with l | e | l
        · have := h c.1
          simp only [Memory.get, if_true] at this
          rw [if_neg (by omega), if_pos l] at this
          exact absurd this hc0
        · exact e
        · have := h d.1
          simp only [Memory.get, if_true] at this
          rw [if_neg (by omega), if_pos l] at this
          exact absurd this.symm hd0
      have hv : c.2 = d.2 := by
        have := h c.1
        simpa [Memory.get, hcd] using this
      have : m = n := by
        refine ih hcw hdw fun a => ?_
        have ha := h a
        simp only [Memory.get, ← hcd] at ha
        by_cases e1 : c.1 = a
        · rw [Memory.get_above hca (by omega), Memory.get_above hda (by omega)]
        · by_cases e2 : a < c.1
          · rw [Memory.get_above hca (by omega), Memory.get_above hda (by omega)]
          · simpa [e1, e2] using ha
      rw [this, Prod.ext hcd hv]

end Sys2Proof.Machine
end

