-- ==== Sys2Proof/Laws/Shapes.lean ====
section
/-! SUPPORT. What the shapes shared by the words answer: a guarded word, an unguarded one, and the words of a supervisor. -/

namespace Sys2Proof.Laws

open Sys2Proof.Machine Sys2Proof.Safety

theorem runWord_true {s : State} {r : CtxRef} {x : Ctx} (h : Issues s r x) {g : Guard} (hg : x.guard0 g = true)
    (f : CtxRef → Ctx → Out) : runWord g s f = f r x := by
  obtain ⟨hc, hx⟩ := h
  subst hc
  unfold runWord
  rw [hx]
  exact if_pos hg

theorem runWord_false {s : State} {r : CtxRef} {x : Ctx} (h : Issues s r x) {g : Guard} (hg : x.guard0 g = false)
    (f : CtxRef → Ctx → Out) : runWord g s f = .next (s.finish r x) := by
  obtain ⟨hc, hx⟩ := h
  subst hc
  unfold runWord
  rw [hx]
  exact if_neg (by rw [hg]; decide)

theorem openWord_eq {s : State} {r : CtxRef} {x : Ctx} (h : Issues s r x) (f : CtxRef → Ctx → Out) :
    openWord s f = f r x := by
  obtain ⟨hc, hx⟩ := h
  subst hc
  unfold openWord
  rw [hx]

theorem pureWord_true {s : State} {r : CtxRef} {x : Ctx} (h : Issues s r x) {g : Guard} (hg : x.guard0 g = true)
    (f : Ctx → Ctx) : pureWord g s f = .next (s.finish r (f x)) := runWord_true h hg _

theorem openPure_eq {s : State} {r : CtxRef} {x : Ctx} (h : Issues s r x) (f : Ctx → Ctx) :
    openPure s f = .next (s.finish r (f x)) := openWord_eq h _

theorem aluSSS_true {s : State} {r : CtxRef} {x : Ctx} (h : Issues s r x) (o : SSSOps) (hg : x.guard0 o.g = true)
    (f : Word → Word → Word) : aluSSS o s f = .next (s.finish r (x.ss o.d (f (x.gs o.a) (x.gs o.b)))) :=
  pureWord_true h hg _

theorem aluSSI_true {s : State} {r : CtxRef} {x : Ctx} (h : Issues s r x) (o : SSIOps) (hg : x.guard0 o.g = true)
    (f : Word → Word → Word) : aluSSI o s f = .next (s.finish r (x.ss o.d (f (x.gs o.a) (immS o.imm)))) :=
  pureWord_true h hg _

/-- A context that issues is some context: no word of it stops for want of one. -/
theorem issues_ctx {s : State} {r : CtxRef} {x : Ctx} (h : Issues s r x) : s.ctx? s.cur = some x := by
  rw [h.1]; exact h.2

end Sys2Proof.Laws
end

