-- ==== Sys2Proof/Tests/Slice0.lean ====
section
/-! SUPPORT. Tests: words laid out by hand from R61 to R67 and from the spec's own examples, words and terms that are no instructions, single steps from the spec's examples, and for every statement states that meet its hypotheses. -/

namespace Sys2Proof.Tests

open Sys2Proof Sys2Proof.Machine Sys2Proof.Safety

set_option Elab.async false

/-- The guard of a word that always executes. -/
def al : Guard := ⟨false, 0⟩

/-- Every word of the list decodes to the instruction beside it. -/
def reads (l : List (Word × Instr)) : Bool :=
  l.all fun p => match decode p.1 with
    | .ok i => i == p.2
    | .error _ => false

/-- No word of the list decodes. -/
def refuses (l : List Word) : Bool :=
  l.all fun w => match decode w with
    | .ok _ => false
    | .error _ => true

theorem test_words_integer_a : reads [
    (0x01000003011F0000, .add ⟨al, 3, 1, 31⟩),
    (0x01080301FFFFFFFE, .addImm ⟨al, 3, 1, 0xFFFFFFFE⟩),
    (0x02000003011F0000, .sub ⟨al, 3, 1, 31⟩),
    (0x02080301FFFFFFFE, .subImm ⟨al, 3, 1, 0xFFFFFFFE⟩),
    (0x03000003011F0000, .mul ⟨al, 3, 1, 31⟩),
    (0x03080301FFFFFFFE, .mulImm ⟨al, 3, 1, 0xFFFFFFFE⟩),
    (0x07000003011F0000, .and_ ⟨al, 3, 1, 31⟩),
    (0x07080301FFFFFFFE, .andImm ⟨al, 3, 1, 0xFFFFFFFE⟩),
    (0x08000003011F0000, .or_ ⟨al, 3, 1, 31⟩),
    (0x08080301FFFFFFFE, .orImm ⟨al, 3, 1, 0xFFFFFFFE⟩),
    (0x09000003011F0000, .xor ⟨al, 3, 1, 31⟩),
    (0x09080301FFFFFFFE, .xorImm ⟨al, 3, 1, 0xFFFFFFFE⟩),
    (0x0A000003011F0000, .andn ⟨al, 3, 1, 31⟩),
    (0x0A080301FFFFFFFE, .andnImm ⟨al, 3, 1, 0xFFFFFFFE⟩),
    (0x0B000003011F0000, .shl ⟨al, 3, 1, 31⟩),
    (0x0B080301FFFFFFFE, .shlImm ⟨al, 3, 1, 0xFFFFFFFE⟩),
    (0x0C000003011F0000, .shr ⟨al, 3, 1, 31⟩),
    (0x0C080301FFFFFFFE, .shrImm ⟨al, 3, 1, 0xFFFFFFFE⟩),
    (0x0D000003011F0000, .sra ⟨al, 3, 1, 31⟩),
    (0x0D080301FFFFFFFE, .sraImm ⟨al, 3, 1, 0xFFFFFFFE⟩),
    (0x0E000003011F0000, .rot ⟨al, 3, 1, 31⟩),
    (0x0E080301FFFFFFFE, .rotImm ⟨al, 3, 1, 0xFFFFFFFE⟩),
    (0x0470000301020000, .mulh ⟨⟨false, 7⟩, 3, 1, 2⟩),
    (0x0498030100000005, .mulhImm ⟨⟨true, 1⟩, 3, 1, 5⟩),
    (0x0471000301020000, .mulhN ⟨⟨false, 7⟩, 3, 1, 2⟩),
    (0x0499030100000005, .mulhNImm ⟨⟨true, 1⟩, 3, 1, 5⟩),
    (0x0472000301020000, .mulhSn ⟨⟨false, 7⟩, 3, 1, 2⟩),
    (0x049A030100000005, .mulhSnImm ⟨⟨true, 1⟩, 3, 1, 5⟩),
    (0x0570000301020000, .div ⟨⟨false, 7⟩, 3, 1, 2⟩),
    (0x0598030100000005, .divImm ⟨⟨true, 1⟩, 3, 1, 5⟩),
    (0x0571000301020000, .divN ⟨⟨false, 7⟩, 3, 1, 2⟩),
    (0x0599030100000005, .divNImm ⟨⟨true, 1⟩, 3, 1, 5⟩),
    (0x0670000301020000, .rem ⟨⟨false, 7⟩, 3, 1, 2⟩),
    (0x0698030100000005, .remImm ⟨⟨true, 1⟩, 3, 1, 5⟩),
    (0x0671000301020000, .remN ⟨⟨false, 7⟩, 3, 1, 2⟩),
    (0x0699030100000005, .remNImm ⟨⟨true, 1⟩, 3, 1, 5⟩),
    (0x0F70000301020000, .min ⟨⟨false, 7⟩, 3, 1, 2⟩),
    (0x0F98030100000005, .minImm ⟨⟨true, 1⟩, 3, 1, 5⟩),
    (0x0F71000301020000, .minN ⟨⟨false, 7⟩, 3, 1, 2⟩),
    (0x0F99030100000005, .minNImm ⟨⟨true, 1⟩, 3, 1, 5⟩)] = true := by decide +kernel

theorem test_words_integer_b : reads [
    (0x1070000301020000, .max ⟨⟨false, 7⟩, 3, 1, 2⟩),
    (0x1098030100000005, .maxImm ⟨⟨true, 1⟩, 3, 1, 5⟩),
    (0x1071000301020000, .maxN ⟨⟨false, 7⟩, 3, 1, 2⟩),
    (0x1099030100000005, .maxNImm ⟨⟨true, 1⟩, 3, 1, 5⟩),
    (0x110000C702030000, .cmpEq ⟨al, 7, 2, 3⟩),
    (0x1108C10200000009, .cmpEqImm ⟨al, 1, 2, 9⟩),
    (0x110100C702030000, .cmpNe ⟨al, 7, 2, 3⟩),
    (0x1109C10200000009, .cmpNeImm ⟨al, 1, 2, 9⟩),
    (0x110200C702030000, .cmpLt ⟨al, 7, 2, 3⟩),
    (0x110AC10200000009, .cmpLtImm ⟨al, 1, 2, 9⟩),
    (0x110300C702030000, .cmpLe ⟨al, 7, 2, 3⟩),
    (0x110BC10200000009, .cmpLeImm ⟨al, 1, 2, 9⟩),
    (0x110400C702030000, .cmpLtN ⟨al, 7, 2, 3⟩),
    (0x110CC10200000009, .cmpLtNImm ⟨al, 1, 2, 9⟩),
    (0x110500C702030000, .cmpLeN ⟨al, 7, 2, 3⟩),
    (0x110DC10200000009, .cmpLeNImm ⟨al, 1, 2, 9⟩)] = true := by decide +kernel

theorem test_words_moves : reads [
    (0x120000010203C400, .sel ⟨al, 1, 2, 3, 4⟩),
    (0x1300000102000000, .clz ⟨al, 1, 2⟩),
    (0x1301000102000000, .ctz ⟨al, 1, 2⟩),
    (0x1302000102000000, .popc ⟨al, 1, 2⟩),
    (0x1400000405000000, .extI8 ⟨al, 4, 5⟩),
    (0x1401000405000000, .extN8 ⟨al, 4, 5⟩),
    (0x1402000405000000, .extI16 ⟨al, 4, 5⟩),
    (0x1403000405000000, .extN16 ⟨al, 4, 5⟩),
    (0x1404000405000000, .extI32 ⟨al, 4, 5⟩),
    (0x1405000405000000, .extN32 ⟨al, 4, 5⟩),
    (0x1500000102030000, .bfx ⟨al, 1, 2, 3⟩),
    (0x1501000102030000, .bfxI ⟨al, 1, 2, 3⟩),
    (0x1600000102030400, .bfi ⟨al, 1, 2, 3, 4⟩),
    (0x1700030040000000, .li ⟨al, 3, 0x40000000⟩),
    (0x17010300FFFF0000, .lih ⟨al, 3, 0xFFFF0000⟩),
    (0x1800000102000000, .mov ⟨al, .ss 1 2⟩),
    (0x18000003CC000000, .mov ⟨al, .sl 3 0⟩),
    (0x180000CD03000000, .mov ⟨al, .ls 1 3⟩),
    (0x180000415F000000, .mov ⟨al, .vv 1 31⟩),
    (0x1800008F82000000, .mov ⟨al, .cc 15 2⟩),
    (0x1A0000C1C2C30000, .kand ⟨al, 1, 2, 3⟩),
    (0x1A0100C1C2C30000, .kor ⟨al, 1, 2, 3⟩),
    (0x1A0200C1C2C30000, .kxor ⟨al, 1, 2, 3⟩),
    (0x1A0300C1C2C30000, .kandn ⟨al, 1, 2, 3⟩),
    (0x1A0400C1C2000000, .knot ⟨al, 1, 2⟩),
    (0x1B000009C2000000, .kmovKToS ⟨al, 9, 2⟩),
    (0x1B0100C209000000, .kmovSToK ⟨al, 2, 9⟩),
    (0x1B020009C1000000, .kpopc ⟨al, 9, 1⟩),
    (0x1B030009C1000000, .kfirst ⟨al, 9, 1⟩)] = true := by decide +kernel

theorem test_words_capability : reads [
    (0x2000008281020300, .cnarrow ⟨al, 2, 1, 2, 3⟩),
    (0x2100008281020000, .cperm ⟨al, 2, 1, 2⟩),
    (0x2200000483000070, .cget ⟨al, 4, 3, 7⟩),
    (0x2300008483020000, .cld ⟨al, 4, 3, 2, 0, false⟩),
    (0x2400000084008520, .cst ⟨al, 4, 0, 5, 2, false⟩)] = true := by decide +kernel

theorem test_words_control : reads [
    (0x3000000000008004, .loop ⟨0, 0, 4, 8⟩),
    (0x3000010600000009, .loop ⟨1, 6, 9, 0⟩),
    (0x310005C200000000, .lmask ⟨2, 5, 0, false⟩),
    (0x310005C200000003, .lmask ⟨2, 5, 1, true⟩),
    (0x3200000000000000, .end_),
    (0x3300000000000000, .nop),
    (0x340000070000002A, .trap ⟨al, 7, 0x2A⟩),
    (0xF000000200000002, .smovRead ⟨al, 2, 0x002⟩),
    (0xF001000900000003, .smovWrite ⟨al, 9, 0x003⟩),
    (0xF100050400000000, .ctxctlFreeze ⟨al, 4, 5⟩),
    (0xF101050400000000, .ctxctlResume ⟨al, 4, 5⟩),
    (0xF102050400000000, .ctxctlKill ⟨al, 4, 5⟩),
    (0xF103050400000000, .ctxctlRestart ⟨al, 4, 5⟩),
    (0xF200000100000000, .markRound ⟨al, 1⟩),
    (0xF200010100000000, .markCheckpoint ⟨al, 1⟩),
    (0xF200020100000000, .markCut ⟨al, 1⟩),
    (0xF3001F0000000000, .tsamp ⟨al, 31⟩),
    (0xF400000000000007, .brkpt ⟨al, 7⟩),
    (0xF400830000000009, .brkptArmed ⟨al, 3, 9⟩),
    (0xF500030200000000, .tlbinv ⟨al, 2, 3, false⟩),
    (0xF500000000000001, .tlbinv ⟨al, 0, 0, true⟩),
    (0xF600004300000002, .post ⟨al, 3, 2⟩)] = true := by decide +kernel

theorem test_words_vector : reads [
    (0x4000294142430004, .vadd ⟨al, .rtz, .bf16, false, true, false, 1, 2, .v 3⟩),
    (0x4100294142430004, .vsub ⟨al, .rtz, .bf16, false, true, false, 1, 2, .v 3⟩),
    (0x42000A4241030002, .vmul ⟨al, .rne, .f32, false, false, false, 2, 1, .s 3⟩),
    (0x4200014142430001, .vmul ⟨al, .rne, .n8, true, false, false, 1, 2, .v 3⟩),
    (0x43000A4441424300, .vfma ⟨al, .rne, .f32, false, false, false, 4, 1, .v 2, 3⟩),
    (0x4300EB444142430D, .vfma ⟨al, .rod, .f64, true, true, true, 4, 1, .v 2, 3⟩),
    (0x4400024142030002, .vmin ⟨al, .rne, .i16, false, 1, 2, .s 3⟩),
    (0x4401024142030002, .vmax ⟨al, .rne, .i16, false, 1, 2, .s 3⟩),
    (0x4500064142000001, .vabs ⟨al, .rne, .i64, true, 1, 2⟩),
    (0x4501064142000001, .vneg ⟨al, .rne, .i64, true, 1, 2⟩),
    (0x4600884142430000, .vdiv ⟨al, .rna, .f16, 1, 2, .v 3⟩),
    (0x4700AA4142000000, .vsqrt ⟨al, .sa, .f32, 1, 2⟩),
    (0x4800AA4142000000, .vexp2 ⟨al, .sa, .f32, 1, 2⟩),
    (0x4900AA4142000000, .vlog2 ⟨al, .sa, .f32, 1, 2⟩),
    (0x4A020AC142430000, .vcmpLt ⟨al, .f32, 1, 2, .v 3⟩),
    (0x4A0000C7425F0000, .vcmpEq ⟨al, .i8, 7, 2, .v 31⟩),
    (0x4A0100C7425F0000, .vcmpNe ⟨al, .i8, 7, 2, .v 31⟩),
    (0x4A0200C7425F0000, .vcmpLt ⟨al, .i8, 7, 2, .v 31⟩),
    (0x4A0300C7425F0000, .vcmpLe ⟨al, .i8, 7, 2, .v 31⟩),
    (0x4A0400C7425F0000, .vcmpUn ⟨al, .i8, 7, 2, .v 31⟩),
    (0x4B0004414243C400, .vsel ⟨al, .i32, 1, 2, .v 3, 4⟩),
    (0x4C00034142430000, .vand ⟨al, .n16, 1, 2, .v 3⟩),
    (0x4C01034142430000, .vor ⟨al, .n16, 1, 2, .v 3⟩),
    (0x4C02034142430000, .vxor ⟨al, .n16, 1, 2, .v 3⟩),
    (0x4C03034142430000, .vandn ⟨al, .n16, 1, 2, .v 3⟩),
    (0x4D00034142430000, .vshl ⟨al, .n16, 1, 2, .v 3⟩),
    (0x4D01034142430000, .vshr ⟨al, .n16, 1, 2, .v 3⟩),
    (0x4D02034142430000, .vsra ⟨al, .n16, 1, 2, .v 3⟩),
    (0x5700034142430000, .vperm ⟨al, .n16, 1, 2, .v 3⟩)] = true := by decide +kernel

theorem test_words_vector2 : reads [
    (0x4E00A94542000A10, .vcvt ⟨al, .sa, .bf16, .f32, false, 1, 5, 2⟩),
    (0x4E000A4107008C31, .vcvtChannel ⟨al, .rne, .f32, .e4m3, true, 3, 1, 7⟩),
    (0x4F00444142000A00, .vrnd ⟨al, .rdn, .i32, .f32, false, 0, 1, 2⟩),
    (0x5000684142030800, .vscale ⟨al, .rup, .f16, .f16, false, 0, 1, 2, 3⟩),
    (0x5100104142430000, .vpack ⟨al, .e2m1, 1, 2, some (.v 3)⟩),
    (0x51000E4142000000, .vpack ⟨al, .e3m2, 1, 2, none⟩),
    (0x5200114142000010, .vunpack ⟨al, .i4, true, 1, 2⟩),
    (0x53000C415C000921, .vbsc ⟨al, .rne, .e4m3, true, true, false, 1, 28, 9⟩),
    (0x5400104142090930, .vbsx ⟨al, .rne, .e2m1, .bf16, false, 3, 1, 2, 9⟩),
    (0x55000A4448000030, .vhad ⟨al, .rne, .f32, 3, 4, 8⟩),
    (0x56000A0142000000, .vredAdd ⟨al, .rne, .f32, false, 1, 2⟩),
    (0x5601070142000000, .vredMin ⟨al, .rne, .n64, false, 1, 2⟩),
    (0x5602070142000000, .vredMax ⟨al, .rne, .n64, false, 1, 2⟩),
    (0x5800004102000000, .vbcst ⟨al, .i8, 1, 2⟩),
    (0x5900004102030000, .vins ⟨al, .i8, 1, 2, 3⟩),
    (0x5A00040241030000, .vext ⟨al, .i32, 2, 1, 3⟩),
    (0x5B00090043020050, .vhist ⟨al, .bf16, 3, 2, 5⟩),
    (0x5C000A4142000010, .vsdc ⟨al, .f32, true, 1, 2⟩),
    (0x5C0005411F008000, .vsdcChannel ⟨al, .n32, false, 1, 31⟩),
    (0x5D00134142430000, .vsdadd ⟨al, 1, 2, .v 3⟩),
    (0x5E0013C241420300, .vsdcmp ⟨al, 2, 1, .v 2, 3⟩),
    (0x5F000B4142000000, .vclass ⟨al, .f64, 1, 2⟩),
    (0x6000044441424400, .vdot ⟨al, .i32, false, 0, 4, 1, .v 2, 4⟩),
    (0x6100084142000010, .vsort ⟨al, .f16, true, 1, 2⟩)] = true := by decide +kernel

theorem test_words_matrix : reads [
    (0x8000080000C9000F, .mbld ⟨al, 1, 0, 3, .bf16, 0xF⟩),
    (0x800113F003C0FFFF, .mbldDiag ⟨al, 2, 63, 15, .i8, 0xFFFF⟩),
    (0x8100185001100001, .mbsp ⟨al, 3, 5, 4, .e2m1, 1⟩),
    (0x8200080100090010, .mrow ⟨al, .rne, 1, false, 0, 2, none, .bf16, 16⟩),
    (0x8200A7FF9C310001, .mrow ⟨al, .sa, 0, true, 63, 31, some 7, .i4, 1⟩),
    (0x83000026808C0188, .mroww ⟨al, .rne, 0, false, 2, .e5m2, none, 2, .e4m3, 8, 3⟩),
    (0x83010006A4AC0188, .mrowwSp ⟨al, .rne, 0, false, 0, .e5m2, some 9, 2, .e4m3, 8, 3⟩),
    (0x84000A0000000020, .mzero ⟨al, 1, 32, 32⟩),
    (0x85000C0000090010, .mout ⟨al, .rne, 1, true, 0, 0, false, .bf16, 16⟩),
    (0x8500C8107C220002, .mout ⟨al, .sb, 1, false, 1, 31, true, .i16, 2⟩),
    (0x8600080001801234, .mscaleWindow ⟨al, 1, 6, 0x1234⟩),
    (0x860008000001007E, .mscaleCode ⟨al, 1, 0x7E⟩),
    (0x870028300180FF84, .mbias ⟨al, .rtz, 1, 3, 6, 4, 511⟩),
    (0x8800083001800004, .mrd ⟨al, 1, 3, 6, 4⟩),
    (0x8900083001800104, .mwr ⟨al, 1, 3, 6, 4, 2⟩),
    (0x8A000000000F0009, .mslot ⟨al, 15, 9⟩)] = true := by decide +kernel

theorem test_words_window : reads [
    (0x9000100203000000, .wfill ⟨al, 1, 2, .s 3⟩),
    (0x9000F00483000000, .wfill ⟨al, 15, 4, .c 3⟩),
    (0x9100200201000002, .wread ⟨al, 2, 2, .s 1, 0, 2⟩),
    (0x9200200543000001, .wupd ⟨al, 2, 5, .v 3, 0, 1⟩),
    (0x9300100000000001, .wshrink ⟨al, 1, 0, 1⟩),
    (0x9400300001000001, .wstat ⟨al, 3, 1, true⟩),
    (0x9500400086020001, .wsave ⟨al, 4, 0, 6, 2, true⟩),
    (0x9600400086020005, .wrest ⟨al, 4, 0, 6, 2, 5⟩),
    (0x9700018302000000, .recv ⟨al, 3, .s 2⟩),
    (0x9700000541000000, .recv ⟨al, 0, .v 1⟩),
    (0x9800000542000000, .send ⟨al, 0, .v 2⟩),
    (0x9900008542000000, .peek ⟨al, 1, .v 2, 0, 0⟩),
    (0x9A00018004000000, .vcset ⟨al, 3, 4⟩),
    (0x9B00000002000007, .barInit ⟨al, 2, 7⟩),
    (0x9B01000805000007, .barArrive ⟨al, true, 5, 7⟩),
    (0x9B02000805000007, .barWait ⟨al, true, 5, 7⟩),
    (0x9B0300000500005F, .barAw ⟨al, false, 5, 95⟩),
    (0x9B04000803000005, .barRemote ⟨al, true, 3, 5⟩)] = true := by decide +kernel

theorem test_words_memory : reads [
    (0x3800200301030010, .mld ⟨al, 2, 0, false, 3, .s 1, 3, 0x10⟩),
    (0x3900201A06000008, .mst ⟨al, 2, 1, true, 2, .s 6, 0, 8⟩),
    (0x3B00220507030000, .mwrt ⟨al, 2, 4, 0, 7, 3, 0⟩),
    (0x3A00030081040532, .mreq ⟨al, 3, 1, 4, 5, 2, 3⟩),
    (0x3E00000002030400, .wreq ⟨al, 2, 3, 4, 0, 0⟩),
    (0x3C00030000000000, .fenceRegion ⟨al, 3⟩),
    (0x3C01030000000000, .fenceDevice ⟨al, 3⟩),
    (0x3C02030000000000, .fenceSystem ⟨al, 3⟩),
    (0x3D00020000000001, .ctok ⟨al, 2, 1, .region⟩)] = true := by decide +kernel

theorem test_words_engine : reads [
    (0xC000010182830801, .cpy ⟨al, 1, 1, 2, .c 3, 8, 1, false⟩),
    (0xC000010182030888, .cpy ⟨al, 1, 1, 2, .s 3, 8, 0, true⟩),
    (0xC100010182830800, .cpyq ⟨al, 1, 1, 2, 3, 8, 0, false⟩),
    (0xC200010182830800, .gth ⟨al, 1, 1, 2, 3, 8, 0, false⟩),
    (0xC30001018283080A, .sct ⟨al, 1, 1, 2, 3, 8, 2, true⟩),
    (0xC800020082030420, .aadd ⟨al, 2, 2, 3, 4, 0, false, 2⟩),
    (0xC808020582030460, .aaddF ⟨al, 2, 5, 2, 3, 4, 0, false, 6⟩),
    (0xC90002008203047C, .amin ⟨al, 2, 2, 3, 4, 4, true, 7⟩),
    (0xC908020582030444, .aminF ⟨al, 2, 5, 2, 3, 4, 4, false, 4⟩),
    (0xCA0002008203047C, .amax ⟨al, 2, 2, 3, 4, 4, true, 7⟩),
    (0xCA08020582030444, .amaxF ⟨al, 2, 5, 2, 3, 4, 4, false, 4⟩),
    (0xCB0002008203047C, .aand ⟨al, 2, 2, 3, 4, 4, true, 7⟩),
    (0xCB08020582030444, .aandF ⟨al, 2, 5, 2, 3, 4, 4, false, 4⟩),
    (0xCB0102008203047C, .aor ⟨al, 2, 2, 3, 4, 4, true, 7⟩),
    (0xCB09020582030444, .aorF ⟨al, 2, 5, 2, 3, 4, 4, false, 4⟩),
    (0xCB0202008203047C, .axor ⟨al, 2, 2, 3, 4, 4, true, 7⟩),
    (0xCB0A020582030444, .axorF ⟨al, 2, 5, 2, 3, 4, 4, false, 4⟩),
    (0xCC0002008203047C, .axchg ⟨al, 2, 2, 3, 4, 4, true, 7⟩),
    (0xCC08020582030444, .axchgF ⟨al, 2, 5, 2, 3, 4, 4, false, 4⟩),
    (0xCD08020582030600, .acas ⟨al, 2, 5, 2, 3, 6, 0, false⟩),
    (0xCE08020582034600, .acasQ ⟨al, 2, 5, 2, 3, 6, 0, false⟩),
    (0xD000040102030000, .plq ⟨al, 4, 1, 2, 3⟩),
    (0xD200040102030000, .plvec ⟨al, 4, 1, 2, 3⟩),
    (0xD300040102030000, .plfuseLin ⟨al, 4, 1, 2, 3⟩),
    (0xD301040102030000, .plfuseRrf ⟨al, 4, 1, 2, 3⟩),
    (0xD100040102830000, .plterm ⟨al, 4, 1, 2, 3⟩),
    (0xD40004010203000A, .plrunOr ⟨al, 4, 1, 2, 3, 2, true⟩),
    (0xD40104010203000A, .plrunAnd ⟨al, 4, 1, 2, 3, 2, true⟩),
    (0xD402040102030000, .plrunWand ⟨al, 4, 1, 2, 3, 0, false⟩),
    (0xD500040102000000, .plabort ⟨al, 4, 1, 2⟩),
    (0xD600040102000009, .plresume ⟨al, 4, 1, 2, 1, true⟩),
    (0xE000050102030008, .pins ⟨al, 5, 1, 2, 3, true⟩),
    (0xE10005010203C208, .ptake ⟨al, 5, 1, 2, 3, 2, true⟩),
    (0xE20005010203C200, .ptry ⟨al, 5, 1, 2, 3, 2, false⟩),
    (0xE300050102030000, .pstat ⟨al, 5, 1, 2, 3⟩),
    (0xE400050102030000, .pcfg ⟨al, 5, 1, 2, 3⟩),
    (0xE80006018203040F, .xfill ⟨al, 6, 1, 2, 3, 4, 7, true⟩),
    (0xE900060182030400, .xred ⟨al, 6, 1, 2, 3, 4, 0, false⟩),
    (0xEA00060102000008, .xbar ⟨al, 6, 1, 2, true⟩)] = true := by decide +kernel

/-- Words that are none: zeros (R69), an OP above the table, reserved bits of nop, GN without a predicate (R62), a load of size 6 (R192), a type of 0x1F (R66), a destination class that vadd does not take, a reserved bit of format A, a register s35. -/
theorem test_words_refused : refuses [0, 0xFF00000000000000, 0x3310000000000000, 0x3300000000000001, 0x0180000301020000,
    0x3800000601020000, 0x40001F4142430000, 0x40000A8142430000, 0x0100000001020001, 0x0100002301020000] = true := by decide +kernel

/-- The checks of R62, R124, R137 and R131: a guard that is never true, a loop with both counts, tlbinv of all with registers, an unassigned register and a read-only one. -/
theorem test_ill_formed_scalar : [
    Instr.add ⟨⟨true, 0⟩, 1, 2, 3⟩, .loop ⟨0, 1, 5, 3⟩, .tlbinv ⟨al, 1, 0, true⟩, .tlbinv ⟨al, 0, 1, true⟩,
    .smovRead ⟨al, 1, 0x00D⟩, .smovWrite ⟨al, 1, 0x00D⟩, .smovWrite ⟨al, 1, 0x000⟩, .smovWrite ⟨al, 1, 0x110⟩].all (fun i => !wf i) = true := by
  decide +kernel

/-- The checks of R66 and R143 to R146: a rounding mode with an integer, a type that the word does not take. -/
theorem test_ill_formed_lanes : [
    Instr.vadd ⟨al, .rtz, .i32, false, false, false, 1, 2, .v 3⟩, .vadd ⟨al, .rne, .e4m3, false, false, false, 1, 2, .v 3⟩, .vadd ⟨al, .rne, .i32, false, false, true, 1, 2, .v 3⟩,
    .vsub ⟨al, .rne, .i32, false, true, false, 1, 2, .v 3⟩, .vfma ⟨al, .rne, .i32, false, false, false, 1, 2, .v 3, 4⟩,
    .vmin ⟨al, .rup, .n8, false, 1, 2, .v 3⟩, .vdiv ⟨al, .rne, .i64, 1, 2, .v 3⟩, .vsqrt ⟨al, .rne, .n32, 1, 2⟩,
    .vcmpEq ⟨al, .sd, 1, 2, .v 3⟩, .vsel ⟨al, .f32, 1, 2, .v 3, 1⟩, .vand ⟨al, .f16, 1, 2, .v 3⟩,
    .vperm ⟨al, .bf16, 1, 2, .v 3⟩, .vbcst ⟨al, .f64, 1, 2⟩].all (fun i => !wf i) = true := by
  decide +kernel

/-- The checks of R147 to R160. -/
theorem test_ill_formed_shapes : [
    Instr.vcvt ⟨al, .rne, .f32, .e4m3, false, 4, 1, 2⟩, .vcvt ⟨al, .rne, .f32, .cap, false, 0, 1, 2⟩,
    .vpack ⟨al, .e2m1, 1, 2, none⟩, .vpack ⟨al, .e3m2, 1, 2, some (.v 3)⟩, .vpack ⟨al, .f32, 1, 2, some (.v 3)⟩,
    .vunpack ⟨al, .e3m2, true, 1, 2⟩, .vunpack ⟨al, .i8, false, 1, 2⟩, .vbsc ⟨al, .rne, .e4m3, false, false, false, 1, 31, 3⟩,
    .vbsc ⟨al, .rne, .e4m3, false, true, false, 1, 29, 3⟩, .vbsc ⟨al, .rne, .e4m3, false, false, true, 1, 2, 3⟩,
    .vbsc ⟨al, .rne, .i4, false, false, false, 1, 2, 3⟩, .vbsx ⟨al, .rne, .e4m3, .f16, false, 0, 1, 2, 3⟩,
    .vbsx ⟨al, .rne, .e4m3, .bf16, false, 2, 1, 2, 3⟩, .vhad ⟨al, .rne, .f32, 0, 1, 2⟩, .vhad ⟨al, .rne, .f32, 2, 3, 2⟩,
    .vhad ⟨al, .rne, .f32, 2, 0, 31⟩, .vhad ⟨al, .rne, .f16, 1, 0, 2⟩, .vredAdd ⟨al, .rne, .f32, true, 1, 2⟩,
    .vredMin ⟨al, .rne, .i32, true, 1, 2⟩, .vsort ⟨al, .e4m3, false, 1, 2⟩, .vhist ⟨al, .i8, 1, 2, 0⟩, .vsdc ⟨al, .i16, false, 1, 2⟩,
    .vsdcmp ⟨al, 0, 1, .v 2, 3⟩, .vsdcmp ⟨al, 7, 1, .v 2, 3⟩, .vclass ⟨al, .i32, 1, 2⟩, .vdot ⟨al, .i8, false, 0, 1, 2, .v 3, 4⟩,
    .vdot ⟨al, .i32, false, 3, 1, 2, .v 3, 4⟩].all (fun i => !wf i) = true := by
  decide +kernel

/-- The checks of R162, R163, R172, R178, R192, R198 and R207. -/
theorem test_ill_formed_memory : [
    Instr.mbld ⟨al, 0, 0, 0, .f32, 0⟩, .mrow ⟨al, .rne, 0, false, 0, 0, none, .bf16, 0⟩, .mrow ⟨al, .rne, 0, false, 0, 0, none, .bf16, 65⟩,
    .mzero ⟨al, 0, 63, 2⟩, .mroww ⟨al, .rne, 0, false, 0, .f32, none, 0, .bf16, 1, 0⟩, .mout ⟨al, .rne, 0, false, 0, 0, false, .n8, 1⟩,
    .wfill ⟨al, 0, 4, .s 1⟩, .wread ⟨al, 0, 3, .c 1, 0, 0⟩, .mld ⟨al, 0, 0, false, 4, .s 1, 0, 0⟩,
    .cpy ⟨al, 1, 1, 1, .c 2, 0, 0, false⟩, .cpy ⟨al, 1, 1, 1, .c 2, 29, 0, false⟩, .cpyq ⟨al, 1, 1, 1, 2, 28, 0, false⟩,
    .gth ⟨al, 1, 1, 1, 2, 29, 0, false⟩, .acas ⟨al, 1, 1, 1, 2, 31, 0, false⟩, .xfill ⟨al, 1, 1, 1, 2, 31, 0, false⟩,
    .aand ⟨al, 1, 1, 2, 3, 0, false, 3⟩, .axchgF ⟨al, 1, 1, 1, 2, 3, 0, false, 0⟩].all (fun i => !wf i) = true := by
  decide +kernel

/-- The terms at the edge of those checks are instructions. -/
theorem test_well_formed_edges : [
    Instr.loop ⟨0, 0, 5, 3⟩, .loop ⟨0, 1, 5, 0⟩, .tlbinv ⟨al, 1, 1, false⟩, .vbsc ⟨al, .rne, .e4m3, false, true, false, 1, 28, 3⟩,
    .vhad ⟨al, .rne, .f32, 2, 2, 2⟩, .vcvt ⟨al, .rne, .f32, .e4m3, false, 3, 1, 2⟩, .vsdcmp ⟨al, 6, 1, .v 2, 3⟩,
    .mrow ⟨al, .rne, 0, false, 0, 0, none, .bf16, 64⟩, .wread ⟨al, 0, 4, .c 1, 0, 0⟩, .cpy ⟨al, 1, 1, 1, .c 2, 28, 0, false⟩,
    .cpyq ⟨al, 1, 1, 1, 2, 27, 0, false⟩, .aand ⟨al, 1, 1, 2, 3, 0, false, 4⟩].all wf = true := by decide +kernel

/-! States that meet the hypotheses of the statements. -/

/-- Context 0 of the tile that is element 0 of residency 0. -/
def r0 : CtxRef := ⟨0, 0, 0⟩
/-- A state whose one context, in RUN, holds x. -/
def one (x : Ctx) : State := { ctxs := [(r0, x)] }
/-- A running context with s1 to s4 holding those values. -/
def regs (a b c d : Word) : Ctx := { s := (Vector.replicate 32 0).set 1 a |>.set 2 b |>.set 3 c |>.set 4 d, st := .run }
/-- A tagged capability. -/
def cap (base len perm space : Nat) : CapV := ⟨BitVec.ofNat 128 (base + len * 2 ^ 64 + perm * 2 ^ 104 + space * 2 ^ 112), true⟩
/-- x with c in c1 and c2. -/
def Ctx.caps (x : Ctx) (c : CapV) : Ctx := (x.sc 1 c).sc 2 c
/-- A supervisor context. -/
def boss (x : Ctx) : Ctx := { x with sup := true }
/-- The state with one resident residency, numbered 0, and a launch of two blocks. -/
def held (x : Ctx) (r : Res) : State := { one x with ress := [(0, r)], launches := [(0, { seq := 0, asid := 1, opened := true, mapSpace := 1, map := 0, blocks := [{}, {}] })] }

/-- add, under the guard k1 inverted with bit 0 of k1 clear. -/
theorem witness_IntegerArithmetic : Issues (one (regs 5 3 0 0)) r0 (regs 5 3 0 0) ∧ (regs 5 3 0 0).guard0 ⟨true, 1⟩ = true := ⟨⟨rfl, rfl⟩, by decide⟩
theorem witness_DivisionNeverTraps : Issues (one (regs (1 <<< 63) (BitVec.allOnes 64) 0 0)) r0 (regs (1 <<< 63) (BitVec.allOnes 64) 0 0) ∧
    (regs (1 <<< 63) (BitVec.allOnes 64) 0 0).guard0 al = true ∧ ((regs (1 <<< 63) (BitVec.allOnes 64) 0 0).gs 1).toInt = -2 ^ 63 := ⟨⟨rfl, rfl⟩, by decide⟩
theorem witness_ComparisonsWritePredicates : Issues (one (regs 5 3 0 0)) r0 (regs 5 3 0 0) ∧ (regs 5 3 0 0).guard0 al = true := ⟨⟨rfl, rfl⟩, by decide⟩
theorem witness_SelectCountsAndExtensions : Issues (one (regs 5 3 0 0)) r0 (regs 5 3 0 0) ∧ (regs 5 3 0 0).guard0 al = true ∧
    ((regs 5 3 0 0).gk 0).getLsbD 0 = true ∧ ((regs 5 3 0 0).gk 1).getLsbD 0 = false := ⟨⟨rfl, rfl⟩, by decide⟩
/-- The widths 0 and 65 of a field that starts at bit 63. -/
theorem witness_BitFieldsExtractAndInsert : Issues (one (regs 5 0x4040 63 0)) r0 (regs 5 0x4040 63 0) ∧ (regs 5 0x4040 63 0).guard0 al = true ∧
    min 64 (((regs 5 0x4040 63 0).gs 2).toNat / 2 ^ 8 % 2 ^ 7) = 64 ∧ min 64 (((regs 5 0x4040 63 0).gs 3).toNat / 2 ^ 8 % 2 ^ 7) = 0 := ⟨⟨rfl, rfl⟩, by decide⟩
theorem witness_MovesAndPredicateLogic : Issues (one (regs 5 3 0 0)) r0 (regs 5 3 0 0) ∧ (regs 5 3 0 0).guard0 al = true := ⟨⟨rfl, rfl⟩, by decide⟩
theorem witness_RegisterFilesReadBack : (1 : SReg) ≠ 0 ∧ (7 : KReg) ≠ 0 := by decide

/-- No tag; a reserved space; the reserved permission; a range one byte past the end; a range that ends at the end. -/
theorem witness_CapabilitiesOnlyNarrow :
    (let x := regs 16 17 16 0; Issues (one x) r0 x ∧ x.guard0 al = true ∧ (x.gc 1).tag = false) ∧
    (let x := Ctx.caps (regs 16 17 16 0) (cap 0 32 3 6); Issues (one x) r0 x ∧ (x.gc 1).tag = true ∧ 5 < ((x.gc 1).val.extractLsb' 112 4).toNat) ∧
    (let x := Ctx.caps (regs 16 17 16 0) (cap 0 32 0x80 1); Issues (one x) r0 x ∧ (x.gc 1).tag = true ∧ (x.gc 1).val.getLsbD 111 = true) ∧
    (let x := Ctx.caps (regs 16 17 16 0) (cap 0 32 3 5); Issues (one x) r0 x ∧ (x.gc 1).tag = true ∧ ((x.gc 1).val.extractLsb' 112 4).toNat ≤ 5 ∧
      (x.gc 1).val.getLsbD 111 = false ∧ (x.gc 1).length < (x.gs 1).toNat + (x.gs 2).toNat ∧ (x.gs 1).toNat + (x.gs 3).toNat ≤ (x.gc 1).length) :=
  ⟨⟨⟨rfl, rfl⟩, by decide⟩, ⟨⟨rfl, rfl⟩, by decide⟩, ⟨⟨rfl, rfl⟩, by decide⟩, ⟨rfl, rfl⟩, by decide⟩

theorem witness_FalseGuardHasNoEffect : wordGuard (.add ⟨⟨false, 1⟩, 1, 2, 3⟩) = some ⟨false, 1⟩ ∧ Issues (one (regs 5 3 0 0)) r0 (regs 5 3 0 0) ∧
    (regs 5 3 0 0).guard0 ⟨false, 1⟩ = false := ⟨rfl, ⟨rfl, rfl⟩, by decide⟩
theorem witness_TrapEntryAndLetter : (held (regs 0 0 0 0) {}).res? r0.rid = some {} ∧ (held (regs 0 0 0 0) {}).cycle < 2 ^ 64 ∧ tSOFT < 2 ^ 8 := by decide +kernel
theorem witness_TrapAndBreakpointTrap : Issues (one (regs 5 3 0 0)) r0 (regs 5 3 0 0) ∧ (regs 5 3 0 0).guard0 al = true := ⟨⟨rfl, rfl⟩, by decide⟩
/-- A count one above LOOP_MAX, a count of LOOP_MAX and a count of 0. -/
theorem witness_LoopsStartSkipOrTrap : (let x := regs 2 1 0 0; Issues (one x) r0 x ∧ x.loopMax.toNat < (x.gs 1).toNat ∧ (x.gs 2).toNat ≤ x.loopMax.toNat ∧
    (x.gs 2).toNat ≠ 0 ∧ (x.gs 3).toNat = 0) := ⟨⟨rfl, rfl⟩, by decide⟩
/-- Output 3 has sent one token fewer than its count; with the token sent it ends. -/
theorem witness_EndClosesTheFiring :
    (let x : Ctx := { regs 0 0 0 0 with outMask := 8, outRate := (Vector.replicate 32 0).set 3 2, sent := (Vector.replicate 32 0).set 3 1 }
     Issues (one x) r0 x ∧ x.outMask.getLsbD 3 = true ∧ x.sent.get 3 < x.outRate.get 3 ∧
      ∀ m : Fin 32, m < 3 → x.outMask.getLsbD m.val = true → x.outRate.get m ≤ x.sent.get m) ∧
    (let x : Ctx := { regs 0 0 0 0 with outMask := 8, outRate := (Vector.replicate 32 0).set 3 2, sent := (Vector.replicate 32 0).set 3 2 }
     Issues (one x) r0 x ∧ ∀ n : Fin 32, x.outMask.getLsbD n.val = true → x.outRate.get n ≤ x.sent.get n) :=
  ⟨⟨⟨rfl, rfl⟩, by decide +kernel⟩, ⟨rfl, rfl⟩, by decide +kernel⟩
theorem witness_SupervisorWordsTrapPriv : Issues (one (regs 5 3 0 0)) r0 (regs 5 3 0 0) ∧ (regs 5 3 0 0).sup = false ∧ (regs 5 3 0 0).guard0 al = true := ⟨⟨rfl, rfl⟩, by decide⟩
/-- The first and the last barrier note, a register of access S, both as supervisor and not, and the soft-error count of a tile that is placed. -/
theorem witness_SystemRegisterReads : Issues (one (regs 5 3 0 0)) r0 (regs 5 3 0 0) ∧ Issues (one (boss (regs 5 3 0 0))) r0 (boss (regs 5 3 0 0)) ∧
    (regs 5 3 0 0).guard0 al = true ∧ (⟨al, 1, 0x1DF⟩ : SmovOps).reg.toNat = 0x180 + (95 : Fin 96).val ∧ (⟨al, 1, 0x200⟩ : SmovOps).reg.toNat = 0x200 ∧
    (regs 5 3 0 0).sup = false ∧ (boss (regs 5 3 0 0)).sup = true ∧
    (let s : State := { one (regs 5 3 0 0) with elems := [(⟨0, 0⟩, { kind := .tile })] }
     Issues s r0 (regs 5 3 0 0) ∧ (⟨al, 1, 0x360⟩ : SmovOps).reg.toNat = 0x360 ∧ (s.elem? r0.tile).isSome = true) :=
  ⟨⟨rfl, rfl⟩, ⟨rfl, rfl⟩, by decide, by decide, by decide, by decide, by decide, ⟨rfl, rfl⟩, by decide, rfl⟩
theorem witness_SystemRegisterWrites : Issues (held (boss (regs 5 3 0 0)) {}) r0 (boss (regs 5 3 0 0)) ∧ (boss (regs 5 3 0 0)).guard0 al = true ∧
    (boss (regs 5 3 0 0)).sup = true ∧ (held (boss (regs 5 3 0 0)) {}).res? r0.rid = some {} ∧ (⟨al, 1, 0x211⟩ : SmovOps).reg.toNat = 0x211 ∧
    Issues (one (regs 5 3 0 0)) r0 (regs 5 3 0 0) ∧ (regs 5 3 0 0).sup = false ∧ (⟨al, 1, 0x35F⟩ : SmovOps).reg.toNat = 0x300 + (95 : Fin 96).val :=
  ⟨⟨rfl, rfl⟩, by decide, by decide, rfl, by decide, ⟨rfl, rfl⟩, by decide⟩
/-- s1 names context 0 (the issuer), s2 context 1 and s3 an element that is not there; context 1 in each state, before and behind the issue of its tile. -/
def two (y : Ctx) : State := { ctxs := [(r0, boss (regs 0x80000000 0x81000000 0x80000001 0)), (⟨0, 0, 1⟩, y)], tiles := [(⟨0, 0⟩, {})] }
theorem witness_ContextControl :
    (let x := boss (regs 0x80000000 0x81000000 0x80000001 0)
     ∀ y ∈ [({ st := .idle } : Ctx), { st := .ready }, { st := .run }, { st := .done }, { st := .frozen, was := .run, trapped := true, trapCode := 0x13 }, { st := .frozen, preempted := true }],
      (two y).cur = r0 ∧ (two y).ctx? r0 = some x ∧ x.guard0 al = true ∧ x.sup = true ∧ (two y).ctlTarget r0.rid (x.gs 1) = some r0 ∧
      (two y).ctlTarget r0.rid (x.gs 3) = none ∧ (two y).ctlTarget r0.rid (x.gs 2) = some ⟨0, 0, 1⟩ ∧ (two y).ctx? ⟨0, 0, 1⟩ = some y ∧
      y.st ≠ .unbound ∧ y.wait = none ∧ (two y).issueDue ⟨0, 0, 1⟩ = false ∧ ∀ t, (two y).tile? ⟨0, 0⟩ = some t → t.rows = []) ∧
    (let x := boss (regs 0x80000000 0x81000000 0x80000001 0)
     ∀ y ∈ [({ st := .run } : Ctx), { st := .unbound }], let s : State := { two y with agenda := [(.issueGrant, .elem ⟨0, 0⟩)] }
      Issues s r0 x ∧ s.ctlTarget r0.rid (x.gs 2) = some ⟨0, 0, 1⟩ ∧ s.ctx? ⟨0, 0, 1⟩ = some y ∧ s.issueDue ⟨0, 0, 1⟩ = true) := by
  refine ⟨?_, by unfold Issues; decide +kernel⟩
  intro x y hy
  refine ⟨rfl, rfl, by decide, by decide, ?_, ?_, ?_, rfl, ?_, ?_, ?_, ?_⟩
  · revert y; decide +kernel
  · revert y; decide +kernel
  · revert y; decide +kernel
  · revert y; decide
  · revert y; decide
  · rfl
  · intro t ht; cases ht; rfl
/-- Each state of the region, a stopped one with its drain deferred by a mark of its own and by another among them; the issuer. -/
theorem witness_MarksInjectOrReportDraining : ∀ rs ∈ [({} : Res), { st := .draining }, { stopped := true }, { cutDue := some 5 }, { check := true }, { deferredDrain := true },
      { stopped := true, deferredDrain := true, ownMark := true }, { stopped := true, deferredDrain := true }],
    (held (boss (regs 5 3 0 0)) rs).cur = r0 ∧ (held (boss (regs 5 3 0 0)) rs).ctx? r0 = some (boss (regs 5 3 0 0)) ∧
      (boss (regs 5 3 0 0)).guard0 al = true ∧ (boss (regs 5 3 0 0)).sup = true ∧ (held (boss (regs 5 3 0 0)) rs).res? r0.rid = some rs :=
  fun _ _ => ⟨rfl, rfl, by decide, by decide, rfl⟩
/-- A stopped region whose cut markers have all arrived, with an element and a context that the stop froze; one with a marker on its way. -/
theorem witness_MarksInjectOrReportDraining_stop :
    (let s := { held (boss (regs 5 3 0 0)) { stopped := true } with
       elems := [(⟨0, 0⟩, { kind := .tile, frozen := some .cut })], ctxs := [(r0, boss (regs 5 3 0 0)), (⟨0, 0, 1⟩, { st := .frozen, was := .run, stopped := true })] }
     Issues s r0 (boss (regs 5 3 0 0)) ∧ s.markerOn r0.rid .cut = false ∧ (boss (regs 5 3 0 0)).freeze = [] ∧
      s.elem? ⟨0, 0⟩ = some { kind := .tile, frozen := some .cut } ∧ s.ctx? ⟨0, 0, 1⟩ = some { st := .frozen, was := .run, stopped := true }) ∧
    ({ held (boss (regs 5 3 0 0)) { stopped := true } with chans := [(⟨0, 0, 0⟩, { flight := [(3, .marker .cut)] })] } : State).markerOn r0.rid .cut = true :=
  ⟨⟨⟨rfl, rfl⟩, rfl, rfl, rfl, rfl⟩, by decide⟩
/-- Output 31 declared; s1 is the length of a region to invalidate; the launch's list has two blocks, 1 the last and 2 outside. -/
theorem witness_ArmingInvalidationAndPosting :
    (let x : Ctx := { boss (regs 5 3 0 0) with outMask := 0x80000000 }
     let s := held x { traceCtl := 3 }
     Issues s r0 x ∧ s.res? r0.rid = some { traceCtl := 3 } ∧ x.guard0 al = true ∧ x.outMask.getLsbD 31 = true ∧ x.sup = true ∧ x.gs 0 = 0 ∧ x.gs 1 ≠ 0 ∧
      s.invals = [] ∧ s.accs = [] ∧ (tget s.launches 0).isSome = true ∧ s.owed r0 = [] ∧
      ((tget s.launches 0).map fun l => l.blocks.length) = some 2 ∧ (2 : Nat) ≤ (⟨al, 1, 2⟩ : PostOps).block.toNat ∧ (⟨al, 1, 1⟩ : PostOps).block.toNat < 2) :=
  ⟨⟨rfl, rfl⟩, by decide +kernel⟩

/-! Single steps. The words and the results are those of the spec's examples (chapters 05 and 06), or worked out by hand from the rule named. -/

/-- The issuing context after the word w runs on x. -/
def after (w : Word) (x : Ctx) : Option Ctx :=
  match decode w with
  | .ok i => match exec i (held x {}) with
    | .next t => t.ctx? r0
    | _ => none
  | .error _ => none

/-- One register or field of the issuing context after the word w runs on x. -/
def got (w : Word) (x : Ctx) (f : Ctx → Word) : Option Word := (after w x).map f
/-- The low 64 bits of v4 after the instruction i runs on x. -/
def low4 (i : Instr) (x : Ctx) : Option Word :=
  match exec i (one x) with
  | .next t => (t.ctx? r0).map fun y => (y.gv 4).setWidth 64
  | _ => none
/-- x with v1 to v4 holding those values. -/
def vecs (a b c d : Beat) : Ctx := (((regs 5 3 9 0).sv 1 a).sv 2 b).sv 3 c |>.sv 4 d

/-- R108: 5 + −7 = −2. -/
theorem test_add : got 0x0100000102030000 (regs 0 5 (-7) 0) (·.gs 1) = some 0xFFFFFFFFFFFFFFFE := by decide +kernel
theorem test_add_immediate : got 0x01080102FFFFFFFB (regs 9 5 0 0) (·.gs 1) = some 0 := by decide +kernel
/-- R62: under k1 = 2, whose bit 0 is clear, s1 keeps its value. -/
theorem test_guard_reads_bit_0 : got 0x0118010100000001 ((regs 9 0 0 0).sk 1 2) (·.gs 1) = some 9 := by decide +kernel
theorem test_div_by_zero : got 0x0500000401020000 (regs 7 0 0 0) (·.gs 4) = some 0xFFFFFFFFFFFFFFFF := by decide +kernel
theorem test_div_most_negative : got 0x0500000401020000 (regs 0x8000000000000000 (-1) 0 0) (·.gs 4) = some 0x8000000000000000 := by decide +kernel
/-- R109: the remainder of −7 by −2 is −1. -/
theorem test_rem_immediate : got 0x06080401FFFFFFFE (regs (-7) 0 0 0) (·.gs 4) = some 0xFFFFFFFFFFFFFFFF := by decide +kernel
/-- R108: the count 68 is taken modulo 64, and −100 / 16 goes down to −7. -/
theorem test_sra : got 0x0D08020200000044 (regs 0 (-100) 0 0) (·.gs 2) = some (-7) := by decide +kernel
/-- R108: the high half of (−1) × (−1) is 0 signed, and of (2^64 − 1)^2 it is 2^64 − 2. -/
theorem test_mulh : got 0x0400000301020000 (regs (-1) (-1) 5 0) (·.gs 3) = some 0 := by decide +kernel
theorem test_mulh_natural : got 0x0401000301020000 (regs (-1) (-1) 5 0) (·.gs 3) = some 0xFFFFFFFFFFFFFFFE := by decide +kernel
theorem test_cmp_lt : got 0x110200C102030000 (regs 0 (-1) 0 0) (·.gk 1) = some 0xFFFFFFFFFFFFFFFF := by decide +kernel
/-- R111: k4 is 0, so the second source is taken. -/
theorem test_sel : got 0x120000010203C400 (regs 0 5 6 0) (·.gs 1) = some 6 := by decide +kernel
theorem test_ctz : got 0x1301000102000000 (regs 0 0x80 0 0) (·.gs 1) = some 7 := by decide +kernel
theorem test_ext_i8 : got 0x1400000102000000 (regs 0 0x80 0 0) (·.gs 1) = some 0xFFFFFFFFFFFFFF80 := by decide +kernel
theorem test_bfx : got 0x1500000102030000 (regs 0 0xABCD 0x0804 0) (·.gs 1) = some 0xBC := by decide +kernel
theorem test_bfi : got 0x1600000104030200 (regs 0 0xABCD 0x0804 0x12) (·.gs 1) = some 0xA12D := by decide +kernel
theorem test_lih : got 0x17010300FFFF0000 (regs 0 0 0x12345678 0) (·.gs 3) = some 0xFFFF000012345678 := by decide +kernel
theorem test_kandn : got 0x1A0300C3C1C20000 (((regs 0 0 0 0).sk 1 0xFF).sk 2 0x0F) (·.gk 3) = some 0xF0 := by decide +kernel
theorem test_kfirst_of_none : got 0x1B030001C2000000 (regs 7 0 0 0) (·.gs 1) = some 64 := by decide +kernel
/-- R119: 256 bytes in, 512 long; one byte past the end traps CAP_BOUNDS. -/
theorem test_cnarrow : ((after 0x2000008281020300 (Ctx.caps (regs 0 256 512 0) (cap 0x100000 4096 3 1))).map fun y =>
    ((y.gc 2).base, (y.gc 2).length, (y.gc 2).tag)) = some (0x100100, 512, true) := by decide +kernel
theorem test_cnarrow_traps : got 0x2000008281020300 (Ctx.caps (regs 0 256 3841 0) (cap 0x100000 4096 3 1)) (·.trapCode) = some 4 := by decide +kernel
theorem test_cperm : ((after 0x2100008281040000 (Ctx.caps (regs 0 0 0 1) (cap 0x100000 4096 0x1F 1))).map fun y => (y.gc 2).val.extractLsb' 104 8) = some 1 := by
  decide +kernel
/-- R123: a tagged capability stored through one that lacks S traps CAP_PERM. -/
theorem test_cst_traps : got 0x2400000084008520 (((regs 0 0 0 0).sc 4 (cap 0 32 3 1)).sc 5 (cap 0 32 3 1)) (·.trapCode) = some 5 := by decide +kernel
/-- R124 and R126: the loop at pc 2 starts at 3 with lc0 = 0; lc0 = 4 lies below the limit 5, and 5 does not. -/
theorem test_loop : ((after 0x3000000000008004 { regs 0 0 0 0 with pc := 2, loopMax := 8, lc := #v[9, 7] }).map fun y => (y.pc, y.lc[0], y.lc[1])) = some (3, 0, 7) := by
  decide +kernel
theorem test_lmask : got 0x310005C200000000 { regs 0 0 0 0 with s := (regs 0 0 0 0).s.set 5 5, lc := #v[4, 0] } (·.gk 2) = some 0xFFFFFFFFFFFFFFFF ∧
    got 0x310005C200000000 { regs 0 0 0 0 with s := (regs 0 0 0 0).s.set 5 5, lc := #v[5, 0] } (·.gk 2) = some 0 := by decide +kernel
/-- R127: the firing closes at the entry pc and counts. -/
theorem test_end : ((after 0x3200000000000000 { regs 0 0 0 0 with pc := 9, entry := 4, tripCnt := 2 }).map fun y => (y.pc, y.fireCnt, y.st)) = some (4, 1, .idle) := by decide +kernel
theorem test_end_is_done : ((after 0x3200000000000000 { regs 0 0 0 0 with pc := 9, entry := 4, tripCnt := 1 }).map fun y => y.st) = some .done := by decide +kernel
/-- R129: SOFT with the immediate and the register; the context is frozen at its pc. -/
theorem test_trap : ((after 0x340000040000002A { regs 0 0 0 7 with pc := 3 }).map fun y => (y.trapCode, y.info0, y.info1, y.pc, y.st)) = some (0x0C, 0x2A, 7, 3, .frozen) := by
  decide +kernel
theorem test_brkpt : ((after 0xF400000000000007 (regs 0 0 0 0)).map fun y => (y.trapCode, y.info0)) = some (0x0D, 7) := by decide +kernel
theorem test_smov_flags : got 0xF000000200000002 { regs 0 0 0 0 with flags := 0x11 } (·.gs 2) = some 0x11 := by decide +kernel
theorem test_smov_privileged : got 0xF000000100000200 (regs 0 0 0 0) (·.trapCode) = some 2 := by decide +kernel

/-- R143: (1 + 2^−13)(1 − 2^−13) − 1 = −2^−26 with no flag. -/
theorem test_vfma : ((after 0x43000A4441424300 (vecs 0x3F800400 0x3F7FF800 0xBF800000 0)).map fun y => ((y.gv 4).setWidth 32, y.flags)) = some (0xB2800000#32, 0) := by
  decide +kernel
/-- R143: the product alone rounds to 1.0 and raises NX. -/
theorem test_vmul : ((after 0x42000A4441420000 (vecs 0x3F800400 0x3F7FF800 0 0)).map fun y => ((y.gv 4).setWidth 32, y.flags)) = some (0x3F800000#32, 0x10) := by
  decide +kernel
/-- R144: log2 8 = 3, and log2 of +0 is −∞. -/
theorem test_vlog2 : low4 (.vlog2 ⟨al, .rne, .f32, 4, 1⟩) (vecs 0x41000000 0 0 0) = some 0xFF80000040400000 := by decide +kernel
theorem test_vexp2 : low4 (.vexp2 ⟨al, .rup, .bf16, 4, 1⟩) (vecs 0x3F00 0 0 0) = some 0x3F803F803F803FB6 ∧
    low4 (.vexp2 ⟨al, .rne, .bf16, 4, 1⟩) (vecs 0x3F00 0 0 0) = some 0x3F803F803F803FB5 := by decide +kernel
/-- R144: −1 has no root: NaN with NV; √4 = 2. -/
theorem test_vsqrt : low4 (.vsqrt ⟨al, .rne, .f32, 4, 1⟩) (vecs 0x40800000BF800000 0 0 0) = some 0x400000007FC00000 := by decide +kernel
/-- R45: 1 / 0 = ∞ and 0 / 0 is NaN. -/
theorem test_vdiv : low4 (.vdiv ⟨al, .rne, .f32, 4, 1, .v 2⟩) (vecs 0x3F800000 0 0 0) = some 0x7FC000007F800000 := by decide +kernel
/-- R143: the minimum of i8 stays, and is the maximum with SAT. -/
theorem test_vneg : low4 (.vneg ⟨al, .rne, .i8, false, 4, 1⟩) (vecs 0x0180 0 0 0) = some 0xFF80 ∧
    low4 (.vneg ⟨al, .rne, .i8, true, 4, 1⟩) (vecs 0x0180 0 0 0) = some 0xFF7F := by decide +kernel
/-- R41: bf16 of 1 + 2^−9 up, and to the nearer. -/
theorem test_vcvt_part : low4 (.vcvt ⟨al, .rup, .bf16, .f32, false, 0, 4, 1⟩) (vecs 0x3F804000 0 0 0) = some 0x3F81 ∧
    low4 (.vcvt ⟨al, .rne, .bf16, .f32, false, 0, 4, 1⟩) (vecs 0x3F804000 0 0 0) = some 0x3F80 := by decide +kernel
/-- R43: 500.0 as e4m3 is 448 with SAT and NaN without. -/
theorem test_vcvt_overflow : low4 (.vcvt ⟨al, .rne, .e4m3, .f32, true, 0, 4, 1⟩) (vecs 0x43FA0000 0 0 0) = some 0x7E ∧
    low4 (.vcvt ⟨al, .rne, .e4m3, .f32, false, 0, 4, 1⟩) (vecs 0x43FA0000 0 0 0) = some 0x7F := by decide +kernel
/-- R148, R38. -/
theorem test_vpack : low4 (.vpack ⟨al, .e2m1, 4, 1, some (.v 2)⟩) (vecs 0x030A 0 0 0) = some 0x3A := by decide +kernel
/-- R149: the block whose largest element is 3.0: scale 0x78, elements 0x7C and 0x70. -/
theorem test_vbsc : low4 (.vbsc ⟨al, .rne, .e4m3, false, false, false, 4, 1, 4⟩) (vecs 0x3F804040 0 0 0) = some 0x707C := by decide +kernel
/-- R150: they expand to 3.0 and 1.0 again. -/
theorem test_vbsx : low4 (.vbsx ⟨al, .rne, .e4m3, .bf16, false, 0, 4, 1, 4⟩) { vecs 0x707C 0 0 0 with s := (regs 0 0 0 0x78).s } = some 0x3F804040 := by decide +kernel
/-- R60: size 16 of (1, 2, 0, …) is 3 at even places and −1 at odd ones. -/
theorem test_vhad : low4 (.vhad ⟨al, .rne, .bf16, 1, 4, 1⟩) (vecs 0x40003F80 0 0 0) = some 0xBF804040BF804040 := by decide +kernel
/-- R56: the tree sums (1, 2^24, −2^24, 1) to 1. -/
theorem test_vred_add : got 0x56000A0142000000 (vecs 0 0x3F800000CB8000004B8000003F800000 0 0) (·.gs 1) = some 0x3F800000 := by decide +kernel
/-- R154: −0 lies below +0, and the order is ascending. -/
theorem test_vsort : low4 (.vsort ⟨⟨false, 1⟩, .f32, false, 4, 1⟩) ((vecs 0x8000000000000000 0 0 0).sk 1 3) = some 0x0000000080000000 := by decide +kernel
/-- R51: −1 as SD32 has the one digit d32 = −1. -/
theorem test_vsdc : low4 (.vsdc ⟨al, .i32, false, 4, 1⟩) (vecs 0xFFFFFFFF 0 0 0) = some 3 := by decide +kernel
/-- R52: (1, 0, −1) + (1, 1, 0) = (1, 0, 1, −1). -/
theorem test_vsdadd : low4 (.vsdadd ⟨al, 4, 1, .v 2⟩) (vecs 0x4C00000000000000 0x5000000000000000 0 0) = some 0x4700000000000000 := by decide +kernel
/-- R158: lane 0 is undecided on two digits and lt on three; equal lanes are undecided. -/
theorem test_vsdcmp : ((after 0x5E0013C241420300 { vecs 0x4700000000000000 0x5400000000000000 0 0 with s := (regs 0 0 2 0).s }).map fun y => (y.gk 2, y.gk 3)) = some (0, 0xFF) ∧
    ((after 0x5E0013C241420300 { vecs 0x4700000000000000 0x5400000000000000 0 0 with s := (regs 0 0 3 0).s }).map fun y => (y.gk 2, y.gk 3)) = some (0, 0xFE) := by decide +kernel
/-- R159: −∞, −0, the least subnormal and a quiet NaN. -/
theorem test_vclass : low4 (.vclass ⟨al, .bf16, 4, 1⟩) (vecs 0x7FC000018000FF80 0 0 0) = some 0x0200002000080001 := by decide +kernel
/-- R160. -/
theorem test_vdot : low4 (.vdot ⟨al, .i32, false, 0, 4, 1, .v 2, 4⟩) (vecs 0x0403FE01 0xFF070605 0 100) = some 110 := by decide +kernel


theorem witness_VectorIntegerLanes : Ty.isInt .n64 = true ∧ (⟨al, .rne, .n64, true, false, false, 1, 2, .s 1⟩ : VBinOps).rm = .rne ∧
    Issues (one (regs 5 3 0 0)) r0 (regs 5 3 0 0) := ⟨by decide, rfl, rfl, rfl⟩
theorem witness_VectorFloatLanes : Ty.isFloat .bf16 = true ∧ (⟨al, .rne, .bf16, false, 1, 2⟩ : VUnSOps).rm = .rne ∧
    (unpackF .bf16 (laneA ((regs 0 0 0 0).sv 2 0x7FC0) .bf16 2 0)).isNan = true ∧ (unpackF .bf16 (laneA ((regs 0 0 0 0).sv 2 0x7FC0) .bf16 2 1)).isNan = false ∧
    Issues (one (regs 5 3 0 0)) r0 (regs 5 3 0 0) := ⟨by decide, rfl, by decide +kernel, by decide +kernel, rfl, rfl⟩
/-- A multiple, a tie, and a value on either side of one. -/
theorem witness_RoundingFollowsTheMode : 12 % 2 ^ 2 = 0 ∧ 2 * (6 % 2 ^ 2) = 2 ^ 2 ∧ 2 * (5 % 2 ^ 2) < 2 ^ 2 ∧ 2 ^ 2 < 2 * (7 % 2 ^ 2) ∧
    2 ^ 24 ≤ (7 % 2 ^ 2) * 2 ^ 24 / 2 ^ 2 + 2 ^ 22 := by decide
/-- Bytes and 64-bit lanes, one lane unmasked under k1 = 1 and one masked. -/
theorem witness_VectorComparisonsAndRawBits : (let x := (regs 5 3 0 0).sk 1 1
    Ty.lanes .i8 ≤ 64 ∧ Issues (one x) r0 x ∧ x.laneOn ⟨false, 1⟩ .i8 0 = true ∧ x.laneOn ⟨false, 1⟩ .i8 1 = false ∧ Ty.lanes .n64 ≤ 8) :=
  ⟨by decide, ⟨rfl, rfl⟩, by decide⟩
/-- The last PART of a widening conversion, a block with a NaN and one of zeros, the scale 0xFF. -/
theorem witness_ConversionsAndBlockScaling : (let x := (regs 0xFF 3 0 0).sv 4 0x7FC0
    Issues (one x) r0 x ∧ (⟨al, .e2m1, 1, 2, some (.v 3)⟩ : VPackOps).b = some (.v 3) ∧ (⟨al, .e3m2, 1, 2, none⟩ : VPackOps).b = none ∧
    partSrc .f32 .e4m3 3 0 = some 48 ∧ partSrc .e4m3 .f32 3 0 = none ∧ (x.blockSrc 4 false).any FV.isNan = true ∧
    (x.blockSrc 2 false).any FV.isNan = false ∧ (x.blockSrc 2 false).all (fun v => match v with | .fin _ m _ => m == 0 | _ => false) = true ∧
    (x.gs 1).toNat % 256 = 255 ∧ x.laneOn ⟨false, 1⟩ .e4m3 0 = false) := ⟨⟨rfl, rfl⟩, by decide +kernel⟩
theorem witness_ReduceSortClassifyDot : Ty.isInt .i8 = true ∧ Ty.isFloat .f64 = true ∧ 16 ≤ Ty.width .f16 ∧ Ty.lanes .i32 = 16 ∧
    Issues (one (regs 5 3 0 0)) r0 (regs 5 3 0 0) ∧ (regs 5 3 0 0).laneOn ⟨false, 1⟩ .i8 0 = false := ⟨by decide, by decide, by decide, by decide, ⟨rfl, rfl⟩, by decide⟩
/-- kD at both ends of its range; an element with a bad digit, one without, the truncation of sC at 31 and 32. -/
theorem witness_SignedDigitsAddWithoutCarry : (let x := (regs 31 32 0 0).sv 2 0xE
    Issues (one x) r0 x ∧ 1 ≤ (⟨al, 1, 2, .v 3, 1⟩ : VSdCmpOps).d.val ∧ (⟨al, 6, 2, .v 3, 2⟩ : VSdCmpOps).d.val ≤ 6 ∧ 32 ≤ (x.gs 2).toNat ∧
    (∃ k : Fin 32, (BitVec.ofNat 64 (laneA x .sd 2 0)).getLsbD (2 * k + 1) = true ∧ (BitVec.ofNat 64 (laneA x .sd 2 0)).getLsbD (2 * k) = false) ∧
    (∀ k : Fin 32, ¬ ((BitVec.ofNat 64 (laneA x .sd 2 1)).getLsbD (2 * k + 1) = true ∧ (BitVec.ofNat 64 (laneA x .sd 2 1)).getLsbD (2 * k) = false)) ∧
    x.laneOn al .sd 7 = true ∧ x.laneOn ⟨false, 1⟩ .sd 0 = false) := ⟨⟨rfl, rfl⟩, by decide +kernel⟩

/-- Formats 0x14, SD with a scale of 65, a format that an mrow word of the task does not pair with, and a sound one; outputs 3 with no token left, 4 with one left and a route, 5 with one left and none. -/
def fs (w : Word) (t : Tile) : State :=
  { ctxs := [(r0, { regs w 0 0 0 with inMask := 1, outMask := 0x38, outRate := Vector.replicate 32 1, sent := (Vector.replicate 32 0).set 3 1 })],
    tiles := [(⟨0, 0⟩, t)], elems := [(⟨0, 0⟩, { kind := .tile, routes := [(4, { delem := 0, dvc := 0 })] })], chans := [(⟨0, 0, 0⟩, { en := true, slots := 4 })] }
def fsx (w : Word) : Ctx := { regs w 0 0 0 with inMask := 1, outMask := 0x38, outRate := Vector.replicate 32 1, sent := (Vector.replicate 32 0).set 3 1 }
def mrowI8 : Tile := { imem := [(encode (.mrow ⟨al, .rne, 0, false, 0, 0, none, .i8, 1⟩)).getD 0, (encode .end_).getD 0] }
theorem witness_FormatEntriesAndSend :
    (∀ w ∈ [0x1400#64, 0x41001300, 0x1300, 0x0A00], (fs w {}).cur = r0 ∧ (fs w {}).ctx? r0 = some (fsx w) ∧ (fsx w).guard0 al = true ∧
      (fsx w).inMask.getLsbD 0 = true ∧ (fs w {}).chan? (r0.tile.chan 0) = some { en := true, slots := 4 }) ∧
    0x14 ≤ (((fsx 0x1400).gs 1).extractLsb' 8 5).toNat ∧
    ((fsx 0x41001300).gs 1).extractLsb' 8 5 = Ty.sd.code ∧ 64 < (((fsx 0x41001300).gs 1).extractLsb' 24 8).toInt ∧
    ¬ 64 < (((fsx 0x40001300).gs 1).extractLsb' 24 8).toInt ∧
    ((fs 0x0A00 mrowI8).words r0 (fsx 0x0A00)).any (unpaired 0 0x0A) = true ∧ ((fs 0x0A00 {}).words r0 (fsx 0x0A00)).any (unpaired 0 0x0A) = false ∧
    (∀ n ∈ [3, 4, 5], (fsx 0).outMask.getLsbD n = true) ∧ (fsx 0).outRate.get 3 < (fsx 0).sent.get 3 + 1 ∧ (fsx 0).sent.get 4 + 1 ≤ (fsx 0).outRate.get 4 ∧
    (fs 0 {}).route? r0.tile 4 = some ⟨0, 0, 0⟩ ∧ (fs 0 {}).route? r0.tile 5 = none ∧ (fsx 0).armed = none :=
  ⟨by intro w _; exact ⟨rfl, rfl, by show (BitVec.allOnes 64).getLsbD 0 = true; decide, by show (1#32).getLsbD 0 = true; decide, rfl⟩, by decide +kernel⟩

/-- What a table finds, it holds. -/
theorem tget_mem {κ α : Type} [DecidableEq κ] {t : Tbl κ α} {k : κ} {a : α} (h : tget t k = some a) : (k, a) ∈ t := by
  induction t with
  | nil => simp [tget] at h
  | cons p t ih =>
    obtain ⟨q, b⟩ := p
    unfold tget at h
    split at h
    · next e => cases h; subst e; simp
    · exact List.mem_cons_of_mem _ (ih h)

/-- The canonical form of a state from a check that runs. -/
theorem canonical_of_all {s : State} (h : (s.gddr.wf && s.bulk.wf && s.host.wf && s.elems.all fun p => p.2.store.wf) = true) : MemoryCanonical s := by
  simp only [Bool.and_eq_true, List.all_eq_true] at h
  exact ⟨h.1.1.1, h.1.1.2, h.1.2, fun e el he => h.2 (e, el) (tget_mem he)⟩

/-- A tile with channels 0 (its head correct), 1 (not to be corrected) and windows 0 to 3: C = 4, F = 2 of 8-byte elements, correct and not; FROZEN; 256 4-byte counters. -/
def ws (x : Ctx) : State :=
  { ctxs := [(r0, x)], tiles := [(⟨0, 0⟩, {})],
    elems := [(⟨0, 0⟩, { kind := .tile, routes := [(2, { delem := 0, dvc := 0 })], store := [(0, 5), (8, 7)], tags := [2], bad := [3] })],
    chans := [(⟨0, 0, 0⟩, { en := true, slots := 4, fmt := 0x0A, items := [{ beat := 3 }] }), (⟨0, 0, 1⟩, { en := true, slots := 4, items := [{ fault := some .ecc }] })],
    wins := [(⟨0, 0, 0⟩, { base := 0, esz := 3, cap := 4, fill := 2 }), (⟨0, 0, 1⟩, { base := 0, esz := 3, cap := 4, head := 3, fill := 2 }),
      (⟨0, 0, 2⟩, { base := 0, esz := 3, cap := 4, fill := 4, frozen := true }), (⟨0, 0, 3⟩, { base := 0x400, esz := 2, cap := 512, fill := 256 }),
      (⟨0, 0, 4⟩, { base := 0, esz := 3, cap := 4, fill := 2, busy := some 1 })] }
/-- A context that declares channels 0 and 1 with one beat each, and output 2. -/
def wx (a : Word) : Ctx := { regs a 1 2 0x40000 with inMask := 3, outMask := 4, inRate := (Vector.replicate 32 0).set 0 1 |>.set 1 1, outRate := Vector.replicate 32 1 }

/-- One beat left of the count, and none; a beat with data and one without; the format of the source and another. -/
theorem witness_ChannelWordsTakeBeats :
    (let x := wx 0; let s := ws x
     Issues s r0 x ∧ x.guard0 al = true ∧ x.inMask.getLsbD 0 = true ∧ x.inMask.getLsbD 1 = true ∧ x.received.get 0 + 1 ≤ x.inRate.get 0 ∧
      x.received.get 0 + 0 + 1 ≤ x.inRate.get 0 ∧ x.inRate.get 0 < x.received.get 0 + 1 + 1 ∧
      (s.chan? (r0.tile.chan 0)).map (·.items) = some [{ beat := 3 }] ∧ (s.chan? (r0.tile.chan 1)).map (·.items) = some [{ fault := some .ecc }] ∧
      (s.chan? (r0.tile.chan 0)).map (·.fmt) = some Ty.f32.code ∧ Ty.i32.code ≠ Ty.f32.code) ∧
    (let x := { wx 0 with received := Vector.replicate 32 1 }
     Issues (ws x) r0 x ∧ x.inRate.get 0 < x.received.get 0 + 1) :=
  ⟨⟨⟨rfl, rfl⟩, by decide +kernel⟩, ⟨rfl, rfl⟩, by decide +kernel⟩

/-- A fill of exactly the space left and one beyond it; a read up to the last visible element and one past it; elements that are correct and not; a frozen window; the counters. -/
theorem witness_WindowWordsAndHistograms : (let x := wx 0; let s := ws x
    Issues s r0 x ∧ MemoryCanonical s ∧ x.guard0 al = true ∧
    (∀ n ∈ [0, 1, 2, 3], ∃ w, s.win? (r0.tile.win n) = some w ∧ w.cap ≠ 0 ∧ w.fill.toNat ≤ w.cap.toNat) ∧ (s.elem? r0.tile).isSome = true ∧
    (∃ w, s.win? (r0.tile.win 0) = some w ∧ sizeOk w (eszBytes 4) (.v 1) = true ∧ sizeOk w (eszBytes 5) (.v 1) = true ∧ w.frozen = false ∧
      16 / w.size + w.shrinkNow ≤ w.cap.toNat - w.fill.toNat ∧ w.cap.toNat - w.fill.toNat < 64 / w.size + w.shrinkNow ∧
      0 + 16 / w.size ≤ w.fill.toNat - (w.fillNow + w.fillPrev) ∧ w.fill.toNat - (w.fillNow + w.fillPrev) < 1 + 16 / w.size ∧
      s.winBad (r0.tile.win 0) w 0 2 = false ∧ 2 ≤ w.fill.toNat ∧ w.fill.toNat < 3) ∧
    (∃ w, s.win? (r0.tile.win 1) = some w ∧ w.frozen = false ∧ s.winBad (r0.tile.win 1) w 0 1 = true) ∧
    (∃ w, s.win? (r0.tile.win 2) = some w ∧ w.frozen = true) ∧
    (∃ w, s.win? (r0.tile.win 3) = some w ∧ w.size = 4 ∧ 256 ≤ w.cap.toNat ∧ w.frozen = false ∧
      (x.gs 1).toNat % 2 ^ 16 + 256 ≤ w.fill.toNat - (w.fillNow + w.fillPrev) ∧ w.fill.toNat - (w.fillNow + w.fillPrev) < (x.gs 2).toNat % 2 ^ 16 + 256 ∧
      s.winBad (r0.tile.win 3) w 0 256 = false)) := by
  refine ⟨⟨rfl, rfl⟩, canonical_of_all (by decide +kernel), by decide, ?_, by decide +kernel, ?_, ?_, ?_, ?_⟩
  · intro n hn; revert n; simp only [List.forall_mem_cons]
    refine ⟨?_, ?_, ?_, ?_, nofun⟩ <;> exact ⟨_, rfl, by decide, by decide⟩
  all_goals exact ⟨_, rfl, by decide +kernel⟩

/-- An access of context 0 at system level 1 of 3. -/
def anAcc (id level : Nat) : Acc :=
  { id := id, issuer := .ctx r0, rid := 0, port := ⟨0, 0⟩, colour := 0, write := true, space := 1, asid := 1, va := 0, len := 8, level := level, purpose := .store, due := 0 }
/-- Barrier 0 unused, 1 with two arrivals to come, 2 with one; AWARR clear and set; nothing owed and one write owed; an arrival that is due. -/
def bs (x : Ctx) (l : List Acc) : State :=
  { ctxs := [(r0, x)], tiles := [(⟨0, 0⟩, {})], accs := l, bars := [(⟨0, 0, 1⟩, { init := 2, pending := 2 }), (⟨0, 0, 2⟩, { init := 2, pending := 1, phase := true })],
    arg := .elem ⟨0, 0⟩, remotes := [(⟨0, 0⟩, { due := 0, src := 0, bar := 1, rel := true })] }
theorem witness_BarrierArrivalsAndPhases :
    (let x := regs 0 1 0 0; let s := bs x []
     Issues s r0 x ∧ x.guard0 al = true ∧ Paid s r0 (fun _ => true) 2 ∧ s.deferred = [] ∧ x.awarr = false ∧ (s.bar ⟨0, 0, 0⟩).init = 0 ∧
      (s.bar ⟨0, 0, 1⟩).init ≠ 0 ∧ 1 < (s.bar ⟨0, 0, 1⟩).pending.toNat ∧ (s.bar ⟨0, 0, 2⟩).init ≠ 0 ∧ (s.bar ⟨0, 0, 2⟩).pending.toNat ≤ 1 ∧
      (s.bar ⟨0, 0, 1⟩).phase = (x.gs 1).getLsbD 0 ∧ (s.bar ⟨0, 0, 1⟩).phase ≠ (x.gs 2).getLsbD 0 ∧
      (s.tile? ⟨0, (⟨al, false, 1, 0⟩ : BarRemoteOps).target.toNat⟩).isSome = true ∧ s.arg = .elem ⟨0, 0⟩ ∧
      (s.remotes.filter fun p => p.1 = ⟨0, 0⟩ ∧ p.2.due ≤ s.cycle).length = 1 ∧ (∀ p ∈ s.remotes, p.2.token = none) ∧ s.owesArrival ⟨0, 0⟩ = false) ∧
    (let x := regs 0 1 0 0; let s := bs x [anAcc 5 1]
     Issues s r0 x ∧ ¬ Paid s r0 (fun _ => true) 2 ∧ s.deferred = []) ∧
    (let x : Ctx := { regs 0 1 0 0 with awarr := true, awPhase := true }; let s := bs x []
     Issues s r0 x ∧ x.awarr = true ∧ (s.bar ⟨0, 0, 1⟩).phase ≠ x.awPhase ∧ (s.bar ⟨0, 0, 2⟩).phase = x.awPhase) := by
  refine ⟨⟨⟨rfl, rfl⟩, by decide, ?_, by decide +kernel⟩, ⟨⟨rfl, rfl⟩, ?_, rfl⟩, ⟨rfl, rfl⟩, by decide +kernel⟩
  · unfold Paid; decide +kernel
  · unfold Paid; decide +kernel

/-- Each check of R118 and R191 failing in turn, the last access that fits, and capabilities for cld and cst. -/
theorem witness_LoadsWaitAndStoresIssue : (let x := regs 8 64 9 0; Issues (one x) r0 x ∧ x.guard0 al = true ∧ (x.gc 1).tag = false ∧
      (x.gs 1).toNat = 8 ∧ (x.gs 2).toNat = 64 ∧ (x.gs 3).toNat = 9) ∧
    CapAllows (cap 0x10000 16 3 1) [1, 2, 3, 4] 0 8 8 8 ∧ CapAllows (cap 0x10000 16 3 4) [1, 2, 3, 4] 1 8 8 8 ∧
    ((cap 0 16 3 6).tag = true ∧ 5 < (cap 0 16 3 6).space) ∧ ((cap 0 16 3 5).space ≤ 5 ∧ (cap 0 16 3 5).has 7 = false ∧ (cap 0 16 3 5).space ∉ [1, 2, 3, 4]) ∧
    ((cap 0 16 2 1).space ∈ [1, 2, 3, 4] ∧ (cap 0 16 2 1).has 0 = false) ∧ ((cap 0 16 3 1).has 0 = true ∧ (cap 0 16 3 1).length < 9 + 8) ∧
    ((cap 1 16 3 1).has 0 = true ∧ 8 + 8 ≤ (cap 1 16 3 1).length ∧ (cap 1 16 3 1).base + 8 + 8 ≤ 2 ^ 57 ∧ ((cap 1 16 3 1).base + 8) % 8 ≠ 0) ∧
    CapAllows (cap 0x10000 80 0x23 1) [1] 0 64 16 16 ∧ (cap 0x10000 80 0x23 1).has 5 = true ∧ (cap 0x10000 80 0x23 1).has 6 = false ∧
    CapAllows (cap 0x10000 80 0x43 1) [1] 1 64 16 16 ∧ (cap 0x10000 80 0x43 1).has 6 = true ∧ (cap 0x10000 80 0x43 1).has 5 = false := by
  unfold CapAllows
  refine ⟨⟨⟨rfl, rfl⟩, by decide⟩, ?_⟩
  iterate 10 refine ⟨by decide, ?_⟩
  decide

/-- One beat to write and one too many; an enabled target and one that is not; a window that is configured and one that is not. -/
theorem witness_BeatsStreamAndRequests : (let x := wx 0; let s := ws x
    Issues s r0 x ∧ x.guard0 al = true ∧ x.inMask.getLsbD 0 = true ∧ (x.gs 2).toNat ≠ 0 ∧ x.received.get 0 + (x.gs 2).toNat ≤ x.inRate.get 0 ∧
    x.inRate.get 0 < x.received.get 0 + (x.gs 3).toNat ∧ (x.gs 0).toNat = 0 ∧ (s.chan? (r0.tile.chan 0)).isSome = true ∧
    ((s.chan? (r0.tile.chan 0)).map fun c => c.items.map (·.fault)) = some [none] ∧
    CapAllows (cap 0x10000 64 3 1) [1, 2, 3, 4] 1 0 (64 * 1) 64 ∧ CapAllows (cap 0x10000 1024 3 1) [1, 2, 3, 4] 0 0 (64 * ((15 : Fin 16).val + 1)) 64 ∧
    ((s.chan? ⟨0, (x.gs 1).toNat % 2 ^ 16, (x.gs 1).toNat / 2 ^ 16 % 2 ^ 5⟩).map (·.en)) = some true ∧
    s.chan? ⟨0, (x.gs 4).toNat % 2 ^ 16, (x.gs 4).toNat / 2 ^ 16 % 2 ^ 5⟩ = none ∧
    ((s.win? ⟨0, (x.gs 0).toNat % 2 ^ 16, (x.gs 0).toNat / 2 ^ 16 % 2 ^ 6⟩).map fun d => decide (d.cap ≠ 0)) = some true ∧
    s.win? ⟨0, (x.gs 2).toNat % 2 ^ 16, (x.gs 2).toNat / 2 ^ 16 % 2 ^ 6⟩ = none) := by
  unfold CapAllows; exact ⟨⟨rfl, rfl⟩, by decide +kernel⟩

/-- A fence that owes nothing and one that owes a write; a route for the token; a window that can be saved, its record of 32 bytes within the capability, one with an element not to be corrected, and one that another wsave holds. -/
theorem witness_FencesTokensAndSaves : (let x := wx 0; let s := ws x; let c := cap 0x10000 32 3 2
    Issues s r0 x ∧ x.guard0 al = true ∧ Paid s r0 (fun _ => true) 3 ∧ x.outMask.getLsbD 2 = true ∧ s.deferred = [] ∧
    s.route? r0.tile 2 = some ⟨0, 0, 0⟩ ∧ ((s.chan? ⟨0, 0, 0⟩).map (·.held)) = some [] ∧
    (∃ w e, WindowIs s r0 0 w ∧ s.elem? r0.tile = some e ∧ w.busy = none ∧ CapAllows c [1, 2] 1 (x.gs 1).toNat (16 + w.fill.toNat * w.size) 16 ∧
      CapAllows c [1, 2] 0 (x.gs 1).toNat 16 16 ∧ s.winBad (r0.tile.win 0) w 0 w.fill.toNat = false) ∧
    (∃ w, WindowIs s r0 1 w ∧ w.busy = none ∧ CapAllows c [1, 2] 1 (x.gs 1).toNat (16 + w.fill.toNat * w.size) 16 ∧
      s.winBad (r0.tile.win 1) w 0 w.fill.toNat = true) ∧
    (∃ w, WindowIs s r0 4 w ∧ w.busy.isSome = true)) ∧
    (let x := wx 0; let s : State := { ws x with accs := [anAcc 5 1] }; Issues s r0 x ∧ ¬ Paid s r0 (fun c => (1 : Byte).getLsbD c) 2 ∧
      Paid s r0 (fun c => (1 : Byte).getLsbD c) 1 ∧ Paid s r0 (fun c => (0 : Byte).getLsbD c) 3) := by
  unfold Paid WindowIs CapAllows
  refine ⟨⟨⟨rfl, rfl⟩, by decide, by decide +kernel, by decide, rfl, by decide +kernel, by decide +kernel, ⟨_, _, ⟨rfl, by decide⟩, rfl, by decide +kernel⟩,
    ⟨_, ⟨rfl, by decide⟩, by decide +kernel⟩, ⟨_, ⟨rfl, by decide⟩, by decide⟩⟩, ⟨rfl, rfl⟩, by decide +kernel⟩

/-- R25: offset 14 lies at store byte 1,124. -/
theorem test_window_offset : ({ base := 34, esz := 2, cap := 100, head := 95 } : Window).offAt 14 = 1124 := by decide
/-- R14: port 12 sits at (13, 0) and port 31 at (16, 17). -/
theorem test_port_sites : portSite 12 = (13, 0) ∧ portSite 31 = (16, 17) := by decide
/-- R185: the oldest beat of channel 0 goes to v4 and counts as received. -/
theorem test_recv : (match exec (.recv ⟨al, 0, .v 4⟩) (ws (wx 0)) with
    | .next t => (t.ctx? r0).map fun y => ((y.gv 4).setWidth 8, y.received.get 0)
    | _ => none) = some (3, 1) := by decide +kernel
/-- R185: beyond the declared count it traps RATE. -/
theorem test_recv_beyond_count : (match exec (.recv ⟨al, 0, .v 4⟩) (ws { wx 0 with received := (Vector.replicate 32 0).set 0 1 }) with
    | .next t => (t.ctx? r0).map (·.trapCode)
    | _ => none) = some 0x0A := by decide +kernel
/-- R180: element 1 of window 1 lies in slot (3 + 1) mod 4 = 0. -/
theorem test_wread_wraps : (match exec (.wread ⟨al, 1, 3, .s 4, 0, 1⟩) (ws (wx 0)) with
    | .next t => (t.ctx? r0).map fun y => y.gs 4
    | _ => none) = some 5 := by decide +kernel


/-- Bank 0 bound to context 0 with a mask waiting; window 0 of sixteen 64-byte elements, all visible, window 1 frozen, window 2 with one element uncorrected; channel 0 in bf16 and channel 1 of scales. -/
def ms (x : Ctx) (b : Bank) (l : List RowFire) : State :=
  { ctxs := [(r0, x)], tiles := [(⟨0, 0⟩, { accBind := 8, rows := l })], banks := [(⟨0, 0, 0⟩, b)],
    elems := [(⟨0, 0⟩, { kind := .tile, bad := [512], routes := [(2, { delem := 0, dvc := 0 })] })],
    wins := [(⟨0, 0, 0⟩, { esz := 5, cap := 64, fill := 63 }), (⟨0, 0, 1⟩, { esz := 5, cap := 64, fill := 32, frozen := true })],
    chans := [(⟨0, 0, 0⟩, { en := true, slots := 4, fmt := 0x09, items := [{ beat := 3 }] }), (⟨0, 0, 1⟩, { en := true, slots := 4, fmt := 0x12, items := [{ beat := 0x7F }] })] }
def fire0 : RowFire := { ctx := 0, bank := 0, row := 63, rm := .rne, zf := false, sparse := false, aty := .bf16, bty := .bf16, scale := 0x7F, a := [0] }
def win0 : Window := { esz := 5, cap := 64, fill := 63 }
def win1 : Window := { esz := 5, cap := 64, fill := 32, frozen := true }

/-- Sixteen elements that stand, at the end of those visible, and elements that do not; one row at room's end and two too many; a bank whose swap is due, with and without a firing that waits. -/
theorem witness_MatrixOperandsLoadAndMove : (let x := boss (wx 0); let s := ms x { swap := some 0xFFFF } []
    Issues s r0 x ∧ x.guard0 al = true ∧ BankIs s r0 0 { swap := some 0xFFFF } ∧ Standing s r0 0 win0 32 16 ∧ Standing s r0 0 win0 62 1 ∧
    NotYet s r0 0 win0 48 16 ∧ NotYet s r0 1 win1 0 1 ∧ MemoryCanonical s ∧ win0.fill.toNat ≤ win0.cap.toNat ∧
    1 + win0.shrinkNow ≤ win0.cap.toNat - win0.fill.toNat ∧ win0.cap.toNat - win0.fill.toNat < 2 + win0.shrinkNow ∧
    (63 : Fin 64).val + (1 : Fin 128).val ≤ 64 ∧ x.sup = true ∧ (s.tile? r0.tile).isSome = true) ∧
    (let s : State := { ms (wx 0) { swap := some 1 } [] with arg := .bank ⟨0, 0, 0⟩ }
     s.arg = .bank ⟨0, 0, 0⟩ ∧ s.bank? ⟨0, 0, 0⟩ = some { swap := some 1 } ∧ ∀ tl, s.tile? ⟨0, 0⟩ = some tl → ∀ f ∈ tl.rows, f.bank ≠ 0) ∧
    (let s : State := { ms (wx 0) { swap := some 1 } [fire0] with arg := .bank ⟨0, 0, 0⟩ }
     ∃ tl f, s.tile? ⟨0, 0⟩ = some tl ∧ f ∈ tl.rows ∧ f.bank = 0) := by
  unfold BankIs Standing NotYet WindowIs
  refine ⟨⟨⟨rfl, rfl⟩, by decide, ⟨rfl, _, rfl, by decide⟩, by decide +kernel, by decide +kernel, by decide +kernel, by decide +kernel,
    canonical_of_all (by decide +kernel), by decide +kernel⟩, ⟨rfl, rfl, ?_⟩, _, fire0, rfl, List.Mem.head _, rfl⟩
  intro tl h; cases h; decide

/-- Channel 0 with a beat left and none, scales from a channel and from the bank, elements standing and not, an output within its count and beyond it, a waiting firing on the last row. -/
theorem witness_MatrixRowsFireAndLeave : (let x := wx 0; let s := ms x {} []
    Issues s r0 x ∧ x.guard0 al = true ∧ BankIs s r0 0 {} ∧ (63 : Fin 64).val + (1 : Fin 128).val ≤ 64 ∧ x.inMask.getLsbD 0 = true ∧
    Ty.ofCode 0x09 = some .bf16 ∧ comboOk .bf16 .bf16 = true ∧ x.received.get 0 + 1 ≤ x.inRate.get 0 ∧ x.inRate.get 0 < x.received.get 0 + 2 ∧
    ScalesFrom s r0 x none 0x7F x (fun _ => 0x7F) ∧ (∃ y, ScalesFrom s r0 x (some 1) 0x7F y (fun j => byteNo (BitVec.toNat (0x7F : Beat)) j)) ∧
    ((s.chan? (r0.tile.chan 0)).map fun c => (c.fmt, c.items.map (·.fault))) = some (0x09, [none]) ∧
    Standing s r0 0 win0 60 3 ∧ NotYet s r0 0 win0 61 3 ∧ x.outMask.getLsbD 2 = true ∧ otyOk false .f32 = true ∧
    x.sent.get 2 + 1 ≤ x.outRate.get 2 ∧ x.outRate.get 2 < x.sent.get 2 + 2 ∧ s.route? r0.tile 2 = some ⟨0, 0, 0⟩ ∧ x.tsamp = none ∧ x.armed = none) ∧
    (let s : State := { ms (wx 0) {} [fire0] with arg := .elem ⟨0, 0⟩ }
     s.arg = .elem ⟨0, 0⟩ ∧ s.tile? ⟨0, 0⟩ = some { accBind := 8, rows := [fire0] } ∧ s.rowGrant ⟨0, 0⟩ { accBind := 8, rows := [fire0] } = some 0 ∧
      [fire0].find? (fun g => g.ctx == 0) = some fire0 ∧ s.bank? ⟨0, 0, fire0.bank⟩ = some {} ∧ fire0.row < 64 ∧
      ({} : Bank).mask.getLsbD 15 = true) ∧
    (∃ tl, (ms (wx 0) {} []).tile? ⟨0, 0⟩ = some tl ∧ tl.rows = []) := by
  unfold BankIs Standing NotYet WindowIs ScalesFrom
  refine ⟨⟨⟨rfl, rfl⟩, by decide, ⟨rfl, _, rfl, by decide⟩, by decide, by decide, by decide, by decide, by decide, by decide,
    ⟨fun _ => ⟨rfl, fun _ => rfl⟩, nofun⟩, ⟨{ wx 0 with received := (wx 0).received.set 1 1 }, nofun, ?_⟩, by decide +kernel⟩, by decide +kernel, _, rfl, rfl⟩
  intro vc h; cases h
  exact ⟨by decide, by decide, _, _, _, rfl, by decide, rfl, rfl, rfl, fun _ => rfl⟩

/-- A tile with island handle 5 (port 2), a window of one mask element, and an enabled channel 0. -/
def es (x : Ctx) : State :=
  { ctxs := [(r0, x)], tiles := [(⟨0, 0⟩, {})], ress := [(0, { islands := [(5, 2)] })],
    elems := [(⟨0, 0⟩, { kind := .tile, store := [(0, 1)] })], chans := [(⟨0, 0, 0⟩, { en := true, slots := 4 })],
    wins := [(⟨0, 0, 0⟩, { esz := 0, cap := 4, fill := 2 })] }
/-- s10 to s14: source, destination, and the words that follow. -/
def ex (a b c d e : Word) : Ctx := ((((((regs 0 0x40000 64 8).ss 10 a).ss 11 b).ss 12 c).ss 13 d).ss 14 e)

theorem witness_EngineWordsAreOffered :
    (let x := ex 0 0 0x80001 0x80C 0; let s := es x
     Issues s r0 x ∧ x.guard0 al = true ∧ s.islandPort r0.tile 5 = some ⟨0, 2⟩ ∧ (x.gc 1).tag = false ∧ (boss x).sup = true ∧
      s.chan? (replyTarget r0.rid (x.gs 1)) = some { en := true, slots := 4 } ∧ s.chan? (replyTarget r0.rid (x.gs 2)) = none ∧
      WindowIs s r0 0 { esz := 0, cap := 4, fill := 2 } ∧ s.elem? r0.tile = some { kind := .tile, store := [(0, 1)] } ∧
      (x.gsAt 10 2).toNat % 2 ^ 16 ≠ 0 ∧ (x.gsAt 10 2).toNat / 2 ^ 16 % 2 ^ 24 = 8 ∧ s.winBad (r0.tile.win 0) { esz := 0, cap := 4, fill := 2 } 0 1 = false) ∧
    (cap 0x10000 64 3 1).tag = true ∧ (cap 0x10000 64 0x13 3).has 4 = true ∧
    CapAllows (cap 0x10000 64 3 1) [1, 2] 0 0 64 1 ∧ CapAllows (cap 0x10000 64 3 1) [1, 2] 1 0 64 1 ∧
    CapAllows (cap 0x10000 64 3 4) [1, 2, 3, 4] 0 16 48 1 ∧ (16 % 16 = 0 ∧ 48 % 16 = 0 ∧ 64 % 64 = 0) ∧
    (∃ q, quantCfg 0x100000040 0x80C = some q ∧ CapAllows (cap 0x10000 256 3 1) [1, 2] 0 0 (q.rows * q.cols * q.size) 1 ∧
      CapAllows (cap 0x10000 256 3 1) [1, 2] 1 0 q.destBytes 1) ∧
    CapAllows (cap 0x10000 64 7 1) [1, 2] 2 56 8 8 ∧ CapAllows (cap 0x10000 64 7 1) [1, 2] 2 48 16 16 ∧ CapAllows (cap 0x10000 64 7 1) [1, 2] 2 60 4 4 ∧
    (let x := ex 0 0 0x0000100001 0x80C 0; let s := es x
     (x.gsAt 10 2).toNat % 2 ^ 16 = 1 ∧ (x.gsAt 10 2).toNat / 2 ^ 16 % 2 ^ 24 % 16 = 0 ∧ (x.gsAt 10 2).toNat / 2 ^ 16 % 2 ^ 24 ≠ 0 ∧
      [storeByte s r0.tile 0].length = (1 + 7) / 8) := by
  unfold WindowIs CapAllows
  refine ⟨⟨⟨rfl, rfl⟩, by decide +kernel⟩, by decide, by decide, by decide, by decide, by decide, by decide,
    ⟨_, rfl, by decide +kernel, by decide +kernel⟩, by decide, by decide, by decide, by decide +kernel⟩

/-- A copy of context 0, numbered 7, offered; its next state of life; an access of it. -/
def cp : CpyOps := ⟨al, 5, 9, 1, .c 2, 10, 0, false⟩
def cpCmd (d : Word) (ph : CPhase) : Cmd := { id := 7, r := r0, port := ⟨0, 2⟩, isl := 5, ins := .cpy cp, w := [0, 0, 64, d], phase := ph }
def waits (w : Wait) (i : Instr) : Ctx := { regs 0 0 0 0 with st := .wait, wait := some w, waitIns := some i }
def cs (x : Ctx) (c : List Cmd) (l : List Acc) (a : StepArg) : State := { ctxs := [(r0, x)], tiles := [(⟨0, 0⟩, {})], elems := [(⟨0, 0⟩, { kind := .tile })], cmds := c, accs := l, arg := a }
/-- The last 8 bytes of a channel's store of main memory, and the first that no device holds. -/
def accAt (w : Bool) (lvl addr : Nat) (p : Purpose) : Acc :=
  { id := 3, issuer := .ctx r0, rid := 0, port := ⟨0, 0⟩, colour := 0, write := w, space := 1, asid := 1, va := 0, len := 8, data := if w then List.replicate 8 1 else [],
    place := .phys false addr, level := lvl, purpose := p, due := 0 }
def ptakeW : PTakeOps := ⟨al, 5, 9, 1, 2, 1, false⟩
def aaddW : AtOps := ⟨al, 5, 1, 2, 3, 0, false, 7⟩
def aaddCmd : Cmd := { id := 7, r := r0, port := ⟨0, 2⟩, isl := 5, ins := .aadd aaddW, w := [0, 0], bytes := bytesLE 32 5, phase := .running }

theorem witness_CommandsAndAccessesFinish :
    -- an offered copy whose completion register asks for nothing, and one that names an element that is not there
    (let s := cs (waits (.accept 7) (.cpy cp)) [cpCmd 0 .offered] [] (.id 7)
     s.cmd? 7 = some (cpCmd 0 .offered) ∧ s.ctx? r0 = some (waits (.accept 7) (.cpy cp)) ∧ (cpCmd 0 .offered).winDst = none ∧
      s.compOk 0 ((cpCmd 0 .offered).w.getD 3 0) = true ∧ s.compOk 0 ((cpCmd 0x20000001 .offered).w.getD 3 0) = false ∧ cp.d ≠ 0) ∧
    -- a take's reply and a query's
    (let c : Cmd := { cpCmd 0 .replied with ins := .ptake ptakeW, status := some 0, bytes := bytesLE 8 1 ++ bytesLE 8 2 }
     let s := cs (waits (.reply 7) (.ptake ptakeW)) [c] [] (.id 7)
     s.cmd? 7 = some c ∧ c.status = some 0 ∧ s.ctx? r0 = some (waits (.reply 7) (.ptake ptakeW)) ∧ (0 : Word).toNat % 256 < 0x10) ∧
    -- a copy whose one unit is written
    (let c : Cmd := { cpCmd 0 .running with wr := 1 }
     let s := cs (regs 0 0 0 0) [c] [] (.id 7)
     s.cmd? 7 = some c ∧ c.wr = c.units ∧ c.stage ≠ 9 ∧ c.after = [] ∧ (compReg (c.w.getD 3 0)).eot = false ∧ (compReg (c.w.getD 3 0)).arr = false ∧
      (compReg 0x20000000).arr = true) ∧
    -- a write at each level, one that may not rise, one where no device stands
    (let s := cs (regs 0 0 0 0) [] [accAt true 1 (4064 * 2 ^ 20 - 8) .store] (.access 3 .device)
     s.canRise (accAt true 1 (4064 * 2 ^ 20 - 8) .store) 2 = true ∧ s.canRise (accAt true 1 0 .store) 3 = false ∧
      (accAt true 1 (4064 * 2 ^ 20 - 8) .store).place.ok 8 = true ∧ (accAt true 1 (4064 * 2 ^ 20 - 7) .store).place.ok 8 = false ∧ MemoryCanonical s ∧ NothingWaits s ∧
      TheAccess s 3 (accAt true 1 (4064 * 2 ^ 20 - 8) .store)) ∧
    (cs (regs 0 0 0 0) [] [accAt true 0 0 .store] .none).canRise (accAt true 0 0 .store) 1 = true ∧
    (cs (regs 0 0 0 0) [] [accAt true 2 0 .store] .none).canRise (accAt true 2 0 .store) 3 = true ∧
    -- a read's data
    (let x := waits (.load 3) (.mld ⟨al, 1, 0, false, 3, .s 4, 0, 0⟩); let a := accAt false 0 0 .load; let s := cs x [] [a] (.access 3 .region)
     TheAccess s 3 a ∧ s.canRise a 1 = true ∧ a.place.ok 8 = true ∧ OneWaits s r0 x (.load 3) ∧ (s.badMem.any fun u => 0 < 8 * u + 8 && 8 * u < 0 + 8) = false) ∧
    -- the last write of a wsave
    (let x := waits (.save [3] false) (.wsave ⟨al, 0, 0, 1, 2, false⟩)
     let s : State := { cs x [] [accAt true 1 0 .store] (.access 3 .device) with wins := [(⟨0, 0, 0⟩, { esz := 3, cap := 4, frozen := true, busy := some 0 })] }
     OneWaits s r0 x (.save [3] false) ∧ s.canRise (accAt true 1 0 .store) 2 = true ∧ (s.win? (r0.tile.win 0)).isSome = true ∧ (∀ j ∈ [3], j ≠ 3 → s.doneAt j 2 = true)) ∧
    -- an atomic that may be applied
    (let a := { accAt true 0 0 (.atomic 7) with atomic := true, issuer := .cmd r0 7 }; let s := cs (regs 0 0 0 0) [aaddCmd] [a] (.id 7)
     s.cmd? 7 = some aaddCmd ∧ s.accs.find? (fun b => b.purpose == .atomic 7 && b.level = 0) = some a ∧ s.canApply aaddCmd a = true ∧
      a.place.ok a.len = true ∧ NothingWaits s ∧ typBytes aaddW.typ = a.len ∧ (4 : Fin 8) ≤ aaddW.typ) := by
  unfold OneWaits NothingWaits TheAccess
  refine ⟨by decide +kernel, by decide +kernel, by decide +kernel, ⟨by decide +kernel, by decide +kernel, by decide, by decide, canonical_of_all (by decide), ?_, ?_⟩,
    by decide +kernel, by decide +kernel, ⟨?_, by decide +kernel, by decide, ?_, by decide⟩, ⟨?_, by decide +kernel, rfl, by decide +kernel⟩,
    by decide +kernel, by decide +kernel, by decide +kernel, by decide, ?_, by decide, by decide⟩
  all_goals simp [cs, accAt, regs, waits, r0, State.ctx?, tget]

/-- A block of one posting of gap 0 in fields of one bit, with its check sum of R317, after document 4. -/
def ck (st : ChunkSt) : Chunk := { term := 0, block := 0, first := 5, last := 5, bmax := 3, off := 0, prev := 4, hdr := some (bytesLE 16 (1 + 2 ^ 8 + 2 ^ 80 + 0x527D5351 * 2 ^ 96)), st := st }
def q0 : QueryRef := ⟨0, 0⟩
/-- Query context 0 running, with a window of 8-byte elements and a status channel. -/
def qs (x : Query) (rs : List (Nat × Res)) (l : List Acc) (n : Nat) : State :=
  { queries := [(q0, x)], ress := rs, accs := l, arg := .query q0 n, elems := [(⟨0, 0⟩, { kind := .tile })],
    wins := [(⟨0, 0, 0⟩, { esz := 3, cap := 4 })], chans := [(⟨0, 0, 0⟩, { en := true, slots := 4 })] }
def listAcc : Acc := { anAcc 5 1 with write := false, purpose := .list q0 0, result := some ([0], [], false) }
def going (l : List Chunk) : Query := { st := .running, ordered := true, chunks := l, topk := 10 }

theorem witness_PostingsDecodeCommitAndRank :
    decodeBlock (ck .waiting) [0] = some [(5, 3)] ∧ decodeBlock (ck .waiting) [2] = none ∧
    (let s := qs (going [ck (.claimed 0)]) [(0, {})] [listAcc] 0
     s.arg = .query q0 0 ∧ (s.query q0).st = .running ∧ (s.query q0).chunks.findIdx? (fun c => c.st == .claimed 0) = some 0 ∧ (ck (.claimed 0)).hdr.isSome = true ∧
      s.results (s.listIds q0 0) = some ([0], [], false) ∧ HeadSound (s.query q0).chunks ∧
      (s.query q0).chunks.find? (fun d => !d.over_) = some (ck (.claimed 0)) ∧ (s.query q0).chunks.findIdx (fun d => !d.over_) = 0 ∧
      s.takesFor ⟨(s.query q0).ctx.rid, (s.query q0).telem⟩ = true ∧ (s.chan? ⟨0, 0, 0⟩).isSome = true ∧ s.outbox = []) ∧
    HeadSound [ck (.claimed 1), ck .bad] ∧
    (let s := qs (going [ck .committed, ck (.decoded [(5, 3)])]) [] [] 0
     (s.query q0).chunks.findIdx (fun d => !d.over_) = 1 ∧ (s.query q0).chunks[1]? = some (ck (.decoded [(5, 3)])) ∧ HeadSound [ck .committed, ck .committed]) ∧
    (let s := qs { going [ck .committed] with hits := [(5, 0, 3)] } [] [] 0
     (s.query q0).over_ = true ∧ (s.query q0).ending = 0 ∧ s.queryLive (s.query q0) = false) ∧
    (let s := qs { going [ck .committed] with hits := [(5, 0, 3)], terms := [{ cap := {}, weight := 0x3F80 }] } [(0, {})] [] 0
     (s.query q0).over_ = true ∧ (s.query q0).ending = 0 ∧ s.queryLive (s.query q0) = true ∧ s.takesFor ⟨(s.query q0).ctx.rid, (s.query q0).telem⟩ = true ∧
      s.killed (s.query q0).ctx.rid = false ∧ (s.query q0).top.length = 1 ∧ MemoryCanonical s ∧
      s.win? ⟨0, 0, 0⟩ = some { esz := 3, cap := 4 } ∧ (s.elem? ⟨0, 0⟩).isSome = true ∧ s.fillChan ⟨0, 0, 0⟩ = none ∧ (s.chan? ⟨0, 0, 0⟩).isSome = true ∧ s.outbox = []) := by
  refine ⟨by decide +kernel, by decide +kernel, ⟨rfl, rfl, by decide +kernel, rfl, by decide +kernel, ?_, by decide +kernel⟩, ?_, ⟨by decide +kernel, rfl, ?_⟩, by decide +kernel,
    ⟨by decide +kernel, rfl, by decide +kernel, by decide +kernel, by decide +kernel, by decide +kernel, canonical_of_all (by decide +kernel), by decide +kernel⟩⟩
  · intro d h; cases h; nofun
  · intro d h; cases h; nofun
  · intro d h; cases h

/-- A beat already applied, one that waits, one ahead and the next one; a flow with a beat that is due at this cycle and one due at the next. -/
def flowOf (due : Nat) : Sys2Proof.Machine.Flow := { id := 4, src := r0, peer := 1, tag := 0, elem := 0, win := 0, unacked := [(2, .arrive 0 1, due, 9)] }
theorem witness_PeerBeatsAndEthernetLinks :
    (let s : State := { inFlows := [(4, 2)], arg := .beat ⟨4, 2, .arrive 0 1⟩ }
     s.arg = .beat ⟨4, 2, .arrive 0 1⟩ ∧ (tget s.inFlows 4).getD 0 = 2 ∧ (1 < 2) ∧ (2 < 3) ∧ s.peerWait = [] ∧ (⟨4, 2, .arrive 0 1⟩ : PeerBeat).body = .arrive 0 1) ∧
    (let s : State := { peerWait := [⟨4, 3, .arrive 0 1⟩], arg := .beat ⟨4, 3, .arrive 0 1⟩ }; ∃ n ∈ s.peerWait, n.flow = 4 ∧ n.seq = 3) ∧
    (let s : State := { flows := [flowOf 0], arg := .id 4, bar0 := { ethStatus := (Vector.replicate 12 0).set 11 3 }, ress := [(0, {})],
                        launches := [(0, { seq := 0, asid := 1, opened := true, mapSpace := 1, map := 0 })] }
     s.arg = .id 4 ∧ s.flows = [flowOf 0] ∧ (flowOf 0).unacked = [(2, .arrive 0 1, 0, 9)] ∧ 0 ≤ s.cycle) ∧
    (∀ b ∈ (flowOf 1).unacked, ({} : State).cycle < b.2.2.1) ∧
    (let s : State := { arg := .ack 4 2, flows := [flowOf 0] }; s.arg = .ack 4 2 ∧ s.flows[0]? = some (flowOf 0) ∧ (flowOf 0).id = 4) ∧
    ({ arg := .eth 11 true } : State).arg = .eth (11 : Fin 12).val true :=
  ⟨⟨rfl, rfl, by decide, by decide, rfl, rfl⟩, ⟨_, List.Mem.head _, rfl, rfl⟩, ⟨rfl, rfl, rfl, by decide⟩, by decide, ⟨rfl, rfl, rfl⟩, rfl⟩

def p0 : ShardRef := ⟨0, 0⟩
def pe (key birth : Nat) : PElem := { key := BitVec.ofNat 64 key, val := 7, die := 0, seq := key, birth := birth }
/-- Shard 0 of the object in slot 0 as x, in cycle n, context 0 with the command c. -/
def ps (x : Shard) (o : Pool) (n : Nat) (c : List Cmd) (y : Ctx) : State :=
  { cycle := n, ctxs := [(r0, y)], shards := [(p0, x)], pools := [(0, o)], cmds := c, arg := .shard p0, ress := [(0, { mainPort := [] })], elems := [(⟨0, 0⟩, { kind := .tile })] }
def takeCmd : Cmd := { id := 7, r := r0, port := ⟨0, 12⟩, isl := 5, ins := .ptake ptakeW, w := [], phase := .queued }
def pl0 : Pool := { tag := 0, obj := 0, configured := some 0 }

/-- An empty pool, an aged element, a least element, a mirror of 32 entries whose last ranks above it, nothing at all. -/
theorem witness_PoolTakesFollowTheCondition :
    (∀ x ∈ [({ queue := [7], empty := true } : Shard), { queue := [7], elems := [pe 5 0, pe 6 1], agemax := 9 }, { queue := [7], elems := [pe 5 0, pe 6 1] }, { queue := [7] }],
      (let s := ps x pl0 10 [takeCmd] {}
       s.arg = .shard p0 ∧ (s.shard p0).queue = [7] ∧ s.cmds.filter (fun d => d.id = 7) = [takeCmd] ∧ takeCmd.withdrawn = false ∧ (s.shard p0).took = false ∧
        (s.ctx? takeCmd.r).isSome = true ∧ (∀ e ∈ (s.shard p0).elems, e.bad = false) ∧ 7 ∉ ([] : List Nat))) ∧
    (9 ≠ 0 ∧ (pe 5 0).flight = none ∧ (pe 5 0).birth + 9 < 10 ∧ (∀ f ∈ [pe 5 0, pe 6 1], f.rank ≠ (pe 5 0).rank → (pe 5 0).birth < f.birth)) ∧
    (let n : Mirror := { entries := List.replicate 32 (9, 1, 0, false) }
     n.entries[31]? = some (9, 1, 0, false) ∧ (pe 5 0).rank ≤ Machine.rank 9 1 0 ∧
      ((n.entries.map fun f => Machine.rank f.1 f.2.1 f.2.2.1).filter fun k => k < (pe 5 0).rank).length ≤ ({} : Shard).bound - 1) ∧
    (ps {} pl0 10 [takeCmd] {}).pool? 0 = some pl0 ∧ pl0.agree = .idle := by decide +kernel

def pinsW : PinsOps := ⟨al, 5, 9, 1, 2, true⟩
def pinsCmd : Cmd := { id := 7, r := r0, port := ⟨0, 12⟩, isl := 5, ins := .pins pinsW, w := [3, 4] }
/-- The one take that waits has not been withdrawn; without a take every one of them stands. -/
theorem queueStands (x : Shard) (o : Pool) (n : Nat) (c : List Cmd) (y : Ctx) (h : x.queue = []) : QueueStands (ps x o n c y) p0 := by
  intro k hk
  have : k ∈ x.queue := hk
  simp [h] at this
theorem queueStands_take (x : Shard) (o : Pool) (n : Nat) (y : Ctx) (h : x.queue = [7]) : QueueStands (ps x o n [takeCmd] y) p0 := by
  intro k hk
  have : k ∈ x.queue := hk
  rw [h] at this
  obtain rfl := List.mem_singleton.mp this
  exact ⟨takeCmd, rfl, rfl⟩

/-- A step that is used; an element left over for a take that is gone; a migrated element that is the last and one that is not; a pins offered; an update that has arrived at the last shard and at an earlier one. -/
theorem witness_PoolInsertsAndUpdates :
    (let s := ps { inserted := true } pl0 10 [] {}; s.arg = .shard p0 ∧ (s.shard p0).inserted = true) ∧
    (∀ x o n c y, x.queue = [] → QueueStands (ps x o n c y) p0) ∧ (∀ x o n y, x.queue = [7] → QueueStands (ps x o n [takeCmd] y) p0) ∧
    (let s := ps { inbox := [(10, 3, .remoteAnswer (some (pe 5 0)))], elems := [pe 6 1] } pl0 10 [] {}
     (s.shard p0).queue = [] ∧ (s.shard p0).inserted = false ∧ (s.shard p0).inbox = [(10, 3, .remoteAnswer (some (pe 5 0)))] ∧ 10 ≤ s.cycle) ∧
    (∀ x : Shard, x.inbox = [] → NoneLeftOver (ps x pl0 10 [pinsCmd] {}) p0) ∧ NoneLeftOver (ps { queue := [7] } pl0 10 [takeCmd] {}) p0 ∧
    (∀ es ∈ [[], [pe 6 1]], let s := ps { migrating := pe 5 0 :: es, migFrom := 3 } pl0 10 [] {}
      (s.shard p0).inserted = false ∧ (s.shard p0).migrating = pe 5 0 :: es ∧ (s.shard p0).elems.length < 131072 ∧ (s.shard p0).migFrom ≠ p0.die) ∧
    (let y := waits (.accept 7) (.pins pinsW); let s := ps {} { pl0 with obj := (ps {} pl0 0 [] {}).poolObj pinsCmd } 10 [pinsCmd] y
     s.cmds = [pinsCmd] ∧ pinsCmd.phase = .offered ∧ pinsCmd.port.die = p0.die ∧ pinsCmd.after = [] ∧ s.poolSlot pinsCmd = some p0.slot ∧
      (s.pool? 0).isSome = true ∧ (s.shard p0).seq < 2 ^ 60 ∧ s.ctx? pinsCmd.r = some y ∧ y.wait = some (.accept pinsCmd.id)) ∧
    (∀ n ∈ [1, 2], let s := ps { inbox := [(10, 0, .cfg 7 0x20010 5)] } { pl0 with cfgs := [(7, n)] } 10 [pinsCmd] {}
      (s.shard p0).inbox = [(10, 0, .cfg 7 0x20010 5)] ∧ 10 ≤ s.cycle ∧ s.pool? 0 = some { pl0 with cfgs := [(7, n)] }) ∧
    NothingDue (ps {} pl0 10 [] {} |>.shard p0) 10 (fun m => ∃ i a b, m = .cfg i a b) := by
  refine ⟨by decide +kernel, queueStands, queueStands_take, by decide +kernel, fun x h => .inr ?_, .inl (by decide +kernel), by decide +kernel, by decide +kernel,
    by decide +kernel, nofun⟩
  intro m hm
  have : m ∈ x.inbox := hm
  simp [h] at this

/-- Each message due at a shard, an element that answers the take which waits, before a take of this cycle and after it, a shard that exchanges while the others do not, both waves, and the clearing. -/
theorem witness_PoolExchanges :
    (∀ m ∈ [PMsg.request, .answer [], .answer [pe 5 0], .ack [(0, 0)], .remoteTake, .notes { period := 1 }, .notes { period := 0 }],
      let s := ps { inbox := [(10, 3, m)], elems := [pe 5 0, pe 6 1] } pl0 10 [] {}
      s.arg = .shard p0 ∧ (s.shard p0).inbox = [(10, 3, m)] ∧ 10 ≤ s.cycle ∧ 3 ≠ p0.die ∧ (s.shard p0).agemax = 0 ∧ (∀ e ∈ (s.shard p0).elems, e.bad = false) ∧
        (s.shard p0).elems.find? (fun e => e.flight.isNone) = some (pe 5 0)) ∧
    ((pe 5 0).rank ≠ (pe 6 1).rank) ∧
    (∀ b, let s := ps { inbox := [(10, 3, .remoteAnswer (some (pe 5 0)))], queue := [7], took := b } pl0 10 [takeCmd] {}
      s.arg = .shard p0 ∧ (s.shard p0).inbox = [(10, 3, .remoteAnswer (some (pe 5 0)))] ∧ 10 ≤ s.cycle ∧ (s.shard p0).queue = [7] ∧ (s.shard p0).took = b ∧
        s.cmds.filter (fun d => d.id = 7) = [takeCmd] ∧ (s.ctx? takeCmd.r).isSome = true) ∧
    (let s : State := { cycle := 10, arg := .pool ⟨0⟩, pools := [(0, pl0)], shards := (List.range 8).map fun d => (⟨0, d⟩, { nextX := if d = 2 then 10 else 11 }) }
     s.arg = .pool ⟨0⟩ ∧ s.pool? 0 = some pl0 ∧ pl0.configured.isSome = true ∧ (s.shard ⟨0, 2⟩).nextX ≤ s.cycle ∧ (s.shard ⟨0, 2⟩).asked = false ∧
      ∀ e : Fin 8, e.val ≠ 2 → s.cycle < (s.shard ⟨0, e⟩).nextX) ∧
    (let o : Pool := { pl0 with agree := .wave1 10 }; let s : State := { cycle := 10, arg := .pool ⟨0⟩, pools := [(0, o)] }; s.pool? 0 = some o ∧ 10 ≤ s.cycle ∧ 9 < 10) ∧
    (let s : State := { cycle := 10, arg := .pool ⟨0⟩, pools := [(0, { pl0 with agree := .wave2 10 (List.replicate 8 [0, 0, 0, 0, 0, 0]) })] }
     List.replicate 8 [0, 0, 0, 0, 0, 0] = (List.range 8).map (fun d => s.waveCounts ⟨0, d⟩) ∧ (∀ d : Fin 8, (s.shard ⟨0, d⟩).elems = [] ∧ (s.shard ⟨0, d⟩).queue = [] ∧
      (s.waveCounts ⟨0, d⟩).getD 1 0 = 0 ∧ (s.waveCounts ⟨0, d⟩).getD 4 0 = (s.waveCounts ⟨0, d⟩).getD 5 0) ∧
      (List.range 8).foldl (fun a d => a + (s.shard ⟨0, d⟩).movedOut) 0 = (List.range 8).foldl (fun a d => a + (s.shard ⟨0, d⟩).movedIn) 0 ∧ ([] : List (List Nat)) ≠ List.replicate 8 [0]) ∧
    (let o : Pool := { pl0 with agree := .clearing 10 }; let s : State := { cycle := 10, arg := .pool ⟨0⟩, pools := [(0, o)] }; s.pool? 0 = some o ∧ 10 ≤ s.cycle) := by
  decide +kernel

def e1 : ElemRef := ⟨0, 1⟩
/-- Operator element 1 with o, its channels 0 to 2 holding those lists, out0 to channel 0 of element 0, out1 to channel 1. -/
def os (o : OpSt) (a b c : List Item) : State :=
  { arg := .elem e1, ops := [(e1, o)], ress := [(0, {})], elems := [(e1, { kind := .op, routes := [(0, { delem := 0, dvc := 0 }), (1, { delem := 0, dvc := 1 })] })],
    chans := [(⟨0, 0, 0⟩, { en := true, slots := 1 }), (⟨0, 0, 1⟩, { en := true, slots := 1 }), (⟨0, 1, 0⟩, { en := true, slots := 4, items := a }), (⟨0, 1, 1⟩, { en := true, slots := 4, items := b }), (⟨0, 1, 2⟩, { en := true, slots := 4, items := c })] }
def o0 (k : Nat) : OpSt := { opc := k, ina := 0, inb := 1, ctl := 2, param := 1, value := 3, outs := [some 0, some 1, none, none], depth := 1 }
def it (n : Nat) : Item := { beat := BitVec.ofNat 512 n }
def tok : Item := { ctl := some .completion, slot := false }

theorem opTurn_os (o : OpSt) (a b c : List Item) : OpTurn (os o a b c) e1 o := ⟨rfl, rfl, by rfl, _, rfl, rfl⟩
theorem head0 (o : OpSt) (i : Item) (l b c : List Item) (h : i.fault = none) : HeadIs (os o (i :: l) b c) e1 0 i := ⟨_, l, rfl, rfl, h⟩
theorem head1 (o : OpSt) (i : Item) (a l c : List Item) (h : i.fault = none) : HeadIs (os o a (i :: l) c) e1 1 i := ⟨_, l, rfl, rfl, h⟩
theorem head2 (o : OpSt) (i : Item) (a b l : List Item) (h : i.fault = none) : HeadIs (os o a b (i :: l)) e1 2 i := ⟨_, l, rfl, rfl, h⟩
/-- A slot is free where each route that output n has leads to a channel with one. -/
theorem outFree_of {s : State} {e : ElemRef} {o : OpSt} {n : Nat}
    (h : (match o.out n with
      | none => true
      | some oc => match s.route? e oc with
        | none => true
        | some c => match s.chan? c with
          | none => true
          | some ch => decide (ch.taken + ch.reserved < ch.slots)) = true) : OutFree s e o n := by
  intro oc c ch h1 h2 h3
  simp only [h1, h2, h3, decide_eq_true_eq] at h
  exact h

/-- Items with the truth true, false and a completion token at the heads, and empty channels; a free slot on each output; each operator before its count and at it. -/
theorem witness_OperatorsFire :
    (∀ k, OpTurn (os (o0 k) [it 1] [it 1] [it 0]) e1 (o0 k)) ∧ (it 1).ctl = none ∧ tok.ctl = some .completion ∧
    (let s := os (o0 2) [it 1] [it 1] [it 0]
     HeadIs s e1 0 (it 1) ∧ HeadIs s e1 1 (it 1) ∧ HeadIs s e1 2 (it 0) ∧ (it 0).truth = false ∧ (it 1).truth = true) ∧
    (let s := os (o0 2) [] [it 1] []
     NoHead s e1 0 ∧ NoHead s e1 2 ∧ NoHead s e1 5 ∧ HeadIs s e1 1 (it 1)) ∧
    (∀ n : Fin 4, OutFree (os (o0 0) [it 1] [it 1] [it 0]) e1 (o0 0) n) ∧
    (∀ n m : Fin 4, ∀ a b q, (o0 1).out n = some a → (o0 1).out m = some b →
      (os (o0 1) [it 1] [] []).route? e1 a = some q → (os (o0 1) [it 1] [] []).route? e1 b = some q → n = m) ∧
    -- merge of a shared channel, its marked token second; carry in both states; join of channels 0 and 1; gate with and without REMAIN; const and count at their ends
    ((({ o0 3 with inb := 0 } : OpSt).ina = ({ o0 3 with inb := 0 } : OpSt).inb) ∧ ({ it 1 with markB := true } : Item).markB = !(it 0).truth ∧ (it 1).markB = (it 0).truth) ∧
    (o0 5).looping = false ∧ ({ o0 5 with looping := true } : OpSt).looping = true ∧
    (∀ n : Fin 32, (o0 6).value.getLsbD n = true → ∃ i, HeadIs (os (o0 6) [tok] [tok] []) e1 n i) ∧
    (∀ n : Fin 32, (o0 6).value.getLsbD n = true → NoHead (os (o0 6) [] [] []) e1 n) ∧
    (o0 7).remain = 0 ∧ ({ o0 7 with remain := 2 } : OpSt).remain ≠ 0 ∧ (o0 7).remain + (o0 7).param ≠ 0 ∧
    (o0 0xB).sent < (o0 0xB).param ∧ (o0 0xB).param ≤ ({ o0 0xB with sent := 1 } : OpSt).sent ∧ (o0 0xD).n + 1 = (o0 0xD).param ∧
    (∀ n : Fin 4, ∀ oc, (o0 0xE).out n = some oc → (os (o0 0xE) [it 1] [] []).ctlRoom e1 oc = true) := by
  refine ⟨fun k => opTurn_os _ _ _ _, rfl, rfl, ⟨head0 _ _ _ _ _ rfl, head1 _ _ _ _ _ rfl, head2 _ _ _ _ _ rfl, by decide +kernel, by decide +kernel⟩,
    ⟨?_, ?_, ?_, head1 _ _ _ _ _ rfl⟩, ?_, ?_, by decide +kernel, rfl, rfl, ?_, ?_, rfl, by decide, by decide, by decide, by decide, by decide, ?_⟩
  · intro ch h; cases h; rfl
  · intro ch h; cases h; rfl
  · intro ch h; cases h
  · intro n; exact outFree_of (by revert n; decide +kernel)
  · intro n m a b q h1 h2 h3 h4
    have key : ∀ n m : Fin 4, (o0 1).out n ≠ none → ((o0 1).out n).bind ((os (o0 1) [it 1] [] []).route? e1) = ((o0 1).out m).bind ((os (o0 1) [it 1] [] []).route? e1) →
        ((o0 1).out n).bind ((os (o0 1) [it 1] [] []).route? e1) ≠ none → n = m := by decide +kernel
    exact key n m (by simp [h1]) (by simp [h1, h2, h3, h4]) (by simp [h1, h3])
  · intro n h
    have : n = 0 ∨ n = 1 := by revert n; decide +kernel
    rcases this with rfl | rfl
    · exact ⟨tok, head0 _ _ _ _ _ rfl⟩
    · exact ⟨tok, head1 _ _ _ _ _ rfl⟩
  · intro n h
    have : n = 0 ∨ n = 1 := by revert n; decide +kernel
    rcases this with rfl | rfl
    · intro ch h; cases h; rfl
    · intro ch h; cases h; rfl
  · intro n oc h
    have key : ∀ n : Fin 4, (match (o0 0xE).out n with | some oc => (os (o0 0xE) [it 1] [] []).ctlRoom e1 oc | none => true) = true := by decide +kernel
    have := key n
    simpa [h] using this

/-- A controller of two children with a run under way, its first child due and its second not; the same run at its end; no run. -/
def c0 (k : Nat) (d : List Nat) : OpSt := { o0 k with running := true, p := [0, 0], d := d, value := 3 + 1 * 2 ^ 32 }
/-- MU element 1 with a window of 64-byte elements and generator 0, as g, toward channel 0 of element 0; its write channel 1 holds a beat. -/
def gs (g : Gen) : State :=
  { arg := .gen ⟨0, 1, 0⟩, gens := [(⟨0, 1, 0⟩, g)], ress := [(0, {})],
    elems := [(e1, { kind := .mu, routes := [(32, { delem := 0, dvc := 0 })] })], wins := [(⟨0, 1, 0⟩, { esz := 5, cap := 4, fill := 2 })],
    chans := [(⟨0, 0, 0⟩, { en := true, slots := 1 }), (⟨0, 1, 1⟩, { en := true, slots := 4, items := [it 9] })] }
def g0 (w : Bool) (oc : Nat) : Gen :=
  { write := w, esz := 5, col := 0, cap := cap 0x10000 128 3 1, win := if w then none else some 0, nloops := 2, counts := [2, 1, 1, 1, 1], strides := [64, 0, 0, 0, 0],
    offset := 64, pelem := 0, pvc := 0, oc := oc, eot := false, commut := false }
def d0 : Window := { esz := 5, cap := 4, fill := 2 }
theorem witness_ControllersAndGenerators :
    (∀ k d, OpTurn (os (c0 k d) [] [] []) e1 (c0 k d)) ∧ (c0 8 [0, 0]).doneChans = [0, 1] ∧ (∀ vc ∈ (c0 8 [0, 0]).doneChans, NoHead (os (c0 8 [0, 0]) [] [] []) e1 vc) ∧
    (∀ ch i l, (os (c0 8 [0, 0]) [] [] []).chan? (e1.chan (c0 8 [0, 0]).ctl) = some ch → ch.items = i :: l → i.fault = none) ∧
    ¬ RunOver (c0 8 [0, 0]) 2 ∧ RunOver (c0 8 [1, 1]) 2 ∧ PermitDue (c0 8 [0, 0]) 2 0 ∧ ¬ PermitDue (c0 8 [0, 0]) 2 1 ∧
    (os (c0 8 [0, 0]) [] [] []).ctlRoom e1 1 = true ∧ (os (c0 8 [1, 1]) [] [] []).ctlRoom e1 (((c0 8 [1, 1]).out 0).getD 32) = true ∧
    (o0 8).running = false ∧ (o0 8).runs = 0 ∧ 0 < (o0 8).param ∧ ({ o0 8 with runs := 1 } : OpSt).runs ≠ 0 ∧
    (∀ ch, (os { o0 8 with ctl := 5 } [] [] []).chan? (e1.chan 5) = some ch → ch.en = false) ∧ (g0 false 32).nloops = 2 ∧
    (let s := gs (g0 false 32)
     s.arg = .gen ⟨0, 1, 0⟩ ∧ s.gen? ⟨0, 1, 0⟩ = some (g0 false 32) ∧ s.acts e1 = true ∧ (g0 false 32).ahead = [] ∧ (g0 false 32).skip = [] ∧ s.win? (e1.win 0) = some d0 ∧
      0 ≤ (g0 false 32).at_ (g0 false 32).i none ∧ ((g0 false 32).at_ (g0 false 32).i none).toNat % 64 = 0 ∧ d0.readable 1 1 = true ∧ s.winBad (e1.win 0) d0 1 1 = false ∧
      s.route? e1 32 = some ⟨0, 0, 0⟩ ∧ ((s.chan? ⟨0, 0, 0⟩).map (decide <| 0 < ·.free)) = some true) ∧
    (let s := gs (g0 true 1)
     (s.chan? (e1.chan 1)).map (·.items) = some [it 9] ∧ ((g0 true 1).at_ (g0 true 1).i none).toNat + 64 ≤ (g0 true 1).cap.length ∧
      (g0 true 1).cap.base + ((g0 true 1).at_ (g0 true 1).i none).toNat + 64 ≤ 2 ^ 57 ∧ ((g0 true 1).cap.base + ((g0 true 1).at_ (g0 true 1).i none).toNat) % 64 = 0) ∧
    (let g := { g0 false 32 with ended := true }; let s := gs g
     s.acts e1 = true ∧ g.ended = true ∧ g.ahead = [] ∧ g.doneSent = false ∧ g.stopped = false ∧ s.accs = [] ∧ s.ctlRoom e1 (s.doneOut ⟨0, 1, 0⟩) = true) ∧
    ({ gs (g0 true 1) with ress := [] } : State).acts e1 = false ∧ (g0 true 1).check = false := by
  refine ⟨fun k d => opTurn_os _ _ _ _, by decide +kernel, ?_, ?_, by unfold RunOver; decide, by unfold RunOver; decide, by unfold PermitDue; decide, by unfold PermitDue; decide, by decide +kernel, by decide +kernel,
    rfl, rfl, by decide, by decide, nofun, rfl, ⟨rfl, rfl, by decide +kernel⟩, by decide +kernel, by decide +kernel, by decide +kernel, rfl⟩
  · intro vc h
    have : vc = 0 ∨ vc = 1 := by revert vc; decide +kernel
    rcases this with rfl | rfl
    · intro ch h; cases h; rfl
    · intro ch h; cases h; rfl
  · intro ch i l h h2; cases h; cases h2

def selTok : Item := { ctl := some (.select 7), slot := false }
/-- Window 0 of 8-byte elements with a waiting wread and a due token, fill-port channel 0 of it with a full beat, an undeclared channel 5 declared channel 6 with a token that waits, and channel 8 with a select token. -/
def wreadW : WOffOps := ⟨al, 0, 3, .s 1, 2, 0⟩
def wv (i : Item) (a : StepArg) (w : Window) : State :=
  { ctxs := [(r0, { waits (.window 0) (.wread wreadW) with inMask := 0x40 })], elems := [(⟨0, 0⟩, { kind := .tile, routes := [(0, { delem := 0, dvc := 6 })], store := [(0, 9)] })],
    chans := [(⟨0, 0, 0⟩, { en := true, slots := 4, port := some 0, items := [i] }), (⟨0, 0, 5⟩, { en := true, slots := 1, held := [tok] }),
      (⟨0, 0, 6⟩, { en := true, slots := 1, held := [tok] }), (⟨0, 0, 7⟩, { en := true, slots := 1, items := List.replicate 255 tok, held := [tok] }), (⟨0, 0, 8⟩, { en := true, slots := 1, held := [selTok] })],
    wins := [(⟨0, 0, 0⟩, w)], arg := a }
def w8 (fill : BitVec 16) : Window := { esz := 3, cap := 8, fill := fill }
theorem witness_WindowsServeWaitersAndPorts :
    (let w := { w8 1 with waiters := [.ctx 0] }; let s := wv {} (.win ⟨0, 0, 0⟩) w
     s.arg = .win ⟨0, 0, 0⟩ ∧ s.win? ⟨0, 0, 0⟩ = some w ∧ w.cap ≠ 0 ∧ (s.ctx? r0).isSome = true ∧ wreadW.win.val = 0 ∧ (s.elem? ⟨0, 0⟩).isSome = true ∧
      sizeOk w (eszBytes wreadW.sz) wreadW.d = true ∧ 0 + 1 ≤ w.fill.toNat - (w.fillNow + w.fillPrev) ∧ s.winBad ⟨0, 0, 0⟩ w 0 1 = false ∧
      (w8 0).fill.toNat - ((w8 0).fillNow + (w8 0).fillPrev) < 0 + 1) ∧
    (let s := wv { last := true } (.chan ⟨0, 0, 0⟩) (w8 0)
     s.arg = .chan ⟨0, 0, 0⟩ ∧ (s.chan? ⟨0, 0, 0⟩).map (fun c => (c.port, c.items)) = some (some 0, [{ last := true }]) ∧ s.win? ⟨0, 0, 0⟩ = some (w8 0) ∧
      (w8 0).waiters = [] ∧ (s.elem? ⟨0, 0⟩).map (·.saved) = some false ∧ s.res? 0 = none ∧ MemoryCanonical s ∧ (w8 0).fill.toNat + (w8 0).shrinkNow + 64 / (w8 0).size ≤ (w8 0).cap.toNat ∧
      (w8 1).cap.toNat < (w8 1).fill.toNat + (w8 1).shrinkNow + 64 / (w8 1).size) ∧
    (let w := { w8 1 with due := [(2, 1, tok)] }; let s : State := { wv {} (.win ⟨0, 0, 0⟩) w with cycle := 2 }
     s.win? ⟨0, 0, 0⟩ = some w ∧ 2 ≤ s.cycle ∧ s.ctlRoom ⟨0, 0⟩ 1 = true ∧ s.ctlRoom ⟨0, 0⟩ 0 = false) ∧
    (let s := wv tok (.chan ⟨0, 0, 0⟩) (w8 0)
     (s.chan? ⟨0, 0, 0⟩).map (fun c => (c.port, c.items)) = some (some 0, [tok]) ∧ tok.slot = false ∧ (w8 0).due = [] ∧
      ({ s with elems := [(⟨0, 0⟩, { kind := .tile })] } : State).ctlRoom ⟨0, 0⟩ 0 = true) ∧
    (let s := wv {} (.chan ⟨0, 0, 6⟩) (w8 0)
     s.arg = .chan ⟨0, 0, 6⟩ ∧ (s.chan? ⟨0, 0, 6⟩).map (fun c => (c.held, c.free)) = some ([tok], 1) ∧ s.declared ⟨0, 0, 6⟩ = true ∧
      (s.chan? ⟨0, 0, 5⟩).map (fun c => (c.held, c.tokens)) = some ([tok], 0) ∧ s.declared ⟨0, 0, 5⟩ = false ∧ (s.chan? ⟨0, 0, 7⟩).map Chan.tokens = some 255 ∧
      (s.chan? ⟨0, 0, 8⟩).map (fun c => (c.held, c.tokens)) = some ([selTok], 0) ∧ selTok.ctl = some (.select 7) ∧ (∀ g, tok.ctl ≠ some (.select g)) ∧
      (s.elem? ⟨0, 0⟩).map (·.select) = some []) := by
  refine ⟨by decide +kernel, ⟨rfl, by decide +kernel, rfl, rfl, by decide +kernel, rfl, canonical_of_all (by decide +kernel), by decide +kernel, by decide +kernel⟩, by decide +kernel, by decide +kernel,
    ⟨rfl, by decide +kernel, by decide +kernel, by decide +kernel, by decide +kernel, by decide +kernel, by decide +kernel, rfl, nofun, by decide +kernel⟩⟩

/-- Contexts of a tile as the list says, in cycle n; channel 0 with f of its four slots filled. -/
def ts (n f : Nat) (l : List (Nat × Ctx)) (t : Tile) : State :=
  { cycle := n, arg := .elem ⟨0, 0⟩, ctxs := l.map fun p => (⟨0, 0, p.1⟩, p.2), tiles := [(⟨0, 0⟩, t)], ress := [(0, {})], elems := [(⟨0, 0⟩, { kind := .tile }), (e1, { kind := .op, routes := [(0, { delem := 0, dvc := 0 })] })],
    chans := [(⟨0, 0, 0⟩, { en := true, slots := 4, items := List.replicate f {} })], ops := [(e1, { o0 0xB with sent := 1 })] }
def runC : Ctx := { st := .run }
def idleC (n : Nat) : Ctx := { st := .idle, inMask := 1, inRate := (Vector.replicate 32 0).set 0 n }
theorem witness_TilesGrantAndWeigh :
    -- a holder below its weight and at it, no holder, a holder that waits, nobody
    (let s := ts 5 0 [(2, runC), (7, runC)] { holder := some 2, burst := 1, limit := 2 }
     s.arg = .elem ⟨0, 0⟩ ∧ s.firing 0 = true ∧ s.owesArrival ⟨0, 0⟩ = false ∧ RunsFree s ⟨0, 0⟩ 2 ∧ ({ burst := 1, limit := 2 } : Tile).burst < ({ burst := 1, limit := 2 } : Tile).limit) ∧
    (let s := ts 5 0 [(2, runC), (7, runC)] { ctxPtr := 7 }; RunsFree s ⟨0, 0⟩ ((7 : Fin 8) + 0) ∧ ({ ctxPtr := 7 } : Tile).holder = none) ∧
    (let s := ts 5 0 [(2, { st := .wait }), (4, runC)] { holder := some 2 }
     ¬ RunsFree s ⟨0, 0⟩ 2 ∧ RunsFree s ⟨0, 0⟩ (2 + 1 + 1) ∧ ∀ j : Fin 8, j < 1 → ¬ RunsFree s ⟨0, 0⟩ (2 + 1 + j)) ∧
    (∀ c : Fin 8, ¬ RunsFree (ts 5 0 [] {}) ⟨0, 0⟩ c) ∧
    -- a lone IDLE context with its count and without
    (let s := ts 5 2 [(2, idleC 2)] {}
     s.acts ⟨0, 0⟩ = true ∧ s.owesArrival ⟨0, 0⟩ = false ∧ s.adopting 0 = false ∧ s.ctx? ⟨0, 0, 2⟩ = some (idleC 2) ∧ (idleC 2).outMask = 0 ∧ (∀ d : Fin 8, d ≠ 2 → s.ctx? ⟨0, 0, d⟩ = none) ∧
      (∀ n : Fin 32, (idleC 2).inMask.getLsbD n.val = true → ∃ ch, s.chan? (ElemRef.chan ⟨0, 0⟩ n) = some ch ∧ (idleC 2).inRate.get n ≤ (ch.items.filter (·.slot)).length) ∧
      s.interlocked ⟨0, 0, 2⟩ { idleC 2 with pc := (idleC 2).entry } = false ∧ s.interlocked ⟨0, 0, 2⟩ { idleC 2 with pc := (idleC 2).entry, double := some (0, 0) } = true) ∧
    (¬ (idleC 3).inRate.get 0 ≤ ((List.replicate 2 ({} : Item)).filter (·.slot)).length) ∧
    -- weights at 1,024 cycles: 4, 3, 1 and 0 of four slots
    (({ ts 1024 4 [(2, idleC 2)] {} with ress := [(0, { st := .saved })] } : State).onFabric 0 = false) ∧
    (let s := ts 1024 4 [(2, idleC 2)] {}; s.onFabric 0 = true ∧ ({} : Tile).loaded < s.cycle ∧ (s.cycle - ({} : Tile).loaded) % 1024 = 0 ∧ ({} : Tile).pend = [] ∧ (idleC 2).inMask = BitVec.twoPow 32 0) ∧
    (3 * 4 < 4 * 4 ∧ 4 * 3 ≤ 3 * 4 ∧ 4 ≤ 4 * 1 ∧ 4 * 0 < 4) ∧
    -- inputs that have ended
    (let s : State := { ts 5 0 [(2, idleC 1)] {} with arg := .ctx ⟨0, 0, 2⟩ }
     s.arg = .ctx ⟨0, 0, 2⟩ ∧ s.ctx? ⟨0, 0, 2⟩ = some (idleC 1) ∧ (idleC 1).tripCnt = 0 ∧ (idleC 1).inMask ≠ 0 ∧ s.acts ⟨0, 0⟩ = true ∧ s.adopting 0 = false ∧
      ∀ n : Fin 32, (idleC 1).inMask.getLsbD n = true → s.chanEnded ((s.elemsOf 0).length + 1) (ElemRef.chan ⟨0, 0⟩ n) = true) := by
  have free : ∀ (s : State) (e : ElemRef) (c : Fin 8), (match s.ctx? (e.ctx c.val) with | some x => x.st = .run && !x.justRan && !s.interlocked (e.ctx c.val) x | none => false) = false → ¬ RunsFree s e c := by
    intro s e c h hr
    obtain ⟨x, h1, h2, h3, h4⟩ := hr
    simp [h1, h2, h3, h4] at h
  refine ⟨⟨rfl, by decide +kernel, by decide +kernel, ⟨runC, by decide +kernel, rfl, rfl, by decide +kernel⟩, by decide +kernel⟩, ⟨⟨runC, by decide +kernel, rfl, rfl, by decide +kernel⟩, rfl⟩,
    ⟨free _ _ _ (by decide +kernel), ⟨runC, by decide +kernel, rfl, rfl, by decide +kernel⟩, ?_⟩, ?_,
    ⟨by decide +kernel, by decide +kernel, by decide +kernel, by decide +kernel, rfl, by decide +kernel, ?_, by decide +kernel, by decide +kernel⟩, by decide +kernel,
    by decide +kernel, by decide +kernel, by decide, rfl, by decide +kernel, rfl, by decide, by decide +kernel, by decide +kernel⟩
  · intro j hj; have : j = 0 := by omega
    subst this; exact free _ _ _ (by decide +kernel)
  · intro c; exact free _ _ _ (by revert c; decide +kernel)
  · intro n h; have : n = 0 := by revert n; decide +kernel
    subst this; exact ⟨_, rfl, by decide +kernel⟩

/-- A letter of that kind, for launch tag 5 and that block; LAUNCH: one block, its table at 0x1000 of host memory. -/
def letter (kind block : Nat) : Beat := BitVec.ofNat 512 (kind + 5 * 2 ^ 16 + 1 * 2 ^ 32 + 0x1000 * 2 ^ 64 + 3 * 2 ^ 128 + block * 2 ^ 160)
def lau (blocks : List Block) : Launch := { seq := 0, asid := 1, opened := true, mapSpace := 1, map := 0, blocks := blocks }
/-- The block table of one entry and, behind it, the smallest image: main header, five SIG frames and END, with the check sums of R79. -/
def imageBytes : List Byte := [0x1000101010000000149445856 * 2 ^ 64 + 0x40000000a5639881, 0x5000000084fbecee, 0x5001000084fbecee, 0x5002000084fbecee,
  0x5003000084fbecee, 0x5004000084fbecee, 7 * 2 ^ 64 + 0x70000000ad203a57].flatMap (bytesLE 32)
def tableBytes : List Byte := bytesLE 32 (0x1020 + 224 * 2 ^ 64 + 3 * 2 ^ 104 + 2 * 2 ^ 128 + 0xFFFF * 2 ^ 144)
def ls (b : Beat) (l : List (Nat × Launch)) (r : List (Nat × Res)) : State :=
  { sec := { ready := true, life := .field }, launchWin := [b], launches := l, ress := r, host := Memory.write [] 0x1000 (tableBytes ++ imageBytes) }

theorem letterFirst_ls (b : Beat) (l : List (Nat × Launch)) (r : List (Nat × Res)) : LetterFirst (ls b l r) b [] := ⟨rfl, rfl, rfl, rfl, rfl, rfl, by decide⟩

theorem image_sig (hv : Config.ecdsaOk (parseImage imageBytes).digest (parseImage imageBytes).sig (Config.fwImageKey 0 0) = true)
    (hk : Config.keySlot 0 = some (Config.sha384 (Config.fwImageKey 0 0))) (b : Beat) (l : List (Nat × Launch)) (r : List (Nat × Res)) :
    sigErr (ls b l r) (parseImage imageBytes) = none := by
  have slot : (parseImage imageBytes).keyslot = 0 := by decide +kernel
  unfold sigErr
  rw [slot]
  simp only [show (ls b l r).sec.measurement = 0 from rfl, show (ls b l r).sec.revoked = 0 from rfl, show (ls b l r).sec.life.loads = true from rfl]
  rw [hv, hk]
  simp

/-- The image of the table passes every check of R98 once its signature verifies with the key of its slot. -/
theorem image_sound (b : Beat) (l : List (Nat × Launch)) (r : List (Nat × Res))
    (hv : Config.ecdsaOk (parseImage imageBytes).digest (parseImage imageBytes).sig (Config.fwImageKey 0 0) = true)
    (hk : Config.keySlot 0 = some (Config.sha384 (Config.fwImageKey 0 0))) :
    imageErr (ls b l r) (parseImage imageBytes) = none ∧ (ls b l r).malformed (parseImage imageBytes) = none := by
  have sig := image_sig hv hk b l r
  have views : (parseImage imageBytes).views = [parseImage imageBytes] := by
    have : (parseImage imageBytes).groups.isEmpty = true := by decide +kernel
    simp [Image.views, this]
  have gens : (parseImage imageBytes).genKeys = [] := by decide +kernel
  refine ⟨?_, ?_⟩
  · unfold imageErr
    have h1 : formatErr (parseImage imageBytes) = none := by decide +kernel
    have h2 : crcErr (parseImage imageBytes) = none := by decide +kernel
    have h3 : dupErr (parseImage imageBytes) = none := by decide +kernel
    simp only [sig, h1, h2, h3]
    decide +kernel
  · unfold State.malformed
    rw [views]
    simp [gens, firstOff]

/-- Each kind of letter, under a tag that is live, ended, unknown; an entry window with room and a full one; a LAUNCH that passes where the image's signature does. -/
theorem witness_LettersAreProcessed :
    (∀ k n l r, LetterFirst (ls (letter k n) l r) (letter k n) []) ∧
    (∀ k ∈ [0, 1, 2, 3, 4, 5, 6], letterKind (letter k 0) = k ∧ letterTag (letter k 0) = 5 ∧ letterBlock (letter k 1) = 1) ∧
    (Live (ls (letter 2 0) [(5, lau [{}])] []) 5 (lau [{}]) ∧ EntryFree (ls (letter 2 0) [(5, lau [{}])] []) 5 0 ∧
      EntryFull (ls (letter 2 0) [(5, lau [{ tokens := [(0, 0)] }])] []) 5 0 ∧ (lau [{}]).blocks.length ≤ letterBlock (letter 2 1)) ∧
    (∀ k, ¬ Live (ls (letter 2 0) [] []) 5 k) ∧ (∀ k, tget (ls (letter 5 0) [(5, lau [{}])] []).launches 5 = some k → k.live = true) ∧
    (let s := ls (letter 3 0) [(5, lau [{}])] [(0, { tag := 5 })]; s.queries = [] ∧ s.ress = [(0, { tag := 5 })] ∧ ({ tag := 5 } : Res).st = .resident) ∧
    (let s := ls (letter 5 0) [(5, { lau [] with live := false })] []; tget s.launches 5 = some { lau [] with live := false } ∧ s.invals = [] ∧ s.accs = []) ∧
    (tget (ls (letter 1 0) [] []).launches 5 = none ∧ (letter 1 1).toNat / 2 ^ 32 % 2 ^ 16 ≤ letterBlock (letter 1 1)) ∧
    (Config.ecdsaOk (parseImage imageBytes).digest (parseImage imageBytes).sig (Config.fwImageKey 0 0) = true →
      Config.keySlot 0 = some (Config.sha384 (Config.fwImageKey 0 0)) →
      let b := letter 1 0; let s := ls b [] []
      lReserved b = false ∧ b.toNat / 2 ^ 32 % 2 ^ 16 = 1 ∧ letterBlock b < 1 ∧ b.toNat / 2 ^ 128 % 2 ^ 4 = 3 ∧
      s.loaderRead 3 (b.toNat / 2 ^ 64 % 2 ^ 64) (32 * 1) = (tableBytes, true) ∧ ((chunksOf 32 1 tableBytes).map (tblEntry 1)).all (·.ok) = true ∧
      (∃ bl bl', s.readImages ((chunksOf 32 1 tableBytes).map (tblEntry 1)) 0 = .inl bl ∧ s.placeEntries bl [] = some bl' ∧ poolNeed bl' ≤ s.freeSlots.length) ∧
      s.freeAsid = some 1) := by
  refine ⟨fun _ _ _ _ => letterFirst_ls _ _ _, by decide +kernel, ⟨⟨rfl, rfl, rfl⟩, ⟨_, _, rfl, rfl, by decide⟩, ⟨_, _, rfl, rfl, by decide⟩, by decide +kernel⟩,
    ?_, ?_, ⟨rfl, rfl, rfl⟩, ⟨rfl, rfl, rfl⟩, by decide +kernel, ?_⟩
  · intro k h; cases h.1
  · intro k h; cases h; rfl
  · intro hv hk b s
    obtain ⟨h1, h2⟩ := image_sound b [] [] hv hk
    have hr : s.loaderRead 3 0x1020 224 = (imageBytes, true) := by decide +kernel
    have ht : (chunksOf 32 1 tableBytes).map (tblEntry 1) = [tblEntry 1 tableBytes] := by rfl
    refine ⟨by decide +kernel, by decide +kernel, by decide +kernel, by decide +kernel, by decide +kernel, by decide +kernel, ?_, by decide +kernel⟩
    have e1 : (tblEntry 1 tableBytes).ispace = 3 := by decide +kernel
    have e2 : (tblEntry 1 tableBytes).image = 0x1020 := by decide +kernel
    have e3 : (tblEntry 1 tableBytes).len = 224 := by decide +kernel
    refine ⟨[{ (tblEntry 1 tableBytes).block with image := parseImage imageBytes }],
      [{ ({ (tblEntry 1 tableBytes).block with image := parseImage imageBytes } : Block) with hubMu := 0, hubOff := 65536 }], ?_, ?_, ?_⟩
    · rw [ht]
      simp only [State.readImages, e1, e2, e3, hr]
      simp only [Bool.not_true, Bool.false_eq_true, if_false]
      rw [show (imageErr s (parseImage imageBytes)) = none from h1, show s.malformed (parseImage imageBytes) = none from h2]
      rfl
    · rfl
    · decide +kernel

/-- A launch of block 0 with those tokens. -/
def lt (t : List (BitVec 256 × Nat)) : Launch := lau [{ tokens := t }]
/-- The state with one launch under tag 5 and the forward or post of a token to its block 0, the window of one token. -/
def lst (t : List (BitVec 256 × Nat)) (a : StepArg) : State :=
  { arg := a, launches := [(5, lt t)], forwards := [(5, 0, 9)], posts := [(0, 0, r0, 5, 0, 9)], ctxs := [(r0, waits .postSent (.post ⟨al, 1, 0⟩))], sec := { ready := true } }
theorem witness_LaunchesRunAndEnd :
    -- a whole letter, a write off its place; an empty event window, for records with a time and without, and a full one
    (let s : State := { lst [] (.data 64 (List.replicate 64 1)) with forwards := [] }
     s.arg = .data 64 (List.replicate 64 1) ∧ s.sec.ready = true ∧ 64 % 64 = 0 ∧ (List.replicate 64 (1 : Byte)).length = 64 ∧ s.launchBuf = [] ∧ s.launchHeld = [] ∧ s.launchWin.length < 1024) ∧
    (8 % 64 ≠ 0 ∧ ({ arg := .reg 0x58 1 } : State).arg = .reg 0x58 1) ∧
    (∀ b, let s : State := { eventWait := [b] }; s.eventWait = [b] ∧ s.eventWin.length < 1024) ∧
    ([1#512, 2, 3, 6, 4].map fun b => b.toNat % 2 ^ 8) = [1, 2, 3, 6, 4] ∧ (List.replicate 1024 (0 : Beat)).length = 1024 ∧
    -- a forward and a posted token, with room and without
    ((lst [] .none).forwards = [(5, 0, 9)] ∧ EntryFree (lst [] .none) 5 0 ∧ EntryFull (lst [(0, 0)] .none) 5 0) ∧
    (({ lst [] .none with posts := [] } : State).posts = [] ∧ ({ lst [] .none with fwdAt := [(5, 0, 1)] } : State).fwdAt = [(5, 0, 1)] ∧ 0 < 1) ∧
    (let s := lst [] (.ctx r0); s.arg = .ctx r0 ∧ s.posts = [(0, 0, r0, 5, 0, 9)] ∧ 0 ≤ s.cycle ∧ s.ctx? r0 = some (waits .postSent (.post ⟨al, 1, 0⟩))) ∧
    -- the cycle of an evaluation and the one after
    (({ cycle := 4096 } : State).bar0.ageStep ≠ 0 ∧ 4096 % ({} : State).bar0.ageStep.toNat = 0 ∧ 1 < ({} : State).bar0.ageStep.toNat ∧ 4097 % ({} : State).bar0.ageStep.toNat ≠ 0) ∧
    -- no request, no candidate, one candidate
    (({} : State).sched = false ∧ (let s : State := { sched := true, sec := { ready := true } }; s.sched = true ∧ s.sec.ready = true ∧ s.cands = []) ∧
      ({ lst [(0, 0)] .none with sched := true } : State).cands = [{ tag := 5, block := 0, rid := none, cls := 0, work := 1, age := 0, seq := 0 }]) ∧
    -- a residency that is not quiet, one whose work goes on, one whose work is over
    (({ held (regs 0 0 0 0) { tag := 5 } with accs := [anAcc 5 1] } : State).quiet 0 = false ∧
      (let s : State := { held (regs 0 0 0 0) { tag := 5 } with arg := .id 0 }; s.arg = .id 0 ∧ s.quiet 0 = true ∧ s.over 0 = false) ∧
      (let s : State := { held { st := .done } { tag := 5 } with arg := .id 0 }
       s.res? 0 = some { tag := 5 } ∧ ({ tag := 5 } : Res).st = .resident ∧ ({ tag := 5 } : Res).killed = false ∧ s.quiet 0 = true ∧ s.over 0 = true)) ∧
    -- a launch with work left and one without
    (let s : State := { launches := [(5, { lt [] with opened := false })], arg := .id 5 }
     s.arg = .id 5 ∧ Live s 5 { lt [] with opened := false } ∧ s.queries = [] ∧ s.forwards = [] ∧ s.ress = [] ∧ ∀ b ∈ ({ lt [] with opened := false } : Launch).blocks, b.tokens = []) ∧
    (lt []).opened = true := by
  refine ⟨by decide +kernel, by decide +kernel, fun _ => ⟨rfl, Nat.zero_lt_succ _⟩, by decide +kernel, by decide +kernel, ⟨rfl, ⟨_, _, rfl, rfl, by decide⟩, _, _, rfl, rfl, by decide⟩, by decide, by decide +kernel, by decide +kernel,
    by decide +kernel, by decide +kernel, ⟨rfl, ⟨rfl, rfl, rfl⟩, rfl, rfl, rfl, by decide⟩, rfl⟩

/-- Element 0 with a marker on channel 0 that arrives in cycle 3, its contexts in RUN, IDLE and, trapped too, FROZEN; the residency r; a route to channel 1. -/
def mk (m : Marker) (e : Elem) (r : Res) (n : Nat) (a : StepArg) : State :=
  { cycle := n, arg := a, elems := [(⟨0, 0⟩, e)], tiles := [(⟨0, 0⟩, {})], ress := [(0, r)],
    ctxs := [(r0, regs 0 0 0 0), (⟨0, 0, 1⟩, { st := .idle }), (⟨0, 0, 2⟩, { st := .frozen, was := .run, stopped := true }), (⟨0, 0, 3⟩, { st := .frozen, stopped := true, trapped := true })],
    chans := [(⟨0, 0, 0⟩, { en := true, slots := 1, flight := [(3, .marker m)] }), (⟨0, 0, 1⟩, { en := true, slots := 1 })] }
def el0 : Elem := { kind := .tile, routes := [(0, { delem := 0, dvc := 1 })] }
theorem witness_MarkersFreezeAndStopsEnd :
    (∀ m ∈ [Marker.round, .cut, .checkpoint], let s := mk m el0 {} 3 (.chan ⟨0, 0, 0⟩)
      s.arg = .chan ⟨0, 0, 0⟩ ∧ (s.chan? ⟨0, 0, 0⟩).map (·.flight) = some [(3, .marker m)] ∧ 3 ≤ s.cycle ∧ 2 < 3 ∧ s.elem? ⟨0, 0⟩ = some el0 ∧ el0.frozen = none ∧ el0.check = false ∧
        s.ctx? r0 = some (regs 0 0 0 0) ∧ s.exempt r0 m = false ∧ s.issueDue r0 = false ∧ (regs 0 0 0 0).freeze = [] ∧ s.route? ⟨0, 0⟩ 0 = some ⟨0, 0, 1⟩ ∧ (∀ p ∈ s.ctxs, p.2.wait = none) ∧ s.gens = []) ∧
    NoRows (mk .round el0 {} 3 .none) ⟨0, 0⟩ ∧ ({ el0 with frozen := some Marker.round } : Elem).frozen ≠ none ∧
    (let s := mk .round el0 { cutDue := some 3 } 3 (.id 0)
     s.arg = .id 0 ∧ s.res? 0 = some { cutDue := some 3 } ∧ ({ cutDue := some 3 } : Res).st = .resident ∧ ⟨0, 0⟩ ∈ s.sources 0) ∧
    (let s := mk .round { el0 with frozen := some .cut } { stopped := true, region := 4 } 3 (.reg 0x430 4)
     s.arg = .reg 0x430 4 ∧ s.ress = [(0, { stopped := true, region := 4 })] ∧ ({ stopped := true, region := 4 } : Res).region = (4 : Word).toNat ∧
      ({ stopped := true } : Res).deferredDrain = false ∧
      s.ctx? ⟨0, 0, 2⟩ = some { st := .frozen, was := .run, stopped := true } ∧ s.ctx? ⟨0, 0, 3⟩ = some { st := .frozen, stopped := true, trapped := true }) ∧
    (∀ p ∈ (mk .round el0 { region := 4 } 3 .none).ress, p.2.region ≠ (5 : Word).toNat ∨ p.2.stopped = false) := by
  refine ⟨by decide +kernel, ?_, by decide, by decide +kernel, by decide +kernel, by decide⟩
  intro t h; cases h; rfl

/-- A saved element with a channel that has room, one that is full, one that is the fill port of a window with room, and that window; COMPAT images below. -/
def rg (st : RState) (e : Elem) (a : StepArg) : State :=
  { arg := a, elems := [(⟨0, 0⟩, e)], tiles := [(⟨0, 0⟩, {})], ress := [(0, { st := st, saveArea := some (0x100000, 0x200000) })],
    ctxs := [(r0, { st := .frozen, was := .run, preempted := true }), (⟨0, 0, 1⟩, { st := .frozen, trapped := true, preempted := true })],
    wins := [(⟨0, 0, 0⟩, { esz := 3, cap := 12, head := 3, fill := 2 })],
    chans := [(⟨0, 0, 0⟩, { en := true, slots := 1 }), (⟨0, 0, 1⟩, { en := true, slots := 1, items := [{}] }), (⟨0, 0, 2⟩, { en := true, slots := 1, port := some 0 })] }
def rr (st : RState) : Res := { st := st, saveArea := some (0x100000, 0x200000) }
/-- A configuration-context group of identifier 7 in the store. -/
def grpFrame : Frame := { kind := 4, sub := 0x0F0, elem := 7, crcOk := true, body := 7, off := 32 }
def cmp (e : Elem) (a : StepArg) : State := { rg .resident e a with ctxStore := [((0, 0), [grpFrame])] }
def selE (l : List (Nat × Nat)) (c : List (Nat × List Frame)) (f : Option (Nat × Nat)) : Elem := { kind := .tile, select := l, cache := c, fetch := f, active := some 1 }
theorem witness_RegionsSaveAndRestore :
    (let s := rg .draining { kind := .tile } (.id 0); s.arg = .id 0 ∧ s.res? 0 = some (rr .draining) ∧ s.drainedOut 0 = false) ∧
    (let s : State := { rg .draining { kind := .tile, frozen := some .round } (.id 0) with ctxs := [(r0, regs 0 0 0 0)], chans := [] }
     s.drainedOut 0 = true ∧ s.ctx? r0 = some (regs 0 0 0 0) ∧ (regs 0 0 0 0).st = .run ∧ s.issueDue r0 = false ∧ s.selfRefresh = 0) ∧
    (let s := rg .saving { kind := .tile } (.id 0); (∀ p ∈ s.ctxs, p.1.rid = 0 → p.2.freeze = []) ∧ MemoryCanonical s ∧ (rr .saving).saveArea = some (0x100000, 0x200000)) ∧
    (∀ st ∈ [RState.saving, .saved], ∀ c ∈ [(⟨0, 0, 0⟩ : ChanRef), ⟨0, 0, 1⟩, ⟨0, 0, 2⟩],
      let s : State := { rg st { kind := .tile, saved := true } (.id 0) with outbox := [(c, {})] }
      s.res? 0 = some (rr st) ∧ s.outbox = [(c, {})] ∧ s.savedAt c = true ∧
        (s.chan? c).map (fun h => (h.port, h.free)) = some (if c.vc = 2 then some 0 else none, if c.vc = 1 then 0 else 1) ∧
        (s.win? ⟨0, 0, 0⟩).map (fun w => (w.cap, decide (w.fill.toNat + 64 / w.size ≤ w.cap.toNat))) = some (12, true)) ∧
    MemoryCanonical (rg .saved { kind := .tile, saved := true } (.id 0)) ∧
    (let s := rg .restoring { kind := .tile, saved := true } (.id 0)
     s.res? 0 = some (rr .restoring) ∧ (rr .restoring).killed = false ∧ s.gens = [] ∧ s.migrs = [] ∧ s.outbox = [] ∧ s.queries = [] ∧ MemoryCanonical s ∧
      s.wins = [(⟨0, 0, 0⟩, { esz := 3, cap := 12, head := 3, fill := 2 })] ∧ (s.elem? ⟨0, 0⟩).isSome = true ∧
      s.ctx? r0 = some { st := .frozen, was := .run, preempted := true } ∧ s.ctx? ⟨0, 0, 1⟩ = some { st := .frozen, trapped := true, preempted := true }) ∧
    -- a select token for a context that the store holds, for one that it does not, for one in the cache; away from the boundary; a fetch that is done
    (let s := cmp (selE [(3, 7)] [] none) (.elem ⟨0, 0⟩)
     s.arg = .elem ⟨0, 0⟩ ∧ s.elem? ⟨0, 0⟩ = some (selE [(3, 7)] [] none) ∧ s.acts ⟨0, 0⟩ = true ∧ s.boundary ⟨0, 0⟩ = true ∧
      s.storedGroup (rr .resident) 7 ≠ none ∧ s.storedGroup (rr .resident) 8 = none) ∧
    ({ cmp (selE [(3, 7)] [] none) .none with ctxs := [(r0, regs 0 0 0 0)] } : State).boundary ⟨0, 0⟩ = false ∧
    (selE [(3, 7)] [(7, [grpFrame])] none).cache.find? (fun p => p.1 == 7) = some (7, [grpFrame]) ∧ (selE [] [] (some (7, 0))).fetch = some (7, 0) ∧
    -- frames for the store of a COMPAT image: with a damaged frame, and sound where the signature verifies
    (∃ f, f ∈ (parseImage (List.replicate 32 1)).frames ∧ f.crcOk = false) ∧ crcErr (parseImage (List.replicate 32 1)) ≠ none ∧
    (Config.ecdsaOk (parseImage imageBytes).digest (parseImage imageBytes).sig (Config.fwImageKey 0 0) = true →
      Config.keySlot 0 = some (Config.sha384 (Config.fwImageKey 0 0)) → crcErr (parseImage imageBytes) = none ∧ sigErr (ls 0 [] []) (parseImage imageBytes) = none ∧
        (ls 0 [] []).storeUsed = 0) := by
  refine ⟨⟨rfl, rfl, by decide +kernel⟩, by decide +kernel, ⟨by decide, canonical_of_all (by decide), rfl⟩, by decide +kernel, canonical_of_all (by decide),
    ⟨rfl, rfl, rfl, rfl, rfl, rfl, canonical_of_all (by decide), rfl, rfl, rfl, by decide +kernel⟩, by decide +kernel, by decide +kernel, by decide +kernel, rfl,
    ⟨_, List.Mem.head _, by decide +kernel⟩, by decide +kernel, ?_⟩
  intro hv hk
  exact ⟨by decide +kernel, image_sig hv hk 0 [] [], rfl⟩

/-- An access of context 0 through GDDR port 1 at page 5 of ASID 1, at that place; bit 56 of the address names the shared half. -/
def tx (hi : Bool) (p : Place) : Acc :=
  { id := 3, issuer := .ctx r0, rid := 0, port := ⟨0, 1⟩, colour := 0, write := false, space := 1, asid := 1, va := 5 * 2 ^ 16 + 8 + if hi then 2 ^ 56 else 0,
    len := 8, place := p, purpose := .load, due := 2 }
/-- Tables of ASID 1 at 0x10000 to 0x50000, with that entry for page 5; none where the list is empty. -/
def tables (e : List Nat) : Memory :=
  ([(0x10000, 0x200001), (0x20000, 0x300001), (0x30000, 0x400001), (0x40000, 0x500001)] ++ e.map fun w => (0x50028, w)).foldl
    (fun (m : Memory) (p : Nat × Nat) => m.write p.1 (bytesLE 8 p.2)) []
def path : List Nat := [0x10000, 0x20000, 0x30000, 0x40000, 0x50028]
def tr (a : Acc) (e : List Nat) (n : Nat) : State :=
  { cycle := n, arg := .id 3, ress := [(0, { asid := 1 })], elems := [(⟨0, 0⟩, { kind := .tile })], accs := [a],
    gddr := tables e, roots := e.map fun _ => ((1, false), 0x10000),
    ctxs := [(r0, waits (.load 3) (.mld ⟨al, 1, 0, false, 3, .s 4, 0, 0⟩))] }
/-- A leaf of 64 KiB for frame 0x70000 with R, W and A. -/
def pt0 : Nat := 0x70002F
theorem path_tables (s : State) (va : Nat) (hr : tget s.roots (1, false) = some 0x10000) (hv : va = 5 * 2 ^ 16 ∨ va = 5 * 2 ^ 16 + 8)
    (h1 : s.gddr.word 0x10000 8 = 0x200001) (h2 : s.gddr.word 0x20000 8 = 0x300001) (h3 : s.gddr.word 0x30000 8 = 0x400001)
    (h4 : s.gddr.word 0x40000 8 = 0x500001) : EntryPath s 1 false va path := by
  rcases hv with rfl | rfl <;>
    exact ⟨0x10000, 0x10000, 0x20000, 0x30000, 0x40000, 0x50028, hr, rfl, by decide, by simp [Leads, h1], by simp [named, h1], by simp [Leads, h2],
      by simp [named, h2], by simp [Leads, h3], by simp [named, h3], by simp [Leads, h4], by simp [named, h4]⟩
theorem path_tr (a : Acc) (w n va : Nat) (hw : w ∈ [pt0, 0x70003F, 0x70002D, 0x7000AF, 0x70002E]) (hv : va = 5 * 2 ^ 16 ∨ va = 5 * 2 ^ 16 + 8) :
    EntryPath (tr a [w] n) 1 false va path := by
  have h : ∀ w ∈ [pt0, 0x70003F, 0x70002D, 0x7000AF, 0x70002E], Memory.word (tables [w]) 0x10000 8 = 0x200001 ∧ Memory.word (tables [w]) 0x20000 8 = 0x300001 ∧
    Memory.word (tables [w]) 0x30000 8 = 0x400001 ∧ Memory.word (tables [w]) 0x40000 8 = 0x500001 := by decide +kernel
  exact path_tables _ va rfl hv (h w hw).1 (h w hw).2.1 (h w hw).2.2.1 (h w hw).2.2.2
theorem theAcc (a : Acc) (h : a.id = 3) (e : List Nat) (n : Nat) : TheAccess (tr a e n) 3 a :=
  ⟨List.Mem.head _, h, fun b hb _ => by simpa [tr] using hb⟩
theorem witness_WalksResolveAndMigrate :
    (∀ e n, TheAccess (tr (tx false .parked) e n) 3 (tx false .parked)) ∧
    (let a := tx false .parked; let s := tr a [pt0] 2
     s.arg = .id 3 ∧ a.place = .parked ∧ s.invals = [] ∧ a.due ≤ s.cycle ∧ 1 < a.due ∧ a.va / 2 ^ 56 % 2 = 0 ∧ (s.port a.port).deadq.length < 256 ∧
      tget (tr a [] 2).roots (a.asid, a.bulk) = none ∧ tget s.roots (a.asid, a.bulk) = some 0x10000 ∧
      ({ s with selfRefresh := 1 } : State).selfRefresh.getLsbD ((0x10000 + 8 * (a.va / 2 ^ 48 % 2 ^ 9)) / 2 ^ 35) = true ∧ s.selfRefresh = 0) ∧
    -- each kind of entry at the end of the path: good, held, unreadable, of bulk memory, not valid
    (∀ w ∈ [pt0, 0x70003F, 0x70002D, 0x7000AF, 0x70002E], EntryPath (tr (tx false .parked) [w] 2) 1 false (tx false .parked).va path ∧
      EntryPath (tr (tx false .parked) [w] 2) 1 false ((tx false .parked).va / 2 ^ 16 * 2 ^ 16) path) ∧
    (let a := tx false .parked; let s (w : Nat) : State := tr a [w] 2; let e (w : Nat) : Nat := (s w).gddr.word 0x50028 8
     (∀ w ∈ [pt0, 0x70003F, 0x70002D, 0x7000AF], e w = w ∧ GoodLeaf (s w) 0x50028) ∧ e 0x70002E % 2 = 0 ∧ e 0x70003F / 2 ^ 4 % 2 = 1 ∧
      e pt0 / 2 ^ 4 % 2 = 0 ∧ Permits (e pt0) a ∧ e pt0 / 2 ^ 7 % 4 = (if a.bulk then 1 else 0) ∧ ¬ Permits (e 0x70002D) a ∧ e 0x70002D / 2 ^ 4 % 2 = 0 ∧
      e 0x7000AF / 2 ^ 4 % 2 = 0 ∧ Permits (e 0x7000AF) a ∧ a.bulk = false ∧ e 0x7000AF / 2 ^ 7 % 4 = 1) ∧
    (({} : State).launchHeld = [] ∧ ({ launchHeld := [0] } : State).launchHeld ≠ ([] : List Beat)) ∧
    -- dead letters: HELD while the page moves and after, ABSENT and DENIED of the shared half, ABSENT with data in bulk memory and brought back, of a killed region, MALFORMED
    (∀ m hi, TheAccess (tr (tx hi (.dead m)) [] 2) 3 (tx hi (.dead m))) ∧
    (let s : State := { tr (tx false (.dead .held)) [pt0] 2 with migrs := [{ page := ⟨1, false, 5⟩ }] }
     (∃ g ∈ s.migrs, g.page = (tx false (.dead .held)).page) ∧ ¬ ∃ g ∈ (tr (tx false (.dead .held)) [pt0] 2).migrs, g.page = (tx false (.dead .held)).page) ∧
    ((tx true (.dead .absent)).va / 2 ^ 56 % 2 = 1 ∧ (tx true (.dead .absent)).asked = false ∧ (tr (tx true (.dead .absent)) [] 2).faultq.length < 1024 ∧
      (tx true (.dead .absent)).asid < 2 ^ 12 ∧ ({ tx true (.dead .absent) with asked := true } : Acc).asked = true) ∧
    (∀ w ∈ [pt0, 0x7000AF], let s := tr (tx false (.dead .absent)) [w] 2
      EntryPath s 1 false ((tx false (.dead .absent)).va / 2 ^ 16 * 2 ^ 16) path ∧ GoodLeaf s 0x50028 ∧
        s.gddr.word 0x50028 8 / 2 ^ 7 % 4 = (if w = pt0 then 0 else 1) ∧ (s.res? 0).map (·.killed) = some false) ∧
    (let s : State := { tr (tx true (.dead .absent)) [] 2 with ress := [(0, { asid := 1, killed := true })] }
     (s.res? (tx true (.dead .absent)).rid).map (·.killed) = some true ∧ (∀ c k, (tx true (.dead .absent)).purpose ≠ .unit c k) ∧ TheAccess s 3 (tx true (.dead .absent))) ∧
    (let s := tr (tx false (.dead .malformed)) [] 2; ∃ x, s.ctx? r0 = some x ∧ x.wait = some (.load 3)) ∧
    -- the host's answers for the page and for another
    (let a := tx true (.dead .absent)
     (let s : State := { tr a [] 2 with arg := .reg 0x210 (2 ^ 40 + 5) }; s.accs = [a] ∧ a.va / 2 ^ 16 % 2 ^ 41 = (2 ^ 40 + 5 : Word).toNat % 2 ^ 41 ∧
       a.bulk = (2 ^ 40 + 5 : Word).getLsbD 41 ∧ (2 ^ 40 + 5 : Word).getLsbD 63 = false ∧ (2 ^ 63 + 2 ^ 40 + 5 : Word).getLsbD 63 = true) ∧
      a.va / 2 ^ 16 % 2 ^ 41 ≠ (6 : Word).toNat % 2 ^ 41) ∧
    -- a spill write that is due, fails and does not
    (let s : State := { tr (tx false (.dead .absent)) [] 2 with ports := [(⟨0, 1⟩, { deadq := [3], retry := [(3, 2)] })] }
     (s.acc? 3).isSome = true ∧ (s.port ⟨0, 1⟩).retry = [(3, 2)] ∧ 2 ≤ s.cycle ∧ s.spillFails ⟨0, 1⟩ = false ∧ ({ s with linksDown := [⟨0, 1⟩] } : State).spillFails ⟨0, 1⟩ = true) ∧
    -- each stage of a migration of a page whose data stand in bulk memory
    (∀ n ∈ [0, 1, 2, 3, 4], let m : Migr := { page := ⟨1, false, 5⟩, stage := n, target := some 0x90000 }
      let s : State := { arg := .page ⟨1, false, 5⟩, migrs := [m], gddr := tables [0x7000AF], roots := [((1, false), 0x10000)], ledger := [(1, true, 0x70000)] }
      s.arg = .page ⟨1, false, 5⟩ ∧ s.migrs = [m] ∧ EntryPath s 1 false (5 * 2 ^ 16) path ∧ GoodLeaf s 0x50028 ∧ s.accs = [] ∧ s.invals = [] ∧ s.gens = [] ∧
        s.selfRefresh = 0 ∧ MemoryCanonical s ∧ (∀ q ∈ path.take 4, q + 8 ≤ 0x50028 ∨ 0x50028 + 8 ≤ q) ∧ s.gddr.word 0x50028 8 / 2 ^ 7 % 4 = 1 ∧
        m.target = some 0x90000 ∧ 0x90000 < 2 ^ 52 ∧ 0x90000 % 2 ^ 16 = 0 ∧ (∀ q ∈ path, q + 8 ≤ 0x90000 ∨ 0x90000 + 2 ^ 16 ≤ q)) ∧
    -- an invalidation of a range with an access in it, and without
    (let a := { tx true (.phys false 0) with level := 1 }; let s : State := { tr a [] 2 with arg := .reg 0x228 1, bar0 := { invalStart := 2 ^ 56, invalLength := 0x100000 } }
     s.arg = .reg 0x228 1 ∧ (1 : Word).getLsbD 0 = true ∧ s.bar0.invalLength ≠ 0 ∧ s.invals = [] ∧ a ∈ s.accs ∧ a.level < 2 ∧
      a.va < (s.bar0.invalStart.toNat + s.bar0.invalLength.toNat + 2 ^ 16 - 1) / 2 ^ 16 * 2 ^ 16 ∧ s.bar0.invalStart.toNat / 2 ^ 16 * 2 ^ 16 < a.va + a.len ∧
      ({ s with accs := [] } : State).accs = [] ∧ (∀ va ∈ [2 ^ 56, 2 ^ 56 + 0xFFFFF], leafShift s.gddr va 5 1 s.bar0.sharedRootMain.toNat = 16) ∧
      s.bar0.sharedRootBulk = s.bar0.sharedRootMain) := by
  refine ⟨fun e n => theAcc _ rfl e n, by decide +kernel, fun w hw => ⟨path_tr _ w 2 _ hw (.inr rfl), path_tr _ w 2 _ hw (.inl rfl)⟩,
    by unfold Permits GoodLeaf; decide +kernel, by decide +kernel, fun m hi => theAcc _ rfl _ _, by decide +kernel, by decide +kernel, ?_,
    ⟨by decide +kernel, nofun, List.Mem.head _, rfl, fun b hb _ => by simpa [tr] using hb⟩, ⟨_, rfl, rfl⟩, by decide +kernel,
    by decide +kernel, ?_, by decide +kernel⟩
  · intro w hw
    refine ⟨path_tr _ w 2 _ (by simp at hw ⊢; tauto) (.inl rfl), ?_⟩
    revert w; unfold GoodLeaf; decide +kernel
  · intro n _ m s
    have p := path_tr (tx false .parked) 0x7000AF 2 (5 * 2 ^ 16) (by decide) (.inl rfl)
    have g : GoodLeaf { gddr := tables [0x7000AF] } 0x50028 := by unfold GoodLeaf; decide +kernel
    have c : MemoryCanonical { gddr := tables [0x7000AF] } := canonical_of_all (by decide +kernel)
    have b : ({ gddr := tables [0x7000AF] } : State).gddr.word 0x50028 8 / 2 ^ 7 % 4 = 1 := by decide +kernel
    exact ⟨rfl, rfl, p, g, rfl, rfl, rfl, rfl, c, by decide, b, rfl, by decide, by decide, by decide⟩

/-- Residency 0 with one letter, a supervisor window 2 of context 0 of element 0 that holds n of its two elements. -/
def lw (r : Res) (n : BitVec 16) (a : StepArg) : State :=
  { cycle := 9, arg := a, ress := [(0, r)], elems := [(⟨0, 0⟩, { kind := .tile })], ctxs := [(r0, regs 0 0 0 0)], tiles := [(⟨0, 0⟩, {})],
    wins := [(⟨0, 0, 2⟩, { esz := 5, cap := 2, fill := n })] }
def let0 : Letter := { cycle := 8, tile := 0, who := 0, body := 4 }
theorem witness_LettersLinksAndCaptures :
    (let r : Res := { letters := [let0] }; let s := lw r 0 (.id 0)
     s.arg = .id 0 ∧ s.res? 0 = some r ∧ r.report = [] ∧ let0.cycle < s.cycle ∧ let0.host = false ∧ r.supWin = none) ∧
    (let r : Res := { letters := [let0], supWin := some (0, 0, 2) }; let s := lw r 1 (.id 0)
     r.supWin = some (0, 0, 2) ∧ r.st = .resident ∧ s.ctx? ⟨0, 0, 0⟩ = some (regs 0 0 0 0) ∧ s.win? ⟨0, 0, 2⟩ = some { esz := 5, cap := 2, fill := 1 } ∧
      (s.elem? ⟨0, 0⟩).map (·.saved) = some false ∧ MemoryCanonical s ∧ (1 : BitVec 16).toNat + 0 < (2 : BitVec 16).toNat ∧ (2 : BitVec 16).toNat ≤ (2 : BitVec 16).toNat + 0) ∧
    -- a stall at DL_QUIET and just below, with a stuck set and without
    (let r : Res := { stallCnt := 65536 }; let s := lw r 0 (.id 0)
     r.st = .resident ∧ r.stopped = false ∧ r.armed = true ∧ r.dlQuiet.toNat ≤ r.stallCnt.toNat ∧ s.stuckSet 0 = [] ∧ (65535 : Word).toNat < r.dlQuiet.toNat) ∧
    ({ lw { stallCnt := 65536 } 0 (.id 0) with ctxs := [(r0, waits (.window 2) (.wread ⟨al, 2, 5, .v 1, 0, 0⟩))] } : State).stuckSet 0 ≠ [] ∧
    -- retries below and at the limit, a link that is down already
    (let s : State := { arg := .link ⟨7, 3⟩, retries := [(⟨7, 3⟩, 1024)] }
     s.arg = .link ⟨7, 3⟩ ∧ 1024 ≤ (tget s.retries ⟨7, 3⟩).getD 0 ∧ (⟨7, 3⟩ : LinkRef) ∉ s.linksDown ∧ s.ress = [] ∧ (tget s.retries ⟨6, 3⟩).getD 0 < 1024 ∧ (7 < 8)) ∧
    ({ arg := .port ⟨0, 1⟩ } : State).arg = .port ⟨0, 1⟩ ∧
    (let s := lw {} 0 (.kill ⟨0, 0⟩ 3); s.arg = .kill ⟨0, 0⟩ 3 ∧ s.res? 0 = some {} ∧ ({} : Res).killed = false ∧ ({} : Res).st = .resident ∧ ({ killed := true } : Res).killed = true) ∧
    (({ arg := .reg 0x458 7 } : State).arg = .reg 0x458 7 ∧ 0x458 = 0x440 + 8 * (3 : Fin 4).val) ∧
    -- a capture, with room for its three elements and without
    (let x : Ctx := { regs 0 0 0 0 with capture := some { pmc := [], cycle := 0 } }
     let s : State := { lw {} 0 (.reg 0x420 (2 ^ 40)) with ctxs := [(r0, x)], bar0 := { traceBase := 0x1000, traceSize := 4 } }
     s.captureCtx (2 ^ 40) = some r0 ∧ s.ctx? r0 = some x ∧ (2 ^ 40 : Word).getLsbD 40 = true ∧ (0 : Word).getLsbD 40 = false ∧ 3 ≤ s.bar0.traceRoom ∧
      ({ s.bar0 with traceHead := 1 } : Bar0).traceRoom < 3 ∧ MemoryCanonical s ∧ (regs 0 0 0 0).capture = none) := by
  refine ⟨by decide +kernel, ⟨rfl, rfl, rfl, rfl, rfl, canonical_of_all (by decide), by decide, by decide⟩, by decide +kernel, by decide +kernel, by decide +kernel, rfl,
    by decide +kernel, by decide +kernel, by decide +kernel, rfl, by decide, by decide, by decide +kernel, by decide +kernel, canonical_of_all (by decide), rfl⟩

/-- Each bring-up stage and its failure; FW_LOAD written and not; each power command on a free die, an occupied one, a tripped one at 95 and 96 degrees, one that is pending; the trip's threshold. -/
theorem witness_BringUpPowerAndTheTrip :
    (({ arg := .reg 0x28 0x5253 } : State).arg = .reg 0x28 0x5253 ∧ (1 : Word) ≠ 0x5253) ∧
    (∀ n ∈ [1#4, 5, 6, 7], let s : State := { sec := { bootStage := n }, arg := .bool true }
      s.arg = .bool true ∧ s.sec.bootErr = 0 ∧ s.sec.ready = false ∧ 1 ≤ s.sec.bootStage.toNat ∧ s.bar0.fwLoad ≠ 1) ∧
    (({ bootErr := 3 } : Sec).bootErr ≠ 0 ∧ ({ bar0 := { fwLoad := 1 } } : State).bar0.fwLoad = 1) ∧
    -- a firmware that the security root accepts, where its signature and its version do
    (∀ s : State, s.sec.life = .field →
      let bs := s.host.read s.bar0.fwAddr.toNat s.bar0.fwLen.toNat
      Config.ecdsaOk (Config.sha384 bs) (Config.fwParse bs).1 (Config.fwParse bs).2.1 = true → Config.sha384 (Config.fwParse bs).2.1 = Config.fwKey →
      Config.fwMinVersion ≤ (Config.fwParse bs).2.2 → FirmwareGood s (Config.sha384 bs) (Config.fwParse bs).2.2) ∧
    (∀ s : State, s.sec.life = .blank → ∀ h v, ¬ FirmwareGood s h v) ∧
    (∀ c ∈ [0#64, 0x10, 0x20, 0x30], ({ arg := .reg 0x68 (c + 7) } : State).arg = .reg 0x68 (c + 7) ∧ (7 : Fin 8).val = (c + 7).toNat % 8) ∧
    ({} : State).powerCmd = none ∧ ({ powerCmd := some ⟨7, .idle, false, 10⟩ } : State).powerCmd ≠ none ∧ (0x107 : Word).getLsbD 8 = true ∧
    ((95 : Byte).toNat ≤ 95 ∧ 95 < (96 : Byte).toNat ∧ ({ tripped := true } : Bar0).tripped = true) ∧
    Occupied { ress := [(0, { dies := [(7, 1, 1)] })] } 7 ∧ ¬ Occupied {} 7 ∧ ({} : State).power.get 7 ≠ .park ∧
    ({ power := Vector.replicate 8 .park } : State).power.get 7 = .park ∧
    (let s : State := { cycle := 10, powerCmd := some ⟨7, .idle, true, 10⟩ }; s.powerCmd = some ⟨7, .idle, true, 10⟩ ∧ 10 ≤ s.cycle ∧ 9 < 10) ∧
    (let s : State := { arg := .temp 7 105 }; s.arg = .temp 7 105 ∧ 105 ≤ (105 : Byte).toNat ∧ (104 : Byte).toNat < 105 ∧ s.launches = [] ∧ ({ s with bar0 := { s.bar0 with tripped := true } } : State).launches = []) := by
  refine ⟨⟨rfl, by decide⟩, by decide, by decide, ?_, ?_, by simp, rfl, by decide, by decide, by decide, .inl ⟨_, List.Mem.head _, rfl, _, List.Mem.head _, rfl⟩, ?_, by decide, by decide, by decide, by decide⟩
  · intro s hl bs h1 h2 h3
    exact ⟨(Config.fwParse bs).1, (Config.fwParse bs).2.1, rfl, rfl, h1, h2, h3, .inr hl⟩
  · intro s hl h v ⟨_, _, _, _, _, _, _, hh⟩
    simp [hl] at hh
  · intro h
    rcases h with ⟨p, hp, _⟩ | ⟨p, hp, _⟩ <;> cases hp

/-- A feature that is closed in FIELD, one that a token has opened, a word of main memory under FREEZE and a reserved class; tokens of the right length and magic and of others; each life cycle. -/
theorem witness_DebugPortAndSecurityRoot :
    (let s : State := { sec := { life := .field } }; ¬ Open s 0 ∧ ¬ Open s 1) ∧ (let s : State := { sec := { life := .field, openFeatures := 3 } }; Open s 0 ∧ Open s 1) ∧ Open {} 2 ∧
    (let s : State := { dbg := { select := BitVec.ofNat 64 (13 * 2 ^ 14), frozen := true } }
     s.dbg.select.toNat / 2 ^ 14 % 2 ^ 4 = 13 ∧ s.dbg.frozen = true ∧ physOk false (8 * s.dbg.word.toNat) 8 = true) ∧
    (BitVec.ofNat 64 (15 * 2 ^ 14)).toNat / 2 ^ 14 % 2 ^ 4 = 15 ∧ ({} : Dbg).frozen = false ∧
    (∀ l ∈ [Life.blank, .provisioned, .field, .retired], ({ sec := { life := l }, arg := .data 0 [0x56] } : State).arg = .data 0 [0x56] ∧ [(0x56 : Byte)].length ≠ 320) ∧
    (∀ w ∈ [0#64, 1, 2, 3], ({ arg := .reg 0x508 w } : State).arg = .reg 0x508 w) ∧ (1 : Word).getLsbD 0 = true ∧ (0 : Word).getLsbD 0 = false ∧ 0xB60 ≤ 0xB60 := by
  unfold Open
  refine ⟨by decide, by decide, by decide, by decide, by decide, rfl, by simp, by simp, by decide, by decide, by decide⟩

theorem witness_DecodeEncode : wf (.add ⟨al, 3, 1, 2⟩) = true ∧ encode (.add ⟨al, 3, 1, 2⟩) = some 0x0100000301020000 := by decide +kernel
theorem witness_WordsHaveOneInstruction : decode 0x0100000301020000 = .ok (.add ⟨al, 3, 1, 2⟩) := by rfl
/-- A granted context on a word that decodes, with a mark on a register that the word reads, on its destination and on none; the same word turned off by its guard; a word that does not decode, and one of a window that is not there; an agenda without a grant. -/
def gr (w : Word) (bad : List Nat) : State :=
  { ctxs := [(r0, { regs 0 0 0 0 with bad := bad })], tiles := [(⟨0, 0⟩, { imem := [w] })], ress := [(0, {})], grant := some r0 }
theorem witness_StepRunsDecodedWord :
    (∀ l, (gr 0x0100000301020000 l).grant = some r0 ∧ (gr 0x0100000301020000 l).ctx? r0 = some { regs 0 0 0 0 with bad := l }) ∧
    decode ((gr 0x0100000301020000 []).wordAt r0 0) = .ok (.add ⟨al, 3, 1, 2⟩) ∧ (gr 0x0100000301020000 []).noWindow r0.tile (.add ⟨al, 3, 1, 2⟩) = false ∧
    (let f (g : Guard) (l : List Nat) : Bool := readsBad (.add ⟨g, 3, 1, 2⟩) { regs 0 0 0 0 with bad := l }
     f al [2] = true ∧ f al [3] = false ∧ f al [] = false ∧ f ⟨false, 1⟩ [2] = false ∧ f ⟨false, 1⟩ [0xC1] = true) ∧
    decode ((gr 0x9100200201000002 []).wordAt r0 0) = .ok (.wread ⟨al, 2, 2, .s 1, 0, 2⟩) ∧
    (gr 0x9100200201000002 []).noWindow r0.tile (.wread ⟨al, 2, 2, .s 1, 0, 2⟩) = true ∧ (ws (wx 0)).noWindow r0.tile (.wread ⟨al, 2, 2, .s 1, 0, 2⟩) = false ∧
    (match decode ((gr 0 []).wordAt r0 0) with | .error _ => true | .ok _ => false) = true ∧
    (let s : State := { agenda := [(.nop, .none)] }; s.grant = none ∧ s.agenda = [(.nop, .none)]) ∧
    decode (BitVec.ofNat 64 0x0100000301020000) = .ok (.add ⟨al, 3, 1, 2⟩) ∧ 0x0100000301020000 < 2 ^ 64 :=
  ⟨fun _ => ⟨rfl, rfl⟩, rfl, by decide +kernel, by decide +kernel, rfl, by decide +kernel, by decide +kernel, by decide +kernel, ⟨rfl, rfl⟩, rfl, by decide⟩
theorem witness_StepKeepsMemoryCanonical : MemoryCanonical State.reset ∧ ∃ t, step State.reset = .next t := ⟨canonical_of_all (by decide), _, rfl⟩

/-- Main memory that holds nothing has a frame for the smallest save area, wherever the search starts. -/
theorem findOn_empty (s : State) (h : s.taken false = []) (hz : s.selfRefresh = 0) : s.findOn false (2 ^ 16) ((List.range 6).map (0 * 6 + ·)) =
    some (Config.frameHint s.nextAlloc % (devSize false / 2 ^ 16) * 2 ^ 16) := by
  have hb := Nat.mod_lt (Config.frameHint s.nextAlloc) (show 0 < devSize false / 2 ^ 16 by decide)
  have hd : devSize false = 65024 * 2 ^ 16 := by decide
  have h0 : devBase false 0 = 0 := by decide
  have ha : ∀ a, s.asleep a = false := fun a => by simp [State.asleep, hz]
  rw [show (List.range 6).map (0 * 6 + ·) = 0 :: [1, 2, 3, 4, 5] by decide]
  simp only [State.findOn, State.findFrames, h, ha, Bool.not_false, Bool.or_true, List.find?_cons, h0, Nat.zero_add, Nat.zero_le, decide_true, Bool.true_and, List.all_nil, Bool.and_true]
  rw [hd] at hb ⊢
  rw [show 65024 * 2 ^ 16 / 2 ^ 16 = 65024 by decide] at hb ⊢
  rw [decide_eq_true (by omega)]

/-- An image without elements whose batch is one token. -/
def bare : Image := { frames := [{ kind := 4, sub := 0, elem := 0, crcOk := true, body := 1 <<< 96, off := 0 }] }
def bareRes (g : Nat) : Res := { asid := 1, image := bare, batch := [7], region := g, st := .saved, width := 0, height := 0 }
def grantState : State := { sec := { ready := true, life := .field }, launches := [(0, { seq := 0, asid := 1, opened := true, mapSpace := 1, map := 0, blocks := [{ image := bare, bases := some [], tokens := [(7, 0)] }] })] }
def grantCandidate : Cand := { tag := 0, block := 0, rid := none, cls := 0, work := 1, age := 0, seq := 0 }

theorem place_empty (s : State) (h : s.taken false = []) (hz : s.selfRefresh = 0) : ∃ a, s.place 0 bare [] = some ({ dies := [], sites := [], mainPort := [], hubPort := [], saveArea := a, spills := [] }, s) := by
  have hc : ∀ up, s.chooseDies 0 0 0 up [] = some [] := by intro up; simp [State.chooseDies, combos, State.bridged, dieRows]
  have hl : s.launchBytes [] = [] := rfl
  have hr : s.reserveAreas 0 (2 ^ 16) [] = some (Config.frameHint s.nextAlloc % (devSize false / 2 ^ 16) * 2 ^ 16, []) := by
    unfold State.reserveAreas
    have := findOn_empty s h hz
    simp only [List.headD_nil]
    rw [this]
    rfl
  have f1 : Image.streams bare = [] := by decide +kernel
  have f2 : Image.ndies bare = 0 := by decide +kernel
  have f3 : Image.width bare = 0 := by decide +kernel
  have f4 : Image.height bare = 0 := by decide +kernel
  have f5 : Image.saveSize bare = 2 ^ 16 := by decide +kernel
  have f6 : ∀ k, Image.ofKind bare k = [] := by intro k; cases k <;> decide +kernel
  have f7 : Image.islandPorts bare = [] := by decide +kernel
  have hd : ∀ l, s.dealSites bare l = some ([], s) := fun l => by simp [State.dealSites, Image.dealt, f6, Image.deal]
  have hq : ∀ ps, s.requestPorts [] ps [] = some [] := fun _ => rfl
  have hp : s.patternsAsleep [] = false := by simp [State.patternsAsleep]
  refine ⟨Config.frameHint s.nextAlloc % (devSize false / 2 ^ 16) * 2 ^ 16, ?_⟩
  unfold State.place
  simp only [f1, f2, f3, f4, f5, f6, f7, hl, hc, hr, hd, hq, hp, Bool.false_eq_true, List.filterMap_nil, List.map_nil, bindStreams, List.length_nil, List.zip_nil_left,
    List.filter_nil, List.append_nil, Nat.not_lt_zero, if_false]

theorem build_bare (s : State) (hn : s.nextRid = 0) (hr : s.ress = []) (hp : s.ledger = []) (hz : s.selfRefresh = 0) (hm : s.migrs = [])
    (he : s.elems = []) (hg : s.gens = []) (hw : s.wins = []) (hb : s.busy = []) (hs : s.shards = []) :
    ∃ u, s.build { asid := 1, image := bare, batch := [7] } [] = some u ∧ u.launches = s.launches ∧ u.ress.map (fun p => p.2.st) = [.loading] := by
  obtain ⟨a, hpl⟩ := place_empty { s with nextRid := 0 + 1, ress := [(0, { region := s.freeRegion, asid := 1, batch := [7], st := .saved, image := bare, width := 0, height := 0 })] }
    (by simp [State.taken, hp, hm, hs]) hz
  have f1 : bare.capTable 1 [] = [] := by decide +kernel
  have f2 : bare.islandPorts = [] := by decide +kernel
  have f4 : bare.supWin = none := by decide +kernel
  have f5 : bare.width = 0 := by decide +kernel
  have f6 : bare.height = 0 := by decide +kernel
  have f7 : bare.prio = 0 := by decide +kernel
  unfold State.build
  simp only [f1, f2, f4, f5, f6, f7, hn, hr, tput]
  rw [hpl]
  refine ⟨_, rfl, ?_, ?_⟩
  · simp [State.setGenRemap, State.fillBatch, State.streamDevs, State.movePages, State.active, State.settleIn, State.modRes, tmod, State.elem?, State.win?, tget, tput, sortBy, he, hg, hw, hb]
  · simp [State.setGenRemap, State.fillBatch, State.streamDevs, State.movePages, State.active, State.settleIn, State.modRes, tmod, State.elem?, State.win?, tget, tput, sortBy, he, hg, hw, hb]

theorem grantState_grants : ∃ u, grantState.grantCand grantCandidate = some u ∧ u.cands = [] := by
  obtain ⟨u, h1, h2, h3⟩ := build_bare grantState rfl rfl rfl rfl rfl rfl rfl rfl rfl rfl
  have e : grantState.grantCand grantCandidate = (grantState.build { asid := 1, image := bare, batch := [7] } []).bind fun s =>
      (s.modLaunch 0 fun l => l.modBlock 0 fun b => { b with tokens := b.tokens.drop 1 }).storeGroups 0 0 bare := by
    have f : bare.batch = 1 := by decide +kernel
    simp [State.grantCand, grantCandidate, Life.loads, State.loadBlock, grantState, tget, State.basesOf, f]
  rw [e, h1, Option.bind_some]
  have hc : bare.compat = false := by decide +kernel
  have hst : ∀ x : State, x.storeGroups 0 0 bare = some x := fun x => by simp [State.storeGroups, hc]
  rw [hst]
  refine ⟨_, rfl, ?_⟩
  obtain ⟨p, hp1, hp2⟩ : ∃ p, u.ress = [p] ∧ p.2.st = .loading :=
    List.map_eq_singleton_iff.mp h3
  simp [State.cands, State.modLaunch, Launch.modBlock, h2, grantState, tmod, tget, tput, hp1, hp2]
/-- The scheduler grants its one candidate, a block of an image without elements. -/
theorem witness_LaunchesRunAndEnd_grant : (let s : State := { grantState with sched := true }
    s.sched = true ∧ s.sec.ready = true ∧ s.cands = [grantCandidate] ∧ 0 < grantCandidate.work ∧ (∃ u, State.grantCand { s with sched := false } grantCandidate = some u ∧ u.cands = []) ∧
    grantCandidate.rid = none ∧ ((tget s.launches grantCandidate.tag).bind fun l => l.blocks[grantCandidate.block]?).isSome = true) :=
  ⟨rfl, rfl, by decide +kernel, by decide, grantState_grants, rfl, by decide +kernel⟩

/-! Witnesses of the clauses that the theorems above leave out -/

theorem picks_self (rm : RM) (neg : Bool) (u n : Nat) : Picks rm neg u (n : ℝ) n := by simp [Picks]

/-- 1 exactly, 2^16 above the greatest value of f16, and 2^-20, in f16: the mantissa of ten bits, in units of the last place, normal and subnormal; and 200 and −3 for a conversion to i8. -/
theorem witness_RoundingFollowsTheMode_once : fmtOf .f16 = some (5, 10, 15, 65504) ∧
    ((2 : ℝ) ^ (0 : ℤ) ≤ |1| ∧ |(1 : ℝ)| < 2 ^ ((0 : ℤ) + 1) ∧ (false = true ↔ (1 : ℝ) < 0) ∧ max ((0 : ℤ) - 10) (1 - 15 - 10) = -10 ∧
      Picks .rne false 0 (|(1 : ℝ)| / 2 ^ (-10 : ℤ)) 1024) ∧
    (|(2 : ℝ) ^ 16| < 2 ^ ((16 : ℤ) + 1) ∧ max ((16 : ℤ) - 10) (1 - 15 - 10) = 6 ∧ Picks .rup true 0 (|(2 : ℝ) ^ 16| / 2 ^ (6 : ℤ)) 1024) ∧
    (|(2 : ℝ) ^ (-20 : ℤ)| < 2 ^ ((-20 : ℤ) + 1) ∧ max ((-20 : ℤ) - 10) (1 - 15 - 10) = -24 ∧ Picks .sa false 5 (|(2 : ℝ) ^ (-20 : ℤ)| / 2 ^ (-24 : ℤ)) 16) ∧
    (Ty.isInt .i8 = true ∧ Picks .rne false 0 (((200 : Nat) : ℝ) * 2 ^ (0 : ℤ)) 200 ∧ Ty.imax .i8 < (200 : ℤ) ∧ Picks .rne true 0 (((3 : Nat) : ℝ) * 2 ^ (0 : ℤ)) 3 ∧
      Ty.imin .i8 ≤ (-3 : ℤ)) ∧
    ((5 : Nat) ≠ 0 ∧ Ty.isFloat .f16 = true ∧ fmtOf .e3m2 ≠ none) ∧ (∀ v ∈ [FV.fin true 3 (-1)], ∃ n m e, v = .fin n m e) := by
  have p (rm : RM) (neg : Bool) (u n : Nat) (y : ℝ) (h : y = n) : Picks rm neg u y n := h ▸ picks_self rm neg u n
  refine ⟨rfl, ⟨by norm_num, by norm_num, by norm_num, by decide, p _ _ _ _ _ (by norm_num)⟩, ⟨by norm_num, by decide, p _ _ _ _ _ (by norm_num)⟩,
    ⟨by norm_num [abs_of_pos], by decide, p _ _ _ _ _ (by norm_num [abs_of_pos])⟩,
    ⟨by decide, p _ _ _ _ _ (by norm_num), by decide, p _ _ _ _ _ (by norm_num), by decide⟩, ⟨by decide, by decide, by decide⟩, ?_⟩
  intro v h; simp at h; exact ⟨_, _, _, h⟩

/-- A tile whose weight, floor and barrier registers a supervisor writes, and a tile of an element that is placed. -/
theorem witness_SystemRegisterWrites_tile : (let x := boss (regs 5 3 0 0); let s : State := { held x {} with tiles := [(⟨0, 0⟩, {})], elems := [(⟨0, 0⟩, { kind := .tile })] }
    Issues s r0 x ∧ x.sup = true ∧ s.tile? r0.tile = some {} ∧ (⟨al, 1, 0x107⟩ : SmovOps).reg.toNat = 0x100 + (7 : Fin 8).val ∧
    (⟨al, 1, 0x10F⟩ : SmovOps).reg.toNat = 0x108 + (7 : Fin 8).val ∧ (⟨al, 1, 0x35F⟩ : SmovOps).reg.toNat = 0x300 + (95 : Fin 96).val ∧
    (⟨al, 1, 0x130⟩ : SmovOps).reg.toNat = 0x130 ∧ (s.elem? r0.tile).isSome = true) :=
  ⟨⟨rfl, rfl⟩, rfl, rfl, by decide, by decide, by decide, by decide, rfl⟩

/-- A target in WAIT for a load, for its post, for an engine's answer, and for a group barrier's. -/
theorem witness_ContextControl_wait :
    ∀ y ∈ [({ st := .wait, wait := some (.load 3) } : Ctx), { st := .wait, wait := some .postSent }, { st := .wait, wait := some (.reply 3), waitIns := some (.ptake ptakeW) },
      { st := .wait, wait := some (.reply 3), waitIns := some (.xbar ⟨al, 5, 9, 10, false⟩) }],
    (two y).ctx? ⟨0, 0, 1⟩ = some y ∧ y.st = .wait ∧ (two y).freezeTarget ⟨0, 0, 1⟩ y ≠ some r0 := by decide +kernel

/-- A block of finite values that are not all 0, in a format with a greatest value, and registers of a transform at the end of the file. -/
theorem witness_ConversionsAndBlockScaling_finite : (let x := (regs 0xFF 3 0 0).sv 4 0x3F80
    blockTop .e4m3 ≠ none ∧ (x.blockSrc 4 false).all (fun v => match v with | .fin .. => true | _ => false) = true ∧
    (x.blockSrc 4 false).any (fun v => match v with | .fin _ m _ => m ≠ 0 | _ => false) = true ∧
    (x.blockSrc ((4 : VReg)) false).length = 64 ∧ (31 : VReg).val + 1 ≤ 32 ∧ x.laneOn al .bf16 31 = true) := by decide +kernel

/-- A capability without the permission L, or S where what is stored has a tag. -/
theorem witness_LoadsWaitAndStoresIssue_caps : (cap 0x10000 80 3 1).tag = true ∧ (cap 0x10000 80 3 1).space ≤ 5 ∧ (cap 0x10000 80 3 1).has 7 = false ∧
    (cap 0x10000 80 3 1).space ∈ [1] ∧ ¬ ((cap 0x10000 80 3 1).has 0 = true ∧ (cap 0x10000 80 3 1).has 5 = true) ∧
    ¬ ((cap 0x10000 80 3 1).has 1 = true ∧ ((cap 0 1 1 1).tag = true → (cap 0x10000 80 3 1).has 6 = true)) := by decide

/-- One column of bf16 ones on a row of zeros, with a beat of ones: every element is finite and the sum is not 0. -/
theorem witness_MatrixRowsFireAndLeave_column :
    (let f : RowFire := { fire0 with a := [BitVec.ofNat 512 0x3F80] }; let b : Bank := { front := { cols := List.replicate 16 (BitVec.ofNat 512 0x3F80) } }
     b.mask.getLsbD 15 = true ∧ b.int = false ∧ f.sparse = false ∧ b.front.diag = false ∧ f.a = [BitVec.ofNat 512 0x3F80] ∧ b.cscale.toList[15]? = some 0x7F ∧ f.scale ≠ 0xFF ∧
       (∀ k, k < perBeat f.aty → (match unpackF f.aty (packed f.aty (0x3F80 : Nat) k) with | .fin .. => true | _ => false) = true) ∧
       unpackF f.aty (packed f.aty (0x3F80 : Nat) 0) = .fin false 128 (-7) ∧ unpackF .f32 (accLane (b.rows.get 63) 15) = .fin false 0 (-149)) := by
  decide +kernel

/-- A die that runs and one that idles; a fetching atomic that may be applied, and its reply channel; a compare that stores and one that does not. -/
theorem witness_CommandsAndAccessesFinish_reply :
    (({} : State).clocked 7 = true ∧ ({ power := Vector.replicate 8 .idle } : State).clocked 7 = false) ∧
    (let c : Cmd := { aaddCmd with ins := .aaddF ⟨al, 5, 1, 2, 3, 9, 0, false, 7⟩, w := [9, 0] }
     let a := { accAt true 0 0 (.atomic 7) with atomic := true, issuer := .cmd r0 7 }
     let s : State := { cs (regs 0 0 0 0) [c] [a] (.id 7) with chans := [(⟨0, 0, 0⟩, { en := true, slots := 4 })] }
     s.cmd? 7 = some c ∧ s.accs.find? (fun b => b.purpose == .atomic 7 && b.level = 0) = some a ∧ s.canApply c a = true ∧
       replyTarget c.r.rid (c.w.getD 1 0) = ⟨0, 0, 0⟩ ∧ (s.chan? ⟨0, 0, 0⟩).isSome = true ∧ typBytes (7 : Fin 8) = a.len ∧
       ofBytesLE (s.gddr.read 0 8) = 0 ∧ (0 : Nat) = (3 * 2 ^ 64) % 2 ^ 64 ∧ (0 : Nat) ≠ 1 % 2 ^ 64 ∧ (1 : Nat) < 2 ^ 128) := by decide +kernel

/-- A chunk that decodes with a failed one behind it; a query that is idle, one whose terms still claim, one that runs. -/
theorem witness_PostingsDecodeCommitAndRank_failed :
    (let s := qs (going [ck (.decoded [(5, 3)]), ck .bad]) [(0, {})] [] 0
     s.clocked q0.die = true ∧ (s.query q0).st = .running ∧ (s.query q0).chunks.findIdx (fun d => !d.over_) = 0 ∧ (s.query q0).chunks[0]? = some (ck (.decoded [(5, 3)])) ∧
       ((s.query q0).chunks.set 0 { ck (.decoded [(5, 3)]) with st := .committed }).find? (fun d => !d.over_) = some (ck .bad) ∧ (ck .bad).st = .bad ∧
       s.takesFor ⟨(s.query q0).ctx.rid, (s.query q0).telem⟩ = true ∧ (s.chan? ⟨0, 0, 0⟩).isSome = true ∧ s.outbox = [] ∧
       (∀ ds, (ck .bad).st ≠ .decoded ds)) ∧
    (let s := qs {} [] [] 0; (s.query q0).st ≠ .running ∧ (s.query q0).over_ = false ∧ (s.query q0).ending = 0) ∧
    (let s := qs (going [ck .committed]) [] [] 8; s.arg = .query q0 8 ∧ (s.query q0).ordered = true) ∧
    (let s := qs (going [ck .waiting]) [] [] 0; ∀ c ∈ (s.query q0).chunks, c.st ≠ .claimed 0 ∨ c.hdr = none ∨ s.results (s.listIds q0 0) = none) := by
  refine ⟨⟨by decide +kernel, rfl, by decide +kernel, rfl, by decide +kernel, rfl, by decide +kernel, rfl, rfl, nofun⟩, ⟨by decide, by decide +kernel, rfl⟩, ⟨rfl, rfl⟩, ?_⟩
  intro s c h; simp [s, qs, going, State.query, tget, q0] at h; subst h; exact .inl nofun

/-- A granted control word with a tile still to issue, and with none; an element that is saved; a burst whose holder's weight has not been written. -/
theorem witness_TilesGrantAndWeigh_control :
    (let s : State := { ts 5 0 [(2, runC)] { imem := [0xF200000100000000] } with agenda := [(.issueGrant, .elem ⟨0, 3⟩)] }
     s.agenda.any isTileRow = true ∧ (match decode (s.wordAt ⟨0, 0, 2⟩ runC.pc.toNat) with | .ok i => isControl i | .error _ => false) = true) ∧
    (ts 5 0 [] {}).agenda.any isTileRow = false ∧
    (let s : State := { elems := [(⟨0, 0⟩, { kind := .tile, saved := true })], ress := [(0, {})] }; s.savedElem ⟨0, 0⟩ = true) ∧
    (let t : Tile := { holder := some 2, limit := 2, weight := Vector.replicate 8 1 }; t.limit = (t.weight.get 2).toNat + 1) := by decide +kernel

/-- Memory serves accesses where a letter launches and where it releases. -/
theorem witness_LettersAreProcessed_awake (b : Beat) (l : List (Nat × Launch)) (r : List (Nat × Res)) : (ls b l r).selfRefresh = 0 := rfl

/-- A marker behind a control token that waits. -/
theorem witness_MarkersFreezeAndStopsEnd_held :
    (let s : State := { mk .round el0 {} 3 (.chan ⟨0, 0, 0⟩) with chans := [(⟨0, 0, 0⟩, { en := true, slots := 1, flight := [(3, .marker .round)], held := [tok] })] }
     (s.chan? ⟨0, 0, 0⟩).map (fun c => (c.flight, decide (c.held ≠ []))) = some ([(3, .marker .round)], true) ∧ el0.frozen = none) := by decide +kernel

/-- Regions that save and restore while memory serves accesses; one that was killed while it saved. -/
theorem witness_RegionsSaveAndRestore_awake : (∀ st e a, (rg st e a).selfRefresh = 0) ∧ (rr .saving).killed = false ∧
    (let s : State := { rg .saving { kind := .tile } (.id 0) with ress := [(0, { rr .saving with killed := true })] }
     s.res? 0 = some { rr .saving with killed := true } ∧ ({ rr .saving with killed := true } : Res).killed = true) := ⟨fun _ _ _ => rfl, rfl, rfl, rfl⟩

/-- A supervisor that has filed no letter of its own. -/
theorem witness_LettersLinksAndCaptures_sup : ({ letters := [let0], supWin := some (0, 0, 2) } : Res).supLost = none := rfl

/-- Stage 6 has ended before FW_LOAD; a die at 95 and one at 96 degrees; the cycle of a trip and the one after. -/
theorem witness_BringUpPowerAndTheTrip_wait :
    (let s : State := { sec := { bootStage := 6, awaitFw := true }, arg := .reg 0x20 1 }; s.arg = .reg 0x20 1 ∧ s.sec.awaitFw = true) ∧
    (let s : State := { cycle := 9, tripAt := some 9 }; s.tripAt = some s.cycle ∧ ({ s with cycle := 10 } : State).tripAt ≠ some ({ s with cycle := 10 } : State).cycle) ∧
    (∃ j : Fin 8, 95 < (({ temps := (Vector.replicate 8 0).set 7 96 } : State).temps.get j).toNat) ∧
    (∀ j : Fin 8, (({ temps := Vector.replicate 8 95 } : State).temps.get j).toNat ≤ 95) :=
  ⟨⟨rfl, rfl⟩, ⟨rfl, nofun⟩, ⟨7, by decide +kernel⟩, by decide +kernel⟩

/-- No region is stopped; a record that is signed with the firmware key, where the configuration's functions say so. -/
theorem witness_DebugPortAndSecurityRoot_record : (∀ p ∈ ({} : State).ress, p.2.stopped = false) ∧
    (∀ p ∈ ({ ress := [(0, {})] } : State).ress, p.2.stopped = false) ∧
    (∀ bs k, Config.revokeParse bs = k → ∃ sig key named, Config.revokeParse bs = (sig, key, named)) ∧
    (({ life := .field } : Sec).life ≠ .blank ∧ ({} : Sec).life = .blank) := by
  refine ⟨by decide +kernel, by decide +kernel, fun bs k h => ?_, by decide⟩
  obtain ⟨sig, key, named⟩ := k
  exact ⟨sig, key, named, h⟩

end Sys2Proof.Tests
end

section
/-! SUPPORT. The state after reset, register by register. -/

namespace Sys2Proof.Machine

open Sys2Proof.Safety

/-- A register of a bank of zeros reads 0, whatever its index. -/
theorem getD_replicate_zero {n w : Nat} (i : Nat) :
    ((Vector.replicate n 0#w).toList[i]?).getD 0#w = 0#w := by
  simp only [Vector.toList_replicate, List.getElem?_replicate]
  split <;> rfl

/-- After reset every BAR0 register but AGE_STEP and PREEMPT_AFTER reads 0 (R372). -/
theorem State.bar0Read_reset (off : Nat) (hage : off ≠ 0x80) (hpre : off ≠ 0x88) : State.reset.bar0Read off = 0 := by
  have hstatus : State.reset.sec.status = 0 := rfl
  have hfree : BitVec.ofNat 64 State.reset.free_ = 0 := rfl
  have hfault : State.reset.faultHead = 0 := rfl
  have hpower : State.reset.powerState = 0 := rfl
  have htherm : State.reset.therm = 0 := rfl
  have hzero (n : Nat) : BitVec.ofNat 64 (0 / n) = 0#64 := by rw [Nat.zero_div]
  have hbar0 : State.reset.bar0 = {} := rfl
  simp only [State.bar0Read, hstatus, hfree, hfault, hpower, htherm, hbar0, hage, hpre, getD_replicate_zero,
    BitVec.toNat_zero, hzero, BitVec.extractLsb'_zero, ite_self, if_false, BitVec.ofNat_eq_ofNat]

/-- Every memory is empty after reset, so canonical. -/
theorem memoryCanonical_reset : MemoryCanonical State.reset := ⟨rfl, rfl, rfl, fun _ _ h => nomatch h⟩

theorem power_reset (d : Fin 8) : State.reset.power.get d = .run := Vector.getElem_replicate ..

/-- Settles O5: register by register for BAR0, and by the definition of the state after reset for the rest. -/
theorem resetState : Obligations.ResetState :=
  ⟨State.bar0Read_reset, rfl, rfl, power_reset, rfl, rfl, rfl, rfl, rfl, rfl, rfl,
    rfl, rfl, rfl, rfl, rfl, rfl, rfl, memoryCanonical_reset⟩
end Sys2Proof.Machine
end

section
/-! SUPPORT. One step: the word of a granted context, the trap of its fetch, the agenda, and a word placed. -/

namespace Sys2Proof.Machine

open Sys2Proof.Safety

/-! A step (R10, R69, R70) -/

theorem step_of_fetch_inl {s t : State} {r : CtxRef} (hg : s.grant = some r) (hf : s.fetch r = .inl t) : step s = .next t := by
  simp only [step, hg, hf]

theorem step_of_fetch_inr {s t : State} {r : CtxRef} {i : Instr} (hg : s.grant = some r) (hf : s.fetch r = .inr (i, t)) :
    step s = exec i t := by
  simp only [step, hg, hf]

theorem step_of_agenda {s : State} {i : Instr} {a : StepArg} {l : List (Instr × StepArg)} (hg : s.grant = none)
    (ha : s.agenda = (i, a) :: l) : step s = exec i { s with agenda := l, arg := a } := by
  simp only [step, hg, ha]

section
variable {s : State} {r : CtxRef} {x : Ctx}

/-- A word that does not decode traps. -/
theorem fetch_error {e : Reject} (hx : s.ctx? r = some x) (hd : decode (s.wordAt r x.pc.toNat) = .error e) :
    s.fetch r = .inl (State.illegal { s with grant := none, cur := r } r x) := by
  have hx' : State.ctx? { s with grant := none } r = some x := hx
  have hd' : decode (State.wordAt { s with grant := none, cur := r } r x.pc.toNat) = .error e := hd
  simp only [State.fetch, hx', hd']

/-- A word that decodes traps where it names a window not configured, or reads a register that cannot be corrected, and else runs. -/
theorem fetch_ok {i : Instr} (hx : s.ctx? r = some x) (hd : decode (s.wordAt r x.pc.toNat) = .ok i) :
    s.fetch r =
      if s.noWindow r.tile i then .inl (State.illegal { s with grant := none, cur := r } r x)
      else if readsBad i x then .inl (State.trap { s with grant := none, cur := r } r x tECC_UNCORR 0 0)
      else .inr (i, { s with grant := none, cur := r }) := by
  have hx' : State.ctx? { s with grant := none } r = some x := hx
  have hd' : decode (State.wordAt { s with grant := none, cur := r } r x.pc.toNat) = .ok i := hd
  simp only [State.fetch, hx', hd']
  rfl

end

theorem any_contains_iff (l bad : List Nat) : l.any bad.contains = true ↔ ∃ b ∈ l, b ∈ bad := by
  simp

/-- What a word reads (log 23): its guard, and its sources where it executes and is not turned away. -/
theorem readsBad_iff (i : Instr) (x : Ctx) : readsBad i x = true ↔ (∃ b ∈ i.uses.1.reads, b ∈ x.bad) ∨
    ((i.laneWise = true ∨ x.guard0 i.uses.1 = true) ∧ denied i x = false ∧ ∃ b ∈ i.uses.2, b ∈ x.bad) := by
  rw [readsBad]
  simp [and_assoc]

theorem noWindow_iff (s : State) (e : ElemRef) (i : Instr) : s.noWindow e i = true ↔
    ∃ n f, winNeed i = some (n, f) ∧ ∀ d, s.win? (e.win n) = some d → d.cap = 0 := by
  cases hn : winNeed i with
  | none => simp [State.noWindow, hn]
  | some p =>
    obtain ⟨n, f⟩ := p
    cases hw : s.win? (e.win n) <;> simp [State.noWindow, hn, hw]

/-! A word placed (log 11) -/

/-- What decodes is well-formed: the checks of the entries come last. -/
theorem wf_of_decode {w : Word} {i : Instr} (h : decode w = .ok i) : wf i = true := by
  unfold decode at h
  cases hp : parse w with
  | error e => rw [hp] at h; nomatch h
  | ok j =>
    rw [hp] at h
    by_cases hj : wf j = true
    · have : j = i := by simpa [bind, Except.bind, hj] using h
      exact this ▸ hj
    · simp [bind, Except.bind, hj] at h

/-- A window of the word's own size takes what the word moves (R178). -/
theorem sizeOk_of_winSzOk {z : Fin 6} {d : SVC} (h : winSzOk z d = true) : sizeOk { esz := z, cap := 64 } (eszBytes z) d = true := by
  cases d with
  | s r =>
    have hz : ∀ z : Fin 6, z.val ≤ 3 → eszBytes z ≤ 8 := by decide
    simp [sizeOk, SVC_width, Window.size, hz z (of_decide_eq_true h)]
  | v r =>
    have hz : ∀ z : Fin 6, eszBytes z ≤ 64 := by decide
    simp [sizeOk, SVC_width, Window.size, hz z]
  | c r =>
    obtain rfl : z = 4 := Fin.ext (eq_of_beq h)
    rfl

/-- A well-formed word that names a window accepts one of the six element sizes. -/
theorem exists_size_fits {i : Instr} {n : Nat} {f : Window → Bool} (hwf : wf i = true) (hn : winNeed i = some (n, f)) :
    ∃ z : Fin 6, f { esz := z, cap := 64 } = true := by
  unfold winNeed at hn
  split at hn <;> cases hn
  case h_1 o => exact ⟨o.sz, sizeOk_of_winSzOk (Bool.and_eq_true_iff.1 hwf).2⟩
  case h_2 o => exact ⟨o.sz, sizeOk_of_winSzOk (Bool.and_eq_true_iff.1 hwf).2⟩
  case h_3 o => exact ⟨o.sz, sizeOk_of_winSzOk (Bool.and_eq_true_iff.1 hwf).2⟩
  case h_8 => exact ⟨2, rfl⟩
  all_goals exact ⟨5, rfl⟩

/-- The one window of the residency of a placed word is the one the word names. -/
theorem winFor_of_need {e : ElemRef} {w : Word} {i : Instr} {n : Nat} {f : Window → Bool} (hd : decode w = .ok i)
    (hn : winNeed i = some (n, f)) : ∃ z : Fin 6, winFor e w = [(e.win n, { esz := z, cap := 64 })] := by
  obtain ⟨z, hz⟩ := exists_size_fits (wf_of_decode hd) hn
  have hmem : ∀ z : Fin 6, z ∈ ([5, 4, 3, 2, 1, 0] : List (Fin 6)) := by decide
  have hsome : ((([5, 4, 3, 2, 1, 0] : List (Fin 6)).map fun z => ({ esz := z, cap := 64 } : Window)).find? f).isSome = true :=
    List.find?_isSome.2 ⟨_, List.mem_map_of_mem (hmem z), hz⟩
  obtain ⟨d, hfind⟩ := Option.isSome_iff_exists.1 hsome
  obtain ⟨z', -, rfl⟩ := List.mem_map.1 (List.mem_of_find?_eq_some hfind)
  refine ⟨z', ?_⟩
  simp only [winFor, hd, hn, hfind]
  rfl

section
variable (s : State) (w : Word)

/-- The context of a placed word. -/
def State.placedRef : CtxRef := ElemRef.ctx ⟨s.nextRid, 0⟩ 0

theorem withWord_grant : (s.withWord w).grant = some s.placedRef := rfl

theorem withWord_ctx? : (s.withWord w).ctx? s.placedRef = some { st := .run, sup := true } := tget_tput_self ..

theorem withWord_wordAt : (s.withWord w).wordAt s.placedRef 0 = w := by
  have htile : (s.withWord w).tile? s.placedRef.tile = some { imem := [w] } := tget_tput_self ..
  simp only [State.wordAt, htile]
  rfl

theorem withWord_noWindow {i : Instr} (hd : decode w = .ok i) : (s.withWord w).noWindow s.placedRef.tile i = false := by
  rw [← Bool.not_eq_true, noWindow_iff]
  rintro ⟨n, f, hn, hcap⟩
  obtain ⟨z, hw⟩ := winFor_of_need (e := ⟨s.nextRid, 0⟩) hd hn
  have hwin : (s.withWord w).win? (s.placedRef.tile.win n) = some { esz := z, cap := 64 } := by
    show tget ((winFor ⟨s.nextRid, 0⟩ w).foldl (fun l p => tput l p.1 p.2) s.wins) _ = _
    rw [hw]
    exact tget_tput_self ..
  exact absurd (hcap _ hwin) (show (64 : BitVec 16) ≠ 0 by decide)

/-- The step after a word is placed runs it. -/
theorem step_withWord {i : Instr} (hd : decode w = .ok i) :
    step (s.withWord w) = exec i { s.withWord w with grant := none, cur := s.placedRef } := by
  have hbad : readsBad i { st := .run, sup := true } = false := by
    rw [← Bool.not_eq_true, readsBad_iff]
    simp
  refine step_of_fetch_inr (withWord_grant s w) ?_
  rw [fetch_ok (withWord_ctx? s w) (i := i) (by rw [← hd]; exact congrArg decode (withWord_wordAt s w)), withWord_noWindow s w hd, hbad]
  rfl

end

/-- Settles O4: by the fetch of a granted context, the agenda without a grant, and the residency that a placed word runs in. -/
theorem stepRunsDecodedWord : Obligations.StepRunsDecodedWord := by
  unfold Obligations.StepRunsDecodedWord
  refine ⟨fun s r x hg hx => ⟨fun i hd hw hb => ?_, fun i hd hw hb => ?_, fun i hd hw => ?_, fun e hd => ?_⟩, readsBad_iff,
    noWindow_iff, fun s i a l => step_of_agenda, fun s i w hlt hd => ?_⟩
  · exact step_of_fetch_inr hg (by simp [fetch_ok hx hd, hw, hb])
  · exact step_of_fetch_inl hg (by simp [fetch_ok hx hd, hw, hb])
  · exact step_of_fetch_inl hg (by simp [fetch_ok hx hd, hw]; rfl)
  · exact step_of_fetch_inl hg (fetch_error hx hd)
  · have hplace : s.withFetchWord 64 w = s.withWord (BitVec.ofNat 64 w) := by rw [State.withFetchWord, Nat.mod_eq_of_lt hlt]
    rw [hplace]
    exact ⟨_, s.placedRef, _, step_withWord s (.ofNat 64 w) hd, rfl, withWord_ctx? s (.ofNat 64 w), rfl, rfl, withWord_wordAt s (.ofNat 64 w)⟩

end Sys2Proof.Machine
end

section
/-! SUPPORT. Taking a trap: the context it freezes, the letter it files, and the fields of a number laid out by fields. -/

namespace Sys2Proof.Machine

open Sys2Proof.Safety

/-! Taking a trap (R10, R21, R342) -/

/-- The context as a trap leaves it: frozen at its pc, with TRAP_CODE and the information words. -/
def Ctx.atTrap (x : Ctx) (code : Nat) (i0 i1 : Word) : Ctx :=
  { x with st := .frozen, was := .run, trapped := true, wait := none, waitIns := none, freeze := [], waitop := 0,
           preempted := x.preempted || x.freeze.contains .round, stopped := x.stopped || x.freeze.contains .cut,
           byCtl := x.byCtl || x.freeze.contains .ctl, trapCode := BitVec.ofNat 64 code, info0 := i0, info1 := i1 }

@[simp] theorem State.ctx?_fileLetter (s : State) (q : CtxRef) (rid elem who : Nat) (b : Beat) (h : Bool) :
    (s.fileLetter rid elem who b h).ctx? q = s.ctx? q := rfl

/-- A trap changes its own context and no other. -/
theorem State.ctx?_trap (s : State) (r q : CtxRef) (x : Ctx) (code : Nat) (i0 i1 : Word) :
    (s.trap r x code i0 i1).ctx? q = if q = r then some (x.atTrap code i0 i1) else s.ctx? q := by
  unfold State.trap
  rw [State.ctx?_fileLetter, State.ctx?_active, State.ctx?_setCtx]
  rfl

/-- The letter filed last of a residency stands behind its other letters. -/
theorem State.res?_fileLetter (s : State) (rid elem who : Nat) (b : Beat) (h : Bool) {rs : Res} (hrs : s.res? rid = some rs) :
    ∃ rt l, (s.fileLetter rid elem who b h).res? rid = some rt ∧ rt.letters = rs.letters ++ [l] ∧
      l.cycle = s.cycle ∧ l.who = who ∧ l.host = h ∧ l.body = b := by
  have hput : (s.fileLetter rid elem who b h).res? rid = (s.res? rid).map _ := (tget_tmod ..).trans (if_pos rfl)
  rw [hrs] at hput
  exact ⟨_, _, hput, rfl, rfl, rfl, rfl, rfl⟩

/-- A letter says nothing of what a context holds. -/
theorem letterBeat_setCtx_active (s : State) (r : CtxRef) (x : Ctx) (n rid code elem who pc i0 i1 : Nat) (rem kil asy : Bool) :
    letterBeat ((s.setCtx r x).active n) rid code elem who pc i0 i1 rem kil asy =
      letterBeat s rid code elem who pc i0 i1 rem kil asy := by
  simp only [letterBeat, State.res?, State.elem?, State.active_ress, State.setCtx_ress, State.active_elems, State.setCtx_elems,
    State.active_cycle, State.setCtx_cycle]

/-- A trap files its letter behind the letters of its residency. -/
theorem State.res?_trap (s : State) (r : CtxRef) (x : Ctx) (code : Nat) (i0 i1 : Word) {rs : Res} (hrs : s.res? r.rid = some rs) :
    ∃ rt l, (s.trap r x code i0 i1).res? r.rid = some rt ∧ rt.letters = rs.letters ++ [l] ∧
      l.cycle = s.cycle ∧ l.who = r.ctx ∧ l.host = false ∧
      l.body = letterBeat s r.rid code r.elem r.ctx x.pc.toNat i0.toNat i1.toNat false false false := by
  have hrs' : ((s.setCtx r (x.atTrap code i0 i1)).active r.rid).res? r.rid = some rs := by
    rwa [State.res?, State.active_ress, State.setCtx_ress]
  obtain ⟨rt, l, ht, hl, hcyc, hwho, hhost, hbody⟩ := State.res?_fileLetter _ r.rid r.elem r.ctx
    (letterBeat ((s.setCtx r (x.atTrap code i0 i1)).active r.rid) r.rid code r.elem r.ctx x.pc.toNat i0.toNat i1.toNat false false false)
    false hrs'
  refine ⟨rt, l, ht, hl, ?_, hwho, hhost, ?_⟩
  · rwa [State.active_cycle, State.setCtx_cycle] at hcyc
  · rwa [letterBeat_setCtx_active] at hbody

theorem sameBytes_trap (s : State) (r : CtxRef) (x : Ctx) (code : Nat) (i0 i1 : Word) : SameBytes s (s.trap r x code i0 i1) :=
  Laws.sameBytes_of (by simp) (by simp) (by simp) (by simp) (by simp) (by simp)

/-! Numbers laid out by fields (R6) -/

/-- Fields by their highest and lowest bit and their value, in rising order from bit n on, each value within its width. -/
def Laid : Nat → List (Nat × Nat × Nat) → Prop
  | _, [] => True
  | n, (hi, lo, v) :: l => n ≤ lo ∧ lo ≤ hi ∧ v < 2 ^ (hi + 1 - lo) ∧ Laid (hi + 1) l

/-- The number that holds the fields. -/
def laidNum (l : List (Nat × Nat × Nat)) : Nat := fields (l.map (·.2))

theorem foldl_fields_add (l : List (Nat × Nat)) (a : Nat) : l.foldl (fun a p => a + p.2 * 2 ^ p.1) a = a + fields l := by
  induction l generalizing a with
  | nil => rfl
  | cons p l ih => rw [fields, List.foldl_cons, List.foldl_cons, ih, ih (0 + _)]; omega

theorem laidNum_cons (hi lo v : Nat) (l : List (Nat × Nat × Nat)) : laidNum ((hi, lo, v) :: l) = v * 2 ^ lo + laidNum l := by
  rw [laidNum, List.map_cons, fields, List.foldl_cons, foldl_fields_add, Nat.zero_add]; rfl

/-- Fields that begin at bit n or above leave the bits below n clear. -/
theorem Laid.dvd_laidNum {n : Nat} {l : List (Nat × Nat × Nat)} (h : Laid n l) : 2 ^ n ∣ laidNum l := by
  induction l generalizing n with
  | nil => exact dvd_zero _
  | cons p l ih =>
    obtain ⟨hi, lo, v⟩ := p
    obtain ⟨hn, hlo, -, hl⟩ := h
    rw [laidNum_cons]
    exact (Dvd.dvd.mul_left (pow_dvd_pow 2 hn) v).add ((pow_dvd_pow 2 (by omega)).trans (ih hl))

theorem Laid.le_of_mem {n hi lo v : Nat} {l : List (Nat × Nat × Nat)} (h : Laid n l) (hm : (hi, lo, v) ∈ l) : n ≤ lo := by
  induction l generalizing n with
  | nil => nomatch hm
  | cons p l ih =>
    obtain ⟨hi', lo', v'⟩ := p
    obtain ⟨hn, hlo, -, hl⟩ := h
    cases hm with
    | head => exact hn
    | tail _ hm => have := ih hl hm; omega

/-- The bits above a field are those of the fields that lie there. -/
theorem Laid.div_cons {n hi lo v p : Nat} {l : List (Nat × Nat × Nat)} (h : Laid n ((hi, lo, v) :: l)) (hp : hi + 1 ≤ p) :
    laidNum ((hi, lo, v) :: l) / 2 ^ p = laidNum l / 2 ^ p := by
  obtain ⟨-, hlo, hv, hl⟩ := h
  obtain ⟨k, hk⟩ := hl.dvd_laidNum
  obtain ⟨m, rfl⟩ := Nat.exists_eq_add_of_le hp
  have hsmall : v * 2 ^ lo < 2 ^ (hi + 1) :=
    calc v * 2 ^ lo < 2 ^ (hi + 1 - lo) * 2 ^ lo := Nat.mul_lt_mul_of_pos_right hv (Nat.two_pow_pos lo)
      _ = 2 ^ (hi + 1) := by rw [← pow_add, Nat.sub_add_cancel (by omega)]
  rw [laidNum_cons, hk, pow_add 2 (hi + 1) m, ← Nat.div_div_eq_div_mul, ← Nat.div_div_eq_div_mul,
    Nat.add_mul_div_left _ _ (Nat.two_pow_pos _), Nat.div_eq_of_lt hsmall, Nat.mul_div_cancel_left _ (Nat.two_pow_pos _), Nat.zero_add]

/-- Each field reads back as its value. -/
theorem Laid.field_laidNum {n hi lo v : Nat} {l : List (Nat × Nat × Nat)} (h : Laid n l) (hm : (hi, lo, v) ∈ l) :
    field (laidNum l) hi lo = v := by
  induction l generalizing n with
  | nil => nomatch hm
  | cons p l ih =>
    obtain ⟨hi', lo', v'⟩ := p
    cases hm with
    | head =>
      obtain ⟨-, hlo, hv, hl⟩ := h
      obtain ⟨k, hk⟩ := hl.dvd_laidNum
      have hsplit : 2 ^ (hi + 1) * k = 2 ^ lo * (2 ^ (hi + 1 - lo) * k) := by
        rw [← Nat.mul_assoc, ← pow_add, Nat.add_sub_cancel' (by omega)]
      rw [field, laidNum_cons, hk, hsplit, Nat.add_mul_div_left _ _ (Nat.two_pow_pos _), Nat.mul_div_cancel _ (Nat.two_pow_pos _),
        Nat.add_mul_mod_self_left, Nat.mod_eq_of_lt hv]
    | tail _ hm =>
      obtain ⟨-, -, -, hl⟩ := id h
      rw [field, h.div_cons (hl.le_of_mem hm)]
      exact ih hl hm

/-- A field of a number is that of its low bits. -/
theorem field_mod (x : Nat) {n hi lo : Nat} (h : hi < n) : field (x % 2 ^ n) hi lo = field x hi lo := by
  apply Nat.eq_of_testBit_eq
  intro i
  simp only [field, Nat.testBit_mod_two_pow, Nat.testBit_div_two_pow]
  by_cases hi' : i < hi + 1 - lo
  · simp [hi', show lo + i < n by omega, Nat.add_comm]
  · simp [hi']

/-- Each field of a beat that is laid out by fields reads back as its value. -/
theorem Laid.field_beatOf {hi lo v : Nat} {l : List (Nat × Nat × Nat)} (h : Laid 0 l) (hm : (hi, lo, v) ∈ l) (h512 : hi < 512) :
    field (beatOf (l.map (·.2))).toNat hi lo = v := by
  rw [beatOf, BitVec.toNat_ofNat, field_mod _ h512]
  exact h.field_laidNum hm

theorem boolNat_lt (b : Bool) : boolNat b < 2 := by cases b <;> decide

theorem bitOf_of_field {x i : Nat} {b : Bool} (h : field x i i = boolNat b) : bitOf x i = b := by
  have hx : x / 2 ^ i % 2 = boolNat b := by simpa [field] using h
  rw [bitOf, hx]
  cases b <;> rfl

/-- A field of 0 adds nothing. -/
theorem beatOf_concat_zero (l : List (Nat × Nat)) (p : Nat) : beatOf (l ++ [(p, 0)]) = beatOf l := by
  simp only [beatOf, fields, List.foldl_append, List.foldl_cons, List.foldl_nil, Nat.zero_mul, Nat.add_zero]

/-! A letter's fields (R342) -/

/-- The layout of a letter; d, x and y say where its element lies. -/
def letterLayout (code tag region elem d x y who pc i0 i1 cycle : Nat) (rem kil asy : Bool) : List (Nat × Nat × Nat) :=
  [(7, 0, 0x04), (15, 8, code % 256), (31, 16, tag % 2 ^ 16), (47, 32, region % 2 ^ 16), (63, 48, elem % 2 ^ 16), (71, 64, d % 8),
    (79, 72, x % 32), (87, 80, y % 32), (91, 88, who % 16), (111, 100, pc % 4096), (112, 112, boolNat rem), (113, 113, boolNat kil),
    (114, 114, boolNat asy), (191, 128, i0 % 2 ^ 64), (255, 192, i1 % 2 ^ 64), (319, 256, cycle % 2 ^ 64), (511, 320, 0)]

theorem laid_letterLayout (code tag region elem d x y who pc i0 i1 cycle : Nat) (rem kil asy : Bool) :
    Laid 0 (letterLayout code tag region elem d x y who pc i0 i1 cycle rem kil asy) := by
  have := boolNat_lt rem
  have := boolNat_lt kil
  have := boolNat_lt asy
  simp only [letterLayout, Laid, Nat.reduceAdd, Nat.reduceSub, Nat.reducePow, pow_one, and_true]
  omega

theorem letterBeat_eq (s : State) (rid code elem who pc i0 i1 : Nat) (rem kil asy : Bool) :
    ∃ d x y, letterBeat s rid code elem who pc i0 i1 rem kil asy = beatOf ((letterLayout code ((s.res? rid).getD {}).tag
      ((s.res? rid).getD {}).region elem d x y who pc i0 i1 s.cycle rem kil asy).map (·.2)) := by
  unfold letterBeat
  split
  rename_i d x y _
  refine ⟨d, x, y, ?_⟩
  exact (beatOf_concat_zero _ 320).symm

/-- Settles O16: a trap writes its own context, whose frozen contents are `Ctx.atTrap`, and files one letter; the letter's fields
are laid out in rising order, each within its width, so each reads back. -/
theorem trapEntryAndLetter : Obligations.TrapEntryAndLetter := by
  unfold Obligations.TrapEntryAndLetter
  refine ⟨fun s r x code i0 i1 => ⟨⟨x.atTrap code i0 i1, ?_⟩, fun q hq => ?_, sameBytes_trap .., ?_⟩, ?_⟩
  · rw [State.ctx?_trap, if_pos rfl]
    exact ⟨rfl, rfl, rfl, rfl, rfl, rfl, rfl, rfl, rfl, rfl, rfl, rfl, rfl, rfl, rfl, rfl, rfl, rfl, rfl, rfl, rfl, rfl⟩
  · rw [State.ctx?_trap, if_neg hq]
  · exact ⟨State.trap_wins .., State.trap_chans .., State.trap_bars .., State.trap_banks .., State.trap_cmds .., State.trap_accs ..,
      fun _ => State.res?_trap s r x code i0 i1⟩
  · intro s rid code elem who pc i0 i1 rem kil asy hcode helem hwho hpc hi0 hi1 hcyc
    obtain ⟨d, x, y, hbeat⟩ := letterBeat_eq s rid code elem who pc i0 i1 rem kil asy
    have reads {hi lo v : Nat} (h512 : hi < 512) (hm : (hi, lo, v) ∈ letterLayout code ((s.res? rid).getD {}).tag
        ((s.res? rid).getD {}).region elem d x y who pc i0 i1 s.cycle rem kil asy) :
        field (letterBeat s rid code elem who pc i0 i1 rem kil asy).toNat hi lo = v := by
      rw [hbeat]; exact (laid_letterLayout ..).field_beatOf hm h512
    have low {v : Nat} {hi lo n : Nat} (hv : v < n) (h : field (letterBeat s rid code elem who pc i0 i1 rem kil asy).toNat hi lo = v % n) :
        field (letterBeat s rid code elem who pc i0 i1 rem kil asy).toNat hi lo = v := h.trans (Nat.mod_eq_of_lt hv)
    refine ⟨reads (by decide) ?_, low hcode (reads (by decide) ?_), reads (by decide) ?_, reads (by decide) ?_, low helem (reads (by decide) ?_),
      low hwho (reads (by decide) ?_), low hpc (reads (by decide) ?_), bitOf_of_field (reads (by decide) ?_),
      bitOf_of_field (reads (by decide) ?_), bitOf_of_field (reads (by decide) ?_), low hi0 (reads (by decide) ?_),
      low hi1 (reads (by decide) ?_), low hcyc (reads (by decide) ?_), reads (by decide) ?_⟩ <;>
      simp [letterLayout]

end Sys2Proof.Machine
end

section
/-! SUPPORT. The canonical form of the memories: what each kind of change to the state must show to keep it. -/

namespace Sys2Proof.Safety

open Sys2Proof.Machine

/-- What an instruction answers keeps the canonical form: a next state, where there is one, is in it. -/
def CanonicalOut (o : Out) : Prop := ∀ t, o = .next t → MemoryCanonical t

theorem CanonicalOut.next {t : State} (h : MemoryCanonical t) : CanonicalOut (.next t) := by
  rintro _ ⟨⟩; exact h

theorem CanonicalOut.fault {r : Fault} : CanonicalOut (.fault r) := by simp [CanonicalOut]

theorem CanonicalOut.refused {r : Refusal} : CanonicalOut (.refused r) := by simp [CanonicalOut]

theorem CanonicalOut.ite {c : Prop} [Decidable c] {a b : Out} (ha : CanonicalOut a) (hb : CanonicalOut b) :
    CanonicalOut (if c then a else b) := by
  split <;> assumption

/-- So does what the acceptance of a command answers. -/
def CanonicalVerdict : Verdict → Prop
  | .hold t | .posted _ t | .pend t => MemoryCanonical t
  | .trap .. => True

theorem CanonicalVerdict.hold {t : State} (h : MemoryCanonical t) : CanonicalVerdict (.hold t) := h

theorem CanonicalVerdict.posted {st : Word} {t : State} (h : MemoryCanonical t) : CanonicalVerdict (.posted st t) := h

theorem CanonicalVerdict.pend {t : State} (h : MemoryCanonical t) : CanonicalVerdict (.pend t) := h

theorem CanonicalVerdict.trap {code : Nat} {info : Word} : CanonicalVerdict (.trap code info) := .intro

theorem CanonicalVerdict.ite {c : Prop} [Decidable c] {a b : Verdict} (ha : CanonicalVerdict a) (hb : CanonicalVerdict b) :
    CanonicalVerdict (if c then a else b) := by
  split <;> assumption

theorem forall_mem_some {α : Type} {P : α → Prop} {a : α} (h : P a) : ∀ p ∈ some a, P p := by
  rintro _ ⟨⟩; exact h

theorem forall_mem_none {α : Type} {P : α → Prop} : ∀ p ∈ (none : Option α), P p := nofun

theorem forall_mem_ite {α : Type} {P : α → Prop} {c : Prop} [Decidable c] {a b : Option α} (ha : ∀ p ∈ a, P p) (hb : ∀ p ∈ b, P p) :
    ∀ p ∈ (if c then a else b), P p := by
  split <;> assumption

theorem forall_mem_dite {α : Type} {P : α → Prop} {c : Prop} [Decidable c] {a : c → Option α} {b : ¬c → Option α}
    (ha : ∀ h, ∀ p ∈ a h, P p) (hb : ∀ h, ∀ p ∈ b h, P p) : ∀ p ∈ (if h : c then a h else b h), P p := by
  split
  · exact ha _
  · exact hb _

theorem MemoryCanonical.ite {c : Prop} [Decidable c] {a b : State} (ha : MemoryCanonical a) (hb : MemoryCanonical b) :
    MemoryCanonical (if c then a else b) := by
  split <;> assumption

theorem MemoryCanonical.foldl {α : Type} {s : State} {f : State → α → State} {l : List α} (hm : MemoryCanonical s)
    (hf : ∀ s a, MemoryCanonical s → MemoryCanonical (f s a)) : MemoryCanonical (l.foldl f s) := by
  induction l generalizing s with
  | nil => exact hm
  | cons a l ih => exact ih (hf s a hm)

theorem MemoryCanonical.fst_foldl {α β : Type} {p : State × β} {f : State × β → α → State × β} {l : List α} (hp : MemoryCanonical p.1)
    (hf : ∀ p a, MemoryCanonical p.1 → MemoryCanonical (f p a).1) : MemoryCanonical (l.foldl f p).1 := by
  induction l generalizing p with
  | nil => exact hp
  | cons a l ih => exact ih (hf p a hp)

theorem MemoryCanonical.getD {o : Option State} {s : State} (ho : ∀ p ∈ o, MemoryCanonical p) (hs : MemoryCanonical s) :
    MemoryCanonical (o.getD s) := by
  cases o with
  | none => exact hs
  | some t => exact ho t rfl

theorem MemoryCanonical.snd_of_eq {α : Type} {p : α × State} {a : α} {t : State} (hp : MemoryCanonical p.2) (he : p = (a, t)) :
    MemoryCanonical t := by
  subst he; exact hp

theorem MemoryCanonical.fst_of_eq {α : Type} {p : State × α} {a : α} {t : State} (hp : MemoryCanonical p.1) (he : p = (t, a)) :
    MemoryCanonical t := by
  subst he; exact hp

/-- A state with the memories and elements of a canonical one is canonical, whatever else it holds. -/
theorem MemoryCanonical.frame {s t : State} (hm : MemoryCanonical s) (hgddr : t.gddr = s.gddr := by rfl)
    (hbulk : t.bulk = s.bulk := by rfl) (hhost : t.host = s.host := by rfl) (helems : t.elems = s.elems := by rfl) :
    MemoryCanonical t := by
  unfold MemoryCanonical State.elem? at *
  rwa [hgddr, hbulk, hhost, helems]

/-- Changing one element keeps the canonical form where the change keeps that of its store. -/
theorem MemoryCanonical.modElem {s : State} {e : ElemRef} {f : Elem → Elem} (hm : MemoryCanonical s)
    (hf : ∀ el, el.store.wf = true → (f el).store.wf = true := by exact fun _ hw => hw) : MemoryCanonical (s.modElem e f) := by
  obtain ⟨hg, hb, hh, he⟩ := hm
  refine ⟨hg, hb, hh, fun q el hq => ?_⟩
  rw [State.elem?, State.modElem, tget_tmod] at hq
  split at hq
  · obtain ⟨el', hel', rfl⟩ := Option.map_eq_some_iff.1 hq
    exact hf el' (he e el' hel')
  · exact he q el hq

theorem tget_tmap {κ α : Type} [DecidableEq κ] (t : Tbl κ α) (f : κ → α → α) (k : κ) : tget (tmap t f) k = (tget t k).map (f k) := by
  induction t with
  | nil => rfl
  | cons p t ih =>
    by_cases h : p.1 = k
    · simp [tmap, tget, h]
    · simpa [tmap, tget, h] using ih

/-- So does changing every element. -/
theorem MemoryCanonical.mapElems {s : State} {f : ElemRef → Elem → Elem} (hm : MemoryCanonical s)
    (hf : ∀ e el, el.store.wf = true → (f e el).store.wf = true) : MemoryCanonical { s with elems := tmap s.elems f } := by
  obtain ⟨hg, hb, hh, he⟩ := hm
  refine ⟨hg, hb, hh, fun q el hq => ?_⟩
  rw [State.elem?, tget_tmap] at hq
  obtain ⟨el', hel', rfl⟩ := Option.map_eq_some_iff.1 hq
  exact hf q el' (he q el' hel')

/-- A new element's store is canonical. -/
theorem MemoryCanonical.putElem {s : State} {e : ElemRef} {el : Elem} (hm : MemoryCanonical s) (hel : el.store.wf = true) :
    MemoryCanonical { s with elems := tput s.elems e el } := by
  obtain ⟨hg, hb, hh, he⟩ := hm
  refine ⟨hg, hb, hh, fun q el' hq => ?_⟩
  rw [State.elem?, tget_tput] at hq
  split at hq
  · obtain rfl := Option.some.inj hq; exact hel
  · exact he q el' hq

theorem tget_without {κ α : Type} [DecidableEq κ] (t : Tbl κ α) (f : κ → Nat) (rid : Nat) (k : κ) :
    tget (Tbl.without t f rid) k = if f k = rid then none else tget t k := by
  induction t with
  | nil => simp [Tbl.without, tget]
  | cons p t ih =>
    unfold Tbl.without at *
    by_cases hp : f p.1 = rid
    · by_cases hk : p.1 = k <;> grind [tget]
    · by_cases hk : p.1 = k <;> grind [tget]

theorem Memory.wf_filter {m : Memory} (p : Host.Cell → Bool) (hm : m.wf = true) : Memory.wf (m.filter p) = true := by
  induction m with
  | nil => rfl
  | cons c m ih =>
    obtain ⟨hc, habove, htail⟩ := (Memory.wf_cons c m).1 hm
    rw [List.filter_cons]
    split
    · exact (Memory.wf_cons _ _).2 ⟨hc, fun d hd => habove d (List.mem_filter.1 hd).1, ih htail⟩
    · exact ih htail

theorem Memory.wf_puts {α : Type} {m : Memory} {a : α → Nat} {b : α → Byte} (l : List α) (hm : m.wf = true) :
    Memory.wf (l.foldl (fun m c => m.put (a c) (b c)) m) = true := by
  induction l generalizing m with
  | nil => exact hm
  | cons c l ih => exact ih (Memory.wf_put hm _ _)

theorem Elem.wf_write {e : Elem} {a : Nat} {bs : List Byte} {tag : Bool} (he : e.store.wf = true) : (e.write a bs tag).store.wf = true :=
  Memory.wf_write he a bs

theorem Elem.wf_putAt {e : Elem} {w : Window} {o : Nat} {els : List (List Byte)} {tag : Bool} (he : e.store.wf = true) :
    (e.putAt w o els tag).store.wf = true := by
  induction els generalizing e o with
  | nil => exact he
  | cons b els ih => exact ih (Elem.wf_write he)

/-- Either outcome keeps the canonical form; `state` says where the second holds its state. -/
def CanonicalSum {α : Type} (state : α → State) : State ⊕ α → Prop
  | .inl t => MemoryCanonical t
  | .inr a => MemoryCanonical (state a)

theorem CanonicalSum.of_inl {α : Type} {state : α → State} {o : State ⊕ α} {t : State} (ho : CanonicalSum state o) (he : o = .inl t) :
    MemoryCanonical t := by
  subst he; exact ho

theorem CanonicalSum.of_inr {α : Type} {state : α → State} {o : State ⊕ α} {a : α} (ho : CanonicalSum state o) (he : o = .inr a) :
    MemoryCanonical (state a) := by
  subst he; exact ho

theorem forall_mem_bind {α β : Type} {P : α → Prop} {Q : β → Prop} {o : Option α} {f : α → Option β} (ho : ∀ a ∈ o, P a)
    (hf : ∀ a, P a → ∀ b ∈ f a, Q b) : ∀ b ∈ o.bind f, Q b := by
  intro b hb
  obtain ⟨a, ha, hab⟩ := Option.bind_eq_some_iff.1 hb
  exact hf a (ho a ha) b hab

theorem ringWrite_wf {base size h : Nat} {m : Memory} {bs : List Beat} (hw : m.wf = true) :
    (ringWrite base size m h bs).wf = true := by
  induction bs generalizing m h with
  | nil => exact hw
  | cons b bs ih =>
    rw [ringWrite]
    exact ih (Memory.wf_write hw _ _)

theorem MemoryCanonical.writeGddr {s : State} (hm : MemoryCanonical s) (a : Nat) (bs : List Byte) :
    MemoryCanonical { s with gddr := s.gddr.write a bs } :=
  ⟨Memory.wf_write hm.1 a bs, hm.2⟩

theorem MemoryCanonical.writeBulk {s : State} (hm : MemoryCanonical s) (a : Nat) (bs : List Byte) :
    MemoryCanonical { s with bulk := s.bulk.write a bs } :=
  ⟨hm.1, Memory.wf_write hm.2.1 a bs, hm.2.2⟩

theorem MemoryCanonical.writeHost {s : State} (hm : MemoryCanonical s) (a : Nat) (bs : List Byte) :
    MemoryCanonical { s with host := s.host.write a bs } :=
  ⟨hm.1, hm.2.1, Memory.wf_write hm.2.2.1 a bs, hm.2.2.2⟩

end Sys2Proof.Safety
end

section
/-! SUPPORT. The canonical form: the state's operations, the words of a context, links, accesses, windows and channels. -/

namespace Sys2Proof.Safety

open Sys2Proof.Machine

set_option Elab.async false

section

variable {s : State} (hm : MemoryCanonical s)

include hm

/-! Operations over the state -/

theorem MemoryCanonical.fresh : MemoryCanonical s.fresh.2 := hm.frame

theorem MemoryCanonical.later {least : Nat} : MemoryCanonical (s.later least).2 := hm.frame

theorem MemoryCanonical.setCtx {r : CtxRef} {x : Ctx} : MemoryCanonical (s.setCtx r x) := hm.frame

theorem MemoryCanonical.modCtx {r : CtxRef} {f : Ctx → Ctx} : MemoryCanonical (s.modCtx r f) := hm.frame

theorem MemoryCanonical.modTile {e : ElemRef} {f : Tile → Tile} : MemoryCanonical (s.modTile e f) := hm.frame

theorem MemoryCanonical.setBank {b : BankRef} {x : Bank} : MemoryCanonical (s.setBank b x) := hm.frame

theorem MemoryCanonical.setWin {w : WinRef} {x : Window} : MemoryCanonical (s.setWin w x) := hm.frame

theorem MemoryCanonical.modWin {w : WinRef} {f : Window → Window} : MemoryCanonical (s.modWin w f) := hm.frame

theorem MemoryCanonical.setChan {c : ChanRef} {x : Chan} : MemoryCanonical (s.setChan c x) := hm.frame

theorem MemoryCanonical.modChan {c : ChanRef} {f : Chan → Chan} : MemoryCanonical (s.modChan c f) := hm.frame

theorem MemoryCanonical.modRes {r : Nat} {f : Res → Res} : MemoryCanonical (s.modRes r f) := hm.frame

theorem MemoryCanonical.setBar {b : BarRef} {x : Bar} : MemoryCanonical (s.setBar b x) := hm.frame

theorem MemoryCanonical.active {rid : Nat} : MemoryCanonical (s.active rid) := .ite hm hm.frame

theorem MemoryCanonical.finish {r : CtxRef} {x : Ctx} : MemoryCanonical (s.finish r x) := hm.setCtx.active

theorem MemoryCanonical.fileLetter {rid elem who : Nat} {b : Beat} {host : Bool} :
    MemoryCanonical (s.fileLetter rid elem who b host) := hm.modRes

theorem MemoryCanonical.remoteLetter {rid code elem who pc i0 i1 : Nat} :
    MemoryCanonical (s.remoteLetter rid code elem who pc i0 i1) := hm.fileLetter

theorem MemoryCanonical.trap {r : CtxRef} {x : Ctx} {code : Nat} {i0 i1 : Word} : MemoryCanonical (s.trap r x code i0 i1) :=
  hm.setCtx.active.fileLetter

theorem MemoryCanonical.raise {v : Nat} : MemoryCanonical (s.raise v) := hm.frame

theorem MemoryCanonical.event {b : Beat} : MemoryCanonical (s.event b) := hm.frame

/-! Shapes of words -/

theorem MemoryCanonical.runWord {g : Guard} {f : CtxRef → Ctx → Out} (hf : ∀ a b, CanonicalOut (f a b)) :
    CanonicalOut (Machine.runWord g s f) := by
  unfold Machine.runWord
  split
  · exact .fault
  · exact .ite (hf _ _) (.next hm.finish)

theorem MemoryCanonical.pureWord {g : Guard} {f : Ctx → Ctx} : CanonicalOut (Machine.pureWord g s f) :=
  hm.runWord fun _ _ => .next hm.finish

omit hm in
theorem CanonicalOut.openWord {f : CtxRef → Ctx → Out} (hf : ∀ a b, CanonicalOut (f a b)) :
    CanonicalOut (Machine.openWord s f) := by
  unfold Machine.openWord
  split
  · exact .fault
  · exact hf _ _

theorem MemoryCanonical.openPure {f : Ctx → Ctx} : CanonicalOut (Machine.openPure s f) := CanonicalOut.openWord fun _ _ => .next hm.finish

theorem MemoryCanonical.aluSSS {o : SSSOps} {f : Word → Word → Word} : CanonicalOut (Machine.aluSSS o s f) := hm.pureWord

theorem MemoryCanonical.aluSSI {o : SSIOps} {f : Word → Word → Word} : CanonicalOut (Machine.aluSSI o s f) := hm.pureWord

/-! Scalar words -/

theorem MemoryCanonical.execAdd {o : SSSOps} : CanonicalOut (Machine.execAdd o s) := hm.aluSSS

theorem MemoryCanonical.execAddImm {o : SSIOps} : CanonicalOut (Machine.execAddImm o s) := hm.aluSSI

theorem MemoryCanonical.execSub {o : SSSOps} : CanonicalOut (Machine.execSub o s) := hm.aluSSS

theorem MemoryCanonical.execSubImm {o : SSIOps} : CanonicalOut (Machine.execSubImm o s) := hm.aluSSI

theorem MemoryCanonical.execMul {o : SSSOps} : CanonicalOut (Machine.execMul o s) := hm.aluSSS

theorem MemoryCanonical.execMulImm {o : SSIOps} : CanonicalOut (Machine.execMulImm o s) := hm.aluSSI

theorem MemoryCanonical.execMulh {o : SSSOps} : CanonicalOut (Machine.execMulh o s) := hm.aluSSS

theorem MemoryCanonical.execMulhImm {o : SSIOps} : CanonicalOut (Machine.execMulhImm o s) := hm.aluSSI

theorem MemoryCanonical.execMulhN {o : SSSOps} : CanonicalOut (Machine.execMulhN o s) := hm.aluSSS

theorem MemoryCanonical.execMulhNImm {o : SSIOps} : CanonicalOut (Machine.execMulhNImm o s) := hm.aluSSI

theorem MemoryCanonical.execMulhSn {o : SSSOps} : CanonicalOut (Machine.execMulhSn o s) := hm.aluSSS

theorem MemoryCanonical.execMulhSnImm {o : SSIOps} : CanonicalOut (Machine.execMulhSnImm o s) := hm.aluSSI

theorem MemoryCanonical.execDiv {o : SSSOps} : CanonicalOut (Machine.execDiv o s) := hm.aluSSS

theorem MemoryCanonical.execDivImm {o : SSIOps} : CanonicalOut (Machine.execDivImm o s) := hm.aluSSI

theorem MemoryCanonical.execDivN {o : SSSOps} : CanonicalOut (Machine.execDivN o s) := hm.aluSSS

theorem MemoryCanonical.execDivNImm {o : SSIOps} : CanonicalOut (Machine.execDivNImm o s) := hm.aluSSI

theorem MemoryCanonical.execRem {o : SSSOps} : CanonicalOut (Machine.execRem o s) := hm.aluSSS

theorem MemoryCanonical.execRemImm {o : SSIOps} : CanonicalOut (Machine.execRemImm o s) := hm.aluSSI

theorem MemoryCanonical.execRemN {o : SSSOps} : CanonicalOut (Machine.execRemN o s) := hm.aluSSS

theorem MemoryCanonical.execRemNImm {o : SSIOps} : CanonicalOut (Machine.execRemNImm o s) := hm.aluSSI

theorem MemoryCanonical.execAnd_ {o : SSSOps} : CanonicalOut (Machine.execAnd_ o s) := hm.aluSSS

theorem MemoryCanonical.execAndImm {o : SSIOps} : CanonicalOut (Machine.execAndImm o s) := hm.aluSSI

theorem MemoryCanonical.execOr_ {o : SSSOps} : CanonicalOut (Machine.execOr_ o s) := hm.aluSSS

theorem MemoryCanonical.execOrImm {o : SSIOps} : CanonicalOut (Machine.execOrImm o s) := hm.aluSSI

theorem MemoryCanonical.execXor {o : SSSOps} : CanonicalOut (Machine.execXor o s) := hm.aluSSS

theorem MemoryCanonical.execXorImm {o : SSIOps} : CanonicalOut (Machine.execXorImm o s) := hm.aluSSI

theorem MemoryCanonical.execAndn {o : SSSOps} : CanonicalOut (Machine.execAndn o s) := hm.aluSSS

theorem MemoryCanonical.execAndnImm {o : SSIOps} : CanonicalOut (Machine.execAndnImm o s) := hm.aluSSI

theorem MemoryCanonical.execShl {o : SSSOps} : CanonicalOut (Machine.execShl o s) := hm.aluSSS

theorem MemoryCanonical.execShlImm {o : SSIOps} : CanonicalOut (Machine.execShlImm o s) := hm.aluSSI

theorem MemoryCanonical.execShr {o : SSSOps} : CanonicalOut (Machine.execShr o s) := hm.aluSSS

theorem MemoryCanonical.execShrImm {o : SSIOps} : CanonicalOut (Machine.execShrImm o s) := hm.aluSSI

theorem MemoryCanonical.execSra {o : SSSOps} : CanonicalOut (Machine.execSra o s) := hm.aluSSS

theorem MemoryCanonical.execSraImm {o : SSIOps} : CanonicalOut (Machine.execSraImm o s) := hm.aluSSI

theorem MemoryCanonical.execRot {o : SSSOps} : CanonicalOut (Machine.execRot o s) := hm.aluSSS

theorem MemoryCanonical.execRotImm {o : SSIOps} : CanonicalOut (Machine.execRotImm o s) := hm.aluSSI

theorem MemoryCanonical.execMin {o : SSSOps} : CanonicalOut (Machine.execMin o s) := hm.aluSSS

theorem MemoryCanonical.execMinImm {o : SSIOps} : CanonicalOut (Machine.execMinImm o s) := hm.aluSSI

theorem MemoryCanonical.execMinN {o : SSSOps} : CanonicalOut (Machine.execMinN o s) := hm.aluSSS

theorem MemoryCanonical.execMinNImm {o : SSIOps} : CanonicalOut (Machine.execMinNImm o s) := hm.aluSSI

theorem MemoryCanonical.execMax {o : SSSOps} : CanonicalOut (Machine.execMax o s) := hm.aluSSS

theorem MemoryCanonical.execMaxImm {o : SSIOps} : CanonicalOut (Machine.execMaxImm o s) := hm.aluSSI

theorem MemoryCanonical.execMaxN {o : SSSOps} : CanonicalOut (Machine.execMaxN o s) := hm.aluSSS

theorem MemoryCanonical.execMaxNImm {o : SSIOps} : CanonicalOut (Machine.execMaxNImm o s) := hm.aluSSI

theorem MemoryCanonical.execCmpEq {o : KSSOps} : CanonicalOut (Machine.execCmpEq o s) := hm.pureWord

theorem MemoryCanonical.execCmpEqImm {o : KSIOps} : CanonicalOut (Machine.execCmpEqImm o s) := hm.pureWord

theorem MemoryCanonical.execCmpNe {o : KSSOps} : CanonicalOut (Machine.execCmpNe o s) := hm.pureWord

theorem MemoryCanonical.execCmpNeImm {o : KSIOps} : CanonicalOut (Machine.execCmpNeImm o s) := hm.pureWord

theorem MemoryCanonical.execCmpLt {o : KSSOps} : CanonicalOut (Machine.execCmpLt o s) := hm.pureWord

theorem MemoryCanonical.execCmpLtImm {o : KSIOps} : CanonicalOut (Machine.execCmpLtImm o s) := hm.pureWord

theorem MemoryCanonical.execCmpLe {o : KSSOps} : CanonicalOut (Machine.execCmpLe o s) := hm.pureWord

theorem MemoryCanonical.execCmpLeImm {o : KSIOps} : CanonicalOut (Machine.execCmpLeImm o s) := hm.pureWord

theorem MemoryCanonical.execCmpLtN {o : KSSOps} : CanonicalOut (Machine.execCmpLtN o s) := hm.pureWord

theorem MemoryCanonical.execCmpLtNImm {o : KSIOps} : CanonicalOut (Machine.execCmpLtNImm o s) := hm.pureWord

theorem MemoryCanonical.execCmpLeN {o : KSSOps} : CanonicalOut (Machine.execCmpLeN o s) := hm.pureWord

theorem MemoryCanonical.execCmpLeNImm {o : KSIOps} : CanonicalOut (Machine.execCmpLeNImm o s) := hm.pureWord

theorem MemoryCanonical.execSel {o : SSSKOps} : CanonicalOut (Machine.execSel o s) := hm.pureWord

theorem MemoryCanonical.execClz {o : SSOps} : CanonicalOut (Machine.execClz o s) := hm.pureWord

theorem MemoryCanonical.execCtz {o : SSOps} : CanonicalOut (Machine.execCtz o s) := hm.pureWord

theorem MemoryCanonical.execPopc {o : SSOps} : CanonicalOut (Machine.execPopc o s) := hm.pureWord

theorem MemoryCanonical.execExtI8 {o : SSOps} : CanonicalOut (Machine.execExtI8 o s) := hm.pureWord

theorem MemoryCanonical.execExtN8 {o : SSOps} : CanonicalOut (Machine.execExtN8 o s) := hm.pureWord

theorem MemoryCanonical.execExtI16 {o : SSOps} : CanonicalOut (Machine.execExtI16 o s) := hm.pureWord

theorem MemoryCanonical.execExtN16 {o : SSOps} : CanonicalOut (Machine.execExtN16 o s) := hm.pureWord

theorem MemoryCanonical.execExtI32 {o : SSOps} : CanonicalOut (Machine.execExtI32 o s) := hm.pureWord

theorem MemoryCanonical.execExtN32 {o : SSOps} : CanonicalOut (Machine.execExtN32 o s) := hm.pureWord

theorem MemoryCanonical.execBfx {o : SSSOps} : CanonicalOut (Machine.execBfx o s) := hm.aluSSS

theorem MemoryCanonical.execBfxI {o : SSSOps} : CanonicalOut (Machine.execBfxI o s) := hm.aluSSS

theorem MemoryCanonical.execBfi {o : SSSSOps} : CanonicalOut (Machine.execBfi o s) := hm.pureWord

theorem MemoryCanonical.execLi {o : SIOps} : CanonicalOut (Machine.execLi o s) := hm.pureWord

theorem MemoryCanonical.execLih {o : SIOps} : CanonicalOut (Machine.execLih o s) := hm.pureWord

theorem MemoryCanonical.execMov {o : MovOps} : CanonicalOut (Machine.execMov o s) := hm.pureWord

theorem MemoryCanonical.execKand {o : KKKOps} : CanonicalOut (Machine.execKand o s) := hm.pureWord

theorem MemoryCanonical.execKor {o : KKKOps} : CanonicalOut (Machine.execKor o s) := hm.pureWord

theorem MemoryCanonical.execKxor {o : KKKOps} : CanonicalOut (Machine.execKxor o s) := hm.pureWord

theorem MemoryCanonical.execKandn {o : KKKOps} : CanonicalOut (Machine.execKandn o s) := hm.pureWord

theorem MemoryCanonical.execKnot {o : KKOps} : CanonicalOut (Machine.execKnot o s) := hm.pureWord

theorem MemoryCanonical.execKmovKToS {o : SKOps} : CanonicalOut (Machine.execKmovKToS o s) := hm.pureWord

theorem MemoryCanonical.execKmovSToK {o : KSOps} : CanonicalOut (Machine.execKmovSToK o s) := hm.pureWord

theorem MemoryCanonical.execKpopc {o : SKOps} : CanonicalOut (Machine.execKpopc o s) := hm.pureWord

theorem MemoryCanonical.execKfirst {o : SKOps} : CanonicalOut (Machine.execKfirst o s) := hm.pureWord

theorem MemoryCanonical.execCnarrow {o : CCSSOps} : CanonicalOut (Machine.execCnarrow o s) := by
  unfold Machine.execCnarrow
  dsimp only
  refine hm.runWord fun _ _ => ?_
  split
  · exact .next hm.trap
  · exact .ite (.next hm.trap) (.next hm.finish)

theorem MemoryCanonical.execCperm {o : CCSOps} : CanonicalOut (Machine.execCperm o s) := by
  unfold Machine.execCperm
  dsimp only
  refine hm.runWord fun _ _ => ?_
  split
  · exact .next hm.trap
  · exact .next hm.finish

theorem MemoryCanonical.execCget {o : CGetOps} : CanonicalOut (Machine.execCget o s) := hm.pureWord

theorem MemoryCanonical.execLoop {o : LoopOps} : CanonicalOut (Machine.execLoop o s) :=
  CanonicalOut.openWord fun _ _ => .ite (.next hm.trap) (.next hm.setCtx.active)

theorem MemoryCanonical.execLmask {o : LMaskOps} : CanonicalOut (Machine.execLmask o s) := hm.openPure

theorem MemoryCanonical.execNop : CanonicalOut (Machine.execNop s) := hm.openPure

theorem MemoryCanonical.execTrap {o : TrapOps} : CanonicalOut (Machine.execTrap o s) := hm.runWord fun _ _ => .next hm.trap

/-! Vector words -/

theorem MemoryCanonical.execVadd {o : VBinOps} : CanonicalOut (Machine.execVadd o s) := hm.openPure

theorem MemoryCanonical.execVsub {o : VBinOps} : CanonicalOut (Machine.execVsub o s) := hm.openPure

theorem MemoryCanonical.execVmul {o : VBinOps} : CanonicalOut (Machine.execVmul o s) := hm.openPure

theorem MemoryCanonical.execVfma {o : VFmaOps} : CanonicalOut (Machine.execVfma o s) := hm.openPure

theorem MemoryCanonical.execVmin {o : VMinMaxOps} : CanonicalOut (Machine.execVmin o s) := hm.openPure

theorem MemoryCanonical.execVmax {o : VMinMaxOps} : CanonicalOut (Machine.execVmax o s) := hm.openPure

theorem MemoryCanonical.execVabs {o : VUnSOps} : CanonicalOut (Machine.execVabs o s) := hm.openPure

theorem MemoryCanonical.execVneg {o : VUnSOps} : CanonicalOut (Machine.execVneg o s) := hm.openPure

theorem MemoryCanonical.execVdiv {o : VDivOps} : CanonicalOut (Machine.execVdiv o s) := hm.openPure

theorem MemoryCanonical.execVsqrt {o : VUnOps} : CanonicalOut (Machine.execVsqrt o s) := hm.openPure

theorem MemoryCanonical.execVexp2 {o : VUnOps} : CanonicalOut (Machine.execVexp2 o s) := hm.openPure

theorem MemoryCanonical.execVlog2 {o : VUnOps} : CanonicalOut (Machine.execVlog2 o s) := hm.openPure

theorem MemoryCanonical.execVcmpEq {o : VCmpOps} : CanonicalOut (Machine.execVcmpEq o s) := hm.openPure

theorem MemoryCanonical.execVcmpNe {o : VCmpOps} : CanonicalOut (Machine.execVcmpNe o s) := hm.openPure

theorem MemoryCanonical.execVcmpLt {o : VCmpOps} : CanonicalOut (Machine.execVcmpLt o s) := hm.openPure

theorem MemoryCanonical.execVcmpLe {o : VCmpOps} : CanonicalOut (Machine.execVcmpLe o s) := hm.openPure

theorem MemoryCanonical.execVcmpUn {o : VCmpOps} : CanonicalOut (Machine.execVcmpUn o s) := hm.openPure

theorem MemoryCanonical.execVsel {o : VSelOps} : CanonicalOut (Machine.execVsel o s) := hm.openPure

theorem MemoryCanonical.execVand {o : VBitsOps} : CanonicalOut (Machine.execVand o s) := hm.openPure

theorem MemoryCanonical.execVor {o : VBitsOps} : CanonicalOut (Machine.execVor o s) := hm.openPure

theorem MemoryCanonical.execVxor {o : VBitsOps} : CanonicalOut (Machine.execVxor o s) := hm.openPure

theorem MemoryCanonical.execVandn {o : VBitsOps} : CanonicalOut (Machine.execVandn o s) := hm.openPure

theorem MemoryCanonical.execVshl {o : VBitsOps} : CanonicalOut (Machine.execVshl o s) := hm.openPure

theorem MemoryCanonical.execVshr {o : VBitsOps} : CanonicalOut (Machine.execVshr o s) := hm.openPure

theorem MemoryCanonical.execVsra {o : VBitsOps} : CanonicalOut (Machine.execVsra o s) := hm.openPure

theorem MemoryCanonical.execVcvt {o : VCvtOps} : CanonicalOut (Machine.execVcvt o s) := hm.openPure

theorem MemoryCanonical.execVrnd {o : VCvtOps} : CanonicalOut (Machine.execVrnd o s) := hm.openPure

theorem MemoryCanonical.execVscale {o : VScaleOps} : CanonicalOut (Machine.execVscale o s) := hm.openPure

theorem MemoryCanonical.execVpack {o : VPackOps} : CanonicalOut (Machine.execVpack o s) := hm.openPure

theorem MemoryCanonical.execVunpack {o : VUnpackOps} : CanonicalOut (Machine.execVunpack o s) := hm.openPure

theorem MemoryCanonical.execVbsc {o : VBscOps} : CanonicalOut (Machine.execVbsc o s) := hm.openPure

theorem MemoryCanonical.execVbsx {o : VBsxOps} : CanonicalOut (Machine.execVbsx o s) := hm.openPure

theorem MemoryCanonical.execVhad {o : VHadOps} : CanonicalOut (Machine.execVhad o s) := hm.openPure

theorem MemoryCanonical.execVredAdd {o : VRedOps} : CanonicalOut (Machine.execVredAdd o s) := hm.openPure

theorem MemoryCanonical.execVredMin {o : VRedOps} : CanonicalOut (Machine.execVredMin o s) := hm.openPure

theorem MemoryCanonical.execVredMax {o : VRedOps} : CanonicalOut (Machine.execVredMax o s) := hm.openPure

theorem MemoryCanonical.execVperm {o : VBitsOps} : CanonicalOut (Machine.execVperm o s) := hm.openPure

theorem MemoryCanonical.execVbcst {o : VFromSOps} : CanonicalOut (Machine.execVbcst o s) := hm.openPure

theorem MemoryCanonical.execVins {o : VInsOps} : CanonicalOut (Machine.execVins o s) := hm.openPure

theorem MemoryCanonical.execVext {o : VExtOps} : CanonicalOut (Machine.execVext o s) := hm.pureWord

theorem MemoryCanonical.execVsort {o : VSortOps} : CanonicalOut (Machine.execVsort o s) := hm.openPure

theorem MemoryCanonical.execVsdc {o : VSdcOps} : CanonicalOut (Machine.execVsdc o s) := hm.openPure

theorem MemoryCanonical.execVsdadd {o : VSdAddOps} : CanonicalOut (Machine.execVsdadd o s) := hm.openPure

theorem MemoryCanonical.execVsdcmp {o : VSdCmpOps} : CanonicalOut (Machine.execVsdcmp o s) := hm.openPure

theorem MemoryCanonical.execVclass {o : VClassOps} : CanonicalOut (Machine.execVclass o s) := hm.openPure

theorem MemoryCanonical.execVdot {o : VDotOps} : CanonicalOut (Machine.execVdot o s) := hm.openPure

/-! Links and channels -/

theorem MemoryCanonical.trace {bs : List Beat} {drops : Bool} : MemoryCanonical (s.trace bs drops) := by
  obtain ⟨hgddr, hbulk, hhost, helems⟩ := id hm
  unfold State.trace
  dsimp only
  split
  · exact ⟨hgddr, hbulk, ringWrite_wf hhost, helems⟩
  · exact hm.frame

theorem MemoryCanonical.sillage {rid : Nat} {t : Sample} {how sink : Nat} : MemoryCanonical (s.sillage rid t how sink) := hm.trace

theorem MemoryCanonical.sinkItem {rid : Nat} {i : Item} {how sink : Nat} : MemoryCanonical (s.sinkItem rid i how sink) := by
  unfold State.sinkItem
  split
  · exact hm
  · exact hm.sillage

theorem MemoryCanonical.linkDue {a b : ElemRef} : MemoryCanonical (s.linkDue a b).2 := by
  unfold State.linkDue
  dsimp only
  split
  · exact hm
  · exact hm.later

theorem MemoryCanonical.push {src : ElemRef} {c : ChanRef} {f : Fly} : MemoryCanonical (s.push src c f) := hm.linkDue.modChan.active

theorem MemoryCanonical.breakHit {rid elem who pc n oc : Nat} : MemoryCanonical (s.breakHit rid elem who pc n oc) :=
  .ite hm (.ite hm.remoteLetter hm.remoteLetter.modRes)

theorem MemoryCanonical.linkBreak {rid elem oc who pc : Nat} {i : Fin 4} : MemoryCanonical (s.linkBreak rid elem oc who pc i) :=
  .ite (.ite hm.frame.breakHit hm.frame) hm

theorem MemoryCanonical.depart {e : ElemRef} {oc who pc : Nat} {res : Bool} {it : Item} :
    MemoryCanonical (s.depart e oc who pc res it) := by
  have counted {n : Nat} : MemoryCanonical ((List.finRange 4).foldl (fun s i => s.linkBreak e.rid e.elem oc who pc i)
      (s.modElem e fun x => { x with sentCnt := tput x.sentCnt oc n })) :=
    hm.modElem.foldl fun _ _ h => h.linkBreak
  unfold State.depart
  extract_lets rs n s₁ rate auto it₁ s₂
  have h₂ : MemoryCanonical s₂ := counted
  split
  · exact h₂.sinkItem.active
  · exact (MemoryCanonical.ite h₂.modChan h₂).push

theorem MemoryCanonical.sendCtl {e : ElemRef} {oc : Nat} {i : Item} : MemoryCanonical (s.sendCtl e oc i) := by
  unfold State.sendCtl
  split
  · exact hm
  · exact hm.push

theorem MemoryCanonical.sendDone {r : CtxRef} : MemoryCanonical (s.sendDone r) := hm.sendCtl

theorem MemoryCanonical.takeAt {c : ChanRef} {i : Nat} : ∀ u ∈ s.takeAt c i, MemoryCanonical u.2 := by
  unfold State.takeAt
  split
  · exact forall_mem_none
  · split
    · exact forall_mem_none
    · exact forall_mem_some hm.setChan.active

theorem MemoryCanonical.ctxTake {c : ChanRef} {n : Nat} : MemoryCanonical (s.ctxTake c n) := by
  induction n generalizing s with
  | zero => exact hm
  | succ n ih =>
    unfold State.ctxTake
    split
    · exact hm
    next heq => exact ih (hm.takeAt _ heq).sinkItem

theorem MemoryCanonical.illegal {r : CtxRef} {x : Ctx} : MemoryCanonical (s.illegal r x) := hm.trap

/-! Barriers -/

theorem MemoryCanonical.barDrop {e : ElemRef} : MemoryCanonical (s.barDrop e) := .ite hm hm.frame

theorem MemoryCanonical.barWake {e : ElemRef} {b : Nat} {phase : Bool} : MemoryCanonical (s.barWake e b phase) := hm.frame

theorem MemoryCanonical.arrive {e : ElemRef} {b : Nat} {rel : Bool} : MemoryCanonical (s.arrive e b rel) :=
  .ite hm.active.barDrop (.ite hm.active.setBar.barWake hm.active.setBar)

theorem MemoryCanonical.sendArrival {t : ElemRef} {src bar : Nat} {rel : Bool} {note : Option Word} {token : Option ChanRef} :
    MemoryCanonical (s.sendArrival t src bar rel note token) := hm.frame

/-! Accesses in flight -/

theorem MemoryCanonical.writePlace {p : Place} {data : List Byte} {tags : List Bool} : MemoryCanonical (s.writePlace p data tags) := by
  unfold State.writePlace
  split
  · exact (hm.writeGddr _ data).frame
  · exact (hm.writeBulk _ data).frame
  · exact hm.writeHost _ data
  · exact hm

theorem MemoryCanonical.regionView {rid : Nat} : MemoryCanonical (s.regionView rid) := hm.foldl fun _ _ h1 => h1.writePlace

theorem MemoryCanonical.dirty {asid : Nat} {bulkTbl : Bool} {need : Need} {va : Nat} :
    MemoryCanonical (s.dirty asid bulkTbl need va) := by
  unfold State.dirty
  split
  · exact hm.writeGddr _ [_]
  · exact hm

theorem MemoryCanonical.setPte {p : PageRef} {e : Pte} : MemoryCanonical (s.setPte p e) := by
  unfold State.setPte
  split
  · exact hm.writeGddr ..
  · exact hm

theorem MemoryCanonical.setPort {p : PortRef} {x : Port} : MemoryCanonical (s.setPort p x) := hm.frame

theorem MemoryCanonical.modAcc {id : Nat} {f : Acc → Acc} : MemoryCanonical (s.modAcc id f) := hm.frame

theorem MemoryCanonical.dropAcc {id : Nat} : MemoryCanonical (s.dropAcc id) := hm.frame

theorem MemoryCanonical.tlbFill {p : PortRef} {t : TlbEnt} : MemoryCanonical (s.tlbFill p t) := hm.frame.setPort

theorem MemoryCanonical.tryPort {a : Acc} : ∀ u ∈ s.tryPort a, MemoryCanonical u := by
  unfold State.tryPort
  dsimp only
  split
  · exact forall_mem_none
  · split
    · split
      · exact forall_mem_none
      · exact forall_mem_some (.modAcc (.later (.ite hm.dirty hm)))
    · split
      · exact forall_mem_some hm.later.modAcc
      · exact forall_mem_none

theorem MemoryCanonical.portGo {l : List Acc} : MemoryCanonical (s.portGo l) := by
  induction l generalizing s with
  | nil => exact hm
  | cons a l ih =>
    unfold State.portGo
    split
    · exact hm
    next heq => exact ih (hm.tryPort _ heq)

theorem MemoryCanonical.portRun {p : PortRef} : MemoryCanonical (s.portRun p) := hm.portGo

theorem MemoryCanonical.portsRun : MemoryCanonical s.portsRun := hm.foldl fun _ _ h1 => h1.portRun

theorem MemoryCanonical.issue {a : Acc} : MemoryCanonical (s.issue a).2 := .ite hm.frame.active.portRun hm.frame.active

theorem MemoryCanonical.enqueueDead {a : Acc} {m : Miss} : MemoryCanonical (s.enqueueDead a m) := by
  unfold State.enqueueDead
  dsimp only
  split
  · exact hm.modAcc.setPort
  · split
    · split
      · exact hm.modAcc.setPort.remoteLetter
      · exact hm.modAcc.setPort.modCtx
      · exact hm.modAcc.setPort.modCtx
    · exact .ite hm.modAcc.setPort.remoteLetter hm.modAcc.setPort

theorem MemoryCanonical.leaveDead {a : Acc} {replayed : Bool} : MemoryCanonical (s.leaveDead a replayed) :=
  .ite hm.setPort.remoteLetter hm.setPort

/-! Windows -/

theorem MemoryCanonical.winFill {wr : WinRef} {w : Window} {bs : List Byte} {tag : Bool} :
    MemoryCanonical (s.winFill wr w bs tag) := (hm.modElem fun _ => Elem.wf_putAt).setWin.active

theorem MemoryCanonical.joinWindow {r : CtxRef} {x : Ctx} {w : Nat} {i : Instr} : MemoryCanonical (s.joinWindow r x w i) :=
  hm.modWin.setCtx

theorem MemoryCanonical.orWait {r : CtxRef} {x : Ctx} {w : Nat} {i : Instr} {t : Option State} (ht : ∀ p ∈ t, MemoryCanonical p) :
    MemoryCanonical (s.orWait r x w i t) := by
  cases t with
  | none => exact hm.joinWindow
  | some t => exact ht t rfl

theorem MemoryCanonical.withWin {r : CtxRef} {x : Ctx} {w : Nat} {f : WinRef → Window → Option State} (hf : ∀ a b, ∀ u ∈ f a b, MemoryCanonical u) :
    ∀ u ∈ s.withWin r x w f, MemoryCanonical u := by
  unfold State.withWin
  split
  · exact forall_mem_some hm.illegal
  · split
    · exact forall_mem_some hm.illegal
    · exact hf _ _

theorem MemoryCanonical.tryWfill {o : WFillOps} {r : CtxRef} {x : Ctx} : ∀ u ∈ Machine.tryWfill o s r x, MemoryCanonical u := by
  unfold Machine.tryWfill
  dsimp only
  refine hm.withWin fun _ _ => ?_
  split
  · exact forall_mem_some hm.illegal
  · split
    · exact forall_mem_none
    · exact forall_mem_some hm.winFill.finish

theorem MemoryCanonical.tryWread {o : WOffOps} {r : CtxRef} {x : Ctx} : ∀ u ∈ Machine.tryWread o s r x, MemoryCanonical u := by
  unfold Machine.tryWread
  dsimp only
  refine hm.withWin fun _ _ => ?_
  split
  · exact forall_mem_some hm.illegal
  · split
    · exact forall_mem_none
    · split
      · exact forall_mem_some hm.trap
      · exact forall_mem_some hm.finish

theorem MemoryCanonical.tryWupd {o : WOffOps} {r : CtxRef} {x : Ctx} : ∀ u ∈ Machine.tryWupd o s r x, MemoryCanonical u := by
  unfold Machine.tryWupd
  dsimp only
  refine hm.withWin fun _ _ => ?_
  split
  · exact forall_mem_some hm.illegal
  · split
    · exact forall_mem_none
    · exact forall_mem_some (hm.modElem fun _ => Elem.wf_putAt).finish

theorem MemoryCanonical.tryWshrink {o : WShrinkOps} {r : CtxRef} {x : Ctx} : ∀ u ∈ Machine.tryWshrink o s r x, MemoryCanonical u := by
  unfold Machine.tryWshrink
  dsimp only
  refine hm.withWin fun _ _ => ?_
  split
  · exact forall_mem_none
  · exact forall_mem_some hm.setWin.finish

theorem MemoryCanonical.tryVhist {o : VHistOps} {r : CtxRef} {x : Ctx} : ∀ u ∈ Machine.tryVhist o s r x, MemoryCanonical u := by
  unfold Machine.tryVhist
  dsimp only
  refine hm.withWin fun _ _ => ?_
  split
  · exact forall_mem_some hm.illegal
  · split
    · exact forall_mem_none
    · split
      · exact forall_mem_some hm.trap
      · exact forall_mem_some (hm.modElem fun _ => Elem.wf_putAt).finish

theorem MemoryCanonical.issueAll {l : List Acc} : MemoryCanonical (s.issueAll l).2 := by
  induction l generalizing s with
  | nil => exact hm
  | cons a l ih => exact ih hm.issue

theorem MemoryCanonical.winRelease {wr : WinRef} {frozen : Bool} : MemoryCanonical (s.winRelease wr frozen) := hm.modWin

theorem MemoryCanonical.tryWsave {o : WSaveOps} {r : CtxRef} {x : Ctx} : ∀ u ∈ Machine.tryWsave o s r x, MemoryCanonical u := by
  unfold Machine.tryWsave
  dsimp only
  refine hm.withWin fun _ _ => ?_
  split
  · exact forall_mem_none
  · split
    · exact forall_mem_some hm.trap
    · split
      · exact forall_mem_some hm.trap
      · exact forall_mem_some hm.setWin.issueAll.setCtx

theorem MemoryCanonical.tryWrest {o : WRestOps} {r : CtxRef} {x : Ctx} : ∀ u ∈ Machine.tryWrest o s r x, MemoryCanonical u := by
  unfold Machine.tryWrest
  dsimp only
  refine hm.withWin fun _ _ => ?_
  split
  · exact forall_mem_none
  · split
    · exact forall_mem_some hm.trap
    · exact forall_mem_some hm.setWin.issue.setCtx

theorem MemoryCanonical.wrestDone {r : CtxRef} {x : Ctx} {o : WRestOps} {hd bs : List Byte} {tags : List Bool} :
    MemoryCanonical (s.wrestDone r x o hd bs tags) := by
  unfold State.wrestDone
  dsimp only
  split
  · exact hm
  · exact (hm.modElem (by exact fun _ hw => Memory.wf_write hw ..)).setWin.finish

theorem MemoryCanonical.wrestHeader {r : CtxRef} {x : Ctx} {o : WRestOps} {hd : List Byte} :
    MemoryCanonical (s.wrestHeader r x o hd) := by
  unfold State.wrestHeader
  dsimp only
  split
  · exact hm
  · exact .ite hm.winRelease.trap (.ite hm.setWin.issueAll.wrestDone hm.setWin.issueAll.setCtx)

theorem MemoryCanonical.transferEnd {wr : WinRef} {k : Waiter} {vc : Option Nat} {t : CtlKind} :
    MemoryCanonical (s.transferEnd wr k vc t) := by
  unfold State.transferEnd
  dsimp only
  split
  · exact hm
  · split
    · exact hm.setWin
    · exact hm.setWin

theorem MemoryCanonical.fillPlain {wr : WinRef} {b : List Byte} : ∀ p ∈ s.fillPlain wr b, MemoryCanonical p := by
  unfold State.fillPlain
  dsimp only
  split
  · exact forall_mem_none
  · exact forall_mem_ite (forall_mem_some hm) (forall_mem_ite (forall_mem_some hm.winFill) forall_mem_none)

theorem MemoryCanonical.fillBeat {wr : WinRef} {k : Waiter} {b : List Byte} : ∀ u ∈ s.fillBeat wr k b, MemoryCanonical u :=
  Option.forall_mem_map.2 fun _ hp1 => (hm.fillPlain _ hp1).modWin

theorem MemoryCanonical.portFill {c : ChanRef} : ∀ u ∈ s.portFill c, MemoryCanonical u := by
  unfold State.portFill
  dsimp only
  split
  · exact forall_mem_none
  · split
    · split
      · exact forall_mem_none
      · split
        · exact forall_mem_none
        next heq1 =>
          split
          · exact forall_mem_none
          next heq2 =>
            exact forall_mem_some (.ite ((hm.fillBeat _ heq1).takeAt _ heq2).sinkItem.transferEnd ((hm.fillBeat _ heq1).takeAt _ heq2).sinkItem)
    · exact forall_mem_none

theorem MemoryCanonical.joinWaiters {wr : WinRef} {k : Waiter} : MemoryCanonical (s.joinWaiters wr k) := hm.modWin

theorem MemoryCanonical.leaveWaiters {wr : WinRef} {k : Waiter} : MemoryCanonical (s.leaveWaiters wr k) := hm.modWin

theorem MemoryCanonical.execWfill {o : WFillOps} : CanonicalOut (Machine.execWfill o s) :=
  hm.runWord fun _ _ => .next (hm.orWait hm.tryWfill)

theorem MemoryCanonical.execWread {o : WOffOps} : CanonicalOut (Machine.execWread o s) :=
  hm.runWord fun _ _ => .next (hm.orWait hm.tryWread)

theorem MemoryCanonical.execWupd {o : WOffOps} : CanonicalOut (Machine.execWupd o s) :=
  hm.runWord fun _ _ => .next (hm.orWait hm.tryWupd)

theorem MemoryCanonical.execWshrink {o : WShrinkOps} : CanonicalOut (Machine.execWshrink o s) :=
  hm.runWord fun _ _ => .next (hm.orWait hm.tryWshrink)

theorem MemoryCanonical.execWstat {o : WStatOps} : CanonicalOut (Machine.execWstat o s) :=
  hm.runWord fun _ _ => .next (MemoryCanonical.getD (hm.withWin fun _ _ => forall_mem_some hm.finish) hm)

theorem MemoryCanonical.execWsave {o : WSaveOps} : CanonicalOut (Machine.execWsave o s) :=
  hm.runWord fun _ _ => .next (hm.orWait hm.tryWsave)

theorem MemoryCanonical.execWrest {o : WRestOps} : CanonicalOut (Machine.execWrest o s) :=
  hm.runWord fun _ _ => .next (hm.orWait hm.tryWrest)

theorem MemoryCanonical.execVhist {o : VHistOps} : CanonicalOut (Machine.execVhist o s) :=
  CanonicalOut.openWord fun _ _ => .next (hm.orWait hm.tryVhist)

/-! Channel words -/

theorem MemoryCanonical.badBeat {r : CtxRef} {x : Ctx} {vc : Fin 32} {k : Nat} {y : Bad} : MemoryCanonical (s.badBeat r x vc k y) := by
  unfold State.badBeat
  split
  · exact hm.trap
  · exact hm.trap
  · exact hm.trap

theorem MemoryCanonical.takeBeats {r : CtxRef} {x : Ctx} {vc : Fin 32} {n : Nat} :
    CanonicalSum (fun u => u.2.1) (s.takeBeats r x vc n) := by
  unfold State.takeBeats
  dsimp only
  split
  · exact hm.illegal
  · split
    · exact hm.trap
    · split
      · exact hm.badBeat
      · exact hm.ctxTake

theorem MemoryCanonical.execRecv {o : RecvOps} : CanonicalOut (Machine.execRecv o s) := by
  unfold Machine.execRecv
  refine hm.runWord fun _ _ => ?_
  refine .next ?_
  split
  next heq1 => exact hm.takeBeats.of_inl heq1
  next heq1 => exact (hm.takeBeats.of_inr heq1).finish

theorem MemoryCanonical.execPeek {o : PeekOps} : CanonicalOut (Machine.execPeek o s) := by
  unfold Machine.execPeek
  dsimp only
  refine hm.runWord fun _ _ => ?_
  refine .next ?_
  split
  · exact hm.illegal
  · split
    · exact hm.trap
    · split
      · exact hm.badBeat
      · exact hm.finish

theorem MemoryCanonical.ctxSend {r : CtxRef} {x : Ctx} {oc : Fin 32} {b : Beat} : MemoryCanonical (s.ctxSend r x oc b).1 := by
  unfold State.ctxSend
  dsimp only
  split
  · split
    · exact hm.depart
    · split
      · exact hm.depart.breakHit
      · exact hm.depart
  · exact hm.depart

theorem MemoryCanonical.ctxSends {r : CtxRef} {x : Ctx} {oc : Fin 32} {bs : List Beat} : MemoryCanonical (s.ctxSends r x oc bs).1 := by
  induction bs generalizing s x with
  | nil => exact hm
  | cons b bs ih => exact ih hm.ctxSend

theorem MemoryCanonical.execSend {o : SendOps} : CanonicalOut (Machine.execSend o s) :=
  hm.runWord fun _ _ => .next (.ite hm.illegal (.ite hm.trap hm.ctxSend.finish))

theorem MemoryCanonical.execVcset {o : VcSetOps} : CanonicalOut (Machine.execVcset o s) :=
  hm.runWord fun _ _ => .next (.ite hm.illegal (.ite hm.trap (.ite hm.trap (.ite hm.trap hm.modChan.finish))))

theorem MemoryCanonical.formBeat {r : CtxRef} {x : Ctx} {vc : Fin 32} {t : Ty} {f : Beat → Ctx → Ctx} :
    MemoryCanonical (s.formBeat r x vc t f) := by
  unfold State.formBeat
  dsimp only
  split
  · exact hm.illegal
  · split
    · exact hm.trap
    · split
      · exact hm.trap
      · split
        next heq1 => exact hm.takeBeats.of_inl heq1
        next heq1 => exact (hm.takeBeats.of_inr heq1).finish

theorem MemoryCanonical.execVcvtChannel {o : VCvtChOps} : CanonicalOut (Machine.execVcvtChannel o s) :=
  CanonicalOut.openWord fun _ _ => .next hm.formBeat

theorem MemoryCanonical.execVsdcChannel {o : VSdcChOps} : CanonicalOut (Machine.execVsdcChannel o s) :=
  CanonicalOut.openWord fun _ _ => .next hm.formBeat

theorem MemoryCanonical.unreserve {r : CtxRef} {x : Ctx} : MemoryCanonical (s.unreserve r x) := by
  unfold State.unreserve
  refine MemoryCanonical.foldl hm fun _ _ h1 => ?_
  split
  · split
    · exact h1.modChan
    · exact h1
  · exact h1

theorem MemoryCanonical.execEnd_ : CanonicalOut (Machine.execEnd_ s) := by
  unfold Machine.execEnd_
  refine CanonicalOut.openWord fun r x => .next ?_
  split
  · exact hm.trap
  · extract_lets s₁ s₂ x₁ x₂
    have h₁ : MemoryCanonical s₁ := hm.foldl fun _ _ h => .ite h.ctxTake h
    have h₂ : MemoryCanonical s₂ := h₁.unreserve
    exact .ite h₂.setCtx.active.sendDone h₂.setCtx.active

end

end Sys2Proof.Safety
end

section
/-! SUPPORT. The canonical form: memory words, markers, the matrix array, generators and fabric operators. -/

namespace Sys2Proof.Safety

open Sys2Proof.Machine

set_option Elab.async false

section

variable {s : State} (hm : MemoryCanonical s)

include hm

/-! Barrier and memory words -/

theorem MemoryCanonical.outGo {l kept : List (ChanRef × Item)} : MemoryCanonical (s.outGo l kept) := by
  induction l generalizing s kept with
  | nil => exact hm.frame
  | cons p l ih =>
    unfold State.outGo
    split
    · exact ih hm
    · exact .ite (ih hm) (ih hm.push)

theorem MemoryCanonical.outRun : MemoryCanonical s.outRun := hm.outGo

theorem MemoryCanonical.toChan {c : ChanRef} {i : Item} : MemoryCanonical (s.toChan c i) := hm.frame.outRun

theorem MemoryCanonical.execBarInit {o : BarInitOps} : CanonicalOut (Machine.execBarInit o s) :=
  hm.runWord fun _ _ => .next hm.setBar.finish

theorem MemoryCanonical.release {d : Deferred} : MemoryCanonical (s.release d) := by
  unfold State.release
  dsimp only
  split
  · exact hm.arrive.modCtx
  · exact hm.sendArrival
  · exact hm.sendCtl

theorem MemoryCanonical.deferGo {p : Deferred → Bool} {l kept : List Deferred} : MemoryCanonical (s.deferGo p l kept) := by
  induction l generalizing s kept with
  | nil => exact hm.frame
  | cons d l ih => exact .ite (ih hm) (ih hm.release)

theorem MemoryCanonical.deferRun : MemoryCanonical s.deferRun := hm.deferGo

theorem MemoryCanonical.defer {d : Deferred} : MemoryCanonical (s.defer d) := hm.frame.deferRun

theorem MemoryCanonical.forget {r : CtxRef} {d : SReg} : MemoryCanonical (s.forget r d) := hm.frame

theorem MemoryCanonical.execBarArrive {o : BarOps} : CanonicalOut (Machine.execBarArrive o s) :=
  hm.runWord fun _ _ => .next (.ite hm.finish.arrive hm.forget.finish.defer)

theorem MemoryCanonical.execBarWait {o : BarOps} : CanonicalOut (Machine.execBarWait o s) :=
  hm.runWord fun _ _ => .next (.ite hm.finish hm.setCtx)

theorem MemoryCanonical.awWait {r : CtxRef} {x : Ctx} {o : BarOps} : MemoryCanonical (s.awWait r x o) := .ite hm.finish hm.setCtx

theorem MemoryCanonical.awArrive {r : CtxRef} {x : Ctx} {o : BarOps} : MemoryCanonical (s.awArrive r x o) := hm.setCtx.arrive.awWait

theorem MemoryCanonical.execBarAw {o : BarOps} : CanonicalOut (Machine.execBarAw o s) :=
  hm.runWord fun _ _ => .next (.ite hm.awWait (.ite hm.awArrive hm.setCtx))

theorem MemoryCanonical.execBarRemote {o : BarRemoteOps} : CanonicalOut (Machine.execBarRemote o s) := by
  unfold Machine.execBarRemote
  dsimp only
  refine hm.runWord fun _ _ => ?_
  refine .next ?_
  split
  · exact hm.illegal
  · exact hm.finish.defer

theorem MemoryCanonical.waitLoad {r : CtxRef} {x : Ctx} {i : Instr} {op : Byte} {a : Acc} :
    MemoryCanonical (s.waitLoad r x i op a) := hm.issue.setCtx

theorem MemoryCanonical.execMld {o : MemOps} : CanonicalOut (Machine.execMld o s) := by
  unfold Machine.execMld
  dsimp only
  refine hm.runWord fun _ _ => ?_
  refine .next ?_
  split
  · exact hm.trap
  · exact hm.waitLoad

theorem MemoryCanonical.execMst {o : MemOps} : CanonicalOut (Machine.execMst o s) := by
  unfold Machine.execMst
  dsimp only
  refine hm.runWord fun _ _ => ?_
  refine .next ?_
  split
  · exact hm.trap
  · exact hm.issue.finish

theorem MemoryCanonical.execCld {o : CLdOps} : CanonicalOut (Machine.execCld o s) := by
  unfold Machine.execCld
  dsimp only
  refine hm.runWord fun _ _ => ?_
  refine .next ?_
  split
  · exact hm.trap
  · exact .ite hm.trap hm.waitLoad

theorem MemoryCanonical.execCst {o : CStOps} : CanonicalOut (Machine.execCst o s) := by
  unfold Machine.execCst
  dsimp only
  refine hm.runWord fun _ _ => ?_
  refine .next ?_
  split
  · exact hm.trap
  · exact .ite hm.trap hm.issue.finish

theorem MemoryCanonical.execMwrt {o : MWrtOps} : CanonicalOut (Machine.execMwrt o s) := by
  unfold Machine.execMwrt
  dsimp only
  refine hm.runWord fun _ _ => ?_
  refine .next ?_
  split
  · exact hm.illegal
  · split
    · exact hm.finish
    · split
      · exact hm.trap
      · split
        · exact hm.trap
        · split
          next heq1 => exact hm.takeBeats.of_inl heq1
          next heq1 => exact (hm.takeBeats.of_inr heq1).issueAll.finish

theorem MemoryCanonical.ctxArrivals {r : CtxRef} : MemoryCanonical (s.ctxArrivals r) := by
  unfold State.ctxArrivals
  dsimp only
  split
  · exact hm.deferGo
  · split
    · exact .ite hm.deferGo.awArrive hm.deferGo
    · exact hm.deferGo

theorem MemoryCanonical.tileArrivals {e : ElemRef} {n : Nat} : MemoryCanonical (s.tileArrivals e n) :=
  .ite (hm.foldl fun _ _ h1 => h1.ctxArrivals) hm

theorem MemoryCanonical.execMreq {o : MReqOps} : CanonicalOut (Machine.execMreq o s) := by
  unfold Machine.execMreq
  dsimp only
  refine hm.runWord fun _ _ => ?_
  refine .next ?_
  split
  · exact hm.trap
  · exact .ite hm.trap hm.issueAll.finish

theorem MemoryCanonical.execWreq {o : WReqOps} : CanonicalOut (Machine.execWreq o s) :=
  hm.runWord fun _ _ => .next (.ite hm.trap (.ite hm.trap hm.frame.joinWaiters.finish))

theorem MemoryCanonical.serveWreq {c : Cmd} {o : WReqOps} : ∀ u ∈ s.serveWreq c o, MemoryCanonical u := by
  unfold State.serveWreq
  dsimp only
  split
  · exact forall_mem_none
  · split
    · exact forall_mem_none
    · exact forall_mem_some (.active (.frame (.ite (hm.foldl fun _ _ h1 => h1.toChan).toChan (hm.foldl fun _ _ h1 => h1.toChan))))

theorem MemoryCanonical.fenceWord {r : CtxRef} {x : Ctx} {i : Instr} {mask : Byte} {sc : Scope} :
    MemoryCanonical (s.fenceWord r x i mask sc) := .ite hm.finish hm.setCtx

theorem MemoryCanonical.execFenceRegion {o : FenceOps} : CanonicalOut (Machine.execFenceRegion o s) :=
  hm.runWord fun _ _ => .next hm.fenceWord

theorem MemoryCanonical.execFenceDevice {o : FenceOps} : CanonicalOut (Machine.execFenceDevice o s) :=
  hm.runWord fun _ _ => .next hm.fenceWord

theorem MemoryCanonical.execFenceSystem {o : FenceOps} : CanonicalOut (Machine.execFenceSystem o s) :=
  hm.runWord fun _ _ => .next hm.fenceWord

theorem MemoryCanonical.execCtok {o : CtokOps} : CanonicalOut (Machine.execCtok o s) :=
  hm.runWord fun _ _ => .next (.ite hm.illegal hm.finish.defer)

theorem MemoryCanonical.loadDone {r : CtxRef} {x : Ctx} {bs : List Byte} {tags : List Bool} {bad : Bool} :
    MemoryCanonical (s.loadDone r x bs tags bad) := by
  unfold State.loadDone
  split
  · exact hm.trap
  · split
    · exact hm.finish
    · exact hm.finish
    · exact hm

theorem MemoryCanonical.wakeCtx {r : CtxRef} : MemoryCanonical (s.wakeCtx r) := by
  unfold State.wakeCtx
  dsimp only
  split
  · exact hm
  · split
    · split
      · exact hm.dropAcc.loadDone
      · exact hm
    · split
      · split
        · exact hm
        · exact hm.finish
      · exact hm
    · split
      · split
        · exact hm.frame.winRelease.finish
        · exact hm
      · exact hm
    · split
      · exact .ite hm.dropAcc.modWin.trap hm.dropAcc.wrestHeader
      · exact hm
    · split
      · exact .ite (hm.foldl fun _ _ h1 => h1.dropAcc).winRelease.trap (hm.foldl fun _ _ h1 => h1.dropAcc).wrestDone
      · exact hm
    · split
      · split
        · exact hm.frame.setCtx
        · exact hm
      · exact hm
    · exact hm

theorem MemoryCanonical.wakeAll : MemoryCanonical s.wakeAll := hm.foldl fun _ _ h1 => h1.wakeCtx

theorem MemoryCanonical.replyGo {l : List Acc} : MemoryCanonical (s.replyGo l) := by
  induction l generalizing s with
  | nil => exact hm
  | cons a l ih =>
    unfold State.replyGo
    split
    · exact .ite (ih hm) (ih (.ite hm.dropAcc.toChan.toChan hm.dropAcc.toChan))
    · exact ih hm

theorem MemoryCanonical.settle : MemoryCanonical s.settle := hm.replyGo.wakeAll.deferRun

theorem MemoryCanonical.execAccessComplete : CanonicalOut (Machine.execAccessComplete s) := by
  unfold Machine.execAccessComplete
  dsimp only
  split
  · split
    · exact .next hm
    next id sc _ a _ =>
      refine .ite (.next hm) (.ite (.ite (.next hm) (.ite .fault (.next (.active (.settle (.modAcc hm.frame)))))) (.ite (.next hm) ?_))
      have h₁ : MemoryCanonical (s.later 0).2 := hm.later
      split
      · exact .next h₁.frame.settle.active
      · exact .ite .fault (.next h₁.modAcc.writePlace.settle.active)
      · exact .next (MemoryCanonical.ite h₁.modAcc h₁.dropAcc).settle.active
  · exact .next hm

theorem MemoryCanonical.countArrivals {e : ElemRef} {l : List Remote} : MemoryCanonical (s.countArrivals e l) := by
  induction l generalizing s with
  | nil => exact hm
  | cons m l ih =>
    unfold State.countArrivals
    extract_lets k b s₁ s₂
    have h₁ : MemoryCanonical s₁ := by
      unfold s₁
      split
      · exact hm.setBar
      · exact hm
    refine ih ?_
    split
    · exact h₁.arrive.toChan
    · exact h₁.arrive

theorem MemoryCanonical.execRemoteArrival : CanonicalOut (Machine.execRemoteArrival s) := by
  unfold Machine.execRemoteArrival
  dsimp only
  split
  · exact .next (.ite hm.frame.countArrivals hm.frame.countArrivals.tileArrivals)
  · exact .next hm

/-! Contexts and markers -/

theorem MemoryCanonical.dropFreeze {r : CtxRef} {x : Ctx} : MemoryCanonical (s.dropFreeze r x) := by
  unfold State.dropFreeze
  split
  · exact hm
  · exact .ite hm hm.modCtx

theorem MemoryCanonical.unpause {i : Inval} {others : List Inval} : MemoryCanonical (s.unpause i others) := hm.frame

theorem MemoryCanonical.dropInval {r : CtxRef} : MemoryCanonical (s.dropInval r) := hm.frame.foldl fun _ _ h1 => h1.unpause

theorem MemoryCanonical.abandon {r : CtxRef} {x : Ctx} : MemoryCanonical (s.abandon r x) := by
  unfold State.abandon
  dsimp only
  split
  · exact hm.leaveWaiters
  · exact hm.dropAcc
  · refine MemoryCanonical.foldl ?_ fun _ _ h1 => ?_
    · split
      · exact hm.winRelease
      · exact hm
    · split
      · exact h1
      · exact .ite (.dropAcc (.ite h1.frame.modAcc.writePlace h1.frame.modAcc)) (.ite h1.frame.modAcc.writePlace h1.frame.modAcc)
  · refine MemoryCanonical.foldl ?_ (fun _ _ h1 => h1.dropAcc)
    split
    · exact hm.winRelease
    · exact hm
  · exact hm.frame
  · exact hm.frame
  · exact hm.dropFreeze.dropInval
  · exact hm

theorem MemoryCanonical.freezeWait {r : CtxRef} {x : Ctx} {fs : List Freeze} : MemoryCanonical (s.freezeWait r x fs) := by
  unfold State.freezeWait
  dsimp only
  split
  · refine MemoryCanonical.setCtx ?_
    split
    · exact hm.frame
    · exact hm
  · exact hm.abandon.setCtx

theorem MemoryCanonical.freeze {r : CtxRef} {f : Freeze} : MemoryCanonical (s.freeze r f) := by
  unfold State.freeze
  split
  · exact hm
  · split
    · exact hm
    · exact hm
    · exact hm.setCtx
    · exact hm.freezeWait
    · exact .ite hm.setCtx hm.setCtx

theorem MemoryCanonical.freezeDue {r : CtxRef} : MemoryCanonical (s.freezeDue r) := by
  unfold State.freezeDue
  split
  · exact hm
  · split
    · exact hm
    · split
      · exact .ite hm hm.setCtx
      · exact .ite hm hm.setCtx
      · exact .ite hm hm.setCtx
      · exact hm.setCtx
      · exact hm.setCtx
      · exact hm.freezeWait
      · exact hm

theorem MemoryCanonical.killWait {r : CtxRef} {x : Ctx} : MemoryCanonical (s.killWait r x) := by
  unfold State.killWait
  split
  · exact hm.abandon
  · exact hm.abandon
  · exact hm
  · exact hm.abandon

theorem MemoryCanonical.kill {r : CtxRef} : MemoryCanonical (s.kill r) := by
  unfold State.kill
  dsimp only
  split
  · exact hm
  · exact .ite hm hm.killWait.unreserve.setCtx.active

theorem MemoryCanonical.restart {r : CtxRef} {x : Ctx} : MemoryCanonical (s.restart r x) := hm.unreserve.setCtx.active

theorem MemoryCanonical.sendMarkers {e : ElemRef} {m : Marker} : MemoryCanonical (s.sendMarkers e m) := by
  unfold State.sendMarkers
  split
  · exact hm
  · refine MemoryCanonical.foldl hm fun _ _ h1 => ?_
    split
    · exact h1.push
    · exact h1

theorem MemoryCanonical.elemFreeze {e : ElemRef} {m : Marker} : MemoryCanonical (s.elemFreeze e m) := by
  unfold State.elemFreeze
  dsimp only
  split
  · exact hm
  · exact .ite hm (hm.modElem.foldl fun _ _ h1 => h1.freeze).sendMarkers.active

theorem MemoryCanonical.genCheck {e : ElemRef} : MemoryCanonical (s.genCheck e) := hm.frame

theorem MemoryCanonical.elemCheck {e : ElemRef} : MemoryCanonical (s.elemCheck e) := by
  unfold State.elemCheck
  dsimp only
  split
  · exact hm
  · exact .ite hm (.ite hm.modElem.genCheck hm.modElem.genCheck.sendMarkers)

theorem MemoryCanonical.markPorts {rid : Nat} {m : Marker} : MemoryCanonical (s.markPorts rid m) := hm.foldl fun _ _ h1 => h1.push

theorem MemoryCanonical.startDrain {rid : Nat} {own : Bool} : MemoryCanonical (s.startDrain rid own) := by
  unfold State.startDrain
  dsimp only
  split
  · exact hm
  · exact .ite hm (.ite hm.modRes ((hm.modRes.markPorts.foldl fun _ _ h1 => h1.elemFreeze).foldl fun _ _ h1 => h1.elemCheck))

theorem MemoryCanonical.startCheck {rid : Nat} : MemoryCanonical (s.startCheck rid) :=
  hm.modRes.markPorts.foldl fun _ _ h1 => h1.elemCheck

theorem MemoryCanonical.startStop {rid : Nat} : MemoryCanonical (s.startStop rid) :=
  hm.modRes.markPorts.foldl fun _ _ h1 => h1.elemFreeze

theorem MemoryCanonical.endStop {rid : Nat} : MemoryCanonical (s.endStop rid) := by
  unfold State.endStop
  extract_lets s₁ s₂
  have thawed : ∀ (e : ElemRef) (el : Elem), el.store.wf = true →
      (if e.rid = rid && el.frozen == some Marker.cut then { el with frozen := none } else el).store.wf = true := by
    intro e el hw
    split <;> exact hw
  have h₂ : MemoryCanonical s₂ := (MemoryCanonical.mapElems (s := s₁) hm.modRes thawed).frame
  split
  · exact .ite h₂.startDrain h₂
  · exact h₂

theorem MemoryCanonical.popMarker {c : ChanRef} : MemoryCanonical (s.popMarker c) := hm.modChan

theorem MemoryCanonical.execRoundMarker : CanonicalOut (Machine.execRoundMarker s) := by
  unfold Machine.execRoundMarker
  split
  · split
    · exact .next hm.popMarker.elemFreeze
    · exact .next hm.popMarker.elemFreeze
    · exact .next hm
  · exact .next hm

theorem MemoryCanonical.execRegionStop : CanonicalOut (Machine.execRegionStop s) := by
  unfold Machine.execRegionStop
  split
  · split
    · split
      · exact .ite (.next hm.startStop) (.next hm)
      · exact .next hm
    · exact .next hm
  · exact .next hm

theorem MemoryCanonical.execStopRelease : CanonicalOut (Machine.execStopRelease s) := by
  unfold Machine.execStopRelease
  split
  · split
    · exact .next hm.endStop
    · exact .next hm
  · exact .next hm

/-! The matrix array -/

theorem MemoryCanonical.fireRow {e : ElemRef} {f : RowFire} : MemoryCanonical (s.fireRow e f) := by
  unfold State.fireRow
  dsimp only
  split
  · exact hm
  · exact hm.setBank.modCtx.modTile.active

theorem MemoryCanonical.execMatrixRowFiring : CanonicalOut (Machine.execMatrixRowFiring s) := by
  unfold Machine.execMatrixRowFiring
  dsimp only
  split
  · split
    · exact .next hm
    · split
      · exact .next hm
      · split
        · exact .next (hm.foldl fun _ _ h1 => h1.modCtx)
        · exact .ite (.next (hm.foldl fun _ _ h1 => h1.modCtx).modTile.fireRow) (.next (hm.foldl fun _ _ h1 => h1.modCtx).modTile.fireRow.modCtx)
  · exact .next hm

theorem MemoryCanonical.execBSwap : CanonicalOut (Machine.execBSwap s) := by
  unfold Machine.execBSwap
  dsimp only
  split
  · split
    · exact .next hm
    · split
      · exact .next hm
      · exact .ite (.next hm) (.next hm.setBank.active)
  · exact .next hm

theorem MemoryCanonical.withBank {r : CtxRef} {x : Ctx} {acc : Nat} {f : BankRef → Bank → Option State} (hf : ∀ k b, ∀ u ∈ f k b, MemoryCanonical u) :
    ∀ u ∈ s.withBank r x acc f, MemoryCanonical u := by
  unfold State.withBank
  extract_lets k bind
  split
  · exact forall_mem_some hm.illegal
  · exact forall_mem_ite (forall_mem_some hm.illegal) (hf _ _)

theorem MemoryCanonical.withBankWin {r : CtxRef} {x : Ctx} {acc wb : Nat} {f : BankRef → Bank → WinRef → Window → Option State} (hf : ∀ a b c d, ∀ u ∈ f a b c d, MemoryCanonical u) :
    ∀ u ∈ s.withBankWin r x acc wb f, MemoryCanonical u := by
  unfold State.withBankWin
  refine hm.withBank fun _ _ => ?_
  refine hm.withWin fun _ _ => ?_
  split
  · exact forall_mem_some hm.illegal
  · exact hf _ _ _ _

theorem MemoryCanonical.elements {t : State} {r : CtxRef} {x : Ctx} {wr : WinRef} {w : Window} {o n : Nat} (ht : s.elements r x wr w o n = some (.inl t)) :
    MemoryCanonical t := by
  unfold State.elements at ht
  split at ht
  · nomatch ht
  · split at ht
    · obtain rfl := Sum.inl.inj (Option.some.inj ht)
      exact hm.trap
    · nomatch Option.some.inj ht

theorem MemoryCanonical.tryLoadB {r : CtxRef} {x : Ctx} {o : MBOps} {off n : Nat} {back : List Beat → BBuf} :
    ∀ u ∈ Machine.tryLoadB s r x o off n back, MemoryCanonical u := by
  unfold Machine.tryLoadB
  refine hm.withBankWin fun _ _ _ _ => ?_
  split
  · exact forall_mem_none
  next heq => exact forall_mem_some (hm.elements heq)
  · exact forall_mem_some hm.setBank.finish

theorem MemoryCanonical.tryMbld {o : MBOps} {r : CtxRef} {x : Ctx} : ∀ u ∈ Machine.tryMbld o s r x, MemoryCanonical u := hm.tryLoadB

theorem MemoryCanonical.tryMbldDiag {o : MBOps} {r : CtxRef} {x : Ctx} : ∀ u ∈ Machine.tryMbldDiag o s r x, MemoryCanonical u :=
  hm.tryLoadB

theorem MemoryCanonical.tryMbsp {o : MBOps} {r : CtxRef} {x : Ctx} : ∀ u ∈ Machine.tryMbsp o s r x, MemoryCanonical u := hm.tryLoadB

theorem MemoryCanonical.execMbld {o : MBOps} : CanonicalOut (Machine.execMbld o s) :=
  hm.runWord fun _ _ => .next (hm.orWait hm.tryMbld)

theorem MemoryCanonical.execMbldDiag {o : MBOps} : CanonicalOut (Machine.execMbldDiag o s) :=
  hm.runWord fun _ _ => .next (hm.orWait hm.tryMbldDiag)

theorem MemoryCanonical.execMbsp {o : MBOps} : CanonicalOut (Machine.execMbsp o s) :=
  hm.runWord fun _ _ => .next (hm.orWait hm.tryMbsp)

theorem MemoryCanonical.finishRows {r : CtxRef} {x : Ctx} : MemoryCanonical (s.finishRows r x) := hm.setCtx.active

theorem MemoryCanonical.fireRows {r : CtxRef} {x : Ctx} {f : Firing} : MemoryCanonical (s.fireRows r x f) := hm.modTile.finishRows

theorem MemoryCanonical.scaleCheck {r : CtxRef} {x : Ctx} {y : Option (Fin 32)} : ∀ u ∈ s.scaleCheck r x y, MemoryCanonical u := by
  unfold State.scaleCheck
  dsimp only
  split
  · exact forall_mem_none
  · split
    · exact forall_mem_some hm.illegal
    · split
      · exact forall_mem_some hm.trap
      · split
        · exact forall_mem_some hm.trap
        · exact forall_mem_none

theorem MemoryCanonical.takeScale {r : CtxRef} {x : Ctx} {sch : Option (Fin 32)} {n : Nat} {other : Byte} :
    CanonicalSum (fun u => u.2.1) (s.takeScale r x sch n other) := by
  unfold State.takeScale
  split
  · exact hm
  · split
    next heq1 => exact hm.takeBeats.of_inl heq1
    next heq1 => exact hm.takeBeats.of_inr heq1

theorem MemoryCanonical.execMrow {o : MRowOps} : CanonicalOut (Machine.execMrow o s) := by
  unfold Machine.execMrow
  dsimp only
  refine hm.runWord (fun _ _ => ?_)
  refine .next ?_
  refine hm.getD ?_
  refine hm.withBank (fun _ _ => ?_)
  refine forall_mem_some ?_
  split
  · exact hm.illegal
  · split
    · exact hm.illegal
    · split
      · exact hm.trap
      · split
        next heq1 =>
          exact hm.scaleCheck _ heq1
        · split
          · exact hm.badBeat
          · exact hm.badBeat
          · split
            next heq1 =>
              exact hm.takeBeats.of_inl heq1
            next heq1 =>
              split
              next heq2 =>
                exact (MemoryCanonical.takeScale (hm.takeBeats.of_inr heq1)).of_inl heq2
              next heq2 =>
                exact .fireRows ((MemoryCanonical.takeScale (hm.takeBeats.of_inr heq1)).of_inr heq2)

theorem MemoryCanonical.tryRowW {o : MRowWOps} {sparse : Bool} {r : CtxRef} {x : Ctx} :
    ∀ u ∈ Machine.tryRowW o sparse s r x, MemoryCanonical u := by
  unfold Machine.tryRowW
  refine hm.withBankWin fun _ b _ w => ?_
  extract_lets n e
  refine forall_mem_ite (forall_mem_some hm.illegal) (forall_mem_ite forall_mem_none ?_)
  split
  next heq => exact forall_mem_some (hm.scaleCheck _ heq)
  · split
    next heq => exact forall_mem_some (hm.takeScale.of_inl heq)
    · exact forall_mem_none
    next heq => exact forall_mem_some (hm.elements heq)
    next heq _ => exact forall_mem_some (hm.takeScale.of_inr heq).fireRows

theorem MemoryCanonical.tryMroww {o : MRowWOps} {r : CtxRef} {x : Ctx} : ∀ u ∈ Machine.tryMroww o s r x, MemoryCanonical u :=
  hm.tryRowW

theorem MemoryCanonical.tryMrowwSp {o : MRowWOps} {r : CtxRef} {x : Ctx} : ∀ u ∈ Machine.tryMrowwSp o s r x, MemoryCanonical u :=
  hm.tryRowW

theorem MemoryCanonical.execMroww {o : MRowWOps} : CanonicalOut (Machine.execMroww o s) :=
  hm.runWord fun _ _ => .next (hm.orWait hm.tryMroww)

theorem MemoryCanonical.execMrowwSp {o : MRowWOps} : CanonicalOut (Machine.execMrowwSp o s) :=
  hm.runWord fun _ _ => .next (hm.orWait hm.tryMrowwSp)

theorem MemoryCanonical.execMzero {o : MNOps} : CanonicalOut (Machine.execMzero o s) :=
  hm.runWord fun _ _ => .next (MemoryCanonical.getD (hm.withBank fun _ _ => forall_mem_some hm.setBank.finish) hm)

theorem MemoryCanonical.execMout {o : MOutOps} : CanonicalOut (Machine.execMout o s) :=
  hm.runWord fun _ _ => .next (MemoryCanonical.getD (hm.withBank fun _ _ => forall_mem_some (.ite hm.illegal (.ite hm.trap (.finish (.ctxSends (.ite hm.setBank hm)))))) hm)

theorem MemoryCanonical.tryMscaleWindow {o : MScaleWOps} {r : CtxRef} {x : Ctx} :
    ∀ u ∈ Machine.tryMscaleWindow o s r x, MemoryCanonical u := by
  unfold Machine.tryMscaleWindow
  dsimp only
  refine hm.withBankWin fun _ _ _ _ => ?_
  split
  · exact forall_mem_none
  next heq => exact forall_mem_some (hm.elements heq)
  · exact forall_mem_some hm.setBank.finish

theorem MemoryCanonical.execMscaleWindow {o : MScaleWOps} : CanonicalOut (Machine.execMscaleWindow o s) :=
  hm.runWord fun _ _ => .next (hm.orWait hm.tryMscaleWindow)

theorem MemoryCanonical.execMscaleCode {o : MScaleCOps} : CanonicalOut (Machine.execMscaleCode o s) :=
  hm.runWord fun _ _ => .next (MemoryCanonical.getD (hm.withBank fun _ _ => forall_mem_some hm.setBank.finish) hm)

theorem MemoryCanonical.tryMbias {o : MBiasOps} {r : CtxRef} {x : Ctx} : ∀ u ∈ Machine.tryMbias o s r x, MemoryCanonical u := by
  unfold Machine.tryMbias
  refine hm.withBankWin fun _ _ _ _ => ?_
  split
  · exact forall_mem_none
  next heq => exact forall_mem_some (hm.elements heq)
  · exact forall_mem_some hm.setBank.finish

theorem MemoryCanonical.execMbias {o : MBiasOps} : CanonicalOut (Machine.execMbias o s) :=
  hm.runWord fun _ _ => .next (hm.orWait hm.tryMbias)

theorem MemoryCanonical.tryMrd {o : MRdOps} {r : CtxRef} {x : Ctx} : ∀ u ∈ Machine.tryMrd o s r x, MemoryCanonical u := by
  unfold Machine.tryMrd
  dsimp only
  refine hm.withBankWin fun _ _ _ _ => ?_
  split
  · exact forall_mem_none
  · exact forall_mem_some hm.winFill.finish

theorem MemoryCanonical.execMrd {o : MRdOps} : CanonicalOut (Machine.execMrd o s) :=
  hm.runWord fun _ _ => .next (hm.orWait hm.tryMrd)

theorem MemoryCanonical.tryMwr {o : MWrOps} {r : CtxRef} {x : Ctx} : ∀ u ∈ Machine.tryMwr o s r x, MemoryCanonical u := by
  unfold Machine.tryMwr
  refine hm.withBankWin fun _ _ _ _ => ?_
  split
  · exact forall_mem_none
  next heq => exact forall_mem_some (hm.elements heq)
  · exact forall_mem_some hm.setBank.finish

theorem MemoryCanonical.execMwr {o : MWrOps} : CanonicalOut (Machine.execMwr o s) :=
  hm.runWord fun _ _ => .next (hm.orWait hm.tryMwr)

theorem MemoryCanonical.execMslot {o : MSlotOps} : CanonicalOut (Machine.execMslot o s) :=
  hm.runWord fun _ _ => .next (.ite hm.trap hm.modTile.finish)

/-! Address generators -/

theorem MemoryCanonical.setGen {k : GenRef} {g : Gen} : MemoryCanonical (s.setGen k g) := hm.frame

theorem MemoryCanonical.modGen {k : GenRef} {f : Gen → Gen} : MemoryCanonical (s.modGen k f) := hm.frame

theorem MemoryCanonical.genIssue {k : GenRef} {g : Gen} {off n : Nat} {data : List Byte} :
    MemoryCanonical (s.genIssue k g off n data).2 := by
  unfold State.genIssue
  extract_lets port a id s₁
  split
  · exact hm.issue
  · split
    · have h₁ : MemoryCanonical s₁ := .ite hm.dirty hm
      exact h₁.frame.active
    · split
      · exact hm.frame.enqueueDead.active
      · exact hm.issue

theorem MemoryCanonical.genPieces {k : GenRef} {g : Gen} {l : List (Nat × List Byte)} {wr : Bool} :
    MemoryCanonical (s.genPieces k g l wr).2 := by
  induction l generalizing s with
  | nil => exact hm
  | cons p l ih => exact ih hm.genIssue

theorem MemoryCanonical.genElem {k : GenRef} {g : Gen} {o : ℤ} : ∀ u ∈ s.genElem k g o, MemoryCanonical u.2 := by
  unfold State.genElem
  dsimp only
  split
  · split
    · exact forall_mem_none
    · split
      · exact forall_mem_none
      · split
        · exact forall_mem_none
        · split
          · exact forall_mem_some hm
          · exact forall_mem_some hm
  · split
    · exact forall_mem_some hm
    · exact forall_mem_some hm.genPieces

theorem MemoryCanonical.takeIdx {k : GenRef} {m n : Nat} : MemoryCanonical (s.takeIdx k m n) := by
  induction m generalizing s with
  | zero => exact hm
  | succ m ih =>
    unfold State.takeIdx
    split
    · exact hm
    · split
      · exact hm
      · refine .ite hm ?_
        extract_lets c i
        clear_value i
        split
        · exact hm
        next heq =>
          have h₁ := hm.takeAt _ heq
          exact .ite h₁.sinkItem.modGen (ih h₁.sinkItem.modGen)

theorem MemoryCanonical.gather {k : GenRef} {n : Nat} {g : Gen} {es : List GElem} {last : Bool} :
    ∀ u ∈ s.gather k n g es last, MemoryCanonical u.2.2.2 := by
  induction n generalizing s g es last with
  | zero => exact forall_mem_some hm
  | succ n ih =>
    unfold State.gather
    refine forall_mem_ite (forall_mem_some hm) ?_
    extract_lets ix
    clear_value ix
    refine forall_mem_ite forall_mem_none ?_
    split
    · exact forall_mem_none
    next heq => exact ih (hm.genElem _ heq)

theorem MemoryCanonical.genLetter {k : GenRef} {b : Bad} {off : Nat} : MemoryCanonical (s.genLetter k b off) := by
  unfold State.genLetter
  split
  · exact hm.remoteLetter
  · exact hm.remoteLetter
  · exact hm.remoteLetter

theorem MemoryCanonical.genFetch {k : GenRef} {g : Gen} : MemoryCanonical (s.genFetch k g) := by
  unfold State.genFetch
  dsimp only
  split
  · exact hm
  · split
    · exact hm.setGen
    · split
      · exact hm.takeIdx
      · split
        · exact hm.takeIdx.genLetter
        · split
          · exact hm.takeIdx
          · split
            · exact hm.takeIdx
            next heq1 => exact .ite (hm.takeIdx.gather _ heq1).modGen.genLetter (hm.takeIdx.gather _ heq1).setGen.active

theorem MemoryCanonical.genHist {k : GenRef} {g : Gen} {c : ChanRef} {bs : List Byte} {m : Nat} :
    MemoryCanonical (s.genHist k g c bs m) := by
  unfold State.genHist
  dsimp only
  split
  · split
    · exact hm
    · exact .ite hm (hm.modElem fun _ => Elem.wf_putAt)
  · exact hm

theorem MemoryCanonical.genBeat {g : Gen} {src32 : Bool} {bs : List Byte} : MemoryCanonical (s.genBeat g src32 bs).2 := by
  unfold State.genBeat
  split
  · exact hm.fresh
  · exact hm

theorem MemoryCanonical.genDeliver {k : GenRef} {g : Gen} : MemoryCanonical (s.genDeliver k g) := by
  unfold State.genDeliver
  split
  · exact hm
  next n b bs f _ =>
    extract_lets c room s₁
    refine .ite hm ?_
    have h₁ : MemoryCanonical s₁ := hm.foldl fun _ _ h => h.dropAcc
    have hp : MemoryCanonical (if f.isSome then ((0 : Beat), s₁) else s₁.genBeat g (g.bytes == 4) bs).2 := by
      split
      · exact h₁
      · exact h₁.genBeat
    split
    next heq =>
      replace hp := hp.snd_of_eq heq
      clear_value c
      refine MemoryCanonical.depart (MemoryCanonical.setGen ?_)
      split
      · exact .ite hp (.ite hp.genHist hp.genHist)
      · exact hp

theorem MemoryCanonical.genStores {k : GenRef} {n : Nat} {g : Gen} {bs : List Byte} : MemoryCanonical (s.genStores k n g bs).2.2 := by
  induction n generalizing s g bs with
  | zero => exact hm
  | succ n ih =>
    unfold State.genStores
    split
    · exact hm
    · extract_lets ix o
      split
      · exact hm
      · exact ih hm.genPieces

theorem MemoryCanonical.genFlush {k : GenRef} {g : Gen} : MemoryCanonical (s.genFlush k g) :=
  .ite hm (.ite hm (.ite hm.genBeat.genStores.setGen.active hm.genBeat.genStores.setGen.active.genLetter))

theorem MemoryCanonical.genStore {k : GenRef} {g : Gen} : MemoryCanonical (s.genStore k g) := by
  unfold State.genStore
  dsimp only
  split
  · exact hm.genFlush
  · split
    · exact hm
    · split
      · exact hm
      · split
        · exact hm
        · split
          · exact hm.modGen.genLetter
          · split
            · exact hm.takeIdx
            · split
              · exact hm.takeIdx.genLetter
              · split
                · exact hm.takeIdx
                · split
                  · exact hm.takeIdx
                  next heq1 =>
                    exact .ite (hm.takeIdx.takeAt _ heq1).sinkItem.genHist.setGen.active (.ite (hm.takeIdx.takeAt _ heq1).sinkItem.genHist.genBeat.genStores.setGen.active (hm.takeIdx.takeAt _ heq1).sinkItem.genHist.genBeat.genStores.setGen.active.genLetter)

theorem MemoryCanonical.genEnd {k : GenRef} : MemoryCanonical (s.genEnd k) := by
  unfold State.genEnd
  dsimp only
  split
  · exact hm
  · exact .ite hm (.ite hm (.active (.sendCtl (.modGen (.ite hm.sendCtl hm)))))

theorem MemoryCanonical.execAddressGeneratorBeat : CanonicalOut (Machine.execAddressGeneratorBeat s) := by
  unfold Machine.execAddressGeneratorBeat
  dsimp only
  split
  · split
    · exact .next hm
    · split
      · exact .next (.ite hm.genDeliver (.ite hm.genFlush hm))
      · split
        · exact .next hm.genStore.genEnd
        · refine .next ?_
          refine MemoryCanonical.genEnd ?_
          split
          · exact hm.genFetch.genDeliver
          · exact hm.genFetch
  · exact .next hm

theorem MemoryCanonical.genRewind {k : GenRef} : MemoryCanonical (s.genRewind k) := by
  unfold State.genRewind
  dsimp only
  split
  · exact hm
  · split
    · exact hm
    · exact (hm.foldl fun _ _ h1 => h1.dropAcc).setGen

theorem MemoryCanonical.execCheckpointMarker : CanonicalOut (Machine.execCheckpointMarker s) := by
  have unchecked (rid : Nat) : ∀ (e : ElemRef) (el : Elem), el.store.wf = true →
      (if e.rid = rid then { el with check := false } else el).store.wf = true := by
    intro e el hw
    split <;> exact hw
  unfold Machine.execCheckpointMarker
  split
  · split
    · exact .next hm.popMarker.elemCheck
    · exact .next hm
  · split
    · exact .ite (.next (.sendMarkers (hm.foldl fun _ _ h => h.genRewind))) (.next hm)
    · exact .next hm
  next rid _ =>
    split
    next rs _ =>
      have h₁ : MemoryCanonical (s.modRes rid fun rs => { rs with check := false }) := hm.modRes
      exact .ite (.next (h₁.mapElems (unchecked rid)).frame) (.next hm)
    · exact .next hm
  · exact .next hm

theorem MemoryCanonical.repatch {i : Inval} : MemoryCanonical (s.repatch i) := hm.frame

/-! Fabric operators and controllers -/

theorem MemoryCanonical.takeAll {e : ElemRef} {ts : List (Nat × Nat × Bool)} {l : List Sample} :
    MemoryCanonical (s.takeAll e ts l).2 := by
  induction ts generalizing s l with
  | nil => exact hm
  | cons t ts ih =>
    unfold State.takeAll
    split
    · exact ih hm
    next heq =>
      have h₁ := hm.takeAt _ heq
      split
      · exact ih h₁
      · exact ih h₁.sinkItem

theorem MemoryCanonical.fire {e : ElemRef} {p : Plan} : MemoryCanonical (s.fire e p) :=
  ((hm.takeAll.frame.foldl fun _ _ h1 => h1.depart).foldl fun _ _ h1 => h1.sendCtl).active

theorem MemoryCanonical.opStuck {e : ElemRef} {b : Bad} : MemoryCanonical (s.opStuck e b) := by
  unfold State.opStuck
  dsimp only
  split
  · exact hm.modElem.remoteLetter
  · exact hm.modElem.remoteLetter
  · exact hm.modElem.remoteLetter

theorem MemoryCanonical.opStep {code : Nat} {plan : State → ElemRef → OpSt → Option Plan} :
    CanonicalOut (Machine.opStep code plan s) := by
  unfold Machine.opStep
  split
  · split
    · split
      · exact .next hm
      · split
        · exact .next hm
        · split
          · exact .next hm.opStuck
          · exact .ite (.next hm.fire) (.next hm)
    · exact .next hm
  · exact .next hm

theorem MemoryCanonical.execPass : CanonicalOut (Machine.execPass s) := hm.opStep

theorem MemoryCanonical.execFork : CanonicalOut (Machine.execFork s) := hm.opStep

theorem MemoryCanonical.execSteer : CanonicalOut (Machine.execSteer s) := hm.opStep

theorem MemoryCanonical.execMerge : CanonicalOut (Machine.execMerge s) := hm.opStep

theorem MemoryCanonical.execAmerge : CanonicalOut (Machine.execAmerge s) := hm.opStep

theorem MemoryCanonical.execCarry : CanonicalOut (Machine.execCarry s) := hm.opStep

theorem MemoryCanonical.execJoin : CanonicalOut (Machine.execJoin s) := hm.opStep

theorem MemoryCanonical.execGate : CanonicalOut (Machine.execGate s) := hm.opStep

theorem MemoryCanonical.execConst : CanonicalOut (Machine.execConst s) := hm.opStep

theorem MemoryCanonical.execSink : CanonicalOut (Machine.execSink s) := hm.opStep

theorem MemoryCanonical.execCount : CanonicalOut (Machine.execCount s) := hm.opStep

theorem MemoryCanonical.execSelect : CanonicalOut (Machine.execSelect s) := hm.opStep

theorem MemoryCanonical.takeDones {e : ElemRef} {l : List Nat} : MemoryCanonical (s.takeDones e l).1 := by
  induction l generalizing s with
  | nil => exact hm
  | cons vc l ih =>
    refine ih (hm.foldl fun t _ ht => ?_)
    split
    next heq => exact (ht.takeAt _ heq).sinkItem
    · exact ht

theorem MemoryCanonical.permits {e : ElemRef} {code m : Nat} {o : OpSt} {l : List Nat} {q : OpSt} :
    MemoryCanonical (s.permits e code m o l q).1 := by
  induction l generalizing s q with
  | nil => exact hm
  | cons i l ih =>
    unfold State.permits
    extract_lets oc s₁
    split
    · exact ih hm.sendCtl.active
    · exact ih hm

theorem MemoryCanonical.startRun {e : ElemRef} {o : OpSt} : MemoryCanonical (s.startRun e o).1 := by
  unfold State.startRun
  extract_lets fresh en
  split
  · exact hm
  · split
    · split <;> exact hm
    · split
      next heq => exact (hm.takeAt _ heq).sinkItem
      · exact hm

theorem MemoryCanonical.ctlStep {code : Nat} : CanonicalOut (Machine.ctlStep code s) := by
  unfold Machine.ctlStep
  split
  next e _ =>
    split
    · extract_lets m
      refine .ite (.next hm) ?_
      split
      · exact .next hm.opStuck
      · have h₁ (e : ElemRef) (o : OpSt) : MemoryCanonical (s.startRun e o).1 := hm.startRun
        split
        next s₁ o₁ heq₁ =>
          replace h₁ := (h₁ _ _).fst_of_eq heq₁
          extract_lets fin oc
          have h₂ : MemoryCanonical (if fin then
              if s₁.ctlRoom e oc then
                ((s₁.sendCtl e oc (ctlItem .done (controlBeat .done 0 0 0 0))).active e.rid, { o₁ with running := false })
              else (s₁, o₁)
            else if o₁.running then s₁.permits e code m o₁ (List.range m) o₁ else (s₁, o₁)).1 := by
            split
            · split
              · exact h₁.sendCtl.active
              · exact h₁
            · split
              · exact h₁.permits
              · exact h₁
          split
          next s₂ o₂ heq₂ =>
            replace h₂ := h₂.fst_of_eq heq₂
            split
            next heq₃ => exact .next (h₂.takeDones.fst_of_eq heq₃).frame
    · exact .next hm
  · exact .next hm

theorem MemoryCanonical.execSequentialController : CanonicalOut (Machine.execSequentialController s) := hm.ctlStep

theorem MemoryCanonical.execPipelinedController : CanonicalOut (Machine.execPipelinedController s) := hm.ctlStep

theorem MemoryCanonical.execStreamingController : CanonicalOut (Machine.execStreamingController s) := hm.ctlStep

theorem MemoryCanonical.execTaskInputsEnded : CanonicalOut (Machine.execTaskInputsEnded s) := by
  unfold Machine.execTaskInputsEnded
  dsimp only
  split
  · split
    · exact .next hm
    · exact .ite (.next hm.setCtx.active.sendDone) (.next hm)
  · exact .next hm

end

end Sys2Proof.Safety
end

section
/-! SUPPORT. The canonical form: engine words and the engines behind them. -/

namespace Sys2Proof.Safety

open Sys2Proof.Machine

set_option Elab.async false

section

variable {s : State} (hm : MemoryCanonical s)

include hm

/-! Engine words and copies -/

theorem MemoryCanonical.statusDone {r : CtxRef} {x : Ctx} {d : SReg} {isl : Byte} {st : Word} :
    MemoryCanonical (s.statusDone r x d isl st) := .ite hm.trap hm.finish

theorem MemoryCanonical.modCmd {id : Nat} {f : Cmd → Cmd} : MemoryCanonical (s.modCmd id f) := hm.frame

theorem MemoryCanonical.dropCmd {id : Nat} : MemoryCanonical (s.dropCmd id) := hm.frame

theorem MemoryCanonical.offer {r : CtxRef} {x : Ctx} {i : Instr} {op isl : Byte} {c : Cmd} :
    MemoryCanonical (s.offer r x i op isl c) := by
  unfold State.offer
  dsimp only
  split
  · exact hm.illegal
  · exact hm.frame.setCtx.active

theorem MemoryCanonical.cmdWrite {c : Cmd} {cap : CapV} {off : Nat} {bs : List Byte} {tags : List Bool} :
    MemoryCanonical (s.cmdWrite c cap off bs tags) := hm.issueAll

theorem MemoryCanonical.cmdRead {c : Cmd} {k : Nat} : MemoryCanonical (s.cmdRead c k) := hm.issueAll

theorem MemoryCanonical.unitLetter {c : Cmd} {off : Nat} : MemoryCanonical (s.unitLetter c off) := hm.remoteLetter

theorem MemoryCanonical.unitFail {c : Cmd} {off : Nat} : MemoryCanonical (s.unitFail c off) := hm.modCmd.unitLetter

theorem MemoryCanonical.quantWrite {c : Cmd} {q : QuantCfg} {b : Nat} {bs : List Byte} : MemoryCanonical (s.quantWrite c q b bs) :=
  hm.cmdWrite.cmdWrite.modCmd

theorem MemoryCanonical.quantUnit {c : Cmd} {bs : List Byte} {bad : Bool} : MemoryCanonical (s.quantUnit c bs bad) := by
  unfold State.quantUnit
  dsimp only
  split
  · exact hm
  · exact .ite hm.modCmd (.ite hm.modCmd hm.modCmd.quantWrite)

theorem MemoryCanonical.unitMove {c : Cmd} {k : Nat} {bs : List Byte} {tags : List Bool} :
    ∀ u ∈ s.unitMove c k bs tags, MemoryCanonical u := by
  unfold State.unitMove
  dsimp only
  split
  · exact forall_mem_some hm.quantUnit
  · split
    · split
      · exact forall_mem_none
      next heq1 => exact forall_mem_some (.ite (hm.fillBeat _ heq1).transferEnd (hm.fillBeat _ heq1))
    · exact forall_mem_some hm.cmdWrite

theorem MemoryCanonical.copyWrites {id n : Nat} : MemoryCanonical (s.copyWrites id n) := by
  induction n generalizing s with
  | zero => exact hm
  | succ n ih =>
    unfold State.copyWrites
    split
    · exact hm
    · refine .ite hm ?_
      extract_lets rs next
      have hnext {t : State} (ht : MemoryCanonical t) : MemoryCanonical (next t) := (ht.foldl fun _ _ h => h.dropAcc).modCmd
      split
      · exact hm
      · split
        · refine ih (hnext ?_)
          split
          · exact hm.unitFail.quantUnit
          · exact hm.unitFail
        · split
          next heq => exact ih (hnext (hm.unitMove _ heq)).active
          · split
            · exact hm.joinWaiters
            · exact hm

theorem MemoryCanonical.copyReads {id n : Nat} : MemoryCanonical (s.copyReads id n) := by
  induction n generalizing s with
  | zero => exact hm
  | succ n ih =>
    unfold State.copyReads
    split
    · exact hm
    · exact .ite hm (ih hm.cmdRead.modCmd)

theorem MemoryCanonical.copySeal {id : Nat} : MemoryCanonical (s.copySeal id) := by
  unfold State.copySeal
  split
  · exact hm
  · split
    · split
      · exact hm
      · exact .ite hm.cmdWrite.modCmd hm
    · exact hm

theorem MemoryCanonical.copyGo {id : Nat} : MemoryCanonical (s.copyGo id) := by
  unfold State.copyGo
  dsimp only
  split
  · exact hm
  · exact .ite hm (.copySeal (.copyReads (.ite hm hm.copyWrites)))

theorem MemoryCanonical.copyRetry {c : Cmd} : ∀ u ∈ s.copyRetry c, MemoryCanonical u := by
  unfold State.copyRetry
  dsimp only
  split
  · exact forall_mem_none
  · split
    · exact forall_mem_none
    · exact Option.forall_mem_map.2 fun _ hp1 => ((hm.unitMove _ hp1).foldl fun _ _ h2 => h2.dropAcc).modCmd.leaveWaiters

theorem MemoryCanonical.notices {c : Cmd} : MemoryCanonical (s.notices c) := by
  unfold State.notices
  extract_lets t note tok
  clear_value tok
  refine .ite hm.sendArrival ?_
  split
  · exact hm.toChan
  · exact hm

theorem MemoryCanonical.execCopyCompletion : CanonicalOut (Machine.execCopyCompletion s) := by
  unfold Machine.execCopyCompletion
  dsimp only
  split
  · split
    · exact .next hm
    · exact .ite (.next (.active (.ite hm.dropCmd hm.dropCmd.notices))) (.next hm)
  · exact .next hm

theorem MemoryCanonical.running {c : Cmd} : MemoryCanonical (s.running c) := hm.modCmd

theorem MemoryCanonical.acceptCopy {c : Cmd} : CanonicalVerdict (Machine.acceptCopy s c) := by
  unfold Machine.acceptCopy
  extract_lets sT arrNeeded badWin badArg
  refine .ite (.posted hm) (.ite (.posted hm) ?_)
  split
  · split
    · exact .posted hm.setCtx.modCmd.running
    · exact .posted hm.running
  · exact .posted hm.running

theorem MemoryCanonical.execCpy {o : CpyOps} : CanonicalOut (Machine.execCpy o s) := by
  unfold Machine.execCpy
  refine hm.runWord fun r x => .next ?_
  extract_lets a so d l p
  split
  split
  · exact hm.trap
  · exact hm.offer

theorem MemoryCanonical.execCpyq {o : Cpy3Ops} : CanonicalOut (Machine.execCpyq o s) := by
  unfold Machine.execCpyq
  refine hm.runWord fun r x => .next ?_
  extract_lets a b so d dims cfg
  split
  split
  · exact hm.trap
  · exact hm.offer

theorem MemoryCanonical.tryRows {i : Instr} {o : Cpy3Ops} {gather : Bool} {r : CtxRef} {x : Ctx} :
    ∀ u ∈ Machine.tryRows i o gather s r x, MemoryCanonical u := by
  unfold Machine.tryRows
  dsimp only
  split
  · exact forall_mem_some hm.trap
  · split
    · exact forall_mem_some hm.trap
    · split
      · exact forall_mem_none
      · split
        · exact forall_mem_some hm.trap
        · split
          · exact forall_mem_some hm.trap
          · exact forall_mem_some hm.offer

theorem MemoryCanonical.tryGth {o : Cpy3Ops} {r : CtxRef} {x : Ctx} : ∀ u ∈ Machine.tryGth o s r x, MemoryCanonical u := hm.tryRows

theorem MemoryCanonical.trySct {o : Cpy3Ops} {r : CtxRef} {x : Ctx} : ∀ u ∈ Machine.trySct o s r x, MemoryCanonical u := hm.tryRows

theorem MemoryCanonical.execGth {o : Cpy3Ops} : CanonicalOut (Machine.execGth o s) :=
  hm.runWord fun _ _ => .next (hm.orWait hm.tryGth)

theorem MemoryCanonical.execSct {o : Cpy3Ops} : CanonicalOut (Machine.execSct o s) :=
  hm.runWord fun _ _ => .next (hm.orWait hm.trySct)

theorem MemoryCanonical.atomic {r : CtxRef} {x : Ctx} {i : Instr} {op isl : Byte} {cap : CReg} {off : SReg} {col : Fin 8} {rel : Bool} {n v : Nat} {d : Option SReg} :
    MemoryCanonical (s.atomic r x i op isl cap off col rel n v d) := by
  unfold State.atomic
  dsimp only
  split
  · exact hm.trap
  · exact .ite hm.trap hm.offer

theorem MemoryCanonical.atWord {o : AtOps} {i : Instr} {op : Byte} : CanonicalOut (Machine.atWord o s i op) :=
  hm.runWord fun _ _ => .next hm.atomic

theorem MemoryCanonical.atFWord {o : AtFOps} {i : Instr} {op : Byte} : CanonicalOut (Machine.atFWord o s i op) :=
  hm.runWord fun _ _ => .next hm.atomic

theorem MemoryCanonical.execAadd {o : AtOps} : CanonicalOut (Machine.execAadd o s) := hm.atWord

theorem MemoryCanonical.execAaddF {o : AtFOps} : CanonicalOut (Machine.execAaddF o s) := hm.atFWord

theorem MemoryCanonical.execAmin {o : AtOps} : CanonicalOut (Machine.execAmin o s) := hm.atWord

theorem MemoryCanonical.execAminF {o : AtFOps} : CanonicalOut (Machine.execAminF o s) := hm.atFWord

theorem MemoryCanonical.execAmax {o : AtOps} : CanonicalOut (Machine.execAmax o s) := hm.atWord

theorem MemoryCanonical.execAmaxF {o : AtFOps} : CanonicalOut (Machine.execAmaxF o s) := hm.atFWord

theorem MemoryCanonical.execAand {o : AtOps} : CanonicalOut (Machine.execAand o s) := hm.atWord

theorem MemoryCanonical.execAandF {o : AtFOps} : CanonicalOut (Machine.execAandF o s) := hm.atFWord

theorem MemoryCanonical.execAor {o : AtOps} : CanonicalOut (Machine.execAor o s) := hm.atWord

theorem MemoryCanonical.execAorF {o : AtFOps} : CanonicalOut (Machine.execAorF o s) := hm.atFWord

theorem MemoryCanonical.execAxor {o : AtOps} : CanonicalOut (Machine.execAxor o s) := hm.atWord

theorem MemoryCanonical.execAxorF {o : AtFOps} : CanonicalOut (Machine.execAxorF o s) := hm.atFWord

theorem MemoryCanonical.execAxchg {o : AtOps} : CanonicalOut (Machine.execAxchg o s) := hm.atWord

theorem MemoryCanonical.execAxchgF {o : AtFOps} : CanonicalOut (Machine.execAxchgF o s) := hm.atFWord

theorem MemoryCanonical.execAcas {o : ACasOps} : CanonicalOut (Machine.execAcas o s) := hm.runWord fun _ _ => .next hm.atomic

theorem MemoryCanonical.execAcasQ {o : ACasQOps} : CanonicalOut (Machine.execAcasQ o s) := hm.runWord fun _ _ => .next hm.atomic

theorem MemoryCanonical.acceptAtomic {c : Cmd} {n : Nat} : CanonicalVerdict (Machine.acceptAtomic s c n) :=
  .ite (.hold hm) (.posted hm.issue.running)

theorem MemoryCanonical.execSparseUpdateApply : CanonicalOut (Machine.execSparseUpdateApply s) := by
  unfold Machine.execSparseUpdateApply
  dsimp only
  split
  · split
    · split
      · exact .next hm
      · exact .ite (.next hm) (.ite .fault (.next (.active (.settle (.dropCmd (.ite (.toChan (.ite hm.later.modAcc.unitFail hm.later.modAcc.writePlace)) (.ite hm.later.modAcc.unitFail hm.later.modAcc.writePlace)))))))
    · exact .next hm
  · exact .next hm

/-! The posting-list engine -/

theorem MemoryCanonical.setQuery {q : QueryRef} {x : Query} : MemoryCanonical (s.setQuery q x) := hm.frame

theorem MemoryCanonical.freeQuery {q : QueryRef} : MemoryCanonical (s.freeQuery q) := (hm.foldl fun _ _ h1 => h1.dropAcc).frame

theorem MemoryCanonical.listRead {q : QueryRef} {x : Query} {t : Term} {lane off n : Nat} :
    MemoryCanonical (s.listRead q x t lane off n) := hm.issueAll

theorem MemoryCanonical.termGo {q : QueryRef} {i : Nat} : MemoryCanonical (s.termGo q i) := by
  unfold State.termGo
  dsimp only
  split
  · exact hm
  · split
    · exact .ite hm.setQuery hm.listRead.setQuery
    · split
      · exact hm
      · exact .ite (hm.foldl fun _ _ h1 => h1.dropAcc).setQuery (hm.foldl fun _ _ h1 => h1.dropAcc).listRead.setQuery
    · split
      · exact hm
      · exact (hm.foldl fun _ _ h1 => h1.dropAcc).setQuery
    · exact hm

theorem MemoryCanonical.claimGo {q : QueryRef} {ls : List Nat} {n : Nat} : MemoryCanonical (s.claimGo q ls n) := by
  induction n generalizing s ls with
  | zero => cases ls <;> exact hm
  | succ n ih =>
    cases ls with
    | nil => exact hm
    | cons lane ls =>
      unfold State.claimGo
      extract_lets x head
      split
      · exact hm
      · refine .ite hm ?_
        split
        · exact hm
        · refine .ite (ih hm.setQuery) ?_
          split
          · exact hm
          · exact ih (.ite hm.setQuery.listRead hm.setQuery)

theorem MemoryCanonical.laneGo {q : QueryRef} {lane : Nat} : MemoryCanonical (s.laneGo q lane) := by
  unfold State.laneGo
  dsimp only
  split
  · exact hm
  · split
    · exact hm
    · split
      · exact hm
      · split
        · exact .ite (hm.foldl fun _ _ h1 => h1.dropAcc).setQuery (hm.foldl fun _ _ h1 => h1.dropAcc).setQuery.listRead
        · exact hm

theorem MemoryCanonical.queryGo {q : QueryRef} : MemoryCanonical (s.queryGo q) := by
  unfold State.queryGo
  dsimp only
  split
  · exact hm
  · split
    · split
      · exact hm.termGo
      · exact hm
    · exact .ite (hm.foldl fun _ _ h1 => h1.laneGo) (hm.foldl fun _ _ h1 => h1.laneGo).claimGo

theorem MemoryCanonical.queryBeat {q : QueryRef} {x : Query} {w : Word} : MemoryCanonical (s.queryBeat q x w) :=
  .ite hm.toChan hm.frame

theorem MemoryCanonical.sendHeld {rid : Nat} : MemoryCanonical (s.sendHeld rid) := hm.frame.foldl fun _ _ h1 => h1.toChan

theorem MemoryCanonical.queryFail {q : QueryRef} {term block : Nat} : MemoryCanonical (s.queryFail q term block) :=
  (hm.foldl fun _ _ h1 => h1.dropAcc).dropCmd.setQuery.queryBeat

theorem MemoryCanonical.headFail {q : QueryRef} : MemoryCanonical (s.headFail q) := by
  unfold State.headFail
  dsimp only
  split
  · exact .ite hm.queryFail hm
  · exact hm

theorem MemoryCanonical.execChunkDecode : CanonicalOut (Machine.execChunkDecode s) := by
  unfold Machine.execChunkDecode
  dsimp only
  split
  · split
    · exact .next hm
    · split
      · split
        · exact .next hm
        · split
          · exact .next hm.queryFail
          · exact .next hm.setQuery
      · split
        · exact .next hm
        · split
          · exact .next hm
          · split
            · exact .next hm
            · split
              · exact .next hm
              · exact .next (hm.foldl fun _ _ h1 => h1.dropAcc).setQuery.headFail
  · exact .next hm

theorem MemoryCanonical.execChunkCommit : CanonicalOut (Machine.execChunkCommit s) := by
  unfold Machine.execChunkCommit
  dsimp only
  split
  · split
    · exact .next hm
    · split
      · exact .next hm
      · split
        · exact .next hm.setQuery.headFail
        · exact .next hm
  · exact .next hm

theorem MemoryCanonical.pairsGo {q : QueryRef} {n : Nat} : MemoryCanonical (s.pairsGo q n) := by
  induction n generalizing s with
  | zero => exact hm
  | succ n ih =>
    unfold State.pairsGo
    extract_lets x wr
    split
    · exact hm
    · split
      · exact hm.joinWaiters
      next heq => exact ih (hm.fillBeat _ heq).setQuery

theorem MemoryCanonical.queryEndGo {q : QueryRef} : MemoryCanonical (s.queryEndGo q) :=
  .ite hm (.ite (.freeQuery (.dropCmd (.queryBeat (.ite (.setQuery (.transferEnd (.ite hm.pairsGo hm))) (.ite hm.pairsGo hm))))) (.ite (.setQuery (.transferEnd (.ite hm.pairsGo hm))) (.ite hm.pairsGo hm)))

theorem MemoryCanonical.execQueryRunEnd : CanonicalOut (Machine.execQueryRunEnd s) := by
  unfold Machine.execQueryRunEnd
  dsimp only
  split
  · exact .ite (.next hm) (.ite (.next hm.setQuery.queryEndGo) (.ite (.next hm.queryEndGo) (.next hm)))
  · exact .next hm

theorem MemoryCanonical.adoptQueries {tag block rid : Nat} : MemoryCanonical (s.adoptQueries tag block rid) := by
  unfold State.adoptQueries
  extract_lets gone mine beat ids move s₀ s₁
  have h₁ : MemoryCanonical s₁ := MemoryCanonical.frame (s := s₀) hm.modRes
  exact h₁.sendHeld.foldl fun _ _ h => h.setQuery.queryEndGo

theorem MemoryCanonical.acceptPlq {c : Cmd} : CanonicalVerdict (Machine.acceptPlq s c) := by
  unfold Machine.acceptPlq
  dsimp only
  split
  · exact .pend hm.modCmd
  · exact .ite (.pend hm.modCmd) (.pend hm.setQuery.modCmd)

theorem MemoryCanonical.acceptPlterm {c : Cmd} : CanonicalVerdict (Machine.acceptPlterm s c) := by
  unfold Machine.acceptPlterm
  dsimp only
  split
  · exact .posted hm
  · exact .ite (.posted hm) (.ite (.posted hm) (.posted hm.setQuery.dropCmd))

theorem MemoryCanonical.acceptPlvec {c : Cmd} : CanonicalVerdict (Machine.acceptPlvec s c) := by
  unfold Machine.acceptPlvec
  dsimp only
  split
  · exact .pend hm.modCmd
  · exact .pend (.ite hm.modCmd hm.modCmd.joinWaiters)

theorem MemoryCanonical.servePlvec {c : Cmd} : ∀ u ∈ s.servePlvec c, MemoryCanonical u := by
  unfold State.servePlvec
  dsimp only
  split
  · exact forall_mem_none
  · split
    · exact forall_mem_none
    · split
      · split
        · exact forall_mem_some (.ite hm.dropCmd.trap hm.dropCmd)
        · exact forall_mem_some hm.dropCmd
      · split
        · exact forall_mem_some hm.modCmd
        · exact forall_mem_some hm.setQuery.modCmd

theorem MemoryCanonical.acceptPlfuseLin {c : Cmd} : CanonicalVerdict (Machine.acceptPlfuseLin s c) := by
  unfold Machine.acceptPlfuseLin
  split
  · exact .posted hm
  · exact .posted hm.setQuery.dropCmd

theorem MemoryCanonical.acceptPlfuseRrf {c : Cmd} : CanonicalVerdict (Machine.acceptPlfuseRrf s c) := by
  unfold Machine.acceptPlfuseRrf
  dsimp only
  split
  · exact .posted hm
  · exact .ite (.posted hm) (.posted hm.setQuery.dropCmd)

theorem MemoryCanonical.acceptPlrun {op : Nat} {c : Cmd} : CanonicalVerdict (Machine.acceptPlrun op s c) := by
  unfold Machine.acceptPlrun
  dsimp only
  split
  · exact .posted hm
  · exact .ite (.posted hm) (.posted hm.setQuery.running)

theorem MemoryCanonical.acceptPlabort {c : Cmd} : CanonicalVerdict (Machine.acceptPlabort s c) := by
  unfold Machine.acceptPlabort
  dsimp only
  split
  · exact .posted hm
  · exact .ite (.posted hm.freeQuery.dropCmd) (.posted hm.dropCmd.leaveWaiters.modWin.freeQuery.queryBeat.dropCmd)

theorem MemoryCanonical.acceptPlresume {c : Cmd} : CanonicalVerdict (Machine.acceptPlresume s c) := by
  unfold Machine.acceptPlresume
  dsimp only
  split
  · exact .posted hm
  · exact .posted hm.setQuery.running

theorem MemoryCanonical.execPlq {o : PSSOps} : CanonicalOut (Machine.execPlq o s) := hm.runWord fun _ _ => .next hm.offer

theorem MemoryCanonical.execPlterm {o : PSCOps} : CanonicalOut (Machine.execPlterm o s) := by
  unfold Machine.execPlterm
  dsimp only
  refine hm.runWord fun _ _ => ?_
  refine .next ?_
  split
  · exact hm.trap
  · exact .ite hm.trap (.ite hm.trap hm.offer)

theorem MemoryCanonical.execPlvec {o : PSSOps} : CanonicalOut (Machine.execPlvec o s) := hm.runWord fun _ _ => .next hm.offer

theorem MemoryCanonical.execPlfuseLin {o : PSSOps} : CanonicalOut (Machine.execPlfuseLin o s) :=
  hm.runWord fun _ _ => .next hm.offer

theorem MemoryCanonical.execPlfuseRrf {o : PSSOps} : CanonicalOut (Machine.execPlfuseRrf o s) :=
  hm.runWord fun _ _ => .next hm.offer

theorem MemoryCanonical.execPlrunOr {o : PRunOps} : CanonicalOut (Machine.execPlrunOr o s) := hm.runWord fun _ _ => .next hm.offer

theorem MemoryCanonical.execPlrunAnd {o : PRunOps} : CanonicalOut (Machine.execPlrunAnd o s) := hm.runWord fun _ _ => .next hm.offer

theorem MemoryCanonical.execPlrunWand {o : PRunOps} : CanonicalOut (Machine.execPlrunWand o s) :=
  hm.runWord fun _ _ => .next hm.offer

theorem MemoryCanonical.execPlabort {o : PSOps} : CanonicalOut (Machine.execPlabort o s) := hm.runWord fun _ _ => .next hm.offer

theorem MemoryCanonical.execPlresume {o : PResumeOps} : CanonicalOut (Machine.execPlresume o s) :=
  hm.runWord fun _ _ => .next hm.offer

/-! The priority pool -/

theorem MemoryCanonical.answer {c : Cmd} {v : Verdict} (hv : CanonicalVerdict v) : MemoryCanonical (s.answer c v) := by
  cases v with
  | hold t => exact hv
  | posted st t =>
    have h₁ {b : Prop} [Decidable b] : MemoryCanonical (if b then t.dropCmd c.id else t) := .ite (MemoryCanonical.dropCmd hv) hv
    unfold State.answer
    dsimp only
    split
    · exact h₁.statusDone
    · exact h₁
  | pend t => exact (MemoryCanonical.modCmd hv).modCtx
  | trap code info =>
    unfold State.answer
    dsimp only
    split
    · exact hm.dropCmd.trap
    · exact hm.dropCmd

theorem MemoryCanonical.reply {id : Nat} {st : Word} {bs : List Byte} : MemoryCanonical (s.reply id st bs) := hm.modCmd

theorem MemoryCanonical.setPool {slot : Nat} {x : Pool} : MemoryCanonical (s.setPool slot x) := hm.frame

theorem MemoryCanonical.setShard {p : ShardRef} {x : Shard} : MemoryCanonical (s.setShard p x) := hm.frame

theorem MemoryCanonical.modShard {p : ShardRef} {f : Shard → Shard} : MemoryCanonical (s.modShard p f) := hm.setShard

theorem MemoryCanonical.poolFor {c : Cmd} : ∀ u ∈ s.poolFor c, MemoryCanonical u.2 := by
  unfold State.poolFor
  dsimp only
  split
  · exact forall_mem_none
  · split
    · exact forall_mem_none
    · split
      · exact forall_mem_some hm
      · split
        · exact forall_mem_none
        · exact forall_mem_some (hm.setPool.foldl fun _ _ h1 => h1.setShard)

theorem MemoryCanonical.unhand {r : CtxRef} {slot : Nat} : MemoryCanonical (s.unhand r slot) := hm.modCtx

theorem MemoryCanonical.giveElem {slot : Nat} {c : Cmd} {e : PElem} : MemoryCanonical (s.giveElem slot c e) := hm.reply.modCtx

theorem MemoryCanonical.poolSend {p : ShardRef} {dest : Nat} {m : PMsg} : MemoryCanonical (s.poolSend p dest m) := hm.frame.modShard

theorem MemoryCanonical.noteSend {p : ShardRef} {dest : Nat} {m : Mirror} : MemoryCanonical (s.noteSend p dest m) :=
  hm.frame.modShard

theorem MemoryCanonical.acceptPins {c : Cmd} : CanonicalVerdict (Machine.acceptPins s c) := by
  unfold Machine.acceptPins
  dsimp only
  split
  · exact .hold hm
  · split
    · exact .trap
    next heq1 =>
      split
      · exact .hold hm
      · split
        · exact .hold (hm.poolFor _ heq1).later.setPool
        · exact .hold hm
        · exact .ite (.hold hm) (.ite .trap (.posted (hm.poolFor _ heq1).setShard.dropCmd))

theorem MemoryCanonical.acceptPtake {c : Cmd} : CanonicalVerdict (Machine.acceptPtake s c) := by
  unfold Machine.acceptPtake
  dsimp only
  split
  · exact .trap
  next heq1 => exact .ite (.pend (hm.poolFor _ heq1).unhand.reply) (.pend (hm.poolFor _ heq1).unhand.setShard.modCmd)

theorem MemoryCanonical.dropBad {p : ShardRef} {c : Option Cmd} : MemoryCanonical (s.dropBad p c) := by
  unfold State.dropBad
  dsimp only
  split
  · exact hm.setShard.foldl fun _ _ h1 => h1.remoteLetter
  · exact hm.setShard

theorem MemoryCanonical.acceptPtry {c : Cmd} : CanonicalVerdict (Machine.acceptPtry s c) := by
  unfold Machine.acceptPtry
  dsimp only
  split
  · exact .trap
  next heq1 =>
    split
    · exact .hold hm
    · split
      · exact .pend (hm.poolFor _ heq1).unhand.reply
      · split
        · exact .pend (hm.poolFor _ heq1).unhand.dropBad.reply
        · exact .pend (hm.poolFor _ heq1).unhand.dropBad.setShard.giveElem

theorem MemoryCanonical.acceptPstat {c : Cmd} : CanonicalVerdict (Machine.acceptPstat s c) := by
  unfold Machine.acceptPstat
  dsimp only
  split
  · exact .trap
  next heq1 => exact .pend (hm.poolFor _ heq1).reply

theorem MemoryCanonical.acceptPcfg {c : Cmd} : CanonicalVerdict (Machine.acceptPcfg s c) := by
  unfold Machine.acceptPcfg
  split
  · exact .trap
  next heq1 =>
    split
    · exact .pend (hm.poolFor _ heq1).reply
    · split
      · exact .hold (hm.poolFor _ heq1)
      · exact .pend ((hm.poolFor _ heq1).setPool.foldl fun _ _ h2 => h2.poolSend)

theorem MemoryCanonical.execPins {o : PinsOps} : CanonicalOut (Machine.execPins o s) := hm.runWord fun _ _ => .next hm.offer

theorem MemoryCanonical.execPtake {o : PTakeOps} : CanonicalOut (Machine.execPtake o s) := hm.runWord fun _ _ => .next hm.offer

theorem MemoryCanonical.execPtry {o : PTakeOps} : CanonicalOut (Machine.execPtry o s) := hm.runWord fun _ _ => .next hm.offer

theorem MemoryCanonical.execPstat {o : PSSOps} : CanonicalOut (Machine.execPstat o s) := hm.runWord fun _ _ => .next hm.offer

theorem MemoryCanonical.execPcfg {o : PSSOps} : CanonicalOut (Machine.execPcfg o s) :=
  hm.runWord fun _ _ => .next (.ite hm.trap hm.offer)

theorem MemoryCanonical.execPcfgApply : CanonicalOut (Machine.execPcfgApply s) := by
  unfold Machine.execPcfgApply
  split
  · split
    refine .next (hm.setShard.foldl fun t m ht => ?_)
    split
    · split
      · exact ht
      · split
        extract_lets t₁ left
        exact .ite ht.modShard.setPool.reply ht.modShard.setPool
    · exact ht
  · exact .next hm

theorem MemoryCanonical.withdraw {p : ShardRef} {c : Cmd} : MemoryCanonical (s.withdraw p c) := by
  unfold State.withdraw
  dsimp only
  split
  · exact hm.modShard.dropCmd
  · exact hm.modShard.dropCmd.setCtx

theorem MemoryCanonical.queueRun {p : ShardRef} : MemoryCanonical (s.queueRun p) := by
  unfold State.queueRun
  dsimp only
  split
  · refine MemoryCanonical.foldl hm.setShard fun _ _ h1 => ?_
    split
    · exact .ite h1.withdraw h1
    · exact h1
  · refine MemoryCanonical.setShard ?_
    refine MemoryCanonical.foldl hm.setShard fun _ _ h1 => ?_
    split
    · exact .ite h1.withdraw h1
    · exact h1

theorem MemoryCanonical.execPoolInsertAccept : CanonicalOut (Machine.execPoolInsertAccept s) := by
  unfold Machine.execPoolInsertAccept
  dsimp only
  split
  · split
    · exact .next hm.queueRun
    · split
      · exact .ite (.next hm.queueRun) (.next hm.queueRun.setShard)
      · exact .ite (.next hm.queueRun) (.next (.ite hm.queueRun.setShard.poolSend hm.queueRun.setShard))
      · split
        · exact .next hm.queueRun
        · exact .next (hm.queueRun.answer hm.queueRun.acceptPins)
  · exact .next hm

theorem MemoryCanonical.takeFails {p : ShardRef} : MemoryCanonical (s.takeFails p) := by
  unfold State.takeFails
  extract_lets x idle late s₁
  have h₁ : MemoryCanonical s₁ := by
    unfold s₁
    split
    next d _ =>
      extract_lets s₂
      have h₂ : MemoryCanonical s₂ := .ite hm.setShard.poolSend hm
      exact .ite h₂.modShard.poolSend h₂
    · exact hm
  exact .ite h₁.modShard h₁

theorem MemoryCanonical.execPoolTakeTest : CanonicalOut (Machine.execPoolTakeTest s) := by
  unfold Machine.execPoolTakeTest
  dsimp only
  split
  · split
    · exact .next hm.queueRun
    · split
      · exact .next hm.queueRun
      · split
        · exact .next hm.queueRun.setShard.reply
        · split
          · exact .next hm.queueRun.dropBad.setShard.giveElem
          · exact .next hm.queueRun.dropBad.takeFails
  · exact .next hm

theorem MemoryCanonical.execMigrationAnswer : CanonicalOut (Machine.execMigrationAnswer s) := by
  unfold Machine.execMigrationAnswer
  dsimp only
  split
  · exact .next (hm.setShard.foldl fun _ _ h1 => .ite h1.poolSend h1.dropBad.setShard.poolSend)
  · exact .next hm

theorem MemoryCanonical.execMigrationArrival : CanonicalOut (Machine.execMigrationArrival s) := by
  unfold Machine.execMigrationArrival
  split
  · exact .next (hm.setShard.foldl fun _ _ h1 => h1.modShard)
  · exact .next hm

theorem MemoryCanonical.execRemoteTake : CanonicalOut (Machine.execRemoteTake s) := by
  unfold Machine.execRemoteTake
  split
  next p _ =>
    extract_lets s₁ x₁ answer s₂ x₂
    have h₁ : MemoryCanonical s₁ := hm.queueRun
    have h₂ : MemoryCanonical s₂ := by
      unfold s₂
      split
      · exact h₁
      · extract_lets x
        split
        · exact h₁.setShard.giveElem
        · exact h₁.setShard
    split
    · exact .next h₂
    · extract_lets s₃ x₃ e
      have h₃ : MemoryCanonical s₃ := h₂.setShard.dropBad
      clear_value e
      refine .ite (.next h₂) ?_
      split
      · exact .next h₃.setShard.poolSend
      · exact .next h₃.setShard.poolSend
  · exact .next hm

theorem MemoryCanonical.execTopNotesSend : CanonicalOut (Machine.execTopNotesSend s) := by
  unfold Machine.execTopNotesSend
  dsimp only
  split
  · split
    · exact .next hm
    · exact .ite (.next hm) (.ite (.next ((hm.foldl fun _ _ h1 => h1.queueRun).foldl fun _ _ h1 => h1.setShard.foldl fun _ _ h2 => h2.noteSend).later.setPool) (.next ((hm.foldl fun _ _ h1 => h1.queueRun).foldl fun _ _ h1 => h1.setShard.foldl fun _ _ h2 => h2.noteSend)))
  · exact .next hm

theorem MemoryCanonical.execTopNotesArrival : CanonicalOut (Machine.execTopNotesArrival s) := by
  unfold Machine.execTopNotesArrival
  dsimp only
  split
  · exact .next hm.setShard
  · exact .next hm

theorem MemoryCanonical.emptyNotice {slot : Nat} : MemoryCanonical (s.emptyNotice slot) :=
  hm.foldl fun _ _ h1 => h1.queueRun.setShard.foldl fun _ _ h2 => h2.reply

theorem MemoryCanonical.execAgreementWave : CanonicalOut (Machine.execAgreementWave s) := by
  unfold Machine.execAgreementWave
  dsimp only
  split
  · split
    · exact .next hm
    · split
      · exact .ite (.next hm.later.setPool) (.next hm)
      · exact .ite (.next hm) (.ite (.next hm.setPool.emptyNotice) (.next hm.setPool))
      · exact .next hm
  · exact .next hm

theorem MemoryCanonical.execEmptyClearing : CanonicalOut (Machine.execEmptyClearing s) := by
  unfold Machine.execEmptyClearing
  split
  · split
    · exact .next hm
    · split
      · exact .ite (.next (hm.setPool.foldl fun _ _ h1 => h1.modShard)) (.next hm)
      · exact .next hm
  · exact .next hm

/-! The network engine -/

theorem MemoryCanonical.sendBeat {r : CtxRef} {peer tag elem win cmd : Nat} {b : PeerBody} :
    MemoryCanonical (s.sendBeat r peer tag elem win cmd b) := by
  unfold State.sendBeat
  dsimp only
  split
  · exact hm.active.frame
  · exact hm.active.frame

theorem MemoryCanonical.fillSends {id n : Nat} : MemoryCanonical (s.fillSends id n) := by
  induction n generalizing s with
  | zero => exact hm
  | succ n ih =>
    unfold State.fillSends
    split
    · exact hm
    · refine .ite hm ?_
      extract_lets rs s₁ tag
      split
      · exact hm
      · have h₁ : MemoryCanonical s₁ := (hm.foldl fun _ _ h => h.dropAcc).modCmd
        exact .ite (ih h₁.unitFail) (ih h₁.sendBeat)

theorem MemoryCanonical.segReads {c : Cmd} {seg k : Nat} : MemoryCanonical (s.segReads c seg k) :=
  hm.foldl fun _ _ h1 => h1.issueAll

theorem MemoryCanonical.segDrop {c : Cmd} {k : Nat} : MemoryCanonical (s.segDrop c k) :=
  hm.foldl fun _ _ h1 => h1.foldl fun _ _ h2 => h2.dropAcc

theorem MemoryCanonical.redWrite {c : Cmd} {rseg : Nat} {reduce : Bool} {ty : Nat} {loc : List (List Byte × Bool)} :
    MemoryCanonical (s.redWrite c rseg reduce ty loc) := hm.foldl fun _ _ h1 => .ite h1.unitLetter (.ite h1 h1.cmdWrite)

theorem MemoryCanonical.redGo {id : Nat} : MemoryCanonical (s.redGo id) := by
  unfold State.redGo
  dsimp only
  split
  · exact hm
  · split
    · exact hm
    · split
      · exact .ite hm.segReads.modCmd hm
      · split
        · exact hm
        · exact (hm.segDrop.foldl fun _ _ h1 => .sendBeat (.ite h1.unitLetter h1)).modCmd
      · split
        · exact hm
        · exact hm.segDrop.modCmd.redWrite
      · exact hm
      · exact .ite hm.dropCmd hm

theorem MemoryCanonical.takeSegment {coll st : Nat} {bs : List Byte} {last : Bool} :
    ∀ u ∈ s.takeSegment coll st bs last, MemoryCanonical u := by
  unfold State.takeSegment
  dsimp only
  split
  · exact forall_mem_none
  · split
    · exact forall_mem_none
    · exact forall_mem_some (.ite hm.modCmd (.ite hm.modCmd.segReads.modCmd hm.modCmd.modCmd.redWrite))

theorem MemoryCanonical.barGo {id : Nat} : MemoryCanonical (s.barGo id) := by
  unfold State.barGo
  dsimp only
  split
  · exact hm
  · split
    · exact hm
    · split
      · exact .ite (hm.foldl fun _ _ h1 => h1.sendBeat).frame.modCtx.modCmd hm
      · split
        · exact hm
        · exact hm.frame.modCtx.reply

theorem MemoryCanonical.netGo {id : Nat} : MemoryCanonical (s.netGo id) := by
  unfold State.netGo
  dsimp only
  split
  · exact hm
  · split
    · exact hm
    · split
      · split
        · exact .ite hm.fillSends.copyReads.dropCmd hm.fillSends.copyReads
        · exact hm.fillSends.copyReads
      · exact hm.redGo
      · exact hm.barGo
      · exact hm

theorem MemoryCanonical.acceptXfill {c : Cmd} : CanonicalVerdict (Machine.acceptXfill s c) :=
  .ite (.posted hm) (.ite (.posted hm) (.ite (.hold hm) (.ite (.posted hm) (.posted hm.running))))

theorem MemoryCanonical.acceptXred {c : Cmd} : CanonicalVerdict (Machine.acceptXred s c) := by
  unfold Machine.acceptXred
  dsimp only
  split
  · exact .posted hm
  · exact .ite (.posted hm) (.ite (.hold hm) (.ite (.posted hm) (.posted hm.running)))

theorem MemoryCanonical.acceptXbar {c : Cmd} : CanonicalVerdict (Machine.acceptXbar s c) :=
  .ite (.pend hm.reply) (.ite (.hold hm) (.ite (.pend hm.reply) (.pend hm.modCmd)))

theorem MemoryCanonical.execXfill {o : XFillROps} : CanonicalOut (Machine.execXfill o s) := by
  unfold Machine.execXfill
  dsimp only
  refine hm.runWord fun _ _ => ?_
  refine .next ?_
  split
  · exact hm.trap
  · exact hm.offer

theorem MemoryCanonical.execXred {o : XFillROps} : CanonicalOut (Machine.execXred o s) := by
  unfold Machine.execXred
  dsimp only
  refine hm.runWord fun _ _ => ?_
  refine .next ?_
  split
  · exact hm.trap
  · exact hm.offer

theorem MemoryCanonical.execXbar {o : XBarOps} : CanonicalOut (Machine.execXbar o s) := hm.runWord fun _ _ => .next hm.offer

theorem MemoryCanonical.peerAccess {offset : Nat} {store : Option (List Byte)} :
    ∀ u ∈ s.peerAccess offset store, MemoryCanonical u := by
  unfold State.peerAccess
  dsimp only
  split
  · split
    · exact forall_mem_none
    · split
      · exact forall_mem_some hm.dirty.writePlace
      · exact forall_mem_some hm
  · exact forall_mem_none

theorem MemoryCanonical.peerApply {flow : Nat} {x : PeerBody} : ∀ u ∈ s.peerApply flow x, MemoryCanonical u := by
  unfold State.peerApply
  split
  · split
    · exact forall_mem_none
    · exact Option.forall_mem_map.2 fun _ hp1 => .ite (hm.fillBeat _ hp1).transferEnd (hm.fillBeat _ hp1)
  · exact hm.takeSegment
  · exact forall_mem_some hm.frame
  · exact hm.peerAccess

theorem MemoryCanonical.peerDone {m : PeerBeat} : MemoryCanonical (s.peerDone m) := hm.frame

theorem MemoryCanonical.peerBeat {m : PeerBeat} : MemoryCanonical (s.peerBeat m) := by
  unfold State.peerBeat
  extract_lets wr waits
  clear_value wr
  refine .ite hm ?_
  split
  next heq => exact (hm.peerApply _ heq).peerDone
  · split
    · exact hm.joinWaiters
    · exact hm

theorem MemoryCanonical.peerRetry {flow : Nat} : ∀ u ∈ s.peerRetry flow, MemoryCanonical u := by
  unfold State.peerRetry
  split
  · exact forall_mem_some hm
  · exact Option.forall_mem_map.2 fun _ hp1 => (hm.peerApply _ hp1).peerDone

theorem MemoryCanonical.peerRun {fills : Bool} : MemoryCanonical (s.peerRun fills) := hm.foldl fun _ _ h1 => h1.peerBeat

theorem MemoryCanonical.execPeerBeatArrival : CanonicalOut (Machine.execPeerBeatArrival s) := by
  unfold Machine.execPeerBeatArrival
  dsimp only
  split
  · exact .next (.ite hm hm.frame.peerRun)
  · exact .next hm

theorem MemoryCanonical.execPeerRetransmit : CanonicalOut (Machine.execPeerRetransmit s) := by
  unfold Machine.execPeerRetransmit
  dsimp only
  split
  · split
    · exact .next hm
    · split
      · exact .next hm
      · split
        · exact .next hm.frame
        · exact .next hm.frame.frame
  · exact .next hm

theorem MemoryCanonical.execCumulativeAcknowledgement : CanonicalOut (Machine.execCumulativeAcknowledgement s) := by
  unfold Machine.execCumulativeAcknowledgement
  split
  · exact .next hm.frame
  · exact .next hm

theorem MemoryCanonical.execEthernetLinkChange : CanonicalOut (Machine.execEthernetLinkChange s) := by
  unfold Machine.execEthernetLinkChange
  dsimp only
  split
  · split
    · exact .next hm.frame
    · exact .next hm
  · exact .next hm

/-! Acceptance, replies and waiters -/

theorem MemoryCanonical.acceptCmd {c : Cmd} : CanonicalVerdict (Machine.acceptCmd s c) := by
  unfold Machine.acceptCmd
  split
  · exact hm.acceptCopy
  · exact hm.acceptCopy
  · exact hm.acceptCopy
  · exact hm.acceptCopy
  · exact hm.acceptPlq
  · exact hm.acceptPlterm
  · exact hm.acceptPlvec
  · exact hm.acceptPlfuseLin
  · exact hm.acceptPlfuseRrf
  · exact hm.acceptPlrun
  · exact hm.acceptPlrun
  · exact hm.acceptPlrun
  · exact hm.acceptPlabort
  · exact hm.acceptPlresume
  · exact hm.acceptPins
  · exact hm.acceptPtake
  · exact hm.acceptPtry
  · exact hm.acceptPstat
  · exact hm.acceptPcfg
  · exact hm.acceptXfill
  · exact hm.acceptXred
  · exact hm.acceptXbar
  · split
    · exact hm.acceptAtomic
    · exact .hold hm

theorem MemoryCanonical.execEngineAccept : CanonicalOut (Machine.execEngineAccept s) := by
  unfold Machine.execEngineAccept
  dsimp only
  split
  · split
    · exact .next hm
    · exact .ite (.next (hm.modCmd.answer hm.modCmd.acceptCmd)) (.next hm)
  · exact .next hm

theorem MemoryCanonical.execEngineReply : CanonicalOut (Machine.execEngineReply s) := by
  unfold Machine.execEngineReply
  split
  · split
    · exact .next hm
    · split
      · exact .ite (.next hm.dropCmd.statusDone) (.next hm.dropCmd)
      · exact .next hm.dropCmd
      · exact .next hm
  · exact .next hm

theorem MemoryCanonical.retryWord {i : Instr} {r : CtxRef} {x : Ctx} : ∀ u ∈ Machine.retryWord i s r x, MemoryCanonical u := by
  unfold Machine.retryWord
  split
  · exact hm.tryWfill
  · exact hm.tryWread
  · exact hm.tryWupd
  · exact hm.tryWshrink
  · exact hm.tryVhist
  · exact hm.tryWsave
  · exact hm.tryWrest
  · exact hm.tryMbld
  · exact hm.tryMbldDiag
  · exact hm.tryMbsp
  · exact hm.tryMroww
  · exact hm.tryMrowwSp
  · exact hm.tryMscaleWindow
  · exact hm.tryMbias
  · exact hm.tryMrd
  · exact hm.tryMwr
  · exact hm.tryGth
  · exact hm.trySct
  · exact forall_mem_none

theorem MemoryCanonical.retryCmd {c : Cmd} : ∀ u ∈ Machine.retryCmd c s, MemoryCanonical u := by
  unfold Machine.retryCmd
  dsimp only
  split
  · exact hm.serveWreq
  · exact hm.servePlvec
  · exact hm.copyRetry
  · split
    · exact forall_mem_none
    · split
      · exact forall_mem_none
      · exact Option.forall_mem_map.2 fun _ hp1 => (hm.fillBeat _ hp1).setQuery

theorem MemoryCanonical.letterFill {wr : WinRef} : ∀ u ∈ s.letterFill wr, MemoryCanonical u := by
  unfold State.letterFill
  split
  · exact forall_mem_none
  · split
    · exact forall_mem_none
    · split
      · refine Option.forall_mem_map.2 fun t ht => ?_
        have h₁ := hm.fillPlain t ht
        exact h₁.frame
      · split
        · refine Option.forall_mem_map.2 fun t ht => ?_
          have h₁ := hm.fillPlain t ht
          exact h₁.frame
        · exact forall_mem_none

theorem MemoryCanonical.tryWaiter {wr : WinRef} {k : Waiter} : MemoryCanonical (s.tryWaiter wr k) := by
  unfold State.tryWaiter
  extract_lets done
  have hdone : ∀ t ∈ done, MemoryCanonical t := by
    unfold done
    split
    · extract_lets r
      split
      · split
        · exact hm.retryWord
        · exact forall_mem_some hm
      · exact forall_mem_some hm
    · exact forall_mem_ite forall_mem_none hm.portFill
    · split
      · exact forall_mem_ite hm.retryCmd forall_mem_none
      · exact forall_mem_some hm
    · exact hm.peerRetry
    · exact hm.letterFill
  clear_value done
  split
  · exact (hdone _ rfl).leaveWaiters
  · exact hm

theorem MemoryCanonical.execWindowWaiterRelease : CanonicalOut (Machine.execWindowWaiterRelease s) := by
  unfold Machine.execWindowWaiterRelease
  split
  · split
    · exact .next hm
    · exact .next (hm.foldl fun _ _ h1 => h1.tryWaiter)
  · exact .next hm

theorem MemoryCanonical.fillHead {c : ChanRef} : MemoryCanonical (s.fillHead c) := by
  unfold State.fillHead
  split
  · exact hm
  · split
    · extract_lets wr waits
      refine .ite hm ?_
      split
      · refine .ite hm ?_
        split
        exact hm.setChan.remoteLetter
      · split
        next heq => exact hm.portFill _ heq
        · exact hm.joinWaiters
    · exact hm

theorem MemoryCanonical.execFillAccept : CanonicalOut (Machine.execFillAccept s) := by
  unfold Machine.execFillAccept
  split
  · exact .next (.ite hm hm.fillHead)
  · exact .next (.ite hm.fillHead hm)
  · exact .next hm

theorem MemoryCanonical.tokensGo {wr : WinRef} {l : List (Nat × Nat × Item)} : MemoryCanonical (s.tokensGo wr l) := by
  induction l generalizing s with
  | nil => exact hm
  | cons p l ih =>
    obtain ⟨d, vc, i⟩ := p
    unfold State.tokensGo
    split
    · exact hm
    · exact .ite hm (ih hm.setWin.sendCtl)

theorem MemoryCanonical.execArrivalToken : CanonicalOut (Machine.execArrivalToken s) := by
  unfold Machine.execArrivalToken
  split
  · split
    · exact .next hm
    · exact .next (.ite hm hm.tokensGo)
  · exact .next hm

theorem MemoryCanonical.execControlTokenPass : CanonicalOut (Machine.execControlTokenPass s) := by
  unfold Machine.execControlTokenPass
  dsimp only
  split
  · split
    · exact .next hm
    · split
      · exact .ite (.next hm) (.next hm.setChan.sendCtl)
      · exact .next hm
  · exact .next hm

theorem MemoryCanonical.execControlBeat : CanonicalOut (Machine.execControlBeat s) := by
  unfold Machine.execControlBeat
  split
  · split
    · exact .next hm
    · split
      · exact .next hm
      · split
        · exact .next hm
        · split
          · exact .next hm.setChan.modElem.active
          · exact .ite (.ite (.next hm) (.next hm.setChan.active)) (.next hm.setChan.active)
  · exact .next hm

end

end Sys2Proof.Safety
end

section
/-! SUPPORT. The canonical form: translation, the system words, the loader, launches, pre-emption, the hub, and then every step. -/

namespace Sys2Proof.Safety

open Sys2Proof.Machine

set_option Elab.async false

section

variable {s : State} (hm : MemoryCanonical s)

include hm

/-! Frames and translation -/

theorem MemoryCanonical.replay {as : List Acc} : MemoryCanonical (s.replay as) :=
  (hm.foldl fun _ _ h1 => h1.leaveDead.modAcc).portsRun

theorem MemoryCanonical.fatal {a : Acc} {m : Miss} : MemoryCanonical (s.fatal a m) := by
  unfold State.fatal
  dsimp only
  split
  · split
    · exact hm.leaveDead.abandon.dropAcc.trap
    · exact hm.leaveDead.dropAcc
  · exact hm.leaveDead.dropAcc.modGen
  · exact hm.leaveDead.dropAcc.remoteLetter.settle
  · split
    · exact hm.leaveDead.dropAcc.remoteLetter
    · exact .settle (.dropCmd (.ite hm.leaveDead.dropAcc.remoteLetter.toChan hm.leaveDead.dropAcc.remoteLetter))
  · exact hm.leaveDead.dropAcc.remoteLetter.settle
  · exact hm.leaveDead.dropAcc.remoteLetter.settle
  · exact hm.leaveDead.modAcc.settle

theorem MemoryCanonical.execPageWalkDone : CanonicalOut (Machine.execPageWalkDone s) := by
  unfold Machine.execPageWalkDone
  dsimp only
  split
  · split
    · exact .next hm
    · split
      · exact .next hm
      · split
        · exact .next hm.later.modAcc
        · split
          · exact .next hm
          · exact .next (.active (.portRun (.modAcc (.later (.ite hm.tlbFill.dirty hm.tlbFill)))))
          · exact .next hm.enqueueDead.portRun.active
  · exact .next hm

theorem MemoryCanonical.voidDead {a : Acc} : MemoryCanonical (s.voidDead a) := by
  unfold State.voidDead
  dsimp only
  split
  · exact hm.leaveDead.modAcc
  · exact hm.leaveDead.dropAcc.dropCmd
  · exact hm.leaveDead.dropAcc

theorem MemoryCanonical.execDeadLetterResolve : CanonicalOut (Machine.execDeadLetterResolve s) := by
  unfold Machine.execDeadLetterResolve
  dsimp only
  split
  · split
    · exact .next hm
    · split
      · split
        · exact .ite (.next hm) (.next hm.replay)
        · split
          · exact .next hm.voidDead
          · split
            · exact .ite (.next hm) (.next hm.frame.modAcc.raise)
            · split
              · split
                · exact .ite (.next hm) (.ite (.next hm.frame) (.next hm.replay))
                · exact .next hm.fatal
              · exact .next hm.fatal
      · exact .next hm
  · exact .next hm

theorem MemoryCanonical.execSpillWriteRetry : CanonicalOut (Machine.execSpillWriteRetry s) := by
  unfold Machine.execSpillWriteRetry
  dsimp only
  split
  · split
    · exact .next hm
    · split
      · exact .next hm
      · exact .ite (.next hm) (.ite (.next hm.setPort) (.next (.ite hm.setPort.remoteLetter hm.setPort)))
  · exact .next hm

theorem MemoryCanonical.execFaultHead : CanonicalOut (Machine.execFaultHead s) := .ite (.next hm.frame) (.next hm.frame)

theorem MemoryCanonical.execFaultAnswer : CanonicalOut (Machine.execFaultAnswer s) := by
  unfold Machine.execFaultAnswer
  dsimp only
  split
  · exact .ite (.next (hm.foldl fun _ _ h1 => h1.fatal)) (.next hm.replay)
  · exact .next hm

theorem MemoryCanonical.invalStart {i : Inval} : MemoryCanonical (s.invalStart i).2 := hm.frame

theorem MemoryCanonical.modMigr {p : PageRef} {f : Migr → Migr} : MemoryCanonical (s.modMigr p f) := hm.frame

theorem MemoryCanonical.endMigr {p : PageRef} : MemoryCanonical (s.endMigr p) := hm.frame

theorem MemoryCanonical.invalEnd {i : Inval} {others : List Inval} : MemoryCanonical (s.invalEnd i others) := by
  unfold State.invalEnd
  extract_lets s₁ s₂ s₃
  have h₃ : MemoryCanonical s₃ := (MemoryCanonical.frame (s := s₁) hm.repatch).unpause
  split
  · split
    · exact .ite h₃.finish h₃
    · exact h₃
  · exact h₃.frame
  · exact h₃.modMigr
  · exact h₃.frame

theorem MemoryCanonical.invalGo {l kept : List Inval} : MemoryCanonical (s.invalGo l kept) := by
  induction l generalizing s kept with
  | nil => exact hm.frame
  | cons i l ih =>
    have h₁ : MemoryCanonical (if i.started then (i, s) else s.invalStart i).2 := by
      split
      · exact hm
      · exact hm.invalStart
    unfold State.invalGo
    refine .ite (ih hm) ?_
    split
    next heq =>
      replace h₁ := h₁.snd_of_eq heq
      exact .ite (ih h₁.invalEnd) (ih h₁)

theorem MemoryCanonical.invalRun : MemoryCanonical s.invalRun := .ite hm hm.invalGo

theorem MemoryCanonical.execInvalGo : CanonicalOut (Machine.execInvalGo s) := by
  unfold Machine.execInvalGo
  dsimp only
  split
  · exact .ite (.next hm) (.ite (.next hm) (.next hm.frame.invalRun))
  · exact .next hm

theorem MemoryCanonical.hold {p : PageRef} {on : Bool} : MemoryCanonical (s.hold p on) := by
  unfold State.hold
  split
  · exact hm.setPte
  · exact hm

theorem MemoryCanonical.pageInval {p : PageRef} : MemoryCanonical (s.pageInval p) := hm.frame.invalRun

theorem MemoryCanonical.copyFrame {fromBulk : Bool} {a : Nat} {toBulk : Bool} {b : Nat} :
    MemoryCanonical (s.copyFrame fromBulk a toBulk b) := by
  obtain ⟨hgddr, hbulk, hhost, helems⟩ := hm
  unfold State.copyFrame
  extract_lets src tags bs ts clear put putTags
  have hput {m : Memory} (hw : m.wf = true) : (put m).wf = true := Memory.wf_puts bs (Memory.wf_filter _ hw)
  exact .ite ⟨hgddr, hput hbulk, hhost, helems⟩ ⟨hput hgddr, hbulk, hhost, helems⟩

theorem MemoryCanonical.execMigration : CanonicalOut (Machine.execMigration s) := by
  unfold Machine.execMigration
  dsimp only
  split
  · split
    · exact .next hm
    · split
      · split
        · split
          · exact .next hm
          · exact .next (.pageInval (.hold hm.frame.modMigr))
        · exact .ite (.next hm) (.next hm.copyFrame.frame.setPte.modMigr.pageInval)
        · exact .next hm.endMigr.replay
        · exact .next hm
      · exact .next hm.endMigr
      · exact .next hm
  · exact .next hm

/-! System words -/

theorem MemoryCanonical.sysWrite {r : CtxRef} {x : Ctx} {n : Nat} {w : Word} : ∀ u ∈ s.sysWrite r x n w, MemoryCanonical u.1 := by
  unfold State.sysWrite
  iterate 7 refine forall_mem_ite (forall_mem_some hm) ?_
  iterate 2 refine forall_mem_dite (fun _ => forall_mem_some hm) fun _ => ?_
  iterate 2 refine forall_mem_dite (fun _ => forall_mem_some hm.modTile) fun _ => ?_
  refine forall_mem_ite (forall_mem_some hm.setBar) ?_
  iterate 4 refine forall_mem_ite (forall_mem_some hm.modRes) ?_
  exact forall_mem_ite (forall_mem_some hm.modTile) forall_mem_none

theorem MemoryCanonical.execSmovRead {o : SmovOps} : CanonicalOut (Machine.execSmovRead o s) := by
  unfold Machine.execSmovRead
  refine hm.runWord fun _ _ => ?_
  refine .next ?_
  split
  · exact hm.trap
  · split
    · exact hm.finish
    · exact hm.illegal

theorem MemoryCanonical.execSmovWrite {o : SmovOps} : CanonicalOut (Machine.execSmovWrite o s) := by
  unfold Machine.execSmovWrite
  refine hm.runWord fun _ _ => ?_
  refine .next ?_
  split
  · exact hm.trap
  · split
    next heq1 => exact (hm.sysWrite _ heq1).finish
    · exact hm.illegal

theorem MemoryCanonical.ctlWord {o : CtxCtlOps} {act : CtxRef → Ctx → CtxRef → Ctx → State} (hact : ∀ a b c d, MemoryCanonical (act a b c d)) :
    CanonicalOut (Machine.ctlWord o s act) := by
  unfold Machine.ctlWord
  dsimp only
  refine hm.runWord fun _ _ => ?_
  refine .next ?_
  split
  · exact hm.trap
  · split
    · exact hm.finish
    · split
      · exact hm.finish
      · split
        · exact hm.finish
        · exact .ite hm.finish (hact _ _ _ _)

theorem MemoryCanonical.ctlDone {r : CtxRef} {d : SReg} {st : Word} : MemoryCanonical (s.ctlDone r d st) := by
  unfold State.ctlDone
  split
  · exact hm.finish
  · exact hm

theorem MemoryCanonical.execCtxctlFreeze {o : CtxCtlOps} : CanonicalOut (Machine.execCtxctlFreeze o s) :=
  hm.ctlWord fun _ _ _ _ => .ite hm.ctlDone (.ite hm.ctlDone (.ite hm.freeze.ctlDone hm.freeze.modCtx))

theorem MemoryCanonical.ctlPoll {r : CtxRef} : MemoryCanonical (s.ctlPoll r) := by
  unfold State.ctlPoll
  split
  · exact hm
  · split
    · split
      · exact .ite hm.finish (.ite hm.finish hm)
      · exact hm.finish
    · exact hm

theorem MemoryCanonical.freezesDone {r q : CtxRef} : MemoryCanonical (s.freezesDone r q) := hm.foldl fun _ _ h1 => h1.ctlPoll

theorem MemoryCanonical.execCtxctlResume {o : CtxCtlOps} : CanonicalOut (Machine.execCtxctlResume o s) :=
  hm.ctlWord fun _ _ _ _ => .ite hm.freezesDone.setCtx.active.ctlDone hm.ctlDone

theorem MemoryCanonical.execCtxctlKill {o : CtxCtlOps} : CanonicalOut (Machine.execCtxctlKill o s) :=
  hm.ctlWord fun _ _ _ _ => .ite hm.ctlDone (.ctlDone (.kill (.ite hm.freezesDone hm)))

theorem MemoryCanonical.execCtxctlRestart {o : CtxCtlOps} : CanonicalOut (Machine.execCtxctlRestart o s) :=
  hm.ctlWord fun _ _ _ _ => .ite hm.freezesDone.restart.ctlDone hm.ctlDone

theorem MemoryCanonical.markWord {o : MarkOps} {act : Nat → Res → Word × (State → State)} (hact : ∀ rid rs t, MemoryCanonical t → MemoryCanonical ((act rid rs).2 t)) :
    CanonicalOut (Machine.markWord o s act) := by
  unfold Machine.markWord
  exact hm.runWord fun r _ => .next (.ite hm.trap (hact r.rid ((s.res? r.rid).getD {}) _ hm.finish))

theorem MemoryCanonical.execMarkRound {o : MarkOps} : CanonicalOut (Machine.execMarkRound o s) := by
  refine hm.markWord fun rid rs t ht => ?_
  split
  · exact ht
  · exact ht.startDrain

theorem MemoryCanonical.execMarkCheckpoint {o : MarkOps} : CanonicalOut (Machine.execMarkCheckpoint o s) := by
  refine hm.markWord fun rid rs t ht => ?_
  split
  · exact ht
  · exact ht.startCheck

theorem MemoryCanonical.execMarkCut {o : MarkOps} : CanonicalOut (Machine.execMarkCut o s) := by
  refine hm.markWord fun rid rs t ht => ?_
  split
  · exact ht
  · split
    · exact ht.endStop
    · exact ht.modRes

theorem MemoryCanonical.execTsamp {o : TsampOps} : CanonicalOut (Machine.execTsamp o s) :=
  hm.runWord fun _ _ => .next (.ite hm.illegal hm.finish)

theorem MemoryCanonical.execBrkpt {o : BrkOps} : CanonicalOut (Machine.execBrkpt o s) := hm.runWord fun _ _ => .next hm.trap

theorem MemoryCanonical.execBrkptArmed {o : BrkArmedOps} : CanonicalOut (Machine.execBrkptArmed o s) :=
  hm.runWord fun _ _ => .next (.ite hm.illegal hm.finish)

theorem MemoryCanonical.execTlbinv {o : TlbinvOps} : CanonicalOut (Machine.execTlbinv o s) := by
  unfold Machine.execTlbinv
  refine hm.runWord fun r x => .next ?_
  extract_lets asid len s₁
  exact .ite hm.trap (.ite hm.finish (MemoryCanonical.frame (s := s₁) hm.setCtx).invalRun.active)

theorem MemoryCanonical.execPost {o : PostOps} : CanonicalOut (Machine.execPost o s) :=
  hm.runWord fun _ _ => .next (.ite hm.trap hm.setCtx.wakeCtx)

/-! Firing and issue -/

theorem MemoryCanonical.reserve {r : CtxRef} {x : Ctx} : MemoryCanonical (s.reserve r x).1 := by
  refine MemoryCanonical.fst_foldl (p := (s, x)) hm fun p n hp => ?_
  split
  · split
    · exact hp.modChan
    · exact hp
  · exact hp

theorem MemoryCanonical.fetch {r : CtxRef} : CanonicalSum (fun u => u.2) (s.fetch r) := by
  unfold State.fetch
  dsimp only
  split
  · exact hm.frame
  · split
    · exact hm.frame.frame.illegal
    · split
      · exact hm.frame.frame.illegal
      · split
        · exact hm.frame.frame.trap
        · exact hm.frame.frame

theorem MemoryCanonical.takeWord {i : Instr} {f : State → Out} (hf : Machine.takeWord i = some f) : CanonicalOut (f s) := by
  unfold Machine.takeWord at hf
  split at hf <;> cases hf
  · exact hm.execRecv
  · exact hm.execVcvtChannel
  · exact hm.execVsdcChannel
  · exact hm.execMwrt
  · exact hm.execMrow
  · exact hm.execMroww
  · exact hm.execMrowwSp
  · exact hm.execEnd_

theorem MemoryCanonical.readyGo {e : ElemRef} : MemoryCanonical (s.readyGo e) := by
  unfold State.readyGo
  dsimp only
  refine MemoryCanonical.foldl hm fun _ _ h1 => ?_
  split
  · exact h1
  · split
    · exact .ite h1.setCtx h1
    · exact .ite h1 h1.setCtx
    · exact h1

theorem MemoryCanonical.granted {r : CtxRef} {x : Ctx} : MemoryCanonical (s.granted r x) := .ite hm.frame hm.frame

theorem MemoryCanonical.execIssueGrant : CanonicalOut (Machine.execIssueGrant s) := by
  unfold Machine.execIssueGrant
  split
  next e _ =>
    split
    · exact .next hm
    · extract_lets s₁ t₁
      refine .ite (.next hm) ?_
      split
      next g t _ =>
        extract_lets s₂
        have h₂ : MemoryCanonical s₂ := MemoryCanonical.frame (s := s₁) hm.readyGo
        split
        · exact .next h₂
        · extract_lets r s₃
          have h₃ : MemoryCanonical s₃ := h₂.tileArrivals
          split
          · exact .next h₃
          · split
            · have h₄ {x : Ctx} : MemoryCanonical (s₃.reserve r x).1 := h₃.reserve
              split
              next heq => exact .next (h₄.fst_of_eq heq).setCtx.granted
            · exact .next h₃.granted
  next r _ =>
    extract_lets s₁
    have h₁ : MemoryCanonical s₁ := hm.foldl fun _ _ h => h.freezeDue
    split
    · refine .ite (.next h₁) ?_
      split
      · exact .next h₁.frame
      · exact .next h₁.frame
    · exact .next h₁
  · exact .next hm

theorem MemoryCanonical.applyPend {e : ElemRef} {w : TileWrite} : MemoryCanonical (s.applyPend e w) := by
  unfold State.applyPend
  dsimp only
  split
  · exact hm.modTile
  · exact hm.modTile
  · exact hm.setBar

theorem MemoryCanonical.pendGo {e : ElemRef} {p : TileWrite → Bool} : MemoryCanonical (s.pendGo e p) := by
  unfold State.pendGo
  split
  · exact hm
  · exact .ite (hm.foldl fun _ _ h1 => h1.applyPend).modTile hm

theorem MemoryCanonical.execArbWeightStep : CanonicalOut (Machine.execArbWeightStep s) := by
  unfold Machine.execArbWeightStep
  split
  · split
    · exact .next hm
    · exact .ite (.next hm) (.next hm.frame.pendGo)
  · exact .next hm

/-! Records -/

theorem MemoryCanonical.setGenRemap {rid : Nat} : MemoryCanonical (s.setGenRemap rid) := hm.frame

/-! The loader -/

theorem MemoryCanonical.vaWriteGo {asid : Nat} {bulk : Bool} {k va : Nat} {bs : List Byte} :
    MemoryCanonical (s.vaWriteGo asid bulk k va bs) := by
  induction k generalizing s va bs with
  | zero => exact hm
  | succ k ih =>
    unfold State.vaWriteGo
    refine .ite hm (ih ?_)
    split
    · exact .ite hm.dirty.writePlace hm
    · exact hm

theorem MemoryCanonical.vaWrite {asid : Nat} {bulk : Bool} {va : Nat} {bs : List Byte} :
    MemoryCanonical (s.vaWrite asid bulk va bs) := hm.vaWriteGo

theorem MemoryCanonical.loaderWrite {space va : Nat} {bs : List Byte} : MemoryCanonical (s.loaderWrite space va bs) :=
  .ite (hm.writeHost va bs) hm.vaWrite

theorem MemoryCanonical.clearFrame {bulk : Bool} {a n : Nat} : MemoryCanonical (s.clearFrame bulk a n) := by
  obtain ⟨hgddr, hbulk, hhost, helems⟩ := hm
  exact .ite ⟨hgddr, Memory.wf_filter _ hbulk, hhost, helems⟩ ⟨Memory.wf_filter _ hgddr, hbulk, hhost, helems⟩

theorem MemoryCanonical.takeFrame {asid : Nat} {bulk : Bool} : ∀ u ∈ s.takeFrame asid bulk, MemoryCanonical u.2 :=
  Option.forall_mem_map.2 fun _ _ => hm.frame.clearFrame

theorem MemoryCanonical.leafFor {asid va n lv tbl : Nat} : ∀ u ∈ s.leafFor asid va n lv tbl, MemoryCanonical u.2 := by
  induction n generalizing s lv tbl with
  | zero => exact forall_mem_none (α := ℕ × State)
  | succ n ih =>
    refine forall_mem_ite (forall_mem_some hm) (forall_mem_ite (ih hm) ?_)
    split
    · exact forall_mem_none
    next heq => exact ih ((hm.takeFrame _ heq).writeGddr ..)

theorem MemoryCanonical.rootFor {asid : Nat} {bulk : Bool} : ∀ u ∈ s.rootFor asid bulk, MemoryCanonical u.2 := by
  unfold State.rootFor
  dsimp only
  split
  · exact forall_mem_some hm
  · exact Option.forall_mem_map.2 fun _ hp1 => (hm.takeFrame _ hp1).frame

theorem MemoryCanonical.mapPage {asid : Nat} {bulk : Bool} {p : Nat} : ∀ u ∈ s.mapPage asid bulk p, MemoryCanonical u := by
  unfold State.mapPage
  refine forall_mem_ite forall_mem_none (forall_mem_bind hm.takeFrame fun f hf => ?_)
  refine forall_mem_bind (MemoryCanonical.rootFor hf) fun r hr => ?_
  exact Option.forall_mem_map.2 fun l hl => (MemoryCanonical.leafFor hr l hl).writeGddr ..

theorem MemoryCanonical.mapGo {asid : Nat} {bulk : Bool} {n p : Nat} : ∀ u ∈ s.mapGo asid bulk n p, MemoryCanonical u := by
  induction n generalizing s p with
  | zero => exact forall_mem_some hm
  | succ n ih => exact forall_mem_bind hm.mapPage fun _ h => ih h

theorem MemoryCanonical.alloc {asid : Nat} {bulk : Bool} {len : Nat} {bs : List Byte} :
    ∀ u ∈ s.alloc asid bulk len bs, MemoryCanonical u.2 := by
  unfold State.alloc
  dsimp only
  split
  · exact forall_mem_none
  · exact Option.forall_mem_map.2 fun _ hp1 => (hm.frame.mapGo _ hp1).vaWrite

theorem MemoryCanonical.allocCaps {asid : Nat} {trailer : List Byte} {cs : List CapEntry} :
    ∀ u ∈ s.allocCaps asid trailer cs, MemoryCanonical u.2 := by
  induction cs generalizing s with
  | nil => exact forall_mem_some hm
  | cons c cs ih =>
    unfold State.allocCaps
    extract_lets one
    have hone : ∀ u ∈ one, MemoryCanonical u.2 := forall_mem_ite (forall_mem_some hm) hm.alloc
    clear_value one
    split
    · exact forall_mem_none
    · exact Option.forall_mem_map.2 fun p hp => ih (hone _ rfl) p hp

theorem MemoryCanonical.dealSites {im : Image} {sites : List Spot} : ∀ u ∈ s.dealSites im sites, MemoryCanonical u.2 :=
  Option.forall_mem_map.2 fun _ _ => hm.frame

theorem MemoryCanonical.place {rid : Nat} {im : Image} {caps : List CapV} : ∀ u ∈ s.place rid im caps, MemoryCanonical u.2 := by
  intro u hu
  simp only [State.place] at hu
  split at hu
  · nomatch hu
  · split at hu
    · nomatch hu
    · split at hu
      next heq _ _ =>
        split at hu
        · split at hu
          · nomatch hu
          · cases hu; exact hm.dealSites _ heq
        · nomatch hu
      · nomatch hu

theorem MemoryCanonical.buildElem {rid : Nat} {im : Image} {caps : List CapV} {grp : Option Nat} {st : Site} :
    MemoryCanonical (s.buildElem rid im caps grp st) := by
  unfold State.buildElem
  split
  · exact hm
  · extract_lets e el s₁ s₂
    have h₁ : MemoryCanonical s₁ := (hm.putElem (e := e) (el := el) rfl).frame
    split
    · have h₂ : MemoryCanonical s₂ := h₁.frame
      exact h₂.foldl fun _ _ h => .ite h h.setBar
    · split
      · exact h₁.frame
      · exact h₁
    · refine h₁.foldl fun t k ht => ?_
      split
      · exact ht.setGen
      · exact ht

theorem MemoryCanonical.movePages {rid asid : Nat} {l : List (Nat × Nat)} {seen : List Nat} :
    MemoryCanonical (s.movePages rid asid l seen) := by
  induction l generalizing s seen with
  | nil => exact hm
  | cons p l ih =>
    obtain ⟨e, dev⟩ := p
    unfold State.movePages
    split
    · exact ih hm
    · refine ih (hm.foldl fun t q ht => ?_)
      extract_lets tgt
      clear_value tgt
      split
      · exact ht
      · exact ht.frame

theorem MemoryCanonical.patch {rid : Nat} : MemoryCanonical (s.patch rid).1 := by
  refine MemoryCanonical.fst_foldl (p := (s, none)) hm fun p k hp => ?_
  split
  · exact hp.modGen
  · exact hp

theorem MemoryCanonical.fillBatch {rid block : Nat} {batch : List (BitVec 256)} : MemoryCanonical (s.fillBatch rid block batch) := by
  unfold State.fillBatch
  dsimp only
  refine MemoryCanonical.foldl hm fun _ _ h1 => ?_
  split
  · exact .ite h1.winFill h1
  · exact h1

theorem MemoryCanonical.settleIn {rid : Nat} {pl : Placement} : MemoryCanonical (s.settleIn rid pl) := by
  unfold State.settleIn
  extract_lets s₁
  exact MemoryCanonical.frame (s := s₁) hm.modRes

theorem MemoryCanonical.build {rs : Res} {bases : List Nat} : ∀ u ∈ s.build rs bases, MemoryCanonical u := by
  unfold State.build
  dsimp only
  split
  · exact forall_mem_none
  next heq1 =>
    exact forall_mem_some ((hm.frame.place _ heq1).modRes.settleIn.foldl fun _ _ h2 => h2.buildElem).setGenRemap.fillBatch.movePages.active

theorem MemoryCanonical.free {rid : Nat} : MemoryCanonical (s.free rid) := by
  obtain ⟨hgddr, hbulk, hhost, helems⟩ := hm
  refine ⟨hgddr, hbulk, hhost, fun e el hel => ?_⟩
  have hel : tget (Tbl.without s.elems (·.rid) rid) e = some el := hel
  rw [tget_without] at hel
  split at hel
  · nomatch hel
  · exact helems e el hel

/-! Launches -/

theorem MemoryCanonical.launchGo : MemoryCanonical s.launchGo := hm.frame

theorem MemoryCanonical.execLaunchPortWrite : CanonicalOut (Machine.execLaunchPortWrite s) := by
  unfold Machine.execLaunchPortWrite
  dsimp only
  split
  · exact .ite (.next hm.frame) (.next hm.frame.launchGo)
  · exact .next hm

theorem MemoryCanonical.execEventRecordFill : CanonicalOut (Machine.execEventRecordFill s) := by
  unfold Machine.execEventRecordFill
  dsimp only
  split
  · exact .next hm
  · exact .ite (.next hm) (.next (.ite hm.frame.raise hm.frame))

theorem MemoryCanonical.execEventShrink : CanonicalOut (Machine.execEventShrink s) := by
  unfold Machine.execEventShrink
  dsimp only
  split
  · exact .next (.ite hm.frame hm.frame.raise)
  · exact .next hm

theorem MemoryCanonical.shrinkLetter : MemoryCanonical s.shrinkLetter := hm.frame.launchGo

theorem MemoryCanonical.endLetter : MemoryCanonical s.endLetter := .ite hm.shrinkLetter hm.frame

theorem MemoryCanonical.refuse {b : Beat} {code : Nat} : MemoryCanonical (s.refuse b code) :=
  .frame (hm.event (b := eventBeat s 6 code (lTag b) (lBlock b) 0 0 0))

theorem MemoryCanonical.letterGo : MemoryCanonical s.letterGo := by
  unfold State.letterGo
  dsimp only
  split
  · exact .ite hm.shrinkLetter.frame hm
  · exact hm

theorem MemoryCanonical.loadRecord {kind tag block : Nat} {e : LErr} : MemoryCanonical (s.loadRecord kind tag block e) := hm.event

theorem MemoryCanonical.modLaunch {tag : Nat} {f : Launch → Launch} : MemoryCanonical (s.modLaunch tag f) := hm.frame

theorem MemoryCanonical.accept {tag block : Nat} {t : BitVec 256} : MemoryCanonical (s.accept tag block t) := by
  unfold State.accept
  extract_lets s₁
  exact MemoryCanonical.frame (s := s₁) hm.modLaunch

theorem MemoryCanonical.writeMap {l : Launch} {b : Block} {slots : List (Nat × Nat)} : MemoryCanonical (s.writeMap l b slots) :=
  hm.foldl fun _ _ h1 => h1.loaderWrite

theorem MemoryCanonical.goLive {b : Beat} {bl : List Block} {asid : Nat} : MemoryCanonical (s.goLive b bl asid) :=
  ((hm.frame.foldl fun _ _ h1 => h1.writeMap).accept.foldl fun _ _ h1 => h1.loadRecord).endLetter

theorem MemoryCanonical.execLaunch : CanonicalOut (Machine.execLaunch s) := by
  unfold Machine.execLaunch
  split
  · exact .next hm
  · extract_lets n
    refine .ite (.next hm.refuse) (.ite (.next hm.refuse) ?_)
    split
    refine .ite (.next hm) (.ite (.next hm.refuse) ?_)
    extract_lets es
    refine .ite (.next hm.refuse) (.ite (.next hm) ?_)
    split
    · exact .next hm.loadRecord.endLetter
    · refine .ite (.next hm) ?_
      split
      · exact .next hm.refuse
      · split
        · exact .next hm.refuse
        · exact .ite (.next hm.refuse) (.next hm.goLive)

theorem MemoryCanonical.execToken : CanonicalOut (Machine.execToken s) := by
  unfold Machine.execToken
  split
  · exact .next hm
  · split
    · exact .next hm.refuse
    · exact .ite (.next hm.refuse) (.ite (.next hm.frame) (.next hm.accept.shrinkLetter))

theorem MemoryCanonical.killRegion {rid : Nat} : MemoryCanonical (s.killRegion rid) := by
  unfold State.killRegion
  extract_lets s₁ stop s₂ dead s₃
  have h₁ : MemoryCanonical s₁ := hm.foldl fun _ _ h => h.kill
  have hstop (k : ElemRef) (e : Elem) (hw : e.store.wf = true) : (stop k e).store.wf = true := by
    unfold stop
    split <;> exact hw
  have h₂ : MemoryCanonical s₂ := (h₁.mapElems hstop).frame
  exact MemoryCanonical.frame (s := s₃) h₂.modRes

theorem MemoryCanonical.freeLaunchQueries {tag : Nat} {f : Query → Bool} : MemoryCanonical (s.freeLaunchQueries tag f) :=
  hm.foldl fun _ _ h1 => .ite h1.dropCmd.freeQuery h1

theorem MemoryCanonical.endLaunch {tag code : Nat} : MemoryCanonical (s.endLaunch tag code) :=
  hm.freeLaunchQueries.frame.event.modLaunch

theorem MemoryCanonical.dropNet {tag : Nat} : MemoryCanonical (s.dropNet tag) := hm.frame

theorem MemoryCanonical.cancelLaunch {tag : Nat} : MemoryCanonical (s.cancelLaunch tag) := by
  unfold State.cancelLaunch
  extract_lets mark s₁ s₂ one s₃ s₄
  have h₂ : MemoryCanonical s₂ := MemoryCanonical.frame (s := s₁) hm.modLaunch
  have h₃ : MemoryCanonical s₃ := h₂.foldl fun _ _ h => .ite h.free h.killRegion.modRes
  have h₄ : MemoryCanonical s₄ := h₃.dropNet.freeLaunchQueries
  exact .ite h₄.endLaunch h₄

theorem MemoryCanonical.execCancel : CanonicalOut (Machine.execCancel s) := by
  unfold Machine.execCancel
  dsimp only
  split
  · exact .next hm
  · split
    · exact .next hm.refuse
    · exact .next hm.cancelLaunch.frame

theorem MemoryCanonical.execClose : CanonicalOut (Machine.execClose s) := by
  unfold Machine.execClose
  split
  · exact .next hm
  · split
    · exact .next hm.refuse
    · exact .next hm.shrinkLetter.modLaunch

theorem MemoryCanonical.execRelease : CanonicalOut (Machine.execRelease s) := by
  unfold Machine.execRelease
  dsimp only
  split
  · exact .next hm
  · split
    · exact .next hm.refuse
    · exact .ite (.next hm.refuse) (.next hm.shrinkLetter.frame.invalRun)

theorem MemoryCanonical.execBadKind : CanonicalOut (Machine.execBadKind s) := by
  unfold Machine.execBadKind
  split
  · exact .next hm
  · split
    · exact .ite (.next hm.refuse) (.next hm)
    · exact .next hm

theorem MemoryCanonical.execLaunchDrained : CanonicalOut (Machine.execLaunchDrained s) := by
  unfold Machine.execLaunchDrained
  split
  · split
    · exact .next hm
    · exact .ite (.next hm.endLaunch) (.ite (.next hm.endLaunch) (.next hm))
  · exact .next hm

theorem MemoryCanonical.execThreadTokenAccepted : CanonicalOut (Machine.execThreadTokenAccepted s) := by
  unfold Machine.execThreadTokenAccepted
  split
  · split
    · exact .next hm
    next p _ =>
      split
      extract_lets s₁
      have h₁ : MemoryCanonical s₁ := hm.frame.accept
      refine .ite (.next hm) ?_
      split
      · exact .ite (.next h₁.finish) (.next h₁)
      · exact .next h₁
  · exact .next hm

theorem MemoryCanonical.fwdTrim : MemoryCanonical s.fwdTrim := hm.frame

theorem MemoryCanonical.forwardGo {l kept : List (Nat × Nat × BitVec 256)} : MemoryCanonical (s.forwardGo l kept) := by
  induction l generalizing s kept with
  | nil => exact hm.frame
  | cons f l ih => exact .ite (ih hm) (ih hm.accept)

theorem MemoryCanonical.execTokenForward : CanonicalOut (Machine.execTokenForward s) := .next hm.forwardGo

theorem MemoryCanonical.closeGo {rid : Nat} : MemoryCanonical (s.closeGo rid) := by
  unfold State.closeGo
  split
  · exact .ite hm.modRes hm
  · exact hm

theorem MemoryCanonical.endResidency {rid : Nat} {rs : Res} : MemoryCanonical (s.endResidency rid rs) := hm.free.frame

theorem MemoryCanonical.execResidencyEnd : CanonicalOut (Machine.execResidencyEnd s) := by
  unfold Machine.execResidencyEnd
  dsimp only
  split
  · split
    · exact .next hm
    · exact .ite (.next hm) (.ite (.next hm.free.frame) (.ite (.next hm.endResidency) (.next hm)))
  · exact .next hm

theorem MemoryCanonical.basesOf {tag : Nat} {l : Launch} {n : Nat} {b : Block} : ∀ u ∈ s.basesOf tag l n b, MemoryCanonical u.2 := by
  unfold State.basesOf
  split
  · exact forall_mem_some hm
  · split
    · exact forall_mem_none
    · exact Option.forall_mem_map.2 fun _ hp1 => (hm.allocCaps _ hp1).writeMap.modLaunch

theorem MemoryCanonical.storeGroups {tag block : Nat} {im : Image} : ∀ u ∈ s.storeGroups tag block im, MemoryCanonical u := by
  unfold State.storeGroups
  dsimp only
  split
  · exact forall_mem_some hm
  · split
    · exact forall_mem_none
    · exact forall_mem_some hm.frame

theorem MemoryCanonical.loadBlock {c : Cand} : ∀ u ∈ s.loadBlock c, MemoryCanonical u := by
  unfold State.loadBlock
  split
  · exact forall_mem_none
  · split
    · exact forall_mem_none
    · split
      · exact forall_mem_none
      next heq => exact forall_mem_bind (hm.basesOf _ heq).build fun _ h => h.modLaunch.storeGroups

theorem MemoryCanonical.replace {rid : Nat} : ∀ u ∈ s.replace rid, MemoryCanonical u := by
  unfold State.replace
  dsimp only
  split
  · exact forall_mem_none
  · split
    · exact forall_mem_none
    next heq1 => exact forall_mem_some ((hm.place _ heq1).settleIn.modRes.foldl fun _ _ h2 => h2.modElem).movePages

theorem MemoryCanonical.grantCand {c : Cand} : ∀ u ∈ s.grantCand c, MemoryCanonical u := by
  unfold State.grantCand
  split
  · exact forall_mem_none
  · split
    · exact hm.replace
    · exact hm.loadBlock

theorem MemoryCanonical.preemptFor {c : Cand} : MemoryCanonical (s.preemptFor c) := by
  unfold State.preemptFor
  dsimp only
  split
  · exact hm
  · split
    · exact hm
    · exact hm.foldl fun _ _ h1 => h1.modRes.startDrain

theorem MemoryCanonical.schedGo {n : Nat} : MemoryCanonical (s.schedGo n) := by
  induction n generalizing s with
  | zero => exact hm
  | succ n ih =>
    unfold State.schedGo
    split
    · exact hm
    · split
      next heq => exact ih (hm.grantCand _ heq)
      · exact hm.preemptFor

theorem MemoryCanonical.execBlockScheduler : CanonicalOut (Machine.execBlockScheduler s) := .ite (.next hm) (.next hm.frame.schedGo)

theorem MemoryCanonical.execAgeStepExpiry : CanonicalOut (Machine.execAgeStepExpiry s) := .ite (.next hm.frame) (.next hm)

theorem MemoryCanonical.loadGo {rid : Nat} : MemoryCanonical (s.loadGo rid) := by
  unfold State.loadGo
  split
  · exact hm
  · split
    · exact hm
    · split
      rename_i heq1
      split
      · exact (hm.patch.fst_of_eq heq1).loadRecord.cancelLaunch
      · exact (hm.patch.fst_of_eq heq1).modRes.adoptQueries

/-! Configuration contexts -/

theorem MemoryCanonical.reheadAll {e : ElemRef} {im : Image} {caps : List CapV} : MemoryCanonical (s.reheadAll e im caps) := by
  unfold State.reheadAll
  dsimp only
  refine MemoryCanonical.foldl hm fun _ _ h1 => ?_
  split
  · exact h1.setCtx
  · exact h1.setCtx
  · exact h1.setCtx
  · exact h1

theorem MemoryCanonical.switchTo {e : ElemRef} {g : Nat} {fs : List Frame} : MemoryCanonical (s.switchTo e g fs) := by
  unfold State.switchTo
  extract_lets rs im isTile relink s₁ s₂ s₃ s₄
  have h₂ : MemoryCanonical s₂ := MemoryCanonical.frame (s := s₁) hm.modElem
  have h₃ : MemoryCanonical s₃ := by
    unfold s₃
    split
    · exact h₂.frame
    · exact h₂.frame
  have h₄ : MemoryCanonical s₄ := by
    unfold s₄
    split
    · exact h₃.modRes
    · exact h₃
  exact .ite h₄.frame.modTile.reheadAll h₄

theorem MemoryCanonical.execContextSwitch : CanonicalOut (Machine.execContextSwitch s) := by
  unfold Machine.execContextSwitch
  dsimp only
  split
  · split
    · split
      · exact .next hm
      · split
        · exact .next hm
        · split
          · exact .next hm.switchTo.active
          · exact .ite (.next hm.modElem.remoteLetter) (.next hm.later.modElem.active)
    · exact .next hm
  · exact .next hm

theorem MemoryCanonical.execContextFetchDone : CanonicalOut (Machine.execContextFetchDone s) := by
  unfold Machine.execContextFetchDone
  dsimp only
  split
  · split
    · split
      · exact .next hm
      · exact .ite (.next hm) (.next hm.modElem.active)
    · exact .next hm
  · exact .next hm

theorem MemoryCanonical.execContextStoreAdd : CanonicalOut (Machine.execContextStoreAdd s) := by
  unfold Machine.execContextStoreAdd
  dsimp only
  split
  · split
    · exact .next hm
    · split
      · exact .next hm
      · split
        · exact .next hm.loadRecord
        · exact .next hm.frame
  · exact .next hm

/-! Pre-emption -/

theorem MemoryCanonical.setRemap {rid : Nat} : MemoryCanonical (s.setRemap rid) := hm.setGenRemap.foldl fun _ _ h1 => h1.frame

theorem MemoryCanonical.holdTokens {rid : Nat} : MemoryCanonical (s.holdTokens rid) := hm.frame

theorem MemoryCanonical.endSamples {rid : Nat} : MemoryCanonical (s.endSamples rid) :=
  (hm.foldl fun _ _ h1 => h1.foldl fun _ _ h2 => h2.sinkItem).frame

theorem MemoryCanonical.execDrainComplete : CanonicalOut (Machine.execDrainComplete s) := by
  have held (rid : Nat) : ∀ (e : ElemRef) (el : Elem), el.store.wf = true →
      (if e.rid = rid then { el with saved := true } else el).store.wf = true := by
    intro e el hw
    split <;> exact hw
  unfold Machine.execDrainComplete
  split
  next rid _ =>
    split
    · exact .next hm
    · extract_lets rest s₁ s₂ s₃
      have h₁ : MemoryCanonical s₁ := hm.foldl fun _ _ h => h.freeze
      have h₂ : MemoryCanonical s₂ := h₁.foldl fun _ _ h => h.genRewind
      have h₃ : MemoryCanonical s₃ := h₂.mapElems (held rid)
      exact .ite (.next hm) (.next h₃.modRes.endSamples.holdTokens.setRemap)
  · exact .next hm

theorem MemoryCanonical.writeImage {rid : Nat} : MemoryCanonical (s.writeImage rid) := by
  unfold State.writeImage
  split
  · split
    · exact hm.writeGddr ..
    · exact hm
  · exact hm

theorem MemoryCanonical.execSaveComplete : CanonicalOut (Machine.execSaveComplete s) := by
  unfold Machine.execSaveComplete
  split
  next rid _ =>
    split
    · exact .next hm
    · extract_lets count s₁ saved s₂
      have h₁ : MemoryCanonical s₁ := hm.frame
      have h₂ : MemoryCanonical s₂ := h₁.modRes.writeImage
      exact .ite (.next hm) (.next h₂.frame)
  · exact .next hm

theorem MemoryCanonical.lateItem {c : ChanRef} {i : Item} : ∀ u ∈ s.lateItem c i, MemoryCanonical u := by
  unfold State.lateItem
  dsimp only
  split
  · exact forall_mem_some hm
  · split
    · exact hm.setChan.portFill
    · split
      · split
        · exact forall_mem_none
        · exact forall_mem_some hm.setChan
      · split
        · exact forall_mem_none
        · split
          · exact forall_mem_some hm.modElem
          · exact forall_mem_some hm.setChan

theorem MemoryCanonical.lateGo {rid : Nat} {l kept : List (ChanRef × Item)} : MemoryCanonical (s.lateGo rid l kept) := by
  induction l generalizing s kept with
  | nil => exact hm.frame
  | cons p l ih =>
    unfold State.lateGo
    refine .ite (ih hm) ?_
    split
    next heq => exact ih (hm.lateItem _ heq)
    · exact ih hm

theorem MemoryCanonical.execLateData : CanonicalOut (Machine.execLateData s) := by
  unfold Machine.execLateData
  split
  · split
    · exact .next hm
    · exact .ite (.next hm.lateGo) (.ite (.next hm) (.next hm.lateGo.writeImage))
  · exact .next hm

theorem MemoryCanonical.winBack {wr : WinRef} {w : Window} : MemoryCanonical (s.winBack wr w) :=
  hm.setWin.modElem (by exact fun _ hw => Memory.wf_write hw ..)

theorem MemoryCanonical.clearRemap {rid : Nat} : MemoryCanonical (s.clearRemap rid) := hm.frame.setGenRemap

theorem MemoryCanonical.execRestore : CanonicalOut (Machine.execRestore s) := by
  unfold Machine.execRestore
  split
  next rid _ =>
    split
    · exact .next hm
    · refine .ite (.next hm) ?_
      split
      next s₁ bad heq =>
        have h₁ : MemoryCanonical s₁ := hm.patch.fst_of_eq heq
        split
        · exact .next h₁.loadRecord.cancelLaunch
        · extract_lets s₂ live back s₃ s₄ s₅ s₆ s₇ out
          have h₂ : MemoryCanonical s₂ := h₁.foldl fun _ _ h => h.winBack
          have hlive (k : ElemRef) (e : Elem) (hw : e.store.wf = true) : (live k e).store.wf = true := by
            unfold live
            split <;> exact hw
          have h₄ : MemoryCanonical s₄ := MemoryCanonical.mapElems (s := s₃) h₂.modRes hlive
          have h₆ : MemoryCanonical s₆ := MemoryCanonical.frame (s := s₅) h₄.outRun.clearRemap
          have h₇ : MemoryCanonical s₇ := h₆.sendHeld.foldl fun _ _ h => h.queryEndGo
          exact .next h₇.frame
  · exact .next hm

/-! Letters and the stall watch -/

theorem MemoryCanonical.reportHost {rid : Nat} {rs : Res} : MemoryCanonical (s.reportHost rid rs) :=
  .ite hm (hm.foldl fun _ _ h1 => h1.event).modRes

theorem MemoryCanonical.execTrapLetterDelivery : CanonicalOut (Machine.execTrapLetterDelivery s) := by
  unfold Machine.execTrapLetterDelivery
  split
  next rid _ =>
    split
    · exact .next hm
    · extract_lets ls gone s₁ rs s₂
      have h₁ : MemoryCanonical s₁ := (hm.foldl fun _ _ h => h.event).modRes
      have h₂ : MemoryCanonical s₂ := h₁.reportHost
      split
      · exact .next h₂
      · extract_lets waits due
        refine .ite (.next h₂) ?_
        split
        next heq => exact .next (h₂.letterFill _ heq)
        · exact .next h₂.joinWaiters
  · exact .next hm

theorem MemoryCanonical.killWith {rid elem who : Nat} : MemoryCanonical (s.killWith rid elem who) := by
  unfold State.killWith
  dsimp only
  split
  · exact hm
  · exact .ite hm (.fileLetter (.ite hm.free.frame hm.killRegion))

theorem MemoryCanonical.execRegionKill : CanonicalOut (Machine.execRegionKill s) := by
  unfold Machine.execRegionKill
  split
  · exact .next hm.killWith
  · exact .next hm

theorem MemoryCanonical.softDie {d : Nat} : MemoryCanonical (s.softDie d) := by
  unfold State.softDie
  dsimp only
  split
  · exact hm.frame
  · exact hm.frame

theorem MemoryCanonical.execLinkRetry : CanonicalOut (Machine.execLinkRetry s) := by
  unfold Machine.execLinkRetry
  dsimp only
  split
  · exact .next hm.softDie.frame
  · exact .next hm.frame
  · exact .next hm

theorem MemoryCanonical.execLinkDown : CanonicalOut (Machine.execLinkDown s) := by
  unfold Machine.execLinkDown
  dsimp only
  split
  · exact .ite (.next hm) (.next (hm.frame.foldl fun _ _ h1 => h1.killWith).event)
  · exact .next hm

theorem MemoryCanonical.stallGo {rid : Nat} : MemoryCanonical (s.stallGo rid) := by
  unfold State.stallGo
  dsimp only
  split
  · exact hm
  · exact .ite hm hm.modRes

theorem MemoryCanonical.execStallWatchDeclare : CanonicalOut (Machine.execStallWatchDeclare s) := by
  unfold Machine.execStallWatchDeclare
  dsimp only
  split
  · split
    · exact .next hm
    · exact .ite (.next hm) (.next hm.modRes)
  · exact .next hm

/-! Capture and debug -/

theorem MemoryCanonical.execCaptureStart : CanonicalOut (Machine.execCaptureStart s) := by
  unfold Machine.execCaptureStart
  split
  · split
    · exact .next hm
    · split
      · exact .next hm
      · exact .next hm.modCtx
  · exact .next hm

theorem MemoryCanonical.execCaptureStop : CanonicalOut (Machine.execCaptureStop s) := by
  unfold Machine.execCaptureStop
  split
  · split
    · exact .next hm
    · split
      · exact .next hm
      · split
        · exact .next hm
        · split
          · exact .next hm
          · exact .next hm.setCtx.trace
  · exact .next hm

theorem MemoryCanonical.execLinkBrk : CanonicalOut (Machine.execLinkBrk s) := by
  unfold Machine.execLinkBrk
  dsimp only
  split
  · split
    · exact .next hm.frame
    · exact .next hm
  · exact .next hm

theorem MemoryCanonical.tap {ir : Byte} {out : List Bool} : MemoryCanonical (s.tap ir out) := hm.frame

theorem MemoryCanonical.bypass : MemoryCanonical s.bypass := hm.tap

theorem MemoryCanonical.execIdcode : CanonicalOut (Machine.execIdcode s) := .next hm.tap

theorem MemoryCanonical.execDevid : CanonicalOut (Machine.execDevid s) := .next hm.tap

theorem MemoryCanonical.execDebugFreeze : CanonicalOut (Machine.execDebugFreeze s) :=
  .next (.frame (s := s.tap 0x10 []) hm.tap)

theorem MemoryCanonical.execFreezePin : CanonicalOut (Machine.execFreezePin s) := .next hm.frame

theorem MemoryCanonical.execThaw : CanonicalOut (Machine.execThaw s) :=
  .ite (.next hm.bypass) (.next (.frame (s := s.tap 0x11 []) hm.tap))

theorem MemoryCanonical.execDebugSelect : CanonicalOut (Machine.execDebugSelect s) := by
  unfold Machine.execDebugSelect
  split
  · exact .next (.frame (s := s.tap 0x20 []) hm.tap)
  · exact .next hm

theorem MemoryCanonical.execDebugRead : CanonicalOut (Machine.execDebugRead s) := by
  unfold Machine.execDebugRead
  extract_lets hub out t
  exact .ite (.next hm.bypass) (.next (.frame (s := t) hm.tap))

theorem MemoryCanonical.execBypass : CanonicalOut (Machine.execBypass s) := .next hm.bypass

theorem MemoryCanonical.execDebugToken : CanonicalOut (Machine.execDebugToken s) := by
  unfold Machine.execDebugToken
  split
  · split
    · exact .next (.frame (s := s.tap 0x30 (bitsOf 8 0)) hm.tap)
    · exact .next (.frame (s := s.tap 0x30 (bitsOf 8 0)) hm.tap)
    · extract_lets c t
      exact .next (.frame (s := t) hm.tap)
  · exact .next hm

theorem MemoryCanonical.execLcAdvance : CanonicalOut (Machine.execLcAdvance s) := by
  unfold Machine.execLcAdvance
  dsimp only
  split
  · split
    · exact .ite (.next hm.frame) (.next hm)
    · exact .next hm
  · exact .next hm

theorem MemoryCanonical.execRevokeGo : CanonicalOut (Machine.execRevokeGo s) := by
  unfold Machine.execRevokeGo
  dsimp only
  split
  · split
    · exact .next hm
    · split
      · exact .next hm.frame
      · exact .ite (.next hm.frame.frame) (.next hm.frame.frame)
  · exact .next hm

theorem MemoryCanonical.execAttestGo : CanonicalOut (Machine.execAttestGo s) := by
  unfold Machine.execAttestGo
  dsimp only
  split
  · exact .ite (.next hm) (.next hm.frame)
  · exact .next hm

/-! The hub -/

theorem MemoryCanonical.execBar0RegisterWrite : CanonicalOut (Machine.execBar0RegisterWrite s) := by
  unfold Machine.execBar0RegisterWrite
  split
  · exact .next hm.frame
  · exact .next hm

theorem MemoryCanonical.execLaunchErrClear : CanonicalOut (Machine.execLaunchErrClear s) := by
  unfold Machine.execLaunchErrClear
  dsimp only
  split
  · exact .next hm.frame
  · exact .next hm

theorem MemoryCanonical.fusesOnly : MemoryCanonical s.fusesOnly :=
  ⟨rfl, rfl, hm.2.2.1, fun _ _ h => nomatch h⟩

theorem MemoryCanonical.bringUp : MemoryCanonical s.bringUp := hm.fusesOnly.frame

theorem MemoryCanonical.execDevReset : CanonicalOut (Machine.execDevReset s) := by
  unfold Machine.execDevReset
  split
  · exact .ite (.next hm.bringUp) (.next hm)
  · exact .next hm

theorem MemoryCanonical.execPowerOn : CanonicalOut (Machine.execPowerOn s) := .next hm.bringUp

theorem MemoryCanonical.execConventionalReset : CanonicalOut (Machine.execConventionalReset s) := .next hm.bringUp

theorem MemoryCanonical.execPowerRemoval : CanonicalOut (Machine.execPowerRemoval s) := .next hm.fusesOnly

theorem MemoryCanonical.stage7 : MemoryCanonical s.stage7 := hm.frame

theorem MemoryCanonical.execFwLoad : CanonicalOut (Machine.execFwLoad s) := by
  unfold Machine.execFwLoad
  dsimp only
  split
  · exact .ite (.next hm) (.next (.ite hm.frame.stage7 hm.frame))
  · exact .next hm

theorem MemoryCanonical.bootFail : MemoryCanonical s.bootFail := hm.frame.raise

theorem MemoryCanonical.zeroed : MemoryCanonical s.zeroed :=
  ⟨rfl, rfl, hm.2.2⟩

theorem MemoryCanonical.execBootStageComplete : CanonicalOut (Machine.execBootStageComplete s) := by
  unfold Machine.execBootStageComplete
  dsimp only
  split
  · split
    · exact .next hm
    · split
      · split
        · exact .next hm.frame.raise
        · exact .next hm.bootFail
      · exact .ite (.next hm.bootFail) (.ite (.next (.ite hm.zeroed.stage7 hm.zeroed.frame)) (.next hm.frame))
  · exact .next hm

theorem MemoryCanonical.powerWrite {w : Word} : MemoryCanonical (s.powerWrite w) := by
  unfold State.powerWrite
  dsimp only
  split
  · exact hm
  · split
    · exact hm.frame
    · split
      · exact .ite hm.frame (.ite hm.frame hm.frame)
      · exact .ite hm.frame (.ite hm.frame hm.frame)
      · exact .ite hm.frame hm.frame
      · exact hm.frame

theorem MemoryCanonical.powerRow {codes : List Nat} : CanonicalOut (Machine.powerRow codes s) := by
  unfold Machine.powerRow
  split
  · exact .ite (.next hm.powerWrite) (.next hm)
  · exact .next hm

theorem MemoryCanonical.execPowerRun : CanonicalOut (Machine.execPowerRun s) := hm.powerRow

theorem MemoryCanonical.execPowerIdle : CanonicalOut (Machine.execPowerIdle s) := hm.powerRow

theorem MemoryCanonical.execPowerPark : CanonicalOut (Machine.execPowerPark s) := hm.powerRow

theorem MemoryCanonical.parkDie {d : Nat} : MemoryCanonical (s.parkDie d) := hm.frame

theorem MemoryCanonical.execPowerTransitionDone : CanonicalOut (Machine.execPowerTransitionDone s) := by
  unfold Machine.execPowerTransitionDone
  dsimp only
  split
  · exact .next hm
  · exact .ite (.next hm) (.next (.raise (.frame (.ite hm.parkDie hm))))

theorem MemoryCanonical.tripGo : MemoryCanonical s.tripGo := by
  unfold State.tripGo
  dsimp only
  split
  · exact hm
  · exact .ite hm (.ite (hm.frame.foldl fun _ _ h1 => h1.parkDie).raise (hm.frame.foldl fun _ _ h1 => h1.parkDie))

theorem MemoryCanonical.execThermalTrip : CanonicalOut (Machine.execThermalTrip s) := by
  unfold Machine.execThermalTrip
  dsimp only
  split
  · exact .ite (.next hm.frame) (.next (hm.frame.frame.foldl fun _ _ h1 => h1.cancelLaunch).tripGo.raise)
  · exact .next hm

/-! The hub cycle -/

theorem MemoryCanonical.land {c : ChanRef} {x : Chan} {it : Item} : MemoryCanonical (s.land c x it) := by
  unfold State.land
  extract_lets it' s₁
  have h₁ : MemoryCanonical s₁ := hm.active
  split
  · exact MemoryCanonical.frame (s := s₁.setChan c x) h₁.setChan
  · split
    · split
      · exact h₁.setChan
      · split
        · exact h₁.setChan
        · split
          · exact h₁.setChan.modElem
          · exact .ite h₁.setChan h₁.setChan
    · exact h₁.setChan

theorem MemoryCanonical.landGo {c : ChanRef} : MemoryCanonical (s.landGo c) := by
  unfold State.landGo
  split
  · exact hm
  · split
    · exact .ite hm.land hm
    · exact hm

theorem MemoryCanonical.landAll : MemoryCanonical s.landAll := hm.foldl fun _ _ h1 => h1.landGo

theorem MemoryCanonical.doubleGo {r : CtxRef} : MemoryCanonical (s.doubleGo r) := by
  unfold State.doubleGo
  dsimp only
  split
  · exact hm
  · split
    · exact hm
    · exact .ite hm.setCtx.fileLetter hm

theorem MemoryCanonical.shift : MemoryCanonical s.shift := hm.frame

theorem MemoryCanonical.ecc {x : Ecc} : MemoryCanonical (s.ecc x) := by
  unfold State.ecc
  dsimp only
  split
  · exact hm.frame
  · exact hm.softDie
  · exact hm.softDie
  · exact hm.modCtx
  · exact hm.modElem
  · exact hm.frame
  · exact hm.frame
  · exact hm.setPort
  · exact hm.modShard
  · exact hm.modChan
  · exact hm.setPort

theorem MemoryCanonical.natureGo : MemoryCanonical s.natureGo := hm.frame.foldl fun _ _ h1 => h1.ecc

theorem MemoryCanonical.pendAll : MemoryCanonical s.pendAll := hm.foldl fun _ _ h1 => h1.pendGo

theorem MemoryCanonical.heldGo {rid : Nat} : MemoryCanonical (s.heldGo rid) := by
  unfold State.heldGo
  split
  · exact .ite hm.sendHeld hm
  · exact hm

theorem MemoryCanonical.polls : MemoryCanonical s.polls :=
  ((hm.foldl fun _ _ h1 => h1.freezeDue).letterGo.fwdTrim.invalRun.peerRun.outRun.deferRun.portsRun.wakeAll.foldl fun _ _ h1 => h1.loadGo.heldGo).tripGo.foldl fun _ _ h1 => h1.ctlPoll.doubleGo

theorem MemoryCanonical.work {x : EngineWork} : MemoryCanonical (s.work x) := by
  unfold State.work
  split
  · exact .ite hm.copyGo.netGo hm
  · exact hm.queryGo
  · exact hm.fillHead
  · exact hm.peerRun

theorem MemoryCanonical.engines : MemoryCanonical s.engines := hm.foldl fun _ _ h1 => h1.work

theorem MemoryCanonical.boundary_ : MemoryCanonical s.boundary_ := by
  unfold State.boundary_
  extract_lets s₁ s₂ s₃
  have h₁ : MemoryCanonical s₁ := (hm.foldl fun _ _ h => h.closeGo).foldl fun _ _ h => h.stallGo
  have h₂ : MemoryCanonical s₂ := h₁.frame.shift
  have h₃ : MemoryCanonical s₃ := h₂.natureGo.pendAll.landAll.polls
  clear_value s₃
  exact h₃.frame

theorem MemoryCanonical.frozenGo : MemoryCanonical s.frozenGo := by
  unfold State.frozenGo
  split
  · exact hm
  · split
    · exact hm.frame
    · exact hm

theorem MemoryCanonical.halfGo : MemoryCanonical s.halfGo := by
  unfold State.halfGo
  exact .frame hm.engines

theorem MemoryCanonical.turn : MemoryCanonical s.turn := .ite hm.halfGo (.ite hm.frozenGo hm.boundary_)

/-! Every instruction and every step -/

theorem MemoryCanonical.exec : ∀ i, CanonicalOut (Machine.exec i s)
  | .add _ => hm.execAdd
  | .addImm _ => hm.execAddImm
  | .sub _ => hm.execSub
  | .subImm _ => hm.execSubImm
  | .mul _ => hm.execMul
  | .mulImm _ => hm.execMulImm
  | .mulh _ => hm.execMulh
  | .mulhImm _ => hm.execMulhImm
  | .mulhN _ => hm.execMulhN
  | .mulhNImm _ => hm.execMulhNImm
  | .mulhSn _ => hm.execMulhSn
  | .mulhSnImm _ => hm.execMulhSnImm
  | .div _ => hm.execDiv
  | .divImm _ => hm.execDivImm
  | .divN _ => hm.execDivN
  | .divNImm _ => hm.execDivNImm
  | .rem _ => hm.execRem
  | .remImm _ => hm.execRemImm
  | .remN _ => hm.execRemN
  | .remNImm _ => hm.execRemNImm
  | .and_ _ => hm.execAnd_
  | .andImm _ => hm.execAndImm
  | .or_ _ => hm.execOr_
  | .orImm _ => hm.execOrImm
  | .xor _ => hm.execXor
  | .xorImm _ => hm.execXorImm
  | .andn _ => hm.execAndn
  | .andnImm _ => hm.execAndnImm
  | .shl _ => hm.execShl
  | .shlImm _ => hm.execShlImm
  | .shr _ => hm.execShr
  | .shrImm _ => hm.execShrImm
  | .sra _ => hm.execSra
  | .sraImm _ => hm.execSraImm
  | .rot _ => hm.execRot
  | .rotImm _ => hm.execRotImm
  | .min _ => hm.execMin
  | .minImm _ => hm.execMinImm
  | .minN _ => hm.execMinN
  | .minNImm _ => hm.execMinNImm
  | .max _ => hm.execMax
  | .maxImm _ => hm.execMaxImm
  | .maxN _ => hm.execMaxN
  | .maxNImm _ => hm.execMaxNImm
  | .cmpEq _ => hm.execCmpEq
  | .cmpEqImm _ => hm.execCmpEqImm
  | .cmpNe _ => hm.execCmpNe
  | .cmpNeImm _ => hm.execCmpNeImm
  | .cmpLt _ => hm.execCmpLt
  | .cmpLtImm _ => hm.execCmpLtImm
  | .cmpLe _ => hm.execCmpLe
  | .cmpLeImm _ => hm.execCmpLeImm
  | .cmpLtN _ => hm.execCmpLtN
  | .cmpLtNImm _ => hm.execCmpLtNImm
  | .cmpLeN _ => hm.execCmpLeN
  | .cmpLeNImm _ => hm.execCmpLeNImm
  | .sel _ => hm.execSel
  | .clz _ => hm.execClz
  | .ctz _ => hm.execCtz
  | .popc _ => hm.execPopc
  | .extI8 _ => hm.execExtI8
  | .extN8 _ => hm.execExtN8
  | .extI16 _ => hm.execExtI16
  | .extN16 _ => hm.execExtN16
  | .extI32 _ => hm.execExtI32
  | .extN32 _ => hm.execExtN32
  | .bfx _ => hm.execBfx
  | .bfxI _ => hm.execBfxI
  | .bfi _ => hm.execBfi
  | .li _ => hm.execLi
  | .lih _ => hm.execLih
  | .mov _ => hm.execMov
  | .kand _ => hm.execKand
  | .kor _ => hm.execKor
  | .kxor _ => hm.execKxor
  | .kandn _ => hm.execKandn
  | .knot _ => hm.execKnot
  | .kmovKToS _ => hm.execKmovKToS
  | .kmovSToK _ => hm.execKmovSToK
  | .kpopc _ => hm.execKpopc
  | .kfirst _ => hm.execKfirst
  | .cnarrow _ => hm.execCnarrow
  | .cperm _ => hm.execCperm
  | .cget _ => hm.execCget
  | .cld _ => hm.execCld
  | .cst _ => hm.execCst
  | .loop _ => hm.execLoop
  | .lmask _ => hm.execLmask
  | .end_ => hm.execEnd_
  | .nop => hm.execNop
  | .trap _ => hm.execTrap
  | .smovRead _ => hm.execSmovRead
  | .smovWrite _ => hm.execSmovWrite
  | .ctxctlFreeze _ => hm.execCtxctlFreeze
  | .ctxctlResume _ => hm.execCtxctlResume
  | .ctxctlKill _ => hm.execCtxctlKill
  | .ctxctlRestart _ => hm.execCtxctlRestart
  | .markRound _ => hm.execMarkRound
  | .markCheckpoint _ => hm.execMarkCheckpoint
  | .markCut _ => hm.execMarkCut
  | .tsamp _ => hm.execTsamp
  | .brkpt _ => hm.execBrkpt
  | .brkptArmed _ => hm.execBrkptArmed
  | .tlbinv _ => hm.execTlbinv
  | .post _ => hm.execPost
  | .vadd _ => hm.execVadd
  | .vsub _ => hm.execVsub
  | .vmul _ => hm.execVmul
  | .vfma _ => hm.execVfma
  | .vmin _ => hm.execVmin
  | .vmax _ => hm.execVmax
  | .vabs _ => hm.execVabs
  | .vneg _ => hm.execVneg
  | .vdiv _ => hm.execVdiv
  | .vsqrt _ => hm.execVsqrt
  | .vexp2 _ => hm.execVexp2
  | .vlog2 _ => hm.execVlog2
  | .vcmpEq _ => hm.execVcmpEq
  | .vcmpNe _ => hm.execVcmpNe
  | .vcmpLt _ => hm.execVcmpLt
  | .vcmpLe _ => hm.execVcmpLe
  | .vcmpUn _ => hm.execVcmpUn
  | .vsel _ => hm.execVsel
  | .vand _ => hm.execVand
  | .vor _ => hm.execVor
  | .vxor _ => hm.execVxor
  | .vandn _ => hm.execVandn
  | .vshl _ => hm.execVshl
  | .vshr _ => hm.execVshr
  | .vsra _ => hm.execVsra
  | .vcvt _ => hm.execVcvt
  | .vcvtChannel _ => hm.execVcvtChannel
  | .vrnd _ => hm.execVrnd
  | .vscale _ => hm.execVscale
  | .vpack _ => hm.execVpack
  | .vunpack _ => hm.execVunpack
  | .vbsc _ => hm.execVbsc
  | .vbsx _ => hm.execVbsx
  | .vhad _ => hm.execVhad
  | .vredAdd _ => hm.execVredAdd
  | .vredMin _ => hm.execVredMin
  | .vredMax _ => hm.execVredMax
  | .vperm _ => hm.execVperm
  | .vbcst _ => hm.execVbcst
  | .vins _ => hm.execVins
  | .vext _ => hm.execVext
  | .vsort _ => hm.execVsort
  | .vhist _ => hm.execVhist
  | .vsdc _ => hm.execVsdc
  | .vsdcChannel _ => hm.execVsdcChannel
  | .vsdadd _ => hm.execVsdadd
  | .vsdcmp _ => hm.execVsdcmp
  | .vclass _ => hm.execVclass
  | .vdot _ => hm.execVdot
  | .mbld _ => hm.execMbld
  | .mbldDiag _ => hm.execMbldDiag
  | .mbsp _ => hm.execMbsp
  | .bSwap => hm.execBSwap
  | .mrow _ => hm.execMrow
  | .mroww _ => hm.execMroww
  | .mrowwSp _ => hm.execMrowwSp
  | .matrixRowFiring => hm.execMatrixRowFiring
  | .mzero _ => hm.execMzero
  | .mout _ => hm.execMout
  | .mscaleWindow _ => hm.execMscaleWindow
  | .mscaleCode _ => hm.execMscaleCode
  | .mbias _ => hm.execMbias
  | .mrd _ => hm.execMrd
  | .mwr _ => hm.execMwr
  | .mslot _ => hm.execMslot
  | .wfill _ => hm.execWfill
  | .wread _ => hm.execWread
  | .wupd _ => hm.execWupd
  | .wshrink _ => hm.execWshrink
  | .wstat _ => hm.execWstat
  | .wsave _ => hm.execWsave
  | .wrest _ => hm.execWrest
  | .windowWaiterRelease => hm.execWindowWaiterRelease
  | .recv _ => hm.execRecv
  | .peek _ => hm.execPeek
  | .send _ => hm.execSend
  | .vcset _ => hm.execVcset
  | .barInit _ => hm.execBarInit
  | .barArrive _ => hm.execBarArrive
  | .barWait _ => hm.execBarWait
  | .barAw _ => hm.execBarAw
  | .barRemote _ => hm.execBarRemote
  | .remoteArrival => hm.execRemoteArrival
  | .mld _ => hm.execMld
  | .mst _ => hm.execMst
  | .mwrt _ => hm.execMwrt
  | .mreq _ => hm.execMreq
  | .wreq _ => hm.execWreq
  | .fenceRegion _ => hm.execFenceRegion
  | .fenceDevice _ => hm.execFenceDevice
  | .fenceSystem _ => hm.execFenceSystem
  | .ctok _ => hm.execCtok
  | .cpy _ => hm.execCpy
  | .cpyq _ => hm.execCpyq
  | .gth _ => hm.execGth
  | .sct _ => hm.execSct
  | .copyCompletion => hm.execCopyCompletion
  | .aadd _ => hm.execAadd
  | .aaddF _ => hm.execAaddF
  | .amin _ => hm.execAmin
  | .aminF _ => hm.execAminF
  | .amax _ => hm.execAmax
  | .amaxF _ => hm.execAmaxF
  | .aand _ => hm.execAand
  | .aandF _ => hm.execAandF
  | .aor _ => hm.execAor
  | .aorF _ => hm.execAorF
  | .axor _ => hm.execAxor
  | .axorF _ => hm.execAxorF
  | .axchg _ => hm.execAxchg
  | .axchgF _ => hm.execAxchgF
  | .acas _ => hm.execAcas
  | .acasQ _ => hm.execAcasQ
  | .sparseUpdateApply => hm.execSparseUpdateApply
  | .plq _ => hm.execPlq
  | .plterm _ => hm.execPlterm
  | .plvec _ => hm.execPlvec
  | .plfuseLin _ => hm.execPlfuseLin
  | .plfuseRrf _ => hm.execPlfuseRrf
  | .plrunOr _ => hm.execPlrunOr
  | .plrunAnd _ => hm.execPlrunAnd
  | .plrunWand _ => hm.execPlrunWand
  | .plabort _ => hm.execPlabort
  | .plresume _ => hm.execPlresume
  | .chunkDecode => hm.execChunkDecode
  | .chunkCommit => hm.execChunkCommit
  | .queryRunEnd => hm.execQueryRunEnd
  | .pins _ => hm.execPins
  | .ptake _ => hm.execPtake
  | .ptry _ => hm.execPtry
  | .pstat _ => hm.execPstat
  | .pcfg _ => hm.execPcfg
  | .pcfgApply => hm.execPcfgApply
  | .poolInsertAccept => hm.execPoolInsertAccept
  | .poolTakeTest => hm.execPoolTakeTest
  | .migrationAnswer => hm.execMigrationAnswer
  | .migrationArrival => hm.execMigrationArrival
  | .topNotesSend => hm.execTopNotesSend
  | .topNotesArrival => hm.execTopNotesArrival
  | .remoteTake => hm.execRemoteTake
  | .agreementWave => hm.execAgreementWave
  | .emptyClearing => hm.execEmptyClearing
  | .xfill _ => hm.execXfill
  | .xred _ => hm.execXred
  | .xbar _ => hm.execXbar
  | .peerBeatArrival => hm.execPeerBeatArrival
  | .peerRetransmit => hm.execPeerRetransmit
  | .engineAccept => hm.execEngineAccept
  | .engineReply => hm.execEngineReply
  | .issueGrant => hm.execIssueGrant
  | .arbWeightStep => hm.execArbWeightStep
  | .taskInputsEnded => hm.execTaskInputsEnded
  | .fillAccept => hm.execFillAccept
  | .arrivalToken => hm.execArrivalToken
  | .controlTokenPass => hm.execControlTokenPass
  | .controlBeat => hm.execControlBeat
  | .addressGeneratorBeat => hm.execAddressGeneratorBeat
  | .pass => hm.execPass
  | .fork => hm.execFork
  | .steer => hm.execSteer
  | .merge => hm.execMerge
  | .amerge => hm.execAmerge
  | .carry => hm.execCarry
  | .join => hm.execJoin
  | .gate => hm.execGate
  | .const => hm.execConst
  | .sink => hm.execSink
  | .count => hm.execCount
  | .select => hm.execSelect
  | .sequentialController => hm.execSequentialController
  | .pipelinedController => hm.execPipelinedController
  | .streamingController => hm.execStreamingController
  | .contextSwitch => hm.execContextSwitch
  | .contextFetchDone => hm.execContextFetchDone
  | .contextStoreAdd => hm.execContextStoreAdd
  | .launchPortWrite => hm.execLaunchPortWrite
  | .launch => hm.execLaunch
  | .token => hm.execToken
  | .cancel => hm.execCancel
  | .close => hm.execClose
  | .release => hm.execRelease
  | .badKind => hm.execBadKind
  | .blockScheduler => hm.execBlockScheduler
  | .ageStepExpiry => hm.execAgeStepExpiry
  | .residencyEnd => hm.execResidencyEnd
  | .tokenForward => hm.execTokenForward
  | .launchDrained => hm.execLaunchDrained
  | .eventRecordFill => hm.execEventRecordFill
  | .eventShrink => hm.execEventShrink
  | .roundMarker => hm.execRoundMarker
  | .checkpointMarker => hm.execCheckpointMarker
  | .drainComplete => hm.execDrainComplete
  | .saveComplete => hm.execSaveComplete
  | .lateData => hm.execLateData
  | .restore => hm.execRestore
  | .stallWatchDeclare => hm.execStallWatchDeclare
  | .trapLetterDelivery => hm.execTrapLetterDelivery
  | .pageWalkDone => hm.execPageWalkDone
  | .deadLetterResolve => hm.execDeadLetterResolve
  | .spillWriteRetry => hm.execSpillWriteRetry
  | .migration => hm.execMigration
  | .faultHead => hm.execFaultHead
  | .faultAnswer => hm.execFaultAnswer
  | .invalGo => hm.execInvalGo
  | .linkRetry => hm.execLinkRetry
  | .linkDown => hm.execLinkDown
  | .regionKill => hm.execRegionKill
  | .regionStop => hm.execRegionStop
  | .stopRelease => hm.execStopRelease
  | .linkBrk => hm.execLinkBrk
  | .captureStart => hm.execCaptureStart
  | .captureStop => hm.execCaptureStop
  | .devReset => hm.execDevReset
  | .powerOn => hm.execPowerOn
  | .conventionalReset => hm.execConventionalReset
  | .bootStageComplete => hm.execBootStageComplete
  | .fwLoad => hm.execFwLoad
  | .powerRun => hm.execPowerRun
  | .powerIdle => hm.execPowerIdle
  | .powerPark => hm.execPowerPark
  | .powerTransitionDone => hm.execPowerTransitionDone
  | .thermalTrip => hm.execThermalTrip
  | .lcAdvance => hm.execLcAdvance
  | .revokeGo => hm.execRevokeGo
  | .attestGo => hm.execAttestGo
  | .bar0RegisterWrite => hm.execBar0RegisterWrite
  | .idcode => hm.execIdcode
  | .devid => hm.execDevid
  | .debugFreeze => hm.execDebugFreeze
  | .freezePin => hm.execFreezePin
  | .thaw => hm.execThaw
  | .debugSelect => hm.execDebugSelect
  | .debugRead => hm.execDebugRead
  | .debugToken => hm.execDebugToken
  | .bypass => hm.execBypass
  | .accessComplete => hm.execAccessComplete
  | .threadTokenAccepted => hm.execThreadTokenAccepted
  | .cumulativeAcknowledgement => hm.execCumulativeAcknowledgement
  | .ethernetLinkChange => hm.execEthernetLinkChange
  | .powerRemoval => hm.execPowerRemoval
  | .launchErrClear => hm.execLaunchErrClear

theorem MemoryCanonical.step : CanonicalOut (Machine.step s) := by
  unfold Machine.step
  split
  · split
    next heq => exact .next (hm.fetch.of_inl heq)
    next heq => exact MemoryCanonical.exec (hm.fetch.of_inr heq) _
  · split
    · exact MemoryCanonical.exec hm.frame _
    · exact .next hm.turn

end

/-- Settles O6: every function that a step calls keeps the canonical form, by one lemma each. -/
theorem stepKeepsMemoryCanonical : Obligations.StepKeepsMemoryCanonical :=
  fun _ _ hm => hm.step _

end Sys2Proof.Safety
end

section
/-! SUPPORT. Bring-up, the power commands, and the parking of dies. -/

namespace Sys2Proof.Safety

open Sys2Proof.Machine Sys2Proof.Laws

variable {s : State}

/-! Bring-up (R5, R366, R378) -/

theorem fusesOnly_bringUp (s : State) : FusesOnly s s.bringUp := rfl

theorem execFwLoad_of_one {off : Nat} (harg : s.arg = .reg off 1) : execFwLoad s = .next { s with
    bar0 := { s.bar0 with fwLoad := 1 }, sec := if s.sec.awaitFw then { s.sec with bootStage := 7, awaitFw := false } else s.sec } := by
  simp only [execFwLoad, harg, ne_eq, not_true_eq_false, ↓reduceIte]
  split <;> rfl

theorem firmware_eq_some_iff (h : BitVec 384) (v : Nat) : s.firmware = some (h, v) ↔ FirmwareGood s h v := by
  unfold State.firmware FirmwareGood
  extract_lets bs digest lifeOk
  generalize Config.fwParse bs = p
  obtain ⟨sig, key, ver⟩ := p
  have life : lifeOk = true ↔ s.sec.life = .provisioned ∨ s.sec.life = .field := by
    unfold lifeOk
    cases s.sec.life <;> simp
  simp only [Option.ite_none_right_eq_some, Bool.and_eq_true, life, decide_eq_true_eq, beq_iff_eq, Option.some.injEq, Prod.mk.injEq]
  constructor
  · rintro ⟨⟨⟨⟨hsig, hkey⟩, hver⟩, hlife⟩, rfl, rfl⟩
    exact ⟨sig, key, ⟨rfl, rfl, rfl⟩, rfl, hsig, hkey, hver, hlife⟩
  · rintro ⟨_, _, ⟨rfl, rfl, rfl⟩, rfl, hsig, hkey, hver, hlife⟩
    exact ⟨⟨⟨⟨hsig, hkey⟩, hver⟩, hlife⟩, rfl, rfl⟩

theorem firmware_eq_none (hbad : ∀ h v, ¬ FirmwareGood s h v) : s.firmware = none :=
  Option.eq_none_iff_forall_ne_some.2 fun p hp => hbad p.1 p.2 ((firmware_eq_some_iff p.1 p.2).1 hp)

section

variable {ok : Bool} (harg : s.arg = .bool ok)

include harg

theorem execBootStageComplete_idle
    (hidle : s.sec.bootStage.toNat = 0 ∨ s.sec.bootErr ≠ 0 ∨ s.sec.ready = true ∨ s.sec.awaitFw = true) :
    execBootStageComplete s = .next s := by
  simp only [execBootStageComplete, harg]
  exact if_pos (by simpa [or_assoc] using hidle)

variable (herr : s.sec.bootErr = 0) (hready : s.sec.ready = false) (hawait : s.sec.awaitFw = false)

include herr hready hawait

theorem execBootStageComplete_failed (h1 : 1 ≤ s.sec.bootStage.toNat) (h6 : s.sec.bootStage.toNat ≤ 6) (hok : ok = false) :
    execBootStageComplete s = .next s.bootFail := by
  have h0 : s.sec.bootStage.toNat ≠ 0 := by omega
  have h7 : s.sec.bootStage.toNat ≠ 7 := by omega
  simp [execBootStageComplete, harg, herr, hready, hawait, h0, h7, hok]

theorem execBootStageComplete_ended (h1 : 1 ≤ s.sec.bootStage.toNat) (h5 : s.sec.bootStage.toNat ≤ 5) (hok : ok = true) :
    execBootStageComplete s = .next { s with sec := { s.sec with bootStage := s.sec.bootStage + 1 } } := by
  have h0 : s.sec.bootStage.toNat ≠ 0 := by omega
  have h6 : s.sec.bootStage.toNat ≠ 6 := by omega
  have h7 : s.sec.bootStage.toNat ≠ 7 := by omega
  simp [execBootStageComplete, harg, herr, hready, hawait, h0, h6, h7, hok]

theorem execBootStageComplete_six (h6 : s.sec.bootStage.toNat = 6) (hok : ok = true) :
    execBootStageComplete s =
      .next (if s.bar0.fwLoad = 1 then s.zeroed.stage7 else { s.zeroed with sec := { s.sec with awaitFw := true } }) := by
  simp [execBootStageComplete, harg, herr, hready, hawait, h6, hok]

theorem execBootStageComplete_accepted (h7 : s.sec.bootStage.toNat = 7) {h : BitVec 384} {v : Nat} (hfw : s.firmware = some (h, v)) :
    execBootStageComplete s = .next { s with
      sec := { s.sec with fwOk := true, ready := true, measurement := h, fwVersion := v },
      bar0 := { s.bar0 with fwLoad := 0 }, msix := 3 :: s.msix } := by
  simp [execBootStageComplete, harg, herr, hready, hawait, h7, hfw, State.raise]

theorem execBootStageComplete_rejected (h7 : s.sec.bootStage.toNat = 7) (hfw : s.firmware = none) :
    execBootStageComplete s = .next s.bootFail := by
  simp [execBootStageComplete, harg, herr, hready, hawait, h7, hfw]

end

/-! Power commands (R374, R375) -/

theorem occupied_iff (d : Nat) : s.occupied d = true ↔ Occupied s d := by
  simp [State.occupied, State.holders, Occupied, Option.isSome_iff_ne_none]

theorem lt_hottest_iff (n : Nat) : n < s.hottest ↔ ∃ j : Fin 8, n < (s.temps.get j).toNat := by
  have fold (l : List Byte) (m : Nat) : n < l.foldl (fun m t => max m t.toNat) m ↔ n < m ∨ ∃ t ∈ l, n < t.toNat := by
    induction l generalizing m with
    | nil => simp
    | cons t l ih => simp [ih, or_assoc]
  have get (j : Fin 8) : s.temps.get j ∈ s.temps.toList := by
    rw [Vector.mem_toList_iff]
    exact Vector.getElem_mem j.isLt
  rw [State.hottest, fold]
  constructor
  · rintro (h | ⟨t, ht, hn⟩)
    · omega
    · obtain ⟨i, hi, rfl⟩ := Vector.mem_iff_getElem.1 (Vector.mem_toList_iff.1 ht)
      exact ⟨⟨i, hi⟩, hn⟩
  · rintro ⟨j, hn⟩
    exact .inr ⟨_, get j, hn⟩

theorem powerCode_toNat (w : Word) : (w.extractLsb' 4 2).toNat = w.toNat / 2 ^ 4 % 4 := by
  rw [BitVec.extractLsb'_toNat, Nat.shiftRight_eq_div_pow]

theorem powerDie_eq {w : Word} {d : Fin 8} (hd : d.val = w.toNat % 8) : d = ⟨(w.extractLsb' 0 3).toNat, BitVec.isLt _⟩ := by
  ext
  simp [hd, BitVec.extractLsb'_toNat]

theorem powerRow_eq {off : Nat} {w : Word} (harg : s.arg = .reg off w) (codes : List Nat) :
    powerRow codes s = if codes.contains (w.toNat / 2 ^ 4 % 4) then .next (s.powerWrite w) else .next s := by
  rw [powerRow, harg, ← powerCode_toNat]

/-- The state in which a command that passes its checks is under way. -/
def powerUnderWay (s : State) (d : Fin 8) (goal : Power) (sr : Bool) : State :=
  { s with
    powerCmd := some { die := d.val, goal := goal, sr := sr,
                       due := s.cycle + max (transitTime (s.power.get d) goal) (if sr ≠ s.selfRefresh.getLsbD d.val then 27000 else 0) }
    powerErr := 0
    bar0 := if goal = .run then { s.bar0 with tripped := false } else s.bar0 }

theorem transitTime_eq (a b : Power) : transitTime a b = transit a b := by
  cases a <;> cases b <;> rfl

theorem powerGoes_of_exec {i : Instr} {d : Fin 8} {goal : Power} {sr : Bool} (h : exec i s = .next (powerUnderWay s d goal sr)) :
    PowerGoes i s d goal sr :=
  ⟨_, _, h, rfl, rfl, rfl, rfl, by rw [transitTime_eq, ite_not], rfl⟩

theorem powerWrite_trip {w : Word} (htrip : s.tripAt = some s.cycle) : s.powerWrite w = s :=
  if_pos htrip

theorem powerWrite_pending {w : Word} (htrip : s.tripAt ≠ some s.cycle) (hpend : s.powerCmd ≠ none) :
    s.powerWrite w = { s with powerErr := 1 } := by
  unfold State.powerWrite
  rw [if_neg htrip, if_pos (Option.isSome_iff_ne_none.2 hpend)]
  rfl

section

variable {w : Word} {d : Fin 8} (htrip : s.tripAt ≠ some s.cycle) (hpend : s.powerCmd = none)

include htrip hpend

theorem powerWrite_reserved (hcode : w.toNat / 2 ^ 4 % 4 = 3) : s.powerWrite w = { s with powerErr := 3 } := by
  rw [← powerCode_toNat] at hcode
  simp only [State.powerWrite, htrip, hpend, hcode, ↓reduceIte, Option.isSome_none, Bool.false_eq_true, PERR_BAD]

variable (hd : d.val = w.toNat % 8)

include hd

theorem powerWrite_run (hcode : w.toNat / 2 ^ 4 % 4 = 0) : s.powerWrite w =
    if w.getLsbD 8 then { s with powerErr := 3 }
    else if s.bar0.tripped && 95 < s.hottest then { s with powerErr := 2 } else powerUnderWay s d .run (w.getLsbD 8) := by
  obtain rfl := powerDie_eq hd
  rw [← powerCode_toNat] at hcode
  simp only [State.powerWrite, htrip, hpend, hcode, ↓reduceIte, Option.isSome_none, Bool.false_eq_true]
  rfl

theorem powerWrite_idle (hcode : w.toNat / 2 ^ 4 % 4 = 1) : s.powerWrite w =
    if s.occupied d.val then { s with powerErr := 1 }
    else if s.power.get d = .park then { s with powerErr := 3 } else powerUnderWay s d .idle (w.getLsbD 8) := by
  obtain rfl := powerDie_eq hd
  rw [← powerCode_toNat] at hcode
  simp only [State.powerWrite, htrip, hpend, hcode, ↓reduceIte, Option.isSome_none, Bool.false_eq_true]
  rfl

theorem powerWrite_park (hcode : w.toNat / 2 ^ 4 % 4 = 2) : s.powerWrite w =
    if s.occupied d.val then { s with powerErr := 1 } else powerUnderWay s d .park (w.getLsbD 8) := by
  obtain rfl := powerDie_eq hd
  rw [← powerCode_toNat] at hcode
  simp only [State.powerWrite, htrip, hpend, hcode, ↓reduceIte, Option.isSome_none, Bool.false_eq_true]
  rfl

end

/-- The row of POWER_CMD that acts on a STATE code. -/
def powerInstr (code : Nat) : Instr := if code = 0 then .powerRun else if code = 1 then .powerIdle else .powerPark

section

variable {off : Nat} {w : Word} (harg : s.arg = .reg off w)

include harg

theorem exec_powerInstr : exec (powerInstr (w.toNat / 2 ^ 4 % 4)) s = .next (s.powerWrite w) := by
  have hcode : w.toNat / 2 ^ 4 % 4 < 4 := Nat.mod_lt _ (by decide)
  generalize hc : w.toNat / 2 ^ 4 % 4 = code at hcode
  have row (codes : List Nat) (h : codes.contains code = true) : powerRow codes s = .next (s.powerWrite w) := by
    rw [powerRow_eq harg, hc, if_pos h]
  match code with
  | 0 => exact row [0] rfl
  | 1 => exact row [1] rfl
  | 2 => exact row [2, 3] rfl
  | 3 => exact row [2, 3] rfl

theorem powerRefused_of_powerWrite {e : BitVec 3} (h : s.powerWrite w = { s with powerErr := e }) :
    PowerRefused (powerInstr (w.toNat / 2 ^ 4 % 4)) s e :=
  (exec_powerInstr harg).trans (congrArg _ h)

theorem powerGoes_of_powerWrite {d : Fin 8} {goal : Power} {sr : Bool} (h : s.powerWrite w = powerUnderWay s d goal sr) :
    PowerGoes (powerInstr (w.toNat / 2 ^ 4 % 4)) s d goal sr :=
  powerGoes_of_exec ((exec_powerInstr harg).trans (congrArg _ h))

theorem powerRow_of_other {codes : List Nat} (h : w.toNat / 2 ^ 4 % 4 ∉ codes) : powerRow codes s = .next s := by
  rw [powerRow_eq harg, if_neg (by simpa using h)]

end

/-! The end of a transition, and the trip (R375-R377) -/

theorem SameBytes.trans {s t u : State} (h1 : SameBytes s t) (h2 : SameBytes t u) : SameBytes s u where
  gddr a := (h2.gddr a).trans (h1.gddr a)
  bulk a := (h2.bulk a).trans (h1.bulk a)
  host a := (h2.host a).trans (h1.host a)
  store e a := (h2.store e a).trans (h1.store e a)
  gddrTags := h2.gddrTags.trans h1.gddrTags
  bulkTags := h2.bulkTags.trans h1.bulkTags

/-- What the parking of dies leaves as it was: the bytes, and what the host reads. -/
structure KeepsOutside (s t : State) : Prop where
  bytes : SameBytes s t
  ctxs : t.ctxs = s.ctxs
  msix : t.msix = s.msix
  bar0 : t.bar0 = s.bar0
  temps : t.temps = s.temps
  tripAt : t.tripAt = s.tripAt
  power : t.power = s.power
  selfRefresh : t.selfRefresh = s.selfRefresh
  powerCmd : t.powerCmd = s.powerCmd

theorem keepsOutside_refl (s : State) : KeepsOutside s s :=
  ⟨sameBytes_refl s, rfl, rfl, rfl, rfl, rfl, rfl, rfl, rfl⟩

theorem keepsOutside_parkDie (s : State) (d : Nat) : KeepsOutside s (s.parkDie d) :=
  ⟨sameBytes_of rfl rfl rfl rfl rfl rfl, rfl, rfl, rfl, rfl, rfl, rfl, rfl, rfl⟩

theorem KeepsOutside.trans {s t u : State} (h1 : KeepsOutside s t) (h2 : KeepsOutside t u) : KeepsOutside s u where
  bytes := h1.bytes.trans h2.bytes
  ctxs := h2.ctxs.trans h1.ctxs
  msix := h2.msix.trans h1.msix
  bar0 := h2.bar0.trans h1.bar0
  temps := h2.temps.trans h1.temps
  tripAt := h2.tripAt.trans h1.tripAt
  power := h2.power.trans h1.power
  selfRefresh := h2.selfRefresh.trans h1.selfRefresh
  powerCmd := h2.powerCmd.trans h1.powerCmd

theorem keepsOutside_parkDies (s : State) (l : List Nat) : KeepsOutside s (l.foldl State.parkDie s) := by
  induction l generalizing s with
  | nil => exact keepsOutside_refl s
  | cons d l ih => exact (keepsOutside_parkDie s d).trans (ih _)

theorem get_replicate_park (j : Fin 8) : (Vector.replicate 8 Power.park).get j = .park := by
  simp [Vector.get_eq_getElem]

theorem getLsbD_setBit (r : BitVec 8) (b : Bool) (d j : Fin 8) :
    (if b then r ||| BitVec.twoPow 8 d.val else r &&& ~~~BitVec.twoPow 8 d.val).getLsbD j.val = if j = d then b else r.getLsbD j.val := by
  cases b <;> by_cases h : j = d <;> simp [h, Fin.val_inj]

theorem execPowerTransitionDone_idle (hpend : s.powerCmd = none) : execPowerTransitionDone s = .next s := by
  rw [execPowerTransitionDone, hpend]

section

variable {c : PowerCmd} (hpend : s.powerCmd = some c)

include hpend

theorem execPowerTransitionDone_early (hdue : s.cycle < c.due) : execPowerTransitionDone s = .next s := by
  rw [execPowerTransitionDone, hpend]
  exact if_pos hdue

theorem execPowerTransitionDone_due {d : Fin 8} (hd : c.die = d.val) (hdue : c.due ≤ s.cycle) :
    ∃ u, KeepsOutside s u ∧ execPowerTransitionDone s = .next (State.raise { u with
      power := u.power.set d.val c.goal, powerCmd := none,
      selfRefresh := if c.sr then u.selfRefresh ||| BitVec.twoPow 8 d.val else u.selfRefresh &&& ~~~BitVec.twoPow 8 d.val } 2) := by
  obtain ⟨die, goal, sr, due⟩ := c
  obtain rfl : die = d.val := hd
  refine ⟨if goal = .park then s.parkDie d.val else s, ?_, ?_⟩
  · split
    · exact keepsOutside_parkDie s d.val
    · exact keepsOutside_refl s
  · rw [execPowerTransitionDone, hpend]
    simp only [Nat.not_lt.2 hdue, d.isLt, ↓reduceIte, ↓reduceDIte]

end

theorem execThermalTrip_below {d : Nat} {v : Byte} (harg : s.arg = .temp d v) (hv : v.toNat < 105) :
    execThermalTrip s = .next { s with temps := if h : d < 8 then s.temps.set d v else s.temps } := by
  simp only [execThermalTrip, harg, hv, ↓reduceIte]

/-- The state of a trip of die d at v degrees with no launch left, before the registers of the dies' fabric go. -/
def afterTrip (s : State) (d : Fin 8) (v : Byte) : State :=
  { s with temps := s.temps.set d.val v, bar0 := { s.bar0 with tripped := true, tripDie := BitVec.ofNat 3 d.val }, powerCmd := none,
           tripWait := none, tripAt := some s.cycle, power := Vector.replicate 8 .park, selfRefresh := 0xFF }

theorem execThermalTrip_at {d : Fin 8} {v : Byte} (harg : s.arg = .temp d.val v) (hv : 105 ≤ v.toNat) (hl : s.launches = []) :
    execThermalTrip s = .next (((List.range 8).foldl State.parkDie (afterTrip s d v)).raise 2) := by
  simp only [execThermalTrip, harg, Nat.not_lt.2 hv, d.isLt, hl, ↓reduceIte, ↓reduceDIte, List.filter_nil, List.map_nil, List.foldl_nil,
    State.tripGo, List.any_nil, Bool.false_eq_true, Option.isSome_none, afterTrip]

/-- Settles O59: each step of bring-up, each power command and each trip by the lemma that says what it answers. -/
theorem bringUpPowerAndTheTrip : Obligations.BringUpPowerAndTheTrip := by
  refine ⟨fun s => ⟨s.bringUp, fusesOnly_bringUp s, rfl, rfl, rfl, fun off w harg => ⟨fun hw => ?_, fun hw => ?_⟩⟩,
    fun s => ⟨s.fusesOnly, rfl, rfl, rfl⟩, fun s off w harg => ⟨fun hw => ?_, fun hw => ?_⟩, fun s ok harg => ?_, ?_, ?_, ?_⟩
  · simp only [exec, execDevReset, harg, hw, ↓reduceIte]
  · simp only [exec, execDevReset, harg, hw, ↓reduceIte]
  · subst hw
    exact execFwLoad_of_one harg
  · simp only [exec, execFwLoad, harg, ne_eq, hw, not_false_eq_true, ↓reduceIte]
  · refine ⟨execBootStageComplete_idle harg, fun herr hready hawait =>
      ⟨fun h1 h6 hok => ?_, fun h1 h5 hok => ?_, fun h6 hok => ?_, fun h7 => ⟨fun h v hgood => ?_, fun hbad => ?_⟩⟩⟩
    · refine ⟨s.bootFail, execBootStageComplete_failed harg herr hready hawait h1 h6 hok, rfl, ?_, rfl, rfl, rfl⟩
      show (s.sec.bootStage.setWidth 8).toNat = _
      exact BitVec.toNat_setWidth_of_le (by decide)
    · exact ⟨_, execBootStageComplete_ended harg herr hready hawait h1 h5 hok, by simp [BitVec.toNat_add]; omega, rfl⟩
    · refine (execBootStageComplete_six harg herr hready hawait h6 hok).trans ?_
      split <;> rfl
    · exact execBootStageComplete_accepted harg herr hready hawait h7 ((firmware_eq_some_iff h v).2 hgood)
    · refine (execBootStageComplete_rejected harg herr hready hawait h7 (firmware_eq_none hbad)).trans ?_
      have hstage : s.sec.bootStage = 7 := BitVec.eq_of_toNat_eq h7
      rw [State.bootFail, hstage]
      rfl
  · intro s off w d harg hd code sr mine
    refine ⟨fun h => powerRow_of_other harg (mt List.mem_singleton.1 h), fun h => powerRow_of_other harg (mt List.mem_singleton.1 h),
      fun h => powerRow_of_other harg fun hm => ?_, fun htrip => (exec_powerInstr harg).trans (congrArg _ (powerWrite_trip htrip)),
      fun htrip hpend => powerRefused_of_powerWrite harg (powerWrite_pending htrip hpend),
      fun htrip hpend => ⟨fun hcode => ?_, fun hcode => ⟨fun hsr => ?_, fun hsr hhot hdie => ?_, fun hsr hcool => ?_⟩, fun hcode hocc => ?_,
        fun hcode hfree hpark => ?_, fun hcode hfree hpark => ?_, fun hcode hfree => ?_⟩⟩
    · rcases List.mem_pair.1 hm with h2 | h3
      · exact absurd h (by omega)
      · exact absurd h (by omega)
    · exact powerRefused_of_powerWrite harg (powerWrite_reserved htrip hpend hcode)
    · exact powerRefused_of_powerWrite harg ((powerWrite_run htrip hpend hd hcode).trans (if_pos hsr))
    · have hhot : (s.bar0.tripped && decide (95 < s.hottest)) = true := by simp [hhot, (lt_hottest_iff 95).2 hdie]
      exact powerRefused_of_powerWrite harg
        ((powerWrite_run htrip hpend hd hcode).trans ((if_neg (Bool.eq_false_iff.1 hsr)).trans (if_pos hhot)))
    · have hcool : ¬ (s.bar0.tripped && decide (95 < s.hottest)) = true := by
        rcases hcool with hclear | hcool
        · simp [hclear]
        · simp [lt_hottest_iff, hcool]
      rw [← hsr]
      exact powerGoes_of_powerWrite harg
        ((powerWrite_run htrip hpend hd hcode).trans ((if_neg (Bool.eq_false_iff.1 hsr)).trans (if_neg hcool)))
    · have hocc := (occupied_iff d.val).2 hocc
      rcases hcode with h1 | h2
      · exact powerRefused_of_powerWrite harg ((powerWrite_idle htrip hpend hd h1).trans (if_pos hocc))
      · exact powerRefused_of_powerWrite harg ((powerWrite_park htrip hpend hd h2).trans (if_pos hocc))
    · exact powerRefused_of_powerWrite harg
        ((powerWrite_idle htrip hpend hd hcode).trans ((if_neg (mt (occupied_iff d.val).1 hfree)).trans (if_pos hpark)))
    · exact powerGoes_of_powerWrite harg
        ((powerWrite_idle htrip hpend hd hcode).trans ((if_neg (mt (occupied_iff d.val).1 hfree)).trans (if_neg hpark)))
    · exact powerGoes_of_powerWrite harg ((powerWrite_park htrip hpend hd hcode).trans (if_neg (mt (occupied_iff d.val).1 hfree)))
  · intro s
    refine ⟨execPowerTransitionDone_idle, fun c d hpend hd => ⟨execPowerTransitionDone_early hpend, fun hdue => ?_⟩⟩
    obtain ⟨u, hu, he⟩ := execPowerTransitionDone_due hpend hd hdue
    refine ⟨_, he, rfl, ?_, ?_, fun j hj => ⟨?_, ?_⟩, congrArg (2 :: ·) hu.msix, hu.ctxs,
      hu.bytes.trans (sameBytes_of rfl rfl rfl rfl rfl rfl)⟩
    · exact (get_set ..).trans (if_pos rfl)
    · exact (getLsbD_setBit ..).trans (if_pos rfl)
    · exact (get_set ..).trans ((if_neg hj).trans (congrArg (·.get j) hu.power))
    · exact (getLsbD_setBit ..).trans ((if_neg hj).trans (congrArg (·.getLsbD j.val) hu.selfRefresh))
  · intro s d v harg
    refine ⟨fun hv => ⟨_, execThermalTrip_below harg hv, rfl, fun j => ?_⟩, fun hv hd hl => ?_⟩
    · by_cases hd : d < 8
      · simp only [hd, ↓reduceDIte]
        exact (get_set _ ⟨d, hd⟩ ..).trans (if_congr Fin.ext_iff rfl rfl)
      · simp only [hd, ↓reduceDIte]
        exact (if_neg (by omega)).symm
    · obtain ⟨d, rfl⟩ : ∃ e : Fin 8, e.val = d := ⟨⟨d, hd⟩, rfl⟩
      have kept := keepsOutside_parkDies (afterTrip s d v) (List.range 8)
      have hbytes : SameBytes s (afterTrip s d v) := sameBytes_of rfl rfl rfl rfl rfl rfl
      have hbar0 : _ = { s.bar0 with tripped := true, tripDie := BitVec.ofNat 3 d.val } := kept.bar0
      refine ⟨_, execThermalTrip_at harg hv hl, fun j => ?_, kept.tripAt, ?_, ?_, kept.powerCmd, congrArg (2 :: ·) kept.msix,
        (hbytes.trans kept.bytes).trans (sameBytes_of rfl rfl rfl rfl rfl rfl), kept.selfRefresh, fun j => ?_⟩
      · exact (congrArg (·.get j) kept.temps).trans ((get_set ..).trans (if_congr Fin.ext_iff rfl rfl))
      · exact hbar0.trans (by rw [State.raise_bar0, hbar0])
      · exact (congrArg (·.tripDie.toNat) hbar0).trans (Nat.mod_eq_of_lt d.isLt)
      · exact (congrArg (·.get j) kept.power).trans (get_replicate_park j)

end Sys2Proof.Safety
end

section
/-! SUPPORT. Operands of a word: what each operand's parser admits, and what it is for an operand record to give its word back. -/

namespace Sys2Proof.Safety

/-- A field is its high and its low part. -/
theorem exists_append (m n : Nat) (x : BitVec (m + n)) : ∃ (hi : BitVec m) (lo : BitVec n), x = hi ++ lo :=
  ⟨x.extractLsb' n m, x.extractLsb' 0 n, by rw [extract_join x (Nat.zero_add n).symm, BitVec.extractLsb'_eq_self]⟩

/-! What an operand's parser admits -/

@[simp] theorem except_bind_eq_ok {α β : Type} {x : Except Reject α} {k : α → Except Reject β} {r : β} :
    (x >>= k) = .ok r ↔ ∃ a, x = .ok a ∧ k a = .ok r := by
  cases x <;> simp [bind, Except.bind]

@[simp] theorem need0_eq_ok {n : Nat} {b : BitVec n} {u : Unit} : need0 b = .ok u ↔ b = 0 :=
  ⟨eq_zero_of_need0, fun h => by rw [h, need0_zero]⟩

@[simp] theorem needEq_eq_ok {n : Nat} {b c : BitVec n} {u : Unit} : needEq b c = .ok u ↔ b = c := by
  simp [needEq]

@[simp] theorem rm0_eq_ok {b : BitVec 3} {u : Unit} : rm0 b = .ok u ↔ b = 0 := by
  simp [rm0]

@[simp] theorem needTy_eq_ok {b : BitVec 5} {t : Ty} {u : Unit} : needTy b t = .ok u ↔ b = t.code := by
  simp [needTy]

@[simp] theorem pTy_eq_ok {b : BitVec 5} {t : Ty} : pTy b = .ok t ↔ b = t.code :=
  ⟨fun h => (Ty.code_of_pTy h).symm, fun h => by rw [h, pTy_code]⟩

@[simp] theorem pS_eq_ok {b : BitVec 8} {r : SReg} : pS b = .ok r ↔ b = eS r :=
  ⟨fun h => (eS_of_pS h).symm, fun h => by rw [h, pS_eS]⟩

@[simp] theorem pV_eq_ok {b : BitVec 8} {r : VReg} : pV b = .ok r ↔ b = eV r :=
  ⟨fun h => (eV_of_pV h).symm, fun h => by rw [h, pV_eV]⟩

@[simp] theorem pC_eq_ok {b : BitVec 8} {r : CReg} : pC b = .ok r ↔ b = eC r :=
  ⟨fun h => (eC_of_pC h).symm, fun h => by rw [h, pC_eC]⟩

@[simp] theorem pK_eq_ok {b : BitVec 8} {r : KReg} : pK b = .ok r ↔ b = eK r :=
  ⟨fun h => (eK_of_pK h).symm, fun h => by rw [h, pK_eK]⟩

@[simp] theorem pLc_eq_ok {b : BitVec 8} {r : Fin 2} : pLc b = .ok r ↔ b = eLc r :=
  ⟨fun h => (eLc_of_pLc h).symm, fun h => by rw [h, pLc_eLc]⟩

/-- A field that holds an index below its bound. -/
theorem toNat_eq_iff_eq_ofNat {n k : Nat} {b : BitVec n} (i : Fin k) (hk : k ≤ 2 ^ n) :
    b.toNat = i.val ↔ b = BitVec.ofNat n i.val := by
  rw [← BitVec.toNat_inj, BitVec.toNat_ofNat, Nat.mod_eq_of_lt (Nat.lt_of_lt_of_le i.isLt hk)]

@[simp] theorem index_eq_ok {n k : Nat} {b : BitVec n} {i : Fin k} {e : Reject} (hk : k ≤ 2 ^ n) :
    (if h : b.toNat < k then Except.ok ⟨b.toNat, h⟩ else .error e) = .ok i ↔ b = BitVec.ofNat n i.val := by
  rw [← toNat_eq_iff_eq_ofNat i hk]
  split
  next h => simp [Fin.ext_iff]
  next h => simp; omega

@[simp] theorem pSz_eq_ok {b : BitVec 3} {z : Fin 6} : pSz b = .ok z ↔ b = BitVec.ofNat 3 z.val := index_eq_ok (by decide)
@[simp] theorem pBar_eq_ok {b : BitVec 16} {i : Fin 96} : pBar b = .ok i ↔ b = BitVec.ofNat 16 i.val := index_eq_ok (by decide)
@[simp] theorem pSel_eq_ok {b : BitVec 4} {i : Fin 8} : pSel b = .ok i ↔ b = BitVec.ofNat 4 i.val := index_eq_ok (by decide)
@[simp] theorem pLoopX_eq_ok {b : BitVec 8} {i : Fin 2} : pLoopX b = .ok i ↔ b = BitVec.ofNat 8 i.val := index_eq_ok (by decide)

@[simp] theorem pScope_eq_ok {b : BitVec 2} {c : Scope} : pScope b = .ok c ↔ b = BitVec.ofNat 2 c.code := by
  revert b; cases c <;> decide

theorem fin_eq_iff {n : Nat} {b : BitVec n} {i : Fin (2 ^ n)} : fin b = i ↔ b = unfin i :=
  ⟨fun h => by rw [← h, unfin_fin], fun h => by rw [h, fin_unfin]⟩

/-! The classes of an operand do not overlap -/

theorem class_eS (r : SReg) : (eS r).toNat < 0x40 := by revert r; decide
theorem class_eV (r : VReg) : ¬ (eV r).toNat < 0x40 ∧ (eV r).toNat < 0x80 := by revert r; decide
theorem class_eC (r : CReg) : ¬ (eC r).toNat < 0x40 ∧ ¬ (eC r).toNat < 0x80 ∧ (eC r).toNat < 0xC0 := by revert r; decide
theorem class_eLc (r : Fin 2) : ¬ (eLc r).toNat < 0x40 ∧ ¬ (eLc r).toNat < 0x80 ∧ ¬ (eLc r).toNat < 0xC0 := by revert r; decide

@[simp] theorem pSV_eq_ok {b : BitVec 8} {x : SV} : pSV b = .ok x ↔ b = eSV x := by
  constructor
  · unfold pSV
    split <;> simp <;> rintro r rfl rfl <;> rfl
  · rintro rfl
    cases x with
    | s r => simp [pSV, eSV, class_eS]
    | v r => simp only [pSV, eSV, if_neg (class_eV r).1, pV_eV]; rfl

@[simp] theorem pSVC_eq_ok {b : BitVec 8} {x : SVC} : pSVC b = .ok x ↔ b = eSVC x := by
  constructor
  · unfold pSVC
    split
    · simp; rintro r rfl rfl; rfl
    · split <;> simp <;> rintro r rfl rfl <;> rfl
  · rintro rfl
    cases x with
    | s r => simp only [pSVC, eSVC, if_pos (class_eS r), pS_eS]; rfl
    | v r =>
      obtain ⟨hs, hv⟩ := class_eV r
      simp only [pSVC, eSVC, if_neg hs, if_pos hv, pV_eV]
      rfl
    | c r =>
      obtain ⟨hs, hv, -⟩ := class_eC r
      simp only [pSVC, eSVC, if_neg hs, if_neg hv, pC_eC]
      rfl

@[simp] theorem pB_eq_ok {m : BitVec 1} {b : BitVec 8} {x : SV} : pB m b = .ok x ↔ m = eBit x ∧ b = eSV x := by
  have hm : m = 0 ∨ m = 1 := by revert m; decide
  obtain rfl | rfl := hm <;> cases x <;> simp [pB, eBit, eSV]

@[simp] theorem pBeat_eq_ok {z : BitVec 3} {b : BitVec 8} {x : SV} : pBeat z b = .ok x ↔ z = eBeatSz x ∧ b = eSV x := by
  unfold pBeat
  by_cases h5 : z = 5
  · subst h5; cases x <;> simp [eBeatSz, eSV]
  · by_cases h3 : z = 3
    · subst h3; cases x <;> simp [eBeatSz, eSV]
    · cases x <;> simp_all [eBeatSz]

@[simp] theorem pCS_eq_ok {m : BitVec 1} {b : BitVec 8} {x : CS} : pCS m b = .ok x ↔ m = (eCS x).1 ∧ b = (eCS x).2 := by
  have hm : m = 0 ∨ m = 1 := by revert m; decide
  obtain rfl | rfl := hm <;> cases x <;> simp [pCS, eCS]

@[simp] theorem pSch_eq_ok {m : BitVec 1} {b : BitVec 5} {x : Option (Fin 32)} :
    pSch m b = .ok x ↔ m = (eSch x).1 ∧ b = (eSch x).2 := by
  have hm : m = 0 ∨ m = 1 := by revert m; decide
  obtain rfl | rfl := hm
  · cases x <;> simp [pSch, eSch]
  · cases x with
    | none => simp [pSch, eSch]
    | some c => simpa [pSch, eSch] using fin_eq_iff (n := 5)

@[simp] theorem pMov_eq_ok {d a : BitVec 8} {x : MovOp} : pMov d a = .ok x ↔ d = (eMov x).1 ∧ a = (eMov x).2 := by
  constructor
  · unfold pMov
    repeat' split
    all_goals
      simp only [except_bind_eq_ok, pS_eq_ok, pLc_eq_ok, pV_eq_ok, pC_eq_ok, Except.ok.injEq]
      rintro ⟨r, rfl, q, rfl, rfl⟩
      exact ⟨rfl, rfl⟩
  · rintro ⟨rfl, rfl⟩
    cases x with
    | ss d a => simp only [pMov, eMov, if_pos (class_eS _), pS_eS]; rfl
    | sl d a => simp only [pMov, eMov, if_pos (class_eS _), if_neg (class_eLc a).1, pS_eS, pLc_eLc]; rfl
    | ls d a =>
      obtain ⟨hs, hv, hc⟩ := class_eLc d
      simp only [pMov, eMov, if_neg hs, if_neg hv, if_neg hc, pLc_eLc, pS_eS]
      rfl
    | vv d a =>
      obtain ⟨hs, hv⟩ := class_eV d
      simp only [pMov, eMov, if_neg hs, if_pos hv, pV_eV]
      rfl
    | cc d a =>
      obtain ⟨hs, hv, hc⟩ := class_eC d
      simp only [pMov, eMov, if_neg hs, if_neg hv, if_pos hc, pC_eC]
      rfl

theorem ePackB_of_pPackB {t : Ty} {m : BitVec 1} {b : BitVec 8} {x : Option SV} (h : pPackB t m b = .ok x) :
    b = (ePackB x).1 ∧ m = (ePackB x).2 := by
  unfold pPackB at h
  split at h
  · simp at h
    obtain ⟨y, ⟨rfl, rfl⟩, rfl⟩ := h
    exact ⟨rfl, rfl⟩
  · simp at h
    obtain ⟨rfl, rfl, rfl⟩ := h
    exact ⟨rfl, rfl⟩

/-- Of every operand record that the parser gives: its guard is the word's, and its body is bits [47:0] of the word. -/
def ReadBack (w : Word) {α : Type} (p : Except Reject α) (g : α → Guard) (body : α → BitVec 48) : Prop :=
  ∀ o, p = .ok o → g o = (Head.of w).guard ∧ body o = w.extractLsb' 0 48

section
variable {w : Word} {α : Type} {g : α → Guard} {body : α → BitVec 48}

/-! A shape is read back when its body is its format's fields packed -/

theorem ReadBack.ofA {p : Head → FmtA → Except Reject α}
    (hp : ∀ h f o, p h f = .ok o → g o = h.guard ∧ body o = f.pack) : ReadBack w (p (Head.of w) (FmtA.of w)) g body :=
  fun o e => FmtA.pack_of w ▸ hp _ _ o e

theorem ReadBack.ofI {p : Head → FmtI → Except Reject α}
    (hp : ∀ h f o, p h f = .ok o → g o = h.guard ∧ body o = f.pack) : ReadBack w (p (Head.of w) (FmtI.of w)) g body :=
  fun o e => FmtI.pack_of w ▸ hp _ _ o e

theorem ReadBack.ofW {p : Head → FmtW → Except Reject α}
    (hp : ∀ h f o, p h f = .ok o → g o = h.guard ∧ body o = f.pack) : ReadBack w (p (Head.of w) (FmtW.of w)) g body :=
  fun o e => FmtW.pack_of w ▸ hp _ _ o e

theorem ReadBack.ofM {p : Head → FmtM → Except Reject α}
    (hp : ∀ h f o, p h f = .ok o → g o = h.guard ∧ body o = f.pack) : ReadBack w (p (Head.of w) (FmtM.of w)) g body :=
  fun o e => FmtM.pack_of w ▸ hp _ _ o e

theorem ReadBack.ofE {p : Head → FmtE → Except Reject α}
    (hp : ∀ h f o, p h f = .ok o → g o = h.guard ∧ body o = f.pack) : ReadBack w (p (Head.of w) (FmtE.of w)) g body :=
  fun o e => FmtE.pack_of w ▸ hp _ _ o e

theorem ReadBack.ofF {p : Head → FmtF → Except Reject α}
    (hp : ∀ h f o, p h f = .ok o → g o = h.guard ∧ body o = f.pack) : ReadBack w (p (Head.of w) (FmtF.of w)) g body :=
  fun o e => FmtF.pack_of w ▸ hp _ _ o e

end

end Sys2Proof.Safety
end

section
/-! SUPPORT. The operand shapes of format A read back: each field of the word is a parsed operand, a fixed code or 0. A field
that holds two is taken as its parts' concatenation; its width stays a sum (no Nat.reduceAdd), as extract_high and extract_low state it. -/

namespace Sys2Proof.Safety

@[simp] theorem readBack_SSS (w : Word) : ReadBack w (parseSSS (Head.of w) (FmtA.of w)) SSSOps.g bodySSS :=
  .ofA fun h f o e => by
    cases f
    simp [parseSSS] at e
    obtain ⟨rfl, rfl, rfl, rfl, rfl, rfl, rfl, rfl, d, rfl, a, rfl, b, rfl, rfl⟩ := e
    exact ⟨rfl, rfl⟩

@[simp] theorem readBack_KSS (w : Word) : ReadBack w (parseKSS (Head.of w) (FmtA.of w)) KSSOps.g bodyKSS :=
  .ofA fun h f o e => by
    cases f
    simp [parseKSS] at e
    obtain ⟨rfl, rfl, rfl, rfl, rfl, rfl, rfl, rfl, d, rfl, a, rfl, b, rfl, rfl⟩ := e
    exact ⟨rfl, rfl⟩

@[simp] theorem readBack_SSSK (w : Word) : ReadBack w (parseSSSK (Head.of w) (FmtA.of w)) SSSKOps.g bodySSSK :=
  .ofA fun h f o e => by
    cases f
    simp [parseSSSK] at e
    obtain ⟨rfl, rfl, rfl, rfl, rfl, rfl, rfl, d, rfl, a, rfl, b, rfl, k, rfl, rfl⟩ := e
    exact ⟨rfl, rfl⟩

@[simp] theorem readBack_SS (w : Word) : ReadBack w (parseSS (Head.of w) (FmtA.of w)) SSOps.g bodySS :=
  .ofA fun h f o e => by
    cases f
    simp [parseSS] at e
    obtain ⟨rfl, rfl, rfl, rfl, rfl, rfl, rfl, rfl, rfl, d, rfl, a, rfl, rfl⟩ := e
    exact ⟨rfl, rfl⟩

@[simp] theorem readBack_SSSS (w : Word) : ReadBack w (parseSSSS (Head.of w) (FmtA.of w)) SSSSOps.g bodySSSS :=
  .ofA fun h f o e => by
    cases f
    simp [parseSSSS] at e
    obtain ⟨rfl, rfl, rfl, rfl, rfl, rfl, rfl, d, rfl, a, rfl, b, rfl, c, rfl, rfl⟩ := e
    exact ⟨rfl, rfl⟩

@[simp] theorem readBack_Mov (w : Word) : ReadBack w (parseMov (Head.of w) (FmtA.of w)) MovOps.g bodyMov :=
  .ofA fun h f o e => by
    cases f
    simp [parseMov] at e
    obtain ⟨rfl, rfl, rfl, rfl, rfl, rfl, rfl, rfl, rfl, op, ⟨rfl, rfl⟩, rfl⟩ := e
    exact ⟨rfl, rfl⟩

@[simp] theorem readBack_KKK (w : Word) : ReadBack w (parseKKK (Head.of w) (FmtA.of w)) KKKOps.g bodyKKK :=
  .ofA fun h f o e => by
    cases f
    simp [parseKKK] at e
    obtain ⟨rfl, rfl, rfl, rfl, rfl, rfl, rfl, rfl, d, rfl, a, rfl, b, rfl, rfl⟩ := e
    exact ⟨rfl, rfl⟩

@[simp] theorem readBack_KK (w : Word) : ReadBack w (parseKK (Head.of w) (FmtA.of w)) KKOps.g bodyKK :=
  .ofA fun h f o e => by
    cases f
    simp [parseKK] at e
    obtain ⟨rfl, rfl, rfl, rfl, rfl, rfl, rfl, rfl, rfl, d, rfl, a, rfl, rfl⟩ := e
    exact ⟨rfl, rfl⟩

@[simp] theorem readBack_SK (w : Word) : ReadBack w (parseSK (Head.of w) (FmtA.of w)) SKOps.g bodySK :=
  .ofA fun h f o e => by
    cases f
    simp [parseSK] at e
    obtain ⟨rfl, rfl, rfl, rfl, rfl, rfl, rfl, rfl, rfl, d, rfl, a, rfl, rfl⟩ := e
    exact ⟨rfl, rfl⟩

@[simp] theorem readBack_KS (w : Word) : ReadBack w (parseKS (Head.of w) (FmtA.of w)) KSOps.g bodyKS :=
  .ofA fun h f o e => by
    cases f
    simp [parseKS] at e
    obtain ⟨rfl, rfl, rfl, rfl, rfl, rfl, rfl, rfl, rfl, d, rfl, a, rfl, rfl⟩ := e
    exact ⟨rfl, rfl⟩

@[simp] theorem readBack_CCSS (w : Word) : ReadBack w (parseCCSS (Head.of w) (FmtA.of w)) CCSSOps.g bodyCCSS :=
  .ofA fun h f o e => by
    cases f
    simp [parseCCSS] at e
    obtain ⟨rfl, rfl, rfl, rfl, rfl, rfl, rfl, d, rfl, a, rfl, b, rfl, c, rfl, rfl⟩ := e
    exact ⟨rfl, rfl⟩

@[simp] theorem readBack_CCS (w : Word) : ReadBack w (parseCCS (Head.of w) (FmtA.of w)) CCSOps.g bodyCCS :=
  .ofA fun h f o e => by
    cases f
    simp [parseCCS] at e
    obtain ⟨rfl, rfl, rfl, rfl, rfl, rfl, rfl, rfl, d, rfl, a, rfl, b, rfl, rfl⟩ := e
    exact ⟨rfl, rfl⟩

@[simp] theorem readBack_CGet (w : Word) : ReadBack w (parseCGet (Head.of w) (FmtA.of w)) CGetOps.g bodyCGet :=
  .ofA fun h f o e => by
    cases f
    simp [parseCGet] at e
    obtain ⟨rfl, rfl, rfl, rfl, rfl, rfl, rfl, rfl, d, rfl, a, rfl, sel, rfl, rfl⟩ := e
    exact ⟨rfl, rfl⟩

@[simp] theorem readBack_CLd (w : Word) : ReadBack w (parseCLd (Head.of w) (FmtA.of w)) CLdOps.g bodyCLd :=
  .ofA fun h f o e => by
    obtain ⟨_, _, _, _, _, _, mh, _, _, _, _⟩ := f
    obtain ⟨hi, lo, rfl⟩ := exists_append 1 3 mh
    simp (disch := omega) [parseCLd, extract_high, extract_low, -Nat.reduceAdd] at e
    obtain ⟨rfl, rfl, rfl, rfl, rfl, rfl, rfl, d, rfl, a, rfl, b, rfl, rfl⟩ := e
    exact ⟨rfl, by simp [bodyCLd, a0]⟩

@[simp] theorem readBack_CSt (w : Word) : ReadBack w (parseCSt (Head.of w) (FmtA.of w)) CStOps.g bodyCSt :=
  .ofA fun h f o e => by
    obtain ⟨_, _, _, _, _, _, mh, _, _, _, _⟩ := f
    obtain ⟨hi, lo, rfl⟩ := exists_append 1 3 mh
    simp (disch := omega) [parseCSt, extract_high, extract_low, -Nat.reduceAdd] at e
    obtain ⟨rfl, rfl, rfl, rfl, rfl, rfl, rfl, a, rfl, b, rfl, c, rfl, rfl⟩ := e
    exact ⟨rfl, by simp [bodyCSt, a0]⟩

@[simp] theorem readBack_VBin (w : Word) : ReadBack w (parseVBin (Head.of w) (FmtA.of w)) VBinOps.g bodyVBin :=
  .ofA fun h f o e => by
    cases f
    simp [parseVBin] at e
    obtain ⟨rfl, rfl, ty, rfl, d, rfl, a, rfl, b, ⟨rfl, rfl⟩, rfl⟩ := e
    exact ⟨rfl, by simp [bodyVBin, a0]⟩

@[simp] theorem readBack_VFma (w : Word) : ReadBack w (parseVFma (Head.of w) (FmtA.of w)) VFmaOps.g bodyVFma :=
  .ofA fun h f o e => by
    cases f
    simp [parseVFma] at e
    obtain ⟨rfl, ty, rfl, d, rfl, a, rfl, b, ⟨rfl, rfl⟩, c, rfl, rfl⟩ := e
    exact ⟨rfl, by simp [bodyVFma, a0]⟩

@[simp] theorem readBack_VMinMax (w : Word) : ReadBack w (parseVMinMax (Head.of w) (FmtA.of w)) VMinMaxOps.g bodyVMinMax :=
  .ofA fun h f o e => by
    cases f
    simp [parseVMinMax] at e
    obtain ⟨rfl, rfl, rfl, rfl, ty, rfl, d, rfl, a, rfl, b, ⟨rfl, rfl⟩, rfl⟩ := e
    exact ⟨rfl, by simp [bodyVMinMax, a0]⟩

@[simp] theorem readBack_VUnS (w : Word) : ReadBack w (parseVUnS (Head.of w) (FmtA.of w)) VUnSOps.g bodyVUnS :=
  .ofA fun h f o e => by
    cases f
    simp [parseVUnS] at e
    obtain ⟨rfl, rfl, rfl, rfl, rfl, rfl, ty, rfl, d, rfl, a, rfl, rfl⟩ := e
    exact ⟨rfl, by simp [bodyVUnS, a0]⟩

@[simp] theorem readBack_VDiv (w : Word) : ReadBack w (parseVDiv (Head.of w) (FmtA.of w)) VDivOps.g bodyVDiv :=
  .ofA fun h f o e => by
    cases f
    simp [parseVDiv] at e
    obtain ⟨rfl, rfl, rfl, rfl, rfl, ty, rfl, d, rfl, a, rfl, b, ⟨rfl, rfl⟩, rfl⟩ := e
    exact ⟨rfl, by simp [bodyVDiv, a0]⟩

@[simp] theorem readBack_VUn (w : Word) : ReadBack w (parseVUn (Head.of w) (FmtA.of w)) VUnOps.g bodyVUn :=
  .ofA fun h f o e => by
    cases f
    simp [parseVUn] at e
    obtain ⟨rfl, rfl, rfl, rfl, rfl, rfl, rfl, ty, rfl, d, rfl, a, rfl, rfl⟩ := e
    exact ⟨rfl, by simp [bodyVUn, a0]⟩

@[simp] theorem readBack_VCmp (w : Word) : ReadBack w (parseVCmp (Head.of w) (FmtA.of w)) VCmpOps.g bodyVCmp :=
  .ofA fun h f o e => by
    cases f
    simp [parseVCmp] at e
    obtain ⟨rfl, rfl, rfl, rfl, rfl, rfl, ty, rfl, d, rfl, a, rfl, b, ⟨rfl, rfl⟩, rfl⟩ := e
    exact ⟨rfl, rfl⟩

@[simp] theorem readBack_VSel (w : Word) : ReadBack w (parseVSel (Head.of w) (FmtA.of w)) VSelOps.g bodyVSel :=
  .ofA fun h f o e => by
    cases f
    simp [parseVSel] at e
    obtain ⟨rfl, rfl, rfl, rfl, rfl, ty, rfl, d, rfl, a, rfl, b, ⟨rfl, rfl⟩, k, rfl, rfl⟩ := e
    exact ⟨rfl, rfl⟩

@[simp] theorem readBack_VBits (w : Word) : ReadBack w (parseVBits (Head.of w) (FmtA.of w)) VBitsOps.g bodyVBits :=
  .ofA fun h f o e => by
    cases f
    simp [parseVBits] at e
    obtain ⟨rfl, rfl, rfl, rfl, rfl, rfl, ty, rfl, d, rfl, a, rfl, b, ⟨rfl, rfl⟩, rfl⟩ := e
    exact ⟨rfl, rfl⟩

@[simp] theorem readBack_VCvt (w : Word) : ReadBack w (parseVCvt (Head.of w) (FmtA.of w)) VCvtOps.g bodyVCvt :=
  .ofA fun h f o e => by
    obtain ⟨_, _, _, _, _, c, _, _, _, _, _⟩ := f
    obtain ⟨hi, lo, rfl⟩ := exists_append 3 5 c
    simp (disch := omega) [parseVCvt, extract_high, extract_low, -Nat.reduceAdd] at e
    obtain ⟨rfl, rfl, rfl, rfl, ty, rfl, sty, rfl, rfl, d, rfl, a, rfl, rfl⟩ := e
    exact ⟨rfl, by simp [bodyVCvt, a0]⟩

@[simp] theorem readBack_VCvtCh (w : Word) : ReadBack w (parseVCvtCh (Head.of w) (FmtA.of w)) VCvtChOps.g bodyVCvtCh :=
  .ofA fun h f o e => by
    obtain ⟨_, _, _, _, _, c, _, _, _, _, _⟩ := f
    obtain ⟨hi, lo, rfl⟩ := exists_append 3 5 c
    simp (disch := omega) [parseVCvtCh, extract_high, extract_low, -Nat.reduceAdd] at e
    obtain ⟨rfl, rfl, rfl, rfl, ty, rfl, sty, rfl, rfl, d, rfl, a, rfl, rfl⟩ := e
    exact ⟨rfl, by simp [bodyVCvtCh, a0]⟩

@[simp] theorem readBack_VScale (w : Word) : ReadBack w (parseVScale (Head.of w) (FmtA.of w)) VScaleOps.g bodyVScale :=
  .ofA fun h f o e => by
    obtain ⟨_, _, _, _, _, c, _, _, _, _, _⟩ := f
    obtain ⟨hi, lo, rfl⟩ := exists_append 3 5 c
    simp (disch := omega) [parseVScale, extract_high, extract_low, -Nat.reduceAdd] at e
    obtain ⟨rfl, rfl, rfl, ty, rfl, sty, rfl, rfl, d, rfl, a, rfl, b, rfl, rfl⟩ := e
    exact ⟨rfl, by simp [bodyVScale, a0]⟩

@[simp] theorem readBack_VPack (w : Word) : ReadBack w (parseVPack (Head.of w) (FmtA.of w)) VPackOps.g bodyVPack :=
  .ofA fun h f o e => by
    cases f
    simp [parseVPack] at e
    obtain ⟨rfl, rfl, rfl, rfl, rfl, rfl, ty, rfl, d, rfl, a, rfl, b, hb, rfl⟩ := e
    obtain ⟨rfl, rfl⟩ := ePackB_of_pPackB hb
    exact ⟨rfl, rfl⟩

@[simp] theorem readBack_VUnpack (w : Word) : ReadBack w (parseVUnpack (Head.of w) (FmtA.of w)) VUnpackOps.g bodyVUnpack :=
  .ofA fun h f o e => by
    obtain ⟨_, _, _, _, _, _, mh, _, _, _, _⟩ := f
    obtain ⟨hi, lo, rfl⟩ := exists_append 3 1 mh
    simp (disch := omega) [parseVUnpack, extract_high, extract_low, -Nat.reduceAdd] at e
    obtain ⟨rfl, rfl, rfl, rfl, rfl, rfl, rfl, ty, rfl, rfl, d, rfl, a, rfl, rfl⟩ := e
    exact ⟨rfl, by simp [bodyVUnpack, a0]⟩

@[simp] theorem readBack_VBsc (w : Word) : ReadBack w (parseVBsc (Head.of w) (FmtA.of w)) VBscOps.g bodyVBsc :=
  .ofA fun h f o e => by
    obtain ⟨_, _, _, _, _, _, mh, _, _, _, _⟩ := f
    obtain ⟨mh2, rest, rfl⟩ := exists_append 2 2 mh
    obtain ⟨mh1, mh0, rfl⟩ := exists_append 1 1 rest
    simp (disch := omega) [parseVBsc, extract_high, extract_low, -Nat.reduceAdd] at e
    obtain ⟨rfl, rfl, rfl, rfl, ty, rfl, rfl, d, rfl, a, rfl, c, rfl, rfl⟩ := e
    exact ⟨rfl, by simp [bodyVBsc, a0]⟩

@[simp] theorem readBack_VBsx (w : Word) : ReadBack w (parseVBsx (Head.of w) (FmtA.of w)) VBsxOps.g bodyVBsx :=
  .ofA fun h f o e => by
    obtain ⟨_, _, _, _, _, c, _, _, _, _, _⟩ := f
    obtain ⟨hi, lo, rfl⟩ := exists_append 3 5 c
    simp (disch := omega) [parseVBsx, extract_high, extract_low, -Nat.reduceAdd] at e
    obtain ⟨rfl, rfl, rfl, ty, rfl, rfl, dst, rfl, d, rfl, a, rfl, b, rfl, rfl⟩ := e
    exact ⟨rfl, by simp [bodyVBsx, a0]⟩

@[simp] theorem readBack_VHad (w : Word) : ReadBack w (parseVHad (Head.of w) (FmtA.of w)) VHadOps.g bodyVHad :=
  .ofA fun h f o e => by
    obtain ⟨_, _, _, _, _, _, mh, _, _, _, _⟩ := f
    obtain ⟨hi, lo, rfl⟩ := exists_append 2 2 mh
    simp (disch := omega) [parseVHad, extract_high, extract_low, -Nat.reduceAdd] at e
    obtain ⟨rfl, rfl, rfl, rfl, rfl, rfl, ty, rfl, rfl, d, rfl, a, rfl, rfl⟩ := e
    exact ⟨rfl, by simp [bodyVHad, a0]⟩

@[simp] theorem readBack_VRed (w : Word) : ReadBack w (parseVRed (Head.of w) (FmtA.of w)) VRedOps.g bodyVRed :=
  .ofA fun h f o e => by
    cases f
    simp [parseVRed] at e
    obtain ⟨rfl, rfl, rfl, rfl, rfl, rfl, ty, rfl, d, rfl, a, rfl, rfl⟩ := e
    exact ⟨rfl, by simp [bodyVRed, a0]⟩

@[simp] theorem readBack_VFromS (w : Word) : ReadBack w (parseVFromS (Head.of w) (FmtA.of w)) VFromSOps.g bodyVFromS :=
  .ofA fun h f o e => by
    cases f
    simp [parseVFromS] at e
    obtain ⟨rfl, rfl, rfl, rfl, rfl, rfl, rfl, rfl, ty, rfl, d, rfl, a, rfl, rfl⟩ := e
    exact ⟨rfl, rfl⟩

@[simp] theorem readBack_VIns (w : Word) : ReadBack w (parseVIns (Head.of w) (FmtA.of w)) VInsOps.g bodyVIns :=
  .ofA fun h f o e => by
    cases f
    simp [parseVIns] at e
    obtain ⟨rfl, rfl, rfl, rfl, rfl, rfl, rfl, ty, rfl, d, rfl, a, rfl, b, rfl, rfl⟩ := e
    exact ⟨rfl, rfl⟩

@[simp] theorem readBack_VExt (w : Word) : ReadBack w (parseVExt (Head.of w) (FmtA.of w)) VExtOps.g bodyVExt :=
  .ofA fun h f o e => by
    cases f
    simp [parseVExt] at e
    obtain ⟨rfl, rfl, rfl, rfl, rfl, rfl, rfl, ty, rfl, d, rfl, a, rfl, b, rfl, rfl⟩ := e
    exact ⟨rfl, rfl⟩

@[simp] theorem readBack_VSort (w : Word) : ReadBack w (parseVSort (Head.of w) (FmtA.of w)) VSortOps.g bodyVSort :=
  .ofA fun h f o e => by
    obtain ⟨_, _, _, _, _, _, mh, _, _, _, _⟩ := f
    obtain ⟨hi, lo, rfl⟩ := exists_append 3 1 mh
    simp (disch := omega) [parseVSort, extract_high, extract_low, -Nat.reduceAdd] at e
    obtain ⟨rfl, rfl, rfl, rfl, rfl, rfl, rfl, ty, rfl, rfl, d, rfl, a, rfl, rfl⟩ := e
    exact ⟨rfl, by simp [bodyVSort, a0]⟩

@[simp] theorem readBack_VHist (w : Word) : ReadBack w (parseVHist (Head.of w) (FmtA.of w)) VHistOps.g bodyVHist :=
  .ofA fun h f o e => by
    cases f
    simp [parseVHist] at e
    obtain ⟨rfl, rfl, rfl, rfl, rfl, rfl, rfl, ty, rfl, a, rfl, b, rfl, rfl⟩ := e
    exact ⟨rfl, rfl⟩

@[simp] theorem readBack_VSdc (w : Word) : ReadBack w (parseVSdc (Head.of w) (FmtA.of w)) VSdcOps.g bodyVSdc :=
  .ofA fun h f o e => by
    obtain ⟨_, _, _, _, _, _, mh, _, _, _, _⟩ := f
    obtain ⟨hi, lo, rfl⟩ := exists_append 3 1 mh
    simp (disch := omega) [parseVSdc, extract_high, extract_low, -Nat.reduceAdd] at e
    obtain ⟨rfl, rfl, rfl, rfl, rfl, rfl, ty, rfl, rfl, rfl, d, rfl, a, rfl, rfl⟩ := e
    exact ⟨rfl, by simp [bodyVSdc, a0]⟩

@[simp] theorem readBack_VSdcCh (w : Word) : ReadBack w (parseVSdcCh (Head.of w) (FmtA.of w)) VSdcChOps.g bodyVSdcCh :=
  .ofA fun h f o e => by
    obtain ⟨_, _, _, _, _, _, mh, _, _, _, _⟩ := f
    obtain ⟨hi, lo, rfl⟩ := exists_append 3 1 mh
    simp (disch := omega) [parseVSdcCh, extract_high, extract_low, -Nat.reduceAdd] at e
    obtain ⟨rfl, rfl, rfl, rfl, rfl, rfl, ty, rfl, rfl, rfl, d, rfl, a, rfl, rfl⟩ := e
    exact ⟨rfl, by simp [bodyVSdcCh, a0]⟩

@[simp] theorem readBack_VSdAdd (w : Word) : ReadBack w (parseVSdAdd (Head.of w) (FmtA.of w)) VSdAddOps.g bodyVSdAdd :=
  .ofA fun h f o e => by
    cases f
    simp [parseVSdAdd] at e
    obtain ⟨rfl, rfl, rfl, rfl, rfl, rfl, rfl, d, rfl, a, rfl, b, ⟨rfl, rfl⟩, rfl⟩ := e
    exact ⟨rfl, rfl⟩

@[simp] theorem readBack_VSdCmp (w : Word) : ReadBack w (parseVSdCmp (Head.of w) (FmtA.of w)) VSdCmpOps.g bodyVSdCmp :=
  .ofA fun h f o e => by
    cases f
    simp [parseVSdCmp] at e
    obtain ⟨rfl, rfl, rfl, rfl, rfl, rfl, d, rfl, a, rfl, b, ⟨rfl, rfl⟩, c, rfl, rfl⟩ := e
    exact ⟨rfl, rfl⟩

@[simp] theorem readBack_VClass (w : Word) : ReadBack w (parseVClass (Head.of w) (FmtA.of w)) VClassOps.g bodyVClass :=
  .ofA fun h f o e => by
    cases f
    simp [parseVClass] at e
    obtain ⟨rfl, rfl, rfl, rfl, rfl, rfl, rfl, rfl, ty, rfl, d, rfl, a, rfl, rfl⟩ := e
    exact ⟨rfl, rfl⟩

@[simp] theorem readBack_VDot (w : Word) : ReadBack w (parseVDot (Head.of w) (FmtA.of w)) VDotOps.g bodyVDot :=
  .ofA fun h f o e => by
    obtain ⟨_, _, _, _, _, _, mh, _, _, _, _⟩ := f
    obtain ⟨hi, lo, rfl⟩ := exists_append 2 2 mh
    simp (disch := omega) [parseVDot, extract_high, extract_low, -Nat.reduceAdd] at e
    obtain ⟨rfl, rfl, rfl, ty, rfl, rfl, d, rfl, a, rfl, b, ⟨rfl, rfl⟩, c, rfl, rfl⟩ := e
    exact ⟨rfl, by simp [bodyVDot, a0]⟩

end Sys2Proof.Safety
end

section
/-! SUPPORT. The operand shapes of the formats I, F, M, W and E read back. -/

namespace Sys2Proof.Safety

/-! Format I -/

@[simp] theorem readBack_SSI (w : Word) : ReadBack w (parseSSI (Head.of w) (FmtI.of w)) SSIOps.g bodySSI :=
  .ofI fun h f o e => by
    cases f
    simp [parseSSI] at e
    obtain ⟨d, rfl, a, rfl, rfl⟩ := e
    exact ⟨rfl, rfl⟩

@[simp] theorem readBack_KSI (w : Word) : ReadBack w (parseKSI (Head.of w) (FmtI.of w)) KSIOps.g bodyKSI :=
  .ofI fun h f o e => by
    cases f
    simp [parseKSI] at e
    obtain ⟨d, rfl, a, rfl, rfl⟩ := e
    exact ⟨rfl, rfl⟩

@[simp] theorem readBack_SI (w : Word) : ReadBack w (parseSI (Head.of w) (FmtI.of w)) SIOps.g bodySI :=
  .ofI fun h f o e => by
    cases f
    simp [parseSI] at e
    obtain ⟨rfl, d, rfl, rfl⟩ := e
    exact ⟨rfl, rfl⟩

/-! Format F -/

@[simp] theorem readBack_Loop (w : Word) : ReadBack w (parseLoop (Head.of w) (FmtF.of w)) (fun _ => noGuard) bodyLoop :=
  .ofF fun h f o e => by
    obtain ⟨op, gn, gk, fn⟩ := h
    obtain ⟨_, _, imm⟩ := f
    obtain ⟨hi, lo, rfl⟩ := exists_append 20 12 imm
    simp (disch := omega) [parseLoop, -Fin.exists_fin_two, extract_high, extract_low, -Nat.reduceAdd] at e
    obtain ⟨rfl, rfl, lc, rfl, d, rfl, rfl⟩ := e
    exact ⟨rfl, rfl⟩

@[simp] theorem readBack_LMask (w : Word) : ReadBack w (parseLMask (Head.of w) (FmtF.of w)) (fun _ => noGuard) bodyLMask :=
  .ofF fun h f o e => by
    obtain ⟨op, gn, gk, fn⟩ := h
    obtain ⟨_, _, imm⟩ := f
    obtain ⟨imm2, rest, rfl⟩ := exists_append 30 2 imm
    obtain ⟨imm1, imm0, rfl⟩ := exists_append 1 1 rest
    simp (disch := omega) [parseLMask, extract_high, extract_low, -Nat.reduceAdd] at e
    obtain ⟨rfl, rfl, d, rfl, m, rfl, rfl, rfl⟩ := e
    exact ⟨rfl, by simp [bodyLMask]⟩

@[simp] theorem readBack_Trap (w : Word) : ReadBack w (parseTrap (Head.of w) (FmtF.of w)) TrapOps.g bodyTrap :=
  .ofF fun h f o e => by
    cases f
    simp [parseTrap] at e
    obtain ⟨rfl, d, rfl, rfl⟩ := e
    exact ⟨rfl, rfl⟩

@[simp] theorem readBack_Smov (w : Word) : ReadBack w (parseSmov (Head.of w) (FmtF.of w)) SmovOps.g bodySmov :=
  .ofF fun h f o e => by
    obtain ⟨_, _, imm⟩ := f
    obtain ⟨hi, lo, rfl⟩ := exists_append 20 12 imm
    simp (disch := omega) [parseSmov, extract_high, extract_low, -Nat.reduceAdd] at e
    obtain ⟨rfl, d, rfl, rfl, rfl⟩ := e
    exact ⟨rfl, rfl⟩

@[simp] theorem readBack_CtxCtl (w : Word) : ReadBack w (parseCtxCtl (Head.of w) (FmtF.of w)) CtxCtlOps.g bodyCtxCtl :=
  .ofF fun h f o e => by
    cases f
    simp [parseCtxCtl] at e
    obtain ⟨rfl, d, rfl, x, rfl, rfl⟩ := e
    exact ⟨rfl, rfl⟩

@[simp] theorem readBack_Mark0 (w : Word) : ReadBack w (parseMark0 (Head.of w) (FmtF.of w)) MarkOps.g bodyMark0 :=
  .ofF fun h f o e => by
    cases f
    simp [parseMark0] at e
    obtain ⟨rfl, rfl, d, rfl, rfl⟩ := e
    exact ⟨rfl, rfl⟩

@[simp] theorem readBack_Mark1 (w : Word) : ReadBack w (parseMark1 (Head.of w) (FmtF.of w)) MarkOps.g bodyMark1 :=
  .ofF fun h f o e => by
    cases f
    simp [parseMark1] at e
    obtain ⟨rfl, rfl, d, rfl, rfl⟩ := e
    exact ⟨rfl, rfl⟩

@[simp] theorem readBack_Mark2 (w : Word) : ReadBack w (parseMark2 (Head.of w) (FmtF.of w)) MarkOps.g bodyMark2 :=
  .ofF fun h f o e => by
    cases f
    simp [parseMark2] at e
    obtain ⟨rfl, rfl, d, rfl, rfl⟩ := e
    exact ⟨rfl, rfl⟩

@[simp] theorem readBack_Tsamp (w : Word) : ReadBack w (parseTsamp (Head.of w) (FmtF.of w)) TsampOps.g bodyTsamp :=
  .ofF fun h f o e => by
    obtain ⟨x, _, _⟩ := f
    obtain ⟨hi, lo, rfl⟩ := exists_append 3 5 x
    simp (disch := omega) [parseTsamp, extract_high, extract_low, -Nat.reduceAdd] at e
    obtain ⟨rfl, rfl, rfl, rfl⟩ := e
    exact ⟨rfl, rfl⟩

@[simp] theorem readBack_Brk (w : Word) : ReadBack w (parseBrk (Head.of w) (FmtF.of w)) BrkOps.g bodyBrk :=
  .ofF fun h f o e => by
    cases f
    simp [parseBrk] at e
    obtain ⟨rfl, rfl, rfl⟩ := e
    exact ⟨rfl, rfl⟩

@[simp] theorem readBack_BrkArmed (w : Word) : ReadBack w (parseBrkArmed (Head.of w) (FmtF.of w)) BrkArmedOps.g bodyBrkArmed :=
  .ofF fun h f o e => by
    obtain ⟨x, _, _⟩ := f
    obtain ⟨hi, lo, rfl⟩ := exists_append 3 5 x
    simp (disch := omega) [parseBrkArmed, extract_high, extract_low, -Nat.reduceAdd] at e
    obtain ⟨rfl, rfl, rfl⟩ := e
    exact ⟨rfl, rfl⟩

@[simp] theorem readBack_Tlbinv (w : Word) : ReadBack w (parseTlbinv (Head.of w) (FmtF.of w)) TlbinvOps.g bodyTlbinv :=
  .ofF fun h f o e => by
    obtain ⟨_, _, imm⟩ := f
    obtain ⟨hi, lo, rfl⟩ := exists_append 31 1 imm
    simp (disch := omega) [parseTlbinv, extract_high, extract_low, -Nat.reduceAdd] at e
    obtain ⟨d, rfl, x, rfl, rfl, rfl⟩ := e
    exact ⟨rfl, by simp [bodyTlbinv]⟩

@[simp] theorem readBack_Post (w : Word) : ReadBack w (parsePost (Head.of w) (FmtF.of w)) PostOps.g bodyPost :=
  .ofF fun h f o e => by
    obtain ⟨_, _, imm⟩ := f
    obtain ⟨hi, lo, rfl⟩ := exists_append 16 16 imm
    simp (disch := omega) [parsePost, extract_high, extract_low, -Nat.reduceAdd] at e
    obtain ⟨rfl, d, rfl, rfl, rfl⟩ := e
    exact ⟨rfl, rfl⟩

@[simp] theorem readBack_Fence (w : Word) : ReadBack w (parseFence (Head.of w) (FmtF.of w)) FenceOps.g bodyFence :=
  .ofF fun h f o e => by
    cases f
    simp [parseFence] at e
    obtain ⟨rfl, rfl, rfl⟩ := e
    exact ⟨rfl, rfl⟩

@[simp] theorem readBack_Ctok (w : Word) : ReadBack w (parseCtok (Head.of w) (FmtF.of w)) CtokOps.g bodyCtok :=
  .ofF fun h f o e => by
    obtain ⟨_, _, imm⟩ := f
    obtain ⟨imm3, rest, rfl⟩ := exists_append 22 10 imm
    obtain ⟨imm2, rest, rfl⟩ := exists_append 2 8 rest
    obtain ⟨imm1, imm0, rfl⟩ := exists_append 3 5 rest
    simp (disch := omega) [parseCtok, extract_high, extract_low, -Nat.reduceAdd] at e
    obtain ⟨rfl, rfl, rfl, scope, rfl, rfl⟩ := e
    exact ⟨rfl, rfl⟩

/-! Format M -/

@[simp] theorem readBack_MB (w : Word) : ReadBack w (parseMB (Head.of w) (FmtM.of w)) MBOps.g bodyMB :=
  .ofM fun h f o e => by
    cases f
    simp [parseMB, -Nat.reduceAdd] at e
    obtain ⟨rfl, rfl, rfl, rfl, rfl, bty, rfl, rfl⟩ := e
    exact ⟨rfl, by simp (disch := omega) [bodyMB, m0, extract_high, extract_low, -Nat.reduceAdd]⟩

@[simp] theorem readBack_MRow (w : Word) : ReadBack w (parseMRow (Head.of w) (FmtM.of w)) MRowOps.g bodyMRow :=
  .ofM fun h f o e => by
    cases f
    simp [parseMRow] at e
    obtain ⟨rfl, rfl, bty, rfl, sch, ⟨rfl, rfl⟩, rfl⟩ := e
    exact ⟨rfl, by simp [bodyMRow, m0]⟩

@[simp] theorem readBack_MRowW (w : Word) : ReadBack w (parseMRowW (Head.of w) (FmtM.of w)) MRowWOps.g bodyMRowW :=
  .ofM fun h f o e => by
    cases f
    simp [parseMRowW] at e
    obtain ⟨bty, rfl, aty, rfl, sch, ⟨rfl, rfl⟩, rfl⟩ := e
    exact ⟨rfl, by simp [bodyMRowW]⟩

@[simp] theorem readBack_MN (w : Word) : ReadBack w (parseMN (Head.of w) (FmtM.of w)) MNOps.g bodyMN :=
  .ofM fun h f o e => by
    cases f
    simp [parseMN] at e
    obtain ⟨rfl, rfl, rfl, rfl, rfl, rfl, rfl, rfl, rfl⟩ := e
    exact ⟨rfl, rfl⟩

@[simp] theorem readBack_MOut (w : Word) : ReadBack w (parseMOut (Head.of w) (FmtM.of w)) MOutOps.g bodyMOut :=
  .ofM fun h f o e => by
    cases f
    simp [parseMOut] at e
    obtain ⟨rfl, rfl, rfl, oty, rfl, rfl⟩ := e
    exact ⟨rfl, by simp [bodyMOut, m0]⟩

@[simp] theorem readBack_MScaleW (w : Word) : ReadBack w (parseMScaleW (Head.of w) (FmtM.of w)) MScaleWOps.g bodyMScaleW :=
  .ofM fun h f o e => by
    cases f
    simp [parseMScaleW, -Nat.reduceAdd] at e
    obtain ⟨rfl, rfl, rfl, rfl, rfl, rfl, rfl, rfl⟩ := e
    exact ⟨rfl, by simp (disch := omega) [bodyMScaleW, m0, extract_high, extract_low, -Nat.reduceAdd]⟩

@[simp] theorem readBack_MScaleC (w : Word) : ReadBack w (parseMScaleC (Head.of w) (FmtM.of w)) MScaleCOps.g bodyMScaleC :=
  .ofM fun h f o e => by
    obtain ⟨_, _, _, _, _, _, _, _, _, off, _⟩ := f
    obtain ⟨hi, lo, rfl⟩ := exists_append 8 1 off
    simp (disch := omega) [parseMScaleC, extract_high, extract_low, -Nat.reduceAdd] at e
    obtain ⟨rfl, rfl, rfl, rfl, rfl, rfl, rfl, rfl, rfl, rfl⟩ := e
    exact ⟨rfl, by simp (disch := omega) [bodyMScaleC, m0, extract_high, extract_low, -Nat.reduceAdd]⟩

@[simp] theorem readBack_MBias (w : Word) : ReadBack w (parseMBias (Head.of w) (FmtM.of w)) MBiasOps.g bodyMBias :=
  .ofM fun h f o e => by
    cases f
    simp [parseMBias] at e
    obtain ⟨rfl, rfl, rfl, rfl, rfl, rfl⟩ := e
    exact ⟨rfl, by simp [bodyMBias, m0]⟩

@[simp] theorem readBack_MRd (w : Word) : ReadBack w (parseMRd (Head.of w) (FmtM.of w)) MRdOps.g bodyMRd :=
  .ofM fun h f o e => by
    cases f
    simp [parseMRd] at e
    obtain ⟨rfl, rfl, rfl, rfl, rfl, rfl, rfl, rfl⟩ := e
    exact ⟨rfl, rfl⟩

@[simp] theorem readBack_MWr (w : Word) : ReadBack w (parseMWr (Head.of w) (FmtM.of w)) MWrOps.g bodyMWr :=
  .ofM fun h f o e => by
    cases f
    simp [parseMWr] at e
    obtain ⟨rfl, rfl, rfl, rfl, rfl, rfl, rfl⟩ := e
    exact ⟨rfl, rfl⟩

@[simp] theorem readBack_MSlot (w : Word) : ReadBack w (parseMSlot (Head.of w) (FmtM.of w)) MSlotOps.g bodyMSlot :=
  .ofM fun h f o e => by
    obtain ⟨_, _, _, _, _, _, _, _, fty, _, n⟩ := f
    obtain ⟨hi, lo, rfl⟩ := exists_append 1 4 fty
    obtain ⟨hi, lo, rfl⟩ := exists_append 3 4 n
    simp (disch := omega) [parseMSlot, extract_high, extract_low, -Nat.reduceAdd] at e
    obtain ⟨rfl, rfl, rfl, rfl, rfl, rfl, rfl, rfl, rfl, rfl, rfl, rfl⟩ := e
    exact ⟨rfl, rfl⟩

/-! Format W -/

@[simp] theorem readBack_WFill (w : Word) : ReadBack w (parseWFill (Head.of w) (FmtW.of w)) WFillOps.g bodyWFill :=
  .ofW fun h f o e => by
    cases f
    simp [parseWFill] at e
    obtain ⟨rfl, rfl, rfl, rfl, rfl, sz, rfl, d, rfl, rfl⟩ := e
    exact ⟨rfl, rfl⟩

@[simp] theorem readBack_WOff (w : Word) : ReadBack w (parseWOff (Head.of w) (FmtW.of w)) WOffOps.g bodyWOff :=
  .ofW fun h f o e => by
    cases f
    simp [parseWOff] at e
    obtain ⟨rfl, rfl, rfl, sz, rfl, d, rfl, a, rfl, rfl⟩ := e
    exact ⟨rfl, rfl⟩

@[simp] theorem readBack_WShrink (w : Word) : ReadBack w (parseWShrink (Head.of w) (FmtW.of w)) WShrinkOps.g bodyWShrink :=
  .ofW fun h f o e => by
    cases f
    simp [parseWShrink] at e
    obtain ⟨rfl, rfl, rfl, rfl, rfl, a, rfl, rfl⟩ := e
    exact ⟨rfl, rfl⟩

@[simp] theorem readBack_WStat (w : Word) : ReadBack w (parseWStat (Head.of w) (FmtW.of w)) WStatOps.g bodyWStat :=
  .ofW fun h f o e => by
    obtain ⟨_, _, _, _, _, _, _, imm⟩ := f
    obtain ⟨hi, lo, rfl⟩ := exists_append 15 1 imm
    simp (disch := omega) [parseWStat, extract_high, extract_low, -Nat.reduceAdd] at e
    obtain ⟨rfl, rfl, rfl, rfl, rfl, d, rfl, rfl, rfl⟩ := e
    exact ⟨rfl, by simp [bodyWStat, w0]⟩

@[simp] theorem readBack_WSave (w : Word) : ReadBack w (parseWSave (Head.of w) (FmtW.of w)) WSaveOps.g bodyWSave :=
  .ofW fun h f o e => by
    obtain ⟨_, _, _, _, _, _, _, imm⟩ := f
    obtain ⟨hi, lo, rfl⟩ := exists_append 15 1 imm
    simp (disch := omega) [parseWSave, extract_high, extract_low, -Nat.reduceAdd] at e
    obtain ⟨rfl, rfl, rfl, d, rfl, a, rfl, rfl, rfl⟩ := e
    exact ⟨rfl, by simp [bodyWSave, w0]⟩

@[simp] theorem readBack_WRest (w : Word) : ReadBack w (parseWRest (Head.of w) (FmtW.of w)) WRestOps.g bodyWRest :=
  .ofW fun h f o e => by
    cases f
    simp [parseWRest] at e
    obtain ⟨rfl, rfl, rfl, d, rfl, a, rfl, rfl⟩ := e
    exact ⟨rfl, rfl⟩

@[simp] theorem readBack_Recv (w : Word) : ReadBack w (parseRecv (Head.of w) (FmtW.of w)) RecvOps.g bodyRecv :=
  .ofW fun h f o e => by
    cases f
    simp [parseRecv] at e
    obtain ⟨rfl, rfl, rfl, rfl, rfl, d, ⟨rfl, rfl⟩, rfl⟩ := e
    exact ⟨rfl, rfl⟩

@[simp] theorem readBack_Peek (w : Word) : ReadBack w (parsePeek (Head.of w) (FmtW.of w)) PeekOps.g bodyPeek :=
  .ofW fun h f o e => by
    cases f
    simp [parsePeek] at e
    obtain ⟨rfl, rfl, rfl, d, ⟨rfl, rfl⟩, a, rfl, rfl⟩ := e
    exact ⟨rfl, rfl⟩

@[simp] theorem readBack_Send (w : Word) : ReadBack w (parseSend (Head.of w) (FmtW.of w)) SendOps.g bodySend :=
  .ofW fun h f o e => by
    cases f
    simp [parseSend] at e
    obtain ⟨rfl, rfl, rfl, rfl, rfl, d, ⟨rfl, rfl⟩, rfl⟩ := e
    exact ⟨rfl, rfl⟩

@[simp] theorem readBack_VcSet (w : Word) : ReadBack w (parseVcSet (Head.of w) (FmtW.of w)) VcSetOps.g bodyVcSet :=
  .ofW fun h f o e => by
    cases f
    simp [parseVcSet] at e
    obtain ⟨rfl, rfl, rfl, rfl, rfl, rfl, d, rfl, rfl⟩ := e
    exact ⟨rfl, rfl⟩

@[simp] theorem readBack_BarInit (w : Word) : ReadBack w (parseBarInit (Head.of w) (FmtW.of w)) BarInitOps.g bodyBarInit :=
  .ofW fun h f o e => by
    cases f
    simp [parseBarInit] at e
    obtain ⟨rfl, rfl, rfl, rfl, rfl, rfl, d, rfl, bar, rfl, rfl⟩ := e
    exact ⟨rfl, rfl⟩

@[simp] theorem readBack_Bar (w : Word) : ReadBack w (parseBar (Head.of w) (FmtW.of w)) BarOps.g bodyBar :=
  .ofW fun h f o e => by
    cases f
    simp [parseBar] at e
    obtain ⟨rfl, rfl, rfl, rfl, rfl, d, rfl, bar, rfl, rfl⟩ := e
    exact ⟨rfl, by simp [bodyBar, w0]⟩

@[simp] theorem readBack_BarRemote (w : Word) :
    ReadBack w (parseBarRemote (Head.of w) (FmtW.of w)) BarRemoteOps.g bodyBarRemote :=
  .ofW fun h f o e => by
    cases f
    simp [parseBarRemote] at e
    obtain ⟨rfl, rfl, rfl, rfl, rfl, d, rfl, rfl⟩ := e
    exact ⟨rfl, by simp [bodyBarRemote, w0]⟩

@[simp] theorem readBack_Mem (w : Word) : ReadBack w (parseMem (Head.of w) (FmtW.of w)) MemOps.g bodyMem :=
  .ofW fun h f o e => by
    cases f
    simp [parseMem] at e
    obtain ⟨rfl, sz, rfl, d, rfl, a, rfl, rfl⟩ := e
    exact ⟨rfl, by simp [bodyMem, w0]⟩

@[simp] theorem readBack_MWrt (w : Word) : ReadBack w (parseMWrt (Head.of w) (FmtW.of w)) MWrtOps.g bodyMWrt :=
  .ofW fun h f o e => by
    cases f
    simp [parseMWrt] at e
    obtain ⟨rfl, rfl, d, rfl, a, rfl, rfl⟩ := e
    exact ⟨rfl, rfl⟩

/-! Format E -/

@[simp] theorem readBack_MReq (w : Word) : ReadBack w (parseMReq (Head.of w) (FmtE.of w)) MReqOps.g bodyMReq :=
  .ofE fun h f o e => by
    cases f
    simp [parseMReq] at e
    obtain ⟨rfl, rfl, a, rfl, b, rfl, c, rfl, rfl⟩ := e
    exact ⟨rfl, rfl⟩

@[simp] theorem readBack_WReq (w : Word) : ReadBack w (parseWReq (Head.of w) (FmtE.of w)) WReqOps.g bodyWReq :=
  .ofE fun h f o e => by
    cases f
    simp [parseWReq] at e
    obtain ⟨rfl, rfl, rfl, a, rfl, b, rfl, c, rfl, rfl⟩ := e
    exact ⟨rfl, rfl⟩

@[simp] theorem readBack_Cpy (w : Word) : ReadBack w (parseCpy (Head.of w) (FmtE.of w)) CpyOps.g bodyCpy :=
  .ofE fun h f o e => by
    obtain ⟨_, _, _, _, _, xh, _, _⟩ := f
    obtain ⟨hi, lo, rfl⟩ := exists_append 1 3 xh
    simp (disch := omega) [parseCpy, extract_high, extract_low, -Nat.reduceAdd] at e
    obtain ⟨d, rfl, a, rfl, rfl, b, ⟨rfl, rfl⟩, c, rfl, rfl⟩ := e
    exact ⟨rfl, by simp [bodyCpy]⟩

@[simp] theorem readBack_Cpy3 (w : Word) : ReadBack w (parseCpy3 (Head.of w) (FmtE.of w)) Cpy3Ops.g bodyCpy3 :=
  .ofE fun h f o e => by
    cases f
    simp [parseCpy3] at e
    obtain ⟨rfl, d, rfl, a, rfl, b, rfl, c, rfl, rfl⟩ := e
    exact ⟨rfl, by simp [bodyCpy3, e0]⟩

@[simp] theorem readBack_At (w : Word) : ReadBack w (parseAt (Head.of w) (FmtE.of w)) AtOps.g bodyAt :=
  .ofE fun h f o e => by
    obtain ⟨_, _, _, _, _, xh, _, _⟩ := f
    obtain ⟨hi, lo, rfl⟩ := exists_append 1 3 xh
    simp (disch := omega) [parseAt, extract_high, extract_low, -Nat.reduceAdd] at e
    obtain ⟨rfl, a, rfl, b, rfl, c, rfl, rfl, rfl⟩ := e
    exact ⟨rfl, by simp [bodyAt, e0]⟩

@[simp] theorem readBack_AtF (w : Word) : ReadBack w (parseAtF (Head.of w) (FmtE.of w)) AtFOps.g bodyAtF :=
  .ofE fun h f o e => by
    obtain ⟨_, _, _, _, _, xh, _, _⟩ := f
    obtain ⟨hi, lo, rfl⟩ := exists_append 1 3 xh
    simp (disch := omega) [parseAtF, extract_high, extract_low, -Nat.reduceAdd] at e
    obtain ⟨d, rfl, a, rfl, b, rfl, c, rfl, rfl, rfl⟩ := e
    exact ⟨rfl, by simp [bodyAtF]⟩

@[simp] theorem readBack_ACas (w : Word) : ReadBack w (parseACas (Head.of w) (FmtE.of w)) ACasOps.g bodyACas :=
  .ofE fun h f o e => by
    cases f
    simp [parseACas] at e
    obtain ⟨rfl, d, rfl, a, rfl, b, rfl, c, rfl, rfl⟩ := e
    exact ⟨rfl, by simp [bodyACas, e0]⟩

@[simp] theorem readBack_ACasQ (w : Word) : ReadBack w (parseACasQ (Head.of w) (FmtE.of w)) ACasQOps.g bodyACasQ :=
  .ofE fun h f o e => by
    cases f
    simp [parseACasQ] at e
    obtain ⟨rfl, d, rfl, a, rfl, b, rfl, c, rfl, rfl⟩ := e
    exact ⟨rfl, by simp [bodyACasQ, e0]⟩

@[simp] theorem readBack_PSS (w : Word) : ReadBack w (parsePSS (Head.of w) (FmtE.of w)) PSSOps.g bodyPSS :=
  .ofE fun h f o e => by
    cases f
    simp [parsePSS] at e
    obtain ⟨rfl, rfl, rfl, rfl, d, rfl, a, rfl, b, rfl, rfl⟩ := e
    exact ⟨rfl, rfl⟩

@[simp] theorem readBack_PSC (w : Word) : ReadBack w (parsePSC (Head.of w) (FmtE.of w)) PSCOps.g bodyPSC :=
  .ofE fun h f o e => by
    cases f
    simp [parsePSC] at e
    obtain ⟨rfl, rfl, rfl, rfl, d, rfl, a, rfl, b, rfl, rfl⟩ := e
    exact ⟨rfl, rfl⟩

@[simp] theorem readBack_PRun (w : Word) : ReadBack w (parsePRun (Head.of w) (FmtE.of w)) PRunOps.g bodyPRun :=
  .ofE fun h f o e => by
    cases f
    simp [parsePRun] at e
    obtain ⟨rfl, rfl, d, rfl, a, rfl, b, rfl, rfl⟩ := e
    exact ⟨rfl, by simp [bodyPRun, e0]⟩

@[simp] theorem readBack_PS (w : Word) : ReadBack w (parsePS (Head.of w) (FmtE.of w)) PSOps.g bodyPS :=
  .ofE fun h f o e => by
    cases f
    simp [parsePS] at e
    obtain ⟨rfl, rfl, rfl, rfl, rfl, d, rfl, a, rfl, rfl⟩ := e
    exact ⟨rfl, rfl⟩

@[simp] theorem readBack_PResume (w : Word) : ReadBack w (parsePResume (Head.of w) (FmtE.of w)) PResumeOps.g bodyPResume :=
  .ofE fun h f o e => by
    cases f
    simp [parsePResume] at e
    obtain ⟨rfl, rfl, rfl, d, rfl, a, rfl, rfl⟩ := e
    exact ⟨rfl, by simp [bodyPResume, e0]⟩

@[simp] theorem readBack_Pins (w : Word) : ReadBack w (parsePins (Head.of w) (FmtE.of w)) PinsOps.g bodyPins :=
  .ofE fun h f o e => by
    cases f
    simp [parsePins] at e
    obtain ⟨rfl, rfl, rfl, d, rfl, a, rfl, b, rfl, rfl⟩ := e
    exact ⟨rfl, by simp [bodyPins, e0]⟩

@[simp] theorem readBack_PTake (w : Word) : ReadBack w (parsePTake (Head.of w) (FmtE.of w)) PTakeOps.g bodyPTake :=
  .ofE fun h f o e => by
    cases f
    simp [parsePTake] at e
    obtain ⟨rfl, rfl, d, rfl, a, rfl, b, rfl, k, rfl, rfl⟩ := e
    exact ⟨rfl, by simp [bodyPTake, e0]⟩

@[simp] theorem readBack_XFillR (w : Word) : ReadBack w (parseXFillR (Head.of w) (FmtE.of w)) XFillROps.g bodyXFillR :=
  .ofE fun h f o e => by
    cases f
    simp [parseXFillR] at e
    obtain ⟨rfl, d, rfl, a, rfl, b, rfl, c, rfl, rfl⟩ := e
    exact ⟨rfl, by simp [bodyXFillR, e0]⟩

@[simp] theorem readBack_XBar (w : Word) : ReadBack w (parseXBar (Head.of w) (FmtE.of w)) XBarOps.g bodyXBar :=
  .ofE fun h f o e => by
    cases f
    simp [parseXBar] at e
    obtain ⟨rfl, rfl, rfl, rfl, d, rfl, a, rfl, rfl⟩ := e
    exact ⟨rfl, by simp [bodyXBar, e0]⟩

end Sys2Proof.Safety
end

section
/-! SUPPORT. A word that decodes is the word of its instruction. -/

namespace Sys2Proof.Safety

open Sys2Proof.Machine

/-! Every arm of the parser gives back an instruction whose word is the one parsed -/

/-- A field whose value is known. -/
theorem ofNat_of_toNat_eq {n k : Nat} {b : BitVec n} (h : b.toNat = k) : BitVec.ofNat n k = b := by
  rw [← h, BitVec.ofNat_toNat, BitVec.setWidth_eq]

/-- A head is made of its OP, its FN and its guard. -/
theorem mkHead_of {h : Head} {op fn : Nat} (hop : h.op.toNat = op) (hfn : h.fn.toNat = fn) : mkHead op fn h.guard = h := by
  unfold mkHead
  rw [ofNat_of_toNat_eq hop, ofNat_of_toNat_eq hfn]
  simp only [Head.guard, bit1_bool1, unfin_fin]

/-- The instruction given, if any, has w as its word. -/
def RoundTrips (w : Word) (p : Except Reject Instr) : Prop := ∀ i, p = .ok i → encode i = some w

namespace RoundTrips
variable {w : Word}

theorem error (e : Reject) : RoundTrips w (.error e) := fun _ h => nomatch h

/-- The words of one OP and FN, whose operands are read back. -/
theorem map {α : Type} {p : Except Reject α} {c : α → Instr} {g : α → Guard} {body : α → BitVec 48} {op fn : Nat}
    (hop : (Head.of w).op.toNat = op) (hfn : (Head.of w).fn.toNat = fn)
    (enc : ∀ o, encode (c o) = some ((mkHead op fn (g o)).pack (body o))) (hp : ReadBack w p g body) :
    RoundTrips w (p.map c) := by
  intro i h
  cases p with
  | error e => nomatch h
  | ok o =>
    obtain rfl : c o = i := Except.ok.inj h
    obtain ⟨hg, hb⟩ := hp o rfl
    rw [enc, hg, hb, mkHead_of hop hfn, Head.pack_of]

/-- The words without operands, whose every field below OP is 0. -/
theorem unit0 {i : Instr} {op : Nat} (hop : (Head.of w).op.toNat = op)
    (enc : encode i = some (BitVec.ofNat 8 op ++ (0 : BitVec 56))) : RoundTrips w (parseUnit0 w i) := by
  intro j h
  obtain ⟨u, hlow, h⟩ := except_bind_eq_ok.1 h
  obtain rfl : i = j := Except.ok.inj h
  replace hlow := eq_zero_of_need0 hlow
  rw [enc, ofNat_of_toNat_eq hop, ← hlow]
  simp only [Head.of, extract_join, BitVec.extractLsb'_eq_self]

theorem ite {c : Prop} {_ : Decidable c} {p q : Except Reject Instr} (hp : RoundTrips w p) (hq : RoundTrips w q) :
    RoundTrips w (if c then p else q) := by
  split
  · exact hp
  · exact hq

/-- One comparison of the parser's match on OP and FN. -/
theorem compare {n k : Nat} {d : Decidable (n = k)} {p : Except Reject Instr} {q : ¬ n = k → Except Reject Instr}
    (hp : n = k → RoundTrips w p) (hq : ∀ h, RoundTrips w (q h)) :
    RoundTrips w (@dite _ (n = k) d (Eq.ndrec_symm (motive := fun _ => Except Reject Instr) p) q) := by
  split
  next h => subst h; exact hp rfl
  next h => exact hq h

end RoundTrips

/-- The match on OP and FN is taken as the comparisons that it is compiled to, one arm behind each: the case
principle that `split` would build for its 226 overlapping arms does not elaborate within the limits. -/
theorem roundTrips_parse (w : Word) : RoundTrips w (parse w) := by
  unfold parse parse.match_1
  dsimp only
  repeat' with_reducible refine .compare (fun _ => ?_) (fun _ => ?_)
  repeat' with_reducible refine .ite ?_ ?_
  any_goals with_reducible exact .error _
  any_goals with_reducible exact .unit0 ‹_› rfl
  all_goals exact .map ‹_› ‹_› (fun _ => rfl) (by simp)

/-- What decodes has been parsed. -/
theorem parse_of_decode {w : Word} {i : Instr} (h : decode w = .ok i) : parse w = .ok i := by
  unfold decode at h
  obtain ⟨j, hj, h⟩ := except_bind_eq_ok.1 h
  split at h
  · rw [hj, Except.ok.inj h]
  · nomatch h

/-- Settles O3: what decodes passed the checks of the entries, and every arm of the parser is undone by the encoder. -/
theorem wordsHaveOneInstruction : Obligations.WordsHaveOneInstruction := by
  unfold Obligations.WordsHaveOneInstruction
  intro w i h
  exact ⟨wf_of_decode h, roundTrips_parse w i (parse_of_decode h)⟩

end Sys2Proof.Safety
end

section
/-! SUPPORT. Reading a record of the machine after an update of one: the record that was written, and every other as before. -/

namespace Sys2Proof.Machine

@[simp] theorem State.res?_modRes (s : State) (k q : Nat) (f : Res → Res) :
    (s.modRes k f).res? q = if q = k then (s.res? k).map f else s.res? q := tget_tmod ..

@[simp] theorem State.tile?_modTile (s : State) (e q : ElemRef) (f : Tile → Tile) :
    (s.modTile e f).tile? q = if q = e then (s.tile? e).map f else s.tile? q := tget_tmod ..

@[simp] theorem State.elem?_modElem (s : State) (e q : ElemRef) (f : Elem → Elem) :
    (s.modElem e f).elem? q = if q = e then (s.elem? e).map f else s.elem? q := tget_tmod ..

@[simp] theorem State.chan?_modChan (s : State) (c q : ChanRef) (f : Chan → Chan) :
    (s.modChan c f).chan? q = if q = c then (s.chan? c).map f else s.chan? q := tget_tmod ..

@[simp] theorem State.ctx?_modCtx (s : State) (r q : CtxRef) (f : Ctx → Ctx) :
    (s.modCtx r f).ctx? q = if q = r then (s.ctx? r).map f else s.ctx? q := tget_tmod ..

theorem State.ctx?_congr {s t : State} (h : t.ctxs = s.ctxs) (q : CtxRef) : t.ctx? q = s.ctx? q := by rw [State.ctx?, h, State.ctx?]
theorem State.res?_congr {s t : State} (h : t.ress = s.ress) (q : Nat) : t.res? q = s.res? q := by rw [State.res?, h, State.res?]
theorem State.tile?_congr {s t : State} (h : t.tiles = s.tiles) (q : ElemRef) : t.tile? q = s.tile? q := by rw [State.tile?, h, State.tile?]
theorem State.elem?_congr {s t : State} (h : t.elems = s.elems) (q : ElemRef) : t.elem? q = s.elem? q := by rw [State.elem?, h, State.elem?]
theorem State.chan?_congr {s t : State} (h : t.chans = s.chans) (q : ChanRef) : t.chan? q = s.chan? q := by rw [State.chan?, h, State.chan?]
theorem State.bar_congr {s t : State} (h : t.bars = s.bars) (q : BarRef) : t.bar q = s.bar q := by rw [State.bar, h, State.bar]

@[simp] theorem State.res?_finish (s : State) (r : CtxRef) (x : Ctx) (q : Nat) : (s.finish r x).res? q = s.res? q :=
  State.res?_congr (State.finish_ress ..) q
@[simp] theorem State.tile?_finish (s : State) (r : CtxRef) (x : Ctx) (q : ElemRef) : (s.finish r x).tile? q = s.tile? q :=
  State.tile?_congr (State.finish_tiles ..) q
@[simp] theorem State.bar_finish (s : State) (r : CtxRef) (x : Ctx) (q : BarRef) : (s.finish r x).bar q = s.bar q :=
  State.bar_congr (State.finish_bars ..) q

@[simp] theorem State.ctx?_modRes (s : State) (k : Nat) (f : Res → Res) (q : CtxRef) : (s.modRes k f).ctx? q = s.ctx? q := rfl
@[simp] theorem State.ctx?_modTile (s : State) (e : ElemRef) (f : Tile → Tile) (q : CtxRef) : (s.modTile e f).ctx? q = s.ctx? q := rfl
@[simp] theorem State.ctx?_setBar (s : State) (k : BarRef) (b : Bar) (q : CtxRef) : (s.setBar k b).ctx? q = s.ctx? q := rfl

end Sys2Proof.Machine
end

section
/-! SUPPORT. smov: what each system register reads, and where a write of one leaves the machine. -/

namespace Sys2Proof.Machine

open Sys2Proof.Safety

/-! Reads (R28, R29, R131) -/

/-- A register without access S that is assigned reads its value. -/
theorem smovReads_of_sysRead {n : Nat} {f : State → CtxRef → Ctx → Word} (hS : sysReadS n = false)
    (hread : ∀ s r x, s.sysRead r x n = some (f s r x)) : SmovReads n f := by
  rintro s r x o hi hg rfl
  refine Laws.completes_of_finish ?_
  rw [exec_smovRead, execSmovRead, Laws.runWord_true hi hg, hS, hread]
  rfl

/-- A register of access S reads its value in a supervisor context, and traps in any other. -/
theorem smovReadsS_of_sysRead {n : Nat} {f : State → CtxRef → Ctx → Word} (hS : sysReadS n = true)
    (hread : ∀ s r x, s.sysRead r x n = some (f s r x)) : SmovReadsS n f := by
  rintro s r x o hi hg rfl
  refine ⟨fun hsup => Laws.completes_of_finish ?_, fun hsup => ?_⟩
  · rw [exec_smovRead, execSmovRead, Laws.runWord_true hi hg, hS, hsup, hread]
    rfl
  · rw [Traps, exec_smovRead, execSmovRead, Laws.runWord_true hi hg, hS, hsup]
    rfl

/-- A register of a tile's element, in a context whose element stands. -/
theorem completes_smovRead {s : State} {r : CtxRef} {x : Ctx} {o : SmovOps} {w : Word} (hi : Issues s r x)
    (hg : x.guard0 o.g = true) (hS : sysReadS o.reg.toNat = false) (hread : s.sysRead r x o.reg.toNat = some w) :
    Completes (.smovRead o) s r (x.ss o.d w) := by
  refine Laws.completes_of_finish ?_
  rw [exec_smovRead, execSmovRead, Laws.runWord_true hi hg, hS, hread]
  rfl

theorem fields_nil : fields [] = 0 := rfl
theorem fields_cons (p : Nat × Nat) (l : List (Nat × Nat)) : fields (p :: l) = p.2 * 2 ^ p.1 + fields l := by
  rw [fields, List.foldl_cons, foldl_fields_add, Nat.zero_add]

theorem boolNat_mul (b : Bool) (n : Nat) : boolNat b * n = if b then n else 0 := by cases b <;> simp [boolNat]

theorem foldl_two_pow (l : List (Nat × Nat × Nat)) (a : Nat) :
    l.foldl (fun a d => a + 2 ^ d.1) a = a + (l.map fun d => 2 ^ d.1).sum := by
  induction l generalizing a with
  | nil => rfl
  | cons d l ih => simp [ih, Nat.add_assoc]

section
variable (s : State) (r : CtxRef) (x : Ctx)

theorem sysRead_ctxId : s.sysRead r x 0x000 = some (BitVec.ofNat 64 (r.ctx % 8 + if x.sup then 8 else 0)) := by
  have hfields : fields [(0, r.ctx % 8), (3, boolNat x.sup)] = r.ctx % 8 + if x.sup then 8 else 0 := by
    simp only [fields_cons, fields_nil, boolNat_mul, Nat.reducePow]; omega
  exact congrArg (fun n => some (BitVec.ofNat 64 n)) hfields

theorem sysRead_ctxState : s.sysRead r x 0x001 = some (BitVec.ofNat 64 (3 + (if x.trapped then 16 else 0) +
    (if x.preempted then 32 else 0) + x.pc.toNat * 2 ^ 8 + x.waitop.toNat * 2 ^ 24)) := by
  have hfields : fields [(0, 3), (4, boolNat x.trapped), (5, boolNat x.preempted), (8, x.pc.toNat), (24, x.waitop.toNat)] =
      3 + (if x.trapped then 16 else 0) + (if x.preempted then 32 else 0) + x.pc.toNat * 2 ^ 8 + x.waitop.toNat * 2 ^ 24 := by
    simp only [fields_cons, fields_nil, boolNat_mul, Nat.reducePow]; omega
  exact congrArg (fun n => some (BitVec.ofNat 64 n)) hfields

theorem sysRead_pmc (i : Fin 16) : s.sysRead r x (0x020 + i) = some (x.pmc.get i) := by
  simp (disch := omega) only [State.sysRead, Bool.and_eq_true, decide_eq_true_eq, ↓if_neg, ↓if_pos, dif_pos, Nat.add_sub_cancel_left]

theorem sysRead_pmcSel (i : Fin 16) : s.sysRead r x (0x030 + i) = some ((x.pmcSel.get i).zeroExtend 64) := by
  simp (disch := omega) only [State.sysRead, Bool.and_eq_true, decide_eq_true_eq, ↓if_neg, ↓if_pos, dif_pos, Nat.add_sub_cancel_left]

theorem sysRead_arbWeight (i : Fin 8) :
    s.sysRead r x (0x100 + i) = some ((((s.tile? r.tile).getD {}).weight.get i).zeroExtend 64) := by
  simp (disch := omega) only [State.sysRead, Bool.and_eq_true, decide_eq_true_eq, ↓if_neg, ↓if_pos, dif_pos, Nat.add_sub_cancel_left]

theorem sysRead_arbFloor (i : Fin 8) :
    s.sysRead r x (0x108 + i) = some ((((s.tile? r.tile).getD {}).floor.get i).zeroExtend 64) := by
  simp (disch := omega) only [State.sysRead, Bool.and_eq_true, decide_eq_true_eq, ↓if_neg, ↓if_pos, dif_pos, Nat.add_sub_cancel_left]

theorem sysRead_vcDesc (vc : Fin 32) : s.sysRead r x (0x140 + vc) = some (((s.chan? (r.tile.chan vc.val)).getD {}).desc) := by
  simp (disch := omega) only [State.sysRead, Bool.and_eq_true, decide_eq_true_eq, ↓if_neg, ↓if_pos, dif_pos, Nat.add_sub_cancel_left]
  cases s.chan? (r.tile.chan vc.val) <;> rfl

theorem Chan.desc_eq (c : Chan) : c.desc =
    BitVec.ofNat 64 (c.slots % 2 ^ 7 + (if c.en then 2 ^ 7 else 0) + 2 ^ 8 * c.fmt.toNat + 2 ^ 24 * c.scale.toNat) := by
  rw [Chan.desc]
  congr 1
  simp only [fields_cons, fields_nil, boolNat_mul]
  omega

theorem sysRead_barNote (b : Fin 96) : s.sysRead r x (0x180 + b) = some (s.bar ⟨r.rid, r.elem, b⟩).note := by
  simp (disch := omega) only [State.sysRead, Bool.and_eq_true, decide_eq_true_eq, ↓if_neg, ↓if_pos, dif_pos, Nat.add_sub_cancel_left]

theorem sysRead_barState (b : Fin 96) : s.sysRead r x (0x300 + b) = some (s.bar ⟨r.rid, r.elem, b⟩).word := by
  simp (disch := omega) only [State.sysRead, Bool.and_eq_true, decide_eq_true_eq, ↓if_neg, ↓if_pos, dif_pos, Nat.add_sub_cancel_left]

theorem Bar.word_eq (z : Bar) : z.word = BitVec.ofNat 64 (z.init.toNat + z.pending.toNat * 2 ^ 8 +
    (if z.phase then 2 ^ 16 else 0) + (if z.relp then 2 ^ 17 else 0)) := by
  rw [Bar.word]
  congr 1
  simp only [fields_cons, fields_nil, boolNat_mul]
  omega

theorem sysRead_regionShape : s.sysRead r x 0x202 = some (BitVec.ofNat 64 ((resOf s r).width % 2 ^ 8 +
    2 ^ 8 * ((resOf s r).height % 2 ^ 8) + 2 ^ 16 * (((resOf s r).dies.map fun d => 2 ^ d.1).sum % 2 ^ 8))) := by
  have hshape : s.sysRead r x 0x202 = some (resOf s r).shape := rfl
  rw [hshape, Res.shape, foldl_two_pow, Nat.zero_add]
  congr 2
  simp only [fields_cons, fields_nil]
  omega

variable {s r} in
theorem sysRead_tileId {e : Elem} (he : s.elem? r.tile = some e) :
    s.sysRead r x 0x130 = some (BitVec.ofNat 64 (e.die + 2 ^ 8 * e.x + 2 ^ 16 * e.y)) := by
  have htile : s.sysRead r x 0x130 = some (BitVec.ofNat 64 (match s.elem? r.tile with | some e => e.tileId | none => 0)) := rfl
  rw [htile, he]
  rfl

variable {s r} in
theorem sysRead_softCnt {e : Elem} (he : s.elem? r.tile = some e) :
    s.sysRead r x 0x360 = some (((tget s.softTiles (e.die, e.x, e.y)).getD 0).zeroExtend 64) := by
  have hsite : s.sysRead r x 0x360 = some (((tget s.softTiles
      (match s.elem? r.tile with | some e => (e.die, e.x, e.y) | none => (0, 0, 0))).getD 0).zeroExtend 64) := rfl
  rw [hsite, he]

theorem sysReadS_of_lt {n : Nat} (h : n < 0x200) : sysReadS n = false := by
  simp [sysReadS]; omega

theorem sysReadS_of_gt {n : Nat} (h : 0x211 < n) : sysReadS n = false := by
  simp [sysReadS]; omega

end

/-- Settles O21: register by register, by the value that each number reads and the four of access S. -/
theorem systemRegisterReads : Obligations.SystemRegisterReads := by
  have low {n : Nat} {f : State → CtxRef → Ctx → Word} (h : n < 0x200) (hread : ∀ s r x, s.sysRead r x n = some (f s r x)) :
      SmovReads n f := smovReads_of_sysRead (sysReadS_of_lt h) hread
  refine ⟨low (by decide) sysRead_ctxId, low (by decide) sysRead_ctxState,
    low (by decide) fun _ _ _ => rfl, low (by decide) fun _ _ _ => rfl, low (by decide) fun _ _ _ => rfl, low (by decide) fun _ _ _ => rfl,
    low (by decide) fun _ _ _ => rfl, low (by decide) fun _ _ _ => rfl, low (by decide) fun _ _ _ => rfl, low (by decide) fun _ _ _ => rfl,
    low (by decide) fun _ _ _ => rfl, low (by decide) fun _ _ _ => rfl, low (by decide) fun _ _ _ => rfl, low (by decide) fun _ _ _ => rfl,
    fun i => low (by omega) fun s r x => sysRead_pmc s r x i, fun i => low (by omega) fun s r x => sysRead_pmcSel s r x i,
    fun i => low (by omega) fun s r x => sysRead_arbWeight s r x i, fun i => low (by omega) fun s r x => sysRead_arbFloor s r x i,
    low (by decide) fun _ _ _ => rfl, low (by decide) fun _ _ _ => rfl,
    fun b => low (by omega) fun s r x => sysRead_barNote s r x b,
    fun b => smovReads_of_sysRead (sysReadS_of_gt (by omega)) fun s r x => (sysRead_barState s r x b).trans (congrArg some (Bar.word_eq _)),
    smovReads_of_sysRead rfl fun _ _ _ => rfl, smovReadsS_of_sysRead rfl fun _ _ _ => rfl, smovReadsS_of_sysRead rfl fun _ _ _ => rfl,
    smovReadsS_of_sysRead rfl fun _ _ _ => rfl, smovReadsS_of_sysRead rfl fun _ _ _ => rfl, low (by decide) fun _ _ _ => rfl,
    fun s r x o e hi hg hn he => completes_smovRead hi hg (by rw [hn]; rfl) (by rw [hn]; exact sysRead_tileId x he),
    fun vc => low (by omega) fun s r x => (sysRead_vcDesc s r x vc).trans (congrArg some (Chan.desc_eq _)),
    smovReads_of_sysRead rfl sysRead_regionShape,
    fun s r x o e hi hg hn he => completes_smovRead hi hg (by rw [hn]; rfl) (by rw [hn]; exact sysRead_softCnt x he)⟩

end Sys2Proof.Machine
end

section
/-! SUPPORT. smov: where a write of a system register leaves the machine. -/

namespace Sys2Proof.Machine

open Sys2Proof.Safety

/-! Writes (R28, R30, R131) -/

section
variable {s : State} {r : CtxRef} {x : Ctx} {o : SmovOps} (hi : Issues s r x) (hg : x.guard0 o.g = true)
include hi hg

/-- A write that the privilege admits finishes with what `sysWrite` leaves. -/
theorem exec_smovWrite_of_sysWrite (hS : sysWriteS o.reg.toNat = false ∨ x.sup = true) {u : State} {y : Ctx}
    (hw : s.sysWrite r x o.reg.toNat (x.gs o.d) = some (u, y)) : exec (.smovWrite o) s = .next (u.finish r y) := by
  have hpriv : (sysWriteS o.reg.toNat && !x.sup) = false := by rcases hS with h | h <;> simp [h]
  rw [exec_smovWrite, execSmovWrite, Laws.runWord_true hi hg, hpriv, hw]
  rfl

/-- A write that changes the context alone completes. -/
theorem completes_smovWrite (hS : sysWriteS o.reg.toNat = false ∨ x.sup = true) {y : Ctx}
    (hw : s.sysWrite r x o.reg.toNat (x.gs o.d) = some (s, y)) : Completes (.smovWrite o) s r y :=
  Laws.completes_of_finish (exec_smovWrite_of_sysWrite hi hg hS hw)

end

/-- A register that no privilege guards takes its value, and nothing else changes. -/
theorem smovWrites_of_sysWrite {n : Nat} {f : Ctx → Word → Ctx} (hS : sysWriteS n = false)
    (hw : ∀ (s : State) r x w, s.sysWrite r x n w = some (s, f x w)) : SmovWrites n f := by
  rintro s r x o hi hg rfl
  exact completes_smovWrite hi hg (.inl hS) (hw ..)

theorem smovWritePriv_of_sysWriteS {n : Nat} (hS : sysWriteS n = true) : SmovWritePriv n := by
  rintro s r x o hi hg rfl hsup
  rw [Traps, exec_smovWrite, execSmovWrite, Laws.runWord_true hi hg, hS, hsup]
  rfl

theorem sysWriteS_of_range {n : Nat} (h : 0x100 ≤ n ∧ n ≤ 0x10F ∨ 0x300 ≤ n ∧ n ≤ 0x35F) : sysWriteS n = true := by
  simp only [sysWriteS, Bool.or_eq_true, Bool.and_eq_true, decide_eq_true_eq]
  omega

theorem sysWriteS_of_free {n : Nat} (h : 0x020 ≤ n ∧ n ≤ 0x03F ∨ 0x180 ≤ n ∧ n ≤ 0x1DF) : sysWriteS n = false := by
  simp only [sysWriteS, sysReadS, Bool.or_eq_false_iff, Bool.and_eq_false_iff, decide_eq_false_iff_not]
  omega

section
variable (s : State) (r : CtxRef) (x : Ctx) (w : Word)

theorem sysWrite_pmc (i : Fin 16) : s.sysWrite r x (0x020 + i) w = some (s, { x with pmc := x.pmc.set i.val w i.isLt }) := by
  simp (disch := omega) only [State.sysWrite, ↓if_neg, ↓dif_pos, Nat.add_sub_cancel_left]

theorem sysWrite_pmcSel (i : Fin 16) :
    s.sysWrite r x (0x030 + i) w = some (s, { x with pmcSel := x.pmcSel.set i.val (w.extractLsb' 0 8) i.isLt }) := by
  simp (disch := omega) only [State.sysWrite, ↓if_neg, ↓dif_neg, ↓dif_pos, Nat.add_sub_cancel_left]

theorem sysWrite_arbWeight (i : Fin 8) : s.sysWrite r x (0x100 + i) w =
    some (s.modTile r.tile fun t => { t with pend := t.pend ++ [.weight i (w.extractLsb' 0 4)] }, x) := by
  simp (disch := omega) only [State.sysWrite, ↓if_neg, ↓dif_neg, ↓dif_pos, Nat.add_sub_cancel_left, Fin.eta]

theorem sysWrite_arbFloor (i : Fin 8) : s.sysWrite r x (0x108 + i) w =
    some (s.modTile r.tile fun t => { t with floor := t.floor.set i.val (w.extractLsb' 0 4) i.isLt }, x) := by
  simp (disch := omega) only [State.sysWrite, ↓if_neg, ↓dif_neg, ↓dif_pos, Nat.add_sub_cancel_left]

theorem sysWrite_barNote (b : Fin 96) : s.sysWrite r x (0x180 + b) w =
    some (s.setBar ⟨r.rid, r.elem, b⟩ { s.bar ⟨r.rid, r.elem, b⟩ with note := w }, x) := by
  simp (disch := omega) only [State.sysWrite, Bool.and_eq_true, decide_eq_true_eq, ↓if_neg, ↓dif_neg, ↓if_pos, Nat.add_sub_cancel_left]

theorem sysWrite_barState (b : Fin 96) : s.sysWrite r x (0x300 + b) w =
    some (s.modTile r.tile fun t => { t with pend := t.pend ++ [.bar b w] }, x) := by
  simp (disch := omega) only [State.sysWrite, Bool.and_eq_true, decide_eq_true_eq, ↓if_neg, ↓dif_neg, ↓if_pos, Nat.add_sub_cancel_left]

end

/-- A residency's registers after a write of the one with number n (R28, R131). -/
def Res.sysWrite (rs : Res) (n : Nat) (w : Word) : Res :=
  if n = 0x200 then { rs with dlQuiet := BitVec.ofNat 64 (max 1024 (min w.toNat (2 ^ 32 - 1))) }
  else if n = 0x203 then { rs with stallCnt := w, armed := true }
  else if n = 0x210 then { rs with traceCtl := w &&& 3 }
  else { rs with sampleRate := w &&& 0xFFFF }

/-- A number of the registers that a residency holds. -/
def ResReg (n : Nat) : Prop := n = 0x200 ∨ n = 0x203 ∨ n = 0x210 ∨ n = 0x211

theorem sysWrite_resReg {n : Nat} (hn : ResReg n) (s : State) (r : CtxRef) (x : Ctx) (w : Word) :
    s.sysWrite r x n w = some (s.modRes r.rid (·.sysWrite n w), x) := by
  rcases hn with rfl | rfl | rfl | rfl <;> rfl

theorem toNat_and_low (w : Word) (k : Nat) (hk : k < 64) : (w &&& BitVec.ofNat 64 (2 ^ k - 1)).toNat = w.toNat % 2 ^ k := by
  have hlt : 2 ^ k - 1 < 2 ^ 64 := (Nat.sub_le ..).trans_lt (Nat.pow_lt_pow_right (by decide) hk)
  rw [BitVec.toNat_and, BitVec.toNat_ofNat, Nat.mod_eq_of_lt hlt, Nat.and_two_pow_sub_one_eq_mod]

/-- What a write of a residency's register leaves in each of them, and in the letters and the stop. -/
theorem Res.sysWrite_spec {n : Nat} (hn : ResReg n) (rs : Res) (w : Word) :
    (rs.sysWrite n w).dlQuiet.toNat = (if n = 0x200 then max 1024 (min w.toNat (2 ^ 32 - 1)) else rs.dlQuiet.toNat) ∧
      (rs.sysWrite n w).stallCnt = (if n = 0x203 then w else rs.stallCnt) ∧
      (rs.sysWrite n w).traceCtl.toNat = (if n = 0x210 then w.toNat % 4 else rs.traceCtl.toNat) ∧
      (rs.sysWrite n w).sampleRate.toNat = (if n = 0x211 then w.toNat % 2 ^ 16 else rs.sampleRate.toNat) ∧
      (rs.sysWrite n w).letters = rs.letters ∧ (rs.sysWrite n w).stopped = rs.stopped := by
  rcases hn with rfl | rfl | rfl | rfl
  · exact ⟨BitVec.toNat_ofNat .. |>.trans (Nat.mod_eq_of_lt (by omega)), rfl, rfl, rfl, rfl, rfl⟩
  · exact ⟨rfl, rfl, rfl, rfl, rfl, rfl⟩
  · exact ⟨rfl, rfl, toNat_and_low w 2 (by decide), rfl, rfl, rfl⟩
  · exact ⟨rfl, rfl, rfl, toNat_and_low w 16 (by decide), rfl, rfl⟩

/-- A write into the tile touches, beside the tile, the issuing context alone. -/
theorem onlyContext_finish_modTile (s : State) (r : CtxRef) (x : Ctx) (e : ElemRef) (f : Tile → Tile) :
    OnlyContext s { (s.modTile e f).finish r x with tiles := s.tiles } r where
  others q hq := (State.ctx?_finish ..).trans (if_neg hq)
  rest := by unfold State.finish State.active; split <;> rfl
  bytes := Laws.sameBytes_of (State.finish_gddr ..) (State.finish_bulk ..) (State.finish_host ..) (State.finish_elems ..)
    (State.finish_gddrTags ..) (State.finish_bulkTags ..)

/-- A write into the tile that the privilege admits: the tile as it leaves it, the context past the word, and nothing else. -/
theorem smovWrite_tile {s : State} {r : CtxRef} {x : Ctx} {o : SmovOps} {k : Tile} {f : Tile → Tile} (hi : Issues s r x)
    (hg : x.guard0 o.g = true) (hsup : x.sup = true) (hk : s.tile? r.tile = some k)
    (hw : s.sysWrite r x o.reg.toNat (x.gs o.d) = some (s.modTile r.tile f, x)) :
    ∃ t y, exec (.smovWrite o) s = .next t ∧ t.ctx? r = some y ∧ Past x y ∧ t.tile? r.tile = some (f k) ∧
      (∀ e, e ≠ r.tile → t.tile? e = s.tile? e) ∧ OnlyContext s { t with tiles := s.tiles } r := by
  refine ⟨_, x.complete, exec_smovWrite_of_sysWrite hi hg (.inr hsup) hw, by simp, Laws.past_complete x, by simp [hk],
    fun e he => by simp [he], onlyContext_finish_modTile ..⟩

theorem toNat_extract_low (w : Word) (k : Nat) : (w.extractLsb' 0 k).toNat = w.toNat % 2 ^ k := by
  rw [BitVec.extractLsb'_toNat, Nat.shiftRight_zero]

/-- Settles O22: a write that the privilege admits leaves what `sysWrite` says of its number; the privilege turns away the others. -/
theorem systemRegisterWrites : Obligations.SystemRegisterWrites := by
  refine ⟨smovWrites_of_sysWrite rfl fun _ _ _ _ => rfl, smovWrites_of_sysWrite rfl fun _ _ _ _ => rfl,
    smovWrites_of_sysWrite rfl fun _ _ _ _ => rfl, smovWrites_of_sysWrite rfl fun _ _ _ _ => rfl,
    smovWrites_of_sysWrite rfl fun _ _ _ _ => rfl,
    fun i => smovWrites_of_sysWrite (sysWriteS_of_free (by omega)) fun s r x w => sysWrite_pmc s r x w i,
    fun i => smovWrites_of_sysWrite (sysWriteS_of_free (by omega)) fun s r x w => sysWrite_pmcSel s r x w i,
    fun s r x o hi hg hsup => ⟨fun hn => ?_, fun hn => ?_, fun rs hrs n hn hreg => ?_, fun k hk => ⟨fun i hn => ?_, fun i hn => ?_, fun b hn => ?_⟩⟩,
    fun s e k i v hk => by simp [State.applyPend, hk],
    fun s e b w => ?_, fun b s r x o hi hg hn => ?_,
    smovWritePriv_of_sysWriteS rfl, smovWritePriv_of_sysWriteS rfl, fun i => smovWritePriv_of_sysWriteS (sysWriteS_of_range (by omega)),
    smovWritePriv_of_sysWriteS rfl, smovWritePriv_of_sysWriteS rfl, smovWritePriv_of_sysWriteS rfl, smovWritePriv_of_sysWriteS rfl,
    fun b => smovWritePriv_of_sysWriteS (sysWriteS_of_range (by omega))⟩
  case refine_1 => exact completes_smovWrite hi hg (.inr hsup) (by rw [hn]; rfl)
  case refine_2 => exact ⟨_, toNat_and_low (x.gs o.d) 8 (by decide), completes_smovWrite hi hg (.inr hsup) (by rw [hn]; rfl)⟩
  case refine_3 =>
    subst hn
    obtain ⟨hquiet, hstall, htrace, hrate, hletters, hstopped⟩ := Res.sysWrite_spec hreg rs (x.gs o.d)
    exact ⟨_, x.complete, rs.sysWrite o.reg.toNat (x.gs o.d),
      exec_smovWrite_of_sysWrite hi hg (.inr hsup) (sysWrite_resReg hreg s r x _), by simp, Laws.past_complete x, by simp [hrs],
      hquiet, hstall, htrace, hrate, hletters, hstopped, fun q hq => by simp [hq],
      Laws.sameBytes_of (by simp) (by simp) (by simp) (by simp) (by simp) (by simp)⟩
  case refine_4 => exact ⟨_, toNat_extract_low _ 4, smovWrite_tile hi hg hsup hk (by rw [hn]; exact sysWrite_arbFloor ..)⟩
  case refine_5 => exact ⟨_, toNat_extract_low _ 4, smovWrite_tile hi hg hsup hk (by rw [hn]; exact sysWrite_arbWeight ..)⟩
  case refine_6 => exact smovWrite_tile hi hg hsup hk (by rw [hn]; exact sysWrite_barState ..)
  case refine_7 =>
    intro z
    have hz : z = (s.bar ⟨e.rid, e.elem, b⟩).load w := (State.bar_setBar ..).trans (if_pos rfl)
    rw [hz]
    exact ⟨toNat_extract_low w 8, (BitVec.extractLsb'_toNat ..).trans (by rw [Nat.shiftRight_eq_div_pow]), rfl, rfl, rfl⟩
  case refine_8 =>
    have hw := (congrArg (fun n => s.sysWrite r x n (x.gs o.d)) hn).trans (sysWrite_barNote s r x (x.gs o.d) b)
    refine ⟨_, x.complete, exec_smovWrite_of_sysWrite hi hg (.inl (sysWriteS_of_free (by omega))) hw, by simp, Laws.past_complete x,
      by simp, fun k hk => by simp [hk], fun q hq => by simp [hq], Laws.sameBytes_of (by simp) (by simp) (by simp) (by simp) (by simp) (by simp)⟩

end Sys2Proof.Machine
end

section
/-! SUPPORT. Barriers: what one arrival does, what the barrier words leave, and the arrivals that reach a tile. -/

namespace Sys2Proof.Machine

open Sys2Proof.Safety

/-! What a word leaves of the machine beside its context -/

theorem onlyContext_setCtx (s : State) (r : CtxRef) (x : Ctx) : OnlyContext s (s.setCtx r x) r where
  others _ hq := (State.ctx?_setCtx ..).trans (if_neg hq)
  rest := rfl
  bytes := Laws.sameBytes_of rfl rfl rfl rfl rfl rfl

/-- A context that is set to wait on its word waits for that. -/
theorem waitsFor_wait (i : Instr) (x : Ctx) (w : Wait) (op : Byte) :
    WaitsFor i x { x with st := .wait, wait := some w, waitIns := some i, waitop := op } w :=
  ⟨by constructor <;> rfl, rfl, rfl, rfl, rfl, rfl, rfl⟩

@[simp] theorem Ctx.complete_wait (x : Ctx) : x.complete.wait = none := by
  unfold Ctx.complete
  dsimp only
  split
  · simp [Ctx.running]
  · rfl

/-- A context already past its wait completes as it would from it. -/
theorem Ctx.complete_running (x : Ctx) : x.running.complete = x.complete := rfl

theorem Ctx.count_eq (x : Ctx) (code : Byte) (n : Nat) : ∃ p, x.count code n = { x with pmc := p } := by
  unfold Ctx.count
  split
  · exact ⟨x.pmc, rfl⟩
  · exact ⟨_, rfl⟩

/-! One arrival (R27, R188-R190) -/

section
variable (s : State) (e : ElemRef)

theorem State.bar_active (n : Nat) (q : BarRef) : (s.active n).bar q = s.bar q := State.bar_congr (State.active_bars ..) q

theorem State.ctx?_barWake (b : Nat) (ph : Bool) (q : CtxRef) :
    (s.barWake e b ph).ctx? q = (s.ctx? q).map fun x => if q.tile = e then x.barRelease b ph else x :=
  tget_tmap s.ctxs (fun k x => if k.tile = e then x.barRelease b ph else x) q

theorem State.ctx?_barDrop (q : CtxRef) : (s.barDrop e).ctx? q =
    (s.ctx? q).map fun x => if s.onFabric e.rid = true ∧ q.tile = e then x.count 0x0B 1 else x := by
  unfold State.barDrop
  by_cases h : s.onFabric e.rid = true
  · rw [if_neg (by simp [h])]
    refine (tget_tmap s.ctxs (fun k x => if k.tile = e then x.count 0x0B 1 else x) q).trans ?_
    simp only [h, true_and]
    rfl
  · simp [h]

/-- A context that waits for nothing is none of those that a phase releases. -/
theorem Ctx.barRelease_of_wait_none {x : Ctx} (hx : x.wait = none) (b : Nat) (ph : Bool) : x.barRelease b ph = x := by
  rw [Ctx.barRelease, hx]

/-- A phase releases the contexts that wait on it. -/
theorem Ctx.barRelease_eq (x : Ctx) (b : Nat) (ph : Bool) :
    x.barRelease b ph = if x.wait = some (.barrier b ph) then ({ x with awarr := false }).complete else x := by
  unfold Ctx.barRelease
  split
  next c p hw => simp [hw]
  next hw => rw [if_neg fun h => hw _ _ h]

variable {s e} {b : Nat} (rel : Bool)

theorem arrive_unused (h : 96 ≤ b ∨ (s.bar ⟨e.rid, e.elem, b⟩).init = 0) : s.arrive e b rel = (s.active e.rid).barDrop e := by
  unfold State.arrive
  exact if_pos (by simpa using h)

theorem arrive_pending (hb : b < 96) (hinit : (s.bar ⟨e.rid, e.elem, b⟩).init ≠ 0) (hp : 1 < (s.bar ⟨e.rid, e.elem, b⟩).pending.toNat) :
    s.arrive e b rel = (s.active e.rid).setBar ⟨e.rid, e.elem, b⟩ { s.bar ⟨e.rid, e.elem, b⟩ with
      pending := (s.bar ⟨e.rid, e.elem, b⟩).pending - 1, relp := (s.bar ⟨e.rid, e.elem, b⟩).relp || rel } := by
  unfold State.arrive
  rw [if_neg (by simpa using ⟨hb, hinit⟩), if_neg (by omega)]

theorem arrive_completes (hb : b < 96) (hinit : (s.bar ⟨e.rid, e.elem, b⟩).init ≠ 0) (hp : (s.bar ⟨e.rid, e.elem, b⟩).pending.toNat ≤ 1) :
    s.arrive e b rel = ((s.active e.rid).setBar ⟨e.rid, e.elem, b⟩ { s.bar ⟨e.rid, e.elem, b⟩ with
      pending := (s.bar ⟨e.rid, e.elem, b⟩).init, phase := !(s.bar ⟨e.rid, e.elem, b⟩).phase, relp := false }).barWake e b
      (s.bar ⟨e.rid, e.elem, b⟩).phase := by
  unfold State.arrive
  rw [if_neg (by simpa using ⟨hb, hinit⟩), if_pos hp]

/-- An arrival finds its barrier unused, with more to come, or complete by it. -/
theorem arrive_cases (s : State) (e : ElemRef) (b : Nat) : (96 ≤ b ∨ (s.bar ⟨e.rid, e.elem, b⟩).init = 0) ∨
    (b < 96 ∧ (s.bar ⟨e.rid, e.elem, b⟩).init ≠ 0 ∧ 1 < (s.bar ⟨e.rid, e.elem, b⟩).pending.toNat) ∨
    (b < 96 ∧ (s.bar ⟨e.rid, e.elem, b⟩).init ≠ 0 ∧ (s.bar ⟨e.rid, e.elem, b⟩).pending.toNat ≤ 1) := by
  by_cases hinit : (s.bar ⟨e.rid, e.elem, b⟩).init = 0
  · exact .inl (.inr hinit)
  · simp only [hinit, or_false, ne_eq, not_false_eq_true, true_and]
    omega

end

/-- Beside contexts, barriers, deferred releases and the marks of activity nothing has changed, and of the barriers only those of e. -/
def BarsOnly (s t : State) (e : ElemRef) : Prop :=
  (∃ cs bs bu de, t = { s with ctxs := cs, bars := bs, busy := bu, deferred := de }) ∧
    ∀ q : BarRef, q.rid ≠ e.rid ∨ q.elem ≠ e.elem → t.bar q = s.bar q

/-- Beside channels, what waits for them, the free-value counter and the marks of activity nothing has changed. -/
def LinksOnly (s t : State) : Prop := ∃ ch ou bu n, t = { s with chans := ch, outbox := ou, busy := bu, serial := n }

section
variable {s t u : State} {e : ElemRef}

theorem BarsOnly.refl (s : State) (e : ElemRef) : BarsOnly s s e := ⟨⟨s.ctxs, s.bars, s.busy, s.deferred, rfl⟩, fun _ _ => rfl⟩

theorem BarsOnly.trans (h1 : BarsOnly s t e) (h2 : BarsOnly t u e) : BarsOnly s u e := by
  refine ⟨?_, fun q hq => (h2.2 q hq).trans (h1.2 q hq)⟩
  obtain ⟨⟨_, _, _, _, rfl⟩, -⟩ := h1
  obtain ⟨⟨_, _, _, _, rfl⟩, -⟩ := h2
  exact ⟨_, _, _, _, rfl⟩

theorem BarsOnly.sameBytes (h : BarsOnly s t e) : SameBytes s t := by
  obtain ⟨⟨_, _, _, _, rfl⟩, -⟩ := h
  exact Laws.sameBytes_of rfl rfl rfl rfl rfl rfl

theorem BarsOnly.modCtx (s : State) (e : ElemRef) (r : CtxRef) (f : Ctx → Ctx) : BarsOnly s (s.modCtx r f) e :=
  ⟨⟨_, s.bars, s.busy, s.deferred, rfl⟩, fun _ _ => rfl⟩

theorem BarsOnly.setCtx (s : State) (e : ElemRef) (r : CtxRef) (x : Ctx) : BarsOnly s (s.setCtx r x) e :=
  ⟨⟨_, s.bars, s.busy, s.deferred, rfl⟩, fun _ _ => rfl⟩

theorem BarsOnly.active (s : State) (e : ElemRef) (n : Nat) : BarsOnly s (s.active n) e := by
  unfold State.active
  split
  · exact .refl s e
  · exact ⟨⟨s.ctxs, s.bars, _, s.deferred, rfl⟩, fun _ _ => rfl⟩

theorem BarsOnly.finish (s : State) (e : ElemRef) (r : CtxRef) (x : Ctx) : BarsOnly s (s.finish r x) e :=
  (BarsOnly.setCtx s e r x.complete).trans (.active ..)

theorem BarsOnly.setBar (s : State) (e : ElemRef) (b : Nat) (x : Bar) : BarsOnly s (s.setBar ⟨e.rid, e.elem, b⟩ x) e := by
  refine ⟨⟨s.ctxs, _, s.busy, s.deferred, rfl⟩, fun q hq => (State.bar_setBar ..).trans (if_neg ?_)⟩
  rintro rfl
  exact hq.elim (· rfl) (· rfl)

theorem BarsOnly.barDrop (s : State) (e : ElemRef) : BarsOnly s (s.barDrop e) e := by
  unfold State.barDrop
  split
  · exact .refl s e
  · exact ⟨⟨_, s.bars, s.busy, s.deferred, rfl⟩, fun _ _ => rfl⟩

theorem BarsOnly.barWake (s : State) (e : ElemRef) (b : Nat) (ph : Bool) : BarsOnly s (s.barWake e b ph) e :=
  ⟨⟨_, s.bars, s.busy, s.deferred, rfl⟩, fun _ _ => rfl⟩

/-- An arrival touches the barriers of its element alone. -/
theorem BarsOnly.arrive (s : State) (e : ElemRef) (b : Nat) (rel : Bool) : BarsOnly s (s.arrive e b rel) e := by
  rcases arrive_cases s e b with h | ⟨hb, hinit, hp⟩ | ⟨hb, hinit, hp⟩
  · rw [arrive_unused rel h]
    exact (BarsOnly.active s e e.rid).trans (.barDrop ..)
  · rw [arrive_pending rel hb hinit hp]
    exact (BarsOnly.active s e e.rid).trans (.setBar ..)
  · rw [arrive_completes rel hb hinit hp]
    exact ((BarsOnly.active s e e.rid).trans (.setBar ..)).trans (.barWake ..)

/-- A context that waits for nothing keeps what it holds over an arrival, but for its event counters. -/
theorem ctx?_arrive_of_wait_none {r : CtxRef} {x : Ctx} (hx : s.ctx? r = some x) (hw : x.wait = none) (e : ElemRef) (b : Nat) (rel : Bool) :
    ∃ p, (s.arrive e b rel).ctx? r = some { x with pmc := p } := by
  rcases arrive_cases s e b with h | ⟨hb, hinit, hp⟩ | ⟨hb, hinit, hp⟩
  · rw [arrive_unused rel h, State.ctx?_barDrop, State.ctx?_active, hx, Option.map_some]
    split
    · obtain ⟨p, hp⟩ := x.count_eq 0x0B 1
      exact ⟨p, congrArg some hp⟩
    · exact ⟨x.pmc, rfl⟩
  · rw [arrive_pending rel hb hinit hp, State.ctx?_setBar, State.ctx?_active]
    exact ⟨x.pmc, hx⟩
  · rw [arrive_completes rel hb hinit hp, State.ctx?_barWake, State.ctx?_setBar, State.ctx?_active, hx]
    exact ⟨x.pmc, by simp [Ctx.barRelease_of_wait_none hw]⟩

/-- What an arrival leaves in its barrier, and in the contexts where it does not find the barrier unused. -/
theorem barSet_arrive_unused {b : Nat} (h : 96 ≤ b ∨ (s.bar ⟨e.rid, e.elem, b⟩).init = 0) (rel : Bool) :
    BarSet s (s.arrive e b rel) ⟨e.rid, e.elem, b⟩ (s.bar ⟨e.rid, e.elem, b⟩) := by
  have hbars (q : BarRef) : (s.arrive e b rel).bar q = s.bar q := by
    rw [arrive_unused rel h]
    unfold State.barDrop
    split <;> exact State.bar_active ..
  exact ⟨hbars _, fun _ _ => hbars _⟩

theorem barSet_setBar_active (k : BarRef) (n : Nat) (x : Bar) : BarSet s ((s.active n).setBar k x) k x :=
  ⟨(State.bar_setBar ..).trans (if_pos rfl), fun _ hq => ((State.bar_setBar ..).trans (if_neg hq)).trans (State.bar_active ..)⟩

theorem barSet_arrive_pending {b : Nat} (hb : b < 96) (hinit : (s.bar ⟨e.rid, e.elem, b⟩).init ≠ 0)
    (hp : 1 < (s.bar ⟨e.rid, e.elem, b⟩).pending.toNat) (rel : Bool) :
    BarSet s (s.arrive e b rel) ⟨e.rid, e.elem, b⟩ { s.bar ⟨e.rid, e.elem, b⟩ with
      pending := (s.bar ⟨e.rid, e.elem, b⟩).pending - 1, relp := (s.bar ⟨e.rid, e.elem, b⟩).relp || rel } := by
  rw [arrive_pending rel hb hinit hp]
  exact barSet_setBar_active ..

theorem ctx?_arrive_pending {b : Nat} (hb : b < 96) (hinit : (s.bar ⟨e.rid, e.elem, b⟩).init ≠ 0)
    (hp : 1 < (s.bar ⟨e.rid, e.elem, b⟩).pending.toNat) (rel : Bool) (q : CtxRef) : (s.arrive e b rel).ctx? q = s.ctx? q := by
  rw [arrive_pending rel hb hinit hp, State.ctx?_setBar, State.ctx?_active]

theorem barSet_arrive_completes {b : Nat} (hb : b < 96) (hinit : (s.bar ⟨e.rid, e.elem, b⟩).init ≠ 0)
    (hp : (s.bar ⟨e.rid, e.elem, b⟩).pending.toNat ≤ 1) (rel : Bool) :
    BarSet s (s.arrive e b rel) ⟨e.rid, e.elem, b⟩ { s.bar ⟨e.rid, e.elem, b⟩ with
      pending := (s.bar ⟨e.rid, e.elem, b⟩).init, phase := !(s.bar ⟨e.rid, e.elem, b⟩).phase, relp := false } := by
  rw [arrive_completes rel hb hinit hp]
  exact barSet_setBar_active ..

theorem ctx?_arrive_completes {b : Nat} (hb : b < 96) (hinit : (s.bar ⟨e.rid, e.elem, b⟩).init ≠ 0)
    (hp : (s.bar ⟨e.rid, e.elem, b⟩).pending.toNat ≤ 1) (rel : Bool) (q : CtxRef) : (s.arrive e b rel).ctx? q =
      (s.ctx? q).map fun x => if q.tile = e ∧ x.wait = some (.barrier b (s.bar ⟨e.rid, e.elem, b⟩).phase) then
        ({ x with awarr := false }).complete else x := by
  rw [arrive_completes rel hb hinit hp, State.ctx?_barWake, State.ctx?_setBar, State.ctx?_active]
  congr 1
  funext x
  rw [Ctx.barRelease_eq, ite_and]

end

/-- What stood before a change that leaves the barriers stands for a barrier's change after it. -/
theorem barSet_of_bars {s u t : State} {k : BarRef} {b : Bar} (h : BarSet u t k b) (hu : u.bars = s.bars) : BarSet s t k b :=
  ⟨h.1, fun q hq => (h.2 q hq).trans (State.bar_congr hu q)⟩

/-- A change that leaves the barriers keeps what a change before it has made of one. -/
theorem barSet_then_bars {s u t : State} {k : BarRef} {b : Bar} (h : BarSet s u k b) (hu : t.bars = u.bars) : BarSet s t k b :=
  ⟨(State.bar_congr hu k).trans h.1, fun q hq => (State.bar_congr hu q).trans (h.2 q hq)⟩

/-! The words bar.init and bar.wait (R189) -/

theorem completes_barInit {s : State} {r : CtxRef} {x : Ctx} {o : BarInitOps} (hi : Issues s r x) (hg : x.guard0 o.g = true) :
    ∃ t y, exec (.barInit o) s = .next t ∧ t.ctx? r = some y ∧ Past x y ∧
      BarSet s t ⟨r.rid, r.elem, o.bar⟩ { s.bar ⟨r.rid, r.elem, o.bar⟩ with
        init := (x.gs o.d).extractLsb' 0 8, pending := (x.gs o.d).extractLsb' 0 8, relp := false } ∧
      OnlyContext s { t with bars := s.bars } r := by
  refine ⟨_, x.complete, ?_, State.ctx?_finish .. |>.trans (if_pos rfl), Laws.past_complete x,
    ⟨(State.bar_finish ..).trans ((State.bar_setBar ..).trans (if_pos rfl)), fun q hq =>
      (State.bar_finish ..).trans ((State.bar_setBar ..).trans (if_neg hq))⟩, ?_⟩
  · rw [exec_barInit, execBarInit, Laws.runWord_true hi hg]
  · refine ⟨fun q hq => (State.ctx?_finish ..).trans (if_neg hq), ?_, ?_⟩
    · unfold State.finish State.active; split <;> rfl
    · exact Laws.sameBytes_of (State.finish_gddr ..) (State.finish_bulk ..) (State.finish_host ..) (State.finish_elems ..)
        (State.finish_gddrTags ..) (State.finish_bulkTags ..)

section
variable {s : State} {r : CtxRef} {x : Ctx} {o : BarOps} (hi : Issues s r x) (hg : x.guard0 o.g = true)
include hi hg

theorem completes_barWait (hph : (s.bar ⟨r.rid, r.elem, o.bar⟩).phase ≠ (x.gs o.d).getLsbD 0) : Completes (.barWait o) s r x := by
  refine Laws.completes_of_finish ?_
  rw [exec_barWait, execBarWait, Laws.runWord_true hi hg, if_pos hph]

theorem waits_barWait (hph : (s.bar ⟨r.rid, r.elem, o.bar⟩).phase = (x.gs o.d).getLsbD 0) :
    ∃ t y, exec (.barWait o) s = .next t ∧ t.ctx? r = some y ∧ WaitsFor (.barWait o) x y (.barrier o.bar ((x.gs o.d).getLsbD 0)) ∧
      OnlyContext s t r := by
  refine ⟨_, _, ?_, (State.ctx?_setCtx ..).trans (if_pos rfl), waitsFor_wait (.barWait o) x _ 0x9B, onlyContext_setCtx ..⟩
  rw [exec_barWait, execBarWait, Laws.runWord_true hi hg, if_neg (not_not_intro hph)]

/-! bar.arrive (R189) -/

omit hi hg in
/-- Nothing that a context owes is still to come where all of it is complete. -/
theorem owed_eq_nil_iff : s.owed r = [] ↔ Paid s r (fun _ => true) 2 := by
  simp [State.owed, Paid, List.filter_eq_nil_iff]

omit hi hg in
theorem owed_of_paid (hp : o.ar = true → Paid s r (fun _ => true) 2) : (if o.ar then s.owed r else []).isEmpty = true := by
  cases har : o.ar
  · rfl
  · simpa using owed_eq_nil_iff.2 (hp har)

/-- A bar.arrive that owes nothing completes with the phase in sD, and its arrival is counted. -/
theorem exec_barArrive_of_paid (hp : o.ar = true → Paid s r (fun _ => true) 2) : exec (.barArrive o) s =
    .next ((s.finish r (x.ss o.d (if (s.bar ⟨r.rid, r.elem, o.bar⟩).phase then 1 else 0))).arrive r.tile o.bar o.ar) := by
  rw [exec_barArrive, execBarArrive, Laws.runWord_true hi hg]
  exact congrArg _ (if_pos (owed_of_paid hp))

omit hi hg in
/-- Of one deferred arrival none takes place before the tile's own step. -/
theorem defer_arrival {d : Deferred} (hd : s.deferred = []) (ha : d.what.isArrival = true) : s.defer d = { s with deferred := [d] } := by
  simp only [State.defer, State.deferRun, hd, List.nil_append, State.deferGo, ha, Bool.not_true, Bool.not_false, Bool.true_or, if_true]

omit hi hg in
theorem Ctx.lock_eq (x : Ctx) (d : SReg) : x.lock d = { x with locks := if d = 0 then x.locks else x.locks.filter (· ≠ d) ++ [d] } := by
  unfold Ctx.lock
  split <;> rfl

/-- A bar.arrive that owes accesses completes with its arrival deferred behind them. -/
theorem exec_barArrive_of_owing (har : o.ar = true) (hp : ¬ Paid s r (fun _ => true) 2) (hd : s.deferred = []) : exec (.barArrive o) s =
    .next { s.finish r (x.lock o.d) with deferred := [{ r := r, ids := s.owed r, scope := .device, what := .arrive o.bar o.d }] } := by
  have hforget : s.forget r o.d = s := by rw [State.forget, hd, List.map_nil, ← hd]
  rw [exec_barArrive, execBarArrive, Laws.runWord_true hi hg]
  simp only [har, if_true, List.isEmpty_iff, mt owed_eq_nil_iff.1 hp, if_false, hforget]
  rw [defer_arrival ((State.finish_deferred ..).trans hd) rfl]

/-! bar.aw (R189) -/

theorem exec_barAw_of_awarr (haw : x.awarr = true) : exec (.barAw o) s = .next (s.awWait r x o) := by
  rw [exec_barAw, execBarAw, Laws.runWord_true hi hg, if_pos haw]

theorem exec_barAw_of_paid (haw : x.awarr = false) (hp : o.ar = true → Paid s r (fun _ => true) 2) :
    exec (.barAw o) s = .next (s.awArrive r x o) := by
  rw [exec_barAw, execBarAw, Laws.runWord_true hi hg, haw]
  exact congrArg _ (if_pos (owed_of_paid hp))

omit hi hg in
theorem awWait_passed (h : (s.bar ⟨r.rid, r.elem, o.bar⟩).phase ≠ x.awPhase) : s.awWait r x o = s.finish r { x with awarr := false } := if_pos h

omit hi hg in
theorem awWait_waits (h : (s.bar ⟨r.rid, r.elem, o.bar⟩).phase = x.awPhase) : s.awWait r x o =
    s.setCtx r { x with st := .wait, wait := some (.barrier o.bar x.awPhase), waitIns := some (.barAw o), waitop := 0x9B } :=
  if_neg (not_not_intro h)

end

/-- The context of a bar.aw whose arrival is being counted: sD holds the phase, which it has recorded, and AWARR is set. -/
def Ctx.awArrived (x : Ctx) (d : SReg) (ph : Bool) : Ctx :=
  { (x.ss d (if ph then 1 else 0)).running with awPhase := ph, awarr := true }

/-- The state in which the arrival of a bar.aw has been counted. -/
def State.awCounted (s : State) (r : CtxRef) (x : Ctx) (o : BarOps) : State :=
  (s.setCtx r (x.awArrived o.d (s.bar ⟨r.rid, r.elem, o.bar⟩).phase)).arrive r.tile o.bar o.ar

section
variable {s : State} {r : CtxRef} {x : Ctx} {o : BarOps}

theorem awArrive_eq {y : Ctx} (hy : (s.awCounted r x o).ctx? r = some y) : s.awArrive r x o = (s.awCounted r x o).awWait r y o := by
  have hdef : s.awArrive r x o = (s.awCounted r x o).awWait r (((s.awCounted r x o).ctx? r).getD
      (x.awArrived o.d (s.bar ⟨r.rid, r.elem, o.bar⟩).phase)) o := rfl
  rw [hdef, hy, Option.getD_some]

theorem BarsOnly.awCounted : BarsOnly s (s.awCounted r x o) r.tile := (BarsOnly.setCtx ..).trans (.arrive ..)

/-- Where its own arrival does not complete the phase, bar.aw waits on it. -/
theorem awArrive_waits (hph : ((s.awCounted r x o).bar ⟨r.rid, r.elem, o.bar⟩).phase = (s.bar ⟨r.rid, r.elem, o.bar⟩).phase) :
    ∃ y, s.awArrive r x o = (s.awCounted r x o).setCtx r y ∧
      WaitsFor (.barAw o) { x.ss o.d (if (s.bar ⟨r.rid, r.elem, o.bar⟩).phase then 1 else 0) with
        awPhase := (s.bar ⟨r.rid, r.elem, o.bar⟩).phase, awarr := true } y (.barrier o.bar (s.bar ⟨r.rid, r.elem, o.bar⟩).phase) := by
  obtain ⟨p, hp⟩ := ctx?_arrive_of_wait_none (s := s.setCtx r (x.awArrived o.d (s.bar ⟨r.rid, r.elem, o.bar⟩).phase))
    ((State.ctx?_setCtx ..).trans (if_pos rfl)) rfl r.tile o.bar o.ar
  refine ⟨_, (awArrive_eq hp).trans (awWait_waits hph), ?_⟩
  exact ⟨by constructor <;> rfl, rfl, rfl, rfl, rfl, rfl, rfl⟩

/-- Where its own arrival completes the phase, bar.aw completes. -/
theorem awArrive_completes (hinit : (s.bar ⟨r.rid, r.elem, o.bar⟩).init ≠ 0) (hpend : (s.bar ⟨r.rid, r.elem, o.bar⟩).pending.toNat ≤ 1) :
    s.awArrive r x o = (s.awCounted r x o).finish r { x.ss o.d (if (s.bar ⟨r.rid, r.elem, o.bar⟩).phase then 1 else 0) with
      awPhase := (s.bar ⟨r.rid, r.elem, o.bar⟩).phase, awarr := false } := by
  have hctx : (s.awCounted r x o).ctx? r = some (x.awArrived o.d (s.bar ⟨r.rid, r.elem, o.bar⟩).phase) := by
    refine (ctx?_arrive_completes (s := s.setCtx r _) (e := r.tile) o.bar.isLt hinit hpend o.ar r).trans ?_
    rw [State.ctx?_setCtx, if_pos rfl, Option.map_some, if_neg (fun h => nomatch h.2)]
  have hph : ((s.awCounted r x o).bar ⟨r.rid, r.elem, o.bar⟩).phase = !(s.bar ⟨r.rid, r.elem, o.bar⟩).phase :=
    congrArg Bar.phase (barSet_arrive_completes (s := s.setCtx r _) (e := r.tile) o.bar.isLt hinit hpend o.ar).1
  rw [awArrive_eq hctx, awWait_passed (by rw [hph]; exact Bool.not_ne_self _)]
  rfl

end

/-! Arrivals on their way to a tile (R188, R190, R202) -/

section
variable {s : State} {e : ElemRef}

theorem BarsOnly.foldl {α : Type} {f : State → α → State} (hf : ∀ s a, BarsOnly s (f s a) e) (l : List α) (s : State) : BarsOnly s (l.foldl f s) e := by
  induction l generalizing s with
  | nil => exact .refl s e
  | cons a l ih => exact (hf s a).trans (ih (f s a))

/-- A deferred arrival that is counted touches its own element. -/
theorem BarsOnly.release {d : Deferred} (ha : d.what.isArrival = true) : BarsOnly s (s.release d) d.r.tile := by
  obtain ⟨r, ids, scope, what⟩ := d
  cases what with
  | arrive b dest => exact (BarsOnly.arrive s r.tile b true).trans (.modCtx ..)
  | remote target b => nomatch ha
  | ctok oc => nomatch ha

theorem BarsOnly.deferGo {p : Deferred → Bool} (hp : ∀ d, p d = true → d.r.tile = e ∧ d.what.isArrival = true) (l kept : List Deferred)
    (s : State) : BarsOnly s (s.deferGo p l kept) e := by
  induction l generalizing s kept with
  | nil => exact ⟨⟨s.ctxs, s.bars, s.busy, kept, rfl⟩, fun _ _ => rfl⟩
  | cons d l ih =>
    unfold State.deferGo
    split
    · exact ih _ s
    next hrun =>
      have hd : p d = true := by
        cases h : p d
        · simp [h] at hrun
        · rfl
      obtain ⟨rfl, ha⟩ := hp d hd
      exact (BarsOnly.release ha).trans (ih _ _)

theorem BarsOnly.awWait (s : State) (r : CtxRef) (x : Ctx) (o : BarOps) : BarsOnly s (s.awWait r x o) r.tile := by
  unfold State.awWait
  split
  · exact .finish ..
  · exact .setCtx ..

theorem BarsOnly.awArrive (s : State) (r : CtxRef) (x : Ctx) (o : BarOps) : BarsOnly s (s.awArrive r x o) r.tile :=
  ((BarsOnly.setCtx s r.tile r _).trans (.arrive ..)).trans (.awWait ..)

/-- The deferred arrivals of one context touch its element alone. -/
theorem BarsOnly.ctxArrivals (s : State) (r : CtxRef) : BarsOnly s (s.ctxArrivals r) r.tile := by
  unfold State.ctxArrivals
  dsimp only
  have hgo := BarsOnly.deferGo (e := r.tile) (p := fun d => d.r == r && d.what.isArrival)
    (fun d h => by simp only [Bool.and_eq_true, beq_iff_eq] at h; exact ⟨h.1 ▸ rfl, h.2⟩) s.deferred [] s
  split
  · exact hgo
  · split
    · split
      · exact hgo.trans (.awArrive ..)
      · exact hgo
    · exact hgo

theorem BarsOnly.tileArrivals (s : State) (e : ElemRef) (n : Nat) : BarsOnly s (s.tileArrivals e n) e := by
  unfold State.tileArrivals
  split
  · exact .foldl (fun s c => BarsOnly.ctxArrivals s (e.ctx c)) _ s
  · exact .refl s e

/-! What goes onto the links -/

theorem LinksOnly.refl (s : State) : LinksOnly s s := ⟨s.chans, s.outbox, s.busy, s.serial, rfl⟩

theorem LinksOnly.trans {s t u : State} (h1 : LinksOnly s t) (h2 : LinksOnly t u) : LinksOnly s u := by
  obtain ⟨_, _, _, _, rfl⟩ := h1
  obtain ⟨_, _, _, _, rfl⟩ := h2
  exact ⟨_, _, _, _, rfl⟩

theorem LinksOnly.linkDue (s : State) (a b : ElemRef) : LinksOnly s (s.linkDue a b).2 := by
  unfold State.linkDue
  dsimp only
  split
  · exact .refl s
  · exact ⟨s.chans, s.outbox, s.busy, _, rfl⟩

theorem LinksOnly.active (s : State) (n : Nat) : LinksOnly s (s.active n) := by
  unfold State.active
  split
  · exact .refl s
  · exact ⟨s.chans, s.outbox, _, s.serial, rfl⟩

theorem LinksOnly.push (s : State) (src : ElemRef) (c : ChanRef) (f : Fly) : LinksOnly s (s.push src c f) :=
  ((LinksOnly.linkDue s src c.at).trans ⟨_, _, _, _, rfl⟩).trans (.active ..)

theorem LinksOnly.outGo (l kept : List (ChanRef × Item)) (s : State) : LinksOnly s (s.outGo l kept) := by
  induction l generalizing s kept with
  | nil => exact ⟨s.chans, kept, s.busy, s.serial, rfl⟩
  | cons p l ih =>
    unfold State.outGo
    split
    · exact ih _ s
    · split
      · exact ih _ s
      · exact (LinksOnly.push ..).trans (ih _ _)

theorem LinksOnly.toChan (s : State) (c : ChanRef) (i : Item) : LinksOnly s (s.toChan c i) :=
  LinksOnly.trans ⟨s.chans, s.outbox ++ [(c, i)], s.busy, s.serial, rfl⟩ (.outGo ..)

/-- Arrivals at e have been counted: barriers of e, contexts, deferred releases and what goes onto the links may have changed, and nothing else. -/
def ArrivalsOnly (s t : State) (e : ElemRef) : Prop :=
  (∃ cs bs bu de ch ou n, t = { s with ctxs := cs, bars := bs, busy := bu, deferred := de, chans := ch, outbox := ou, serial := n }) ∧
    ∀ q : BarRef, q.rid ≠ e.rid ∨ q.elem ≠ e.elem → t.bar q = s.bar q

theorem ArrivalsOnly.trans {s t u : State} (h1 : ArrivalsOnly s t e) (h2 : ArrivalsOnly t u e) : ArrivalsOnly s u e := by
  refine ⟨?_, fun q hq => (h2.2 q hq).trans (h1.2 q hq)⟩
  obtain ⟨⟨_, _, _, _, _, _, _, rfl⟩, -⟩ := h1
  obtain ⟨⟨_, _, _, _, _, _, _, rfl⟩, -⟩ := h2
  exact ⟨_, _, _, _, _, _, _, rfl⟩

theorem BarsOnly.arrivals {t : State} (h : BarsOnly s t e) : ArrivalsOnly s t e := by
  refine ⟨?_, h.2⟩
  obtain ⟨⟨_, _, _, _, rfl⟩, -⟩ := h
  exact ⟨_, _, _, _, s.chans, s.outbox, s.serial, rfl⟩

theorem LinksOnly.arrivals {t : State} (h : LinksOnly s t) (e : ElemRef) : ArrivalsOnly s t e := by
  obtain ⟨_, _, _, _, rfl⟩ := h
  exact ⟨⟨s.ctxs, s.bars, _, s.deferred, _, _, _, rfl⟩, fun _ _ => rfl⟩

/-- The note of an engine's arrival is written (R202). -/
def State.noteArrival (s : State) (e : ElemRef) (m : Remote) : State :=
  match m.note with
  | some w => s.setBar ⟨e.rid, e.elem, m.bar⟩ { s.bar ⟨e.rid, e.elem, m.bar⟩ with note := w }
  | none => s

/-- The end-of-tile token of an engine's arrival goes on its way (R202). -/
def State.tokenArrival (s : State) (m : Remote) : State :=
  match m.token with
  | some k => s.toChan k (ctlItem .endOfTile (controlBeat .endOfTile 0 0 0 0))
  | none => s

theorem countArrivals_cons (s : State) (e : ElemRef) (m : Remote) (l : List Remote) : s.countArrivals e (m :: l) =
    (((s.noteArrival e m).arrive e m.bar m.rel).tokenArrival m).countArrivals e l := rfl

theorem BarsOnly.noteArrival (s : State) (e : ElemRef) (m : Remote) : BarsOnly s (s.noteArrival e m) e := by
  unfold State.noteArrival
  split
  · exact .setBar ..
  · exact .refl s e

theorem LinksOnly.tokenArrival (s : State) (m : Remote) : LinksOnly s (s.tokenArrival m) := by
  unfold State.tokenArrival
  split
  · exact .toChan ..
  · exact .refl s

theorem ArrivalsOnly.countArrivals (l : List Remote) (s : State) : ArrivalsOnly s (s.countArrivals e l) e := by
  induction l generalizing s with
  | nil => exact (BarsOnly.refl s e).arrivals
  | cons m l ih =>
    rw [countArrivals_cons]
    exact (((BarsOnly.noteArrival s e m).trans (.arrive ..)).arrivals.trans ((LinksOnly.tokenArrival ..).arrivals e)).trans (ih _)

/-- Arrivals without a token leave the channels. -/
theorem BarsOnly.countArrivals {l : List Remote} (hl : ∀ m ∈ l, m.token = none) (s : State) : BarsOnly s (s.countArrivals e l) e := by
  induction l generalizing s with
  | nil => exact .refl s e
  | cons m l ih =>
    rw [countArrivals_cons]
    have htok (u : State) : u.tokenArrival m = u := by rw [State.tokenArrival, hl m (.head l)]
    rw [htok]
    exact ((BarsOnly.noteArrival s e m).trans (.arrive ..)).trans (ih (fun n hn => hl n (.tail m hn)) _)

/-- A context that waits behind its accesses with the arrival of a bar.aw (R189). -/
def Ctx.owesAw (x : Ctx) : Bool := match x.wait, x.waitIns with | some (.fence ..), some (.barAw _) => true | _, _ => false

theorem owesArrival_eq (s : State) (e : ElemRef) : s.owesArrival e =
    ((s.deferred.any fun d => d.r.tile == e && d.what.isArrival) || s.ctxs.any fun p => p.1.tile == e && p.2.owesAw) := rfl

/-- A change of contexts that makes none owe an arrival leaves a tile that owes none so. -/
theorem owesArrival_tmap {t : State} {f : CtxRef → Ctx → Ctx} (hf : ∀ k x, (f k x).owesAw = true → x.owesAw = true)
    (hd : t.deferred = s.deferred) (hc : t.ctxs = tmap s.ctxs f) (h : s.owesArrival e = false) : t.owesArrival e = false := by
  rw [owesArrival_eq, Bool.or_eq_false_iff] at h ⊢
  obtain ⟨hdef, hctx⟩ := h
  refine ⟨by rw [hd]; exact hdef, ?_⟩
  rw [hc, tmap, List.any_map]
  rw [List.any_eq_false] at hctx ⊢
  intro p hp h
  simp only [Function.comp, Bool.and_eq_true] at h
  exact hctx p hp (by simp only [Bool.and_eq_true]; exact ⟨h.1, hf _ _ h.2⟩)

theorem tmap_id {κ α : Type} (t : Tbl κ α) : tmap t (fun _ x => x) = t := List.map_id' t

/-- An arrival makes no context owe one. -/
theorem owesArrival_arrive (b : Nat) (rel : Bool) (h : s.owesArrival e = false) : (s.arrive e b rel).owesArrival e = false := by
  rcases arrive_cases s e b with hc | ⟨hb, hinit, hp⟩ | ⟨hb, hinit, hp⟩
  · rw [arrive_unused rel hc]
    unfold State.barDrop
    split
    · exact owesArrival_tmap (f := fun _ x => x) (fun _ _ h => h) (State.active_deferred ..) ((State.active_ctxs ..).trans (tmap_id _).symm) h
    · refine owesArrival_tmap (f := fun k x => if k.tile = e then x.count 0x0B 1 else x) (fun k x h => ?_) (State.active_deferred ..)
        (by rw [State.active_ctxs]) h
      split at h
      · simpa [Ctx.owesAw] using h
      · exact h
  · rw [arrive_pending rel hb hinit hp]
    exact owesArrival_tmap (f := fun _ x => x) (fun _ _ h => h) (State.active_deferred ..) ((State.active_ctxs ..).trans (tmap_id _).symm) h
  · rw [arrive_completes rel hb hinit hp]
    refine owesArrival_tmap (f := fun k x => if k.tile = e then x.barRelease b (s.bar ⟨e.rid, e.elem, b⟩).phase else x) (fun k x h => ?_)
      (State.active_deferred ..) (by rw [State.barWake, State.setBar_ctxs, State.active_ctxs]) h
    split at h
    · rw [Ctx.barRelease_eq] at h
      split at h
      · simp [Ctx.owesAw] at h
      · exact h
    · exact h

end

/-- An arrival at e that is due. -/
def State.arrivalDue (s : State) (e : ElemRef) (p : ElemRef × Remote) : Bool := p.1 == e && p.2.due ≤ s.cycle

theorem arrivalDue_iff (s : State) (e : ElemRef) (p : ElemRef × Remote) : s.arrivalDue e p = true ↔ p.1 = e ∧ p.2.due ≤ s.cycle := by
  simp [State.arrivalDue]

/-- The arrivals at e that are due, by ascending source. -/
def State.arrivals (s : State) (e : ElemRef) : List Remote :=
  ((s.remotes.filter (s.arrivalDue e)).map fun p => p.2).foldl (fun l m => insertSrc m l) []

/-- The state without the arrivals at e that are due. -/
def State.withoutArrivals (s : State) (e : ElemRef) : State := { s with remotes := s.remotes.filter fun p => !s.arrivalDue e p }

/-- The arrivals at e that are due, counted, and taken off the way. -/
def State.remotesCounted (s : State) (e : ElemRef) : State := (s.withoutArrivals e).countArrivals e (s.arrivals e)

section
variable {s : State} {e : ElemRef}

theorem exec_remoteArrival_eq (harg : s.arg = .elem e) : exec .remoteArrival s =
    .next (if (s.remotesCounted e).grantDue e then s.remotesCounted e else (s.remotesCounted e).tileArrivals e 8) := by
  rw [exec_remoteArrival]
  unfold execRemoteArrival
  split
  next d hd =>
    obtain rfl : d = e := StepArg.elem.inj (hd.symm.trans harg)
    rfl
  next hd => exact absurd harg (hd e)

theorem mem_insertSrc {m n : Remote} {l : List Remote} : n ∈ insertSrc m l ↔ n = m ∨ n ∈ l := by
  induction l with
  | nil => simp [insertSrc]
  | cons k l ih =>
    unfold insertSrc
    split
    · simp
    · simp only [List.mem_cons, ih]; tauto

theorem mem_foldl_insertSrc {n : Remote} {l acc : List Remote} : n ∈ l.foldl (fun l m => insertSrc m l) acc ↔ n ∈ l ∨ n ∈ acc := by
  induction l generalizing acc with
  | nil => simp
  | cons m l ih =>
    rw [List.foldl_cons, ih, mem_insertSrc, List.mem_cons]
    tauto

/-- The device step of remote arrivals: what it may change, whatever arrives. -/
theorem remoteArrival_frame {s t : State} {e : ElemRef} (ht : exec .remoteArrival s = .next t) (harg : s.arg = .elem e) :
    ArrivalsOnly (s.withoutArrivals e) t e := by
  rw [exec_remoteArrival_eq harg] at ht
  obtain rfl := Host.Outcome.next.inj ht
  split
  · exact .countArrivals ..
  · exact (ArrivalsOnly.countArrivals ..).trans (BarsOnly.tileArrivals ..).arrivals

/-- Where none of the arrivals has a token the channels stay. -/
theorem remoteArrival_chans {s t : State} {e : ElemRef} (ht : exec .remoteArrival s = .next t) (harg : s.arg = .elem e)
    (htok : ∀ p ∈ s.remotes, p.1 = e → p.2.due ≤ s.cycle → p.2.token = none) : t.chans = s.chans := by
  rw [exec_remoteArrival_eq harg] at ht
  obtain rfl := Host.Outcome.next.inj ht
  have hcount : BarsOnly (s.withoutArrivals e) (s.remotesCounted e) e := by
    refine BarsOnly.countArrivals (fun m hm => ?_) _
    simp only [State.arrivals, mem_foldl_insertSrc, List.mem_map, List.mem_filter, arrivalDue_iff, List.not_mem_nil, or_false] at hm
    obtain ⟨p, ⟨hp, he, hdue⟩, rfl⟩ := hm
    exact htok p hp he hdue
  have hchans {u v : State} (h : BarsOnly u v e) : v.chans = u.chans := by
    obtain ⟨⟨_, _, _, _, rfl⟩, -⟩ := h
    rfl
  split
  · exact (hchans hcount).trans rfl
  · exact (hchans (BarsOnly.tileArrivals ..)).trans ((hchans hcount).trans rfl)

/-- One arrival without a note, where no context of the tile is to arrive after it: it is counted, and a token of it sent. -/
theorem exec_remoteArrival_one {m : Remote} (harg : s.arg = .elem e)
    (hone : (s.remotes.filter fun p => p.1 = e ∧ p.2.due ≤ s.cycle) = [(e, m)]) (hnote : m.note = none)
    (hown : s.grantDue e = true ∨ s.owesArrival e = false) : exec .remoteArrival s =
      .next (((s.withoutArrivals e).arrive e m.bar m.rel).tokenArrival m) := by
  have hdue : s.remotes.filter (s.arrivalDue e) = [(e, m)] := by
    rw [← hone]
    congr 1
    funext p
    rw [Bool.eq_iff_iff, arrivalDue_iff, decide_eq_true_iff]
  have hcount : s.remotesCounted e = ((s.withoutArrivals e).arrive e m.bar m.rel).tokenArrival m := by
    rw [State.remotesCounted, State.arrivals, hdue, List.map_singleton, List.foldl_cons, List.foldl_nil, insertSrc, countArrivals_cons, State.noteArrival, hnote]
    rfl
  rw [exec_remoteArrival_eq harg, ← hcount]
  congr 1
  rcases hown with hgrant | howes
  · refine if_pos ?_
    obtain ⟨⟨_, _, _, _, _, _, _, h⟩, -⟩ := ArrivalsOnly.countArrivals (e := e) (s.arrivals e) (s.withoutArrivals e)
    rw [State.remotesCounted, h]
    exact hgrant
  · have hnone : (s.remotesCounted e).owesArrival e = false := by
      obtain ⟨_, _, _, _, h⟩ := LinksOnly.tokenArrival ((s.withoutArrivals e).arrive e m.bar m.rel) m
      rw [hcount, h]
      exact owesArrival_arrive (s := (s.withoutArrivals e)) m.bar m.rel howes
    rw [State.tileArrivals, hnone]
    exact ite_self _

end

/-! bar.remote (R190) -/

/-- An arrival that is sent stands last on the way, due in a later cycle. -/
theorem sendArrival_eq (s : State) (t : ElemRef) (src bar : Nat) (rel : Bool) :
    ∃ d n, s.cycle < d ∧ s.sendArrival t src bar rel none none =
      { s with remotes := s.remotes ++ [(t, { due := d, src := src, bar := bar, rel := rel })], serial := n } := by
  have hle (l : List (ElemRef × Remote)) (d : Nat) :
      d ≤ l.foldl (fun m p => if p.1 == t && p.2.src == src then max m p.2.due else m) d := by
    induction l generalizing d with
    | nil => exact le_refl d
    | cons p l ih =>
      refine le_trans ?_ (ih _)
      dsimp only
      split
      · exact le_max_left ..
      · exact le_refl d
  exact ⟨_, s.serial + 1, lt_of_lt_of_le (by omega : s.cycle < s.cycle + 1 + Config.latency s.serial) (hle ..), rfl⟩

/-- A deferred remote arrival that waits for nothing leaves at once. -/
theorem defer_remote {s : State} {d : Deferred} {target b : Nat} (hd : s.deferred = []) (hids : d.ids = [])
    (hwhat : d.what = .remote target b) : s.defer d =
      { ({ s with deferred := [d] }).sendArrival ⟨d.r.rid, target⟩ d.r.elem b (d.scope == Scope.device) none none with deferred := [] } := by
  have hrel (u : State) : u.released d = true := by rw [State.released, hids, hwhat]; rfl
  have hrelease (u : State) : u.release d = u.sendArrival ⟨d.r.rid, target⟩ d.r.elem b (d.scope == .device) none none := by
    rw [State.release, hwhat]
  have harr : d.what.isArrival = false := by rw [hwhat]; rfl
  rw [State.defer, State.deferRun, hd, List.nil_append, State.deferGo, if_neg (by simp [harr, hrel]), hrelease, State.deferGo]

theorem exec_barRemote_eq {s : State} {r : CtxRef} {x : Ctx} {o : BarRemoteOps} {tl : Tile} (hi : Issues s r x) (hg : x.guard0 o.g = true)
    (htl : s.tile? ⟨r.rid, o.target.toNat⟩ = some tl) (hp : o.rel = true → Paid s r (fun _ => true) 2) (hd : s.deferred = []) :
    ∃ d n, s.cycle < d ∧ exec (.barRemote o) s = .next { s.finish r x with
      remotes := s.remotes ++ [(⟨r.rid, o.target.toNat⟩, { due := d, src := r.elem, bar := (x.gs o.d).toNat % 2 ^ 7, rel := o.rel })],
      serial := n } := by
  have hids : (if o.rel then s.owed r else []) = [] := by
    cases h : o.rel
    · rfl
    · exact owed_eq_nil_iff.2 (hp h)
  have hscope : ((if o.rel then Scope.device else .region) == .device) = o.rel := by cases o.rel <;> rfl
  have hfd : (s.finish r x).deferred = [] := (State.finish_deferred ..).trans hd
  obtain ⟨d, n, hdue, hsend⟩ := sendArrival_eq { s.finish r x with deferred := [⟨r, if o.rel then s.owed r else [],
    if o.rel then .device else .region, .remote o.target.toNat ((x.gs o.d).toNat % 2 ^ 7)⟩] }
    ⟨r.rid, o.target.toNat⟩ r.elem ((x.gs o.d).toNat % 2 ^ 7) o.rel
  refine ⟨d, n, by simpa using hdue, ?_⟩
  rw [exec_barRemote, execBarRemote, Laws.runWord_true hi hg, htl]
  dsimp only
  rw [defer_remote hfd hids rfl, hscope, hsend, State.finish_remotes, ← hfd]

/-! The words as the obligation states them -/

section
variable {s : State} {r : CtxRef} {x : Ctx} {o : BarOps} (hi : Issues s r x) (hg : x.guard0 o.g = true) {k : BarRef} {b : Bar} {p : Word}
  (hk : k = ⟨r.rid, r.elem, o.bar⟩) (hb : b = s.bar k) (hp : p = if b.phase then 1 else 0)
include hi hg hk hb hp

/-- bar.arrive that owes nothing: sD, the place in the program, the barrier, and the waits that its arrival releases. -/
theorem barArrive_counts (hpaid : o.ar = true → Paid s r (fun _ => true) 2) :
    ∃ t y z, exec (.barArrive o) s = .next t ∧ t.ctx? r = some y ∧ Past (x.ss o.d p) z ∧ y.pc = z.pc ∧ y.st = z.st ∧ y.s = z.s ∧
      y.v = x.v ∧ y.k = x.k ∧ y.flags = x.flags ∧ y.lc = z.lc ∧ y.loops = z.loops ∧ SameBytes s t ∧ t.wins = s.wins ∧ t.chans = s.chans ∧
      (b.init = 0 → BarSet s t k b) ∧
      (b.init ≠ 0 → 1 < b.pending.toNat →
        BarSet s t k { b with pending := b.pending - 1, relp := b.relp || o.ar } ∧ ∀ q, q ≠ r → t.ctx? q = s.ctx? q) ∧
      (b.init ≠ 0 → b.pending.toNat ≤ 1 →
        BarSet s t k { b with pending := b.init, phase := !b.phase, relp := false } ∧
        ∀ q u, q ≠ r → s.ctx? q = some u →
          t.ctx? q = some (if q.tile = r.tile ∧ u.wait = some (.barrier o.bar b.phase) then ({ u with awarr := false }).complete else u)) := by
  subst hk
  have hbars : (s.finish r (x.ss o.d p)).bars = s.bars := State.finish_bars ..
  have hbar : b = (s.finish r (x.ss o.d p)).bar ⟨r.rid, r.elem, o.bar⟩ := hb.trans (State.bar_congr hbars _).symm
  have hexec : exec (.barArrive o) s = .next ((s.finish r (x.ss o.d p)).arrive r.tile o.bar o.ar) := by
    rw [exec_barArrive_of_paid hi hg hpaid, hp, hb]
  obtain ⟨m, hm⟩ := ctx?_arrive_of_wait_none ((State.ctx?_finish s r r (x.ss o.d p)).trans (if_pos rfl)) (Ctx.complete_wait _) r.tile o.bar o.ar
  have hframe := (BarsOnly.finish s r.tile r (x.ss o.d p)).trans (.arrive _ r.tile o.bar o.ar)
  have hwins : ((s.finish r (x.ss o.d p)).arrive r.tile o.bar o.ar).wins = s.wins ∧
      ((s.finish r (x.ss o.d p)).arrive r.tile o.bar o.ar).chans = s.chans := by
    obtain ⟨⟨_, _, _, _, h⟩, -⟩ := hframe
    rw [h]
    exact ⟨rfl, rfl⟩
  refine ⟨_, _, (x.ss o.d p).complete, hexec, hm, Laws.past_complete _, rfl, rfl, rfl, by simp, by simp, by simp, rfl, rfl,
    hframe.sameBytes, hwins.1, hwins.2, ?_⟩
  clear hb hp hexec hm hframe hwins
  subst hbar
  refine ⟨fun hinit => barSet_of_bars (barSet_arrive_unused (e := r.tile) (.inr hinit) o.ar) hbars, fun hinit hpend =>
    ⟨barSet_of_bars (barSet_arrive_pending (e := r.tile) o.bar.isLt hinit hpend o.ar) hbars, fun q hq => ?_⟩, fun hinit hpend =>
    ⟨barSet_of_bars (barSet_arrive_completes (e := r.tile) o.bar.isLt hinit hpend o.ar) hbars, fun q u hq hu => ?_⟩⟩
  · exact (ctx?_arrive_pending (e := r.tile) o.bar.isLt hinit hpend o.ar q).trans ((State.ctx?_finish ..).trans (if_neg hq))
  · refine (ctx?_arrive_completes (e := r.tile) o.bar.isLt hinit hpend o.ar q).trans ?_
    rw [State.ctx?_finish, if_neg hq, hu]
    rfl

/-- bar.aw that owes nothing and has not arrived: its arrival, and its wait or its completion. -/
theorem barAw_arrives (haw : x.awarr = false) (hpaid : o.ar = true → Paid s r (fun _ => true) 2) :
    ∃ t y, exec (.barAw o) s = .next t ∧ t.ctx? r = some y ∧ SameBytes s t ∧ t.wins = s.wins ∧ t.chans = s.chans ∧
      (b.init = 0 → BarSet s t k b ∧ WaitsFor (.barAw o) { (x.ss o.d p) with awPhase := b.phase, awarr := true } y (.barrier o.bar b.phase)) ∧
      (b.init ≠ 0 → 1 < b.pending.toNat →
        BarSet s t k { b with pending := b.pending - 1, relp := b.relp || o.ar } ∧ (∀ q, q ≠ r → t.ctx? q = s.ctx? q) ∧
        WaitsFor (.barAw o) { (x.ss o.d p) with awPhase := b.phase, awarr := true } y (.barrier o.bar b.phase)) ∧
      (b.init ≠ 0 → b.pending.toNat ≤ 1 →
        BarSet s t k { b with pending := b.init, phase := !b.phase, relp := false } ∧
        Past { (x.ss o.d p) with awPhase := b.phase, awarr := false } y) := by
  subst hp hb hk
  have hframe : BarsOnly s (s.awArrive r x o) r.tile := .awArrive ..
  have hctxs : (s.awArrive r x o).wins = s.wins ∧ (s.awArrive r x o).chans = s.chans := by
    obtain ⟨⟨_, _, _, _, h⟩, -⟩ := hframe
    rw [h]
    exact ⟨rfl, rfl⟩
  have hexec := exec_barAw_of_paid hi hg haw hpaid
  rcases arrive_cases s r.tile o.bar with hunused | ⟨hlt, hinit, hpend⟩ | ⟨hlt, hinit, hpend⟩
  · have hset : BarSet s (s.awCounted r x o) _ _ :=
      barSet_of_bars (barSet_arrive_unused (s := s.setCtx r _) (e := r.tile) hunused o.ar) rfl
    obtain ⟨y, hy, hwait⟩ := awArrive_waits (x := x) (congrArg Bar.phase hset.1)
    have hinit : (s.bar ⟨r.rid, r.elem, o.bar⟩).init = 0 := hunused.resolve_left (by omega)
    exact ⟨_, y, hexec, by rw [hy]; exact (State.ctx?_setCtx ..).trans (if_pos rfl), hframe.sameBytes, hctxs.1, hctxs.2,
      fun _ => ⟨by rw [hy]; exact barSet_then_bars hset rfl, hwait⟩, fun h => absurd hinit h, fun h => absurd hinit h⟩
  · have hset : BarSet s (s.awCounted r x o) _ _ :=
      barSet_of_bars (barSet_arrive_pending (s := s.setCtx r _) (e := r.tile) hlt hinit hpend o.ar) rfl
    have hphase : ((s.awCounted r x o).bar ⟨r.rid, r.elem, o.bar⟩).phase = (s.bar ⟨r.rid, r.elem, o.bar⟩).phase :=
      (congrArg Bar.phase hset.1).trans rfl
    obtain ⟨y, hy, hwait⟩ := awArrive_waits hphase
    refine ⟨_, y, hexec, by rw [hy]; exact (State.ctx?_setCtx ..).trans (if_pos rfl), hframe.sameBytes, hctxs.1, hctxs.2,
      fun h => absurd h hinit, fun _ _ => ⟨by rw [hy]; exact barSet_then_bars hset rfl, fun q hq => ?_, hwait⟩,
      fun _ h => absurd hpend (Nat.not_lt.2 h)⟩
    rw [hy, State.ctx?_setCtx, if_neg hq]
    exact (ctx?_arrive_pending (s := s.setCtx r _) (e := r.tile) hlt hinit hpend o.ar q).trans ((State.ctx?_setCtx ..).trans (if_neg hq))
  · have hset : BarSet s (s.awCounted r x o) _ _ :=
      barSet_of_bars (barSet_arrive_completes (s := s.setCtx r _) (e := r.tile) hlt hinit hpend o.ar) rfl
    have hy := awArrive_completes (x := x) hinit hpend
    exact ⟨_, _, hexec, by rw [hy]; exact (State.ctx?_finish ..).trans (if_pos rfl), hframe.sameBytes, hctxs.1, hctxs.2,
      fun h => absurd h hinit, fun _ h => absurd h (Nat.not_lt.2 hpend), fun _ _ => ⟨by rw [hy]; exact barSet_then_bars hset (State.finish_bars ..),
        Laws.past_complete _⟩⟩

end

/-- bar.remote: one arrival on its way. -/
theorem barRemote_sends {s : State} {r : CtxRef} {x : Ctx} {o : BarRemoteOps} {tl : Tile} (hi : Issues s r x) (hg : x.guard0 o.g = true)
    (htl : s.tile? ⟨r.rid, o.target.toNat⟩ = some tl) (hpaid : o.rel = true → Paid s r (fun _ => true) 2) (hd : s.deferred = []) :
    ∃ t y m, exec (.barRemote o) s = .next t ∧ t.ctx? r = some y ∧ Past x y ∧ (∀ q, q ≠ r → t.ctx? q = s.ctx? q) ∧ SameBytes s t ∧
      t.bars = s.bars ∧ t.wins = s.wins ∧ t.chans = s.chans ∧
      t.remotes = s.remotes ++ [(⟨r.rid, o.target.toNat⟩, m)] ∧ s.cycle < m.due ∧ m.src = r.elem ∧
      m.bar = (x.gs o.d).toNat % 2 ^ 7 ∧ m.rel = o.rel ∧ m.note = none := by
  obtain ⟨d, n, hdue, hexec⟩ := exec_barRemote_eq hi hg htl hpaid hd
  exact ⟨_, x.complete, _, hexec, (State.ctx?_finish ..).trans (if_pos rfl), Laws.past_complete x, fun q hq => (State.ctx?_finish ..).trans (if_neg hq),
    Laws.sameBytes_of (State.finish_gddr ..) (State.finish_bulk ..) (State.finish_host ..) (State.finish_elems ..)
      (State.finish_gddrTags ..) (State.finish_bulkTags ..), State.finish_bars .., State.finish_wins .., State.finish_chans .., rfl, hdue, rfl, rfl, rfl, rfl⟩

/-- The device step at a tile with one arrival due: the barrier it leaves. -/
theorem remoteArrival_counts {s t : State} {e : ElemRef} {m : Remote} (ht : exec .remoteArrival s = .next t) (harg : s.arg = .elem e)
    (hone : (s.remotes.filter fun p => p.1 = e ∧ p.2.due ≤ s.cycle) = [(e, m)]) (hnote : m.note = none)
    (hown : s.grantDue e = true ∨ s.owesArrival e = false) {k : BarRef} {b : Bar} (hk : k = ⟨e.rid, e.elem, m.bar⟩) (hb : b = s.bar k) :
    (96 ≤ m.bar ∨ b.init = 0 → BarSet s t k b) ∧
    (m.bar < 96 → b.init ≠ 0 → 1 < b.pending.toNat → BarSet s t k { b with pending := b.pending - 1, relp := b.relp || m.rel }) ∧
    (m.bar < 96 → b.init ≠ 0 → b.pending.toNat ≤ 1 → BarSet s t k { b with pending := b.init, phase := !b.phase, relp := false }) := by
  obtain rfl := Host.Outcome.next.inj ((exec_remoteArrival_one harg hone hnote hown).symm.trans ht)
  have hbars : (((s.withoutArrivals e).arrive e m.bar m.rel).tokenArrival m).bars = ((s.withoutArrivals e).arrive e m.bar m.rel).bars := by
    obtain ⟨_, _, _, _, h⟩ := LinksOnly.tokenArrival ((s.withoutArrivals e).arrive e m.bar m.rel) m
    rw [h]
  subst hb hk
  exact ⟨fun h => barSet_then_bars (barSet_of_bars (s := s) (barSet_arrive_unused (s := s.withoutArrivals e) h m.rel) rfl) hbars,
    fun hb hinit hpend => barSet_then_bars (barSet_of_bars (s := s) (barSet_arrive_pending (s := s.withoutArrivals e) hb hinit hpend m.rel) rfl) hbars,
    fun hb hinit hpend => barSet_then_bars (barSet_of_bars (s := s) (barSet_arrive_completes (s := s.withoutArrivals e) hb hinit hpend m.rel) rfl) hbars⟩

/-- Settles O36: the barrier words by what each leaves behind, one arrival by the three states in which it finds its barrier, and the
device step of remote arrivals by the arrivals that are due. -/
theorem barrierArrivalsAndPhases : Obligations.BarrierArrivalsAndPhases := by
  refine ⟨⟨fun s r x o hi hg => completes_barInit hi hg, fun s r x o hi hg => ⟨completes_barWait hi hg, waits_barWait hi hg,
    fun hpaid => ⟨barArrive_counts hi hg rfl rfl rfl hpaid, fun haw => barAw_arrives hi hg rfl rfl rfl haw hpaid⟩, ?_, ?_, ?_⟩⟩,
    fun s r x o tl hi hg htl hpaid hd => barRemote_sends hi hg htl hpaid hd, fun s e harg => ?_⟩
  · intro har hpaid hd
    refine ⟨_, _, exec_barArrive_of_owing hi hg har hpaid hd, (State.ctx?_finish ..).trans (if_pos rfl), ?_, State.finish_bars ..,
      Laws.sameBytes_of (State.finish_gddr ..) (State.finish_bulk ..) (State.finish_host ..) (State.finish_elems ..)
        (State.finish_gddrTags ..) (State.finish_bulkTags ..), _, rfl, rfl, rfl, rfl⟩
    rw [← Ctx.lock_eq]
    exact Laws.past_complete _
  · intro haw hph
    refine Laws.completes_of_finish ?_
    rw [exec_barAw_of_awarr hi hg haw, awWait_passed hph]
  · intro haw hph
    refine ⟨_, _, (exec_barAw_of_awarr hi hg haw).trans (congrArg _ (awWait_waits hph)), (State.ctx?_setCtx ..).trans (if_pos rfl),
      onlyContext_setCtx .., waitsFor_wait (.barAw o) x _ 0x9B⟩
  · have hexec := exec_remoteArrival_eq harg
    obtain ⟨⟨cs, bs, bu, de, ch, ou, n, ht⟩, hothers⟩ := remoteArrival_frame hexec harg
    refine ⟨_, hexec, ?_, ?_, ?_, remoteArrival_chans hexec harg, fun p => ?_, hothers, fun m hone hnote hown =>
      remoteArrival_counts hexec harg hone hnote hown rfl rfl⟩
    · rw [ht]; exact Laws.sameBytes_of rfl rfl rfl rfl rfl rfl
    · rw [ht]; rfl
    · rw [ht]; rfl
    · rw [ht]
      simp only [State.withoutArrivals, List.mem_filter, Bool.not_eq_true', ← Bool.not_eq_true, arrivalDue_iff]

end Sys2Proof.Machine
end

section
/-! SUPPORT. The elements of a window: the bytes a read of them finds, the bytes a fill of them leaves, and the words that wait for them. -/

namespace Sys2Proof.Machine

open Sys2Proof.Safety

@[simp] theorem State.win?_modWin (s : State) (k q : WinRef) (f : Window → Window) :
    (s.modWin k f).win? q = if q = k then (s.win? k).map f else s.win? q := tget_tmod ..

theorem State.win?_congr {s t : State} (h : t.wins = s.wins) (q : WinRef) : t.win? q = s.win? q := by rw [State.win?, h, State.win?]
theorem State.bank?_congr {s t : State} (h : t.banks = s.banks) (q : BankRef) : t.bank? q = s.bank? q := by rw [State.bank?, h, State.bank?]

@[simp] theorem State.win?_finish (s : State) (r : CtxRef) (x : Ctx) (q : WinRef) : (s.finish r x).win? q = s.win? q :=
  State.win?_congr (State.finish_wins ..) q
@[simp] theorem State.bank?_finish (s : State) (r : CtxRef) (x : Ctx) (q : BankRef) : (s.finish r x).bank? q = s.bank? q :=
  State.bank?_congr (State.finish_banks ..) q

theorem storeByte_congr {s t : State} (h : t.elems = s.elems) (e : ElemRef) (a : Nat) : storeByte t e a = storeByte s e a := by
  rw [storeByte, State.elem?_congr h, storeByte]

/-! Bytes of numbers -/

theorem byteNo_succ (v j : Nat) : byteNo v (j + 1) = byteNo (v / 256) j := by
  rw [byteNo, byteNo, Nat.mul_succ, Nat.pow_add, Nat.mul_comm (2 ^ (8 * j)), ← Nat.div_div_eq_div_mul]

theorem byteNo_ofBytesLE (bs : List Byte) (j : Nat) : byteNo (ofBytesLE bs) j = bs.getD j 0 := by
  induction bs generalizing j with
  | nil => simp [byteNo, ofBytesLE]
  | cons b bs ih =>
    cases j with
    | zero =>
      refine BitVec.eq_of_toNat_eq ?_
      simp only [byteNo, ofBytesLE, Nat.mul_zero, Nat.pow_zero, Nat.div_one, BitVec.toNat_ofNat, List.getD_cons_zero]
      have := b.isLt
      omega
    | succ j =>
      have hd : ofBytesLE (b :: bs) / 256 = ofBytesLE bs := by
        have := b.isLt
        rw [ofBytesLE]
        omega
      rw [byteNo_succ, hd, ih, List.getD_cons_succ]

theorem ofBytesLE_lt (bs : List Byte) : ofBytesLE bs < 2 ^ (8 * bs.length) := by
  induction bs with
  | nil => simp [ofBytesLE]
  | cons b bs ih =>
    have := b.isLt
    rw [ofBytesLE, List.length_cons, Nat.mul_succ, Nat.pow_add]
    omega

theorem length_bytesLE (n v : Nat) : (bytesLE n v).length = n := by
  induction n generalizing v with
  | zero => rfl
  | succ n ih => rw [bytesLE, List.length_cons, ih]

theorem getElem_bytesLE (n v j : Nat) (h : j < (bytesLE n v).length) : (bytesLE n v)[j] = byteNo v j := by
  induction n generalizing v j with
  | zero => exact absurd h (by simp [bytesLE])
  | succ n ih =>
    cases j with
    | zero => simp [bytesLE, byteNo]
    | succ j => rw [byteNo_succ]; exact ih ..

@[simp] theorem length_beatBytes (b : Beat) : (beatBytes b).length = 64 := length_bytesLE ..

theorem getD_beatBytes (b : Beat) (j : Nat) (h : j < 64) : (beatBytes b).getD j 0 = byteNo b.toNat j := by
  rw [List.getD_eq_getElem _ _ (by simpa using h)]
  exact getElem_bytesLE ..

theorem toNat_bytesBeat {bs : List Byte} (h : bs.length ≤ 64) : (bytesBeat bs).toNat = ofBytesLE bs := by
  have hlt : ofBytesLE bs < 2 ^ 512 := by
    have hk : 8 * bs.length ≤ 512 := by omega
    generalize 512 = k at hk ⊢
    exact Nat.lt_of_lt_of_le (ofBytesLE_lt bs) (Nat.pow_le_pow_right (by decide) hk)
  exact (BitVec.toNat_ofNat ..).trans (Nat.mod_eq_of_lt hlt)

/-- Lists of n items each, put together and cut again. -/
theorem chunksOf_flatMap {ι α : Type} {n : Nat} (f : ι → List α) (hn : 0 < n) (l : List ι) (hf : ∀ i ∈ l, (f i).length = n) (k : Nat)
    (hk : l.length ≤ k) : chunksOf n k (l.flatMap f) = l.map f := by
  induction l generalizing k with
  | nil => cases k <;> simp [chunksOf]
  | cons i l ih =>
    obtain ⟨k, rfl⟩ : ∃ m, k = m + 1 := ⟨k - 1, by simp only [List.length_cons] at hk; omega⟩
    have hi : (f i).length = n := hf i (by simp)
    have hne : (f i ++ l.flatMap f).isEmpty = false := by
      rw [List.isEmpty_eq_false_iff, ← List.length_pos_iff, List.length_append]
      omega
    rw [List.flatMap_cons, chunksOf, hne, if_neg (by decide), List.take_left' hi, List.drop_left' hi, List.map_cons,
      ih (fun j hj => hf j (List.mem_cons_of_mem _ hj)) k (Nat.le_of_succ_le_succ hk)]

/-! Slots of a window -/

theorem add_mod_ne {c h p q : Nat} (hpq : p < q) (hq : q < p + c) : (h + p) % c ≠ (h + q) % c := by
  intro e
  have hd : q - p = 0 := Nat.eq_zero_of_dvd_of_lt
    ((Nat.modEq_iff_dvd' (by omega : h + p ≤ h + q)).1 e |>.trans (by rw [Nat.add_sub_add_left])) (by omega)
  omega

/-- Bytes of two elements of a window are not the same byte. -/
theorem Window.offAt_ne (w : Window) {p q i j : Nat} (hpq : p ≠ q) (hp : p < q + w.cap.toNat) (hq : q < p + w.cap.toNat)
    (hi : i < w.size) (hj : j < w.size) : w.offAt p + i ≠ w.offAt q + j := by
  have hne : (w.head.toNat + p) % w.cap.toNat ≠ (w.head.toNat + q) % w.cap.toNat := by
    rcases Nat.lt_or_gt_of_ne hpq with h | h
    · exact add_mod_ne h hq
    · exact (add_mod_ne h hp).symm
  unfold Window.offAt Window.slotAt
  generalize (w.head.toNat + p) % w.cap.toNat = a at *
  generalize (w.head.toNat + q) % w.cap.toNat = b at *
  rcases Nat.lt_or_gt_of_ne hne with h | h
  · have : a * w.size + w.size ≤ b * w.size := by rw [← Nat.succ_mul]; exact Nat.mul_le_mul_right _ h
    omega
  · have : b * w.size + w.size ≤ a * w.size := by rw [← Nat.succ_mul]; exact Nat.mul_le_mul_right _ h
    omega

/-- A fill leaves the bytes that are in none of its elements. -/
theorem Elem.get_putAt_outside (w : Window) (els : List (List Byte)) (tag : Bool) (a : Nat) (hl : ∀ b ∈ els, b.length = w.size)
    (e : Elem) (he : e.store.wf = true) (o : Nat) (ha : ∀ i j, i < els.length → j < w.size → a ≠ w.offAt (o + i) + j) :
    (e.putAt w o els tag).store.get a = e.store.get a := by
  induction els generalizing e o with
  | nil => rfl
  | cons b els ih =>
    have hb : b.length = w.size := hl b (by simp)
    have h0 : ¬ (w.offAt o ≤ a ∧ a < w.offAt o + b.length) := fun h =>
      ha 0 (a - w.offAt o) (by simp) (by omega) (by rw [Nat.add_zero]; omega)
    rw [Elem.putAt, ih (fun c hc => hl c (List.mem_cons_of_mem _ hc)) _ (Memory.wf_write he ..) _ fun i j hi hj => ?_]
    · rw [Elem.write, Memory.get_write he, dif_neg h0]
    · rw [Nat.add_assoc, Nat.add_comm 1]
      exact ha (i + 1) j (by rw [List.length_cons]; omega) hj

/-- A fill leaves its elements. -/
theorem Elem.get_putAt_inside (w : Window) (els : List (List Byte)) (tag : Bool) (hl : ∀ b ∈ els, b.length = w.size)
    (hc : els.length ≤ w.cap.toNat) (e : Elem) (he : e.store.wf = true) (o i j : Nat) (hi : i < els.length) (hj : j < w.size) :
    (e.putAt w o els tag).store.get (w.offAt (o + i) + j) = els[i].getD j 0 := by
  induction els generalizing e o i with
  | nil => exact absurd hi (by simp)
  | cons b els ih =>
    have hb : b.length = w.size := hl b (by simp)
    have hl' : ∀ c ∈ els, c.length = w.size := fun c hc => hl c (List.mem_cons_of_mem _ hc)
    simp only [List.length_cons] at hc hi
    rw [Elem.putAt]
    cases i with
    | zero =>
      rw [Elem.get_putAt_outside w els tag _ hl' _ (Memory.wf_write he ..) _ fun i' j' hi' hj' =>
        w.offAt_ne (by omega) (by omega) (by omega) hj hj']
      rw [Elem.write, Memory.get_write he, dif_pos ⟨by rw [Nat.add_zero]; omega, by rw [Nat.add_zero]; omega⟩]
      simp only [Nat.add_zero, Nat.add_sub_cancel_left, List.getElem_cons_zero]
      rw [List.getD_eq_getElem _ _ (by omega)]
    | succ i =>
      have := ih hl' (by omega) (e.write (w.offAt o) b tag) (Memory.wf_write he ..) (o + 1) i (by omega)
      rwa [Nat.add_assoc, Nat.add_comm 1] at this

/-! Reads of elements -/

theorem chunksOf_winBytes {s : State} {e : Elem} {wr : WinRef} {w : Window} {o n : Nat} (he : s.elem? wr.at = some e) (hs : w.size = 64) :
    chunksOf 64 n (s.winBytes wr w o n) = (List.range n).map fun i => e.store.read (w.offAt (o + i)) 64 := by
  rw [State.winBytes, he, hs]
  exact chunksOf_flatMap _ (by decide) _ (fun _ _ => Memory.length_read ..) _ (by simp)

/-- The beats of n elements of a window, as a read finds them. -/
def winBeats (s : State) (wr : WinRef) (w : Window) (o n : Nat) : List Beat := (chunksOf 64 n (s.winBytes wr w o n)).map bytesBeat

/-- A beat that a read of elements finds is the element. -/
theorem elementIs_winBeats {s : State} {r : CtxRef} {wb : Nat} {w : Window} {o n : Nat} (hs : w.size = 64) (i : Nat) (hi : i < n) :
    ElementIs s r.tile w (o + i) ((winBeats s (r.tile.win wb) w o n).getD i 0) := by
  intro j hj
  rw [winBeats]
  cases he : s.elem? r.tile with
  | none =>
    have hw : s.winBytes (r.tile.win wb) w o n = [] := by
      rw [State.winBytes, show s.elem? (r.tile.win wb).at = none from he]
    have hc : chunksOf 64 n ([] : List Byte) = [] := by cases n <;> simp [chunksOf]
    simp only [storeByte, he, hw, hc, List.map_nil, List.getD_nil, byteNo, BitVec.ofNat_eq_ofNat, BitVec.toNat_ofNat, Nat.zero_mod, Nat.zero_div]
  | some e =>
    rw [chunksOf_winBytes (wr := r.tile.win wb) he hs, List.map_map, List.getD_eq_getElem _ _ (by simpa using hi)]
    simp only [List.getElem_map, List.getElem_range, Function.comp]
    rw [toNat_bytesBeat (Memory.length_read ..).le, byteNo_ofBytesLE, List.getD_eq_getElem _ _ (by rw [Memory.length_read]; exact hj),
      Memory.getElem_read, storeByte, he]

theorem length_winBeats {s : State} {wr : WinRef} {w : Window} {o n : Nat} {e : Elem} (he : s.elem? wr.at = some e) (hs : w.size = 64) :
    (winBeats s wr w o n).length = n := by
  rw [winBeats, chunksOf_winBytes he hs]
  simp

theorem State.elements_of_standing {s : State} {r : CtxRef} {wb : Fin 16} {w : Window} {o n : Nat} (h : Standing s r wb w o n) (x : Ctx) :
    s.elements r x (r.tile.win wb) w o n = some (.inr (winBeats s (r.tile.win wb) w o n)) := by
  obtain ⟨-, -, hf, ho, hb⟩ := h
  have hr : w.readable o n = true := by
    rw [Window.readable, hf, Window.fv]
    simpa using ho
  rw [State.elements, hr, if_neg (by decide), hb, if_neg (by decide), winBeats]

theorem State.elements_of_notYet {s : State} {r : CtxRef} {wb : Fin 16} {w : Window} {o n : Nat} (h : NotYet s r wb w o n) (x : Ctx) :
    s.elements r x (r.tile.win wb) w o n = none := by
  obtain ⟨-, -, h⟩ := h
  have hr : w.readable o n = false := by
    rw [Window.readable, Window.fv]
    rcases h with h | h
    · simp [h]
    · simp [Nat.not_le.2 h]
  rw [State.elements, hr, if_pos (by rfl)]

/-! Words that wait at a window -/

theorem State.withWin_of_windowIs {s : State} {r : CtxRef} {n : Nat} {w : Window} (h : WindowIs s r n w) (x : Ctx)
    (f : WinRef → Window → Option State) : s.withWin r x n f = f (r.tile.win n) w := by
  obtain ⟨hw, hc⟩ := h
  simp only [State.withWin, hw, hc, if_false]

theorem joinsWindow_of_exec {i : Instr} {s : State} {r : CtxRef} {x : Ctx} {n : Nat} {w : Window} (hw : WindowIs s r n w)
    (h : exec i s = .next (s.joinWindow r x n i)) : JoinsWindow i s r x n w := by
  obtain ⟨hw, -⟩ := hw
  refine ⟨_, _, h, (State.ctx?_setCtx ..).trans (if_pos rfl), rfl, rfl, rfl, by constructor <;> rfl, rfl, rfl, rfl, ?_, ?_, ?_⟩
  · have e : (s.joinWindow r x n i).win? (r.tile.win n) = (s.modWin (r.tile.win n) fun d =>
        if d.waiters.contains (.ctx r.ctx) then d else { d with waiters := d.waiters ++ [.ctx r.ctx] }).win? (r.tile.win n) := rfl
    rw [e, State.win?_modWin, if_pos rfl, hw, Option.map_some]
    by_cases hm : Waiter.ctx r.ctx ∈ w.waiters
    · simp [hm]
    · simp [hm]
  · intro k hk
    have e : (s.joinWindow r x n i).win? k = (s.modWin (r.tile.win n) fun d =>
        if d.waiters.contains (.ctx r.ctx) then d else { d with waiters := d.waiters ++ [.ctx r.ctx] }).win? k := rfl
    rw [e, State.win?_modWin, if_neg hk]
  · exact onlyContext_setCtx s r _

end Sys2Proof.Machine
end

section
/-! SUPPORT. The words that load, scale, clear and move accumulator banks raw, and the swap of a bank's buffers. -/

namespace Sys2Proof.Machine

open Sys2Proof.Safety

/-! The bank and the window that a word names -/

theorem State.withBank_of_bankIs {s : State} {r : CtxRef} {acc : Fin 4} {b : Bank} (h : BankIs s r acc b) (x : Ctx)
    (f : BankRef → Bank → Option State) : s.withBank r x acc.val f = f ⟨r.rid, r.elem, acc⟩ b := by
  obtain ⟨hb, t, ht, hbind⟩ := h
  simp only [State.withBank, hb, ht, hbind, ne_eq, not_true_eq_false, if_false]

theorem State.withBankWin_of_bankIs {s : State} {r : CtxRef} {acc : Fin 4} {b : Bank} (h : BankIs s r acc b) {wb : Nat} {w : Window}
    (hw : WindowIs s r wb w) (hs : w.size = 64) (x : Ctx) (f : BankRef → Bank → WinRef → Window → Option State) :
    s.withBankWin r x acc.val wb f = f ⟨r.rid, r.elem, acc⟩ b (r.tile.win wb) w := by
  rw [State.withBankWin, State.withBank_of_bankIs h, State.withWin_of_windowIs hw, if_neg (fun hn => hn hs)]

/-- A word that writes its bank and completes. -/
theorem bankWord_of_exec {i : Instr} {s : State} {r : CtxRef} {acc : Fin 4} {b : Bank} {y : Ctx}
    (h : exec i s = .next ((s.setBank ⟨r.rid, r.elem, acc⟩ b).finish r y)) : BankWord i s r acc b y := by
  refine ⟨_, _, h, (State.ctx?_finish ..).trans (if_pos rfl), Laws.past_complete y, ⟨?_, fun q hq => ?_⟩, ?_, ?_, ?_⟩
  · rw [State.bank?_finish, State.bank?_setBank, if_pos rfl]
  · rw [State.bank?_finish, State.bank?_setBank, if_neg hq]
  · exact fun q hq => (State.ctx?_finish ..).trans (if_neg hq)
  · unfold State.finish State.active
    split <;> rfl
  · exact Laws.sameBytes_of (State.finish_gddr ..) (State.finish_bulk ..) (State.finish_host ..) (State.finish_elems ..)
      (State.finish_gddrTags ..) (State.finish_bulkTags ..)

/-! Loads into the back buffer -/

theorem tryLoadB_of_standing {s : State} {r : CtxRef} {b : Bank} {w : Window} {off n : Nat} {o : MBOps} (hb : BankIs s r o.acc b)
    (hw : Standing s r o.wb w off n) (x : Ctx) (back : List Beat → BBuf) :
    tryLoadB s r x o off n back = some ((s.setBank ⟨r.rid, r.elem, o.acc⟩
      { b with back := back (winBeats s (r.tile.win o.wb) w off n), swap := some o.mask }).finish r x) := by
  rw [tryLoadB, State.withBankWin_of_bankIs hb hw.1 hw.2.1, State.elements_of_standing hw]

theorem tryLoadB_of_notYet {s : State} {r : CtxRef} {b : Bank} {w : Window} {off n : Nat} {o : MBOps} (hb : BankIs s r o.acc b)
    (hw : NotYet s r o.wb w off n) (x : Ctx) (back : List Beat → BBuf) : tryLoadB s r x o off n back = none := by
  rw [tryLoadB, State.withBankWin_of_bankIs hb hw.1 hw.2.1, State.elements_of_notYet hw]

theorem getD_maskCols (mask : BitVec 16) (es : List Beat) (c : Nat) :
    (maskCols mask es).getD c 0 = if mask.getLsbD c then es.getD c 0 else 0 := by
  by_cases h : c < es.length
  · simp [maskCols, h]
  · simp [maskCols, h]

theorem maskCols_elements {s : State} {e : ElemRef} {w : Window} {o : Nat} {mask : BitVec 16} {es : List Beat} {c : Nat}
    (h : ElementIs s e w (o + c) (es.getD c 0)) :
    (mask.getLsbD c = true → ElementIs s e w (o + c) ((maskCols mask es).getD c 0)) ∧
      (mask.getLsbD c = false → (maskCols mask es).getD c 0 = 0) := by
  rw [getD_maskCols]
  exact ⟨fun hm => by rwa [if_pos hm], fun hm => by rw [hm]; rfl⟩

theorem getD_flatMap_beatBytes (es : List Beat) (i j : Nat) (hj : j < 64) :
    (es.flatMap beatBytes).getD (64 * i + j) 0 = byteNo (es.getD i 0).toNat j := by
  induction es generalizing i with
  | nil => simp only [List.flatMap_nil, List.getD_nil, byteNo, BitVec.ofNat_eq_ofNat, BitVec.toNat_ofNat, Nat.zero_mod, Nat.zero_div]
  | cons b es ih =>
    rw [List.flatMap_cons]
    cases i with
    | zero =>
      rw [Nat.mul_zero, Nat.zero_add, List.getD_append _ _ _ _ (by rw [length_beatBytes]; exact hj), getD_beatBytes b j hj, List.getD_cons_zero]
    | succ i =>
      rw [List.getD_append_right _ _ _ _ (by rw [length_beatBytes]; omega), length_beatBytes,
        show 64 * (i + 1) + j - 64 = 64 * i + j by omega, ih, List.getD_cons_succ]

theorem accLane_accRow {ls : List Nat} (hl : ls.length ≤ 16) {c : Nat} (hc : c < ls.length) : accLane (accRow ls) c = ls[c] % 2 ^ 32 :=
  laneGet_lanesBeat .i32 ls hl c hc

/-- A diagonal B has the lanes of its element that the mask leaves. -/
theorem accLane_diagB (o : MBOps) (es : List Beat) (c : Nat) (hc : c < 16) :
    accLane ((diagB o es).cols.getD 0 0) c = if o.mask.getLsbD c then accLane (es.headD 0) c else 0 := by
  have hlt : accLane (es.headD 0) c < 2 ^ 32 := Nat.mod_lt _ (by decide)
  generalize hd : es.headD 0 = d at *
  rw [diagB, List.getD_cons_zero, accLane_accRow (by simp) (by simpa using hc)]
  simp only [hd, BitVec.ofNat_toNat, BitVec.setWidth_eq, List.getElem_map, List.getElem_range]
  split
  · exact Nat.mod_eq_of_lt hlt
  · rfl

/-- The first beat of a read is the element at its offset. -/
theorem elementIs_headD {s : State} {r : CtxRef} {wb : Nat} {w : Window} {o n : Nat} (hs : w.size = 64) (hn : 0 < n) :
    ElementIs s r.tile w o ((winBeats s (r.tile.win wb) w o n).headD 0) := by
  have h := elementIs_winBeats (s := s) (r := r) (wb := wb) (o := o) hs 0 hn
  cases hl : winBeats s (r.tile.win wb) w o n with
  | nil => rwa [hl] at h
  | cons d ds => rwa [hl] at h

section Loads
variable {s : State} {r : CtxRef} {x : Ctx} {b : Bank} {w : Window} {o : MBOps} (hi : Issues s r x) (hg : x.guard0 o.g = true)
  (hb : BankIs s r o.acc b)
include hi hg hb

theorem mbld_loads (hw : Standing s r o.wb w (16 * o.slot.val) 16) : ∃ k : BBuf, (∀ c, c < 16 →
      (o.mask.getLsbD c = true → ElementIs s r.tile w (16 * o.slot.val + c) (k.cols.getD c 0)) ∧ (o.mask.getLsbD c = false → k.cols.getD c 0 = 0)) ∧
    k.diag = false ∧ BankWord (.mbld o) s r o.acc { b with back := k, swap := some o.mask } x := by
  refine ⟨denseB o (winBeats s (r.tile.win o.wb) w (16 * o.slot.val) 16), fun c hc => maskCols_elements (elementIs_winBeats hw.2.1 c hc), rfl,
    bankWord_of_exec ?_⟩
  rw [exec_mbld, execMbld, Laws.runWord_true hi hg, tryMbld, tryLoadB_of_standing hb hw]
  rfl

theorem mbld_waits (hw : NotYet s r o.wb w (16 * o.slot.val) 16) : JoinsWindow (.mbld o) s r x o.wb w := by
  refine joinsWindow_of_exec hw.1 ?_
  rw [exec_mbld, execMbld, Laws.runWord_true hi hg, tryMbld, tryLoadB_of_notYet hb hw]
  rfl

theorem mbldDiag_loads (hw : Standing s r o.wb w o.slot.val 1) : ∃ (k : BBuf) (d : Beat), ElementIs s r.tile w o.slot.val d ∧ k.diag = true ∧
    (∀ c, c < 16 → accLane (k.cols.getD 0 0) c = if o.mask.getLsbD c then accLane d c else 0) ∧
    BankWord (.mbldDiag o) s r o.acc { b with back := k, swap := some o.mask } x := by
  refine ⟨diagB o (winBeats s (r.tile.win o.wb) w o.slot.val 1), _, elementIs_headD hw.2.1 (by decide), rfl, accLane_diagB o _,
    bankWord_of_exec ?_⟩
  rw [exec_mbldDiag, execMbldDiag, Laws.runWord_true hi hg, tryMbldDiag, tryLoadB_of_standing hb hw]
  rfl

theorem mbldDiag_waits (hw : NotYet s r o.wb w o.slot.val 1) : JoinsWindow (.mbldDiag o) s r x o.wb w := by
  refine joinsWindow_of_exec hw.1 ?_
  rw [exec_mbldDiag, execMbldDiag, Laws.runWord_true hi hg, tryMbldDiag, tryLoadB_of_notYet hb hw]
  rfl

theorem mbsp_loads {n : Nat} (hn : n = maskElems o.bty) (hw : Standing s r o.wb w (32 * o.slot.val) (16 + n)) : ∃ k : BBuf, (∀ c, c < 16 →
      (o.mask.getLsbD c = true → ElementIs s r.tile w (32 * o.slot.val + c) (k.cols.getD c 0)) ∧ (o.mask.getLsbD c = false → k.cols.getD c 0 = 0)) ∧
    (∀ i j, i < n → j < 64 → k.masks.getD (64 * i + j) 0 = storeByte s r.tile (w.offAt (32 * o.slot.val + 16 + i) + j)) ∧
    k.diag = false ∧ BankWord (.mbsp o) s r o.acc { b with back := k, swap := some o.mask } x := by
  subst hn
  generalize hes : winBeats s (r.tile.win o.wb) w (32 * o.slot.val) (16 + maskElems o.bty) = es
  have hel (i : Nat) (h : i < 16 + maskElems o.bty) : ElementIs s r.tile w (32 * o.slot.val + i) (es.getD i 0) :=
    hes ▸ elementIs_winBeats hw.2.1 i h
  refine ⟨sparseB o es, fun c hc => maskCols_elements ?_, fun i j hi hj => ?_, rfl, bankWord_of_exec ?_⟩
  · have := hel c (by omega)
    rwa [List.getD_eq_getElem?_getD, List.getElem?_take_of_lt hc, ← List.getD_eq_getElem?_getD]
  · have hm := hel (16 + i) (by omega) j hj
    rw [sparseB, getD_flatMap_beatBytes _ i j hj, List.getD_eq_getElem?_getD, List.getElem?_drop, ← List.getD_eq_getElem?_getD, ← hm,
      ← Nat.add_assoc]
  · rw [exec_mbsp, execMbsp, Laws.runWord_true hi hg, tryMbsp, tryLoadB_of_standing hb hw, hes]
    rfl

theorem mbsp_waits {n : Nat} (hn : n = maskElems o.bty) (hw : NotYet s r o.wb w (32 * o.slot.val) (16 + n)) :
    JoinsWindow (.mbsp o) s r x o.wb w := by
  subst hn
  refine joinsWindow_of_exec hw.1 ?_
  rw [exec_mbsp, execMbsp, Laws.runWord_true hi hg, tryMbsp, tryLoadB_of_notYet hb hw]
  rfl

end Loads

/-! Scales -/

theorem mscaleWindow_scales {s : State} {r : CtxRef} {x : Ctx} {b : Bank} {w : Window} {o : MScaleWOps} (hi : Issues s r x)
    (hg : x.guard0 o.g = true) (hb : BankIs s r o.acc b) (hw : Standing s r o.wb w o.off.toNat 1) :
    ∃ k : Vector Byte 16, (∀ i : Fin 16, k.get i = storeByte s r.tile (w.offAt o.off.toNat + i)) ∧
      BankWord (.mscaleWindow o) s r o.acc { b with cscale := k } x := by
  generalize hd : (winBeats s (r.tile.win o.wb) w o.off.toNat 1).headD 0 = d
  have hel : ElementIs s r.tile w o.off.toNat d := hd ▸ elementIs_headD hw.2.1 (by decide)
  refine ⟨Vector.ofFn fun i => (beatBytes d).getD i.val 0, fun i => ?_, bankWord_of_exec ?_⟩
  · rw [hel i (by omega), ← getD_beatBytes d i (by omega)]
    exact Vector.getElem_ofFn ..
  · rw [exec_mscaleWindow, execMscaleWindow, Laws.runWord_true hi hg, tryMscaleWindow, State.withBankWin_of_bankIs hb hw.1 hw.2.1,
      State.elements_of_standing hw]
    subst hd
    rfl

theorem mscaleWindow_waits {s : State} {r : CtxRef} {x : Ctx} {b : Bank} {w : Window} {o : MScaleWOps} (hi : Issues s r x)
    (hg : x.guard0 o.g = true) (hb : BankIs s r o.acc b) (hw : NotYet s r o.wb w o.off.toNat 1) :
    JoinsWindow (.mscaleWindow o) s r x o.wb w := by
  refine joinsWindow_of_exec hw.1 ?_
  rw [exec_mscaleWindow, execMscaleWindow, Laws.runWord_true hi hg, tryMscaleWindow, State.withBankWin_of_bankIs hb hw.1 hw.2.1,
    State.elements_of_notYet hw]
  rfl

theorem mscaleCode_scales {s : State} {r : CtxRef} {x : Ctx} {b : Bank} {o : MScaleCOps} (hi : Issues s r x) (hg : x.guard0 o.g = true)
    (hb : BankIs s r o.acc b) : BankWord (.mscaleCode o) s r o.acc { b with asc := o.code } x := by
  refine bankWord_of_exec ?_
  rw [exec_mscaleCode, execMscaleCode, Laws.runWord_true hi hg, State.withBank_of_bankIs hb]
  rfl

/-! Rows -/

/-- The rows of a bank after a change of rows row to row + n − 1. -/
theorem Bank.get_mapRows (b : Bank) (row n : Nat) (f : Nat → Beat → Beat) (i : Fin 64) :
    (b.mapRows row n f).rows.get i = if row ≤ i.val ∧ i.val < row + n then f (i.val - row) (b.rows.get i) else b.rows.get i := by
  have h : (b.mapRows row n f).rows.get i =
      if row ≤ i.val && i.val < row + n then f (i.val - row) (b.rows.get i) else b.rows.get i := Vector.getElem_ofFn ..
  simpa using h

theorem mzero_clears {s : State} {r : CtxRef} {x : Ctx} {b : Bank} {o : MNOps} (hi : Issues s r x) (hg : x.guard0 o.g = true)
    (hb : BankIs s r o.acc b) :
    ∃ k : Vector Beat 64, (∀ i : Fin 64, k.get i = if o.row.val ≤ i.val ∧ i.val < o.row.val + o.n.val then 0 else b.rows.get i) ∧
      BankWord (.mzero o) s r o.acc { b with rows := k } x := by
  refine ⟨_, b.get_mapRows o.row.val o.n.val fun _ _ => 0, bankWord_of_exec ?_⟩
  rw [exec_mzero, execMzero, Laws.runWord_true hi hg, State.withBank_of_bankIs hb]
  rfl

theorem mwr_moves {s : State} {r : CtxRef} {x : Ctx} {b : Bank} {w : Window} {o : MWrOps} (hi : Issues s r x) (hg : x.guard0 o.g = true)
    (hb : BankIs s r o.acc b) (hw : Standing s r o.wb w o.off.val o.n.val) : ∃ k : Vector Beat 64,
      (∀ i : Fin 64, (o.row.val ≤ i.val ∧ i.val < o.row.val + o.n.val → ElementIs s r.tile w (o.off.val + (i.val - o.row.val)) (k.get i)) ∧
        (i < o.row ∨ o.row.val + o.n.val ≤ i.val → k.get i = b.rows.get i)) ∧
      BankWord (.mwr o) s r o.acc { b with rows := k } x := by
  refine ⟨(b.mapRows o.row.val o.n.val fun j _ => (winBeats s (r.tile.win o.wb) w o.off.val o.n.val).getD j 0).rows,
    fun i => ⟨fun h => ?_, fun h => ?_⟩, bankWord_of_exec ?_⟩
  · rw [Bank.get_mapRows, if_pos h]
    exact elementIs_winBeats hw.2.1 _ (by omega)
  · rw [Bank.get_mapRows, if_neg (by omega)]
  · rw [exec_mwr, execMwr, Laws.runWord_true hi hg, tryMwr, State.withBankWin_of_bankIs hb hw.1 hw.2.1, State.elements_of_standing hw]
    rfl

theorem mwr_waits {s : State} {r : CtxRef} {x : Ctx} {b : Bank} {w : Window} {o : MWrOps} (hi : Issues s r x) (hg : x.guard0 o.g = true)
    (hb : BankIs s r o.acc b) (hw : NotYet s r o.wb w o.off.val o.n.val) : JoinsWindow (.mwr o) s r x o.wb w := by
  refine joinsWindow_of_exec hw.1 ?_
  rw [exec_mwr, execMwr, Laws.runWord_true hi hg, tryMwr, State.withBankWin_of_bankIs hb hw.1 hw.2.1, State.elements_of_notYet hw]
  rfl

/-! Rows into a window -/

/-- What a fill and the completion behind it leave: the elements, the descriptor, and the rest of the machine. -/
theorem winFill_finish {s t : State} {r : CtxRef} {x : Ctx} {wr : WinRef} {w : Window} {bs : List Byte} {els : List (List Byte)}
    (hc : chunksOf w.size bs.length bs = els) (ht : t = (s.winFill wr w bs false).finish r x) :
    t.elems = tmod s.elems wr.at (fun e => e.putAt w w.fill.toNat els false) ∧
      t.wins = tput s.wins wr { w with fill := w.fill + BitVec.ofNat 16 els.length, fillNow := w.fillNow + els.length } ∧
      t.ctxs = tput s.ctxs r x.complete ∧
      t = { s with elems := t.elems, wins := t.wins, ctxs := t.ctxs, busy := t.busy } := by
  subst ht hc
  refine ⟨?_, ?_, ?_, ?_⟩
  · rw [State.finish_elems, State.winFill, State.active_elems, State.setWin_elems, State.modElem_elems]
  · rw [State.finish_wins, State.winFill, State.active_wins, State.setWin_wins, State.modElem_wins]
  · rw [State.finish_ctxs, State.winFill, State.active_ctxs, State.setWin_ctxs, State.modElem_ctxs]
  · unfold State.finish State.winFill State.active
    dsimp only
    split <;> split <;> rfl

/-- The bytes of an element and of every other one behind a fill of n slots of 64 bytes. -/
theorem stored_of_putAt {s t : State} {e : ElemRef} {w : Window} {el : Elem} {n : Nat} {f : Nat → Beat} (he : s.elem? e = some el)
    (hwf : el.store.wf = true) (hs : w.size = 64) (hn : n ≤ w.cap.toNat)
    (hel : ∀ q, t.elem? q = if q = e then some (el.putAt w w.fill.toNat ((List.range n).map fun j => beatBytes (f j)) false) else s.elem? q)
    (hg : t.gddr = s.gddr) (hb : t.bulk = s.bulk) (hh : t.host = s.host) :
    Stored s t e w w.fill.toNat n (fun i j => byteNo (f i).toNat j) := by
  have hl : ∀ b ∈ (List.range n).map fun j => beatBytes (f j), b.length = w.size := by simp [hs]
  refine ⟨fun i j hi hj => ?_, fun a ha => ?_, fun q a hq => ?_, hg, hb, hh⟩
  · dsimp only
    rw [storeByte, hel, if_pos rfl, ← getD_beatBytes _ _ (hs ▸ hj)]
    have := el.get_putAt_inside w _ false hl (by simpa using hn) hwf w.fill.toNat i j (by simpa using hi) hj
    simpa using this
  · rw [storeByte, hel, if_pos rfl, storeByte, he]
    exact el.get_putAt_outside w _ false a hl hwf _ (by simpa using ha)
  · rw [storeByte, hel, if_neg hq, storeByte]

section Mrd
variable {s : State} {r : CtxRef} {x : Ctx} {b : Bank} {w : Window} {o : MRdOps} (hi : Issues s r x) (hg : x.guard0 o.g = true)
  (hb : BankIs s r o.acc b) (hw : WindowIs s r o.wb w) (hs : w.size = 64)
include hi hg hb hw hs

theorem mrd_fills (hm : MemoryCanonical s) {e : Elem} (he : s.elem? r.tile = some e)
    (hf : w.frozen = false ∧ o.n.val + w.shrinkNow ≤ w.cap.toNat - w.fill.toNat) : ∃ t y, exec (.mrd o) s = .next t ∧
      t.ctx? r = some y ∧ Past x y ∧
      Stored s t r.tile w w.fill.toNat o.n.val (fun i j => byteNo (b.row (o.row.val + i)).toNat j) ∧
      t.win? (r.tile.win o.wb) = some { w with fill := w.fill + BitVec.ofNat 16 o.n.val, fillNow := w.fillNow + o.n.val } ∧
      OnlyContext s { t with wins := s.wins, elems := s.elems } r := by
  obtain ⟨hfr, hn⟩ := hf
  obtain ⟨-, -, -, hwf⟩ := hm
  generalize hbs : ((List.range o.n.val).flatMap fun j => beatBytes (b.row (o.row.val + j))) = bs
  have hc : chunksOf w.size bs.length bs = (List.range o.n.val).map fun j => beatBytes (b.row (o.row.val + j)) := by
    rw [hs, ← hbs]
    refine chunksOf_flatMap _ (by decide) _ (fun _ _ => length_beatBytes _) _ ?_
    simp only [List.length_range, List.length_flatMap, length_beatBytes, List.map_const', List.sum_replicate, smul_eq_mul]
    omega
  have hok : w.fillable o.n.val = true := by
    rw [Window.fillable, hfr, Window.sv, Bool.not_false, Bool.true_and, decide_eq_true_eq]
    omega
  have hex : exec (.mrd o) s = .next ((s.winFill (r.tile.win o.wb) w bs false).finish r x) := by
    rw [exec_mrd, execMrd, Laws.runWord_true hi hg, tryMrd, State.withBankWin_of_bankIs hb hw hs, hok]
    subst hbs
    rfl
  obtain ⟨hte, htw, htc, hrest⟩ := winFill_finish hc (rfl : (s.winFill (r.tile.win o.wb) w bs false).finish r x = _)
  generalize (s.winFill (r.tile.win o.wb) w bs false).finish r x = t at *
  refine ⟨t, _, hex, by rw [State.ctx?, htc, tget_tput_self], Laws.past_complete x,
    stored_of_putAt he (hwf _ _ he) hs (by omega) (fun q => ?_) (by rw [hrest]) (by rw [hrest]) (by rw [hrest]), ?_, fun q hq => ?_, ?_, ?_⟩
  · rw [State.elem?, hte, tget_tmod]
    exact congrArg (fun z => ite (q = r.tile) (Option.map _ z) (s.elem? q)) he
  · rw [State.win?, htw, tget_tput_self, List.length_map, List.length_range]
  · exact (congrArg (fun l => tget l q) htc).trans (tget_tput_other _ _ hq)
  · rw [hrest]
  · exact Laws.sameBytes_of (by rw [hrest]) (by rw [hrest]) (by rw [hrest]) rfl (by rw [hrest]) (by rw [hrest])

theorem mrd_waits (hf : w.frozen = true ∨ w.cap.toNat - w.fill.toNat < o.n.val + w.shrinkNow) (hn : 0 < o.n.val) :
    JoinsWindow (.mrd o) s r x o.wb w := by
  have hno : w.fillable o.n.val = false := by
    rw [Window.fillable, Window.sv]
    rcases hf with hf | hf
    · rw [hf]; rfl
    · rw [Bool.and_eq_false_iff, decide_eq_false_iff_not]
      exact .inr (by omega)
  refine joinsWindow_of_exec hw ?_
  rw [exec_mrd, execMrd, Laws.runWord_true hi hg, tryMrd, State.withBankWin_of_bankIs hb hw hs, hno]
  rfl

end Mrd

/-! The slot table and the swap -/

theorem mslot_queues {s : State} {r : CtxRef} {x : Ctx} {o : MSlotOps} {tl : Tile} (hi : Issues s r x) (hg : x.guard0 o.g = true)
    (hsup : x.sup = true) (ht : s.tile? r.tile = some tl) : ∃ t y, exec (.mslot o) s = .next t ∧ t.ctx? r = some y ∧ Past x y ∧
      t.tile? r.tile = some { tl with pend := tl.pend ++ [.slot o.slot (BitVec.ofNat 4 o.entry.val)] } ∧
      OnlyContext s { t with tiles := s.tiles } r := by
  have hex : exec (.mslot o) s = .next ((s.modTile r.tile fun t =>
      { t with pend := t.pend ++ [.slot o.slot (BitVec.ofNat 4 o.entry.val)] }).finish r x) := by
    rw [exec_mslot, execMslot, Laws.runWord_true hi hg, hsup]
    rfl
  refine ⟨_, _, hex, (State.ctx?_finish ..).trans (if_pos rfl), Laws.past_complete x, ?_, onlyContext_finish_modTile ..⟩
  rw [State.tile?_finish, State.tile?_modTile, if_pos rfl, ht, Option.map_some]

/-- The swap's test that a row firing of the tile waits for the bank. -/
theorem any_bank_eq_false {rows : List RowFire} {k : Nat} (h : ∀ f ∈ rows, f.bank ≠ k) : rows.any (·.bank == k) = false := by
  simpa using h

theorem any_bank_eq_true {rows : List RowFire} {k : Nat} {f : RowFire} (hf : f ∈ rows) (h : f.bank = k) : rows.any (·.bank == k) = true :=
  List.any_eq_true.2 ⟨f, hf, beq_iff_eq.2 h⟩

theorem bSwap_swaps {s : State} {b : Bank} {k : BankRef} {m : BitVec 16} (harg : s.arg = .bank k) (hb : s.bank? k = some b)
    (hm : b.swap = some m) (hno : ∀ tl, s.tile? ⟨k.rid, k.elem⟩ = some tl → ∀ f ∈ tl.rows, f.bank ≠ k.bank) :
    ∃ t, exec .bSwap s = .next t ∧
      BankSet s t k { b with front := b.back, mask := m, cscale := Vector.replicate 16 0x7F, swap := none } ∧
      t = { s with banks := t.banks, busy := t.busy } := by
  have hex : exec .bSwap s = .next ((s.setBank k { b with front := b.back, mask := m, cscale := Vector.replicate 16 0x7F, swap := none }).active k.rid) := by
    rw [exec_bSwap, execBSwap]
    simp only [harg, hb, hm]
    cases ht : s.tile? ⟨k.rid, k.elem⟩ with
    | none => rfl
    | some tl =>
      simp only [any_bank_eq_false (hno tl ht), Bool.false_eq_true, if_false]
  refine ⟨_, hex, ⟨?_, fun q hq => ?_⟩, ?_⟩
  · rw [State.bank?_congr (State.active_banks ..), State.bank?_setBank, if_pos rfl]
  · rw [State.bank?_congr (State.active_banks ..), State.bank?_setBank, if_neg hq]
  · unfold State.active
    split <;> rfl

theorem bSwap_waits {s : State} {b : Bank} {k : BankRef} {m : BitVec 16} (harg : s.arg = .bank k) (hb : s.bank? k = some b)
    (hm : b.swap = some m) {tl : Tile} {f : RowFire} (ht : s.tile? ⟨k.rid, k.elem⟩ = some tl) (hf : f ∈ tl.rows) (hk : f.bank = k.bank) :
    exec .bSwap s = .next s := by
  rw [exec_bSwap, execBSwap]
  simp only [harg, hb, hm, ht, any_bank_eq_true hf hk, if_true]

/-- Settles O40: the bank and the window a word names stand, so each word is one write of the bank, one fill of the window, or one wait at it. -/
theorem matrixOperandsLoadAndMove : Obligations.MatrixOperandsLoadAndMove := by
  refine ⟨fun s r x b w acc wb g hi hg hb => ⟨fun slot bty mask => ?_, fun off => ?_, fun code => ?_, fun row n => ?_, fun row n off _ => ?_,
    fun row n e _ hn hm he hw hs _ => ?_, fun slot entry tl hsup ht => ?_⟩, fun s b k m harg hb hm => ?_⟩
  · have hn : (match bty with | .bf16 => 3 | .f16 => 3 | .e2m1 => 12 | .i4 => 12 | _ => 6) = maskElems bty := by cases bty <;> rfl
    let o : MBOps := ⟨g, acc, slot, wb, bty, mask⟩
    exact ⟨mbld_loads (o := o) hi hg hb, mbld_waits (o := o) hi hg hb, mbldDiag_loads (o := o) hi hg hb, mbldDiag_waits (o := o) hi hg hb,
      mbsp_loads (o := o) hi hg hb hn, mbsp_waits (o := o) hi hg hb hn⟩
  · let o : MScaleWOps := ⟨g, acc, wb, off⟩
    exact ⟨mscaleWindow_scales (o := o) hi hg hb, mscaleWindow_waits (o := o) hi hg hb⟩
  · exact mscaleCode_scales (o := ⟨g, acc, code⟩) hi hg hb
  · exact mzero_clears (o := ⟨g, acc, row, n⟩) hi hg hb
  · let o : MWrOps := ⟨g, acc, row, wb, n, off⟩
    exact ⟨mwr_moves (o := o) hi hg hb, mwr_waits (o := o) hi hg hb⟩
  · let o : MRdOps := ⟨g, acc, row, wb, n⟩
    exact ⟨mrd_fills (o := o) hi hg hb hw hs hm he, fun hf => mrd_waits (o := o) hi hg hb hw hs hf hn⟩
  · exact mslot_queues (o := ⟨g, slot, entry⟩) hi hg hsup ht
  · exact ⟨bSwap_swaps harg hb hm, fun tl f ht hf hk => bSwap_waits harg hb hm ht hf hk⟩

end Sys2Proof.Machine
end

section
/-! SUPPORT. A freeze reaches a context, and a marker an element: what each leaves, and what it keeps. -/

namespace Sys2Proof.Machine

open Sys2Proof.Safety

/-! What a wait that is abandoned holds elsewhere -/

/-- What abandoning a wait can change beside the contexts: windows, accesses, commands, generators, invalidations, memory and the free-value counter. -/
def WaitOnly (s t : State) : Prop := ∃ w a cm g iv gd gt bm bu bt bb h n, t = { s with
  wins := w, accs := a, cmds := cm, gens := g, invals := iv, gddr := gd, gddrTags := gt, badMem := bm, bulk := bu, bulkTags := bt,
  badBulk := bb, host := h, serial := n }

theorem WaitOnly.refl (s : State) : WaitOnly s s := ⟨_, _, _, _, _, _, _, _, _, _, _, _, _, rfl⟩

theorem WaitOnly.trans {s t u : State} (h1 : WaitOnly s t) (h2 : WaitOnly t u) : WaitOnly s u := by
  obtain ⟨_, _, _, _, _, _, _, _, _, _, _, _, _, rfl⟩ := h1
  obtain ⟨_, _, _, _, _, _, _, _, _, _, _, _, _, rfl⟩ := h2
  exact ⟨_, _, _, _, _, _, _, _, _, _, _, _, _, rfl⟩

theorem WaitOnly.foldl {α : Type} {f : State → α → State} (hf : ∀ s a, WaitOnly s (f s a)) (l : List α) (s : State) : WaitOnly s (l.foldl f s) :=
  List.foldlRecOn l f (.refl s) fun _ h a _ => h.trans (hf _ a)

theorem WaitOnly.dropAcc (s : State) (id : Nat) : WaitOnly s (s.dropAcc id) := ⟨_, _, _, _, _, _, _, _, _, _, _, _, _, rfl⟩
theorem WaitOnly.modAcc (s : State) (id : Nat) (f : Acc → Acc) : WaitOnly s (s.modAcc id f) := ⟨_, _, _, _, _, _, _, _, _, _, _, _, _, rfl⟩
theorem WaitOnly.modWin (s : State) (k : WinRef) (f : Window → Window) : WaitOnly s (s.modWin k f) := ⟨_, _, _, _, _, _, _, _, _, _, _, _, _, rfl⟩

theorem WaitOnly.writePlace (s : State) (p : Place) (bs : List Byte) (tags : List Bool) : WaitOnly s (s.writePlace p bs tags) := by
  unfold State.writePlace
  split
  · exact ⟨_, _, _, _, _, _, _, _, _, _, _, _, _, rfl⟩
  · exact ⟨_, _, _, _, _, _, _, _, _, _, _, _, _, rfl⟩
  · exact ⟨_, _, _, _, _, _, _, _, _, _, _, _, _, rfl⟩
  · exact .refl s

theorem WaitOnly.dropInval (s : State) (r : CtxRef) : WaitOnly s (s.dropInval r) := by
  have h : WaitOnly s { s with invals := s.invals.filter fun v => v.owner ≠ .ctx r } := ⟨_, _, _, _, _, _, _, _, _, _, _, _, _, rfl⟩
  exact h.trans (.foldl (fun _ _ => ⟨_, _, _, _, _, _, _, _, _, _, _, _, _, rfl⟩) _ _)

/-- The reservation and record bytes of a window word that gives up. -/
theorem WaitOnly.abandonSave (s : State) (id : Nat) : WaitOnly s (match s.acc? id with
      | none => s
      | some a =>
        let bs := (List.range a.len).map fun i => Config.freeByte (s.serial + i)
        let s := { s with serial := s.serial + a.len }
        let s := s.modAcc id fun a => { a with data := bs }
        let s := if 2 ≤ a.level then s.writePlace a.place bs a.tags else s
        if a.level = 3 then s.dropAcc id else s) := by
  split
  · exact .refl s
  · dsimp only
    have h (n : Nat) (f : Acc → Acc) : WaitOnly s (({ s with serial := n } : State).modAcc id f) :=
      ⟨_, _, _, _, _, _, _, _, _, _, _, _, _, rfl⟩
    split
    · split
      · exact ((h _ _).trans (.writePlace ..)).trans (.dropAcc ..)
      · exact (h _ _).trans (.dropAcc ..)
    · split
      · exact (h _ _).trans (.writePlace ..)
      · exact h _ _

/-- Contexts as in s, but that freezes may no longer be asked of one of them. -/
def Eased (s u : State) : Prop := u = s ∨ ∃ q p, u = s.modCtx q fun y => { y with freeze := y.freeze.filter p }

theorem eased_dropFreeze (s : State) (r : CtxRef) (x : Ctx) : Eased s (s.dropFreeze r x) := by
  unfold State.dropFreeze
  split
  · exact .inl rfl
  · split
    · exact .inl rfl
    · exact .inr ⟨_, _, rfl⟩

/-- A wait that a freeze abandons changes no context but one of which a freeze is asked no longer. -/
theorem abandon_eases (s : State) (r : CtxRef) (x : Ctx) : ∃ u, Eased s u ∧ WaitOnly u (s.abandon r x) := by
  have plain {t : State} (h : WaitOnly s t) : ∃ u, Eased s u ∧ WaitOnly u t := ⟨s, .inl rfl, h⟩
  unfold State.abandon
  split
  · exact plain (.modWin ..)
  · exact plain (.dropAcc ..)
  · refine plain (.trans ?_ (.foldl WaitOnly.abandonSave _ _))
    split
    · exact .modWin ..
    · exact .refl s
  · refine plain (.trans ?_ (.foldl WaitOnly.dropAcc _ _))
    split
    · exact .modWin ..
    · exact .refl s
  · exact plain ⟨_, _, _, _, _, _, _, _, _, _, _, _, _, rfl⟩
  · exact plain ⟨_, _, _, _, _, _, _, _, _, _, _, _, _, rfl⟩
  · exact ⟨_, eased_dropFreeze s r x, .dropInval ..⟩
  · exact plain (.refl s)

/-! A freeze of a context -/

/-- Beside contexts and what their waits hold nothing has changed. -/
def FreezesOnly (s t : State) : Prop := ∃ cx u, u = { s with ctxs := cx } ∧ WaitOnly u t

theorem FreezesOnly.refl (s : State) : FreezesOnly s s := ⟨s.ctxs, s, rfl, .refl s⟩

theorem FreezesOnly.trans {s t u : State} (h1 : FreezesOnly s t) (h2 : FreezesOnly t u) : FreezesOnly s u := by
  obtain ⟨_, _, rfl, _, _, _, _, _, _, _, _, _, _, _, _, _, rfl⟩ := h1
  obtain ⟨_, _, rfl, _, _, _, _, _, _, _, _, _, _, _, _, _, rfl⟩ := h2
  exact ⟨_, _, rfl, _, _, _, _, _, _, _, _, _, _, _, _, _, rfl⟩

theorem FreezesOnly.setCtx (s : State) (r : CtxRef) (x : Ctx) : FreezesOnly s (s.setCtx r x) := ⟨_, _, rfl, .refl _⟩
theorem WaitOnly.freezesOnly {s t : State} (h : WaitOnly s t) : FreezesOnly s t := ⟨s.ctxs, s, rfl, h⟩

theorem Eased.freezesOnly {s u : State} (h : Eased s u) : FreezesOnly s u := by
  rcases h with rfl | ⟨q, p, rfl⟩
  · exact .refl _
  · exact ⟨_, _, rfl, .refl _⟩

theorem FreezesOnly.abandon (s : State) (r : CtxRef) (x : Ctx) : FreezesOnly s (s.abandon r x) := by
  obtain ⟨u, hu, hw⟩ := abandon_eases s r x
  exact hu.freezesOnly.trans hw.freezesOnly

/-- A waiting word met by freezes: the state before its context is written, and the context. -/
theorem freezeWait_eq (s : State) (r : CtxRef) (x : Ctx) (fs : List Freeze) :
    ∃ u y, s.freezeWait r x fs = State.setCtx u r y ∧ ∃ v, Eased s v ∧ WaitOnly v u := by
  unfold State.freezeWait
  split
  · refine ⟨_, _, rfl, s, .inl rfl, ?_⟩
    split
    · exact ⟨_, _, _, _, _, _, _, _, _, _, _, _, _, rfl⟩
    · exact .refl s
  · exact ⟨_, _, rfl, abandon_eases s r x⟩

/-- What a freeze of context r does: nothing, or r is written behind what its wait gives up. -/
theorem freeze_cases (s : State) (r : CtxRef) (f : Freeze) :
    s.freeze r f = s ∨ ∃ u y, s.freeze r f = State.setCtx u r y ∧ ∃ v, Eased s v ∧ WaitOnly v u := by
  unfold State.freeze
  split
  · exact .inl rfl
  · split
    · exact .inl rfl
    · exact .inl rfl
    · exact .inr ⟨s, _, rfl, s, .inl rfl, .refl s⟩
    · exact .inr (freezeWait_eq ..)
    · split
      · exact .inr ⟨s, _, rfl, s, .inl rfl, .refl s⟩
      · exact .inr ⟨s, _, rfl, s, .inl rfl, .refl s⟩

theorem FreezesOnly.freeze (s : State) (r : CtxRef) (f : Freeze) : FreezesOnly s (s.freeze r f) := by
  rcases freeze_cases s r f with h | ⟨u, y, h, v, hv, hu⟩
  · rw [h]
    exact .refl s
  · rw [h]
    exact (hv.freezesOnly.trans hu.freezesOnly).trans (.setCtx ..)

theorem WaitOnly.ctx? {s t : State} (h : WaitOnly s t) (q : CtxRef) : t.ctx? q = s.ctx? q := by
  obtain ⟨_, _, _, _, _, _, _, _, _, _, _, _, _, rfl⟩ := h
  rfl

theorem Eased.ctx? {s u : State} (h : Eased s u) {q : CtxRef} {x : Ctx} (hx : s.ctx? q = some x) :
    ∃ p, u.ctx? q = some { x with freeze := x.freeze.filter p } := by
  have same : ∃ p : Freeze → Bool, s.ctx? q = some { x with freeze := x.freeze.filter p } := ⟨fun _ => true, by rw [List.filter_true, hx]⟩
  rcases h with rfl | ⟨r, p, rfl⟩
  · exact same
  · rw [State.ctx?_modCtx]
    split
    · next hq => exact ⟨p, by rw [← hq, hx, Option.map_some]⟩
    · exact same

/-- A freeze of another context leaves a context as it is, but for freezes that are asked of it no longer. -/
theorem ctx?_freeze_other {s : State} {r q : CtxRef} (f : Freeze) (hq : q ≠ r) {x : Ctx} (hx : s.ctx? q = some x) :
    ∃ p, (s.freeze r f).ctx? q = some { x with freeze := x.freeze.filter p } := by
  rcases freeze_cases s r f with h | ⟨u, y, h, v, hv, hu⟩
  · exact ⟨fun _ => true, by rw [h, List.filter_true, hx]⟩
  · rw [h, State.ctx?_setCtx, if_neg hq, hu.ctx?]
    exact hv.ctx? hx

/-- A context that no freeze waits for is as before a freeze of another. -/
theorem ctx?_freeze_other_same {s : State} {r q : CtxRef} (f : Freeze) (hq : q ≠ r) {x : Ctx} (hx : s.ctx? q = some x) (hf : x.freeze = []) :
    (s.freeze r f).ctx? q = some x := by
  obtain ⟨p, h⟩ := ctx?_freeze_other f hq hx
  rw [h, hf, List.filter_nil, ← hf]

/-! Freezes by a marker -/

/-- A context between words: in RUN with no issue of this cycle to come, or in IDLE or READY. -/
def BetweenWords (s : State) (r : CtxRef) (x : Ctx) : Prop := x.st = .run ∧ s.issueDue r = false ∨ x.st = .idle ∨ x.st = .ready

theorem rowsOf_of_noRows {s : State} {r : CtxRef} (h : NoRows s r.tile) : s.rowsOf r = false := by
  unfold State.rowsOf
  split
  · next t ht => rw [h t ht]; rfl
  · rfl

/-- A freeze meets a context between words: it takes effect. -/
theorem freeze_between {s : State} {r : CtxRef} {x : Ctx} (hx : s.ctx? r = some x) (hr : NoRows s r.tile) (hb : BetweenWords s r x) (f : Freeze) :
    s.freeze r f = s.setCtx r (x.freezeNow (f :: x.freeze)) := by
  rw [State.freeze, hx]
  dsimp only
  rcases hb with ⟨hst, hd⟩ | hst | hst
  · simp only [hst, rowsOf_of_noRows hr, hd, Bool.and_false, Bool.or_false, Bool.false_eq_true, if_false]
  · simp only [hst, rowsOf_of_noRows hr, Bool.false_or, Bool.and_eq_true, beq_iff_eq, reduceCtorEq, false_and, if_false]
  · simp only [hst, rowsOf_of_noRows hr, Bool.false_or, Bool.and_eq_true, beq_iff_eq, reduceCtorEq, false_and, if_false]

theorem frozenBy_freeze_self {s : State} {r : CtxRef} {x : Ctx} {m : Marker} (hm : m = .round ∨ m = .cut) (hx : s.ctx? r = some x)
    (hr : NoRows s r.tile) (hb : BetweenWords s r x) (hf : x.freeze = []) : FrozenBy (s.freeze r m.freeze) r x m := by
  rw [freeze_between hx hr hb, hf]
  have hw : x.st ≠ .wait := by rcases hb with ⟨h, -⟩ | h | h <;> simp [h]
  refine ⟨_, (State.ctx?_setCtx ..).trans (if_pos rfl), rfl, if_neg hw, rfl, rfl, rfl, by constructor <;> rfl, ?_, ?_⟩
  · rcases hm with rfl | rfl <;> simp [Ctx.freezeNow, Marker.freeze]
  · rcases hm with rfl | rfl <;> simp [Ctx.freezeNow, Marker.freeze]

/-- A context that the marker has frozen stays so, whatever context a freeze of the marker meets next. -/
theorem frozenBy_freeze {s : State} {r : CtxRef} {x : Ctx} {m : Marker} (hm : m = .round ∨ m = .cut) (h : FrozenBy s r x m) (q : CtxRef) :
    FrozenBy (s.freeze q m.freeze) r x m := by
  obtain ⟨y, hy, hst, hwas, hpc, hlc, hloops, hregs, hp, hs⟩ := h
  by_cases hq : r = q
  · subst hq
    have e : s.freeze r m.freeze = s.setCtx r { y with preempted := y.preempted || m.freeze == .round, stopped := y.stopped || m.freeze == .cut } := by
      rw [State.freeze, hy]
      simp only [hst]
    rw [e]
    refine ⟨_, (State.ctx?_setCtx ..).trans (if_pos rfl), hst, hwas, hpc, hlc, hloops, ?_, ?_, ?_⟩
    · obtain ⟨⟩ := hregs
      constructor <;> assumption
    · rcases hm with rfl | rfl <;> simp [Marker.freeze, hp]
    · rcases hm with rfl | rfl <;> simp [Marker.freeze, hs]
  · obtain ⟨p, hy'⟩ := ctx?_freeze_other m.freeze hq hy
    refine ⟨_, hy', hst, hwas, hpc, hlc, hloops, ?_, hp, hs⟩
    obtain ⟨⟩ := hregs
    constructor <;> assumption

theorem frozenBy_freezes {s : State} {r : CtxRef} {x : Ctx} {m : Marker} (hm : m = .round ∨ m = .cut) (h : FrozenBy s r x m) (l : List CtxRef) :
    FrozenBy (l.foldl (fun s r => s.freeze r m.freeze) s) r x m :=
  List.foldlRecOn (motive := fun t => FrozenBy t r x m) l _ h fun _ h q _ => frozenBy_freeze hm h q

theorem FreezesOnly.freezes (s : State) (f : Freeze) (l : List CtxRef) : FreezesOnly s (l.foldl (fun s r => s.freeze r f) s) :=
  List.foldlRecOn l _ (.refl s) fun _ h q _ => h.trans (.freeze _ q f)

/-- What a context between words is frozen by depends on the tile's rows and the agenda, which freezes keep. -/
theorem FreezesOnly.betweenWords {s t : State} (h : FreezesOnly s t) {r : CtxRef} {x : Ctx} :
    (NoRows t r.tile ↔ NoRows s r.tile) ∧ (BetweenWords t r x ↔ BetweenWords s r x) := by
  obtain ⟨_, _, rfl, _, _, _, _, _, _, _, _, _, _, _, _, _, rfl⟩ := h
  exact ⟨Iff.rfl, Iff.rfl⟩

/-- A marker's freezes reach each of their contexts. -/
theorem frozenBy_of_mem {m : Marker} (hm : m = .round ∨ m = .cut) {r : CtxRef} {x : Ctx} (hf : x.freeze = []) (l : List CtxRef) (s : State)
    (hr : r ∈ l) (hx : s.ctx? r = some x) (hrows : NoRows s r.tile) (hb : BetweenWords s r x) :
    FrozenBy (l.foldl (fun s r => s.freeze r m.freeze) s) r x m := by
  induction l generalizing s with
  | nil => exact absurd hr (by simp)
  | cons q l ih =>
    rw [List.foldl_cons]
    by_cases hq : r = q
    · subst hq
      exact frozenBy_freezes hm (frozenBy_freeze_self hm hx hrows hb hf) l
    · obtain ⟨h1, h2⟩ := (FreezesOnly.freeze s q m.freeze).betweenWords (r := r) (x := x)
      exact ih _ ((List.mem_cons.1 hr).resolve_left hq) (ctx?_freeze_other_same _ hq hx hf) (h1.2 hrows) (h2.2 hb)

/-- Of the contexts met by freezes, another keeps its contents where no freeze waits for it. -/
theorem ctx?_freezes_other {s : State} {q : CtxRef} (f : Freeze) {x : Ctx} (l : List CtxRef) (hq : q ∉ l) (hx : s.ctx? q = some x) (hf : x.freeze = []) :
    (l.foldl (fun s r => s.freeze r f) s).ctx? q = some x :=
  List.foldlRecOn (motive := fun t : State => t.ctx? q = some x) l _ hx fun _ h _ hr =>
    ctx?_freeze_other_same f (ne_of_mem_of_not_mem hr hq).symm h hf

/-! Freezes where no context waits -/

/-- No context waits. -/
def NoWaits (s : State) : Prop := ∀ p ∈ s.ctxs, p.2.wait = none

theorem mem_of_tget {κ α : Type} [DecidableEq κ] {t : Tbl κ α} {k : κ} {a : α} (h : tget t k = some a) : (k, a) ∈ t := by
  induction t with
  | nil => cases h
  | cons p t ih =>
    rw [tget] at h
    split at h
    · next hk =>
      obtain rfl := Option.some.inj h
      exact hk ▸ .head _
    · exact .tail _ (ih h)

theorem mem_tput {κ α : Type} [DecidableEq κ] {t : Tbl κ α} {k : κ} {a : α} {p : κ × α} (h : p ∈ tput t k a) : p = (k, a) ∨ p ∈ t := by
  induction t with
  | nil => exact .inl (by simpa [tput] using h)
  | cons q t ih =>
    rw [tput] at h
    split at h
    · exact (List.mem_cons.1 h).imp_right (List.mem_cons_of_mem _)
    · rcases List.mem_cons.1 h with rfl | h
      · exact .inr (.head _)
      · exact (ih h).imp_right (List.mem_cons_of_mem _)

/-- A freeze of a context that does not wait writes no other, and leaves it without a wait. -/
theorem freeze_noWait {s : State} {r : CtxRef} (h : ∀ x, s.ctx? r = some x → x.wait = none) (f : Freeze) :
    s.freeze r f = s ∨ ∃ y, y.wait = none ∧ s.freeze r f = s.setCtx r y := by
  unfold State.freeze
  split
  · exact .inl rfl
  · next x hx =>
    have hw := h x hx
    have later : (x.freezeLater f).wait = none := by
      unfold Ctx.freezeLater
      split <;> exact hw
    split
    · exact .inl rfl
    · exact .inl rfl
    · refine .inr ⟨_, ?_, rfl⟩
      exact hw
    · have hk : x.keeps = false := by rw [Ctx.keeps, hw]
      have ha : s.abandon r x = s := by rw [State.abandon, hw]
      rw [State.freezeWait, hk, ha]
      exact .inr ⟨_, rfl, rfl⟩
    · split
      · exact .inr ⟨_, later, rfl⟩
      · exact .inr ⟨_, rfl, rfl⟩

/-- From s to t no context has begun to wait, every byte reads as before, and the contexts but those of l are as before. -/
structure Quiet (s t : State) (l : CtxRef → Prop) : Prop where
  waits : NoWaits t
  bytes : SameBytes s t
  ctxs : ∀ q, ¬ l q → t.ctx? q = s.ctx? q

theorem Quiet.trans {s t u : State} {l : CtxRef → Prop} (h1 : Quiet s t l) (h2 : Quiet t u l) : Quiet s u l :=
  ⟨h2.waits, h1.bytes.trans h2.bytes, fun q hq => (h2.ctxs q hq).trans (h1.ctxs q hq)⟩

theorem Quiet.freeze {s : State} (h : NoWaits s) (r : CtxRef) (f : Freeze) : Quiet s (s.freeze r f) (· = r) := by
  rcases freeze_noWait (r := r) (fun x hx => h _ (mem_of_tget hx)) f with hs | ⟨y, hy, hs⟩
  · rw [hs]
    exact ⟨h, Laws.sameBytes_refl s, fun _ _ => rfl⟩
  · rw [hs]
    refine ⟨fun p hp => ?_, Laws.sameBytes_of rfl rfl rfl rfl rfl rfl, fun q hq => (State.ctx?_setCtx ..).trans (if_neg hq)⟩
    rcases mem_tput hp with rfl | hp
    · exact hy
    · exact h p hp

theorem Quiet.mono {s t : State} {l k : CtxRef → Prop} (h : Quiet s t l) (hlk : ∀ q, l q → k q) : Quiet s t k :=
  ⟨h.waits, h.bytes, fun q hq => h.ctxs q fun hl => hq (hlk q hl)⟩

theorem Quiet.freezes {s : State} (h : NoWaits s) (l : List CtxRef) (f : Freeze) : Quiet s (l.foldl (fun s r => s.freeze r f) s) (· ∈ l) :=
  List.foldlRecOn (motive := fun t => Quiet s t (· ∈ l)) l _ ⟨h, Laws.sameBytes_refl s, fun _ _ => rfl⟩ fun _ ht r hr =>
    ht.trans ((Quiet.freeze ht.waits r f).mono fun _ hq => hq ▸ hr)

end Sys2Proof.Machine
end

section
/-! SUPPORT. Markers at elements, stops and their end. -/

namespace Sys2Proof.Machine

open Sys2Proof.Safety

/-! Markers on the links -/

/-- Each channel is as in s, with more on its link behind what travels there. -/
def LinksGrow (s t : State) : Prop := ∀ c, ∃ fs, t.chan? c = (s.chan? c).map fun ch => { ch with flight := ch.flight ++ fs }

theorem LinksGrow.of_chans {s t : State} (h : t.chans = s.chans) : LinksGrow s t := fun c =>
  ⟨[], by rw [State.chan?_congr h]; cases s.chan? c <;> simp⟩

theorem LinksGrow.trans {s t u : State} (h1 : LinksGrow s t) (h2 : LinksGrow t u) : LinksGrow s u := fun c => by
  obtain ⟨f, hf⟩ := h1 c
  obtain ⟨g, hg⟩ := h2 c
  refine ⟨f ++ g, ?_⟩
  rw [hg, hf, Option.map_map]
  simp only [Function.comp_def, List.append_assoc]

/-- What is pushed onto a link stands last on it, due in a later cycle. -/
theorem push_chan? (s : State) (src : ElemRef) (c : ChanRef) (f : Fly) : ∃ d, s.cycle < d ∧ ∀ q, (s.push src c f).chan? q =
    if q = c then (s.chan? c).map fun ch => { ch with flight := ch.flight ++ [(d, f)] } else s.chan? q := by
  refine ⟨(s.linkDue src c.at).1, ?_, fun q => ?_⟩
  · unfold State.linkDue
    dsimp only
    split
    · exact Nat.lt_succ_self _
    · unfold State.later
      dsimp only
      omega
  · have hc : (s.linkDue src c.at).2.chans = s.chans := by
      unfold State.linkDue
      dsimp only
      split <;> rfl
    have e : (s.push src c f).chan? q =
        ((s.linkDue src c.at).2.modChan c fun x => { x with flight := x.flight ++ [((s.linkDue src c.at).1, f)] }).chan? q :=
      State.chan?_congr (State.active_chans ..) q
    rw [e, State.chan?_modChan, State.chan?_congr hc, State.chan?_congr hc]

theorem LinksGrow.push (s : State) (src : ElemRef) (c : ChanRef) (f : Fly) : LinksGrow s (s.push src c f) := fun q => by
  obtain ⟨d, -, h⟩ := push_chan? s src c f
  by_cases hq : q = c
  · exact ⟨[(d, f)], by rw [h, if_pos hq, hq]⟩
  · exact ⟨[], by rw [h, if_neg hq]; cases s.chan? q <;> simp⟩

/-- A marker that has been sent on the route of an output stays on its link. -/
def MarkerOn (s t : State) (c : ChanRef) (m : Marker) : Prop := ∃ ch d, t.chan? c = some ch ∧ s.cycle < d ∧ (d, Fly.marker m) ∈ ch.flight

theorem markerOn_grow {s t u : State} {c : ChanRef} {m : Marker} (h : MarkerOn s t c m) (hu : LinksGrow t u) : MarkerOn s u c m := by
  obtain ⟨ch, d, hc, hd, hm⟩ := h
  obtain ⟨fs, hf⟩ := hu c
  exact ⟨_, d, hf.trans (by rw [hc, Option.map_some]), hd, List.mem_append_left _ hm⟩

theorem markerOn_push {s : State} {c : ChanRef} {ch : Chan} (hc : s.chan? c = some ch) (src : ElemRef) (m : Marker) :
    MarkerOn s (s.push src c (.marker m)) c m := by
  obtain ⟨d, hd, h⟩ := push_chan? s src c (.marker m)
  exact ⟨_, d, by rw [h, if_pos rfl, hc, Option.map_some], hd, List.mem_append_right _ (List.mem_singleton.2 rfl)⟩

/-- A channel that a route names stands. -/
theorem chan?_of_route? {s : State} {e : ElemRef} {oc : Nat} {c : ChanRef} (h : s.route? e oc = some c) : ∃ ch, s.chan? c = some ch := by
  unfold State.route? at h
  split at h
  · cases h
  · split at h
    · cases h
    · dsimp only at h
      split at h
      · next ch hch =>
        obtain rfl := Option.some.inj h
        exact ⟨ch, hch⟩
      · cases h

/-- Where an element's outputs lead depends on its routes and on which channels there are. -/
theorem route?_congr {s t : State} {e : ElemRef} (he : (t.elem? e).map (·.routes) = (s.elem? e).map (·.routes))
    (hc : ∀ c, (t.chan? c).isSome = (s.chan? c).isSome) (oc : Nat) : t.route? e oc = s.route? e oc := by
  unfold State.route?
  cases hs : s.elem? e with
  | none =>
    rw [hs, Option.map_none, Option.map_eq_none_iff] at he
    rw [he]
  | some el =>
    rw [hs, Option.map_some, Option.map_eq_some_iff] at he
    obtain ⟨el', he', hr⟩ := he
    rw [he']
    dsimp only
    rw [hr]
    split
    · rfl
    · next r _ =>
      have := hc ⟨e.rid, r.delem, r.dvc⟩
      cases h1 : s.chan? ⟨e.rid, r.delem, r.dvc⟩ <;> cases h2 : t.chan? ⟨e.rid, r.delem, r.dvc⟩ <;> simp_all

theorem LinksGrow.isSome {s t : State} (h : LinksGrow s t) (c : ChanRef) : (t.chan? c).isSome = (s.chan? c).isSome := by
  obtain ⟨fs, hf⟩ := h c
  rw [hf, Option.isSome_map]

theorem LinksOnly.elem? {s t : State} (h : LinksOnly s t) (e : ElemRef) : t.elem? e = s.elem? e := by
  obtain ⟨_, _, _, _, rfl⟩ := h
  rfl

theorem LinksOnly.cycle {s t : State} (h : LinksOnly s t) : t.cycle = s.cycle := by
  obtain ⟨_, _, _, _, rfl⟩ := h
  rfl

/-- A marker leaves on one output, where it leads anywhere. -/
def State.sendMarker (e : ElemRef) (m : Marker) (s : State) (p : Nat × Route) : State :=
  match s.route? e p.1 with
  | some c => s.push e c (.marker m)
  | none => s

theorem sendMarkers_eq (s : State) (e : ElemRef) (m : Marker) :
    s.sendMarkers e m = match s.elem? e with | none => s | some el => el.routes.foldl (State.sendMarker e m) s := rfl

theorem sendMarker_links (e : ElemRef) (m : Marker) (s : State) (p : Nat × Route) :
    LinksOnly s (State.sendMarker e m s p) ∧ LinksGrow s (State.sendMarker e m s p) := by
  unfold State.sendMarker
  split
  · exact ⟨.push .., LinksGrow.push s e _ _⟩
  · exact ⟨.refl s, .of_chans rfl⟩

theorem sendMarker_foldl_links (e : ElemRef) (m : Marker) (l : List (Nat × Route)) (s : State) :
    LinksOnly s (l.foldl (State.sendMarker e m) s) ∧ LinksGrow s (l.foldl (State.sendMarker e m) s) :=
  List.foldlRecOn (motive := fun t => LinksOnly s t ∧ LinksGrow s t) l _ ⟨.refl s, .of_chans rfl⟩ fun t h p _ =>
    ⟨h.1.trans (sendMarker_links e m t p).1, h.2.trans (sendMarker_links e m t p).2⟩

theorem sendMarkers_links (s : State) (e : ElemRef) (m : Marker) : LinksOnly s (s.sendMarkers e m) ∧ LinksGrow s (s.sendMarkers e m) := by
  rw [sendMarkers_eq]
  split
  · exact ⟨.refl s, .of_chans rfl⟩
  · exact sendMarker_foldl_links ..

/-- Markers sent on the outputs of a list stand on the links they lead to. -/
theorem sendMarker_foldl_on (e : ElemRef) (m : Marker) (l : List (Nat × Route)) (s : State) {p : Nat × Route} (hp : p ∈ l) {c : ChanRef}
    (hc : s.route? e p.1 = some c) : MarkerOn s (l.foldl (State.sendMarker e m) s) c m := by
  induction l generalizing s with
  | nil => exact absurd hp (by simp)
  | cons q l ih =>
    obtain ⟨hlo, hlg⟩ := sendMarker_links e m s q
    rw [List.foldl_cons]
    rcases List.mem_cons.1 hp with rfl | hp
    · obtain ⟨ch, hch⟩ := chan?_of_route? hc
      have hs : State.sendMarker e m s p = s.push e c (.marker m) := by rw [State.sendMarker, hc]
      rw [hs]
      exact markerOn_grow (markerOn_push hch e m) (sendMarker_foldl_links ..).2
    · have hr : (State.sendMarker e m s q).route? e p.1 = some c :=
        (route?_congr (by rw [hlo.elem?]) hlg.isSome _).trans hc
      obtain ⟨ch, d, h, hd, hm⟩ := ih _ hp hr
      exact ⟨ch, d, h, hlo.cycle ▸ hd, hm⟩

theorem markersLeave_sendMarkers (s : State) (e : ElemRef) (m : Marker) : MarkersLeave s (s.sendMarkers e m) e m := by
  intro el oc q hel hq c hc
  rw [sendMarkers_eq, hel]
  exact sendMarker_foldl_on e m el.routes s hq hc

theorem markersLeave_grow {s t u : State} {e : ElemRef} {m : Marker} (h : MarkersLeave s t e m) (hu : LinksGrow t u) : MarkersLeave s u e m :=
  fun el oc q hel hq c hc => markerOn_grow (h el oc q hel hq c hc) hu

/-- What markers leave on depends on the element's routes, on which channels there are and on the cycle. -/
theorem markersLeave_congr {s u t : State} {e : ElemRef} {m : Marker} (h : MarkersLeave u t e m)
    (he : (u.elem? e).map (·.routes) = (s.elem? e).map (·.routes)) (hc : ∀ c, (u.chan? c).isSome = (s.chan? c).isSome)
    (hcy : u.cycle = s.cycle) : MarkersLeave s t e m := by
  intro el oc q hel hq c hr
  rw [hel, Option.map_some, Option.map_eq_some_iff] at he
  obtain ⟨el', he', hroutes⟩ := he
  obtain ⟨ch, d, h1, h2, h3⟩ := h el' oc q he' (hroutes ▸ hq) c
    ((route?_congr (by rw [he', hel, Option.map_some, hroutes, Option.map_some]) hc oc).trans hr)
  exact ⟨ch, d, h1, hcy ▸ h2, h3⟩

/-! A round or cut marker at an element -/

/-- What markers that freeze elements keep: the tiles, the steps to come, the cycle, the residencies, the elements but for their mark, and what travels on the links. -/
structure Marked (m : Marker) (s t : State) : Prop where
  tiles : t.tiles = s.tiles
  agenda : t.agenda = s.agenda
  cycle : t.cycle = s.cycle
  ress : t.ress = s.ress
  elem : ∀ e, t.elem? e = s.elem? e ∨ ∃ el, s.elem? e = some el ∧ el.frozen = none ∧ t.elem? e = some { el with frozen := some m }
  links : LinksGrow s t

theorem FreezesOnly.marked {s t : State} (h : FreezesOnly s t) (m : Marker) : Marked m s t := by
  obtain ⟨_, _, rfl, _, _, _, _, _, _, _, _, _, _, _, _, _, rfl⟩ := h
  exact ⟨rfl, rfl, rfl, rfl, fun _ => .inl rfl, .of_chans rfl⟩

theorem LinksOnly.marked {s t : State} (h : LinksOnly s t) (hl : LinksGrow s t) (m : Marker) : Marked m s t := by
  obtain ⟨_, _, _, _, rfl⟩ := h
  exact ⟨rfl, rfl, rfl, rfl, fun _ => .inl rfl, hl⟩

theorem Marked.refl (m : Marker) (s : State) : Marked m s s := (FreezesOnly.refl s).marked m

theorem Marked.trans {m : Marker} {s t u : State} (h1 : Marked m s t) (h2 : Marked m t u) : Marked m s u where
  tiles := h2.tiles.trans h1.tiles
  agenda := h2.agenda.trans h1.agenda
  cycle := h2.cycle.trans h1.cycle
  ress := h2.ress.trans h1.ress
  links := h1.links.trans h2.links
  elem e := by
    rcases h2.elem e with h | ⟨el, ht, hf, hu⟩
    · rw [h]; exact h1.elem e
    · rcases h1.elem e with h | ⟨el', hs, hf', ht'⟩
      · exact .inr ⟨el, h ▸ ht, hf, hu⟩
      · obtain rfl := Option.some.inj (ht'.symm.trans ht)
        cases hf

theorem Marked.routes {m : Marker} {s t : State} (h : Marked m s t) (e : ElemRef) : (t.elem? e).map (·.routes) = (s.elem? e).map (·.routes) := by
  rcases h.elem e with h | ⟨el, hs, -, ht⟩
  · rw [h]
  · rw [hs, ht]; rfl

/-- An element is marked frozen. -/
def State.markElem (s : State) (e : ElemRef) (m : Marker) : State := s.modElem e fun el => { el with frozen := some m }

/-- The contexts of an element that a marker freezes. -/
def State.toFreeze (s : State) (e : ElemRef) (m : Marker) : List CtxRef :=
  ((s.ctxs.filter fun p => p.1.tile == e).map (·.1)).filter fun r => !s.exempt r m

/-- The element is marked and its contexts frozen. -/
def State.frozenElem (s : State) (e : ElemRef) (m : Marker) : State :=
  (s.toFreeze e m).foldl (fun s r => s.freeze r m.freeze) (s.markElem e m)

theorem elemFreeze_eq {s : State} {e : ElemRef} {el : Elem} (he : s.elem? e = some el) (hf : el.frozen = none) (m : Marker) :
    s.elemFreeze e m = ((s.frozenElem e m).sendMarkers e m).active e.rid := by
  rw [State.elemFreeze, he]
  simp only [hf, Option.isSome_none, Bool.false_eq_true, if_false]
  rfl

/-- An element that is not there or has frozen already lets a marker change nothing. -/
theorem elemFreeze_same {s : State} {e : ElemRef} (h : ∀ el, s.elem? e = some el → el.frozen ≠ none) (m : Marker) : s.elemFreeze e m = s := by
  unfold State.elemFreeze
  split
  · rfl
  · next el hel => rw [if_pos (Option.isSome_iff_ne_none.2 (h el hel))]

/-- A marker at an element that has not frozen, or else nothing. -/
theorem elemFreeze_cases (s : State) (e : ElemRef) (m : Marker) : s.elemFreeze e m = s ∨
    ∃ el, s.elem? e = some el ∧ el.frozen = none ∧ s.elemFreeze e m = ((s.frozenElem e m).sendMarkers e m).active e.rid := by
  by_cases h : ∃ el, s.elem? e = some el ∧ el.frozen = none
  · obtain ⟨el, he, hf⟩ := h
    exact .inr ⟨el, he, hf, elemFreeze_eq he hf m⟩
  · exact .inl (elemFreeze_same (fun el he hf => h ⟨el, he, hf⟩) m)

theorem markElem_marked {s : State} {e : ElemRef} {el : Elem} (he : s.elem? e = some el) (hf : el.frozen = none) (m : Marker) :
    Marked m s (s.markElem e m) where
  tiles := rfl
  agenda := rfl
  cycle := rfl
  ress := rfl
  links := .of_chans rfl
  elem q := by
    rw [State.markElem, State.elem?_modElem]
    split
    · next hq => exact .inr ⟨el, hq ▸ he, hf, by rw [he, Option.map_some]⟩
    · exact .inl rfl

theorem FreezesOnly.frozenElem (s : State) (e : ElemRef) (m : Marker) : FreezesOnly (s.markElem e m) (s.frozenElem e m) := .freezes ..

theorem LinksOnly.elemFreeze (s : State) (e : ElemRef) (m : Marker) : LinksOnly s ((s.sendMarkers e m).active e.rid) ∧
    LinksGrow s ((s.sendMarkers e m).active e.rid) :=
  ⟨(sendMarkers_links ..).1.trans (.active ..), (sendMarkers_links ..).2.trans (.of_chans (State.active_chans ..))⟩

theorem Marked.elemFreeze (s : State) (e : ElemRef) (m : Marker) : Marked m s (s.elemFreeze e m) := by
  rcases elemFreeze_cases s e m with h | ⟨el, he, hf, h⟩
  · rw [h]; exact .refl m s
  · rw [h]
    obtain ⟨h1, h2⟩ := LinksOnly.elemFreeze (s.frozenElem e m) e m
    exact ((markElem_marked he hf m).trans ((FreezesOnly.frozenElem s e m).marked m)).trans (h1.marked h2 m)

theorem LinksOnly.ctx? {s t : State} (h : LinksOnly s t) (q : CtxRef) : t.ctx? q = s.ctx? q := by
  obtain ⟨_, _, _, _, rfl⟩ := h
  rfl

theorem frozenBy_congr {s t : State} {r : CtxRef} {x : Ctx} {m : Marker} (h : FrozenBy s r x m) (ht : t.ctx? r = s.ctx? r) : FrozenBy t r x m := by
  obtain ⟨y, hy, hrest⟩ := h
  exact ⟨y, ht.trans hy, hrest⟩

/-- A context that the marker has frozen stays so while it reaches other elements. -/
theorem frozenBy_elemFreeze {s : State} {r : CtxRef} {x : Ctx} {m : Marker} (hm : m = .round ∨ m = .cut) (h : FrozenBy s r x m) (e : ElemRef) :
    FrozenBy (s.elemFreeze e m) r x m := by
  rcases elemFreeze_cases s e m with h' | ⟨el, he, hf, h'⟩
  · rwa [h']
  · rw [h']
    have h1 : FrozenBy (s.frozenElem e m) r x m := frozenBy_freezes hm (frozenBy_congr (t := s.markElem e m) h rfl) _
    exact frozenBy_congr h1 ((LinksOnly.elemFreeze ..).1.ctx? r)

/-- A marker at an element leaves the others. -/
theorem elem?_elemFreeze_other {s : State} {e q : ElemRef} (hq : q ≠ e) (m : Marker) : (s.elemFreeze e m).elem? q = s.elem? q := by
  rcases elemFreeze_cases s e m with h | ⟨el, he, hf, h⟩
  · rw [h]
  · obtain ⟨_, _, hu, _, _, _, _, _, _, _, _, _, _, _, _, _, ht⟩ := FreezesOnly.frozenElem s e m
    have h1 : (s.frozenElem e m).elem? q = (s.markElem e m).elem? q := by rw [ht, hu]; rfl
    rw [h, (LinksOnly.elemFreeze ..).1.elem?, h1, State.markElem, State.elem?_modElem, if_neg hq]

/-- A context that the marker freezes belongs to the element. -/
theorem mem_toFreeze {s : State} {e : ElemRef} {m : Marker} {r : CtxRef} : r ∈ s.toFreeze e m ↔
    (∃ x, (r, x) ∈ s.ctxs) ∧ r.tile = e ∧ s.exempt r m = false := by
  simp [State.toFreeze]
  tauto

/-- Contexts of other elements that no freeze waits for are as before. -/
theorem ctx?_elemFreeze_other {s : State} {e : ElemRef} {r : CtxRef} (hr : r.tile ≠ e) {x : Ctx} (hx : s.ctx? r = some x) (hf : x.freeze = [])
    (m : Marker) : (s.elemFreeze e m).ctx? r = some x := by
  rcases elemFreeze_cases s e m with h | ⟨el, he, -, h⟩
  · rw [h, hx]
  · rw [h, (LinksOnly.elemFreeze ..).1.ctx?]
    exact ctx?_freezes_other (s := s.markElem e m) m.freeze _ (fun hmem => hr (mem_toFreeze.1 hmem).2.1) hx hf

/-- A marker that meets an element that has not frozen freezes it and its contexts between words, and leaves on each output. -/
def ElemStops (s t : State) (e : ElemRef) (m : Marker) : Prop := ∀ el, s.elem? e = some el → el.frozen = none →
  t.elem? e = some { el with frozen := some m } ∧ MarkersLeave s t e m ∧
    ∀ r x, r.tile = e → s.ctx? r = some x → NoRows s e → s.exempt r m = false → BetweenWords s r x → x.freeze = [] → FrozenBy t r x m

theorem elemStops_elemFreeze {m : Marker} (hm : m = .round ∨ m = .cut) (s : State) (e : ElemRef) : ElemStops s (s.elemFreeze e m) e m := by
  intro el hel hfr
  have hmark := (markElem_marked hel hfr m).trans ((FreezesOnly.frozenElem s e m).marked m)
  obtain ⟨hlo, -⟩ := LinksOnly.elemFreeze (s.frozenElem e m) e m
  have hf : (s.frozenElem e m).elem? e = some { el with frozen := some m } := by
    obtain ⟨_, _, hu, _, _, _, _, _, _, _, _, _, _, _, _, _, ht⟩ := FreezesOnly.frozenElem s e m
    have h1 : (s.frozenElem e m).elem? e = (s.markElem e m).elem? e := by rw [ht, hu]; rfl
    rw [h1, State.markElem, State.elem?_modElem, if_pos rfl, hel, Option.map_some]
  rw [elemFreeze_eq hel hfr]
  refine ⟨by rw [hlo.elem?, hf], ?_, fun r x hr hx hrows hex hb hfz => ?_⟩
  · refine markersLeave_grow (markersLeave_congr (markersLeave_sendMarkers (s.frozenElem e m) e m) (hmark.routes e) hmark.links.isSome hmark.cycle) ?_
    exact .of_chans (State.active_chans ..)
  · subst hr
    exact frozenBy_congr (frozenBy_of_mem (s := s.markElem r.tile m) hm hfz _ (mem_toFreeze.2 ⟨⟨x, mem_of_tget hx⟩, rfl, hex⟩) hx hrows hb)
      (hlo.ctx? r)

/-- What a marker did at an element stands while it reaches others. -/
theorem elemStops_later {s t : State} {e : ElemRef} {m : Marker} (hm : m = .round ∨ m = .cut) (h : ElemStops s t e m) (q : ElemRef) :
    ElemStops s (t.elemFreeze q m) e m := by
  intro el hel hf
  obtain ⟨h1, h2, h3⟩ := h el hel hf
  refine ⟨?_, markersLeave_grow h2 (Marked.elemFreeze t q m).links, fun r x hr hx hrows hex hb hfz =>
    frozenBy_elemFreeze hm (h3 r x hr hx hrows hex hb hfz) q⟩
  rcases (Marked.elemFreeze t q m).elem e with h | ⟨el', ht, hf', -⟩
  · rw [h, h1]
  · obtain rfl := Option.some.inj (h1.symm.trans ht)
    cases hf'

theorem exempt_congr {s u : State} {r : CtxRef} {x : Ctx} (hs : s.ctx? r = some x) (hu : u.ctx? r = some x)
    (hres : (u.res? r.rid).map (·.ownMark) = (s.res? r.rid).map (·.ownMark)) (m : Marker) : u.exempt r m = s.exempt r m := by
  unfold State.exempt
  rw [hs, hu]
  cases h1 : s.res? r.rid with
  | none =>
    rw [h1, Option.map_none, Option.map_eq_none_iff] at hres
    rw [hres]
  | some rs =>
    rw [h1, Option.map_some, Option.map_eq_some_iff] at hres
    obtain ⟨rs', h2, h3⟩ := hres
    rw [h2]
    dsimp only
    rw [h3]

/-- What a marker does at an element rests on the element, its contexts, the tiles, the steps to come, the cycle, on which channels there are, and on whose mark drains the region. -/
theorem elemStops_congr {s u t : State} {e : ElemRef} {m : Marker} (h : ElemStops u t e m) (helem : u.elem? e = s.elem? e)
    (hctx : ∀ r x, r.tile = e → s.ctx? r = some x → x.freeze = [] → u.ctx? r = some x) (htiles : u.tiles = s.tiles)
    (hagenda : u.agenda = s.agenda) (hcycle : u.cycle = s.cycle) (hchans : ∀ c, (u.chan? c).isSome = (s.chan? c).isSome)
    (hres : ∀ k, (u.res? k).map (·.ownMark) = (s.res? k).map (·.ownMark)) : ElemStops s t e m := by
  intro el hel hf
  obtain ⟨h1, h2, h3⟩ := h el (helem.trans hel) hf
  refine ⟨h1, markersLeave_congr h2 (by rw [helem]) hchans hcycle, fun r x hr hx hrows hex hb hfz => ?_⟩
  have hx' := hctx r x hr hx hfz
  refine h3 r x hr hx' (fun tl htl => hrows tl ?_) ((exempt_congr hx hx' (hres _) m).trans hex) ?_ hfz
  · rwa [State.tile?_congr htiles] at htl
  · rwa [BetweenWords, State.issueDue, State.grantDue, hagenda]

/-- What a marker does at an element does not depend on its reaching others before. -/
theorem elemStops_earlier {s t : State} {e q : ElemRef} {m : Marker} (hq : e ≠ q) (h : ElemStops (s.elemFreeze q m) t e m) : ElemStops s t e m := by
  have hmark := Marked.elemFreeze s q m
  exact elemStops_congr h (elem?_elemFreeze_other hq m) (fun r x hr hx hf => ctx?_elemFreeze_other (hr.symm ▸ hq) hx hf m) hmark.tiles
    hmark.agenda hmark.cycle hmark.links.isSome fun k => by rw [State.res?_congr hmark.ress]

theorem elemStops_foldl {m : Marker} (hm : m = .round ∨ m = .cut) {e : ElemRef} (l : List ElemRef) (s : State) (he : e ∈ l) :
    ElemStops s (l.foldl (fun s e => s.elemFreeze e m) s) e m := by
  induction l generalizing s with
  | nil => exact absurd he (by simp)
  | cons q l ih =>
    rw [List.foldl_cons]
    by_cases hq : e = q
    · subst hq
      exact List.foldlRecOn (motive := fun t => ElemStops s t e m) l _ (elemStops_elemFreeze hm s e) fun t h q _ => elemStops_later hm h q
    · exact elemStops_earlier hq (ih _ ((List.mem_cons.1 he).resolve_left hq))

theorem Marked.foldl (m : Marker) (l : List ElemRef) (s : State) : Marked m s (l.foldl (fun s e => s.elemFreeze e m) s) :=
  List.foldlRecOn (motive := fun t => Marked m s t) l _ (.refl m s) fun t h e _ => h.trans (.elemFreeze t e m)

/-! Markers where no context waits -/

/-- States whose elements' stores read alike and whose memories are the same. -/
theorem sameBytes_of_stores {s t : State} (h1 : t.gddr = s.gddr) (h2 : t.bulk = s.bulk) (h3 : t.host = s.host)
    (h4 : ∀ e, (t.elem? e).map (·.store) = (s.elem? e).map (·.store)) (h5 : t.gddrTags = s.gddrTags) (h6 : t.bulkTags = s.bulkTags) : SameBytes s t where
  gddr _ := by rw [h1]
  bulk _ := by rw [h2]
  host _ := by rw [h3]
  gddrTags := h5
  bulkTags := h6
  store e a := by
    unfold storeByte
    have := h4 e
    cases hs : s.elem? e <;> cases ht : t.elem? e <;> simp_all

theorem store_modElem {s : State} {e : ElemRef} {f : Elem → Elem} (hf : ∀ el, (f el).store = el.store) (q : ElemRef) :
    ((s.modElem e f).elem? q).map (·.store) = (s.elem? q).map (·.store) := by
  rw [State.elem?_modElem]
  split
  · next h =>
    rw [h, Option.map_map]
    exact congrArg (Option.map · _) (funext hf)
  · rfl

theorem LinksOnly.sameBytes {s t : State} (h : LinksOnly s t) : SameBytes s t := by
  obtain ⟨_, _, _, _, rfl⟩ := h
  exact Laws.sameBytes_of rfl rfl rfl rfl rfl rfl

theorem LinksOnly.ctxs {s t : State} (h : LinksOnly s t) : t.ctxs = s.ctxs := by
  obtain ⟨_, _, _, _, rfl⟩ := h
  rfl

theorem LinksOnly.quiet {s t : State} (h : LinksOnly s t) (hs : NoWaits s) (l : CtxRef → Prop) : Quiet s t l :=
  ⟨by rw [NoWaits, h.ctxs]; exact hs, h.sameBytes, fun q _ => h.ctx? q⟩

theorem Quiet.elemFreeze {s : State} (h : NoWaits s) (e : ElemRef) (m : Marker) : Quiet s (s.elemFreeze e m) (·.tile = e) := by
  have hsame : Quiet s s (·.tile = e) := ⟨h, Laws.sameBytes_refl s, fun _ _ => rfl⟩
  rcases elemFreeze_cases s e m with h' | ⟨el, -, -, h'⟩
  · rwa [h']
  · rw [h']
    have h1 : Quiet s (s.markElem e m) (·.tile = e) := ⟨h, sameBytes_of_stores rfl rfl rfl (store_modElem fun _ => rfl) rfl rfl, fun _ _ => rfl⟩
    have h2 : Quiet (s.markElem e m) (s.frozenElem e m) (·.tile = e) :=
      (Quiet.freezes (s := s.markElem e m) h _ _).mono fun _ hq => (mem_toFreeze.1 hq).2.1
    exact (h1.trans h2).trans ((LinksOnly.elemFreeze ..).1.quiet h2.waits _)

theorem Quiet.elemFreezes {s : State} (h : NoWaits s) (l : List ElemRef) (m : Marker) :
    Quiet s (l.foldl (fun s e => s.elemFreeze e m) s) fun _ => True :=
  List.foldlRecOn (motive := fun t => Quiet s t fun _ => True) l _ ⟨h, Laws.sameBytes_refl s, fun _ _ => rfl⟩ fun _ ht e _ =>
    ht.trans ((Quiet.elemFreeze ht.waits e m).mono fun _ _ => trivial)

/-! The marker at the head of a link -/

theorem markerAt_eq {s : State} {c : ChanRef} {ch : Chan} {d : Nat} {m : Marker} {fl : List (Nat × Fly)} {el : Elem} (hc : s.chan? c = some ch)
    (hfl : ch.flight = (d, .marker m) :: fl) (hel : s.elem? c.at = some el) :
    s.markerAt c = if d ≤ s.cycle ∧ (ch.held = [] ∨ el.frozen ≠ none) then some m else none := by
  simp only [State.markerAt, hc, hfl, hel, Bool.and_eq_true, decide_eq_true_eq, Bool.or_eq_true, List.isEmpty_iff, Option.isSome_iff_ne_none]

theorem popMarker_chan? {s : State} {c : ChanRef} {ch : Chan} {p : Nat × Fly} {fl : List (Nat × Fly)} (hc : s.chan? c = some ch)
    (hfl : ch.flight = p :: fl) (q : ChanRef) : (s.popMarker c).chan? q = if q = c then some { ch with flight := fl } else s.chan? q := by
  rw [State.popMarker, State.chan?_modChan, hc, Option.map_some, hfl, List.drop_one, List.tail_cons]

theorem popMarker_isSome (s : State) (c q : ChanRef) : ((s.popMarker c).chan? q).isSome = (s.chan? q).isSome := by
  rw [State.popMarker, State.chan?_modChan]
  split
  · next h => rw [h, Option.isSome_map]
  · rfl

theorem exec_roundMarker_none {s : State} {c : ChanRef} (harg : s.arg = .chan c) (h : s.markerAt c = none) : exec .roundMarker s = .next s := by
  rw [exec_roundMarker]
  unfold execRoundMarker
  split
  · next d hd =>
    obtain rfl : d = c := StepArg.chan.inj (hd.symm.trans harg)
    rw [h]
  · rfl

theorem exec_roundMarker_some {s : State} {c : ChanRef} {m : Marker} (harg : s.arg = .chan c) (hm : m = .round ∨ m = .cut)
    (h : s.markerAt c = some m) : exec .roundMarker s = .next ((s.popMarker c).elemFreeze c.at m) := by
  rw [exec_roundMarker]
  unfold execRoundMarker
  split
  · next d hd =>
    obtain rfl : d = c := StepArg.chan.inj (hd.symm.trans harg)
    rw [h]
    rcases hm with rfl | rfl <;> rfl
  · next hd => exact absurd harg (hd c)

section RoundMarker
variable {s : State} {c : ChanRef} {ch : Chan} {d : Nat} {m : Marker} {fl : List (Nat × Fly)} {el : Elem} (harg : s.arg = .chan c)
  (hc : s.chan? c = some ch) (hfl : ch.flight = (d, .marker m) :: fl) (hel : s.elem? c.at = some el)
include harg hc hfl hel

/-- A round or cut marker that an element does not meet yet. -/
theorem roundMarker_waits (h : s.cycle < d ∨ (el.frozen = none ∧ ch.held ≠ [])) : exec .roundMarker s = .next s := by
  refine exec_roundMarker_none harg ?_
  rw [markerAt_eq hc hfl hel, if_neg]
  rintro ⟨hd, hh⟩
  rcases h with h | ⟨hf, hne⟩
  · omega
  · exact hh.elim hne fun hn => hn hf

theorem roundMarker_taken (hm : m = .round ∨ m = .cut) (hd : d ≤ s.cycle) (hf : el.frozen ≠ none) : ∃ t, exec .roundMarker s = .next t ∧
    t = { s with chans := t.chans } ∧ t.chan? c = some { ch with flight := fl } ∧ ∀ q, q ≠ c → t.chan? q = s.chan? q := by
  have h := exec_roundMarker_some harg hm (by rw [markerAt_eq hc hfl hel, if_pos ⟨hd, .inr hf⟩])
  rw [elemFreeze_same (s := s.popMarker c) (fun el' hel' => by obtain rfl := Option.some.inj (hel.symm.trans hel'); exact hf)] at h
  exact ⟨_, h, rfl, by rw [popMarker_chan? hc hfl, if_pos rfl], fun q hq => by rw [popMarker_chan? hc hfl, if_neg hq]⟩

theorem roundMarker_freezes (hm : m = .round ∨ m = .cut) (hd : d ≤ s.cycle) (hf : el.frozen = none) (hh : ch.held = []) :
    ∃ t, exec .roundMarker s = .next t ∧ t.elem? c.at = some { el with frozen := some m } ∧
      (∀ q, q ≠ c.at → t.elem? q = s.elem? q) ∧ MarkersLeave s t c.at m ∧
      ((∀ p ∈ s.ctxs, p.2.wait = none) → SameBytes s t ∧ ∀ r, r.tile ≠ c.at → t.ctx? r = s.ctx? r) ∧
      ∀ r x, r.tile = c.at → s.ctx? r = some x → NoRows s c.at → s.exempt r m = false → BetweenWords s r x → x.freeze = [] → FrozenBy t r x m := by
  have h := exec_roundMarker_some harg hm (by rw [markerAt_eq hc hfl hel, if_pos ⟨hd, .inl hh⟩])
  have hstops : ElemStops s ((s.popMarker c).elemFreeze c.at m) c.at m :=
    elemStops_congr (elemStops_elemFreeze hm (s.popMarker c) c.at) rfl (fun _ _ _ hx _ => hx) rfl rfl rfl (popMarker_isSome s c) fun _ => rfl
  obtain ⟨h1, h2, h3⟩ := hstops el hel hf
  refine ⟨_, h, h1, fun q hq => elem?_elemFreeze_other (s := s.popMarker c) hq m, h2, fun hw => ?_, h3⟩
  have hq := Quiet.elemFreeze (s := s.popMarker c) hw c.at m
  exact ⟨(Laws.sameBytes_of rfl rfl rfl rfl rfl rfl : SameBytes s (s.popMarker c)).trans hq.bytes, fun r hr => hq.ctxs r hr⟩

end RoundMarker

/-! The checkpoint marker -/

theorem exec_checkpointMarker_chan {s : State} {c : ChanRef} (harg : s.arg = .chan c) :
    exec .checkpointMarker s = match s.markerAt c with
      | some .checkpoint => .next ((s.popMarker c).elemCheck c.at)
      | _ => .next s := by
  rw [exec_checkpointMarker]
  unfold execCheckpointMarker
  split
  · next d hd =>
    obtain rfl : d = c := StepArg.chan.inj (hd.symm.trans harg)
    rfl
  · next e hd => exact absurd (hd.symm.trans harg) (by simp)
  · next k hd => exact absurd (hd.symm.trans harg) (by simp)
  · next hd _ _ => exact absurd harg (hd c)

/-- The element is marked as having seen the checkpoint marker, and its generators stop. -/
def State.checkElem (s : State) (e : ElemRef) : State := (s.modElem e fun el => { el with check := true }).genCheck e

theorem holding_checkElem {s : State} {e : ElemRef} (h : ∀ p ∈ s.gens, p.1.at = e → p.2.ahead = []) : (s.checkElem e).holding e = [] := by
  refine List.filter_eq_nil_iff.2 fun p hp => ?_
  obtain ⟨q, hq, rfl⟩ := List.mem_map.1 hp
  by_cases hqe : q.1.at = e
  · simp [hqe, h q hq hqe]
  · simp [hqe]

theorem elemCheck_eq {s : State} {e : ElemRef} {el : Elem} (hel : s.elem? e = some el) (hc : el.check = false)
    (h : ∀ p ∈ s.gens, p.1.at = e → p.2.ahead = []) : s.elemCheck e = (s.checkElem e).sendMarkers e .checkpoint := by
  have hh := holding_checkElem h
  rw [State.checkElem] at hh ⊢
  simp only [State.elemCheck, hel, hc, hh, Bool.false_eq_true, if_false, List.isEmpty_nil, Bool.not_true]

/-- An element that sees the checkpoint marker with nothing fetched ahead: its generators stop and the marker goes on. -/
theorem elemCheck_checks {s : State} {e : ElemRef} {el : Elem} (hel : s.elem? e = some el) (hc : el.check = false)
    (h : ∀ p ∈ s.gens, p.1.at = e → p.2.ahead = []) :
    (s.elemCheck e).elem? e = some { el with check := true } ∧
      (∀ k g, k.at = e → s.gen? k = some g → (s.elemCheck e).gen? k = some { g with check := true }) ∧
      (∀ k, k.at ≠ e → (s.elemCheck e).gen? k = s.gen? k) ∧ (s.elemCheck e).ctxs = s.ctxs ∧ SameBytes s (s.elemCheck e) ∧
      MarkersLeave s (s.elemCheck e) e .checkpoint := by
  rw [elemCheck_eq hel hc h]
  obtain ⟨hlo, -⟩ := sendMarkers_links (s.checkElem e) e .checkpoint
  have helem : (s.checkElem e).elem? e = some { el with check := true } :=
    (State.elem?_modElem ..).trans (by rw [if_pos rfl, hel, Option.map_some])
  have hgen (k : GenRef) : ((s.checkElem e).sendMarkers e .checkpoint).gen? k =
      (s.gen? k).map fun g => if k.at = e then { g with check := true } else g := by
    obtain ⟨_, _, _, _, hs⟩ := hlo
    rw [hs]
    exact (tget_tmap s.gens (fun k g => if k.at = e then { g with check := true } else g) k :)
  refine ⟨hlo.elem? e ▸ helem, fun k g hk hg => by rw [hgen, hg, Option.map_some, if_pos hk], fun k hk => ?_, hlo.ctxs, ?_, ?_⟩
  · rw [hgen]
    simp only [if_neg hk, Option.map_id']
  · exact (sameBytes_of_stores rfl rfl rfl (store_modElem fun _ => rfl) rfl rfl : SameBytes s (s.checkElem e)).trans hlo.sameBytes
  · exact markersLeave_congr (markersLeave_sendMarkers (s.checkElem e) e .checkpoint) (by rw [helem, hel]; rfl) (fun _ => rfl) rfl

section CheckpointMarker
variable {s : State} {c : ChanRef} {ch : Chan} {d : Nat} {fl : List (Nat × Fly)} {el : Elem} (harg : s.arg = .chan c)
  (hc : s.chan? c = some ch) (hfl : ch.flight = (d, .marker .checkpoint) :: fl) (hel : s.elem? c.at = some el)
include harg hc hfl hel

theorem checkpointMarker_waits (h : s.cycle < d ∨ (el.frozen = none ∧ ch.held ≠ [])) : exec .checkpointMarker s = .next s := by
  rw [exec_checkpointMarker_chan harg, markerAt_eq hc hfl hel, if_neg]
  rintro ⟨hd, hh⟩
  rcases h with h | ⟨hf, hne⟩
  · omega
  · exact hh.elim hne fun hn => hn hf

theorem checkpointMarker_checks (hd : d ≤ s.cycle) (hh : ch.held = [] ∨ el.frozen ≠ none) (hck : el.check = false)
    (hg : ∀ p ∈ s.gens, p.1.at = c.at → p.2.ahead = []) : ∃ t, exec .checkpointMarker s = .next t ∧
      t.elem? c.at = some { el with check := true } ∧ (∀ k g, k.at = c.at → s.gen? k = some g → t.gen? k = some { g with check := true }) ∧
      (∀ k, k.at ≠ c.at → t.gen? k = s.gen? k) ∧ t.ctxs = s.ctxs ∧ SameBytes s t ∧ MarkersLeave s t c.at .checkpoint := by
  have hex : exec .checkpointMarker s = .next ((s.popMarker c).elemCheck c.at) := by
    rw [exec_checkpointMarker_chan harg, markerAt_eq hc hfl hel, if_pos ⟨hd, hh⟩]
  obtain ⟨h1, h2, h3, h4, h5, h6⟩ := elemCheck_checks (s := s.popMarker c) hel hck hg
  exact ⟨_, hex, h1, h2, h3, h4, (Laws.sameBytes_of rfl rfl rfl rfl rfl rfl : SameBytes s (s.popMarker c)).trans h5,
    markersLeave_congr h6 rfl (popMarker_isSome s c) rfl⟩

end CheckpointMarker

/-! A stop begins -/

/-- The region is marked stopped and the island ports send their markers. -/
def State.stopBegun (s : State) (rid : Nat) : State := (s.modRes rid fun rs => { rs with stopped := true, cutDue := none }).markPorts rid .cut

theorem LinksOnly.markPorts (s : State) (rid : Nat) (m : Marker) : LinksOnly s (s.markPorts rid m) ∧ LinksGrow s (s.markPorts rid m) :=
  List.foldlRecOn (motive := fun t => LinksOnly s t ∧ LinksGrow s t) _ _ ⟨.refl s, .of_chans rfl⟩ fun t h c _ =>
    ⟨h.1.trans (.push ..), h.2.trans (LinksGrow.push t c.at c (.marker m))⟩

theorem reach_congr {s t : State} (h : t.elems = s.elems) (rid n : Nat) (l : List Nat) : t.reach rid n l = s.reach rid n l := by
  induction n generalizing l with
  | zero => rfl
  | succ n ih => rw [State.reach, State.reach, ih, State.elemsOf, State.elemsOf, h]

/-- The sources of a region depend on its elements, generators, operators and contexts. -/
theorem sources_congr {s t : State} (he : t.elems = s.elems) (hg : t.gens = s.gens) (ho : t.ops = s.ops) (hc : t.ctxs = s.ctxs) (rid : Nat) :
    t.sources rid = s.sources rid := by
  have hk (e : ElemRef) : t.sourceKind e = s.sourceKind e := by rw [State.sourceKind, State.sourceKind, hg, ho, hc]
  simp only [State.sources, State.elemsOf, reach_congr he, hk, he]

theorem LinksOnly.sources {s t : State} (h : LinksOnly s t) (rid : Nat) : t.sources rid = s.sources rid := by
  obtain ⟨_, _, _, _, rfl⟩ := h
  refine sources_congr ?_ ?_ ?_ ?_ rid <;> rfl

theorem startStop_eq (s : State) (rid : Nat) : s.startStop rid =
    ((s.stopBegun rid).sources rid ++ (s.stopBegun rid).portFills rid).foldl (fun s e => s.elemFreeze e .cut) (s.stopBegun rid) := rfl

theorem exec_regionStop_eq {s : State} {rid : Nat} {rs : Res} {d : Nat} (harg : s.arg = .id rid) (hrs : s.res? rid = some rs) (hd : rs.cutDue = some d) :
    exec .regionStop s = if d ≤ s.cycle && rs.st == .resident then .next (s.startStop rid) else .next s := by
  rw [exec_regionStop]
  unfold execRegionStop
  split
  · next k hk =>
    obtain rfl : k = rid := StepArg.id.inj (hk.symm.trans harg)
    rw [hrs]
    dsimp only
    rw [hd]
  · next hk => exact absurd harg (hk rid)

theorem stopBegun_rest (s : State) (rid : Nat) : LinksOnly (s.modRes rid fun rs => { rs with stopped := true, cutDue := none }) (s.stopBegun rid) ∧
    LinksGrow s (s.stopBegun rid) := by
  obtain ⟨h1, h2⟩ := LinksOnly.markPorts (s.modRes rid fun rs => { rs with stopped := true, cutDue := none }) rid .cut
  exact ⟨h1, LinksGrow.trans (.of_chans rfl) h2⟩

theorem sources_stopBegun (s : State) (rid : Nat) : (s.stopBegun rid).sources rid = s.sources rid := by
  refine ((stopBegun_rest s rid).1.sources rid).trans (sources_congr ?_ ?_ ?_ ?_ rid) <;> rfl

theorem elemStops_startStop {s : State} {rid : Nat} {e : ElemRef} (he : e ∈ s.sources rid) : ElemStops s (s.startStop rid) e .cut := by
  obtain ⟨hlo, hlg⟩ := stopBegun_rest s rid
  have hmem : e ∈ (s.stopBegun rid).sources rid ++ (s.stopBegun rid).portFills rid :=
    List.mem_append_left _ (sources_stopBegun s rid ▸ he)
  have h := elemStops_foldl (.inr rfl) _ (s.stopBegun rid) hmem
  rw [← startStop_eq] at h
  refine elemStops_congr h (hlo.elem? e) (fun r x _ hx _ => (hlo.ctx? r).trans hx) ?_ ?_ hlo.cycle hlg.isSome fun k => ?_
  · obtain ⟨_, _, _, _, hs⟩ := hlo
    rw [hs]
    rfl
  · obtain ⟨_, _, _, _, hs⟩ := hlo
    rw [hs]
    rfl
  · have e : (s.stopBegun rid).res? k = (s.modRes rid fun rs => { rs with stopped := true, cutDue := none }).res? k := by
      obtain ⟨_, _, _, _, hs⟩ := hlo
      rw [hs]
      rfl
    rw [e, State.res?_modRes]
    split
    · next h => rw [h, Option.map_map]; rfl
    · rfl

/-- A context that is no supervisor is not exempt from a cut. -/
theorem exempt_cut_of_not_sup {s : State} {r : CtxRef} {x : Ctx} (hx : s.ctx? r = some x) (hs : x.sup = false) : s.exempt r .cut = false := by
  unfold State.exempt
  rw [hx]
  cases s.res? r.rid <;> simp [hs]

theorem regionStop_stops {s : State} {rid : Nat} {rs : Res} {d : Nat} (harg : s.arg = .id rid) (hrs : s.res? rid = some rs)
    (hcut : rs.cutDue = some d) (hd : d ≤ s.cycle) (hst : rs.st = .resident) : ∃ t r, exec .regionStop s = .next t ∧ t.res? rid = some r ∧
      r = { rs with stopped := true, cutDue := none } ∧
      (∀ e ∈ s.sources rid, ∀ el, s.elem? e = some el → el.frozen = none → t.elem? e = some { el with frozen := some .cut } ∧ MarkersLeave s t e .cut ∧
        ∀ q x, q.tile = e → s.ctx? q = some x → NoRows s e → x.sup = false → BetweenWords s q x → x.freeze = [] → FrozenBy t q x .cut) ∧
      ((∀ p ∈ s.ctxs, p.2.wait = none) → SameBytes s t) := by
  have hex : exec .regionStop s = .next (s.startStop rid) := by
    rw [exec_regionStop_eq harg hrs hcut, hst, decide_eq_true hd]
    rfl
  obtain ⟨hlo, -⟩ := stopBegun_rest s rid
  refine ⟨_, _, hex, ?_, rfl, fun e he el hel hf => ?_, fun hw => ?_⟩
  · have h1 : (s.stopBegun rid).ress = (s.modRes rid fun rs => { rs with stopped := true, cutDue := none }).ress := by
      obtain ⟨_, _, _, _, hs⟩ := hlo
      rw [hs]
    rw [startStop_eq, State.res?_congr ((Marked.foldl .cut _ _).ress.trans h1), State.res?_modRes, if_pos rfl, hrs, Option.map_some]
  · obtain ⟨h1, h2, h3⟩ := elemStops_startStop he el hel hf
    exact ⟨h1, h2, fun q x hq hx hrows hsup => h3 q x hq hx hrows (exempt_cut_of_not_sup hx hsup)⟩
  · have hq : Quiet (s.modRes rid fun rs => { rs with stopped := true, cutDue := none }) (s.stopBegun rid) fun _ => True := hlo.quiet hw _
    rw [startStop_eq]
    exact (Laws.sameBytes_of rfl rfl rfl rfl rfl rfl : SameBytes s (s.modRes rid _)).trans (hq.trans (.elemFreezes hq.waits _ _)).bytes

/-! A stop ends -/

/-- The contexts, elements and links of a region go on. -/
def State.stopEnded (s : State) (rid : Nat) : State := { s.modRes rid fun rs => { rs with stopped := false, cutDue := none } with
  elems := tmap s.elems fun k e => if k.rid = rid && e.frozen == some Marker.cut then { e with frozen := none } else e
  ctxs := tmap s.ctxs fun k x => if k.rid = rid then x.unstop else x
  chans := tmap s.chans fun k c => if k.rid = rid then { c with flight := c.flight.filter (·.2 ≠ Fly.marker .cut) } else c }

theorem elem?_stopEnded (s : State) (rid : Nat) (e : ElemRef) : (s.stopEnded rid).elem? e =
    (s.elem? e).map fun el => if e.rid = rid && el.frozen == some Marker.cut then { el with frozen := none } else el := by
  simp only [State.elem?, State.stopEnded, tget_tmap]

theorem ctx?_stopEnded (s : State) (rid : Nat) (r : CtxRef) : (s.stopEnded rid).ctx? r =
    (s.ctx? r).map fun x => if r.rid = rid then x.unstop else x := by
  simp only [State.ctx?, State.stopEnded, tget_tmap]

theorem res?_stopEnded (s : State) (rid : Nat) : (s.stopEnded rid).res? rid = (s.res? rid).map fun rs => { rs with stopped := false, cutDue := none } :=
  (State.res?_modRes ..).trans (if_pos rfl)

theorem endStop_eq {s : State} {rid : Nat} {rs : Res} (hrs : s.res? rid = some rs) (hd : rs.deferredDrain = false) :
    s.endStop rid = s.stopEnded rid := by
  have h : s.endStop rid = match (s.stopEnded rid).res? rid with
    | some rs => if rs.deferredDrain then (s.stopEnded rid).startDrain rid rs.ownMark else s.stopEnded rid
    | none => s.stopEnded rid := rfl
  rw [h, res?_stopEnded, hrs]
  simp only [Option.map_some, hd, Bool.false_eq_true, if_false]

theorem exec_stopRelease_eq {s : State} {off : Nat} {w : Word} (harg : s.arg = .reg off w) :
    exec .stopRelease s = match s.ress.find? fun p => p.2.region == w.toNat && p.2.stopped with
      | some p => .next (s.endStop p.1)
      | none => .next s := by
  rw [exec_stopRelease]
  unfold execStopRelease
  split
  · next o v hv =>
    obtain ⟨-, rfl⟩ := StepArg.reg.inj (hv.symm.trans harg)
    rfl
  · next hv => exact absurd harg (hv off w)

theorem stopRelease_none {s : State} {off : Nat} {w : Word} (harg : s.arg = .reg off w)
    (h : ∀ p ∈ s.ress, p.2.region ≠ w.toNat ∨ p.2.stopped = false) : exec .stopRelease s = .next s := by
  rw [exec_stopRelease_eq harg, List.find?_eq_none.2 fun p hp => ?_]
  rcases h p hp with h | h
  · simp [h]
  · simp [h]

/-- A context that a stop alone froze is in its state before. -/
theorem unstop_resumes {x : Ctx} (hst : x.st = .frozen) (hs : x.stopped = true) (ht : x.trapped = false) (hc : x.byCtl = false) (hp : x.preempted = false) :
    x.unstop.st = x.was ∧ x.unstop.pc = x.pc ∧ x.unstop.lc = x.lc ∧ x.unstop.stopped = false ∧ SameRegisters x x.unstop := by
  have h : x.unstop = { x with st := x.was, trapped := false, preempted := false, stopped := false, byCtl := false, waitop := 0 } := by
    simp only [Ctx.unstop, hst, hs, ht, hc, hp, Ctx.resume, Bool.false_and, Bool.or_self, decide_true, Bool.and_self, Bool.false_eq_true, if_true, if_false]
  rw [h]
  exact ⟨rfl, rfl, rfl, rfl, by constructor <;> first | rfl | exact ht.symm⟩

theorem unstop_trapped {x : Ctx} (hst : x.st = .frozen) (hs : x.stopped = true) (ht : x.trapped = true) : x.unstop = { x with stopped := false } := by
  simp only [Ctx.unstop, hst, hs, ht, Bool.true_or, decide_true, Bool.and_self, if_true]

theorem stopRelease_ends {s : State} {off : Nat} {w : Word} {rid : Nat} {rs : Res} (harg : s.arg = .reg off w) (hress : s.ress = [(rid, rs)])
    (hreg : rs.region = w.toNat) (hstop : rs.stopped = true) (hdef : rs.deferredDrain = false) : ∃ t, exec .stopRelease s = .next t ∧
      t.res? rid = some { rs with stopped := false, cutDue := none } ∧ SameBytes s t ∧
      (∀ e el, e.rid = rid → s.elem? e = some el → t.elem? e = some (if el.frozen = some .cut then { el with frozen := none } else el)) ∧
      (∀ r x, r.rid = rid → s.ctx? r = some x → x.st = .frozen → x.stopped = true →
        (x.trapped = false → x.byCtl = false → x.preempted = false → ∃ y, t.ctx? r = some y ∧ y.st = x.was ∧ y.pc = x.pc ∧ y.lc = x.lc ∧
          y.stopped = false ∧ SameRegisters x y) ∧
        (x.trapped = true → t.ctx? r = some { x with stopped := false })) ∧
      ∀ r, r.rid ≠ rid → t.ctx? r = s.ctx? r := by
  have hrs : s.res? rid = some rs := by rw [State.res?, hress, tget, if_pos rfl]
  have hex : exec .stopRelease s = .next (s.stopEnded rid) := by
    rw [exec_stopRelease_eq harg, hress]
    simp only [hreg, hstop, beq_self_eq_true, Bool.and_self, List.find?_cons_of_pos]
    rw [endStop_eq hrs hdef]
  refine ⟨_, hex, by rw [res?_stopEnded, hrs, Option.map_some], sameBytes_of_stores rfl rfl rfl (fun e => ?_) rfl rfl, fun e el he hel => ?_,
    fun r x hr hx hst hs => ?_, fun r hr => ?_⟩
  · rw [elem?_stopEnded, Option.map_map]
    refine congrArg (Option.map · _) (funext fun el => ?_)
    dsimp only [Function.comp]
    split <;> rfl
  · rw [elem?_stopEnded, hel, Option.map_some]
    simp [he]
  · have hr' : (s.stopEnded rid).ctx? r = some x.unstop := by rw [ctx?_stopEnded, hx, Option.map_some, if_pos hr]
    exact ⟨fun ht hc hp => ⟨_, hr', unstop_resumes hst hs ht hc hp⟩, fun ht => by rw [hr', unstop_trapped hst hs ht]⟩
  · rw [ctx?_stopEnded]
    simp only [if_neg hr, Option.map_id']

/-- Settles O55: a marker's freezes reach each context of the element and nothing a marker does later undoes them; a stop that ends undoes its own mark. -/
theorem markersFreezeAndStopsEnd : Obligations.MarkersFreezeAndStopsEnd := by
  refine ⟨fun s c ch d m fl el harg hc hfl hel hm => ⟨fun hd => roundMarker_waits harg hc hfl hel (.inl hd),
      roundMarker_taken harg hc hfl hel hm, fun hf hh => roundMarker_waits harg hc hfl hel (.inr ⟨hf, hh⟩),
      roundMarker_freezes harg hc hfl hel hm⟩,
    fun s c ch d fl el harg hc hfl hel => ⟨fun hd => checkpointMarker_waits harg hc hfl hel (.inl hd),
      fun hf hh => checkpointMarker_waits harg hc hfl hel (.inr ⟨hf, hh⟩), checkpointMarker_checks harg hc hfl hel⟩,
    fun s rid rs d harg hrs hcut => ⟨fun hd => ?_, regionStop_stops harg hrs hcut⟩,
    fun s off w harg => ⟨stopRelease_none harg, fun rid rs => stopRelease_ends harg⟩⟩
  rw [exec_regionStop_eq harg hrs hcut, decide_eq_false (by omega)]
  rfl

end Sys2Proof.Machine
end

section
/-! SUPPORT. The grant of a tile's issue, the periodic step of its weights, and the end of a task whose inputs have ended. -/

namespace Sys2Proof.Machine

open Sys2Proof.Safety

/-! The arbiter -/

/-- A tile after a grant to c that leaves the burst at b under the limit l: the holder goes on, or has reached its limit. -/
def Tile.afterGrant (c : Fin 8) (b l : Nat) (k : Tile) : Tile :=
  if l ≤ b then { k with ctxPtr := c + 1, holder := none, burst := b, limit := l } else { k with holder := some c, burst := b, limit := l }

/-- A tile after the grant that starts a burst of c. -/
def Tile.firstGrant (t : Tile) (c : Fin 8) : Tile := Tile.afterGrant c 1 ((t.weight.get c).toNat + 1) { t with ctxPtr := c }

@[simp] theorem Tile.afterGrant_imem (c : Fin 8) (b l : Nat) (k : Tile) : (Tile.afterGrant c b l k).imem = k.imem := by
  unfold Tile.afterGrant
  split <;> rfl
@[simp] theorem Tile.afterGrant_weight (c : Fin 8) (b l : Nat) (k : Tile) : (Tile.afterGrant c b l k).weight = k.weight := by
  unfold Tile.afterGrant
  split <;> rfl
@[simp] theorem Tile.afterGrant_burst (c : Fin 8) (b l : Nat) (k : Tile) : (Tile.afterGrant c b l k).burst = b := by
  unfold Tile.afterGrant
  split <;> rfl

theorem find?_finRange {p : Fin 8 → Bool} {i : Fin 8} (hi : p i = true) (hj : ∀ j, j < i → p j = false) :
    (List.finRange 8).find? p = some i := by
  refine List.find?_eq_some_iff_getElem.2 ⟨hi, i.val, by simp, by simp, fun j hji => ?_⟩
  have := hj ⟨j, by omega⟩ hji
  simpa using this

/-- A holder that can issue with its burst below its limit is granted once more. -/
theorem arbiter_holder {t : Tile} {can : Fin 8 → Bool} {h : Fin 8} (hh : t.holder = some h) (hc : can h = true) (hb : t.burst < t.limit) :
    arbiter t can = (some h, Tile.afterGrant h (t.burst + 1) t.limit t) := by
  rw [arbiter, hh]
  simp only [hc, hb, decide_true, Bool.and_self, if_true, Tile.afterGrant]

/-- Without a holder the first context that can issue, from CTX_PTR on, is granted. -/
theorem arbiter_first {t : Tile} {can : Fin 8 → Bool} {i : Fin 8} (hh : t.holder = none) (hi : can (t.ctxPtr + i) = true)
    (hj : ∀ j, j < i → can (t.ctxPtr + j) = false) : arbiter t can = (some (t.ctxPtr + i), t.firstGrant (t.ctxPtr + i)) := by
  rw [arbiter, hh]
  dsimp only
  rw [find?_finRange (p := fun i => can (t.ctxPtr + i)) hi hj]
  rfl

theorem arbiter_nobody {t : Tile} {can : Fin 8 → Bool} (hh : t.holder = none) (hc : ∀ c, can c = false) : arbiter t can = (none, t) := by
  rw [arbiter, hh]
  dsimp only
  rw [List.find?_eq_none.2 fun i _ => by rw [hc]; decide]

/-- A holder that cannot issue is passed: the search goes on from the context behind it. -/
theorem arbiter_passes {t : Tile} {can : Fin 8 → Bool} {h : Fin 8} (hh : t.holder = some h) (hc : can h = false) :
    arbiter t can = arbiter { t with ctxPtr := h + 1, holder := none } can := by
  rw [arbiter, hh]
  simp only [hc, Bool.false_and, Bool.false_eq_true, if_false]
  rfl

/-! The issue grant of a tile -/

/-- Contexts of the tile in IDLE and READY follow the firing condition, one at a time. -/
def State.readyStep (e : ElemRef) (s : State) (c : Fin 8) : State :=
  let r := e.ctx c.val
  match s.ctx? r with
  | none => s
  | some x =>
    match x.st with
    | .idle => if s.firesOn r && s.canFire r x && !s.adopting r.rid then s.setCtx r { x with st := .ready } else s
    | .ready => if s.canFire r x then s else s.setCtx r { x with st := .idle }
    | _ => s

theorem readyGo_eq (s : State) (e : ElemRef) : s.readyGo e = (List.finRange 8).foldl (State.readyStep e) s := rfl

theorem readyStep_same {s : State} {e : ElemRef} {c : Fin 8} (h : ∀ x, s.ctx? (e.ctx c.val) = some x → x.st ≠ .idle ∧ x.st ≠ .ready) :
    State.readyStep e s c = s := by
  unfold State.readyStep
  dsimp only
  split
  · rfl
  · next x hx =>
    obtain ⟨h1, h2⟩ := h x hx
    split
    · next hs => exact absurd hs h1
    · next hs => exact absurd hs h2
    · rfl

theorem readyGo_same {s : State} {e : ElemRef} (h : ∀ (c : Fin 8) x, s.ctx? (e.ctx c.val) = some x → x.st ≠ .idle ∧ x.st ≠ .ready) :
    s.readyGo e = s :=
  List.foldlRecOn (motive := fun t => t = s) _ _ rfl fun _ ht c _ => ht.symm ▸ readyStep_same (h c)

/-- The tile's record is written. -/
def State.putTile (s : State) (e : ElemRef) (k : Tile) : State := { s with tiles := tput s.tiles e k }

theorem tile?_putTile (s : State) (e : ElemRef) (k : Tile) : (s.putTile e k).tile? e = some k := tget_tput_self ..

theorem tile?_putTile_other {s : State} {e : ElemRef} {k : Tile} (q : ElemRef) (hq : q ≠ e) : (s.putTile e k).tile? q = s.tile? q :=
  tget_tput_other _ _ hq

/-- The context that issues on the tile, and the arbiter after it. -/
def State.arbitrated (s : State) (e : ElemRef) (t : Tile) : Option (Fin 8) × Tile :=
  arbiter t fun c => s.canIssue (e.ctx c.val) (s.ctxOf e c)

/-- The grant of context c of the tile. -/
def State.issueTo (s : State) (e : ElemRef) (c : Fin 8) : Out :=
  let r := e.ctx c.val
  let s := s.tileArrivals e (c.val + 1)
  match s.ctx? r with
  | none => .next s
  | some x =>
    if x.st = .ready then
      let (s, x) := s.reserve r { x with st := .run, pc := x.entry }
      .next ((s.setCtx r x).granted r x)
    else .next (s.granted r x)

/-- The issue of a tile whose contexts have followed the firing condition in u. -/
theorem exec_issueGrant_elem {s u : State} {e : ElemRef} {t : Tile} (harg : s.arg = .elem e) (ht : s.tile? e = some t)
    (hf : s.firing e.rid = true) (hu : s.readyGo e = u) (htu : u.tile? e = some t) :
    exec .issueGrant s = match (u.arbitrated e t).1 with
      | none => .next (u.putTile e (u.arbitrated e t).2)
      | some c => (u.putTile e (u.arbitrated e t).2).issueTo e c := by
  rw [exec_issueGrant]
  unfold execIssueGrant
  split
  · next d hd =>
    obtain rfl : d = e := StepArg.elem.inj (hd.symm.trans harg)
    rw [ht]
    simp only [hf, Bool.not_true, Bool.false_eq_true, if_false, hu, htu, Option.getD_some]
    rfl
  · next q hq => exact absurd (hq.symm.trans harg) (by simp)
  · next hd _ => exact absurd harg (hd e)

theorem wordAt_putTile {s : State} {e : ElemRef} (c : Nat) {t k : Tile} (ht : s.tile? e = some t) (hk : k.imem = t.imem) (pc : Nat) :
    (s.putTile e k).wordAt (e.ctx c) pc = s.wordAt (e.ctx c) pc := by
  have h1 : (s.putTile e k).tile? (e.ctx c).tile = some k := tile?_putTile ..
  have h2 : s.tile? (e.ctx c).tile = some t := ht
  rw [State.wordAt, State.wordAt, h1, h2]
  dsimp only
  rw [hk]

/-- The word at the context's pc is ctxctl or mark, and a tile has yet to issue in this cycle. -/
def IssuesLate (s : State) (r : CtxRef) (x : Ctx) : Prop :=
  s.agenda.any isTileRow = true ∧ ∃ i, decode (s.wordAt r x.pc.toNat) = .ok i ∧ isControl i = true

theorem granted_now {s : State} {r : CtxRef} {x : Ctx} (h : ¬ IssuesLate s r x) : s.granted r x = { s with grant := some r } := by
  unfold State.granted
  dsimp only
  split
  · next i hi =>
    rw [if_neg]
    intro hc
    obtain ⟨hc, ha⟩ := (Bool.and_eq_true _ _).mp hc
    exact h ⟨ha, i, hi, hc⟩
  · rfl

theorem granted_late {s : State} {r : CtxRef} {x : Ctx} (h : IssuesLate s r x) :
    s.granted r x = { s with agenda := behindTiles (.issueGrant, .ctx r) s.agenda } := by
  obtain ⟨ha, i, hi, hc⟩ := h
  unfold State.granted
  dsimp only
  rw [hi]
  simp only [hc, ha, Bool.and_self, if_true]

theorem tileArrivals_none {s : State} {e : ElemRef} (h : s.owesArrival e = false) (n : Nat) : s.tileArrivals e n = s := by
  rw [State.tileArrivals, h]
  rfl

theorem issueTo_run {s : State} {e : ElemRef} {c : Fin 8} {x : Ctx} (howes : s.owesArrival e = false) (hx : s.ctx? (e.ctx c.val) = some x)
    (hst : x.st ≠ .ready) : s.issueTo e c = .next (s.granted (e.ctx c.val) x) := by
  rw [State.issueTo, tileArrivals_none howes]
  dsimp only
  rw [hx]
  exact if_neg hst

/-- A context in RUN that is granted on a tile without deferred arrivals issues now, or behind the tiles. -/
theorem issueTo_gives {s : State} {e : ElemRef} {t k : Tile} {c : Fin 8} (ht : s.tile? e = some t) (hk : k.imem = t.imem)
    (howes : s.owesArrival e = false) {x : Ctx} (hx : s.ctx? (e.ctx c.val) = some x) (hst : x.st ≠ .ready) :
    (¬ IssuesLate s (e.ctx c.val) x → (s.putTile e k).issueTo e c = .next { s with tiles := tput s.tiles e k, grant := some (e.ctx c.val) }) ∧
      (IssuesLate s (e.ctx c.val) x → (s.putTile e k).issueTo e c =
        .next { s with tiles := tput s.tiles e k, agenda := behindTiles (.issueGrant, .ctx (e.ctx c.val)) s.agenda }) := by
  have hlate : IssuesLate (s.putTile e k) (e.ctx c.val) x ↔ IssuesLate s (e.ctx c.val) x := by
    rw [IssuesLate, IssuesLate, wordAt_putTile c.val ht hk]
    exact Iff.rfl
  rw [issueTo_run (s := s.putTile e k) howes hx hst]
  exact ⟨fun h => by rw [granted_now (fun hl => h (hlate.1 hl))]; rfl, fun h => by rw [granted_late (hlate.2 h)]; rfl⟩

/-- A context that is neither IDLE nor READY may be granted where it runs free. -/
theorem canIssue_iff {s : State} {e : ElemRef} {c : Fin 8} (h : ∀ x, s.ctx? (e.ctx c.val) = some x → x.st ≠ .idle ∧ x.st ≠ .ready) :
    s.canIssue (e.ctx c.val) (s.ctxOf e c) = true ↔ RunsFree s e c := by
  unfold State.canIssue State.ctxOf RunsFree
  cases hx : s.ctx? (e.ctx c.val) with
  | none => simp
  | some x =>
    obtain ⟨-, hr⟩ := h x hx
    cases hs : x.st <;> simp [hs] at hr ⊢

section Grants
variable {s : State} {e : ElemRef} {t : Tile} (harg : s.arg = .elem e) (ht : s.tile? e = some t) (hf : s.firing e.rid = true)
  (howes : s.owesArrival e = false) (hst : ∀ (c : Fin 8) x, s.ctx? (e.ctx c.val) = some x → x.st ≠ .idle ∧ x.st ≠ .ready)
include harg ht hf howes hst

/-- The arbiter grants c and leaves the tile k: the word of c runs. -/
theorem issueGrant_gives {c : Fin 8} {k : Tile} (h : s.arbitrated e t = (some c, k)) (hk : k.imem = t.imem) (x : Ctx)
    (hx : s.ctx? (e.ctx c.val) = some x) :
    (¬ IssuesLate s (e.ctx c.val) x → exec .issueGrant s = .next { s with tiles := tput s.tiles e k, grant := some (e.ctx c.val) }) ∧
      (IssuesLate s (e.ctx c.val) x → exec .issueGrant s =
        .next { s with tiles := tput s.tiles e k, agenda := behindTiles (.issueGrant, .ctx (e.ctx c.val)) s.agenda }) := by
  rw [exec_issueGrant_elem harg ht hf (readyGo_same hst) ht, h]
  exact issueTo_gives ht hk howes hx (hst c x hx).2

omit howes in
theorem issueGrant_nobody (hh : t.holder = none) (hc : ∀ c, ¬ RunsFree s e c) : exec .issueGrant s = .next { s with tiles := tput s.tiles e t } := by
  have h : s.arbitrated e t = (none, t) := arbiter_nobody hh fun c => Bool.eq_false_iff.2 fun hci => hc c ((canIssue_iff (hst c)).1 hci)
  rw [exec_issueGrant_elem harg ht hf (readyGo_same hst) ht, h]
  rfl

end Grants

section Arbitrated
variable {s : State} {e : ElemRef} {t : Tile} (hst : ∀ (c : Fin 8) x, s.ctx? (e.ctx c.val) = some x → x.st ≠ .idle ∧ x.st ≠ .ready)
include hst

theorem arbitrated_holder {h : Fin 8} (hh : t.holder = some h) (hr : RunsFree s e h) (hb : t.burst < t.limit) :
    s.arbitrated e t = (some h, Tile.afterGrant h (t.burst + 1) t.limit t) :=
  arbiter_holder hh ((canIssue_iff (hst h)).2 hr) hb

theorem arbitrated_first {i : Fin 8} (hh : t.holder = none) (hr : RunsFree s e (t.ctxPtr + i)) (hj : ∀ j, j < i → ¬ RunsFree s e (t.ctxPtr + j)) :
    s.arbitrated e t = (some (t.ctxPtr + i), t.firstGrant (t.ctxPtr + i)) :=
  arbiter_first hh ((canIssue_iff (hst _)).2 hr) fun j hji => Bool.eq_false_iff.2 fun hci => hj j hji ((canIssue_iff (hst _)).1 hci)

theorem arbitrated_passes {h i : Fin 8} (hh : t.holder = some h) (hn : ¬ RunsFree s e h) (hr : RunsFree s e (h + 1 + i))
    (hj : ∀ j, j < i → ¬ RunsFree s e (h + 1 + j)) :
    s.arbitrated e t = (some (h + 1 + i), t.firstGrant (h + 1 + i)) := by
  have hc : s.canIssue (e.ctx h.val) (s.ctxOf e h) = false := Bool.eq_false_iff.2 fun hci => hn ((canIssue_iff (hst h)).1 hci)
  have h1 : s.arbitrated e t = s.arbitrated e { t with ctxPtr := h + 1, holder := none } := arbiter_passes hh hc
  rw [h1, arbitrated_first hst rfl hr hj]
  rfl

end Arbitrated

/-! The grant that starts the firing of a lone context -/

theorem foldl_only {α β : Type} {g : β → α → β} {c : α} {l : List α} {b : β} (hc : c ∈ l) (hl : l.Nodup) (h1 : ∀ d, d ≠ c → g b d = b)
    (h2 : ∀ d, d ≠ c → g (g b c) d = g b c) : l.foldl g b = g b c := by
  have rest (l : List α) (hn : c ∉ l) : l.foldl g (g b c) = g b c :=
    List.foldlRecOn (motive := fun a => a = g b c) l g rfl fun a ha d hd => by rw [ha]; exact h2 d (ne_of_mem_of_not_mem hd hn)
  induction l with
  | nil => exact absurd hc (by simp)
  | cons a l ih =>
    obtain ⟨ha, hl⟩ := List.nodup_cons.1 hl
    rw [List.foldl_cons]
    by_cases hac : a = c
    · subst hac
      exact rest l ha
    · rw [h1 a hac]
      exact ih ((List.mem_cons.1 hc).resolve_left (Ne.symm hac)) hl

theorem ctx_inj {e : ElemRef} {c d : Fin 8} (h : e.ctx c.val = e.ctx d.val) : c = d := Fin.ext (CtxRef.mk.inj h).2.2

/-- Interlocks do not depend on what the contexts' records hold, but for the reader's pc and locks. -/
theorem interlocked_setCtx (s : State) (q r : CtxRef) (y x : Ctx) : (s.setCtx q y).interlocked r x = s.interlocked r x := rfl

theorem inputsIn_iff {s : State} {r : CtxRef} {x : Ctx} : s.inputsIn r x = true ↔ ∀ n : Fin 32, x.inMask.getLsbD n.val = true →
    ∃ ch, s.chan? (r.tile.chan n.val) = some ch ∧ x.inRate.get n ≤ (ch.items.filter (·.slot)).length := by
  rw [State.inputsIn, List.all_eq_true]
  refine ⟨fun h n hn => ?_, fun h n _ => ?_⟩
  · have := h n (List.mem_finRange n)
    rw [hn] at this
    cases hc : s.chan? (r.tile.chan n.val) with
    | none => simp [hc] at this
    | some ch => exact ⟨ch, rfl, by simpa [hc] using this⟩
  · cases hn : x.inMask.getLsbD n.val with
    | false => rfl
    | true =>
      obtain ⟨ch, hc, hr⟩ := h n hn
      simp [hc, hr]

theorem noOutput {m : BitVec 32} (h : m = 0) (n : Nat) : m.getLsbD n = false := by simp [h]

theorem canFire_of_noOutputs {s : State} {r : CtxRef} {x : Ctx} (h : x.outMask = 0) : s.canFire r x = s.inputsIn r x := by
  have hs : s.slotsIn [] r x = true := by
    rw [State.slotsIn, List.all_eq_true]
    intro n _
    rw [noOutput h]
    rfl
  rw [State.canFire, State.slotsFree, hs, Bool.true_or, Bool.and_true]

theorem reserve_of_noOutputs {s : State} {r : CtxRef} {x : Ctx} (h : x.outMask = 0) : s.reserve r x = (s, x) := by
  refine List.foldlRecOn (motive := fun p => p = (s, x)) _ _ rfl fun p hp n _ => ?_
  rw [hp, noOutput h]
  rfl

/-- A context in READY without outputs that is granted starts in RUN at its entry. -/
theorem issueTo_ready {s : State} {e : ElemRef} {c : Fin 8} {x : Ctx} (howes : s.owesArrival e = false) (hx : s.ctx? (e.ctx c.val) = some x)
    (hst : x.st = .ready) (hout : x.outMask = 0) : s.issueTo e c =
      .next ((s.setCtx (e.ctx c.val) { x with st := .run, pc := x.entry }).granted (e.ctx c.val) { x with st := .run, pc := x.entry }) := by
  have hres : s.reserve (e.ctx c.val) { x with st := .run, pc := x.entry } = (s, { x with st := .run, pc := x.entry }) :=
    reserve_of_noOutputs hout
  rw [State.issueTo, tileArrivals_none howes]
  dsimp only
  rw [hx]
  dsimp only
  rw [if_pos hst, hres]

section Lone
variable {s : State} {e : ElemRef} {t : Tile} {c : Fin 8} {x : Ctx} (harg : s.arg = .elem e) (ht : s.tile? e = some t)
  (hf : s.firing e.rid = true) (hh : t.holder = none) (hx : s.ctx? (e.ctx c.val) = some x) (hst : x.st = .idle)
  (hlone : ∀ d : Fin 8, d ≠ c → s.ctx? (e.ctx d.val) = none)

include hx hst hlone

/-- Of a lone IDLE context, what the firing condition makes. -/
theorem readyGo_lone : s.readyGo e = State.readyStep e s c := by
  rw [readyGo_eq]
  have other (u : State) (d : Fin 8) (hu : u.ctx? (e.ctx d.val) = none) : State.readyStep e u d = u :=
    readyStep_same fun y hy => absurd (hu.symm.trans hy) (by simp)
  refine foldl_only (List.mem_finRange c) (List.nodup_finRange 8) (fun d hd => other s d (hlone d hd)) fun d hd => other _ d ?_
  have hne : e.ctx d.val ≠ e.ctx c.val := fun he => hd (ctx_inj he)
  unfold State.readyStep
  simp only [hx, hst]
  split
  · rw [State.ctx?_setCtx, if_neg hne, hlone d hd]
  · exact hlone d hd

theorem readyGo_full (ha : s.acts e = true) (had : s.adopting e.rid = false) (hout : x.outMask = 0) (hfull : s.inputsIn (e.ctx c.val) x = true) :
    s.readyGo e = s.setCtx (e.ctx c.val) { x with st := .ready } := by
  have hfires : s.firesOn (e.ctx c.val) = true := by
    rw [State.firesOn, show s.acts (e.ctx c.val).tile = true from ha, Bool.true_or]
  rw [readyGo_lone hx hst hlone, State.readyStep]
  simp only [hx, hst, hfires, canFire_of_noOutputs hout, hfull, show s.adopting (e.ctx c.val).rid = false from had, Bool.not_false, Bool.and_self,
    if_true]

theorem readyGo_short (hout : x.outMask = 0) (hfull : s.inputsIn (e.ctx c.val) x = false) : s.readyGo e = s := by
  rw [readyGo_lone hx hst hlone, State.readyStep]
  simp only [hx, hst, canFire_of_noOutputs hout, hfull, Bool.and_false, Bool.false_and, Bool.false_eq_true, if_false]

omit hx hst in
/-- A lone context in READY may be granted unless its first word waits for an earlier one, and no other may. -/
theorem canIssue_lone (d : Fin 8) : (s.setCtx (e.ctx c.val) { x with st := .ready }).canIssue (e.ctx d.val)
    ((s.setCtx (e.ctx c.val) { x with st := .ready }).ctxOf e d) = (decide (d = c) && !s.interlocked (e.ctx c.val) { x with pc := x.entry }) := by
  rw [State.ctxOf, State.ctx?_setCtx]
  by_cases hd : d = c
  · subst hd
    rw [if_pos rfl, decide_eq_true rfl, Bool.true_and]
    rfl
  · rw [if_neg fun he => hd (ctx_inj he), hlone d hd, decide_eq_false hd, Bool.false_and]
    rfl

/-- A lone context whose inputs are in is READY while its first word waits for an earlier one. -/
theorem issueGrant_ready (harg : s.arg = .elem e) (ht : s.tile? e = some t) (hf : s.firing e.rid = true) (hh : t.holder = none)
    (ha : s.acts e = true) (had : s.adopting e.rid = false) (hout : x.outMask = 0) (hfull : s.inputsIn (e.ctx c.val) x = true)
    (hw : s.interlocked (e.ctx c.val) { x with pc := x.entry } = true) :
    ∃ u y, exec .issueGrant s = .next u ∧ u.grant = s.grant ∧ u.ctx? (e.ctx c.val) = some y ∧ y = { x with st := .ready } ∧ SameBytes s u := by
  have hready := readyGo_full hx hst hlone ha had hout hfull
  have hcan := canIssue_lone (c := c) (x := x) hlone
  generalize hu : s.setCtx (e.ctx c.val) { x with st := .ready } = u at hready hcan
  have htu : u.tile? e = some t := hu ▸ ht
  have h : u.arbitrated e t = (none, t) := arbiter_nobody hh fun d => by rw [hcan, hw, Bool.not_true, Bool.and_false]
  have hex : exec .issueGrant s = .next (u.putTile e t) := by
    rw [exec_issueGrant_elem harg ht hf hready htu, h]
  subst hu
  exact ⟨_, _, hex, rfl, (State.ctx?_setCtx ..).trans (if_pos rfl), rfl, Laws.sameBytes_of rfl rfl rfl rfl rfl rfl⟩

/-- A lone context whose inputs are in is granted, in RUN at its entry. -/
theorem issueGrant_starts (harg : s.arg = .elem e) (ht : s.tile? e = some t) (hf : s.firing e.rid = true) (hh : t.holder = none)
    (ha : s.acts e = true) (had : s.adopting e.rid = false) (howes : s.owesArrival e = false) (hrows : s.agenda.any isTileRow = false)
    (hout : x.outMask = 0) (hfull : s.inputsIn (e.ctx c.val) x = true)
    (hw : s.interlocked (e.ctx c.val) { x with pc := x.entry } = false) :
    ∃ u y k, exec .issueGrant s = .next u ∧ u.grant = some (e.ctx c.val) ∧ u.ctx? (e.ctx c.val) = some y ∧
      y = { x with st := .run, pc := x.entry } ∧ u.tile? e = some k ∧ k.burst = 1 ∧ k.weight = t.weight ∧ u.chans = s.chans ∧
      (∀ r, r ≠ e.ctx c.val → u.ctx? r = s.ctx? r) ∧ SameBytes s u := by
  have hready := readyGo_full hx hst hlone ha had hout hfull
  have hcan := canIssue_lone (c := c) (x := x) hlone
  generalize hu : s.setCtx (e.ctx c.val) { x with st := .ready } = u at hready hcan
  have htu : u.tile? e = some t := hu ▸ ht
  have hc : t.ctxPtr + (c - t.ctxPtr) = c := add_sub_cancel t.ctxPtr c
  have h : u.arbitrated e t = (some c, t.firstGrant c) := by
    have := arbiter_first (t := t) (can := fun d => u.canIssue (e.ctx d.val) (u.ctxOf e d)) (i := c - t.ctxPtr) hh
      (by rw [hcan, hc, hw, decide_eq_true rfl]; rfl)
      fun j hj => by
        have hne : t.ctxPtr + j ≠ c := fun he => hj.ne (by rw [← he, add_sub_cancel_left])
        rw [hcan, decide_eq_false hne, Bool.false_and]
    rwa [hc] at this
  have hous : (u.putTile e (t.firstGrant c)).owesArrival e = false := by
    subst hu
    refine Bool.eq_false_iff.2 fun ho => Bool.eq_false_iff.1 howes ?_
    rw [State.owesArrival, Bool.or_eq_true] at ho ⊢
    refine ho.imp_right fun ho => ?_
    obtain ⟨p, hp, hpe⟩ := List.any_eq_true.1 ho
    rcases mem_tput hp with rfl | hp
    · exact List.any_eq_true.2 ⟨_, mem_of_tget hx, hpe⟩
    · exact List.any_eq_true.2 ⟨p, hp, hpe⟩
  have hxu : (u.putTile e (t.firstGrant c)).ctx? (e.ctx c.val) = some { x with st := .ready } :=
    hu ▸ (State.ctx?_setCtx ..).trans (if_pos rfl)
  have hlate : ¬ IssuesLate ((u.putTile e (t.firstGrant c)).setCtx (e.ctx c.val) { x with st := .run, pc := x.entry }) (e.ctx c.val)
      { x with st := .run, pc := x.entry } := fun hl => by
    subst hu
    exact absurd (hl.1.symm.trans hrows) (by decide)
  have hex : exec .issueGrant s = .next { (u.putTile e (t.firstGrant c)).setCtx (e.ctx c.val) { x with st := .run, pc := x.entry } with
      grant := some (e.ctx c.val) } := by
    rw [exec_issueGrant_elem harg ht hf hready htu, h]
    dsimp only
    rw [issueTo_ready hous hxu rfl hout, granted_now hlate]
  subst hu
  refine ⟨_, _, t.firstGrant c, hex, rfl, (State.ctx?_setCtx ..).trans (if_pos rfl), rfl, tile?_putTile .., Tile.afterGrant_burst ..,
    Tile.afterGrant_weight .., rfl, fun r hr => ?_, Laws.sameBytes_of rfl rfl rfl rfl rfl rfl⟩
  exact ((State.ctx?_setCtx ..).trans (if_neg hr)).trans ((State.ctx?_setCtx ..).trans (if_neg hr))

/-- A lone context whose channels lack their counts stays IDLE. -/
theorem issueGrant_idle (harg : s.arg = .elem e) (ht : s.tile? e = some t) (hf : s.firing e.rid = true) (hh : t.holder = none)
    (hout : x.outMask = 0) (hfull : s.inputsIn (e.ctx c.val) x = false) :
    ∃ u, exec .issueGrant s = .next u ∧ u = { s with tiles := u.tiles } ∧ u.tile? e = some t := by
  have h : s.arbitrated e t = (none, t) := arbiter_nobody hh fun d => by
    rw [State.ctxOf]
    by_cases hd : d = c
    · subst hd
      rw [hx, Option.getD_some, State.canIssue, hst]
    · rw [hlone d hd]
      rfl
  have hex : exec .issueGrant s = .next (s.putTile e t) := by
    rw [exec_issueGrant_elem harg ht hf (readyGo_short hx hst hlone hout hfull) ht, h]
  exact ⟨_, hex, rfl, tile?_putTile ..⟩

end Lone

/-! The grant that stood behind the tiles -/

theorem freezeDue_same {s : State} (h : ∀ p ∈ s.ctxs, p.2.freeze = []) (r : CtxRef) : s.freezeDue r = s := by
  unfold State.freezeDue
  split
  · rfl
  · next x hx =>
    rw [h _ (mem_of_tget hx)]
    exact if_pos rfl

theorem ctlBehind_none {s : State} (h : ∀ p ∈ s.ctxs, p.2.freeze = []) (r : CtxRef) : s.ctlBehind r = none := by
  unfold State.ctlBehind
  split
  · rfl
  · dsimp only
    split
    · rfl
    · split
      · next y hy =>
        have hy0 : y.freeze = [] := h _ (mem_of_tget hy)
        rw [hy0]
        rfl
      · rfl

theorem exec_issueGrant_ctx {s : State} {r : CtxRef} {x : Ctx} (harg : s.arg = .ctx r) (hx : s.ctx? r = some x)
    (h : ∀ p ∈ s.ctxs, p.2.freeze = []) : exec .issueGrant s = if x.st ≠ .run then .next s else .next { s with grant := some r } := by
  have hfold (l : List CtxRef) : l.foldl State.freezeDue s = s :=
    List.foldlRecOn (motive := fun t => t = s) l _ rfl fun _ ht q _ => ht.symm ▸ freezeDue_same h q
  rw [exec_issueGrant]
  unfold execIssueGrant
  split
  · next e he => exact absurd (he.symm.trans harg) (by simp)
  · next q hq =>
    obtain rfl : q = r := StepArg.ctx.inj (hq.symm.trans harg)
    dsimp only
    rw [hfold, hx]
    dsimp only
    rw [ctlBehind_none h]
  · next _ hq => exact absurd harg (hq r)

/-! The periodic step -/

theorem exec_arbWeightStep_eq {s : State} {e : ElemRef} {t : Tile} (harg : s.arg = .elem e) (ht : s.tile? e = some t) (hp : t.pend = []) :
    exec .arbWeightStep s = if !s.stepDue t || !s.onFabric e.rid then .next s else .next (s.putTile e (s.stepWeights e t)) := by
  have hpend : (s.putTile e (s.stepWeights e t)).pendGo e TileWrite.isWeight = s.putTile e (s.stepWeights e t) := by
    have h1 : (s.stepWeights e t).pend = [] := hp
    rw [State.pendGo, tile?_putTile]
    dsimp only
    rw [h1]
    rfl
  rw [exec_arbWeightStep]
  unfold execArbWeightStep
  split
  · next d hd =>
    obtain rfl : d = e := StepArg.elem.inj (hd.symm.trans harg)
    rw [ht]
    dsimp only
    rw [show State.pendGo { s with tiles := tput s.tiles d (s.stepWeights d t) } d TileWrite.isWeight = _ from hpend]
  · next hd => exact absurd harg (hd e)

theorem stepDue_iff {s : State} {t : Tile} : s.stepDue t = true ↔ t.loaded < s.cycle ∧ (s.cycle - t.loaded) % 1024 = 0 := by
  simp [State.stepDue]

theorem stepWeight_none {s : State} {e : ElemRef} {t : Tile} {c : Fin 8} (h : s.ctx? (e.ctx c.val) = none) :
    s.stepWeight e t c = t.weight.get c := by
  rw [State.stepWeight, h]

theorem fillOf_noInputs {s : State} {r : CtxRef} {x : Ctx} (h : x.inMask = 0) : s.fillOf r x = (0, 0) := by
  refine List.foldlRecOn (motive := fun p => p = (0, 0)) _ _ rfl fun p hp n _ => ?_
  rw [hp, noOutput h]
  rfl

/-- Of a context with one input channel, its beats and its slots. -/
theorem fillOf_oneInput {s : State} {r : CtxRef} {x : Ctx} {m : Fin 32} {ch : Chan} (h : x.inMask = BitVec.twoPow 32 m.val)
    (hc : s.chan? (r.tile.chan m.val) = some ch) : s.fillOf r x = ((ch.items.filter (·.slot)).length, ch.slots) := by
  have hbit (n : Fin 32) : x.inMask.getLsbD n.val = decide (n = m) := by
    rw [h, BitVec.getLsbD_twoPow]
    simp [Fin.ext_iff, eq_comm]
  refine (foldl_only (List.mem_finRange m) (List.nodup_finRange 32) (fun d hd => ?_) fun d hd => ?_).trans ?_
  · rw [hbit, decide_eq_false hd]
    rfl
  · rw [hbit d, decide_eq_false hd]
    rfl
  · rw [hbit, decide_eq_true rfl, hc]
    simp

theorem stepWeight_noInputs {s : State} {e : ElemRef} {t : Tile} {c : Fin 8} {x : Ctx} (hx : s.ctx? (e.ctx c.val) = some x) (h : x.inMask = 0) :
    s.stepWeight e t c = t.weight.get c := by
  rw [State.stepWeight, hx]
  simp only [fillOf_noInputs h, if_true]

/-- The weight after the periodic step by the fill of the one channel. -/
theorem stepWeight_oneInput {s : State} {e : ElemRef} {t : Tile} {c : Fin 8} {x : Ctx} {m : Fin 32} {ch : Chan}
    (hx : s.ctx? (e.ctx c.val) = some x) (h : x.inMask = BitVec.twoPow 32 m.val) (hc : s.chan? (e.chan m.val) = some ch) (hs : 0 < ch.slots)
    {f w : Nat} (hf : f = (ch.items.filter (·.slot)).length) (hw : w = (t.weight.get c).toNat) :
    (3 * ch.slots < 4 * f → (s.stepWeight e t c).toNat = min 15 (w + 1)) ∧
      (4 * f < ch.slots → (s.stepWeight e t c).toNat = if (t.floor.get c).toNat < w then w - 1 else w) ∧
      (ch.slots ≤ 4 * f → 4 * f ≤ 3 * ch.slots → s.stepWeight e t c = t.weight.get c) := by
  have heq : s.stepWeight e t c = if 3 * ch.slots < 4 * f then (if w < 15 then t.weight.get c + 1 else t.weight.get c)
      else if 4 * f < ch.slots then (if (t.floor.get c).toNat < w then t.weight.get c - 1 else t.weight.get c) else t.weight.get c := by
    rw [State.stepWeight, hx]
    simp only [fillOf_oneInput (r := e.ctx c.val) h hc, ← hf, ← hw, Nat.ne_of_gt hs, if_false]
  have hlt := (t.weight.get c).isLt
  rw [heq]
  refine ⟨fun h1 => ?_, fun h1 => ?_, fun h1 h2 => ?_⟩
  · rw [if_pos h1]
    split
    · rw [BitVec.toNat_add, ← hw, show (1 : BitVec 4).toNat = 1 from rfl]
      omega
    · omega
  · rw [if_neg (by omega), if_pos h1]
    split
    · rw [BitVec.toNat_sub, ← hw, show (1 : BitVec 4).toNat = 1 from rfl]
      omega
    · exact hw.symm
  · rw [if_neg (by omega), if_neg (by omega)]

theorem get_stepWeights (s : State) (e : ElemRef) (t : Tile) (c : Fin 8) : (s.stepWeights e t).weight.get c = s.stepWeight e t c :=
  Vector.getElem_ofFn ..

section Weights
variable {s : State} {e : ElemRef} {t : Tile} (harg : s.arg = .elem e) (ht : s.tile? e = some t) (hp : t.pend = [])
include harg ht hp

theorem arbWeightStep_offFabric (h : s.onFabric e.rid = false) : exec .arbWeightStep s = .next s := by
  rw [exec_arbWeightStep_eq harg ht hp, h, Bool.not_false, Bool.or_true, if_pos rfl]

theorem arbWeightStep_notDue (h : s.cycle ≤ t.loaded ∨ (s.cycle - t.loaded) % 1024 ≠ 0) : exec .arbWeightStep s = .next s := by
  have hd : s.stepDue t = false := Bool.eq_false_iff.2 fun hd => by
    obtain ⟨h1, h2⟩ := stepDue_iff.1 hd
    rcases h with h | h
    · omega
    · exact h h2
  rw [exec_arbWeightStep_eq harg ht hp, hd, Bool.not_false, Bool.true_or, if_pos rfl]

theorem arbWeightStep_due (hfab : s.onFabric e.rid = true) (hl : t.loaded < s.cycle) (hc : (s.cycle - t.loaded) % 1024 = 0) :
    exec .arbWeightStep s = .next (s.putTile e (s.stepWeights e t)) := by
  rw [exec_arbWeightStep_eq harg ht hp, hfab, stepDue_iff.2 ⟨hl, hc⟩]
  rfl

end Weights

/-! The end of a task -/

theorem exec_taskInputsEnded_eq {s : State} {r : CtxRef} {x : Ctx} (harg : s.arg = .ctx r) (hx : s.ctx? r = some x) :
    exec .taskInputsEnded s = if x.st == .idle && x.tripCnt == 0 && x.inMask ≠ 0 && s.acts r.tile && !s.adopting r.rid &&
        (List.range 32).all (fun n => !x.inMask.getLsbD n || s.chanEnded ((s.elemsOf r.rid).length + 1) (r.tile.chan n)) then
      .next (((s.setCtx r { x with st := .done }).active r.rid).sendDone r) else .next s := by
  rw [exec_taskInputsEnded]
  unfold execTaskInputsEnded
  split
  · next q hq =>
    obtain rfl : q = r := StepArg.ctx.inj (hq.symm.trans harg)
    rw [hx]
  · next hq => exact absurd harg (hq r)

theorem LinksOnly.sendCtl (s : State) (e : ElemRef) (oc : Nat) (i : Item) : LinksOnly s (s.sendCtl e oc i) := by
  unfold State.sendCtl
  split
  · exact .refl s
  · exact .push ..

section TaskEnd
variable {s : State} {r : CtxRef} {x : Ctx} (harg : s.arg = .ctx r) (hx : s.ctx? r = some x)
include harg hx

theorem taskInputsEnded_none (h : x.st ≠ .idle ∨ x.tripCnt ≠ 0 ∨ x.inMask = 0) : exec .taskInputsEnded s = .next s := by
  rw [exec_taskInputsEnded_eq harg hx, if_neg]
  simp only [Bool.and_eq_true, beq_iff_eq, decide_eq_true_eq]
  tauto

/-- A task whose inputs have ended is DONE and sends its done token. -/
theorem taskInputsEnded_done (hst : x.st = .idle) (htrip : x.tripCnt = 0) (hin : x.inMask ≠ 0) (ha : s.acts r.tile = true)
    (had : s.adopting r.rid = false)
    (hend : ∀ n, n < 32 → x.inMask.getLsbD n = true → s.chanEnded ((s.elemsOf r.rid).length + 1) (r.tile.chan n) = true) :
    ∃ t, exec .taskInputsEnded s = .next t ∧ t.ctx? r = some { x with st := .done } ∧ (∀ q, q ≠ r → t.ctx? q = s.ctx? q) ∧
      t.wins = s.wins ∧ t.tiles = s.tiles ∧ SameBytes s t ∧
      ∀ q ch, s.route? r.tile (24 + r.ctx) = some q → s.chan? q = some ch →
        ∃ d m, s.cycle < d ∧ IsToken .done m ∧ t.chan? q = some { ch with flight := ch.flight ++ [(d, .item m)] } := by
  have hall : (List.range 32).all (fun n => !x.inMask.getLsbD n || s.chanEnded ((s.elemsOf r.rid).length + 1) (r.tile.chan n)) = true := by
    refine List.all_eq_true.2 fun n hn => ?_
    cases hb : x.inMask.getLsbD n with
    | false => rfl
    | true => rw [hend n (List.mem_range.1 hn) hb]; rfl
  have hex : exec .taskInputsEnded s = .next (((s.setCtx r { x with st := .done }).active r.rid).sendDone r) := by
    rw [exec_taskInputsEnded_eq harg hx, hall]
    simp only [hst, htrip, hin, ha, had, beq_self_eq_true, ne_eq, not_false_eq_true, decide_true, Bool.not_false, Bool.and_self, if_true]
  have hlo : LinksOnly (s.setCtx r { x with st := .done }) (((s.setCtx r { x with st := .done }).active r.rid).sendDone r) :=
    (LinksOnly.active ..).trans (.sendCtl ..)
  refine ⟨_, hex, (hlo.ctx? r).trans ((State.ctx?_setCtx ..).trans (if_pos rfl)), fun q hq => (hlo.ctx? q).trans ((State.ctx?_setCtx ..).trans (if_neg hq)),
    ?_, ?_, (Laws.sameBytes_of rfl rfl rfl rfl rfl rfl : SameBytes s (s.setCtx r { x with st := .done })).trans hlo.sameBytes, fun q ch hq hch => ?_⟩
  · obtain ⟨_, _, _, _, h⟩ := hlo
    rw [h]
    rfl
  · obtain ⟨_, _, _, _, h⟩ := hlo
    rw [h]
    rfl
  · have hla := LinksOnly.active (s.setCtx r { x with st := .done }) r.rid
    have hch' : ((s.setCtx r { x with st := .done }).active r.rid).chan? q = some ch := (State.chan?_congr (State.active_chans ..) q).trans hch
    have hq' : ((s.setCtx r { x with st := .done }).active r.rid).route? r.tile (24 + r.ctx) = some q :=
      (route?_congr (s := s) (by rw [hla.elem?]; rfl) (fun c => by rw [State.chan?_congr (State.active_chans ..) c]; rfl) _).trans hq
    obtain ⟨d, hd, hpush⟩ := push_chan? ((s.setCtx r { x with st := .done }).active r.rid) r.tile q (.item (ctlItem .done (controlBeat .done 0 0 0 0)))
    refine ⟨d, ctlItem .done (controlBeat .done 0 0 0 0), by rw [hla.cycle] at hd; exact hd, ⟨rfl, rfl⟩, ?_⟩
    rw [State.sendDone, State.sendCtl, hq']
    dsimp only
    rw [hpush, if_pos rfl, hch', Option.map_some]

end TaskEnd

/-- Settles O52: the arbiter's choice by who holds the grant, the firing of a lone context by whether its inputs are in, the weights one context at a time, and the end of a task. -/
theorem tilesGrantAndWeigh : Obligations.TilesGrantAndWeigh := by
  refine ⟨fun s e t harg ht hf howes hst => ⟨fun h hh hr hb => ?_, fun i hh hr hj => ?_, fun h i hh hn hr hj => ?_, issueGrant_nobody harg ht hf hst⟩,
    fun s e t c x harg ht hf ha howes had hh hrows hx hst hout hlone => ⟨fun hfull hw => ?_, fun hfull hw => ?_, fun hfull => ?_⟩,
    fun s r x harg hx hfz => ⟨fun hst => ?_, fun hst => ?_⟩,
    fun s e t harg ht hp => ⟨arbWeightStep_offFabric harg ht hp, arbWeightStep_notDue harg ht hp, fun hfab hl hc =>
      ⟨_, _, arbWeightStep_due harg ht hp hfab hl hc, rfl, tile?_putTile .., rfl, fun h hh => ?_, fun hh => ?_,
        fun q hq => tile?_putTile_other q hq, fun c hx => ?_, fun c x hx hin => ?_, fun c x m ch hx hin hch hs => ?_⟩⟩,
    fun s r x harg hx => ⟨taskInputsEnded_none harg hx, taskInputsEnded_done harg hx⟩⟩
  · exact issueGrant_gives harg ht hf howes hst (arbitrated_holder hst hh hr hb) (Tile.afterGrant_imem ..)
  · exact issueGrant_gives harg ht hf howes hst (arbitrated_first hst hh hr hj) (Tile.afterGrant_imem ..)
  · exact issueGrant_gives harg ht hf howes hst (arbitrated_passes hst hh hn hr hj) (Tile.afterGrant_imem ..)
  · exact issueGrant_ready hx hst hlone harg ht hf hh ha had hout (inputsIn_iff.2 hfull) hw
  · exact issueGrant_starts hx hst hlone harg ht hf hh ha had howes hrows hout (inputsIn_iff.2 hfull) (Bool.eq_false_iff.2 hw)
  · exact issueGrant_idle hx hst hlone harg ht hf hh hout (Bool.eq_false_iff.2 fun h => hfull (inputsIn_iff.1 h))
  · rw [exec_issueGrant_ctx harg hx hfz, if_neg (fun h => h hst)]
  · rw [exec_issueGrant_ctx harg hx hfz, if_pos hst]
  · rw [get_stepWeights, State.stepWeights, hh]
  · rw [State.stepWeights, hh]
  · rw [get_stepWeights, stepWeight_none hx]
  · rw [get_stepWeights, stepWeight_noInputs hx hin]
  · rw [get_stepWeights]
    exact stepWeight_oneInput hx hin hch hs rfl rfl

end Sys2Proof.Machine
end

section
/-! SUPPORT. The rounding step: the magnitude that an `Ex` stands for is rounded to a multiple of 2^q as the mode and the draw say (R40, R41). -/

namespace Sys2Proof

/-- The magnitude that an `Ex` stands for: `mant × 2^exp`, and a part of 2^exp above it where it is sticky. -/
def Ex.Stands (x : Ex) (X : ℝ) : Prop :=
  ∃ δ : ℝ, X = (x.mant + δ) * 2 ^ x.exp ∧ 0 ≤ δ ∧ δ < 1 ∧ (x.sticky = true ↔ δ ≠ 0)

theorem Ex.stands_exact (neg : Bool) (m : ℕ) (e : ℤ) : ({ neg := neg, mant := m, exp := e } : Ex).Stands (m * 2 ^ e) :=
  ⟨0, by simp⟩

/-! The fraction above the lower neighbour: `rem` of 2^sh, and δ of one more where the magnitude is sticky -/

section Fraction
variable {rem sh : ℕ} {δ : ℝ} {st : Bool} (h0 : 0 ≤ δ) (h1 : δ < 1) (hst : st = true ↔ δ ≠ 0) (hsh : st = true → 24 ≤ sh)
include h0 hst

theorem inexact_iff : (rem != 0 || st) = true ↔ (rem + δ) / 2 ^ sh ≠ 0 := by
  have hT : (2 : ℝ) ^ sh ≠ 0 := by positivity
  have hr : (0 : ℝ) ≤ rem := Nat.cast_nonneg _
  rw [Bool.or_eq_true, bne_iff_ne, hst, Ne, Ne, Ne, div_eq_zero_iff, or_iff_left hT, add_eq_zero_iff_of_nonneg hr h0, Nat.cast_eq_zero,
    not_and_or]

include h1 hsh

/-- Twice the remainder and the part δ against the whole, where a sticky magnitude has an even whole. -/
theorem half_lt_iff : (decide (2 * rem > 2 ^ sh) || (2 * rem == 2 ^ sh && st)) = true ↔ (1 : ℝ) / 2 < (rem + δ) / 2 ^ sh := by
  rw [div_lt_div_iff₀ (by positivity) (by positivity)]
  cases st with
  | false =>
    obtain rfl : δ = 0 := by simpa using hst
    simp only [Bool.and_false, Bool.or_false, decide_eq_true_eq, add_zero, one_mul, gt_iff_lt]
    rw [mul_comm (rem : ℝ)]
    exact_mod_cast Iff.rfl
  | true =>
    obtain ⟨k, rfl⟩ : ∃ k, sh = k + 1 := ⟨sh - 1, by have := hsh rfl; omega⟩
    have hpos : 0 < δ := lt_of_le_of_ne h0 (Ne.symm (hst.1 rfl))
    have hlt : (1 : ℝ) * 2 ^ (k + 1) < (rem + δ) * 2 ↔ (2 : ℝ) ^ k < rem + δ := by
      rw [pow_succ, one_mul]
      constructor <;> intro h <;> linarith
    rw [hlt]
    have hle : (2 : ℝ) ^ k < rem + δ ↔ 2 ^ k ≤ rem := by
      constructor
      · intro h
        by_contra hn
        have : (rem : ℝ) + 1 ≤ 2 ^ k := by exact_mod_cast Nat.not_le.1 hn
        linarith
      · intro h
        have : (2 : ℝ) ^ k ≤ rem := by exact_mod_cast h
        linarith
    rw [hle, Nat.pow_succ]
    simp only [Bool.and_true, Bool.or_eq_true, decide_eq_true_eq, beq_iff_eq]
    omega

theorem half_eq_iff : (2 * rem == 2 ^ sh && !st) = true ↔ (rem + δ) / 2 ^ sh = (1 : ℝ) / 2 := by
  rw [div_eq_div_iff (by positivity) (by positivity)]
  cases st with
  | false =>
    obtain rfl : δ = 0 := by simpa using hst
    simp only [Bool.not_false, Bool.and_true, beq_iff_eq, add_zero, one_mul]
    rw [mul_comm (rem : ℝ)]
    exact_mod_cast Iff.rfl
  | true =>
    obtain ⟨k, rfl⟩ : ∃ k, sh = k + 1 := ⟨sh - 1, by have := hsh rfl; omega⟩
    have hpos : 0 < δ := lt_of_le_of_ne h0 (Ne.symm (hst.1 rfl))
    simp only [Bool.not_true, Bool.and_false, Bool.false_eq_true, false_iff]
    intro h
    have h2 : (rem : ℝ) + δ = 2 ^ k := by rw [pow_succ] at h; linarith
    have hlt : rem < 2 ^ k := by
      have : (rem : ℝ) < 2 ^ k := by linarith
      exact_mod_cast this
    have : (rem : ℝ) + 1 ≤ 2 ^ k := by exact_mod_cast hlt
    linarith

/-- The fraction in units of 2^−24 lies in the unit that the quotient of the remainder names, at its lower end exactly where the division leaves nothing. -/
theorem fraction_unit : ((rem * 2 ^ 24 / 2 ^ sh : ℕ) : ℝ) ≤ (rem + δ) / 2 ^ sh * 2 ^ 24 ∧
    (rem + δ) / 2 ^ sh * 2 ^ 24 < (rem * 2 ^ 24 / 2 ^ sh : ℕ) + 1 ∧
    ((rem * 2 ^ 24 % 2 ^ sh == 0 && !st) = true ↔ (rem + δ) / 2 ^ sh * 2 ^ 24 = (rem * 2 ^ 24 / 2 ^ sh : ℕ)) := by
  have hT : (0 : ℝ) < 2 ^ sh := by positivity
  rw [div_mul_eq_mul_div, le_div_iff₀ hT, div_lt_iff₀ hT, div_eq_iff hT.ne']
  cases st with
  | false =>
    obtain rfl : δ = 0 := by simpa using hst
    simp only [add_zero, Bool.not_false, Bool.and_true, beq_iff_eq]
    refine ⟨by exact_mod_cast Nat.div_mul_le_self _ _, by
      exact_mod_cast (Nat.lt_mul_div_succ (rem * 2 ^ 24) (Nat.two_pow_pos sh)).trans_eq (Nat.mul_comm ..), ?_⟩
    rw [← Nat.dvd_iff_mod_eq_zero]
    constructor
    · intro h
      exact_mod_cast (Nat.div_mul_cancel h).symm
    · intro h
      exact ⟨_, (by exact_mod_cast h : rem * 2 ^ 24 = rem * 2 ^ 24 / 2 ^ sh * 2 ^ sh).trans (Nat.mul_comm ..)⟩
  | true =>
    obtain ⟨k, rfl⟩ : ∃ k, sh = k + 24 := ⟨sh - 24, by have := hsh rfl; omega⟩
    have hpos : 0 < δ := lt_of_le_of_ne h0 (Ne.symm (hst.1 rfl))
    have hq : rem * 2 ^ 24 / 2 ^ (k + 24) = rem / 2 ^ k := by
      rw [Nat.pow_add, Nat.mul_div_mul_right _ _ (by positivity)]
    have hle : ((rem / 2 ^ k : ℕ) : ℝ) * 2 ^ k ≤ rem := by exact_mod_cast Nat.div_mul_le_self rem (2 ^ k)
    have hlt : (rem : ℝ) + 1 ≤ ((rem / 2 ^ k : ℕ) + 1) * 2 ^ k := by
      exact_mod_cast (Nat.succ_le_of_lt (Nat.lt_mul_div_succ rem (Nat.two_pow_pos k))).trans_eq (Nat.mul_comm ..)
    rw [hq, pow_add]
    simp only [Bool.not_true, Bool.and_false, Bool.false_eq_true, false_iff]
    exact ⟨by nlinarith, by nlinarith, fun h => by nlinarith⟩

/-- The fraction in whole units of 2^−24. -/
theorem floor_fraction : ⌊(rem + δ) / 2 ^ sh * 2 ^ 24⌋₊ = rem * 2 ^ 24 / 2 ^ sh := by
  obtain ⟨hle, hlt, -⟩ := fraction_unit h0 h1 hst hsh (rem := rem)
  exact (Nat.floor_eq_iff (by positivity)).2 ⟨hle, hlt⟩

/-- What is left of the whole above the fraction, in whole units of 2^−24. -/
theorem floor_complement (hrem : rem < 2 ^ sh) : ⌊(1 - (rem + δ) / 2 ^ sh) * 2 ^ 24⌋₊ =
    2 ^ 24 - rem * 2 ^ 24 / 2 ^ sh - if (rem * 2 ^ 24 % 2 ^ sh == 0 && !st) = true then 0 else 1 := by
  obtain ⟨hle, hlt, hex⟩ := fraction_unit h0 h1 hst hsh (rem := rem)
  have hg : rem * 2 ^ 24 / 2 ^ sh + 1 ≤ 2 ^ 24 := by
    rw [Nat.add_one_le_iff, Nat.div_lt_iff_lt_mul (Nat.two_pow_pos _), Nat.mul_comm]
    exact Nat.mul_lt_mul_of_pos_left hrem (by decide)
  rw [sub_mul, one_mul]
  generalize rem * 2 ^ 24 / 2 ^ sh = g at hle hlt hex hg ⊢
  generalize (rem + δ) / 2 ^ sh * 2 ^ 24 = F at hle hlt hex ⊢
  generalize (rem * 2 ^ 24 % 2 ^ sh == 0 && !st) = b at hex ⊢
  obtain ⟨k, hk⟩ : ∃ k, 2 ^ 24 = k + g + 1 := ⟨2 ^ 24 - g - 1, by omega⟩
  have hkr : (2 : ℝ) ^ 24 = k + g + 1 := by exact_mod_cast hk
  rw [hkr, hk, show k + g + 1 - g = k + 1 by omega]
  split
  next he =>
    rw [hex.1 he, show (k : ℝ) + g + 1 - g = (k + 1 : ℕ) by push_cast; ring, Nat.floor_natCast, Nat.sub_zero]
  next he =>
    have hne := lt_of_le_of_ne hle (Ne.symm (mt hex.2 he))
    rw [Nat.add_sub_cancel]
    exact (Nat.floor_eq_iff (by linarith [k.cast_nonneg (α := ℝ)])).2 ⟨by linarith, by linarith⟩

end Fraction

/-! The step -/

/-- Whether the step takes the greater neighbour, above lo by rem of 2^sh and a part that is sticky. -/
def RM.up (rm : RM) (neg : Bool) (u lo rem sh : ℕ) (st : Bool) : Bool :=
  match rm with
  | .rne => (2 * rem > 2 ^ sh || (2 * rem == 2 ^ sh && st)) || ((2 * rem == 2 ^ sh && !st) && lo % 2 == 1)
  | .rtz => false
  | .rdn => neg
  | .rup => !neg
  | .rna => (2 * rem > 2 ^ sh || (2 * rem == 2 ^ sh && st)) || (2 * rem == 2 ^ sh && !st)
  | .rod => lo % 2 == 0
  | .sa | .sb =>
    if neg then !(2 ^ 24 - rem * 2 ^ 24 / 2 ^ sh - (if (rem * 2 ^ 24 % 2 ^ sh == 0 && !st) then 0 else 1) + u ≥ 2 ^ 24)
    else rem * 2 ^ 24 / 2 ^ sh + u ≥ 2 ^ 24

/-- The magnitude of an `Ex` as a number of parts of 2^q, 2^sh to the unit. -/
def Ex.parts (x : Ex) (q : ℤ) : ℕ := if q ≤ x.exp then x.mant * 2 ^ (x.exp - q).toNat else x.mant

theorem Ex.roundAt_eq (x : Ex) (q : ℤ) (rm : RM) (u : ℕ) {m sh : ℕ} (hm : x.parts q = m) (hsh : (q - x.exp).toNat = sh) :
    x.roundAt q rm u = if (m % 2 ^ sh != 0 || x.sticky) = true then
      (if rm.up x.neg u (m / 2 ^ sh) (m % 2 ^ sh) sh x.sticky then m / 2 ^ sh + 1 else m / 2 ^ sh, true) else (m / 2 ^ sh, false) := by
  subst hm hsh
  cases rm <;> rfl

/-- A magnitude of m parts, 2^sh to the unit, and a part δ that is sticky, has m / 2^sh below it. -/
theorem floor_parts (m sh : ℕ) {δ : ℝ} (h0 : 0 ≤ δ) (h1 : δ < 1) : ⌊(m + δ) / 2 ^ sh⌋₊ = m / 2 ^ sh ∧
    (m + δ) / 2 ^ sh - (m / 2 ^ sh : ℕ) = ((m % 2 ^ sh : ℕ) + δ) / 2 ^ sh := by
  have hT : (0 : ℝ) < 2 ^ sh := by positivity
  have hm : (m : ℝ) = 2 ^ sh * (m / 2 ^ sh : ℕ) + (m % 2 ^ sh : ℕ) := by exact_mod_cast (Nat.div_add_mod m (2 ^ sh)).symm
  have hr : ((m % 2 ^ sh : ℕ) : ℝ) + 1 ≤ 2 ^ sh := by exact_mod_cast Nat.mod_lt m (Nat.two_pow_pos sh)
  have hr0 : (0 : ℝ) ≤ (m % 2 ^ sh : ℕ) := Nat.cast_nonneg _
  have hsub : (m + δ) / 2 ^ sh - (m / 2 ^ sh : ℕ) = ((m % 2 ^ sh : ℕ) + δ) / 2 ^ sh := by
    rw [sub_eq_iff_eq_add, div_add' _ _ _ hT.ne']
    congr 1
    linarith
  refine ⟨(Nat.floor_eq_iff (by positivity)).2 ⟨?_, ?_⟩, hsub⟩
  · rw [← sub_nonneg, hsub]
    positivity
  · rw [← sub_lt_iff_lt_add', hsub, div_lt_one hT]
    linarith

/-- The mode takes a magnitude to one number of units. -/
theorem picks_unique {rm : RM} {neg : Bool} {u : ℕ} {y : ℝ} {n k : ℕ} (hn : Picks rm neg u y n) (hk : Picks rm neg u y k) : n = k := by
  obtain ⟨hn0, hn1⟩ := hn
  obtain ⟨hk0, hk1⟩ := hk
  by_cases hf : y - ⌊y⌋₊ = 0
  · rw [hn0 hf, hk0 hf]
  · obtain ⟨hn, hni⟩ := hn1 hf
    obtain ⟨hk, hki⟩ := hk1 hf
    have := hni.trans hki.symm
    omega

/-- What is picked is the magnitude where that is whole, and another number otherwise. -/
theorem picks_eq_iff {rm : RM} {neg : Bool} {u : ℕ} {y : ℝ} {n : ℕ} (hn : Picks rm neg u y n) : (n : ℝ) = y ↔ y - ⌊y⌋₊ = 0 := by
  constructor
  · rintro rfl
    rw [Nat.floor_natCast, sub_self]
  · intro h
    rw [hn.1 h]
    linarith

/-- The step on a magnitude in parts takes it to the number of units that the mode picks. -/
theorem picks_parts (rm : RM) (neg : Bool) (u m sh : ℕ) {δ : ℝ} {st : Bool} (h0 : 0 ≤ δ) (h1 : δ < 1) (hst : st = true ↔ δ ≠ 0)
    (hsh : st = true → 24 ≤ sh) : Picks rm neg u ((m + δ) / 2 ^ sh) (if (m % 2 ^ sh != 0 || st) = true then
      (if rm.up neg u (m / 2 ^ sh) (m % 2 ^ sh) sh st then m / 2 ^ sh + 1 else m / 2 ^ sh) else m / 2 ^ sh) := by
  obtain ⟨hfl, hfr⟩ := floor_parts m sh h0 h1
  have hin := inexact_iff h0 hst (rem := m % 2 ^ sh) (sh := sh)
  have hhalf := half_lt_iff h0 h1 hst hsh (rem := m % 2 ^ sh)
  have htie := half_eq_iff h0 h1 hst hsh (rem := m % 2 ^ sh)
  have hfrac := floor_fraction h0 h1 hst hsh (rem := m % 2 ^ sh)
  have hcomp := floor_complement h0 h1 hst hsh (Nat.mod_lt m (Nat.two_pow_pos sh))
  unfold Picks
  dsimp only
  rw [hfl, hfr]
  refine ⟨fun hf => if_neg (mt hin.1 (not_not.2 hf)), fun hf => ?_⟩
  rw [if_pos (hin.2 hf)]
  refine ⟨by split <;> simp, ?_⟩
  have hup (b : Bool) (lo : ℕ) : (if b = true then lo + 1 else lo) = lo + 1 ↔ b = true := by cases b <;> simp
  rw [hup]
  cases rm with
  | rne => rw [RM.up, Bool.or_eq_true, Bool.and_eq_true, hhalf, htie, beq_iff_eq]
  | rtz => exact iff_of_false Bool.false_ne_true id
  | rdn => exact Iff.rfl
  | rup => rw [RM.up, Bool.not_eq_true']
  | rna => rw [RM.up, Bool.or_eq_true, hhalf, htie, le_iff_lt_or_eq, eq_comm (a := (1 : ℝ) / 2)]
  | rod => rw [RM.up, beq_iff_eq]
  | sa => cases neg <;> simp [RM.up, hfrac, hcomp]
  | sb => cases neg <;> simp [RM.up, hfrac, hcomp]

/-- A magnitude in units of 2^q, by its parts. -/
theorem Ex.Stands.units {x : Ex} {X : ℝ} (hX : x.Stands X) {q : ℤ} (hq : x.sticky = true → x.exp + 24 ≤ q) :
    ∃ δ : ℝ, X / 2 ^ q = (x.parts q + δ) / 2 ^ (q - x.exp).toNat ∧ 0 ≤ δ ∧ δ < 1 ∧ (x.sticky = true ↔ δ ≠ 0) := by
  obtain ⟨δ, rfl, h0, h1, hst⟩ := hX
  refine ⟨δ, ?_, h0, h1, hst⟩
  rcases le_or_gt q x.exp with h | h
  · have hδ : δ = 0 := by
      by_contra hn
      have := hq (hst.2 hn)
      omega
    obtain ⟨k, hk⟩ := Int.eq_ofNat_of_zero_le (sub_nonneg.2 h)
    obtain rfl : q = x.exp - k := by omega
    have hk' : (x.exp - (x.exp - (k : ℤ))).toNat = k := by omega
    have h0' : (x.exp - (k : ℤ) - x.exp).toNat = 0 := by omega
    rw [hδ, Ex.parts, if_pos h, hk', h0', zpow_sub₀ two_ne_zero, zpow_natCast]
    push_cast
    field_simp
    ring
  · obtain ⟨k, hk⟩ := Int.eq_ofNat_of_zero_le (sub_nonneg.2 h.le)
    obtain rfl : q = x.exp + k := by omega
    rw [Ex.parts, if_neg (by omega), add_sub_cancel_left, Int.toNat_natCast, zpow_add₀ two_ne_zero, zpow_natCast]
    field_simp

/-- The step rounds the magnitude in units of 2^q as the mode says, and tells whether that changed it. -/
theorem Ex.picks_roundAt {x : Ex} {X : ℝ} (hX : x.Stands X) {q : ℤ} (hq : x.sticky = true → x.exp + 24 ≤ q) (rm : RM) (u : ℕ) :
    Picks rm x.neg u (X / 2 ^ q) (x.roundAt q rm u).1 ∧
      ((x.roundAt q rm u).2 = true ↔ ((x.roundAt q rm u).1 : ℝ) ≠ X / 2 ^ q) := by
  obtain ⟨δ, hy, h0, h1, hst⟩ := hX.units hq
  have hpick : Picks rm x.neg u (X / 2 ^ q) (x.roundAt q rm u).1 := by
    rw [hy, x.roundAt_eq q rm u rfl rfl, apply_ite Prod.fst]
    exact picks_parts rm x.neg u _ _ h0 h1 hst fun h => by have := hq h; omega
  refine ⟨hpick, ?_⟩
  obtain ⟨hfl, hfr⟩ := floor_parts (x.parts q) (q - x.exp).toNat h0 h1
  rw [Ne, picks_eq_iff hpick, hy, hfl, hfr, ← Ne, ← inexact_iff h0 hst, x.roundAt_eq q rm u rfl rfl]
  split <;> simp_all

end Sys2Proof
end

section
/-! SUPPORT. The codes of the floating-point formats: the fields of a code, the value that it reads as, and the code of a value and of an overflow (R35, R36, R43). -/

namespace Sys2Proof

/-! Numbers of bits -/

theorem bitLen_le_iff {n k : ℕ} : bitLen n ≤ k ↔ n < 2 ^ k := by
  unfold bitLen
  split
  next h => simp [h]
  next h => rw [Nat.add_one_le_iff, Nat.log2_lt h]

theorem lt_two_pow_bitLen (n : ℕ) : n < 2 ^ bitLen n := bitLen_le_iff.1 le_rfl

theorem bitLen_pos {n : ℕ} (h : n ≠ 0) : 0 < bitLen n := by simp [bitLen, h]

theorem two_pow_le_of_bitLen {n k : ℕ} (h : k < bitLen n) : 2 ^ k ≤ n := by
  rw [← Nat.not_lt, ← bitLen_le_iff]
  omega

theorem bitLen_eq {n k : ℕ} (h : 2 ^ k ≤ n) (h' : n < 2 ^ (k + 1)) : bitLen n = k + 1 := by
  refine Nat.le_antisymm (bitLen_le_iff.2 h') (Nat.lt_of_not_le fun hn => ?_)
  exact absurd (bitLen_le_iff.1 hn) (Nat.not_lt.2 h)

/-- A magnitude n × 2^a against a power of two. -/
theorem mul_zpow_lt_zpow_iff {n : ℕ} (hn : n ≠ 0) (a b : ℤ) : (n : ℝ) * 2 ^ a < 2 ^ b ↔ a + bitLen n ≤ b := by
  constructor
  · intro h
    have hle : (2 : ℝ) ^ (bitLen n - 1) ≤ n := by exact_mod_cast two_pow_le_of_bitLen (Nat.sub_lt (bitLen_pos hn) one_pos)
    have hlt : (2 : ℝ) ^ (a + (bitLen n - 1 : ℕ)) < 2 ^ b := by
      rw [zpow_add₀ two_ne_zero, zpow_natCast, mul_comm]
      exact (mul_le_mul_of_nonneg_right hle (by positivity)).trans_lt h
    have := (zpow_lt_zpow_iff_right₀ one_lt_two).1 hlt
    have := bitLen_pos hn
    omega
  · intro h
    have hlt : (n : ℝ) < 2 ^ bitLen n := by exact_mod_cast lt_two_pow_bitLen n
    calc (n : ℝ) * 2 ^ a < 2 ^ bitLen n * 2 ^ a := mul_lt_mul_of_pos_right hlt (by positivity)
      _ = 2 ^ (a + bitLen n) := by rw [zpow_add₀ two_ne_zero, zpow_natCast, mul_comm]
      _ ≤ 2 ^ b := zpow_le_zpow_right₀ one_le_two h

/-! Formats -/

/-- The formats of R35 are those of the model; the greatest finite value is that of the greatest finite code. -/
theorem ffmt_of_fmtOf {t : Ty} {eb mb bias : ℕ} {top : ℚ} (h : fmtOf t = some (eb, mb, bias, top)) :
    t.ffmt.eb = eb ∧ t.ffmt.mb = mb ∧ t.ffmt.bias = bias ∧
      (top : ℝ) = (2 ^ mb + t.maxCode % 2 ^ mb : ℕ) * 2 ^ (((t.maxCode / 2 ^ mb : ℕ) : ℤ) - bias - mb) := by
  cases t <;> simp only [fmtOf, Option.some.injEq, Prod.mk.injEq, reduceCtorEq] at h <;> obtain ⟨rfl, rfl, rfl, rfl⟩ := h <;>
    refine ⟨rfl, rfl, rfl, ?_⟩ <;> norm_num [Ty.maxCode, Ty.ffmt]

section Formats
variable {t : Ty} (ht : fmtOf t ≠ none)
include ht

theorem maxCode_lt : t.maxCode < 2 ^ (t.ffmt.eb + t.ffmt.mb) := by
  revert ht; cases t <;> decide

theorem one_le_maxCode_div : 1 ≤ t.maxCode / 2 ^ t.ffmt.mb := by
  revert ht; cases t <;> decide

theorem mb_le : t.ffmt.mb ≤ 52 := by
  revert ht; cases t <;> decide

theorem unpackF_eq (x : ℕ) : unpackF t x =
    (if (t == .e4m3 && x / 2 ^ t.ffmt.mb % 2 ^ t.ffmt.eb == 15 && x % 2 ^ t.ffmt.mb == 7) = true then .nan false
    else if (t.ffmt.ieee && x / 2 ^ t.ffmt.mb % 2 ^ t.ffmt.eb == 2 ^ t.ffmt.eb - 1) = true then
      if (x % 2 ^ t.ffmt.mb == 0) = true then .inf (bitOf x (t.ffmt.eb + t.ffmt.mb))
      else .nan (!bitOf (x % 2 ^ t.ffmt.mb) (t.ffmt.mb - 1))
    else if (x / 2 ^ t.ffmt.mb % 2 ^ t.ffmt.eb == 0) = true then .fin (bitOf x (t.ffmt.eb + t.ffmt.mb)) (x % 2 ^ t.ffmt.mb) t.ffmt.qmin
    else .fin (bitOf x (t.ffmt.eb + t.ffmt.mb)) (2 ^ t.ffmt.mb + x % 2 ^ t.ffmt.mb)
      ((x / 2 ^ t.ffmt.mb % 2 ^ t.ffmt.eb : ℕ) - t.ffmt.bias - t.ffmt.mb)) := by
  cases t with
  | e8m0 => exact absurd rfl ht
  | _ => rfl

end Formats

/-- The code with that sign, exponent field and mantissa field. -/
def FFmt.code (f : FFmt) (neg : Bool) (E M : ℕ) : ℕ := (if neg then 2 ^ (f.eb + f.mb) else 0) + E * 2 ^ f.mb + M

theorem FFmt.code_eq (f : FFmt) (neg : Bool) (E M : ℕ) : f.code neg E M = M + 2 ^ f.mb * ((if neg then 2 ^ f.eb else 0) + E) := by
  unfold FFmt.code
  cases neg
  · simp only [Bool.false_eq_true, if_false]; ring
  · simp only [if_true, Nat.pow_add]; ring

section Fields
variable (f : FFmt) (neg : Bool) {E M : ℕ} (hM : M < 2 ^ f.mb)
include hM

theorem FFmt.code_mant : f.code neg E M % 2 ^ f.mb = M := by
  rw [f.code_eq, Nat.add_mul_mod_self_left, Nat.mod_eq_of_lt hM]

theorem FFmt.code_div : f.code neg E M / 2 ^ f.mb = (if neg then 2 ^ f.eb else 0) + E := by
  rw [f.code_eq, Nat.add_mul_div_left _ _ (Nat.two_pow_pos _), Nat.div_eq_of_lt hM, Nat.zero_add]

theorem FFmt.code_exp (hE : E < 2 ^ f.eb) : f.code neg E M / 2 ^ f.mb % 2 ^ f.eb = E := by
  rw [f.code_div neg hM]
  split
  · rw [Nat.add_mod_left, Nat.mod_eq_of_lt hE]
  · rw [Nat.zero_add, Nat.mod_eq_of_lt hE]

theorem FFmt.bitOf_code (hE : E < 2 ^ f.eb) : bitOf (f.code neg E M) (f.eb + f.mb) = neg := by
  rw [bitOf, Nat.add_comm, Nat.pow_add, ← Nat.div_div_eq_div_mul, f.code_div neg hM]
  cases neg
  · rw [if_neg Bool.false_ne_true, Nat.zero_add, Nat.div_eq_of_lt hE]
    rfl
  · rw [if_pos rfl, Nat.add_div_left _ (Nat.two_pow_pos _), Nat.div_eq_of_lt hE]
    rfl

theorem FFmt.code_lt (hE : E < 2 ^ f.eb) : f.code neg E M < 2 ^ f.width := by
  have hlt : (if neg then 2 ^ f.eb else 0) + E + 1 ≤ 2 ^ (f.eb + 1) := by
    rw [Nat.pow_succ]
    split <;> omega
  calc f.code neg E M < 2 ^ f.mb * ((if neg then 2 ^ f.eb else 0) + E + 1) := by rw [f.code_eq, Nat.mul_succ]; omega
    _ ≤ 2 ^ f.mb * 2 ^ (f.eb + 1) := Nat.mul_le_mul_left _ hlt
    _ = 2 ^ f.width := by rw [← Nat.pow_add, FFmt.width]; congr 1; omega

end Fields

section Codes
variable {t : Ty} (ht : fmtOf t ≠ none) (neg : Bool)
include ht

/-- Codes up to the greatest finite one are no special codes. -/
theorem finite_code {E M : ℕ} (hM : M < 2 ^ t.ffmt.mb) (h : E * 2 ^ t.ffmt.mb + M ≤ t.maxCode) : E < 2 ^ t.ffmt.eb ∧
    (t == .e4m3 && E == 15 && M == 7) = false ∧ (t.ffmt.ieee && E == 2 ^ t.ffmt.eb - 1) = false := by
  refine ⟨?_, ?_, ?_⟩
  · have := h.trans_lt (maxCode_lt ht)
    rw [Nat.pow_add] at this
    exact lt_of_mul_lt_mul_right ((Nat.le_add_right _ _).trans_lt this) (Nat.zero_le _)
  · by_contra hn
    simp only [Bool.not_eq_false, Bool.and_eq_true, beq_iff_eq] at hn
    obtain ⟨⟨rfl, rfl⟩, rfl⟩ := hn
    exact absurd h (by decide)
  · by_contra hn
    simp only [Bool.not_eq_false, Bool.and_eq_true, beq_iff_eq] at hn
    obtain ⟨hi, rfl⟩ := hn
    have hmax : t.maxCode < (2 ^ t.ffmt.eb - 1) * 2 ^ t.ffmt.mb := by
      revert ht hi; cases t <;> decide
    omega

/-- A finite code reads as the value of its fields. -/
theorem unpackF_code {E M : ℕ} (hM : M < 2 ^ t.ffmt.mb) (h : E * 2 ^ t.ffmt.mb + M ≤ t.maxCode) :
    unpackF t (t.ffmt.code neg E M) =
      if E = 0 then .fin neg M t.ffmt.qmin else .fin neg (2 ^ t.ffmt.mb + M) (E - t.ffmt.bias - t.ffmt.mb) := by
  obtain ⟨hE, he4, hinf⟩ := finite_code ht hM h
  rw [unpackF_eq ht, t.ffmt.code_exp neg hM hE, t.ffmt.code_mant neg hM, t.ffmt.bitOf_code neg hM hE, he4, hinf]
  simp

/-- The value of a finite code. -/
theorem unpackF_value {E M : ℕ} (hM : M < 2 ^ t.ffmt.mb) (hE : E ≠ 0) (h : E * 2 ^ t.ffmt.mb + M ≤ t.maxCode) {y : ℝ}
    (hy : (2 ^ t.ffmt.mb + M : ℕ) * (2 : ℝ) ^ ((E : ℤ) - t.ffmt.bias - t.ffmt.mb) = y) :
    ∃ m x, unpackF t (t.ffmt.code neg E M) = .fin neg m x ∧ (m : ℝ) * 2 ^ x = y :=
  ⟨_, _, (unpackF_code ht neg hM h).trans (if_neg hE), hy⟩

theorem isZero_code : IsZero t neg (t.ffmt.code neg 0 0, 0) :=
  ⟨⟨_, (unpackF_code ht neg (Nat.two_pow_pos _) (by simp)).trans (if_pos rfl)⟩, rfl⟩

omit ht in
/-- The code of infinity, in a format that has one. -/
theorem unpackF_inf (ht : fmtOf t ≠ none) (hi : t.ffmt.ieee = true) :
    unpackF t (t.ffmt.code neg (2 ^ t.ffmt.eb - 1) 0) = .inf neg := by
  have hE : 2 ^ t.ffmt.eb - 1 < 2 ^ t.ffmt.eb := Nat.sub_lt (Nat.two_pow_pos _) one_pos
  have h4 : (t == .e4m3) = false := by revert ht hi; cases t <;> decide
  rw [unpackF_eq ht, t.ffmt.code_exp neg (Nat.two_pow_pos _) hE, t.ffmt.code_mant neg (Nat.two_pow_pos _),
    t.ffmt.bitOf_code neg (Nat.two_pow_pos _) hE, h4, hi]
  simp

end Codes

/-! Values as codes -/

/-- A code with n' units of 2^Q above the subnormals is no greater than the greatest finite code where its value is no greater. -/
theorem code_le_of_value_le {mb a b : ℕ} {P Q : ℤ} (ha : 2 ^ mb ≤ a) (hb : b < 2 ^ (mb + 1)) (h : (a : ℝ) * 2 ^ P ≤ b * 2 ^ Q) :
    P ≤ Q ∧ (P = Q → a ≤ b) := by
  constructor
  · by_contra hn
    have ha' : (2 : ℝ) ^ mb ≤ a := by exact_mod_cast ha
    have hb' : (b : ℝ) < 2 ^ (mb + 1) := by exact_mod_cast hb
    have hP : (2 : ℝ) ^ (Q + 1) ≤ 2 ^ P := zpow_le_zpow_right₀ one_le_two (by omega)
    have : (b : ℝ) * 2 ^ Q < a * 2 ^ P := calc
      (b : ℝ) * 2 ^ Q < 2 ^ (mb + 1) * 2 ^ Q := mul_lt_mul_of_pos_right hb' (by positivity)
      _ = 2 ^ mb * 2 ^ (Q + 1) := by rw [zpow_add_one₀ two_ne_zero, pow_succ]; ring
      _ ≤ a * 2 ^ P := mul_le_mul ha' hP (by positivity) (by positivity)
    linarith
  · rintro rfl
    exact_mod_cast le_of_mul_le_mul_right h (by positivity)

section Encode
variable {t : Ty} (ht : fmtOf t ≠ none) (neg : Bool) {n : ℕ} {q : ℤ}

theorem encodeF_low (h : n < 2 ^ t.ffmt.mb) : encodeF t neg n q = t.ffmt.code neg 0 n := by
  simp [encodeF, FFmt.code, h]

/-- The units of a normal value, one place up where rounding has filled the last place of its power of two. -/
theorem encodeF_high (h : 2 ^ t.ffmt.mb ≤ n) (hn : n ≤ 2 ^ (t.ffmt.mb + 1)) : ∃ a up : ℕ, n = a * 2 ^ up ∧ 2 ^ t.ffmt.mb ≤ a ∧
    a < 2 ^ (t.ffmt.mb + 1) ∧
    encodeF t neg n q = t.ffmt.code neg (q + up + t.ffmt.mb + t.ffmt.bias).toNat (a - 2 ^ t.ffmt.mb) := by
  have he (up : ℕ) (hup : bitLen n = t.ffmt.mb + 1 + up) : encodeF t neg n q =
      t.ffmt.code neg (q + up + t.ffmt.mb + t.ffmt.bias).toNat (n / 2 ^ up - 2 ^ t.ffmt.mb) := by
    rw [encodeF, hup, Nat.add_sub_cancel_left, if_neg (Nat.not_lt.2 h)]
    rfl
  rcases Nat.lt_or_eq_of_le hn with hlt | rfl
  · refine ⟨n, 0, by simp, h, hlt, (he 0 (bitLen_eq h hlt)).trans ?_⟩
    rw [Nat.pow_zero, Nat.div_one]
  · refine ⟨2 ^ t.ffmt.mb, 1, Nat.pow_succ .., le_rfl, Nat.pow_lt_pow_right one_lt_two (Nat.lt_succ_self _),
      (he 1 (bitLen_eq le_rfl (Nat.pow_lt_pow_right one_lt_two (Nat.lt_succ_self _)))).trans ?_⟩
    rw [Nat.pow_succ, Nat.pow_one, Nat.mul_div_cancel _ two_pos]

include ht

/-- The code of n units of 2^q, no greater than the greatest finite value, has that value. -/
theorem encodeF_value (hq : t.ffmt.qmin ≤ q) (hlow : n < 2 ^ t.ffmt.mb → q = t.ffmt.qmin) (hn : n ≤ 2 ^ (t.ffmt.mb + 1))
    (hle : (n : ℝ) * 2 ^ q ≤ (2 ^ t.ffmt.mb + t.maxCode % 2 ^ t.ffmt.mb : ℕ) *
      2 ^ (((t.maxCode / 2 ^ t.ffmt.mb : ℕ) : ℤ) - t.ffmt.bias - t.ffmt.mb)) :
    encodeF t neg n q < 2 ^ t.ffmt.width ∧ ∃ m x, unpackF t (encodeF t neg n q) = .fin neg m x ∧ (m : ℝ) * 2 ^ x = n * 2 ^ q := by
  have hmax := Nat.div_add_mod' t.maxCode (2 ^ t.ffmt.mb)
  have h1 := one_le_maxCode_div ht
  rcases Nat.lt_or_ge n (2 ^ t.ffmt.mb) with h | h
  · have hc : 0 * 2 ^ t.ffmt.mb + n ≤ t.maxCode := by
      have : 1 * 2 ^ t.ffmt.mb ≤ t.maxCode / 2 ^ t.ffmt.mb * 2 ^ t.ffmt.mb := Nat.mul_le_mul_right _ h1
      omega
    rw [encodeF_low neg h, hlow h]
    exact ⟨t.ffmt.code_lt neg h (Nat.two_pow_pos _), _, _, (unpackF_code ht neg h hc).trans (if_pos rfl), rfl⟩
  · obtain ⟨a, up, rfl, ha, ha', he⟩ := encodeF_high (t := t) neg (q := q) h hn
    have hval : ((a * 2 ^ up : ℕ) : ℝ) * 2 ^ q = a * 2 ^ (q + up) := by
      rw [zpow_add₀ two_ne_zero, zpow_natCast]; push_cast; ring
    rw [hval] at hle ⊢
    have hmod := Nat.mod_lt t.maxCode (Nat.two_pow_pos t.ffmt.mb)
    obtain ⟨hP, hPQ⟩ := code_le_of_value_le ha (by rw [Nat.pow_succ]; omega) hle
    have hqm : (1 : ℤ) - t.ffmt.bias - t.ffmt.mb ≤ q := hq
    obtain ⟨E, hE⟩ : ∃ E : ℕ, q + up + t.ffmt.mb + t.ffmt.bias = E := Int.eq_ofNat_of_zero_le (by omega)
    have hM : a - 2 ^ t.ffmt.mb < 2 ^ t.ffmt.mb := by rw [Nat.pow_succ] at ha'; omega
    have hc : E * 2 ^ t.ffmt.mb + (a - 2 ^ t.ffmt.mb) ≤ t.maxCode := by
      have hle' : E ≤ t.maxCode / 2 ^ t.ffmt.mb := by omega
      rcases Nat.lt_or_eq_of_le hle' with hlt | heq
      · have : (E + 1) * 2 ^ t.ffmt.mb ≤ t.maxCode / 2 ^ t.ffmt.mb * 2 ^ t.ffmt.mb := Nat.mul_le_mul_right _ hlt
        rw [Nat.succ_mul] at this
        omega
      · have := hPQ (by omega)
        rw [heq]
        omega
    rw [he, hE, Int.toNat_natCast]
    refine ⟨t.ffmt.code_lt neg hM (finite_code ht hM hc).1, unpackF_value ht neg hM (by omega) hc ?_⟩
    rw [Nat.add_sub_cancel' ha]
    congr 2
    omega

end Encode

/-! Overflow -/

/-- Whether an overflow gives the greatest finite value and not what the format has beyond it (R43). -/
abbrev OverflowsToTop (t : Ty) (r : Rnd) (neg : Bool) : Prop :=
  r.sat = true ∨ t = .e3m2 ∨ t = .e2m3 ∨ t = .e2m1 ∨
    (t ≠ .e5m2 ∧ t ≠ .e4m3 ∧ (r.rm = .rtz ∨ r.rm = .rod ∨ (r.rm = .rdn ∧ neg = false) ∨ (r.rm = .rup ∧ neg = true)))

theorem overflowInf_eq_false_iff (rm : RM) (neg : Bool) :
    overflowInf rm neg = false ↔ rm = .rtz ∨ rm = .rod ∨ (rm = .rdn ∧ neg = false) ∨ (rm = .rup ∧ neg = true) := by
  cases rm <;> simp [overflowInf]

/-- An overflow gives the greatest finite value, the NaN of e4m3, or infinity. -/
theorem overflowCode_cases {t : Ty} (ht : fmtOf t ≠ none) (r : Rnd) (neg : Bool) :
    (OverflowsToTop t r neg ∧
      overflowCode t r.rm r.sat neg = t.ffmt.code neg (t.maxCode / 2 ^ t.ffmt.mb) (t.maxCode % 2 ^ t.ffmt.mb)) ∨
    (¬ OverflowsToTop t r neg ∧ t = .e4m3 ∧ overflowCode t r.rm r.sat neg = 0x7F) ∨
    (¬ OverflowsToTop t r neg ∧ t ≠ .e4m3 ∧ t.ffmt.ieee = true ∧
      overflowCode t r.rm r.sat neg = t.ffmt.code neg (2 ^ t.ffmt.eb - 1) 0) := by
  have htop : t.ffmt.code neg (t.maxCode / 2 ^ t.ffmt.mb) (t.maxCode % 2 ^ t.ffmt.mb) =
      (if neg then 2 ^ (t.ffmt.eb + t.ffmt.mb) else 0) + t.maxCode := by
    rw [FFmt.code, Nat.add_assoc, Nat.div_add_mod']
  rw [htop]
  cases hs : r.sat with
  | true => exact .inl ⟨.inl hs, by simp only [overflowCode, if_true]⟩
  | false =>
    cases t with
    | e5m2 => exact .inr (.inr ⟨by simp [OverflowsToTop, hs], by decide, rfl, rfl⟩)
    | e4m3 => exact .inr (.inl ⟨by simp [OverflowsToTop, hs], rfl, rfl⟩)
    | e3m2 | e2m3 | e2m1 => exact .inl ⟨by simp [OverflowsToTop], rfl⟩
    | f16 | bf16 | f32 | f64 =>
      cases ho : overflowInf r.rm neg with
      | false =>
        refine .inl ⟨?_, ?_⟩
        · simpa [OverflowsToTop, hs] using (overflowInf_eq_false_iff r.rm neg).1 ho
        · exact if_neg (by rw [ho]; exact Bool.false_ne_true)
      | true =>
        refine .inr (.inr ⟨?_, by decide, rfl, ?_⟩)
        · simpa [OverflowsToTop, hs, ho] using (overflowInf_eq_false_iff r.rm neg).not.1
        · exact if_pos ho
    | _ => exact absurd rfl ht

end Sys2Proof
end

section
/-! SUPPORT. A magnitude is rounded once to a type: the place of its last digit, the overflow, the tininess and the flags (R40, R43, R44). -/

namespace Sys2Proof

/-! Bounds on what the mode picks -/

theorem two_pow_le_of_picks {rm : RM} {neg : Bool} {u k n : ℕ} {y : ℝ} (h : Picks rm neg u y n) (hy : 2 ^ k ≤ y) : 2 ^ k ≤ n := by
  have hfl : 2 ^ k ≤ ⌊y⌋₊ := Nat.le_floor (by exact_mod_cast hy)
  obtain ⟨h0, h1⟩ := h
  by_cases hf : y - ⌊y⌋₊ = 0
  · rwa [h0 hf]
  · rcases (h1 hf).1 with h | h <;> omega

theorem le_two_pow_of_picks {rm : RM} {neg : Bool} {u k n : ℕ} {y : ℝ} (h : Picks rm neg u y n) (h0 : 0 ≤ y) (hy : y < 2 ^ k) : n ≤ 2 ^ k := by
  have hfl : ⌊y⌋₊ < 2 ^ k := (Nat.floor_lt h0).2 (by exact_mod_cast hy)
  obtain ⟨h0, h1⟩ := h
  by_cases hf : y - ⌊y⌋₊ = 0
  · exact (h0 hf).trans_le hfl.le
  · rcases (h1 hf).1 with h | h <;> omega

/-! The place of the first digit -/

theorem Ex.Stands.bounds {x : Ex} {X : ℝ} (h : x.Stands X) (hm : x.mant ≠ 0) :
    2 ^ (x.exp + bitLen x.mant - 1) ≤ X ∧ X < 2 ^ (x.exp + bitLen x.mant) := by
  obtain ⟨δ, rfl, h0, h1, -⟩ := h
  have hlo : ¬ (x.mant : ℝ) * 2 ^ x.exp < 2 ^ (x.exp + bitLen x.mant - 1) := by
    rw [mul_zpow_lt_zpow_iff hm]
    omega
  have hhi : ((x.mant : ℝ) + 1) ≤ 2 ^ bitLen x.mant := by exact_mod_cast lt_two_pow_bitLen x.mant
  have hp : (0 : ℝ) < 2 ^ x.exp := by positivity
  constructor
  · nlinarith
  · rw [zpow_add₀ two_ne_zero, zpow_natCast, mul_comm]
    exact mul_lt_mul_of_pos_left (by linarith) hp

theorem Ex.Stands.exponent {x : Ex} {X : ℝ} (h : x.Stands X) (hm : x.mant ≠ 0) {e : ℤ} (he : 2 ^ e ≤ X) (he' : X < 2 ^ (e + 1)) :
    x.exp + bitLen x.mant = e + 1 := by
  obtain ⟨hlo, hhi⟩ := h.bounds hm
  have := (zpow_lt_zpow_iff_right₀ (one_lt_two (α := ℝ))).1 (he.trans_lt hhi)
  have := (zpow_lt_zpow_iff_right₀ (one_lt_two (α := ℝ))).1 (hlo.trans_lt he')
  omega

/-! The test for an overflow -/

/-- Whether n units of 2^q exceed the greatest finite value of a type. -/
def Ty.Exceeds (t : Ty) (n : ℕ) (q : ℤ) : Prop :=
  let a := 2 ^ t.ffmt.mb + t.maxCode % 2 ^ t.ffmt.mb
  let p : ℤ := ((t.maxCode / 2 ^ t.ffmt.mb : ℕ) : ℤ) - t.ffmt.bias - t.ffmt.mb
  if q ≤ p then n > a * 2 ^ (p - q).toNat else n * 2 ^ (q - p).toNat > a

theorem Ty.exceeds_iff (t : Ty) (n : ℕ) (q : ℤ) : t.Exceeds n q ↔
    ((2 ^ t.ffmt.mb + t.maxCode % 2 ^ t.ffmt.mb : ℕ) : ℝ) * 2 ^ (((t.maxCode / 2 ^ t.ffmt.mb : ℕ) : ℤ) - t.ffmt.bias - t.ffmt.mb) <
      n * 2 ^ q := by
  unfold Ty.Exceeds
  generalize 2 ^ t.ffmt.mb + t.maxCode % 2 ^ t.ffmt.mb = a
  generalize ((t.maxCode / 2 ^ t.ffmt.mb : ℕ) : ℤ) - t.ffmt.bias - t.ffmt.mb = p
  dsimp only
  split
  next h =>
    obtain ⟨k, hk⟩ := Int.eq_ofNat_of_zero_le (sub_nonneg.2 h)
    obtain rfl : p = q + k := by omega
    rw [add_sub_cancel_left, Int.toNat_natCast, zpow_add₀ two_ne_zero, zpow_natCast, mul_left_comm, mul_comm (2 ^ q : ℝ),
      mul_lt_mul_iff_left₀ (by positivity)]
    exact_mod_cast Iff.rfl
  next h =>
    obtain ⟨k, hk⟩ := Int.eq_ofNat_of_zero_le (sub_nonneg.2 (Int.not_le.1 h).le)
    obtain rfl : q = p + k := by omega
    rw [add_sub_cancel_left, Int.toNat_natCast, zpow_add₀ two_ne_zero, zpow_natCast, mul_left_comm, mul_comm (2 ^ p : ℝ),
      mul_lt_mul_iff_left₀ (by positivity)]
    exact_mod_cast Iff.rfl

/-! Rounding to a type -/

section Digits
variable (t : Ty) (r : Rnd) {x : Ex} (hm : x.mant ≠ 0) {e q : ℤ} (he : x.exp + bitLen x.mant = e + 1)
  (hq : q = max (e - t.ffmt.mb) (1 - t.ffmt.bias - t.ffmt.mb))
include hm he hq

theorem to_of_exceeds (h : t.Exceeds (x.roundAt q r.rm r.u).1 q) : r.to t x = (overflowCode t r.rm r.sat x.neg, fOF ||| fNX) := by
  have hm' : (x.mant == 0 && !x.sticky) = false := by simp [hm]
  obtain rfl : e = x.exp + (bitLen x.mant : ℤ) - 1 := by omega
  subst hq
  rw [Rnd.to, roundF, hm', if_neg Bool.false_ne_true]
  exact if_pos h

theorem to_of_not_exceeds (h : ¬ t.Exceeds (x.roundAt q r.rm r.u).1 q) : r.to t x = (encodeF t x.neg (x.roundAt q r.rm r.u).1 q,
    (if (x.roundAt q r.rm r.u).2 = true then fNX else 0) |||
      (if (decide (e - t.ffmt.mb + (bitLen (x.roundAt (e - t.ffmt.mb) r.rm r.u).1 : ℤ) - 1 < 1 - t.ffmt.bias) &&
        (x.roundAt q r.rm r.u).2) = true then fUF else 0)) := by
  have hm' : (x.mant == 0 && !x.sticky) = false := by simp [hm]
  obtain rfl : e = x.exp + (bitLen x.mant : ℤ) - 1 := by omega
  subst hq
  rw [Rnd.to, roundF, hm', if_neg Bool.false_ne_true]
  exact if_neg h

end Digits

/-- What an overflow gives. -/
theorem overflow_value {t : Ty} (ht : fmtOf t ≠ none) (r : Rnd) (neg : Bool) {top : ℝ}
    (htop : top = (2 ^ t.ffmt.mb + t.maxCode % 2 ^ t.ffmt.mb : ℕ) *
      2 ^ (((t.maxCode / 2 ^ t.ffmt.mb : ℕ) : ℤ) - t.ffmt.bias - t.ffmt.mb)) :
    overflowCode t r.rm r.sat neg < 2 ^ t.ffmt.width ∧
      if OverflowsToTop t r neg then ∃ m x, unpackF t (overflowCode t r.rm r.sat neg) = .fin neg m x ∧ (m : ℝ) * 2 ^ x = top
      else if t = .e4m3 then overflowCode t r.rm r.sat neg = 0x7F else unpackF t (overflowCode t r.rm r.sat neg) = .inf neg := by
  have hM := Nat.mod_lt t.maxCode (Nat.two_pow_pos t.ffmt.mb)
  have hmax := (Nat.div_add_mod' t.maxCode (2 ^ t.ffmt.mb)).le
  obtain ⟨hc, he⟩ | ⟨hc, rfl, he⟩ | ⟨hc, h4, hi, he⟩ := overflowCode_cases ht r neg
  · rw [if_pos hc, he]
    exact ⟨t.ffmt.code_lt neg hM (finite_code ht hM hmax).1,
      unpackF_value ht neg hM (Nat.ne_of_gt (one_le_maxCode_div ht)) hmax htop.symm⟩
  · rw [if_neg hc, if_pos rfl, he]
    exact ⟨by decide, rfl⟩
  · rw [if_neg hc, if_neg h4, he]
    exact ⟨t.ffmt.code_lt neg (Nat.two_pow_pos _) (Nat.sub_lt (Nat.two_pow_pos _) one_pos), unpackF_inf neg ht hi⟩

/-- A magnitude rounded once, whatever part of its last unit it is known to have beyond its digits: these are enough for a type's digits, a guard and the 24 places of a draw. -/
theorem roundsOnce_to {t : Ty} {r : Rnd} {x : Ex} {X : ℝ} (hx : x.Stands |X|) (hm : x.mant ≠ 0) (hneg : x.neg = true ↔ X < 0)
    (hs : x.sticky = true → 77 ≤ bitLen x.mant) : RoundsOnce t r X (r.to t x) := by
  intro eb mb bias top hf e neg n k he he' hn q hpn hpk
  have ht : fmtOf t ≠ none := by rw [hf]; exact Option.some_ne_none _
  obtain ⟨rfl, rfl, rfl, htop⟩ := ffmt_of_fmtOf hf
  obtain rfl : x.neg = neg := Bool.eq_iff_iff.2 (hneg.trans hn.symm)
  have hexp := hx.exponent hm he he'
  have hmb := mb_le ht
  have hq1 : e - t.ffmt.mb ≤ q := le_max_left ..
  have hq2 : t.ffmt.qmin ≤ q := le_max_right ..
  obtain ⟨hpick, hinex⟩ := Ex.picks_roundAt hx (q := q) (fun h => by have := hs h; omega) r.rm r.u
  obtain ⟨hpick', -⟩ := Ex.picks_roundAt hx (q := e - t.ffmt.mb) (fun h => by have := hs h; omega) r.rm r.u
  obtain rfl := picks_unique hpick hpn
  obtain rfl := picks_unique hpick' hpk
  have hy : (0 : ℝ) ≤ |X| / 2 ^ q := by positivity
  have hle : (x.roundAt q r.rm r.u).1 ≤ 2 ^ (t.ffmt.mb + 1) := le_two_pow_of_picks hpick hy <| by
    rw [div_lt_iff₀ (by positivity), ← zpow_natCast, ← zpow_add₀ two_ne_zero]
    refine he'.trans_le (zpow_le_zpow_right₀ one_le_two ?_)
    push_cast
    omega
  have hge {p : ℤ} (hp : p = e - t.ffmt.mb) : (2 : ℝ) ^ t.ffmt.mb ≤ |X| / 2 ^ p := by
    rw [le_div_iff₀ (by positivity), ← zpow_natCast, ← zpow_add₀ two_ne_zero, hp, add_sub_cancel]
    exact he
  have hlow (h : (x.roundAt q r.rm r.u).1 < 2 ^ t.ffmt.mb) : q = t.ffmt.qmin := by
    rcases max_choice (e - t.ffmt.mb : ℤ) (1 - t.ffmt.bias - t.ffmt.mb) with hc | hc
    · exact absurd (two_pow_le_of_picks hpick (hge hc)) (Nat.not_le.2 h)
    · exact hc
  have hk : (x.roundAt (e - t.ffmt.mb) r.rm r.u).1 ≠ 0 :=
    Nat.ne_of_gt ((Nat.two_pow_pos _).trans_le (two_pow_le_of_picks hpick' (hge rfl)))
  have hex := t.exceeds_iff (x.roundAt q r.rm r.u).1 q
  rw [← htop] at hex
  by_cases hov : t.Exceeds (x.roundAt q r.rm r.u).1 q
  · rw [to_of_exceeds t r hm hexp rfl hov]
    exact ⟨(overflow_value ht r x.neg htop).1, fun h => absurd (hex.1 hov) (not_lt.2 h),
      fun _ => ⟨rfl, (overflow_value ht r x.neg htop).2⟩⟩
  · have hnt := mt hex.2 hov
    rw [not_lt] at hnt
    obtain ⟨hlt, hval⟩ := encodeF_value ht x.neg hq2 hlow hle (htop ▸ hnt)
    rw [to_of_not_exceeds t r hm hexp rfl hov]
    have hinex' := hinex.trans (not_congr (eq_div_iff (by positivity)))
    have htiny := mul_zpow_lt_zpow_iff hk (e - t.ffmt.mb) (1 - t.ffmt.bias)
    refine ⟨hlt, fun _ => ⟨hval, fun h => ?_, fun h hlt => ?_, fun h hle => ?_⟩, fun h => absurd h (not_lt.2 hnt)⟩
    · rw [Bool.eq_false_iff.2 (mt hinex'.1 (not_not.2 h)), Bool.and_false]
      rfl
    · rw [hinex'.2 h, Bool.and_true, if_pos rfl, if_pos (decide_eq_true (by have := htiny.1 hlt; omega))]
    · rw [hinex'.2 h, Bool.and_true, if_pos rfl, if_neg (by rw [decide_eq_true_eq]; have := htiny.not.1 (not_lt.2 hle); omega)]
      rfl

/-! Zeros and exact values -/

/-- A magnitude of 0 gives a zero of its sign. -/
theorem isZero_to {t : Ty} (ht : fmtOf t ≠ none) (r : Rnd) (neg : Bool) (e : ℤ) : IsZero t neg (r.to t { neg := neg, mant := 0, exp := e }) := by
  have h : r.to t { neg := neg, mant := 0, exp := e } = (t.ffmt.code neg 0 0, 0) := by
    rw [FFmt.code, Nat.zero_mul, Nat.add_zero]
    rfl
  exact h ▸ isZero_code ht neg

theorem valOf_fin (n : Bool) (m : ℕ) (e : ℤ) : valOf (.fin n m e) = (if n then -1 else 1) * (m : ℚ) * 2 ^ e := rfl

theorem valOf_eq_zero_iff {n : Bool} {m : ℕ} {e : ℤ} : valOf (.fin n m e) = 0 ↔ m = 0 := by
  have : (2 : ℚ) ^ e ≠ 0 := by positivity
  cases n <;> simp [valOf_fin, this]

theorem abs_valOf (n : Bool) (m : ℕ) (e : ℤ) : |((valOf (.fin n m e) : ℚ) : ℝ)| = m * 2 ^ e := by
  have : (0 : ℝ) ≤ m * 2 ^ e := by positivity
  cases n <;> simp [valOf_fin, abs_of_nonneg this]

theorem valOf_neg_iff {n : Bool} {m : ℕ} {e : ℤ} (hm : m ≠ 0) : ((valOf (.fin n m e) : ℚ) : ℝ) < 0 ↔ n = true := by
  have : (0 : ℚ) < m * 2 ^ e := by positivity
  rw [Rat.cast_lt_zero]
  cases n
  · simp [valOf_fin, this.le]
  · simp [valOf_fin, this]

/-- A value that stands as a magnitude with a sign is rounded once. -/
theorem roundsOnce_fin (t : Ty) (r : Rnd) (n : Bool) (m : ℕ) (e : ℤ) (hm : m ≠ 0) :
    RoundsOnce t r (valOf (.fin n m e) : ℚ) (r.to t { neg := n, mant := m, exp := e }) :=
  roundsOnce_to ((abs_valOf n m e).symm ▸ Ex.stands_exact n m e) hm (valOf_neg_iff hm).symm nofun

end Sys2Proof
end

section
/-! SUPPORT. Exact sums, products, quotients and roots, each rounded once (R45, R143, R144). -/

namespace Sys2Proof

/-! Exact sums -/

/-- The value of a signed magnitude in a sum. -/
def termVal (t : Bool × ℕ × ℤ) : ℚ := valOf (.fin t.1 t.2.1 t.2.2)

/-- The exponent of a sum is that of no nonzero term exceeded. -/
theorem foldl_min_le (ts : List (Bool × ℕ × ℤ)) (a : ℤ) :
    (ts.foldl (fun a t => if (t.2.1 == 0) = true then a else min a t.2.2) a) ≤ a ∧
      ∀ t ∈ ts, t.2.1 ≠ 0 → (ts.foldl (fun a t => if (t.2.1 == 0) = true then a else min a t.2.2) a) ≤ t.2.2 := by
  induction ts generalizing a with
  | nil => simp
  | cons t ts ih =>
    rw [List.foldl_cons]
    by_cases h0 : t.2.1 = 0
    · rw [if_pos (by simpa using h0)]
      refine ⟨(ih a).1, fun u hu hne => ?_⟩
      rcases List.mem_cons.1 hu with rfl | hu
      · exact absurd h0 hne
      · exact (ih a).2 u hu hne
    · rw [if_neg (by simpa using h0)]
      obtain ⟨hle, hall⟩ := ih (min a t.2.2)
      refine ⟨hle.trans (min_le_left ..), fun u hu hne => ?_⟩
      rcases List.mem_cons.1 hu with rfl | hu
      · exact hle.trans (min_le_right ..)
      · exact hall u hu hne

/-- A term in units of the sum's exponent. -/
theorem termVal_eq {t : Bool × ℕ × ℤ} {e : ℤ} (h : t.2.1 ≠ 0 → e ≤ t.2.2) :
    termVal t = (if t.1 then -1 else 1) * (((if (t.2.1 == 0) = true then 0 else (t.2.1 * 2 ^ (t.2.2 - e).toNat : ℕ) : ℤ)) : ℚ) * 2 ^ e := by
  obtain ⟨n, m, et⟩ := t
  by_cases h0 : m = 0
  · simp [termVal, valOf_fin, h0]
  · obtain ⟨k, hk⟩ := Int.eq_ofNat_of_zero_le (sub_nonneg.2 (h h0))
    obtain rfl : et = e + k := by simp only at hk; omega
    simp only [termVal, valOf_fin, beq_iff_eq, h0, if_false, add_sub_cancel_left, Int.toNat_natCast, zpow_add₀ (two_ne_zero (α := ℚ)), zpow_natCast]
    push_cast
    ring

/-- The sum of terms in units of an exponent that no nonzero term goes below. -/
theorem foldl_sum_value {e : ℤ} (ts : List (Bool × ℕ × ℤ)) (h : ∀ t ∈ ts, t.2.1 ≠ 0 → e ≤ t.2.2) (i : ℤ) :
    ((ts.foldl (fun a t =>
      let m : ℤ := if (t.2.1 == 0) = true then 0 else (t.2.1 * 2 ^ (t.2.2 - e).toNat : ℕ)
      if t.1 = true then a - m else a + m) i : ℤ) : ℚ) * 2 ^ e = i * 2 ^ e + (ts.map termVal).sum := by
  induction ts generalizing i with
  | nil => simp
  | cons t ts ih =>
    rw [List.foldl_cons, ih (fun u hu => h u (List.mem_cons_of_mem _ hu)), List.map_cons, List.sum_cons,
      termVal_eq (h t List.mem_cons_self), ← add_assoc, add_left_inj]
    cases t.1
    · simp only [Bool.false_eq_true, if_false]; push_cast; ring
    · simp only [if_true]; push_cast; ring

/-- The exact sum is the sum of the values. -/
theorem sumExact_value (ts : List (Bool × ℕ × ℤ)) : ((sumExact ts).1 : ℚ) * 2 ^ (sumExact ts).2 = (ts.map termVal).sum := by
  have he : ∀ t ∈ ts, t.2.1 ≠ 0 → (sumExact ts).2 ≤ t.2.2 := (foldl_min_le ts _).2
  have h := foldl_sum_value ts he 0
  rw [Int.cast_zero, zero_mul, zero_add] at h
  exact h

/-- The exact sum rounded once, or the zero of a sign given. -/
def sumRounded (t : Ty) (r : Rnd) (zero : Bool) (ts : List (Bool × ℕ × ℤ)) : ℕ × Flags :=
  if ((sumExact ts).1 == 0) = true then r.to t { neg := zero, mant := 0, exp := 0 }
  else r.to t (exOfInt (sumExact ts).1 (sumExact ts).2)

/-- X rounded once, or where it is 0 the zero of a sign. -/
def Once (t : Ty) (r : Rnd) (X : ℚ) (zero : Bool) (res : ℕ × Flags) : Prop :=
  (X ≠ 0 → RoundsOnce t r (X : ℝ) res) ∧ (X = 0 → IsZero t zero res)

theorem once_sumRounded {t : Ty} (ht : fmtOf t ≠ none) (r : Rnd) (zero : Bool) (ts : List (Bool × ℕ × ℤ)) :
    Once t r (ts.map termVal).sum zero (sumRounded t r zero ts) := by
  rw [← sumExact_value, sumRounded]
  generalize (sumExact ts).1 = i
  generalize (sumExact ts).2 = e
  have he : (2 : ℚ) ^ e ≠ 0 := by positivity
  by_cases hi : i = 0
  · subst hi
    exact ⟨fun h => absurd (by simp) h, fun _ => isZero_to ht r zero 0⟩
  · rw [if_neg (by simpa using hi)]
    refine ⟨fun _ => ?_, fun h => absurd h (by simp [hi, he])⟩
    have hv : (i : ℚ) * 2 ^ e = valOf (.fin (decide (i < 0)) i.natAbs e) := by
      rw [valOf_fin, mul_left_inj' he, Nat.cast_natAbs]
      rcases lt_or_ge i 0 with hn | hn
      · simp [hn, abs_of_neg]
      · simp [hn.not_gt, abs_of_nonneg hn]
    rw [hv]
    exact roundsOnce_fin t r _ _ e (Int.natAbs_ne_zero.2 hi)

theorem Once.zero_congr {t : Ty} {r : Rnd} {X : ℚ} {z z' : Bool} {res : ℕ × Flags} (h : Once t r X z res) (hz : X = 0 → z = z') :
    Once t r X z' res :=
  ⟨h.1, fun h0 => hz h0 ▸ h.2 h0⟩

/-- A value rounded, its zero keeping the sign that it stands with. -/
theorem once_fin {t : Ty} (ht : fmtOf t ≠ none) (r : Rnd) (n : Bool) (m : ℕ) (e : ℤ) :
    Once t r (valOf (.fin n m e)) n (r.to t { neg := n, mant := m, exp := e }) := by
  refine ⟨fun h => roundsOnce_fin t r n m e (mt valOf_eq_zero_iff.2 h), fun h => ?_⟩
  obtain rfl := valOf_eq_zero_iff.1 h
  exact isZero_to ht r n e

/-! The operations -/

/-- A sum of two terms: its zero is −0 under rdn, or where both terms are −0. -/
theorem once_two {t : Ty} (ht : fmtOf t ≠ none) (r : Rnd) (n n' : Bool) (m m' : ℕ) (e e' : ℤ) :
    Once t r (valOf (.fin n m e) + valOf (.fin n' m' e')) (r.rm == .rdn || (n && n'))
      (sumRounded t r (zeroSign r.rm (m == 0 && m' == 0 && n && n')) [(n, m, e), (n', m', e')]) := by
  have h := once_sumRounded ht r (zeroSign r.rm (m == 0 && m' == 0 && n && n')) [(n, m, e), (n', m', e')]
  rw [List.map_cons, List.map_cons, List.map_nil, List.sum_cons, List.sum_cons, List.sum_nil, add_zero] at h
  refine h.zero_congr fun h0 => ?_
  rw [zeroSign, Bool.or_comm]
  congr 1
  cases n <;> cases n' <;> simp only [Bool.and_false, Bool.and_true, Bool.and_self]
  have hp : (0 : ℚ) ≤ m * 2 ^ e := by positivity
  have hp' : (0 : ℚ) ≤ m' * 2 ^ e' := by positivity
  simp only [termVal, valOf_fin, if_true] at h0
  have hm : valOf (.fin true m e) = 0 := by rw [valOf_fin, if_pos rfl]; linarith
  have hm' : valOf (.fin true m' e') = 0 := by rw [valOf_fin, if_pos rfl]; linarith
  rw [valOf_eq_zero_iff.1 hm, valOf_eq_zero_iff.1 hm']
  rfl

theorem valOf_mul (n n' : Bool) (m m' : ℕ) (e e' : ℤ) :
    valOf (.fin n m e) * valOf (.fin n' m' e') = valOf (.fin (n != n') (m * m') (e + e')) := by
  rw [valOf_fin, valOf_fin, valOf_fin, zpow_add₀ two_ne_zero]
  push_cast
  cases n <;> cases n' <;> simp <;> ring

section Operations
variable {t : Ty} (ht : fmtOf t ≠ none) (r : Rnd) (n n' n'' : Bool) (m m' m'' : ℕ) (e e' e'' : ℤ)
include ht

theorem once_addF : Once t r (valOf (.fin n m e) + valOf (.fin n' m' e')) (r.rm == .rdn || (n && n'))
    (addF t r (.fin n m e) (.fin n' m' e')) := once_two ht r n n' m m' e e'

theorem once_mulF : Once t r (valOf (.fin n m e) * valOf (.fin n' m' e')) (n != n') (fmaF t r (.fin n m e) (.fin n' m' e') none) := by
  rw [valOf_mul]
  cases m <;> exact once_fin ht r ..

theorem once_fmaF : Once t r (valOf (.fin n m e) * valOf (.fin n' m' e') + valOf (.fin n'' m'' e''))
    (r.rm == .rdn || ((n != n') && n'')) (fmaF t r (.fin n m e) (.fin n' m' e') (some (.fin n'' m'' e''))) := by
  rw [valOf_mul]
  cases m <;> exact once_two ht r ..

end Operations

/-! Quotients -/

/-- A quotient of magnitudes by its whole part and its remainder. -/
theorem stands_quotient (n : Bool) (a : ℕ) {b : ℕ} (k : ℕ) (hb : b ≠ 0) (e e' : ℤ) :
    ({ neg := n, mant := a * 2 ^ k / b, exp := e - e' - k, sticky := a * 2 ^ k % b != 0 } : Ex).Stands
      (a * 2 ^ e / (b * 2 ^ e')) := by
  have hb' : (0 : ℝ) < b := by exact_mod_cast Nat.pos_of_ne_zero hb
  have hdiv : (a : ℝ) * 2 ^ k = b * (a * 2 ^ k / b : ℕ) + (a * 2 ^ k % b : ℕ) := by exact_mod_cast (Nat.div_add_mod (a * 2 ^ k) b).symm
  have hlt : ((a * 2 ^ k % b : ℕ) : ℝ) < b := by exact_mod_cast Nat.mod_lt (a * 2 ^ k) (Nat.pos_of_ne_zero hb)
  refine ⟨(a * 2 ^ k % b : ℕ) / b, ?_, by positivity, (div_lt_one hb').2 hlt, ?_⟩
  · have hq : ((a * 2 ^ k / b : ℕ) : ℝ) + (a * 2 ^ k % b : ℕ) / b = a * 2 ^ k / b := by
      rw [eq_div_iff hb'.ne', hdiv]
      field_simp
    dsimp only
    rw [hq, zpow_sub₀ two_ne_zero, zpow_sub₀ two_ne_zero, zpow_natCast]
    field_simp
  · rw [bne_iff_ne, Ne, Ne, div_eq_zero_iff, or_iff_left hb'.ne', Nat.cast_eq_zero]

theorem bitLen_quotient {a b : ℕ} (ha : a ≠ 0) (hb : b ≠ 0) : 77 ≤ bitLen (a * 2 ^ (128 + bitLen b) / b) := by
  refine Nat.not_lt.1 fun h => absurd (bitLen_le_iff.1 (Nat.le_of_lt_succ h)) (Nat.not_lt.2 ?_)
  rw [Nat.le_div_iff_mul_le (Nat.pos_of_ne_zero hb), Nat.pow_add]
  calc 2 ^ 76 * b ≤ 2 ^ 128 * 2 ^ bitLen b := Nat.mul_le_mul (Nat.pow_le_pow_right two_pos (by decide)) (lt_two_pow_bitLen b).le
    _ ≤ a * (2 ^ 128 * 2 ^ bitLen b) := Nat.le_mul_of_pos_left _ (Nat.pos_of_ne_zero ha)

theorem once_divF {t : Ty} (ht : fmtOf t ≠ none) (r : Rnd) (n n' : Bool) (m m' : ℕ) (e e' : ℤ) (hm' : m' ≠ 0) :
    Once t r (valOf (.fin n m e) / valOf (.fin n' m' e')) (n != n') (divF t r (.fin n m e) (.fin n' m' e')) := by
  have hdiv (k : ℕ) (hk : k = 128 + bitLen m') : divF t r (.fin n m e) (.fin n' m' e') =
      r.to t { neg := n != n', mant := m * 2 ^ k / m', exp := e - e' - k, sticky := m * 2 ^ k % m' != 0 } := by
    subst hk
    exact if_neg (by simpa using hm')
  rw [hdiv _ rfl]
  by_cases hm : m = 0
  · subst hm
    have h0 : valOf (.fin n 0 e) / valOf (.fin n' m' e') = 0 := by rw [valOf_eq_zero_iff.2 rfl, zero_div]
    refine ⟨fun h => absurd h0 h, fun _ => ?_⟩
    rw [Nat.zero_mul, Nat.zero_div, Nat.zero_mod]
    exact isZero_to ht ..
  · have hx : valOf (.fin n m e) / valOf (.fin n' m' e') ≠ 0 := div_ne_zero (mt valOf_eq_zero_iff.1 hm) (mt valOf_eq_zero_iff.1 hm')
    have hlen := bitLen_quotient hm hm'
    refine ⟨fun _ => roundsOnce_to ?_ (fun h => ?_) ?_ (fun _ => hlen), fun h => absurd h hx⟩
    · rw [Rat.cast_div, abs_div, abs_valOf, abs_valOf]
      exact stands_quotient _ m _ hm' e e'
    · rw [show m * 2 ^ (128 + bitLen m') / m' = 0 from h] at hlen
      exact absurd hlen (by decide)
    · rw [Rat.cast_lt_zero, div_neg_iff, ← mul_neg_iff, valOf_mul, ← Rat.cast_lt_zero (K := ℝ), valOf_neg_iff (Nat.mul_ne_zero hm hm')]

/-! Roots -/

/-- The bits of a root, from the top: what is found is the greatest number of that many more bits whose square is no greater. -/
theorem isqrtGo_spec (k x c : ℕ) (h : c * c ≤ x) (h' : x < (c + 2 ^ k) * (c + 2 ^ k)) :
    isqrtGo k x c * isqrtGo k x c ≤ x ∧ x < (isqrtGo k x c + 1) * (isqrtGo k x c + 1) := by
  induction k generalizing c with
  | zero => exact ⟨h, h'⟩
  | succ k ih =>
    have hstep : isqrtGo (k + 1) x c = if (c + 2 ^ k) * (c + 2 ^ k) ≤ x then isqrtGo k x (c + 2 ^ k) else isqrtGo k x c :=
      apply_ite (isqrtGo k x) ..
    rw [hstep]
    split
    next hc => exact ih _ hc (by rwa [Nat.add_assoc, ← Nat.two_mul, Nat.mul_comm 2, ← Nat.pow_succ])
    next hc => exact ih _ h (Nat.not_le.1 hc)

theorem isqrt_spec (x : ℕ) : isqrt x * isqrt x ≤ x ∧ x < (isqrt x + 1) * (isqrt x + 1) := by
  refine isqrtGo_spec _ x 0 (Nat.zero_le _) ?_
  rw [Nat.zero_add, ← Nat.pow_add]
  exact (lt_two_pow_bitLen x).trans_le (Nat.pow_le_pow_right two_pos (by omega))

/-- A root by its whole part. -/
theorem stands_root {a : ℕ} {A : ℝ} {e : ℤ} (hA : A = a * 2 ^ (2 * e)) :
    ({ neg := false, mant := isqrt a, exp := e, sticky := isqrt a * isqrt a != a } : Ex).Stands (√A) := by
  obtain ⟨hle, hlt⟩ := isqrt_spec a
  have hs : √A = √a * 2 ^ e := by
    rw [hA, mul_comm 2 e, zpow_mul, zpow_ofNat, Real.sqrt_mul (Nat.cast_nonneg _), Real.sqrt_sq (by positivity)]
  have hle' : (isqrt a : ℝ) ≤ √a := Real.le_sqrt_of_sq_le (by rw [sq]; exact_mod_cast hle)
  have hlt' : √a < (isqrt a : ℝ) + 1 := (Real.sqrt_lt' (by positivity)).2 (by rw [sq]; exact_mod_cast hlt)
  refine ⟨√a - isqrt a, by rw [hs, add_sub_cancel], by linarith, by linarith, ?_⟩
  rw [bne_iff_ne, not_iff_not, sub_eq_zero, Real.sqrt_eq_iff_mul_self_eq (Nat.cast_nonneg _) (Nat.cast_nonneg _), eq_comm]
  exact_mod_cast Iff.rfl

/-- The root of a × 2^(2 k), to 128 digits and more. -/
def rootEx (a : ℕ) (k : ℤ) : Ex :=
  { neg := false, mant := isqrt (a * 2 ^ 256), exp := k - 128, sticky := isqrt (a * 2 ^ 256) * isqrt (a * 2 ^ 256) != a * 2 ^ 256 }

/-- The root is taken of a magnitude with an even exponent. -/
theorem sqrtF_eq (t : Ty) (r : Rnd) {m : ℕ} (e : ℤ) (hm : m ≠ 0) : ∃ (a : ℕ) (k : ℤ), a ≠ 0 ∧ (m : ℝ) * 2 ^ e = a * 2 ^ (2 * k) ∧
    sqrtF t r (.fin false m e) = r.to t (rootEx a k) := by
  have hm' : (m == 0) = false := by simpa using hm
  rcases Int.emod_two_eq_zero_or_one e with h | h
  · refine ⟨m, e / 2, hm, by rw [Int.mul_ediv_cancel' (Int.dvd_of_emod_eq_zero h)], ?_⟩
    simp only [sqrtF, hm', h, rootEx, Bool.false_eq_true, if_false, bne_self_eq_false]
  · refine ⟨2 * m, (e - 1) / 2, Nat.mul_ne_zero two_ne_zero hm, ?_, ?_⟩
    · rw [Int.mul_ediv_cancel' (by omega), zpow_sub_one₀ two_ne_zero]
      push_cast
      ring
    · simp only [sqrtF, hm', h, rootEx, Bool.false_eq_true, if_false, bne_iff_ne, ne_eq, one_ne_zero, not_false_eq_true, if_true]

theorem roundsOnce_sqrtF (t : Ty) (r : Rnd) {m : ℕ} (e : ℤ) (hm : m ≠ 0) :
    RoundsOnce t r (√(valOf (.fin false m e) : ℚ)) (sqrtF t r (.fin false m e)) := by
  obtain ⟨a, k, ha, hval, he⟩ := sqrtF_eq t r e hm
  have hv : ((valOf (.fin false m e) : ℚ) : ℝ) = (a * 2 ^ 256 : ℕ) * 2 ^ (2 * (k - 128)) := by
    have : ((valOf (.fin false m e) : ℚ) : ℝ) = m * 2 ^ e := by simp [valOf_fin]
    rw [this, hval, mul_sub, zpow_sub₀ two_ne_zero]
    rw [Nat.cast_mul, Nat.cast_pow, Nat.cast_ofNat, show (2 : ℤ) * 128 = (256 : ℕ) from rfl, zpow_natCast]
    field_simp
  have hroot : 2 ^ 128 ≤ isqrt (a * 2 ^ 256) := by
    have hlt := (isqrt_spec (a * 2 ^ 256)).2
    by_contra hn
    have : isqrt (a * 2 ^ 256) + 1 ≤ 2 ^ 128 := Nat.not_le.1 hn
    have h2 : (isqrt (a * 2 ^ 256) + 1) * (isqrt (a * 2 ^ 256) + 1) ≤ 2 ^ 128 * 2 ^ 128 := Nat.mul_le_mul this this
    have h3 : 2 ^ 128 * 2 ^ 128 ≤ a * 2 ^ 256 := Nat.le_mul_of_pos_left _ (Nat.pos_of_ne_zero ha)
    omega
  rw [he]
  refine roundsOnce_to ?_ (Nat.ne_of_gt ((Nat.two_pow_pos _).trans_le hroot)) ?_ fun _ => ?_
  · rw [abs_of_nonneg (Real.sqrt_nonneg _)]
    exact stands_root hv
  · exact iff_of_false Bool.false_ne_true (not_lt.2 (Real.sqrt_nonneg _))
  · exact Nat.not_lt.1 fun h => absurd (bitLen_le_iff.1 (Nat.le_of_lt_succ h))
      (Nat.not_lt.2 ((Nat.pow_le_pow_right two_pos (by decide)).trans hroot))

end Sys2Proof
end

section
/-! SUPPORT. The number of a draw, conversions to integers, the Hadamard transform, and the rounding rules as the obligation states them (R40, R41, R45, R47, R60). -/

namespace Sys2Proof

/-! The rounding step on whole parts -/

theorem roundAt_whole (neg : Bool) (m k u : ℕ) (rm : RM) : ({ neg := neg, mant := m, exp := 0 } : Ex).roundAt k rm u =
    if m % 2 ^ k = 0 then (m / 2 ^ k, false)
    else (if rm.up neg u (m / 2 ^ k) (m % 2 ^ k) k false then m / 2 ^ k + 1 else m / 2 ^ k, true) := by
  have hm : ({ neg := neg, mant := m, exp := 0 } : Ex).parts k = m := by
    unfold Ex.parts
    dsimp only
    split
    · simp [show k = 0 by omega]
    · rfl
  rw [Ex.roundAt_eq _ _ _ _ hm (sh := k) (by simp), Bool.or_false]
  by_cases h : m % 2 ^ k = 0 <;> simp [h]

/-- The draw's two multiplications and shifts, on words and on their numbers. -/
theorem draw_mix (z c d : Word) :
    let v := z.toNat * c.toNat % 2 ^ 64
    let v := (v ^^^ v / 2 ^ 32) * d.toNat % 2 ^ 64
    ((z * c ^^^ (z * c) >>> 32) * d ^^^ ((z * c ^^^ (z * c) >>> 32) * d) >>> 29).toNat = v ^^^ v / 2 ^ 29 := by
  simp only [BitVec.toNat_ushiftRight, Nat.shiftRight_eq_div_pow, BitVec.toNat_xor, BitVec.toNat_mul]

theorem draw_eq (seed ctr : Word) (lane : ℕ) :
    let z := seed.toNat ^^^ (ctr.toNat * 256 + lane) % 2 ^ 64
    let z := z * 0xD1B54A32D192ED03 % 2 ^ 64
    let z := z ^^^ z / 2 ^ 32
    let z := z * 0xAEF17502108EF2D9 % 2 ^ 64
    let z := z ^^^ z / 2 ^ 29
    draw seed ctr lane = z / 2 ^ 40 := by
  have hz : (seed ^^^ (ctr * 256 + BitVec.ofNat 64 lane)).toNat = seed.toNat ^^^ (ctr.toNat * 256 + lane) % 2 ^ 64 := by
    rw [BitVec.toNat_xor, BitVec.toNat_add, BitVec.toNat_mul, BitVec.toNat_ofNat, ← Nat.add_mod]
    rfl
  intro z0 z1 z2 z3 z4
  have hmix := draw_mix (seed ^^^ (ctr * 256 + BitVec.ofNat 64 lane)) 0xD1B54A32D192ED03 0xAEF17502108EF2D9
  rw [hz] at hmix
  rw [draw, BitVec.toNat_ushiftRight, Nat.shiftRight_eq_div_pow]
  exact congrArg (· / 2 ^ 40) hmix

/-! Integer codes -/

theorem toSigned_emod (w a : ℕ) : ∃ z : ℤ, toSigned w a = a + 2 ^ w * z := by
  have h : (a : ℤ) = (a % 2 ^ w : ℕ) + 2 ^ w * (a / 2 ^ w : ℕ) := by exact_mod_cast (Nat.mod_add_div a (2 ^ w)).symm
  unfold toSigned
  dsimp only
  split
  · exact ⟨-(a / 2 ^ w : ℕ) - 1, by rw [h]; push_cast; ring⟩
  · exact ⟨-(a / 2 ^ w : ℕ), by rw [h]; push_cast; ring⟩

theorem wrapNat_lt (w : ℕ) (i : ℤ) : wrapNat w i < 2 ^ w := by
  have h0 := Int.emod_lt_of_pos i (show (0 : ℤ) < 2 ^ w by positivity)
  have h1 := Int.emod_nonneg i (show (2 : ℤ) ^ w ≠ 0 by positivity)
  have : ((2 ^ w : ℕ) : ℤ) = 2 ^ w := by push_cast; rfl
  unfold wrapNat
  omega

theorem wrapNat_of_range {w : ℕ} {i : ℤ} (h : 0 ≤ i) (h' : i < 2 ^ w) : (wrapNat w i : ℤ) = i := by
  rw [wrapNat, Int.emod_eq_of_lt h h', Int.toNat_of_nonneg h]

theorem toSigned_wrapNat {w : ℕ} {i : ℤ} (h : -(2 ^ w) ≤ i) (h' : i < 2 ^ w) : toSigned (w + 1) (wrapNat (w + 1) i) = i := by
  have hp : ((2 ^ w : ℕ) : ℤ) = 2 ^ w := by push_cast; rfl
  have hs : (2 : ℤ) ^ (w + 1) = 2 * 2 ^ w := by rw [pow_succ, mul_comm]
  have hn : 2 ^ (w + 1) = 2 * 2 ^ w := by rw [Nat.pow_succ, Nat.mul_comm]
  have hv : (wrapNat (w + 1) i : ℤ) = if i < 0 then i + 2 ^ (w + 1) else i := by
    split
    · have hm : i % 2 ^ (w + 1) = i + 2 ^ (w + 1) := by
        rw [← Int.add_emod_right, Int.emod_eq_of_lt (by omega) (by omega)]
      rw [wrapNat, hm, Int.toNat_of_nonneg (by omega)]
    · exact wrapNat_of_range (by omega) (by omega)
  have hlt := wrapNat_lt (w + 1) i
  generalize wrapNat (w + 1) i = a at hv hlt
  unfold toSigned
  dsimp only
  rw [Nat.mod_eq_of_lt hlt, Nat.add_sub_cancel]
  split <;> split at hv <;> omega

/-- A code of an integer in the type's range reads as it. -/
theorem ival_icode {t : Ty} {i : ℤ} (h : t.imin ≤ i) (h' : i ≤ t.imax) : t.ival (t.icode i) = i := by
  obtain ⟨w, hw⟩ : ∃ w, t.width = w + 1 := Nat.exists_eq_add_one.2 (by cases t <;> decide)
  unfold Ty.imin at h
  unfold Ty.imax at h'
  unfold Ty.ival Ty.icode
  cases hs : t.isSigned with
  | true =>
    rw [hs, if_pos rfl, hw, Nat.add_sub_cancel] at h h'
    rw [if_pos rfl, hw]
    exact toSigned_wrapNat h (by omega)
  | false =>
    rw [hs, if_neg Bool.false_ne_true] at h h'
    rw [if_neg Bool.false_ne_true, Nat.mod_eq_of_lt (wrapNat_lt ..)]
    exact wrapNat_of_range h (by omega)

theorem imin_le_imax (t : Ty) : t.imin ≤ t.imax := by cases t <;> decide

/-- A float rounded to an integer type: the integer that the mode picks, or the nearest bound. -/
theorem toInt_picks (t : Ty) (r : Rnd) (n : Bool) (m : ℕ) (e : ℤ) {k : ℕ} (hk : Picks r.rm n r.u ((m : ℝ) * 2 ^ e) k) {i : ℤ}
    (hi : i = if n then -(k : ℤ) else k) : toInt t r (.fin n m e) =
      if i < t.imin then (t.icode t.imin, fNV) else if t.imax < i then (t.icode t.imax, fNV)
      else (t.icode i, if (k : ℝ) = m * 2 ^ e then 0 else fNX) := by
  obtain ⟨hp, hx⟩ := Ex.picks_roundAt (Ex.stands_exact n m e) (q := 0) nofun r.rm r.u
  rw [zpow_zero, div_one] at hp hx
  obtain rfl := picks_unique hp hk
  subst hi
  have hfl : (if (({ neg := n, mant := m, exp := e } : Ex).roundAt 0 r.rm r.u).2 = true then fNX else 0) =
      if ((({ neg := n, mant := m, exp := e } : Ex).roundAt 0 r.rm r.u).1 : ℝ) = m * 2 ^ e then 0 else fNX := by
    rw [ite_cond_congr (propext hx), ite_not]
  rw [← hfl]
  rfl

/-! Exact sums over lists of finite values -/

/-- A finite value by its sign, magnitude and exponent. -/
def finVal (p : Bool × ℕ × ℤ) : FV := .fin p.1 p.2.1 p.2.2

theorem exists_finVals {xs : List FV} (h : ∀ v ∈ xs, ∃ n m e, v = .fin n m e) : ∃ l : List (Bool × ℕ × ℤ), xs = l.map finVal := by
  induction xs with
  | nil => exact ⟨[], rfl⟩
  | cons v xs ih =>
    obtain ⟨n, m, e, rfl⟩ := h v List.mem_cons_self
    obtain ⟨l, rfl⟩ := ih fun w hw => h w (List.mem_cons_of_mem _ hw)
    exact ⟨(n, m, e) :: l, rfl⟩

/-- What no finite value is, none of a list of them is. -/
theorem any_finVal {p : FV → Bool} (hp : ∀ n m e, p (.fin n m e) = false) (l : List (Bool × ℕ × ℤ)) : (l.map finVal).any p = false := by
  rw [List.any_eq_false]
  intro v hv
  obtain ⟨q, -, rfl⟩ := List.mem_map.1 hv
  rw [finVal, hp]
  exact Bool.false_ne_true

theorem filterMap_finVal {g : FV → Option (Bool × ℕ × ℤ)} (hg : ∀ n m e, g (.fin n m e) = some (n, m, e)) (l : List (Bool × ℕ × ℤ)) :
    (l.map finVal).filterMap g = l := by
  rw [List.filterMap_map]
  exact (List.filterMap_congr fun q _ => hg q.1 q.2.1 q.2.2).trans List.filterMap_some

theorem popBits_eq (n x : ℕ) : popBits n x = ((List.range n).filter x.testBit).length := by
  induction n generalizing x with
  | zero => rfl
  | succ n ih =>
    rw [popBits, ih, List.range_succ_eq_map, List.filter_cons, List.filter_map, Nat.testBit_zero]
    have hs : (fun k => (x / 2).testBit k) = x.testBit ∘ Nat.succ := by
      funext k
      rw [Function.comp, Nat.testBit_succ]
    rcases Nat.mod_two_eq_zero_or_one x with h | h
    · simp [h, ← hs]
    · simp [h, ← hs, Nat.add_comm]

theorem hadNeg_eq (i j : ℕ) : hadNeg i j = (((List.range 8).filter fun b => i.testBit b && j.testBit b).length % 2 == 1) := by
  have h : (i &&& j).testBit = fun b => i.testBit b && j.testBit b := funext fun b => Nat.testBit_and ..
  rw [hadNeg, popBits_eq, h]

/-! The Hadamard transform -/

/-- The terms of output i: element j with the sign of i and j. -/
def hadTerms (l : List (Bool × ℕ × ℤ)) (i : ℕ) : List (Bool × ℕ × ℤ) :=
  (l.zip (List.range l.length)).map fun p => (hadNeg i p.2 ^^ p.1.1, p.1.2)

theorem hadOut_eq (t : Ty) (r : Rnd) (l : List (Bool × ℕ × ℤ)) (i : ℕ) :
    ∃ zero, hadOut t r (l.map finVal) i = sumRounded t r zero (hadTerms l i) := by
  have hts : (((l.map finVal).zip (List.range (l.map finVal).length)).map fun p => if hadNeg i p.2 then p.1.negate else p.1) =
      (hadTerms l i).map finVal := by
    rw [List.length_map, List.zip_map_left, List.map_map, hadTerms, List.map_map]
    refine List.map_congr_left fun ⟨⟨n, m, e⟩, j⟩ _ => ?_
    change (if hadNeg i j = true then FV.fin (!n) m e else FV.fin n m e) = FV.fin (hadNeg i j ^^ n) m e
    cases hadNeg i j
    · rw [Bool.false_xor, if_neg Bool.false_ne_true]
    · rw [Bool.true_xor, if_pos rfl]
  refine ⟨zeroSign r.rm ((hadTerms l i).all fun f => f.2.1 == 0 && f.1), ?_⟩
  unfold hadOut
  dsimp only
  rw [hts, any_finVal, any_finVal, any_finVal, filterMap_finVal]
  · rfl
  all_goals exact fun _ _ _ => rfl

theorem sum_hadTerms (l : List (Bool × ℕ × ℤ)) (i : ℕ) : ((hadTerms l i).map termVal).sum =
    ((List.range (l.map finVal).length).map fun j => (if hadNeg i j then -1 else 1) * valOf ((l.map finVal).getD j (.fin false 0 0))).sum := by
  congr 1
  refine List.ext_getElem (by simp [hadTerms]) fun j hj hj' => ?_
  have hjl : j < l.length := by simpa using hj'
  simp only [hadTerms, List.getElem_map, List.getElem_zip, List.getElem_range, termVal]
  rw [List.getD_eq_getElem _ _ (by simpa using hjl), List.getElem_map, finVal, valOf_fin, valOf_fin]
  cases hadNeg i j <;> cases l[j].1 <;> simp

end Sys2Proof
end

section
/-! SUPPORT. The rules of rounding and of the arithmetic as the obligation states them. -/

namespace Sys2Proof

open Sys2Proof.Machine

/-! The table of R40 -/

/-- The neighbour that each mode takes. -/
theorem round_whole (neg : Bool) (m k u : ℕ) (rm : RM) :
    let r := ({ neg := neg, mant := m, exp := 0 } : Ex).roundAt k rm u
    let lo := m / 2 ^ k
    let rest := m % 2 ^ k
    (rest = 0 → r = (lo, false)) ∧
    (rest ≠ 0 → r.2 = true ∧ (r.1 = lo ∨ r.1 = lo + 1) ∧
      (rm = .rtz → r.1 = lo) ∧
      (rm = .rdn → (r.1 = lo + 1 ↔ neg = true)) ∧ (rm = .rup → (r.1 = lo + 1 ↔ neg = false)) ∧
      (rm = .rod → r.1 % 2 = 1) ∧
      (rm = .rne → (2 * rest < 2 ^ k → r.1 = lo) ∧ (2 ^ k < 2 * rest → r.1 = lo + 1) ∧ (2 * rest = 2 ^ k → r.1 % 2 = 0)) ∧
      (rm = .rna → (2 * rest < 2 ^ k → r.1 = lo) ∧ (2 ^ k ≤ 2 * rest → r.1 = lo + 1)) ∧
      ((rm = .sa ∨ rm = .sb) → neg = false → (r.1 = lo + 1 ↔ 2 ^ 24 ≤ rest * 2 ^ 24 / 2 ^ k + u))) := by
  intro r lo rest
  refine ⟨fun h0 => (roundAt_whole neg m k u rm).trans (if_pos h0), fun h0 => ?_⟩
  have hr : r = (if rm.up neg u lo rest k false then lo + 1 else lo, true) := (roundAt_whole neg m k u rm).trans (if_neg h0)
  rw [hr]
  clear_value r lo rest
  have hone (b : Bool) : (if b = true then lo + 1 else lo) = lo + 1 ↔ b = true := by cases b <;> simp
  refine ⟨rfl, by cases rm.up neg u lo rest k false <;> simp, ?_, ?_, ?_, ?_, ?_, ?_, ?_⟩
  · rintro rfl
    rfl
  · rintro rfl
    exact hone neg
  · rintro rfl
    rw [hone, RM.up, Bool.not_eq_true']
  · rintro rfl
    simp only [RM.up, beq_iff_eq]
    split <;> omega
  · rintro rfl
    simp only [RM.up, Bool.and_false, Bool.or_false, Bool.not_false, Bool.and_true, Bool.or_eq_true, Bool.and_eq_true, decide_eq_true_eq, beq_iff_eq]
    refine ⟨fun h => if_neg (by omega), fun h => if_pos (by omega), fun h => ?_⟩
    split <;> omega
  · rintro rfl
    simp only [RM.up, Bool.and_false, Bool.or_false, Bool.not_false, Bool.and_true, Bool.or_eq_true, decide_eq_true_eq, beq_iff_eq]
    exact ⟨fun h => if_neg (by omega), fun h => if_pos (by omega)⟩
  · rintro (rfl | rfl) rfl
    · rw [hone]
      simp [RM.up]
    · rw [hone]
      simp [RM.up]

/-! The draw of a lane -/

theorem rnd_sa (x : Ctx) (rm : RM) (sat : Bool) (l : ℕ) (h : rm = .sa) : (x.rnd rm sat l).u = draw x.sra.seed x.sra.ctr l := by
  subst h
  simp only [Ctx.rnd, RM.stochastic, Ctx.source, if_true, reduceCtorEq, if_false]

theorem rnd_sb (x : Ctx) (rm : RM) (sat : Bool) (l : ℕ) (h : rm = .sb) : (x.rnd rm sat l).u = draw x.srb.seed x.srb.ctr l := by
  subst h
  simp only [Ctx.rnd, RM.stochastic, Ctx.source, if_true]

/-! Special values -/

theorem isFloat_fmt {t : Ty} (h : t.isFloat = true) : fmtOf t ≠ none := by
  revert h; cases t <;> decide

/-- Infinity in the types of R143. -/
theorem infCode_eq {t : Ty} (h : t.isFloat = true) (r : Rnd) (neg : Bool) : infCode t r neg = (t.ffmt.code neg (2 ^ t.ffmt.eb - 1) 0, 0) := by
  cases t with
  | f16 | bf16 | f32 | f64 => rfl
  | _ => exact absurd h Bool.false_ne_true

theorem unpackF_infCode {t : Ty} (h : t.isFloat = true) (r : Rnd) (neg : Bool) : unpackF t (infCode t r neg).1 = .inf neg := by
  rw [infCode_eq h]
  exact unpackF_inf neg (isFloat_fmt h) (by revert h; cases t <;> decide)

/-- A division by 0. -/
theorem divF_zero (t : Ty) (r : Rnd) (n n' : Bool) (m : ℕ) (e e' : ℤ) : divF t r (.fin n m e) (.fin n' 0 e') =
    if m = 0 then (t.nan, fNV) else ((infCode t r (n != n')).1, (infCode t r (n != n')).2 ||| fDZ) := by
  have h : divF t r (.fin n m e) (.fin n' 0 e') =
      if (m == 0) = true then (t.nan, fNV) else ((infCode t r (n != n')).1, (infCode t r (n != n')).2 ||| fDZ) := rfl
  simpa using h

theorem sqrtF_zero (t : Ty) (r : Rnd) (n : Bool) (e : ℤ) : sqrtF t r (.fin n 0 e) = r.to t { neg := n, mant := 0, exp := 0 } := by
  simp only [sqrtF, beq_self_eq_true, if_true]

theorem sqrtF_neg (t : Ty) (r : Rnd) {m : ℕ} (e : ℤ) (hm : m ≠ 0) : sqrtF t r (.fin true m e) = (t.nan, fNV) := by
  rw [sqrtF, if_neg (by simpa using hm), if_pos rfl]

theorem sigFlag_two (n : Bool) (v : FV) : sigFlag [.nan n, v] = if n = true ∨ v.isSig = true then fNV else 0 := by
  cases n <;> cases h : v.isSig <;> simp [sigFlag, h, show ∀ b, (FV.nan b).isSig = b from fun _ => rfl]

/-- A conversion to an integer type by its result in the type's range, below it and above it. -/
theorem toInt_cases (t : Ty) (r : Rnd) (n : Bool) (m : ℕ) (e : ℤ) {k : ℕ} (hk : Picks r.rm n r.u ((m : ℝ) * 2 ^ e) k) :
    let res := toInt t r (.fin n m e)
    let i : ℤ := if n then -k else k
    (i < t.imin → t.ival res.1 = t.imin ∧ res.2 = fNV) ∧ (t.imax < i → t.ival res.1 = t.imax ∧ res.2 = fNV) ∧
      (t.imin ≤ i → i ≤ t.imax → t.ival res.1 = i ∧ ((k : ℝ) = m * 2 ^ e → res.2 = 0) ∧ ((k : ℝ) ≠ m * 2 ^ e → res.2 = fNX)) := by
  intro res i
  have hres : res = _ := toInt_picks t r n m e hk (i := i) rfl
  have hb := imin_le_imax t
  rw [hres]
  refine ⟨fun h => ?_, fun h => ?_, fun h h' => ?_⟩
  · rw [if_pos h]
    exact ⟨ival_icode le_rfl hb, rfl⟩
  · rw [if_neg (by omega), if_pos h]
    exact ⟨ival_icode hb le_rfl, rfl⟩
  · rw [if_neg (by omega), if_neg (by omega)]
    exact ⟨ival_icode h h', fun he => if_pos he, fun he => if_neg he⟩

theorem convertScaled_fin {t : Ty} (ht : fmtOf t ≠ none) (r : Rnd) (n : Bool) (m : ℕ) (e d : ℤ) :
    convertScaled t r (.fin n m e) d = r.to t { neg := n, mant := m, exp := e + d } := by
  cases t with
  | f16 | bf16 | f32 | f64 | e5m2 | e4m3 | e3m2 | e2m3 | e2m1 => rfl
  | _ => exact absurd rfl ht

theorem valOf_scaled (n : Bool) (m : ℕ) (e d : ℤ) : valOf (.fin n m (e + d)) = valOf (.fin n m e) * 2 ^ d := by
  rw [valOf_fin, valOf_fin, zpow_add₀ two_ne_zero]
  ring

/-- Settles O28: whatever is exact stands as a magnitude with a sign, and a magnitude is rounded once; the rest are the special values, the draw and the integer types. -/
theorem roundingFollowsTheMode : Obligations.RoundingFollowsTheMode := by
  refine ⟨fun neg m k u rm => ?_, draw_eq, fun x rm sat l => ?_, fun t r n m e ht => ?_,
    fun t r n n' n'' m m' m'' e e' e'' ht => ?_, fun t r n m e d ht => ?_, fun t r n m k e ht hk => ?_, fun t r xs i ht hxs => ?_⟩
  · exact round_whole neg m k u rm
  · exact ⟨rfl, rfl, rnd_sa x rm sat l, rnd_sb x rm sat l⟩
  · have h := once_fin ht r n m e
    exact ⟨fun hm => h.1 (mt valOf_eq_zero_iff.1 hm), fun hm => h.2 (valOf_eq_zero_iff.2 hm)⟩
  · have hf := isFloat_fmt ht
    refine ⟨once_addF hf r .., once_mulF hf r .., once_fmaF hf r .., fun hm' => once_divF hf r n n' m m' e e' hm', ?_, ?_, ?_, ?_, ?_, ?_, ?_, ?_, ?_⟩
    · rintro rfl hm
      rw [divF_zero, if_neg hm]
      exact ⟨unpackF_infCode ht r _, by rw [infCode_eq ht]; exact BitVec.zero_or⟩
    · rintro rfl rfl
      exact divF_zero ..
    · rintro rfl hm
      exact roundsOnce_sqrtF t r e hm
    · rintro rfl hm
      exact sqrtF_neg t r e hm
    · rintro rfl
      rw [sqrtF_zero]
      exact isZero_to hf r n 0
    · cases n <;> rfl
    · rfl
    · rintro rfl z
      exact ⟨rfl, rfl⟩
    · intro v
      rw [← sigFlag_two]
      exact ⟨rfl, rfl, rfl⟩
  · have h := once_fin ht r n m (e + d)
    rw [valOf_scaled, ← convertScaled_fin ht] at h
    have hz : valOf (.fin n m e) * 2 ^ d = 0 ↔ m = 0 := by rw [← valOf_scaled, valOf_eq_zero_iff]
    exact ⟨fun hm => h.1 (mt hz.1 hm), fun hm => h.2 (hz.2 hm)⟩
  · exact toInt_cases t r n m e hk
  · obtain ⟨l, rfl⟩ := exists_finVals hxs
    obtain ⟨zero, hz⟩ := hadOut_eq t r l i
    have h := once_sumRounded (t := t) (by rcases ht with rfl | rfl <;> decide) r zero (hadTerms l i)
    rw [sum_hadTerms, ← hz] at h
    simp only [hadNeg_eq] at h
    exact ⟨h.1, fun hX => ⟨zero, h.2 hX⟩⟩

end Sys2Proof
end

section
/-! SUPPORT. Signed digits: the digits and the value of an element, the elements packed from digits, carry-free addition and comparison (R50-R53). -/

namespace Sys2Proof
open Sys2Proof.Machine

/-! Digits, first to last, and their value in units of the last -/

/-- The value of digits, the first of which counts most. -/
def digitVal : List ℤ → ℤ
  | [] => 0
  | d :: ds => d * 2 ^ ds.length + digitVal ds

/-- Each is a digit −1, 0 or 1. -/
def AreDigits (ds : List ℤ) : Prop := ∀ d ∈ ds, -1 ≤ d ∧ d ≤ 1

theorem digitVal_append (as bs : List ℤ) : digitVal (as ++ bs) = digitVal as * 2 ^ bs.length + digitVal bs := by
  induction as with
  | nil => simp [digitVal]
  | cons a as ih =>
    rw [List.cons_append, digitVal, digitVal, ih, List.length_append, pow_add]
    ring

theorem foldl_digitVal (ds : List ℤ) (a : ℤ) : ds.foldl (fun a d => 2 * a + d) a = a * 2 ^ ds.length + digitVal ds := by
  induction ds generalizing a with
  | nil => simp [digitVal]
  | cons d ds ih =>
    rw [List.foldl_cons, ih, digitVal, List.length_cons, pow_succ]
    ring

/-- Digits written from the last on have the sum of their places as their value. -/
theorem digitVal_reverse (n : ℕ) (f : ℕ → ℤ) :
    digitVal ((List.range n).map f).reverse = ((List.range n).map fun k => f k * 2 ^ k).sum := by
  induction n with
  | zero => rfl
  | succ n ih =>
    rw [List.range_succ, List.map_append, List.map_append, List.reverse_append, List.map_singleton, List.reverse_singleton,
      List.singleton_append, digitVal, ih, List.sum_append, List.length_reverse, List.length_map, List.length_range, List.map_singleton,
      List.sum_singleton, add_comm]

/-- Digits stay within their places. -/
theorem abs_digitVal_le {ds : List ℤ} (h : AreDigits ds) : -(2 ^ ds.length - 1) ≤ digitVal ds ∧ digitVal ds ≤ 2 ^ ds.length - 1 := by
  induction ds with
  | nil => simp [digitVal]
  | cons d ds ih =>
    obtain ⟨hd, hd'⟩ := h d List.mem_cons_self
    obtain ⟨hl, hu⟩ := ih fun e he => h e (List.mem_cons_of_mem _ he)
    have hp : (0 : ℤ) < 2 ^ ds.length := by positivity
    rw [digitVal, List.length_cons, pow_succ]
    constructor <;> nlinarith

/-! The digits of an element -/

/-- The two bits of digit k, counted from the last. -/
def sdCode (w : Word) (k : ℕ) : ℕ := w.toNat / 2 ^ (2 * k) % 4

theorem sdCode_bits (w : Word) (k : ℕ) :
    w.getLsbD (2 * k) = decide (sdCode w k % 2 = 1) ∧ w.getLsbD (2 * k + 1) = decide (sdCode w k / 2 = 1) := by
  unfold sdCode
  rw [BitVec.getLsbD, BitVec.getLsbD, Nat.testBit_eq_decide_div_mod_eq, Nat.testBit_eq_decide_div_mod_eq, Nat.pow_succ, ← Nat.div_div_eq_div_mul]
  generalize w.toNat / 2 ^ (2 * k) = a
  constructor <;> congr 1 <;> rw [eq_iff_iff] <;> omega

theorem sdCode_lt (w : Word) (k : ℕ) : sdCode w k < 4 := Nat.mod_lt _ (by decide)

theorem sdDigit_eq (w : Word) (k : ℕ) : sdDigit w k = if sdCode w k = 1 then 1 else if sdCode w k = 3 then -1 else 0 := by
  obtain ⟨h0, h1⟩ := sdCode_bits w k
  have := sdCode_lt w k
  unfold sdDigit
  rw [h0, h1]
  generalize sdCode w k = c at this
  interval_cases c <;> rfl

theorem sdBad_iff (w : Word) : SdBad w ↔ ∃ k, k < 32 ∧ sdCode w k = 2 := by
  refine exists_congr fun k => and_congr_right fun _ => ?_
  obtain ⟨h0, h1⟩ := sdCode_bits w k
  have := sdCode_lt w k
  rw [h0, h1, decide_eq_true_eq, decide_eq_false_iff_not]
  omega

/-- The digits of an element, first to last. -/
def sdList (w : Word) : List ℤ := ((List.range 32).map (sdDigit w)).reverse

@[simp] theorem length_sdList (w : Word) : (sdList w).length = 32 := by simp [sdList]

theorem sdValue_eq (w : Word) : sdValue w = digitVal (sdList w) := (digitVal_reverse 32 (sdDigit w)).symm

theorem areDigits_sdList (w : Word) : AreDigits (sdList w) := by
  intro d hd
  obtain ⟨k, -, rfl⟩ := List.mem_map.1 (List.mem_reverse.1 hd)
  rw [sdDigit_eq]
  split_ifs <;> decide

theorem length_sdDigits (w : Word) : (sdDigits w).length = 32 := by simp [sdDigits]

/-- The model's digits of an element, each by its two bits. -/
theorem getElem_sdDigits (w : Word) (i : ℕ) (h : i < (sdDigits w).length) :
    (sdDigits w)[i] = if sdCode w (31 - i) = 2 then none else some (sdDigit w (31 - i)) := by
  have hi : i < 32 := by rwa [length_sdDigits] at h
  have hc : (w >>> (62 - 2 * i)).toNat % 4 = sdCode w (31 - i) := by
    rw [BitVec.toNat_ushiftRight, Nat.shiftRight_eq_div_pow, sdCode, show 62 - 2 * i = 2 * (31 - i) by omega]
  simp only [sdDigits, List.getElem_map, List.getElem_range, sdDigit_eq]
  rw [hc]
  have := sdCode_lt w (31 - i)
  generalize sdCode w (31 - i) = c at this
  interval_cases c <;> rfl

theorem sdDigits_of_not_bad {w : Word} (h : ¬ SdBad w) : sdDigits w = (sdList w).map some := by
  refine List.ext_getElem (by simp [length_sdDigits]) fun i hi _ => ?_
  have hi' : i < 32 := by rwa [length_sdDigits] at hi
  rw [getElem_sdDigits, if_neg fun hc => h ((sdBad_iff w).2 ⟨31 - i, by omega, hc⟩)]
  simp [sdList]

theorem contains_none_iff (w : Word) : (sdDigits w).contains none = true ↔ SdBad w := by
  rw [List.contains_iff_mem, sdBad_iff, List.mem_iff_getElem]
  constructor
  · rintro ⟨i, hi, h⟩
    rw [getElem_sdDigits] at h
    exact ⟨31 - i, by omega, by by_contra hn; rw [if_neg hn] at h; cases h⟩
  · rintro ⟨k, hk, h⟩
    refine ⟨31 - k, by rw [length_sdDigits]; omega, ?_⟩
    rw [getElem_sdDigits, show 31 - (31 - k) = k by omega, if_pos h]

/-! Elements packed from digits -/

/-- The two bits of a digit. -/
def digitCode (d : ℤ) : ℕ := if d = 1 then 1 else if d = -1 then 3 else 0

/-- Packed digits are lanes of two bits, the last digit lowest. -/
theorem sdPack_eq (ls : List ℤ) : sdPack ls.reverse = BitVec.ofNat 64 (packGo 2 (ls.map digitCode)) := by
  rw [sdPack, List.foldl_reverse]
  induction ls with
  | nil => rfl
  | cons d ls ih =>
    rw [List.foldr_cons, ih, List.map_cons, packGo, digitCode]
    generalize packGo 2 (ls.map digitCode) = p
    split_ifs <;> exact BitVec.eq_of_toNat_eq (by simp; omega)

theorem digitCode_lt (d : ℤ) : digitCode d < 4 := by unfold digitCode; split_ifs <;> decide

theorem sdCode_pack {ls : List ℤ} (hl : ls.length = 32) {k : ℕ} (hk : k < ls.length) : sdCode (sdPack ls.reverse) k = digitCode ls[k] := by
  have hp := packGo_lt 2 (ls.map digitCode)
  rw [List.length_map, hl] at hp
  rw [sdCode, sdPack_eq, BitVec.toNat_ofNat, Nat.mod_eq_of_lt hp]
  have := packGo_lane 2 (ls.map digitCode) k (by rwa [List.length_map])
  rwa [List.getElem_map, show (2 ^ 2 : ℕ) = 4 from rfl, Nat.mod_eq_of_lt (digitCode_lt _)] at this

/-- The digits of an element packed from digits are those. -/
theorem sdList_pack {ds : List ℤ} (hl : ds.length = 32) (h : AreDigits ds) : ¬ SdBad (sdPack ds) ∧ sdList (sdPack ds) = ds := by
  have hr : ds.reverse.length = 32 := by rwa [List.length_reverse]
  have hc (k : ℕ) (hk : k < ds.reverse.length) : sdCode (sdPack ds) k = digitCode ds.reverse[k] := by
    rw [← sdCode_pack hr hk, List.reverse_reverse]
  constructor
  · rw [sdBad_iff]
    rintro ⟨k, hk, hb⟩
    rw [hc k (hk.trans_eq hr.symm), digitCode] at hb
    split_ifs at hb <;> omega
  · refine List.reverse_injective (List.ext_getElem (by simp [hl]) fun k _ hk => ?_)
    obtain ⟨hd, hd'⟩ := h _ (List.mem_reverse.1 (List.getElem_mem hk))
    simp only [sdList, List.reverse_reverse, List.getElem_map, List.getElem_range]
    rw [sdDigit_eq, hc k hk]
    generalize ds.reverse[k] = d at hd hd' ⊢
    have : digitCode d = if d = 1 then 1 else if d = -1 then 3 else 0 := rfl
    split_ifs at * <;> omega

/-- An element packed from digits has no bad digit, and their value. -/
theorem sdPack_spec {ds : List ℤ} (hl : ds.length = 32) (h : AreDigits ds) : ¬ SdBad (sdPack ds) ∧ sdValue (sdPack ds) = digitVal ds := by
  obtain ⟨hb, he⟩ := sdList_pack hl h
  exact ⟨hb, by rw [sdValue_eq, he]⟩

/-! The non-redundant form (R51) -/

theorem sum_bitOf (x n : ℕ) : ((List.range n).map fun k => (if bitOf x k then 1 else 0 : ℤ) * 2 ^ k).sum = (x % 2 ^ n : ℕ) := by
  induction n with
  | zero => simp [Nat.mod_one]
  | succ n ih =>
    rw [List.range_succ, List.map_append, List.sum_append, ih, Nat.mod_pow_succ]
    rcases Nat.mod_two_eq_zero_or_one (x / 2 ^ n) with h | h <;> simp [bitOf, h]

/-- The digits of a number's bits, with its sign. -/
theorem sdOfNat_spec (neg : Bool) {x : ℕ} (hx : x < 2 ^ 32) :
    ¬ SdBad (sdOfNat neg x) ∧ sdValue (sdOfNat neg x) = (if neg then -1 else 1) * (x : ℤ) := by
  let f (k : ℕ) : ℤ := if bitOf x k then (if neg then -1 else 1) else 0
  have hf (k : ℕ) : f k = (if neg then -1 else 1) * (if bitOf x k then 1 else 0) := by simp [f]
  have he : sdOfNat neg x = sdPack ((List.range 32).map f).reverse := by
    rw [sdOfNat]
    refine congrArg sdPack (List.ext_getElem (by simp) fun i hi _ => ?_)
    simp [f]
  have hd : AreDigits ((List.range 32).map f).reverse := by
    intro d hd
    obtain ⟨k, -, rfl⟩ := List.mem_map.1 (List.mem_reverse.1 hd)
    simp only [f]
    split_ifs <;> decide
  obtain ⟨hb, hv⟩ := sdPack_spec (by simp) hd
  rw [he]
  refine ⟨hb, hv.trans ?_⟩
  rw [digitVal_reverse]
  simp only [hf, mul_assoc]
  rw [List.sum_map_mul_left, sum_bitOf, Nat.mod_eq_of_lt hx]

/-- The order key of an f32 code: the code with bit 31 set, or the complement of a negative one. -/
theorem orderKey_eq {p : ℕ} (h : p < 2 ^ 32) : orderKey p = if p < 2 ^ 31 then p + 2 ^ 31 else 2 ^ 32 - 1 - p := by
  have hp : (BitVec.ofNat 32 p).toNat = p := by rw [BitVec.toNat_ofNat, Nat.mod_eq_of_lt h]
  have hb : bitOf p 31 = decide (2 ^ 31 ≤ p) := by rw [bitOf, Bool.eq_iff_iff, beq_iff_eq, decide_eq_true_eq]; omega
  rw [orderKey, hb]
  by_cases hl : p < 2 ^ 31
  · have hd : (p ^^^ 2 ^ 31) / 2 ^ 31 = 1 := by rw [Nat.xor_div_two_pow, Nat.div_eq_of_lt hl, Nat.div_self (by positivity), Nat.zero_xor]
    have hm : (p ^^^ 2 ^ 31) % 2 ^ 31 = p := by rw [Nat.xor_mod_two_pow, Nat.mod_self, Nat.xor_zero, Nat.mod_eq_of_lt hl]
    rw [if_neg (by simpa using hl), if_pos hl, show 0x80000000 = 2 ^ 31 from rfl]
    omega
  · rw [if_pos (by simpa using hl), if_neg hl]
    have := congrArg BitVec.toNat (BitVec.xor_allOnes (x := BitVec.ofNat 32 p))
    rwa [BitVec.toNat_xor, BitVec.toNat_not, BitVec.toNat_allOnes, hp] at this

/-- The element of a source value (R51). -/
theorem sdOf_spec (t : Ty) (ht : t = .n32 ∨ t = .i32 ∨ t = .f32) {p : ℕ} (hp : p < 2 ^ 32) :
    ¬ SdBad (sdOf t p) ∧ sdValue (sdOf t p) = if t = .i32 then toSigned 32 p else if t = .n32 then (p : ℤ)
      else if p < 2 ^ 31 then (p : ℤ) + 2 ^ 31 else 2 ^ 32 - 1 - (p : ℤ) := by
  obtain rfl | rfl | rfl := ht
  · obtain ⟨hb, hv⟩ := sdOfNat_spec false hp
    simp only [sdOf, Nat.mod_eq_of_lt hp]
    exact ⟨hb, by rw [hv]; simp⟩
  · have hr : -(2 ^ 31) ≤ toSigned 32 p ∧ toSigned 32 p < 2 ^ 31 := by
      unfold toSigned; simp only; split_ifs <;> omega
    obtain ⟨hb, hv⟩ := sdOfNat_spec (toSigned 32 p < 0) (x := (toSigned 32 p).natAbs) (by omega)
    refine ⟨hb, hv.trans ?_⟩
    simp only [decide_eq_true_eq, if_true]
    split_ifs <;> omega
  · have hk : orderKey p < 2 ^ 32 := by rw [orderKey_eq hp]; split_ifs <;> omega
    obtain ⟨hb, hv⟩ := sdOfNat_spec false hk
    simp only [sdOf, Nat.mod_eq_of_lt hp]
    refine ⟨hb, hv.trans ?_⟩
    simp only [orderKey_eq hp, Bool.false_eq_true, if_false, reduceCtorEq, one_mul]
    split_ifs <;> omega

/-! Carry-free addition (R52) -/

/-- What the interim digit before a position may be, where the sum at the position is p. -/
def InterimFits (w p : ℤ) : Prop := (0 ≤ p → w = -1 ∨ w = 0) ∧ (p < 0 → w = 0 ∨ w = 1)

/-- The digits of a sum: an interim digit and the transfer from the position after it. -/
def sdSumDigits (w : ℤ) (ps : List ℤ) : List ℤ :=
  ((w :: (sdSums ps).map Prod.snd).zip ((sdSums ps).map Prod.fst)).map fun d => d.1 + d.2

theorem sdSums_cons (p : ℤ) (ps : List ℤ) : sdSums (p :: ps) = sdStep p (ps.headD 0) :: sdSums ps := by
  cases ps <;> rfl

theorem sdSumDigits_cons (w p : ℤ) (ps : List ℤ) :
    sdSumDigits w (p :: ps) = (w + (sdStep p (ps.headD 0)).1) :: sdSumDigits (sdStep p (ps.headD 0)).2 ps := by
  rw [sdSumDigits, sdSums_cons]
  rfl

/-- Two of the transfer and the interim digit are the sum; no position carries further. -/
theorem sdStep_spec {w p : ℤ} (q : ℤ) (hp : -2 ≤ p ∧ p ≤ 2) (hw : InterimFits w p) :
    2 * (sdStep p q).1 + (sdStep p q).2 = p ∧ (-1 ≤ w + (sdStep p q).1 ∧ w + (sdStep p q).1 ≤ 1) ∧ InterimFits (sdStep p q).2 q := by
  obtain ⟨hl, hu⟩ := hp
  obtain ⟨hw, hw'⟩ := hw
  unfold InterimFits sdStep
  split_ifs <;> refine ⟨?_, ?_, ?_, ?_⟩ <;> simp <;> omega

theorem sdSumDigits_spec (ps : List ℤ) (hp : ∀ p ∈ ps, -2 ≤ p ∧ p ≤ 2) (w : ℤ) (hw : InterimFits w (ps.headD 0)) :
    (sdSumDigits w ps).length = ps.length ∧ AreDigits (sdSumDigits w ps) ∧
    ∃ e : ℤ, -1 ≤ e ∧ e ≤ 1 ∧ 2 * digitVal (sdSumDigits w ps) = w * 2 ^ ps.length + digitVal ps - e := by
  induction ps generalizing w with
  | nil =>
    have hw := hw.1 le_rfl
    exact ⟨rfl, List.forall_mem_nil _, w, by omega, by omega, by simp [sdSumDigits, sdSums, digitVal]⟩
  | cons p ps ih =>
    obtain ⟨hsum, hdig, hfit⟩ := sdStep_spec (ps.headD 0) (hp p List.mem_cons_self) hw
    obtain ⟨hlen, hds, e, he, he', hval⟩ := ih (fun q hq => hp q (List.mem_cons_of_mem _ hq)) _ hfit
    rw [sdSumDigits_cons]
    refine ⟨congrArg Nat.succ hlen, ?_, e, he, he', ?_⟩
    · intro d hd
      obtain rfl | hd := List.mem_cons.1 hd
      · exact hdig
      · exact hds d hd
    · rw [digitVal, digitVal, hlen, List.length_cons, pow_succ, mul_add, hval]
      linear_combination 2 ^ ps.length * hsum

theorem digitVal_zipSum {as bs : List ℤ} (h : as.length = bs.length) :
    digitVal ((as.zip bs).map fun d => d.1 + d.2) = digitVal as + digitVal bs := by
  induction as generalizing bs with
  | nil => cases bs <;> simp_all [digitVal]
  | cons a as ih =>
    cases bs with
    | nil => simp at h
    | cons b bs =>
      have hl : as.length = bs.length := by simpa using h
      rw [List.zip_cons_cons, List.map_cons, digitVal, digitVal, digitVal, ih hl, List.length_map, List.length_zip, hl, min_self]
      ring

/-- A bad digit gives the element of bad digits and NV. -/
theorem sdAdd_bad {a b : Word} (h : SdBad a ∨ SdBad b) : sdAdd a b = (sdBad, fNV) := by
  simp only [sdAdd]
  rw [if_pos (by rw [Bool.or_eq_true, contains_none_iff, contains_none_iff]; exact h)]

/-- The sum is the exact one to within the last digit, which the result does not keep. -/
theorem sdAdd_spec {a b : Word} (ha : ¬ SdBad a) (hb : ¬ SdBad b) :
    ¬ SdBad (sdAdd a b).1 ∧ (sdValue a + sdValue b - 2 * sdValue (sdAdd a b).1).natAbs ≤ 1 := by
  let ps := ((sdList a).zip (sdList b)).map fun d => d.1 + d.2
  have he : (sdAdd a b).1 = sdPack (sdSumDigits 0 ps) := by
    simp only [sdAdd]
    rw [if_neg (by rw [Bool.or_eq_true, contains_none_iff, contains_none_iff]; exact not_or.2 ⟨ha, hb⟩), sdDigits_of_not_bad ha,
      sdDigits_of_not_bad hb, List.zip_map, List.map_map]
    rfl
  have hps : ∀ p ∈ ps, -2 ≤ p ∧ p ≤ 2 := by
    intro p hp
    obtain ⟨⟨u, v⟩, hd, rfl⟩ := List.mem_map.1 hp
    obtain ⟨hu, hv⟩ := List.of_mem_zip hd
    have := areDigits_sdList a u hu
    have := areDigits_sdList b v hv
    constructor <;> simp only <;> omega
  have hfit : InterimFits 0 (ps.headD 0) := ⟨fun _ => .inr rfl, fun _ => .inl rfl⟩
  obtain ⟨hlen, hds, e, hl, hu, hval⟩ := sdSumDigits_spec ps hps 0 hfit
  obtain ⟨hn, hv⟩ := sdPack_spec (hlen.trans (by simp [ps])) hds
  rw [digitVal_zipSum (by simp), ← sdValue_eq, ← sdValue_eq] at hval
  rw [he, hv]
  exact ⟨hn, by omega⟩

/-! Comparison (R53) -/

/-- The values of two elements from those of their first j digits. -/
theorem sdValue_take (w : Word) (j : ℕ) :
    ∃ r : ℤ, sdValue w = digitVal ((sdList w).take j) * 2 ^ (32 - j) + r ∧ -(2 ^ (32 - j) - 1) ≤ r ∧ r ≤ 2 ^ (32 - j) - 1 := by
  have hd : AreDigits ((sdList w).drop j) := fun d hd => areDigits_sdList w d (List.mem_of_mem_drop hd)
  have hl : ((sdList w).drop j).length = 32 - j := by simp
  refine ⟨digitVal ((sdList w).drop j), ?_, hl ▸ abs_digitVal_le hd⟩
  rw [sdValue_eq, ← hl, ← digitVal_append, List.take_append_drop]

/-- The model's comparison, from the values of the first j digits. -/
theorem sdCmp_eq {a b : Word} (ha : ¬ SdBad a) (hb : ¬ SdBad b) (j : ℕ) :
    (sdCmp j a b).1 = let d := digitVal ((sdList a).take j) - digitVal ((sdList b).take j)
      let bar : ℤ := if j == 32 then 1 else 2
      if d ≥ bar then .gt else if d ≤ -bar then .lt else .eq := by
  have hc {w : Word} (hw : ¬ SdBad w) : ((sdDigits w).take j).contains none = false := by
    simp [sdDigits_of_not_bad hw, ← List.map_take]
  have hv {w : Word} (hw : ¬ SdBad w) : ((sdDigits w).take j).foldl (fun a d => 2 * a + d.getD 0) 0 = digitVal ((sdList w).take j) := by
    rw [sdDigits_of_not_bad hw, ← List.map_take, List.foldl_map]
    exact (foldl_digitVal _ 0).trans (by simp)
  simp only [sdCmp, hc ha, hc hb, hv ha, hv hb]
  rfl

/-- A decision on the first digits is the order of the values, and with all 32 the order is decided. -/
theorem sdCmp_spec {a b : Word} (ha : ¬ SdBad a) (hb : ¬ SdBad b) {j : ℕ} (hj : j ≤ 32) :
    ((sdCmp j a b).1 = .gt → sdValue b < sdValue a) ∧ ((sdCmp j a b).1 = .lt → sdValue a < sdValue b) ∧
    (j = 32 → ((sdCmp j a b).1 = .gt ↔ sdValue b < sdValue a) ∧ ((sdCmp j a b).1 = .eq ↔ sdValue a = sdValue b)) := by
  obtain ⟨ra, hva, hal, hau⟩ := sdValue_take a j
  obtain ⟨rb, hvb, hbl, hbu⟩ := sdValue_take b j
  rw [sdCmp_eq ha hb, hva, hvb]
  generalize digitVal ((sdList a).take j) = u at *
  generalize digitVal ((sdList b).take j) = v at *
  obtain rfl | hlt := Nat.eq_or_lt_of_le hj
  · simp only [beq_self_eq_true, if_true, Nat.sub_self, pow_zero, mul_one] at *
    split_ifs <;> simp <;> omega
  · have hp : (0 : ℤ) < 2 ^ (32 - j) := by positivity
    generalize (2 : ℤ) ^ (32 - j) = p at *
    rw [show (j == 32) = false from beq_false_of_ne hlt.ne]
    simp only [Bool.false_eq_true, if_false]
    refine ⟨?_, ?_, fun h => absurd h hlt.ne⟩ <;> split_ifs with h h' <;> simp <;> nlinarith

end Sys2Proof
end

section
/-! SUPPORT. Vector words: what a word that writes lanes leaves (R62, R139), the flags of its lanes, and the bits of a comparison (R30, R145). -/

namespace Sys2Proof.Machine
open Sys2Proof.Safety

/-! Marks of registers that cannot be corrected (R346) -/

theorem marksGo_rfl {x : Ctx} {bs : List Nat} : MarksGo x x bs := fun _ => ⟨id, fun _ => id⟩

theorem marksGo_trans {x y z : Ctx} {as bs : List Nat} (h : MarksGo x y as) (h' : MarksGo y z bs) : MarksGo x z (as ++ bs) := fun b =>
  ⟨fun hz => (h b).1 ((h' b).1 hz), fun hb hx => (h' b).2 (fun hm => hb (List.mem_append_right _ hm))
    ((h b).2 (fun hm => hb (List.mem_append_left _ hm)) hx)⟩

theorem marksGo_keepMarks {x y : Ctx} {bs : List Nat} (h : MarksGo x y bs) (w : Bool) : MarksGo x (y.keepMarks x w) bs := by
  cases w
  · exact marksGo_rfl
  · exact h

theorem marksGo_of_bad {x y z : Ctx} {bs : List Nat} (h : MarksGo x y bs) (hz : z.bad = y.bad) : MarksGo x z bs := by
  unfold MarksGo
  rwa [hz]

theorem marksGo_of_mended {x z : Ctx} {b : Nat} (h : z.bad = x.mended b) : MarksGo x z [b] := fun c => by
  rw [h, Ctx.mended, List.mem_filter, bne_iff_ne, List.mem_singleton]
  exact ⟨And.left, fun hc hx => ⟨hx, hc⟩⟩

theorem marksGo_sk (x : Ctx) (d : KReg) (w : Word) : MarksGo x (x.sk d w) [0xC0 + d.val] := by
  unfold Ctx.sk
  split
  · exact marksGo_rfl
  · exact marksGo_of_mended rfl

/-! Flags of lanes (R62) -/

theorem getLsbD_foldl_or {α : Type} (f : α → Flags) (l : List α) (a : Flags) (b : Nat) :
    (l.foldl (fun a p => a ||| f p) a).getLsbD b = true ↔ a.getLsbD b = true ∨ ∃ p ∈ l, (f p).getLsbD b = true := by
  induction l generalizing a with
  | nil => simp
  | cons p l ih => rw [List.foldl_cons, ih, BitVec.getLsbD_or, Bool.or_eq_true, or_assoc, List.exists_mem_cons_iff]

/-- A flag of the unmasked lanes is raised by one of them. -/
theorem Ctx.getLsbD_laneFlags (x : Ctx) (g : Guard) (t : Ty) (fs : List Flags) (b : Nat) :
    (x.laneFlags g t fs).getLsbD b = true ↔ ∃ l, ∃ h : l < fs.length, x.laneOn g t l = true ∧ fs[l].getLsbD b = true := by
  have h0 : (0 : Flags).getLsbD b = false := BitVec.getLsbD_zero
  rw [Ctx.laneFlags, getLsbD_foldl_or, h0]
  simp only [Bool.false_eq_true, false_or, List.mem_filter]
  constructor
  · rintro ⟨p, ⟨hp, hon⟩, hb⟩
    obtain ⟨l, hl, rfl⟩ := List.mem_iff_getElem.1 hp
    simp only [List.length_zip, List.length_range, min_self] at hl
    exact ⟨l, hl, by simpa using hon, by simpa using hb⟩
  · rintro ⟨l, hl, hon, hb⟩
    exact ⟨(fs[l], l), ⟨List.mem_iff_getElem.2 ⟨l, by simpa using hl, by simp⟩, hon⟩, hb⟩

/-- Lanes without flags raise none. -/
theorem Ctx.laneFlags_eq_zero (x : Ctx) (g : Guard) (t : Ty) {fs : List Flags} (h : ∀ f ∈ fs, f = 0) : x.laneFlags g t fs = 0 := by
  refine BitVec.eq_of_getLsbD_eq fun b _ => Bool.eq_iff_iff.2 ?_
  rw [x.getLsbD_laneFlags]
  constructor
  · rintro ⟨l, hl, -, hb⟩
    rwa [h _ (List.getElem_mem hl)] at hb
  · intro hb
    rw [show (0 : Flags).getLsbD b = false from BitVec.getLsbD_zero] at hb
    cases hb

/-! A word that writes lanes -/

section WriteLanes
variable (x : Ctx) (g : Guard) (t : Ty) (rm : RM) (d : VReg) (ls : List (Nat × Flags))

theorem Ctx.flags_raise (f : Flags) : (x.raise f).flags = x.flags ||| f := by
  unfold Ctx.raise
  split
  · next h => rw [h]; exact BitVec.or_zero.symm
  · rfl

theorem Ctx.flags_writeLanes : (x.writeLanes g t rm d ls).flags = x.flags ||| x.laneFlags g t (ls.map Prod.snd) := by
  rw [Ctx.writeLanes, Ctx.drew_flags, Ctx.flags_raise]
  rfl

theorem marksGo_writeLanes : MarksGo x (x.writeLanes g t rm d ls) [0x40 + d.val] := by
  have hsv : MarksGo x (x.sv d (x.merge g t (x.gv d) (ls.map Prod.fst))) [0x40 + d.val] := marksGo_of_mended rfl
  exact marksGo_of_bad (marksGo_keepMarks hsv (x.allOn g t)) (by rw [Ctx.writeLanes, Ctx.drew_bad, Ctx.raise_bad])

theorem Ctx.seeds_writeLanes : (x.writeLanes g t rm d ls).sra.seed = x.sra.seed ∧ (x.writeLanes g t rm d ls).srb.seed = x.srb.seed := by
  unfold Ctx.writeLanes
  cases rm <;> simp [Ctx.drew, Ctx.keepMarks, Ctx.sv]

/-- Beside the lanes of its destination, a word that writes lanes leaves what a vector word leaves. -/
theorem vecFrame_writeLanes : VecFrame x (x.writeLanes g t rm d ls) [0x40 + d.val] where
  rest := x.writeLanes_rest g t rm d ls
  sticky i h := by rw [x.flags_writeLanes, BitVec.getLsbD_or, h, Bool.true_or]
  seeds := x.seeds_writeLanes g t rm d ls
  marks := marksGo_writeLanes x g t rm d ls

/-- The lanes of a word that writes lanes. -/
theorem vecLanes_writeLanes {rel : Nat → Nat → Prop} (hlen : ls.length = t.lanes)
    (h : ∀ l (hl : l < t.lanes), x.laneOn g t l = true → rel l ((ls[l]'(hl.trans_eq hlen.symm)).1 % 2 ^ t.width)) :
    VecLanes x (x.writeLanes g t rm d ls) g t d rel where
  frame := vecFrame_writeLanes x g t rm d ls
  others r hr := x.gv_writeLanes_other g t rm d r ls hr
  on l hl hon := by
    rw [x.laneGet_writeLanes g t rm d ls hlen l hl, if_pos hon]
    exact h l hl hon
  off l hl hoff := by rw [x.laneGet_writeLanes g t rm d ls hlen l hl, if_neg (by simp [hoff])]

/-- Without flags and draws, a word that writes lanes changes its destination and its mark alone. -/
theorem Ctx.writeLanes_plain (h : ∀ p ∈ ls, p.2 = 0) :
    x.writeLanes g t .rne d ls = { x with v := (x.writeLanes g t .rne d ls).v, bad := (x.writeLanes g t .rne d ls).bad } := by
  unfold Ctx.writeLanes
  rw [x.laneFlags_eq_zero g t (by rintro f hf; obtain ⟨p, hp, rfl⟩ := List.mem_map.1 hf; exact h p hp)]
  rfl

end WriteLanes

/-- Lane l of the operand B. -/
theorem laneGet_operand (x : Ctx) (t : Ty) (b : SV) {l : Nat} (hl : l < t.lanes) : laneGet t (x.operand t b) l = laneB x t b l := by
  cases b with
  | v r => rfl
  | s r => exact laneGet_operand_s x t r l hl

/-! The bits of a comparison (R145) -/

theorem fields_append (l : List (Nat × Nat)) (p : Nat × Nat) : fields (l ++ [p]) = fields l + p.2 * 2 ^ p.1 := by
  rw [fields, List.foldl_append]
  rfl

theorem fields_bits_lt (f : Nat → Bool) (n : Nat) : fields ((List.range n).map fun l => (l, boolNat (f l))) < 2 ^ n := by
  induction n with
  | zero => exact Nat.one_pos
  | succ n ih =>
    rw [List.range_succ, List.map_append, List.map_singleton, fields_append, boolNat_mul, pow_succ]
    simp only
    split <;> omega

theorem testBit_fields_bits (f : Nat → Bool) (n i : Nat) :
    (fields ((List.range n).map fun l => (l, boolNat (f l)))).testBit i = (decide (i < n) && f i) := by
  induction n with
  | zero => simp [fields_nil]
  | succ n ih =>
    rw [List.range_succ, List.map_append, List.map_singleton, fields_append, Nat.add_comm, Nat.mul_comm,
      Nat.testBit_two_pow_mul_add _ (fields_bits_lt f n), ih]
    obtain h | rfl | h := Nat.lt_trichotomy i n
    · simp [h, Nat.lt_succ_of_lt h]
    · cases f i <;> simp [boolNat]
    · obtain ⟨k, rfl⟩ : ∃ k, i = n + 1 + k := ⟨i - n - 1, by omega⟩
      rw [if_neg (by omega), show n + 1 + k - n = k + 1 by omega, Nat.testBit_succ, decide_eq_false (by omega), Bool.false_and]
      cases f n <;> simp [boolNat]

/-- The bits that a comparison writes: a masked lane's bit stays, and the bits above the lanes are 0. -/
theorem getLsbD_kBits (x : Ctx) (g : Guard) (t : Ty) (old : Word) (b : Nat → Bool) (ht : t.lanes ≤ 64) (l : Nat) :
    (kBits x g t old b).getLsbD l = (decide (l < t.lanes) && if x.laneOn g t l then b l else old.getLsbD l) := by
  rw [kBits, BitVec.getLsbD_ofNat, testBit_fields_bits]
  by_cases h : l < t.lanes
  · rw [decide_eq_true (h.trans_le ht), Bool.true_and]
  · simp [h]

/-! The signed-digit words -/

theorem length_lanes (n : Nat) (f : Nat → Nat × Flags) : (lanes n f).length = n := by rw [lanes, List.length_map, List.length_range]

theorem getElem_lanes (n : Nat) (f : Nat → Nat × Flags) (l : Nat) (h : l < (lanes n f).length) : (lanes n f)[l] = f l := by
  simp [lanes]

theorem ofNat_toNat_mod (w : Word) : BitVec.ofNat 64 (w.toNat % 2 ^ Ty.sd.width) = w := BitVec.eq_of_toNat_eq (by
  rw [BitVec.toNat_ofNat, show Ty.sd.width = 64 from rfl, Nat.mod_mod, Nat.mod_eq_of_lt w.isLt])

/-- vsdc gives elements of the source's values. -/
theorem writesV_vsdc (o : VSdcOps) (ht : o.ty = .n32 ∨ o.ty = .i32 ∨ o.ty = .f32) : WritesV (.vsdc o) o.g .sd o.d (fun x l v =>
    let p := laneA x o.ty o.a ((if o.half then 8 else 0) + l)
    ¬ SdBad (BitVec.ofNat 64 v) ∧ sdValue (BitVec.ofNat 64 v) =
      if o.ty = .i32 then toSigned 32 p else if o.ty = .n32 then (p : Int)
      else if p < 2 ^ 31 then (p : Int) + 2 ^ 31 else 2 ^ 32 - 1 - (p : Int)) := by
  intro s r x hi
  refine ⟨x.vsdc o.g o.ty o.half o.d (x.gv o.a), vecLanes_writeLanes x _ _ _ _ _ (length_lanes 8 _) fun l hl _ => ?_,
    x.writeLanes_plain _ _ _ _ ?_, Laws.completes_of_finish ?_⟩
  · have hw : o.ty.width = 32 := by obtain h | h | h := ht <;> rw [h] <;> rfl
    have hk : 8 * boolNat o.half = if o.half = true then 8 else 0 := by cases o.half <;> rfl
    dsimp only
    rw [getElem_lanes, ofNat_toNat_mod, hk]
    exact sdOf_spec o.ty ht ((laneGet_lt ..).trans_eq (by rw [hw]))
  · intro p hp
    obtain ⟨l, -, rfl⟩ := List.mem_map.1 hp
    rfl
  · rw [exec_vsdc, execVsdc, Laws.openPure_eq hi]

/-- NV is bit 0. -/
theorem getLsbD_fNV : fNV.getLsbD 0 = true := by decide

/-- vsdadd adds without a carry, and answers a bad digit with the element of bad digits and NV. -/
theorem writes_vsdadd (o : VSdAddOps) {s r x} (hi : Issues s r x) : ∃ z, VecLanes x z o.g .sd o.d (fun l v =>
      let a := BitVec.ofNat 64 (laneA x .sd o.a l); let b := BitVec.ofNat 64 (laneB x .sd o.b l); let c := BitVec.ofNat 64 v
      (SdBad a ∨ SdBad b → c = 0xAAAAAAAAAAAAAAAA ∧ z.flags.getLsbD 0 = true) ∧
      (¬ SdBad a → ¬ SdBad b → ¬ SdBad c ∧ (sdValue a + sdValue b - 2 * sdValue c).natAbs ≤ 1)) ∧
    Completes (.vsdadd o) s r z := by
  refine ⟨_, vecLanes_writeLanes x _ _ .rne _ (lanes 8 fun l =>
      let r := sdAdd (BitVec.ofNat 64 (laneGet .sd (x.gv o.a) l)) (BitVec.ofNat 64 (laneGet .sd (x.operand .sd o.b) l))
      (r.1.toNat, r.2)) (length_lanes 8 _) fun l hl hon => ?_, Laws.completes_of_finish ?_⟩
  · dsimp only
    rw [getElem_lanes, ofNat_toNat_mod, laneGet_operand x .sd o.b hl]
    refine ⟨fun hbad => ?_, fun ha hb => sdAdd_spec ha hb⟩
    refine ⟨congrArg Prod.fst (sdAdd_bad hbad), ?_⟩
    rw [x.flags_writeLanes, BitVec.getLsbD_or, Bool.or_eq_true, x.getLsbD_laneFlags]
    refine .inr ⟨l, by rw [List.length_map, length_lanes]; exact hl, hon, ?_⟩
    rw [List.getElem_map, getElem_lanes, laneGet_operand x .sd o.b hl]
    exact (congrArg (BitVec.getLsbD · 0) (congrArg Prod.snd (sdAdd_bad hbad))).trans getLsbD_fNV
  · rw [exec_vsdadd, execVsdadd, Laws.openPure_eq hi]

/-! Comparison of signed digits (R158) -/

@[simp] theorem Ctx.gk_raise (x : Ctx) (f : Flags) (q : KReg) : (x.raise f).gk q = x.gk q := by simp [Ctx.gk]
@[simp] theorem Ctx.gk_keepMarks (y x : Ctx) (w : Bool) (q : KReg) : (y.keepMarks x w).gk q = y.gk q := rfl

/-- Two k registers written one after the other. -/
theorem Ctx.gk_sk_sk (x : Ctx) {d e : KReg} (hd : d ≠ 0) (he : e ≠ 0) (v w : Word) (q : KReg) :
    ((x.sk d v).sk e w).gk q = if q = e then w else if q = d then v else x.gk q := by
  rw [Ctx.gk_sk, Ctx.gk_sk]
  simp only [hd, he, ne_eq, not_false_iff, and_true]

/-- A word that writes two k registers and raises flags leaves the rest of its context. -/
theorem Ctx.sk_sk_raise_rest (x : Ctx) (d e : KReg) (v w : Word) (c : Bool) (f : Flags) :
    let z := (((x.sk d v).sk e w).keepMarks x c).raise f
    z = { x with k := z.k, flags := z.flags, pmc := z.pmc, bad := z.bad } := by
  obtain ⟨k, b, h⟩ : ∃ k b, ((x.sk d v).sk e w).keepMarks x c = { x with k := k, bad := b } := by
    unfold Ctx.sk
    split <;> split <;> exact ⟨_, _, rfl⟩
  dsimp only
  rw [h]
  unfold Ctx.raise Ctx.count
  dsimp only
  split
  · rfl
  · split <;> rfl

section
variable (x : Ctx) (o : VSdCmpOps)

theorem marksGo_sk_sk (x : Ctx) (d e : KReg) (v w : Word) (c : Bool) :
    MarksGo x (((x.sk d v).sk e w).keepMarks x c) [0xC0 + d.val, 0xC0 + e.val] :=
  marksGo_keepMarks (marksGo_trans (marksGo_sk x d v) (marksGo_sk _ e w)) c

/-- The comparison of lane l. -/
def sdCmpLane (l : Nat) : Ordering × Flags :=
  sdCmp (max 1 (min 32 (x.gs o.c).toNat)) (BitVec.ofNat 64 (laneGet .sd (x.gv o.a) l)) (BitVec.ofNat 64 (laneGet .sd (x.operand .sd o.b) l))

theorem Ctx.vsdcmp_eq : x.vsdcmp o = (((x.sk o.d (kBits x o.g .sd (x.gk o.d) fun l => (sdCmpLane x o l).1 == .gt)).sk (o.d + 1)
    (kBits x o.g .sd (x.gk (o.d + 1)) fun l => (sdCmpLane x o l).1 == .eq)).keepMarks x (x.allOn o.g .sd)).raise
    (x.laneFlags o.g .sd ((List.range 8).map fun l => (sdCmpLane x o l).2)) := rfl

end

/-- vsdcmp decides only as the values stand, and with 32 digits always. -/
theorem writes_vsdcmp (o : VSdCmpOps) {s r x} (hi : Issues s r x) (h1 : 1 ≤ o.d.val) (h6 : o.d.val ≤ 6) : ∃ z,
    z = { x with k := z.k, flags := z.flags, pmc := z.pmc, bad := z.bad } ∧ MarksGo x z [0xC0 + o.d.val, 0xC1 + o.d.val] ∧
    (∀ q : KReg, q ≠ o.d → q ≠ o.d + 1 → z.gk q = x.gk q) ∧
    (∀ l, l < 8 → x.laneOn o.g .sd l = true →
      let a := BitVec.ofNat 64 (laneA x .sd o.a l); let b := BitVec.ofNat 64 (laneB x .sd o.b l)
      ¬ SdBad a → ¬ SdBad b →
        ((z.gk o.d).getLsbD l = true → sdValue b < sdValue a) ∧
        ((z.gk o.d).getLsbD l = false → (z.gk (o.d + 1)).getLsbD l = false → sdValue a < sdValue b) ∧
        (32 ≤ (x.gs o.c).toNat → ((z.gk o.d).getLsbD l = true ↔ sdValue b < sdValue a) ∧
          ((z.gk (o.d + 1)).getLsbD l = true ↔ sdValue a = sdValue b))) ∧
    (∀ l, l < 8 → x.laneOn o.g .sd l = false → (z.gk o.d).getLsbD l = (x.gk o.d).getLsbD l ∧
      (z.gk (o.d + 1)).getLsbD l = (x.gk (o.d + 1)).getLsbD l) ∧
    (∀ l, 8 ≤ l → (z.gk o.d).getLsbD l = false ∧ (z.gk (o.d + 1)).getLsbD l = false) ∧
    Completes (.vsdcmp o) s r z := by
  have he : (o.d + 1).val = o.d.val + 1 := by rw [Fin.val_add]; exact Nat.mod_eq_of_lt (by omega)
  have hd0 : o.d ≠ 0 := fun h => by rw [h] at h1; exact absurd h1 (by decide)
  have he0 : o.d + 1 ≠ 0 := fun h => by rw [h] at he; exact absurd he (by simp)
  have hde : o.d ≠ o.d + 1 := fun h => by rw [← h] at he; omega
  have hgk (q : KReg) : (x.vsdcmp o).gk q = if q = o.d + 1 then kBits x o.g .sd (x.gk (o.d + 1)) fun l => (sdCmpLane x o l).1 == .eq
      else if q = o.d then kBits x o.g .sd (x.gk o.d) fun l => (sdCmpLane x o l).1 == .gt else x.gk q := by
    rw [Ctx.vsdcmp_eq, Ctx.gk_raise, Ctx.gk_keepMarks, x.gk_sk_sk hd0 he0]
  have hgt := (hgk o.d).trans ((if_neg hde).trans (if_pos rfl))
  have hun := (hgk (o.d + 1)).trans (if_pos rfl)
  refine ⟨x.vsdcmp o, x.sk_sk_raise_rest .., ?_, fun q hq hq' => ?_, fun l hl hon => ?_, fun l hl hoff => ?_, fun l hl => ?_,
    Laws.completes_of_finish ?_⟩
  · rw [show 0xC1 + o.d.val = 0xC0 + (o.d + 1).val by omega]
    exact marksGo_of_bad (marksGo_sk_sk x o.d (o.d + 1) _ _ _) (by rw [Ctx.vsdcmp_eq, Ctx.raise_bad])
  · rw [hgk, if_neg hq', if_neg hq]
  · intro a b ha hb
    have hj : max 1 (min 32 (x.gs o.c).toNat) ≤ 32 := by omega
    have hlane : sdCmpLane x o l = sdCmp (max 1 (min 32 (x.gs o.c).toNat)) a b := by rw [sdCmpLane, laneGet_operand x .sd o.b hl]; rfl
    obtain ⟨h₁, h₂, h₃⟩ := sdCmp_spec ha hb hj
    rw [hgt, hun, getLsbD_kBits _ _ _ _ _ (by decide), getLsbD_kBits _ _ _ _ _ (by decide), if_pos hon, if_pos hon, hlane,
      decide_eq_true (show l < Ty.sd.lanes from hl)]
    generalize (sdCmp (max 1 (min 32 (x.gs o.c).toNat)) a b).1 = c at h₁ h₂ h₃
    simp only [Bool.true_and, beq_iff_eq, beq_eq_false_iff_ne]
    refine ⟨h₁, fun hg hu => h₂ ?_, fun hc => h₃ (by omega)⟩
    cases c <;> simp_all
  · rw [hgt, hun, getLsbD_kBits _ _ _ _ _ (by decide), getLsbD_kBits _ _ _ _ _ (by decide), hoff,
      decide_eq_true (show l < Ty.sd.lanes from hl)]
    exact ⟨rfl, rfl⟩
  · rw [hgt, hun, getLsbD_kBits _ _ _ _ _ (by decide), getLsbD_kBits _ _ _ _ _ (by decide),
      decide_eq_false (show ¬ l < Ty.sd.lanes from Nat.not_lt.2 hl)]
    exact ⟨rfl, rfl⟩
  · rw [exec_vsdcmp, execVsdcmp, Laws.openPure_eq hi]

/-- Settles O32: a digit's transfer and interim digit carry no further (R52), and j digits fix a value to within the places after them (R53). -/
theorem signedDigitsAddWithoutCarry : Obligations.SignedDigitsAddWithoutCarry :=
  ⟨writesV_vsdc, fun o _ _ _ hi => writes_vsdadd o hi, fun o _ _ _ hi h1 h6 => writes_vsdcmp o hi h1 h6⟩

end Sys2Proof.Machine
end

section
/-! SUPPORT. Rows fired from the window of an element that has no record: no beat is read, and no row stands ready. -/

namespace Sys2Proof.Machine

open Sys2Proof.Safety

theorem chunksOf_nil {α : Type} (n k : Nat) : chunksOf n k ([] : List α) = [] := by
  cases k <;> simp [chunksOf]

/-- The store of an element without a record gives no beat. -/
theorem winBeats_of_no_elem {s : State} {wr : WinRef} (he : s.elem? wr.at = none) (w : Window) (o n : Nat) : winBeats s wr w o n = [] := by
  rw [winBeats, State.winBytes, he, chunksOf_nil, List.map_nil]

/-- A firing without rows leaves the rows that stand in the tile. -/
theorem State.tile?_fireRows_nil {s : State} {r : CtxRef} {x : Ctx} {f : Firing} (hf : f.a = []) :
    (s.fireRows r x f).tile? r.tile = s.tile? r.tile := by
  have h : (s.fireRows r x f).tile? r.tile = (s.modTile r.tile fun t => { t with rows := t.rows ++ [] }).tile? r.tile := by
    rw [State.fireRows, State.finishRows, hf]
    exact congrArg (tget · r.tile) ((State.active_tiles ..).trans (State.setCtx_tiles ..))
  rw [h, State.tile?_modTile, if_pos rfl]
  cases s.tile? r.tile with
  | none => rfl
  | some t => exact congrArg (fun l => some { t with rows := l }) (List.append_nil t.rows)

/-- mroww over an element without a record completes with no row readied. -/
theorem mroww_of_no_elem {s : State} {r : CtxRef} {x : Ctx} {b : Bank} {w : Window} {o : MRowWOps} (hi : Issues s r x)
    (hg : x.guard0 o.g = true) (hb : BankIs s r o.acc b) (hw : Standing s r o.wb w o.off.val o.n.val) (hc : comboOk o.aty o.bty = true)
    (hsch : o.sch = none) (he : s.elem? r.tile = none) : ∃ t, exec (.mroww o) s = .next t ∧ t.tile? r.tile = s.tile? r.tile := by
  have hr : w.readable o.off.val o.n.val = true := by
    obtain ⟨-, -, hf, ho, -⟩ := hw
    rw [Window.readable, hf, Window.fv]
    simpa using ho
  refine ⟨_, ?_, State.tile?_fireRows_nil (x := x) (f := ⟨o.acc.val, o.row.val, o.rm, o.zf, false, o.aty, o.bty, [], List.replicate o.n.val b.asc⟩) rfl⟩
  rw [exec_mroww, execMroww, Laws.runWord_true hi hg, tryMroww, tryRowW, State.withBankWin_of_bankIs hb hw.1 hw.2.1]
  simp only [hc, hr, hsch, State.scaleCheck, State.takeScale, Bool.not_true, Bool.false_eq_true, if_false,
    State.elements_of_standing hw, winBeats_of_no_elem (wr := r.tile.win o.wb) he, chunksOf_nil, State.orWait]

/-! Such a state -/

/-- Context 0 of a tile runs with bank 0 bound to it and a window of one element of 64 bytes; the element of the tile has no record. -/
def unrecorded : State :=
  { cur := ⟨0, 0, 0⟩, ctxs := [(⟨0, 0, 0⟩, {})], tiles := [(⟨0, 0⟩, { accBind := 8 })], banks := [(⟨0, 0, 0⟩, {})],
    wins := [(⟨0, 0, 0⟩, { esz := 5, cap := 1, fill := 1 })] }

theorem issues_unrecorded : Issues unrecorded ⟨0, 0, 0⟩ {} := ⟨rfl, rfl⟩

theorem bankIs_unrecorded : BankIs unrecorded ⟨0, 0, 0⟩ 0 {} := ⟨rfl, _, rfl, by decide⟩

theorem standing_unrecorded : Standing unrecorded ⟨0, 0, 0⟩ 0 { esz := 5, cap := 1, fill := 1 } 0 1 :=
  ⟨⟨rfl, by decide⟩, by decide, rfl, by decide, rfl⟩

/-- Refutes O41: mroww, whose window stands as the statement asks, reads no beat where the tile's element has no record, so the row that the statement promises is not ready. -/
theorem not_matrixRowsFireAndLeave : ¬ Obligations.MatrixRowsFireAndLeave := by
  unfold Obligations.MatrixRowsFireAndLeave
  rintro ⟨hwords, -⟩
  obtain ⟨-, hmroww, -⟩ := hwords unrecorded ⟨0, 0, 0⟩ {} {} { esz := 5, cap := 1, fill := 1 } 0 0 ⟨false, 0⟩ issues_unrecorded (by decide)
    bankIs_unrecorded .rne false 0 none .bf16 1 (by decide)
  obtain ⟨hstanding, -⟩ := hmroww .bf16 0 (fun _ => 0x7F) {} rfl ⟨fun _ => ⟨rfl, fun _ => rfl⟩, nofun⟩
  obtain ⟨a, -, t, z, tl, hexec, -, -, -, htl, hrows, -⟩ := hstanding standing_unrecorded
  obtain ⟨t', hexec', hsame⟩ := mroww_of_no_elem (o := ⟨⟨false, 0⟩, .rne, 0, false, 0, .bf16, none, 0, .bf16, 1, 0⟩) issues_unrecorded
    (by decide) bankIs_unrecorded standing_unrecorded rfl rfl rfl
  obtain rfl : t = t' := by injection hexec.symm.trans hexec'
  have h : tl.rows ++ [_] = tl.rows := congrArg Tile.rows (Option.some.inj (hrows.symm.trans (hsame.trans htl)))
  exact absurd (congrArg List.length h) (by simp)

end Sys2Proof.Machine
end

section
/-! SUPPORT. Operands of an instruction: what each operand's parser makes of the operand as encoded, and what it is for an
operand record to be parsed from its word. -/

namespace Sys2Proof.Safety

/-! An operand as encoded is parsed as itself -/

@[simp] theorem pSz_ofNat (z : Fin 6) : pSz (BitVec.ofNat 3 z.val) = .ok z := pSz_eq_ok.2 rfl
@[simp] theorem pBar_ofNat (i : Fin 96) : pBar (BitVec.ofNat 16 i.val) = .ok i := pBar_eq_ok.2 rfl
@[simp] theorem pSel_ofNat (i : Fin 8) : pSel (BitVec.ofNat 4 i.val) = .ok i := pSel_eq_ok.2 rfl
@[simp] theorem pLoopX_ofNat (i : Fin 2) : pLoopX (BitVec.ofNat 8 i.val) = .ok i := pLoopX_eq_ok.2 rfl
@[simp] theorem pScope_code (c : Scope) : pScope (BitVec.ofNat 2 c.code) = .ok c := pScope_eq_ok.2 rfl
@[simp] theorem pSV_eSV (x : SV) : pSV (eSV x) = .ok x := pSV_eq_ok.2 rfl
@[simp] theorem pSVC_eSVC (x : SVC) : pSVC (eSVC x) = .ok x := pSVC_eq_ok.2 rfl
@[simp] theorem pB_eSV (x : SV) : pB (eBit x) (eSV x) = .ok x := pB_eq_ok.2 ⟨rfl, rfl⟩
@[simp] theorem pBeat_eSV (x : SV) : pBeat (eBeatSz x) (eSV x) = .ok x := pBeat_eq_ok.2 ⟨rfl, rfl⟩
@[simp] theorem pCS_eCS (x : CS) : pCS (eCS x).1 (eCS x).2 = .ok x := pCS_eq_ok.2 ⟨rfl, rfl⟩
@[simp] theorem pSch_eSch (x : Option (Fin 32)) : pSch (eSch x).1 (eSch x).2 = .ok x := pSch_eq_ok.2 ⟨rfl, rfl⟩
@[simp] theorem pMov_eMov (x : MovOp) : pMov (eMov x).1 (eMov x).2 = .ok x := pMov_eq_ok.2 ⟨rfl, rfl⟩

theorem pPackB_ePackB {o : VPackOps} (h : o.ok = true) : pPackB o.ty (ePackB o.b).2 (ePackB o.b).1 = .ok o.b := by
  obtain ⟨g, ty, d, a, b⟩ := o
  cases b with
  | some x => cases ty <;> simp_all [VPackOps.ok, pPackB, ePackB, Ty.width]
  | none => cases ty <;> simp_all [VPackOps.ok, pPackB, ePackB, Ty.width]

/-- The head of a word that has no guard. -/
theorem eq_zero_of_noGuard {h : Head} (hg : h.guard = noGuard) : h.gn = 0 ∧ h.gk = 0 := by
  obtain ⟨op, gn, gk, fn⟩ := h
  obtain ⟨hn, hk⟩ := Guard.mk.inj hg
  exact ⟨by rw [← bit1_bool1 gn, hn]; rfl, by rw [← unfin_fin gk, hk]; rfl⟩

/-- Whatever operand record has the word's guard for its guard and the word's bits [47:0] for its body is what the parser gives:
the converse of ReadBack. -/
def ParsedFrom (w : Word) {α : Type} (p : Except Reject α) (g : α → Guard) (body : α → BitVec 48) : Prop :=
  ∀ o, (Head.of w).guard = g o → w.extractLsb' 0 48 = body o → p = .ok o

section
variable {w : Word} {α : Type} {g : α → Guard} {body : α → BitVec 48}

/-! A shape is parsed from its word when it is parsed from the fields that its body packs -/

theorem FmtA.of_eq {f : FmtA} (h : w.extractLsb' 0 48 = f.pack) : FmtA.of w = f := by
  rw [← Head.pack_of w, h, FmtA.of_pack]

theorem ParsedFrom.ofA {p : Head → FmtA → Except Reject α} {f : α → FmtA} (hbody : ∀ o, body o = (f o).pack)
    (hp : ∀ h o, h.guard = g o → p h (f o) = .ok o) : ParsedFrom w (p (Head.of w) (FmtA.of w)) g body :=
  fun o hg hb => (congrArg (p _) (FmtA.of_eq (hb.trans (hbody o)))).trans (hp _ o hg)

theorem FmtI.of_eq {f : FmtI} (h : w.extractLsb' 0 48 = f.pack) : FmtI.of w = f := by
  rw [← Head.pack_of w, h, FmtI.of_pack]

theorem ParsedFrom.ofI {p : Head → FmtI → Except Reject α} {f : α → FmtI} (hbody : ∀ o, body o = (f o).pack)
    (hp : ∀ h o, h.guard = g o → p h (f o) = .ok o) : ParsedFrom w (p (Head.of w) (FmtI.of w)) g body :=
  fun o hg hb => (congrArg (p _) (FmtI.of_eq (hb.trans (hbody o)))).trans (hp _ o hg)

theorem FmtW.of_eq {f : FmtW} (h : w.extractLsb' 0 48 = f.pack) : FmtW.of w = f := by
  rw [← Head.pack_of w, h, FmtW.of_pack]

theorem ParsedFrom.ofW {p : Head → FmtW → Except Reject α} {f : α → FmtW} (hbody : ∀ o, body o = (f o).pack)
    (hp : ∀ h o, h.guard = g o → p h (f o) = .ok o) : ParsedFrom w (p (Head.of w) (FmtW.of w)) g body :=
  fun o hg hb => (congrArg (p _) (FmtW.of_eq (hb.trans (hbody o)))).trans (hp _ o hg)

theorem FmtM.of_eq {f : FmtM} (h : w.extractLsb' 0 48 = f.pack) : FmtM.of w = f := by
  rw [← Head.pack_of w, h, FmtM.of_pack]

theorem ParsedFrom.ofM {p : Head → FmtM → Except Reject α} {f : α → FmtM} (hbody : ∀ o, body o = (f o).pack)
    (hp : ∀ h o, h.guard = g o → p h (f o) = .ok o) : ParsedFrom w (p (Head.of w) (FmtM.of w)) g body :=
  fun o hg hb => (congrArg (p _) (FmtM.of_eq (hb.trans (hbody o)))).trans (hp _ o hg)

theorem FmtE.of_eq {f : FmtE} (h : w.extractLsb' 0 48 = f.pack) : FmtE.of w = f := by
  rw [← Head.pack_of w, h, FmtE.of_pack]

theorem ParsedFrom.ofE {p : Head → FmtE → Except Reject α} {f : α → FmtE} (hbody : ∀ o, body o = (f o).pack)
    (hp : ∀ h o, h.guard = g o → p h (f o) = .ok o) : ParsedFrom w (p (Head.of w) (FmtE.of w)) g body :=
  fun o hg hb => (congrArg (p _) (FmtE.of_eq (hb.trans (hbody o)))).trans (hp _ o hg)

theorem FmtF.of_eq {f : FmtF} (h : w.extractLsb' 0 48 = f.pack) : FmtF.of w = f := by
  rw [← Head.pack_of w, h, FmtF.of_pack]

theorem ParsedFrom.ofF {p : Head → FmtF → Except Reject α} {f : α → FmtF} (hbody : ∀ o, body o = (f o).pack)
    (hp : ∀ h o, h.guard = g o → p h (f o) = .ok o) : ParsedFrom w (p (Head.of w) (FmtF.of w)) g body :=
  fun o hg hb => (congrArg (p _) (FmtF.of_eq (hb.trans (hbody o)))).trans (hp _ o hg)

end

end Sys2Proof.Safety
end

section
/-! SUPPORT. The operand shapes, format by format, are parsed from the fields that they are packed into. A field that holds two
keeps its width a sum (no Nat.reduceAdd), as extract_high and extract_low state it. -/

namespace Sys2Proof.Safety

/-! Format A -/

@[simp] theorem parsedFrom_SSS (w : Word) : ParsedFrom w (parseSSS (Head.of w) (FmtA.of w)) SSSOps.g bodySSS :=
  .ofA (fun _ => rfl) fun h o hg => by simp [parseSSS, a0, hg]

@[simp] theorem parsedFrom_KSS (w : Word) : ParsedFrom w (parseKSS (Head.of w) (FmtA.of w)) KSSOps.g bodyKSS :=
  .ofA (fun _ => rfl) fun h o hg => by simp [parseKSS, a0, hg]

@[simp] theorem parsedFrom_SSSK (w : Word) : ParsedFrom w (parseSSSK (Head.of w) (FmtA.of w)) SSSKOps.g bodySSSK :=
  .ofA (fun _ => rfl) fun h o hg => by simp [parseSSSK, a0, hg]

@[simp] theorem parsedFrom_SS (w : Word) : ParsedFrom w (parseSS (Head.of w) (FmtA.of w)) SSOps.g bodySS :=
  .ofA (fun _ => rfl) fun h o hg => by simp [parseSS, a0, hg]

@[simp] theorem parsedFrom_SSSS (w : Word) : ParsedFrom w (parseSSSS (Head.of w) (FmtA.of w)) SSSSOps.g bodySSSS :=
  .ofA (fun _ => rfl) fun h o hg => by simp [parseSSSS, a0, hg]

@[simp] theorem parsedFrom_Mov (w : Word) : ParsedFrom w (parseMov (Head.of w) (FmtA.of w)) MovOps.g bodyMov :=
  .ofA (fun _ => rfl) fun h o hg => by simp [parseMov, a0, hg]

@[simp] theorem parsedFrom_KKK (w : Word) : ParsedFrom w (parseKKK (Head.of w) (FmtA.of w)) KKKOps.g bodyKKK :=
  .ofA (fun _ => rfl) fun h o hg => by simp [parseKKK, a0, hg]

@[simp] theorem parsedFrom_KK (w : Word) : ParsedFrom w (parseKK (Head.of w) (FmtA.of w)) KKOps.g bodyKK :=
  .ofA (fun _ => rfl) fun h o hg => by simp [parseKK, a0, hg]

@[simp] theorem parsedFrom_SK (w : Word) : ParsedFrom w (parseSK (Head.of w) (FmtA.of w)) SKOps.g bodySK :=
  .ofA (fun _ => rfl) fun h o hg => by simp [parseSK, a0, hg]

@[simp] theorem parsedFrom_KS (w : Word) : ParsedFrom w (parseKS (Head.of w) (FmtA.of w)) KSOps.g bodyKS :=
  .ofA (fun _ => rfl) fun h o hg => by simp [parseKS, a0, hg]

@[simp] theorem parsedFrom_CCSS (w : Word) : ParsedFrom w (parseCCSS (Head.of w) (FmtA.of w)) CCSSOps.g bodyCCSS :=
  .ofA (fun _ => rfl) fun h o hg => by simp [parseCCSS, a0, hg]

@[simp] theorem parsedFrom_CCS (w : Word) : ParsedFrom w (parseCCS (Head.of w) (FmtA.of w)) CCSOps.g bodyCCS :=
  .ofA (fun _ => rfl) fun h o hg => by simp [parseCCS, a0, hg]

@[simp] theorem parsedFrom_CGet (w : Word) : ParsedFrom w (parseCGet (Head.of w) (FmtA.of w)) CGetOps.g bodyCGet :=
  .ofA (fun _ => rfl) fun h o hg => by simp [parseCGet, a0, hg]

@[simp] theorem parsedFrom_CLd (w : Word) : ParsedFrom w (parseCLd (Head.of w) (FmtA.of w)) CLdOps.g bodyCLd :=
  .ofA (fun _ => rfl) fun h o hg => by simp (disch := omega) [parseCLd, a0, hg, extract_high, extract_low, -Nat.reduceAdd]

@[simp] theorem parsedFrom_CSt (w : Word) : ParsedFrom w (parseCSt (Head.of w) (FmtA.of w)) CStOps.g bodyCSt :=
  .ofA (fun _ => rfl) fun h o hg => by simp (disch := omega) [parseCSt, a0, hg, extract_high, extract_low, -Nat.reduceAdd]

@[simp] theorem parsedFrom_VBin (w : Word) : ParsedFrom w (parseVBin (Head.of w) (FmtA.of w)) VBinOps.g bodyVBin :=
  .ofA (fun _ => rfl) fun h o hg => by simp [parseVBin, a0, hg]

@[simp] theorem parsedFrom_VFma (w : Word) : ParsedFrom w (parseVFma (Head.of w) (FmtA.of w)) VFmaOps.g bodyVFma :=
  .ofA (fun _ => rfl) fun h o hg => by simp [parseVFma, a0, hg]

@[simp] theorem parsedFrom_VMinMax (w : Word) :
    ParsedFrom w (parseVMinMax (Head.of w) (FmtA.of w)) VMinMaxOps.g bodyVMinMax :=
  .ofA (fun _ => rfl) fun h o hg => by simp [parseVMinMax, a0, hg]

@[simp] theorem parsedFrom_VUnS (w : Word) : ParsedFrom w (parseVUnS (Head.of w) (FmtA.of w)) VUnSOps.g bodyVUnS :=
  .ofA (fun _ => rfl) fun h o hg => by simp [parseVUnS, a0, hg]

@[simp] theorem parsedFrom_VDiv (w : Word) : ParsedFrom w (parseVDiv (Head.of w) (FmtA.of w)) VDivOps.g bodyVDiv :=
  .ofA (fun _ => rfl) fun h o hg => by simp [parseVDiv, a0, hg]

@[simp] theorem parsedFrom_VUn (w : Word) : ParsedFrom w (parseVUn (Head.of w) (FmtA.of w)) VUnOps.g bodyVUn :=
  .ofA (fun _ => rfl) fun h o hg => by simp [parseVUn, a0, hg]

@[simp] theorem parsedFrom_VCmp (w : Word) : ParsedFrom w (parseVCmp (Head.of w) (FmtA.of w)) VCmpOps.g bodyVCmp :=
  .ofA (fun _ => rfl) fun h o hg => by simp [parseVCmp, a0, hg]

@[simp] theorem parsedFrom_VSel (w : Word) : ParsedFrom w (parseVSel (Head.of w) (FmtA.of w)) VSelOps.g bodyVSel :=
  .ofA (fun _ => rfl) fun h o hg => by simp [parseVSel, a0, hg]

@[simp] theorem parsedFrom_VBits (w : Word) : ParsedFrom w (parseVBits (Head.of w) (FmtA.of w)) VBitsOps.g bodyVBits :=
  .ofA (fun _ => rfl) fun h o hg => by simp [parseVBits, a0, hg]

@[simp] theorem parsedFrom_VCvt (w : Word) : ParsedFrom w (parseVCvt (Head.of w) (FmtA.of w)) VCvtOps.g bodyVCvt :=
  .ofA (fun _ => rfl) fun h o hg => by simp (disch := omega) [parseVCvt, a0, hg, extract_high, extract_low, -Nat.reduceAdd]

@[simp] theorem parsedFrom_VCvtCh (w : Word) : ParsedFrom w (parseVCvtCh (Head.of w) (FmtA.of w)) VCvtChOps.g bodyVCvtCh :=
  .ofA (fun _ => rfl) fun h o hg => by simp (disch := omega) [parseVCvtCh, a0, hg, extract_high, extract_low, -Nat.reduceAdd]

@[simp] theorem parsedFrom_VScale (w : Word) : ParsedFrom w (parseVScale (Head.of w) (FmtA.of w)) VScaleOps.g bodyVScale :=
  .ofA (fun _ => rfl) fun h o hg => by simp (disch := omega) [parseVScale, a0, hg, extract_high, extract_low, -Nat.reduceAdd]

/-- What vpack packs beside A is parsed by the type, so that only what its entry admits is given back (R148). -/
theorem parseVPack_of_ok {w : Word} {o : VPackOps} (hok : o.ok = true) (hg : (Head.of w).guard = o.g)
    (hb : w.extractLsb' 0 48 = bodyVPack o) : parseVPack (Head.of w) (FmtA.of w) = .ok o := by
  rw [FmtA.of_eq hb]
  simp [parseVPack, a0, hg, pPackB_ePackB hok]

@[simp] theorem parsedFrom_VUnpack (w : Word) :
    ParsedFrom w (parseVUnpack (Head.of w) (FmtA.of w)) VUnpackOps.g bodyVUnpack :=
  .ofA (fun _ => rfl) fun h o hg => by simp (disch := omega) [parseVUnpack, a0, hg, extract_high, extract_low, -Nat.reduceAdd]

@[simp] theorem parsedFrom_VBsc (w : Word) : ParsedFrom w (parseVBsc (Head.of w) (FmtA.of w)) VBscOps.g bodyVBsc :=
  .ofA (fun _ => rfl) fun h o hg => by simp (disch := omega) [parseVBsc, a0, hg, extract_high, extract_low, -Nat.reduceAdd]

@[simp] theorem parsedFrom_VBsx (w : Word) : ParsedFrom w (parseVBsx (Head.of w) (FmtA.of w)) VBsxOps.g bodyVBsx :=
  .ofA (fun _ => rfl) fun h o hg => by simp (disch := omega) [parseVBsx, a0, hg, extract_high, extract_low, -Nat.reduceAdd]

@[simp] theorem parsedFrom_VHad (w : Word) : ParsedFrom w (parseVHad (Head.of w) (FmtA.of w)) VHadOps.g bodyVHad :=
  .ofA (fun _ => rfl) fun h o hg => by simp (disch := omega) [parseVHad, a0, hg, extract_high, extract_low, -Nat.reduceAdd]

@[simp] theorem parsedFrom_VRed (w : Word) : ParsedFrom w (parseVRed (Head.of w) (FmtA.of w)) VRedOps.g bodyVRed :=
  .ofA (fun _ => rfl) fun h o hg => by simp [parseVRed, a0, hg]

@[simp] theorem parsedFrom_VFromS (w : Word) : ParsedFrom w (parseVFromS (Head.of w) (FmtA.of w)) VFromSOps.g bodyVFromS :=
  .ofA (fun _ => rfl) fun h o hg => by simp [parseVFromS, a0, hg]

@[simp] theorem parsedFrom_VIns (w : Word) : ParsedFrom w (parseVIns (Head.of w) (FmtA.of w)) VInsOps.g bodyVIns :=
  .ofA (fun _ => rfl) fun h o hg => by simp [parseVIns, a0, hg]

@[simp] theorem parsedFrom_VExt (w : Word) : ParsedFrom w (parseVExt (Head.of w) (FmtA.of w)) VExtOps.g bodyVExt :=
  .ofA (fun _ => rfl) fun h o hg => by simp [parseVExt, a0, hg]

@[simp] theorem parsedFrom_VSort (w : Word) : ParsedFrom w (parseVSort (Head.of w) (FmtA.of w)) VSortOps.g bodyVSort :=
  .ofA (fun _ => rfl) fun h o hg => by simp (disch := omega) [parseVSort, a0, hg, extract_high, extract_low, -Nat.reduceAdd]

@[simp] theorem parsedFrom_VHist (w : Word) : ParsedFrom w (parseVHist (Head.of w) (FmtA.of w)) VHistOps.g bodyVHist :=
  .ofA (fun _ => rfl) fun h o hg => by simp [parseVHist, a0, hg]

@[simp] theorem parsedFrom_VSdc (w : Word) : ParsedFrom w (parseVSdc (Head.of w) (FmtA.of w)) VSdcOps.g bodyVSdc :=
  .ofA (fun _ => rfl) fun h o hg => by simp (disch := omega) [parseVSdc, a0, hg, extract_high, extract_low, -Nat.reduceAdd]

@[simp] theorem parsedFrom_VSdcCh (w : Word) : ParsedFrom w (parseVSdcCh (Head.of w) (FmtA.of w)) VSdcChOps.g bodyVSdcCh :=
  .ofA (fun _ => rfl) fun h o hg => by simp (disch := omega) [parseVSdcCh, a0, hg, extract_high, extract_low, -Nat.reduceAdd]

@[simp] theorem parsedFrom_VSdAdd (w : Word) : ParsedFrom w (parseVSdAdd (Head.of w) (FmtA.of w)) VSdAddOps.g bodyVSdAdd :=
  .ofA (fun _ => rfl) fun h o hg => by simp [parseVSdAdd, a0, hg]

@[simp] theorem parsedFrom_VSdCmp (w : Word) : ParsedFrom w (parseVSdCmp (Head.of w) (FmtA.of w)) VSdCmpOps.g bodyVSdCmp :=
  .ofA (fun _ => rfl) fun h o hg => by simp [parseVSdCmp, a0, hg]

@[simp] theorem parsedFrom_VClass (w : Word) : ParsedFrom w (parseVClass (Head.of w) (FmtA.of w)) VClassOps.g bodyVClass :=
  .ofA (fun _ => rfl) fun h o hg => by simp [parseVClass, a0, hg]

@[simp] theorem parsedFrom_VDot (w : Word) : ParsedFrom w (parseVDot (Head.of w) (FmtA.of w)) VDotOps.g bodyVDot :=
  .ofA (fun _ => rfl) fun h o hg => by simp (disch := omega) [parseVDot, a0, hg, extract_high, extract_low, -Nat.reduceAdd]

/-! Format I -/

@[simp] theorem parsedFrom_SSI (w : Word) : ParsedFrom w (parseSSI (Head.of w) (FmtI.of w)) SSIOps.g bodySSI :=
  .ofI (fun _ => rfl) fun h o hg => by simp [parseSSI, hg]

@[simp] theorem parsedFrom_KSI (w : Word) : ParsedFrom w (parseKSI (Head.of w) (FmtI.of w)) KSIOps.g bodyKSI :=
  .ofI (fun _ => rfl) fun h o hg => by simp [parseKSI, hg]

@[simp] theorem parsedFrom_SI (w : Word) : ParsedFrom w (parseSI (Head.of w) (FmtI.of w)) SIOps.g bodySI :=
  .ofI (fun _ => rfl) fun h o hg => by simp [parseSI, hg]

/-! Format F -/

@[simp] theorem parsedFrom_Loop (w : Word) : ParsedFrom w (parseLoop (Head.of w) (FmtF.of w)) (fun _ => noGuard) bodyLoop :=
  .ofF (fun _ => rfl) fun h o hg => by simp (disch := omega) [parseLoop, eq_zero_of_noGuard hg, extract_high, extract_low, -Nat.reduceAdd]

@[simp] theorem parsedFrom_LMask (w : Word) :
    ParsedFrom w (parseLMask (Head.of w) (FmtF.of w)) (fun _ => noGuard) bodyLMask :=
  .ofF (fun _ => rfl) fun h o hg => by simp (disch := omega) [parseLMask, eq_zero_of_noGuard hg, extract_high, extract_low, -Nat.reduceAdd]

@[simp] theorem parsedFrom_Trap (w : Word) : ParsedFrom w (parseTrap (Head.of w) (FmtF.of w)) TrapOps.g bodyTrap :=
  .ofF (fun _ => rfl) fun h o hg => by simp [parseTrap, hg]

@[simp] theorem parsedFrom_Smov (w : Word) : ParsedFrom w (parseSmov (Head.of w) (FmtF.of w)) SmovOps.g bodySmov :=
  .ofF (fun _ => rfl) fun h o hg => by simp (disch := omega) [parseSmov, hg, extract_high, extract_low, -Nat.reduceAdd]

@[simp] theorem parsedFrom_CtxCtl (w : Word) : ParsedFrom w (parseCtxCtl (Head.of w) (FmtF.of w)) CtxCtlOps.g bodyCtxCtl :=
  .ofF (fun _ => rfl) fun h o hg => by simp [parseCtxCtl, hg]

@[simp] theorem parsedFrom_Mark0 (w : Word) : ParsedFrom w (parseMark0 (Head.of w) (FmtF.of w)) MarkOps.g bodyMark0 :=
  .ofF (fun _ => rfl) fun h o hg => by simp [parseMark0, hg]

@[simp] theorem parsedFrom_Mark1 (w : Word) : ParsedFrom w (parseMark1 (Head.of w) (FmtF.of w)) MarkOps.g bodyMark1 :=
  .ofF (fun _ => rfl) fun h o hg => by simp [parseMark1, hg]

@[simp] theorem parsedFrom_Mark2 (w : Word) : ParsedFrom w (parseMark2 (Head.of w) (FmtF.of w)) MarkOps.g bodyMark2 :=
  .ofF (fun _ => rfl) fun h o hg => by simp [parseMark2, hg]

@[simp] theorem parsedFrom_Tsamp (w : Word) : ParsedFrom w (parseTsamp (Head.of w) (FmtF.of w)) TsampOps.g bodyTsamp :=
  .ofF (fun _ => rfl) fun h o hg => by simp (disch := omega) [parseTsamp, hg, extract_high, extract_low, -Nat.reduceAdd]

@[simp] theorem parsedFrom_Brk (w : Word) : ParsedFrom w (parseBrk (Head.of w) (FmtF.of w)) BrkOps.g bodyBrk :=
  .ofF (fun _ => rfl) fun h o hg => by simp [parseBrk, hg]

@[simp] theorem parsedFrom_BrkArmed (w : Word) :
    ParsedFrom w (parseBrkArmed (Head.of w) (FmtF.of w)) BrkArmedOps.g bodyBrkArmed :=
  .ofF (fun _ => rfl) fun h o hg => by simp (disch := omega) [parseBrkArmed, hg, extract_high, extract_low, -Nat.reduceAdd]

@[simp] theorem parsedFrom_Tlbinv (w : Word) : ParsedFrom w (parseTlbinv (Head.of w) (FmtF.of w)) TlbinvOps.g bodyTlbinv :=
  .ofF (fun _ => rfl) fun h o hg => by simp (disch := omega) [parseTlbinv, hg, extract_high, extract_low, -Nat.reduceAdd]

@[simp] theorem parsedFrom_Post (w : Word) : ParsedFrom w (parsePost (Head.of w) (FmtF.of w)) PostOps.g bodyPost :=
  .ofF (fun _ => rfl) fun h o hg => by simp (disch := omega) [parsePost, hg, extract_high, extract_low, -Nat.reduceAdd]

@[simp] theorem parsedFrom_Fence (w : Word) : ParsedFrom w (parseFence (Head.of w) (FmtF.of w)) FenceOps.g bodyFence :=
  .ofF (fun _ => rfl) fun h o hg => by simp [parseFence, hg]

@[simp] theorem parsedFrom_Ctok (w : Word) : ParsedFrom w (parseCtok (Head.of w) (FmtF.of w)) CtokOps.g bodyCtok :=
  .ofF (fun _ => rfl) fun h o hg => by simp (disch := omega) [parseCtok, hg, extract_high, extract_low, -Nat.reduceAdd]

/-! Format M -/

@[simp] theorem parsedFrom_MB (w : Word) : ParsedFrom w (parseMB (Head.of w) (FmtM.of w)) MBOps.g bodyMB :=
  .ofM (fun _ => rfl) fun h o hg => by simp [parseMB, m0, hg, -Nat.reduceAdd]

@[simp] theorem parsedFrom_MRow (w : Word) : ParsedFrom w (parseMRow (Head.of w) (FmtM.of w)) MRowOps.g bodyMRow :=
  .ofM (fun _ => rfl) fun h o hg => by simp [parseMRow, m0, hg]

@[simp] theorem parsedFrom_MRowW (w : Word) : ParsedFrom w (parseMRowW (Head.of w) (FmtM.of w)) MRowWOps.g bodyMRowW :=
  .ofM (fun _ => rfl) fun h o hg => by simp [parseMRowW, hg]

@[simp] theorem parsedFrom_MN (w : Word) : ParsedFrom w (parseMN (Head.of w) (FmtM.of w)) MNOps.g bodyMN :=
  .ofM (fun _ => rfl) fun h o hg => by simp [parseMN, m0, hg]

@[simp] theorem parsedFrom_MOut (w : Word) : ParsedFrom w (parseMOut (Head.of w) (FmtM.of w)) MOutOps.g bodyMOut :=
  .ofM (fun _ => rfl) fun h o hg => by simp [parseMOut, m0, hg]

@[simp] theorem parsedFrom_MScaleW (w : Word) :
    ParsedFrom w (parseMScaleW (Head.of w) (FmtM.of w)) MScaleWOps.g bodyMScaleW :=
  .ofM (fun _ => rfl) fun h o hg => by simp [parseMScaleW, m0, hg, -Nat.reduceAdd]

@[simp] theorem parsedFrom_MScaleC (w : Word) :
    ParsedFrom w (parseMScaleC (Head.of w) (FmtM.of w)) MScaleCOps.g bodyMScaleC :=
  .ofM (fun _ => rfl) fun h o hg => by simp (disch := omega) [parseMScaleC, m0, hg, extract_high, extract_low, -Nat.reduceAdd]

@[simp] theorem parsedFrom_MBias (w : Word) : ParsedFrom w (parseMBias (Head.of w) (FmtM.of w)) MBiasOps.g bodyMBias :=
  .ofM (fun _ => rfl) fun h o hg => by simp [parseMBias, m0, hg]

@[simp] theorem parsedFrom_MRd (w : Word) : ParsedFrom w (parseMRd (Head.of w) (FmtM.of w)) MRdOps.g bodyMRd :=
  .ofM (fun _ => rfl) fun h o hg => by simp [parseMRd, m0, hg]

@[simp] theorem parsedFrom_MWr (w : Word) : ParsedFrom w (parseMWr (Head.of w) (FmtM.of w)) MWrOps.g bodyMWr :=
  .ofM (fun _ => rfl) fun h o hg => by simp [parseMWr, m0, hg]

@[simp] theorem parsedFrom_MSlot (w : Word) : ParsedFrom w (parseMSlot (Head.of w) (FmtM.of w)) MSlotOps.g bodyMSlot :=
  .ofM (fun _ => rfl) fun h o hg => by simp (disch := omega) [parseMSlot, m0, hg, extract_high, extract_low, -Nat.reduceAdd]

/-! Format W -/

@[simp] theorem parsedFrom_WFill (w : Word) : ParsedFrom w (parseWFill (Head.of w) (FmtW.of w)) WFillOps.g bodyWFill :=
  .ofW (fun _ => rfl) fun h o hg => by simp [parseWFill, w0, hg]

@[simp] theorem parsedFrom_WOff (w : Word) : ParsedFrom w (parseWOff (Head.of w) (FmtW.of w)) WOffOps.g bodyWOff :=
  .ofW (fun _ => rfl) fun h o hg => by simp [parseWOff, w0, hg]

@[simp] theorem parsedFrom_WShrink (w : Word) :
    ParsedFrom w (parseWShrink (Head.of w) (FmtW.of w)) WShrinkOps.g bodyWShrink :=
  .ofW (fun _ => rfl) fun h o hg => by simp [parseWShrink, w0, hg]

@[simp] theorem parsedFrom_WStat (w : Word) : ParsedFrom w (parseWStat (Head.of w) (FmtW.of w)) WStatOps.g bodyWStat :=
  .ofW (fun _ => rfl) fun h o hg => by simp (disch := omega) [parseWStat, w0, hg, extract_high, extract_low, -Nat.reduceAdd]

@[simp] theorem parsedFrom_WSave (w : Word) : ParsedFrom w (parseWSave (Head.of w) (FmtW.of w)) WSaveOps.g bodyWSave :=
  .ofW (fun _ => rfl) fun h o hg => by simp (disch := omega) [parseWSave, w0, hg, extract_high, extract_low, -Nat.reduceAdd]

@[simp] theorem parsedFrom_WRest (w : Word) : ParsedFrom w (parseWRest (Head.of w) (FmtW.of w)) WRestOps.g bodyWRest :=
  .ofW (fun _ => rfl) fun h o hg => by simp [parseWRest, w0, hg]

@[simp] theorem parsedFrom_Recv (w : Word) : ParsedFrom w (parseRecv (Head.of w) (FmtW.of w)) RecvOps.g bodyRecv :=
  .ofW (fun _ => rfl) fun h o hg => by simp [parseRecv, w0, hg]

@[simp] theorem parsedFrom_Peek (w : Word) : ParsedFrom w (parsePeek (Head.of w) (FmtW.of w)) PeekOps.g bodyPeek :=
  .ofW (fun _ => rfl) fun h o hg => by simp [parsePeek, w0, hg]

@[simp] theorem parsedFrom_Send (w : Word) : ParsedFrom w (parseSend (Head.of w) (FmtW.of w)) SendOps.g bodySend :=
  .ofW (fun _ => rfl) fun h o hg => by simp [parseSend, w0, hg]

@[simp] theorem parsedFrom_VcSet (w : Word) : ParsedFrom w (parseVcSet (Head.of w) (FmtW.of w)) VcSetOps.g bodyVcSet :=
  .ofW (fun _ => rfl) fun h o hg => by simp [parseVcSet, w0, hg]

@[simp] theorem parsedFrom_BarInit (w : Word) :
    ParsedFrom w (parseBarInit (Head.of w) (FmtW.of w)) BarInitOps.g bodyBarInit :=
  .ofW (fun _ => rfl) fun h o hg => by simp [parseBarInit, w0, hg]

@[simp] theorem parsedFrom_Bar (w : Word) : ParsedFrom w (parseBar (Head.of w) (FmtW.of w)) BarOps.g bodyBar :=
  .ofW (fun _ => rfl) fun h o hg => by simp [parseBar, w0, hg]

@[simp] theorem parsedFrom_BarRemote (w : Word) :
    ParsedFrom w (parseBarRemote (Head.of w) (FmtW.of w)) BarRemoteOps.g bodyBarRemote :=
  .ofW (fun _ => rfl) fun h o hg => by simp [parseBarRemote, w0, hg]

@[simp] theorem parsedFrom_Mem (w : Word) : ParsedFrom w (parseMem (Head.of w) (FmtW.of w)) MemOps.g bodyMem :=
  .ofW (fun _ => rfl) fun h o hg => by simp [parseMem, w0, hg]

@[simp] theorem parsedFrom_MWrt (w : Word) : ParsedFrom w (parseMWrt (Head.of w) (FmtW.of w)) MWrtOps.g bodyMWrt :=
  .ofW (fun _ => rfl) fun h o hg => by simp [parseMWrt, w0, hg]

/-! Format E -/

@[simp] theorem parsedFrom_MReq (w : Word) : ParsedFrom w (parseMReq (Head.of w) (FmtE.of w)) MReqOps.g bodyMReq :=
  .ofE (fun _ => rfl) fun h o hg => by simp [parseMReq, e0, hg]

@[simp] theorem parsedFrom_WReq (w : Word) : ParsedFrom w (parseWReq (Head.of w) (FmtE.of w)) WReqOps.g bodyWReq :=
  .ofE (fun _ => rfl) fun h o hg => by simp [parseWReq, e0, hg]

@[simp] theorem parsedFrom_Cpy (w : Word) : ParsedFrom w (parseCpy (Head.of w) (FmtE.of w)) CpyOps.g bodyCpy :=
  .ofE (fun _ => rfl) fun h o hg => by simp (disch := omega) [parseCpy, hg, extract_high, extract_low, -Nat.reduceAdd]

@[simp] theorem parsedFrom_Cpy3 (w : Word) : ParsedFrom w (parseCpy3 (Head.of w) (FmtE.of w)) Cpy3Ops.g bodyCpy3 :=
  .ofE (fun _ => rfl) fun h o hg => by simp [parseCpy3, e0, hg]

@[simp] theorem parsedFrom_At (w : Word) : ParsedFrom w (parseAt (Head.of w) (FmtE.of w)) AtOps.g bodyAt :=
  .ofE (fun _ => rfl) fun h o hg => by simp (disch := omega) [parseAt, e0, hg, extract_high, extract_low, -Nat.reduceAdd]

@[simp] theorem parsedFrom_AtF (w : Word) : ParsedFrom w (parseAtF (Head.of w) (FmtE.of w)) AtFOps.g bodyAtF :=
  .ofE (fun _ => rfl) fun h o hg => by simp (disch := omega) [parseAtF, hg, extract_high, extract_low, -Nat.reduceAdd]

@[simp] theorem parsedFrom_ACas (w : Word) : ParsedFrom w (parseACas (Head.of w) (FmtE.of w)) ACasOps.g bodyACas :=
  .ofE (fun _ => rfl) fun h o hg => by simp [parseACas, e0, hg]

@[simp] theorem parsedFrom_ACasQ (w : Word) : ParsedFrom w (parseACasQ (Head.of w) (FmtE.of w)) ACasQOps.g bodyACasQ :=
  .ofE (fun _ => rfl) fun h o hg => by simp [parseACasQ, e0, hg]

@[simp] theorem parsedFrom_PSS (w : Word) : ParsedFrom w (parsePSS (Head.of w) (FmtE.of w)) PSSOps.g bodyPSS :=
  .ofE (fun _ => rfl) fun h o hg => by simp [parsePSS, e0, hg]

@[simp] theorem parsedFrom_PSC (w : Word) : ParsedFrom w (parsePSC (Head.of w) (FmtE.of w)) PSCOps.g bodyPSC :=
  .ofE (fun _ => rfl) fun h o hg => by simp [parsePSC, e0, hg]

@[simp] theorem parsedFrom_PRun (w : Word) : ParsedFrom w (parsePRun (Head.of w) (FmtE.of w)) PRunOps.g bodyPRun :=
  .ofE (fun _ => rfl) fun h o hg => by simp [parsePRun, e0, hg]

@[simp] theorem parsedFrom_PS (w : Word) : ParsedFrom w (parsePS (Head.of w) (FmtE.of w)) PSOps.g bodyPS :=
  .ofE (fun _ => rfl) fun h o hg => by simp [parsePS, e0, hg]

@[simp] theorem parsedFrom_PResume (w : Word) :
    ParsedFrom w (parsePResume (Head.of w) (FmtE.of w)) PResumeOps.g bodyPResume :=
  .ofE (fun _ => rfl) fun h o hg => by simp [parsePResume, e0, hg]

@[simp] theorem parsedFrom_Pins (w : Word) : ParsedFrom w (parsePins (Head.of w) (FmtE.of w)) PinsOps.g bodyPins :=
  .ofE (fun _ => rfl) fun h o hg => by simp [parsePins, e0, hg]

@[simp] theorem parsedFrom_PTake (w : Word) : ParsedFrom w (parsePTake (Head.of w) (FmtE.of w)) PTakeOps.g bodyPTake :=
  .ofE (fun _ => rfl) fun h o hg => by simp [parsePTake, e0, hg]

@[simp] theorem parsedFrom_XFillR (w : Word) : ParsedFrom w (parseXFillR (Head.of w) (FmtE.of w)) XFillROps.g bodyXFillR :=
  .ofE (fun _ => rfl) fun h o hg => by simp [parseXFillR, e0, hg]

@[simp] theorem parsedFrom_XBar (w : Word) : ParsedFrom w (parseXBar (Head.of w) (FmtE.of w)) XBarOps.g bodyXBar :=
  .ofE (fun _ => rfl) fun h o hg => by simp [parseXBar, e0, hg]

end Sys2Proof.Safety
end

section
/-! SUPPORT. An instruction is parsed from its word. -/

namespace Sys2Proof.Safety

open Sys2Proof.Machine

section
variable {op fn : Nat} {g : Guard} {b : BitVec 48} {w : Word}

/-- The fields of a guarded word. -/
theorem fields_of_pack (e : some ((mkHead op fn g).pack b) = some w) :
    (Head.of w).op.toNat = op % 2 ^ 8 ∧ (Head.of w).fn.toNat = fn % 2 ^ 4 ∧ (Head.of w).guard = g ∧ w.extractLsb' 0 48 = b := by
  obtain rfl := Option.some.inj e
  rw [Head.of_pack]
  refine ⟨BitVec.toNat_ofNat .., BitVec.toNat_ofNat .., mkHead_guard .., ?_⟩
  simp (disch := omega) only [Head.pack, extract_low]
  exact BitVec.extractLsb'_eq_self

/-- The OP and the FN by which the parser finds a guarded word. -/
theorem opFn_of_pack {n k : Nat} (hop : (Head.of w).op.toNat = n) (hfn : (Head.of w).fn.toNat = k)
    (e : some ((mkHead op fn g).pack b) = some w) : n = op % 2 ^ 8 ∧ k = fn % 2 ^ 4 := by
  obtain ⟨ho, hf, -⟩ := fields_of_pack e
  exact ⟨hop.symm.trans ho, hfn.symm.trans hf⟩

/-- A field in bits [47:0] of a guarded word is one of its body. -/
theorem extract_of_pack {j n : Nat} (h : j + n ≤ 48) (e : some ((mkHead op fn g).pack b) = some w) :
    w.extractLsb' j n = b.extractLsb' j n := by
  obtain rfl := Option.some.inj e
  simp (disch := omega) only [Head.pack, extract_low]

end

/-! The field by which the parser tells two or three words of one OP and FN apart -/

@[simp] theorem select_VCvt (o : VCvtOps) : (bodyVCvt o).extractLsb' 15 1 = 0 := by
  simp (disch := omega) [bodyVCvt, FmtA.pack, a0, extract_high, extract_low, -Nat.reduceAdd]
@[simp] theorem select_VCvtCh (o : VCvtChOps) : (bodyVCvtCh o).extractLsb' 15 1 = 1 := by
  simp (disch := omega) [bodyVCvtCh, FmtA.pack, a0, extract_high, extract_low, -Nat.reduceAdd]
  rfl
@[simp] theorem select_VSdc (o : VSdcOps) : (bodyVSdc o).extractLsb' 15 1 = 0 := by
  simp (disch := omega) [bodyVSdc, FmtA.pack, a0, extract_high, extract_low, -Nat.reduceAdd]
@[simp] theorem select_VSdcCh (o : VSdcChOps) : (bodyVSdcCh o).extractLsb' 15 1 = 1 := by
  simp (disch := omega) [bodyVSdcCh, FmtA.pack, a0, extract_high, extract_low, -Nat.reduceAdd]
  rfl
@[simp] theorem select_MScaleW (o : MScaleWOps) : (bodyMScaleW o).extractLsb' 16 1 = 0 := by
  simp (disch := omega) [bodyMScaleW, FmtM.pack, m0, extract_high, extract_low, -Nat.reduceAdd]
@[simp] theorem select_MScaleC (o : MScaleCOps) : (bodyMScaleC o).extractLsb' 16 1 = 1 := by
  simp (disch := omega) [bodyMScaleC, FmtM.pack, m0, extract_high, extract_low, -Nat.reduceAdd]
@[simp] theorem select_Mark0 (o : MarkOps) : (bodyMark0 o).extractLsb' 40 8 = 0 := by
  simp (disch := omega) [bodyMark0, FmtF.pack, extract_high, -Nat.reduceAdd]
@[simp] theorem select_Mark1 (o : MarkOps) : (bodyMark1 o).extractLsb' 40 8 = 1 := by
  simp (disch := omega) [bodyMark1, FmtF.pack, extract_high, -Nat.reduceAdd]
@[simp] theorem select_Mark2 (o : MarkOps) : (bodyMark2 o).extractLsb' 40 8 = 2 := by
  simp (disch := omega) [bodyMark2, FmtF.pack, extract_high, -Nat.reduceAdd]
@[simp] theorem select_Brk (o : BrkOps) : (bodyBrk o).extractLsb' 47 1 = 0 := by
  simp (disch := omega) [bodyBrk, FmtF.pack, extract_high, -Nat.reduceAdd]
@[simp] theorem select_BrkArmed (o : BrkArmedOps) : (bodyBrkArmed o).extractLsb' 47 1 = 1 := by
  simp (disch := omega) [bodyBrkArmed, FmtF.pack, extract_high, -Nat.reduceAdd]

/-- The arm of the parser at the OP and FN of an instruction whose operands are parsed gives that instruction. -/
theorem map_eq_ok_of_parsedFrom {w : Word} {α : Type} {p : Except Reject α} {c : α → Instr} {g : α → Guard}
    {body : α → BitVec 48} {op fn : Nat} (enc : ∀ o, encode (c o) = some ((mkHead op fn (g o)).pack (body o))) (hp : ParsedFrom w p g body) {o : α}
    (e : encode (c o) = some w) : p.map c = .ok (c o) := by
  obtain ⟨-, -, hg, hb⟩ := fields_of_pack ((enc o).symm.trans e)
  exact congrArg (Except.map c) (hp o hg hb)

/-- The word of end and of nop. -/
theorem fields_of_unit {op : Nat} {w : Word} (e : some (BitVec.ofNat 8 op ++ (0 : BitVec 56)) = some w) :
    (Head.of w).op.toNat = op % 2 ^ 8 ∧ (Head.of w).fn.toNat = 0 ∧ ∀ i, parseUnit0 w i = .ok i := by
  obtain rfl := Option.some.inj e
  simp (disch := omega) only [Head.of, parseUnit0, extract_high, extract_low]
  simp

/-- The parser finds every instruction again. Its match on OP and FN stands in the goal once, and reduces to the instruction's own
arm where the two are known. -/
theorem parse_encode {i : Instr} {w : Word} (hwf : wf i = true) (e : encode i = some w) : parse w = .ok i := by
  unfold parse
  dsimp only
  generalize hop : (Head.of w).op.toNat = op
  generalize hfn : (Head.of w).fn.toNat = fn
  cases i
  all_goals try exact absurd e.symm (Option.some_ne_none w)
  case end_ | nop =>
    obtain ⟨ho, hf, hlow⟩ := fields_of_unit e
    obtain rfl := hop.symm.trans ho
    obtain rfl := hfn.symm.trans hf
    exact hlow _
  all_goals obtain ⟨rfl, rfl⟩ := opFn_of_pack hop hfn e
  case vpack =>
    obtain ⟨-, -, hg, hb⟩ := fields_of_pack e
    exact congrArg (Except.map Instr.vpack) (parseVPack_of_ok (Bool.and_eq_true_iff.1 hwf).2 hg hb)
  case vcvt | vsdc | mscaleWindow | brkpt =>
    exact (if_neg (by simp [extract_of_pack _ e])).trans (map_eq_ok_of_parsedFrom (fun _ => rfl) (by simp) e)
  case vcvtChannel | vsdcChannel | mscaleCode | brkptArmed | markRound =>
    exact (if_pos (by simp [extract_of_pack _ e])).trans (map_eq_ok_of_parsedFrom (fun _ => rfl) (by simp) e)
  case markCheckpoint =>
    refine (if_neg (by simp [extract_of_pack _ e])).trans ?_
    exact (if_pos (by simp [extract_of_pack _ e])).trans (map_eq_ok_of_parsedFrom (fun _ => rfl) (by simp) e)
  case markCut =>
    refine (if_neg (by simp [extract_of_pack _ e])).trans ?_
    exact (if_neg (by simp [extract_of_pack _ e])).trans (map_eq_ok_of_parsedFrom (fun _ => rfl) (by simp) e)
  all_goals exact map_eq_ok_of_parsedFrom (fun _ => rfl) (by simp) e

/-- Settles O2: the parser finds the instruction in its word, and well-formedness passes the checks of the entries. -/
theorem decodeEncode : Obligations.DecodeEncode := by
  unfold Obligations.DecodeEncode
  intro i w hwf e
  unfold decode
  exact except_bind_eq_ok.2 ⟨i, parse_encode hwf e, if_pos hwf⟩

/-- Settles O1: each word of the first eleven is its instruction's own, and the six others are rejected by name. -/
theorem decodeExamples : Obligations.DecodeExamples := by
  unfold Obligations.DecodeExamples
  rw [decodeEncode (.add ⟨⟨false, 0⟩, 3, 1, 2⟩) 0x0100000301020000 rfl rfl,
    decodeEncode (.addImm ⟨⟨false, 1⟩, 5, 6, 0xFFFFFFFF⟩) 0x01180506FFFFFFFF rfl rfl,
    decodeEncode (.cmpLt ⟨⟨true, 1⟩, 2, 10, 11⟩) 0x119200C20A0B0000 rfl rfl,
    decodeEncode (.li ⟨⟨false, 0⟩, 7, 0x80000000⟩) 0x1700070080000000 rfl rfl,
    decodeEncode (.cget ⟨⟨false, 0⟩, 4, 3, 2⟩) 0x2200000483000020 rfl rfl,
    decodeEncode .nop 0x3300000000000000 rfl rfl,
    decodeEncode (.trap ⟨⟨false, 0⟩, 9, 0x123⟩) 0x3400000900000123 rfl rfl,
    decodeEncode (.vadd ⟨⟨false, 0⟩, .rne, .f32, false, false, false, 1, 2, .v 3⟩) 0x40000A4142430000 rfl rfl,
    decodeEncode (.recv ⟨⟨false, 0⟩, 5, .v 2⟩) 0x9700028542000000 rfl rfl,
    decodeEncode (.mzero ⟨⟨false, 0⟩, 1, 32, 16⟩) 0x84000A0000000010 rfl rfl,
    decodeEncode (.cpy ⟨⟨false, 0⟩, 5, 10, 1, .c 2, 3, 4, true⟩) 0xC000050A8182030C rfl rfl]
  refine ⟨rfl, rfl, rfl, rfl, rfl, trivial, rfl, rfl, rfl, rfl, rfl, fun w hw i => ?_⟩
  suffices h : ∃ r, decode w = .error r by
    obtain ⟨r, h⟩ := h
    rw [h]
    exact nofun
  simp only [List.mem_cons, List.not_mem_nil, or_false] at hw
  obtain rfl | rfl | rfl | rfl | rfl | rfl := hw
  · exact ⟨.opcode, rfl⟩
  · exact ⟨.opcode, rfl⟩
  · exact ⟨.reserved, rfl⟩
  · exact ⟨.reserved, rfl⟩
  · exact ⟨.illFormed, rfl⟩
  · exact ⟨.reserved, rfl⟩

end Sys2Proof.Safety
end

section
/-! SUPPORT. The words on which bit 0 of the guard decides have the one shape of R62. -/

namespace Sys2Proof.Machine

open Sys2Proof.Safety Sys2Proof.Laws

/-- An outcome is that of a word whose guard g decides by its bit 0. -/
def Guarded (g : Guard) (s : State) (out : Out) : Prop := ∃ f, out = runWord g s f

namespace Guarded
variable {s : State}

theorem runWord (g : Guard) (f : CtxRef → Ctx → Out) : Guarded g s (runWord g s f) := ⟨f, rfl⟩
theorem pureWord (g : Guard) (f : Ctx → Ctx) : Guarded g s (pureWord g s f) := .runWord g _
theorem aluSSS (o : SSSOps) (f : Word → Word → Word) : Guarded o.g s (aluSSS o s f) := .pureWord o.g _
theorem aluSSI (o : SSIOps) (f : Word → Word → Word) : Guarded o.g s (aluSSI o s f) := .pureWord o.g _
theorem ctlWord (o : CtxCtlOps) (act : CtxRef → Ctx → CtxRef → Ctx → State) : Guarded o.g s (ctlWord o s act) := .runWord o.g _
theorem markWord (o : MarkOps) (act : Nat → Res → Word × (State → State)) : Guarded o.g s (markWord o s act) := .runWord o.g _
theorem atWord (o : AtOps) (i : Instr) (op : Byte) : Guarded o.g s (atWord o s i op) := .runWord o.g _
theorem atFWord (o : AtFOps) (i : Instr) (op : Byte) : Guarded o.g s (atFWord o s i op) := .runWord o.g _

/-- Under a false guard the context moves on, and nothing else changes. -/
theorem of_false {g : Guard} {r : CtxRef} {x : Ctx} {out : Out} (h : Guarded g s out) (hi : Issues s r x)
    (hg : x.guard0 g = false) : out = .next (s.finish r x) := by
  obtain ⟨f, rfl⟩ := h
  exact runWord_false hi hg f

end Guarded

/-- Every word that wordGuard gives a guard runs under that guard. -/
theorem guarded_of_wordGuard {i : Instr} {g : Guard} (s : State) (h : wordGuard i = some g) : Guarded g s (exec i s) := by
  cases i
  all_goals try exact absurd h.symm (Option.some_ne_none g)
  all_goals
    obtain rfl := Option.some.inj h
    dsimp only [exec]
  case add | sub | mul | mulh | mulhN | mulhSn | div | divN | rem | remN | and_ | or_ | xor | andn | shl | shr | sra | rot |
      min | minN | max | maxN | bfx | bfxI =>
    exact .aluSSS _ _
  case addImm | subImm | mulImm | mulhImm | mulhNImm | mulhSnImm | divImm | divNImm | remImm | remNImm | andImm | orImm |
      xorImm | andnImm | shlImm | shrImm | sraImm | rotImm | minImm | minNImm | maxImm | maxNImm =>
    exact .aluSSI _ _
  case cmpEq | cmpEqImm | cmpNe | cmpNeImm | cmpLt | cmpLtImm | cmpLe | cmpLeImm | cmpLtN | cmpLtNImm | cmpLeN | cmpLeNImm |
      sel | clz | ctz | popc | extI8 | extN8 | extI16 | extN16 | extI32 | extN32 | bfi | li | lih | mov | kand | kor | kxor
      | kandn | knot | kmovKToS | kmovSToK | kpopc | kfirst | cget | vext =>
    exact .pureWord _ _
  case ctxctlFreeze | ctxctlResume | ctxctlKill | ctxctlRestart =>
    exact .ctlWord _ _
  case markRound | markCheckpoint | markCut =>
    exact .markWord _ _
  case aadd | amin | amax | aand | aor | axor | axchg =>
    exact .atWord _ _ _
  case aaddF | aminF | amaxF | aandF | aorF | axorF | axchgF =>
    exact .atFWord _ _ _
  all_goals exact .runWord _ _

/-- Settles O15: the word runs under its guard, so with bit 0 of it 0 it completes, and counts as one completed (log 73). -/
theorem falseGuardHasNoEffect : Obligations.FalseGuardHasNoEffect := by
  unfold Obligations.FalseGuardHasNoEffect
  intro i g s r x hw hi hg
  exact completes_of_finish ((guarded_of_wordGuard s hw).of_false hi hg)

end Sys2Proof.Machine
end

section
/-! SUPPORT. The words of a supervisor context ask for it before all else (R68). -/

namespace Sys2Proof.Machine

open Sys2Proof.Safety Sys2Proof.Laws

section
variable {s : State} {r : CtxRef} {x : Ctx} (hi : Issues s r x) (hsup : x.sup = false)
include hi hsup

/-- A word that first turns away a context that is no supervisor. -/
theorem runWord_priv {g : Guard} (hg : x.guard0 g = true) (k : CtxRef → Ctx → State) :
    runWord g s (fun r x => .next (if !x.sup then s.trap r x tPRIV 0 0 else k r x)) = .next (s.trap r x tPRIV 0 0) := by
  rw [runWord_true hi hg, hsup]
  rfl

theorem ctlWord_priv {o : CtxCtlOps} (hg : x.guard0 o.g = true) (act : CtxRef → Ctx → CtxRef → Ctx → State) :
    ctlWord o s act = .next (s.trap r x tPRIV 0 0) := runWord_priv hi hsup hg _

theorem markWord_priv {o : MarkOps} (hg : x.guard0 o.g = true) (act : Nat → Res → Word × (State → State)) :
    markWord o s act = .next (s.trap r x tPRIV 0 0) := runWord_priv hi hsup hg _

end

/-- Settles O20: each of the ten words asks for a supervisor context before all else. -/
theorem supervisorWordsTrapPriv : Obligations.SupervisorWordsTrapPriv := by
  unfold Obligations.SupervisorWordsTrapPriv
  intro s r x hi hsup
  refine ⟨fun o hg => (exec_mslot o s).trans ?_, fun o hg => (exec_pcfg o s).trans ?_, fun o hg => (exec_ctxctlFreeze o s).trans ?_,
    fun o hg => (exec_ctxctlResume o s).trans ?_, fun o hg => (exec_ctxctlKill o s).trans ?_,
    fun o hg => (exec_ctxctlRestart o s).trans ?_, fun o hg => (exec_markRound o s).trans ?_,
    fun o hg => (exec_markCheckpoint o s).trans ?_, fun o hg => (exec_markCut o s).trans ?_, fun o hg => (exec_tlbinv o s).trans ?_⟩
  · exact runWord_priv hi hsup hg _
  · exact runWord_priv hi hsup hg _
  · exact ctlWord_priv hi hsup hg _
  · exact ctlWord_priv hi hsup hg _
  · exact ctlWord_priv hi hsup hg _
  · exact ctlWord_priv hi hsup hg _
  · exact markWord_priv hi hsup hg _
  · exact markWord_priv hi hsup hg _
  · exact markWord_priv hi hsup hg _
  · exact runWord_priv hi hsup hg _

end Sys2Proof.Machine
end

section
/-! SUPPORT. The shards of a priority pool: the insert step and the updates that reach a shard (R300, R305, R306, R312). -/

namespace Sys2Proof.Machine

open Sys2Proof.Safety

/-! Shards by key -/

@[simp] theorem State.shard_setShard (s : State) (p q : ShardRef) (x : Shard) :
    (s.setShard p x).shard q = if q = p then x else s.shard q := by
  rw [State.shard, State.setShard, tget_tput]
  split <;> rfl

@[simp] theorem State.pool?_setPool (s : State) (k q : Nat) (x : Pool) :
    (s.setPool k x).pool? q = if q = k then some x else s.pool? q := tget_tput ..

theorem State.shard_congr {s t : State} (h : t.shards = s.shards) (q : ShardRef) : t.shard q = s.shard q := by
  rw [State.shard, h, State.shard]

/-- A shard written as it was reads as before. -/
theorem State.shard_setShard_same (s : State) (p q : ShardRef) : (s.setShard p (s.shard p)).shard q = s.shard q := by
  rw [State.shard_setShard]
  split
  · next h => rw [h]
  · rfl

theorem onlyShards_setShard (s : State) (p : ShardRef) (x : Shard) : OnlyShards s (s.setShard p x) := rfl

theorem OnlyShards.trans {s t u : State} (h1 : OnlyShards s t) (h2 : OnlyShards t u) : OnlyShards s u := by
  rw [OnlyShards, h2, h1]

/-- A message from p is last in the inbox of the shard that it goes to, due in a later cycle. -/
theorem shard_poolSend (s : State) (p : ShardRef) (dest : Nat) (m : PMsg) : ∃ d, s.cycle < d ∧ ∀ q, (s.poolSend p dest m).shard q =
    if q = ⟨p.slot, dest⟩ then { s.shard ⟨p.slot, dest⟩ with inbox := (s.shard ⟨p.slot, dest⟩).inbox ++ [(d, p.die, m)] } else s.shard q :=
  ⟨s.cycle + 1 + Config.latency s.serial, by omega, fun q => State.shard_setShard ..⟩

/-- Of a shard a message changes the inbox alone. -/
theorem shard_poolSend_inbox (s : State) (p : ShardRef) (dest : Nat) (m : PMsg) (q : ShardRef) :
    ∃ l, (s.poolSend p dest m).shard q = { s.shard q with inbox := l } := by
  obtain ⟨d, -, h⟩ := shard_poolSend s p dest m
  rw [h]
  split
  · next hq => exact ⟨_, by rw [hq]⟩
  · exact ⟨_, rfl⟩

theorem onlyShards_poolSend (s : State) (p : ShardRef) (dest : Nat) (m : PMsg) : OnlyShards s (s.poolSend p dest m) := rfl

/-! Elements by rank -/

theorem mem_insertBy {α : Type} (lt : α → α → Bool) (a b : α) (l : List α) : b ∈ insertBy lt a l ↔ b = a ∨ b ∈ l := by
  induction l with
  | nil => simp [insertBy]
  | cons c l ih =>
    rw [insertBy]
    split
    · exact List.mem_cons
    · rw [List.mem_cons, ih, List.mem_cons]
      tauto

theorem length_insertBy {α : Type} (lt : α → α → Bool) (a : α) (l : List α) : (insertBy lt a l).length = l.length + 1 := by
  induction l with
  | nil => rfl
  | cons c l ih =>
    rw [insertBy]
    split
    · rfl
    · rw [List.length_cons, ih, List.length_cons]

theorem Shard.full_of_lt {x : Shard} (h : x.elems.length < 131072) : x.full = false := by
  unfold Shard.full
  exact decide_eq_false (by omega)

/-! The queue and what has come for it -/

theorem foldl_eq_self {α β : Type} {f : β → α → β} {b : β} (l : List α) (h : ∀ a ∈ l, f b a = b) : l.foldl f b = b :=
  List.foldlRecOn (motive := (· = b)) l f rfl fun _ hc a ha => hc ▸ h a ha

/-- A queue whose takes all stand is left as it is. -/
theorem queueRun_of_stands {s : State} {p : ShardRef} (h : QueueStands s p) : s.queueRun p = s.setShard p (s.shard p) := by
  have hfilter : (s.shard p).queue.filter (fun id => (s.cmd? id).isSome) = (s.shard p).queue :=
    List.filter_eq_self.2 fun k hk => by
      obtain ⟨d, hd, -⟩ := h k hk
      rw [hd]
      rfl
  unfold State.queueRun
  simp only [hfilter]
  rw [foldl_eq_self _ fun k hk => ?_]
  · rw [State.shard_setShard, if_pos rfl, if_pos rfl]
  · obtain ⟨d, hd, hw⟩ := h k hk
    have hd' : (s.setShard p (s.shard p)).cmd? k = some d := hd
    simp only [hd', hw, Bool.false_eq_true, if_false]

theorem Shard.leftOver_none {s : State} {p : ShardRef} (h : NoneLeftOver s p) : (s.shard p).leftOver s.cycle = none := by
  unfold Shard.leftOver
  split
  · rfl
  · next hq =>
    have hq' : (s.shard p).queue = [] := by simpa using hq
    refine List.findSome?_eq_none_iff.2 fun m hm => ?_
    split
    · next e he => 
      rcases (h.resolve_left (fun hn => hn hq')) m hm with hlt | hk
      · rw [if_neg (by omega)]
      · exact absurd ⟨e, he⟩ hk
    · rfl

/-! The insert step -/

section InsertStep
variable {s : State} {p : ShardRef} (harg : s.arg = .shard p) (hq : QueueStands s p)
include harg hq

theorem poolInsert_used (hins : (s.shard p).inserted = true) : exec .poolInsertAccept s = .next (s.setShard p (s.shard p)) := by
  simp only [exec_poolInsertAccept, execPoolInsertAccept, harg, queueRun_of_stands hq, State.shard_setShard_same, hins, if_true]

theorem poolInsert_leftOver (hins : (s.shard p).inserted = false) (hfull : (s.shard p).full = false) {src : Nat} {e : PElem} {y : Shard}
    (hl : (s.shard p).leftOver s.cycle = some (src, e, y)) : exec .poolInsertAccept s =
      .next ((s.setShard p (s.shard p)).setShard p { y.insert e with movedIn := y.movedIn + 1, inserted := true }) := by
  have hl' : (s.shard p).leftOver (s.setShard p (s.shard p)).cycle = some (src, e, y) := hl
  simp only [exec_poolInsertAccept, execPoolInsertAccept, harg, queueRun_of_stands hq, State.shard_setShard_same, hins, hl', hfull,
    Bool.false_eq_true, if_false]

/-- The shard that has inserted the first of its migrated elements. -/
def Shard.migrated (x : Shard) (e : PElem) (es : List PElem) : Shard :=
  { x.insert e with migrating := es, movedIn := x.movedIn + 1, inserted := true }

theorem poolInsert_migrated (hins : (s.shard p).inserted = false) (hfull : (s.shard p).full = false) (hn : NoneLeftOver s p) {e : PElem}
    {es : List PElem} (hm : (s.shard p).migrating = e :: es) : exec .poolInsertAccept s = .next (
      if es = [] then ((s.setShard p (s.shard p)).setShard p { (s.shard p).migrated e es with reqTo := none, noteSeen := false }).poolSend p
        (s.shard p).migFrom (.ack (s.shard p).migKeys)
      else (s.setShard p (s.shard p)).setShard p ((s.shard p).migrated e es)) := by
  have hl' : (s.shard p).leftOver (s.setShard p (s.shard p)).cycle = none := Shard.leftOver_none hn
  simp only [exec_poolInsertAccept, execPoolInsertAccept, harg, queueRun_of_stands hq, State.shard_setShard_same, hins, hl', hfull, hm,
    Bool.false_eq_true, if_false]
  cases es <;> rfl

theorem poolInsert_pins (hins : (s.shard p).inserted = false) (hn : NoneLeftOver s p) (hm : (s.shard p).migrating = []) {c : Cmd}
    (hc : (s.setShard p (s.shard p)).nextPins p = some c) : exec .poolInsertAccept s =
      .next ((s.setShard p (s.shard p)).answer c (acceptPins (s.setShard p (s.shard p)) c)) := by
  have hl' : (s.shard p).leftOver (s.setShard p (s.shard p)).cycle = none := Shard.leftOver_none hn
  simp only [exec_poolInsertAccept, execPoolInsertAccept, harg, queueRun_of_stands hq, State.shard_setShard_same, hins, hl', hm, hc,
    Bool.false_eq_true, if_false]

end InsertStep

/-! A pins that is accepted -/

section Pins
variable {s : State} {p : ShardRef} {c : Cmd} {o : PinsOps} {pl : Pool} (hcmds : s.cmds = [c]) (hins : c.ins = .pins o)
  (hph : c.phase = .offered) (hdie : c.port.die = p.die) (hafter : c.after = []) (hslot : s.poolSlot c = some p.slot)

include hcmds hins hph hdie hafter hslot in
theorem nextPins_of_lone : s.nextPins p = some c := by
  simp only [State.nextPins, hcmds, List.filter_cons, hph, hdie, hins, hslot, hafter, beq_self_eq_true, List.all_nil, Bool.and_self, if_true,
    List.filter_nil]
  rfl

/-- The element that the pins inserts. -/
def State.pinsElem (s : State) (p : ShardRef) (c : Cmd) (o : PinsOps) : PElem :=
  { key := c.w.getD 0 0, val := c.w.getD 1 0, die := p.die, seq := (s.shard p).seq, birth := s.cycle, rel := if o.rel then some c.id else none }

/-- The shard that has accepted it. -/
def Shard.accepts (x : Shard) (e : PElem) : Shard := { x.insert e with seq := x.seq + 1, accepted := x.accepted + 1, inserted := true }

variable (hpool : s.pool? p.slot = some pl) (hconf : pl.configured.isSome = true)

include hslot hpool hconf in
theorem poolFor_configured : s.poolFor c = some (p.slot, s) := by
  simp only [State.poolFor, hslot, hpool, hconf, if_true]

include hins hdie hafter hslot hpool hconf in
theorem acceptPins_posted (hagree : pl.agree = .idle) (hnot : (s.shard p).inserted = false) (htook : (s.shard p).took = false)
    (hmig : (s.shard p).migrating = []) (hfull : (s.shard p).full = false) (hseq : (s.shard p).seq ≠ 2 ^ 60) : acceptPins s c =
      .posted stOK ((s.setShard p ((s.shard p).accepts (s.pinsElem p c o))).dropCmd c.id) := by
  have hp : (⟨p.slot, c.port.die⟩ : ShardRef) = p := by rw [hdie]
  simp only [acceptPins, hafter, List.all_nil, Bool.not_true, Bool.false_eq_true, if_false, poolFor_configured hslot hpool hconf, hp, hpool, hagree,
    hnot, htook, hmig, hfull, Bool.or_self, List.isEmpty_nil, hseq, hins]
  rw [State.pinsElem, ← hdie]
  rfl

end Pins

/-- A posted word that does not end in an error completes with its status. -/
theorem answer_posted {s t : State} {c : Cmd} {x : Ctx} {st : Word} (hx : t.ctx? c.r = some x) (hst : errStatus st = false) :
    s.answer c (.posted st t) = t.finish c.r (x.ss (statusReg c.ins) st) := by
  simp only [State.answer, hst, Bool.false_eq_true, if_false, hx, State.statusDone, Bool.false_and]

/-! Updates of a pool's parameters -/

/-- The shard under the parameters of descriptor words w0 and w1. -/
def Shard.configured (x : Shard) (pl : Pool) (now : Nat) (w0 w1 : Word) : Shard :=
  { x with inbox := [], bound := w0.toNat % 2 ^ 6, xper := w0.toNat / 2 ^ 15 % 2 ^ 17, agemax := w1.toNat % 2 ^ 32, waitmax := w1.toNat / 2 ^ 32,
           nextX := nextExchange (pl.configured.getD 0) now (w0.toNat / 2 ^ 15 % 2 ^ 17) }

theorem poolParams_words (w0 w1 : Word) : poolParams w0.toNat w1.toNat =
    (w0.toNat % 2 ^ 6, w0.toNat / 2 ^ 15 % 2 ^ 17, w1.toNat % 2 ^ 32, w1.toNat / 2 ^ 32) := by
  have hw : w1.toNat / 2 ^ 32 % 2 ^ 32 = w1.toNat / 2 ^ 32 := Nat.mod_eq_of_lt (by have := w1.isLt; omega)
  rw [← hw]
  simp [poolParams, field]

theorem Shard.arrived_none {x : Shard} {now : Nat} {kind : PMsg → Bool} (h : ∀ m ∈ x.inbox, now < m.1 ∨ kind m.2.2 = false) :
    x.arrived now kind = ([], x) := by
  have hdue : ∀ m ∈ x.inbox, (decide (m.1 ≤ now) && kind m.2.2) = false := fun m hm => by
    rcases h m hm with hlt | hk
    · rw [decide_eq_false (by omega), Bool.false_and]
    · rw [hk, Bool.and_false]
  unfold Shard.arrived
  dsimp only
  rw [List.filter_eq_nil_iff.2 fun m hm => by rw [hdue m hm]; decide, List.filter_eq_self.2 fun m hm => by rw [hdue m hm]; rfl]
  rfl

theorem Shard.arrived_one {x : Shard} {now due src : Nat} {m : PMsg} {kind : PMsg → Bool} (hin : x.inbox = [(due, src, m)]) (hdue : due ≤ now)
    (hk : kind m = true) : x.arrived now kind = ([(src, m)], { x with inbox := [] }) := by
  unfold Shard.arrived
  rw [hin]
  simp only [List.filter_cons, hdue, hk, decide_true, Bool.and_self, if_true, Bool.not_true, Bool.false_eq_true, if_false, List.filter_nil]
  rfl

section PcfgApply
variable {s : State} {p : ShardRef} (harg : s.arg = .shard p)
include harg

theorem pcfgApply_nothing (h : NothingDue (s.shard p) s.cycle fun m => ∃ i a b, m = .cfg i a b) :
    exec .pcfgApply s = .next (s.setShard p (s.shard p)) := by
  simp only [exec_pcfgApply, execPcfgApply, harg]
  rw [Shard.arrived_none fun m hm => ?_]
  · rfl
  · refine (h m hm).imp_right fun hk => ?_
    split
    · next i a b he => exact absurd ⟨i, a, b, he⟩ hk
    · rfl

theorem pcfgApply_one {due src id n : Nat} {w0 w1 : Word} {pl : Pool} (hin : (s.shard p).inbox = [(due, src, .cfg id w0 w1)]) (hdue : due ≤ s.cycle)
    (hpool : s.pool? p.slot = some pl) (hcfgs : pl.cfgs = [(id, n)]) : ∃ x, exec .pcfgApply s = .next (
      let u := (s.setShard p x).setShard p ((s.shard p).configured pl s.cycle w0 w1)
      if n ≤ 1 then (u.setPool p.slot { pl with cfgs := [] }).reply id stOK [] else u.setPool p.slot { pl with cfgs := [(id, n - 1)] }) := by
  refine ⟨{ s.shard p with inbox := [] }, ?_⟩
  have hpool' (x : Shard) : (s.setShard p x).pool? p.slot = some pl := hpool
  simp only [exec_pcfgApply, execPcfgApply, harg]
  rw [Shard.arrived_one hin hdue rfl]
  simp only [List.foldl_cons, List.foldl_nil, hpool', poolParams_words, hcfgs, List.find?_cons, beq_self_eq_true, List.filter_cons, List.filter_nil,
    List.map_cons, List.map_nil, ne_eq, not_true_eq_false, decide_false, Bool.false_eq_true, if_false, if_true, State.modShard, State.shard_setShard]
  by_cases hn : n ≤ 1
  · have h0 : n - 1 = 0 := by omega
    simp only [hn, h0, if_true]
    rfl
  · have h0 : n - 1 ≠ 0 := by omega
    simp only [hn, h0, if_false]
    rfl

end PcfgApply

/-! The statement's clauses -/

section Clauses
variable {s : State} {p : ShardRef} (harg : s.arg = .shard p)
include harg

theorem poolInsert_inserts_leftOver {due src : Nat} {e : PElem} (hqueue : (s.shard p).queue = []) (hins : (s.shard p).inserted = false)
    (hlen : (s.shard p).elems.length < 131072) (hin : (s.shard p).inbox = [(due, src, .remoteAnswer (some e))]) (hdue : due ≤ s.cycle) :
    ∃ t es, exec .poolInsertAccept s = .next t ∧ OnlyShards s t ∧ (∀ r, r ≠ p → t.shard r = s.shard r) ∧ (∀ f, f ∈ es ↔ f = e ∨ f ∈ (s.shard p).elems) ∧
      es.length = (s.shard p).elems.length + 1 ∧
      t.shard p = { s.shard p with inbox := [], remoteOut := false, elems := es, movedIn := (s.shard p).movedIn + 1, inserted := true } := by
  have hq : QueueStands s p := fun k hk => absurd hk (by rw [hqueue]; exact List.not_mem_nil)
  have hl : (s.shard p).leftOver s.cycle = some (src, e, { s.shard p with inbox := [], remoteOut := false }) := by
    simp only [Shard.leftOver, hqueue, hin, List.isEmpty_nil, Bool.not_true, Bool.false_eq_true, if_false, List.findSome?_cons, hdue, if_true,
      List.erase_cons_head]
  refine ⟨_, insertBy pelemLt e (s.shard p).elems, poolInsert_leftOver harg hq hins (Shard.full_of_lt hlen) hl, rfl, fun r hr => ?_,
    fun f => mem_insertBy .., length_insertBy .., ?_⟩
  · rw [State.shard_setShard, if_neg hr, State.shard_setShard_same]
  · rw [State.shard_setShard, if_pos rfl]
    rfl

theorem poolInsert_inserts_migrated {e : PElem} {es : List PElem} (hq : QueueStands s p) (hn : NoneLeftOver s p) (hins : (s.shard p).inserted = false)
    (hm : (s.shard p).migrating = e :: es) (hlen : (s.shard p).elems.length < 131072) :
    ∃ t y, exec .poolInsertAccept s = .next t ∧ t.shard p = y ∧ (∀ f, f ∈ y.elems ↔ f = e ∨ f ∈ (s.shard p).elems) ∧
      y.elems.length = (s.shard p).elems.length + 1 ∧ y.migrating = es ∧ y.movedIn = (s.shard p).movedIn + 1 ∧ y.inserted = true ∧ OnlyShards s t ∧
      (es = [] → (s.shard p).migFrom ≠ p.die → y.reqTo = none ∧ y.noteSeen = false ∧ MessageSent s t p (s.shard p).migFrom (.ack (s.shard p).migKeys)) ∧
      (es ≠ [] → ∀ r, r ≠ p → t.shard r = s.shard r) := by
  have hex := poolInsert_migrated harg hq hins (Shard.full_of_lt hlen) hn hm
  have hmem (f : PElem) : f ∈ insertBy pelemLt e (s.shard p).elems ↔ f = e ∨ f ∈ (s.shard p).elems := mem_insertBy ..
  have hlength := length_insertBy pelemLt e (s.shard p).elems
  by_cases hes : es = []
  · rw [if_pos hes] at hex
    generalize hu : (s.setShard p (s.shard p)).setShard p { (s.shard p).migrated e es with reqTo := none, noteSeen := false } = u at hex
    have hshard (q : ShardRef) : u.shard q = if q = p then { (s.shard p).migrated e es with reqTo := none, noteSeen := false } else s.shard q := by
      rw [← hu, State.shard_setShard, State.shard_setShard_same]
    have hcycle : u.cycle = s.cycle := by rw [← hu]; rfl
    have honly : OnlyShards s u := by rw [← hu]; rfl
    obtain ⟨l, hl⟩ := shard_poolSend_inbox u p (s.shard p).migFrom (.ack (s.shard p).migKeys) p
    obtain ⟨d, hd, hsend⟩ := shard_poolSend u p (s.shard p).migFrom (.ack (s.shard p).migKeys)
    rw [hshard p, if_pos rfl] at hl
    refine ⟨_, _, hex, hl, hmem, hlength, rfl, rfl, rfl, OnlyShards.trans honly (onlyShards_poolSend ..), fun _ hne => ⟨rfl, rfl, d, hcycle ▸ hd, ?_⟩,
      fun h => absurd hes h⟩
    rw [hsend, if_pos rfl, hshard, if_neg fun h => hne (congrArg ShardRef.die h)]
  · rw [if_neg hes] at hex
    refine ⟨_, _, hex, (State.shard_setShard ..).trans (if_pos rfl), hmem, hlength, rfl, rfl, rfl, rfl, fun h => absurd h hes, fun _ r hr => ?_⟩
    rw [State.shard_setShard, if_neg hr, State.shard_setShard_same]

theorem poolInsert_accepts_pins {c : Cmd} {cx : Ctx} {o : PinsOps} {pl : Pool} (hq : QueueStands s p) (hn : NoneLeftOver s p)
    (hins : (s.shard p).inserted = false) (htook : (s.shard p).took = false) (hm : (s.shard p).migrating = [])
    (hlen : (s.shard p).elems.length < 131072) (hcmds : s.cmds = [c]) (hci : c.ins = .pins o) (hph : c.phase = .offered)
    (hdie : c.port.die = p.die) (hafter : c.after = []) (hslot : s.poolSlot c = some p.slot) (hpool : s.pool? p.slot = some pl)
    (hconf : pl.configured.isSome = true) (hagree : pl.agree = .idle) (hseq : (s.shard p).seq < 2 ^ 60) (hcx : s.ctx? c.r = some cx) :
    ∃ t y z, exec .poolInsertAccept s = .next t ∧ t.shard p = z ∧ (∀ f, f ∈ z.elems ↔ f = s.pinsElem p c o ∨ f ∈ (s.shard p).elems) ∧
      z.elems.length = (s.shard p).elems.length + 1 ∧ z.seq = (s.shard p).seq + 1 ∧ z.accepted = (s.shard p).accepted + 1 ∧ z.inserted = true ∧
      (∀ r, r ≠ p → t.shard r = s.shard r) ∧ t.cmds = [] ∧ t.ctx? c.r = some y ∧ Past (cx.ss o.d 0) y ∧ SameBytes s t := by
  have hsame := State.shard_setShard_same s p p
  have hacc := acceptPins_posted (s := s.setShard p (s.shard p)) hci hdie hafter hslot hpool hconf hagree (by rw [hsame]; exact hins)
    (by rw [hsame]; exact htook) (by rw [hsame]; exact hm) (by rw [hsame]; exact Shard.full_of_lt hlen) (by rw [hsame]; exact hseq.ne)
  have helem : (s.setShard p (s.shard p)).pinsElem p c o = s.pinsElem p c o := by rw [State.pinsElem, hsame]; rfl
  have hex := poolInsert_pins harg hq hins hn hm (nextPins_of_lone (s := s.setShard p (s.shard p)) hcmds hci hph hdie hafter hslot)
  rw [hacc, hsame, helem] at hex
  replace hex := hex.trans (congrArg Host.Outcome.next (answer_posted (x := cx) (by exact hcx) rfl))
  rw [hci] at hex
  refine ⟨_, _, (s.shard p).accepts (s.pinsElem p c o), hex, ?_, fun f => mem_insertBy .., length_insertBy .., rfl, rfl, rfl, fun r hr => ?_, ?_,
    (State.ctx?_finish ..).trans (if_pos rfl), Laws.past_complete _, Laws.sameBytes_of ?_ ?_ ?_ ?_ ?_ ?_⟩
  · rw [State.shard_congr (State.finish_shards ..)]
    exact (State.shard_setShard ..).trans (if_pos rfl)
  · rw [State.shard_congr (State.finish_shards ..)]
    exact (State.shard_setShard ..).trans ((if_neg hr).trans (State.shard_setShard_same ..))
  · rw [State.finish_cmds]
    simp [State.dropCmd, State.setShard, hcmds]
  · exact State.finish_gddr ..
  · exact State.finish_bulk ..
  · exact State.finish_host ..
  · exact State.finish_elems ..
  · exact State.finish_gddrTags ..
  · exact State.finish_bulkTags ..

theorem pcfgApply_configures {due src id n : Nat} {w0 w1 : Word} {pl : Pool} (hin : (s.shard p).inbox = [(due, src, .cfg id w0 w1)])
    (hdue : due ≤ s.cycle) (hpool : s.pool? p.slot = some pl) (hcfgs : pl.cfgs = [(id, n)]) :
    ∃ t, exec .pcfgApply s = .next t ∧ (∀ r, r ≠ p → t.shard r = s.shard r) ∧ t.shard p = (s.shard p).configured pl s.cycle w0 w1 ∧
      (1 < n → t.pool? p.slot = some { pl with cfgs := [(id, n - 1)] } ∧ t.cmds = s.cmds) ∧
      (n = 1 → t.pool? p.slot = some { pl with cfgs := [] } ∧ ∀ c, s.cmds = [c] → c.id = id →
        t.cmds = [{ c with phase := .replied, status := some 0, bytes := [] }]) ∧ t.ctxs = s.ctxs ∧ SameBytes s t := by
  obtain ⟨x, hex⟩ := pcfgApply_one harg hin hdue hpool hcfgs
  have hshard (r : ShardRef) : ((s.setShard p x).setShard p ((s.shard p).configured pl s.cycle w0 w1)).shard r =
      if r = p then (s.shard p).configured pl s.cycle w0 w1 else s.shard r := by
    rw [State.shard_setShard, State.shard_setShard]
    split <;> rfl
  have honly : OnlyShards s ((s.setShard p x).setShard p ((s.shard p).configured pl s.cycle w0 w1)) := rfl
  generalize (s.setShard p x).setShard p ((s.shard p).configured pl s.cycle w0 w1) = u at hex hshard honly
  have hcmds : u.cmds = s.cmds := by rw [honly]
  have hctxs : u.ctxs = s.ctxs := by rw [honly]
  have hbytes : SameBytes s u := by rw [honly]; exact Laws.sameBytes_of rfl rfl rfl rfl rfl rfl
  dsimp only at hex
  by_cases hn : n ≤ 1
  · rw [if_pos hn] at hex
    refine ⟨_, hex, fun r hr => (hshard r).trans (if_neg hr), (hshard p).trans (if_pos rfl), fun h => absurd h (by omega),
      fun _ => ⟨(State.pool?_setPool ..).trans (if_pos rfl), fun c hc hid => ?_⟩, hctxs, hbytes.trans (Laws.sameBytes_of rfl rfl rfl rfl rfl rfl)⟩
    simp [State.reply, State.modCmd, State.setPool, hcmds, hc, hid, stOK]
  · rw [if_neg hn] at hex
    exact ⟨_, hex, fun r hr => (hshard r).trans (if_neg hr), (hshard p).trans (if_pos rfl),
      fun _ => ⟨(State.pool?_setPool ..).trans (if_pos rfl), hcmds⟩, fun h => absurd h (by omega), hctxs,
      hbytes.trans (Laws.sameBytes_of rfl rfl rfl rfl rfl rfl)⟩

end Clauses

/-- Settles O47: a queue that stands is left as it is, so the insert step takes the first that has come, a left-over element, a migrated one or a
pins; an update that has arrived is applied, and counted off its command. -/
theorem poolInsertsAndUpdates : Obligations.PoolInsertsAndUpdates := by
  unfold Obligations.PoolInsertsAndUpdates
  refine ⟨fun s p harg hq hins => ⟨_, poolInsert_used harg hq hins, rfl, State.shard_setShard_same s p⟩,
    fun s p due src e harg hqueue hins hlen hin hdue => poolInsert_inserts_leftOver harg hqueue hins hlen hin hdue,
    fun s p e es harg hq hn hins hm hlen => poolInsert_inserts_migrated harg hq hn hins hm hlen,
    fun s p c cx o pl harg hq hn hins htook hm hlen hcmds hci hph hdie hafter hslot hpool hconf hagree hseq hcx _ =>
      poolInsert_accepts_pins harg hq hn hins htook hm hlen hcmds hci hph hdie hafter hslot hpool hconf hagree hseq hcx,
    fun s p id w0 w1 pl n due src harg hin hdue hpool hcfgs => pcfgApply_configures harg hin hdue hpool hcfgs,
    fun s p harg h => ⟨_, pcfgApply_nothing harg h, rfl, State.shard_setShard_same s p⟩⟩

end Sys2Proof.Machine
end

section
/-! SUPPORT. Operators: what a firing takes and what it sends (R231, R232, R236-R238). -/

namespace Sys2Proof.Machine

open Sys2Proof.Safety

/-! What a firing touches -/

/-- Beside channels, the numbers that free values use, the trace, breakpoints, letters and the counts of beats sent nothing has changed; routes and the channels there are stand. -/
structure FiringOnly (s t : State) : Prop where
  rest : ∃ ch ou bu n ho b0 dc br rs el, t = { s with
    chans := ch, outbox := ou, busy := bu, serial := n, host := ho, bar0 := b0, dropCnt := dc, brkCnt := br, ress := rs, elems := el }
  routes : ∀ e, (t.elem? e).map (·.routes) = (s.elem? e).map (·.routes)
  chans : ∀ c, (t.chan? c).isSome = (s.chan? c).isSome

theorem FiringOnly.refl (s : State) : FiringOnly s s := ⟨⟨_, _, _, _, _, _, _, _, _, _, rfl⟩, fun _ => rfl, fun _ => rfl⟩

theorem FiringOnly.trans {s t u : State} (h1 : FiringOnly s t) (h2 : FiringOnly t u) : FiringOnly s u := by
  refine ⟨?_, fun e => (h2.routes e).trans (h1.routes e), fun c => (h2.chans c).trans (h1.chans c)⟩
  obtain ⟨_, _, _, _, _, _, _, _, _, _, rfl⟩ := h1.rest
  obtain ⟨_, _, _, _, _, _, _, _, _, _, rfl⟩ := h2.rest
  exact ⟨_, _, _, _, _, _, _, _, _, _, rfl⟩

theorem FiringOnly.route? {s t : State} (h : FiringOnly s t) (e : ElemRef) (oc : Nat) : t.route? e oc = s.route? e oc :=
  route?_congr (h.routes e) h.chans oc

theorem FiringOnly.cycle {s t : State} (h : FiringOnly s t) : t.cycle = s.cycle := by
  obtain ⟨_, _, _, _, _, _, _, _, _, _, ht⟩ := h.rest
  rw [ht]

theorem FiringOnly.foldl {α : Type} {f : State → α → State} (hf : ∀ s a, FiringOnly s (f s a)) (l : List α) (s : State) : FiringOnly s (l.foldl f s) :=
  List.foldlRecOn l f (.refl s) fun _ h a _ => h.trans (hf _ a)

theorem FiringOnly.of_links {s t : State} (h : LinksOnly s t) (hg : LinksGrow s t) : FiringOnly s t := by
  refine ⟨?_, fun e => by rw [h.elem?], hg.isSome⟩
  obtain ⟨_, _, _, _, rfl⟩ := h
  exact ⟨_, _, _, _, _, _, _, _, _, _, rfl⟩

theorem FiringOnly.active (s : State) (n : Nat) : FiringOnly s (s.active n) := .of_links (.active ..) (.of_chans (State.active_chans ..))

theorem FiringOnly.push (s : State) (e : ElemRef) (c : ChanRef) (f : Fly) : FiringOnly s (s.push e c f) := .of_links (.push ..) (LinksGrow.push s e c f)

theorem FiringOnly.modRes (s : State) (k : Nat) (f : Res → Res) : FiringOnly s (s.modRes k f) :=
  ⟨⟨_, _, _, _, _, _, _, _, _, _, rfl⟩, fun _ => rfl, fun _ => rfl⟩

/-- A firing that leaves the channels as they are. -/
structure Beside (s t : State) : Prop where
  firing : FiringOnly s t
  chans : t.chans = s.chans

theorem Beside.refl (s : State) : Beside s s := ⟨.refl s, rfl⟩

theorem Beside.trans {s t u : State} (h1 : Beside s t) (h2 : Beside t u) : Beside s u := ⟨h1.firing.trans h2.firing, h2.chans.trans h1.chans⟩

theorem Beside.foldl {α : Type} {f : State → α → State} (hf : ∀ s a, Beside s (f s a)) (l : List α) (s : State) : Beside s (l.foldl f s) :=
  List.foldlRecOn l f (.refl s) fun _ h a _ => h.trans (hf _ a)

theorem Beside.active (s : State) (n : Nat) : Beside s (s.active n) := ⟨.active .., State.active_chans ..⟩

theorem Beside.modRes (s : State) (k : Nat) (f : Res → Res) : Beside s (s.modRes k f) := ⟨.modRes .., rfl⟩

theorem Beside.trace (s : State) (bs : List Beat) (drops : Bool) : Beside s (s.trace bs drops) := by
  unfold State.trace
  dsimp only
  split
  · exact ⟨⟨⟨_, _, _, _, _, _, _, _, _, _, rfl⟩, fun _ => rfl, fun _ => rfl⟩, rfl⟩
  · exact ⟨⟨⟨_, _, _, _, _, _, _, _, _, _, rfl⟩, fun _ => rfl, fun _ => rfl⟩, rfl⟩

theorem Beside.sinkItem (s : State) (rid : Nat) (i : Item) (how sink : Nat) : Beside s (s.sinkItem rid i how sink) := by
  unfold State.sinkItem
  split
  · exact .refl s
  · exact .trace ..

theorem Beside.breakHit (s : State) (rid elem who pc n oc : Nat) : Beside s (s.breakHit rid elem who pc n oc) := by
  unfold State.breakHit
  dsimp only
  split
  · exact .refl s
  · split
    · exact .modRes ..
    · exact (Beside.modRes ..).trans (.modRes ..)

theorem Beside.linkBreak (s : State) (rid elem oc who pc : Nat) (i : Fin 4) : Beside s (s.linkBreak rid elem oc who pc i) := by
  unfold State.linkBreak
  dsimp only
  split
  · split
    · refine Beside.trans ?_ (.breakHit ..)
      exact ⟨⟨⟨_, _, _, _, _, _, _, _, _, _, rfl⟩, fun _ => rfl, fun _ => rfl⟩, rfl⟩
    · exact ⟨⟨⟨_, _, _, _, _, _, _, _, _, _, rfl⟩, fun _ => rfl, fun _ => rfl⟩, rfl⟩
  · exact .refl s

theorem Beside.modSent (s : State) (e : ElemRef) (oc n : Nat) : Beside s (s.modElem e fun x => { x with sentCnt := tput x.sentCnt oc n }) := by
  refine ⟨⟨⟨_, _, _, _, _, _, _, _, _, _, rfl⟩, fun q => ?_, fun _ => rfl⟩, rfl⟩
  rw [State.elem?_modElem]
  split
  · next h => rw [h, Option.map_map]; rfl
  · rfl

/-! What leaves on an output -/

/-- From s to t one item that f allows has left e on output oc, where a route leads on, and no other channel has changed. -/
structure Emits (s t : State) (e : ElemRef) (oc : Nat) (f : Item → Prop) : Prop where
  firing : FiringOnly s t
  links : ∃ d m, s.cycle < d ∧ f m ∧ ∀ q, t.chan? q =
    if s.route? e oc = some q then (s.chan? q).map fun ch => { ch with flight := ch.flight ++ [(d, .item m)] } else s.chan? q

theorem emits_none {s t : State} {e : ElemRef} {oc : Nat} (h : s.route? e oc = none) (hb : Beside s t) {f : Item → Prop} {i : Item} (hf : f i) :
    Emits s t e oc f :=
  ⟨hb.firing, s.cycle + 1, i, Nat.lt_succ_self _, hf, fun q => by rw [h, if_neg (by simp), State.chan?_congr hb.chans]⟩

theorem emits_push {s : State} {e : ElemRef} {oc : Nat} {c : ChanRef} (h : s.route? e oc = some c) {f : Item → Prop} {i : Item} (hf : f i) :
    Emits s (s.push e c (.item i)) e oc f := by
  obtain ⟨d, hd, hp⟩ := push_chan? s e c (.item i)
  refine ⟨.push .., d, i, hd, hf, fun q => ?_⟩
  rw [hp, h]
  by_cases hq : q = c
  · rw [if_pos hq, if_pos (by rw [hq]), hq]
  · rw [if_neg hq, if_neg fun hc => hq (Option.some.inj hc).symm]

theorem Beside.emits {s t u : State} {e : ElemRef} {oc : Nat} {f : Item → Prop} (hb : Beside s t) (h : Emits t u e oc f) : Emits s u e oc f := by
  obtain ⟨hu, d, m, hd, hm, hq⟩ := h
  refine ⟨hb.firing.trans hu, d, m, hb.firing.cycle ▸ hd, hm, fun q => ?_⟩
  rw [hq, hb.firing.route?, State.chan?_congr hb.chans]

theorem emits_sendCtl (s : State) (e : ElemRef) (oc : Nat) (i : Item) : Emits s (s.sendCtl e oc i) e oc (· = i) := by
  unfold State.sendCtl
  split
  · next h => exact emits_none h (.refl s) rfl
  · next c h => exact emits_push h rfl

/-- A data beat leaves as it is, in a slot, but for its sampling. -/
theorem emits_depart (s : State) (e : ElemRef) (oc who pc : Nat) (it : Item) :
    Emits s (s.depart e oc who pc false it) e oc fun m => ∃ sm, m = { it with slot := true, sample := sm } := by
  unfold State.depart
  extract_lets rs n s₁ rate auto it' s₂
  have hs₂ : Beside s s₂ := (Beside.modSent ..).trans (.foldl (fun _ _ => .linkBreak ..) _ _)
  have hit : ∃ sm, { it' with slot := true } = { it with slot := true, sample := sm } := by
    unfold it'
    split
    · exact ⟨_, rfl⟩
    · split
      · exact ⟨_, rfl⟩
      · exact ⟨_, rfl⟩
  refine hs₂.emits ?_
  split
  · next h => exact emits_none h ((Beside.sinkItem ..).trans (.active ..)) hit
  · next c h =>
    exact emits_push h hit

/-! Each of a list leaves on its output, one after another -/

section EmitsAll
variable {α : Type} {f : State → α → State} {e : ElemRef} {oc : α → Nat} {P : α → Item → Prop} (hf : ∀ s a, Emits s (f s a) e (oc a) (P a))
include hf

theorem FiringOnly.emits (l : List α) (s : State) : FiringOnly s (l.foldl f s) := .foldl (fun s a => (hf s a).firing) l s

/-- A channel to which none of their routes leads stays as it is. -/
theorem chan?_emits_other {q : ChanRef} (l : List α) (s : State) (h : ∀ a ∈ l, s.route? e (oc a) ≠ some q) : (l.foldl f s).chan? q = s.chan? q := by
  induction l generalizing s with
  | nil => rfl
  | cons a l ih =>
    obtain ⟨hfir, d, m, -, -, hq⟩ := hf s a
    rw [List.foldl_cons, ih _ fun b hb => by rw [hfir.route?]; exact h b (List.mem_cons_of_mem _ hb), hq, if_neg (h a (.head _))]

/-- A channel to which the route of one of them leads, and of no other, has it last on its link. -/
theorem chan?_emits_one {q : ChanRef} {ch : Chan} {a : α} (l₁ l₂ : List α) (s : State) (ha : s.route? e (oc a) = some q) (hch : s.chan? q = some ch)
    (h : ∀ b ∈ l₁ ++ l₂, s.route? e (oc b) ≠ some q) : ∃ d m, s.cycle < d ∧ P a m ∧
      ((l₁ ++ a :: l₂).foldl f s).chan? q = some { ch with flight := ch.flight ++ [(d, .item m)] } := by
  have h₁ := FiringOnly.emits hf l₁ s
  obtain ⟨hfir, d, m, hd, hm, hq⟩ := hf (l₁.foldl f s) a
  refine ⟨d, m, h₁.cycle ▸ hd, hm, ?_⟩
  rw [List.foldl_append, List.foldl_cons, chan?_emits_other hf l₂ _ fun b hb => by
      rw [(h₁.trans hfir).route?]; exact h b (List.mem_append_right _ hb), hq, h₁.route?, if_pos ha,
    chan?_emits_other hf l₁ s fun b hb => h b (List.mem_append_left _ hb), hch, Option.map_some]

end EmitsAll

/-! What is taken -/

/-- The items of a channel without the one at a place. -/
def Chan.without (ch : Chan) (k : Option Nat) : Chan := { ch with items := match k with | some n => ch.items.eraseIdx n | none => ch.items }

/-- The place at which takes take from a channel. -/
def placeOf : List (Nat × Nat × Bool) → Nat → Option Nat
  | [], _ => none
  | t :: ts, vc => if vc = t.1 then some t.2.1 else placeOf ts vc

theorem placeOf_none {ts : List (Nat × Nat × Bool)} {vc : Nat} (h : vc ∉ ts.map (·.1)) : placeOf ts vc = none := by
  induction ts with
  | nil => rfl
  | cons t ts ih =>
    rw [List.map_cons, List.mem_cons, not_or] at h
    rw [placeOf, if_neg h.1, ih h.2]

/-- Takes that all take the head take the heads of their channels. -/
theorem placeOf_heads {ts : List (Nat × Nat × Bool)} (h : ∀ t ∈ ts, t.2.1 = 0) (vc : Nat) : placeOf ts vc = heads (ts.map (·.1)) vc := by
  induction ts with
  | nil => rfl
  | cons t ts ih =>
    rw [placeOf, ih fun u hu => h u (List.mem_cons_of_mem _ hu), h t (.head _)]
    unfold heads
    by_cases hv : vc = t.1
    · rw [if_pos hv, if_pos (by rw [hv]; exact .head _)]
    · simp only [hv, if_false, List.map_cons, List.mem_cons, false_or]

theorem eq_chan_iff {q : ChanRef} {e : ElemRef} {vc : Nat} : q = e.chan vc ↔ q.at = e ∧ q.vc = vc := by
  constructor
  · rintro rfl
    exact ⟨rfl, rfl⟩
  · rintro ⟨rfl, rfl⟩
    rfl

theorem takeAt_none {s : State} {c : ChanRef} {n : Nat} (h : s.takeAt c n = none) {ch : Chan} (hc : s.chan? c = some ch) :
    ch.without (some n) = ch := by
  unfold State.takeAt at h
  simp only [hc] at h
  split at h
  · next hn => rw [Chan.without, List.eraseIdx_of_length_le (List.getElem?_eq_none_iff.1 hn)]
  · cases h

theorem takeAt_some {s t : State} {c : ChanRef} {n : Nat} {it : Item} (h : s.takeAt c n = some (it, t)) :
    FiringOnly s t ∧ ∀ q, t.chan? q = (s.chan? q).map fun ch => if q = c then ch.without (some n) else ch := by
  unfold State.takeAt at h
  split at h
  · cases h
  · next ch hc =>
    split at h
    · cases h
    · obtain ⟨-, rfl⟩ := Prod.mk.inj (Option.some.inj h)
      have hq (q : ChanRef) : ((s.setChan c { ch with items := ch.items.eraseIdx n }).active c.rid).chan? q =
          (s.chan? q).map fun ch => if q = c then ch.without (some n) else ch := by
        rw [State.chan?_congr (State.active_chans ..), State.chan?_setChan]
        by_cases hqc : q = c
        · rw [if_pos hqc, hqc, hc, Option.map_some, if_pos rfl]
          rfl
        · simp only [hqc, if_false, Option.map_id']
      refine ⟨⟨?_, fun q => ?_, fun q => ?_⟩, hq⟩
      · obtain ⟨_, _, _, _, _, _, _, _, _, _, ha⟩ := (FiringOnly.active (s.setChan c { ch with items := ch.items.eraseIdx n }) c.rid).rest
        rw [ha]
        exact ⟨_, _, _, _, _, _, _, _, _, _, rfl⟩
      · rw [State.elem?_congr (State.active_elems ..)]
        rfl
      · rw [hq, Option.isSome_map]

/-- The tokens of a plan leave their channels, and no others do. -/
theorem takeAll_takes (e : ElemRef) (ts : List (Nat × Nat × Bool)) (h : (ts.map (·.1)).Nodup) (s : State) (l : List Sample) :
    FiringOnly s (s.takeAll e ts l).2 ∧ ∀ q, (s.takeAll e ts l).2.chan? q =
      (s.chan? q).map fun ch => if q.at = e then ch.without (placeOf ts q.vc) else ch := by
  induction ts generalizing s l with
  | nil => 
    refine ⟨.refl s, fun q => ?_⟩
    simp [State.takeAll, placeOf, Chan.without]
  | cons t ts ih =>
    obtain ⟨hnot, hnd⟩ := List.nodup_cons.1 h
    have hstep (u : State) (l : List Sample) (hu : FiringOnly s u)
        (hq : ∀ q, u.chan? q = (s.chan? q).map fun ch => if q = e.chan t.1 then ch.without (some t.2.1) else ch) :
        FiringOnly s (u.takeAll e ts l).2 ∧ ∀ q, (u.takeAll e ts l).2.chan? q =
          (s.chan? q).map fun ch => if q.at = e then ch.without (placeOf (t :: ts) q.vc) else ch := by
      obtain ⟨h1, h2⟩ := ih hnd u l
      refine ⟨hu.trans h1, fun q => ?_⟩
      rw [h2, hq, Option.map_map]
      refine congrArg (Option.map · (s.chan? q)) (funext fun ch => ?_)
      simp only [Function.comp, eq_chan_iff, placeOf]
      by_cases hat : q.at = e
      · by_cases hvc : q.vc = t.1
        · rw [hvc, placeOf_none hnot]
          simp only [hat, and_self, if_true]
          rfl
        · simp only [hat, hvc, and_false, if_false]
      · simp only [hat, false_and, if_false]
    rw [State.takeAll]
    split
    · next hn =>
      refine hstep s l (.refl s) fun q => ?_
      cases hc : s.chan? q with
      | none => rfl
      | some ch =>
        rw [Option.map_some]
        split
        · next hq => rw [takeAt_none hn (hq ▸ hc)]
        · rfl
    · next i u hu =>
      obtain ⟨h1, h2⟩ := takeAt_some hu
      split
      · exact hstep u _ h1 h2
      · exact hstep _ _ (h1.trans (Beside.sinkItem ..).firing) fun q => by rw [State.chan?_congr (Beside.sinkItem ..).chans, h2]

/-! A firing -/

/-- The operator's turn once its tokens are taken and its state is written. -/
def State.tookAll (s : State) (e : ElemRef) (p : Plan) : State := { (s.takeAll e p.takes []).2 with ops := tput (s.takeAll e p.takes []).2.ops e p.op }

/-- A beat of a plan leaves. -/
def State.planBeat (e : ElemRef) (marks : List Sample) (s : State) (q : Nat × Item) : State :=
  s.depart e q.1 10 0 false { q.2 with sample := if q.2.sample.isSome then marks.head? else none }

/-- A control token of a plan leaves. -/
def State.planToken (e : ElemRef) (s : State) (q : Nat × Item) : State := s.sendCtl e q.1 q.2

theorem fire_eq (s : State) (e : ElemRef) (p : Plan) : s.fire e p =
    (p.ctls.foldl (State.planToken e) (p.sends.foldl (State.planBeat e (s.takeAll e p.takes []).1) (s.tookAll e p))).active e.rid := rfl

/-- One item for each of the outputs ns that is valid. -/
def OpSt.sendsOn (o : OpSt) (ns : List Nat) (it : Item) : List (Nat × Item) := (ns.filterMap o.out).map fun oc => (oc, it)

/-- The outputs ns are no two the same, and no two lead to one channel. -/
structure OutsApart (s : State) (e : ElemRef) (o : OpSt) (ns : List Nat) : Prop where
  nodup : ns.Nodup
  apart : ∀ n m a b q, n ∈ ns → m ∈ ns → o.out n = some a → o.out m = some b → s.route? e a = some q → s.route? e b = some q → n = m

theorem outsApart_one (s : State) (e : ElemRef) (o : OpSt) (n : Nat) : OutsApart s e o [n] :=
  ⟨List.nodup_singleton n, fun _ _ _ _ _ hn hm _ _ _ _ => (List.mem_singleton.1 hn).trans (List.mem_singleton.1 hm).symm⟩

theorem outsApart_nil (s : State) (e : ElemRef) (o : OpSt) : OutsApart s e o [] := ⟨List.nodup_nil, fun _ _ _ _ _ hn => nomatch hn⟩

theorem mem_sendsOn {o : OpSt} {ns : List Nat} {it : Item} {a : Nat × Item} (h : a ∈ o.sendsOn ns it) :
    ∃ n oc, n ∈ ns ∧ o.out n = some oc ∧ a = (oc, it) := by
  obtain ⟨oc, hoc, rfl⟩ := List.mem_map.1 h
  obtain ⟨n, hn, ho⟩ := List.mem_filterMap.1 hoc
  exact ⟨n, oc, hn, ho, rfl⟩

section Outs
variable {s : State} {e : ElemRef} {o : OpSt} {ns : List Nat}

/-- Of the items sent, one goes to the channel of an output, and the others go elsewhere. -/
theorem sendsOn_split (h : OutsApart s e o ns) {n oc : Nat} {q : ChanRef} (hn : n ∈ ns) (ho : o.out n = some oc) (hq : s.route? e oc = some q) (it : Item) :
    ∃ l₁ l₂, o.sendsOn ns it = l₁ ++ (oc, it) :: l₂ ∧ ∀ b ∈ l₁ ++ l₂, s.route? e b.1 ≠ some q := by
  obtain ⟨n₁, n₂, rfl⟩ := List.append_of_mem hn
  refine ⟨o.sendsOn n₁ it, o.sendsOn n₂ it, by simp [OpSt.sendsOn, ho], fun b hb hr => ?_⟩
  have hb' : b ∈ o.sendsOn (n₁ ++ n₂) it := by simpa [OpSt.sendsOn] using hb
  obtain ⟨m, c, hm, hc, rfl⟩ := mem_sendsOn hb'
  have hm' : m ∈ n₁ ++ n :: n₂ := List.mem_append.2 ((List.mem_append.1 hm).imp_right (List.mem_cons_of_mem _))
  obtain rfl := h.apart n m oc c q hn hm' ho hc hq hr
  exact (List.nodup_cons.1 (List.nodup_middle.1 h.nodup)).1 hm

/-- At most one of the items sent goes to a channel. -/
theorem count_sendsOn_le (h : OutsApart s e o ns) (it : Item) (c : ChanRef) :
    ((o.sendsOn ns it).filter fun q => s.route? e q.1 == some c).length ≤ 1 := by
  by_cases hone : ∃ a ∈ o.sendsOn ns it, s.route? e a.1 = some c
  · obtain ⟨a, ha, hr⟩ := hone
    obtain ⟨n, oc, hn, ho, rfl⟩ := mem_sendsOn ha
    obtain ⟨l₁, l₂, hl, hother⟩ := sendsOn_split h hn ho hr it
    have hnone (l : List (Nat × Item)) (hs : ∀ b ∈ l, b ∈ l₁ ++ l₂) : l.filter (fun q => s.route? e q.1 == some c) = [] :=
      List.filter_eq_nil_iff.2 fun b hb hbc => hother b (hs b hb) (by simpa using hbc)
    rw [hl, List.filter_append, hnone l₁ fun b => List.mem_append_left _, List.filter_cons,
      hnone l₂ fun b => List.mem_append_right _]
    split <;> simp
  · rw [List.filter_eq_nil_iff.2 fun b hb hbc => hone ⟨b, hb, by simpa using hbc⟩]
    exact Nat.zero_le 1

/-- A firing that takes by tk and sends one item on each of the outputs ns does what the statement says. -/
theorem opFires_of_emits {i : Instr} {p : Plan} {tk : Nat → Option Nat} {f : Item → Prop} {it : Item} {g : State → Nat × Item → State}
    {Q : Nat × Item → Item → Prop} (hexec : exec i s = .next (s.fire e p))
    (hfire : s.fire e p = ((o.sendsOn ns it).foldl g (s.tookAll e p)).active e.rid) (hg : ∀ s a, Emits s (g s a) e a.1 (Q a))
    (hQ : ∀ oc m, Q (oc, it) m → f m) (hns : OutsApart s e o ns) (hnd : (p.takes.map (·.1)).Nodup) (htk : ∀ vc, placeOf p.takes vc = tk vc) :
    OpFires i s e o p.op tk ns f := by
  obtain ⟨htake, hchan⟩ := takeAll_takes e p.takes hnd s []
  have hsent : FiringOnly (s.tookAll e p) (s.fire e p) := hfire ▸ (FiringOnly.emits hg ..).trans (.active ..)
  have hroute (oc : Nat) : (s.tookAll e p).route? e oc = s.route? e oc := htake.route? e oc
  have hcycle : (s.tookAll e p).cycle = s.cycle := htake.cycle
  have hleft (q : ChanRef) {ch : Chan} (hq : s.chan? q = some ch) :
      (s.tookAll e p).chan? q = some (if q.at = e then ch.without (tk q.vc) else ch) := by
    rw [← htk]
    exact (hchan q).trans (by rw [hq]; rfl)
  have hend (q : ChanRef) : (s.fire e p).chan? q = ((o.sendsOn ns it).foldl g (s.tookAll e p)).chan? q := by
    rw [hfire, State.chan?_congr (State.active_chans ..)]
  have hops : (s.fire e p).ops = tput s.ops e p.op := by
    obtain ⟨_, _, _, _, _, _, _, _, _, _, h1⟩ := htake.rest
    obtain ⟨_, _, _, _, _, _, _, _, _, _, h2⟩ := hsent.rest
    rw [h2, State.tookAll, h1]
  have hrest : (s.fire e p).ctxs = s.ctxs ∧ (s.fire e p).wins = s.wins ∧ (s.fire e p).cmds = s.cmds := by
    obtain ⟨_, _, _, _, _, _, _, _, _, _, h1⟩ := htake.rest
    obtain ⟨_, _, _, _, _, _, _, _, _, _, h2⟩ := hsent.rest
    rw [h2, State.tookAll, h1]
    exact ⟨rfl, rfl, rfl⟩
  refine ⟨_, hexec, by rw [hops, tget_tput_self], fun q hq => by rw [hops, tget_tput_other _ _ hq], hrest.1, hrest.2.1, hrest.2.2, fun q ch hq => ⟨fun h => ?_, fun n oc hn ho hr => ?_⟩⟩
  · rw [hend, chan?_emits_other hg _ _ fun a ha => ?_, hleft q hq]
    · split <;> rfl
    · obtain ⟨n, oc, hn, ho, rfl⟩ := mem_sendsOn ha
      rw [hroute]
      exact h n oc hn ho
  · obtain ⟨l₁, l₂, hl, hother⟩ := sendsOn_split hns hn ho hr it
    obtain ⟨d, m, hd, hm, hc⟩ := chan?_emits_one hg l₁ l₂ (s.tookAll e p) (a := (oc, it)) ((hroute oc).trans hr) (hleft q hq) fun b hb => by
      rw [hroute]
      exact hother b hb
    refine ⟨d, m, hcycle ▸ hd, hQ oc m hm, ?_⟩
    rw [hend, hl, hc]
    split <;> rfl

end Outs

/-! Whether a plan fires -/

/-- A firing that stands in every set stays when sets are cut down. -/
theorem mem_settleFirers {keep : List Firer → Firer → Option Firer} {f : Firer} (hk : ∀ l, keep l f = some f) (n : Nat) (l : List Firer) (hf : f ∈ l) :
    f ∈ settleFirers keep n l := by
  induction n generalizing l with
  | zero => exact hf
  | succ n ih =>
    rw [settleFirers]
    have hmem : f ∈ l.filterMap (keep l) := List.mem_filterMap.2 ⟨f, hf, hk l⟩
    split
    · exact hf
    · exact ih _ hmem

theorem fires_of_room {s : State} {e : ElemRef} {p : Plan} (h : ∀ l, s.roomFor l (e, p) = true) : s.fires e p = true := by
  unfold State.fires
  refine List.contains_iff_mem.2 (mem_settleFirers (fun l => ?_) _ _ (.head _))
  rw [State.keepOp, if_pos (h l)]

section Turn
variable {s : State} {e : ElemRef} {o : OpSt} (hturn : OpTurn s e o) {code : Nat} {plan : State → ElemRef → OpSt → Option Plan}
include hturn

theorem opStep_idle (hplan : plan s e o = none) : opStep code plan s = .next s := by
  obtain ⟨harg, hop, hacts, el, hel, hst⟩ := hturn
  simp only [opStep, harg, hop, hel, hplan]
  split <;> rfl

theorem opStep_fires {p : Plan} (hopc : o.opc = code) (hplan : plan s e o = some p) (hgood : s.planBad e p = none)
    (hfires : s.fires e p = true) : opStep code plan s = .next (s.fire e p) := by
  obtain ⟨harg, hop, hacts, el, hel, hst⟩ := hturn
  simp only [opStep, harg, hop, hel, hplan, hopc, hst, hacts, hgood, hfires, ne_eq, not_true_eq_false, decide_false, Bool.not_true, Bool.or_self,
    Bool.false_eq_true, if_false, if_true]

end Turn

/-- A beat of a list of sends finds its slot. -/
theorem roomFor_of_slots {s : State} {e : ElemRef} {o : OpSt} {ns : List Nat} {it : Item} {p : Plan} (hsends : p.sends = o.sendsOn ns it)
    (hctls : p.ctls = []) (hns : OutsApart s e o ns) (hfree : ∀ n ∈ ns, OutFree s e o n) (l : List Firer) : s.roomFor l (e, p) = true := by
  rw [State.roomFor, hctls, List.all_nil, Bool.and_true, List.all_eq_true]
  intro a ha
  rw [hsends] at ha
  obtain ⟨n, oc, hn, ho, rfl⟩ := mem_sendsOn ha
  split
  · rfl
  · next c hc =>
    split
    · rfl
    · next ch hch =>
      have hslot := hfree n hn oc c ch ho hc hch
      have hcount : ((o.sendsOn ns it).filter fun q => s.route? (e, p).1 q.1 == some c).length ≤ 1 := count_sendsOn_le hns it c
      rw [hsends]
      exact decide_eq_true (by omega)

theorem roomFor_of_links {s : State} {e : ElemRef} {o : OpSt} {ns : List Nat} {it : Item} {p : Plan} (hsends : p.sends = [])
    (hctls : p.ctls = o.sendsOn ns it) (hfree : ∀ n ∈ ns, CtlFree s e o n) (l : List Firer) : s.roomFor l (e, p) = true := by
  rw [State.roomFor, hsends, hctls, List.all_nil, Bool.true_and, List.all_eq_true]
  intro a ha
  obtain ⟨n, oc, hn, ho, rfl⟩ := mem_sendsOn ha
  exact hfree n hn oc ho

/-- Each of the tokens that a plan takes stands, with data. -/
def GoodTakes (s : State) (e : ElemRef) (p : Plan) : Prop := ∀ t ∈ p.takes, ∃ i, s.token e t.1 t.2.1 = some i ∧ i.fault = none

theorem planBad_of_good {s : State} {e : ElemRef} {p : Plan} (h : GoodTakes s e p) : s.planBad e p = none :=
  List.findSome?_eq_none_iff.2 fun t ht => by
    obtain ⟨i, hi, hf⟩ := h t ht
    rw [hi]
    exact hf

/-- A beat of the plan's item leaves, in a slot, as it is but for its sampling. -/
def Resampled (it m : Item) : Prop := ∃ sm, m = { it with slot := true, sample := sm }

section Fires
variable {s : State} {e : ElemRef} {o : OpSt} {i : Instr} {p : Plan} {tk : Nat → Option Nat} {ns : List Nat} {f : Item → Prop} {it : Item}

/-- A firing of data beats. -/
theorem opFires_data (hexec : exec i s = .next (s.fire e p)) (hsends : p.sends = o.sendsOn ns it) (hctls : p.ctls = []) (hns : OutsApart s e o ns)
    (hnd : (p.takes.map (·.1)).Nodup) (htk : ∀ vc, placeOf p.takes vc = tk vc) (hf : ∀ m, Resampled it m → f m) : OpFires i s e o p.op tk ns f := by
  refine opFires_of_emits (it := it) (g := State.planBeat e (s.takeAll e p.takes []).1) (Q := fun a => Resampled a.2) hexec ?_ (fun u a => ?_)
    (fun oc m hm => hf m hm) hns hnd htk
  · rw [fire_eq, hsends, hctls]
    rfl
  · exact emits_depart ..

/-- A firing of control tokens. -/
theorem opFires_ctl (hexec : exec i s = .next (s.fire e p)) (hsends : p.sends = []) (hctls : p.ctls = o.sendsOn ns it) (hns : OutsApart s e o ns)
    (hnd : (p.takes.map (·.1)).Nodup) (htk : ∀ vc, placeOf p.takes vc = tk vc) (hf : f it) : OpFires i s e o p.op tk ns f := by
  refine opFires_of_emits (it := it) (g := State.planToken e) (Q := fun a m => m = a.2) hexec ?_ (fun u a => emits_sendCtl ..)
    (fun oc m hm => by rw [hm]; exact hf) hns hnd htk
  rw [fire_eq, hsends, hctls]
  rfl

end Fires

/-! The tokens of an operator -/

/-- What an operator passes on of a token: a data beat, unmarked, that ends nothing (R236). -/
def Item.passedOn (i : Item) : Item := { i with ctl := none, markB := false, slot := true, last := false, reply := none }

theorem beat_eq (o : OpSt) (n : Nat) (i : Item) : o.beat n i = o.sendsOn [n] i.passedOn := by
  unfold OpSt.beat OpSt.sendsOn
  rw [List.filterMap_cons, List.filterMap_nil]
  cases o.out n <;> rfl

theorem beats_eq (o : OpSt) (ns : List Nat) (i : Item) : (ns.flatMap fun n => o.beat n i) = o.sendsOn ns i.passedOn := by
  induction ns with
  | nil => rfl
  | cons n ns ih =>
    rw [List.flatMap_cons, ih, beat_eq]
    simp only [OpSt.sendsOn, ← List.map_append, ← List.filterMap_append, List.singleton_append]

theorem carries_of_resampled {it m : Item} {b : Bool} (hf : it.fault = none) (h : Resampled { it.passedOn with markB := b } m) : Carries it b m := by
  obtain ⟨sm, rfl⟩ := h
  exact ⟨rfl, rfl, rfl, rfl, hf⟩

section Tokens
variable {s : State} {e : ElemRef} {vc : Nat} {it : Item}

theorem token_of_headIs (h : HeadIs s e vc it) : s.token e vc 0 = some it := by
  obtain ⟨ch, l, hc, hi, -⟩ := h
  simp only [State.token, hc, hi]
  rfl

theorem token_of_noHead (h : NoHead s e vc) (n : Nat) : s.token e vc n = none := by
  unfold State.token
  split
  · next ch hc => rw [h ch hc]; rfl
  · rfl

theorem fault_of_headIs (h : HeadIs s e vc it) : it.fault = none := by
  obtain ⟨ch, l, -, -, hf⟩ := h
  exact hf

theorem goodTake (h : HeadIs s e vc it) : ∃ i, s.token e vc 0 = some i ∧ i.fault = none := ⟨it, token_of_headIs h, fault_of_headIs h⟩

end Tokens

section Fires
variable {s : State} {e : ElemRef} {o : OpSt} (hturn : OpTurn s e o) {i : Instr} {p : Plan} {code : Nat} {plan : State → ElemRef → OpSt → Option Plan}
  {tk : Nat → Option Nat} {ns : List Nat} {f : Item → Prop} {it : Item} (hexec : exec i s = opStep code plan s) (hopc : o.opc = code)
  (hplan : plan s e o = some p)
include hturn hexec hopc hplan

/-- An operator whose plan sends data beats, and whose outputs find their slots, fires. -/
theorem fires_data (hgood : GoodTakes s e p) (hnd : (p.takes.map (·.1)).Nodup) (htk : ∀ vc, placeOf p.takes vc = tk vc)
    (hsends : p.sends = o.sendsOn ns it) (hctls : p.ctls = []) (hns : OutsApart s e o ns) (hfree : ∀ n ∈ ns, OutFree s e o n)
    (hf : ∀ m, Resampled it m → f m) : OpFires i s e o p.op tk ns f :=
  opFires_data (hexec.trans (opStep_fires hturn hopc hplan (planBad_of_good hgood) (fires_of_room (roomFor_of_slots hsends hctls hns hfree))))
    hsends hctls hns hnd htk hf

/-- An operator whose plan sends control tokens, and none of whose destinations holds one back, fires. -/
theorem fires_ctl (hgood : GoodTakes s e p) (hnd : (p.takes.map (·.1)).Nodup) (htk : ∀ vc, placeOf p.takes vc = tk vc)
    (hsends : p.sends = []) (hctls : p.ctls = o.sendsOn ns it) (hns : OutsApart s e o ns) (hfree : ∀ n ∈ ns, CtlFree s e o n)
    (hf : f it) : OpFires i s e o p.op tk ns f :=
  opFires_ctl (hexec.trans (opStep_fires hturn hopc hplan (planBad_of_good hgood) (fires_of_room (roomFor_of_links hsends hctls hfree))))
    hsends hctls hns hnd htk hf

end Fires

/-- A plan takes the heads of the channels listed, each of which holds a token with data. -/
structure HeadTakes (s : State) (e : ElemRef) (p : Plan) (vcs : List Nat) : Prop where
  chans : p.takes.map (·.1) = vcs
  first : ∀ t ∈ p.takes, t.2.1 = 0
  nodup : vcs.Nodup
  stand : ∀ vc ∈ vcs, ∃ it, HeadIs s e vc it

theorem headTakes_nil {s : State} {e : ElemRef} {p : Plan} (hp : p.takes = []) : HeadTakes s e p [] where
  chans := by rw [hp]; rfl
  first := by rw [hp]; exact List.forall_mem_nil _
  nodup := List.nodup_nil
  stand := List.forall_mem_nil _

theorem headTakes_one {s : State} {e : ElemRef} {p : Plan} {vc : Nat} {b : Bool} {it : Item} (hp : p.takes = [(vc, 0, b)]) (h : HeadIs s e vc it) :
    HeadTakes s e p [vc] where
  chans := by rw [hp]; rfl
  first := by rw [hp]; exact List.forall_mem_singleton.2 rfl
  nodup := List.nodup_singleton vc
  stand := List.forall_mem_singleton.2 ⟨it, h⟩

theorem headTakes_two {s : State} {e : ElemRef} {p : Plan} {v w : Nat} {b c : Bool} {i j : Item} (hp : p.takes = [(v, 0, b), (w, 0, c)])
    (hne : v ≠ w) (hv : HeadIs s e v i) (hw : HeadIs s e w j) : HeadTakes s e p [v, w] where
  chans := by rw [hp]; rfl
  first := by rw [hp]; exact List.forall_mem_cons.2 ⟨rfl, List.forall_mem_singleton.2 rfl⟩
  nodup := by simpa using hne
  stand := List.forall_mem_cons.2 ⟨⟨i, hv⟩, List.forall_mem_singleton.2 ⟨j, hw⟩⟩

theorem HeadTakes.good {s : State} {e : ElemRef} {p : Plan} {vcs : List Nat} (h : HeadTakes s e p vcs) : GoodTakes s e p := fun t ht => by
  obtain ⟨it, hit⟩ := h.stand t.1 (h.chans ▸ List.mem_map_of_mem ht)
  rw [h.first t ht]
  exact goodTake hit

theorem HeadTakes.placeOf {s : State} {e : ElemRef} {p : Plan} {vcs : List Nat} (h : HeadTakes s e p vcs) (vc : Nat) :
    placeOf p.takes vc = heads vcs vc := by
  rw [placeOf_heads h.first, h.chans]

/-! The operators (R236-R238) -/

/-- Each word of a beat of eight words, all the same, is that word. -/
theorem word_of_words (v : Word) {k : Nat} (hk : k < 8) : (BitVec.ofNat 512 (packGo 64 (List.replicate 8 v.toNat))).extractLsb' (64 * k) 64 = v := by
  have hlt : packGo 64 (List.replicate 8 v.toNat) < 2 ^ 512 := packGo_lt 64 (List.replicate 8 v.toNat)
  refine BitVec.eq_of_toNat_eq ?_
  rw [BitVec.extractLsb'_toNat, BitVec.toNat_ofNat, Nat.mod_eq_of_lt hlt, Nat.shiftRight_eq_div_pow, packGo_lane _ _ _ (by simpa using hk),
    List.getElem_replicate, Nat.mod_eq_of_lt v.isLt]

section Operators
variable {s : State} {e : ElemRef} {o : OpSt} (hturn : OpTurn s e o)

section Heads
variable {i : Instr} {p : Plan} {code : Nat} {plan : State → ElemRef → OpSt → Option Plan} {vcs : List Nat} {f : Item → Prop}
  (hexec : exec i s = opStep code plan s) (hopc : o.opc = code) (hplan : plan s e o = some p) (htake : HeadTakes s e p vcs)
include hturn hexec hopc hplan htake

/-- It takes heads, and passes the beat `it` on at outputs that find their slots. -/
theorem fires_beats {ns : List Nat} {it : Item} (hsends : p.sends = ns.flatMap fun n => o.beat n it) (hctls : p.ctls = []) (hns : OutsApart s e o ns)
    (hfree : ∀ n ∈ ns, OutFree s e o n) (hf : ∀ m, Resampled it.passedOn m → f m) : OpFires i s e o p.op (heads vcs) ns f :=
  fires_data hturn hexec hopc hplan htake.good (by rw [htake.chans]; exact htake.nodup) htake.placeOf (hsends.trans (beats_eq ..)) hctls hns hfree hf

/-- It takes heads, and passes the beat `it` on at one output. -/
theorem fires_beat {n : Nat} {it : Item} (hsends : p.sends = o.beat n it) (hctls : p.ctls = []) (hfree : OutFree s e o n)
    (hf : ∀ m, Resampled it.passedOn m → f m) : OpFires i s e o p.op (heads vcs) [n] f :=
  fires_beats hturn hexec hopc hplan htake (hsends.trans (by rw [List.flatMap_singleton])) hctls (outsApart_one ..) (List.forall_mem_singleton.2 hfree) hf

/-- It takes heads, and sends nothing. -/
theorem fires_none (hsends : p.sends = []) (hctls : p.ctls = []) : OpFires i s e o p.op (heads vcs) [] fun _ => True :=
  fires_ctl hturn hexec hopc hplan htake.good (by rw [htake.chans]; exact htake.nodup) htake.placeOf (it := {}) hsends hctls (outsApart_nil ..)
    (List.forall_mem_nil _) trivial

end Heads

include hturn

theorem pass_fires (hopc : o.opc = 0x0) {it : Item} (hin : HeadIs s e o.ina it) (hfree : OutFree s e o 0) :
    OpFires .pass s e o o (heads [o.ina]) [0] (Carries it false) := by
  have hplan : planPass s e o = some { takes := [(o.ina, 0, onward (o.beat 0 it))], sends := o.beat 0 it, op := o } := by
    rw [planPass, token_of_headIs hin]
    rfl
  exact fires_beat hturn (exec_pass s) hopc hplan (headTakes_one rfl hin) rfl rfl hfree fun _ => carries_of_resampled (fault_of_headIs hin)

theorem fork_fires (hopc : o.opc = 0x1) {it : Item} (hin : HeadIs s e o.ina it) (hfree : ∀ n, n < 4 → OutFree s e o n)
    (happ : ∀ n m a b q, n < 4 → m < 4 → o.out n = some a → o.out m = some b → s.route? e a = some q → s.route? e b = some q → n = m) :
    OpFires .fork s e o o (heads [o.ina]) (List.range 4) (Carries it false) := by
  have hplan : planFork s e o = some {
      takes := [(o.ina, 0, onward ((List.range 4).flatMap fun n => o.beat n it))], sends := (List.range 4).flatMap fun n => o.beat n it, op := o } := by
    rw [planFork, token_of_headIs hin]
    rfl
  exact fires_beats hturn (exec_fork s) hopc hplan (headTakes_one rfl hin) rfl rfl
    ⟨List.nodup_range, fun n m a b q hn hm => happ n m a b q (List.mem_range.1 hn) (List.mem_range.1 hm)⟩
    (fun n hn => hfree n (List.mem_range.1 hn)) fun _ => carries_of_resampled (fault_of_headIs hin)

theorem steer_fires (hopc : o.opc = 0x2) (hne : o.ina ≠ o.ctl) {it c : Item} (hin : HeadIs s e o.ina it) (hc : HeadIs s e o.ctl c)
    (hfree : OutFree s e o (if c.truth then 0 else 1)) :
    OpFires .steer s e o o (heads [o.ina, o.ctl]) [if c.truth then 0 else 1] (Carries it false) := by
  have hplan : planSteer s e o = some {
      takes := [(o.ina, 0, onward (o.beat (if c.truth then 0 else 1) it)), (o.ctl, 0, false)], sends := o.beat (if c.truth then 0 else 1) it, op := o } := by
    rw [planSteer, token_of_headIs hin, token_of_headIs hc]
  exact fires_beat hturn (exec_steer s) hopc hplan (headTakes_two rfl hne hin hc) rfl rfl hfree fun _ => carries_of_resampled (fault_of_headIs hin)

theorem merge_fires (hopc : o.opc = 0x3) (hia : o.ina ≠ o.ctl) (hib : o.inb ≠ o.ctl) (hab : o.ina ≠ o.inb) {it c : Item} (hc : HeadIs s e o.ctl c)
    (hin : HeadIs s e (if c.truth then o.ina else o.inb) it) (hfree : OutFree s e o 0) :
    OpFires .merge s e o o (heads [o.ctl, if c.truth then o.ina else o.inb]) [0] (Carries it false) := by
  have hplan : planMerge s e o = some {
      takes := [(o.ctl, 0, false), (if c.truth then o.ina else o.inb, 0, onward (o.beat 0 it))], sends := o.beat 0 it, op := o } := by
    rw [planMerge, token_of_headIs hc]
    simp only [State.mergePick, hab, if_false, token_of_headIs hin, Option.map_some]
  have hne : o.ctl ≠ if c.truth then o.ina else o.inb := by
    split
    · exact hia.symm
    · exact hib.symm
  exact fires_beat hturn (exec_merge s) hopc hplan (headTakes_two rfl hne hc hin) rfl rfl hfree fun _ => carries_of_resampled (fault_of_headIs hin)

theorem merge_shared_fires (hopc : o.opc = 0x3) (hia : o.ina ≠ o.ctl) (hab : o.ina = o.inb) {it c : Item} {ch : Chan} {k : Nat} (hc : HeadIs s e o.ctl c)
    (hch : s.chan? (e.chan o.ina) = some ch) (hk : ch.items[k]? = some it) (hgood : it.fault = none) (hmark : it.markB = !c.truth)
    (hold : ∀ j i, j < k → ch.items[j]? = some i → i.markB = c.truth) (hfree : OutFree s e o 0) :
    OpFires .merge s e o o (fun vc => if vc = o.ina then some k else if vc = o.ctl then some 0 else none) [0] (Carries it false) := by
  have hpick : ch.items.findIdx? (fun i => i.markB != c.truth) = some k := by
    obtain ⟨hlt, hget⟩ := List.getElem?_eq_some_iff.1 hk
    refine List.findIdx?_eq_some_iff_getElem.2 ⟨hlt, ?_, fun j hj => ?_⟩
    · rw [hget, hmark]
      cases c.truth <;> rfl
    · rw [hold j _ hj (List.getElem?_eq_getElem (hj.trans hlt))]
      cases c.truth <;> decide
  have htoken : s.token e o.ina k = some it := by simp only [State.token, hch, hk]
  have hplan : planMerge s e o = some { takes := [(o.ctl, 0, false), (o.ina, k, onward (o.beat 0 it))], sends := o.beat 0 it, op := o } := by
    rw [planMerge, token_of_headIs hc]
    simp only [State.mergePick, if_pos hab, hch, hpick, Option.map_some, htoken]
  refine fires_data hturn (exec_merge s) hopc hplan (List.forall_mem_cons.2 ⟨goodTake hc, List.forall_mem_singleton.2 ⟨it, htoken, hgood⟩⟩)
    (by simpa using hia.symm) (fun vc => ?_) (beat_eq ..) rfl (outsApart_one ..) (List.forall_mem_singleton.2 hfree) fun _ => carries_of_resampled hgood
  simp only [placeOf]
  split
  · next hv => rw [if_neg (by rw [hv]; exact hia.symm)]
  · rfl

theorem amerge_fires_ina (hopc : o.opc = 0x4) {it : Item} (hin : HeadIs s e o.ina it) (hfree : OutFree s e o 0) :
    OpFires .amerge s e o o (heads [o.ina]) [0] (Carries it false) := by
  have hplan : planAmerge s e o = some { takes := [(o.ina, 0, onward (o.beat 0 it))], sends := o.beat 0 it, op := o } := by
    rw [planAmerge, token_of_headIs hin]
  exact fires_beat hturn (exec_amerge s) hopc hplan (headTakes_one rfl hin) rfl rfl hfree fun _ => carries_of_resampled (fault_of_headIs hin)

theorem amerge_fires_inb (hopc : o.opc = 0x4) {it : Item} (hno : NoHead s e o.ina) (hin : HeadIs s e o.inb it) (hfree : OutFree s e o 0) :
    OpFires .amerge s e o o (heads [o.inb]) [0] (Carries it true) := by
  have hplan : planAmerge s e o = some {
      takes := [(o.inb, 0, onward (o.beat 0 it))], sends := o.sendsOn [0] { it.passedOn with markB := true }, op := o } := by
    have hmap : (o.beat 0 it).map (fun p => (p.1, { p.2 with markB := true })) = o.sendsOn [0] { it.passedOn with markB := true } := by
      rw [beat_eq, OpSt.sendsOn, List.map_map]
      rfl
    rw [← hmap, planAmerge, token_of_noHead hno, token_of_headIs hin]
  have htake := headTakes_one (p := { takes := [(o.inb, 0, onward (o.beat 0 it))], sends := o.sendsOn [0] { it.passedOn with markB := true }, op := o }) rfl hin
  exact fires_data hturn (exec_amerge s) hopc hplan htake.good (List.nodup_singleton _) htake.placeOf rfl rfl (outsApart_one ..)
    (List.forall_mem_singleton.2 hfree) fun _ => carries_of_resampled (fault_of_headIs hin)

theorem carry_fires_init (hopc : o.opc = 0x5) (hloop : o.looping = false) {it : Item} (hin : HeadIs s e o.ina it) (hfree : OutFree s e o 0) :
    OpFires .carry s e o { o with looping := true } (heads [o.ina]) [0] (Carries it false) := by
  have hplan : planCarry s e o = some {
      takes := [(o.ina, 0, onward (o.beat 0 it))], sends := o.beat 0 it, op := { o with looping := true } } := by
    rw [planCarry, hloop, token_of_headIs hin]
    rfl
  exact fires_beat hturn (exec_carry s) hopc hplan (headTakes_one rfl hin) rfl rfl hfree fun _ => carries_of_resampled (fault_of_headIs hin)

theorem carry_fires_loop (hopc : o.opc = 0x5) (hne : o.inb ≠ o.ctl) (hloop : o.looping = true) {it c : Item} (hc : HeadIs s e o.ctl c)
    (hin : HeadIs s e o.inb it) (hfree : OutFree s e o (if c.truth then 0 else 1)) :
    OpFires .carry s e o { o with looping := c.truth } (heads [o.ctl, o.inb]) [if c.truth then 0 else 1] (Carries it false) := by
  have hplan : planCarry s e o = some {
      takes := [(o.ctl, 0, false), (o.inb, 0, onward (o.beat (if c.truth then 0 else 1) it))], sends := o.beat (if c.truth then 0 else 1) it,
      op := { o with looping := c.truth } } := by
    rw [planCarry, hloop, if_pos rfl, token_of_headIs hin, token_of_headIs hc]
  exact fires_beat hturn (exec_carry s) hopc hplan (headTakes_two rfl hne.symm hc hin) rfl rfl hfree fun _ => carries_of_resampled (fault_of_headIs hin)

theorem join_fires (hopc : o.opc = 0x6) (hin : ∀ n, n < 32 → o.value.getLsbD n = true → ∃ it, HeadIs s e n it) (hfree : CtlFree s e o 0) :
    OpFires .join s e o o (fun n => if n < 32 ∧ o.value.getLsbD n = true then some 0 else none) [0] (IsToken .completion) := by
  have hmem (n : Nat) : n ∈ o.doneChans ↔ n < 32 ∧ o.value.getLsbD n = true := by simp [OpSt.doneChans]
  have hall : (o.doneChans.all fun vc => (s.token e vc 0).isSome) = true := List.all_eq_true.2 fun n hn => by
    obtain ⟨it, hit⟩ := hin n ((hmem n).1 hn).1 ((hmem n).1 hn).2
    rw [token_of_headIs hit]
    rfl
  have hplan : planJoin s e o = some {
      takes := o.doneChans.map fun vc => (vc, 0, false),
      ctls := o.sendsOn [0] (ctlItem .completion (controlBeat .completion 0 0 0 0)), op := o } := by
    rw [planJoin, hall, if_pos rfl]
    cases ho : o.out 0 <;> simp [OpSt.sendsOn, ho]
  have htake : HeadTakes s e { 
      takes := o.doneChans.map fun vc => (vc, 0, false),
      ctls := o.sendsOn [0] (ctlItem .completion (controlBeat .completion 0 0 0 0)), op := o } o.doneChans :=
    { chans := List.map_map.trans (List.map_id _)
      first := by simp
      nodup := List.nodup_range.filter _
      stand := fun n hn => hin n ((hmem n).1 hn).1 ((hmem n).1 hn).2 }
  refine fires_ctl hturn (exec_join s) hopc hplan htake.good (by rw [htake.chans]; exact htake.nodup) (fun n => ?_) rfl rfl (outsApart_one ..)
    (List.forall_mem_singleton.2 hfree) ⟨rfl, rfl⟩
  rw [htake.placeOf, heads]
  simp only [hmem]

theorem const_fires (hopc : o.opc = 0xB) (hmore : o.param = 0 ∨ o.sent < o.param) (hfree : OutFree s e o 0) :
    OpFires .const s e o { o with sent := o.sent + 1 } (fun _ => none) [0]
      fun m => m.ctl = none ∧ m.slot = true ∧ ∀ k, k < 8 → m.beat.extractLsb' (64 * k) 64 = o.value := by
  have hplan : planConst s e o = some {
      sends := o.beat 0 { beat := BitVec.ofNat 512 (packGo 64 (List.replicate 8 o.value.toNat)) }, op := { o with sent := o.sent + 1 } } := by
    rw [planConst, if_pos (by simpa using hmore)]
  refine fires_data hturn (exec_const s) hopc hplan (List.forall_mem_nil _) List.nodup_nil (fun _ => rfl) (beat_eq ..) rfl (outsApart_one ..)
    (List.forall_mem_singleton.2 hfree) fun m hm => ?_
  obtain ⟨sm, rfl⟩ := hm
  exact ⟨rfl, rfl, fun k hk => word_of_words o.value hk⟩

theorem sink_fires (hopc : o.opc = 0xC) {it : Item} (hin : HeadIs s e o.ina it) : OpFires .sink s e o o (heads [o.ina]) [] fun _ => True := by
  have hplan : planSink s e o = some { takes := [(o.ina, 0, false)], op := o } := by
    rw [planSink, token_of_headIs hin]
    rfl
  exact fires_none hturn (exec_sink s) hopc hplan (headTakes_one rfl hin) rfl rfl

theorem count_fires (hopc : o.opc = 0xD) {it : Item} (hin : HeadIs s e o.ina it) (hfree : OutFree s e o 0) :
    OpFires .count s e o { o with n := if o.n + 1 = o.param then 0 else o.n + 1 } (heads [o.ina]) [0]
      fun m => m.ctl = none ∧ m.slot = true ∧ m.beat = if o.n + 1 = o.param then 1 else 0 := by
  have hplan : planCount s e o = some {
      takes := [(o.ina, 0, false)], sends := o.beat 0 { beat := if o.n + 1 = o.param then 1 else 0 },
      op := { o with n := if o.n + 1 = o.param then 0 else o.n + 1 } } := by
    rw [planCount, token_of_headIs hin]
    simp
  refine fires_beat hturn (exec_count s) hopc hplan (headTakes_one rfl hin) rfl rfl hfree fun m hm => ?_
  obtain ⟨sm, rfl⟩ := hm
  exact ⟨rfl, rfl, rfl⟩

theorem select_fires (hopc : o.opc = 0xE) {it : Item} (hin : HeadIs s e o.ina it) (hfree : ∀ n, n < 4 → CtlFree s e o n)
    (happ : ∀ n m a b q, n < 4 → m < 4 → o.out n = some a → o.out m = some b → s.route? e a = some q → s.route? e b = some q → n = m) :
    OpFires .select s e o o (heads [o.ina]) (List.range 4) (IsToken (.select (it.beat.toNat % 2 ^ 16))) := by
  have hplan : planSelect s e o = some {
      takes := [(o.ina, 0, false)], ctls := o.sendsOn (List.range 4) (ctlItem (.select (it.beat.toNat % 2 ^ 16)) it.beat), op := o } := by
    rw [planSelect, token_of_headIs hin, OpSt.sendsOn, List.map_filterMap]
    rfl
  have htake := headTakes_one (p := {
    takes := [(o.ina, 0, false)], ctls := o.sendsOn (List.range 4) (ctlItem (.select (it.beat.toNat % 2 ^ 16)) it.beat), op := o }) rfl hin
  exact fires_ctl hturn (exec_select s) hopc hplan htake.good (List.nodup_singleton _) htake.placeOf rfl rfl
    ⟨List.nodup_range, fun n m a b q hn hm => happ n m a b q (List.mem_range.1 hn) (List.mem_range.1 hm)⟩ (fun n hn => hfree n (List.mem_range.1 hn))
    ⟨rfl, rfl⟩

/-! The gate: it takes a permit, and passes a token where REMAIN allows it -/

/-- The plan of a gate: where its token finds no slot, what it does without one. -/
def gatePlan (s : State) (e : ElemRef) (o : OpSt) : Option Plan :=
  match planGate true s e o with
  | some p => if p.sends.isEmpty || s.fires e p then some p else planGate false s e o
  | none => none

omit hturn in
theorem gatePlan_of_room {p : Plan} {it : Item} (hplan : planGate true s e o = some p) (hsends : p.sends = o.beat 0 it) (hctls : p.ctls = [])
    (hfree : OutFree s e o 0) : gatePlan s e o = some p := by
  have hfires : s.fires e p = true := fires_of_room (roomFor_of_slots (hsends.trans (beat_eq ..)) hctls (outsApart_one ..) (List.forall_mem_singleton.2 hfree))
  simp only [gatePlan, hplan, hfires, Bool.or_true, if_true]

theorem gate_fires_permit (hopc : o.opc = 0x7) {c : Item} (hc : HeadIs s e o.ctl c) (hno : NoHead s e o.ina) :
    OpFires .gate s e o { o with remain := min (o.remain + o.param) (2 ^ 32 - 1) } (heads [o.ctl]) [] fun _ => True := by
  have hplan : gatePlan s e o = some { takes := [(o.ctl, 0, false)], op := { o with remain := min (o.remain + o.param) (2 ^ 32 - 1) } } := by
    simp only [gatePlan, planGate, token_of_headIs hc, token_of_noHead hno, ite_self, Option.isSome_some, if_true, List.isEmpty_nil, Bool.true_or]
  exact fires_none hturn (exec_gate s) hopc hplan (headTakes_one rfl hc) rfl rfl

theorem gate_fires_token (hopc : o.opc = 0x7) {it : Item} (hno : NoHead s e o.ctl) (hin : HeadIs s e o.ina it) (hrem : o.remain ≠ 0)
    (hfree : OutFree s e o 0) : OpFires .gate s e o { o with remain := o.remain - 1 } (heads [o.ina]) [0] (Carries it false) := by
  have hplan : planGate true s e o = some {
      takes := [(o.ina, 0, onward (o.beat 0 it))], sends := o.beat 0 it, op := { o with remain := o.remain - 1 } } := by
    simp [planGate, token_of_headIs hin, token_of_noHead hno, hrem]
  exact fires_beat hturn (exec_gate s) hopc (gatePlan_of_room hplan rfl rfl hfree) (headTakes_one rfl hin) rfl rfl hfree
    fun _ => carries_of_resampled (fault_of_headIs hin)

theorem gate_fires_both (hopc : o.opc = 0x7) (hne : o.ina ≠ o.ctl) {it c : Item} (hc : HeadIs s e o.ctl c) (hin : HeadIs s e o.ina it)
    (hrem : o.remain + o.param ≠ 0) (hfree : OutFree s e o 0) :
    OpFires .gate s e o { o with remain := min (o.remain + o.param) (2 ^ 32 - 1) - 1 } (heads [o.ctl, o.ina]) [0] (Carries it false) := by
  have hmin : min (o.remain + o.param) (2 ^ 32 - 1) ≠ 0 := by omega
  have hplan : planGate true s e o = some {
      takes := [(o.ctl, 0, false), (o.ina, 0, onward (o.beat 0 it))], sends := o.beat 0 it,
      op := { o with remain := min (o.remain + o.param) (2 ^ 32 - 1) - 1 } } := by
    simp only [planGate, token_of_headIs hc, token_of_headIs hin, Option.isSome_some, if_true, ne_eq, hmin, not_false_eq_true, decide_true,
      Bool.and_self, List.singleton_append]
  exact fires_beat hturn (exec_gate s) hopc (gatePlan_of_room hplan rfl rfl hfree) (headTakes_two rfl hne.symm hc hin) rfl rfl hfree
    fun _ => carries_of_resampled (fault_of_headIs hin)

/-! Without its tokens an operator does nothing -/

section Idle
variable (hno : NoHead s e o.ina)
include hno

theorem pass_idle : exec .pass s = .next s := opStep_idle hturn (by rw [planPass, token_of_noHead hno]; rfl)

theorem fork_idle : exec .fork s = .next s := opStep_idle hturn (by rw [planFork, token_of_noHead hno]; rfl)

theorem amerge_idle (hnob : NoHead s e o.inb) : exec .amerge s = .next s :=
  opStep_idle hturn (by rw [planAmerge, token_of_noHead hno, token_of_noHead hnob])

theorem carry_idle (hloop : o.looping = false) : exec .carry s = .next s :=
  opStep_idle hturn (by rw [planCarry, hloop, token_of_noHead hno]; rfl)

theorem sink_idle : exec .sink s = .next s := opStep_idle hturn (by rw [planSink, token_of_noHead hno]; rfl)

theorem count_idle : exec .count s = .next s := opStep_idle hturn (by rw [planCount, token_of_noHead hno]; rfl)

theorem select_idle : exec .select s = .next s := opStep_idle hturn (by rw [planSelect, token_of_noHead hno]; rfl)

end Idle

theorem steer_idle (hno : NoHead s e o.ina ∨ NoHead s e o.ctl) : exec .steer s = .next s :=
  opStep_idle hturn (plan := planSteer) (by
    obtain hno | hno := hno
    · rw [planSteer, token_of_noHead hno]
    · rw [planSteer, token_of_noHead hno]
      cases s.token e o.ina 0 <;> rfl)

theorem merge_idle (hno : NoHead s e o.ctl) : exec .merge s = .next s := opStep_idle hturn (by rw [planMerge, token_of_noHead hno])

theorem join_idle {n : Nat} (hn : n < 32) (hmask : o.value.getLsbD n = true) (hno : NoHead s e n) : exec .join s = .next s := by
  have hmem : n ∈ o.doneChans := List.mem_filter.2 ⟨List.mem_range.2 hn, hmask⟩
  refine opStep_idle hturn (if_neg fun hall => ?_)
  have hstand := List.all_eq_true.1 hall n hmem
  rw [token_of_noHead hno] at hstand
  exact absurd hstand (by decide)

theorem gate_idle (hno : NoHead s e o.ctl) (hrem : o.remain = 0) : exec .gate s = .next s :=
  opStep_idle hturn (plan := gatePlan) (by simp [gatePlan, planGate, token_of_noHead hno, hrem])

theorem const_idle (hpar : o.param ≠ 0) (hsent : o.param ≤ o.sent) : exec .const s = .next s :=
  opStep_idle hturn (if_neg (by simpa using ⟨hpar, hsent⟩))

end Operators

/-- The control value of a token (R236). -/
theorem truth_cases (i : Item) : (i.ctl = none → i.truth = i.beat.getLsbD 0) ∧ (i.ctl = some .endOfList → i.truth = false) ∧
    (i.ctl = some .arrival ∨ i.ctl = some .completion ∨ i.ctl = some .done ∨ i.ctl = some .permit → i.truth = true) := by
  unfold Item.truth
  refine ⟨fun h => by rw [h], fun h => by rw [h]; rfl, ?_⟩
  rintro (h | h | h | h)
  · rw [h]; rfl
  · rw [h]
  · rw [h]
  · rw [h]

/-- Settles O49: the plan of each operator on the tokens that stand, and what a firing of a plan takes and sends. -/
theorem operatorsFire : Obligations.OperatorsFire := by
  refine ⟨truth_cases, fun s e o h => ⟨?pass, ?fork, ?steer, ?merge, ?amerge, ?carry, ?join, ?gate, ?const, ?sink, ?count, ?select⟩⟩
  case pass => exact fun hopc => ⟨fun _ => pass_fires h hopc, pass_idle h⟩
  case fork => exact fun hopc => ⟨fun _ => fork_fires h hopc, fork_idle h⟩
  case steer => exact fun hopc hne => ⟨fun _ _ => steer_fires h hopc hne, steer_idle h⟩
  case merge =>
    exact fun hopc hia hib => ⟨fun _ _ hab hc hin => merge_fires h hopc hia hib hab hc hin,
      fun _ _ _ _ hab hc => merge_shared_fires h hopc hia hab hc, merge_idle h⟩
  case amerge => exact fun hopc _ => ⟨fun _ => amerge_fires_ina h hopc, fun _ => amerge_fires_inb h hopc, amerge_idle h⟩
  case carry =>
    exact fun hopc hne => ⟨fun _ hl => carry_fires_init h hopc hl, fun _ _ hl => carry_fires_loop h hopc hne hl, fun hl hno => carry_idle h hno hl⟩
  case join => exact fun hopc => ⟨join_fires h hopc, fun _ => join_idle h⟩
  case gate =>
    exact fun hopc hne => ⟨fun _ => gate_fires_permit h hopc, fun _ => gate_fires_token h hopc, fun _ _ => gate_fires_both h hopc hne, gate_idle h⟩
  case const => exact fun hopc => ⟨const_fires h hopc, const_idle h⟩
  case sink => exact fun hopc => ⟨fun _ => sink_fires h hopc, sink_idle h⟩
  case count => exact fun hopc => ⟨fun _ => count_fires h hopc, count_idle h⟩
  case select => exact fun hopc => ⟨fun _ => select_fires h hopc, select_idle h⟩

end Sys2Proof.Machine
end

section
/-! SUPPORT. What a window's controller serves: waiting words, fill ports, and the tokens of fill ports and control channels (R86, R224-R234). -/

namespace Sys2Proof.Machine

open Sys2Proof.Safety

/-! A read of elements, and the register it writes -/

theorem Ctx.setSvc_eq_putReg (x : Ctx) (d : SVC) (bs : List Byte) (tag : Bool) : x.setSvc d bs tag = putReg x d (ofBytesLE bs) tag := by
  cases d <;> rfl

/-- A word that waited completes as one that did not. -/
theorem complete_putReg_running (x : Ctx) (d : SVC) (v : Nat) (tag : Bool) : (putReg x.running d v tag).complete = (putReg x d v tag).complete := by
  have h : (putReg x.running d v tag).running = (putReg x d v tag).running := by
    cases d with
    | s r => dsimp only [putReg, Ctx.ss]; split <;> rfl
    | v r => rfl
    | c r => rfl
  unfold Ctx.complete
  rw [h]

/-- Item j of the i-th list of equal length. -/
theorem getD_flatMap_range {α : Type} (f : Nat → List α) (k : Nat) (hf : ∀ i, (f i).length = k) (a : α) (n i j : Nat) (hi : i < n) (hj : j < k) :
    ((List.range n).flatMap f).getD (i * k + j) a = (f i).getD j a := by
  induction n with
  | zero => omega
  | succ n ih =>
    have hlen : ((List.range n).flatMap f).length = n * k := by simp [List.length_flatMap, hf]
    rw [List.range_succ, List.flatMap_append, List.flatMap_singleton]
    obtain hlt | rfl := Nat.lt_succ_iff_lt_or_eq.1 hi
    · have hle : (i + 1) * k ≤ n * k := Nat.mul_le_mul_right k hlt
      rw [Nat.succ_mul] at hle
      rw [List.getD_append _ _ _ _ (by omega), ih hlt]
    · rw [List.getD_append_right _ _ _ _ (by omega), hlen, Nat.add_sub_cancel_left]

section WinBytes
variable {s : State} {wr : WinRef} {w : Window} {o n : Nat} {e : Elem} (he : s.elem? wr.at = some e)
include he

theorem winBytes_eq : s.winBytes wr w o n = (List.range n).flatMap fun i => e.store.read (w.offAt (o + i)) w.size := by
  rw [State.winBytes, he]

theorem length_winBytes : (s.winBytes wr w o n).length = n * w.size := by
  rw [winBytes_eq he, List.length_flatMap]
  simp [Memory.length_read]

/-- Byte j of element i of the bytes that a read of n elements finds. -/
theorem getD_winBytes {i j : Nat} (hi : i < n) (hj : j < w.size) :
    (s.winBytes wr w o n).getD (i * w.size + j) 0 = storeByte s wr.at (w.offAt (o + i) + j) := by
  rw [winBytes_eq he, getD_flatMap_range _ w.size (fun _ => Memory.length_read ..) _ _ _ _ hi hj,
    List.getD_eq_getElem _ _ (by rw [Memory.length_read]; exact hj), Memory.getElem_read, storeByte, he]

end WinBytes

/-! A waiting wread (R180, R225) -/

/-- A word that waited alone at a window finishes: its context is past the word, and nobody waits at the window. -/
theorem finish_leaveWaiters {s : State} {wr : WinRef} {w : Window} {c : Nat} (hw : s.win? wr = some w) (hwait : w.waiters = [.ctx c]) (z : Ctx) :
    let t := (s.finish (wr.at.ctx c) z).leaveWaiters wr (.ctx c)
    t.ctx? (wr.at.ctx c) = some z.complete ∧ t.win? wr = some { w with waiters := [] } ∧ (∀ k, k ≠ wr → t.win? k = s.win? k) ∧
      OnlyContext s { t with wins := s.wins } (wr.at.ctx c) := by
  refine ⟨(State.ctx?_finish ..).trans (if_pos rfl), ?_, fun k hk => ?_, ?_⟩
  · rw [State.leaveWaiters, State.win?_modWin, if_pos rfl, State.win?_finish, hw, Option.map_some, hwait]
    simp
  · rw [State.leaveWaiters, State.win?_modWin, if_neg hk, State.win?_finish]
  · obtain ⟨hothers, hrest, hbytes⟩ := Laws.onlyContext_finish s (wr.at.ctx c) z
    exact ⟨hothers, by rw [hrest]; rfl, ⟨hbytes.gddr, hbytes.bulk, hbytes.host, hbytes.store, hbytes.gddrTags, hbytes.bulkTags⟩⟩

section Wread
variable {s : State} {wr : WinRef} {w : Window} {c : Nat} {x : Ctx} {o : WOffOps} {e : Elem}
  (harg : s.arg = .win wr) (hw : s.win? wr = some w) (hcap : w.cap ≠ 0) (hwait : w.waiters = [.ctx c])
  (hx : s.ctx? (wr.at.ctx c) = some x) (hxw : x.wait = some (.window wr.win)) (hxi : x.waitIns = some (.wread o)) (how : o.win.val = wr.win)
  (he : s.elem? wr.at = some e) (hsize : sizeOk w (eszBytes o.sz) o.d = true)
include harg hw hwait hx hxw hxi

theorem exec_windowWaiterRelease_wread (d : Option State) (h : tryWread o s (wr.at.ctx c) x.running = d) :
    exec .windowWaiterRelease s = .next ((d.map fun t => t.leaveWaiters wr (.ctx c)).getD s) := by
  rw [exec_windowWaiterRelease, execWindowWaiterRelease]
  simp only [harg, hw, hwait, List.foldl_cons, List.foldl_nil, State.tryWaiter, hx, hxw, hxi, retryWord, h]
  cases d <;> rfl

omit harg hwait hx hxw hxi
include hcap how he hsize

theorem tryWread_eq : tryWread o s (wr.at.ctx c) x.running =
    if !w.readable (o.imm.toNat + (x.gs o.a).toNat) (eszBytes o.sz / w.size) then none
    else if s.winBad wr w (o.imm.toNat + (x.gs o.a).toNat) (eszBytes o.sz / w.size) then some (s.trap (wr.at.ctx c) x.running tECC_UNCORR 0 0)
    else some (s.finish (wr.at.ctx c) (putReg x.running o.d
      (ofBytesLE (s.winBytes wr w (o.imm.toNat + (x.gs o.a).toNat) (eszBytes o.sz / w.size)))
      (e.tags.contains (w.offAt (o.imm.toNat + (x.gs o.a).toNat) / 16)))) := by
  have hwin : WindowIs s (wr.at.ctx c) o.win w := ⟨by rw [how]; exact hw, hcap⟩
  have href : (wr.at.ctx c).tile.win o.win = wr := by rw [how]; rfl
  have hgs : x.running.gs o.a = x.gs o.a := rfl
  rw [tryWread, State.withWin_of_windowIs hwin, href]
  simp only [hsize, he, Ctx.offset, hgs, Ctx.setSvc_eq_putReg, Bool.not_true, Bool.false_eq_true, if_false]

include harg hwait hx hxw hxi

theorem wread_waits (h : w.frozen = true ∨ w.fill.toNat - (w.fillNow + w.fillPrev) < o.imm.toNat + (x.gs o.a).toNat + eszBytes o.sz / w.size) :
    exec .windowWaiterRelease s = .next s := by
  have hread : w.readable (o.imm.toNat + (x.gs o.a).toNat) (eszBytes o.sz / w.size) = false := by
    rw [Window.readable, Window.fv]
    obtain h | h := h
    · rw [h]; rfl
    · simpa using fun _ => h
  exact exec_windowWaiterRelease_wread harg hw hwait hx hxw hxi none (by rw [tryWread_eq hw hcap how he hsize, hread]; rfl)

theorem wread_completes (hfrozen : w.frozen = false)
    (hvis : o.imm.toNat + (x.gs o.a).toNat + eszBytes o.sz / w.size ≤ w.fill.toNat - (w.fillNow + w.fillPrev))
    (hgood : s.winBad wr w (o.imm.toNat + (x.gs o.a).toNat) (eszBytes o.sz / w.size) = false) :
    ∃ (t : State) (y : Ctx) (val : Nat), exec .windowWaiterRelease s = .next t ∧ t.ctx? (wr.at.ctx c) = some y ∧
      Past (putReg x o.d val (e.tags.contains (w.offAt (o.imm.toNat + (x.gs o.a).toNat) / 16))) y ∧ val < 2 ^ (8 * eszBytes o.sz) ∧
      (∀ i j, i < eszBytes o.sz / w.size → j < w.size →
        byteNo val (i * w.size + j) = storeByte s wr.at (w.offAt (o.imm.toNat + (x.gs o.a).toNat + i) + j)) ∧
      t.win? wr = some { w with waiters := [] } ∧ (∀ k, k ≠ wr → t.win? k = s.win? k) ∧
      OnlyContext s { t with wins := s.wins } (wr.at.ctx c) := by
  have hread : w.readable (o.imm.toNat + (x.gs o.a).toNat) (eszBytes o.sz / w.size) = true := by
    rw [Window.readable, Window.fv, hfrozen]
    simpa using hvis
  generalize hoff : o.imm.toNat + (x.gs o.a).toNat = off at *
  have htry := tryWread_eq (c := c) (x := x) hw hcap how he hsize
  rw [hoff, hread, hgood, Bool.not_true, if_neg Bool.false_ne_true, if_neg Bool.false_ne_true] at htry
  obtain ⟨hctx, hwin, hwins, honly⟩ := finish_leaveWaiters (c := c) hw hwait (putReg x.running o.d
    (ofBytesLE (s.winBytes wr w off (eszBytes o.sz / w.size))) (e.tags.contains (w.offAt off / 16)))
  refine ⟨_, _, ofBytesLE (s.winBytes wr w off (eszBytes o.sz / w.size)), exec_windowWaiterRelease_wread harg hw hwait hx hxw hxi _ htry, hctx, ?_, ?_, fun i j hi hj => ?_, hwin, hwins, honly⟩
  · rw [complete_putReg_running]
    exact Laws.past_complete _
  · have hlen : (s.winBytes wr w off (eszBytes o.sz / w.size)).length ≤ eszBytes o.sz := by
      rw [length_winBytes he]
      exact Nat.div_mul_le_self ..
    exact Nat.lt_of_lt_of_le (ofBytesLE_lt _) (Nat.pow_le_pow_right (by decide) (Nat.mul_le_mul_left 8 hlen))
  · rw [byteNo_ofBytesLE, getD_winBytes he hi hj]

end Wread

/-! Elements of a beat (R86) -/

/-- A list cut into m lists of n items each. -/
theorem chunksOf_eq_map {α : Type} {n : Nat} (hn : 0 < n) (m k : Nat) (l : List α) (hl : l.length = m * n) (hk : m ≤ k) :
    chunksOf n k l = (List.range m).map fun i => (l.drop (i * n)).take n := by
  induction m generalizing k l with
  | zero =>
    obtain rfl := List.eq_nil_of_length_eq_zero (hl.trans (Nat.zero_mul n))
    exact chunksOf_nil n k
  | succ m ih =>
    obtain ⟨k, rfl⟩ : ∃ j, k = j + 1 := ⟨k - 1, by omega⟩
    rw [Nat.succ_mul] at hl
    have hne : l.isEmpty = false := by
      rw [List.isEmpty_eq_false_iff, ← List.length_pos_iff]
      omega
    rw [chunksOf, hne, if_neg Bool.false_ne_true, ih k (l.drop n) (by rw [List.length_drop]; omega) (by omega), List.range_succ_eq_map, List.map_cons,
      Nat.zero_mul, List.drop_zero, List.map_map]
    refine congrArg (l.take n :: ·) (List.map_congr_left fun i _ => ?_)
    rw [Function.comp, List.drop_drop, Nat.succ_mul, Nat.add_comm]

theorem getD_take_drop {α : Type} (l : List α) (a : α) {n k j : Nat} (hj : j < n) : ((l.drop k).take n).getD j a = l.getD (k + j) a := by
  simp only [List.getD_eq_getElem?_getD, List.getElem?_take, hj, if_true, List.getElem?_drop]

theorem Window.size_mul_div (w : Window) : 64 / w.size * w.size = 64 ∧ 0 < w.size := by
  unfold Window.size
  generalize w.esz = z
  revert z
  decide

/-- The elements of a beat at a window. -/
theorem chunksOf_beatBytes (w : Window) (b : Beat) :
    chunksOf w.size (beatBytes b).length (beatBytes b) = (List.range (64 / w.size)).map fun a => ((beatBytes b).drop (a * w.size)).take w.size := by
  obtain ⟨hmul, hpos⟩ := w.size_mul_div
  refine chunksOf_eq_map hpos _ _ _ (by rw [length_beatBytes, hmul]) ?_
  rw [length_beatBytes]
  exact Nat.div_le_self ..

/-- The bytes of an element and of every other one behind a fill with a beat. -/
theorem stored_of_beat {s t : State} {e : ElemRef} {w : Window} {el : Elem} {b : Beat} (he : s.elem? e = some el) (hwf : el.store.wf = true)
    (hn : 64 / w.size ≤ w.cap.toNat)
    (hel : ∀ q, t.elem? q = if q = e then some (el.putAt w w.fill.toNat (chunksOf w.size (beatBytes b).length (beatBytes b)) false) else s.elem? q)
    (hg : t.gddr = s.gddr) (hb : t.bulk = s.bulk) (hh : t.host = s.host) :
    Stored s t e w w.fill.toNat (64 / w.size) fun i j => byteNo b.toNat (i * w.size + j) := by
  obtain ⟨hmul, hpos⟩ := w.size_mul_div
  have hle {i : Nat} (hi : i < 64 / w.size) : i * w.size + w.size ≤ 64 := by
    rw [← Nat.succ_mul, ← hmul]
    exact Nat.mul_le_mul_right _ hi
  rw [chunksOf_beatBytes] at hel
  have hl : ∀ c ∈ (List.range (64 / w.size)).map fun a => ((beatBytes b).drop (a * w.size)).take w.size, c.length = w.size := by
    intro c hc
    obtain ⟨i, hi, rfl⟩ := List.mem_map.1 hc
    have := hle (List.mem_range.1 hi)
    rw [List.length_take, List.length_drop, length_beatBytes]
    omega
  refine ⟨fun i j hi hj => ?_, fun a ha => ?_, fun q a hq => ?_, hg, hb, hh⟩
  · have := hle hi
    have hput := el.get_putAt_inside w _ false hl (by simpa using hn) hwf w.fill.toNat i j (by simpa using hi) hj
    rw [storeByte, hel, if_pos rfl]
    dsimp only
    rw [hput, List.getElem_map, List.getElem_range, getD_take_drop _ _ hj, getD_beatBytes _ _ (by omega)]
  · rw [storeByte, hel, if_pos rfl, storeByte, he]
    exact el.get_putAt_outside w _ false a hl hwf _ (by simpa using ha)
  · rw [storeByte, hel, if_neg hq, storeByte]

/-! A beat at a fill port (R86, R223, R228) -/

section FillBeat
variable {s : State} {wr : WinRef} {w : Window} (hw : s.win? wr = some w) (hkill : s.killed wr.rid = false) (hsaved : s.savedElem wr.at = false)
include hw hkill hsaved

theorem fillBeat_fits {b : List Byte} (hfit : w.fillable (b.length / w.size) = true) (k : Waiter) : s.fillBeat wr k b =
    some ((s.winFill wr w b false).modWin wr fun w => { w with xfers := tput w.xfers k (w.xfer k + b.length / w.size) }) := by
  simp only [State.fillBeat, State.fillPlain, hw, hkill, hsaved, hfit, Bool.false_eq_true, if_false, if_true, Option.map_some]

theorem fillBeat_full {b : List Byte} (hfull : w.fillable (b.length / w.size) = false) (k : Waiter) : s.fillBeat wr k b = none := by
  simp only [State.fillBeat, State.fillPlain, hw, hkill, hsaved, hfull, Bool.false_eq_true, if_false, Option.map_none]

end FillBeat

theorem takeAt_head {s : State} {c : ChanRef} {ch : Chan} {i : Item} {l : List Item} (hc : s.chan? c = some ch) (hi : ch.items = i :: l) :
    s.takeAt c 0 = some ({ i with sample := i.sample.map (·.leave s.cycle) }, (s.setChan c { ch with items := l }).active c.rid) := by
  simp only [State.takeAt, hc, hi, List.getElem?_cons_zero, List.eraseIdx_cons_zero]

/-- A beat of the transfer of source k has filled window wn of the element of channel c, which has lost it. -/
def State.beatIn (s : State) (c : ChanRef) (wn : Nat) (w : Window) (k : Waiter) (b : Beat) (ch : Chan) (l : List Item) : State :=
  ((((s.winFill (c.at.win wn) w (beatBytes b) false).modWin (c.at.win wn) fun w =>
    { w with xfers := tput w.xfers k (w.xfer k + (beatBytes b).length / w.size) }).setChan c { ch with items := l }).active c.rid)

section BeatIn
variable (s : State) (c : ChanRef) (wn : Nat) (w : Window) (k : Waiter) (b : Beat) (ch : Chan) (l : List Item)

theorem beatIn_rest : let t := s.beatIn c wn w k b ch l
    t = { s with elems := t.elems, wins := t.wins, chans := t.chans, busy := t.busy } := by
  unfold State.beatIn State.winFill State.active
  dsimp only
  split <;> split <;> rfl

theorem beatIn_chan? (q : ChanRef) : (s.beatIn c wn w k b ch l).chan? q = if q = c then some { ch with items := l } else s.chan? q := by
  rw [State.beatIn, State.chan?_congr (State.active_chans ..), State.chan?_setChan]
  refine ite_congr rfl (fun _ => rfl) fun _ => State.chan?_congr ?_ q
  rw [State.modWin_chans, State.winFill, State.active_chans, State.setWin_chans, State.modElem_chans]

theorem beatIn_win? (q : WinRef) : (s.beatIn c wn w k b ch l).win? q = if q = c.at.win wn then some {
    w with
    fill := w.fill + BitVec.ofNat 16 (64 / w.size), fillNow := w.fillNow + 64 / w.size,
    xfers := tput w.xfers k (w.xfer k + 64 / w.size) } else s.win? q := by
  have hlen : (chunksOf w.size 64 (beatBytes b)).length = 64 / w.size := by
    have h := chunksOf_beatBytes w b
    rw [length_beatBytes] at h
    rw [h, List.length_map, List.length_range]
  rw [State.beatIn, State.win?_congr (State.active_wins ..), State.win?_congr (State.setChan_wins ..), State.win?_modWin, State.winFill]
  simp only [State.win?_congr (State.active_wins ..), State.win?_setWin, if_true, Option.map_some, hlen, length_beatBytes]
  split
  · rfl
  · rfl

theorem beatIn_elem? {e : Elem} (he : s.elem? c.at = some e) (q : ElemRef) : (s.beatIn c wn w k b ch l).elem? q = if q = c.at then
    some (e.putAt w w.fill.toNat (chunksOf w.size (beatBytes b).length (beatBytes b)) false) else s.elem? q := by
  have helems : (s.beatIn c wn w k b ch l).elems = (s.modElem c.at fun e =>
      e.putAt w w.fill.toNat (chunksOf w.size (beatBytes b).length (beatBytes b)) false).elems := by
    rw [State.beatIn, State.active_elems, State.setChan_elems, State.modWin_elems, State.winFill, State.active_elems, State.setWin_elems]
    rfl
  rw [State.elem?_congr helems, State.elem?_modElem, he, Option.map_some]

end BeatIn

/-- A beat that the window takes leaves its channel; with a last one its transfer ends. -/
theorem portFill_of_fillBeat {s : State} {c : ChanRef} {ch : Chan} {wn : Nat} {i : Item} {l : List Item} {w : Window} (hc : s.chan? c = some ch)
    (hport : ch.port = some wn) (hitems : ch.items = i :: l) (hslot : i.slot = true) (hfault : i.fault = none) (hsample : i.sample = none)
    (hfill : ∀ k, s.fillBeat (c.at.win wn) k (beatBytes i.beat) = some ((s.winFill (c.at.win wn) w (beatBytes i.beat) false).modWin (c.at.win wn) fun w =>
      { w with xfers := tput w.xfers k (w.xfer k + (beatBytes i.beat).length / w.size) })) :
    let t := s.beatIn c wn w (i.source c.vc) i.beat ch l
    s.portFill c = some (if i.last then t.transferEnd (c.at.win wn) (i.source c.vc) (i.arrivalChan t (c.at.win wn) c.vc) .arrival else t) := by
  have hchan : ((s.winFill (c.at.win wn) w (beatBytes i.beat) false).modWin (c.at.win wn) fun w => { w with
      xfers := tput w.xfers (i.source c.vc) (w.xfer (i.source c.vc) + (beatBytes i.beat).length / w.size) }).chan? c = some ch := by
    rw [State.chan?_congr (State.modWin_chans ..), State.winFill, State.chan?_congr (State.active_chans ..)]
    exact hc
  rw [State.portFill]
  simp only [hc, hport, hitems, hslot, hfault, Bool.not_true, Option.isSome_none, Bool.or_self, Bool.false_eq_true, if_false, hfill]
  simp only [takeAt_head hchan hitems, hsample, Option.map_none, State.sinkItem]
  rfl

/-- A transfer of a channel ends: its token is to leave two cycles on. -/
theorem transferEnd_of_win {s : State} {wr : WinRef} {w : Window} (hw : s.win? wr = some w) (vc : Nat) (t : CtlKind) :
    s.transferEnd wr (.chan vc) (some vc) t = s.setWin wr {
      w with
      xfers := tdel w.xfers (.chan vc),
      due := w.due ++ [(s.cycle + 2, vc, ctlItem t (controlBeat t wr.win wr.elem (w.xfer (.chan vc)) 0))] } := by
  simp only [State.transferEnd, hw]
  rfl

section FillPort
variable {s : State} {c : ChanRef} {ch : Chan} {wn : Nat} {i : Item} {l : List Item} {w : Window} {e : Elem}
  (harg : s.arg = .chan c) (hc : s.chan? c = some ch) (hport : ch.port = some wn) (hitems : ch.items = i :: l) (hslot : i.slot = true)
  (hfault : i.fault = none) (hsample : i.sample = none) (hreply : i.reply = none) (hw : s.win? (c.at.win wn) = some w)
  (hwait : w.waiters = []) (he : s.elem? c.at = some e) (hsaved : e.saved = false)
  (hkill : ∀ rs, s.res? c.rid = some rs → rs.killed = false)

include he hsaved in
theorem savedElem_port : s.savedElem (c.at.win wn).at = false := by
  have hat : s.elem? (c.at.win wn).at = some e := he
  rw [State.savedElem, hat]
  exact hsaved

include hkill in
theorem killed_port : s.killed (c.at.win wn).rid = false := by
  have hres : s.res? (c.at.win wn).rid = s.res? c.rid := rfl
  rw [State.killed, hres]
  split
  · next rs h => exact hkill rs h
  · rfl

include hc hport hitems hslot hfault hreply hw hwait harg

theorem exec_fillAccept_port (d : Option State) (h : s.portFill c = d) :
    exec .fillAccept s = .next (d.getD (s.joinWaiters (c.at.win wn) (.chan c.vc))) := by
  have hhead : s.replyHead c = false := by simp only [State.replyHead, hc, hitems, hreply, Option.isSome_none]
  have hnot : w.waiters.contains (.chan c.vc) = false := by rw [hwait]; rfl
  rw [exec_fillAccept, execFillAccept, harg]
  simp only [hhead, Bool.false_eq_true, if_false, State.fillHead, hc, hport, hitems, hw, hnot, hslot, hfault, Option.isSome_none, Bool.not_true, Bool.or_self, h]
  cases d <;> rfl

include he hsaved hkill

theorem fillPort_waits (h : w.frozen = true ∨ w.cap.toNat < w.fill.toNat + w.shrinkNow + 64 / w.size) : ∃ t, exec .fillAccept s = .next t ∧
    t.win? (c.at.win wn) = some { w with waiters := [.chan c.vc] } ∧ (∀ k, k ≠ c.at.win wn → t.win? k = s.win? k) ∧ t.chans = s.chans ∧
    OnlyFabric s t ∧ SameBytes s t := by
  have hfull : w.fillable ((beatBytes i.beat).length / w.size) = false := by
    have hpos : 0 < 64 / w.size := Nat.div_pos (Nat.le_of_dvd (by decide) ⟨64 / w.size, by rw [Nat.mul_comm, w.size_mul_div.1]⟩) w.size_mul_div.2
    rw [length_beatBytes, Window.fillable, Window.sv]
    obtain h | h := h
    · rw [h]; rfl
    · rw [Bool.and_eq_false_iff, decide_eq_false_iff_not]
      exact .inr (by omega)
  have hnone : s.portFill c = none := by
    rw [State.portFill]
    simp only [hc, hport, hitems, hslot, hfault, Bool.not_true, Option.isSome_none, Bool.or_self, Bool.false_eq_true, if_false,
      fillBeat_full hw (killed_port hkill) (savedElem_port he hsaved) hfull]
  refine ⟨_, exec_fillAccept_port harg hc hport hitems hslot hfault hreply hw hwait _ hnone, ?_, fun k hk => ?_, rfl, ⟨rfl, rfl, rfl, rfl, rfl, rfl, rfl⟩,
    Laws.sameBytes_of rfl rfl rfl rfl rfl rfl⟩
  · rw [Option.getD_none, State.joinWaiters, State.win?_modWin, if_pos rfl, hw, Option.map_some, hwait]
    rfl
  · rw [Option.getD_none, State.joinWaiters, State.win?_modWin, if_neg hk]

include hsample

theorem fillPort_takes (hfrozen : w.frozen = false) (hfit : w.fill.toNat + w.shrinkNow + 64 / w.size ≤ w.cap.toNat) :
    exec .fillAccept s = .next (if i.last then (s.beatIn c wn w (.chan c.vc) i.beat ch l).transferEnd (c.at.win wn) (.chan c.vc) (some c.vc) .arrival
      else s.beatIn c wn w (.chan c.vc) i.beat ch l) := by
  have hfits : w.fillable ((beatBytes i.beat).length / w.size) = true := by
    rw [length_beatBytes, Window.fillable, Window.sv, hfrozen, Bool.not_false, Bool.true_and, decide_eq_true_eq]
    omega
  have htook := portFill_of_fillBeat hc hport hitems hslot hfault hsample (fillBeat_fits hw (killed_port hkill) (savedElem_port he hsaved) hfits)
  have hsource : i.source c.vc = .chan c.vc := by rw [Item.source, hreply]
  simp only [hsource, Item.arrivalChan, hreply, Option.isSome_none, Bool.false_eq_true, if_false] at htook
  exact exec_fillAccept_port harg hc hport hitems hslot hfault hreply hw hwait _ htook

theorem fillPort_fills (hcan : MemoryCanonical s) (hfrozen : w.frozen = false) (hfit : w.fill.toNat + w.shrinkNow + 64 / w.size ≤ w.cap.toNat) :
    ∃ t, exec .fillAccept s = .next t ∧
      Stored s t c.at w w.fill.toNat (64 / w.size) (fun a b => byteNo i.beat.toNat (a * w.size + b)) ∧
      t.chan? c = some { ch with items := l } ∧ (∀ q, q ≠ c → t.chan? q = s.chan? q) ∧ OnlyFabric s t ∧
      (∀ k, k ≠ c.at.win wn → t.win? k = s.win? k) ∧
      ∃ z, (∀ q, q ≠ .chan c.vc → tget z q = tget w.xfers q) ∧
      (i.last = false → tget z (.chan c.vc) = some ((tget w.xfers (.chan c.vc)).getD 0 + 64 / w.size) ∧ t.win? (c.at.win wn) = some {
        w with
        fill := w.fill + BitVec.ofNat 16 (64 / w.size), fillNow := w.fillNow + 64 / w.size, xfers := z }) ∧
      (i.last = true → tget z (.chan c.vc) = none ∧
        ∃ m, m = ctlItem .arrival (controlBeat .arrival wn c.elem ((tget w.xfers (.chan c.vc)).getD 0 + 64 / w.size) 0) ∧ t.win? (c.at.win wn) = some {
          w with
          fill := w.fill + BitVec.ofNat 16 (64 / w.size), fillNow := w.fillNow + 64 / w.size, xfers := z,
          due := w.due ++ [(s.cycle + 2, c.vc, m)] }) := by
  obtain ⟨-, -, -, hwf⟩ := hcan
  have hexec := fillPort_takes harg hc hport hitems hslot hfault hsample hreply hw hwait he hsaved hkill hfrozen hfit
  obtain ⟨hrest, hchan, hwin, helem⟩ : _ ∧ _ ∧ _ ∧ _ := ⟨beatIn_rest s c wn w (.chan c.vc) i.beat ch l, beatIn_chan? s c wn w (.chan c.vc) i.beat ch l,
    beatIn_win? s c wn w (.chan c.vc) i.beat ch l, beatIn_elem? s c wn w (.chan c.vc) i.beat ch l he⟩
  generalize s.beatIn c wn w (.chan c.vc) i.beat ch l = u at *
  have hfabric (ws : Tbl WinRef Window) : let t := { u with wins := ws }
      Stored s t c.at w w.fill.toNat (64 / w.size) (fun a b => byteNo i.beat.toNat (a * w.size + b)) ∧
        t.chan? c = some { ch with items := l } ∧ (∀ q, q ≠ c → t.chan? q = s.chan? q) ∧ OnlyFabric s t :=
    ⟨stored_of_beat he (hwf _ _ he) (by omega) helem (by rw [hrest]) (by rw [hrest]) (by rw [hrest]), (hchan c).trans (if_pos rfl),
      fun q hq => (hchan q).trans (if_neg hq), by rw [hrest]; exact ⟨rfl, rfl, rfl, rfl, rfl, rfl, rfl⟩⟩
  have hself := (hwin (c.at.win wn)).trans (if_pos rfl)
  have hother (k : WinRef) (hk : k ≠ c.at.win wn) : u.win? k = s.win? k := (hwin k).trans (if_neg hk)
  cases hlast : i.last with
  | false =>
    rw [hlast] at hexec
    obtain ⟨hstored, htook, hchans, honly⟩ := hfabric u.wins
    exact ⟨u, hexec, hstored, htook, hchans, honly, hother, _, fun q hq => tget_tput_other _ _ hq, fun _ => ⟨tget_tput_self .., hself⟩, nofun⟩
  | true =>
    rw [hlast, if_pos rfl, transferEnd_of_win hself] at hexec
    obtain ⟨hstored, htook, hchans, honly⟩ := hfabric (tput u.wins (c.at.win wn) _)
    refine ⟨_, hexec, hstored, htook, hchans, honly, fun k hk => ?_, tdel (tput w.xfers (.chan c.vc) (w.xfer (.chan c.vc) + 64 / w.size)) (.chan c.vc),
      fun q hq => ?_, nofun, fun _ => ⟨?_, _, rfl, ?_⟩⟩
    · rw [State.win?_setWin, if_neg hk, hother k hk]
    · rw [tget_tdel, if_neg hq, tget_tput_other _ _ hq]
    · rw [tget_tdel, if_pos rfl]
    · have hcycle : u.cycle = s.cycle := by rw [hrest]
      simp only [State.win?_setWin, if_true, hcycle, Window.xfer, tget_tput_self, Option.getD_some]
      rfl

end FillPort

/-! Tokens of windows and of fill ports (R228, R231) -/

theorem OnlyFabric.of_links {s t : State} (h : LinksOnly s t) : OnlyFabric s t := by
  obtain ⟨_, _, _, _, rfl⟩ := h
  exact ⟨rfl, rfl, rfl, rfl, rfl, rfl, rfl⟩

theorem LinksOnly.wins {s t : State} (h : LinksOnly s t) : t.wins = s.wins := by
  obtain ⟨_, _, _, _, rfl⟩ := h
  rfl

theorem sameBytes_sendCtl {s u : State} (h : SameBytes s u) (e : ElemRef) (oc : Nat) (i : Item) : SameBytes s (u.sendCtl e oc i) :=
  h.trans (LinksOnly.sendCtl ..).sameBytes

/-- A control token stands last on the link of the channel to which its route leads. -/
theorem sendCtl_chan? {s : State} {e : ElemRef} {oc : Nat} {q : ChanRef} {ch : Chan} (hr : s.route? e oc = some q) (hq : s.chan? q = some ch) (i : Item) :
    ∃ d, s.cycle < d ∧ (s.sendCtl e oc i).chan? q = some { ch with flight := ch.flight ++ [(d, .item i)] } := by
  obtain ⟨-, d, m, hd, rfl, hc⟩ := emits_sendCtl s e oc i
  exact ⟨d, hd, by rw [hc, if_pos hr, hq, Option.map_some]⟩

theorem sendCtl_chan?_other {s : State} {e : ElemRef} {oc : Nat} {q : ChanRef} (hr : s.route? e oc ≠ some q) (i : Item) :
    (s.sendCtl e oc i).chan? q = s.chan? q := by
  obtain ⟨-, d, m, -, -, hc⟩ := emits_sendCtl s e oc i
  rw [hc, if_neg hr]

section ArrivalToken
variable {s : State} {wr : WinRef} {w : Window} {d vc : Nat} {i : Item} (harg : s.arg = .win wr) (hw : s.win? wr = some w) (hdue : w.due = [(d, vc, i)])
include harg hw

theorem arrivalToken_of_saved (h : s.savedElem wr.at = true) : exec .arrivalToken s = .next s := by
  rw [exec_arrivalToken, execArrivalToken, harg]
  simp only [hw, h, if_true]

include hdue

theorem arrivalToken_idle (h : s.cycle < d ∨ s.ctlRoom wr.at vc = false) : exec .arrivalToken s = .next s := by
  have hstay : (decide (s.cycle < d) || !s.ctlRoom wr.at vc) = true := by simpa using h
  rw [exec_arrivalToken, execArrivalToken, harg]
  simp only [hw, hdue, State.tokensGo, hstay, if_true, ite_self]

theorem arrivalToken_leaves (hd : d ≤ s.cycle) (hroom : s.ctlRoom wr.at vc = true) (hsaved : s.savedElem wr.at = false) :
    ∃ t, exec .arrivalToken s = .next t ∧ t.win? wr = some { w with due := [] } ∧
      (∀ k, k ≠ wr → t.win? k = s.win? k) ∧ OnlyFabric s t ∧ SameBytes s t ∧
      ∀ q ch, s.route? wr.at vc = some q → s.chan? q = some ch → ∃ due m, s.cycle < due ∧ m.ctl = i.ctl ∧ m.slot = i.slot ∧
        m.beat = i.beat ||| BitVec.ofNat 512 ((w.fill.toNat - (w.fillNow + w.fillPrev)) * 2 ^ 48) ∧
        t.chan? q = some { ch with flight := ch.flight ++ [(due, .item m)] } := by
  have hgo : (decide (s.cycle < d) || !s.ctlRoom wr.at vc) = false := by simpa using ⟨hd, hroom⟩
  refine ⟨(s.setWin wr { w with due := [] }).sendCtl wr.at vc
    { i with beat := i.beat ||| BitVec.ofNat 512 (w.fv * 2 ^ 48), reply := none }, ?_, ?_, fun k hk => ?_, ?_, ?_, fun q ch hr hq => ?_⟩
  · rw [exec_arrivalToken, execArrivalToken, harg]
    simp only [hw, hdue, hsaved, State.tokensGo, hgo, Bool.false_eq_true, if_false]
  · rw [State.win?_congr (LinksOnly.wins (.sendCtl ..)), State.win?_setWin, if_pos rfl]
  · rw [State.win?_congr (LinksOnly.wins (.sendCtl ..)), State.win?_setWin, if_neg hk]
  · exact OnlyFabric.of_links (s := s.setWin wr { w with due := [] }) (.sendCtl ..)
  · refine sameBytes_sendCtl ?_ ..
    exact Laws.sameBytes_of rfl rfl rfl rfl rfl rfl
  · obtain ⟨due, hlt, hsent⟩ := sendCtl_chan? (s := s.setWin wr { w with due := [] }) hr hq
      { i with beat := i.beat ||| BitVec.ofNat 512 (w.fv * 2 ^ 48), reply := none }
    exact ⟨due, { i with beat := i.beat ||| BitVec.ofNat 512 (w.fv * 2 ^ 48), reply := none }, hlt, rfl, rfl, rfl, hsent⟩

end ArrivalToken

/-- Routes do not see what a channel holds. -/
theorem route?_setChan {s : State} {c : ChanRef} {ch x : Chan} (hc : s.chan? c = some ch) (e : ElemRef) (oc : Nat) :
    (s.setChan c x).route? e oc = s.route? e oc := by
  refine route?_congr (s := s) (t := s.setChan c x) rfl (fun q => ?_) oc
  rw [State.chan?_setChan]
  split
  · next h => rw [h, hc]; rfl
  · rfl

section ControlTokenPass
variable {s : State} {c : ChanRef} {ch : Chan} {wn : Nat} {i : Item} {l : List Item} {w : Window} (harg : s.arg = .chan c) (hc : s.chan? c = some ch)
  (hport : ch.port = some wn) (hitems : ch.items = i :: l) (hw : s.win? (c.at.win wn) = some w)
include harg hc hport hitems hw

theorem controlTokenPass_idle (h : i.slot = true ∨ (∃ d m, (d, c.vc, m) ∈ w.due) ∨ s.ctlRoom c.at c.vc = false) :
    exec .controlTokenPass s = .next s := by
  have hstay : (i.slot || (w.due.any fun d => d.2.1 == c.vc) || !s.ctlRoom c.at c.vc) = true := by
    obtain h | ⟨d, m, h⟩ | h := h
    · rw [h, Bool.true_or, Bool.true_or]
    · rw [List.any_eq_true.2 ⟨_, h, beq_self_eq_true c.vc⟩, Bool.or_true, Bool.true_or]
    · rw [h, Bool.not_false, Bool.or_true]
  rw [exec_controlTokenPass, execControlTokenPass, harg]
  simp only [hc, hport, hitems, hw, hstay, if_true]

theorem controlTokenPass_passes (hslot : i.slot = false) (hdue : ∀ d v m, (d, v, m) ∈ w.due → v ≠ c.vc) (hroom : s.ctlRoom c.at c.vc = true) :
    ∃ t, exec .controlTokenPass s = .next t ∧ (s.route? c.at c.vc ≠ some c → t.chan? c = some { ch with items := l }) ∧ t.wins = s.wins ∧
      OnlyFabric s t ∧ SameBytes s t ∧ TokenLeaves s t c.at c.vc c fun m => m = i := by
  have hgo : (i.slot || (w.due.any fun d => d.2.1 == c.vc) || !s.ctlRoom c.at c.vc) = false := by
    have hnone : (w.due.any fun d => d.2.1 == c.vc) = false := List.any_eq_false.2 fun d hd => by simpa using hdue d.1 d.2.1 d.2.2 hd
    rw [hslot, hnone, hroom]
    rfl
  have hroute := route?_setChan (x := { ch with items := l }) hc c.at c.vc
  refine ⟨(s.setChan c { ch with items := l }).sendCtl c.at c.vc i, ?_, fun hr => ?_, ?_, ?_, ?_, fun q x hr hqc hq => ?_⟩
  · rw [exec_controlTokenPass, execControlTokenPass, harg]
    simp only [hc, hport, hitems, hw, hgo, Bool.false_eq_true, if_false]
  · rw [sendCtl_chan?_other (hroute ▸ hr), State.chan?_setChan, if_pos rfl]
  · exact LinksOnly.wins (.sendCtl ..)
  · exact OnlyFabric.of_links (s := s.setChan c { ch with items := l }) (.sendCtl ..)
  · refine sameBytes_sendCtl ?_ ..
    exact Laws.sameBytes_of rfl rfl rfl rfl rfl rfl
  · obtain ⟨d, hd, hsent⟩ := sendCtl_chan? (hroute.trans hr) ((State.chan?_setChan ..).trans (if_neg hqc) |>.trans hq) i
    exact ⟨d, _, hd, rfl, hsent⟩

end ControlTokenPass

/-! The tokens that wait at a channel (R231, R234) -/

section ControlBeat
variable {s : State} {c : ChanRef} {ch : Chan} {i : Item} {l : List Item} (harg : s.arg = .chan c) (hc : s.chan? c = some ch) (hheld : ch.held = i :: l)
include harg hc hheld

theorem controlBeat_full (hn : 255 ≤ s.counter c ch) : exec .controlBeat s = .next s := by
  rw [exec_controlBeat, execControlBeat, harg]
  simp only [hc, hheld, hn, if_true]

omit harg hc hheld in
/-- The channel changes alone. -/
theorem controlBeat_chan {x : Chan} (h : exec .controlBeat s = .next ((s.setChan c x).active c.rid)) :
    ∃ t, exec .controlBeat s = .next t ∧ t.chan? c = some x ∧ t = { s with chans := t.chans, busy := t.busy } ∧ ∀ q, q ≠ c → t.chan? q = s.chan? q := by
  refine ⟨_, h, ?_, ?_, fun q hq => ?_⟩
  · rw [State.chan?_congr (State.active_chans ..), State.chan?_setChan, if_pos rfl]
  · unfold State.active
    split <;> rfl
  · rw [State.chan?_congr (State.active_chans ..), State.chan?_setChan, if_neg hq]

theorem controlBeat_select {g : Nat} {e : Elem} (hi : i.ctl = some (.select g)) (hn : s.counter c ch < 255) (he : s.elem? c.at = some e) :
    ∃ t, exec .controlBeat s = .next t ∧ t.chan? c = some { ch with held := l } ∧ t.elem? c.at = some { e with select := e.select ++ [(c.vc, g)] } ∧
      t = { s with chans := t.chans, elems := t.elems, busy := t.busy } ∧ ∀ q, q ≠ c → t.chan? q = s.chan? q := by
  refine ⟨((s.setChan c { ch with held := l }).modElem c.at fun e => { e with select := e.select ++ [(c.vc, g)] }).active c.rid, ?_, ?_, ?_, ?_, fun q hq => ?_⟩
  · rw [exec_controlBeat, execControlBeat, harg]
    simp only [hc, hheld, hi, Nat.not_le.2 hn, if_false]
  · rw [State.chan?_congr (State.active_chans ..), State.chan?_congr (State.modElem_chans ..), State.chan?_setChan, if_pos rfl]
  · rw [State.elem?_congr (State.active_elems ..), State.elem?_modElem, if_pos rfl, State.elem?_congr (State.setChan_elems ..), he, Option.map_some]
  · unfold State.active
    split <;> rfl
  · rw [State.chan?_congr (State.active_chans ..), State.chan?_congr (State.modElem_chans ..), State.chan?_setChan, if_neg hq]

section Data
variable (hi : ∀ g, i.ctl ≠ some (.select g))
include hi

theorem controlBeat_data (hn : s.counter c ch < 255) : exec .controlBeat s =
    if s.declared c then
      if ch.free = 0 then .next s
      else .next ((s.setChan c { ch with held := l, items := ch.items ++ [{ i with slot := true }] }).active c.rid)
    else .next ((s.setChan c { ch with held := l, items := ch.items ++ [i] }).active c.rid) := by
  rw [exec_controlBeat, execControlBeat, harg]
  cases hctl : i.ctl with
  | none => simp only [hc, hheld, hctl, Nat.not_le.2 hn, if_false]
  | some k =>
    cases k with
    | select g => exact absurd hctl (hi g)
    | _ => simp only [hc, hheld, hctl, Nat.not_le.2 hn, if_false]

theorem controlBeat_declared_full (hdecl : s.declared c = true) (hfree : ch.free = 0) : exec .controlBeat s = .next s := by
  obtain hn | hn := Nat.lt_or_ge (s.counter c ch) 255
  · rw [controlBeat_data harg hc hheld hi hn, if_pos hdecl, if_pos hfree]
  · exact controlBeat_full harg hc hheld hn

theorem controlBeat_declared (hn : s.counter c ch < 255) (hdecl : s.declared c = true) (hfree : ch.free ≠ 0) :
    ∃ t, exec .controlBeat s = .next t ∧ t.chan? c = some { ch with held := l, items := ch.items ++ [{ i with slot := true }] } ∧
      t = { s with chans := t.chans, busy := t.busy } ∧ ∀ q, q ≠ c → t.chan? q = s.chan? q :=
  controlBeat_chan (by rw [controlBeat_data harg hc hheld hi hn, if_pos hdecl, if_neg hfree])

theorem controlBeat_counted (hn : s.counter c ch < 255) (hdecl : s.declared c = false) :
    ∃ t, exec .controlBeat s = .next t ∧ t.chan? c = some { ch with held := l, items := ch.items ++ [i] } ∧
      t = { s with chans := t.chans, busy := t.busy } ∧ ∀ q, q ≠ c → t.chan? q = s.chan? q :=
  controlBeat_chan (by rw [controlBeat_data harg hc hheld hi hn, hdecl, if_neg Bool.false_ne_true])

end Data

end ControlBeat




/-- Settles O51: a window's scan of one waiting wread, a fill port's beat by whether it fits, and the tokens of windows, fill ports and control channels. -/
theorem windowsServeWaitersAndPorts : Obligations.WindowsServeWaitersAndPorts := by
  refine ⟨?wread, ?fill, ?arrival, ?pass, ?control⟩
  case wread =>
    intro s wr w c x o e harg hw hcap hwait hx hxw hxi how he hsize
    exact ⟨wread_waits harg hw hcap hwait hx hxw hxi how he hsize, wread_completes harg hw hcap hwait hx hxw hxi how he hsize⟩
  case fill =>
    intro s c ch wn i l w e harg hc hport hitems hslot hfault hsample hreply hw hcap hwait he hsaved hkill hcan
    exact ⟨fillPort_waits harg hc hport hitems hslot hfault hreply hw hwait he hsaved hkill,
      fillPort_fills harg hc hport hitems hslot hfault hsample hreply hw hwait he hsaved hkill hcan⟩
  case arrival =>
    intro s wr w d vc i harg hw hdue
    exact ⟨arrivalToken_idle harg hw hdue, arrivalToken_of_saved harg hw, arrivalToken_leaves harg hw hdue⟩
  case pass =>
    intro s c ch wn i l w harg hc hport hitems hw
    exact ⟨controlTokenPass_idle harg hc hport hitems hw, controlTokenPass_passes harg hc hport hitems hw⟩
  case control =>
    intro s c ch i l harg hc hheld
    exact ⟨controlBeat_full harg hc hheld, fun g e => controlBeat_select harg hc hheld, controlBeat_declared_full harg hc hheld,
      controlBeat_declared harg hc hheld, controlBeat_counted harg hc hheld⟩

end Sys2Proof.Machine
end

section
/-! SUPPORT. Configuration contexts: the second-level store, fetches and switches (R104, R105). -/

namespace Sys2Proof.Machine

open Sys2Proof.Safety

/-! The second-level store (R105) -/

/-- The layout of an event record of kind 1, 2, 3 or 6 (R268). -/
def eventLayout (kind code tag block elem off pc cycle : Nat) : List (Nat × Nat × Nat) :=
  [(7, 0, kind), (15, 8, code % 256), (31, 16, tag % 2 ^ 16), (47, 32, block % 2 ^ 16), (63, 48, elem % 2 ^ 16),
    (127, 64, off % 2 ^ 64), (191, 128, cycle % 2 ^ 64), (203, 192, pc % 4096)]

theorem eventBeat_eq (s : State) (kind code tag block elem off pc : Nat) :
    eventBeat s kind code tag block elem off pc = beatOf ((eventLayout kind code tag block elem off pc s.cycle).map (·.2)) := rfl

theorem laid_eventLayout {kind : Nat} (hkind : kind < 256) (code tag block elem off pc cycle : Nat) :
    Laid 0 (eventLayout kind code tag block elem off pc cycle) := by
  simp only [eventLayout, Laid, Nat.reduceAdd, Nat.reduceSub, Nat.reducePow, and_true]
  omega

section StoreAdd
variable {s : State} {rid : Nat} {rs : Res} {bs : List Byte} (harg : s.arg = .data rid bs) (hrs : s.res? rid = some rs) (hst : rs.st = .resident)
  (hcompat : rs.image.compat = true)

/-- The frames of the store of a residency's block that an image does not replace. -/
def State.framesKept (s : State) (rs : Res) (im : Image) : List Frame :=
  ((tget s.ctxStore (rs.tag, rs.block)).getD []).filter fun f => !im.groups.contains (f.grp.getD f.elem)

/-- The frames that an image adds to the store. -/
def Image.framesAdded (im : Image) : List Frame := im.frames.filter fun f => f.grp.isSome || (f.kind == 4 && f.sub == 0x0F0)

/-- Frames in the store once an image is added. -/
def State.framesThen (s : State) (rs : Res) (im : Image) : Nat :=
  s.storeUsed - ((tget s.ctxStore (rs.tag, rs.block)).getD []).length + (s.framesKept rs im).length + im.framesAdded.length

/-- The first failing check of an image for the store. -/
def State.addErr (s : State) (rs : Res) (im : Image) : Option LErr :=
  firstSome [crcErr im, sigErr s im, if 262144 < s.framesThen rs im then some { code := 0x0A, off := 0 } else none]

theorem firstSome_eq_none_iff {α : Type} (l : List (Option α)) : firstSome l = none ↔ ∀ a ∈ l, a = none := by
  induction l with
  | nil => simp [firstSome]
  | cons a l ih => cases a <;> simp [firstSome, ih]

theorem addErr_eq_none_iff {im : Image} : s.addErr rs im = none ↔ crcErr im = none ∧ sigErr s im = none ∧ s.framesThen rs im ≤ 262144 := by
  rw [State.addErr, firstSome_eq_none_iff]
  simp

include harg hrs hst hcompat

theorem exec_contextStoreAdd_resident : exec .contextStoreAdd s =
    match s.addErr rs (parseImage bs) with
    | some e => .next (s.loadRecord 1 rs.tag rs.block e)
    | none => .next { s with ctxStore := tput s.ctxStore (rs.tag, rs.block) (s.framesKept rs (parseImage bs) ++ (parseImage bs).framesAdded) } := by
  rw [exec_contextStoreAdd, execContextStoreAdd, harg]
  simp only [hrs, hst, hcompat, ne_eq, not_true_eq_false, decide_false, Bool.not_true, Bool.or_self, Bool.false_eq_true, if_false]
  rfl

theorem contextStoreAdd_enters (hok : s.addErr rs (parseImage bs) = none) : ∃ t, exec .contextStoreAdd s = .next t ∧
    tget t.ctxStore (rs.tag, rs.block) = some (s.framesKept rs (parseImage bs) ++ (parseImage bs).framesAdded) ∧
    (∀ k, k ≠ (rs.tag, rs.block) → tget t.ctxStore k = tget s.ctxStore k) ∧ t = { s with ctxStore := t.ctxStore } :=
  ⟨_, by rw [exec_contextStoreAdd_resident harg hrs hst hcompat, hok], tget_tput_self .., fun _ hk => tget_tput_other _ _ hk, rfl⟩

theorem contextStoreAdd_records (hbad : s.addErr rs (parseImage bs) ≠ none) : ∃ m code, exec .contextStoreAdd s =
    .next { s with eventWait := s.eventWait ++ [m] } ∧ m.toNat % 2 ^ 8 = 1 ∧ m.toNat / 2 ^ 8 % 2 ^ 8 = code := by
  obtain ⟨e, he⟩ := Option.ne_none_iff_exists'.1 hbad
  refine ⟨eventBeat s 1 e.code rs.tag rs.block e.elem e.off e.pc, _, by rw [exec_contextStoreAdd_resident harg hrs hst hcompat, he]; rfl, ?_, rfl⟩
  have hkind := (laid_eventLayout (kind := 1) (by decide) e.code rs.tag rs.block e.elem e.off e.pc s.cycle).field_beatOf
    (.head _) (by decide)
  rw [eventBeat_eq]
  simpa [field] using hkind

end StoreAdd

/-! Fetches of contexts (R104) -/

section Unit
variable {s : State} {e : ElemRef} {el : Elem} {rs : Res} (harg : s.arg = .elem e) (hel : s.elem? e = some el) (hrs : s.res? e.rid = some rs)

section Fetch
variable {g d : Nat} (hfetch : el.fetch = some (g, d))
include harg hel hrs hfetch

theorem contextFetchDone_early (hd : s.cycle < d) : exec .contextFetchDone s = .next s := by
  rw [exec_contextFetchDone, execContextFetchDone, harg]
  simp only [hel, hrs, hfetch, hd, if_true]

theorem contextFetchDone_caches (hd : d ≤ s.cycle) : ∃ t k, exec .contextFetchDone s = .next t ∧ t.elem? e = some k ∧ k.fetch = none ∧
    k.cache = ((g, (s.storedGroup rs g).getD []) :: el.cache).take 4 ∧ t.ctxs = s.ctxs ∧ t.chans = s.chans := by
  refine ⟨(s.modElem e fun el => { el with fetch := none, cache := ((g, (s.storedGroup rs g).getD []) :: el.cache).take 4 }).active e.rid,
    { el with fetch := none, cache := ((g, (s.storedGroup rs g).getD []) :: el.cache).take 4 }, ?_, ?_, rfl, rfl, State.active_ctxs .., State.active_chans ..⟩
  · rw [exec_contextFetchDone, execContextFetchDone, harg]
    simp only [hel, hrs, hfetch, Nat.not_lt.2 hd, if_false]
  · rw [State.elem?_congr (State.active_elems ..), State.elem?_modElem, if_pos rfl, hel, Option.map_some]

end Fetch

end Unit

/-! New headers (R104) -/

/-- The registers and flags of a context stay. -/
structure KeepsFile (x y : Ctx) : Prop where
  s : y.s = x.s
  v : y.v = x.v
  k : y.k = x.k
  c : y.c = x.c
  flags : y.flags = x.flags

theorem KeepsFile.refl (x : Ctx) : KeepsFile x x := ⟨rfl, rfl, rfl, rfl, rfl⟩

theorem KeepsFile.trans {x y z : Ctx} (h1 : KeepsFile x y) (h2 : KeepsFile y z) : KeepsFile x z :=
  ⟨h2.s.trans h1.s, h2.v.trans h1.v, h2.k.trans h1.k, h2.c.trans h1.c, h2.flags.trans h1.flags⟩

theorem keepsFile_rehead (x : Ctx) (t : Task) : KeepsFile x (x.rehead t) := ⟨rfl, rfl, rfl, rfl, rfl⟩

theorem st_rehead_ne_done (x : Ctx) (t : Task) : (x.rehead t).st ≠ .done := by
  unfold Ctx.rehead
  dsimp only
  split
  · exact nofun
  · next h =>
    rw [Bool.or_eq_true, decide_eq_true_eq, not_or] at h
    exact h.1

/-- Context c of a tile under its new header, where the image has one. -/
def State.rehead (s : State) (e : ElemRef) (im : Image) (caps : List CapV) (c : Nat) : State :=
  match im.taskOf e.elem c, s.ctx? (e.ctx c) with
  | some t, some x => s.setCtx (e.ctx c) (x.rehead t)
  | some t, none => s.setCtx (e.ctx c) (t.ctx_ caps)
  | none, some x => s.setCtx (e.ctx c) { x with st := .unbound }
  | none, none => s

theorem reheadAll_eq (s : State) (e : ElemRef) (im : Image) (caps : List CapV) : s.reheadAll e im caps = (List.range 8).foldl (fun s c => s.rehead e im caps c) s := rfl

section Rehead
variable (e : ElemRef) (im : Image) (caps : List CapV)

theorem rehead_rest (s : State) (c : Nat) : s.rehead e im caps c = { s with ctxs := (s.rehead e im caps c).ctxs } := by
  unfold State.rehead
  split <;> rfl

theorem reheadAll_rest (s : State) : s.reheadAll e im caps = { s with ctxs := (s.reheadAll e im caps).ctxs } := by
  rw [reheadAll_eq]
  refine List.foldlRecOn (motive := fun t : State => t = { s with ctxs := t.ctxs }) _ _ rfl fun t ht c _ => ?_
  rw [rehead_rest, ht]

/-- A context keeps its registers; one under its new header is not DONE. -/
theorem rehead_ctx? (s : State) (c : Nat) {q : CtxRef} {x : Ctx} (hx : s.ctx? q = some x) : ∃ y, (s.rehead e im caps c).ctx? q = some y ∧
    KeepsFile x y ∧ (x.st ≠ .done ∨ q = e.ctx c → y.st ≠ .done) := by
  unfold State.rehead
  by_cases hq : q = e.ctx c
  · rw [← hq, hx]
    cases im.taskOf e.elem c with
    | some t => exact ⟨_, (State.ctx?_setCtx ..).trans (if_pos rfl), keepsFile_rehead x t, fun _ => st_rehead_ne_done x t⟩
    | none => exact ⟨{ x with st := .unbound }, (State.ctx?_setCtx ..).trans (if_pos rfl), ⟨rfl, rfl, rfl, rfl, rfl⟩, fun _ => nofun⟩
  · refine ⟨x, ?_, .refl x, fun h => h.resolve_right hq⟩
    split
    · exact ((State.ctx?_setCtx ..).trans (if_neg hq)).trans hx
    · exact ((State.ctx?_setCtx ..).trans (if_neg hq)).trans hx
    · exact ((State.ctx?_setCtx ..).trans (if_neg hq)).trans hx
    · exact hx

theorem foldl_rehead_ctx? (l : List Nat) (s : State) {q : CtxRef} {x : Ctx} (hx : s.ctx? q = some x) :
    ∃ y, (l.foldl (fun s c => s.rehead e im caps c) s).ctx? q = some y ∧ KeepsFile x y ∧ (x.st ≠ .done ∨ (∃ c ∈ l, q = e.ctx c) → y.st ≠ .done) := by
  induction l generalizing s x with
  | nil => exact ⟨x, hx, .refl x, fun h => h.resolve_right fun ⟨_, hc, _⟩ => nomatch hc⟩
  | cons c l ih =>
    obtain ⟨y, hy, hxy, hdone⟩ := rehead_ctx? e im caps s c hx
    obtain ⟨z, hz, hyz, hlast⟩ := ih (s.rehead e im caps c) hy
    refine ⟨z, hz, hxy.trans hyz, fun h => ?_⟩
    obtain h | ⟨b, hb, hq⟩ := h
    · exact hlast (.inl (hdone (.inl h)))
    · obtain rfl | hb := List.mem_cons.1 hb
      · exact hlast (.inl (hdone (.inr hq)))
      · exact hlast (.inr ⟨b, hb, hq⟩)

/-- Contexts keep their registers; those of the tile with a number below 8 are not DONE. -/
theorem reheadAll_ctx? (s : State) {q : CtxRef} {x : Ctx} (hx : s.ctx? q = some x) :
    ∃ y, (s.reheadAll e im caps).ctx? q = some y ∧ KeepsFile x y ∧ (q.tile = e → q.ctx < 8 → y.st ≠ .done) := by
  obtain ⟨y, hy, hxy, hdone⟩ := foldl_rehead_ctx? e im caps (List.range 8) s hx
  refine ⟨y, hy, hxy, fun hq hlt => hdone (.inr ⟨q.ctx, List.mem_range.2 hlt, ?_⟩)⟩
  rw [← hq]
  rfl

end Rehead

theorem switchTo_facts {s : State} {e : ElemRef} {el : Elem} (hel : s.elem? e = some el) (g : Nat) (fs : List Frame) :
    let t := s.switchTo e g fs
    (∃ k, t.elem? e = some k ∧ k.active = some g ∧ k.select = el.select.drop 1 ∧ k.cache.head? = some (g, fs) ∧ k.store = el.store) ∧ t.wins = s.wins ∧
      (∀ q ch, s.chan? q = some ch → ∃ c, t.chan? q = some c ∧ c.items = ch.items ∧ c.slots = ch.slots) ∧
      ∀ q x, s.ctx? q = some x → ∃ y, t.ctx? q = some y ∧ KeepsFile x y ∧ (q.tile = e → el.kind = .tile → q.ctx < 8 → y.st ≠ .done) := by
  unfold State.switchTo
  extract_lets rs im isTile relink s1 s2 s3 s4 tl s5 t
  obtain ⟨helems, hchans, hctx, hwins⟩ : s4.elems = s1.elems ∧ s4.chans = s2.chans ∧ s4.ctxs = s.ctxs ∧ s4.wins = s.wins := by
    unfold s4 s3
    split <;> split <;> exact ⟨rfl, rfl, rfl, rfl⟩
  have hunit (t : State) (ht : t.elems = s4.elems) : ∃ k, t.elem? e = some k ∧ k.active = some g ∧ k.select = el.select.drop 1 ∧
      k.cache.head? = some (g, fs) ∧ k.store = el.store := by
    refine ⟨relink el, ?_, rfl, rfl, rfl, rfl⟩
    rw [State.elem?_congr (ht.trans helems), State.elem?_modElem, if_pos rfl, hel, Option.map_some]
  have hchan (t : State) (ht : t.chans = s4.chans) (q : ChanRef) (ch : Chan) (hq : s.chan? q = some ch) :
      ∃ c, t.chan? q = some c ∧ c.items = ch.items ∧ c.slots = ch.slots := by
    have hmap : s2.chan? q = (s.chan? q).map _ := tget_tmap s.chans (fun (k : ChanRef) c => if k.at = e then
      { c with fmt := BitVec.ofNat 5 (im.fmtEntry e.elem k.vc).1, scale := BitVec.ofNat 8 (im.fmtEntry e.elem k.vc).2 } else c) q
    rw [State.chan?_congr (ht.trans hchans)]
    rw [hmap, hq]
    refine ⟨_, rfl, ?_, ?_⟩
    · split <;> rfl
    · split <;> rfl
  have hkind : el.kind = .tile → isTile = true := fun h => by
    simp only [isTile, hel, h]
    rfl
  cases htile : isTile with
  | false =>
    have ht : t = s4 := if_neg (by rw [htile]; exact Bool.false_ne_true)
    rw [ht]
    refine ⟨hunit s4 rfl, hwins, hchan s4 rfl, fun q x hq => ⟨x, ?_, .refl x, fun _ hk => ?_⟩⟩
    · rw [State.ctx?, hctx]
      exact hq
    · rw [hkind hk] at htile
      exact nomatch htile
  | true =>
    obtain ⟨u, hu⟩ : ∃ u, u = s5.modTile e fun x => { x with imem := tl.imem, weight := tl.weight, floor := tl.floor } := ⟨_, rfl⟩
    have ht : t = u.reheadAll e im rs.caps := (if_pos htile).trans (by rw [hu])
    have helems : u.elems = s4.elems := by rw [hu]; rfl
    have hchans : u.chans = s4.chans := by rw [hu]; rfl
    have hwins : u.wins = s.wins := by rw [hu]; exact hwins
    have hctx : u.ctxs = s.ctxs := by rw [hu]; exact hctx
    rw [ht]
    refine ⟨hunit _ (by rw [reheadAll_rest]; exact helems), by rw [reheadAll_rest]; exact hwins, hchan _ (by rw [reheadAll_rest]; exact hchans), fun q x hq => ?_⟩
    have hqu : u.ctx? q = some x := by rw [State.ctx?, hctx]; exact hq
    obtain ⟨y, hy, hxy, hdone⟩ := reheadAll_ctx? e im rs.caps u hqu
    exact ⟨y, hy, hxy, fun hqe _ => hdone hqe⟩

section Unit
variable {s : State} {e : ElemRef} {el : Elem} {rs : Res} (harg : s.arg = .elem e) (hel : s.elem? e = some el) (hrs : s.res? e.rid = some rs)

/-! A select token at a unit (R104) -/

theorem res?_remoteLetter {s : State} {rid : Nat} {rs : Res} (hrs : s.res? rid = some rs) (code elem who pc i0 i1 : Nat) :
    ∃ r l, (s.remoteLetter rid code elem who pc i0 i1).res? rid = some r ∧ r.letters = rs.letters ++ [l] ∧
      l.body.toNat / 2 ^ 8 % 2 ^ 8 = code % 256 ∧ l.body.toNat / 2 ^ 128 % 2 ^ 64 = i0 % 2 ^ 64 := by
  obtain ⟨r, l, hr, hl, -, -, -, hbody⟩ := State.res?_fileLetter s rid elem who (letterBeat s rid code elem who pc i0 i1 true false false) false hrs
  obtain ⟨d, x, y, hbeat⟩ := letterBeat_eq s rid code elem who pc i0 i1 true false false
  have hlaid := laid_letterLayout code ((s.res? rid).getD {}).tag ((s.res? rid).getD {}).region elem d x y who pc i0 i1 s.cycle true false false
  refine ⟨r, l, hr, hl, ?_, ?_⟩
  · rw [hbody, hbeat]
    exact hlaid.field_beatOf (hi := 15) (by simp [letterLayout]) (by decide)
  · rw [hbody, hbeat]
    exact hlaid.field_beatOf (hi := 191) (by simp [letterLayout]) (by decide)

section Select
variable {v g : Nat} {gs : List (Nat × Nat)} (hsel : el.select = (v, g) :: gs)
include harg hel hrs hsel

theorem contextSwitch_between (hb : s.boundary e = false) : exec .contextSwitch s = .next s := by
  rw [exec_contextSwitch, execContextSwitch, harg]
  simp only [hel, hrs, hsel, hb, Bool.not_false, Bool.or_true, Bool.true_or, if_true]

variable (hacts : s.acts e = true) (hb : s.boundary e = true) (hfetch : el.fetch = none)
include hacts hb hfetch

theorem contextSwitch_letter (hmiss : ∀ p ∈ el.cache, p.1 ≠ g) (hnone : s.storedGroup rs g = none) : ∃ t, exec .contextSwitch s = .next t ∧
    t.elem? e = some { el with select := gs } ∧ t.ctxs = s.ctxs ∧ t.tiles = s.tiles ∧ t.chans = s.chans ∧ ∃ r l, t.res? e.rid = some r ∧
      r.letters = rs.letters ++ [l] ∧ l.body.toNat / 2 ^ 8 % 2 ^ 8 = tILLEGAL ∧ l.body.toNat / 2 ^ 128 % 2 ^ 64 = g % 2 ^ 64 := by
  have hfind : el.cache.find? (fun p => p.1 == g) = none := List.find?_eq_none.2 fun p hp => by simpa using hmiss p hp
  refine ⟨(s.modElem e fun el => { el with select := el.select.drop 1 }).remoteLetter e.rid tILLEGAL e.elem (if el.kind = .op then 10 else 0) 0 g 0,
    ?_, ?_, rfl, rfl, rfl, ?_⟩
  · rw [exec_contextSwitch, execContextSwitch, harg]
    simp only [hel, hrs, hsel, hacts, hb, hfetch, hfind, hnone, Bool.not_true, Option.isSome_none, Option.isNone_none, Bool.or_self, Bool.false_eq_true, if_false, if_true]
  · rw [State.remoteLetter, State.elem?_congr (State.fileLetter_elems ..), State.elem?_modElem, if_pos rfl, hel, Option.map_some, hsel, List.drop_one,
      List.tail_cons]
  · have hres : (s.modElem e fun el => { el with select := el.select.drop 1 }).res? e.rid = some rs := hrs
    obtain ⟨r, l, hr, hl, hcode, hinfo⟩ := res?_remoteLetter hres tILLEGAL e.elem (if el.kind = .op then 10 else 0) 0 g 0
    exact ⟨r, l, hr, hl, hcode, hinfo⟩

theorem contextSwitch_fetch (hmiss : ∀ p ∈ el.cache, p.1 ≠ g) (hstored : s.storedGroup rs g ≠ none) : ∃ t d, exec .contextSwitch s = .next t ∧
    s.cycle < d ∧ t.elem? e = some { el with fetch := some (g, d) } ∧ t.ctxs = s.ctxs ∧ t.tiles = s.tiles ∧ t.chans = s.chans := by
  have hfind : el.cache.find? (fun p => p.1 == g) = none := List.find?_eq_none.2 fun p hp => by simpa using hmiss p hp
  have hsome : (s.storedGroup rs g).isNone = false := by simpa [Option.ne_none_iff_isSome] using hstored
  refine ⟨((s.later 1).2.modElem e fun el => { el with fetch := some (g, (s.later 1).1) }).active e.rid, (s.later 1).1, ?_, ?_, ?_, ?_, ?_, ?_⟩
  · rw [exec_contextSwitch, execContextSwitch, harg]
    simp only [hel, hrs, hsel, hacts, hb, hfetch, hfind, hsome, Bool.not_true, Option.isSome_none, Bool.or_self, Bool.false_eq_true, if_false]
  · rw [State.later]
    omega
  · rw [State.elem?_congr (State.active_elems ..), State.elem?_modElem, if_pos rfl, show (s.later 1).2.elem? e = some el from hel, Option.map_some]
  · rw [State.active_ctxs]; rfl
  · rw [State.active_tiles]; rfl
  · rw [State.active_chans]; rfl

theorem contextSwitch_cached {fs : List Frame} (hcache : el.cache.find? (fun p => p.1 == g) = some (g, fs)) :
    exec .contextSwitch s = .next ((s.switchTo e g fs).active e.rid) := by
  rw [exec_contextSwitch, execContextSwitch, harg]
  simp only [hel, hrs, hsel, hacts, hb, hfetch, hcache, Bool.not_true, Option.isSome_none, Bool.or_self, Bool.false_eq_true, if_false]

theorem contextSwitch_switches {fs : List Frame} (hcache : el.cache.find? (fun p => p.1 == g) = some (g, fs)) :
    ∃ t k, exec .contextSwitch s = .next t ∧ t.elem? e = some k ∧ k.active = some g ∧ k.select = gs ∧ k.cache.head? = some (g, fs) ∧
      k.store = el.store ∧ t.wins = s.wins ∧
      (∀ q ch, s.chan? q = some ch → ∃ c, t.chan? q = some c ∧ c.items = ch.items ∧ c.slots = ch.slots) ∧
      ∀ q x, q.tile = e → s.ctx? q = some x → ∃ y, t.ctx? q = some y ∧ y.s = x.s ∧ y.v = x.v ∧ y.k = x.k ∧ y.c = x.c ∧
        y.flags = x.flags ∧ (el.kind = .tile → q.ctx < 8 → y.st ≠ .done) := by
  obtain ⟨⟨k, hk, hactive, hselect, hhead, hstore⟩, hwins, hchan, hctx⟩ := switchTo_facts hel g fs
  refine ⟨_, k, contextSwitch_cached harg hel hrs hsel hacts hb hfetch hcache, ?_, hactive, by rw [hselect, hsel]; rfl, hhead, hstore, ?_,
    fun q ch hq => ?_, fun q x hqe hq => ?_⟩
  · rw [State.elem?_congr (State.active_elems ..), hk]
  · rw [State.active_wins, hwins]
  · rw [State.chan?_congr (State.active_chans ..)]
    exact hchan q ch hq
  · obtain ⟨y, hy, hfile, hdone⟩ := hctx q x hq
    exact ⟨y, (State.ctx?_active ..).trans hy, hfile.s, hfile.v, hfile.k, hfile.c, hfile.flags, hdone hqe⟩

end Select

end Unit

end Sys2Proof.Machine
end

section
/-! SUPPORT. The end of a drain, and the save area (R327, R328, R331-R334). -/

namespace Sys2Proof.Machine

open Sys2Proof.Safety

/-! SAVING begins -/

/-- Contexts, elements and residencies are as before. -/
structure BesideRegion (s t : State) : Prop where
  ctxs : t.ctxs = s.ctxs
  elems : t.elems = s.elems
  ress : t.ress = s.ress

theorem BesideRegion.refl (s : State) : BesideRegion s s := ⟨rfl, rfl, rfl⟩

theorem BesideRegion.trans {s t u : State} (h1 : BesideRegion s t) (h2 : BesideRegion t u) : BesideRegion s u :=
  ⟨h2.ctxs.trans h1.ctxs, h2.elems.trans h1.elems, h2.ress.trans h1.ress⟩

theorem BesideRegion.foldl {α : Type} {f : State → α → State} (hf : ∀ s a, BesideRegion s (f s a)) (l : List α) (s : State) :
    BesideRegion s (l.foldl f s) :=
  List.foldlRecOn l f (.refl s) fun _ h a _ => h.trans (hf _ a)

theorem BesideRegion.genRewind (s : State) (k : GenRef) : BesideRegion s (s.genRewind k) := by
  unfold State.genRewind
  split
  · exact .refl s
  · split
    · exact .refl s
    · exact (BesideRegion.foldl (f := State.dropAcc) (fun _ _ => ⟨rfl, rfl, rfl⟩) _ s).trans ⟨rfl, rfl, rfl⟩

theorem BesideRegion.sinkItem (s : State) (rid : Nat) (i : Item) (how sink : Nat) : BesideRegion s (s.sinkItem rid i how sink) := by
  unfold State.sinkItem
  split
  · exact .refl s
  · unfold State.sillage State.trace
    dsimp only
    split
    · exact ⟨rfl, rfl, rfl⟩
    · exact ⟨rfl, rfl, rfl⟩

theorem BesideRegion.endSamples (s : State) (rid : Nat) : BesideRegion s (s.endSamples rid) :=
  (BesideRegion.foldl (fun _ _ => .foldl (fun _ _ => .sinkItem ..) _ _) _ s).trans ⟨rfl, rfl, rfl⟩

theorem BesideRegion.holdTokens (s : State) (rid : Nat) : BesideRegion s (s.holdTokens rid) := ⟨rfl, rfl, rfl⟩

theorem BesideRegion.setRemap (s : State) (rid : Nat) : BesideRegion s (s.setRemap rid) := by
  unfold State.setRemap
  extract_lets base put
  have hput (u : State) (p : PortRef) : BesideRegion u (put u p) := ⟨rfl, rfl, rfl⟩
  exact BesideRegion.trans (t := s.setGenRemap rid) ⟨rfl, rfl, rfl⟩ (.foldl hput _ _)

/-- The contexts of a region that its drain has left running. -/
def State.stillRunning (s : State) (rid : Nat) : List CtxRef :=
  (s.ctxs.filter fun p => p.1.rid == rid && p.2.st != .frozen && p.2.st != .done && p.2.st != .unbound).map (·.1)

/-- The contexts of a region freeze with the round marker's freeze. -/
def State.roundFrozen (s : State) (rid : Nat) : State := (s.stillRunning rid).foldl (fun s r => s.freeze r .round) s

/-- The generators of a region go back to what they have delivered. -/
def State.rewound (s : State) (rid : Nat) : State := ((s.gens.filter fun p => p.1.rid == rid).map (·.1)).foldl State.genRewind s

/-- The elements of a region are saved from now on. -/
def State.elemsSaved (s : State) (rid : Nat) : State := { s with elems := tmap s.elems fun k e => if k.rid = rid then { e with saved := true } else e }

/-- A region begins SAVING. -/
def State.savingBegun (s : State) (rid : Nat) : State := ((((s.modRes rid fun r => { r with st := .saving }).endSamples rid).holdTokens rid)).setRemap rid

theorem BesideRegion.rewound (s : State) (rid : Nat) : BesideRegion s (s.rewound rid) := .foldl .genRewind _ _

theorem BesideRegion.savingBegun (s : State) (rid : Nat) : BesideRegion (s.modRes rid fun r => { r with st := .saving }) (s.savingBegun rid) :=
  ((BesideRegion.endSamples _ rid).trans (.holdTokens _ rid)).trans (.setRemap _ rid)

theorem State.elem?_elemsSaved (s : State) (rid : Nat) {e : ElemRef} {el : Elem} (he : e.rid = rid) (hel : s.elem? e = some el) :
    (s.elemsSaved rid).elem? e = some { el with saved := true } := by
  have hmap := tget_tmap s.elems (fun (k : ElemRef) e => if k.rid = rid then { e with saved := true } else e) e
  rw [show tget s.elems e = some el from hel, Option.map_some, if_pos he] at hmap
  exact hmap

theorem mem_stillRunning {s : State} {rid : Nat} {q : CtxRef} {x : Ctx} (hq : q.rid = rid) (hx : s.ctx? q = some x) (hrun : x.st = .run) :
    q ∈ s.stillRunning rid := by
  refine List.mem_map.2 ⟨(q, x), List.mem_filter.2 ⟨mem_of_tget hx, ?_⟩, rfl⟩
  simp [hq, hrun]

/-- No freeze waits for a context of a region that is drained. -/
theorem freeze_of_drainedOut {s : State} {rid : Nat} (h : s.drainedOut rid = true) {q : CtxRef} {x : Ctx} (hq : q.rid = rid) (hx : s.ctx? q = some x) :
    x.freeze = [] := by
  unfold State.drainedOut at h
  rw [Bool.and_eq_true] at h
  have hnone := List.all_eq_true.1 h.2 _ (mem_of_tget hx)
  simpa [hq] using hnone

section Drain
variable {s : State} {rid : Nat} {rs : Res} (harg : s.arg = .id rid) (hrs : s.res? rid = some rs) (hst : rs.st = .draining)
include harg hrs

theorem drainComplete_goesOn (hnot : s.drainedOut rid = false) : exec .drainComplete s = .next s := by
  rw [exec_drainComplete, execDrainComplete, harg]
  simp only [hrs, hnot, Bool.not_false, Bool.or_true, if_true]

include hst

theorem exec_drainComplete_drained (hdrained : s.drainedOut rid = true) :
    exec .drainComplete s = .next ((((s.roundFrozen rid).rewound rid).elemsSaved rid).savingBegun rid) := by
  rw [exec_drainComplete, execDrainComplete, harg]
  simp only [hrs, hst, hdrained, ne_eq, not_true_eq_false, decide_false, Bool.not_true, Bool.or_self, Bool.false_eq_true, if_false]
  rfl

theorem drainComplete_saves (hdrained : s.drainedOut rid = true) : ∃ t r, exec .drainComplete s = .next t ∧ t.res? rid = some r ∧ r.st = .saving ∧
    (∀ e el, e.rid = rid → s.elem? e = some el → t.elem? e = some { el with saved := true }) ∧
    ∀ q x, q.rid = rid → s.ctx? q = some x → NoRows s q.tile → x.st = .run → s.issueDue q = false → FrozenBy t q x .round := by
  have hexec := exec_drainComplete_drained harg hrs hst hdrained
  have hsaving := BesideRegion.savingBegun (((s.roundFrozen rid).rewound rid).elemsSaved rid) rid
  have hrewound := BesideRegion.rewound (s.roundFrozen rid) rid
  obtain ⟨_, _, hcx, _, _, _, _, _, _, _, _, _, _, _, _, _, hfrozen⟩ := FreezesOnly.freezes s .round (s.stillRunning rid)
  have hress : (s.roundFrozen rid).ress = s.ress := by rw [State.roundFrozen, hfrozen, hcx]
  have helems : (s.roundFrozen rid).elems = s.elems := by rw [State.roundFrozen, hfrozen, hcx]
  refine ⟨_, { rs with st := .saving }, hexec, ?_, rfl, fun e el he hel => ?_, fun q x hq hx hrows hrun hdue => ?_⟩
  · rw [State.res?, hsaving.ress, State.modRes, tget_tmod, if_pos rfl, State.elemsSaved, hrewound.ress, hress]
    exact congrArg (Option.map _) hrs
  · rw [State.elem?_congr hsaving.elems, State.elem?_congr (State.modRes_elems ..)]
    refine State.elem?_elemsSaved _ rid he ?_
    rw [State.elem?_congr hrewound.elems, State.elem?_congr helems, hel]
  · obtain ⟨y, hy, hrest⟩ := frozenBy_of_mem (m := .round) (.inl rfl) (freeze_of_drainedOut hdrained hq hx) (s.stillRunning rid) s
      (mem_stillRunning hq hx hrun) hx hrows (.inl ⟨hrun, hdue⟩)
    refine ⟨y, ?_, hrest⟩
    rw [State.ctx?, hsaving.ctxs, State.modRes_ctxs, State.elemsSaved, hrewound.ctxs]
    exact hy

end Drain

/-! The save area (R331) -/

theorem Memory.word_of_bytes {m : Memory} (n a v : Nat) (h : ∀ k, k < n → m.get (a + k) = byteNo v k) : m.word a n = v % 2 ^ (8 * n) := by
  unfold Memory.word
  induction n generalizing a v with
  | zero => simp [Memory.read, ofBytesLE, Nat.mod_one]
  | succ n ih =>
    have hfirst : (m.get a).toNat = v % 256 := by
      rw [show m.get a = byteNo v 0 from h 0 (Nat.succ_pos n), byteNo]
      simp
    have hrest : ofBytesLE (m.read (a + 1) n) = v / 256 % 2 ^ (8 * n) := ih _ _ fun k hk => by
      rw [← byteNo_succ, Nat.add_assoc, Nat.add_comm 1 k]
      exact h (k + 1) (Nat.succ_lt_succ hk)
    rw [Memory.read, ofBytesLE, hfirst, hrest, Nat.mul_succ, Nat.add_comm (8 * n), Nat.pow_add]
    exact (Nat.mod_mul ..).symm

theorem byteNo_four_add (v k : Nat) : byteNo v (4 + k) = byteNo (v / 2 ^ 32) k := by
  rw [byteNo, byteNo, Nat.mul_add, Nat.pow_add, Nat.div_div_eq_div_mul]

/-- Fields from bit n on leave the bits below n clear. -/
theorem dvd_fields (n : Nat) (l : List (Nat × Nat)) (h : ∀ p ∈ l, n ≤ p.1) : 2 ^ n ∣ fields l := by
  induction l with
  | nil => exact dvd_zero _
  | cons p l ih =>
    rw [fields, List.foldl_cons, foldl_fields_add, Nat.zero_add]
    exact (Dvd.dvd.mul_left (pow_dvd_pow 2 (h p (.head _))) p.2).add (ih fun q hq => h q (List.mem_cons_of_mem _ hq))

/-- The fields of a save area's header behind its magic number and version (R331). -/
def State.saveFields (s : State) (rid now : Nat) : List (Nat × Nat) :=
  let rs := (s.res? rid).getD {}
  let r := s.records rid now
  let off (i : Nat) : Nat := r.offs.getD i 0
  [(80, rs.region), (96, rs.block), (112, rs.tag), (128, now), (224, r.elems.length),
    (240, r.ctxs.length), (256, off 0), (296, off 1), (336, off 2), (376, off 3), (416, (s.remapTable rid r).length), (432, off 4)]

theorem saveImage_eq (s : State) (rid now : Nat) : ∃ l, s.saveImage rid now =
    bytesLE 64 (fields ((0, 0x53445856) :: (32, 1) :: s.saveFields rid now)) ++ l := by
  refine ⟨(s.records rid now).ctxs.flatten ++ (s.records rid now).elems.flatten ++ (s.records rid now).wins.flatten ++
    (s.records rid now).chans.flatten ++ (s.remapTable rid (s.records rid now)).flatten, ?_⟩
  simp only [← List.append_assoc]
  rfl

/-- The number in the header of a save area. -/
theorem saveFields_words (s : State) (rid now : Nat) : ∃ m, fields ((0, 0x53445856) :: (32, 1) :: s.saveFields rid now) = 0x53445856 + 2 ^ 32 + 2 ^ 64 * m := by
  obtain ⟨m, hm⟩ := dvd_fields 64 (s.saveFields rid now) (by simp [State.saveFields])
  refine ⟨m, ?_⟩
  rw [fields, List.foldl_cons, List.foldl_cons, foldl_fields_add, hm]
  rfl

/-- Memory that holds a save image from a on begins there with the magic number and the version. -/
theorem words_of_saveImage {m : Memory} {s : State} {rid now a : Nat}
    (h : ∀ k, k < (s.saveImage rid now).length → m.get (a + k) = (s.saveImage rid now).getD k 0) : m.word a 4 = 0x53445856 ∧ m.word (a + 4) 4 = 1 := by
  obtain ⟨l, hl⟩ := saveImage_eq s rid now
  obtain ⟨v, hv⟩ := saveFields_words s rid now
  generalize fields ((0, 0x53445856) :: (32, 1) :: s.saveFields rid now) = n at *
  have hbyte (k : Nat) (hk : k < 64) : m.get (a + k) = byteNo n k := by
    have hk' : k < (bytesLE 64 n).length := by rwa [length_bytesLE]
    have hlen : k < (s.saveImage rid now).length := by
      rw [hl, List.length_append]
      omega
    rw [h k hlen, hl, List.getD_append _ _ _ _ hk', List.getD_eq_getElem _ _ hk', getElem_bytesLE]
  have hlow := Memory.word_of_bytes 4 a n fun k hk => hbyte k (by omega)
  have hhigh := Memory.word_of_bytes 4 (a + 4) (n / 2 ^ 32) fun k hk => by
    rw [Nat.add_assoc, hbyte (4 + k) (by omega), byteNo_four_add]
  rw [hlow, hhigh]
  omega

/-! The save ends (R327, R331, R339) -/

theorem areaAsleep_of_selfRefresh {s : State} (h : s.selfRefresh = 0) (rs : Res) : s.areaAsleep rs = false := by
  unfold State.areaAsleep State.asleep
  rw [h]
  split
  · exact BitVec.getLsbD_zero
  · rfl

/-- The captures of a region's contexts count the pre-emption that is being saved (R339). -/
def State.capturesCounted (s : State) (rid : Nat) : State :=
  { s with ctxs := tmap s.ctxs fun k x => if k.rid = rid then { x with capture := x.capture.map fun c => { c with outn := c.outn + 1 } } else x }

/-- A residency whose records are written. -/
def Res.savedAs (r : Res) (now : Nat) : Res := { r with st := .saved, savedAt := now, dies := [], spills := [], cutDue := none }

/-- The records do not look at main memory. -/
theorem saveImage_gddr (s : State) (m : Memory) (rid now : Nat) : ({ s with gddr := m }).saveImage rid now = s.saveImage rid now := rfl

theorem saveImage_sched (s : State) (b : Bool) (rid now : Nat) : ({ s with sched := b }).saveImage rid now = s.saveImage rid now := rfl

section WriteImage
variable {s : State} {rid : Nat} {rs : Res} (hrs : s.res? rid = some rs) {a n : Nat} (harea : rs.saveArea = some (a, n))
include hrs harea

theorem writeImage_eq : s.writeImage rid = { s with gddr := s.gddr.write a (s.saveImage rid rs.savedAt) } := by
  simp only [State.writeImage, hrs, harea]

/-- The records stand in the save area, and no other byte has changed. -/
theorem writeImage_get (hwf : s.gddr.wf = true) :
    (∀ k, k < (s.saveImage rid rs.savedAt).length → (s.writeImage rid).gddr.get (a + k) = (s.saveImage rid rs.savedAt).getD k 0) ∧
    ∀ k, k < a ∨ a + (s.saveImage rid rs.savedAt).length ≤ k → (s.writeImage rid).gddr.get k = s.gddr.get k := by
  rw [writeImage_eq hrs harea]
  refine ⟨fun k hk => ?_, fun k hk => ?_⟩
  · rw [Memory.get_write hwf, dif_pos ⟨Nat.le_add_right .., Nat.add_lt_add_left hk a⟩, List.getD_eq_getElem _ _ hk]
    simp only [Nat.add_sub_cancel_left]
  · rw [Memory.get_write hwf, dif_neg (by omega)]

end WriteImage

theorem writeImage_rest (s : State) (rid : Nat) : s.writeImage rid = { s with gddr := (s.writeImage rid).gddr } := by
  cases hrs : s.res? rid with
  | none =>
    have h : s.writeImage rid = s := by simp only [State.writeImage, hrs]
    rw [h]
  | some rs =>
    cases harea : rs.saveArea with
    | none =>
      have h : s.writeImage rid = s := by simp only [State.writeImage, hrs, harea]
      rw [h]
    | some a => rw [writeImage_eq hrs harea]

theorem State.ctx?_capturesCounted (s : State) (rid : Nat) (q : CtxRef) : (s.capturesCounted rid).ctx? q = (s.ctx? q).map fun x =>
    if q.rid = rid then { x with capture := x.capture.map fun c => { c with outn := c.outn + 1 } } else x := by
  unfold State.ctx? State.capturesCounted
  rw [tget_tmap]

section Save
variable {s : State} {rid : Nat} {rs : Res} (harg : s.arg = .id rid) (hrs : s.res? rid = some rs)
include harg hrs

theorem saveComplete_killed (hkill : rs.killed = true) : exec .saveComplete s = .next s := by
  rw [exec_saveComplete, execSaveComplete, harg]
  simp only [hrs, hkill, Bool.or_true, Bool.true_or, if_true]

variable (hst : rs.st = .saving) (hkill : rs.killed = false) (hrefresh : s.selfRefresh = 0)
  (hfreeze : ∀ p ∈ s.ctxs, p.1.rid = rid → p.2.freeze = [])
include hst hkill hrefresh hfreeze

theorem exec_saveComplete_saving : exec .saveComplete s = .next
    { (((s.capturesCounted rid).modRes rid fun r => r.savedAs s.cycle).writeImage rid) with sched := true } := by
  have hnone : (s.ctxs.any fun p => p.1.rid == rid && !p.2.freeze.isEmpty) = false := List.any_eq_false.2 fun p hp => by
    simpa using hfreeze p hp
  rw [exec_saveComplete, execSaveComplete]
  split
  case h_2 hother => exact absurd harg (hother rid)
  obtain rfl : rid = _ := StepArg.id.inj (harg.symm.trans ‹_›)
  simp only [hrs, hst, hkill, areaAsleep_of_selfRefresh hrefresh, hnone, ne_eq, not_true_eq_false, decide_false, Bool.or_self, Bool.false_eq_true, if_false]
  rfl

theorem saveComplete_saves (hcan : MemoryCanonical s) {a n : Nat} (harea : rs.saveArea = some (a, n)) : ∃ t im, exec .saveComplete s = .next t ∧
    im = t.saveImage rid s.cycle ∧
    t.res? rid = some { rs with st := .saved, savedAt := s.cycle, dies := [], spills := [], cutDue := none } ∧
    (∀ k, k < im.length → t.gddr.get (a + k) = im.getD k 0) ∧ (∀ k, k < a ∨ a + im.length ≤ k → t.gddr.get k = s.gddr.get k) ∧
    t.gddr.word a 4 = 0x53445856 ∧ t.gddr.word (a + 4) 4 = 1 ∧ t.bulk = s.bulk ∧ t.host = s.host ∧ t.elems = s.elems ∧ t.sched = true ∧
    (∀ q, q.rid ≠ rid → t.ctx? q = s.ctx? q) ∧
    ∀ q x, q.rid = rid → s.ctx? q = some x → t.ctx? q = some { x with capture := x.capture.map fun c => { c with outn := c.outn + 1 } } := by
  obtain ⟨hwf, -⟩ := hcan
  have hexec := exec_saveComplete_saving harg hrs hst hkill hrefresh hfreeze
  obtain ⟨u, hu⟩ : ∃ u, u = (s.capturesCounted rid).modRes rid fun r => r.savedAs s.cycle := ⟨_, rfl⟩
  rw [← hu] at hexec
  have hres : u.res? rid = some (rs.savedAs s.cycle) := by
    rw [hu, State.res?, State.modRes, tget_tmod, if_pos rfl]
    exact congrArg (Option.map _) hrs
  have harea' : (rs.savedAs s.cycle).saveArea = some (a, n) := harea
  have hctx (q : CtxRef) : u.ctx? q = (s.capturesCounted rid).ctx? q := by rw [hu]; rfl
  obtain ⟨hin, hout⟩ := writeImage_get hres harea' (by rw [hu]; exact hwf)
  obtain ⟨hmagic, hversion⟩ := words_of_saveImage hin
  have hwrite := writeImage_eq hres harea'
  refine ⟨_, u.saveImage rid s.cycle, hexec, ?_, ?_, hin, fun k hk => ?_, hmagic, hversion, ?_, ?_, ?_, rfl, fun q hq => ?_, fun q x hq hx => ?_⟩
  · exact ((saveImage_sched (u.writeImage rid) true rid s.cycle).trans (by rw [hwrite, saveImage_gddr])).symm
  · rw [hwrite]; exact hres
  · refine (hout k hk).trans ?_
    rw [hu]; rfl
  · rw [hwrite, hu]; rfl
  · rw [hwrite, hu]; rfl
  · rw [hwrite, hu]; rfl
  · have hmap := (hctx q).trans (State.ctx?_capturesCounted s rid q)
    rw [hwrite]
    refine hmap.trans ?_
    simp only [if_neg hq, Option.map_id']
  · have hmap := (hctx q).trans (State.ctx?_capturesCounted s rid q)
    rw [hwrite]
    refine hmap.trans ?_
    rw [hx, Option.map_some, if_pos hq]

end Save

end Sys2Proof.Machine
end

section
/-! SUPPORT. Data that reach a saved region (R334, R335). -/

namespace Sys2Proof.Machine

open Sys2Proof.Safety

/-- The records of a SAVED region follow late data. -/
def State.recordsFollow (s : State) (rid : Nat) (rs : Res) : State := if rs.st = .saved then s.writeImage rid else s

/-- The records in the area of a SAVED region are those of t. -/
def RecordsStand (s t : State) (rid : Nat) (rs : Res) : Prop := (rs.st ≠ .saved → t.gddr = s.gddr) ∧ ∀ a n, rs.st = .saved → rs.saveArea = some (a, n) →
  ∀ k, k < (t.saveImage rid rs.savedAt).length → t.gddr.get (a + k) = (t.saveImage rid rs.savedAt).getD k 0

theorem recordsFollow_rest (s : State) (rid : Nat) (rs : Res) : s.recordsFollow rid rs = { s with gddr := (s.recordsFollow rid rs).gddr } := by
  unfold State.recordsFollow
  split
  · exact writeImage_rest s rid
  · rfl

theorem recordsStand_recordsFollow {s u : State} {rid : Nat} {rs : Res} (hg : u.gddr = s.gddr) (hwf : s.gddr.wf = true) (hrs : u.res? rid = some rs) :
    RecordsStand s (u.recordsFollow rid rs) rid rs := by
  refine ⟨fun hst => ?_, fun a n hst harea k hk => ?_⟩
  · rw [State.recordsFollow, if_neg hst, hg]
  · rw [State.recordsFollow, if_pos hst] at hk ⊢
    have himage : (u.writeImage rid).saveImage rid rs.savedAt = u.saveImage rid rs.savedAt := by
      rw [writeImage_eq hrs harea, saveImage_gddr]
    rw [himage] at hk ⊢
    exact (writeImage_get hrs harea (hg ▸ hwf)).1 k hk

/-- The record of a saved window takes a beat where its capacity does, whatever waits or is frozen (R335). -/
theorem fillBeat_saved {s : State} {wr : WinRef} {w : Window} (hw : s.win? wr = some w) (hkill : s.killed wr.rid = false)
    (hsaved : s.savedElem wr.at = true) {b : List Byte} (hfit : w.fill.toNat + b.length / w.size ≤ w.cap.toNat) (k : Waiter) : s.fillBeat wr k b =
    some ((s.winFill wr w b false).modWin wr fun w => { w with xfers := tput w.xfers k (w.xfer k + b.length / w.size) }) := by
  simp only [State.fillBeat, State.fillPlain, hw, hkill, hsaved, hfit, Bool.false_eq_true, if_false, if_true, Option.map_some]

/-- The beat at the head of a saved fill port fills its window's record. -/
theorem portFill_saved {s : State} {c : ChanRef} {ch : Chan} {n : Nat} {it : Item} {l : List Item} {w : Window} (hc : s.chan? c = some ch)
    (hport : ch.port = some n) (hitems : ch.items = it :: l) (hslot : it.slot = true) (hfault : it.fault = none) (hsample : it.sample = none)
    (hlast : it.last = false) (hkill : s.killed c.rid = false) (hsaved : s.savedElem c.at = true) (hw : s.win? (c.at.win n) = some w)
    (hfit : w.fill.toNat + 64 / w.size ≤ w.cap.toNat) : s.portFill c = some (s.beatIn c n w (it.source c.vc) it.beat ch l) := by
  have hfill := portFill_of_fillBeat hc hport hitems hslot hfault hsample
    (fillBeat_saved (b := beatBytes it.beat) hw hkill hsaved (by rw [length_beatBytes]; exact hfit))
  rw [hfill, hlast, if_neg Bool.false_ne_true]

section Late
variable {s : State} {rid : Nat} {rs : Res} {c : ChanRef} {it : Item} {ch : Chan} (harg : s.arg = .id rid) (hrs : s.res? rid = some rs)
  (hout : s.outbox = [(c, it)]) (hc : c.rid = rid) (hsaved : s.savedAt c = true) (hch : s.chan? c = some ch) (hslot : it.slot = true)
  (hrefresh : s.selfRefresh = 0)

section Exec
include harg hrs hout hc hsaved hrefresh

omit hc hsaved in
theorem exec_lateData_one : exec .lateData s = .next ((s.lateGo rid [(c, it)] []).recordsFollow rid rs) := by
  rw [exec_lateData, execLateData]
  split
  case h_2 hother => exact absurd harg (hother rid)
  obtain rfl : rid = _ := StepArg.id.inj (harg.symm.trans ‹_›)
  simp only [hrs, hout, areaAsleep_of_selfRefresh hrefresh, Bool.false_eq_true, if_false, State.recordsFollow, ne_eq, ite_not]
  split <;> rfl

omit harg hrs hrefresh in
theorem lateGo_one : s.lateGo rid [(c, it)] [] = ((s.lateItem c it).map fun u => { u with outbox := [] }).getD s := by
  rw [State.lateGo]
  simp only [hc, hsaved, List.any_nil, ne_eq, not_true_eq_false, decide_false, Bool.not_true, Bool.or_self, Bool.false_eq_true, if_false]
  cases s.lateItem c it with
  | none =>
    rw [State.lateGo, List.nil_append, ← hout]
    rfl
  | some u => rfl

theorem lateData_held (hitem : s.lateItem c it = none) : exec .lateData s = .next (s.recordsFollow rid rs) := by
  rw [exec_lateData_one harg hrs hout hrefresh, lateGo_one hout hc hsaved, hitem]
  rfl

theorem lateData_enters {u : State} (hitem : s.lateItem c it = some u) :
    exec .lateData s = .next (({ u with outbox := [] } : State).recordsFollow rid rs) := by
  rw [exec_lateData_one harg hrs hout hrefresh, lateGo_one hout hc hsaved, hitem]
  rfl

end Exec

section Item
include hch hslot

theorem lateItem_held (hport : ch.port = none) (hfree : ch.free = 0) : s.lateItem c it = none := by
  simp only [State.lateItem, hch, hslot, hport, hfree, Option.isSome_none, Bool.and_false, Bool.false_and, Bool.false_eq_true, if_false, Bool.true_or, if_true]

theorem lateItem_beat (hport : ch.port = none) (hfree : ch.free ≠ 0) : s.lateItem c it = some (s.setChan c { ch with items := ch.items ++ [it] }) := by
  have hit : { it with slot := true } = it := by rw [← hslot]
  simp only [State.lateItem, hch, hslot, hport, hfree, hit, Option.isSome_none, Bool.and_false, Bool.false_and, Bool.false_eq_true, if_false, Bool.true_or,
    if_true]

theorem lateItem_fill {n : Nat} (hport : ch.port = some n) (hempty : ch.items = []) (hfault : it.fault = none) :
    s.lateItem c it = (s.setChan c { ch with items := [it] }).portFill c := by
  have hit : { it with slot := true } = it := by rw [← hslot]
  have hport : (it.slot && ch.port.isSome && ch.items.isEmpty && it.fault.isNone) = true := by rw [hslot, hport, hempty, hfault]; rfl
  simp only [State.lateItem, hch, hport, if_true, hit]
  rw [hempty, List.nil_append]

end Item

include harg hrs hout hc hsaved hch hslot hrefresh

theorem lateData_holds (hcan : MemoryCanonical s) (hport : ch.port = none) (hfree : ch.free = 0) : ∃ t, exec .lateData s = .next t ∧
    t = { s with gddr := t.gddr } ∧ RecordsStand s t rid rs :=
  ⟨_, lateData_held harg hrs hout hc hsaved hrefresh (lateItem_held hch hslot hport hfree), recordsFollow_rest ..,
    recordsStand_recordsFollow rfl hcan.1 hrs⟩

theorem lateData_appends (hcan : MemoryCanonical s) (hport : ch.port = none) (hfree : ch.free ≠ 0) : ∃ t, exec .lateData s = .next t ∧
    t.chan? c = some { ch with items := ch.items ++ [it] } ∧ (∀ q, q ≠ c → t.chan? q = s.chan? q) ∧
    t = { s with chans := t.chans, outbox := [], gddr := t.gddr } ∧ RecordsStand s t rid rs := by
  have hexec := lateData_enters harg hrs hout hc hsaved hrefresh (lateItem_beat hch hslot hport hfree)
  have hrest := recordsFollow_rest { (s.setChan c { ch with items := ch.items ++ [it] }) with outbox := [] } rid rs
  have hstand := recordsStand_recordsFollow (s := s) (u := { (s.setChan c { ch with items := ch.items ++ [it] }) with outbox := [] }) (rid := rid) (rs := rs) rfl hcan.1 hrs
  refine ⟨_, hexec, ?_, fun q hq => ?_, ?_, hstand⟩
  · rw [hrest]
    exact (State.chan?_setChan ..).trans (if_pos rfl)
  · rw [hrest]
    exact (State.chan?_setChan ..).trans (if_neg hq)
  · rw [hrest]
    rfl

theorem lateData_fills (hcan : MemoryCanonical s) {n : Nat} {w : Window} {e : Elem} (hport : ch.port = some n) (hempty : ch.items = [])
    (hfault : it.fault = none) (hsample : it.sample = none) (hlast : it.last = false) (hkill : rs.killed = false) (hw : s.win? (c.at.win n) = some w)
    (he : s.elem? c.at = some e) (hfit : w.fill.toNat + 64 / w.size ≤ w.cap.toNat) :
    ∃ t u, exec .lateData s = .next t ∧ t.win? (c.at.win n) = some u ∧ u.fill.toNat = w.fill.toNat + 64 / w.size ∧ u.cap = w.cap ∧ u.head = w.head ∧
      (∀ i j, i < 64 / w.size → j < w.size → storeByte t c.at (w.offAt (w.fill.toNat + i) + j) = byteNo it.beat.toNat (i * w.size + j)) ∧
      t.chan? c = some ch ∧ t.outbox = [] ∧ t.ctxs = s.ctxs ∧ RecordsStand s t rid rs := by
  obtain ⟨hwfg, -, -, hwf⟩ := hcan
  obtain ⟨v, hv⟩ : ∃ v, v = s.setChan c { ch with items := [it] } := ⟨_, rfl⟩
  have hchv : v.chan? c = some { ch with items := [it] } := by rw [hv]; exact (State.chan?_setChan ..).trans (if_pos rfl)
  have hresv : v.res? c.rid = some rs := by rw [hv, hc]; exact hrs
  have hkillv : v.killed c.rid = false := by simp only [State.killed, hresv, hkill]
  have hitem : s.lateItem c it = some (v.beatIn c n w (it.source c.vc) it.beat { ch with items := [it] } []) := by
    rw [lateItem_fill hch hslot hport hempty hfault, ← hv]
    exact portFill_saved hchv hport rfl hslot hfault hsample hlast hkillv (by rw [hv]; exact hsaved) (by rw [hv]; exact hw) hfit
  have hexec := lateData_enters harg hrs hout hc hsaved hrefresh hitem
  have hrest := beatIn_rest v c n w (it.source c.vc) it.beat { ch with items := [it] } []
  have hchan := beatIn_chan? v c n w (it.source c.vc) it.beat { ch with items := [it] } [] c
  have hwin := beatIn_win? v c n w (it.source c.vc) it.beat { ch with items := [it] } [] (c.at.win n)
  have helem := beatIn_elem? v c n w (it.source c.vc) it.beat { ch with items := [it] } [] (by rw [hv]; exact he)
  generalize v.beatIn c n w (it.source c.vc) it.beat { ch with items := [it] } [] = u at *
  have hgddr : u.gddr = s.gddr := by rw [hrest, hv]; rfl
  have hctxs : u.ctxs = s.ctxs := by rw [hrest, hv]; rfl
  have hres : u.res? rid = some rs := by rw [State.res?, hrest, ← hc]; exact hresv
  obtain ⟨hbytes, -⟩ := stored_of_beat (s := v) (t := u) (by rw [hv]; exact he) (hwf _ _ he) (by omega) helem (by rw [hrest]) (by rw [hrest]) (by rw [hrest])
  have hend := recordsFollow_rest { u with outbox := [] } rid rs
  have hstand := recordsStand_recordsFollow (s := s) (u := { u with outbox := [] }) (rid := rid) (rs := rs) hgddr hwfg hres
  generalize ({ u with outbox := [] } : State).recordsFollow rid rs = t at *
  rw [if_pos rfl] at hwin
  have hself : t.win? (c.at.win n) = u.win? (c.at.win n) := State.win?_congr (by rw [hend]) _
  refine ⟨t, _, hexec, hself.trans hwin, ?_, rfl, rfl, fun i j hi hj => ?_, ?_, ?_, ?_, hstand⟩
  · have hlt : w.fill.toNat + 64 / w.size < 2 ^ 16 := Nat.lt_of_le_of_lt hfit w.cap.isLt
    rw [BitVec.toNat_add, BitVec.toNat_ofNat, Nat.add_mod_mod, Nat.mod_eq_of_lt hlt]
  · rw [hend]
    exact hbytes i j hi hj
  · rw [hend]
    refine (hchan.trans (if_pos rfl)).trans ?_
    rw [← hempty]
  · rw [hend]
  · rw [hend]
    exact hctxs

end Late

end Sys2Proof.Machine
end

section
/-! SUPPORT. The restore of a saved region (R336), and its obligation. -/

namespace Sys2Proof.Machine

open Sys2Proof.Safety

/-- A residency that is restored. -/
def Res.restored (r : Res) : Res :=
  { r with
    st := .resident, stallCnt := 0, armed := true, ownMark := false, check := false, deferredDrain := false, saveArea := r.nextArea, nextArea := none }

/-- An element that is released from its save. -/
def Elem.released (e : Elem) : Elem := { e with saved := false, frozen := none, check := false, sentCnt := [] }

/-- A region's residency and elements go on. -/
def State.regionReleased (s : State) (rid : Nat) : State :=
  { s.modRes rid Res.restored with elems := tmap s.elems fun k e => if k.rid = rid then e.released else e }

/-- What the engines hold for a region leaves. -/
def State.enginesSent (s : State) (rid : Nat) : State := (s.queries.filter fun p => p.2.ctx.rid == rid).foldl (fun s p => s.queryEndGo p.1) (s.sendHeld rid)

/-- The contexts of a region enter their recorded states. -/
def State.ctxsBack (s : State) (rid out : Nat) : State := { s with ctxs := tmap s.ctxs fun k x => if k.rid = rid then x.back out else x }

/-- The generators and ports of a region forget its save. -/
def State.remapCleared (s : State) (rid : Nat) : State :=
  { s.outRun.clearRemap rid with gens := tmap (s.outRun.clearRemap rid).gens fun k g => if k.rid = rid then { g with check := false, paused := false } else g }

/-- Beside channels, ports, generators and the numbers that free values use a cleared remap table changes nothing. -/
theorem remapCleared_rest (s : State) (rid : Nat) : ∃ ch ou bu n po ge, s.remapCleared rid = { s with
    chans := ch, outbox := ou, busy := bu, serial := n, ports := po, gens := ge } := by
  obtain ⟨_, _, _, _, h⟩ : LinksOnly s s.outRun := .outGo ..
  unfold State.remapCleared State.clearRemap State.setGenRemap
  rw [h]
  exact ⟨_, _, _, _, _, _, rfl⟩

theorem LinksOnly.foldl {α : Type} {f : State → α → State} (hf : ∀ s a, LinksOnly s (f s a)) (l : List α) (s : State) : LinksOnly s (l.foldl f s) :=
  List.foldlRecOn l f (.refl s) fun _ h a _ => h.trans (hf _ a)

/-- Without runs, what the engines hold changes channels alone as it leaves. -/
theorem enginesSent_rest {s : State} (hqueries : s.queries = []) (rid : Nat) : ∃ ch ou bu n he, s.enginesSent rid = { s with
    chans := ch, outbox := ou, busy := bu, serial := n, heldBeats := he } := by
  have hsent : s.enginesSent rid = s.sendHeld rid := by rw [State.enginesSent, hqueries]; rfl
  rw [hsent, State.sendHeld]
  obtain ⟨_, _, _, _, h⟩ := LinksOnly.foldl (f := fun s (h : HeldBeat) => s.toChan h.chan h.item) (fun _ _ => .toChan ..)
    (s.heldBeats.filter fun h => h.chan.rid == rid && s.clocked h.die)
    { s with heldBeats := s.heldBeats.filter fun h => !(h.chan.rid == rid && s.clocked h.die) }
  dsimp only
  rw [h]
  exact ⟨_, _, _, _, _, rfl⟩

/-- A window written back: empty of waiters of its tile, at HEAD 0. -/
def Window.back (w : Window) : Window :=
  { w with
    head := 0, fillNow := 0, fillPrev := 0, shrinkNow := 0, busy := none,
    waiters := w.waiters.filter fun k => match k with | .ctx _ | .chan _ => false | _ => true }

section WinBack
variable (s : State) (wr : WinRef) (w : Window)

theorem winBack_win? : (s.winBack wr w).win? wr = some w.back := by
  rw [State.winBack, State.win?_congr (State.modElem_wins ..), State.win?_setWin, if_pos rfl]
  rfl

theorem winBack_rest : s.winBack wr w = { s with wins := (s.winBack wr w).wins, elems := (s.winBack wr w).elems } := rfl

/-- The element of a window written back has its elements from slot 0 on. -/
theorem winBack_elem? {e : Elem} (he : s.elem? wr.at = some e) :
    ∃ k, (s.winBack wr w).elem? wr.at = some k ∧ k.store = e.store.write (w.slotAt 0) (s.winBytes wr w 0 w.fill.toNat) := by
  rw [State.winBack, State.elem?_modElem, if_pos rfl, State.elem?_congr (State.setWin_elems ..), he]
  exact ⟨_, rfl, rfl⟩

end WinBack

/-- The elements that a window holds stand from slot 0 on. -/
theorem get_winBack {s : State} {wr : WinRef} {w : Window} {e : Elem} (he : s.elem? wr.at = some e) (hwf : e.store.wf = true)
    (hfill : w.fill.toNat ≤ w.cap.toNat) {k j : Nat} (hk : k < w.fill.toNat) (hj : j < w.size) :
    (e.store.write (w.slotAt 0) (s.winBytes wr w 0 w.fill.toNat)).get (w.back.offAt k + j) = storeByte s wr.at (w.offAt k + j) := by
  have hoff : w.back.offAt k + j = w.slotAt 0 + (k * w.size + j) := by
    have hmod : ((0 : BitVec 16).toNat + k) % w.cap.toNat = k :=
      (congrArg (· % w.cap.toNat) (Nat.zero_add k)).trans (Nat.mod_eq_of_lt (by omega))
    simp only [Window.offAt, Window.slotAt, Window.back, Window.size, hmod, Nat.zero_mul, Nat.add_zero, Nat.add_assoc]
  have hlt : k * w.size + j < w.fill.toNat * w.size := by
    have hle : (k + 1) * w.size ≤ w.fill.toNat * w.size := Nat.mul_le_mul_right _ hk
    rw [Nat.succ_mul] at hle
    omega
  have hlen : k * w.size + j < (s.winBytes wr w 0 w.fill.toNat).length := by rwa [length_winBytes he]
  have hread := getD_winBytes (o := 0) (n := w.fill.toNat) he hk hj
  rw [Nat.zero_add, List.getD_eq_getElem _ _ hlen] at hread
  rw [hoff, Memory.get_write hwf, dif_pos ⟨Nat.le_add_right .., Nat.add_lt_add_left hlen _⟩, ← hread]
  simp only [Nat.add_sub_cancel_left]

theorem State.elem?_regionReleased (s : State) (rid : Nat) (q : ElemRef) : (s.regionReleased rid).elem? q = (s.elem? q).map fun e =>
    if q.rid = rid then e.released else e := by
  unfold State.elem? State.regionReleased
  exact tget_tmap s.elems (fun (k : ElemRef) e => if k.rid = rid then e.released else e) q

/-- A context that nothing but its region's marker froze is in its state before. -/
theorem back_of_frozen {x : Ctx} (hst : x.st = .frozen) (hcap : x.capture = none) (out : Nat) :
    (x.trapped = true → x.back out = { x with preempted := false }) ∧ (x.trapped = false → x.byCtl = false → x.back out = x.resume) := by
  have hx : ({ x with capture := x.capture.map fun c => { c with out := c.out + out } } : Ctx) = x := by
    rw [hcap, Option.map_none, ← hcap]
  unfold Ctx.back
  rw [hx]
  refine ⟨fun ht => ?_, fun ht hc => ?_⟩
  · dsimp only
    rw [if_pos (by simp [hst, ht])]
  · dsimp only
    rw [if_neg (by simp [ht, hc]), if_pos hst]

theorem resume_untrapped {x : Ctx} (ht : x.trapped = false) : x.resume =
    { x with st := x.was, preempted := false, stopped := false, byCtl := false, waitop := 0 } := by
  simp only [Ctx.resume, ht, Bool.false_and, Bool.false_eq_true, if_false]

section Restore
variable {s : State} {rid : Nat} {rs : Res} {wr : WinRef} {w : Window} {e : Elem} (harg : s.arg = .id rid) (hrs : s.res? rid = some rs)
  (hst : rs.st = .restoring) (hkill : rs.killed = false) (hgens : s.gens = []) (hmigrs : s.migrs = []) (hout : s.outbox = []) (hqueries : s.queries = [])
  (hrefresh : s.selfRefresh = 0) (hwins : s.wins = [(wr, w)]) (hwr : wr.rid = rid)

section Exec
include harg hrs hst hkill hgens hmigrs hrefresh hwins hwr

theorem exec_restore_one : ∃ out, exec .restore s =
    .next (((((s.winBack wr w).regionReleased rid).remapCleared rid).enginesSent rid).ctxsBack rid out) := by
  have hmoving : s.moving rid = false := by rw [State.moving, hmigrs]; rfl
  have hpatch : s.patch rid = (s, none) := by rw [State.patch, hgens]; rfl
  have hwin : s.wins.filter (fun p => p.1.rid == rid) = [(wr, w)] := by rw [hwins]; simp [hwr]
  rw [exec_restore, execRestore]
  split
  case h_2 hother => exact absurd harg (hother rid)
  obtain rfl : rid = _ := StepArg.id.inj (harg.symm.trans ‹_›)
  have hgo : (rs.st ≠ .restoring || rs.killed || s.moving rid || s.areaAsleep rs ||
      s.patternsAsleep ((s.gens.filter (·.1.rid == rid)).map (·.2))) ≠ true := by
    rw [hst, hkill, hmoving, areaAsleep_of_selfRefresh hrefresh, State.patternsAsleep, hrefresh]
    exact Bool.false_ne_true
  rewrite [hrs]
  dsimp -zeta only
  rewrite [if_neg hgo, hpatch]
  dsimp -zeta only
  extract_lets s1 live back src s2 s3 s4 s5 out
  have h1 : s1 = s.winBack wr w := by
    unfold s1
    rw [hwin]
    rfl
  have h2 : s2 = s1.regionReleased rid := rfl
  have h3 : s4 = s2.remapCleared rid := rfl
  have h5 : s5 = s4.enginesSent rid := rfl
  rw [← h1, ← h2, ← h3, ← h5]
  exact ⟨out, rfl⟩

end Exec

include harg hrs hst hkill hgens hmigrs hqueries hrefresh hwins hwr

theorem restore_goesOn (hcan : MemoryCanonical s) (he : s.elem? wr.at = some e) (hfill : w.fill.toNat ≤ w.cap.toNat) :
    ∃ t r u, exec .restore s = .next t ∧ t.res? rid = some r ∧ r.st = .resident ∧ r.stallCnt = 0 ∧
      t.win? wr = some u ∧ u.head = 0 ∧ u.fill = w.fill ∧ u.frozen = w.frozen ∧ u.cap = w.cap ∧
      (∀ k j, k < w.fill.toNat → j < w.size → storeByte t wr.at (u.offAt k + j) = storeByte s wr.at (w.offAt k + j)) ∧
      (∀ q el, q.rid = rid → t.elem? q = some el → el.saved = false ∧ el.frozen = none ∧ el.check = false) ∧
      ∀ q x, q.rid = rid → s.ctx? q = some x → x.st = .frozen → x.capture = none →
        (x.trapped = true → t.ctx? q = some { x with preempted := false }) ∧
        (x.trapped = false → x.byCtl = false → ∃ y, t.ctx? q = some y ∧ y.st = x.was ∧ y.pc = x.pc ∧ y.lc = x.lc ∧ y.preempted = false ∧
          SameRegisters x y) := by
  obtain ⟨-, -, -, hwf⟩ := hcan
  obtain ⟨out, hexec⟩ := exec_restore_one harg hrs hst hkill hgens hmigrs hrefresh hwins hwr
  obtain ⟨v, hv⟩ : ∃ v, v = (s.winBack wr w).regionReleased rid := ⟨_, rfl⟩
  rw [← hv] at hexec
  obtain ⟨hctxs, helems, hress, hwinsT⟩ : ((v.remapCleared rid).enginesSent rid).ctxs = v.ctxs ∧ ((v.remapCleared rid).enginesSent rid).elems = v.elems ∧
      ((v.remapCleared rid).enginesSent rid).ress = v.ress ∧ ((v.remapCleared rid).enginesSent rid).wins = v.wins := by
    obtain ⟨_, _, _, _, _, _, hcleared⟩ := remapCleared_rest v rid
    have hnone : (v.remapCleared rid).queries = [] := by rw [hcleared, hv]; exact hqueries
    obtain ⟨_, _, _, _, _, hsent⟩ := enginesSent_rest hnone rid
    rw [hsent, hcleared]
    exact ⟨rfl, rfl, rfl, rfl⟩
  generalize (v.remapCleared rid).enginesSent rid = u at *
  have hres : (u.ctxsBack rid out).res? rid = some rs.restored := by
    rw [State.res?, State.ctxsBack, hress, hv, State.regionReleased, State.modRes, tget_tmod, if_pos rfl]
    exact congrArg (Option.map _) hrs
  have hwin : (u.ctxsBack rid out).win? wr = some w.back := by
    rw [State.win?, State.ctxsBack, hwinsT, hv]
    exact winBack_win? s wr w
  have helem (q : ElemRef) (hq : q.rid = rid) : (u.ctxsBack rid out).elem? q = ((s.winBack wr w).elem? q).map Elem.released := by
    rw [State.elem?_congr (t := u.ctxsBack rid out) helems, hv, State.elem?_regionReleased]
    simp only [hq, if_true]
  have hctx (q : CtxRef) (x : Ctx) (hq : q.rid = rid) (hx : s.ctx? q = some x) : (u.ctxsBack rid out).ctx? q = some (x.back out) := by
    have hback := tget_tmap u.ctxs (fun (k : CtxRef) x => if k.rid = rid then x.back out else x) q
    have hxu : tget u.ctxs q = some x := by rw [hctxs, hv]; exact hx
    rw [hxu, Option.map_some, if_pos hq] at hback
    exact hback
  refine ⟨_, _, _, hexec, hres, rfl, rfl, hwin, rfl, rfl, rfl, rfl, fun k j hk hj => ?_, fun q el hq hel => ?_, fun q x hq hx hfrozen hcap => ?_⟩
  · obtain ⟨z, hz, hstore⟩ := winBack_elem? s wr w he
    rw [storeByte, helem wr.at hwr, hz, ← get_winBack he (hwf _ _ he) hfill hk hj, ← hstore]
    rfl
  · obtain ⟨z, -, rfl⟩ := Option.map_eq_some_iff.1 ((helem q hq).symm.trans hel)
    exact ⟨rfl, rfl, rfl⟩
  · obtain ⟨htrapped, hresumed⟩ := back_of_frozen hfrozen hcap out
    rw [hctx q x hq hx]
    refine ⟨fun ht => by rw [htrapped ht], fun ht hc => ⟨_, rfl, ?_⟩⟩
    rw [hresumed ht hc, resume_untrapped ht]
    exact ⟨rfl, rfl, rfl, rfl, by constructor <;> rfl⟩

end Restore

/-- Settles O56: what a drain's end, a save, late data and a restore write, and what a unit's contexts and their store do. -/
theorem regionsSaveAndRestore : Obligations.RegionsSaveAndRestore := by
  refine ⟨?drain, ?late, ?restore, ?switch, ?store⟩
  case drain =>
    intro s rid rs harg hrs
    exact ⟨fun _ => drainComplete_goesOn harg hrs, drainComplete_saves harg hrs, fun _ => saveComplete_killed harg hrs,
      fun hst hkill hrefresh hfreeze hcan _ _ => saveComplete_saves harg hrs hst hkill hrefresh hfreeze hcan⟩
  case late =>
    intro s rid rs c it ch harg hrs hout hc hsaved hch hslot hrefresh hcan
    exact ⟨lateData_holds harg hrs hout hc hsaved hch hslot hrefresh hcan, lateData_appends harg hrs hout hc hsaved hch hslot hrefresh hcan,
      fun n w e hport hempty hfault hsample hlast hkill hw _ he =>
        lateData_fills harg hrs hout hc hsaved hch hslot hrefresh hcan hport hempty hfault hsample hlast hkill hw he⟩
  case restore =>
    intro s rid rs harg hrs hst hkill hgens hmigrs _ hqueries hrefresh hcan wr w e hwins hwr he _ hfill
    exact restore_goesOn harg hrs hst hkill hgens hmigrs hqueries hrefresh hwins hwr hcan he hfill
  case switch =>
    intro s e el rs v g gs harg hel hrs hsel
    exact ⟨contextSwitch_between harg hel hrs hsel,
      fun hacts hb hfetch hmiss => ⟨contextSwitch_letter harg hel hrs hsel hacts hb hfetch hmiss, contextSwitch_fetch harg hel hrs hsel hacts hb hfetch hmiss⟩,
      fun fs hacts hb hfetch => contextSwitch_switches harg hel hrs hsel hacts hb hfetch,
      fun d h hfetch => ⟨contextFetchDone_early harg hel hrs hfetch, contextFetchDone_caches harg hel hrs hfetch⟩⟩
  case store =>
    intro s rid rs bs harg hrs hst hcompat
    refine ⟨fun hcrc hsig hroom => contextStoreAdd_enters harg hrs hst hcompat (addErr_eq_none_iff.2 ⟨hcrc, hsig, hroom⟩),
      fun hbad => contextStoreAdd_records harg hrs hst hcompat fun hok => ?_⟩
    obtain ⟨hcrc, hsig, hroom⟩ := addErr_eq_none_iff.1 hok
    exact hbad.elim (· hcrc) fun h => h.elim (· hsig) fun h => Nat.not_lt.2 hroom h

end Sys2Proof.Machine
end
